-- ==== Sys2Proof/Word.lean ====
section
/-! DEFINITION. The word types of the Boreth architecture and their plainest arithmetic (00_scope.md R2, 02_machine.md R19,
03_encoding.md R60). -/

namespace Sys2Proof

/-- One byte of memory. -/
abbrev Byte := BitVec 8

/-- A 64-bit register (Table 2.3). -/
abbrev Word := BitVec 64

/-- A 512-bit register, ring entry or memory line (Table 2.3, R30). -/
abbrev Vec := BitVec 512

/-- `Bits(x, hi, lo)` of Table 3.21 on a natural number: bits [lo+n-1 : lo]. -/
def bitsAt (x lo n : Nat) : Nat := x / 2 ^ lo % 2 ^ n

/-- `SignExtend(x, n)` of Table 3.21: the two's-complement value of the n-bit pattern x. -/
def sext (n x : Nat) : Int := if x % 2 ^ n < 2 ^ (n - 1) then (x % 2 ^ n : Int) else (x % 2 ^ n : Int) - 2 ^ n

/-- `Wrap(x, n)` of Table 3.21: the n-bit pattern congruent to x, as a natural number. -/
def wrap (n : Nat) (x : Int) : Nat := (x % 2 ^ n).toNat

/-- `Sat(x, lo, hi)` of Table 3.21. -/
def sat (x lo hi : Int) : Int := if x < lo then lo else if hi < x then hi else x

/-- The least multiple count: `ceil(a / b)` of R5. -/
def ceilDiv (a b : Nat) : Nat := (a + b - 1) / b

/-- `Lane(v, i, w)` of Table 3.21 on a 512-bit value, as an unsigned number. -/
def lane (v : Vec) (i w : Nat) : Nat := bitsAt v.toNat (w * i) w

/-- The 512-bit value whose w-bit lanes 0, 1, ... are the listed numbers. -/
def ofLanes (w : Nat) : List Nat → Nat
  | [] => 0
  | x :: xs => x % 2 ^ w + 2 ^ w * ofLanes w xs

/-- Lanes 0 to n-1 built from a function of the lane number. -/
def mkLanes (w n : Nat) (f : Nat → Nat) : Vec := BitVec.ofNat 512 (ofLanes w ((List.range n).map f))

/-- The little-endian number of a byte list (R39). -/
def ofBytes : List Byte → Nat
  | [] => 0
  | b :: bs => b.toNat + 256 * ofBytes bs

/-- The n bytes of a number, little-endian (R39). -/
def toBytes : Nat → Nat → List Byte
  | 0, _ => []
  | n + 1, x => BitVec.ofNat 8 x :: toBytes n (x / 256)

/-- 1 for true and 0 for false. -/
def bit (b : Bool) : Nat := if b then 1 else 0

end Sys2Proof
end

