-- ==== Sys2Proof/Syntax.lean ====
section
/-! DEFINITION. The instructions of the nine slots and the events of the engines, the fabric and the host: one
constructor per row of spec/opcode_table.json. Fields are those of 03_encoding.md and of the chapters' own tables. -/

namespace Sys2Proof

/-- The nine slots in slot order (Table 3.1). -/
inductive Slot where
  | S | V0 | V1 | M | L | W | C | Y | X
  deriving DecidableEq, Repr

/-- The presence-bit number of a slot (Table 3.1). -/
def Slot.num : Slot → Nat
  | .S => 0 | .V0 => 1 | .V1 => 2 | .M => 3 | .L => 4 | .W => 5 | .C => 6 | .Y => 7 | .X => 8

/-- The slots in slot order. -/
def Slot.all : List Slot := [.S, .V0, .V1, .M, .L, .W, .C, .Y, .X]

/-- The predicate field and the invert bit of a slot word (R21). -/
structure Guard where
  pred : BitVec 4
  inv  : Bool
  deriving DecidableEq, Repr

/-- Element formats (Table 2.6). -/
inductive Fmt where
  | b8 | b16 | b32 | b64 | s8 | s16 | s32 | s64 | f32 | f16 | bf16 | e4m3 | e5m2 | e2m1 | t8 | t6
  deriving DecidableEq, Repr

/-- Foreign destination files (Table 3.6). -/
inductive File where
  | s | v0 | v1 | k0 | k1 | m | b | w | e | y | t | p | c
  deriving DecidableEq, Repr

/-- What an operand code names (Tables 3.5 and 9.2): a register of the slot's own file, a ring pop (a push as a
destination), a ring peek, a common-file register, a drain-queue pop. -/
inductive Opnd where
  | own  (i : BitVec 10)
  | pop  (q : BitVec 5)
  | peek (q : BitVec 5)
  | com  (c : BitVec 6)
  | dq   (n : BitVec 2)
  deriving DecidableEq, Repr

/-- A destination in a foreign-destination form (R48): FILE 0 with an operand code, or a file with a plain index. -/
inductive Dest where
  | here (o : Opnd)
  | file (f : File) (i : BitVec 10)
  deriving DecidableEq, Repr

/-- Scope codes of a SCOPE field (Table 2.1); 0 takes the bundle's own scope. -/
abbrev ScopeCode := BitVec 3

/-- A numbered packet as a link delivers it (R367): its sequence number, whether its check passes, and what it carries. KIND: 0 read of
the number of bytes in the data, 1 write, 2 atomic, 3 beat, 4 `cget` request, 5 barrier arrival, 6 reply, 7 failure, 8 phase flip,
9 withdraw, 10 horizons; dst the module it goes to, src, loc and entry its requester. -/
structure LinkFrame where
  seq   : Nat
  good  : Bool
  kind  : Nat
  vd    : Nat
  dst   : Nat
  ep    : Nat
  src   : Nat
  loc   : Nat
  entry : Nat
  addr  : Nat
  va    : Nat
  off   : Nat
  tag   : Nat
  fam   : Bool
  epoch : Nat
  cls   : Nat
  chan  : Nat
  data  : List Byte
  deriving DecidableEq, Repr

/-- A range-table entry as the hypervisor gives it (Table 22.2). -/
structure RangeEntry where
  vbase  : Nat
  vlimit : Nat
  offset : Int
  w      : Bool
  r      : Bool
  v      : Bool
  deriving DecidableEq, Repr

/-- The operations of the nine slots and the events of the module, one constructor per row of the opcode table. -/
inductive Instr where
  -- S slot (04_scalar.md)
  | add (g : Guard) (d a b : Opnd)
  | sub (g : Guard) (d a b : Opnd)
  | addsl (g : Guard) (d a b : Opnd) (sh : BitVec 6)
  | mul (g : Guard) (d a b : Opnd)
  | mulh (g : Guard) (d a b : Opnd)
  | mulhB (g : Guard) (d a b : Opnd)
  | div (g : Guard) (d a b : Opnd)
  | divB (g : Guard) (d a b : Opnd)
  | rem (g : Guard) (d a b : Opnd)
  | remB (g : Guard) (d a b : Opnd)
  | and (g : Guard) (d a b : Opnd)
  | or (g : Guard) (d a b : Opnd)
  | xor (g : Guard) (d a b : Opnd)
  | andn (g : Guard) (d a b : Opnd)
  | shl (g : Guard) (d a b : Opnd)
  | shr (g : Guard) (d a b : Opnd)
  | sra (g : Guard) (d a b : Opnd)
  | rotl (g : Guard) (d a b : Opnd)
  | fshl (g : Guard) (d a b : Opnd) (sh : BitVec 6)
  | fshr (g : Guard) (d a b : Opnd) (sh : BitVec 6)
  | clz (g : Guard) (d a : Opnd)
  | ctz (g : Guard) (d a : Opnd)
  | popc (g : Guard) (d a : Opnd)
  | min (g : Guard) (d a b : Opnd)
  | max (g : Guard) (d a b : Opnd)
  | minB (g : Guard) (d a b : Opnd)
  | maxB (g : Guard) (d a b : Opnd)
  | bfx (g : Guard) (d a b : Opnd) (sx : Bool)
  | bfi (g : Guard) (d a b : Opnd)
  | sel (g : Guard) (d a b : Opnd) (psel : BitVec 4) (pinv : Bool)
  | cmp (g : Guard) (p cc : BitVec 4) (a b : Opnd)
  | pand (g : Guard) (d a b : BitVec 4) (na nb : Bool)
  | por (g : Guard) (d a b : BitVec 4) (na nb : Bool)
  | pnot (g : Guard) (d a : BitVec 4)
  | addi (g : Guard) (d a : Opnd) (imm : BitVec 23)
  | andi (g : Guard) (d a : Opnd) (imm : BitVec 23)
  | ori (g : Guard) (d a : Opnd) (imm : BitVec 23)
  | xori (g : Guard) (d a : Opnd) (imm : BitVec 23)
  | shli (g : Guard) (d a : Opnd) (imm : BitVec 23)
  | shri (g : Guard) (d a : Opnd) (imm : BitVec 23)
  | srai (g : Guard) (d a : Opnd) (imm : BitVec 23)
  | li (g : Guard) (d : Opnd) (imm : BitVec 23)
  | lih (g : Guard) (d a : Opnd) (imm : BitVec 23)
  | cmpi (g : Guard) (p cc : BitVec 4) (a : Opnd) (imm : BitVec 23)
  | br (g : Guard) (imm : BitVec 23)
  | jmp (g : Guard) (imm : BitVec 23)
  | jmpr (g : Guard) (a : Opnd)
  | call (g : Guard) (d : Opnd) (imm : BitVec 23)
  | ret (g : Guard) (a : Opnd)
  | loop (g : Guard) (a : Opnd) (imm : BitVec 23)
  | halt (g : Guard)
  | xmov (g : Guard) (dst : Dest) (a : Opnd) (lane : BitVec 3) (bcast : Bool)
  | rdsr (g : Guard) (d : Opnd) (sr : BitVec 23)
  | wrsr (g : Guard) (sr : BitVec 23) (a : Opnd)
  | mrsData (g : Guard) (a : Opnd)
  | rdts (g : Guard) (d : Opnd)
  -- V0 and V1 slots (07_vector.md); k is the field [51:48]
  | vadd (g : Guard) (d a b : Opnd) (t : Fmt) (k : BitVec 4)
  | vsub (g : Guard) (d a b : Opnd) (t : Fmt) (k : BitVec 4)
  | vmul (g : Guard) (d a b : Opnd) (t : Fmt) (k : BitVec 4)
  | vmulh (g : Guard) (d a b : Opnd) (t : Fmt) (k : BitVec 4)
  | vmin (g : Guard) (d a b : Opnd) (t : Fmt) (k : BitVec 4)
  | vmax (g : Guard) (d a b : Opnd) (t : Fmt) (k : BitVec 4)
  | vabs (g : Guard) (d a : Opnd) (t : Fmt) (k : BitVec 4)
  | vand (g : Guard) (d a b : Opnd) (t : Fmt) (k : BitVec 4)
  | vor (g : Guard) (d a b : Opnd) (t : Fmt) (k : BitVec 4)
  | vxor (g : Guard) (d a b : Opnd) (t : Fmt) (k : BitVec 4)
  | vandn (g : Guard) (d a b : Opnd) (t : Fmt) (k : BitVec 4)
  | vshl (g : Guard) (d a b : Opnd) (t : Fmt) (k : BitVec 4)
  | vshr (g : Guard) (d a b : Opnd) (t : Fmt) (k : BitVec 4)
  | vsra (g : Guard) (d a b : Opnd) (t : Fmt) (k : BitVec 4)
  | vfsh (g : Guard) (d a b : Opnd) (t : Fmt) (right : Bool)
  | vclz (g : Guard) (d a : Opnd) (t : Fmt) (k : BitVec 4)
  | vpopc (g : Guard) (d a : Opnd) (t : Fmt) (k : BitVec 4)
  | vcmp (g : Guard) (kd : BitVec 4) (a b : Opnd) (t : Fmt) (cc : BitVec 4)
  | vsel (g : Guard) (d a b : Opnd) (t : Fmt) (ks : BitVec 4)
  | kand (g : Guard) (kd ka kb : BitVec 4)
  | kor (g : Guard) (kd ka kb : BitVec 4)
  | kxor (g : Guard) (kd ka kb : BitVec 4)
  | knot (g : Guard) (kd ka : BitVec 4)
  | kpop (g : Guard) (d : Opnd) (ka : BitVec 4)
  | kfirst (g : Guard) (d : Opnd) (ka : BitVec 4)
  | vbcast (g : Guard) (d a : Opnd) (n : BitVec 10) (t : Fmt) (k : BitVec 4)
  | vext (g : Guard) (d a : Opnd) (n : BitVec 10) (t : Fmt)
  | vins (g : Guard) (d a : Opnd) (n : BitVec 10) (t : Fmt)
  | vperm (g : Guard) (d a b : Opnd) (t : Fmt) (k : BitVec 4)
  | vrot (g : Guard) (d a : Opnd) (n : BitVec 10) (t : Fmt) (k : BitVec 4)
  | vslide (g : Guard) (d a : Opnd) (n : BitVec 7) (dn : Bool) (t : Fmt) (k : BitVec 4)
  | vred (g : Guard) (d a : Opnd) (gs : BitVec 3) (op : BitVec 2) (t : Fmt)
  | vscan (g : Guard) (d a : Opnd) (gs : BitVec 3) (op : BitVec 2) (t : Fmt)
  | vpack (g : Guard) (d a b : Opnd) (t : Fmt) (wr : Bool)
  | vunpk (g : Guard) (d a : Opnd) (t : Fmt) (hi : Bool)
  | vfadd (g : Guard) (d a b : Opnd) (t : Fmt) (k : BitVec 4)
  | vfsub (g : Guard) (d a b : Opnd) (t : Fmt) (k : BitVec 4)
  | vfmul (g : Guard) (d a b : Opnd) (t : Fmt) (k : BitVec 4)
  | vfma (g : Guard) (d a b : Opnd) (t : Fmt) (k : BitVec 4)
  | vfms (g : Guard) (d a b : Opnd) (t : Fmt) (k : BitVec 4)
  | vfmin (g : Guard) (d a b : Opnd) (t : Fmt) (k : BitVec 4)
  | vfmax (g : Guard) (d a b : Opnd) (t : Fmt) (k : BitVec 4)
  | vfcmp (g : Guard) (kd : BitVec 4) (a b : Opnd) (t : Fmt) (cc : BitVec 4)
  | vfabs (g : Guard) (d a : Opnd) (t : Fmt) (k : BitVec 4)
  | vfneg (g : Guard) (d a : Opnd) (t : Fmt) (k : BitVec 4)
  | vfsgn (g : Guard) (d a b : Opnd) (t : Fmt) (k : BitVec 4)
  | vfred (g : Guard) (d a : Opnd) (gs : BitVec 3) (op : BitVec 2) (t : Fmt)
  | vrcp (g : Guard) (d a : Opnd) (t : Fmt) (k : BitVec 4)
  | vrsq (g : Guard) (d a : Opnd) (t : Fmt) (k : BitVec 4)
  | vexp2 (g : Guard) (d a : Opnd) (t : Fmt) (k : BitVec 4)
  | vlog2 (g : Guard) (d a : Opnd) (t : Fmt) (k : BitVec 4)
  | vicvt (g : Guard) (d a : Opnd) (t : Fmt) (k : BitVec 4)
  | vfcvt (g : Guard) (d a : Opnd) (t : Fmt) (k : BitVec 4)
  | vxmov (g : Guard) (dst : Dest) (a : Opnd) (lane : BitVec 3)
  -- M slot (08_matrix.md)
  | mclr (g : Guard) (acc : BitVec 5)
  | mmac (g : Guard) (acc q : BitVec 5) (af bf : Fmt) (kn : BitVec 7) (lm : BitVec 3) (adv : Bool)
  | mmacs (g : Guard) (acc q : BitVec 5) (af bf : Fmt) (kn : BitVec 7) (lm km : BitVec 3) (adv : Bool)
  | mdrain (g : Guard) (dq : BitVec 2) (acc : BitVec 5) (rs : BitVec 7) (nr1 : BitVec 4) (fo : Fmt) (cl : Bool)
  | mlar (g : Guard) (q : BitVec 5) (kn : BitVec 7) (lm : BitVec 3) (adv : BitVec 2)
  | mpar (g : Guard) (md : BitVec 3) (imm : BitVec 32) (hi : Bool)
  | mcall (g : Guard) (idx : BitVec 11)
  | mloop (g : Guard) (count : BitVec 16) (mi : BitVec 3) (src : Bool)
  | mend (g : Guard)
  | mendF (g : Guard)
  | mcntRd (g : Guard) (dq : BitVec 2) (acc : BitVec 5)
  | mcntSnap (g : Guard) (dq : BitVec 2) (acc : BitVec 5)
  | mcntClr (g : Guard) (acc : BitVec 5)
  | routineWordIssue
  -- L slot (05_memory_ops.md, 17_grids.md, 18_remote.md)
  | ld (g : Guard) (dst : Dest) (a b : Opnd) (cls : BitVec 4) (t : Fmt)
  | vld (g : Guard) (dst : Dest) (a b : Opnd) (cls : BitVec 4)
  | vldu (g : Guard) (dst : Dest) (a b : Opnd) (cls : BitVec 4)
  | pf (g : Guard) (a b : Opnd)
  | gpush (g : Guard) (q : BitVec 5) (a : Opnd)
  | ldg (g : Guard) (dst : Dest) (a b : Opnd) (gs : BitVec 2) (t : Fmt)
  | vldg (g : Guard) (dst : Dest) (a b : Opnd) (gs : BitVec 2)
  | ldr (g : Guard) (dst : Dest) (a : Opnd) (ca : Bool) (lq : BitVec 9) (cls : BitVec 4) (t : Fmt)
  -- W slot (05_memory_ops.md, 15_atomics.md, 18_remote.md)
  | st (g : Guard) (src a b : Opnd) (cls : BitVec 4) (t : Fmt)
  | vst (g : Guard) (src a b : Opnd) (cls : BitVec 4)
  | vstm (g : Guard) (src a : Opnd) (k : BitVec 4) (v1 : Bool) (cls : BitVec 4)
  | aadd (g : Guard) (wd : BitVec 5) (a b : Opnd) (nr : Bool) (ord : BitVec 2) (cls : BitVec 4) (t : Fmt)
  | amin (g : Guard) (wd : BitVec 5) (a b : Opnd) (nr : Bool) (ord : BitVec 2) (cls : BitVec 4) (t : Fmt)
  | amax (g : Guard) (wd : BitVec 5) (a b : Opnd) (nr : Bool) (ord : BitVec 2) (cls : BitVec 4) (t : Fmt)
  | alog (g : Guard) (wd : BitVec 5) (a b : Opnd) (nr : Bool) (lop ord : BitVec 2) (cls : BitVec 4) (t : Fmt)
  | aswp (g : Guard) (wd : BitVec 5) (a b : Opnd) (nr : Bool) (ord : BitVec 2) (cls : BitVec 4) (t : Fmt)
  | acas (g : Guard) (wd : BitVec 5) (a b : Opnd) (ord : BitVec 2) (cls : BitVec 4) (t : Fmt)
  | aincb (g : Guard) (wd : BitVec 5) (a b : Opnd) (nr : Bool) (ord : BitVec 2) (cls : BitVec 4) (t : Fmt)
  | rcnt (g : Guard) (a b : Opnd)
  | asnap (g : Guard) (wd : BitVec 5) (a b : Opnd) (cls : BitVec 4)
  | str (g : Guard) (src a : Opnd) (ca : Bool) (cls : BitVec 4) (t : Fmt)
  | ratom (g : Guard) (wd : BitVec 5) (a : Opnd) (wb : BitVec 5) (rop : BitVec 4) (nr : Bool) (ord : BitVec 2)
      (cls : BitVec 4) (t : Fmt)
  -- C slot (05_memory_ops.md, 14_transfers.md, 17_grids.md, 18_remote.md)
  | cbind (g : Guard) (q e : BitVec 5) (gather : Bool)
  | cfree (g : Guard) (q : BitVec 5)
  | cput (g : Guard) (ch : BitVec 3) (d e s : BitVec 5)
  | cget (g : Guard) (ch : BitVec 3) (d e : BitVec 5)
  | ccard (g : Guard) (ch : BitVec 3) (d e : BitVec 5)
  | cwait (g : Guard) (ch : BitVec 3) (e : BitVec 5) (inc : Bool)
  | cstat (g : Guard) (ch : BitVec 3) (d : BitVec 5)
  | mapi (g : Guard) (d e : BitVec 5) (epk : BitVec 3) (epn : BitVec 5)
  | mapx (g : Guard) (h e : BitVec 5)
  | mapr (g : Guard) (h : BitVec 5)
  | maprAll (g : Guard) (epk : BitVec 3) (epn : BitVec 5)
  | mapq (g : Guard) (d h : BitVec 5)
  | gdecl (g : Guard) (d : BitVec 5) (gs : BitVec 2) (e : BitVec 5)
  | gdeclR (g : Guard) (gs : BitVec 2)
  | gq (g : Guard) (d : BitVec 5) (gs : BitVec 2) (sel : BitVec 5)
  | tacq (g : Guard) (d e : BitVec 5)
  | trel (g : Guard) (e : BitVec 5)
  -- Y slot (05_memory_ops.md, 14_transfers.md, 15_atomics.md, 17_grids.md, 20_progress.md, 23_traps.md)
  | qwait (g : Guard) (q : BitVec 5) (n : BitVec 7)
  | qadv (g : Guard) (q : BitVec 5) (n : BitVec 7)
  | sarm (g : Guard) (a b : BitVec 5)
  | swait (g : Guard) (a y : BitVec 5)
  | fence (g : Guard) (scope : ScopeCode) (mask : BitVec 16)
  | gstep (g : Guard) (gs : BitVec 2) (a : BitVec 5)
  | barA (g : Guard) (scope : ScopeCode) (id c p : BitVec 4)
  | barW (g : Guard) (scope : ScopeCode) (id p : BitVec 4)
  | bar (g : Guard) (scope : ScopeCode) (id c p : BitVec 4)
  | spawn (g : Guard) (t e : BitVec 4)
  | sjoin (g : Guard) (t : BitVec 4)
  | yield (g : Guard)
  | sleep (g : Guard) (n : BitVec 4)
  | evpost (g : Guard) (a b : BitVec 4)
  | trap (g : Guard) (imm : BitVec 16)
  | eret (g : Guard) (mode : BitVec 2)
  | eretT (g : Guard) (mode : BitVec 2) (t : BitVec 4)
  | ctxsave (g : Guard) (t a : BitVec 4)
  | ctxload (g : Guard) (t a : BitVec 4) (go : Bool)
  | pimg (g : Guard) (t a : BitVec 4)
  -- X slot (09_transform.md)
  | xcvt (g : Guard) (d a : Opnd) (p : BitVec 8) (fo fi : Fmt)
  | xquant (g : Guard) (d a b : Opnd) (fo : Fmt) (p : BitVec 3)
  | xdeq (g : Guard) (d a b : Opnd) (p : BitVec 3) (fi : Fmt)
  | xamax (g : Guard) (d a b : Opnd) (fo : Fmt)
  | xtr (g : Guard) (d a : BitVec 5) (t : Fmt)
  | xexp (g : Guard) (q a : BitVec 5) (dbp : Bool) (t : Fmt) (chk : Bool)
  | xpack (g : Guard) (d a : Opnd) (p : BitVec 8) (t : Fmt)
  | xunpk (g : Guard) (d a : Opnd) (p : BitVec 8) (t : Fmt)
  | xcrc (g : Guard) (d a b : Opnd) (n1 : BitVec 6)
  -- what a slot issues without an operation of its own
  | noOperation
  | fetchBeyondCode
  -- events of the core's engines
  | asynchronousTrap (loc code info aux : Nat)
  | ringEntryFill (loc q : Nat)
  | gatherRowFetch (loc q rows : Nat)
  | ringEntryDrain (loc q : Nat)
  | drainQueueForward (loc q : Nat)
  | chunkDecode (loc q chunk : Nat)
  | tileWriteComplete (loc acc : Nat)
  | mlarFillComplete (loc : Nat)
  -- events of memory traffic
  | loadReply (loc entry : Nat)
  | ldrLateReply (loc entry : Nat)
  | storeAck (loc entry : Nat)
  | atomicReply (loc entry : Nat)
  | homeAccess (pk : Nat)
  | packetOffer (pk : Nat)
  | pageTableWalk (walk : Nat)
  | transferSourceRead (loc entry : Nat)
  | cgetSourceResolve (pk : Nat)
  | landingBeat (pk : Nat)
  | transferComplete (loc entry : Nat)
  | jobCardStart (die card : Nat)
  | jobCardComplete (die card : Nat)
  | haloTimeout (loc : Nat)
  | neighbourCommitNotice (loc grid party : Nat)
  | barrierRootArrival (pk : Nat)
  | phaseFlip (flip core : Nat)
  | sleepExpiry (loc : Nat)
  | yieldExpiry (core : Nat)
  | bPriorityPromotion (core slot : Nat)
  -- launches and records
  | taskStart (loc : Nat)
  | recordDelivery (die : Nat) (fatal : Bool)
  -- commands of the host: the die and the command slot that holds them
  | disposeTrap (die slot : Nat)
  | discardParkedTransfer (die slot : Nat)
  | savePartition (die slot : Nat)
  | restorePartition (die slot : Nat)
  | endSlice (die slot : Nat)
  | sliceGraceExpiry (loc : Nat)
  | withdrawReceive (loc ep : Nat)
  | withdrawAck (loc ep : Nat)
  | saveStep (die : Nat)
  | retrainLink (die slot : Nat)
  | functionLevelReset (die slot : Nat)
  | writeVdRegister (die slot : Nat)
  | transInv (die slot : Nat)
  | attestationReport (die slot : Nat)
  | horizonPublish (loc : Nat)
  | horizonRetire (ep loc : Nat)
  -- ownership tokens
  | tokenRecall (vd region : Nat)
  | tokenGrant (vd region : Nat)
  | tokenHoldExpiry (vd region : Nat)
  | tacqRequest (vd region : Nat)
  -- the host's own accesses
  | launchPacket (offset : Nat) (data : List Byte)
  | hostStateStore (die offset : Nat) (value : Word)
  | hostMemoryAccess (addr : Nat) (write : Bool) (data : List Byte)
  -- links, stations, errors, bring-up
  | linkPacketReceive (link : Nat) (f : LinkFrame)
  | linkAck (link seq : Nat)
  | laneFailure (link lane : Nat)
  | linkRetrained (link : Nat)
  | linkRetrainTimeout (link : Nat)
  | linkTraining (link version : Nat) (modules : List Nat)
  | ringSkewMeasure (station cw ccw : Nat)
  | correctedError (die : Nat)
  | uncorrectableError (addr : Nat)
  | moduleReset (images : List Nat)
  | powerOff
  -- the hypervisor
  | rangeTableInstall (vd : Nat) (entries : List RangeEntry)
  | virtualDeviceCreation (vd : Nat) (partitions : List Nat)
  | minimumShareSetting (station vd cls slots : Nat)
  deriving DecidableEq, Repr

end Sys2Proof
end

