-- ==== Sys2Proof/WellFormed.lean ====
section
/-! DEFINITION. Static legality: the checks of Table 3.16 (R52) that the slot word alone decides. Checks that need the
state (window sizes R20, ring bindings R47, read ports R28, supervisor mode R51, register rights R79) are made at issue. -/

namespace Sys2Proof

/-- Width in bits of a format's element (Tables 2.6, 6.1, 6.2; R105). -/
def Fmt.width : Fmt → Nat
  | .b8 | .s8 | .e4m3 | .e5m2 | .t8 => 8
  | .b16 | .s16 | .f16 | .bf16 => 16
  | .b32 | .s32 | .f32 => 32
  | .b64 | .s64 => 64
  | .e2m1 => 4
  | .t6 => 6

/-- Type set I of R118: b8 to s64. -/
def Fmt.isInt : Fmt → Bool
  | .b8 | .b16 | .b32 | .b64 | .s8 | .s16 | .s32 | .s64 => true
  | _ => false

/-- Type set S of R118. -/
def Fmt.isSigned : Fmt → Bool
  | .s8 | .s16 | .s32 | .s64 => true
  | _ => false

/-- Type set B of R118. -/
def Fmt.isUnsigned : Fmt → Bool
  | .b8 | .b16 | .b32 | .b64 => true
  | _ => false

/-- Type set F of R118. -/
def Fmt.isF : Fmt → Bool
  | .f32 | .f16 | .bf16 => true
  | _ => false

/-- Format codes 11 to 15, the targets of `xquant` (Table 9.3). -/
def Fmt.isNarrow : Fmt → Bool
  | .e4m3 | .e5m2 | .e2m1 | .t8 | .t6 => true
  | _ => false

/-- Lane width in `xcvt`, where a t6 element occupies a byte lane (R165). -/
def Fmt.cvtWidth (t : Fmt) : Nat := if t = .t6 then 8 else t.width

/-- The three classes of the matrix array (Table 8.1). -/
inductive ArrayClass where
  | eight | narrow | sixteen
  deriving DecidableEq, Repr

/-- The array class of a format, if it has one (Table 8.1). -/
def Fmt.arrayClass : Fmt → Option ArrayClass
  | .e4m3 | .e5m2 | .t8 => some .eight
  | .e2m1 | .t6 => some .narrow
  | .f16 | .bf16 => some .sixteen
  | _ => none

/-- Slab length S of an array class (Table 8.1). -/
def ArrayClass.slab : ArrayClass → Nat
  | .eight => 32 | .narrow => 64 | .sixteen => 16

/-- S-slot operand codes (Table 3.5): s0..s63 and c0..c63. -/
def Opnd.okS : Opnd → Bool
  | .own i => i.toNat < 64
  | .com _ => true
  | _ => false

/-- V-slot source codes (Table 3.5). -/
def Opnd.okVSrc : Opnd → Bool
  | .own i => i.toNat < 768
  | _ => true

/-- V-slot destination codes (Table 3.5). -/
def Opnd.okVDst : Opnd → Bool
  | .own i => i.toNat < 768
  | .pop _ => true
  | .com _ => true
  | _ => false

/-- A destination that is also read, or that must be a v register (R120). -/
def Opnd.okVReg : Opnd → Bool
  | .own i => i.toNat < 768
  | _ => false

/-- Address codes of L and W, and scalar data codes of W (R82, R85). -/
def Opnd.okLW : Opnd → Bool
  | .own i => i.toNat < 32
  | .com _ => true
  | _ => false

/-- Vector data codes of `vst` and `vstm` (R86). -/
def Opnd.okWVec : Opnd → Bool
  | .pop _ => true
  | .peek _ => true
  | .com _ => true
  | .dq _ => true
  | .own _ => false

/-- W source codes of `rcnt` (Table 15.1). -/
def Opnd.okWSrc : Opnd → Bool
  | .own i => i.toNat < 32
  | _ => true

/-- X source codes (Table 9.2). -/
def Opnd.okXSrc : Opnd → Bool
  | .own i => i.toNat < 32
  | _ => true

/-- X destination codes (Table 9.2). -/
def Opnd.okXDst : Opnd → Bool
  | .own i => i.toNat < 32
  | .pop _ => true
  | .com _ => true
  | _ => false

/-- X destinations that are read must be t registers (R162). -/
def Opnd.okXReg : Opnd → Bool
  | .own i => i.toNat < 32
  | _ => false

/-- Index ranges of Table 3.6; v and t indices are checked against the window at issue (R20). -/
def File.okIndex (f : File) (i : Nat) : Bool :=
  match f with
  | .s => i < 64
  | .k0 | .k1 | .y => i < 16
  | .m => i < 8
  | .b | .w | .e => i < 32
  | .p => i < 15
  | .c => i < 64
  | .v0 | .v1 | .t => true

/-- A file of 512-bit registers. -/
def File.wide : File → Bool
  | .v0 | .v1 | .t | .c => true
  | _ => false

/-- Scalar load destinations (R84): FILE 0 names b0..b31, any other file its own index. -/
def Dest.okLd : Dest → Bool
  | .here (.own i) => i.toNat < 32
  | .here _ => false
  | .file f i => f.okIndex i.toNat

/-- Vector load destinations (R86): files 2, 3, 11 and 13. -/
def Dest.okVld : Dest → Bool
  | .here _ => false
  | .file f i => f.wide && f.okIndex i.toNat

/-- `xmov` destinations (R78): BCAST only with a 512-bit destination. -/
def Dest.okXmov (bcast : Bool) : Dest → Bool
  | .here (.own i) => i.toNat < 64 && !bcast
  | .here (.com _) => true
  | .here _ => false
  | .file f i => f.okIndex i.toNat && (f.wide || !bcast)

/-- `vxmov` destinations (R140): LANE is zero with a 512-bit destination. -/
def Dest.okVxmov (lane : BitVec 3) : Dest → Bool
  | .here o => o.okVDst && lane == 0
  | .file f i => f.okIndex i.toNat && (!f.wide || lane == 0)

/-- Two V sources and a V destination under a write mask (R121: no mask on a ring push). -/
def okV3 (d a b : Opnd) (k : BitVec 4) : Bool :=
  d.okVDst && a.okVSrc && b.okVSrc && (k == 0 || match d with | .pop _ => false | _ => true)

/-- One V source and a V destination under a write mask. -/
def okV2 (d a : Opnd) (k : BitVec 4) : Bool :=
  d.okVDst && a.okVSrc && (k == 0 || match d with | .pop _ => false | _ => true)

/-- Group fields of `vred`, `vscan` and `vfred` (R131). -/
def okGroup (gs : BitVec 3) (t : Fmt) : Bool :=
  1 ≤ gs.toNat && gs.toNat ≤ 6 && 2 * t.width ≤ 8 * 2 ^ gs.toNat

/-- Types of the integer atomics `aadd`, `amin`, `amax` (Table 15.2). -/
def okAtomInt : Fmt → Bool
  | .b32 | .s32 | .b64 | .s64 => true
  | _ => false

/-- Types of `alog`, `aswp`, `acas`, `aincb` (Table 15.2). -/
def okAtomB : Fmt → Bool
  | .b32 | .b64 => true
  | _ => false

/-- An atomic's common fields (R247): NR = 1 leaves WD zero. -/
def okAtom (wd : BitVec 5) (a b : Opnd) (nr : Bool) : Bool := a.okLW && b.okLW && (!nr || wd == 0)

/-- ROP codes of `ratom` with their types (Table 18.2). -/
def okRop (rop : BitVec 4) (nr : Bool) (t : Fmt) : Bool :=
  match rop.toNat with
  | 0 => okAtomInt t || t == .f32
  | 1 | 2 => okAtomInt t
  | 3 | 4 | 5 | 6 | 8 => okAtomB t
  | 7 => okAtomB t && !nr
  | _ => false

/-- Endpoint fields of an instruction (R236, Table 14.1). -/
def okEndpoint (epk : BitVec 3) (epn : BitVec 5) : Bool := epk.toNat < 4 && (epk == 1 || epn == 0)

/-- Formats of `xcvt` (Table 9.3). -/
def okXcvt : Fmt → Bool
  | .b64 | .s64 => false
  | _ => true

/-- The part index of `xcvt` (R165). -/
def okXcvtPart (p : BitVec 8) (fo fi : Fmt) : Bool :=
  p.toNat < Nat.max fi.cvtWidth fo.cvtWidth / Nat.min fi.cvtWidth fo.cvtWidth

/-- Formats of `xtr` (Table 9.3). -/
def okXtr : Fmt → Bool
  | .b16 | .b32 | .s16 | .s32 | .f32 | .f16 | .bf16 => true
  | _ => false

/-- Packing parts of `xpack` and `xunpk` (R168). -/
def okPack (p : BitVec 8) : Fmt → Bool
  | .e2m1 => p.toNat < 2
  | .t6 => p == 0
  | _ => false

/-- Entries that `mdrain` pushes (R154). -/
def drainEntries (nr : Nat) (t : Fmt) : Nat := ceilDiv (nr * 256 * t.width) 512

/-- Static legality of an operation (R52, Table 3.16); events carry no encoding and are always well formed. -/
def Instr.wf : Instr → Bool
  | .add _ d a b | .sub _ d a b | .addsl _ d a b _ | .mul _ d a b | .mulh _ d a b | .mulhB _ d a b | .div _ d a b
  | .divB _ d a b | .rem _ d a b | .remB _ d a b | .and _ d a b | .or _ d a b | .xor _ d a b | .andn _ d a b
  | .shl _ d a b | .shr _ d a b | .sra _ d a b | .rotl _ d a b | .fshl _ d a b _ | .fshr _ d a b _ | .min _ d a b
  | .max _ d a b | .minB _ d a b | .maxB _ d a b | .bfx _ d a b _ | .sel _ d a b _ _ => d.okS && a.okS && b.okS
  | .clz _ d a | .ctz _ d a | .popc _ d a => d.okS && a.okS
  | .bfi _ d a b => (match d with | .own i => decide (i.toNat < 64) | _ => false) && a.okS && b.okS
  | .cmp _ p cc a b => p != 15 && cc.toNat < 12 && a.okS && b.okS
  | .pand _ d _ _ _ _ | .por _ d _ _ _ _ => d != 15
  | .pnot _ d _ => d != 15
  | .addi _ d a _ | .andi _ d a _ | .ori _ d a _ | .xori _ d a _ | .lih _ d a _ => d.okS && a.okS
  | .shli _ d a imm | .shri _ d a imm | .srai _ d a imm => d.okS && a.okS && imm.toNat < 64
  | .li _ d _ => d.okS
  | .cmpi _ p cc a _ => p != 15 && cc.toNat < 12 && a.okS
  | .br _ _ | .jmp _ _ | .halt _ => true
  | .jmpr _ a | .ret _ a => a.okS
  | .call _ d _ => match d with | .own i => i.toNat < 64 | _ => false
  | .loop _ a imm => a.okS && 1 ≤ imm.toNat && imm.toNat ≤ 65535
  | .xmov _ dst a lane bcast => a.okS && dst.okXmov bcast && (match a with | .own _ => lane == 0 | _ => true)
  | .rdsr _ d sr => d.okS && sr.toNat < 4096
  | .wrsr _ sr a => a.okS && sr.toNat < 4096 && sr != 0x00A
  | .mrsData _ a => a.okS
  | .rdts _ d => d.okS
  | .vadd _ d a b t k | .vsub _ d a b t k | .vmul _ d a b t k | .vmulh _ d a b t k | .vmin _ d a b t k
  | .vmax _ d a b t k | .vand _ d a b t k | .vor _ d a b t k | .vxor _ d a b t k | .vandn _ d a b t k
  | .vshl _ d a b t k | .vshr _ d a b t k | .vsra _ d a b t k => t.isInt && okV3 d a b k
  | .vabs _ d a t k => t.isSigned && okV2 d a k
  | .vfsh _ d a b t _ => t.isUnsigned && d.okVReg && a.okVSrc && b.okVSrc
  | .vclz _ d a t k | .vpopc _ d a t k => t.isUnsigned && okV2 d a k
  | .vcmp _ _ a b t cc => t.isInt && cc.toNat < 12 && a.okVSrc && b.okVSrc
  | .vsel _ d a b t _ => (t.isInt || t.isF) && d.okVDst && a.okVSrc && b.okVSrc
  | .kand _ _ _ _ | .kor _ _ _ _ | .kxor _ _ _ _ | .knot _ _ _ => true
  | .kpop _ d _ | .kfirst _ d _ => match d with | .own i => i.toNat < 768 | .com _ => true | _ => false
  | .vbcast _ d a n t k | .vrot _ d a n t k => (t.isInt || t.isF) && okV2 d a k && n.toNat < 512 / t.width
  | .vext _ d a n t => (t.isInt || t.isF) && d.okVDst && a.okVSrc && n.toNat < 512 / t.width
  | .vins _ d a n t => (t.isInt || t.isF) && d.okVReg && a.okVSrc && n.toNat < 512 / t.width
  | .vperm _ d a b t k => (t.isInt || t.isF) && okV3 d a b k
  | .vslide _ d a n _ t k => (t.isInt || t.isF) && okV2 d a k && n.toNat ≤ 512 / t.width
  | .vred _ d a gs _ t => t.isInt && okGroup gs t && d.okVDst && a.okVSrc
  | .vscan _ d a gs op t => t.isInt && okGroup gs t && op.toNat < 2 && d.okVDst && a.okVSrc
  | .vpack _ d a b t _ => t.isInt && t.width != 8 && d.okVDst && a.okVSrc && b.okVSrc
  | .vunpk _ d a t _ => t.isInt && t.width != 64 && d.okVDst && a.okVSrc
  | .vfadd _ d a b t k | .vfsub _ d a b t k | .vfmul _ d a b t k | .vfmin _ d a b t k | .vfmax _ d a b t k
  | .vfsgn _ d a b t k => t.isF && okV3 d a b k
  | .vfma _ d a b t k | .vfms _ d a b t k => t.isF && d.okVReg && okV3 d a b k
  | .vfcmp _ _ a b t cc => t.isF && cc.toNat < 8 && a.okVSrc && b.okVSrc
  | .vfabs _ d a t k | .vfneg _ d a t k => t.isF && okV2 d a k
  | .vfred _ d a gs op t => t == .f32 && okGroup gs t && op.toNat < 3 && d.okVDst && a.okVSrc
  | .vrcp _ d a t k | .vrsq _ d a t k | .vexp2 _ d a t k | .vlog2 _ d a t k => t == .f32 && okV2 d a k
  | .vicvt _ d a t k | .vfcvt _ d a t k => (t == .b32 || t == .s32) && okV2 d a k
  | .vxmov _ dst a lane => a.okVSrc && dst.okVxmov lane
  | .mclr _ _ => true
  | .mmac _ _ _ af bf kn _ _ =>
    match af.arrayClass with
    | some c => bf.arrayClass == some c && 1 ≤ kn.toNat && kn.toNat ≤ c.slab
    | none => false
  | .mmacs _ _ _ af bf kn lm km _ =>
    match af.arrayClass with
    | some c => bf.arrayClass == some c && c != .sixteen && 1 ≤ kn.toNat && kn.toNat ≤ c.slab && lm != km
    | none => false
  | .mdrain _ _ _ rs nr1 fo _ =>
    !fo.isInt && rs.toNat + (nr1.toNat + 1) ≤ 128 && drainEntries (nr1.toNat + 1) fo ≤ 64
  | .mlar _ _ kn _ adv => kn != 0 && adv != 3
  | .mpar _ _ _ _ | .mcall _ _ | .mend _ | .mendF _ => true
  | .mloop _ count mi src => if src then count == 0 else mi == 0
  | .mcntRd _ _ _ | .mcntSnap _ _ _ | .mcntClr _ _ | .routineWordIssue => true
  | .ld _ dst a b _ t => dst.okLd && a.okLW && b.okLW && t.isInt
  | .vld _ dst a b _ | .vldu _ dst a b _ => dst.okVld && a.okLW && b.okLW
  | .pf _ a b => a.okLW && b.okLW
  | .gpush _ _ a => a.okLW
  | .ldg _ dst a b _ t => dst.okLd && a.okLW && b.okLW && t.isInt
  | .vldg _ dst a b _ => dst.okVld && a.okLW && b.okLW
  | .ldr _ dst a _ lq _ t => dst.okLd && a.okLW && 63 ≤ lq.toNat && t.isInt
  | .st _ src a b _ t => src.okLW && a.okLW && b.okLW && t.isInt
  | .vst _ src a b _ => src.okWVec && a.okLW && b.okLW
  | .vstm _ src a _ _ _ => src.okWVec && a.okLW
  | .aadd _ wd a b nr _ _ t => okAtom wd a b nr && (okAtomInt t || t == .f32)
  | .amin _ wd a b nr _ _ t | .amax _ wd a b nr _ _ t => okAtom wd a b nr && okAtomInt t
  | .alog _ wd a b nr lop _ _ t => okAtom wd a b nr && okAtomB t && lop != 3
  | .aswp _ wd a b nr _ _ t | .aincb _ wd a b nr _ _ t => okAtom wd a b nr && okAtomB t
  | .acas _ _ a b _ _ t => a.okLW && b.okLW && okAtomB t
  | .rcnt _ a b => a.okLW && b.okWSrc
  | .asnap _ _ a b _ => a.okLW && b.okLW
  | .str _ src a _ _ t => src.okLW && a.okLW && t.isInt
  | .ratom _ wd a _ rop nr _ _ t => a.okLW && okRop rop nr t && (!nr || wd == 0)
  | .cbind _ _ _ _ | .cfree _ _ | .cput _ _ _ _ _ | .cget _ _ _ _ | .ccard _ _ _ _ | .cwait _ _ _ _ | .cstat _ _ _
  | .mapx _ _ _ | .mapr _ _ | .mapq _ _ _ | .gdecl _ _ _ _ | .gdeclR _ _ | .tacq _ _ _ | .trel _ _ => true
  | .mapi _ _ _ epk epn | .maprAll _ epk epn => okEndpoint epk epn
  | .gq _ _ _ which => which.toNat < 24
  | .qwait _ _ n | .qadv _ _ n => 1 ≤ n.toNat && n.toNat ≤ 64
  | .sarm _ a b => a.toNat < 16 && b.toNat < 16
  | .swait _ a y => a.toNat < 16 && y.toNat < 16
  | .fence _ scope mask => scope != 7 && mask != 0
  | .gstep _ _ a => a.toNat < 16
  | .barA _ scope _ _ _ | .barW _ scope _ _ | .bar _ scope _ _ _ => scope != 7
  | .spawn _ _ _ | .sjoin _ _ | .yield _ | .sleep _ _ | .evpost _ _ _ | .trap _ _ => true
  | .eret _ mode | .eretT _ mode _ => mode != 3
  | .ctxsave _ _ _ | .ctxload _ _ _ _ | .pimg _ _ _ => true
  | .xcvt _ d a p fo fi => okXcvt fo && okXcvt fi && a.okXSrc && okXcvtPart p fo fi &&
      (if fo.cvtWidth < fi.cvtWidth then d.okXReg else d.okXDst)
  | .xquant _ d a b fo p => fo.isNarrow && d.okXReg && a.okXSrc && b.okXSrc && p.toNat < 32 / fo.width
  | .xdeq _ d a b p fi => fi.isNarrow && d.okXDst && a.okXSrc && b.okXSrc && p.toNat < 32 / fi.width
  | .xamax _ d a b fo => fo.isNarrow && d.okXDst && a.okXSrc && b.okXSrc
  | .xtr _ _ _ t => okXtr t
  | .xexp _ _ _ dbp t _ => !dbp || t == .b32 || t == .s32
  | .xpack _ d a p t => d.okXReg && a.okXSrc && okPack p t
  | .xunpk _ d a p t => d.okXDst && a.okXSrc && okPack p t
  | .xcrc _ d a b _ => d.okXDst && a.okXSrc && b.okXSrc
  | .noOperation | .fetchBeyondCode => true
  | .asynchronousTrap _ _ _ _ | .ringEntryFill _ _ | .gatherRowFetch _ _ _ | .ringEntryDrain _ _
  | .drainQueueForward _ _ | .chunkDecode _ _ _ | .tileWriteComplete _ _ | .mlarFillComplete _ | .loadReply _ _
  | .ldrLateReply _ _ | .storeAck _ _ | .atomicReply _ _ | .homeAccess _ | .packetOffer _ | .pageTableWalk _
  | .transferSourceRead _ _ | .cgetSourceResolve _ | .landingBeat _ | .transferComplete _ _ | .jobCardStart _ _
  | .jobCardComplete _ _ | .haloTimeout _ | .barrierRootArrival _ | .phaseFlip _ _ | .sleepExpiry _ | .yieldExpiry _
  | .bPriorityPromotion _ _ | .launchPacket _ _ | .taskStart _ | .recordDelivery _ _ | .disposeTrap _ _
  | .discardParkedTransfer _ _ | .savePartition _ _ | .restorePartition _ _ | .endSlice _ _ | .sliceGraceExpiry _
  | .withdrawReceive _ _ | .withdrawAck _ _ | .saveStep _ | .retrainLink _ _ | .functionLevelReset _ _
  | .writeVdRegister _ _ | .transInv _ _ | .attestationReport _ _ | .hostStateStore _ _ _ | .hostMemoryAccess _ _ _
  | .horizonPublish _ | .horizonRetire _ _ | .tokenRecall _ _ | .tokenGrant _ _ | .tokenHoldExpiry _ _
  | .linkPacketReceive _ _ | .linkAck _ _ | .laneFailure _ _ | .linkRetrained _ | .linkRetrainTimeout _
  | .linkTraining _ _ _ | .ringSkewMeasure _ _ _ | .correctedError _ | .uncorrectableError _ | .moduleReset _
  | .powerOff | .rangeTableInstall _ _ | .virtualDeviceCreation _ _ | .minimumShareSetting _ _ _ _
  | .tacqRequest _ _ | .neighbourCommitNotice _ _ _ => true

end Sys2Proof
end

