-- ==== Sys2Proof/Config.lean ====
section
/-! DEFINITION. What is fixed for the machine, and the free values: opaque constants that no proof can evaluate. -/

namespace Sys2Proof.Config

/-- FREE VALUE. The choice R7, R26, R282 and R390 leave between an old and a new value: the counter `State.free` and the
number of the pending write choose. Assumption 6. -/
opaque freeBit : Nat → Nat → Bool

/-- FREE VALUE. Byte n of the part of an attestation report that keys, hashes and signatures decide (R385), by nonce
and leaf. Assumption 7. -/
opaque reportByte : Nat → Nat → Nat → Byte

/-- FREE VALUE. Byte n of the SHA-384 measurement of a firmware image (R385). Assumption 7. -/
opaque measureByte : Nat → Nat → Byte

/-- FREE VALUE. Whether the boot ROM's two signature checks accept a firmware image (R384). Assumption 7. -/
opaque imageAccepted : Nat → Bool

/-- FREE VALUE. What a byte of another module reads as when a page-table walk reaches it (R323): the counter
`State.free` and the physical address choose. Assumption 8. -/
opaque outsideByte : Nat → Nat → Byte

/-- The version word of the state-window header, dword 0 in bits 31 to 0: major 1, minor 0 (R374, R382). -/
def interfaceVersion : Nat := 0x00010000
/-- The version word that each end of a link sends at training: major 1, minor 0 (R382). -/
def linkVersion : Nat := 0x00010000

/-- The Boreth-1 latency of each class in steps (Table 2.8). -/
def boreth1 : Nat → Nat
  | 0 => 1 | 1 => 3 | 2 => 18 | 3 => 2 | 4 => 3 | 5 => 4 | 6 => 5 | 7 => 6 | 8 => 8 | 9 => 3
  | 10 => 2 | 11 => 8 | 12 => 24 | 13 => 600 | 14 => 40 | 15 => 48 | 16 => 6 | 17 => 12 | 18 => 16
  | _ => 1

/-- Nanoseconds for which an array operation holds the matrix array: 32 cycles of 700 MHz (R4, R144). -/
def arrayTime : Nat := 46
/-- Registers of a vector file (Table 2.3). -/
def vFile : Nat := 768
/-- Tiles of the Tarn and registers of the X file (Table 2.3). -/
def tFile : Nat := 32
/-- Lines of a core's Larder (R145). -/
def larderLines : Nat := 32768
/-- Bytes of a local store (Table 2.7). -/
def localBytes : Nat := 0x600000
/-- Bytes of an Attic (R225). -/
def atticBytes : Nat := 65536
/-- Records of a suppression window (R357). -/
def windowRecords : Nat := 8192
/-- Entries of an in-flight record (R355). -/
def ifrEntries : Nat := 256
/-- Pipe-image entries of one slot (R338). -/
def pipeEntries : Nat := 64
/-- Event and replayable records a die buffers per virtual device (R310, R345). -/
def laneEntries : Nat := 256
/-- Entries of a die's fatal lane (R345). -/
def fatalEntries : Nat := 64
/-- Job cards of one quad partition in its die's intake (R235). -/
def intakeCards : Nat := 128
/-- Launches per virtual device in one launch queue (R301). -/
def queueLaunches : Nat := 64
/-- Walks of a die, and the walks each partition is guaranteed (R324). -/
def dieWalks : Nat := 512
/-- Ingress slots of a bridge station per direction (R330). -/
def ingressSlots : Nat := 4096
/-- The most that a station's minimums may sum to (R330). -/
def ingressMinimums : Nat := 2048
/-- Replay-buffer slots of a link (R367). -/
def replaySlots : Nat := 1024
/-- Token frames of a virtual device on a die (R289). -/
def tokenFrames : Nat := 256
/-- Bytes of a GDDR 7 tier and of an LPDDR 6 tier (Table 1.2). -/
def tierBytes (tier : Nat) : Nat := if tier = 0 then 24000000000 else 128 * 2 ^ 30

end Sys2Proof.Config
end

