-- ==== Sys2Proof/Decode.lean ====
section
/-! DEFINITION. Bundles, slot words and operand codes: the decoder, then the encoder (03_encoding.md R39 to R50 and the
field tables of the chapters). The raw decoders pull the fields out; a word is accepted when what it reads as is well
formed (R52) and is encoded by exactly that word, so a non-zero reserved bit is refused (Table 3.16). -/

namespace Sys2Proof

/-- Format codes (Table 2.6). -/
def Fmt.code : Fmt → Nat
  | .b8 => 0 | .b16 => 1 | .b32 => 2 | .b64 => 3 | .s8 => 4 | .s16 => 5 | .s32 => 6 | .s64 => 7
  | .f32 => 8 | .f16 => 9 | .bf16 => 10 | .e4m3 => 11 | .e5m2 => 12 | .e2m1 => 13 | .t8 => 14 | .t6 => 15

/-- The format of a code; codes 16 to 31 are reserved (R32). -/
def Fmt.ofCode : Nat → Option Fmt
  | 0 => some .b8 | 1 => some .b16 | 2 => some .b32 | 3 => some .b64
  | 4 => some .s8 | 5 => some .s16 | 6 => some .s32 | 7 => some .s64
  | 8 => some .f32 | 9 => some .f16 | 10 => some .bf16 | 11 => some .e4m3
  | 12 => some .e5m2 | 13 => some .e2m1 | 14 => some .t8 | 15 => some .t6
  | _ => none

/-- File codes (Table 3.6). -/
def File.code : File → Nat
  | .s => 1 | .v0 => 2 | .v1 => 3 | .k0 => 4 | .k1 => 5 | .m => 6 | .b => 7 | .w => 8 | .e => 9 | .y => 10 | .t => 11
  | .p => 12 | .c => 13

/-- The file of a code; 0 is the slot's own file and 14, 15 are illegal (Table 3.6). -/
def File.ofCode : Nat → Option File
  | 1 => some .s | 2 => some .v0 | 3 => some .v1 | 4 => some .k0 | 5 => some .k1 | 6 => some .m | 7 => some .b
  | 8 => some .w | 9 => some .e | 10 => some .y | 11 => some .t | 12 => some .p | 13 => some .c
  | _ => none

/-- What a 10-bit operand code names (Table 3.5). -/
def Opnd.ofCode10 (c : BitVec 10) : Option Opnd :=
  let n := c.toNat
  if n < 768 then some (.own c)
  else if n < 800 then some (.pop (BitVec.ofNat 5 (n - 768)))
  else if n < 832 then some (.peek (BitVec.ofNat 5 (n - 800)))
  else if n < 896 then some (.com (BitVec.ofNat 6 (n - 832)))
  else if n < 900 then some (.dq (BitVec.ofNat 2 (n - 896)))
  else none

/-- The 10-bit code of an operand (Table 3.5). -/
def Opnd.code10 : Opnd → BitVec 10
  | .own i => i
  | .pop q => BitVec.ofNat 10 (768 + q.toNat)
  | .peek q => BitVec.ofNat 10 (800 + q.toNat)
  | .com c => BitVec.ofNat 10 (832 + c.toNat)
  | .dq n => BitVec.ofNat 10 (896 + n.toNat)

/-- What an 8-bit X operand code names (Table 9.2). -/
def Opnd.ofCode8 (c : BitVec 8) : Option Opnd :=
  let n := c.toNat
  if n < 32 then some (.own (BitVec.ofNat 10 n))
  else if n < 64 then some (.pop (BitVec.ofNat 5 (n - 32)))
  else if n < 96 then some (.peek (BitVec.ofNat 5 (n - 64)))
  else if n < 160 then some (.com (BitVec.ofNat 6 (n - 96)))
  else if n < 164 then some (.dq (BitVec.ofNat 2 (n - 160)))
  else none

/-- The 8-bit code of an X operand (Table 9.2). -/
def Opnd.code8 : Opnd → BitVec 8
  | .own i => BitVec.ofNat 8 i.toNat
  | .pop q => BitVec.ofNat 8 (32 + q.toNat)
  | .peek q => BitVec.ofNat 8 (64 + q.toNat)
  | .com c => BitVec.ofNat 8 (96 + c.toNat)
  | .dq n => BitVec.ofNat 8 (160 + n.toNat)

/-- A destination from the FILE and D fields (R48). -/
def Dest.ofCodes (fileCode : BitVec 4) (d : BitVec 10) : Option Dest :=
  if fileCode = 0 then (Opnd.ofCode10 d).map Dest.here
  else (File.ofCode fileCode.toNat).map fun f => Dest.file f d

/-- The FILE field of a destination (R48). -/
def Dest.fileCode : Dest → BitVec 4
  | .here _ => 0
  | .file f _ => BitVec.ofNat 4 f.code

/-- The D field of a destination (R48). -/
def Dest.code10 : Dest → BitVec 10
  | .here o => o.code10
  | .file _ i => i

/-- 1 for true, as a bit. -/
def bit1 (b : Bool) : BitVec 1 := BitVec.ofBool b

/-- A 56-bit slot word (Table 3.3): MOD, B, A, D, OP, INV, PRED. -/
def word56 (g : Guard) (op : Nat) (d a b : BitVec 10) (mod : BitVec 13) : BitVec 56 :=
  mod ++ b ++ a ++ d ++ BitVec.ofNat 8 op ++ bit1 g.inv ++ g.pred

/-- A 56-bit slot word in an immediate form (R44): IMM fuses B and MOD. -/
def word56i (g : Guard) (op : Nat) (d a : BitVec 10) (imm : BitVec 23) : BitVec 56 :=
  imm ++ a ++ d ++ BitVec.ofNat 8 op ++ bit1 g.inv ++ g.pred

/-- A 48-bit slot word (Table 3.4): OPS, OP, INV, PRED. -/
def word48 (g : Guard) (op : Nat) (ops : BitVec 36) : BitVec 48 := ops ++ BitVec.ofNat 7 op ++ bit1 g.inv ++ g.pred

/-- A 40-bit slot word (Table 3.4). -/
def word40 (g : Guard) (op : Nat) (ops : BitVec 29) : BitVec 40 := ops ++ BitVec.ofNat 6 op ++ bit1 g.inv ++ g.pred

/-- A field of a slot word: n bits from bit lo. -/
def fld (w : BitVec 56) (lo n : Nat) : BitVec n := w.extractLsb' lo n

/-- PRED and INV of a slot word, in the same place in every slot (Tables 3.3, 3.4). -/
def guardOf (w : BitVec 56) : Guard := ⟨fld w 0 4, (fld w 4 1) == 1⟩

/-- Fields D, A and B of a 56-bit word as operands, with MOD handed to the constructor (Table 3.3). -/
def raw3 (w : BitVec 56) (mk : Guard → Opnd → Opnd → Opnd → Option Instr) : Option Instr := do
  mk (guardOf w) (← Opnd.ofCode10 (fld w 13 10)) (← Opnd.ofCode10 (fld w 23 10)) (← Opnd.ofCode10 (fld w 33 10))

/-- Fields D and A of a 56-bit word as operands. -/
def raw2 (w : BitVec 56) (mk : Guard → Opnd → Opnd → Option Instr) : Option Instr := do
  mk (guardOf w) (← Opnd.ofCode10 (fld w 13 10)) (← Opnd.ofCode10 (fld w 23 10))

/-- Fields A and B of a 56-bit word as operands. -/
def rawAB (w : BitVec 56) (mk : Guard → Opnd → Opnd → Option Instr) : Option Instr := do
  mk (guardOf w) (← Opnd.ofCode10 (fld w 23 10)) (← Opnd.ofCode10 (fld w 33 10))

/-- Field A of a 56-bit word as an operand. -/
def rawA (w : BitVec 56) (mk : Guard → Opnd → Option Instr) : Option Instr := do
  mk (guardOf w) (← Opnd.ofCode10 (fld w 23 10))

/-- Field D of a 56-bit word as an operand. -/
def rawD (w : BitVec 56) (mk : Guard → Opnd → Option Instr) : Option Instr := do
  mk (guardOf w) (← Opnd.ofCode10 (fld w 13 10))

/-- The TYPE field, word bits [47:43] (Table 3.3). -/
def typeOf (w : BitVec 56) : Option Fmt := Fmt.ofCode (fld w 43 5).toNat

/-- The destination of a foreign-destination form (R48). -/
def destOf (w : BitVec 56) : Option Dest := Dest.ofCodes (fld w 52 4) (fld w 13 10)

/-- X operand fields D, A and B (Table 9.1). -/
def xD (w : BitVec 56) : Option Opnd := Opnd.ofCode8 (fld w 12 8)
/-- X source a. -/
def xA (w : BitVec 56) : Option Opnd := Opnd.ofCode8 (fld w 20 8)
/-- X source b. -/
def xB (w : BitVec 56) : Option Opnd := Opnd.ofCode8 (fld w 28 8)

/-- S words (Tables 3.7, 4.1, 4.2). -/
def rawS (w : BitVec 56) : Option Instr :=
  match (fld w 5 8).toNat with
  | 0x01 => raw3 w fun g d a b => some (.add g d a b)
  | 0x02 => raw3 w fun g d a b => some (.sub g d a b)
  | 0x03 => raw3 w fun g d a b => some (.addsl g d a b (fld w 43 6))
  | 0x04 => raw3 w fun g d a b => some (.mul g d a b)
  | 0x05 => raw3 w fun g d a b => some (.mulh g d a b)
  | 0x06 => raw3 w fun g d a b => some (.mulhB g d a b)
  | 0x07 => raw3 w fun g d a b => some (.div g d a b)
  | 0x08 => raw3 w fun g d a b => some (.divB g d a b)
  | 0x09 => raw3 w fun g d a b => some (.rem g d a b)
  | 0x0A => raw3 w fun g d a b => some (.remB g d a b)
  | 0x10 => raw3 w fun g d a b => some (.and g d a b)
  | 0x11 => raw3 w fun g d a b => some (.or g d a b)
  | 0x12 => raw3 w fun g d a b => some (.xor g d a b)
  | 0x13 => raw3 w fun g d a b => some (.andn g d a b)
  | 0x14 => raw3 w fun g d a b => some (.shl g d a b)
  | 0x15 => raw3 w fun g d a b => some (.shr g d a b)
  | 0x16 => raw3 w fun g d a b => some (.sra g d a b)
  | 0x17 => raw3 w fun g d a b => some (.rotl g d a b)
  | 0x18 => raw3 w fun g d a b => some (.fshl g d a b (fld w 43 6))
  | 0x19 => raw3 w fun g d a b => some (.fshr g d a b (fld w 43 6))
  | 0x20 => raw2 w fun g d a => some (.clz g d a)
  | 0x21 => raw2 w fun g d a => some (.ctz g d a)
  | 0x22 => raw2 w fun g d a => some (.popc g d a)
  | 0x23 => raw3 w fun g d a b => some (.min g d a b)
  | 0x24 => raw3 w fun g d a b => some (.max g d a b)
  | 0x25 => raw3 w fun g d a b => some (.minB g d a b)
  | 0x26 => raw3 w fun g d a b => some (.maxB g d a b)
  | 0x27 => raw3 w fun g d a b => some (.bfx g d a b (fld w 43 1 == 1))
  | 0x28 => raw3 w fun g d a b => some (.bfi g d a b)
  | 0x29 => raw3 w fun g d a b => some (.sel g d a b (fld w 43 4) (fld w 47 1 == 1))
  | 0x30 => rawAB w fun g a b => some (.cmp g (fld w 13 4) (fld w 17 4) a b)
  | 0x31 => some (.pand (guardOf w) (fld w 13 4) (fld w 23 4) (fld w 33 4) (fld w 43 1 == 1) (fld w 44 1 == 1))
  | 0x32 => some (.por (guardOf w) (fld w 13 4) (fld w 23 4) (fld w 33 4) (fld w 43 1 == 1) (fld w 44 1 == 1))
  | 0x33 => some (.pnot (guardOf w) (fld w 13 4) (fld w 23 4))
  | 0x40 => raw2 w fun g d a => some (.addi g d a (fld w 33 23))
  | 0x41 => raw2 w fun g d a => some (.andi g d a (fld w 33 23))
  | 0x42 => raw2 w fun g d a => some (.ori g d a (fld w 33 23))
  | 0x43 => raw2 w fun g d a => some (.xori g d a (fld w 33 23))
  | 0x44 => raw2 w fun g d a => some (.shli g d a (fld w 33 23))
  | 0x45 => raw2 w fun g d a => some (.shri g d a (fld w 33 23))
  | 0x46 => raw2 w fun g d a => some (.srai g d a (fld w 33 23))
  | 0x47 => rawD w fun g d => some (.li g d (fld w 33 23))
  | 0x48 => raw2 w fun g d a => some (.lih g d a (fld w 33 23))
  | 0x49 => rawA w fun g a => some (.cmpi g (fld w 13 4) (fld w 17 4) a (fld w 33 23))
  | 0x60 => some (.br (guardOf w) (fld w 33 23))
  | 0x61 => some (.jmp (guardOf w) (fld w 33 23))
  | 0x62 => rawA w fun g a => some (.jmpr g a)
  | 0x63 => rawD w fun g d => some (.call g d (fld w 33 23))
  | 0x64 => rawA w fun g a => some (.ret g a)
  | 0x65 => rawA w fun g a => some (.loop g a (fld w 33 23))
  | 0x66 => some (.halt (guardOf w))
  | 0x70 => rawA w fun g a => do some (.xmov g (← destOf w) a (fld w 49 3) (fld w 48 1 == 1))
  | 0x71 => rawD w fun g d => some (.rdsr g d (fld w 33 23))
  | 0x72 => rawA w fun g a => some (if fld w 33 23 = 0x00A then .mrsData g a else .wrsr g (fld w 33 23) a)
  | 0x73 => rawD w fun g d => some (.rdts g d)
  | _ => none

/-- V0 and V1 words (Tables 3.8, 7.1). -/
def rawV (w : BitVec 56) : Option Instr :=
  match (fld w 5 8).toNat with
  | 0x01 => raw3 w fun g d a b => do some (.vadd g d a b (← typeOf w) (fld w 48 4))
  | 0x02 => raw3 w fun g d a b => do some (.vsub g d a b (← typeOf w) (fld w 48 4))
  | 0x03 => raw3 w fun g d a b => do some (.vmul g d a b (← typeOf w) (fld w 48 4))
  | 0x04 => raw3 w fun g d a b => do some (.vmulh g d a b (← typeOf w) (fld w 48 4))
  | 0x05 => raw3 w fun g d a b => do some (.vmin g d a b (← typeOf w) (fld w 48 4))
  | 0x06 => raw3 w fun g d a b => do some (.vmax g d a b (← typeOf w) (fld w 48 4))
  | 0x07 => raw2 w fun g d a => do some (.vabs g d a (← typeOf w) (fld w 48 4))
  | 0x08 => raw3 w fun g d a b => do some (.vand g d a b (← typeOf w) (fld w 48 4))
  | 0x09 => raw3 w fun g d a b => do some (.vor g d a b (← typeOf w) (fld w 48 4))
  | 0x0A => raw3 w fun g d a b => do some (.vxor g d a b (← typeOf w) (fld w 48 4))
  | 0x0B => raw3 w fun g d a b => do some (.vandn g d a b (← typeOf w) (fld w 48 4))
  | 0x0C => raw3 w fun g d a b => do some (.vshl g d a b (← typeOf w) (fld w 48 4))
  | 0x0D => raw3 w fun g d a b => do some (.vshr g d a b (← typeOf w) (fld w 48 4))
  | 0x0E => raw3 w fun g d a b => do some (.vsra g d a b (← typeOf w) (fld w 48 4))
  | 0x0F => raw3 w fun g d a b => do some (.vfsh g d a b (← typeOf w) (fld w 48 1 == 1))
  | 0x10 => raw2 w fun g d a => do some (.vclz g d a (← typeOf w) (fld w 48 4))
  | 0x11 => raw2 w fun g d a => do some (.vpopc g d a (← typeOf w) (fld w 48 4))
  | 0x12 => rawAB w fun g a b => do some (.vcmp g (fld w 13 4) a b (← typeOf w) (fld w 48 4))
  | 0x13 => raw3 w fun g d a b => do some (.vsel g d a b (← typeOf w) (fld w 48 4))
  | 0x18 => some (.kand (guardOf w) (fld w 13 4) (fld w 23 4) (fld w 33 4))
  | 0x19 => some (.kor (guardOf w) (fld w 13 4) (fld w 23 4) (fld w 33 4))
  | 0x1A => some (.kxor (guardOf w) (fld w 13 4) (fld w 23 4) (fld w 33 4))
  | 0x1B => some (.knot (guardOf w) (fld w 13 4) (fld w 23 4))
  | 0x1C => rawD w fun g d => some (.kpop g d (fld w 23 4))
  | 0x1D => rawD w fun g d => some (.kfirst g d (fld w 23 4))
  | 0x20 => raw2 w fun g d a => do some (.vbcast g d a (fld w 33 10) (← typeOf w) (fld w 48 4))
  | 0x21 => raw2 w fun g d a => do some (.vext g d a (fld w 33 10) (← typeOf w))
  | 0x22 => raw2 w fun g d a => do some (.vins g d a (fld w 33 10) (← typeOf w))
  | 0x23 => raw3 w fun g d a b => do some (.vperm g d a b (← typeOf w) (fld w 48 4))
  | 0x24 => raw2 w fun g d a => do some (.vrot g d a (fld w 33 10) (← typeOf w) (fld w 48 4))
  | 0x25 => raw2 w fun g d a => do some (.vslide g d a (fld w 33 7) (fld w 40 1 == 1) (← typeOf w) (fld w 48 4))
  | 0x28 => raw2 w fun g d a => do some (.vred g d a (fld w 33 3) (fld w 36 2) (← typeOf w))
  | 0x29 => raw2 w fun g d a => do some (.vscan g d a (fld w 33 3) (fld w 36 2) (← typeOf w))
  | 0x2A => raw3 w fun g d a b => do some (.vpack g d a b (← typeOf w) (fld w 48 1 == 1))
  | 0x2B => raw2 w fun g d a => do some (.vunpk g d a (← typeOf w) (fld w 48 1 == 1))
  | 0x30 => raw3 w fun g d a b => do some (.vfadd g d a b (← typeOf w) (fld w 48 4))
  | 0x31 => raw3 w fun g d a b => do some (.vfsub g d a b (← typeOf w) (fld w 48 4))
  | 0x32 => raw3 w fun g d a b => do some (.vfmul g d a b (← typeOf w) (fld w 48 4))
  | 0x33 => raw3 w fun g d a b => do some (.vfma g d a b (← typeOf w) (fld w 48 4))
  | 0x34 => raw3 w fun g d a b => do some (.vfms g d a b (← typeOf w) (fld w 48 4))
  | 0x35 => raw3 w fun g d a b => do some (.vfmin g d a b (← typeOf w) (fld w 48 4))
  | 0x36 => raw3 w fun g d a b => do some (.vfmax g d a b (← typeOf w) (fld w 48 4))
  | 0x37 => rawAB w fun g a b => do some (.vfcmp g (fld w 13 4) a b (← typeOf w) (fld w 48 4))
  | 0x38 => raw2 w fun g d a => do some (.vfabs g d a (← typeOf w) (fld w 48 4))
  | 0x39 => raw2 w fun g d a => do some (.vfneg g d a (← typeOf w) (fld w 48 4))
  | 0x3A => raw3 w fun g d a b => do some (.vfsgn g d a b (← typeOf w) (fld w 48 4))
  | 0x3B => raw2 w fun g d a => do some (.vfred g d a (fld w 33 3) (fld w 36 2) (← typeOf w))
  | 0x40 => raw2 w fun g d a => do some (.vrcp g d a (← typeOf w) (fld w 48 4))
  | 0x41 => raw2 w fun g d a => do some (.vrsq g d a (← typeOf w) (fld w 48 4))
  | 0x42 => raw2 w fun g d a => do some (.vexp2 g d a (← typeOf w) (fld w 48 4))
  | 0x43 => raw2 w fun g d a => do some (.vlog2 g d a (← typeOf w) (fld w 48 4))
  | 0x48 => raw2 w fun g d a => do some (.vicvt g d a (← typeOf w) (fld w 48 4))
  | 0x49 => raw2 w fun g d a => do some (.vfcvt g d a (← typeOf w) (fld w 48 4))
  | 0x70 => rawA w fun g a => do some (.vxmov g (← destOf w) a (fld w 49 3))
  | _ => none

/-- M words (Tables 3.9, 8.4). -/
def rawM (w : BitVec 56) : Option Instr :=
  match (fld w 5 7).toNat with
  | 0x01 => some (.mclr (guardOf w) (fld w 12 5))
  | 0x02 => do some (.mmac (guardOf w) (fld w 12 5) (fld w 17 5) (← Fmt.ofCode (fld w 22 4).toNat) (← Fmt.ofCode (fld w 26 4).toNat) (fld w 30 7) (fld w 37 3) (fld w 40 1 == 1))
  | 0x03 => do some (.mmacs (guardOf w) (fld w 12 5) (fld w 17 5) (← Fmt.ofCode (fld w 22 4).toNat) (← Fmt.ofCode (fld w 26 4).toNat) (fld w 30 7) (fld w 37 3) (fld w 41 3) (fld w 40 1 == 1))
  | 0x04 => do some (.mdrain (guardOf w) (fld w 17 2) (fld w 12 5) (fld w 23 7) (fld w 30 4) (← Fmt.ofCode (fld w 19 4).toNat) (fld w 34 1 == 1))
  | 0x05 => some (.mlar (guardOf w) (fld w 12 5) (fld w 17 7) (fld w 24 3) (fld w 27 2))
  | 0x06 => some (.mpar (guardOf w) (fld w 12 3) (fld w 16 32) (fld w 15 1 == 1))
  | 0x07 => some (.mcall (guardOf w) (fld w 12 11))
  | 0x08 => some (.mloop (guardOf w) (fld w 16 16) (fld w 13 3) (fld w 12 1 == 1))
  | 0x09 => some (if fld w 12 1 = 1 then .mendF (guardOf w) else .mend (guardOf w))
  | 0x0A => 
      match (fld w 19 2).toNat with
      | 0 => some (.mcntRd (guardOf w) (fld w 17 2) (fld w 12 5))
      | 1 => some (.mcntSnap (guardOf w) (fld w 17 2) (fld w 12 5))
      | 2 => some (.mcntClr (guardOf w) (fld w 12 5))
      | _ => none
  | _ => none

/-- L words (Tables 3.10, 5.1, 17.4, 18.1). -/
def rawL (w : BitVec 56) : Option Instr :=
  match (fld w 5 8).toNat with
  | 0x01 => rawAB w fun g a b => do some (.ld g (← destOf w) a b (fld w 48 4) (← typeOf w))
  | 0x02 => rawAB w fun g a b => do some (.vld g (← destOf w) a b (fld w 48 4))
  | 0x03 => rawAB w fun g a b => do some (.vldu g (← destOf w) a b (fld w 48 4))
  | 0x04 => rawAB w fun g a b => some (.pf g a b)
  | 0x05 => rawA w fun g a => some (.gpush g (fld w 13 5) a)
  | 0x10 => rawAB w fun g a b => do some (.ldg g (← destOf w) a b (fld w 50 2) (← typeOf w))
  | 0x11 => rawAB w fun g a b => do some (.vldg g (← destOf w) a b (fld w 50 2))
  | 0x18 => rawA w fun g a => do some (.ldr g (← destOf w) a (fld w 42 1 == 1) (fld w 33 9) (fld w 48 4) (← typeOf w))
  | _ => none

/-- W words (Tables 3.11, 5.1, 15.1, 18.1). -/
def rawW (w : BitVec 56) : Option Instr :=
  match (fld w 5 8).toNat with
  | 0x01 => raw3 w fun g d a b => do some (.st g d a b (fld w 48 4) (← typeOf w))
  | 0x02 => raw3 w fun g d a b => some (.vst g d a b (fld w 48 4))
  | 0x03 => raw2 w fun g d a => some (.vstm g d a (fld w 33 4) (fld w 37 1 == 1) (fld w 48 4))
  | 0x10 => rawAB w fun g a b => do some (.aadd g (fld w 13 5) a b (fld w 22 1 == 1) (fld w 18 2) (fld w 48 4) (← typeOf w))
  | 0x11 => rawAB w fun g a b => do some (.amin g (fld w 13 5) a b (fld w 22 1 == 1) (fld w 18 2) (fld w 48 4) (← typeOf w))
  | 0x12 => rawAB w fun g a b => do some (.amax g (fld w 13 5) a b (fld w 22 1 == 1) (fld w 18 2) (fld w 48 4) (← typeOf w))
  | 0x13 => rawAB w fun g a b => do some (.alog g (fld w 13 5) a b (fld w 22 1 == 1) (fld w 20 2) (fld w 18 2) (fld w 48 4) (← typeOf w))
  | 0x14 => rawAB w fun g a b => do some (.aswp g (fld w 13 5) a b (fld w 22 1 == 1) (fld w 18 2) (fld w 48 4) (← typeOf w))
  | 0x15 => rawAB w fun g a b => do some (.acas g (fld w 13 5) a b (fld w 18 2) (fld w 48 4) (← typeOf w))
  | 0x16 => rawAB w fun g a b => do some (.aincb g (fld w 13 5) a b (fld w 22 1 == 1) (fld w 18 2) (fld w 48 4) (← typeOf w))
  | 0x17 => rawAB w fun g a b => some (.rcnt g a b)
  | 0x18 => rawAB w fun g a b => some (.asnap g (fld w 13 5) a b (fld w 48 4))
  | 0x20 => raw2 w fun g d a => do some (.str g d a (fld w 42 1 == 1) (fld w 48 4) (← typeOf w))
  | 0x21 => rawA w fun g a => do some (.ratom g (fld w 13 5) a (fld w 33 5) (fld w 38 4) (fld w 22 1 == 1) (fld w 18 2) (fld w 48 4) (← typeOf w))
  | _ => none

/-- C words (Tables 3.12, 14.7, 17.4; R91, R290). -/
def rawC (w : BitVec 56) : Option Instr :=
  match (fld w 5 7).toNat with
  | 0x01 => some (.cbind (guardOf w) (fld w 12 5) (fld w 17 5) (fld w 22 1 == 1))
  | 0x02 => some (.cfree (guardOf w) (fld w 12 5))
  | 0x10 => some (.cput (guardOf w) (fld w 27 3) (fld w 12 5) (fld w 17 5) (fld w 22 5))
  | 0x11 => some (.cget (guardOf w) (fld w 27 3) (fld w 12 5) (fld w 17 5))
  | 0x12 => some (.ccard (guardOf w) (fld w 27 3) (fld w 12 5) (fld w 17 5))
  | 0x13 => some (.cwait (guardOf w) (fld w 27 3) (fld w 17 5) (fld w 30 1 == 1))
  | 0x14 => some (.cstat (guardOf w) (fld w 27 3) (fld w 12 5))
  | 0x18 => some (.mapi (guardOf w) (fld w 12 5) (fld w 17 5) (fld w 32 3) (fld w 35 5))
  | 0x19 => some (.mapx (guardOf w) (fld w 22 5) (fld w 17 5))
  | 0x1A => some (if fld w 30 1 = 1 then .maprAll (guardOf w) (fld w 32 3) (fld w 35 5) else .mapr (guardOf w) (fld w 22 5))
  | 0x1B => some (.mapq (guardOf w) (fld w 12 5) (fld w 22 5))
  | 0x20 => some (if fld w 24 1 = 1 then .gdeclR (guardOf w) (fld w 22 2) else .gdecl (guardOf w) (fld w 12 5) (fld w 22 2) (fld w 17 5))
  | 0x21 => some (.gq (guardOf w) (fld w 12 5) (fld w 22 2) (fld w 24 5))
  | 0x28 => some (.tacq (guardOf w) (fld w 12 5) (fld w 17 5))
  | 0x29 => some (.trel (guardOf w) (fld w 17 5))
  | _ => none

/-- Y words (Tables 3.13, 20.5, 23.4; R98, R245, R257, R276). -/
def rawY (w : BitVec 56) : Option Instr :=
  match (fld w 5 6).toNat with
  | 0x01 => some (.qwait (guardOf w) (fld w 11 5) (fld w 16 7))
  | 0x02 => some (.qadv (guardOf w) (fld w 11 5) (fld w 16 7))
  | 0x04 => some (.sarm (guardOf w) (fld w 11 5) (fld w 16 5))
  | 0x05 => some (.swait (guardOf w) (fld w 11 5) (fld w 16 5))
  | 0x08 => some (.fence (guardOf w) (fld w 27 3) (fld w 11 16))
  | 0x0C => some (.gstep (guardOf w) (fld w 16 2) (fld w 11 5))
  | 0x10 => some (.barA (guardOf w) (fld w 27 3) (fld w 23 4) (fld w 19 4) (fld w 15 4))
  | 0x11 => some (.barW (guardOf w) (fld w 27 3) (fld w 23 4) (fld w 15 4))
  | 0x12 => some (.bar (guardOf w) (fld w 27 3) (fld w 23 4) (fld w 19 4) (fld w 15 4))
  | 0x14 => some (.spawn (guardOf w) (fld w 11 4) (fld w 15 4))
  | 0x15 => some (.sjoin (guardOf w) (fld w 11 4))
  | 0x16 => some (.yield (guardOf w))
  | 0x17 => some (.sleep (guardOf w) (fld w 11 4))
  | 0x18 => some (.evpost (guardOf w) (fld w 11 4) (fld w 15 4))
  | 0x20 => some (.trap (guardOf w) (fld w 11 16))
  | 0x21 => some (if fld w 13 1 = 1 then .eretT (guardOf w) (fld w 11 2) (fld w 14 4) else .eret (guardOf w) (fld w 11 2))
  | 0x30 => some (.ctxsave (guardOf w) (fld w 11 4) (fld w 15 4))
  | 0x31 => some (.ctxload (guardOf w) (fld w 11 4) (fld w 15 4) (fld w 19 1 == 1))
  | 0x32 => some (.pimg (guardOf w) (fld w 11 4) (fld w 15 4))
  | _ => none

/-- X words (Tables 3.14, 9.1, 9.3). -/
def rawX (w : BitVec 56) : Option Instr :=
  match (fld w 5 7).toNat with
  | 0x01 => do some (.xcvt (guardOf w) (← xD w) (← xA w) (fld w 28 8) (← Fmt.ofCode (fld w 36 5).toNat) (← Fmt.ofCode (fld w 41 5).toNat))
  | 0x02 => do some (.xquant (guardOf w) (← xD w) (← xA w) (← xB w) (← Fmt.ofCode (fld w 36 5).toNat) (fld w 41 3))
  | 0x03 => do some (.xdeq (guardOf w) (← xD w) (← xA w) (← xB w) (fld w 36 3) (← Fmt.ofCode (fld w 41 5).toNat))
  | 0x04 => do some (.xamax (guardOf w) (← xD w) (← xA w) (← xB w) (← Fmt.ofCode (fld w 36 5).toNat))
  | 0x05 => do some (.xtr (guardOf w) (fld w 12 5) (fld w 20 5) (← Fmt.ofCode (fld w 36 5).toNat))
  | 0x06 => do some (.xexp (guardOf w) (fld w 12 5) (fld w 20 5) (fld w 36 2 == 2) (← Fmt.ofCode (fld w 41 5).toNat) (fld w 46 1 == 1))
  | 0x07 => do some (.xpack (guardOf w) (← xD w) (← xA w) (fld w 28 8) (← Fmt.ofCode (fld w 36 5).toNat))
  | 0x08 => do some (.xunpk (guardOf w) (← xD w) (← xA w) (fld w 28 8) (← Fmt.ofCode (fld w 36 5).toNat))
  | 0x09 => do some (.xcrc (guardOf w) (← xD w) (← xA w) (← xB w) (fld w 36 6))
  | _ => none

/-- The fields of a slot word as the slot's table gives them, before any check. -/
def rawSlot (sl : Slot) (w : BitVec 56) : Option Instr :=
  match sl with
  | .S => rawS w | .V0 => rawV w | .V1 => rawV w | .M => rawM w | .L => rawL w | .W => rawW w | .C => rawC w | .Y => rawY w
  | .X => rawX w

/-- MOD of a typed form: FILE zero, the entry-defined bits, TYPE (Table 3.3). -/
def tmod (k : BitVec 4) (t : Fmt) : BitVec 13 := (0 : BitVec 4) ++ k ++ BitVec.ofNat 5 t.code

/-- The slot word of an operation, as a number; events and issues without an operation have none (R45, R50). -/
def encode : Instr → Option Nat
  | .add g d a b => some (word56 g 0x01 d.code10 a.code10 b.code10 0).toNat
  | .sub g d a b => some (word56 g 0x02 d.code10 a.code10 b.code10 0).toNat
  | .mul g d a b => some (word56 g 0x04 d.code10 a.code10 b.code10 0).toNat
  | .mulh g d a b => some (word56 g 0x05 d.code10 a.code10 b.code10 0).toNat
  | .mulhB g d a b => some (word56 g 0x06 d.code10 a.code10 b.code10 0).toNat
  | .div g d a b => some (word56 g 0x07 d.code10 a.code10 b.code10 0).toNat
  | .divB g d a b => some (word56 g 0x08 d.code10 a.code10 b.code10 0).toNat
  | .rem g d a b => some (word56 g 0x09 d.code10 a.code10 b.code10 0).toNat
  | .remB g d a b => some (word56 g 0x0A d.code10 a.code10 b.code10 0).toNat
  | .addsl g d a b sh => some (word56 g 0x03 d.code10 a.code10 b.code10 (sh.zeroExtend 13)).toNat
  | .and g d a b => some (word56 g 0x10 d.code10 a.code10 b.code10 0).toNat
  | .or g d a b => some (word56 g 0x11 d.code10 a.code10 b.code10 0).toNat
  | .xor g d a b => some (word56 g 0x12 d.code10 a.code10 b.code10 0).toNat
  | .andn g d a b => some (word56 g 0x13 d.code10 a.code10 b.code10 0).toNat
  | .shl g d a b => some (word56 g 0x14 d.code10 a.code10 b.code10 0).toNat
  | .shr g d a b => some (word56 g 0x15 d.code10 a.code10 b.code10 0).toNat
  | .sra g d a b => some (word56 g 0x16 d.code10 a.code10 b.code10 0).toNat
  | .rotl g d a b => some (word56 g 0x17 d.code10 a.code10 b.code10 0).toNat
  | .fshl g d a b sh => some (word56 g 0x18 d.code10 a.code10 b.code10 (sh.zeroExtend 13)).toNat
  | .fshr g d a b sh => some (word56 g 0x19 d.code10 a.code10 b.code10 (sh.zeroExtend 13)).toNat
  | .clz g d a => some (word56 g 0x20 d.code10 a.code10 0 0).toNat
  | .ctz g d a => some (word56 g 0x21 d.code10 a.code10 0 0).toNat
  | .popc g d a => some (word56 g 0x22 d.code10 a.code10 0 0).toNat
  | .min g d a b => some (word56 g 0x23 d.code10 a.code10 b.code10 0).toNat
  | .max g d a b => some (word56 g 0x24 d.code10 a.code10 b.code10 0).toNat
  | .minB g d a b => some (word56 g 0x25 d.code10 a.code10 b.code10 0).toNat
  | .maxB g d a b => some (word56 g 0x26 d.code10 a.code10 b.code10 0).toNat
  | .bfx g d a b sx => some (word56 g 0x27 d.code10 a.code10 b.code10 ((bit1 sx).zeroExtend 13)).toNat
  | .bfi g d a b => some (word56 g 0x28 d.code10 a.code10 b.code10 0).toNat
  | .sel g d a b psel pinv => some (word56 g 0x29 d.code10 a.code10 b.code10 ((bit1 pinv ++ psel).zeroExtend 13)).toNat
  | .cmp g p cc a b => some (word56 g 0x30 ((cc ++ p).zeroExtend 10) a.code10 b.code10 0).toNat
  | .pand g d a b na nb => some (word56 g 0x31 (d.zeroExtend 10) (a.zeroExtend 10) (b.zeroExtend 10) ((bit1 nb ++ bit1 na).zeroExtend 13)).toNat
  | .por g d a b na nb => some (word56 g 0x32 (d.zeroExtend 10) (a.zeroExtend 10) (b.zeroExtend 10) ((bit1 nb ++ bit1 na).zeroExtend 13)).toNat
  | .pnot g d a => some (word56 g 0x33 (d.zeroExtend 10) (a.zeroExtend 10) 0 0).toNat
  | .addi g d a imm => some (word56i g 0x40 d.code10 a.code10 imm).toNat
  | .andi g d a imm => some (word56i g 0x41 d.code10 a.code10 imm).toNat
  | .ori g d a imm => some (word56i g 0x42 d.code10 a.code10 imm).toNat
  | .xori g d a imm => some (word56i g 0x43 d.code10 a.code10 imm).toNat
  | .shli g d a imm => some (word56i g 0x44 d.code10 a.code10 imm).toNat
  | .shri g d a imm => some (word56i g 0x45 d.code10 a.code10 imm).toNat
  | .srai g d a imm => some (word56i g 0x46 d.code10 a.code10 imm).toNat
  | .li g d imm => some (word56i g 0x47 d.code10 0 imm).toNat
  | .lih g d a imm => some (word56i g 0x48 d.code10 a.code10 imm).toNat
  | .cmpi g p cc a imm => some (word56i g 0x49 ((cc ++ p).zeroExtend 10) a.code10 imm).toNat
  | .br g imm => some (word56i g 0x60 0 0 imm).toNat
  | .jmp g imm => some (word56i g 0x61 0 0 imm).toNat
  | .jmpr g a => some (word56 g 0x62 0 a.code10 0 0).toNat
  | .call g d imm => some (word56i g 0x63 d.code10 0 imm).toNat
  | .ret g a => some (word56 g 0x64 0 a.code10 0 0).toNat
  | .loop g a imm => some (word56i g 0x65 0 a.code10 imm).toNat
  | .halt g => some (word56 g 0x66 0 0 0 0).toNat
  | .xmov g dst a ln bc => some (word56 g 0x70 dst.code10 a.code10 0 (dst.fileCode ++ ln ++ bit1 bc ++ (0 : BitVec 5))).toNat
  | .rdsr g d sr => some (word56i g 0x71 d.code10 0 sr).toNat
  | .wrsr g sr a => some (word56i g 0x72 0 a.code10 sr).toNat
  | .mrsData g a => some (word56i g 0x72 0 a.code10 0x00A).toNat
  | .rdts g d => some (word56 g 0x73 d.code10 0 0 0).toNat
  | .vadd g d a b t k => some (word56 g 0x01 d.code10 a.code10 b.code10 (tmod k t)).toNat
  | .vsub g d a b t k => some (word56 g 0x02 d.code10 a.code10 b.code10 (tmod k t)).toNat
  | .vmul g d a b t k => some (word56 g 0x03 d.code10 a.code10 b.code10 (tmod k t)).toNat
  | .vmulh g d a b t k => some (word56 g 0x04 d.code10 a.code10 b.code10 (tmod k t)).toNat
  | .vmin g d a b t k => some (word56 g 0x05 d.code10 a.code10 b.code10 (tmod k t)).toNat
  | .vmax g d a b t k => some (word56 g 0x06 d.code10 a.code10 b.code10 (tmod k t)).toNat
  | .vabs g d a t k => some (word56 g 0x07 d.code10 a.code10 0 (tmod k t)).toNat
  | .vand g d a b t k => some (word56 g 0x08 d.code10 a.code10 b.code10 (tmod k t)).toNat
  | .vor g d a b t k => some (word56 g 0x09 d.code10 a.code10 b.code10 (tmod k t)).toNat
  | .vxor g d a b t k => some (word56 g 0x0A d.code10 a.code10 b.code10 (tmod k t)).toNat
  | .vandn g d a b t k => some (word56 g 0x0B d.code10 a.code10 b.code10 (tmod k t)).toNat
  | .vshl g d a b t k => some (word56 g 0x0C d.code10 a.code10 b.code10 (tmod k t)).toNat
  | .vshr g d a b t k => some (word56 g 0x0D d.code10 a.code10 b.code10 (tmod k t)).toNat
  | .vsra g d a b t k => some (word56 g 0x0E d.code10 a.code10 b.code10 (tmod k t)).toNat
  | .vfsh g d a b t rt => some (word56 g 0x0F d.code10 a.code10 b.code10 (tmod ((bit1 rt).zeroExtend 4) t)).toNat
  | .vclz g d a t k => some (word56 g 0x10 d.code10 a.code10 0 (tmod k t)).toNat
  | .vpopc g d a t k => some (word56 g 0x11 d.code10 a.code10 0 (tmod k t)).toNat
  | .vcmp g kd a b t cc => some (word56 g 0x12 (kd.zeroExtend 10) a.code10 b.code10 (tmod cc t)).toNat
  | .vfcmp g kd a b t cc => some (word56 g 0x37 (kd.zeroExtend 10) a.code10 b.code10 (tmod cc t)).toNat
  | .vsel g d a b t ks => some (word56 g 0x13 d.code10 a.code10 b.code10 (tmod ks t)).toNat
  | .kand g kd ka kb => some (word56 g 0x18 (kd.zeroExtend 10) (ka.zeroExtend 10) (kb.zeroExtend 10) 0).toNat
  | .kor g kd ka kb => some (word56 g 0x19 (kd.zeroExtend 10) (ka.zeroExtend 10) (kb.zeroExtend 10) 0).toNat
  | .kxor g kd ka kb => some (word56 g 0x1A (kd.zeroExtend 10) (ka.zeroExtend 10) (kb.zeroExtend 10) 0).toNat
  | .knot g kd ka => some (word56 g 0x1B (kd.zeroExtend 10) (ka.zeroExtend 10) 0 0).toNat
  | .kpop g d ka => some (word56 g 0x1C d.code10 (ka.zeroExtend 10) 0 0).toNat
  | .kfirst g d ka => some (word56 g 0x1D d.code10 (ka.zeroExtend 10) 0 0).toNat
  | .vbcast g d a n t k => some (word56 g 0x20 d.code10 a.code10 n (tmod k t)).toNat
  | .vrot g d a n t k => some (word56 g 0x24 d.code10 a.code10 n (tmod k t)).toNat
  | .vext g d a n t => some (word56 g 0x21 d.code10 a.code10 n (tmod 0 t)).toNat
  | .vins g d a n t => some (word56 g 0x22 d.code10 a.code10 n (tmod 0 t)).toNat
  | .vperm g d a b t k => some (word56 g 0x23 d.code10 a.code10 b.code10 (tmod k t)).toNat
  | .vslide g d a n dn t k => some (word56 g 0x25 d.code10 a.code10 ((bit1 dn ++ n).zeroExtend 10) (tmod k t)).toNat
  | .vred g d a gs op t => some (word56 g 0x28 d.code10 a.code10 ((op ++ gs).zeroExtend 10) (tmod 0 t)).toNat
  | .vscan g d a gs op t => some (word56 g 0x29 d.code10 a.code10 ((op ++ gs).zeroExtend 10) (tmod 0 t)).toNat
  | .vfred g d a gs op t => some (word56 g 0x3B d.code10 a.code10 ((op ++ gs).zeroExtend 10) (tmod 0 t)).toNat
  | .vpack g d a b t wr => some (word56 g 0x2A d.code10 a.code10 b.code10 (tmod ((bit1 wr).zeroExtend 4) t)).toNat
  | .vunpk g d a t hi => some (word56 g 0x2B d.code10 a.code10 0 (tmod ((bit1 hi).zeroExtend 4) t)).toNat
  | .vfadd g d a b t k => some (word56 g 0x30 d.code10 a.code10 b.code10 (tmod k t)).toNat
  | .vfsub g d a b t k => some (word56 g 0x31 d.code10 a.code10 b.code10 (tmod k t)).toNat
  | .vfmul g d a b t k => some (word56 g 0x32 d.code10 a.code10 b.code10 (tmod k t)).toNat
  | .vfma g d a b t k => some (word56 g 0x33 d.code10 a.code10 b.code10 (tmod k t)).toNat
  | .vfms g d a b t k => some (word56 g 0x34 d.code10 a.code10 b.code10 (tmod k t)).toNat
  | .vfmin g d a b t k => some (word56 g 0x35 d.code10 a.code10 b.code10 (tmod k t)).toNat
  | .vfmax g d a b t k => some (word56 g 0x36 d.code10 a.code10 b.code10 (tmod k t)).toNat
  | .vfabs g d a t k => some (word56 g 0x38 d.code10 a.code10 0 (tmod k t)).toNat
  | .vfneg g d a t k => some (word56 g 0x39 d.code10 a.code10 0 (tmod k t)).toNat
  | .vfsgn g d a b t k => some (word56 g 0x3A d.code10 a.code10 b.code10 (tmod k t)).toNat
  | .vrcp g d a t k => some (word56 g 0x40 d.code10 a.code10 0 (tmod k t)).toNat
  | .vrsq g d a t k => some (word56 g 0x41 d.code10 a.code10 0 (tmod k t)).toNat
  | .vexp2 g d a t k => some (word56 g 0x42 d.code10 a.code10 0 (tmod k t)).toNat
  | .vlog2 g d a t k => some (word56 g 0x43 d.code10 a.code10 0 (tmod k t)).toNat
  | .vicvt g d a t k => some (word56 g 0x48 d.code10 a.code10 0 (tmod k t)).toNat
  | .vfcvt g d a t k => some (word56 g 0x49 d.code10 a.code10 0 (tmod k t)).toNat
  | .vxmov g dst a ln => some (word56 g 0x70 dst.code10 a.code10 0 (dst.fileCode ++ ln ++ (0 : BitVec 6))).toNat
  | .ld g dst a b cls t => some (word56 g 0x01 dst.code10 a.code10 b.code10 (dst.fileCode ++ cls ++ BitVec.ofNat 5 t.code)).toNat
  | .vld g dst a b cls => some (word56 g 0x02 dst.code10 a.code10 b.code10 (dst.fileCode ++ cls ++ (0 : BitVec 5))).toNat
  | .vldu g dst a b cls => some (word56 g 0x03 dst.code10 a.code10 b.code10 (dst.fileCode ++ cls ++ (0 : BitVec 5))).toNat
  | .pf g a b => some (word56 g 0x04 0 a.code10 b.code10 0).toNat
  | .gpush g q a => some (word56 g 0x05 (q.zeroExtend 10) a.code10 0 0).toNat
  | .ldg g dst a b gs t => some (word56 g 0x10 dst.code10 a.code10 b.code10 (dst.fileCode ++ gs ++ (0 : BitVec 2) ++ BitVec.ofNat 5 t.code)).toNat
  | .vldg g dst a b gs => some (word56 g 0x11 dst.code10 a.code10 b.code10 (dst.fileCode ++ gs ++ (0 : BitVec 7))).toNat
  | .ldr g dst a ca lq cls t => some (word56 g 0x18 dst.code10 a.code10 (bit1 ca ++ lq) (dst.fileCode ++ cls ++ BitVec.ofNat 5 t.code)).toNat
  | .st g src a b cls t => some (word56 g 0x01 src.code10 a.code10 b.code10 (tmod cls t)).toNat
  | .vst g src a b cls => some (word56 g 0x02 src.code10 a.code10 b.code10 (tmod cls .b8)).toNat
  | .vstm g src a k v1 cls => some (word56 g 0x03 src.code10 a.code10 ((bit1 v1 ++ k).zeroExtend 10) (tmod cls .b8)).toNat
  | .aadd g wd a b nr ord cls t => some (word56 g 0x10 (bit1 nr ++ (0 : BitVec 2) ++ ord ++ wd) a.code10 b.code10 (tmod cls t)).toNat
  | .amin g wd a b nr ord cls t => some (word56 g 0x11 (bit1 nr ++ (0 : BitVec 2) ++ ord ++ wd) a.code10 b.code10 (tmod cls t)).toNat
  | .amax g wd a b nr ord cls t => some (word56 g 0x12 (bit1 nr ++ (0 : BitVec 2) ++ ord ++ wd) a.code10 b.code10 (tmod cls t)).toNat
  | .aswp g wd a b nr ord cls t => some (word56 g 0x14 (bit1 nr ++ (0 : BitVec 2) ++ ord ++ wd) a.code10 b.code10 (tmod cls t)).toNat
  | .aincb g wd a b nr ord cls t => some (word56 g 0x16 (bit1 nr ++ (0 : BitVec 2) ++ ord ++ wd) a.code10 b.code10 (tmod cls t)).toNat
  | .alog g wd a b nr lop ord cls t => some (word56 g 0x13 (bit1 nr ++ lop ++ ord ++ wd) a.code10 b.code10 (tmod cls t)).toNat
  | .acas g wd a b ord cls t => some (word56 g 0x15 ((0 : BitVec 3) ++ ord ++ wd) a.code10 b.code10 (tmod cls t)).toNat
  | .rcnt g a b => some (word56 g 0x17 0 a.code10 b.code10 (tmod 0 .b32)).toNat
  | .asnap g wd a b cls => some (word56 g 0x18 (wd.zeroExtend 10) a.code10 b.code10 (tmod cls .b32)).toNat
  | .str g src a ca cls t => some (word56 g 0x20 src.code10 a.code10 (bit1 ca ++ (0 : BitVec 9)) (tmod cls t)).toNat
  | .ratom g wd a wb rop nr ord cls t => some (word56 g 0x21 (bit1 nr ++ (0 : BitVec 2) ++ ord ++ wd) a.code10 ((0 : BitVec 1) ++ rop ++ wb) (tmod cls t)).toNat
  | .mclr g acc => some (word48 g 0x01 (acc.zeroExtend 36)).toNat
  | .mmac g acc q af bf kn lm adv => some (word48 g 0x02 ((bit1 adv ++ lm ++ kn ++ BitVec.ofNat 4 bf.code ++ BitVec.ofNat 4 af.code ++ q ++ acc).zeroExtend 36)).toNat
  | .mmacs g acc q af bf kn lm km adv => some (word48 g 0x03 ((km ++ bit1 adv ++ lm ++ kn ++ BitVec.ofNat 4 bf.code ++ BitVec.ofNat 4 af.code ++ q ++ acc).zeroExtend 36)).toNat
  | .mdrain g dq acc rs nr1 fo cl => some (word48 g 0x04 ((bit1 cl ++ nr1 ++ rs ++ BitVec.ofNat 4 fo.code ++ dq ++ acc).zeroExtend 36)).toNat
  | .mlar g q kn lm adv => some (word48 g 0x05 ((adv ++ lm ++ kn ++ q).zeroExtend 36)).toNat
  | .mpar g md imm hi => some (word48 g 0x06 (imm ++ bit1 hi ++ md)).toNat
  | .mcall g idx => some (word48 g 0x07 (idx.zeroExtend 36)).toNat
  | .mloop g count mi src => some (word48 g 0x08 ((count ++ mi ++ bit1 src).zeroExtend 36)).toNat
  | .mend g => some (word48 g 0x09 0).toNat
  | .mendF g => some (word48 g 0x09 1).toNat
  | .mcntRd g dq acc => some (word48 g 0x0A (((0 : BitVec 2) ++ dq ++ acc).zeroExtend 36)).toNat
  | .mcntSnap g dq acc => some (word48 g 0x0A (((1 : BitVec 2) ++ dq ++ acc).zeroExtend 36)).toNat
  | .mcntClr g acc => some (word48 g 0x0A (((2 : BitVec 2) ++ (0 : BitVec 2) ++ acc).zeroExtend 36)).toNat
  | .cbind g q e gth => some (word48 g 0x01 ((bit1 gth ++ e ++ q).zeroExtend 36)).toNat
  | .cfree g q => some (word48 g 0x02 (q.zeroExtend 36)).toNat
  | .cput g ch d e s => some (word48 g 0x10 ((ch ++ s ++ e ++ d).zeroExtend 36)).toNat
  | .cget g ch d e => some (word48 g 0x11 ((ch ++ (0 : BitVec 5) ++ e ++ d).zeroExtend 36)).toNat
  | .ccard g ch d e => some (word48 g 0x12 ((ch ++ (0 : BitVec 5) ++ e ++ d).zeroExtend 36)).toNat
  | .cwait g ch e inc => some (word48 g 0x13 ((bit1 inc ++ ch ++ (0 : BitVec 5) ++ e ++ (0 : BitVec 5)).zeroExtend 36)).toNat
  | .cstat g ch d => some (word48 g 0x14 ((ch ++ (0 : BitVec 10) ++ d).zeroExtend 36)).toNat
  | .mapi g d e epk epn => some (word48 g 0x18 ((epn ++ epk ++ (0 : BitVec 10) ++ e ++ d).zeroExtend 36)).toNat
  | .mapx g h e => some (word48 g 0x19 ((h ++ e ++ (0 : BitVec 5)).zeroExtend 36)).toNat
  | .mapr g h => some (word48 g 0x1A ((h ++ (0 : BitVec 10)).zeroExtend 36)).toNat
  | .maprAll g epk epn => some (word48 g 0x1A ((epn ++ epk ++ (0 : BitVec 1) ++ (1 : BitVec 1) ++ (0 : BitVec 18)).zeroExtend 36)).toNat
  | .mapq g d h => some (word48 g 0x1B ((h ++ (0 : BitVec 5) ++ d).zeroExtend 36)).toNat
  | .gdecl g d gs e => some (word48 g 0x20 ((gs ++ e ++ d).zeroExtend 36)).toNat
  | .gdeclR g gs => some (word48 g 0x20 (((1 : BitVec 1) ++ gs ++ (0 : BitVec 10)).zeroExtend 36)).toNat
  | .gq g d gs which => some (word48 g 0x21 ((which ++ gs ++ (0 : BitVec 5) ++ d).zeroExtend 36)).toNat
  | .tacq g d e => some (word48 g 0x28 ((e ++ d).zeroExtend 36)).toNat
  | .trel g e => some (word48 g 0x29 ((e ++ (0 : BitVec 5)).zeroExtend 36)).toNat
  | .qwait g q n => some (word40 g 0x01 ((n ++ q).zeroExtend 29)).toNat
  | .qadv g q n => some (word40 g 0x02 ((n ++ q).zeroExtend 29)).toNat
  | .sarm g a b => some (word40 g 0x04 ((b ++ a).zeroExtend 29)).toNat
  | .swait g a yg => some (word40 g 0x05 ((yg ++ a).zeroExtend 29)).toNat
  | .fence g scope mask => some (word40 g 0x08 ((scope ++ mask).zeroExtend 29)).toNat
  | .gstep g gs a => some (word40 g 0x0C ((gs ++ a).zeroExtend 29)).toNat
  | .barA g scope id c p => some (word40 g 0x10 ((scope ++ id ++ c ++ p ++ (0 : BitVec 4)).zeroExtend 29)).toNat
  | .bar g scope id c p => some (word40 g 0x12 ((scope ++ id ++ c ++ p ++ (0 : BitVec 4)).zeroExtend 29)).toNat
  | .barW g scope id p => some (word40 g 0x11 ((scope ++ id ++ (0 : BitVec 4) ++ p ++ (0 : BitVec 4)).zeroExtend 29)).toNat
  | .spawn g t e => some (word40 g 0x14 ((e ++ t).zeroExtend 29)).toNat
  | .sjoin g t => some (word40 g 0x15 (t.zeroExtend 29)).toNat
  | .yield g => some (word40 g 0x16 0).toNat
  | .sleep g n => some (word40 g 0x17 (n.zeroExtend 29)).toNat
  | .evpost g a b => some (word40 g 0x18 ((b ++ a).zeroExtend 29)).toNat
  | .trap g imm => some (word40 g 0x20 (imm.zeroExtend 29)).toNat
  | .eret g mode => some (word40 g 0x21 (mode.zeroExtend 29)).toNat
  | .eretT g mode t => some (word40 g 0x21 ((t ++ (1 : BitVec 1) ++ mode).zeroExtend 29)).toNat
  | .ctxsave g t a => some (word40 g 0x30 ((a ++ t).zeroExtend 29)).toNat
  | .ctxload g t a go => some (word40 g 0x31 ((bit1 go ++ a ++ t).zeroExtend 29)).toNat
  | .pimg g t a => some (word40 g 0x32 ((a ++ t).zeroExtend 29)).toNat
  | .xcvt g d a p fo fi => some (word48 g 0x01 ((0 : BitVec 2) ++ BitVec.ofNat 5 fi.code ++ BitVec.ofNat 5 fo.code ++ p ++ a.code8 ++ d.code8)).toNat
  | .xquant g d a b fo p => some (word48 g 0x02 ((0 : BitVec 2) ++ p.zeroExtend 5 ++ BitVec.ofNat 5 fo.code ++ b.code8 ++ a.code8 ++ d.code8)).toNat
  | .xdeq g d a b p fi => some (word48 g 0x03 ((0 : BitVec 2) ++ BitVec.ofNat 5 fi.code ++ p.zeroExtend 5 ++ b.code8 ++ a.code8 ++ d.code8)).toNat
  | .xamax g d a b fo => some (word48 g 0x04 ((0 : BitVec 2) ++ (0 : BitVec 5) ++ BitVec.ofNat 5 fo.code ++ b.code8 ++ a.code8 ++ d.code8)).toNat
  | .xtr g d a t => some (word48 g 0x05 ((0 : BitVec 2) ++ (0 : BitVec 5) ++ BitVec.ofNat 5 t.code ++ (0 : BitVec 8) ++ a.zeroExtend 8 ++ d.zeroExtend 8)).toNat
  | .xexp g q a dbp t chk => some (word48 g 0x06 ((bit1 chk).zeroExtend 2 ++ BitVec.ofNat 5 t.code ++ (if dbp then (2 : BitVec 5) else 1) ++ (0 : BitVec 8) ++ BitVec.ofNat 8 (32 + a.toNat) ++ BitVec.ofNat 8 (32 + q.toNat))).toNat
  | .xpack g d a p t => some (word48 g 0x07 ((0 : BitVec 2) ++ (0 : BitVec 5) ++ BitVec.ofNat 5 t.code ++ p ++ a.code8 ++ d.code8)).toNat
  | .xunpk g d a p t => some (word48 g 0x08 ((0 : BitVec 2) ++ (0 : BitVec 5) ++ BitVec.ofNat 5 t.code ++ p ++ a.code8 ++ d.code8)).toNat
  | .xcrc g d a b n1 => some (word48 g 0x09 ((0 : BitVec 2) ++ (0 : BitVec 4) ++ n1 ++ b.code8 ++ a.code8 ++ d.code8)).toNat
  | _ => none

/-- Width of a slot's word (Table 3.1). -/
def Slot.width : Slot → Nat
  | .S | .V0 | .V1 | .L | .W => 56
  | .M | .C | .X => 48
  | .Y => 40

/-- First bundle bit of a slot's word (Table 3.1). -/
def Slot.start : Slot → Nat
  | .S => 48 | .V0 => 104 | .V1 => 160 | .M => 216 | .L => 264 | .W => 320 | .C => 376 | .Y => 424 | .X => 464

/-- The port code of a slot; C and Y have none (Table 3.1). -/
def Slot.port : Slot → Nat
  | .S => 1 | .V0 => 2 | .V1 => 3 | .M => 4 | .L => 5 | .W => 6 | .X => 7
  | .C => 0 | .Y => 0

/-- The operation of a slot word (R52): none when the pattern is no instruction of that slot. -/
def decodeWord (sl : Slot) (w : Nat) : Option Instr := do
  let i ← rawSlot sl (BitVec.ofNat 56 w)
  if i.wf && encode i == some w then some i else none

/-- A bundle (R39). -/
abbrev Bundle := BitVec 512

/-- The word of a slot in a bundle (Table 3.1). -/
def Bundle.word (x : Bundle) (sl : Slot) : Nat := bitsAt x.toNat sl.start sl.width

/-- The presence bit of a slot (Table 3.2). -/
def Bundle.present (x : Bundle) (sl : Slot) : Bool := x.getLsbD sl.num

/-- The sync bit of a slot (Table 3.2). -/
def Bundle.sync (x : Bundle) (sl : Slot) : Bool := x.getLsbD (9 + sl.num)

/-- The safe-point mark (Table 3.2). -/
def Bundle.safePoint (x : Bundle) : Bool := x.getLsbD 18

/-- The scope prefix (Table 3.2); code 0 gives core scope (R42). -/
def Bundle.scope (x : Bundle) : Nat := if bitsAt x.toNat 19 3 = 0 then 2 else bitsAt x.toNat 19 3

/-- Common-file read ports that the header allots to a slot (R43). -/
def Bundle.ports (x : Bundle) (sl : Slot) : Nat :=
  ([22, 25, 28, 31].filter fun lo => bitsAt x.toNat lo 3 == sl.port && sl.port != 0).length

/-- A header that breaks R40: a reserved bit set or SCOPE 7 (Table 3.16). -/
def Bundle.headerBad (x : Bundle) : Bool := bitsAt x.toNat 34 14 != 0 || bitsAt x.toNat 19 3 == 7

/-- The operation of a slot of a bundle: none is an illegal pattern (R41, R52). -/
def Bundle.op (x : Bundle) (sl : Slot) : Option Instr :=
  if x.present sl then decodeWord sl (x.word sl) else if x.word sl = 0 then some .noOperation else none

/-- The bundle that holds one slot word and its presence bit, all else zero. -/
def Bundle.single (sl : Slot) (w : Nat) : Bundle :=
  BitVec.ofNat 512 (2 ^ sl.num + w % 2 ^ sl.width * 2 ^ sl.start)

/-- The operation read from a bundle given as the number of its bits: the first present slot's in slot order, or the
no-operation of an empty bundle. -/
def decodeTableWord (nbits w : Nat) : Option Instr :=
  let x : Bundle := BitVec.ofNat 512 (w % 2 ^ nbits)
  if x.headerBad then none
  else match Slot.all.find? x.present with
    | some sl => x.op sl
    | none => x.op .S

end Sys2Proof
end

