-- ==== Sys2Proof/Machine/State.lean ====
section
/-! DEFINITION. The state of one F8 module as plain data: what every chapter of the manual gives the machine. A table
(`Tab`) lists only the keys whose value differs from the reset value of its kind; INVENTORY.md lists each piece of state
with its rule and reset value. -/

namespace Sys2Proof.Machine

/-- A sparse table by number: keys strictly rising; an unlisted key reads as the reset value of its kind. -/
abbrev Tab (α : Type) := List (Nat × α)

/-- Every byte of the module's local stores, slice banks and tiers, by 52-bit physical address (Tables 22.1 and 26.1). -/
abbrev Memory := List Host.Cell

/-- The sequencer and the slot of the operation being issued (the model's own, assumption 1). -/
structure Cursor where
  loc  : Nat
  slot : Slot
  deriving DecidableEq, Repr

/-- A register (Table 3.6): its file and its index within the sequencer's window. -/
structure Reg where
  file : File
  idx  : Nat
  deriving DecidableEq, Repr

/-- A result in flight (R338): producing slot, destination (none when only sticky bits land), value, byte mask, poison
mark, landing index, issuing bundle; whether its predicate was true (R29), whether its value is in the file already
(R339, R343), whether its value has returned (R88), whether R27 deferred it, its in-flight entry, its sticky bits. -/
structure Pend where
  slot   : Slot
  dst    : Option Reg
  val    : Vec
  mask   : Nat
  poison : Bool
  li     : Nat
  bundle : Nat
  live   : Bool
  done   : Bool
  avail  : Bool
  moved  : Bool
  ifr    : Option Nat
  sticky : Nat
  uid    : Nat
  deriving DecidableEq, Repr

/-- What a landed write replaced, while some reader may still see it (R26, R390): register, value and poison mark before it, bundle, slot
and landing index of the write, its number. -/
structure Ghost where
  reg    : Reg
  old    : Vec
  mark   : Option Nat
  bundle : Nat
  slot   : Slot
  li     : Nat
  uid    : Nat
  deriving DecidableEq, Repr

/-- A level of the hardware loop stack (R75): remaining count, end address, body length. -/
structure LoopLevel where
  count : Nat
  fin   : Nat
  len   : Nat
  deriving DecidableEq, Repr

/-- A fetched bundle of the queue image (R337): its code address, its bits, whether they are at hand: a sequencer that resumes fetches its
bundles again. -/
structure Fetched where
  addr    : Nat
  bits    : Bundle
  here    : Bool
  deriving DecidableEq, Repr

/-- One entry of a ring (R30, R33): its bits, how many of them are written, whether it is pushed (a fill entry always is),
pushes that have not landed as slot number, landing index and whether a handler made them (R120, R343), the physical
address of a marked word that filled it (R348), and the scales of the elements that begin in it, eight bits each (R148). -/
structure RingEntry where
  data   : Vec
  valid  : Nat
  closed : Bool
  waits  : List (Nat × Nat × Bool)
  err    : Option Nat
  scales : Nat
  deriving DecidableEq, Repr

/-- A chunk that the stream decoder has finished and not released (R173): its address, elements as packed bits, count, trap
code of the failed check or 0 with its INFO (R171, R348), address of the next chunk. -/
structure Chunk where
  addr  : Nat
  bits  : Nat
  count : Nat
  fail  : Nat
  info  : Nat
  next  : Nat
  deriving DecidableEq, Repr

/-- A bound ring (R30 to R34, R92 to R98, R172 to R175): descriptor, gather mode, entries from the read pointer on (or pushed
and not yet drained), bits of the first one read, entries moved by the unit so far; chunks finished and not released, number
and address of the first unreleased chunk, elements released; bits the unit holds for its next entry; the trap of the first
failed chunk; the entries of fetched rows that have not entered the ring (R96). -/
structure Ring where
  desc     : BitVec 512
  gather   : Bool
  entries  : List RingEntry
  readBit  : Nat
  moved    : Nat
  chunks   : Tab Chunk
  relNo    : Nat
  relAddr  : Nat
  relElts  : Nat
  buf      : Nat
  bufBits  : Nat
  fail     : Nat
  failInfo : Nat
  rows     : List RingEntry
  deriving DecidableEq, Repr

/-- An entry of a drain queue (R35): data, landing index and bundle of its push, whether a handler pushed it, the bundle
that popped it, doubled, plus one for a handler's, while that must still be known (R154); forwarded entries have landed (R92). -/
structure DqEntry where
  data   : Vec
  li     : Nat
  bundle : Nat
  fwd    : Bool
  inh    : Bool
  popped : Option Nat
  uid    : Nat
  deriving DecidableEq, Repr

/-- A suppression key (R356). -/
structure Key where
  tag    : Nat
  fam    : Bool
  origin : Nat
  epoch  : Nat
  vd     : Nat
  deriving DecidableEq, Repr

/-- What a packet asks of its endpoint, or answers: read n bytes; write bytes under a mask; an atomic of Table 15.4 by its ROP
code, signed or not, of n bytes with operand, compare value and whether it is f32; the header of a transfer with its descriptor, step
of a shipment and beats; a beat of it with its number and data (R217, R368), beside which the model keeps what the header says; the
request of a `cget`; a barrier arrival with key and expected count; a reply with its bits and sticky bits; an access that failed, with
trap code and INFO. -/
inductive PktKind where
  | read (n : Nat)
  | write (bytes : List Byte) (mask : Nat)
  | atom (op : Nat) (signed : Bool) (n : Nat) (y cmp : Nat) (f32 : Bool)
  | header (desc : BitVec 512) (step : Option Nat) (total : Nat)
  | beat (desc : BitVec 512) (step : Option Nat) (no total : Nat) (bytes : List Byte)
  | ask (desc : BitVec 512)
  | arrival (barrier count : Nat)
  | reply (bits : Nat) (sticky : Nat)
  | refuse (code info : Nat)
  deriving DecidableEq, Repr

/-- An in-flight record entry (Table 24.1) with what the model keeps beside it: the issuing slot, the landing index of
its result, the byte mask of its destination, its reply data, packets not yet answered, the descriptor or card it reads,
beats sent, the trap it waits on, whether its task has halted, the launch and number of that task, the acquire form that
waits for it as the beats of a transfer whose source reads it waits for, code and bundle (R250), the bundle that issued it and the code
that bundle belongs to: 0 or the number of a handler's run, its requests as virtual address, byte offset and packet for a
reissue (R361), the physical addresses of their homes, whether it is cached under a token (R289), the access counter at its allocation,
and whether it is a reissue that goes out before any slot issues (R361). For kinds 1 to 6 and 11 the field id holds the access counter. -/
structure Ifr where
  kind   : Nat
  cls    : Nat
  scope  : Nat
  idem   : Nat
  state  : Nat
  key    : Key
  lseq   : Nat
  num    : Nat
  target : Nat
  sync   : Nat
  ch     : Nat
  len    : Nat
  id     : Nat
  rtype  : Nat
  dst    : Option Reg
  slot   : Slot
  li     : Nat
  reply  : Vec
  left   : Nat
  desc   : BitVec 1024
  beats  : Nat
  total  : Nat
  fault  : Nat
  code   : Nat
  info   : Nat
  halted : Bool
  late   : Bool
  acq    : Option (Nat × Nat × Nat)
  bundle : Nat
  era    : Nat
  sticky : Nat
  reqs   : List (Nat × Nat × PktKind)
  homes  : List Nat
  ca     : Bool
  alloc  : Nat
  again  : Bool
  deriving DecidableEq, Repr

/-- A channel (R231, R232): next id, unreported fail marks as id, code and the INFO of its trap. -/
structure Channel where
  next  : Nat
  fails : List (Nat × Nat × Nat)
  deriving DecidableEq, Repr

/-- TAG and FULL of one face of one ghost version (R265). -/
structure FaceTag where
  tag  : Int
  full : Bool
  deriving DecidableEq, Repr

/-- A declared grid (R261 to R268): descriptor, box bounds of the party, parties' locations, party number, committed step
C, face tags by 8 × version + face, the committed steps the engine knows of each party, ghost map slots by face; while the engine has not
copied the boundary layers of step C, the code and the bundle of its `gstep` (R276). -/
structure Grid where
  desc    : BitVec 1024
  lo      : List Nat
  hi      : List Nat
  parties : List Nat
  self    : Nat
  step    : Int
  tags    : Tab FaceTag
  known   : Tab Int
  maps    : Tab Nat
  copy    : Option (Nat × Nat)
  deriving DecidableEq, Repr

/-- A running routine (R158, R159): next word, open loop levels as pairs of remaining count and first word of the body,
depth of a skipped body. -/
structure Routine where
  word  : Nat
  loops : List (Nat × Nat)
  skip  : Nat
  deriving DecidableEq, Repr

/-- An array operation in flight (R143, R153): ring, formats, slab length, the elements taken and their scales as packed bits,
their number, the B rows and scale lines as the Larder held them at issue, block length code, run start. -/
structure ArrayOp where
  ring  : Nat
  af    : Fmt
  bf    : Fmt
  kn    : Nat
  abits : Nat
  taken : Nat
  brows : List Nat
  ascale : Nat
  bscale : List Vec
  blk   : Nat
  k0    : Nat
  deriving DecidableEq, Repr

/-- A tile write in flight (R143): a clear, a clearing drain of rows, or an array operation. -/
inductive TileKind where
  | clear
  | rows (rs nr : Nat)
  | array (op : ArrayOp)
  deriving DecidableEq, Repr

/-- A tile write with its tile and landing index (R143). -/
structure TileWrite where
  acc  : Nat
  kind : TileKind
  li   : Nat
  inh  : Bool
  deriving DecidableEq, Repr

/-- A Larder fill in progress (R155): ring, format, rows, first line, the elements taken and their scales as packed bits,
their number, header fields, worst-case extent, lines written once it has completed, and the bundle of an `mlar` that waits
for it with whether a handler issued it. -/
structure Fill where
  ring   : Nat
  fmt    : Fmt
  kn     : Nat
  line   : Nat
  bits   : Nat
  taken  : Nat
  scales : Nat
  blk    : Nat
  k0     : Nat
  ktot   : Nat
  worst  : Nat
  done   : Option Nat
  wait   : Option (Nat × Bool)
  deriving DecidableEq, Repr

/-- A task and its code object (R20, R37, R38, R300, R392). -/
structure Task where
  vd      : Nat
  lseq    : Nat
  num     : Nat
  bco     : Nat
  codeOff : Nat
  codeLen : Nat
  entry   : Nat
  lat     : List Nat
  winV0   : Nat
  winV1   : Nat
  winT    : Nat
  winAcc  : Nat
  winLar  : Nat
  depths  : List Nat
  spdist  : Nat
  saves   : List (Nat × Nat)
  deriving DecidableEq, Repr

/-- A ghost load that stalls (R271): since when (while the sequencer is frozen for a save, for how long), grid slot, version,
face and step. -/
structure HaloWait where
  since : Nat
  grid  : Nat
  ver   : Nat
  face  : Nat
  step  : Nat
  deriving DecidableEq, Repr

/-- The trap frame of a handler (R343), with the number of the handler's run. -/
structure Frame where
  steps    : Tab Nat
  lastSync : Tab Nat
  pend     : List Pend
  queue    : Tab Fetched
  nextIdx  : Nat
  pc       : Nat
  hold     : Option Nat
  loops    : List LoopLevel
  seed     : Nat
  seedIdx  : Nat
  record   : BitVec 512
  routine  : Option Routine
  ghosts   : List Ghost
  drawn    : Tab Nat
  srPrev   : Option (Nat × Nat × Word)
  skips    : List (Nat × Nat)
  xtrFree  : Nat
  sleepTo  : Option Nat
  barAt    : Option Nat
  halo     : Option HaloWait
  haltAt   : Option Nat
  latch    : Option (Nat × Nat × Nat)
  era      : Nat
  deriving DecidableEq, Repr

/-- What the loader still has to do for a task that has not issued (R300): whether it copies the argument block, and the 4 KiB
pages that Skip has filled with zero. -/
structure Loading where
  args : Bool
  zero : List Nat
  deriving DecidableEq, Repr

/-- A sequencer (R17). An operand that an operation reads at its first attempt to issue stands in the field latch as slot number,
bundle index and value (R276); errs holds the error marks of its own state: a register, or none for a pipe-image or in-flight entry,
with the number of the structure (R348). -/
structure Seq where
  status   : Nat
  collide  : Bool
  task     : Task
  pc       : Nat
  nextIdx  : Nat
  hold     : Option Nat
  loops    : List LoopLevel
  queue    : Tab Fetched
  steps    : Tab Nat
  lastSync : Tab Nat
  stalled  : Nat
  fs       : Tab Word
  fk0      : Tab Word
  fk1      : Tab Word
  fm       : Tab Word
  fb       : Tab Word
  fw       : Tab Word
  fe       : Tab Word
  fy       : Tab Word
  fp       : BitVec 16
  pend     : List Pend
  ghosts   : List Ghost
  poison   : List (Reg × Nat)
  conv     : Word
  srPrev   : Option (Nat × Nat × Word)
  seedIdx  : Nat
  drawn    : Tab Nat
  replay   : Word
  repInfo  : Word
  repRet   : Word
  tvec     : Word
  trapRec  : BitVec 512
  gridTime : Word
  mrsIndex : Nat
  taskId   : Word
  last     : Nat
  rings    : Tab Ring
  gqueue   : List (Nat × Nat)
  dqs      : Tab (List DqEntry)
  ifr      : Tab Ifr
  chans    : Tab Channel
  grids    : Tab Grid
  routine  : Option Routine
  tiles    : List TileWrite
  fills    : List Fill
  xtrFree  : Nat
  access   : Nat
  origin   : Nat
  epoch    : Nat
  starts   : Nat
  horizons : List Nat
  past     : List (Nat × Nat × List Nat)
  frame    : Option Frame
  record   : BitVec 512
  trapSlot : Nat
  delivered : Bool
  skips    : List (Nat × Nat)
  ended    : Bool
  haltAt   : Option Nat
  slice    : Option Nat
  sleepTo  : Option Nat
  barAt    : Option Nat
  load     : Option Loading
  halo     : Option HaloWait
  save     : Nat
  latch    : Option (Nat × Nat × Nat)
  errs     : List (Option Reg × Nat)
  deriving DecidableEq, Repr

/-- A core (Table 2.3, R142, R145, R157, R25, R144, R309). Beside the common file stand the poison marks of its registers, as index,
location and in-flight entry (R283), and the values that landed writes of a location replaced there (R390). The field ready counts the
issues of A that B has stood back for, first holds the slots in which B comes first (R25); the array is taken until arrayTo (R144). -/
structure Core where
  v0      : Tab Vec
  v1      : Tab Vec
  t       : Tab Vec
  c       : Tab Vec
  tile    : Tab (BitVec 32)
  ovfc    : Tab Nat
  nanc    : Tab Nat
  larder  : Tab Vec
  store   : Tab Word
  ready   : Tab Nat
  first   : Nat
  yieldTo : Option (Nat × Nat)
  placed  : List Nat
  cmarks  : List (Nat × Nat × Nat)
  cghosts : List (Nat × Ghost)
  arrayTo : Nat
  deriving DecidableEq, Repr

/-- A quad partition (R253, R317, R365). -/
structure Quad where
  ctr      : Tab Nat
  resident : Option Nat
  saves    : List (Nat × Nat)
  deriving DecidableEq, Repr

/-- A landing map slot (R218, R222, R266): the entry with its GEN, the owning virtual device, and for a ghost map the location,
grid slot and face. -/
structure MapSlot where
  entry : BitVec 512
  vd    : Nat
  ghost : Option (Nat × Nat × Nat)
  deriving DecidableEq, Repr

/-- A transfer at its receiver (R217, R222): key, which transfer of its job card it is, module, location and in-flight entry of
the sender, descriptor, step of a shipment, beats in all, the pinned maps as slots with their entries, beats taken, data received
while it is parked in the Attic, whether it is, the code and INFO of its failure, the packet of its last beat, and the elements of that
beat, with their bits, whose further copies are still to be written (R197). -/
structure Arrival where
  key    : Key
  part   : Nat
  src    : Nat
  loc    : Nat
  entry  : Nat
  desc   : BitVec 512
  step   : Option Nat
  beats  : Nat
  pins   : List (Nat × MapSlot)
  taken  : Nat
  data   : List Byte
  parked : Bool
  fail   : Nat
  info   : Nat
  pk     : Nat
  fan    : List (Nat × Nat)
  deriving DecidableEq, Repr

/-- A staged `oadd` contribution (R228): the sync word that counts it, as 65,536 × core of the die + index, the position and
format of the element, rounding, rank, transfer and element number that order it, its bits. -/
structure Staged where
  sync : Nat
  addr : Nat
  fmt  : Fmt
  mode : Nat
  sate4 : Bool
  rank : Nat
  key  : Key
  part : Nat
  elt  : Nat
  bits : Nat
  deriving DecidableEq, Repr

/-- A suppression record (R357): key, which transfer of a job card, cached result, progress count. -/
structure Record where
  key      : Key
  part     : Nat
  result   : Nat
  progress : Nat
  deriving DecidableEq, Repr

/-- A memory endpoint (R182): landing maps, transfers pinned or parked, staging store, suppression window. -/
structure Endpoint where
  maps    : Tab MapSlot
  arrive  : List Arrival
  staged  : List Staged
  window  : List Record
  deriving DecidableEq, Repr

/-- A packet in the fabric (R379, R380): number, content, suppression key, module, location and in-flight entry of the
requester, ordering class or channel, module and endpoint of its home, physical and virtual address, byte offset within its
access, whether it is cached under a token, whether the stations on its way have taken it, whether one has refused it, the bridge
station it uses where that is not its requester's, its ring direction: 0 not fixed, 1 clockwise, 2 counter-clockwise (R381). -/
structure Packet where
  id     : Nat
  kind   : PktKind
  key    : Key
  src    : Nat
  loc    : Nat
  entry  : Nat
  cls    : Nat
  chan   : Nat
  dst    : Nat
  ep     : Nat
  addr   : Nat
  va     : Nat
  off    : Nat
  ca     : Bool
  accepted : Bool
  refused  : Bool
  st     : Option Nat := none
  dir    : Nat := 0
  deriving DecidableEq, Repr

/-- A launch on a die (R297 to R302): packet, LSEQ, code object as a task without number or entry of its own, its data sections
as local-store address, byte count and offset, the eligible sequencers of the die, tasks of each location not yet started,
tasks of the share, tasks that have halted; tasks that `spawn` has started on a location whose partition is not resident, with the
registers passed. A launch leaves when its launch-complete event has been posted. -/
structure Launch where
  pkt    : BitVec 1024
  lseq   : Nat
  code   : Task
  datas  : List (Nat × Nat × Nat)
  elig   : List Nat
  todo   : Tab (List Nat)
  share  : Nat
  halted : Nat
  spawned : List (Nat × Task × List (Nat × Vec))
  deriving DecidableEq, Repr

/-- A job card in a die's intake (R233 to R235). It keeps its place there while the context of its sequencer is saved, until its entry is
sent again (R195). -/
structure Card where
  no     : Nat
  key    : Key
  loc    : Nat
  entry  : Nat
  addr   : Nat
  bits   : BitVec 1024
  started : Bool
  deriving DecidableEq, Repr

/-- A record on its way to the host (R310, R340): virtual device, bits, whether it arose while its device was not resident on the die
and is withheld (R329). -/
structure Rec where
  vd    : Nat
  bits  : BitVec 512
  held  : Bool
  deriving DecidableEq, Repr

/-- A walk (R323, R324): number, partition that asked, virtual device, first address of the 4 KiB page, whether a walker has
it; once it has ended, the physical address of the page with its write right, or the trap code. A walk that ended well
stands for the translation its partition keeps (R325). -/
structure Walk where
  no   : Nat
  part : Nat
  vd   : Nat
  page : Nat
  active : Bool
  found  : Option (Nat × Bool)
  code   : Nat
  deriving DecidableEq, Repr

/-- The save engine's job (R362): virtual device, partition of the module and its number in the device, save or restore, blocks
done, the command slot that waits as 64 × die + slot, the command slots of resets that abort it, and for a `ctxsave` or `ctxload` the
issuer's location, the target and the context's address. -/
structure SaveJob where
  vd      : Nat
  part    : Nat
  num     : Nat
  restore : Bool
  done    : Nat
  slot    : Option Nat
  abort   : List Nat
  ctx     : Option (Nat × Nat × Nat)
  deriving DecidableEq, Repr

/-- A die (R301, R235, R310, R345, R324, R362, R376, R377, R347). Command slots hold dword d of slot n at 8n + d; due lists the
slots whose dword-0 store has arrived and whose command has not started, in arrival order. -/
structure Die where
  launches : List Launch
  cards    : List Card
  lane     : List Rec
  fatal    : List Rec
  cmds     : Tab Word
  due      : List Nat
  ringRegs : Tab Word
  walks    : List Walk
  nextWalk : Nat
  job      : Option SaveJob
  errors   : Nat
  deriving DecidableEq, Repr

/-- A barrier (R305). -/
structure Barrier where
  ph      : Nat
  ec      : Nat
  ac      : Nat
  arrived : List Nat
  deriving DecidableEq, Repr

/-- A virtual device (R317, R322, R326, R330, R305). Partitions are pod numbers, 64 × module + partition, and key the masks;
the counters' keys are 8 × that + number. -/
structure Vd where
  parts    : List Nat
  ranges   : List RangeEntry
  scale    : Nat
  offset   : Nat
  root     : Nat
  grace    : Nat
  rcache   : Nat
  cellar   : Nat
  masks    : Tab Nat
  perfSel  : Tab Nat
  perfCnt  : Tab Nat
  barriers : Tab Barrier
  leaves   : Tab Nat
  shares   : Tab Nat
  deriving DecidableEq, Repr

/-- An ownership token (R289 to R291): holder as 8 × module + die, requesting dies in arrival order, whether the home has sent
a recall, whether it has reached the holder, whether a grant is on its way to the first requester, when the token was granted
while its minimum hold lasts, and the frame: its physical address, the region offsets whose bytes it holds and those that are written. -/
structure Token where
  holder  : Option Nat
  asks    : List Nat
  recalled : Bool
  reached : Bool
  granted : Bool
  held    : Option Nat
  frame   : Nat
  present : List Nat
  dirty   : List Nat
  deriving DecidableEq, Repr

/-- A bridge link (R367, R382): trained, minor version run at, lanes, whether lanes 0 to 7 are the half in use, unrecoverable, since
when it retrains, last numbers sent, acknowledged and accepted, replay buffer, and the requests of this module that the other end has
acknowledged: those still unanswered depend on the link (R284, R381). -/
structure Link where
  up       : Bool
  version  : Nat
  lanes    : Nat
  lowHalf  : Bool
  dead     : Bool
  retrain  : Option Nat
  sent     : Nat
  acked    : Nat
  accepted : Nat
  buffer   : List (Nat × Packet)
  away     : List Packet
  deriving DecidableEq, Repr

/-- A broadcast on its way (R200): the phase flip of a barrier with virtual device, barrier key and new phase, and the cores it has not
reached (R305); or a store to the launch window that has been refused, with offset and data (R301, R384). -/
inductive Cast where
  | flip (vd key ph : Nat) (cores : List Nat)
  | launch (offset : Nat) (data : List Byte)
  deriving DecidableEq, Repr

/-- What a party that has left a grid had committed (R268): virtual device, tensor name, parties, party number, step. -/
structure Gone where
  vd      : Nat
  tname   : Nat
  parties : List Nat
  self    : Nat
  step    : Int
  deriving DecidableEq, Repr

/-- A withdraw under way (R360): origin's location and endpoints that have not acknowledged. -/
structure Withdraw where
  loc     : Nat
  discard : List Nat
  acks    : List Nat
  deriving DecidableEq, Repr

/-- A published horizon (R359): origin, epoch, virtual device, nine horizons, endpoints it has not reached. -/
structure Horizon where
  loc    : Nat
  origin : Nat
  epoch  : Nat
  marks  : List Nat
  eps    : List Nat
  deriving DecidableEq, Repr

/-- A context in device memory (R363, R364), by the number that its bytes name: virtual device, saved state, its sequencer, the registers
of its windows counted from their bases, and its bytes behind the header. -/
structure Saved where
  vd    : Nat
  state : Nat
  seq   : Seq
  v0    : Tab Vec
  v1    : Tab Vec
  t     : Tab Vec
  tile  : Tab (BitVec 32)
  ovfc  : Tab Nat
  nanc  : Tab Nat
  larder : Tab Vec
  bytes : List Byte
  deriving DecidableEq, Repr

/-- A partition image (R365): routing counters; by core 0 to 3 of the partition common files, their poison marks, routine stores,
endpoints of the local stores and the launches whose data they hold; save-set union; local-store bytes of the save sets at 8 MiB × core +
address; the sequencers of the partition that are not idle. -/
structure Image where
  vd     : Nat
  ctr    : Tab Nat
  comm   : Tab (Tab Vec)
  cmarks : Tab (List (Nat × Nat × Nat))
  stores : Tab (Tab Word)
  eps    : Tab Endpoint
  placed : Tab (List Nat)
  saves  : List (Nat × Nat)
  bytes  : Memory
  busy   : List Nat
  deriving DecidableEq, Repr

/-- What moves next (the model's own, assumption 1): a slot of a sequencer, or an event. -/
inductive Move where
  | issue (loc : Nat) (slot : Slot)
  | event (i : Instr)
  deriving DecidableEq, Repr

/-- One F8 module. The field firmware lists the images that bring-up last checked, in load order (R384, R385); hostData holds what the
host's last read of memory returned (R393). -/
structure State where
  agenda  : List (Nat × Move)
  cur     : Cursor
  free    : Nat
  now     : Nat
  mem     : Memory
  marks   : List Nat
  module  : Nat
  power   : Bool
  ready   : Bool
  boot    : Nat
  lseq    : Nat
  podMap  : Nat
  rollback : Nat
  lmsLeaf : Nat
  firmware : List Nat
  hostData : List Byte
  skew    : Nat
  seqs    : Tab Seq
  cores   : Tab Core
  quads   : Tab Quad
  dies    : Tab Die
  vds     : Tab Vd
  eps     : Tab Endpoint
  net     : List Packet
  nextPkt : Nat
  tokens  : Tab Token
  links   : Tab Link
  occup   : Tab Nat
  casts   : List Cast
  gone    : List Gone
  withdraws : List Withdraw
  published : List Horizon
  saved   : Tab Saved
  images  : Tab Image
  deriving DecidableEq, Repr

/-- An empty in-flight entry. -/
def Ifr.blank : Ifr :=
  { kind := 0, cls := 0, scope := 0, idem := 0, state := 0, key := ⟨0, false, 0, 0, 0⟩, lseq := 0, num := 0, target := 0,
    sync := 0, ch := 0, len := 0, id := 0, rtype := 0, dst := none, slot := .S, li := 0, reply := 0, left := 0, desc := 0,
    beats := 0, total := 0, fault := 0, code := 0, info := 0, halted := false, late := false, acq := none, bundle := 0, era := 0,
    sticky := 0, reqs := [], homes := [], ca := false, alloc := 0, again := false }

/-- A code object of no code: what an idle sequencer that has run nothing holds. -/
def Task.none : Task :=
  { vd := 0, lseq := 0, num := 0, bco := 0, codeOff := 0, codeLen := 0, entry := 0, lat := [], winV0 := 0, winV1 := 0,
    winT := 0, winAcc := 0, winLar := 0, depths := [], spdist := 0, saves := [] }

/-- CONV at task start and after reset (R115): SEED 1, all else 0. -/
def convReset : Word := 0x0000000100000000#64

/-- A sequencer after module reset: idle, every register zero but CONV and GRID.TIMEOUT (Table 26.4, R115, R271).
(DESIGN CHOICE, assumption 3) -/
def Seq.reset : Seq :=
  { status := 0, collide := false, task := Task.none, pc := 0, nextIdx := 0, hold := none, loops := [], queue := [],
    steps := [], lastSync := [], stalled := 0, fs := [], fk0 := [], fk1 := [], fm := [], fb := [], fw := [], fe := [],
    fy := [], fp := 0, pend := [], ghosts := [], poison := [], conv := convReset, srPrev := none, seedIdx := 0,
    drawn := [], replay := 0, repInfo := 0, repRet := 0, tvec := 0, trapRec := 0, gridTime := 1000000#64,
    mrsIndex := 0, taskId := 0, last := 0, rings := [], gqueue := [], dqs := [], ifr := [], chans := [], grids := [],
    routine := none, tiles := [], fills := [], xtrFree := 0, access := 0, origin := 0, epoch := 0, starts := 0,
    horizons := [], past := [], frame := none, record := 0, trapSlot := 0, delivered := false, skips := [], ended := false,
    haltAt := none, slice := none, sleepTo := none, barAt := none, load := none, halo := none,
    save := 0, latch := none, errs := [] }

/-- A core after module reset: every store zero (R384). (DESIGN CHOICE, assumption 3) -/
def Core.reset : Core :=
  { v0 := [], v1 := [], t := [], c := [], tile := [], ovfc := [], nanc := [], larder := [], store := [], ready := [],
    first := 0, yieldTo := none, placed := [], cmarks := [], cghosts := [], arrayTo := 0 }

/-- A partition after module reset: counters zero, resident for no device (R253, R317). (DESIGN CHOICE, assumption 5) -/
def Quad.reset : Quad := { ctr := [], resident := none, saves := [] }

/-- An endpoint after module reset: every map slot, Attic, staging store and window empty (R384). -/
def Endpoint.reset : Endpoint := { maps := [], arrive := [], staged := [], window := [] }

/-- A die after module reset. (DESIGN CHOICE, assumption 3) -/
def Die.reset : Die :=
  { launches := [], cards := [], lane := [], fatal := [], cmds := [], due := [], ringRegs := [], walks := [], nextWalk := 0, job := none,
    errors := 0 }

/-- A virtual device at its creation with no partition: register values of Tables 22.4 and 26.4.
(DESIGN CHOICE, assumption 3) -/
def Vd.reset : Vd :=
  { parts := [], ranges := [], scale := 0x01000000, offset := 0, root := 0, grace := 2000, rcache := 0, cellar := 0,
    masks := [], perfSel := [], perfCnt := [], barriers := [], leaves := [], shares := [] }

/-- A token at its region's home (R289). -/
def Token.reset : Token :=
  { holder := none, asks := [], recalled := false, reached := false, granted := false, held := none, frame := 0, present := [],
    dirty := [] }

/-- A link before training (R382). (DESIGN CHOICE, assumption 5) -/
def Link.reset : Link :=
  { up := false, version := 0, lanes := 16, lowHalf := false, dead := false, retrain := none, sent := 0, acked := 0,
    accepted := 0, buffer := [], away := [] }

/-- A barrier at the device's creation (R305). -/
def Barrier.reset : Barrier := { ph := 0, ec := 0, ac := 0, arrived := [] }

/-- A channel at task start (R231). -/
def Channel.reset : Channel := { next := 0, fails := [] }

/-- Why the machine stops. Raised by `step` alone. -/
inductive Fault where
  /-- `step` raises it when the module has no power (R386) and the next move is not a module reset: nothing can move. Safe:
  the hardware does nothing either. -/
  | unpowered
  deriving DecidableEq, Repr

/-- Why an instruction has no next state. -/
inductive Refusal where
  /-- Raised by an arm of `exec` for an instruction without a meaning yet. Safe: nothing is claimed of it. -/
  | notModelled (mnemonic : String)
  deriving DecidableEq, Repr

/-- The module right after reset: bring-up has run stages 1 to 6 (R384), every store is zero, every sequencer idle, no
partition resident, VD 0 created with the register values of Table 26.4, the pod map holding the module's own bit.
(DEDUCED, assumption 2) (DESIGN CHOICE, assumption 4) (DESIGN CHOICE, assumption 5) (DESIGN CHOICE, assumption 52) -/
def State.reset : State :=
  { agenda := [], cur := ⟨0, .S⟩, free := 0, now := 0, mem := [], marks := [], module := 0, power := true, ready := true,
    boot := 1, lseq := 0, podMap := 1, rollback := 0, lmsLeaf := 0, firmware := [], hostData := [], skew := 25, seqs := [], cores := [], quads := [],
    dies := [], vds := [(0, Vd.reset)], eps := [], net := [], nextPkt := 0, tokens := [], links := [],
    occup := [], casts := [], gone := [], withdraws := [], published := [], saved := [], images := [] }

end Sys2Proof.Machine
end

