-- ==== Sys2Proof/Machine/Tab.lean ====
section
/-! DEFINITION. Sparse tables and memory as sorted lists: one home for every read and write of either. -/

namespace Sys2Proof.Machine

/-- The entry of a key; an unlisted key reads as the value given. -/
def Tab.look {α : Type} (d : α) : Tab α → Nat → α
  | [], _ => d
  | (k, v) :: r, i => if k = i then v else if i < k then d else Tab.look d r i

/-- Write one entry, keeping the keys rising. -/
def Tab.put {α : Type} : Tab α → Nat → α → Tab α
  | [], i, v => [(i, v)]
  | (k, w) :: r, i, v => if k = i then (i, v) :: r else if i < k then (i, v) :: (k, w) :: r else (k, w) :: Tab.put r i v

/-- Remove one entry. -/
def Tab.drop {α : Type} : Tab α → Nat → Tab α
  | [], _ => []
  | (k, w) :: r, i => if k = i then r else if i < k then (k, w) :: r else (k, w) :: Tab.drop r i

/-- Whether a key is listed. -/
def Tab.has {α : Type} (t : Tab α) (i : Nat) : Bool := t.any (fun e => e.1 == i)

/-- The entry of a key, if listed. -/
def Tab.find {α : Type} (t : Tab α) (i : Nat) : Option α := (t.filter (fun e => e.1 == i)).head?.map (·.2)

/-- Keep the entries with keys in [lo, lo + n) out of the table. -/
def Tab.clear {α : Type} (t : Tab α) (lo n : Nat) : Tab α := t.filter (fun e => e.1 < lo || lo + n ≤ e.1)

/-- The entries with keys in [lo, lo + n). -/
def Tab.slice {α : Type} (t : Tab α) (lo n : Nat) : Tab α := t.filter (fun e => lo ≤ e.1 && e.1 < lo + n)

/-- The first n keys below a bound that are not listed: the lowest free number, if any. -/
def Tab.free {α : Type} (t : Tab α) (bound : Nat) : Option Nat := (List.range bound).find? (fun i => !t.has i)

/-- The canonical form of memory: addresses strictly rising, no entry equal to what an unlisted byte reads as. -/
def Memory.wf : Memory → Bool
  | [] => true
  | [c] => c.2 != 0
  | c :: d :: r => c.2 != 0 && c.1 < d.1 && Memory.wf (d :: r)

/-- What a byte that nothing has written reads as: the scrub of R383 and R384 wrote zero. -/
def Memory.blank : Byte := 0

/-- The byte at a physical address. -/
def Memory.look : Memory → Nat → Byte
  | [], _ => Memory.blank
  | c :: r, a => if c.1 = a then c.2 else if a < c.1 then Memory.blank else Memory.look r a

/-- Put an entry of a non-blank byte. -/
def Memory.cons (a : Nat) (b : Byte) (r : Memory) : Memory := if b = Memory.blank then r else (a, b) :: r

/-- Write the byte at a physical address. -/
def Memory.store : Memory → Nat → Byte → Memory
  | [], a, b => Memory.cons a b []
  | c :: r, a, b =>
    if c.1 = a then Memory.cons a b r
    else if a < c.1 then Memory.cons a b (c :: r)
    else c :: Memory.store r a b

/-- The n bytes at an address. -/
def Memory.bytes (m : Memory) : Nat → Nat → List Byte
  | _, 0 => []
  | a, n + 1 => m.look a :: Memory.bytes m (a + 1) n

/-- Write a list of bytes at rising addresses. -/
def Memory.storeAll : Memory → Nat → List Byte → Memory
  | m, _, [] => m
  | m, a, b :: bs => Memory.storeAll (m.store a b) (a + 1) bs

/-- Write the bytes whose mask bits are set (R86): bit j governs byte j. -/
def Memory.storeMask : Memory → Nat → List Byte → Nat → Memory
  | m, _, [], _ => m
  | m, a, b :: bs, k => Memory.storeMask (if k % 2 = 1 then m.store a b else m) (a + 1) bs (k / 2)

/-- The bytes of [lo, lo + n) that are not blank, and those outside it. -/
def Memory.inside (m : Memory) (lo n : Nat) : Memory := m.filter (fun c => lo ≤ c.1 && c.1 < lo + n)

/-- Blank the bytes of [lo, lo + n). -/
def Memory.erase (m : Memory) (lo n : Nat) : Memory := m.filter (fun c => c.1 < lo || lo + n ≤ c.1)

end Sys2Proof.Machine
end

