-- ==== Sys2Proof/Machine/Operands.lean ====
section
/-! DEFINITION. What each operation names: the operand codes it reads, the registers it writes and their latency, its rings
and drain queues, its draws (03_encoding.md R46 to R49, 04 R61, 05 R82, 07 R117 to R122, 08 R150, 09 R161 to R164). -/

namespace Sys2Proof.Machine

/-- When a register result lands: the latency of a class (Table 2.8), a fixed number of steps, the class of the window in
which the address lies (R29, R88, Table 15.3), or in the steps an `ldr` declares (R281). -/
inductive Lat where
  | cls (c : Nat)
  | fix (n : Nat)
  | win
  deriving DecidableEq, Repr

/-- The file that own-file operand codes of a slot name (Table 2.3, Table 3.5). -/
def ownFile : Slot → File
  | .S => .s | .V0 => .v0 | .V1 => .v1 | .M => .m | .L => .b | .W => .w | .C => .e | .Y => .y | .X => .t

/-- The mask file of a vector slot (Table 2.3). -/
def maskFile : Slot → File
  | .V1 => .k1
  | _ => .k0

/-- The slot that owns a file; none for the predicate and common files, which all slots share (Table 2.3). -/
def ownerOf : File → Option Slot
  | .s => some .S | .v0 | .k0 => some .V0 | .v1 | .k1 => some .V1 | .m => some .M | .b => some .L | .w => some .W
  | .e => some .C | .y => some .Y | .t => some .X | .p | .c => none

/-- The register an operand code names, if it names one (Table 3.5). -/
def opndReg (x : Slot) : Opnd → Option Reg
  | .own i => some ⟨ownFile x, i.toNat⟩
  | .com c => some ⟨.c, c.toNat⟩
  | _ => none

/-- The register a foreign-destination form names, if it names one (R48, Table 3.6). -/
def destReg (x : Slot) : Dest → Option Reg
  | .here o => opndReg x o
  | .file f i => some ⟨f, i.toNat⟩

/-- Operand codes read by an operation, in the order in which it reads them. -/
def srcsOf : Instr → List Opnd
  | .add _ _ a b | .sub _ _ a b | .addsl _ _ a b _ | .mul _ _ a b | .mulh _ _ a b | .mulhB _ _ a b | .div _ _ a b
  | .divB _ _ a b | .rem _ _ a b | .remB _ _ a b | .and _ _ a b | .or _ _ a b | .xor _ _ a b | .andn _ _ a b
  | .shl _ _ a b | .shr _ _ a b | .sra _ _ a b | .rotl _ _ a b | .fshl _ _ a b _ | .fshr _ _ a b _ | .min _ _ a b
  | .max _ _ a b | .minB _ _ a b | .maxB _ _ a b | .bfx _ _ a b _ | .sel _ _ a b _ _ | .cmp _ _ _ a b => [a, b]
  | .clz _ _ a | .ctz _ _ a | .popc _ _ a => [a]
  | .bfi _ d a b => [a, b, d]
  | .addi _ _ a _ | .andi _ _ a _ | .ori _ _ a _ | .xori _ _ a _ | .shli _ _ a _ | .shri _ _ a _ | .srai _ _ a _
  | .lih _ _ a _ | .cmpi _ _ _ a _ | .jmpr _ a | .ret _ a | .loop _ a _ | .xmov _ _ a _ _ | .wrsr _ _ a
  | .mrsData _ a => [a]
  | .vadd _ _ a b _ _ | .vsub _ _ a b _ _ | .vmul _ _ a b _ _ | .vmulh _ _ a b _ _ | .vmin _ _ a b _ _
  | .vmax _ _ a b _ _ | .vand _ _ a b _ _ | .vor _ _ a b _ _ | .vxor _ _ a b _ _ | .vandn _ _ a b _ _
  | .vshl _ _ a b _ _ | .vshr _ _ a b _ _ | .vsra _ _ a b _ _ | .vcmp _ _ a b _ _ | .vsel _ _ a b _ _
  | .vperm _ _ a b _ _ | .vpack _ _ a b _ _ | .vfadd _ _ a b _ _ | .vfsub _ _ a b _ _ | .vfmul _ _ a b _ _
  | .vfmin _ _ a b _ _ | .vfmax _ _ a b _ _ | .vfcmp _ _ a b _ _ | .vfsgn _ _ a b _ _ => [a, b]
  | .vfsh _ d a b _ _ | .vfma _ d a b _ _ | .vfms _ d a b _ _ => [a, b, d]
  | .vabs _ _ a _ _ | .vclz _ _ a _ _ | .vpopc _ _ a _ _ | .vbcast _ _ a _ _ _ | .vext _ _ a _ _ | .vrot _ _ a _ _ _
  | .vslide _ _ a _ _ _ _ | .vred _ _ a _ _ _ | .vscan _ _ a _ _ _ | .vunpk _ _ a _ _ | .vfabs _ _ a _ _
  | .vfneg _ _ a _ _ | .vfred _ _ a _ _ _ | .vrcp _ _ a _ _ | .vrsq _ _ a _ _ | .vexp2 _ _ a _ _ | .vlog2 _ _ a _ _
  | .vicvt _ _ a _ _ | .vfcvt _ _ a _ _ | .vxmov _ _ a _ => [a]
  | .vins _ d a _ _ => [a, d]
  | .ld _ _ a b _ _ | .vld _ _ a b _ | .vldu _ _ a b _ | .pf _ a b | .ldg _ _ a b _ _ | .vldg _ _ a b _ => [a, b]
  | .gpush _ _ a | .ldr _ _ a _ _ _ _ => [a]
  | .st _ d a b _ _ | .vst _ d a b _ => [d, a, b]
  | .vstm _ d a _ _ _ | .str _ d a _ _ _ => [d, a]
  | .aadd _ _ a b _ _ _ _ | .amin _ _ a b _ _ _ _ | .amax _ _ a b _ _ _ _ | .alog _ _ a b _ _ _ _ _
  | .aswp _ _ a b _ _ _ _ | .acas _ _ a b _ _ _ | .aincb _ _ a b _ _ _ _ | .rcnt _ a b | .asnap _ _ a b _ => [a, b]
  | .ratom _ _ a _ _ _ _ _ _ => [a]
  | .xcvt _ d a _ fo fi => if fo.cvtWidth < fi.cvtWidth then [a, d] else [a]
  | .xquant _ d a b _ _ => [a, b, d]
  | .xdeq _ _ a b _ _ | .xamax _ _ a b _ | .xcrc _ _ a b _ => [a, b]
  | .xpack _ d a _ _ => [a, d]
  | .xunpk _ _ a _ _ => [a]
  | _ => []

/-- The operand code of the destination, where the destination is one. -/
def dstOf : Instr → Option Opnd
  | .add _ d _ _ | .sub _ d _ _ | .addsl _ d _ _ _ | .mul _ d _ _ | .mulh _ d _ _ | .mulhB _ d _ _ | .div _ d _ _
  | .divB _ d _ _ | .rem _ d _ _ | .remB _ d _ _ | .and _ d _ _ | .or _ d _ _ | .xor _ d _ _ | .andn _ d _ _
  | .shl _ d _ _ | .shr _ d _ _ | .sra _ d _ _ | .rotl _ d _ _ | .fshl _ d _ _ _ | .fshr _ d _ _ _ | .min _ d _ _
  | .max _ d _ _ | .minB _ d _ _ | .maxB _ d _ _ | .bfx _ d _ _ _ | .bfi _ d _ _ | .sel _ d _ _ _ _
  | .clz _ d _ | .ctz _ d _ | .popc _ d _
  | .addi _ d _ _ | .andi _ d _ _ | .ori _ d _ _ | .xori _ d _ _ | .shli _ d _ _ | .shri _ d _ _ | .srai _ d _ _
  | .li _ d _ | .lih _ d _ _ | .call _ d _ | .rdsr _ d _ | .rdts _ d
  | .vadd _ d _ _ _ _ | .vsub _ d _ _ _ _ | .vmul _ d _ _ _ _ | .vmulh _ d _ _ _ _ | .vmin _ d _ _ _ _
  | .vmax _ d _ _ _ _ | .vabs _ d _ _ _ | .vand _ d _ _ _ _ | .vor _ d _ _ _ _ | .vxor _ d _ _ _ _
  | .vandn _ d _ _ _ _ | .vshl _ d _ _ _ _ | .vshr _ d _ _ _ _ | .vsra _ d _ _ _ _ | .vfsh _ d _ _ _ _
  | .vclz _ d _ _ _ | .vpopc _ d _ _ _ | .vsel _ d _ _ _ _ | .kpop _ d _ | .kfirst _ d _ | .vbcast _ d _ _ _ _
  | .vext _ d _ _ _ | .vins _ d _ _ _ | .vperm _ d _ _ _ _ | .vrot _ d _ _ _ _ | .vslide _ d _ _ _ _ _
  | .vred _ d _ _ _ _ | .vscan _ d _ _ _ _ | .vpack _ d _ _ _ _ | .vunpk _ d _ _ _ | .vfadd _ d _ _ _ _
  | .vfsub _ d _ _ _ _ | .vfmul _ d _ _ _ _ | .vfma _ d _ _ _ _ | .vfms _ d _ _ _ _ | .vfmin _ d _ _ _ _
  | .vfmax _ d _ _ _ _ | .vfabs _ d _ _ _ | .vfneg _ d _ _ _ | .vfsgn _ d _ _ _ _ | .vfred _ d _ _ _ _
  | .vrcp _ d _ _ _ | .vrsq _ d _ _ _ | .vexp2 _ d _ _ _ | .vlog2 _ d _ _ _ | .vicvt _ d _ _ _ | .vfcvt _ d _ _ _
  | .xcvt _ d _ _ _ _ | .xquant _ d _ _ _ _ | .xdeq _ d _ _ _ _ | .xamax _ d _ _ _ | .xpack _ d _ _ _
  | .xunpk _ d _ _ _ | .xcrc _ d _ _ _ => some d
  | _ => none

/-- The destination of a foreign-destination form (R49). -/
def foreignOf : Instr → Option Dest
  | .xmov _ dst _ _ _ | .vxmov _ dst _ _ | .ld _ dst _ _ _ _ | .vld _ dst _ _ _ | .vldu _ dst _ _ _
  | .ldg _ dst _ _ _ _ | .vldg _ dst _ _ _ | .ldr _ dst _ _ _ _ _ => some dst
  | _ => none

/-- The latency of an operation's register result (Tables 4.1, 5.1, 7.1, 8.3, 9.3, 15.3). -/
def latOf : Instr → Lat
  | .mul _ _ _ _ | .mulh _ _ _ _ | .mulhB _ _ _ _ => .cls 1
  | .div _ _ _ _ | .divB _ _ _ _ | .rem _ _ _ _ | .remB _ _ _ _ => .cls 2
  | .vadd _ _ _ _ _ _ | .vsub _ _ _ _ _ _ | .vmul _ _ _ _ _ _ | .vmulh _ _ _ _ _ _ | .vmin _ _ _ _ _ _
  | .vmax _ _ _ _ _ _ | .vabs _ _ _ _ _ | .vand _ _ _ _ _ _ | .vor _ _ _ _ _ _ | .vxor _ _ _ _ _ _
  | .vandn _ _ _ _ _ _ | .vshl _ _ _ _ _ _ | .vshr _ _ _ _ _ _ | .vsra _ _ _ _ _ _ | .vfsh _ _ _ _ _ _
  | .vclz _ _ _ _ _ | .vpopc _ _ _ _ _ | .vcmp _ _ _ _ _ _ | .vsel _ _ _ _ _ _ | .kand _ _ _ _ | .kor _ _ _ _
  | .kxor _ _ _ _ | .knot _ _ _ | .kpop _ _ _ | .kfirst _ _ _ | .vpack _ _ _ _ _ _ | .vunpk _ _ _ _ _ => .cls 3
  | .vbcast _ _ _ _ _ _ | .vext _ _ _ _ _ | .vins _ _ _ _ _ | .vperm _ _ _ _ _ _ | .vrot _ _ _ _ _ _
  | .vslide _ _ _ _ _ _ _ => .cls 4
  | .vfadd _ _ _ _ _ _ | .vfsub _ _ _ _ _ _ | .vfmul _ _ _ _ _ _ | .vfmin _ _ _ _ _ _ | .vfmax _ _ _ _ _ _
  | .vfcmp _ _ _ _ _ _ | .vfabs _ _ _ _ _ | .vfneg _ _ _ _ _ | .vfsgn _ _ _ _ _ _ | .vicvt _ _ _ _ _
  | .vfcvt _ _ _ _ _ => .cls 5
  | .vfma _ _ _ _ _ _ | .vfms _ _ _ _ _ _ => .cls 6
  | .vred _ _ _ _ _ _ | .vscan _ _ _ _ _ _ | .vfred _ _ _ _ _ _ => .cls 7
  | .vrcp _ _ _ _ _ | .vrsq _ _ _ _ _ | .vexp2 _ _ _ _ _ | .vlog2 _ _ _ _ _ => .cls 8
  | .xmov _ _ _ _ _ | .vxmov _ _ _ _ => .cls 9
  | .ldg _ _ _ _ _ _ | .vldg _ _ _ _ _ => .cls 11
  | .ld _ _ _ _ _ _ | .vld _ _ _ _ _ | .vldu _ _ _ _ _ | .aadd _ _ _ _ _ _ _ _ | .amin _ _ _ _ _ _ _ _
  | .amax _ _ _ _ _ _ _ _ | .alog _ _ _ _ _ _ _ _ _ | .aswp _ _ _ _ _ _ _ _ | .acas _ _ _ _ _ _ _
  | .aincb _ _ _ _ _ _ _ _ => .win
  | .asnap _ _ _ _ _ => .cls 11
  | .ratom _ _ _ _ _ _ _ _ _ => .fix 1
  | .ldr _ _ _ _ lq _ _ => .fix (16 * (lq.toNat + 1))
  | .xcvt _ _ _ _ _ _ | .xquant _ _ _ _ _ _ | .xdeq _ _ _ _ _ _ | .xamax _ _ _ _ _ | .xpack _ _ _ _ _
  | .xunpk _ _ _ _ _ | .xcrc _ _ _ _ _ => .cls 16
  | .xtr _ _ _ _ => .cls 18
  | .mmac _ _ _ _ _ _ _ _ | .mmacs _ _ _ _ _ _ _ _ _ | .mpar _ _ _ _ | .mlar _ _ _ _ _ => .fix 1
  | .cstat _ _ _ | .mapi _ _ _ _ _ | .mapq _ _ _ | .gq _ _ _ _ | .gdecl _ _ _ _ | .tacq _ _ _ => .fix 1
  | .barA _ _ _ _ _ | .bar _ _ _ _ _ | .swait _ _ _ => .fix 1
  | .cput _ _ _ _ _ | .cget _ _ _ _ | .ccard _ _ _ _ => .fix 1
  | _ => .cls 0

/-- The registers an operation writes, issued in a slot. -/
def destsOf (x : Slot) (i : Instr) : List Reg :=
  match i with
  | .cmp _ p _ _ _ | .cmpi _ p _ _ _ => [⟨.p, p.toNat⟩]
  | .pand _ d _ _ _ _ | .por _ d _ _ _ _ => [⟨.p, d.toNat⟩]
  | .pnot _ d _ => [⟨.p, d.toNat⟩]
  | .vcmp _ kd _ _ _ _ | .vfcmp _ kd _ _ _ _ => [⟨maskFile x, kd.toNat⟩]
  | .kand _ kd _ _ | .kor _ kd _ _ | .kxor _ kd _ _ => [⟨maskFile x, kd.toNat⟩]
  | .knot _ kd _ => [⟨maskFile x, kd.toNat⟩]
  | .mpar _ md _ _ => [⟨.m, md.toNat⟩]
  | .mmac _ _ _ _ _ _ lm adv => if adv then [⟨.m, lm.toNat⟩] else []
  | .mmacs _ _ _ _ _ _ lm km adv => if adv then [⟨.m, lm.toNat⟩, ⟨.m, km.toNat⟩] else []
  | .mlar _ _ _ lm adv => if adv = 0 then [] else [⟨.m, lm.toNat⟩]
  | .aadd _ wd _ _ nr _ _ _ | .amin _ wd _ _ nr _ _ _ | .amax _ wd _ _ nr _ _ _ | .alog _ wd _ _ nr _ _ _ _
  | .aswp _ wd _ _ nr _ _ _ | .aincb _ wd _ _ nr _ _ _ | .ratom _ wd _ _ _ nr _ _ _ =>
    if nr then [] else [⟨.w, wd.toNat⟩]
  | .acas _ wd _ _ _ _ _ | .asnap _ wd _ _ _ => [⟨.w, wd.toNat⟩]
  | .cput _ _ d _ _ | .cget _ _ d _ | .ccard _ _ d _ | .cstat _ _ d | .mapi _ d _ _ _ | .mapq _ d _ | .gq _ d _ _ | .gdecl _ d _ _
  | .tacq _ d _ => [⟨.e, d.toNat⟩]
  | .barA _ _ _ _ p | .bar _ _ _ _ p => [⟨.y, p.toNat⟩]
  | .swait _ _ y => [⟨.y, y.toNat⟩]
  | .xtr _ d _ t => (List.range (if t.width = 32 then 16 else 32)).map (fun n => ⟨.t, d.toNat + n⟩)
  | _ =>
    match foreignOf i with
    | some dst => (destReg x dst).toList
    | none => ((dstOf i).bind (opndReg x)).toList

/-- The ring an operation pushes into, if any. -/
def pushOf (i : Instr) : Option Nat :=
  match i with
  | .xexp _ q _ _ _ _ => some q.toNat
  | .vxmov _ (.here (.pop q)) _ _ => some q.toNat
  | _ => match dstOf i with
    | some (.pop q) => some q.toNat
    | _ => none

/-- The ring of an operand code. -/
def opndRing : Opnd → Option Nat
  | .pop q | .peek q => some q.toNat
  | _ => none

/-- The rings whose data an operation's source codes read (R47). -/
def readRingsOf (i : Instr) : List Nat :=
  match i with
  | .xexp _ _ a _ _ _ => [a.toNat]
  | _ => (srcsOf i).filterMap opndRing

/-- Every ring an operation acts on, in the sense of R99. -/
def ringsOf (i : Instr) : List Nat :=
  match i with
  | .mmac _ _ q _ _ _ _ _ | .mmacs _ _ q _ _ _ _ _ _ | .mlar _ q _ _ _ | .gpush _ q _ | .cbind _ q _ _ | .cfree _ q
  | .qwait _ q _ | .qadv _ q _ => [q.toNat]
  | _ => (pushOf i).toList ++ readRingsOf i

/-- The type under which a vector operation reads a ring (R119); none where the operation reads entries as they stand. -/
def ringType : Instr → Option Fmt
  | .vadd _ _ _ _ t _ | .vsub _ _ _ _ t _ | .vmul _ _ _ _ t _ | .vmulh _ _ _ _ t _ | .vmin _ _ _ _ t _
  | .vmax _ _ _ _ t _ | .vand _ _ _ _ t _ | .vor _ _ _ _ t _ | .vxor _ _ _ _ t _ | .vandn _ _ _ _ t _
  | .vshl _ _ _ _ t _ | .vshr _ _ _ _ t _ | .vsra _ _ _ _ t _ | .vfsh _ _ _ _ t _ | .vsel _ _ _ _ t _ | .vcmp _ _ _ _ t _
  | .vperm _ _ _ _ t _ | .vpack _ _ _ _ t _ | .vfadd _ _ _ _ t _ | .vfsub _ _ _ _ t _ | .vfmul _ _ _ _ t _
  | .vfma _ _ _ _ t _ | .vfms _ _ _ _ t _ | .vfmin _ _ _ _ t _ | .vfmax _ _ _ _ t _ | .vfsgn _ _ _ _ t _
  | .vfcmp _ _ _ _ t _ => some t
  | .vabs _ _ _ t _ | .vclz _ _ _ t _ | .vpopc _ _ _ t _ | .vext _ _ _ _ t | .vins _ _ _ _ t | .vfabs _ _ _ t _
  | .vfneg _ _ _ t _ | .vicvt _ _ _ t _ | .vunpk _ _ _ t _ => some t
  | .vbcast _ _ _ _ t _ | .vrot _ _ _ _ t _ => some t
  | .vslide _ _ _ _ _ t _ => some t
  | .vred _ _ _ _ _ t | .vscan _ _ _ _ _ t | .vfred _ _ _ _ _ t => some t
  | .vrcp _ _ _ _ _ | .vrsq _ _ _ _ _ | .vexp2 _ _ _ _ _ | .vlog2 _ _ _ _ _ | .vfcvt _ _ _ _ _ => some .f32
  | _ => none

/-- The drain queues an operation pops (R35). -/
def dqsOf (i : Instr) : List Nat :=
  (srcsOf i).filterMap (fun o => match o with | .dq n => some n.toNat | _ => none)

/-- How many of an operation's sources read the common file (R43). -/
def commonReads (i : Instr) : Nat := ((srcsOf i).filter (fun o => match o with | .com _ => true | _ => false)).length

/-- The lane count of a vector operation's result (R118, R134). -/
def resultLanes : Instr → Nat
  | .vpack _ _ _ _ t _ => 2 * (512 / t.width)
  | .vunpk _ _ _ t _ => 512 / t.width / 2
  | .vadd _ _ _ _ t _ | .vsub _ _ _ _ t _ | .vmul _ _ _ _ t _ | .vmulh _ _ _ _ t _ | .vmin _ _ _ _ t _
  | .vmax _ _ _ _ t _ | .vand _ _ _ _ t _ | .vor _ _ _ _ t _ | .vxor _ _ _ _ t _ | .vandn _ _ _ _ t _
  | .vshl _ _ _ _ t _ | .vshr _ _ _ _ t _ | .vsra _ _ _ _ t _ | .vfsh _ _ _ _ t _ | .vsel _ _ _ _ t _
  | .vperm _ _ _ _ t _ | .vfadd _ _ _ _ t _ | .vfsub _ _ _ _ t _ | .vfmul _ _ _ _ t _ | .vfma _ _ _ _ t _
  | .vfms _ _ _ _ t _ | .vfmin _ _ _ _ t _ | .vfmax _ _ _ _ t _ | .vfsgn _ _ _ _ t _ => 512 / t.width
  | .vabs _ _ _ t _ | .vclz _ _ _ t _ | .vpopc _ _ _ t _ | .vext _ _ _ _ t | .vins _ _ _ _ t | .vfabs _ _ _ t _
  | .vfneg _ _ _ t _ | .vrcp _ _ _ t _ | .vrsq _ _ _ t _ | .vexp2 _ _ _ t _ | .vlog2 _ _ _ t _ | .vicvt _ _ _ t _
  | .vfcvt _ _ _ t _ => 512 / t.width
  | .vbcast _ _ _ _ t _ | .vrot _ _ _ _ t _ => 512 / t.width
  | .vslide _ _ _ _ _ t _ => 512 / t.width
  | .vred _ _ _ _ _ t | .vscan _ _ _ _ _ t | .vfred _ _ _ _ _ t => 512 / t.width
  | _ => 0

/-- The draws an operation takes for its own elements under SR (R122, R154, R164). -/
def ownDraws : Instr → Nat
  | .vicvt _ _ _ _ _ | .vfcvt _ _ _ _ _ => 16
  | .xcvt _ _ _ _ fo fi => 512 / Nat.max fi.cvtWidth fo.cvtWidth
  | .xquant _ _ _ _ _ _ | .xdeq _ _ _ _ _ _ => 16
  | .mdrain _ _ _ _ nr _ _ => 256 * (nr.toNat + 1)
  | _ => 0

/-- The draws an operation takes under SR, the lanes of a converting ring push included (R120, R122). -/
def drawsOf (i : Instr) : Nat :=
  ownDraws i + (match dstOf i with | some (.pop _) => resultLanes i | _ => 0)

/-- Operations that change which bundles are fetched (R72). -/
def isTransfer : Instr → Bool
  | .br _ _ | .jmp _ _ | .jmpr _ _ | .call _ _ _ | .ret _ _ | .loop _ _ _ | .halt _ => true
  | _ => false

/-- `rdsr` and `wrsr`, which act as if every slot's sync bit were set (R79). -/
def isSysOp : Instr → Bool
  | .rdsr _ _ _ | .wrsr _ _ _ | .mrsData _ _ => true
  | _ => false

/-- Operations of supervisor mode alone (R51, R351). -/
def isSupervisor : Instr → Bool
  | .ctxsave _ _ _ | .ctxload _ _ _ _ | .pimg _ _ _ | .eretT _ _ _ => true
  | _ => false

/-- The tile an operation names, if any (R20). -/
def tileOf : Instr → Option Nat
  | .mclr _ acc => some acc.toNat
  | .mmac _ acc _ _ _ _ _ _ => some acc.toNat
  | .mmacs _ acc _ _ _ _ _ _ _ => some acc.toNat
  | .mdrain _ _ acc _ _ _ _ => some acc.toNat
  | .mcntRd _ _ acc | .mcntSnap _ _ acc => some acc.toNat
  | .mcntClr _ acc => some acc.toNat
  | _ => none

/-- The registers named through a window, for the check of R20. -/
def windowed (x : Slot) (i : Instr) : List Reg :=
  ((srcsOf i ++ (dstOf i).toList).filterMap (opndReg x)) ++ destsOf x i ++
  (match i with
   | .xtr _ _ a t => (List.range (if t.width = 32 then 16 else 32)).map (fun n => ⟨.t, a.toNat + n⟩)
   | _ => [])

/-- Whether an instruction is an event rather than a slot's operation. -/
def isEvent : Instr → Bool
  | .asynchronousTrap _ _ _ _ | .ringEntryFill _ _ | .gatherRowFetch _ _ _ | .ringEntryDrain _ _
  | .drainQueueForward _ _ | .chunkDecode _ _ _ | .tileWriteComplete _ _ | .mlarFillComplete _ | .loadReply _ _
  | .ldrLateReply _ _ | .storeAck _ _ | .atomicReply _ _ | .homeAccess _ | .packetOffer _ | .pageTableWalk _
  | .transferSourceRead _ _ | .cgetSourceResolve _ | .landingBeat _ | .transferComplete _ _ | .jobCardStart _ _
  | .jobCardComplete _ _ | .haloTimeout _ | .barrierRootArrival _ | .phaseFlip _ _ | .sleepExpiry _ | .yieldExpiry _
  | .bPriorityPromotion _ _ | .launchPacket _ _ | .taskStart _ | .recordDelivery _ _ | .disposeTrap _ _
  | .discardParkedTransfer _ _ | .savePartition _ _ | .restorePartition _ _ | .endSlice _ _ | .sliceGraceExpiry _
  | .withdrawReceive _ _ | .withdrawAck _ _ | .saveStep _ | .retrainLink _ _ | .functionLevelReset _ _
  | .writeVdRegister _ _ | .transInv _ _ | .attestationReport _ _ | .hostStateStore _ _ _ | .hostMemoryAccess _ _ _
  | .horizonPublish _ | .horizonRetire _ _ | .tokenRecall _ _ | .tokenGrant _ _ | .tokenHoldExpiry _ _
  | .linkPacketReceive _ _ | .linkAck _ _ | .laneFailure _ _ | .linkRetrained _ | .linkRetrainTimeout _
  | .linkTraining _ _ _ | .ringSkewMeasure _ _ _ | .correctedError _ | .uncorrectableError _ | .moduleReset _
  | .powerOff | .rangeTableInstall _ _ | .virtualDeviceCreation _ _ | .minimumShareSetting _ _ _ _
  | .tacqRequest _ _ | .neighbourCommitNotice _ _ _ => true
  | _ => false

/-- Whether an event is a module reset, which alone moves a module without power (R386). -/
def isReset : Instr → Bool
  | .moduleReset _ => true
  | _ => false

end Sys2Proof.Machine
end

