-- ==== Sys2Proof/Machine/Ops.lean ====
section
/-! DEFINITION. The named operations over the module: access to its parts, addresses and memory, translation, register
reads and results in flight, the step counters, taking a trap and returning from one, and the issue of one operation. -/

namespace Sys2Proof.Machine

/-! ### Parts of the module -/

/-- The sequencer at a location of this module (R11). -/
def State.seqAt (s : State) (loc : Nat) : Seq := s.seqs.look Seq.reset loc
/-- The core of a number 0 to 255: 32 × die + core (R10). -/
def State.coreAt (s : State) (c : Nat) : Core := s.cores.look Core.reset c
/-- The partition 8d + q (R317). -/
def State.quadAt (s : State) (p : Nat) : Quad := s.quads.look Quad.reset p
/-- The die of a number. -/
def State.dieAt (s : State) (d : Nat) : Die := s.dies.look Die.reset d
/-- The virtual device of a number. -/
def State.vdAt (s : State) (n : Nat) : Vd := s.vds.look Vd.reset n
/-- The endpoint of a number: local store of core c is c, bank b of die d is 256 + 32d + b, tier t of die d is
512 + 2d + t (R182). -/
def State.epAt (s : State) (e : Nat) : Endpoint := s.eps.look Endpoint.reset e

/-- Replace a sequencer. -/
def State.setSeq (s : State) (loc : Nat) (q : Seq) : State := { s with seqs := s.seqs.put loc q }
/-- Replace a core. -/
def State.setCore (s : State) (c : Nat) (k : Core) : State := { s with cores := s.cores.put c k }
/-- Replace a partition. -/
def State.setQuad (s : State) (p : Nat) (k : Quad) : State := { s with quads := s.quads.put p k }
/-- Replace a die. -/
def State.setDie (s : State) (d : Nat) (k : Die) : State := { s with dies := s.dies.put d k }
/-- Replace a virtual device. -/
def State.setVd (s : State) (n : Nat) (v : Vd) : State := { s with vds := s.vds.put n v }
/-- Replace an endpoint. -/
def State.setEp (s : State) (e : Nat) (k : Endpoint) : State := { s with eps := s.eps.put e k }
/-- Replace memory. -/
def State.setMem (s : State) (m : Memory) : State := { s with mem := m }

/-- The core of a location. -/
def coreOf (loc : Nat) : Nat := loc / 2
/-- The partition of a location. -/
def partOf (loc : Nat) : Nat := loc / 8
/-- The number that a pod gives a partition of this module: 64 × module + partition. -/
def podPart (s : State) (p : Nat) : Nat := 64 * s.module + p
/-- The die of a location. -/
def dieOf (loc : Nat) : Nat := loc / 64
/-- The other sequencer of the core. -/
def siblingOf (loc : Nat) : Nat := if loc % 2 = 0 then loc + 1 else loc - 1
/-- The location as the pod numbers it (R11). -/
def fullLoc (s : State) (loc : Nat) : Nat := s.module * 512 + loc

/-- The sequencer that issues. -/
def State.me (s : State) : Seq := s.seqAt s.cur.loc
/-- Replace the sequencer that issues. -/
def State.setMe (s : State) (q : Seq) : State := s.setSeq s.cur.loc q

/-- The step of a slot (R22). -/
def stepOf (q : Seq) (x : Slot) : Nat := q.steps.look 0 x.num
/-- The smallest step among the nine slots (R24). -/
def loOf (q : Seq) : Nat := (Slot.all.map (stepOf q)).foldl Nat.min (stepOf q .S)
/-- The declared latency of a class (R37). -/
def latency (q : Seq) (c : Nat) : Nat :=
  if q.task.lat.getD c 0 = 0 then Config.boreth1 c else q.task.lat.getD c 0
/-- The step of the issuing slot: the index of the bundle it issues. -/
def State.here (s : State) : Nat := stepOf s.me s.cur.slot
/-- The fetched bundle of an index; bundle bits of zero when none was fetched. -/
def bundleAt (q : Seq) (i : Nat) : Fetched := (q.queue.find i).getD ⟨0, 0, true⟩
/-- The operation in a present S slot, where it is one. -/
def opOfS (x : Bundle) : Option Instr := if x.present .S then x.op .S else none

/-- Whether a bundle holds `rdsr` or `wrsr` (R79). -/
def holdsSysOp (x : Bundle) : Bool := match opOfS x with | some i => isSysOp i | none => false

/-- The latest bundle at or below the slot's step whose sync mask holds the slot's bit, plus one; 0 when none (R26). -/
def syncOf (q : Seq) (x : Slot) : Nat :=
  let k := stepOf q x
  let b := (bundleAt q k).bits
  if b.sync x || holdsSysOp b then k + 1 else q.lastSync.look 0 x.num
/-- The bundle being issued. -/
def State.bundle (s : State) : Fetched := bundleAt s.me s.here
/-- Whether a sequencer runs in supervisor mode: it runs a task of virtual device 0 (R346). -/
def supervisor (q : Seq) : Bool := q.task.vd == 0
/-- The virtual device of the issuing sequencer. -/
def State.myVd (s : State) : Nat := s.me.task.vd
/-- The scope of an operation: its own code, or the bundle's prefix (R42, R187). -/
def State.scopeOf (s : State) (code : Nat) : Nat := if code = 0 then s.bundle.bits.scope else code

/-- The code that a sequencer runs: 0 for its task's own, else the number of the handler's run, whose bundles are counted anew (R343). -/
def eraOf (q : Seq) : Nat := (q.frame.map (·.era)).getD 0

/-- Whether an in-flight entry's operation is po-before bundle k of slot x (R183): in its own slot by its bundle, of another slot by a
sync bit between; what other code of the sequencer issued came before. -/
def poBefore (q : Seq) (x : Slot) (k : Nat) (e : Ifr) : Bool :=
  e.era != eraOf q || (if e.slot = x then decide (e.bundle < k) else decide (e.bundle + 1 < syncOf q x))

/-! ### Addresses and memory (Table 2.7, Table 22.1, Table 26.1) -/

/-- A physical address of this module from die, tier code and offset (Table 22.1). -/
def physOf (s : State) (d tier off : Nat) : Nat := s.module * 2 ^ 46 + d * 2 ^ 43 + tier * 2 ^ 41 + off
/-- A byte of core c's local store (Table 26.1). -/
def localPhys (s : State) (c off : Nat) : Nat := physOf s (c / 32) 3 (0x110000000 + c % 32 * 0x800000 + off)
/-- A byte of a slice bank (Table 26.1). -/
def bankPhys (s : State) (d b off : Nat) : Nat := physOf s d 3 (0x120000000 + b * 0x200000 + off)

/-- Module, die, tier and offset of a physical address (Table 22.1). -/
def physMod (a : Nat) : Nat := a / 2 ^ 46 % 64
/-- The die field of a physical address. -/
def physDie (a : Nat) : Nat := a / 2 ^ 43 % 8
/-- The tier field of a physical address. -/
def physTier (a : Nat) : Nat := a / 2 ^ 41 % 4
/-- The offset of a physical address. -/
def physOff (a : Nat) : Nat := a % 2 ^ 41

/-- The endpoint that is the home of a physical address of this module (R182). -/
def endpointOf (a : Nat) : Nat :=
  if physTier a = 3 then
    if physOff a < 0x120000000 then 32 * physDie a + (physOff a - 0x110000000) / 0x800000
    else 256 + 32 * physDie a + (physOff a - 0x120000000) / 0x200000
  else 512 + 2 * physDie a + physTier a

/-- The window of n bytes at an address as its latency class: 11 local store, 12 slice banks, 13 device memory; none when
a byte lies outside every window or the bytes lie in two (Table 2.7, R36). -/
def windowOf (a n : Nat) : Option Nat :=
  if a + n ≤ 0x600000 then some 11
  else if 0x10000000 ≤ a ∧ a + n ≤ 0x14000000 then some 12
  else if 0x100000000 ≤ a ∧ a + n ≤ 2 ^ 52 then some 13
  else none

/-- The bank of a slice-window address (Table 2.7). -/
def bankOf (a : Nat) : Nat := bitsAt a 12 5

/-- The physical byte of a local-store or slice-window address as a location sees it (Table 2.7). -/
def nearPhys (s : State) (loc a : Nat) : Nat :=
  if a < 0x600000 then localPhys s (coreOf loc) a
  else bankPhys s (dieOf loc) (bankOf a) (bitsAt a 17 9 * 4096 + a % 4096)

/-- The n bytes at a local-store or slice-window address. -/
def nearBytes (s : State) (loc a n : Nat) : List Byte := (List.range n).map (fun j => s.mem.look (nearPhys s loc (a + j)))

/-- Write bytes at a local-store or slice-window address, under a byte mask (R86). -/
def nearStore (s : State) (loc : Nat) : Nat → List Byte → Nat → State
  | _, [], _ => s
  | a, b :: bs, k =>
    let r := nearStore s loc (a + 1) bs (k / 2)
    if k % 2 = 1 then { r with mem := r.mem.store (nearPhys s loc a) b } else r

/-- The mask of all bytes. -/
def allBytes : Nat := 2 ^ 64 - 1

/-- The little-endian number of n bytes at a local-store or slice-window address (R39). -/
def nearNat (s : State) (loc a n : Nat) : Nat := ofBytes (nearBytes s loc a n)

/-- The 512 bits at a local-store address of the issuer. -/
def localLine (s : State) (loc a : Nat) : Nat := nearNat s loc a 64

/-- The first byte of a marked word that a read of physical bytes meets (R348). -/
def errorMark (s : State) (bytes : List Nat) : Option Nat := bytes.find? (fun a => s.marks.any (fun m => m == a / 8))

/-- Clear the marks of words written whole (R348). -/
def clearMarks (s : State) (bytes : List Nat) : State :=
  { s with marks := s.marks.filter (fun m => !((List.range 8).all (fun j => bytes.any (fun a => a == 8 * m + j)))) }

/-- The bank mask in force for a location (R320): its partition's mask for the resident device. -/
def bankMask (s : State) (loc : Nat) : Nat := (s.vdAt (s.seqAt loc).task.vd).masks.look 0 (podPart s (partOf loc))

/-- Whether a device holds a partition of a die of a module (R318). -/
def holdsDie (v : Vd) (m d : Nat) : Bool := v.parts.any (fun p => p / 8 == 8 * m + d)

/-- Whether some partition of a device on a die holds a bank in its mask (R320). -/
def holdsBank (v : Vd) (m d b : Nat) : Bool := v.parts.any (fun p => p / 8 == 8 * m + d && (v.masks.look 0 p).testBit b)

/-- Whether every listed slice-window byte lies in a bank of the location's mask (R320). -/
def banksOk (s : State) (loc : Nat) (bytes : List Nat) : Bool :=
  bytes.all (fun a => a < 0x600000 || (bankMask s loc).testBit (bankOf a))

/-! ### Translation (R322 to R325) -/

/-- How a translation ends: the physical address, a trap code, or a walk that has not ended. -/
inductive Xlate where
  | ok (pa : Nat)
  | bad (code : Nat)
  | wait
  deriving DecidableEq, Repr

/-- Whether a physical address may stand in a table entry, a range or a page frame (R323). -/
def physOk (s : State) (a : Nat) : Bool :=
  physTier a < 2 && physOff a < Config.tierBytes (physTier a) && s.podMap.testBit (physMod a)

/-- The range entry that covers an address (R322). -/
def rangeOf (v : Vd) (a : Nat) : Option RangeEntry := v.ranges.find? (fun e => e.v && e.vbase ≤ a && a ≤ e.vlimit)

/-- A byte that a walk reads: this module's memory, or a free value for another module's. -/
def walkByte (s : State) (a : Nat) : Byte :=
  if physMod a = s.module then s.mem.look a else Config.outsideByte s.free a

/-- The 8-byte table entry at a physical address. -/
def walkEntry (s : State) (a : Nat) : Nat := ofBytes ((List.range 8).map (fun j => walkByte s (a + j)))

/-- One level of the walk (R323): lo is the lowest index bit of the level, n its index bits; a leaf answers the page
frame, its page bits and its write right. (DEDUCED, assumption 50) -/
def walkLevels (s : State) (va : Nat) : Nat → Nat → Nat → Nat → Except Nat (Nat × Nat × Bool)
  | 0, _, _, _ => .error 0x11
  | fuel + 1, level, table, big =>
    let lo := if level = 1 then 42 else if level = 2 then 30 else if level = 3 then 21 else if big = 1 then 16 else 12
    let n := if level = 1 then 10 else if level = 2 then 12 else if level = 3 then 9 else if big = 1 then 5 else 9
    if !physOk s table then .error 0x11 else
    let e := walkEntry s (table + 8 * bitsAt va lo n)
    let kind := e % 8
    let addr := bitsAt e 12 40 * 4096
    if kind = 0 then .error 0x10
    else if bitsAt e 52 12 ≠ 0 ∨ bitsAt e 4 8 ≠ 0 ∨ 4 ≤ kind ∨ (kind = 2 ∧ level ≠ 3) ∨ (kind ≠ 3 ∧ level = 4)
        ∨ (kind = 3 ∧ level = 1) then .error 0x11
    else if kind = 3 then
      if addr % 2 ^ lo ≠ 0 ∨ !physOk s addr then .error 0x11 else .ok (addr, lo, e / 8 % 2 = 1)
    else walkLevels s va fuel (level + 1) addr (if kind = 2 then 1 else 0)

/-- The whole walk of a virtual address (R323). -/
def walk (s : State) (vd va : Nat) : Except Nat (Nat × Nat × Bool) := walkLevels s va 4 1 (s.vdAt vd).root 0

/-- Translate without waiting: what the loader, the fetch and the engines use. (DEDUCED, assumption 18) -/
def translate (s : State) (vd a : Nat) (write : Bool) : Xlate :=
  match rangeOf (s.vdAt vd) a with
  | some e =>
    if (if write then e.w else e.r) then .ok ((a : Int) + e.offset).toNat else .bad 0x11
  | none =>
    match walk s vd a with
    | .error c => .bad c
    | .ok (frame, bits, w) => if write && !w then .bad 0x11 else .ok (frame + a % 2 ^ bits)

/-- The live walks that hold a shared walker: those of a partition beyond its guarantee, which only resident ones have (R324). -/
def sharedWalks (res : List Nat) (live : List Walk) : Nat :=
  ((live.map (·.part)).eraseDups.map (fun p => (live.filter (fun w => w.part == p)).length -
    (if res.contains p then 64 else 0))).sum

/-- Give walkers to waiting walks in request order (R324): 64 are guaranteed to each resident partition of the die, the rest shared. -/
def grantWalks (res : List Nat) : List Walk → List Walk → List Walk
  | _, [] => []
  | before, w :: ws =>
    let live := (before.filter (fun v => v.active && v.found.isNone && v.code = 0))
    let mine := (live.filter (fun v => v.part == w.part)).length
    let go := w.active || (res.contains w.part && mine < 64) ||
      sharedWalks res live < Config.dieWalks - 64 * res.length
    let w' := { w with active := go }
    w' :: grantWalks res (before ++ [w']) ws

/-- The partitions of a die that are resident for some device (R317). -/
def residentParts (s : State) (d : Nat) : List Nat :=
  (List.range 8).filterMap (fun q => if (s.quadAt (8 * d + q)).resident.isSome then some (8 * d + q) else none)

/-- Translate for an operation of a location: a range entry answers at once, a kept translation answers, otherwise a walk
is asked for and the operation waits (R322 to R325). -/
def translateFor (s : State) (loc vd a : Nat) (write : Bool) : Xlate × State :=
  match rangeOf (s.vdAt vd) a with
  | some e =>
    if (if write then e.w else e.r) then (.ok ((a : Int) + e.offset).toNat, s) else (.bad 0x11, s)
  | none =>
    let die := s.dieAt (dieOf loc)
    match die.walks.find? (fun w => w.part == partOf loc && w.vd == vd && w.page == a / 4096) with
    | none =>
      let w : Walk := ⟨die.nextWalk, partOf loc, vd, a / 4096, false, none, 0⟩
      (.wait, s.setDie (dieOf loc) { die with walks := grantWalks (residentParts s (dieOf loc)) [] (die.walks ++ [w]), nextWalk := die.nextWalk + 1 })
    | some w =>
      match w.found with
      | some (pa, ok) => if write && !ok then (.bad 0x11, s) else (.ok (pa + a % 4096), s)
      | none =>
        if w.code = 0 then (.wait, s)
        else (.bad w.code, s.setDie (dieOf loc) { die with walks := die.walks.filter (fun v => v.no != w.no) })

/-! ### Time, records and counters -/

/-- The virtual timestamp of a device (R327). -/
def vtime (s : State) (vd : Nat) : Nat :=
  let v := s.vdAt vd
  (s.now * (if v.scale = 0 then 1 else v.scale) / 2 ^ 24 + v.offset) % 2 ^ 64

/-- Count a performance event for the device that is resident on a location's partition (R328, Table 22.5). -/
def perf (s : State) (loc code n : Nat) : State :=
  match (s.quadAt (partOf loc)).resident with
  | none => s
  | some vd =>
    let v := s.vdAt vd
    match (List.range 8).filter (fun j => v.perfSel.look 0 (8 * podPart s (partOf loc) + j) == code && code != 0) with
    | [] => s
    | hit => s.setVd vd { v with perfCnt := hit.foldl (fun t j =>
        t.put (8 * podPart s (partOf loc) + j) ((t.look 0 (8 * podPart s (partOf loc) + j) + n) % 2 ^ 64)) v.perfCnt }

/-- A number from fields given as lowest bit, width and value. -/
def packBits : List (Nat × Nat × Nat) → Nat
  | [] => 0
  | (lo, n, v) :: r => v % 2 ^ n * 2 ^ lo + packBits r

/-- Whether a device is resident on some partition of a die (R317, R329). -/
def residentOn (s : State) (die vd : Nat) : Bool :=
  (List.range 8).any (fun q => (s.quadAt (8 * die + q)).resident == some vd)

/-- Register f of record ring n of a die: 0 NODE and BASE, 1 SIZE, 2 PROD, 3 CONS (Table 26.3). -/
def Die.ring (k : Die) (n f : Nat) : Nat := (k.ringRegs.look 0 (4 * n + f)).toNat

/-- Whether a record ring can take a record (R377). -/
def ringOpen (k : Die) (n : Nat) : Bool :=
  let size := bitsAt (k.ring n 1) 0 5
  size != 0 && (k.ring n 2 + 2 ^ 32 - k.ring n 3 % 2 ^ 32) % 2 ^ 32 != 2 ^ size

/-- Put a record in a die's replayable lane, which event records share (R310, R345). A record beyond the 256 of its device
waits behind them. (DEDUCED, assumption 39) One that arises while its device is not resident on the die is withheld (R329). -/
def postLane (s : State) (die vd bits : Nat) : State :=
  let k := s.dieAt die
  s.setDie die { k with lane := k.lane ++ [⟨vd, BitVec.ofNat 512 bits, !residentOn s die vd⟩] }

/-- Put a record in a die's fatal lane (R345). -/
def postFatal (s : State) (die vd bits : Nat) : State :=
  let k := s.dieAt die
  s.setDie die { k with fatal := k.fatal ++ [⟨vd, BitVec.ofNat 512 bits, false⟩] }

/-- An event record (Table 20.7) as it fills its slot (R377). -/
def eventRec (vd loc kind lseq code data time : Nat) : Nat :=
  packBits [(32, 16, vd), (16, 15, loc), (0, 8, kind), (96, 32, lseq), (64, 32, code), (128, 64, data), (192, 64, time),
    (511, 1, 1)]

/-- Post an event record (R310). -/
def postEvent (s : State) (die vd loc kind lseq code data : Nat) : State :=
  postLane s die vd (eventRec vd loc kind lseq code data (vtime s vd))

/-- Records of one device in a die's buffer (R310). -/
def laneCount (s : State) (die vd : Nat) : Nat := ((s.dieAt die).lane.filter (fun r => r.vd == vd)).length

/-! ### Registers (R19, R20) -/

/-- The window size of a windowed file, or the size of a per-sequencer one (R20, Table 3.6). -/
def fileSize (q : Seq) : File → Nat
  | .s => 64 | .v0 => q.task.winV0 | .v1 => q.task.winV1 | .k0 => 16 | .k1 => 16 | .m => 8 | .b => 32 | .w => 32
  | .e => 32 | .y => 16 | .t => q.task.winT | .p => 16 | .c => 64

/-- The window base of a windowed file: 0 on sequencer A, the file's size less the window on B (R20). -/
def winBase (loc size win : Nat) : Nat := if loc % 2 = 0 then 0 else size - win

/-- The bits a register holds, as 512 bits with zero above its width (R19). -/
def regBase (s : State) (loc : Nat) (r : Reg) : Vec :=
  let q := s.seqAt loc
  let k := s.coreAt (coreOf loc)
  match r.file with
  | .s => if r.idx = 0 then 0 else (q.fs.look 0 r.idx).setWidth 512
  | .k0 => (q.fk0.look 0 r.idx).setWidth 512
  | .k1 => (q.fk1.look 0 r.idx).setWidth 512
  | .m => (q.fm.look 0 r.idx).setWidth 512
  | .b => (q.fb.look 0 r.idx).setWidth 512
  | .w => (q.fw.look 0 r.idx).setWidth 512
  | .e => (q.fe.look 0 r.idx).setWidth 512
  | .y => (q.fy.look 0 r.idx).setWidth 512
  | .p => if r.idx = 15 then 1 else BitVec.ofNat 512 (bit (q.fp.getLsbD r.idx))
  | .v0 => k.v0.look 0 (winBase loc Config.vFile q.task.winV0 + r.idx)
  | .v1 => k.v1.look 0 (winBase loc Config.vFile q.task.winV1 + r.idx)
  | .t => k.t.look 0 (winBase loc Config.tFile q.task.winT + r.idx)
  | .c => k.c.look 0 r.idx

/-- The bits a byte mask covers (R121). -/
def maskBits : Nat → Nat → Nat
  | 0, _ => 0
  | n + 1, m => (if m % 2 = 1 then 255 else 0) + 256 * maskBits n (m / 2)

/-- The bytes of a result that its mask enables over the old bytes (R121). -/
def mergeBytes (old new : Vec) (mask : Nat) : Vec :=
  if mask = allBytes then new
  else (old &&& ~~~(BitVec.ofNat 512 (maskBits 64 mask))) ||| (new &&& BitVec.ofNat 512 (maskBits 64 mask))

/-- Put a value in a register: s0 and code 15 of the predicates discard it (R19, R21). -/
def regPut (s : State) (loc : Nat) (r : Reg) (v : Vec) : State :=
  let q := s.seqAt loc
  let k := s.coreAt (coreOf loc)
  let w : Word := v.setWidth 64
  match r.file with
  | .s => if r.idx = 0 then s else s.setSeq loc { q with fs := q.fs.put r.idx w }
  | .k0 => s.setSeq loc { q with fk0 := q.fk0.put r.idx w }
  | .k1 => s.setSeq loc { q with fk1 := q.fk1.put r.idx w }
  | .m => s.setSeq loc { q with fm := q.fm.put r.idx w }
  | .b => s.setSeq loc { q with fb := q.fb.put r.idx w }
  | .w => s.setSeq loc { q with fw := q.fw.put r.idx w }
  | .e => s.setSeq loc { q with fe := q.fe.put r.idx w }
  | .y => s.setSeq loc { q with fy := q.fy.put r.idx w }
  | .p =>
    if r.idx = 15 then s
    else
      let b : BitVec 16 := BitVec.ofNat 16 (2 ^ r.idx)
      s.setSeq loc { q with fp := if v = 0 then q.fp &&& ~~~b else q.fp ||| b }
  | .v0 => s.setCore (coreOf loc) { k with v0 := k.v0.put (winBase loc Config.vFile q.task.winV0 + r.idx) v }
  | .v1 => s.setCore (coreOf loc) { k with v1 := k.v1.put (winBase loc Config.vFile q.task.winV1 + r.idx) v }
  | .t => s.setCore (coreOf loc) { k with t := k.t.put (winBase loc Config.tFile q.task.winT + r.idx) v }
  | .c => s.setCore (coreOf loc) { k with c := k.c.put r.idx v }

/-! ### Results in flight (R23, R26, R27, R29, R338, R390) -/

/-- The order in which results take effect on a register: landing index, then slot, then bundle (R29). -/
def pendLt (a b : Pend) : Bool :=
  a.li < b.li || (a.li == b.li && (a.slot.num < b.slot.num || (a.slot == b.slot && a.bundle < b.bundle)))

/-- Insert a result in that order. -/
def insertPend (e : Pend) : List Pend → List Pend
  | [] => [e]
  | p :: ps => if pendLt e p then e :: p :: ps else p :: insertPend e ps

/-- Whether another result of the list lands on the same register at the same index and wins (R29). -/
def loses (ps : List Pend) (e : Pend) : Bool :=
  e.dst.isSome && ps.any (fun p => p.dst == e.dst && p.li == e.li && pendLt e p)

/-- Whether a result meets another at its register and index, or was deferred (R27, R29). -/
def collides (ps : List Pend) (e : Pend) : Bool :=
  e.moved || (e.dst.isSome && ps.any (fun p => p.dst == e.dst && p.li == e.li && p.uid != e.uid))

/-- Results of the common file landing at an index. -/
def commonAt (ps : List Pend) (li : Nat) : List Pend :=
  ps.filter (fun p => p.li == li && (p.dst.map (·.file)) == some File.c)

/-- Keep two common-file results at each index and move the rest, in slot order, to the next index; results that were
encoded to land at an index keep its ports ahead of moved ones (R27). -/
def deferCommon : Nat → Nat → List Pend → List Pend
  | 0, _, ps => ps
  | fuel + 1, li, ps =>
    let here := commonAt ps li
    let ranked := here.filter (fun p => !p.moved) ++ here.filter (fun p => p.moved)
    let out := (ranked.drop 2).map (·.uid)
    if out.isEmpty then ps
    else
      let moved := ps.map (fun p => if out.contains p.uid then { p with li := li + 1, moved := true } else p)
      deferCommon fuel (li + 1) (moved.foldl (fun r p => insertPend p r) [])

/-- Add a result to the sequencer's pipelines. A write to s0 is discarded (R19). -/
def addPend (q : Seq) (e : Pend) : Seq :=
  if e.dst = some ⟨.s, 0⟩ then q
  else
    let ps := insertPend e q.pend
    { q with pend := if (e.dst.map (·.file)) = some File.c then deferCommon (ps.length + 1) e.li ps else ps }

/-- The slot whose step decides a result's landing in the pipe image (R338). -/
def deciderOf (e : Pend) : Slot := (e.dst.bind (fun r => ownerOf r.file)).getD e.slot

/-- Whether a result is in the pipe image: issued and not landed for its deciding slot (R338). -/
def inImage (q : Seq) (e : Pend) : Bool :=
  e.live && e.dst.isSome && e.ifr.isNone && !e.done && stepOf q (deciderOf e) < e.li

/-- REM: the steps of the deciding slot that remain before a result lands (R338). -/
def remOf (q : Seq) (e : Pend) : Nat := e.li - stepOf q (deciderOf e)

/-- Insert a result behind those with no greater REM. -/
def insertRem (q : Seq) (e : Pend) : List Pend → List Pend
  | [] => [e]
  | d :: r => if remOf q e < remOf q d then e :: d :: r else d :: insertRem q e r

/-- The results of a slot in the pipe image, by ascending REM (R338, R353). -/
def slotImage (q : Seq) (x : Slot) : List Pend :=
  (q.pend.filter (fun e => e.slot == x && inImage q e)).foldl (fun l e => insertRem q e l) []

/-- The pipe image in slot order, by ascending REM within a slot (R338, R353). -/
def pipeImage (q : Seq) : List Pend := Slot.all.flatMap (slotImage q)

/-- Whether slot x takes a result without a sync bit: its own slot's results (R23), and Y the predicates of S (R71). -/
def seesPlain (x y : Slot) (r : Option Reg) : Bool := y == x || (x == .Y && y == .S && (r.map (·.file)) == some File.p)

/-- Whether a reader in slot x at step k must see a write that slot y issued in a bundle: by R23 and R71, and by R26 for the writes of
other slots. -/
def mustSee (q : Seq) (x : Slot) (k : Nat) (y : Slot) (r : Option Reg) (bundle li : Nat) : Bool :=
  decide (li ≤ k) && (seesPlain x y r || decide (bundle < syncOf q x))

/-- Whether it may see the write at all: by R23 and R71 only once landed, another slot's from the write's bundle on (R26). A reader in
an earlier bundle than the write reads the old value. (DEDUCED, assumption 53) -/
def maySee (x : Slot) (k : Nat) (y : Slot) (r : Option Reg) (bundle li : Nat) : Bool :=
  if seesPlain x y r then decide (li ≤ k) else decide (bundle ≤ k)

/-- What a reader finds in a register: its bits, and the in-flight entry of its poison mark. -/
structure Seen where
  val    : Vec
  poison : Option Nat
  deriving DecidableEq, Repr

/-- What a register becomes by a result that takes effect on it; raw is what the file holds, where later results may stand already (R121,
R282, R339). None while a load that covers only some bytes has not returned. -/
def overlay (raw : Seen) (e : Pend) (w : Option Seen) : Option Seen :=
  if e.done then w.map (fun v => ⟨mergeBytes v.val raw.val e.mask, raw.poison⟩)
  else if !e.avail then none
  else if e.poison then w.map (fun v => ⟨v.val, some (e.ifr.getD 0)⟩)
  else if e.mask = allBytes then some ⟨e.val, none⟩
  else w.map (fun v => ⟨mergeBytes v.val e.val e.mask, none⟩)

/-- Take the results on their way to a register in landing order: w is what the register holds after each, v the value the reader takes,
which is one that the register holds (R7): the latest that it must see, or a later one where R26 leaves the choice. moved tells whether
it has taken one. -/
def viewPend (q : Seq) (x : Slot) (k free : Nat) (all : List Pend) (raw : Seen) : List Pend → Option Seen → Seen → Bool → Seen
  | [], _, v, _ => v
  | e :: ps, w, v, moved =>
    if !e.live || loses all e then viewPend q x k free all raw ps w v moved
    else
      let w := overlay raw e w
      if e.done then viewPend q x k free all raw ps w (if moved then w.getD v else v) moved
      else if mustSee q x k e.slot e.dst e.bundle e.li ||
          (maySee x k e.slot e.dst e.bundle e.li && e.avail && Config.freeBit free e.uid) then
        viewPend q x k free all raw ps w (w.getD v) true
      else viewPend q x k free all raw ps w v moved

/-- The value from which a reader starts among those that landed writes replaced, newest first: it passes back over a write that its slot
must not see yet, may pass over one that it has not been synchronised with, and stops at one that it must see (R7, R26, R71, R390). -/
def viewGhosts (q : Seq) (x : Slot) (k free : Nat) : List Ghost → Seen → Seen
  | [], v => v
  | g :: gs, v =>
    if mustSee q x k g.slot (some g.reg) g.bundle g.li then v
    else if !maySee x k g.slot (some g.reg) g.bundle g.li || Config.freeBit free g.uid then
      viewGhosts q x k free gs ⟨g.old, g.mark⟩
    else v

/-- The common-file writes of the sibling that are not yet performed for this sequencer: it sees them up to one of them, in landing order
(R7, R390). -/
def viewSibling (free : Nat) (all : List Pend) (raw : Seen) : List Pend → Option Seen → Seen → Seen
  | [], _, v => v
  | e :: ps, w, v =>
    if !e.live || e.done || loses all e then viewSibling free all raw ps w v
    else
      let w := overlay raw e w
      viewSibling free all raw ps w (if e.avail && Config.freeBit free e.uid then w.getD v else v)

/-- The poison mark of a register as the files hold it (R282, R283): a common-file register's stands with the core. -/
def markOf (s : State) (loc : Nat) (r : Reg) : Option Nat :=
  if r.file = .c then ((s.coreAt (coreOf loc)).cmarks.find? (fun m => m.1 == r.idx)).map (·.2.2)
  else ((s.seqAt loc).poison.find? (fun p => p.1 == r)).map (·.2)

/-- Replace the poison mark of a register; entry numbers are those of the location's in-flight record. -/
def setMark (s : State) (loc : Nat) (r : Reg) (m : Option Nat) : State :=
  let q := s.seqAt loc
  let c := s.coreAt (coreOf loc)
  if r.file = .c then
    s.setCore (coreOf loc) { c with cmarks := (m.map (fun e => (r.idx, loc, e))).toList ++ c.cmarks.filter (fun n => n.1 != r.idx) }
  else s.setSeq loc { q with poison := (m.map (fun e => (r, e))).toList ++ q.poison.filter (fun p => p.1 != r) }

/-- The values that landed writes of a register replaced while a reader may still see them, newest first; of the common file, those of
the location's own writes, which a write of the sibling ends (R390). -/
def ghostsOf (s : State) (loc : Nat) (r : Reg) : List Ghost :=
  if r.file = .c then ((s.coreAt (coreOf loc)).cghosts.filter (fun g => g.1 == loc && g.2.reg == r)).map (·.2)
  else (s.seqAt loc).ghosts.filter (fun g => g.reg == r)

/-- Note a value that a landing write replaces. -/
def addGhost (s : State) (loc : Nat) (g : Ghost) : State :=
  let q := s.seqAt loc
  let c := s.coreAt (coreOf loc)
  if g.reg.file = .c then s.setCore (coreOf loc) { c with cghosts := (loc, g) :: c.cghosts }
  else s.setSeq loc { q with ghosts := g :: q.ghosts }

/-- A common-file write ends what readers of the sibling may see of older writes (R390). -/
def endGhosts (s : State) (loc : Nat) (r : Reg) : State :=
  let c := s.coreAt (coreOf loc)
  if r.file = .c then
    s.setCore (coreOf loc) { c with cghosts := c.cghosts.filter (fun g => g.1 == loc || g.2.reg != r) }
  else s

/-- The least and the greatest steps in which an operation's result may land: a load's window is known at its issue (R37, R88). -/
def latRange (q : Seq) (i : Instr) : List Nat :=
  match latOf i with
  | .cls c => [latency q c]
  | .fix n => [n]
  | .win => [latency q 11, latency q 12, latency q 13]

/-- The steps to a landing in a file: the common file has its own least (R27). -/
def landSteps (q : Seq) (f : File) (l : Nat) : Nat := if f = .c then Nat.max l (latency q 10) else l

/-- The writes that slots have yet to issue in bundles below k, as encoded: slot, bundle, destination and possible latencies. M writes
only its own file. -/
def unissued (q : Seq) (k : Nat) : List (Slot × Nat × Reg × List Nat) :=
  Slot.all.flatMap (fun y => if y = .M then [] else
    (List.range (k - stepOf q y)).flatMap (fun d =>
      let j := stepOf q y + d
      match (bundleAt q j).bits.op y with
      | some i => (destsOf y i).map (fun r => (y, j, r, (latRange q i).map (landSteps q r.file)))
      | none => []))

/-- The results on their way with those of known latency that are yet to issue below bundle k counted as encoded: collisions and write
ports are judged on both (R27, R29). -/
def encodedPend (q : Seq) (k : Nat) : List Pend :=
  ((unissued q k).foldl (fun t u =>
    match u.2.2.2 with
    | [l] => addPend t
      { slot := u.1, dst := some u.2.2.1, val := 0, mask := 0, poison := false, li := u.2.1 + l, bundle := u.2.1, live := false,
        done := false, avail := true, moved := false, ifr := none, sticky := 0, uid := 0 }
    | _ => t) q).pend

/-- Whether a load yet to issue may meet a result on its way to a register at the result's landing index, or take a write port before it
there: the reader then waits for that issue (R27, R29). -/
def mayMeet (q : Seq) (k : Nat) (r : Reg) (ps : List Pend) : Bool :=
  !ps.isEmpty && (unissued q k).any (fun u => decide (1 < u.2.2.2.length) && (u.2.2.1 == r || (r.file == .c && u.2.2.1.file == .c)) &&
    ps.any (fun e => (u.2.2.2).any (fun l => u.2.1 + l == e.li)))

/-- What slot x of a location finds in a register at its step. -/
def seeReg (s : State) (loc : Nat) (x : Slot) (r : Reg) : Seen :=
  let q := s.seqAt loc
  let k := stepOf q x
  let mine := q.pend.filter (fun e => e.dst == some r)
  let file : Seen := ⟨regBase s loc r, markOf s loc r⟩
  let sib := s.seqAt (siblingOf loc)
  let raw := if r.file = .c then
      let theirs := (sib.pend ++ (sib.frame.map (·.pend)).getD []).filter (fun e => e.dst == some r)
      viewSibling s.free theirs file theirs (some file) file
    else file
  let base := viewGhosts q x k s.free (ghostsOf s loc r) raw
  if mine.isEmpty then base
  else
    let top := mine.foldl (fun n e => Nat.max n e.li) k
    let all := (encodedPend q top).filter (fun e => e.dst == some r)
    viewPend q x k s.free all raw all (some raw) base false

/-- Whether a result that the reader must see at its step has not returned (R37, R88), or may yet be met by a load that has not issued
(R27, R29). -/
def waitsFor (s : State) (loc : Nat) (x : Slot) (r : Reg) : Bool :=
  let q := s.seqAt loc
  let k := stepOf q x
  let due := q.pend.filter (fun e => e.dst == some r && decide (e.li ≤ k))
  due.any (fun e => e.live && !e.avail) || mayMeet q k r due

/-- Whether slot y holds in bundle j an operation that writes a register by step k. -/
def writesBy (q : Seq) (y : Slot) (j k : Nat) (r : Reg) : Bool :=
  match (bundleAt q j).bits.op y with
  | some i => (destsOf y i).contains r && (latRange q i).any (fun l => decide (j + landSteps q r.file l ≤ k))
  | none => false

/-- Whether a slot that has not issued the bundle of the reader's latest sync bit holds there an operation that writes the
register early enough for the reader: R26 then gives the reader the new value, so it waits. Y waits so for every predicate
that S writes (R71). -/
def waitsIssue (s : State) (loc : Nat) (x : Slot) (r : Reg) : Bool :=
  let q := s.seqAt loc
  let j := syncOf q x - 1
  let k := stepOf q x
  (decide (0 < syncOf q x) && Slot.all.any (fun y => y != x && stepOf q y == j && writesBy q y j k r)) ||
  (seesPlain x .S (some r) && x != .S && (List.range (k - stepOf q .S)).any (fun d => writesBy q .S (stepOf q .S + d) k r))

/-- The readers that may meet an older value of a register after a write to it, besides the writer's slot (R26, R86, R308,
R390). -/
def readersOf (r : Reg) : List Slot :=
  match r.file with
  | .s => if 16 ≤ r.idx ∧ r.idx ≤ 23 then [.S, .Y] else [.S]
  | .k0 => [.V0, .W]
  | .k1 => [.V1, .W]
  | .p => Slot.all
  | .c => [.S, .V0, .V1, .L, .W, .X]
  | f => (ownerOf f).toList

/-- Whether some reader of a register may still see the value that a write replaced. -/
def someUnsynced (q : Seq) (r : Reg) (writer : Slot) (bundle li : Nat) : Bool :=
  (readersOf r).any (fun x => x != writer && (decide (syncOf q x ≤ bundle) || decide (stepOf q x < li)))

/-- The older values that are still of use: one that some reader may see, and every newer one of the same register, at which a reader may
have to stop. -/
def keepGhosts (q : Seq) : List Ghost → List Ghost
  | [] => []
  | g :: gs =>
    let r := keepGhosts q gs
    if someUnsynced q g.reg g.slot g.bundle g.li || r.any (fun h => h.reg == g.reg) then g :: r else r

/-- Drop the older values that no reader of a location can see any more. -/
def pruneGhosts (s : State) (loc : Nat) : State :=
  let q := s.seqAt loc
  let c := s.coreAt (coreOf loc)
  let s := if c.cghosts.isEmpty then s else
    s.setCore (coreOf loc) { c with cghosts := c.cghosts.filter (fun g => g.1 != loc) ++
      (keepGhosts q ((c.cghosts.filter (fun g => g.1 == loc)).map (·.2))).map (fun g => (loc, g)) }
  s.setSeq loc { q with ghosts := keepGhosts q q.ghosts }

/-- The bytes of a result that later results already in the file cover (R339). -/
def coveredBytes (all : List Pend) (e : Pend) : Nat :=
  (all.filter (fun p => p.dst == e.dst && p.live && p.done && pendLt e p)).foldl (fun m p => Nat.lor m p.mask) 0

/-- Raise what lands with a result beside its value: COLLIDE and the sticky bits (R18, R29, R80). -/
def landFlags (s : State) (loc : Nat) (all : List Pend) (e : Pend) : State :=
  let q := s.seqAt loc
  let q := if collides all e then { q with collide := true } else q
  s.setSeq loc (if e.live && !e.done then { q with conv := q.conv ||| BitVec.ofNat 64 e.sticky } else q)

/-- Keep the value that a write replaces where some reader may still see it, or an older one (R26, R390). -/
def noteOld (s : State) (loc : Nat) (r : Reg) (e : Pend) : State :=
  let s := endGhosts s loc r
  if someUnsynced (s.seqAt loc) r e.slot e.bundle e.li || !(ghostsOf s loc r).isEmpty then
    addGhost s loc ⟨r, regBase s loc r, markOf s loc r, e.bundle, e.slot, e.li, e.uid⟩
  else s

/-- A register written whole loses its error mark (R348). -/
def clearErr (s : State) (loc : Nat) (r : Reg) (mask : Nat) : State :=
  let q := s.seqAt loc
  if mask = allBytes ∧ !q.errs.isEmpty then s.setSeq loc { q with errs := q.errs.filter (fun e => e.1 != some r) } else s

/-- Land one result in the register files: its flags, and the value or the poison mark (R282, R283). -/
def landOne (s : State) (loc : Nat) (all : List Pend) (e : Pend) : State :=
  let s := landFlags s loc all e
  match e.dst with
  | none => s
  | some r =>
    if !e.live || e.done || loses all e then s
    else
      let old := regBase s loc r
      let s := setMark (noteOld s loc r e) loc r (if e.poison then some (e.ifr.getD 0) else none)
      if e.poison then s
      else regPut (clearErr s loc r e.mask) loc r (mergeBytes old e.val (e.mask - Nat.land e.mask (coveredBytes all e)))

/-- Land every result of the list that is due, in order; where asked, a result that stays holds back the value of the later results of
its register (R88), whose flags are raised all the same (R80). The results that stay are answered beside the state. -/
def landDue (loc : Nat) (due : Pend → Bool) (block : Bool) (all : List Pend) :
    List Pend → List Pend → State → State × List Pend
  | [], kept, s => (s, kept)
  | e :: ps, kept, s =>
    if due e && e.avail then
      if block && kept.any (fun p => p.dst == e.dst && p.dst.isSome) then
        landDue loc due block all ps (kept ++ [{ e with sticky := 0 }]) (landFlags s loc all e)
      else landDue loc due block all ps kept (landOne s loc all e)
    else landDue loc due block all ps (kept ++ [e]) s

/-- Free the entries that have been answered and whose results have landed (R355). -/
def freeReplied (q : Seq) : Seq :=
  let held := fun k => q.pend.any (fun e => e.ifr == some k) || ((q.frame.map (·.pend)).getD []).any (fun e => e.ifr == some k)
  { q with ifr := q.ifr.filter (fun e => e.2.state != 3 || held e.1) }

/-- Land every result that every slot of the sequencer has reached (R390). -/
def settle (s : State) (loc : Nat) : State :=
  let q := s.seqAt loc
  let lo := loOf q
  let (s, kept) := landDue loc (fun e => decide (e.li ≤ lo)) true q.pend q.pend [] s
  s.setSeq loc (freeReplied { s.seqAt loc with pend := kept })

/-- Land every result that has returned: at `halt` and at the end of a handler (R77, R343). -/
def landAll (s : State) (loc : Nat) : State :=
  let q := s.seqAt loc
  let (s, kept) := landDue loc (fun _ => true) true q.pend q.pend [] s
  s.setSeq loc { s.seqAt loc with pend := kept }

/-- Whether a result has landed for its deciding slot, and no write yet to issue discards or defers it (R27, R29, R338). -/
def landedImage (q : Seq) (all : List Pend) (e : Pend) : Bool :=
  e.avail && decide (e.li ≤ stepOf q (deciderOf e)) && !loses all e &&
  all.any (fun p => p.uid == e.uid && p.live && p.slot == e.slot && p.bundle == e.bundle && p.dst == e.dst && p.li == e.li)

/-- Put into the files what has landed for its deciding slot, keeping the entries for later judgements (R338, R339). -/
def landImage (s : State) (loc : Nat) : State :=
  let q := s.seqAt loc
  let all := encodedPend q (Slot.all.foldl (fun n x => Nat.max n (stepOf q x)) 0)
  let now := landedImage q all
  let (s, _) := landDue loc now false q.pend q.pend [] s
  let q' := s.seqAt loc
  s.setSeq loc { q' with pend := q.pend.map (fun e => if now e then { e with done := true, sticky := 0 } else e) }

/-! ### The generator behind stochastic rounding (R112, R113) -/

/-- One step of the generator (R112). -/
def gStep (g : Nat) : Nat := if g % 2 = 1 then Nat.xor (g / 2) 0x80200003 else g / 2
/-- n steps. -/
def gSteps : Nat → Nat → Nat
  | 0, g => g
  | n + 1, g => gSteps n (gStep g)
/-- The draws 0 to n - 1 from a state. -/
def gDraws : Nat → Nat → List Nat
  | 0, _ => []
  | n + 1, g => g % 65536 :: gDraws n (gSteps 16 g)

/-- A system register as the operations of a bundle see it: a `wrsr` governs the bundles after its own (R80). -/
def srAt (q : Seq) (num i : Nat) (now : Word) : Word :=
  match q.srPrev with
  | some (b, n, old) => if n = num ∧ i ≤ b then old else now
  | none => now
/-- CONV as the operations of a bundle see it. -/
def convAt (q : Seq) (i : Nat) : Word := srAt q 3 i q.conv
/-- The rounding mode in force in a bundle (Table 6.8). -/
def rmodeAt (q : Seq) (i : Nat) : Nat := bitsAt (convAt q i).toNat 0 3
/-- SATE4 in force in a bundle (Table 6.8). -/
def sate4At (q : Seq) (i : Nat) : Bool := (convAt q i).getLsbD 3

/-- A word of the routine store as bundle k of a location sees it: a word that a `wrsr` of the same bundle stores is seen old
there (R80, R157). -/
def storeWord (s : State) (loc k idx : Nat) : Word :=
  let q := s.seqAt loc
  let now := (s.coreAt (coreOf loc)).store.look 0 idx
  if idx = (q.mrsIndex + 2047) % 2048 then srAt q 0x00A k now else now

/-- The word of the routine store at an index, its marked field replaced (R158): none where the word is no legal M-slot
word, where it is `mcall`, or where the mark leaves the operand fields. -/
def routineOp (s : State) (loc k idx : Nat) (m : Nat → Nat) : Option Instr :=
  let w := (storeWord s loc k idx).toNat
  let n := bitsAt w 48 6 + 1
  let pos := bitsAt w 54 6
  let plain := w % 2 ^ 48
  if 2048 ≤ idx then none
  else if w / 2 ^ 63 = 0 then (match decodeWord .M plain with | some (.mcall _ _) => none | o => o)
  else if pos < 12 ∨ 48 < pos + n then none
  else
    match decodeWord .M (plain - bitsAt plain pos n * 2 ^ pos + m (bitsAt w 60 3) % 2 ^ n * 2 ^ pos) with
    | some (.mcall _ _) => none
    | o => o

/-- The guard of the routine's own operations, which move its place (R159). -/
def routineGuard : Instr → Guard
  | .mloop g _ _ _ => g | .mend g => g | .mendF g => g
  | _ => ⟨15, false⟩

/-- Where the routine stands after a word (R158, R159); go tells whether the word's predicate was true. While a body is
skipped, words only count nested levels. None ends the routine. A third open level answers the trap code 0x42, a `mend`
with no open level 0x01. -/
def routineNext (rt : Routine) (i : Instr) (go : Bool) (m : Nat → Nat) : Except Nat (Option Routine) :=
  let n := rt.word + 1
  if rt.skip ≠ 0 then
    match i with
    | .mloop _ _ _ _ => .ok (some { rt with word := n, skip := rt.skip + 1 })
    | .mend _ => .ok (some { rt with word := n, skip := rt.skip - 1 })
    | _ => .ok (some { rt with word := n })
  else if !go then .ok (some { rt with word := n })
  else match i with
    | .mloop _ count mi src =>
      let c := if src then m mi.toNat % 65536 else count.toNat
      if c = 0 then .ok (some { rt with word := n, skip := 1 })
      else if 2 ≤ rt.loops.length then .error 0x42
      else .ok (some { rt with word := n, loops := (c, n) :: rt.loops })
    | .mend _ =>
      match rt.loops with
      | [] => .error 0x01
      | (c, b) :: r => .ok (some (if 1 < c then { rt with word := b, loops := (c - 1, b) :: r }
          else { rt with word := n, loops := r }))
    | .mendF _ => .ok none
    | _ => .ok (some { rt with word := n })

/-- The words that M passes over before the next one it executes: a skipped body takes no bundle (R159). -/
def routineSkip (s : State) (loc k : Nat) (m : Nat → Nat) : Nat → Routine → Routine
  | 0, rt => rt
  | fuel + 1, rt =>
    if rt.skip = 0 then rt
    else match routineOp s loc k rt.word m with
      | some i => match routineNext rt i true m with
        | .ok (some rt') => routineSkip s loc k m fuel rt'
        | _ => rt
      | none => routineSkip s loc k m fuel { rt with word := rt.word + 1 }

/-- An m register as M finds it. -/
def seeM (s : State) (loc : Nat) (r : Nat) : Nat := (seeReg s loc .M ⟨.m, r⟩).val.toNat

/-- The operation of slot y in bundle j, issued or not; of M in its own next bundle while a routine runs, the routine's word (R158). -/
def opAhead (s : State) (loc j : Nat) (y : Slot) : Option Instr :=
  let q := s.seqAt loc
  let b := (bundleAt q j).bits
  if y = .M ∧ !b.present .M then
    match q.routine with
    | some r => if j = stepOf q .M then routineOp s loc j (routineSkip s loc j (seeM s loc) 2048 r).word (seeM s loc) else none
    | none => b.op y
  else b.op y

/-- Whether what M issues in bundle j is known: it has issued, or no routine runs and no earlier `mcall` that has yet to issue may start
one (R158). Where it is not, an operation whose order or draws depend on it waits for M. (DEDUCED, assumption 54) -/
def knownM (q : Seq) (j : Nat) : Bool :=
  decide (j < stepOf q .M) ||
  (q.routine.isNone && (List.range (j - stepOf q .M)).all (fun d =>
    match (bundleAt q (stepOf q .M + d)).bits.op .M with
    | some (.mcall _ _) => false
    | _ => true))

/-- The draws that slot y takes in bundle j: as logged when it issued, or as its operation there will take (R113). -/
def drawsAt (s : State) (loc j : Nat) (y : Slot) : Nat :=
  let q := s.seqAt loc
  if j < stepOf q y then q.drawn.look 0 (16 * j + y.num)
  else if rmodeAt q j ≠ 4 then 0
  else match opAhead s loc j y with
    | some i => drawsOf i
    | none => 0

/-- The generator state before the draws of slot x in bundle i (R113). -/
def genAt (s : State) (loc i : Nat) (x : Slot) : Nat :=
  let q := s.seqAt loc
  let seed := bitsAt (convAt q i).toNat 32 32
  let first := match q.srPrev with
    | some (b, 3, _) => if i ≤ b then b else q.seedIdx
    | _ => q.seedIdx
  let whole := ((List.range i).filter (fun j => first ≤ j)).map (fun j => (Slot.all.map (drawsAt s loc j)).sum)
  let here := ((Slot.all.filter (fun y => y.num < x.num)).map (drawsAt s loc i)).sum
  gSteps (16 * (whole.sum + here)) seed

/-- Move SEED past the draws of the bundles that every slot has issued (R113). -/
def foldDraws (q : Seq) : Seq :=
  let lo := loOf q
  if lo ≤ q.seedIdx then q
  else
    let old := q.drawn.filter (fun e => 16 * q.seedIdx ≤ e.1 && e.1 < 16 * lo)
    let g := gSteps (16 * (old.map (·.2)).sum) (bitsAt q.conv.toNat 32 32)
    { q with conv := BitVec.ofNat 64 (q.conv.toNat % 2 ^ 32 + g * 2 ^ 32), seedIdx := lo,
             drawn := q.drawn.filter (fun e => 16 * lo ≤ e.1) }

/-! ### Why an operation does not issue, and the operations of an act -/

/-- An operation that does not complete: its slot stalls, or it raises a trap, and nothing it has done stays (R8, R22); the
forms with a state keep that state, in which a walk has been asked for or its end has been taken (R323). -/
inductive Stop where
  | stall
  | trap (code info : Nat)
  | stallWith (s : State)
  | trapWith (s : State) (code info : Nat)

/-- What an operation does at issue. -/
abbrev Act := StateT State (Except Stop)

/-- Raise a trap (Table 3.21). -/
def Act.trap {α : Type} (code info : Nat) : Act α := fun _ => .error (.trap code info)
/-- Stall the slot. -/
def Act.stall {α : Type} : Act α := fun _ => .error .stall
/-- Raise a trap unless a condition holds. -/
def Act.check (ok : Bool) (code info : Nat) : Act Unit := fun s => if ok then .ok ((), s) else .error (.trap code info)
/-- Stall the slot unless a condition of the state holds. -/
def Act.await (ok : State → Bool) : Act Unit := fun s => if ok s then .ok ((), s) else .error .stall
/-- Translate for the issuing operation: it waits for a walk (R323). -/
def Act.xlate (a : Nat) (write : Bool) : Act Nat := fun s =>
  match translateFor s s.cur.loc s.me.task.vd a write with
  | (.ok pa, t) => .ok (pa, t)
  | (.bad c, t) => .error (.trapWith t c a)
  | (.wait, t) => .error (.stallWith t)
/-- A function of the state. -/
def Act.view {α : Type} (f : State → α) : Act α := fun s => .ok (f s, s)
/-- Change the state. -/
def Act.change (f : State → State) : Act Unit := fun s => .ok ((), f s)

/-- REPLAY.INFO without PEND, of a marked register consumed by a slot (Table 18.3). -/
def replayInfo (x : Slot) (r : Reg) : Nat := packBits [(16, 4, x.num), (4, 10, r.idx), (0, 4,
  match r.file with
  | .s => 1 | .v0 => 2 | .v1 => 3 | .k0 => 4 | .k1 => 5 | .m => 6 | .b => 7 | .w => 8 | .e => 9 | .y => 10 | .t => 11
  | .p => 12 | .c => 13)]

/-- Whether an in-flight entry of a sequencer awaits its reply. -/
def entryWaits (q : Seq) (k : Nat) : Bool := match q.ifr.find k with | some e => decide (e.state < 3) | none => false

/-- Whether a poison mark awaits its reply (Table 18.3): one that stands in the files, or one of a result that has not landed. -/
def markWaits (s : State) (loc : Nat) (r : Reg) : Bool :=
  let q := s.seqAt loc
  (if r.file = .c then (s.coreAt (coreOf loc)).cmarks.any (fun m => m.1 == r.idx && entryWaits (s.seqAt m.2.1) m.2.2)
   else q.poison.any (fun p => p.1 == r && entryWaits q p.2)) ||
  (q.pend ++ (q.frame.map (·.pend)).getD []).any (fun e => e.dst == some r && e.poison && !e.done)

/-- INFO of an error in structure n of a sequencer's own state (R348). -/
def ownStructure (n : Nat) : Nat := 0xFFFF000000000000 + n % 256

/-- The structure of the error mark on a register; one of the common file may have been noted with either sequencer (R348). -/
def regError (s : State) (loc : Nat) (r : Reg) : Option Nat :=
  (((s.seqAt loc).errs ++ (if r.file = .c then (s.seqAt (siblingOf loc)).errs else [])).find? (fun e => e.1 == some r)).map (·.2)

/-- Read a register at issue as slot x reads it (R23, R26, R88, R283, R348). -/
def readRegAs (x : Slot) (r : Reg) : Act Vec := fun s =>
  if r = ⟨.s, 0⟩ then .ok (0, s)
  else if r = ⟨.p, 15⟩ then .ok (1, s)
  else if waitsFor s s.cur.loc x r || waitsIssue s s.cur.loc x r then .error .stall
  else
    let v := seeReg s s.cur.loc x r
    match (regError s s.cur.loc r) with
    | some n => .error (.trap 0x70 (ownStructure n))
    | none =>
    match v.poison with
    | none => .ok (v.val, s)
    | some _ => .error (.trap 0x20 (replayInfo x r + 2 ^ 14 * bit (markWaits s s.cur.loc r)))

/-- Read a register in the issuing slot. -/
def readReg (r : Reg) : Act Vec := fun s => readRegAs s.cur.slot r s

/-- A register as an unsigned number. -/
def readNat (f : File) (i : Nat) : Act Nat := do return (← readReg ⟨f, i⟩).toNat

/-- The landing index of a result of the issuing operation: its bundle plus the latency, with the common-file write latency as the least
for the common file (R23, R27); a load's result never lands before that of an earlier load to the same register (R88).
(DEDUCED, assumption 55) -/
def landingOf (s : State) (r : Reg) (l : Nat) : Nat :=
  let li := s.here + landSteps s.me r.file l
  if s.cur.slot = .L then
    s.me.pend.foldl (fun n e => if e.slot = .L ∧ e.dst = some r ∧ e.live then Nat.max n e.li else n) li
  else li

/-- Deliver a result of the issuing operation (Table 3.21: Write). -/
def writeMasked (r : Reg) (l : Nat) (v : Vec) (mask sticky : Nat) : Act Unit := fun s =>
  let e : Pend :=
  { slot := s.cur.slot, dst := some r, val := v, mask := mask, poison := false, li := landingOf s r l,
    bundle := s.here, live := true, done := false, avail := true, moved := false, ifr := none, sticky := sticky,
    uid := 64 * s.free + s.me.pend.length % 64 }
  .ok ((), s.setMe (addPend s.me e))

/-- Deliver a whole result that raises no sticky bit. -/
def writeReg (r : Reg) (l : Nat) (v : Vec) : Act Unit := writeMasked r l v allBytes 0

/-- Set sticky bits that are due with a result that lands in no register. -/
def stickyAt (l sticky : Nat) : Act Unit := fun s =>
  if sticky = 0 then .ok ((), s)
  else
    let e : Pend :=
    { slot := s.cur.slot, dst := none, val := 0, mask := 0, poison := false, li := s.here + l,
      bundle := s.here, live := true, done := false, avail := true, moved := false, ifr := none, sticky := sticky,
      uid := 64 * s.free + s.me.pend.length % 64 }
    .ok ((), s.setMe (addPend s.me e))

/-- What a value becomes in a destination file (R78, R84): a predicate takes whether it is non-zero. -/
def fitFile (f : File) (v : Vec) : Vec :=
  if f.wide then v else if f = .p then BitVec.ofNat 512 (bit (v.setWidth 64 != 0#64)) else (v.setWidth 64).setWidth 512

/-! ### Traps (R335 to R344) -/

/-- Codes that a handler may take (Table 23.3). -/
def handledCode (c : Nat) : Bool := !(c == 0x10 || c == 0x70 || c == 0x71 || c == 0x7F)
/-- Codes of the fatal lane (Table 23.3). -/
def fatalCode (c : Nat) : Bool := c == 0x70 || c == 0x71 || c == 0x7F

/-- The code address of a bundle index: as fetched, or the next to fetch. -/
def bundleAddr (q : Seq) (i : Nat) : Nat :=
  if q.queue.has i then (bundleAt q i).addr else if i = q.nextIdx ∧ q.hold.isNone then q.pc else 0

/-- The trap record (Table 23.2). -/
def trapRecord (s : State) (loc slot i code info aux : Nat) : Nat :=
  let q := s.seqAt loc
  packBits ([(0, 8, code), (8, 1, bit (fatalCode code)), (9, 1, bit q.frame.isSome), (12, 4, slot),
    (16, 15, fullLoc s loc), (32, 16, q.task.vd), (64, 32, q.task.num), (96, 32, q.task.lseq), (128, 64, i),
    (192, 52, bundleAddr q i)] ++
    Slot.all.map (fun x => (256 + 6 * x.num, 6, wrap 6 ((stepOf q x : Int) - i))) ++
    [(320, 64, info), (384, 64, Nat.max (vtime s q.task.vd) q.last), (448, 16, aux)])

/-- A sequencer freezes: the waits that count time keep what has passed or what remains (R271, R309). -/
def stopClocks (now : Nat) (q : Seq) : Seq :=
  { q with halo := q.halo.map (fun h => { h with since := now - h.since }), sleepTo := q.sleepTo.map (fun t => t - now) }

/-- A frozen sequencer runs again: its waits count on. -/
def runClocks (now : Nat) (q : Seq) : Seq :=
  { q with halo := q.halo.map (fun h => { h with since := now - h.since }), sleepTo := q.sleepTo.map (now + ·) }

/-- Enter the handler or the replay routine: the trap frame is set aside and execution starts with empty pipelines (R343). The handler's
own draws go on from the generator state past the bundles that every slot had issued, and the transpose unit is free for it.
(DEDUCED, assumption 56) -/
def enterHandler (s : State) (loc pc rc : Nat) : State :=
  let s := landImage s loc
  let q := s.seqAt loc
  let f : Frame :=
  { steps := q.steps, lastSync := q.lastSync, pend := q.pend, queue := q.queue, nextIdx := q.nextIdx,
    pc := q.pc, hold := q.hold, loops := q.loops, seed := bitsAt q.conv.toNat 32 32, seedIdx := q.seedIdx,
    record := BitVec.ofNat 512 rc, routine := q.routine, ghosts := q.ghosts, drawn := q.drawn, srPrev := q.srPrev,
    skips := q.skips, xtrFree := q.xtrFree, sleepTo := q.sleepTo, barAt := q.barAt, halo := q.halo, haltAt := q.haltAt,
    latch := q.latch, era := s.free + 1 }
  s.setSeq loc
  { q with
    status := 1, frame := some f, steps := [], lastSync := [], pend := [], queue := [], nextIdx := 0,
    pc := pc, hold := none, loops := [], seedIdx := 0, drawn := [], srPrev := none, routine := none, ghosts := [],
    skips := [], xtrFree := 0, trapRec := BitVec.ofNat 512 rc, stalled := 0, halo := none, sleepTo := none, barAt := none,
    haltAt := none, latch := none }

/-- Leave the handler or the replay routine: the frame is restored with its generator state, and the sequencer stands frozen by
its trap again (R343). -/
def leaveHandler (s : State) (loc : Nat) : State :=
  let q := s.seqAt loc
  match q.frame with
  | none => s
  | some f => s.setSeq loc
    { q with
      status := 3, frame := none, steps := f.steps, lastSync := f.lastSync, pend := f.pend, queue := f.queue,
      nextIdx := f.nextIdx, pc := f.pc, hold := f.hold, loops := f.loops, seedIdx := f.seedIdx, record := f.record,
      routine := f.routine, ghosts := f.ghosts, drawn := f.drawn, srPrev := f.srPrev, skips := f.skips, xtrFree := f.xtrFree,
      sleepTo := f.sleepTo, barAt := f.barAt, halo := f.halo, haltAt := f.haltAt, latch := f.latch, stalled := 0,
      delivered := false,
      conv := BitVec.ofNat 64 (q.conv.toNat % 2 ^ 32 + f.seed * 2 ^ 32) }

/-- Where a withdraw must be acknowledged (R360): the 528 endpoints, the barrier tree and the four bridge stations. -/
def withdrawPlaces : List Nat := List.range 528 ++ [1024, 1100, 1101, 1102, 1103]

/-- Post a withdraw for a location's tag origin (R360). -/
def postWithdraw (s : State) (loc : Nat) : State := { s with withdraws := s.withdraws ++ [⟨loc, withdrawPlaces, []⟩] }

/-- Send a frozen trap to a delivery lane (R342, R345). A sequencer that awaits the end of its slice is frozen thereby, and saved so
(R332). -/
def deliverTrap (s : State) (loc code rc : Nat) : State :=
  let q := s.seqAt loc
  let s := match q.slice with
    | some _ => postWithdraw (s.setSeq loc { q with delivered := true, slice := none, save := 1 }) loc
    | none => s.setSeq loc { q with delivered := true }
  if fatalCode code then postFatal s (dieOf loc) q.task.vd rc else postLane s (dieOf loc) q.task.vd rc

/-- Take a trap on a sequencer: it freezes with per-slot precision, the record is made, and the trap goes to the replay
routine, to the handler or to a lane (R335, R340, R342). -/
def takeTrap (s : State) (loc slot i code info aux : Nat) : State :=
  let s := perf s loc 7 1
  let q := s.seqAt loc
  let rc := trapRecord s loc slot i code info aux
  let q := stopClocks s.now (if slot = Slot.num .L then { q with halo := none } else q)
  let q := { q with status := 3, record := BitVec.ofNat 512 rc, trapSlot := slot, stalled := 0 }
  let q := if code = 0x20 then { q with repInfo := BitVec.ofNat 64 (info - info / 2 ^ 14 % 2 * 2 ^ 14),
                                        repRet := BitVec.ofNat 64 (bundleAddr q i) } else q
  let s := s.setSeq loc q
  let replay := srAt q 4 i q.replay
  let tvec := srAt q 7 i q.tvec
  if code = 0x20 ∧ replay ≠ 0 ∧ q.frame.isNone then enterHandler s loc (bitsAt replay.toNat 6 46 * 64) rc
  else if handledCode code ∧ tvec ≠ 0 ∧ q.frame.isNone then enterHandler s loc (bitsAt tvec.toNat 6 46 * 64) rc
  else deliverTrap s loc code rc

/-- The issuing operation raises a trap. -/
def trapHere (s : State) (code info : Nat) : State := takeTrap s s.cur.loc s.cur.slot.num s.here code info 0

/-- An asynchronous trap freezes every slot at its step and names no slot; BINDEX is lo (R336, Table 23.2). -/
def asyncTrap (s : State) (loc code info aux : Nat) : State := takeTrap s loc 15 (loOf (s.seqAt loc)) code info aux

end Sys2Proof.Machine
end

