-- ==== Sys2Proof/Machine/RingDesc.lean ====
section
/-! DEFINITION. The fields of a bound ring's descriptor (Table 2.5), and what of a ring decides whether an operation may act on it (R47,
R92, R94, R96, R119, R152 to R155, R158, R160, R176). -/

namespace Sys2Proof.Machine

/-! ### The stream descriptor (Table 2.5) -/

/-- BASE. -/
def Ring.base (r : Ring) : Nat := bitsAt r.desc.toNat 0 52
/-- NDIM: the highest dimension in use. -/
def Ring.ndim (r : Ring) : Nat := bitsAt r.desc.toNat 268 2
/-- CNTi; 1 above NDIM. -/
def Ring.cnt (r : Ring) (i : Nat) : Nat := if i ≤ r.ndim then bitsAt r.desc.toNat (64 + 16 * i) 16 else 1
/-- STRIDEi; 0 above NDIM. -/
def Ring.stride (r : Ring) (i : Nat) : Int := if i ≤ r.ndim then sext 32 (bitsAt r.desc.toNat (128 + 32 * i) 32) else 0
/-- END. -/
def Ring.fin (r : Ring) : Nat := bitsAt r.desc.toNat 264 2
/-- DQ. -/
def Ring.dq (r : Ring) : Nat := bitsAt r.desc.toNat 266 2
/-- The code of FMT. -/
def Ring.fmtCode (r : Ring) : Nat := bitsAt r.desc.toNat 270 5
/-- FMT. -/
def Ring.fmt (r : Ring) : Fmt := (Fmt.ofCode r.fmtCode).getD .b8
/-- BLKLEN as a code. -/
def Ring.blk (r : Ring) : Nat := bitsAt r.desc.toNat 275 2
/-- BLKDIM. -/
def Ring.blkDim (r : Ring) : Nat := bitsAt r.desc.toNat 277 2
/-- COMP. -/
def Ring.comp (r : Ring) : Nat := bitsAt r.desc.toNat 279 3
/-- XRATIO. -/
def Ring.ratio (r : Ring) : Nat := bitsAt r.desc.toNat 282 4
/-- CHK. -/
def Ring.chk (r : Ring) : Nat := bitsAt r.desc.toNat 286 2
/-- SBASE. -/
def Ring.sbase (r : Ring) : Nat := bitsAt r.desc.toNat 320 52
/-- SSTRIDE. -/
def Ring.sstride (r : Ring) : Int := sext 32 (bitsAt r.desc.toNat 384 32)
/-- The at-rest width. -/
def Ring.width (r : Ring) : Nat := r.fmt.width
/-- The length of a scale block (Table 2.5). -/
def blockLen : Nat → Nat
  | 1 => 16 | 2 => 32 | 3 => 64
  | _ => 1
/-- The elements of the pattern. -/
def Ring.total (r : Ring) : Nat := r.cnt 0 * r.cnt 1 * r.cnt 2 * r.cnt 3
/-- The bits of the whole stream in entries; none for a gather ring and a drain into a queue, which have no length (R93). -/
def Ring.streamBits (r : Ring) : Option Nat :=
  if r.gather ∨ r.fin = 2 then none else some (ceilDiv (r.total * r.width) 512 * 512)
/-- The coordinates of element e, dimension 0 fastest (R31). -/
def Ring.coord (r : Ring) (e : Nat) : List Nat :=
  [e % r.cnt 0, e / r.cnt 0 % r.cnt 1, e / (r.cnt 0 * r.cnt 1) % r.cnt 2, e / (r.cnt 0 * r.cnt 1 * r.cnt 2)]
/-- The bit address of coordinates: dimension 0 of a format below a byte is packed (R31). -/
def Ring.bitAddr (r : Ring) (c : List Nat) : Int :=
  let far : Int := r.base + (c.getD 1 0 : Int) * r.stride 1 + (c.getD 2 0 : Int) * r.stride 2 + (c.getD 3 0 : Int) * r.stride 3
  if r.width < 8 then 8 * far + (c.getD 0 0 : Int) * r.width else 8 * (far + (c.getD 0 0 : Int) * r.stride 0)
/-- The address of the scale of element e (R148). -/
def Ring.scaleAddr (r : Ring) (e : Nat) : Nat :=
  let l := blockLen r.blk
  let c := r.coord e
  let b := fun i => if i = r.blkDim then c.getD i 0 / l else c.getD i 0
  let n := fun i => if i = r.blkDim then ceilDiv (r.cnt i) l else r.cnt i
  ((r.sbase : Int) + ((b 0 + n 0 * (b 1 + n 1 * (b 2 + n 2 * b 3)) : Nat) : Int) * r.sstride).toNat

/-- Whether a ring may be the source of an operation typed t (R119). -/
def ringTypeOk (r : Ring) (t : Fmt) : Bool :=
  r.blk == 0 &&
  (if t = .b32 ∨ t = .s32 then r.fmt.isInt && decide (r.width ≤ 32)
   else if t = .f32 then !r.fmt.isInt
   else (t == .f16 || t == .bf16) && r.fmt == t)

/-- DIR of a ring's descriptor (Table 2.5). -/
def Ring.dir (r : Ring) : Bool := r.desc.getLsbD 256

/-- The entries of a ring: its declared depth (R30, Table 2.9). -/
def ringDepth (q : Seq) (n : Nat) : Nat :=
  match q.task.depths.getD n 0 with
  | 1 => 8 | 2 => 16 | 3 => 32 | 4 => 64 | _ => 0

/-- Whether a ring is bound in a direction (R47). -/
def boundDir (q : Seq) (n : Nat) (out : Bool) : Bool :=
  match q.rings.find n with
  | some r => r.dir == out
  | none => false

/-- Whether the ring of an array operation suits it (R152): its direction, format, scaling, and no gather under scaling. -/
def arrayRingOk (q : Seq) (n : Nat) (af : Fmt) (scaled : Bool) : Bool :=
  boundDir q n false && (q.rings.find n).all (fun r => r.fmt == af && ((r.blk != 0) == scaled) && !(scaled && r.gather))

/-- Whether the ring of an `mlar` of kn rows suits it (R155). -/
def larderRingOk (q : Seq) (n kn : Nat) : Bool :=
  boundDir q n false && (q.rings.find n).all (fun r =>
    (match r.fmt.arrayClass with | some c => decide (kn ≤ c.slab) | none => false) &&
    (r.blk == 0 || (!r.gather && r.blkDim == 1 && r.cnt 0 == 256)))

/-- Whether a drain queue is no ring's drain target (R154, R160). -/
def dqUnbound (q : Seq) (n : Nat) : Bool := !q.rings.any (fun r => r.2.fin == 2 && r.2.dir && r.2.dq == n)

/-- Whether the two rings of an `xexp` are bound as it needs them (R176). -/
def expandRingsOk (q : Seq) (d a : Nat) (t : Fmt) : Bool :=
  (q.rings.find a).all (fun r => r.fmt == .b8 && r.comp == 0 && r.blk == 0 && !r.gather) &&
  (q.rings.find d).all (fun r => r.comp == 0 && r.fmt == t)

/-- What an operation asks of the rings, drain queues and routine of its sequencer before any operand is read: where it does not hold the
operation raises trap 0x01, whatever its predicate (R21, R47). (DEDUCED, assumption 45) -/
def ringsOk (q : Seq) (i : Instr) : Bool :=
  (readRingsOf i).all (fun n => boundDir q n false) &&
  (match pushOf i with | some n => boundDir q n true | none => true) &&
  (match ringType i with | some t => (readRingsOf i).all (fun n => (q.rings.find n).all (fun r => ringTypeOk r t)) | none => true) &&
  (match i with
   | .vxmov _ _ _ _ => (readRingsOf i).all (fun n => (q.rings.find n).all (fun r => r.blk == 0))
   | .qwait _ n c | .qadv _ n c => (q.rings.find n.toNat).isSome && decide (c.toNat ≤ ringDepth q n.toNat)
   | .mmac _ _ n af _ _ _ _ => arrayRingOk q n.toNat af false
   | .mmacs _ _ n af _ _ _ _ _ => arrayRingOk q n.toNat af true
   | .mlar _ n kn _ _ => larderRingOk q n.toNat kn.toNat
   | .mdrain _ d _ _ _ _ _ | .mcntRd _ d _ | .mcntSnap _ d _ => dqUnbound q d.toNat
   | .mloop _ _ _ _ | .mend _ | .mendF _ => q.routine.isSome
   | .xexp _ d a _ t _ => expandRingsOk q d.toNat a.toNat t
   | _ => true)

end Sys2Proof.Machine
end

