-- ==== Sys2Proof/Machine/Issue.lean ====
section
/-! DEFINITION. The issue of one operation of one slot (R22 to R29, R35, R46 to R53, R72 to R77, R99): fetch and its next
address, what stalls a slot, legality, predicates, the advance of the step, safe points, the end of a task. -/

namespace Sys2Proof.Machine

/-! ### Fetch (R72 to R76, R337) -/

/-- The next fetch address after the bundle at an address, and the loop stack then, where no transfer is taken (R76). -/
def nextPc (a : Nat) : List LoopLevel → Nat × List LoopLevel
  | [] => (a + 64, [])
  | l :: ls =>
    if a ≠ l.fin then (a + 64, l :: ls)
    else if 1 < l.count then (l.fin - (l.len - 1) * 64, { l with count := l.count - 1 } :: ls)
    else nextPc a ls

/-- Loop levels left by a transfer to a target (R74). -/
def leaveLoops (target : Nat) : List LoopLevel → List LoopLevel
  | [] => []
  | l :: ls => if l.fin - (l.len - 1) * 64 ≤ target ∧ target ≤ l.fin then l :: ls else leaveLoops target ls

/-- Whether a bundle holds a control transfer in a present S slot (R72). -/
def holdsTransfer (x : Bundle) : Bool := match opOfS x with | some i => isTransfer i | none => false

/-- How a fetch of code bytes ends: the bundle, or a trap code with its INFO. -/
def fetchBits (s : State) (q : Seq) (pc : Nat) : Except (Nat × Nat) Bundle :=
  let va := q.task.bco + q.task.codeOff + pc
  match translate s q.task.vd va false with
  | .ok pa =>
    match errorMark s ((List.range 64).map (pa + ·)) with
    | some a => .error (0x70, a)
    | none => .ok (BitVec.ofNat 512 (ofBytes ((List.range 64).map (fun j => walkByte s (pa + j)))))
  | .bad c => .error (c, va)
  | .wait => .error (0x10, va)

/-- Fetch the next bundle of a sequencer: past the code section no bundle exists (R76). (DEDUCED, assumption 17) -/
def fetchNext (s : State) (loc : Nat) : Except (Nat × Nat) State :=
  let q := s.seqAt loc
  let k := q.nextIdx
  if q.task.codeLen ≤ q.pc then
    .ok (s.setSeq loc { q with queue := q.queue.put k ⟨q.pc, 0, true⟩, nextIdx := k + 1, hold := some k })
  else
    match fetchBits s q q.pc with
    | .error e => .error e
    | .ok b =>
      let q := { q with queue := q.queue.put k ⟨q.pc, b, true⟩, nextIdx := k + 1 }
      if holdsTransfer b then .ok (s.setSeq loc { q with hold := some k })
      else
        let (pc, loops) := nextPc q.pc q.loops
        .ok (s.setSeq loc { q with pc := pc, loops := loops })

/-- Fetch waits for no transfer at bundle k: it goes on after the bundle's address (R76). -/
def letGo (q : Seq) (k : Nat) : Seq :=
  if q.hold = some k then
    let (pc, loops) := nextPc (bundleAt q k).addr q.loops
    { q with hold := none, pc := pc, loops := loops }
  else q

/-- Fetch bundle k of the queue image again, under its index (R337): where S has yet to issue it and its code now holds no transfer,
fetch does not wait for it; behind a `halt` that S has issued it stays held (R77). -/
def fetchAgain (s : State) (loc k : Nat) : Except (Nat × Nat) State :=
  let q := s.seqAt loc
  let f := bundleAt q k
  if q.task.codeLen ≤ f.addr then .ok (s.setSeq loc { q with queue := q.queue.put k ⟨f.addr, 0, true⟩ })
  else
    match fetchBits s q f.addr with
    | .error e => .error e
    | .ok b =>
      let q := { q with queue := q.queue.put k ⟨f.addr, b, true⟩ }
      .ok (s.setSeq loc (if holdsTransfer b || decide (k < stepOf q .S) then q else letGo q k))

/-- Fetch again every bundle that is not at hand; one whose fetch fails stays so, and the slots that reach it raise its trap (R337). -/
def refill (s : State) (loc : Nat) : State :=
  ((s.seqAt loc).queue.filter (fun f => !f.2.here)).foldl (fun t f =>
    match fetchAgain t loc f.1 with
    | .ok u => u
    | .error _ => t) s

/-- The queue image of a sequencer that will fetch its bundles again on resume (R337). -/
def unfetched (queue : Tab Fetched) : Tab Fetched := queue.map (fun f => (f.1, { f.2 with here := false }))

/-! ### The end of a task (R77, R302, R345) -/

/-- Whether a launch of a die is ready there (R301). -/
def launchReady (s : State) (d : Nat) (l : Launch) : Bool :=
  bitsAt l.pkt.toNat 736 1 == 0 ||
  !(s.dieAt d).launches.any (fun e => e.lseq == bitsAt l.pkt.toNat 704 32 && !(e.todo.all (·.2.isEmpty) && e.halted == e.share))

/-- Post the launch-complete events that are due on a die and let those launches go (R302). -/
def completeLaunches (d : Nat) : Nat → State → State
  | 0, s => s
  | fuel + 1, s =>
    match (s.dieAt d).launches.find? (fun l => l.todo.all (·.2.isEmpty) && l.halted == l.share && launchReady s d l) with
    | none => s
    | some l =>
      let k := s.dieAt d
      let s := s.setDie d { k with launches := k.launches.filter (fun e => e.lseq != l.lseq) }
      let vd := bitsAt l.pkt.toNat 16 16
      completeLaunches d fuel (postEvent s d vd (fullLoc s (64 * d)) 2 l.lseq (bitsAt l.pkt.toNat 768 32) l.share)

/-- Count one halted task of a location's launch (R302). -/
def taskHalted (s : State) (loc : Nat) : State :=
  let q := s.seqAt loc
  let d := dieOf loc
  let k := s.dieAt d
  let s := s.setDie d { k with launches := k.launches.map (fun l =>
    if l.lseq = q.task.lseq then { l with halted := l.halted + 1 } else l) }
  completeLaunches d (k.launches.length + 1) s

/-- The trap record of a fail mark that no `cwait` or `cstat` has reported when its task halts (R232, R345). -/
def markRecord (s : State) (loc code info aux : Nat) : Nat := trapRecord s loc 15 (loOf (s.seqAt loc)) code info aux

/-- Send every unreported fail mark of a sequencer to the replayable lane, lower ids first on each channel. -/
def reportMarks (s : State) (loc : Nat) : State :=
  let q := s.seqAt loc
  (q.chans.flatMap (fun c => c.2.fails)).foldl
    (fun t f => postLane t (dieOf loc) q.task.vd (markRecord s loc f.2.1 f.2.2 0)) s

/-- Whether a party that has left belonged to a grid: device, tensor name and party table (R268). -/
def Gone.of (x : Gone) (vd : Nat) (g : Grid) : Bool := x.vd == vd && x.tname == bitsAt g.desc.toNat 0 24 && x.parties == g.parties

/-- What is kept of the parties of a grid that have left it, once party g.self leaves too: nothing when every party in this module has. -/
def leftParties (s : State) (vd : Nat) (g : Grid) : List Gone :=
  let others := s.gone.filter (fun x => !x.of vd g)
  let these := ⟨vd, bitsAt g.desc.toNat 0 24, g.parties, g.self, g.step⟩ :: s.gone.filter (fun x => x.of vd g && x.self != g.self)
  let own := (List.range g.parties.length).filter (fun j => g.parties.getD j 0 / 512 == s.module)
  if own.all (fun j => these.any (fun x => x.self == j)) then others else these ++ others

/-- The other parties of a grid that its party leaves learn its committed step (R268): the grids of the device with its tensor
name and party table, and those that are declared later. -/
def noteStep (s : State) (vd : Nat) (g : Grid) : State :=
  { s with
    gone := leftParties s vd g
    seqs := s.seqs.map (fun e =>
      if e.2.task.vd = vd then
        (e.1, { e.2 with grids := e.2.grids.map (fun h =>
          if bitsAt h.2.desc.toNat 0 24 = bitsAt g.desc.toNat 0 24 ∧ h.2.parties = g.parties ∧ h.2.self ≠ g.self then
            (h.1, { h.2 with known := h.2.known.put g.self (max (h.2.known.look (-1) g.self) g.step) })
          else h) })
      else e) }

/-- Every grid of a sequencer that becomes idle. -/
def noteGrids (s : State) (loc : Nat) : State :=
  ((s.seqAt loc).grids.map (·.2)).foldl (fun t g => noteStep t (s.seqAt loc).task.vd g) s

/-- Leave a sequencer idle (R77): its transfers go on, marked as those of a task that has halted. -/
def becomeIdle (s : State) (loc : Nat) : State :=
  let s := noteGrids (reportMarks s loc) loc
  let q := s.seqAt loc
  let s := s.setSeq loc
    { q with
      status := 0, loops := [], queue := [], hold := none, skips := [], frame := none, pend := [], ghosts := [],
      ended := false, haltAt := none, stalled := 0, slice := none, sleepTo := none, barAt := none, load := none,
      halo := none, latch := none, delivered := false, grids := [], routine := none, tiles := [],
      fills := [], chans := q.chans.map (fun c => (c.1, { c.2 with fails := [] })),
      ifr := q.ifr.map (fun e => (e.1, { e.2 with halted := true })) }
  taskHalted s loc

/-- Whether a transfer is pinned to a ghost map of a location's grid slot, or of any of them (R275). -/
def ghostPinned (s : State) (loc : Nat) (slot : Option Nat) : Bool :=
  let e := s.epAt (coreOf loc)
  e.arrive.any (fun a => a.pins.any (fun p => match e.maps.find p.1 with
    | some m => (match m.ghost with
      | some (l, g, _) => l == loc && (match slot with | some n => n == g | none => true)
      | none => false)
    | none => false))

/-- The ghost maps of a location's grid slot, or of all of them, leave the endpoint (R275). -/
def dropGhosts (s : State) (loc : Nat) (slot : Option Nat) : State :=
  let e := s.epAt (coreOf loc)
  s.setEp (coreOf loc) { e with maps := e.maps.filter (fun m => match m.2.ghost with
    | some (l, g, _) => !(l == loc && (match slot with | some n => n == g | none => true))
    | none => true) }

/-- Whether an in-flight entry of the running task delivers to a register (R77). -/
def awaitsRegister (q : Seq) : Bool :=
  q.ifr.any (fun e => !e.2.halted && e.2.dst.isSome && decide (e.2.state < 3)) || q.pend.any (fun e => e.live && !e.avail)

/-- Whether the bundle of `halt` has issued in every slot (R77). -/
def halting (q : Seq) : Bool := match q.haltAt with | some k => decide (k < loOf q) | none => false

/-- Whether a tile write or a Larder fill of a sequencer is still to land (R77, R143, R155). -/
def awaitsTile (q : Seq) : Bool := !q.tiles.isEmpty || q.fills.any (fun f => f.done.isNone)

/-- Whether the boundary layers of a commit are still to be copied (R268, R276). -/
def awaitsCopy (q : Seq) : Bool := q.grids.any (fun g => g.2.copy.isSome)

/-- End the task when its `halt` bundle has issued in every slot and what R77 waits for is over, or when a trap disposed of
with End has no entry left (R344). -/
def tryFinish (s : State) (loc : Nat) : State :=
  let q := s.seqAt loc
  if q.ended then
    if q.ifr.all (fun e => e.2.halted) && !ghostPinned s loc none then becomeIdle (dropGhosts s loc none) loc else s
  else if q.status = 1 ∧ halting q ∧ !awaitsRegister q ∧ !awaitsTile q ∧ !awaitsCopy q ∧ !ghostPinned s loc none then
    let s := landAll s loc
    let s := match (s.seqAt loc).frame with
      | some f => landAll (s.setSeq loc { s.seqAt loc with pend := f.pend, frame := none }) loc
      | none => s
    becomeIdle (dropGhosts s loc none) loc
  else s

/-! ### Advancing a slot -/

/-- Freeze a sequencer for a save: its steps stand, no trap is recorded, and a withdraw is posted (R332, R360). -/
def freezeForSave (s : State) (loc : Nat) : State :=
  let q := s.seqAt loc
  postWithdraw (s.setSeq loc { stopClocks s.now q with status := 3, slice := none, save := 1, stalled := 0 }) loc

/-- The first safe point that a sequencer awaiting a slice end has not passed (R332). -/
def safePointOf (q : Seq) : Option Nat :=
  match q.slice with
  | none => none
  | some _ => (q.queue.find? (fun f => f.2.bits.safePoint)).map (·.1)

/-- The slot has issued its bundle: its step rises, its sync bit is noted, what is due lands, and the fetched bundles that
every slot has issued leave the queue (R22, R26, R337). A safe point that has issued ends the slice that awaits it
(R38, R332). -/
def advance (s : State) : State :=
  let loc := s.cur.loc
  let x := s.cur.slot
  let q := s.me
  let k := stepOf q x
  let b := (bundleAt q k).bits
  let drew := if rmodeAt q k = 4 then (match opAhead s loc k x with | some i => drawsOf i | none => 0) else 0
  let point := safePointOf q
  let q := { q with
    steps := q.steps.put x.num (k + 1),
    lastSync := if b.sync x || holdsSysOp b then q.lastSync.put x.num (k + 1) else q.lastSync,
    drawn := if drew = 0 then q.drawn else q.drawn.put (16 * k + x.num) drew,
    stalled := 0,
    skips := q.skips.filter (· != (x.num, k)) }
  let q := foldDraws q
  let s := if Slot.all.all (fun y => y == x || decide (stepOf q y ≤ k)) then perf s loc 1 1 else s
  let s := pruneGhosts (settle { s.setMe q with free := s.free + 1 } loc) loc
  let q := s.seqAt loc
  let lo := loOf q
  let s := s.setSeq loc { q with queue := q.queue.filter (fun f => lo ≤ f.1) }
  match point with
  | some p => if p < lo ∧ q.status = 1 then freezeForSave s loc else tryFinish s loc
  | none => tryFinish s loc

/-- The slot stalls (R22). -/
def stallHere (s : State) : State :=
  s.setMe { s.me with stalled := Nat.lor s.me.stalled (2 ^ s.cur.slot.num) }

/-! ### Operations whose predicate is false (R21, R29) -/

/-- An operand's low 64 bits without checks, for the window a void operation is judged by (R29). -/
def peekNat (s : State) (o : Opnd) : Nat :=
  match opndReg s.cur.slot o with
  | some r => (seeReg s s.cur.loc s.cur.slot r).val.toNat % 2 ^ 64
  | none => 0

/-- The window class that the address of an operation names; 11 where it lies in none (R29). -/
def windowClass (s : State) (i : Instr) : Nat :=
  let a := match i with
    | .ld _ _ a b _ _ | .vld _ _ a b _ | .vldu _ _ a b _ => (peekNat s a + peekNat s b) % 2 ^ 64
    | _ => peekNat s ((srcsOf i).headD (.own 0))
  (windowOf a 1).getD 11

/-- The latency of the issuing operation's result in steps. -/
def latSteps (s : State) (i : Instr) : Nat :=
  match latOf i with
  | .cls c => latency s.me c
  | .fix n => n
  | .win => latency s.me (windowClass s i)

/-- The destinations of an operation whose predicate is false still take part in collisions (R27, R29). -/
def voidDests (i : Instr) (s : State) : State :=
  (destsOf s.cur.slot i).foldl (fun t r =>
    t.setMe (addPend t.me
      { slot := t.cur.slot, dst := some r, val := 0, mask := 0, poison := false, li := landingOf t r (latSteps s i),
        bundle := t.here, live := false, done := false, avail := true, moved := false, ifr := none, sticky := 0,
        uid := 64 * t.free + t.me.pend.length % 64 })) s

/-- A control transfer that is not taken: fetch goes on at the next address (R72, R76). -/
def notTaken (s : State) : State := if s.cur.slot = .S then s.setMe (letGo s.me s.here) else s

/-- Issue an operation whose predicate is false (R21). -/
def voidIssue (i : Instr) (s : State) : State := advance (notTaken (voidDests i s))

/-! ### What holds a slot back -/

/-- Whether another slot has yet to issue an earlier operation on one of the operation's rings, or one of the same bundle that pops one of
its drain queues; where what M issues there is not known, the operation waits for M (R95, R99, R141). -/
def ringBlocked (s : State) (i : Instr) : Bool :=
  let q := s.me
  let x := s.cur.slot
  let rs := ringsOf i
  let ds := dqsOf i
  (!rs.isEmpty && Slot.all.any (fun y => y != x &&
    (List.range (s.here + bit (decide (y.num < x.num)) - stepOf q y)).any (fun d =>
      (y == .M && !knownM q (stepOf q y + d)) ||
      match opAhead s s.cur.loc (stepOf q y + d) y with
      | some o => (ringsOf o).any (fun r => rs.contains r)
      | none => false))) ||
  (!ds.isEmpty && Slot.all.any (fun y => decide (y.num < x.num) && decide (stepOf q y ≤ s.here) &&
    match s.bundle.bits.op y with
    | some o => (dqsOf o).any (fun d => ds.contains d)
    | none => false))

/-- Whether the draws before the operation's own are not known yet, because M has not come far enough (R113, R158). -/
def drawsUnknown (s : State) (i : Instr) : Bool :=
  drawsOf i != 0 && s.cur.slot != .M && rmodeAt s.me s.here == 4 &&
  !knownM s.me (s.here + bit (decide (Slot.num .M < s.cur.slot.num)) - 1)

/-- Whether the issue would take the slot's pipe image past its 64 entries (R338). -/
def imageFull (s : State) (i : Instr) : Bool :=
  let n := match i with
    | .ldr _ _ _ _ _ _ _ | .ratom _ _ _ _ _ _ _ _ _ => 0
    | .xtr _ _ _ _ => (destsOf s.cur.slot i).length
    | _ => if latOf i = .win && windowClass s i == 13 then 0 else (destsOf s.cur.slot i).length
  n != 0 && decide (Config.pipeEntries < (s.me.pend.filter (fun e => e.slot == s.cur.slot && inImage s.me e)).length + n)

/-! ### Legality at issue (R20, R28, R47, R51, R52, R79) -/

/-- The rights of Table 26.4: reading and writing a system register in task mode and in supervisor mode. -/
def sysRight (sup write : Bool) (n : Nat) : Bool :=
  if n = 0x000 ∨ n = 0x003 ∨ n = 0x004 ∨ n = 0x007 ∨ n = 0x008 ∨ n = 0x009 then true
  else if n = 0x00A then write
  else if n = 0x200 then sup
  else !write && (n == 0x001 || n == 0x002 || n == 0x005 || n == 0x006 || (0x010 ≤ n && n ≤ 0x017) ||
    (0x100 ≤ n && n ≤ 0x102) || (0x104 ≤ n && n ≤ 0x107) || (0x110 ≤ n && n ≤ 0x11F))

/-- Whether an operation may issue in its slot; otherwise it raises trap 0x01 whatever its predicate (R21, R52).
(DEDUCED, assumption 45) -/
def legal (s : State) (i : Instr) : Bool :=
  let q := s.me
  let x := s.cur.slot
  i.wf && (supervisor q || !isSupervisor i) &&
  (windowed x i).all (fun r => r.idx < fileSize q r.file) &&
  (match tileOf i with | some n => decide (n < q.task.winAcc) | none => true) &&
  decide (commonReads i ≤ s.bundle.bits.ports x) && ringsOk q i &&
  (match i with
   | .rdsr _ _ n => sysRight (supervisor q) false n.toNat
   | .wrsr _ n _ => sysRight (supervisor q) true n.toNat
   | _ => true)

/-! ### Issue -/

/-- Whether the operation's predicate holds (R21), read as slot x reads it at issue. -/
def guardHolds (g : Guard) : Act Bool := do
  let v ← readReg ⟨.p, g.pred.toNat⟩
  return (v != 0) != g.inv

/-- An operation that did not complete (R8, R22). -/
def stopHere (s : State) : Stop → State
  | .stall => stallHere s
  | .trap c n => trapHere s c n
  | .stallWith t => stallHere t
  | .trapWith t c n => trapHere t c n

/-- Issue an operation with its act; fin is what follows the act, void what happens when the predicate is false or a trap
is passed over (R21 to R24, R52, R335, R344). -/
def issueFull (fin void : State → State) (i : Instr) (g : Guard) (act : Act Unit) (s : State) : State :=
  if s.me.skips.contains (s.cur.slot.num, s.here) then void s
  else if ringBlocked s i then stallHere (perf s s.cur.loc 3 1)
  else if !legal s i then trapHere s 0x01 0
  else match guardHolds g s with
    | .error e => stopHere s e
    | .ok (false, t) => void t
    | .ok (true, t) =>
      if imageFull t i || drawsUnknown t i then stallHere t
      else match act t with
        | .ok (_, u) => fin u
        | .error e => stopHere t e

/-- Issue an operation with its act; fin is what follows the act. -/
def issueWith (fin : State → State) (i : Instr) (g : Guard) (act : Act Unit) (s : State) : State :=
  issueFull fin (voidIssue i) i g act s

/-- The guard of an operation whose wait has begun: it was judged when the wait began. (DEDUCED, assumption 27) -/
def begunGuard (begun : Bool) (g : Guard) : Guard := if begun then ⟨15, false⟩ else g

/-- The operand that an operation reads at its first attempt to issue: as latched then, or read now (R276). -/
def latched (rd : Act Nat) : Act Nat := fun s =>
  match s.me.latch with
  | some (x, b, v) => if x = s.cur.slot.num ∧ b = s.here then .ok (v, s) else rd s
  | none => rd s

/-- Whether the issuing operation has an operand latched: its wait has begun. -/
def waitBegun (s : State) : Bool :=
  match s.me.latch with
  | some (x, b, _) => decide (x = s.cur.slot.num ∧ b = s.here)
  | none => false

/-- Stall until a condition holds, and keep the operand that was read. -/
def awaitLatched (v : Nat) (ok : State → Bool) : Act Unit := fun s =>
  if ok s then .ok ((), s) else .error (.stallWith (s.setMe { s.me with latch := some (s.cur.slot.num, s.here, v) }))

/-- Keep the state that a wait has begun with, and stall. -/
def Act.hold {α : Type} (f : State → State) : Act α := fun s => .error (.stallWith (f s))

/-- Issue an operation: after its act the slot advances. -/
def issue (i : Instr) (g : Guard) (act : Act Unit) (s : State) : Host.Outcome State Fault Refusal :=
  .next (issueWith advance i g act s)

/-! ### A slot's turn -/

/-- What a slot does when it is its turn: an operation to execute, or a state already reached. -/
inductive Turn where
  | run (i : Instr) (s : State)
  | over (s : State)

/-- Whether an entry that an acquire form waits for is still to be performed: an access until its answer, a transfer until it has read n
beats, a `cget` until its source has, a card until it has read (R185, R250, R258). -/
def acquireLeft (s : State) (e : Ifr) (n : Nat) : Bool :=
  !e.halted && decide (e.state < 3) &&
  (match e.kind with
   | 7 | 10 => decide (e.beats < n)
   | 8 => s.net.any (fun p => p.key == e.key && (match p.kind with | .ask _ => true | _ => false))
   | 9 => e.total == 0
   | _ => true)

/-- Whether an acquire form issued in an earlier bundle holds back a slot's bundle k: the later W operations wait for it, and
every slot at a bundle that carries its sync bit (R250). -/
def acquireWaits (s : State) (loc : Nat) (x : Slot) (k : Nat) (sync : Bool) : Bool :=
  let q := s.seqAt loc
  (x == .W || sync) && q.ifr.any (fun e => match e.2.acq with
    | some (n, era, b) => (era != eraOf q || decide (b < k)) && acquireLeft s e.2 n
    | none => false)

/-- Whether the engine's copy of a commit's boundary layers holds back a W or C operation: one in a later bundle than the `gstep` with its
slot's sync bit at or after that bundle (R276). -/
def copyWaits (q : Seq) (x : Slot) (k : Nat) : Bool :=
  (x == .W || x == .C) && q.grids.any (fun g => match g.2.copy with
    | some (era, b) => era != eraOf q || (decide (b < k) && decide (b < syncOf q x))
    | none => false)

/-- Whether a reissued transfer of a sequencer is still to send: its beats go out before any slot issues (R361). -/
def reissueHolds (q : Seq) : Bool :=
  q.ifr.any (fun e => e.2.again && e.2.state == 1 && e.2.fault == 0 && decide (e.2.beats < e.2.total))

/-- The bundle of a slot's step is there: slip, sync bits, system-register bundles, the header, and the operation (R24, R40,
R41, R53, R76, R79, R158). -/
def turnAt (s : State) (loc : Nat) (x : Slot) : Turn :=
  let s := { s with cur := ⟨loc, x⟩ }
  let q := s.seqAt loc
  let k := stepOf q x
  let lo := loOf q
  let f := bundleAt q k
  let sync := f.bits.sync x || holdsSysOp f.bits
  let skip := q.skips.contains (x.num, k)
  if lo + 16 < k then .over (stallHere s)
  else if sync && decide (lo < k) then .over (stallHere s)
  else if decide (0 < k) && holdsSysOp (bundleAt q (k - 1)).bits && decide (stepOf q .S < k) then .over (stallHere s)
  else if (match safePointOf q with | some p => decide (p < k) | none => false) then .over (stallHere s)
  else if acquireWaits s loc x k sync || copyWaits q x k then .over (stallHere s)
  else if q.task.codeLen ≤ f.addr then (if skip then .over (voidIssue .fetchBeyondCode s) else .run .fetchBeyondCode s)
  else if f.bits.headerBad then
    if skip then .over (voidIssue .noOperation s) else .over (trapHere s 0x01 0)
  else if x = .M ∧ q.routine.isSome then .run .routineWordIssue s
  else match f.bits.op x with
    | some i => .run i s
    | none => if skip then .over (voidIssue .noOperation s) else .over (trapHere s 0x01 0)

/-- The slot's next bundle cannot be fetched: the slot raises the trap, or passes over it (R344), and fetch waits at the bundle. -/
def fetchFails (s : State) (loc : Nat) (x : Slot) (code info : Nat) : State :=
  let q := s.seqAt loc
  let k := stepOf q x
  if q.skips.contains (x.num, k) then
    voidIssue .noOperation (if q.queue.has k then s
      else s.setSeq loc { q with queue := q.queue.put k ⟨q.pc, 0, false⟩, nextIdx := k + 1, hold := some k })
  else trapHere s code info

/-- Whether a sequencer must not issue for the sake of its slice: the grace window of its end has passed (R332), records of its device
that were withheld have not been released to the host though its ring takes them (R329, R345, R377), or a reissued transfer is still to send (R361). -/
def sliceHolds (s : State) (loc : Nat) : Bool :=
  let q := s.seqAt loc
  (match q.slice with | some t => decide (t < s.now) | none => false) ||
  (ringOpen (s.dieAt (dieOf loc)) 0 && (s.dieAt (dieOf loc)).lane.any (fun r => r.held && r.vd == q.task.vd)) || reissueHolds q

/-- The turn of a slot of a sequencer: nothing for one that does not run, a fetch where the bundle is the next one, and a
stall where fetch waits (R22, R24, R72, R337). -/
def turn (s : State) (loc : Nat) (x : Slot) : Turn :=
  let s := { s with cur := ⟨loc, x⟩ }
  let q := s.seqAt loc
  let k := stepOf q x
  if q.status ≠ 1 then .over s
  else if sliceHolds s loc then .over (stallHere s)
  else if q.queue.has k then
    let s := refill s loc
    if (bundleAt (s.seqAt loc) k).here then turnAt s loc x
    else match fetchAgain s loc k with
      | .ok t => turnAt t loc x
      | .error (c, info) => .over (fetchFails s loc x c info)
  else if k ≠ q.nextIdx ∨ q.hold.isSome ∨ loOf q + 16 < k then .over (stallHere s)
  else match fetchNext s loc with
    | .ok t => turnAt t loc x
    | .error (c, info) => .over (fetchFails s loc x c info)

end Sys2Proof.Machine
end

