-- ==== Sys2Proof/Machine/Fetch.lean ====
section
/-! DEFINITION. A sequencer that stands at one given bundle: what State.withFetchWord of Step.lean is made of. -/

namespace Sys2Proof.Machine

/-- Where the bundle is placed: physical offset 0 of die 0's GDDR 7 tier, at this device virtual address. -/
def placeVa : Nat := 0x100000000

/-- A code object of one bundle, with every window, ring and latency at its largest or its default. -/
def placeTask : Task :=
  { Task.none with
    bco := placeVa, codeLen := 64, winV0 := 768, winV1 := 768, winT := 32, winAcc := 32, winLar := 32,
    depths := List.replicate 32 4 }

/-- The slot that holds the operation: the first present one in slot order. -/
def placeSlot (b : Bundle) : Slot := (Slot.all.find? b.present).getD .S

/-- Sequencer 0 at a bundle, in a task of the supervisor device, with nothing else of the module changed but what the fetch
needs: power, the translation of the bundle's page, its bytes, the first choice on the slot units, and the move that issues it. -/
def placeBundle (s : State) (b : Bundle) : State :=
  let s := { s with power := true, agenda := [(0, .issue 0 (placeSlot b))] }
  let s := s.setVd 0 { s.vdAt 0 with
    ranges := [⟨placeVa, placeVa + 4095, (physOf s 0 0 0 : Int) - placeVa, true, true, true⟩] }
  let s := s.setMem (s.mem.storeAll (physOf s 0 0 0) (toBytes 64 b.toNat))
  let s := s.setCore 0 { s.coreAt 0 with first := 0, ready := [], yieldTo := none }
  s.setSeq 0 { Seq.reset with status := 1, task := placeTask }

end Sys2Proof.Machine
end

