-- ==== Sys2Proof/Machine/Numbers.lean ====
section
/-! DEFINITION. Exact values of the number formats and RoundTo (06_numbers.md R101 to R116). -/

namespace Sys2Proof.Machine

/-- An exact value: NaN, an infinity, or (-1)^neg × man × 2^exp; a zero keeps its sign. -/
inductive Num where
  | nan
  | inf (neg : Bool)
  | fin (neg : Bool) (man : Nat) (exp : Int)
  deriving DecidableEq, Repr

/-- The sticky bits of CONV (Table 6.8). -/
def stickyInexact : Nat := 2 ^ 8
/-- OVERFLOW (Table 6.8). -/
def stickyOverflow : Nat := 2 ^ 9
/-- UNDERFLOW (Table 6.8). -/
def stickyUnderflow : Nat := 2 ^ 10
/-- NAN_MADE (Table 6.8). -/
def stickyNanMade : Nat := 2 ^ 11

/-- Exponent bits, fraction bits, bias, whether infinities exist, largest exponent field and the largest fraction at it
(Table 6.2). -/
structure FloatShape where
  e    : Nat
  w    : Nat
  bias : Int
  inf  : Bool
  topE : Nat
  topF : Nat
  deriving DecidableEq, Repr

/-- The shape of a binary floating format (Table 6.2). -/
def floatShape : Fmt → Option FloatShape
  | .f32 => some ⟨8, 23, 127, true, 254, 2 ^ 23 - 1⟩
  | .f16 => some ⟨5, 10, 15, true, 30, 2 ^ 10 - 1⟩
  | .bf16 => some ⟨8, 7, 127, true, 254, 2 ^ 7 - 1⟩
  | .e5m2 => some ⟨5, 2, 15, true, 30, 3⟩
  | .e4m3 => some ⟨4, 3, 7, false, 15, 6⟩
  | .e2m1 => some ⟨2, 1, 1, false, 3, 1⟩
  | _ => none

/-- The canonical NaN of a format, where it has one (Table 6.6). -/
def canonNan : Fmt → Nat
  | .f32 => 0x7FC00000 | .f16 => 0x7E00 | .bf16 => 0x7FC0 | .e5m2 => 0x7E | .e4m3 => 0x7F | .t8 => 0x80 | .t6 => 0x20
  | _ => 0

/-- Whether a pattern is a NaN code of a binary format (Table 6.2). -/
def isNanCode (t : Fmt) (sh : FloatShape) (ef f : Nat) : Bool :=
  if t = .e2m1 then false else if sh.inf then ef == 2 ^ sh.e - 1 && f != 0 else ef == 15 && f == 7

/-- The number of equal bits of an n-bit code from its top down (R105). -/
def runLength (b : Bool) (m : Nat) : Nat → Nat
  | 0 => 0
  | n + 1 => if m.testBit n = b then runLength b m n + 1 else 0

/-- The exponent of the unit in which every magnitude of t8 or t6 is whole (Tables 6.4, 6.5). -/
def taperUnit (L : Nat) : Int := if L = 7 then -12 else -8

/-- The magnitude of a tapered code in those units (R105). -/
def taperMag (L m : Nat) : Nat :=
  if m = 0 then 0
  else
    let b := m.testBit (L - 1)
    let k := runLength b m L
    let g : Int := if b then (k : Int) - 1 else -(k : Int)
    let used := Nat.min (k + 1) L
    let e := if used < L then bitsAt m (L - 1 - used) 1 else 0
    let w := L - used - 1
    let f := bitsAt m 0 w
    (2 ^ w + f) * 2 ^ (2 * g + e - w - taperUnit L).toNat

/-- The number in a pattern of a format (R101 to R107). -/
def decodeNum (t : Fmt) (x : Nat) : Num :=
  match floatShape t with
  | some sh =>
    let f := bitsAt x 0 sh.w
    let ef := bitsAt x sh.w sh.e
    let neg := x.testBit (sh.w + sh.e)
    if isNanCode t sh ef f then .nan
    else if sh.inf ∧ ef = 2 ^ sh.e - 1 then .inf neg
    else if ef = 0 then .fin neg (if t = .bf16 then 0 else f) (1 - sh.bias - sh.w)
    else .fin neg (2 ^ sh.w + f) (ef - sh.bias - sh.w)
  | none =>
    if t = .t8 ∨ t = .t6 then
      let L := if t = .t8 then 7 else 5
      let m := bitsAt x 0 L
      if m = 0 then (if x.testBit L then .nan else .fin false 0 0)
      else .fin (x.testBit L) (taperMag L m) (taperUnit L)
    else
      let n := t.width
      if t.isSigned then .fin (decide (sext n x < 0)) (sext n x).natAbs 0 else .fin false (x % 2 ^ n) 0

/-- Whether the remainder r / den above the lower neighbour takes the upper one (R108); even tells whether the lower
neighbour's code has bit 0 clear. -/
def roundsUp (mode : Nat) (neg even : Bool) (r den draw : Nat) : Bool :=
  if r = 0 then false
  else match mode with
    | 1 => false
    | 2 => !neg
    | 3 => neg
    | 4 => decide (2 ^ 16 ≤ r * 2 ^ 16 / den + draw)
    | _ => decide (den < 2 * r) || (decide (2 * r = den) && !even)

/-- man × 2^exp as a fraction over the unit 2^u: numerator and denominator. -/
def inUnits (man : Nat) (exp u : Int) : Nat × Nat :=
  if u ≤ exp then (man * 2 ^ (exp - u).toNat, 1) else (man, 2 ^ (u - exp).toNat)

/-- Whether an overflow becomes an infinity in a format that has them (R109). -/
def toInfinity (mode : Nat) (neg : Bool) : Bool :=
  match mode with
  | 1 => false
  | 2 => !neg
  | 3 => neg
  | _ => true

/-- A value beyond a binary format's largest (R109): the bits below the sign, and the sticky bits. -/
def overflowBits (t : Fmt) (sh : FloatShape) (mode : Nat) (neg sate4 : Bool) : Nat × Nat :=
  let big := sh.topE * 2 ^ sh.w + sh.topF
  let st := stickyOverflow + stickyInexact
  if sh.inf then ((if toInfinity mode neg then (2 ^ sh.e - 1) * 2 ^ sh.w else big), st)
  else if t = .e4m3 ∧ !sate4 ∧ toInfinity mode neg then (0x7F, st + stickyNanMade)
  else (big, st)

/-- Round a finite non-zero value to a binary format (R108 to R110). -/
def roundFloat (t : Fmt) (sh : FloatShape) (mode draw : Nat) (sate4 neg : Bool) (man : Nat) (exp : Int) : Nat × Nat :=
  let top : Int := man.log2 + exp
  let least := 1 - sh.bias
  let u := max top least - sh.w
  let (n, d) := inUnits man exp u
  let lo := n / d
  let y := if roundsUp mode neg (lo % 2 = 0) (n % d) d draw then lo + 1 else lo
  let inexact := n % d ≠ 0
  let tiny := decide (y < 2 ^ sh.w)
  let (y, u) := if y = 2 ^ (sh.w + 1) then (2 ^ sh.w, u + 1) else (y, u)
  let sign := bit neg * 2 ^ (sh.w + sh.e)
  let st := (if inexact then stickyInexact else 0) + (if inexact ∧ tiny then stickyUnderflow else 0)
  if tiny then
    if t = .bf16 ∧ y ≠ 0 then (sign, stickyInexact + stickyUnderflow) else (sign + y, st)
  else
    let ef := (u + sh.w + sh.bias).toNat
    let f := y - 2 ^ sh.w
    if sh.topE < ef ∨ (ef = sh.topE ∧ sh.topF < f) then
      let (b, o) := overflowBits t sh mode neg sate4
      ((if b = 0x7F ∧ t = .e4m3 then b else sign + b), o)
    else (sign + ef * 2 ^ sh.w + f, st)

/-- The largest tapered code at or below n / d units, searching down from a code. -/
def taperBelow (L n d : Nat) : Nat → Nat
  | 0 => 0
  | m + 1 => if taperMag L (m + 1) * d ≤ n then m + 1 else taperBelow L n d m

/-- Round a finite non-zero value to t8 or t6 (R108 to R110). -/
def roundTaper (L mode draw : Nat) (neg : Bool) (man : Nat) (exp : Int) : Nat × Nat :=
  let (n, d) := inUnits man exp (taperUnit L)
  let top := 2 ^ L - 1
  let sign := bit neg * 2 ^ L
  let lo := taperBelow L n d top
  let r := n - taperMag L lo * d
  if r = 0 then (sign + lo, 0)
  else if lo = top then (sign + top, stickyOverflow + stickyInexact)
  else
    let y := if roundsUp mode neg (lo % 2 = 0) r ((taperMag L (lo + 1) - taperMag L lo) * d) draw then lo + 1 else lo
    if y = 0 then (sign + 1, stickyUnderflow + stickyInexact) else (sign + y, stickyInexact)

/-- The range of an integer format (Table 6.1). -/
def intRange (t : Fmt) : Int × Int :=
  if t.isSigned then (-(2 ^ (t.width - 1) : Nat), (2 ^ (t.width - 1) : Nat) - 1) else (0, (2 ^ t.width : Nat) - 1)

/-- Round a finite value to an integer format (R108 to R110). -/
def roundInt (t : Fmt) (mode draw : Nat) (neg : Bool) (man : Nat) (exp : Int) : Nat × Nat :=
  let (n, d) := inUnits man exp 0
  let lo := n / d
  let y := if roundsUp mode neg (lo % 2 = 0) (n % d) d draw then lo + 1 else lo
  let v : Int := if neg then -y else y
  let (least, most) := intRange t
  if v < least then (wrap t.width least, stickyOverflow + stickyInexact)
  else if most < v then (wrap t.width most, stickyOverflow + stickyInexact)
  else (wrap t.width v, if n % d = 0 then 0 else stickyInexact)

/-- A zero of a format: signed where the format has a negative zero (R110). -/
def zeroBits (t : Fmt) (neg : Bool) : Nat :=
  match floatShape t with
  | some sh => bit neg * 2 ^ (sh.w + sh.e)
  | none => 0

/-- What an infinity becomes (Table 6.9). -/
def infBits (t : Fmt) (neg sate4 : Bool) : Nat × Nat :=
  match floatShape t with
  | some sh =>
    let sign := bit neg * 2 ^ (sh.w + sh.e)
    if sh.inf then (sign + (2 ^ sh.e - 1) * 2 ^ sh.w, 0)
    else if t = .e4m3 ∧ !sate4 then (0x7F, stickyNanMade)
    else (sign + sh.topE * 2 ^ sh.w + sh.topF, stickyOverflow)
  | none =>
    if t = .t8 ∨ t = .t6 then (canonNan t, stickyNanMade)
    else (wrap t.width (if neg then (intRange t).1 else (intRange t).2), stickyOverflow)

/-- What a NaN becomes (Table 6.9). -/
def nanBits (t : Fmt) : Nat × Nat :=
  if t = .e2m1 ∨ t.isInt then (0, stickyNanMade) else (canonNan t, 0)

/-- RoundTo(x, fmt, mode) with the draw it takes under SR: the pattern and the sticky bits (R108 to R110, R116). -/
def roundTo (t : Fmt) (mode draw : Nat) (sate4 : Bool) : Num → Nat × Nat
  | .nan => nanBits t
  | .inf neg => infBits t neg sate4
  | .fin neg man exp =>
    if man = 0 then (zeroBits t neg, 0)
    else match floatShape t with
      | some sh => roundFloat t sh mode draw sate4 neg man exp
      | none => if t = .t8 then roundTaper 7 mode draw neg man exp
        else if t = .t6 then roundTaper 5 mode draw neg man exp
        else roundInt t mode draw neg man exp

/-- RoundTo under RNE, for results that stay in their operands' format (R111). -/
def roundNear (t : Fmt) (x : Num) : Nat × Nat := roundTo t 0 0 false x

/-! ### Exact arithmetic -/

/-- The negative of a value. -/
def Num.neg : Num → Num
  | .nan => .nan
  | .inf s => .inf (!s)
  | .fin s m e => .fin (!s) m e

/-- |X|. -/
def Num.abs : Num → Num
  | .nan => .nan
  | .inf _ => .inf false
  | .fin _ m e => .fin false m e

/-- The exact sum of two finite values as a signed mantissa and exponent. -/
def sumSigned (s1 : Bool) (m1 : Nat) (e1 : Int) (s2 : Bool) (m2 : Nat) (e2 : Int) : Int × Int :=
  let e := min e1 e2
  let a : Int := (m1 * 2 ^ (e1 - e).toNat : Nat)
  let b : Int := (m2 * 2 ^ (e2 - e).toNat : Nat)
  ((if s1 then -a else a) + (if s2 then -b else b), e)

/-- The exact sum (R135): opposite infinities make a NaN; an exact zero is +0 unless both operands are negative zeros or
zeros of one sign. -/
def Num.add : Num → Num → Num
  | .nan, _ | _, .nan => .nan
  | .inf a, .inf b => if a = b then .inf a else .nan
  | .inf a, _ => .inf a
  | _, .inf b => .inf b
  | .fin s1 m1 e1, .fin s2 m2 e2 =>
    let (v, e) := sumSigned s1 m1 e1 s2 m2 e2
    if v = 0 then .fin (s1 && s2) 0 0 else .fin (decide (v < 0)) v.natAbs e

/-- The exact product (R135): zero by infinity makes a NaN. -/
def Num.mul : Num → Num → Num
  | .nan, _ | _, .nan => .nan
  | .inf a, .inf b => .inf (a != b)
  | .inf a, .fin b m _ => if m = 0 then .nan else .inf (a != b)
  | .fin a m _, .inf b => if m = 0 then .nan else .inf (a != b)
  | .fin s1 m1 e1, .fin s2 m2 e2 => .fin (s1 != s2) (m1 * m2) (e1 + e2)

/-- Whether a value is a NaN. -/
def Num.isNan : Num → Bool
  | .nan => true
  | _ => false

/-- Whether a value is a zero of either sign. -/
def Num.isZero : Num → Bool
  | .fin _ m _ => m == 0
  | _ => false

/-- The sign of a value. -/
def Num.sign : Num → Bool
  | .nan => false
  | .inf s => s
  | .fin s _ _ => s

/-- Less than between values that are not NaN; the two zeros are equal. -/
def Num.lt : Num → Num → Bool
  | .nan, _ | _, .nan => false
  | .inf a, .inf b => a && !b
  | .inf a, _ => a
  | _, .inf b => !b
  | .fin s1 m1 e1, .fin s2 m2 e2 => decide ((sumSigned s1 m1 e1 (!s2) m2 e2).1 < 0)

/-- Equality between values that are not NaN; the two zeros are equal. -/
def Num.eq (a b : Num) : Bool := !a.isNan && !b.isNan && !a.lt b && !b.lt a

/-- NAN_MADE where a NaN came of operands that are none (R114). -/
def madeNan (r : Num) (ops : List Num) : Nat := if r.isNan && ops.all (fun o => !o.isNan) then stickyNanMade else 0

end Sys2Proof.Machine
end

