-- ==== Sys2Proof/Machine/Flags.lean ====
section
/-! DEFINITION. Flags: the condition codes of Tables 4.3 and 7.x and the masks that compares write; COLLIDE and the sticky bits
of CONV are set where results land (Ops.lean, landOne) and come from RoundTo (Numbers.lean). -/

namespace Sys2Proof.Machine

/-- A condition of Table 4.3 on two n-bit patterns (R70, R126). -/
def condition (n cc x y : Nat) : Bool :=
  let sx := sext n x
  let sy := sext n y
  match cc with
  | 0 => x == y
  | 1 => x != y
  | 2 => decide (sx < sy)
  | 3 => decide (sx ≤ sy)
  | 4 => decide (sy < sx)
  | 5 => decide (sy ≤ sx)
  | 6 => decide (x < y)
  | 7 => decide (x ≤ y)
  | 8 => decide (y < x)
  | 9 => decide (y ≤ x)
  | 10 => Nat.land x y != 0
  | _ => Nat.land x y == 0

/-- The byte mask that a lane compare writes: all bits of a lane's bytes take the condition (R126). -/
def compareMask (w : Nat) (f : Nat → Bool) : Nat :=
  ofLanes (w / 8) ((List.range (512 / w)).map (fun i => if f i then 2 ^ (w / 8) - 1 else 0))

end Sys2Proof.Machine
end

