-- ==== Sys2Proof/Machine/Scalar.lean ====
section
/-! DEFINITION. The S slot (04_scalar.md R61 to R81). -/

namespace Sys2Proof.Machine

/-! ### Reading and delivering -/

/-- The low 64 bits of an operand that names a register (R61). -/
def readOp (o : Opnd) : Act Nat := do
  let x ← Act.view (fun s => s.cur.slot)
  match opndReg x o with
  | some r => return (← readReg r).toNat % 2 ^ 64
  | none => return 0

/-- Deliver one value to every register an operation writes, with the operation's latency; the bytes that land and the sticky
bits due then are given (R23, R121, R80). -/
def deliverMasked (i : Instr) (v : Vec) (mask sticky : Nat) : Act Unit := do
  let s ← Act.view id
  match destsOf s.cur.slot i with
  | [] => stickyAt (latSteps s i) sticky
  | r :: _ => writeMasked r (latSteps s i) (fitFile r.file v) mask sticky

/-- Deliver a whole value without sticky bits. -/
def deliver (i : Instr) (v : Vec) : Act Unit := deliverMasked i v allBytes 0

/-- Deliver a 64-bit number; a 512-bit destination is zero above it (R61). -/
def deliverNat (i : Instr) (v : Nat) : Act Unit := deliver i (BitVec.ofNat 512 (v % 2 ^ 64))

/-- A two-operand scalar operation. -/
def scalar2 (i : Instr) (a b : Opnd) (f : Nat → Nat → Nat) : Act Unit := do
  let x ← readOp a
  let y ← readOp b
  deliverNat i (f x y)

/-- A one-operand scalar operation. -/
def scalar1 (i : Instr) (a : Opnd) (f : Nat → Nat) : Act Unit := do
  let x ← readOp a
  deliverNat i (f x)

/-- SignExtend(IMM, 23) as a 64-bit pattern (R66). -/
def immPattern (imm : BitVec 23) : Nat := wrap 64 (sext 23 imm.toNat)

/-! ### Arithmetic (R63, R64) -/

/-- `div` (R64). -/
def divSigned (x y : Nat) : Nat :=
  if sext 64 y = 0 then 2 ^ 64 - 1 else wrap 64 ((sext 64 x).tdiv (sext 64 y))
/-- `div.b` (R64). -/
def divUnsigned (x y : Nat) : Nat := if y = 0 then 2 ^ 64 - 1 else x / y
/-- `rem` (R64). -/
def remSigned (x y : Nat) : Nat := if sext 64 y = 0 then x else wrap 64 ((sext 64 x).tmod (sext 64 y))
/-- `rem.b` (R64). -/
def remUnsigned (x y : Nat) : Nat := if y = 0 then x else x % y

/-- `add` (R63). -/
def execAdd (g : Guard) (d a b : Opnd) (s : State) : Host.Outcome State Fault Refusal :=
  issue (.add g d a b) g (scalar2 (.add g d a b) a b (fun x y => x + y)) s
/-- `sub` (R63). -/
def execSub (g : Guard) (d a b : Opnd) (s : State) : Host.Outcome State Fault Refusal :=
  issue (.sub g d a b) g (scalar2 (.sub g d a b) a b (fun x y => x + 2 ^ 64 - y)) s
/-- `addsl` (R63). -/
def execAddsl (g : Guard) (d a b : Opnd) (sh : BitVec 6) (s : State) : Host.Outcome State Fault Refusal :=
  issue (.addsl g d a b sh) g (scalar2 (.addsl g d a b sh) a b (fun x y => x + y * 2 ^ sh.toNat)) s
/-- `mul` (R63). -/
def execMul (g : Guard) (d a b : Opnd) (s : State) : Host.Outcome State Fault Refusal :=
  issue (.mul g d a b) g (scalar2 (.mul g d a b) a b (fun x y => x * y)) s
/-- `mulh` (R63). -/
def execMulh (g : Guard) (d a b : Opnd) (s : State) : Host.Outcome State Fault Refusal :=
  issue (.mulh g d a b) g (scalar2 (.mulh g d a b) a b (fun x y => wrap 128 (sext 64 x * sext 64 y) / 2 ^ 64)) s
/-- `mulh.b` (R63). -/
def execMulhB (g : Guard) (d a b : Opnd) (s : State) : Host.Outcome State Fault Refusal :=
  issue (.mulhB g d a b) g (scalar2 (.mulhB g d a b) a b (fun x y => x * y / 2 ^ 64)) s
/-- `div` (R64). -/
def execDiv (g : Guard) (d a b : Opnd) (s : State) : Host.Outcome State Fault Refusal :=
  issue (.div g d a b) g (scalar2 (.div g d a b) a b divSigned) s
/-- `div.b` (R64). -/
def execDivB (g : Guard) (d a b : Opnd) (s : State) : Host.Outcome State Fault Refusal :=
  issue (.divB g d a b) g (scalar2 (.divB g d a b) a b divUnsigned) s
/-- `rem` (R64). -/
def execRem (g : Guard) (d a b : Opnd) (s : State) : Host.Outcome State Fault Refusal :=
  issue (.rem g d a b) g (scalar2 (.rem g d a b) a b remSigned) s
/-- `rem.b` (R64). -/
def execRemB (g : Guard) (d a b : Opnd) (s : State) : Host.Outcome State Fault Refusal :=
  issue (.remB g d a b) g (scalar2 (.remB g d a b) a b remUnsigned) s

/-! ### Logic and shifts (R65, R66) -/

/-- `sra` by n (R65). -/
def shiftArith (x n : Nat) : Nat := wrap 64 (sext 64 x / 2 ^ n)

/-- `and` (R65). -/
def execAnd (g : Guard) (d a b : Opnd) (s : State) : Host.Outcome State Fault Refusal :=
  issue (.and g d a b) g (scalar2 (.and g d a b) a b Nat.land) s
/-- `or` (R65). -/
def execOr (g : Guard) (d a b : Opnd) (s : State) : Host.Outcome State Fault Refusal :=
  issue (.or g d a b) g (scalar2 (.or g d a b) a b Nat.lor) s
/-- `xor` (R65). -/
def execXor (g : Guard) (d a b : Opnd) (s : State) : Host.Outcome State Fault Refusal :=
  issue (.xor g d a b) g (scalar2 (.xor g d a b) a b Nat.xor) s
/-- `andn` (R65). -/
def execAndn (g : Guard) (d a b : Opnd) (s : State) : Host.Outcome State Fault Refusal :=
  issue (.andn g d a b) g (scalar2 (.andn g d a b) a b (fun x y => Nat.land x (2 ^ 64 - 1 - y))) s
/-- `shl` (R65). -/
def execShl (g : Guard) (d a b : Opnd) (s : State) : Host.Outcome State Fault Refusal :=
  issue (.shl g d a b) g (scalar2 (.shl g d a b) a b (fun x y => x * 2 ^ (y % 64))) s
/-- `shr` (R65). -/
def execShr (g : Guard) (d a b : Opnd) (s : State) : Host.Outcome State Fault Refusal :=
  issue (.shr g d a b) g (scalar2 (.shr g d a b) a b (fun x y => x / 2 ^ (y % 64))) s
/-- `sra` (R65). -/
def execSra (g : Guard) (d a b : Opnd) (s : State) : Host.Outcome State Fault Refusal :=
  issue (.sra g d a b) g (scalar2 (.sra g d a b) a b (fun x y => shiftArith x (y % 64))) s
/-- `rotl` (R65). -/
def execRotl (g : Guard) (d a b : Opnd) (s : State) : Host.Outcome State Fault Refusal :=
  issue (.rotl g d a b) g
    (scalar2 (.rotl g d a b) a b (fun x y => Nat.lor (x * 2 ^ (y % 64) % 2 ^ 64) (x / 2 ^ (64 - y % 64)))) s
/-- `fshl` (R65). -/
def execFshl (g : Guard) (d a b : Opnd) (sh : BitVec 6) (s : State) : Host.Outcome State Fault Refusal :=
  issue (.fshl g d a b sh) g
    (scalar2 (.fshl g d a b sh) a b (fun x y => bitsAt ((x * 2 ^ 64 + y) * 2 ^ sh.toNat) 64 64)) s
/-- `fshr` (R65). -/
def execFshr (g : Guard) (d a b : Opnd) (sh : BitVec 6) (s : State) : Host.Outcome State Fault Refusal :=
  issue (.fshr g d a b sh) g
    (scalar2 (.fshr g d a b sh) a b (fun x y => (x * 2 ^ 64 + y) / 2 ^ sh.toNat)) s
/-- `addi` (R66). -/
def execAddi (g : Guard) (d a : Opnd) (imm : BitVec 23) (s : State) : Host.Outcome State Fault Refusal :=
  issue (.addi g d a imm) g (scalar1 (.addi g d a imm) a (fun x => x + immPattern imm)) s
/-- `andi` (R66). -/
def execAndi (g : Guard) (d a : Opnd) (imm : BitVec 23) (s : State) : Host.Outcome State Fault Refusal :=
  issue (.andi g d a imm) g (scalar1 (.andi g d a imm) a (fun x => Nat.land x (immPattern imm))) s
/-- `ori` (R66). -/
def execOri (g : Guard) (d a : Opnd) (imm : BitVec 23) (s : State) : Host.Outcome State Fault Refusal :=
  issue (.ori g d a imm) g (scalar1 (.ori g d a imm) a (fun x => Nat.lor x (immPattern imm))) s
/-- `xori` (R66). -/
def execXori (g : Guard) (d a : Opnd) (imm : BitVec 23) (s : State) : Host.Outcome State Fault Refusal :=
  issue (.xori g d a imm) g (scalar1 (.xori g d a imm) a (fun x => Nat.xor x (immPattern imm))) s
/-- `shli` (R66). -/
def execShli (g : Guard) (d a : Opnd) (imm : BitVec 23) (s : State) : Host.Outcome State Fault Refusal :=
  issue (.shli g d a imm) g (scalar1 (.shli g d a imm) a (fun x => x * 2 ^ imm.toNat)) s
/-- `shri` (R66). -/
def execShri (g : Guard) (d a : Opnd) (imm : BitVec 23) (s : State) : Host.Outcome State Fault Refusal :=
  issue (.shri g d a imm) g (scalar1 (.shri g d a imm) a (fun x => x / 2 ^ imm.toNat)) s
/-- `srai` (R66). -/
def execSrai (g : Guard) (d a : Opnd) (imm : BitVec 23) (s : State) : Host.Outcome State Fault Refusal :=
  issue (.srai g d a imm) g (scalar1 (.srai g d a imm) a (fun x => shiftArith x imm.toNat)) s

/-! ### Counts, limits, bitfields, selection, constants (R67 to R69) -/

/-- The bits of a number's n low places, low bit first. -/
def bitList (n x : Nat) : List Bool := (List.range n).map (fun j => x.testBit j)
/-- Leading zero bits of an n-bit pattern. -/
def leadingZeros (n x : Nat) : Nat := ((bitList n x).reverse.takeWhile (fun b => !b)).length
/-- Trailing zero bits of an n-bit pattern. -/
def trailingZeros (n x : Nat) : Nat := ((bitList n x).takeWhile (fun b => !b)).length
/-- One bits of an n-bit pattern. -/
def onesCount (n x : Nat) : Nat := ((bitList n x).filter id).length

/-- The field position and length of `bfx` and `bfi` (R68). -/
def fieldOf (b : Nat) : Nat × Nat := (bitsAt b 0 6, Nat.min (bitsAt b 8 7) 64)
/-- `bfx` (R68). -/
def fieldExtract (sx : Bool) (x b : Nat) : Nat :=
  let (pos, len) := fieldOf b
  let f := bitsAt x pos len
  if sx ∧ 0 < len ∧ len ≤ 64 - pos then wrap 64 (sext len f) else f
/-- `bfi` (R68). -/
def fieldInsert (x b old : Nat) : Nat :=
  let (pos, len) := fieldOf b
  let m := (2 ^ len - 1) * 2 ^ pos % 2 ^ 64
  Nat.lor (Nat.land old (2 ^ 64 - 1 - m)) (Nat.land (x * 2 ^ pos % 2 ^ 64) m)

/-- `clz` (R67). -/
def execClz (g : Guard) (d a : Opnd) (s : State) : Host.Outcome State Fault Refusal :=
  issue (.clz g d a) g (scalar1 (.clz g d a) a (leadingZeros 64)) s
/-- `ctz` (R67). -/
def execCtz (g : Guard) (d a : Opnd) (s : State) : Host.Outcome State Fault Refusal :=
  issue (.ctz g d a) g (scalar1 (.ctz g d a) a (trailingZeros 64)) s
/-- `popc` (R67). -/
def execPopc (g : Guard) (d a : Opnd) (s : State) : Host.Outcome State Fault Refusal :=
  issue (.popc g d a) g (scalar1 (.popc g d a) a (onesCount 64)) s
/-- `min` (R67). -/
def execMin (g : Guard) (d a b : Opnd) (s : State) : Host.Outcome State Fault Refusal :=
  issue (.min g d a b) g (scalar2 (.min g d a b) a b (fun x y => if sext 64 x ≤ sext 64 y then x else y)) s
/-- `max` (R67). -/
def execMax (g : Guard) (d a b : Opnd) (s : State) : Host.Outcome State Fault Refusal :=
  issue (.max g d a b) g (scalar2 (.max g d a b) a b (fun x y => if sext 64 y ≤ sext 64 x then x else y)) s
/-- `min.b` (R67). -/
def execMinB (g : Guard) (d a b : Opnd) (s : State) : Host.Outcome State Fault Refusal :=
  issue (.minB g d a b) g (scalar2 (.minB g d a b) a b (fun x y => if x ≤ y then x else y)) s
/-- `max.b` (R67). -/
def execMaxB (g : Guard) (d a b : Opnd) (s : State) : Host.Outcome State Fault Refusal :=
  issue (.maxB g d a b) g (scalar2 (.maxB g d a b) a b (fun x y => if y ≤ x then x else y)) s
/-- `bfx` (R68). -/
def execBfx (g : Guard) (d a b : Opnd) (sx : Bool) (s : State) : Host.Outcome State Fault Refusal :=
  issue (.bfx g d a b sx) g (scalar2 (.bfx g d a b sx) a b (fieldExtract sx)) s
/-- `bfi` (R68): D is read at issue. -/
def execBfi (g : Guard) (d a b : Opnd) (s : State) : Host.Outcome State Fault Refusal :=
  issue (.bfi g d a b) g (do
    let x ← readOp a
    let y ← readOp b
    let old ← readOp d
    deliverNat (.bfi g d a b) (fieldInsert x y old)) s
/-- `sel` (R67). -/
def execSel (g : Guard) (d a b : Opnd) (psel : BitVec 4) (pinv : Bool) (s : State) : Host.Outcome State Fault Refusal :=
  issue (.sel g d a b psel pinv) g (do
    let x ← readOp a
    let y ← readOp b
    let t ← guardHolds ⟨psel, pinv⟩
    deliverNat (.sel g d a b psel pinv) (if t then x else y)) s
/-- `li` (R69). -/
def execLi (g : Guard) (d : Opnd) (imm : BitVec 23) (s : State) : Host.Outcome State Fault Refusal :=
  issue (.li g d imm) g (deliverNat (.li g d imm) (immPattern imm)) s
/-- `lih` (R69). -/
def execLih (g : Guard) (d a : Opnd) (imm : BitVec 23) (s : State) : Host.Outcome State Fault Refusal :=
  issue (.lih g d a imm) g (scalar1 (.lih g d a imm) a (fun x => x * 2 ^ 23 + imm.toNat)) s

/-! ### Compares and predicates (R70, R71) -/

/-- `cmp` (R70). -/
def execCmp (g : Guard) (p cc : BitVec 4) (a b : Opnd) (s : State) : Host.Outcome State Fault Refusal :=
  issue (.cmp g p cc a b) g (scalar2 (.cmp g p cc a b) a b (fun x y => bit (condition 64 cc.toNat x y))) s
/-- `cmpi` (R70). -/
def execCmpi (g : Guard) (p cc : BitVec 4) (a : Opnd) (imm : BitVec 23) (s : State) :
    Host.Outcome State Fault Refusal :=
  issue (.cmpi g p cc a imm) g
    (scalar1 (.cmpi g p cc a imm) a (fun x => bit (condition 64 cc.toNat x (immPattern imm)))) s
/-- `pand` (R71). -/
def execPand (g : Guard) (d a b : BitVec 4) (na nb : Bool) (s : State) : Host.Outcome State Fault Refusal :=
  issue (.pand g d a b na nb) g (do
    let x ← guardHolds ⟨a, na⟩
    let y ← guardHolds ⟨b, nb⟩
    deliverNat (.pand g d a b na nb) (bit (x && y))) s
/-- `por` (R71). -/
def execPor (g : Guard) (d a b : BitVec 4) (na nb : Bool) (s : State) : Host.Outcome State Fault Refusal :=
  issue (.por g d a b na nb) g (do
    let x ← guardHolds ⟨a, na⟩
    let y ← guardHolds ⟨b, nb⟩
    deliverNat (.por g d a b na nb) (bit (x || y))) s
/-- `pnot` (R71). -/
def execPnot (g : Guard) (d a : BitVec 4) (s : State) : Host.Outcome State Fault Refusal :=
  issue (.pnot g d a) g (do
    let x ← guardHolds ⟨a, true⟩
    deliverNat (.pnot g d a) (bit x)) s

/-! ### Control flow (R72 to R77) -/

/-- The code address of the issuing bundle. -/
def pcHere (s : State) : Nat := s.bundle.addr

/-- Whether a code address is a bundle of the code section (R73, R308). -/
def codeOk (q : Seq) (a : Int) : Bool := decide (0 ≤ a) && decide (a < q.task.codeLen) && a % 64 == 0

/-- A taken transfer: its target is checked, then fetch goes on there (R73, R76); leave tells whether loop levels that do not
contain the target are popped (R74). -/
def goTo (target : Int) (leave : Bool) : Act Unit := do
  let s ← Act.view id
  Act.check (codeOk s.me target) 0x11 (wrap 64 target)
  Act.change (fun t => t.setMe { t.me with
    hold := none, pc := target.toNat, loops := if leave then leaveLoops target.toNat t.me.loops else t.me.loops })

/-- `br` (R73). -/
def execBr (g : Guard) (imm : BitVec 23) (s : State) : Host.Outcome State Fault Refusal :=
  issue (.br g imm) g (goTo (pcHere s + sext 23 imm.toNat * 64) true) s
/-- `jmp` (R73): the target is IMM × 64, IMM two's complement. -/
def execJmp (g : Guard) (imm : BitVec 23) (s : State) : Host.Outcome State Fault Refusal :=
  issue (.jmp g imm) g (goTo (sext 23 imm.toNat * 64) true) s
/-- `jmpr` (R73). -/
def execJmpr (g : Guard) (a : Opnd) (s : State) : Host.Outcome State Fault Refusal :=
  issue (.jmpr g a) g (do
    let x ← readOp a
    goTo x true) s
/-- `call` (R73): the link is the address of the next bundle. -/
def execCall (g : Guard) (d : Opnd) (imm : BitVec 23) (s : State) : Host.Outcome State Fault Refusal :=
  issue (.call g d imm) g (do
    goTo (pcHere s + sext 23 imm.toNat * 64) false
    deliverNat (.call g d imm) (pcHere s + 64)) s
/-- `ret` (R73). -/
def execRet (g : Guard) (a : Opnd) (s : State) : Host.Outcome State Fault Refusal :=
  issue (.ret g a) g (do
    let x ← readOp a
    goTo x false) s
/-- `loop` (R75). -/
def execLoop (g : Guard) (a : Opnd) (imm : BitVec 23) (s : State) : Host.Outcome State Fault Refusal :=
  issue (.loop g a imm) g (do
    let n ← readOp a
    let count := n % 2 ^ 32
    let fin := pcHere s + imm.toNat * 64
    if count = 0 then Act.change (fun t => t.setMe { t.me with hold := none, pc := fin + 64 })
    else do
      let q ← Act.view State.me
      Act.check (q.loops.length < 6) 0x42 0
      Act.change (fun t => t.setMe { t.me with
        hold := none, pc := pcHere s + 64, loops := ⟨count, fin, imm.toNat⟩ :: t.me.loops })) s
/-- `halt` (R77): fetch stops at its bundle; the task ends once every slot has issued it. -/
def execHalt (g : Guard) (s : State) : Host.Outcome State Fault Refusal :=
  issue (.halt g) g (Act.change (fun t => t.setMe { t.me with haltAt := some t.here })) s

/-! ### Crossing files and system state (R78 to R81) -/

/-- A scalar as a destination file takes it: in every 64-bit lane where replicated (R78). -/
def spread (bcast : Bool) (v : Nat) : Vec :=
  if bcast then BitVec.ofNat 512 (ofLanes 64 (List.replicate 8 v)) else BitVec.ofNat 512 (v % 2 ^ 64)

/-- `xmov` (R78). -/
def execXmov (g : Guard) (dst : Dest) (a : Opnd) (lane : BitVec 3) (bcast : Bool) (s : State) :
    Host.Outcome State Fault Refusal :=
  issue (.xmov g dst a lane bcast) g (do
    let v ← (match opndReg .S a with
      | some r => readReg r
      | none => pure 0)
    deliver (.xmov g dst a lane bcast) (spread bcast (bitsAt v.toNat (64 * lane.toNat) 64))) s

/-- The file of a code of Table 3.6. -/
def fileOfCode : Nat → File
  | 1 => .s | 2 => .v0 | 3 => .v1 | 4 => .k0 | 5 => .k1 | 6 => .m | 7 => .b | 8 => .w | 9 => .e | 10 => .y | 11 => .t
  | 12 => .p
  | _ => .c

/-- REPLAY.INFO with PEND as it stands (Table 18.3). -/
def replayInfoNow (s : State) (loc : Nat) : Nat :=
  let v := (s.seqAt loc).repInfo.toNat
  v + 2 ^ 14 * bit (markWaits s loc ⟨fileOfCode (bitsAt v 0 4), bitsAt v 4 10⟩)

/-- STATE of a sequencer (Table 2.2): one that runs and has stalled in every slot waits (R303). -/
def Seq.state (q : Seq) : Nat := if q.status = 1 ∧ q.stalled = 511 then 2 else q.status

/-- The sticky bits of results that have not landed and that `rdsr` may see (R80): a free choice for each. (DESIGN CHOICE, assumption 6) -/
def earlySticky (free : Nat) (ps : List Pend) : Nat :=
  ps.foldl (fun n e => if e.live && !e.done && Config.freeBit free e.uid then Nat.lor n e.sticky else n) 0

/-- What `rdsr` reads in the issuing bundle (Table 26.4). -/
def sysRead (s : State) (n : Nat) : Nat :=
  let q := s.me
  let loc := s.cur.loc
  let v := s.vdAt s.myVd
  let p := podPart s (partOf loc)
  if n = 0x000 then bit q.collide + 2 * q.state
  else if n = 0x001 then fullLoc s loc
  else if n = 0x002 then q.taskId.toNat
  else if n = 0x003 then Nat.lor (q.conv.toNat % 2 ^ 32) (earlySticky s.free q.pend) + genAt s loc s.here .S * 2 ^ 32
  else if n = 0x004 then q.replay.toNat
  else if n = 0x005 then replayInfoNow s loc
  else if n = 0x006 then q.repRet.toNat
  else if n = 0x007 then q.tvec.toNat
  else if n = 0x008 then q.gridTime.toNat
  else if n = 0x009 then q.mrsIndex
  else if 0x010 ≤ n ∧ n ≤ 0x017 then bitsAt q.trapRec.toNat (64 * (n - 0x010)) 64
  else if n = 0x100 then v.scale
  else if n = 0x101 then v.offset
  else if n = 0x102 then v.root
  else if n = 0x104 then bankMask s loc
  else if n = 0x105 then v.grace
  else if n = 0x106 then v.rcache
  else if n = 0x107 then v.cellar
  else if 0x110 ≤ n ∧ n ≤ 0x117 then v.perfSel.look 0 (8 * p + (n - 0x110))
  else if 0x118 ≤ n ∧ n ≤ 0x11F then v.perfCnt.look 0 (8 * p + (n - 0x118))
  else if n = 0x200 then s.skew
  else 0

/-- What a written CONV holds: reserved bits zero, a zero SEED as 1 (Table 6.8, R112). -/
def convWritten (x : Nat) : Nat :=
  Nat.land (x % 2 ^ 32) 0xF0F + (if x / 2 ^ 32 = 0 then 1 else x / 2 ^ 32) * 2 ^ 32

/-- Write a system register (R18, R79, R80, R115, Table 26.4): the value governs the bundles after the issuing one. -/
def sysWrite (n x : Nat) (s : State) : State :=
  let q := s.me
  let i := s.here
  if n = 0x000 then s.setMe { q with collide := x % 2 = 1 }
  else if n = 0x003 then
    let seed := genAt s s.cur.loc i .S
    let old := BitVec.ofNat 64 (q.conv.toNat % 2 ^ 32 + seed * 2 ^ 32)
    s.setMe { q with srPrev := some (i, n, old), conv := BitVec.ofNat 64 (convWritten x), seedIdx := i + 1 }
  else if n = 0x004 then
    s.setMe { q with srPrev := some (i, n, q.replay), replay := BitVec.ofNat 64 (bitsAt x 6 46 * 64) }
  else if n = 0x007 then
    s.setMe { q with srPrev := some (i, n, q.tvec), tvec := BitVec.ofNat 64 (bitsAt x 6 46 * 64) }
  else if n = 0x008 then
    s.setMe { q with srPrev := some (i, n, q.gridTime), gridTime := BitVec.ofNat 64 (x % 2 ^ 32) }
  else if n = 0x009 then s.setMe { q with mrsIndex := x % 2048 }
  else if n = 0x200 then { s with skew := x % 128 }
  else s

/-- `rdsr` (R79, R80). -/
def execRdsr (g : Guard) (d : Opnd) (sr : BitVec 23) (s : State) : Host.Outcome State Fault Refusal :=
  issue (.rdsr g d sr) g (do
    let v ← Act.view (fun t => sysRead t sr.toNat)
    deliverNat (.rdsr g d sr) v) s
/-- `wrsr` (R79, R80): RMODE 5 to 7 traps (R115). -/
def execWrsr (g : Guard) (sr : BitVec 23) (a : Opnd) (s : State) : Host.Outcome State Fault Refusal :=
  issue (.wrsr g sr a) g (do
    let x ← readOp a
    Act.check (!(sr.toNat == 0x003 && decide (4 < x % 8))) 0x01 0
    Act.change (sysWrite sr.toNat x)) s
/-- `wrsr MRS.DATA` (R157): one word of the routine store, and the index moves on. -/
def execMrsData (g : Guard) (a : Opnd) (s : State) : Host.Outcome State Fault Refusal :=
  issue (.mrsData g a) g (do
    let x ← readOp a
    Act.change (fun t =>
      let q := t.me
      let k := t.coreAt (coreOf t.cur.loc)
      let old := k.store.look 0 q.mrsIndex
      (t.setMe { q with srPrev := some (t.here, 0x00A, old), mrsIndex := (q.mrsIndex + 1) % 2048 }).setCore
        (coreOf t.cur.loc) { k with store := k.store.put q.mrsIndex (BitVec.ofNat 64 x) })) s
/-- `rdts` (R81, R327). -/
def execRdts (g : Guard) (d : Opnd) (s : State) : Host.Outcome State Fault Refusal :=
  issue (.rdts g d) g (do
    let v ← Act.view (fun t => Nat.max (vtime t t.myVd) t.me.last)
    Act.change (fun t => t.setMe { t.me with last := v })
    deliverNat (.rdts g d) v) s

/-! ### What a slot issues without an operation of its own -/

/-- An absent slot issues a no-operation (R41). -/
def execNoOperation (s : State) : Host.Outcome State Fault Refusal :=
  issue .noOperation ⟨15, false⟩ (pure ()) s
/-- The first issue of a bundle index beyond the code section: trap 0x11 naming slot S, INFO the address (R76). -/
def execFetchBeyondCode (s : State) : Host.Outcome State Fault Refusal :=
  .next (takeTrap s s.cur.loc 0 s.here 0x11 (pcHere s) 0)

end Sys2Proof.Machine
end

