-- ==== Sys2Proof/Machine/RingOps.lean ====
section
/-! DEFINITION. Rings and drain queues as operands (R30 to R35, R93, R99, R119, R120, R153, R154, R174): descriptor fields,
reading, pushing, waiting. -/

namespace Sys2Proof.Machine

/-! ### Positions -/

/-- The bit of the stream at which the read pointer stands. -/
def Ring.readPos (r : Ring) : Nat := 512 * (r.moved - r.entries.length) + r.readBit
/-- The bits of the stream filled so far. -/
def Ring.filled (r : Ring) : Nat := 512 * r.moved
/-- The last entry where a push has not filled it, with the entries before it (R33). -/
def openPart (es : List RingEntry) : List RingEntry × RingEntry :=
  match es.getLast? with
  | some e => if e.closed then (es, ⟨0, 0, false, [], none, 0⟩) else (es.dropLast, e)
  | none => ([], ⟨0, 0, false, [], none, 0⟩)
/-- The bit of the stream at which the next converting push writes. -/
def Ring.writePos (r : Ring) : Nat :=
  let (es, o) := openPart r.entries
  512 * (r.moved + es.length) + o.valid
/-- The entry that holds the first element of the first failed chunk (R174). -/
def Ring.failEntry (r : Ring) : Nat := r.relElts * r.width / 512
/-- Bits of the stream from a position on, as far as entries hold them. -/
def Ring.bitsFrom (r : Ring) (start n : Nat) : Nat :=
  bitsAt (ofLanes 512 (r.entries.map (fun e => e.data.toNat))) (start - 512 * (r.moved - r.entries.length)) n
/-- The marked word that an entry of the bits from a position holds (R348). -/
def Ring.errFrom (r : Ring) (start n : Nat) : Option Nat :=
  let first := r.moved - r.entries.length
  ((List.range r.entries.length).filterMap (fun j =>
    let lo := 512 * (first + j)
    if start < lo + 512 ∧ lo < start + n then (r.entries.getD j ⟨0, 0, true, [], none, 0⟩).err else none)).head?
/-- Consume bits: entries whose every bit is read leave the ring (R33). -/
def Ring.consume (r : Ring) (n : Nat) : Ring :=
  let p := match r.streamBits with | some t => Nat.min (r.readPos + n) t | none => r.readPos + n
  let gone := p / 512 - (r.moved - r.entries.length)
  { r with entries := r.entries.drop gone, readBit := p % 512 }

/-- The elements an array operation or a fill still has to take from its ring (R153, R155). -/
def arrayNeed (o : ArrayOp) : Nat := 128 * o.kn - o.taken
/-- The elements a fill still has to take. -/
def fillNeed (f : Fill) : Nat := 256 * f.kn - f.taken

/-- Whether an `mmac`, `mmacs` or `mlar` that has issued still takes elements from a ring (R153, R99). -/
def ringBusy (q : Seq) (n : Nat) : Bool :=
  q.tiles.any (fun t => match t.kind with | .array o => o.ring == n && decide (0 < arrayNeed o) | _ => false) ||
  q.fills.any (fun f => f.ring == n && decide (0 < fillNeed f))

/-! ### Acts on rings -/

/-- The binding of a ring in a direction, once nothing holds the ring (R47, R99, R153). -/
def Act.ring (n : Nat) (out : Bool) : Act Ring := fun s =>
  match s.me.rings.find n with
  | none => .error (.trap 0x01 0)
  | some r => if r.dir != out then .error (.trap 0x01 0) else if ringBusy s.me n then .error .stall else .ok (r, s)

/-- Replace a ring of the issuer. -/
def setRing (n : Nat) (r : Ring) (s : State) : State := s.setMe { s.me with rings := s.me.rings.put n r }

/-- Stall on a ring, counted (R328). -/
def ringStall {α : Type} : Act α := fun s => .error (.stallWith (perf s s.cur.loc 3 1))

/-- Wait until bits of a fill stream are in the ring (R34, R93, R174, R348). -/
def ringAwait (n : Nat) (r : Ring) (start len : Nat) : Act Unit := do
  let fin := match r.streamBits with | some t => Nat.min (start + len) t | none => start + len
  Act.check (match r.streamBits with | some t => decide (start < t) | none => true) 0x11 0
  if fin ≤ r.filled then
    match r.errFrom start len with
    | some a => Act.trap 0x70 a
    | none => pure ()
  else if r.fail ≠ 0 ∧ 512 * r.failEntry < fin then Act.trap r.fail (if r.fail = 0x70 then r.failInfo else n)
  else ringStall

/-- One at-rest element as a lane of a typed operation (R33, R119). -/
def ringLane (f t : Fmt) (x : Nat) : Nat :=
  if t.isInt then wrap 32 (if f.isSigned then sext f.width x else (x : Int)) else (roundNear t (decodeNum f x)).1

/-- Read one vector of decoded lanes (R33, R34, R119). -/
def ringRead (n : Nat) (peek : Bool) (t : Fmt) : Act Vec := do
  let r ← Act.ring n false
  let lanes := 512 / t.width
  ringAwait n r r.readPos (lanes * r.width)
  let x := r.bitsFrom r.readPos (lanes * r.width)
  let v := mkLanes t.width lanes (fun i => ringLane r.fmt t (bitsAt x (i * r.width) r.width))
  if peek then return v
  Act.change (setRing n (r.consume (lanes * r.width)))
  return v

/-- Read one whole entry as it stands (R33). -/
def ringRaw (n : Nat) (peek : Bool) : Act Vec := do
  let r ← Act.ring n false
  let start := r.readPos / 512 * 512
  ringAwait n r start 512
  let v := BitVec.ofNat 512 (r.bitsFrom start 512)
  if peek then return v
  Act.change (setRing n (r.consume (start + 512 - r.readPos)))
  return v

/-- Write bits at the write pointer; each entry they occupy waits for their landing (R33, R120). -/
def pushBits (wait : Nat × Nat × Bool) : Nat → List RingEntry → Nat → Nat → List RingEntry
  | 0, es, _, _ => es
  | fuel + 1, es, x, n =>
    if n = 0 then es
    else
      let (done, o) := openPart es
      let k := Nat.min n (512 - o.valid)
      let o : RingEntry :=
      { o with data := o.data ||| BitVec.ofNat 512 (x % 2 ^ k * 2 ^ o.valid), valid := o.valid + k,
               closed := decide (o.valid + k = 512), waits := o.waits ++ [wait] }
      pushBits wait fuel (done ++ [o]) (x / 2 ^ k) (n - k)

/-- Push a partly written entry with its written lanes (R33, R94, R98). -/
def closePart (es : List RingEntry) : List RingEntry :=
  let (done, o) := openPart es
  if o.valid = 0 then done else done ++ [{ o with closed := true }]

/-- Place bits in a drain ring at issue, landing after l steps (R33, R93, R120). -/
def ringPlace (n : Nat) (r : Ring) (x len l : Nat) : Act Unit := do
  let s ← Act.view id
  let fin := r.writePos + len
  Act.check (match r.streamBits with | some t => decide (fin ≤ t) | none => true) 0x11 0
  if ringDepth s.me n < ceilDiv fin 512 - r.moved then ringStall
  else
    Act.change (setRing n { r with
      entries := pushBits (s.cur.slot.num, s.here + l, s.me.frame.isSome) (len + 2) r.entries x len })

/-- Whether a placed push has landed: for the steps of the main program or of the handler that made it (R120, R343). -/
def waitDone (q : Seq) (w : Nat × Nat × Bool) : Bool :=
  q.status == 0 ||
  (match q.frame with
   | some f => decide (w.2.1 ≤ (if w.2.2 then q.steps.look 0 w.1 else f.steps.look 0 w.1))
   | none => w.2.2 || decide (w.2.1 ≤ q.steps.look 0 w.1))

/-- Push 512 raw bits (R33). -/
def pushRaw (n : Nat) (v : Vec) (l : Nat) : Act Unit := do
  let r ← Act.ring n true
  ringPlace n { r with entries := closePart r.entries } v.toNat 512 l

/-- The draws of the issuing operation from one of them on, for a number of elements; zeros unless RMODE is SR (R113). -/
def drawList (s : State) (skip n : Nat) : List Nat :=
  if rmodeAt s.me s.here = 4 then gDraws n (gSteps (16 * skip) (genAt s s.cur.loc s.here s.cur.slot))
  else List.replicate n 0

/-- Round a list of values into a format under CONV of the issuing bundle (R111): patterns and sticky bits. -/
def convertAll (s : State) (t : Fmt) (skip : Nat) (xs : List Num) : List Nat × Nat :=
  let mode := rmodeAt s.me s.here
  let s4 := sate4At s.me s.here
  let r := (xs.zip (drawList s skip xs.length)).map (fun p => roundTo t mode p.2 s4 p.1)
  (r.map (·.1), (r.map (·.2)).foldl Nat.lor 0)

/-- Push the lanes of a typed result, converted to the ring's format (R33, R120, R122); skip counts the draws the operation
took before. The conversion sets its sticky bits for an integer operation too. (DEDUCED, assumption 57) -/
def pushLanes (n : Nat) (t : Fmt) (skip : Nat) (v : Vec) (l : Nat) : Act Unit := do
  let r ← Act.ring n true
  let s ← Act.view id
  let lanes := 512 / t.width
  let (xs, st) := convertAll s r.fmt skip ((List.range lanes).map (fun i => decodeNum t (lane v i t.width)))
  ringPlace n r (ofLanes r.width xs) (lanes * r.width) l
  stickyAt l st

/-! ### Drain queues (R35, R154) -/

/-- Whether an entry still holds room for M: not popped, or popped in a bundle that M has not passed (R154). -/
def dqHolds (q : Seq) (e : DqEntry) : Bool :=
  match e.popped with
  | some p => (p % 2 == bit q.frame.isSome) && decide (stepOf q .M ≤ p / 2)
  | none => true

/-- Entries of a drain queue that stay: those that hold room, and in a handler those that the interrupted code popped. -/
def dqKeep (q : Seq) (es : List DqEntry) : List DqEntry :=
  es.filter (fun e => dqHolds q e || (q.frame.isSome && (match e.popped with | some p => p % 2 == 0 | none => true)))

/-- The occupancy of a drain queue as M judges it (R154). -/
def dqRoom (q : Seq) (n : Nat) : Nat := ((q.dqs.look [] n).filter (dqHolds q)).length

/-- Whether slot x must find an entry at its step (R26, R154). -/
def dqMust (q : Seq) (x : Slot) (e : DqEntry) : Bool :=
  e.fwd || q.status == 0 ||
  (if e.inh = q.frame.isSome then decide (e.li ≤ stepOf q x) && decide (e.bundle < syncOf q x)
   else match q.frame with
    | some f => decide (e.li ≤ f.steps.look 0 x.num)
    | none => true)

/-- Whether M has yet to issue a push into the queue that the popping slot must find (R26). -/
def dqOwed (s : State) (n : Nat) (x : Slot) : Bool :=
  let q := s.me
  let k := stepOf q x
  (List.range (k - stepOf q .M)).any (fun d =>
    let j := stepOf q .M + d
    decide (j + latency q 15 ≤ k) && decide (j < syncOf q x) &&
    (!knownM q j || match opAhead s s.cur.loc j .M with
     | some (.mdrain _ d _ _ _ _ _) => d.toNat == n
     | some (.mcntRd _ d _) | some (.mcntSnap _ d _) => d.toNat == n
     | _ => false))

/-- Pop one entry of a drain queue (R35, R154). -/
def dqPop (n : Nat) : Act Vec := fun s =>
  let q := s.me
  let x := s.cur.slot
  let es := dqKeep q (q.dqs.look [] n)
  match es.find? (fun e => e.popped.isNone) with
  | none => if dqOwed s n x then .error .stall else .error (.trap 0x21 n)
  | some e =>
    if dqMust q x e || Config.freeBit s.free e.uid then
      let es := es.map (fun d => if d.uid = e.uid then { d with popped := some (2 * stepOf q x + bit q.frame.isSome) } else d)
      .ok (e.data, s.setMe { q with dqs := q.dqs.put n es })
    else .error (.trap 0x21 n)

/-- The entries of a drain queue that hold room: pushed and not popped. -/
def dqCount (q : Seq) (n : Nat) : Nat := ((q.dqs.look [] n).filter (fun e => e.popped.isNone)).length

/-! ### Operands of the vector, X and W slots -/

/-- An operand as 512 raw bits: register, whole ring entry, drain-queue entry (R86, R119, R161). -/
def readRaw (o : Opnd) : Act Vec := do
  let x ← Act.view (fun s => s.cur.slot)
  match o with
  | .own i => readReg ⟨ownFile x, i.toNat⟩
  | .com c => readReg ⟨.c, c.toNat⟩
  | .pop q => ringRaw q.toNat false
  | .peek q => ringRaw q.toNat true
  | .dq n => dqPop n.toNat

/-- An operand of a vector operation of a type (R119). -/
def readVec (t : Fmt) (o : Opnd) : Act Vec := do
  match o with
  | .pop q => ringRead q.toNat false t
  | .peek q => ringRead q.toNat true t
  | _ => readRaw o

end Sys2Proof.Machine
end

