-- ==== Sys2Proof/Machine/Chunks.lean ====
section
/-! DEFINITION. Checksums and chunks (R169 to R171): what the stream decoder and `xexp` read. -/

namespace Sys2Proof.Machine

/-- Eight steps of the CRC-32C register (R169). -/
def crcBits : Nat → Nat → Nat
  | 0, c => c
  | n + 1, c => crcBits n (if c % 2 = 1 then Nat.xor (c / 2) 0x82F63B78 else c / 2)

/-- The CRC-32C state after a list of bytes (R169). -/
def crcBytes (c : Nat) (bs : List Byte) : Nat := bs.foldl (fun c b => crcBits 8 (Nat.xor c b.toNat)) c

/-- The CRC-32C of a byte string as a chunk header holds it (R169). -/
def crc32c (bs : List Byte) : Nat := Nat.xor (crcBytes 0xFFFFFFFF bs) 0xFFFFFFFF

/-- Blocks read so far: elements last first, bit position, a fault of the second row of Table 9.5, a block beyond the
ratio, a block that leaves the bits at hand. -/
structure Blocks where
  els  : List Nat
  pos  : Nat
  bad  : Bool
  tooBig : Bool
  cut  : Bool
  deriving DecidableEq, Repr

/-- The elements of a presence-mask block whose mask bits are given (R170). -/
def maskElements (v w : Nat) : List Bool → Nat → List Nat → List Nat × Nat
  | [], pos, els => (els, pos)
  | b :: bs, pos, els => if b then maskElements v w bs (pos + w) (bitsAt v pos w :: els) else maskElements v w bs pos (0 :: els)

/-- Presence-mask blocks (R170): v holds the payload of n bits, of which size are at hand; rest elements remain. -/
def maskBlocks (v n size w ratio : Nat) : Nat → Nat → Blocks → Blocks
  | 0, _, b => b
  | fuel + 1, rest, b =>
    if rest = 0 ∨ b.bad ∨ b.cut then b
    else if size < b.pos + 64 then { b with bad := decide (n < b.pos + 64), cut := true }
    else
      let c := Nat.min 64 rest
      let m := bitsAt v b.pos 64
      let (els, pos) := maskElements v w (bitList c m) (b.pos + 64) b.els
      let ones := onesCount 64 m
      maskBlocks v n size w ratio fuel (rest - c)
        ⟨els, pos, decide (2 ^ c ≤ m) || decide (n < pos), b.tooBig || decide (ratio * (64 + w * ones) < c * w), decide (size < pos)⟩

/-- The running sums of a delta block (R170). -/
def deltaElements (v w : Nat) : Nat → Nat → Nat → List Nat → List Nat × Nat × Nat
  | 0, pos, x, els => (els, pos, x)
  | n + 1, pos, x, els =>
    let y := (x + bitsAt v pos w) % 2 ^ 32
    deltaElements v w n (pos + w) y (y :: els)

/-- Delta-bitpack blocks (R170): x is the last element. -/
def deltaBlocks (v n size ratio : Nat) : Nat → Nat → Nat → Blocks → Blocks
  | 0, _, _, b => b
  | fuel + 1, rest, x, b =>
    if rest = 0 ∨ b.bad ∨ b.cut then b
    else if size < b.pos + 8 then { b with bad := decide (n < b.pos + 8), cut := true }
    else
      let c := Nat.min 4 rest
      let wb := bitsAt v b.pos 8
      let w := wb % 32 + 1
      let (els, pos, y) := deltaElements v w c (b.pos + 8) x b.els
      let fin := ceilDiv pos 8 * 8
      deltaBlocks v n size ratio fuel (rest - c) y
        ⟨els, fin, decide (32 ≤ wb) || (decide (fin ≤ size) && bitsAt v pos (fin - pos) != 0) || decide (n < fin),
         b.tooBig || decide (ratio * (8 + 8 * ceilDiv (w * c) 8) < c * 32), decide (size < fin)⟩

/-- Decode a chunk (R170, R171): its kind, element width, ratio bound, whether the CRC is checked, the elements its stream
has room for, its header, its payload of ELEN bytes as far as the window holds them, and the bytes that pad it. The elements, or the
trap code of the first check that fails: on a payload that leaves the window, the checks of the blocks within come before that of the
window. -/
def decodeChunk (kind w ratio : Nat) (chk : Bool) (room hdr : Nat) (pay pad : List Byte) : Except Nat (List Nat) :=
  let dlen := bitsAt hdr 0 16
  let v := ofBytes pay
  let size := 8 * pay.length
  let n := 8 * bitsAt hdr 16 16
  let b := if kind = 1 then maskBlocks v n size w ratio (ceilDiv dlen 64 + 1) dlen ⟨[], 0, false, false, false⟩
    else deltaBlocks v n size ratio (ceilDiv dlen 4 + 1) dlen (bitsAt v 0 32) ⟨[], 32, decide (n < 32), false, decide (size < 32)⟩
  let tail := ceilDiv b.pos 8 * 8
  if chk ∧ size = n ∧ crc32c pay ≠ bitsAt hdr 32 32 then .error 0x23
  else if dlen = 0 ∨ room < dlen ∨ b.bad ∨ (!b.cut ∧ (tail ≠ n ∨ bitsAt v b.pos (tail - b.pos) ≠ 0)) ∨
      pad.any (fun x => x != 0) then .error 0x23
  else if b.tooBig then .error 0x24
  else if size < n then .error 0x11
  else .ok b.els.reverse

end Sys2Proof.Machine
end

