-- ==== Sys2Proof/Machine/Matrix.lean ====
section
/-! DEFINITION. The M slot: the Tarn, the Larder, the array and the routine store (08_matrix.md R142 to R160). -/

namespace Sys2Proof.Machine

/-! ### Summation (R149) -/

/-- The starts of the groups of a slab (R149). -/
def groupStarts (o : ArrayOp) : List Nat :=
  (List.range o.kn).filter (fun k =>
    k == 0 || (o.af.width < 8 && k == 32) ||
    (o.blk != 0 && (o.k0 + k) / blockLen o.blk != (o.k0 + k - 1) / blockLen o.blk))

/-- floor(log2 |p|) of a non-zero product. -/
def Num.top : Num → Int
  | .fin _ m e => (m.log2 : Int) + e
  | _ => 0

/-- floor(p / 2^u). -/
def Num.floorAt (u : Int) : Num → Int
  | .fin s m e =>
    let x : Int := if s then -(m : Int) else m
    if u ≤ e then x * 2 ^ (e - u).toNat else x / 2 ^ (u - e).toNat
  | _ => 0

/-- An integer times 2^u. -/
def Num.ofUnits (x u : Int) : Num := .fin (decide (x < 0)) x.natAbs u

/-- The sum of a group's products (R149): truncated into a window for the 16-bit class, else exact. -/
def groupSum (wide : Bool) (ps : List Num) : Num :=
  let odd := ps.any (fun p => match p with | .fin _ _ _ => false | _ => true)
  let live := ps.filter (fun p => !p.isZero)
  if wide && !odd && !live.isEmpty then
    let u := (live.tail.map Num.top).foldl max (live.headD .nan).top - 58
    Num.ofUnits ((ps.map (Num.floorAt u)).foldl (· + ·) 0) u
  else ps.foldl Num.add (.fin false 0 0)

/-- The value of an E8 scale; 0xFF is a NaN (R149). -/
def scaleNum (x : Nat) : Num := if x = 0xFF then .nan else .fin false 1 ((x : Int) - 127)

/-- GroupValue of R149: products of a group, and its scales where it is scaled. -/
def groupValue (wide : Bool) (scales : Option (Nat × Nat)) (ps : List Num) : Num :=
  let g := groupSum wide ps
  let g := match scales with
    | none => g
    | some (a, b) => (g.mul (scaleNum a)).mul (scaleNum b)
  if g.isZero then .fin false 0 0 else decodeNum .f32 (roundNear .f32 g).1

/-- Apply of R149: the new element, and whether it is a NaN and whether an infinity. -/
def applyGroup (x : BitVec 32) (g : Num) : BitVec 32 × Bool × Bool :=
  let y := BitVec.ofNat 32 (roundNear .f32 ((decodeNum .f32 x.toNat).add g)).1
  (y, (decodeNum .f32 y.toNat).isNan, match decodeNum .f32 y.toNat with | .inf _ => true | _ => false)

/-- The scale of the element of the A operand with index e. -/
def ArrayOp.aScale (o : ArrayOp) (e : Nat) : Nat := bitsAt o.ascale (8 * e) 8

/-- The B scale of a block and column (R146). -/
def ArrayOp.bScale (o : ArrayOp) (block n : Nat) : Nat := lane (o.bscale.getD (4 * block + n / 64) 0) (n % 64) 8

/-- The groups of one element as lists of products with their scales (R149): a row of A and a column of B. -/
def elementGroups (o : ArrayOp) (r n : Nat) (a b : List Num) : List Num :=
  let starts := groupStarts o
  (starts.zip (starts.tail ++ [o.kn])).map (fun g =>
    let k := g.1
    let ps := ((a.drop k).take (g.2 - k)).zipWith Num.mul ((b.drop k).take (g.2 - k))
    let block := (o.k0 + k) / blockLen o.blk - o.k0 / blockLen o.blk
    groupValue (o.af.width == 16) (if o.blk = 0 then none else some (o.aScale (128 * k + r), o.bScale block n)) ps)

/-- One element of a tile over the groups in order: its new bits, NaNs and infinities counted. -/
def elementUpdate (x : BitVec 32) : List Num → BitVec 32 × Nat × Nat
  | [] => (x, 0, 0)
  | g :: gs =>
    let (y, isNan, isInf) := applyGroup x g
    let (z, n, i) := elementUpdate y gs
    (z, n + bit isNan, i + bit isInf)

/-! ### The Tarn (R142, R143) -/

/-- The key of element 0 of a tile of a location. -/
def tileBase (s : State) (loc acc : Nat) : Nat := (winBase loc Config.tFile (s.seqAt loc).task.winAcc + acc) * 32768

/-- The number by which a core keeps the counters of a tile. -/
def tileNo (s : State) (loc acc : Nat) : Nat := tileBase s loc acc / 32768

/-- Replace whole rows of a tile with listed elements, by row then column. -/
def putRows (t : Tab (BitVec 32)) (base first : Nat) (xs : List (BitVec 32)) : Tab (BitVec 32) :=
  let lo := base + 256 * first
  let new := ((List.range xs.length).zip xs).filterMap (fun p => if p.2 = 0 then none else some (lo + p.1, p.2))
  t.filter (fun e => e.1 < lo) ++ new ++ t.filter (fun e => lo + xs.length ≤ e.1)

/-- Elements of consecutive rows of a tile, by row then column; missing keys hold +0. -/
def rowsOf (t : Tab (BitVec 32)) : Nat → Nat → List (BitVec 32)
  | _, 0 => []
  | k, n + 1 =>
    match t with
    | [] => 0 :: rowsOf [] (k + 1) n
    | (i, v) :: r => if i = k then v :: rowsOf r (k + 1) n else 0 :: rowsOf ((i, v) :: r) (k + 1) n

/-- The elements of rows first to first + n - 1 of a tile. -/
def tileRows (t : Tab (BitVec 32)) (base first n : Nat) : List (BitVec 32) :=
  rowsOf (t.filter (fun e => base + 256 * first ≤ e.1)) (base + 256 * first) (256 * n)

/-- The A operand of an array operation by row (R153). -/
def ArrayOp.rowsA (o : ArrayOp) : List (List Num) :=
  (List.range 128).map (fun r => (List.range o.kn).map (fun k =>
    decodeNum o.af (bitsAt o.abits ((128 * k + r) * o.af.width) o.af.width)))

/-- The B operand by column. -/
def ArrayOp.colsB (o : ArrayOp) : List (List Num) :=
  (List.range 256).map (fun n => o.brows.map (fun row => decodeNum o.bf (bitsAt row (n * o.bf.width) o.bf.width)))

/-- Perform an array operation on the elements of its tile (R149): new elements, NaNs and infinities counted. -/
def arrayResult (o : ArrayOp) (old : List (BitVec 32)) : List (BitVec 32) × Nat × Nat :=
  let cols := (List.range 256).zip o.colsB
  let pairs := ((List.range 128).zip o.rowsA).flatMap (fun r => cols.map (fun c => elementGroups o r.1 c.1 r.2 c.2))
  let out := old.zipWith elementUpdate pairs
  (out.map (·.1), (out.map (·.2.1)).sum, (out.map (·.2.2)).sum)

/-- A saturating 16-bit count (R149). -/
def count16 (t : Tab Nat) (k n : Nat) : Tab Nat := if n = 0 then t else t.put k (Nat.min 65535 (t.look 0 k + n))

/-- Perform a tile write (R143, R149, R151, R154). -/
def performTile (s : State) (loc : Nat) (t : TileWrite) : State :=
  let c := s.coreAt (coreOf loc)
  let b := tileBase s loc t.acc
  let no := tileNo s loc t.acc
  match t.kind with
  | .clear => s.setCore (coreOf loc) { c with tile := c.tile.clear b 32768, ovfc := c.ovfc.drop no, nanc := c.nanc.drop no }
  | .rows rs nr => s.setCore (coreOf loc) { c with tile := c.tile.clear (b + 256 * rs) (256 * nr) }
  | .array o =>
    let (xs, nans, infs) := arrayResult o (tileRows c.tile b 0 128)
    s.setCore (coreOf loc)
      { c with tile := putRows c.tile b 0 xs, nanc := count16 c.nanc no nans, ovfc := count16 c.ovfc no infs }

/-- Whether a tile write has all its data. -/
def TileWrite.complete (t : TileWrite) : Bool := match t.kind with | .array o => arrayNeed o == 0 | _ => true

/-- Whether a tile write is due: M of the code that issued it, the handler's or the interrupted one, has reached its landing
index (R338, R343), or the task ends (R77). -/
def tileDue (q : Seq) (t : TileWrite) : Bool :=
  halting q || decide (t.li ≤ (match q.frame with
    | some f => if t.inh then stepOf q .M else f.steps.look 0 Slot.M.num
    | none => stepOf q .M))

/-- Perform the tile writes that are due and complete, each after the earlier ones on its tile. -/
def landTileList (loc : Nat) : List TileWrite → List TileWrite → State → State × List TileWrite
  | [], kept, s => (s, kept)
  | t :: ts, kept, s =>
    if t.complete && tileDue (s.seqAt loc) t && !kept.any (fun k => k.acc == t.acc && k.inh == t.inh) then
      landTileList loc ts kept (performTile s loc t)
    else landTileList loc ts (kept ++ [t]) s

/-- Perform what is due of a sequencer's tile writes (R143). -/
def landTiles (s : State) (loc : Nat) : State :=
  let (t, kept) := landTileList loc (s.seqAt loc).tiles [] s
  t.setSeq loc { t.seqAt loc with tiles := kept }

/-- Whether a tile write of this code has reached its landing index and is not complete (R143). -/
def scoreboarded (q : Seq) (acc : Nat) : Bool :=
  q.tiles.any (fun t => t.acc == acc && t.inh == q.frame.isSome && decide (t.li ≤ stepOf q .M))

/-- Perform the tile writes that are due, then wait for the tile (R143). -/
def useTile (acc : Nat) : Act Unit := do
  Act.change (fun s => landTiles s s.cur.loc)
  Act.await (fun s => !scoreboarded s.me acc)

/-- Add a tile write of the issuing operation (R143), whatever the number of those in flight (R338). (DEDUCED, assumption 70) -/
def addTile (acc : Nat) (k : TileKind) : Act Unit := Act.change (fun s =>
  let q := s.me
  s.setMe { q with tiles := q.tiles ++ [⟨acc, k, s.here + latency q 14, q.frame.isSome⟩] })

/-! ### The Larder (R145 to R147) -/

/-- Lines of a sequencer's Larder window. -/
def larderWindow (q : Seq) : Nat := 1024 * q.task.winLar
/-- The core's line of window line 0. -/
def larderBase (q : Seq) (loc : Nat) : Nat := if loc % 2 = 0 then 0 else Config.larderLines - larderWindow q
/-- A line of the window; lines outside it hold nothing a sequencer can read. -/
def larderLine (s : State) (loc l : Nat) : Vec :=
  if l < larderWindow (s.seqAt loc) then (s.coreAt (coreOf loc)).larder.look 0 (larderBase (s.seqAt loc) loc + l) else 0

/-- The lines a row of KN elements of w bits can take at most (R147). -/
def rowWorst (w : Nat) : Nat := ceilDiv (256 + 256 * w) 512
/-- The worst-case extent of a slab (R147, R155). -/
def slabWorst (nb kn w : Nat) : Nat := 1 + 4 * nb + kn * rowWorst w
/-- Blocks touched by kn rows from k0 on (R155). -/
def blocksIn (blk k0 kn : Nat) : Nat :=
  if blk = 0 then 0 else (k0 + kn - 1) / blockLen blk - k0 / blockLen blk + 1

/-- Whether two runs of lines meet. -/
def linesMeet (a n b m : Nat) : Bool := decide (a < b + m) && decide (b < a + n)

/-- Whether lines are still being written by an `mlar` (R147). -/
def linesWritten (q : Seq) (l n : Nat) : Bool :=
  q.fills.any (fun f => f.done.isNone && linesMeet f.line f.worst l n)

/-- Expand one chunk of a row (R146): columns that remain, mask, bit position; the elements with the position after them. -/
def expandChunk (v w : Nat) : Nat → Nat → Nat → List Nat × Nat
  | 0, _, pos => ([], pos)
  | n + 1, mask, pos =>
    if mask % 2 = 1 then
      let (xs, p) := expandChunk v w n (mask / 2) (pos + w)
      (bitsAt v pos w :: xs, p)
    else
      let (xs, p) := expandChunk v w n (mask / 2) pos
      (0 :: xs, p)

/-- Expand the chunks of a row (R146). -/
def expandChunks (v w : Nat) : Nat → Nat → List Nat × Nat
  | 0, pos => ([], pos)
  | n + 1, pos =>
    let (xs, p) := expandChunk v w 64 (bitsAt v pos 64) (pos + 64)
    let (ys, p') := expandChunks v w n p
    (xs ++ ys, p')

/-- Expand the rows of a slab from a line on: the packed columns of each row and the line after the last. -/
def expandRows (s : State) (loc w : Nat) : Nat → Nat → List Nat × Nat
  | 0, l => ([], l)
  | n + 1, l =>
    let v := ofLanes 512 ((List.range (rowWorst w)).map (fun j => (larderLine s loc (l + j)).toNat))
    let (xs, p) := expandChunks v w 4 0
    let (rows, fin) := expandRows s loc w n (l + ceilDiv p 512)
    (ofLanes w xs :: rows, fin)

/-- Compress one row (R146): its bits and their number. -/
def compressRow (w : Nat) (xs : List Nat) : Nat → Nat × Nat
  | 0 => (0, 0)
  | n + 1 =>
    let (low, len) := compressRow w xs n
    let chunk := (xs.drop (64 * n)).take 64
    let kept := chunk.filter (· != 0)
    (low + 2 ^ len * (ofLanes 1 (chunk.map (fun x => bit (x != 0))) + 2 ^ 64 * ofLanes w kept), len + 64 + w * kept.length)

/-- The lines of a slab (R146): header, scale lines, rows. -/
def slabLines (f : Fill) : List Nat :=
  let w := f.fmt.width
  let nb := blocksIn f.blk f.k0 f.kn
  let l := blockLen f.blk
  let rows := (List.range f.kn).flatMap (fun k =>
    let (v, len) := compressRow w ((List.range 256).map (fun n => bitsAt f.bits ((256 * k + n) * w) w)) 4
    (List.range (ceilDiv len 512)).map (fun j => bitsAt v (512 * j) 512))
  let scales := (List.range nb).flatMap (fun j =>
    let k := (f.k0 / l + j) * l - f.k0
    (List.range 4).map (fun c => bitsAt f.scales (8 * (256 * k + 64 * c)) 512))
  let lines := 1 + scales.length + rows.length
  packBits [(0, 5, f.fmt.code), (5, 7, f.kn), (12, 2, f.blk), (14, 3, nb), (32, 16, if f.blk = 0 then 0 else f.ktot),
    (48, 16, if f.blk = 0 then 0 else f.k0), (64, 16, lines)] :: (scales ++ rows)

/-- Write lines to a sequencer's Larder window. -/
def putLines (s : State) (loc : Nat) : Nat → List Nat → State
  | _, [] => s
  | l, x :: xs =>
    let t := putLines s loc (l + 1) xs
    let c := t.coreAt (coreOf loc)
    t.setCore (coreOf loc) { c with larder :=
      (if x = 0 then c.larder.drop (larderBase (t.seqAt loc) loc + l)
       else c.larder.put (larderBase (t.seqAt loc) loc + l) (BitVec.ofNat 512 x)) }

/-- Complete the first fill that has all its elements and overlaps no earlier fill still under way (R147, R155). -/
def completeFill (s : State) (loc : Nat) : List Fill → List Fill → State
  | _, [] => s
  | before, f :: fs =>
    if f.done.isNone && fillNeed f == 0 &&
        !before.any (fun e => e.done.isNone && linesMeet e.line e.worst f.line f.worst) then
      let ls := slabLines f
      let t := putLines s loc f.line ls
      let rest := match f.wait with | none => [] | some _ => [{ f with done := some ls.length }]
      t.setSeq loc { t.seqAt loc with fills := before ++ rest ++ fs }
    else completeFill s loc (before ++ [f]) fs

/-! ### Feeding from rings (R153) -/

/-- The E8 scale that the ring carries for element e (R148). -/
def Ring.scaleOf (r : Ring) (e : Nat) : Nat :=
  let no := e * r.width / 512
  let first := r.moved - r.entries.length
  bitsAt ((r.entries.getD (no - first) ⟨0, 0, true, [], none, 0⟩).scales) (8 * (e - ceilDiv (512 * no) r.width)) 8

/-- How many elements can be taken now: as many as the filled entries hold before the first marked one. -/
def Ring.ready (r : Ring) (need : Nat) : Nat :=
  let first := r.moved - r.entries.length
  let fin := match (List.range r.entries.length).find? (fun j =>
      ((r.entries.getD j ⟨0, 0, true, [], none, 0⟩).err).isSome) with
    | some j => 512 * (first + j)
    | none => r.filled
  Nat.min need ((fin - r.readPos) / r.width)

/-- The scales of n elements from the read pointer, packed. -/
def Ring.takeScales (r : Ring) (n : Nat) : Nat :=
  if r.blk = 0 then 0 else ofLanes 8 ((List.range n).map (fun j => r.scaleOf (r.readPos / r.width + j)))

/-- An array operation takes what its ring holds. -/
def feedArray (o : ArrayOp) (r : Ring) : ArrayOp × Ring :=
  let n := r.ready (arrayNeed o)
  ({ o with
      abits := o.abits + 2 ^ (o.taken * r.width) * r.bitsFrom r.readPos (n * r.width),
      ascale := o.ascale + 2 ^ (8 * o.taken) * r.takeScales n, taken := o.taken + n },
   r.consume (n * r.width))

/-- A Larder fill takes what its ring holds. -/
def feedFill (f : Fill) (r : Ring) : Fill × Ring :=
  let n := r.ready (fillNeed f)
  ({ f with
      bits := f.bits + 2 ^ (f.taken * r.width) * r.bitsFrom r.readPos (n * r.width),
      scales := f.scales + 2 ^ (8 * f.taken) * r.takeScales n, taken := f.taken + n },
   r.consume (n * r.width))

/-- The array operations of a list take what ring n holds. -/
def feedTiles (n : Nat) : List TileWrite → Ring → List TileWrite × Ring
  | [], r => ([], r)
  | t :: ts, r =>
    match t.kind with
    | .array o =>
      if o.ring = n ∧ arrayNeed o ≠ 0 then
        let (o', r') := feedArray o r
        ({ t with kind := .array o' } :: ts, r')
      else let (ts', r') := feedTiles n ts r; (t :: ts', r')
    | _ => let (ts', r') := feedTiles n ts r; (t :: ts', r')

/-- The Larder fills of a list take what ring n holds. -/
def feedFills (n : Nat) : List Fill → Ring → List Fill × Ring
  | [], r => ([], r)
  | f :: fs, r =>
    if f.ring = n ∧ fillNeed f ≠ 0 then
      let (f', r') := feedFill f r
      (f' :: fs, r')
    else let (fs', r') := feedFills n fs r; (f :: fs', r')

/-- The operation under way on ring n takes what the ring holds (R153). -/
def feedRing (s : State) (loc n : Nat) : State :=
  let q := s.seqAt loc
  match q.rings.find n with
  | none => s
  | some r =>
    if !ringBusy q n then s
    else
      let (ts, r) := feedTiles n q.tiles r
      let (fs, r) := feedFills n q.fills r
      s.setSeq loc { q with tiles := ts, fills := fs, rings := q.rings.put n r }

/-- The trap that ends an operation which can take nothing more from ring n (R153, R348): code and INFO. -/
def stuckOn (q : Seq) (n : Nat) : Option (Nat × Nat) :=
  match q.rings.find n with
  | none => none
  | some r =>
    if !ringBusy q n ∨ r.ready 1 ≠ 0 then none
    else match r.errFrom r.readPos r.width with
      | some a => some (0x70, a)
      | none => if r.fail ≠ 0 ∧ r.failEntry ≤ r.moved then some (r.fail, if r.fail = 0x70 then r.failInfo else n) else none

/-- Discard the operation under way on ring n (R153). -/
def discardOn (q : Seq) (n : Nat) : Seq :=
  { q with
    tiles := q.tiles.filter (fun t => match t.kind with | .array o => !(o.ring == n && arrayNeed o != 0) | _ => true),
    fills := q.fills.filter (fun f => !(f.ring == n && fillNeed f != 0)) }

/-! ### Instructions -/

/-- The checks that `mmac`, `mmacs` and `mlar` share at issue (R153): elements left, then the first entry. -/
def takeReady (n : Nat) (r : Ring) (need : Nat) : Act Unit := do
  Act.check (r.gather || decide (r.readPos + need * r.width ≤ r.total * r.width)) 0x11 0
  ringAwait n r r.readPos (Nat.min (need * r.width) (512 - r.readPos % 512))

/-- The Larder line in an m register (R145). -/
def lineIn (lm : BitVec 3) : Act Nat := do
  let l ← readNat .m lm.toNat
  let w ← Act.view (fun s => larderWindow s.me)
  Act.check (decide (l < w)) 0x11 0
  return l

/-- The checks of a slab header that both array operations make (R152). -/
def headerOk (h window l : Nat) (bf : Fmt) (kn : Nat) (scaled : Bool) : Bool :=
  bitsAt h 0 5 == bf.code && bitsAt h 5 7 == kn && bitsAt h 17 15 == 0 && bitsAt h 80 432 == 0 &&
  ((bitsAt h 12 2 != 0) == scaled) && decide (l + bitsAt h 64 16 ≤ window)

/-- The checks of an `mmacs` run (R152). -/
def runOk (r : Ring) (h run : Nat) (kn : Nat) : Bool :=
  let k := bitsAt run 0 16
  let k0 := bitsAt run 16 16
  let l := blockLen r.blk
  k != 0 && decide (k0 + kn ≤ k) && ceilDiv (r.cnt r.blkDim) l == ceilDiv k l &&
  (decide (r.total * r.width ≤ r.readPos) || (r.coord (r.readPos / r.width)).getD r.blkDim 0 == k0) &&
  bitsAt h 12 2 == r.blk && bitsAt h 32 16 == k && bitsAt h 48 16 == k0

/-- Take the matrix array for its 32 cycles, once no operation of either sequencer holds it (R25, R144). -/
def takeArray : Act Unit := do
  Act.await (fun s => decide ((s.coreAt (coreOf s.cur.loc)).arrayTo ≤ s.now))
  Act.change (fun s => s.setCore (coreOf s.cur.loc) { s.coreAt (coreOf s.cur.loc) with arrayTo := s.now + Config.arrayTime })

/-- What `mmac` and `mmacs` do at issue (R152, R153); km holds the run of `mmacs`. The checks of R152 come before those of R153 on the
ring's elements; where no element is left there is none whose coordinate could differ from k0. (DEDUCED, assumption 58) -/
def actMmac (acc q : BitVec 5) (af bf : Fmt) (kn : BitVec 7) (lm : BitVec 3) (km : Option (BitVec 3)) (adv : Bool) :
    Act Unit := do
  useTile acc.toNat
  let r ← Act.ring q.toNat false
  let l ← lineIn lm
  Act.await (fun s => !linesWritten s.me l 1)
  let s ← Act.view id
  let h := (larderLine s s.cur.loc l).toNat
  Act.check (headerOk h (larderWindow s.me) l bf kn.toNat km.isSome) 0x23 q.toNat
  Act.await (fun s => !linesWritten s.me l (bitsAt h 64 16))
  let run ← (match km with | some k => readNat .m k.toNat | none => pure 0)
  Act.check (km.isNone || runOk r h run kn.toNat) 0x22 0
  takeReady q.toNat r (128 * kn.toNat)
  let nb := bitsAt h 14 3
  let (rows, fin) := expandRows s s.cur.loc bf.width kn.toNat (l + 1 + 4 * nb)
  Act.check (decide (fin ≤ larderWindow s.me)) 0x11 0
  let o : ArrayOp :=
  { ring := q.toNat, af := af, bf := bf, kn := kn.toNat, abits := 0, taken := 0, brows := rows, ascale := 0,
    bscale := (List.range (4 * nb)).map (fun j => larderLine s s.cur.loc (l + 1 + j)),
    blk := r.blk, k0 := bitsAt run 16 16 }
  takeArray
  addTile acc.toNat (.array o)
  Act.change (fun s => perf (feedRing s s.cur.loc q.toNat) s.cur.loc 2 1)
  if adv then do
    writeReg ⟨.m, lm.toNat⟩ 1 (BitVec.ofNat 512 ((l + bitsAt h 64 16) % 2 ^ 64))
    match km with
    | some k => do
      let k0 := bitsAt run 16 16 + kn.toNat
      let k0 := if k0 = bitsAt run 0 16 then 0 else k0
      writeReg ⟨.m, k.toNat⟩ 1 (BitVec.ofNat 512 (run - bitsAt run 16 16 * 2 ^ 16 + k0 * 2 ^ 16))
    | none => pure ()

/-- What `mclr` does at issue (R151). -/
def actMclr (acc : BitVec 5) : Act Unit := do
  useTile acc.toNat
  addTile acc.toNat .clear

/-- Push an entry of M into a drain queue: it lands at the issue index plus l (R154). -/
def pushDq (n : Nat) (v : Vec) (l : Nat) : Act Unit := Act.change (fun s =>
  let q := s.me
  let es := dqKeep q (q.dqs.look [] n)
  s.setMe { q with dqs := q.dqs.put n (es ++
    [⟨v, s.here + l, s.here, false, q.frame.isSome, none, 64 * s.free + es.length % 64⟩]) })

/-- The checks of `mdrain` and `mcnt` on a drain queue (R154, R160): the popping slots have issued the bundle before, and the entries
find room. A queue that is a ring's END = 2 target raises trap 0x01 whatever the predicate (DEDUCED, assumption 45: `ringsOk`). -/
def reserveDq (n count : Nat) : Act Unit := do
  Act.await (fun s => [Slot.V0, .V1, .W, .C, .X].all (fun x => decide (s.here ≤ stepOf s.me x)))
  let q ← Act.view State.me
  Act.check (decide (dqRoom q n + count ≤ 64)) 0x21 n

/-- Push a list of entries at rising landing indices. -/
def pushDqAll (n l : Nat) : List Nat → Nat → Act Unit
  | [], _ => pure ()
  | x :: xs, e => do
    pushDq n (BitVec.ofNat 512 x) (l + e)
    pushDqAll n l xs (e + 1)

/-- What `mdrain` does at issue (R154). -/
def actMdrain (dq : BitVec 2) (acc : BitVec 5) (rs : BitVec 7) (nr1 : BitVec 4) (fo : Fmt) (cl : Bool) : Act Unit := do
  useTile acc.toNat
  let nr := nr1.toNat + 1
  let ne := ceilDiv (nr * 256 * fo.width) 512
  reserveDq dq.toNat ne
  let s ← Act.view id
  let xs := tileRows (s.coreAt (coreOf s.cur.loc)).tile (tileBase s s.cur.loc acc.toNat) rs.toNat nr
  let (ys, st) := convertAll s fo 0 (xs.map (fun x => decodeNum .f32 x.toNat))
  let all := ofLanes fo.width ys
  let l := latency s.me 15
  pushDqAll dq.toNat l ((List.range ne).map (fun e => bitsAt all (512 * e) 512)) 0
  stickyAt l st
  if cl then addTile acc.toNat (.rows rs.toNat nr)

/-- Whether the `mlar` of M's bundle has begun and waits for its fill (R155): its predicate has been judged. -/
def mlarBegun (s : State) : Bool := s.me.fills.any (fun f => f.wait == some (s.here, s.me.frame.isSome))

/-- What `mlar` does at issue (R155). One that waits for its fill and whose fill the trap of R153 has discarded issues anew.
(DEDUCED, assumption 59) -/
def actMlar (q : BitVec 5) (kn : BitVec 7) (lm : BitVec 3) (adv : BitVec 2) : Act Unit := do
  let s ← Act.view id
  let mine := some (s.here, s.me.frame.isSome)
  match s.me.fills.find? (fun f => f.wait == mine) with
  | some f =>
    match f.done with
    | none => Act.stall
    | some lines => do
      Act.change (fun s => s.setMe { s.me with fills := s.me.fills.filter (fun f => f.wait != mine) })
      writeReg ⟨.m, lm.toNat⟩ 1 (BitVec.ofNat 512 (f.line + lines))
  | none => do
    let r ← Act.ring q.toNat false
    let l ← lineIn lm
    let k0 := if r.blk = 0 then 0 else (r.coord (r.readPos / r.width)).getD 1 0
    let worst := slabWorst (blocksIn r.blk k0 kn.toNat) kn.toNat r.width
    Act.check (decide (l + worst ≤ larderWindow s.me)) 0x11 0
    takeReady q.toNat r (256 * kn.toNat)
    let f : Fill :=
    { ring := q.toNat, fmt := r.fmt, kn := kn.toNat, line := l, bits := 0, taken := 0, scales := 0, blk := r.blk,
      k0 := k0, ktot := r.cnt 1, worst := worst, done := none, wait := if adv = 2 then mine else none }
    Act.change (fun s => feedRing (s.setMe { s.me with fills := s.me.fills ++ [f] }) s.cur.loc q.toNat)
    if adv = 2 then (fun s => .error (.stallWith s))
    else if adv = 1 then writeReg ⟨.m, lm.toNat⟩ 1 (BitVec.ofNat 512 (l + worst))

/-- What `mpar` does at issue (R156). -/
def actMpar (md : BitVec 3) (imm : BitVec 32) (hi : Bool) : Act Unit := do
  let old ← (if hi then readNat .m md.toNat else pure 0)
  writeReg ⟨.m, md.toNat⟩ 1 (BitVec.ofNat 512 (if hi then old % 2 ^ 32 + imm.toNat * 2 ^ 32 else imm.toNat))

/-- The counters of a tile as an entry (R160). -/
def countersOf (s : State) (acc : Nat) : Nat :=
  let c := s.coreAt (coreOf s.cur.loc)
  let no := tileNo s s.cur.loc acc
  c.ovfc.look 0 no + c.nanc.look 0 no * 2 ^ 16

/-- Clear both counters of a tile (R160). -/
def clearCounters (acc : Nat) (s : State) : State :=
  let c := s.coreAt (coreOf s.cur.loc)
  let no := tileNo s s.cur.loc acc
  s.setCore (coreOf s.cur.loc) { c with ovfc := c.ovfc.drop no, nanc := c.nanc.drop no }

/-- What `mcnt.rd`, and with clear `mcnt.snap`, do at issue (R160). -/
def actMcnt (dq : BitVec 2) (acc : BitVec 5) (clear : Bool) : Act Unit := do
  useTile acc.toNat
  reserveDq dq.toNat 1
  let s ← Act.view id
  pushDq dq.toNat (BitVec.ofNat 512 (countersOf s acc.toNat)) (latency s.me 15)
  if clear then Act.change (clearCounters acc.toNat)

/-- What `mcnt.clr` does at issue (R160). -/
def actMcntClr (acc : BitVec 5) : Act Unit := do
  useTile acc.toNat
  Act.change (clearCounters acc.toNat)

/-- `mclr` (R151). -/
def execMclr (g : Guard) (acc : BitVec 5) (s : State) : Host.Outcome State Fault Refusal :=
  issue (.mclr g acc) g (actMclr acc) s
/-- `mmac` (R152, R153). -/
def execMmac (g : Guard) (acc q : BitVec 5) (af bf : Fmt) (kn : BitVec 7) (lm : BitVec 3) (adv : Bool) (s : State) :
    Host.Outcome State Fault Refusal :=
  issue (.mmac g acc q af bf kn lm adv) g (actMmac acc q af bf kn lm none adv) s
/-- `mmacs` (R152, R153). -/
def execMmacs (g : Guard) (acc q : BitVec 5) (af bf : Fmt) (kn : BitVec 7) (lm km : BitVec 3) (adv : Bool) (s : State) :
    Host.Outcome State Fault Refusal :=
  issue (.mmacs g acc q af bf kn lm km adv) g (actMmac acc q af bf kn lm (some km) adv) s
/-- `mdrain` (R154). -/
def execMdrain (g : Guard) (dq : BitVec 2) (acc : BitVec 5) (rs : BitVec 7) (nr1 : BitVec 4) (fo : Fmt) (cl : Bool)
    (s : State) : Host.Outcome State Fault Refusal :=
  issue (.mdrain g dq acc rs nr1 fo cl) g (actMdrain dq acc rs nr1 fo cl) s
/-- `mlar` (R155). -/
def execMlar (g : Guard) (q : BitVec 5) (kn : BitVec 7) (lm : BitVec 3) (adv : BitVec 2) (s : State) :
    Host.Outcome State Fault Refusal :=
  issue (.mlar g q kn lm adv) (begunGuard (mlarBegun s) g) (actMlar q kn lm adv) s
/-- `mpar` (R156). -/
def execMpar (g : Guard) (md : BitVec 3) (imm : BitVec 32) (hi : Bool) (s : State) : Host.Outcome State Fault Refusal :=
  issue (.mpar g md imm hi) g (actMpar md imm hi) s
/-- `mcall` (R158): the routine's first word issues in the next bundle. -/
def execMcall (g : Guard) (idx : BitVec 11) (s : State) : Host.Outcome State Fault Refusal :=
  issue (.mcall g idx) g (Act.change (fun s => s.setMe { s.me with routine := some ⟨idx.toNat, [], 0⟩ })) s
/-- `mloop` in the M slot itself (R158). -/
def execMloop (g : Guard) (count : BitVec 16) (mi : BitVec 3) (src : Bool) (s : State) : Host.Outcome State Fault Refusal :=
  issue (.mloop g count mi src) g (Act.trap 0x01 0) s
/-- `mend` in the M slot itself (R158). -/
def execMend (g : Guard) (s : State) : Host.Outcome State Fault Refusal := issue (.mend g) g (Act.trap 0x01 0) s
/-- `mend.f` in the M slot itself (R158). -/
def execMendF (g : Guard) (s : State) : Host.Outcome State Fault Refusal := issue (.mendF g) g (Act.trap 0x01 0) s
/-- `mcnt.rd` (R160). -/
def execMcntRd (g : Guard) (dq : BitVec 2) (acc : BitVec 5) (s : State) : Host.Outcome State Fault Refusal :=
  issue (.mcntRd g dq acc) g (actMcnt dq acc false) s
/-- `mcnt.snap` (R160). -/
def execMcntSnap (g : Guard) (dq : BitVec 2) (acc : BitVec 5) (s : State) : Host.Outcome State Fault Refusal :=
  issue (.mcntSnap g dq acc) g (actMcnt dq acc true) s
/-- `mcnt.clr` (R160). -/
def execMcntClr (g : Guard) (acc : BitVec 5) (s : State) : Host.Outcome State Fault Refusal :=
  issue (.mcntClr g acc) g (actMcntClr acc) s

/-! ### Routines (R157 to R159) -/

/-- The predicate field of a word of the M slot. -/
def guardOfM : Instr → Guard
  | .mclr g _ => g | .mmac g _ _ _ _ _ _ _ => g | .mmacs g _ _ _ _ _ _ _ _ => g | .mdrain g _ _ _ _ _ _ => g
  | .mlar g _ _ _ _ => g | .mpar g _ _ _ => g | .mcntRd g _ _ => g | .mcntSnap g _ _ => g | .mcntClr g _ => g
  | i => routineGuard i

/-- What a routine word does at issue (R158). -/
def actOfM : Instr → Act Unit
  | .mclr _ acc => actMclr acc
  | .mmac _ acc q af bf kn lm adv => actMmac acc q af bf kn lm none adv
  | .mmacs _ acc q af bf kn lm km adv => actMmac acc q af bf kn lm (some km) adv
  | .mdrain _ dq acc rs nr1 fo cl => actMdrain dq acc rs nr1 fo cl
  | .mlar _ q kn lm adv => actMlar q kn lm adv
  | .mpar _ md imm hi => actMpar md imm hi
  | .mloop _ _ mi src => do
    let _ ← (if src then readNat .m mi.toNat else pure 0)
  | .mcntRd _ dq acc => actMcnt dq acc false
  | .mcntSnap _ dq acc => actMcnt dq acc true
  | .mcntClr _ acc => actMcntClr acc
  | _ => pure ()

/-- Put the routine's next place after the slot has advanced. -/
def moveRoutine (loc : Nat) (rt : Option Routine) (s : State) : State :=
  if (s.seqAt loc).status = 0 then s else s.setSeq loc { s.seqAt loc with routine := rt }

/-- The next place of a routine, where it has one. -/
def placeAfter (r : Except Nat (Option Routine)) (rt : Routine) : Option Routine :=
  match r with | .ok p => p | .error _ => some { rt with word := rt.word + 1 }

/-- Issue the word at a routine's place, its substitution read (R158). -/
def issueWord (s : State) (rt : Routine) : State :=
  let loc := s.cur.loc
  let see := seeM s loc
  let skip := s.me.skips.contains (Slot.M.num, s.here)
  match routineOp s loc s.here rt.word see with
  | none =>
    if skip then moveRoutine loc (some { rt with word := rt.word + 1 }) (voidIssue .noOperation s) else trapHere s 0x01 0
  | some i =>
    let next := routineNext rt i true see
    let miss := routineNext rt i false see
    issueFull (fun t => moveRoutine loc (placeAfter next rt) (advance t))
      (fun t => moveRoutine loc (placeAfter miss rt) (voidIssue i t)) i (begunGuard (mlarBegun s) (guardOfM i))
      (do
        actOfM i
        match next with
        | .error c => Act.trap c 0
        | .ok _ => pure ()) s

/-- ROUTINE_WORD_ISSUE: the next word of the running routine issues in the M slot of this bundle (R158, R159). -/
def execRoutineWordIssue (s : State) : Host.Outcome State Fault Refusal :=
  let loc := s.cur.loc
  match s.me.routine with
  | none => .next s
  | some rt =>
    if s.bundle.bits.present .M || (s.bundle.bits.op .M).isNone then
      .next (if s.me.skips.contains (Slot.M.num, s.here) then voidIssue .noOperation s else trapHere s 0x01 0)
    else
      let rt := routineSkip s loc s.here (seeM s loc) 2048 rt
      let w := if rt.word < 2048 then (storeWord s loc s.here rt.word).toNat else 0
      match (if w / 2 ^ 63 = 1 then readReg ⟨.m, bitsAt w 60 3⟩ s else .ok (0, s)) with
      | .error e => .next (stopHere s e)
      | .ok (_, t) => .next (issueWord t rt)

/-- TILE_WRITE_COMPLETE: tile writes that are due are performed once they are complete (R143); the last may end its task (R77). -/
def execTileWriteComplete (loc acc : Nat) (s : State) : Host.Outcome State Fault Refusal :=
  if (s.seqAt loc).tiles.any (fun t => t.acc == acc && t.complete) then .next (tryFinish (landTiles s loc) loc) else .next s

/-- MLAR_FILL_COMPLETE: the earliest fill that can complete writes its slab and releases its lines (R147, R155). -/
def execMlarFillComplete (loc : Nat) (s : State) : Host.Outcome State Fault Refusal :=
  .next (tryFinish (completeFill s loc [] (s.seqAt loc).fills) loc)

end Sys2Proof.Machine
end

