-- ==== Sys2Proof/Machine/Rings.lean ====
section
/-! DEFINITION. Binding, waiting and the ring units (05_memory_ops.md R91 to R99, 09_transform.md R172 to R175, R320). -/

namespace Sys2Proof.Machine

/-! ### Local reads and unit accesses -/

/-- n bytes of the issuer's local store as a number; a marked word traps (R348). -/
def readLocal (a n : Nat) : Act Nat := do
  let s ← Act.view id
  match errorMark s ((List.range n).map (fun j => nearPhys s s.cur.loc (a + j))) with
  | some p => Act.trap 0x70 p
  | none => return nearNat s s.cur.loc a n

/-- A 64-byte block of the local store named by a register: aligned and inside the window (R92). -/
def localBlock (a : Nat) : Act Nat := do
  Act.check (decide (a % 64 = 0) && decide (a + 64 ≤ Config.localBytes)) 0x11 a
  readLocal a 64

/-- Write bytes at a local-store or slice-window address under a mask, clearing the marks of words written whole (R348). -/
def nearWrite (s : State) (loc a : Nat) (bytes : List Byte) (mask : Nat) : State :=
  clearMarks (nearStore s loc a bytes mask)
    (((List.range bytes.length).filter (fun j => mask.testBit j)).map (fun j => nearPhys s loc (a + j)))

/-- The addresses of the bytes that hold w bits from a bit address. -/
def bytesOfBits (b w : Nat) : List Nat := (List.range ((b + w - 1) / 8 + 1 - b / 8)).map (b / 8 + ·)

/-- w bits at a bit address (R31). -/
def nearBits (s : State) (loc b w : Nat) : Nat := bitsAt (nearNat s loc (b / 8) ((b + w - 1) / 8 + 1 - b / 8)) (b % 8) w

/-- Write w bits at a bit address; other bits of the bytes stay. -/
def nearPutBits (s : State) (loc b w x : Nat) : State :=
  let n := (b + w - 1) / 8 + 1 - b / 8
  let old := nearNat s loc (b / 8) n
  nearWrite s loc (b / 8) (toBytes n (old - bitsAt old (b % 8) w * 2 ^ (b % 8) + x % 2 ^ w * 2 ^ (b % 8))) allBytes

/-! ### The footprint of a stream (R92, R172, R320) -/

/-- The least and greatest offset of n steps of a stride. -/
def strideSpan (n : Nat) (st : Int) : Int × Int := (min 0 (((n : Int) - 1) * st), max 0 (((n : Int) - 1) * st))

/-- The first byte and the byte after the last that the affine walk visits. -/
def Ring.extent (r : Ring) : Int × Int :=
  let d0 := if r.width < 8 then (0, 0) else strideSpan (r.cnt 0) (r.stride 0)
  let size : Int := if r.width < 8 then ceilDiv (r.cnt 0 * r.width) 8 else r.width / 8
  let ds := [d0, strideSpan (r.cnt 1) (r.stride 1), strideSpan (r.cnt 2) (r.stride 2), strideSpan (r.cnt 3) (r.stride 3)]
  ((r.base : Int) + (ds.map (·.1)).sum, (r.base : Int) + (ds.map (·.2)).sum + size)

/-- How many scales the stream has (R148). -/
def Ring.scaleCount (r : Ring) : Nat :=
  ((List.range 4).map (fun i => if i = r.blkDim then ceilDiv (r.cnt i) (blockLen r.blk) else r.cnt i)).foldl (· * ·) 1

/-- First scale byte and the byte after the last; an empty extent without scales. -/
def Ring.scaleExtent (r : Ring) : Int × Int :=
  if r.blk = 0 then (r.base, r.base)
  else
    let sp := strideSpan r.scaleCount r.sstride
    ((r.sbase : Int) + sp.1, (r.sbase : Int) + sp.2 + 1)

/-- The window that END names. -/
def Ring.window (r : Ring) : Int × Int := if r.fin = 0 then (0, 0x600000) else (0x10000000, 0x14000000)

/-- Whether an extent lies in the window that END names. -/
def Ring.inside (r : Ring) (e : Int × Int) : Bool := decide (r.window.1 ≤ e.1) && decide (e.2 ≤ r.window.2)

/-- The footprint of the bytes that `cbind` checks: the walk, or the first chunk header of a compressed stream. -/
def Ring.firstExtent (r : Ring) : Int × Int := if r.comp = 0 then r.extent else (r.base, (r.base : Int) + 8)

/-- The bytes of one element. -/
def Ring.elementBytes (r : Ring) (e : Nat) : List Nat := bytesOfBits (r.bitAddr (r.coord e)).toNat r.width

/-- Whether every byte and scale that a stream visits lies in a bank of the location's mask (R320); the rows of a gather
stream are judged when their indices are pushed. -/
def streamBanksOk (s : State) (loc : Nat) (r : Ring) : Bool :=
  r.fin != 1 || bankMask s loc == 2 ^ 32 - 1 ||
  ((r.gather ||
      (if r.comp = 0 then (List.range r.total).all (fun e => banksOk s loc (r.elementBytes e))
       else banksOk s loc ((List.range 8).map (r.base + ·)))) &&
    (r.blk == 0 || (List.range r.scaleCount).all (fun j => banksOk s loc [((r.sbase : Int) + j * r.sstride).toNat])))

/-! ### cbind and cfree (R92, R94, R172) -/

/-- Whether every reserved field of a stream descriptor is zero and every code is assigned (Table 5.4, second row). -/
def Ring.fieldsOk (r : Ring) : Bool :=
  let d := r.desc.toNat
  bitsAt d 52 12 == 0 && bitsAt d 257 7 == 0 && bitsAt d 288 32 == 0 && bitsAt d 372 12 == 0 && bitsAt d 416 32 == 0 &&
  bitsAt d 448 64 == 0 && decide (r.fmtCode < 16) && r.fin != 3 && decide (r.comp < 3) && decide (r.chk < 2) &&
  (r.fin == 2 || !(r.fmt == .e2m1 || r.fmt == .t6) || sext 32 (bitsAt d 128 32) == 0)

/-- The checks of Table 5.4 and R172 that raise trap 0x01 after the handle's own. -/
def Ring.descOk (q : Seq) (r : Ring) : Bool :=
  r.fieldsOk &&
  (r.fin == 2 || (List.range (r.ndim + 1)).all (fun i => r.cnt i != 0)) &&
  (if r.comp = 0 then r.ratio == 0 else r.ratio != 0 && !r.dir) &&
  (r.blk == 0 || ((r.fmt == .e4m3 || r.fmt == .e5m2 || r.fmt == .e2m1 || r.fmt == .t8 || r.fmt == .t6) &&
    decide (r.blkDim ≤ r.ndim))) &&
  (r.fin != 2 || (r.dir && !r.gather && !q.rings.any (fun e => e.2.dir && e.2.fin == 2 && e.2.dq == r.dq))) &&
  (!r.gather || (r.ndim == 1 && !r.dir && r.comp == 0)) &&
  (r.comp != 2 || r.fmt == .b32 || r.fmt == .s32) &&
  (r.comp == 0 || (List.range 4).all (fun i => bitsAt r.desc.toNat (128 + 32 * i) 32 == 0)) &&
  (r.chk == 0 || r.comp != 0)

/-- A ring just bound (R92). -/
def Ring.fresh (desc : Nat) (gather : Bool) : Ring :=
  { desc := BitVec.ofNat 512 desc, gather := gather, entries := [], readBit := 0, moved := 0, chunks := [], relNo := 0,
    relAddr := bitsAt desc 0 52, relElts := 0, buf := 0, bufBits := 0, fail := 0, failInfo := 0, rows := [] }

/-- `cbind` (R92, R172, R320). The handle is judged, as the descriptor is, only under a true predicate.
(DEDUCED, assumptions 45 and 46) -/
def execCbind (g : Guard) (q e : BitVec 5) (gather : Bool) (s : State) : Host.Outcome State Fault Refusal :=
  issue (.cbind g q e gather) g (do
    let m ← Act.view State.me
    Act.await (fun s => !ringBusy s.me q.toNat)
    Act.check (ringDepth m q.toNat != 0 && !m.rings.has q.toNat) 0x01 0
    let a ← readNat .e e.toNat
    let d ← localBlock a
    let r := Ring.fresh d gather
    Act.check (r.descOk m) 0x01 0
    let ok ← Act.view (fun s => r.fin == 2 ||
      (r.inside r.firstExtent && (r.blk == 0 || r.inside r.scaleExtent) && streamBanksOk s s.cur.loc r))
    Act.check ok 0x11 0
    Act.change (setRing q.toNat r)) s

/-- The binding of a ring in either direction, once nothing holds the ring. -/
def Act.anyRing (n : Nat) : Act Ring := fun s =>
  match s.me.rings.find n with
  | none => .error (.trap 0x01 0)
  | some r => if ringBusy s.me n then .error .stall else .ok (r, s)

/-- `cfree` (R94): a drain ring's entries are written first. A handle that is not bound raises trap 0x01 under a true predicate.
(DEDUCED, assumption 45) -/
def execCfree (g : Guard) (q : BitVec 5) (s : State) : Host.Outcome State Fault Refusal :=
  issue (.cfree g q) g (do
    let r ← Act.anyRing q.toNat
    let r := { r with entries := if r.dir then closePart r.entries else r.entries }
    if r.dir && !r.entries.isEmpty then (fun s => .error (.stallWith (setRing q.toNat r s)))
    else Act.change (fun s => s.setMe
      { s.me with
        rings := s.me.rings.drop q.toNat
        gqueue := s.me.gqueue.filter (fun e => e.1 != q.toNat) })) s

/-! ### Indices, waits and pointers (R96, R98) -/

/-- The bytes of row x of a gather stream (R96). -/
def Ring.rowBytes (r : Ring) (x : Nat) : List Nat :=
  (List.range (r.cnt 0)).flatMap (fun j => bytesOfBits (r.bitAddr [j, x, 0, 0]).toNat r.width)

/-- `gpush` (R96, R320). A ring that is no gather ring raises trap 0x01 under a true predicate. (DEDUCED, assumption 45) -/
def execGpush (g : Guard) (q : BitVec 5) (a : Opnd) (s : State) : Host.Outcome State Fault Refusal :=
  issue (.gpush g q a) g (do
    let r ← Act.anyRing q.toNat
    Act.check r.gather 0x01 0
    let x ← readOp a
    Act.check (decide (x < r.cnt 1)) 0x11 0
    let ok ← Act.view (fun s => r.fin != 1 || bankMask s s.cur.loc == 2 ^ 32 - 1 || banksOk s s.cur.loc (r.rowBytes x))
    Act.check ok 0x11 0
    Act.await (fun s => decide (s.me.gqueue.length < 64))
    Act.change (fun s => s.setMe { s.me with gqueue := s.me.gqueue ++ [(q.toNat, x)] })) s

/-- Wait until n entries of a fill ring are filled (R93, R98, R174). -/
def fillWait (q n : Nat) (r : Ring) : Act Unit := do
  let gone := r.moved - r.entries.length
  Act.check (match r.streamBits with | some b => decide (gone + n ≤ b / 512) | none => true) 0x11 0
  if n ≤ r.entries.length then pure ()
  else if r.fail ≠ 0 ∧ r.failEntry < gone + n then Act.trap r.fail (if r.fail = 0x70 then r.failInfo else q)
  else ringStall

/-- `qwait` (R98). -/
def execQwait (g : Guard) (q : BitVec 5) (n : BitVec 7) (s : State) : Host.Outcome State Fault Refusal :=
  issue (.qwait g q n) g (do
    let r ← Act.anyRing q.toNat
    if r.dir then do
      let d ← Act.view (fun s => ringDepth s.me q.toNat)
      if n.toNat + r.entries.length ≤ d then pure () else ringStall
    else fillWait q.toNat n.toNat r) s

/-- `qadv` (R98): the entries that a drain ring skips hold no valid bits, and a ring with END = 2 forwards none of them.
(DEDUCED, assumption 61) -/
def execQadv (g : Guard) (q : BitVec 5) (n : BitVec 7) (s : State) : Host.Outcome State Fault Refusal :=
  issue (.qadv g q n) g (do
    let r ← Act.anyRing q.toNat
    if r.dir then do
      let d ← Act.view (fun s => ringDepth s.me q.toNat)
      let es := closePart r.entries
      let part := if (openPart r.entries).2.valid = 0 then 0 else 1
      let es := es ++ List.replicate (n.toNat - part) ⟨0, 0, true, [], none, 0⟩
      Act.check (match r.streamBits with | some b => decide (512 * (r.moved + es.length) ≤ b) | none => true) 0x11 0
      if es.length ≤ d then Act.change (setRing q.toNat { r with entries := es }) else ringStall
    else do
      fillWait q.toNat n.toNat r
      Act.change (setRing q.toNat { r with entries := r.entries.drop n.toNat, readBit := 0 })) s

/-! ### Filling (R92, R93, R96, R97, R148, R173) -/

/-- The scales of the elements that begin in an entry, eight bits each (R148). -/
def entryScales (s : State) (loc : Nat) (r : Ring) (no : Nat) : Nat :=
  if r.blk = 0 ∨ r.gather then 0
  else
    let e0 := ceilDiv (512 * no) r.width
    let e1 := Nat.min (ceilDiv (512 * (no + 1)) r.width) r.total
    ofLanes 8 ((List.range (e1 - e0)).map (fun j => nearNat s loc (r.scaleAddr (e0 + j)) 1))

/-- Bits from a bit offset of packed elements at bit addresses, with the first marked word among their bytes. -/
def packElements (s : State) (loc w skip : Nat) (addrs : List Nat) : RingEntry :=
  let x := ofLanes w (addrs.map (fun b => nearBits s loc b w))
  { data := BitVec.ofNat 512 (bitsAt x skip 512), valid := 512, closed := true, waits := [],
    err := errorMark s ((addrs.flatMap (fun b => bytesOfBits b w)).map (nearPhys s loc)), scales := 0 }

/-- The next entry of a plain stream, and the ring after it (R93): an element whose bits go on into the entry after it is read whole
with this one (R7). -/
def plainEntry (s : State) (loc : Nat) (r : Ring) : RingEntry × Ring :=
  let no := r.moved
  let e0 := ceilDiv (512 * no) r.width
  let e1 := Nat.min (ceilDiv (512 * (no + 1)) r.width) r.total
  let bitOf := fun e => (r.bitAddr (r.coord e)).toNat
  let x := r.buf + 2 ^ r.bufBits * ofLanes r.width ((List.range (e1 - e0)).map (fun j => nearBits s loc (bitOf (e0 + j)) r.width))
  let first := 512 * no / r.width
  ({ data := BitVec.ofNat 512 x, valid := 512, closed := true, waits := [],
     err := errorMark s (((List.range (e1 - first)).flatMap (fun j => bytesOfBits (bitOf (first + j)) r.width)).map (nearPhys s loc)),
     scales := entryScales s loc r no },
   { r with buf := x / 2 ^ 512, bufBits := r.bufBits + (e1 - e0) * r.width - 512 })

/-- Entry j of row x of a gather stream (R96). -/
def rowEntry (s : State) (loc : Nat) (r : Ring) (x j : Nat) : RingEntry :=
  let e0 := 512 * j / r.width
  let e1 := Nat.min (ceilDiv (512 * (j + 1)) r.width) (r.cnt 0)
  packElements s loc r.width (512 * j - e0 * r.width) ((List.range (e1 - e0)).map (fun k => (r.bitAddr [e0 + k, x, 0, 0]).toNat))

/-- The entries of a row. -/
def rowEntries (s : State) (loc : Nat) (r : Ring) (x : Nat) : List RingEntry :=
  (List.range (ceilDiv (r.cnt 0 * r.width) 512)).map (rowEntry s loc r x)

/-- The next entry that the unit can put into a fill ring, with the ring after it has given it. -/
def nextEntry (s : State) (loc : Nat) (r : Ring) : Option (RingEntry × Ring) :=
  if r.gather then
    match r.rows with
    | [] => none
    | e :: es => some (e, { r with rows := es })
  else if 512 * r.moved ≥ ceilDiv (r.total * r.width) 512 * 512 then none
  else if r.comp ≠ 0 then
    if 512 ≤ r.bufBits ∨ (r.relElts = r.total ∧ 0 < r.bufBits) then
      some (⟨BitVec.ofNat 512 r.buf, 512, true, [], none, entryScales s loc r r.moved⟩,
        { r with buf := r.buf / 2 ^ 512, bufBits := r.bufBits - 512 })
    else none
  else some (plainEntry s loc r)

/-- RING_ENTRY_FILL: the unit fills one entry, and an operation under way on the ring takes from it (R92, R153).
(DEDUCED, assumption 41) -/
def execRingEntryFill (loc q : Nat) (s : State) : Host.Outcome State Fault Refusal :=
  let m := s.seqAt loc
  match m.rings.find q with
  | none => .next s
  | some r =>
    if r.dir || decide (ringDepth m q ≤ r.entries.length) then .next s
    else match nextEntry s loc r with
      | none => .next s
      | some (e, r) =>
        .next (feedRing (s.setSeq loc
          { m with rings := m.rings.put q { r with entries := r.entries ++ [e], moved := r.moved + 1 } }) loc q)

/-- Whether a row's bytes run on from the row before it (R97). -/
def Ring.rowsJoin (r : Ring) (x y : Nat) : Bool :=
  (r.width < 8 || r.stride 0 == r.width / 8) &&
  decide ((y : Int) * r.stride 1 = (x : Int) * r.stride 1 + ceilDiv (r.cnt 0 * r.width) 8)

/-- The longest run of joined rows at the head of the indices, at most n of them. -/
def joinedRows (r : Ring) : Nat → List Nat → List Nat
  | 0, _ => []
  | _, [] => []
  | n + 1, x :: xs =>
    match xs with
    | y :: _ => if r.rowsJoin x y then x :: joinedRows r n xs else [x]
    | [] => [x]

/-- GATHER_ROW_FETCH: the unit fetches the next row, or a run of consecutive joined rows, for the ring (R96, R97). -/
def execGatherRowFetch (loc q rows : Nat) (s : State) : Host.Outcome State Fault Refusal :=
  let m := s.seqAt loc
  match m.rings.find q with
  | none => .next s
  | some r =>
    let mine := (m.gqueue.filter (fun e => e.1 == q)).map (·.2)
    if !r.gather || !r.rows.isEmpty || mine.isEmpty then .next s
    else
      let xs := joinedRows r (Nat.max 1 rows) mine
      let left := (mine.drop xs.length).map (fun x => (q, x))
      let others := m.gqueue.filter (fun e => e.1 != q)
      .next (s.setSeq loc { m with
        gqueue := others ++ left, rings := m.rings.put q { r with rows := xs.flatMap (rowEntries s loc r) } })

/-! ### Compressed streams (R171 to R175) -/

/-- Whether bytes lie in the window that END names, and in banks the location may reach. -/
def chunkInside (s : State) (loc : Nat) (r : Ring) (a n : Nat) : Bool :=
  r.inside (a, (a : Int) + n) && (r.fin != 1 || banksOk s loc ((List.range n).map (a + ·)))

/-- The payload bytes of a chunk that lie in the window, from the first on (R171). -/
def chunkBytes (s : State) (loc : Nat) (r : Ring) (a n : Nat) : List Nat :=
  if chunkInside s loc r a n then (List.range n).map (a + ·)
  else ((List.range n).map (a + ·)).takeWhile (fun b => chunkInside s loc r b 1)

/-- Decode the chunk at an address (R170, R171). Bytes that pad it beyond the window, which Table 9.5 does not name, count as zero.
(DEDUCED, assumption 60) -/
def chunkAt (s : State) (loc : Nat) (r : Ring) (a : Nat) : Chunk :=
  if !chunkInside s loc r a 8 then ⟨a, 0, 0, 0x11, 0, a⟩
  else
    let hdr := nearNat s loc a 8
    let dlen := bitsAt hdr 0 16
    let elen := bitsAt hdr 16 16
    let padded := ceilDiv elen 8 * 8
    let next := a + 8 + padded
    let pay := (chunkBytes s loc r (a + 8) elen).map (nearPhys s loc)
    match errorMark s ((List.range 8).map (fun j => nearPhys s loc (a + j)) ++ pay) with
    | some p => ⟨a, 0, dlen, 0x70, p, next⟩
    | none =>
      let pad := (List.range (padded - elen)).map (fun j =>
        if chunkInside s loc r (a + 8 + elen + j) 1 then s.mem.look (nearPhys s loc (a + 8 + elen + j)) else 0)
      match decodeChunk r.comp r.width r.ratio (r.chk == 1) 65535 hdr (pay.map s.mem.look) pad with
      | .error c => ⟨a, 0, dlen, c, 0, next⟩
      | .ok els => ⟨a, ofLanes r.width els, dlen, 0, 0, next⟩

/-- The address of a chunk some chunks after the first unreleased one: finished chunks tell the next address, headers the
others. -/
def chunkAddr (s : State) (loc : Nat) (r : Ring) : Nat → Nat
  | 0 => r.relAddr
  | k + 1 =>
    let a := chunkAddr s loc r k
    match r.chunks.find (r.relNo + k) with
    | some c => c.next
    | none => a + 8 + ceilDiv (bitsAt (nearNat s loc a 8) 16 16) 8 * 8

/-- Keep a finished chunk; later ones that were read from another address than it names are decoded again. -/
def stageChunk (r : Ring) (k : Nat) (c : Chunk) : Ring :=
  let bad := match r.chunks.find (k + 1) with | some d => d.addr != c.next | none => false
  { r with chunks := Tab.put (if bad then r.chunks.filter (fun e => decide (e.1 < k)) else r.chunks) k c }

/-- Release finished chunks in stream order up to the first that fails (R173, R174). -/
def releaseChunks : Nat → Ring → Ring
  | 0, r => r
  | fuel + 1, r =>
    match r.chunks.find r.relNo with
    | none => r
    | some c =>
      let past := decide (r.total < r.relElts + c.count)
      if c.fail ≠ 0 ∨ past then
        { r with
          chunks := [], fail := if past && c.fail != 0x70 then 0x23 else c.fail, failInfo := c.info }
      else
        releaseChunks fuel { r with
          chunks := r.chunks.drop r.relNo, relNo := r.relNo + 1, relAddr := c.next, relElts := r.relElts + c.count,
          buf := r.buf + c.bits * 2 ^ r.bufBits, bufBits := r.bufBits + c.count * r.width }

/-- CHUNK_DECODE: the decoder finishes chunk k of a ring's stream, at most four chunks ahead, and releases what it can
(R173). -/
def execChunkDecode (loc q chunk : Nat) (s : State) : Host.Outcome State Fault Refusal :=
  let m := s.seqAt loc
  match m.rings.find q with
  | none => .next s
  | some r =>
    if r.comp = 0 ∨ r.fail ≠ 0 ∨ r.relElts = r.total ∨ chunk < r.relNo ∨ r.relNo + 4 ≤ chunk ∨ r.chunks.has chunk then
      .next s
    else
      let r := stageChunk r chunk (chunkAt s loc r (chunkAddr s loc r (chunk - r.relNo)))
      .next (s.setSeq loc { m with rings := m.rings.put q (releaseChunks 5 r) })

/-! ### Draining (R31, R35, R92, R93) -/

/-- Whether the head entry of a drain ring has been pushed and has landed. -/
def headReady (m : Seq) (r : Ring) : Option RingEntry :=
  match r.entries with
  | e :: _ => if r.dir && e.closed && e.waits.all (waitDone m) then some e else none
  | [] => none

/-- Write the elements whose last bit lies in entry no (R93); lo is the bit of an element within the entry. -/
def drainElements (loc : Nat) (r : Ring) (e : RingEntry) : List Nat → State → State
  | [], s => s
  | k :: ks, s =>
    let w := r.width
    let base := 512 * r.moved
    let early := base - k * w
    let ok := if early = 0 then decide (k * w - base + w ≤ e.valid) else r.bufBits == early && decide (w ≤ e.valid + early)
    let x := if early = 0 then bitsAt e.data.toNat (k * w - base) w else bitsAt (r.buf + 2 ^ early * e.data.toNat) 0 w
    drainElements loc r e ks (if ok && decide (k < r.total) then nearPutBits s loc (r.bitAddr (r.coord k)).toNat w x else s)

/-- The ring after its head entry has been drained: the bits of an element that goes on into the next entry stay. -/
def Ring.afterDrain (r : Ring) (e : RingEntry) : Ring :=
  let rest := 512 * (r.moved + 1) % r.width
  { r with
    entries := r.entries.drop 1, moved := r.moved + 1, buf := e.data.toNat / 2 ^ (512 - rest) % 2 ^ rest,
    bufBits := if e.valid = 512 then rest else 0 }

/-- RING_ENTRY_DRAIN: the unit writes the next pushed entry to its destination (R92, R93). -/
def execRingEntryDrain (loc q : Nat) (s : State) : Host.Outcome State Fault Refusal :=
  let m := s.seqAt loc
  match m.rings.find q with
  | none => .next s
  | some r =>
    match headReady m r with
    | none => .next s
    | some e =>
      if r.fin = 2 then .next s
      else
        let k0 := 512 * r.moved / r.width
        let k1 := 512 * (r.moved + 1) / r.width
        let t := drainElements loc r e ((List.range (k1 - k0)).map (k0 + ·)) s
        .next (t.setSeq loc { t.seqAt loc with rings := m.rings.put q (r.afterDrain e) })

/-- DRAIN_QUEUE_FORWARD: the unit forwards the next pushed entry into its drain queue once there is room (R35, R92). An entry that a `qadv`
has skipped whole is not forwarded (R98). (DEDUCED, assumption 61) -/
def execDrainQueueForward (loc q : Nat) (s : State) : Host.Outcome State Fault Refusal :=
  let m := s.seqAt loc
  match m.rings.find q with
  | none => .next s
  | some r =>
    match headReady m r with
    | none => .next s
    | some e =>
      if r.fin ≠ 2 then .next s
      else if e.valid = 0 then .next (s.setSeq loc
        { m with rings := m.rings.put q { r with entries := r.entries.drop 1, moved := r.moved + 1 } })
      else if 64 ≤ dqCount m r.dq then .next s
      else .next (s.setSeq loc { m with
        rings := m.rings.put q { r with entries := r.entries.drop 1, moved := r.moved + 1 },
        dqs := m.dqs.put r.dq (m.dqs.look [] r.dq ++ [⟨e.data, 0, 0, true, false, none, 64 * s.free⟩]) })

end Sys2Proof.Machine
end

