-- ==== Sys2Proof/Machine/Traffic.lean ====
section
/-! DEFINITION. Memory traffic: in-flight entries and their packets, what a home does with a packet, and how replies come back
(R88, R182, R248, R249, R283, R288 to R291, R355 to R358, R379, R380). -/

namespace Sys2Proof.Machine

/-! ### Sending -/

/-- The tag of an access of kinds 1 to 6 and 11 (R356). -/
def accessTag (q : Seq) : Nat := q.origin * 2 ^ 33 + q.access % 2 ^ 30

/-- The suppression key of the next access of a sequencer (R356). -/
def accessKey (q : Seq) : Key := ⟨accessTag q, false, q.origin, q.epoch, q.task.vd⟩

/-- The scope that an operation carries; code 0 means core (R187). -/
def State.scope (s : State) (code : Nat) : Nat := if s.scopeOf code = 0 then 2 else s.scopeOf code

/-- Put a packet into the fabric. -/
def emit (s : State) (p : Packet) : State := { s with net := s.net ++ [{ p with id := s.nextPkt }], nextPkt := s.nextPkt + 1 }

/-- The packet of one request of an in-flight entry, at a physical address (R355). Nothing stands between a die and its own
endpoints or its token frames. -/
def accessPacket (s : State) (loc entry : Nat) (e : Ifr) (pa va off : Nat) (k : PktKind) : Packet :=
  { id := 0, kind := k, key := e.key, src := s.module, loc := loc, entry := entry, cls := e.cls, chan := 0,
    dst := physMod pa, ep := endpointOf pa, addr := pa, va := va, off := off, ca := e.ca,
    accepted := e.ca || (physMod pa == s.module && physDie pa == dieOf loc), refused := false }

/-- Take an in-flight entry for an access and send its requests, given with their physical addresses (R355, R356).
(DEDUCED, assumption 47) -/
def openAccess (e : Ifr) (reqs : List (Nat × Nat × Nat × PktKind)) : Act Nat := fun s =>
  let q := s.me
  match q.ifr.free Config.ifrEntries with
  | none => .error .stall
  | some k =>
    let e : Ifr :=
    { e with
      state := 1, key := accessKey q, id := q.access, num := q.task.num, lseq := q.task.lseq, slot := s.cur.slot,
      left := reqs.length, bundle := s.here, era := eraOf q, alloc := q.access, reqs := reqs.map (fun r => (r.2.1, r.2.2.1, r.2.2.2)), homes := reqs.map (·.1) }
    let t := s.setMe { q with ifr := q.ifr.put k e, access := (q.access + 1) % 2 ^ 30 }
    .ok (k, reqs.foldl (fun t r => emit t (accessPacket t s.cur.loc k e r.1 r.2.1 r.2.2.1 r.2.2.2)) t)

/-- Translate an address of the device-memory window; where only the issuer's die is in reach, a page elsewhere traps (R83,
R280). -/
def Act.home (va : Nat) (write remote : Bool) : Act Nat := do
  let pa ← Act.xlate va write
  let s ← Act.view id
  Act.check (remote || (physMod pa == s.module && physDie pa == dieOf s.cur.loc)) 0x11 va
  return pa

/-- A result that an in-flight entry will bring: scoreboarded, or poisoned at its landing index (R88, R282). -/
def awaitResult (r : Reg) (l k : Nat) (poison : Bool) : Act Unit := Act.change (fun s =>
  let e : Pend :=
  { slot := s.cur.slot, dst := some r, val := 0, mask := allBytes, poison := poison, li := landingOf s r l,
    bundle := s.here, live := true, done := false, avail := poison, moved := false, ifr := some k, sticky := 0,
    uid := 64 * s.free + s.me.pend.length % 64 }
  s.setMe (addPend s.me e))

/-! ### What atomics compute (Table 15.4) -/

/-- Op of an atomic by its ROP code (Table 18.2) on n bytes: whether it writes, the new value, sticky bits. -/
def atomOp (op : Nat) (signed : Bool) (n : Nat) (f32 : Bool) (x y cmp : Nat) : Bool × Nat × Nat :=
  let m := 2 ^ (8 * n)
  let lt := if signed then decide (sext (8 * n) x < sext (8 * n) y) else decide (x < y)
  match op with
  | 0 =>
    if f32 then
      let r := (decodeNum .f32 x).add (decodeNum .f32 y)
      let (b, st) := roundNear .f32 r
      (true, b, Nat.lor st (madeNan r [decodeNum .f32 x, decodeNum .f32 y]))
    else (true, (x + y) % m, 0)
  | 1 => (true, if lt then x else y, 0)
  | 2 => (true, if lt then y else x, 0)
  | 3 => (true, Nat.land x y, 0)
  | 4 => (true, Nat.lor x y, 0)
  | 5 => (true, Nat.xor x y, 0)
  | 6 => (true, y, 0)
  | 7 => (x == cmp, y, 0)
  | _ => (decide (x < y), (x + 1) % m, 0)

/-- A loaded value (R84): extended by its type, or 512 bits. -/
def loadValue (rtype n x : Nat) : Nat :=
  if n = 64 then x else if 4 ≤ rtype ∧ rtype < 8 then wrap 64 (sext (8 * n) x) else x

/-- The old value of an atomic as it is returned (R249). -/
def atomValue (signed : Bool) (n x : Nat) : Nat := if signed then wrap 64 (sext (8 * n) x) else x

/-! ### Token frames (R289, R291) -/

/-- The number of a virtual device's token of an address's region. -/
def tokenKey (vd va : Nat) : Nat := vd * 2 ^ 31 + va / 2 ^ 21 % 2 ^ 31
/-- A region's token. -/
def State.tokenAt (s : State) (vd va : Nat) : Token := s.tokens.look Token.reset (tokenKey vd va)
/-- Replace a token. -/
def State.setToken (s : State) (vd va : Nat) (t : Token) : State := { s with tokens := s.tokens.put (tokenKey vd va) t }

/-- Write the byte at a physical address where this module is its home. -/
def putHome (s : State) (pa : Nat) (b : Byte) : State :=
  if physMod pa = s.module then { s with mem := s.mem.store pa b } else s

/-- Write back and drop the lines of a frame that an access touches; pa is the home of va (R291). -/
def dropLines (s : State) (vd va pa n : Nat) : State :=
  let t := s.tokenAt vd va
  if t.holder.isNone then s
  else
    let lo := va / 64 * 64
    let hi := (va + n - 1) / 64 * 64 + 64
    let inLine := fun o => decide (lo ≤ o + va / 2 ^ 21 * 2 ^ 21) && decide (o + va / 2 ^ 21 * 2 ^ 21 < hi)
    let s := (t.dirty.filter inLine).foldl (fun s o =>
      putHome s (pa + (o + va / 2 ^ 21 * 2 ^ 21) - va) (s.mem.look (t.frame + o))) s
    s.setToken vd va
      { t with present := t.present.filter (fun o => !inLine o), dirty := t.dirty.filter (fun o => !inLine o) }

/-- Fetch from the home the absent bytes of the line that holds region offset o into the frame (R289). -/
def fetchLine (s : State) (vd va : Nat) (t : Token) (o pa : Nat) : State :=
  let base := o / 64 * 64
  let need := (List.range 64).filter (fun j => !t.present.contains (base + j))
  let s := need.foldl (fun u j => putHome u (t.frame + base + j) (walkByte s (pa - o % 64 + j))) s
  s.setToken vd va { t with present := t.present ++ need.map (base + ·) }

/-- Perform a cached access in the frame (R289, R348): the answer, and the state. -/
def frameAccess (s : State) (p : Packet) : PktKind × State :=
  let vd := p.key.vd
  let t := s.tokenAt vd p.va
  let o := p.va % 2 ^ 21
  match p.kind with
  | .read n =>
    let s := if (List.range n).all (fun j => t.present.contains (o + j)) then s else fetchLine s vd p.va t o p.addr
    match errorMark s ((List.range n).map (t.frame + o + ·)) with
    | some a => (.refuse 0x70 a, s)
    | none => (.reply (ofBytes ((List.range n).map (fun j => s.mem.look (t.frame + o + j)))) 0, s)
  | .write bytes _ =>
    let js := (List.range bytes.length).map (o + ·)
    let s := clearMarks (s.setMem (s.mem.storeAll (t.frame + o) bytes)) (js.map (t.frame + ·))
    (.reply 0 0, s.setToken vd p.va
      { t with present := t.present ++ js.filter (fun a => !t.present.contains a),
               dirty := t.dirty ++ js.filter (fun a => !t.dirty.contains a) })
  | k => (k, s)

/-! ### At the home (R182, R249, R291, R357, R358, R380) -/

/-- Whether a packet still asks something of its home. -/
def Packet.asks (p : Packet) : Bool := match p.kind with | .reply _ _ => false | .refuse _ _ => false | _ => true

/-- Whether two packets belong to one flow (R380). -/
def sameFlow (p q : Packet) : Bool :=
  p.key.origin == q.key.origin && p.key.epoch == q.key.epoch && p.key.vd == q.key.vd && p.key.fam == q.key.fam &&
  p.dst == q.dst && p.ep == q.ep && (if p.key.fam then p.chan == q.chan else p.cls == q.cls)

/-- Whether an n-bit id comes before another (R231). -/
def idBefore (n a b : Nat) : Bool :=
  decide (0 < (b + 2 ^ n - a % 2 ^ n) % 2 ^ n) && decide ((b + 2 ^ n - a % 2 ^ n) % 2 ^ n < 2 ^ (n - 1))

/-- Whether a packet belongs to an earlier transfer of its channel than another, by the ids in their tags (R197, R217). -/
def olderPacket (q p : Packet) : Bool := p.key.fam && idBefore 30 (q.key.tag % 2 ^ 30) (p.key.tag % 2 ^ 30)

/-- Whether an earlier packet of the flow is still on its way (R380): transfers of a channel keep the order of their ids (R197).
So two accesses of one class to one home are never seen out of order. (DEDUCED, assumption 69) -/
def flowBlocked (s : State) (p : Packet) : Bool :=
  (s.net.takeWhile (fun q => q.id != p.id)).any (fun q => q.asks && sameFlow q p && !olderPacket p q) ||
  s.net.any (fun q => q.asks && sameFlow q p && olderPacket q p)

/-- The packet of a number. -/
def State.packet (s : State) (pk : Nat) : Option Packet := s.net.find? (fun p => p.id == pk)
/-- Take a packet out of the fabric. -/
def dropPacket (s : State) (pk : Nat) : State := { s with net := s.net.filter (fun p => p.id != pk) }
/-- Replace a packet's content. -/
def putPacket (s : State) (p : Packet) : State := { s with net := s.net.map (fun q => if q.id = p.id then p else q) }

/-- Answer a packet; an answer for another module has its way over a link before it. -/
def answer (s : State) (p : Packet) (k : PktKind) : State :=
  putPacket s { p with kind := k, accepted := p.src == s.module, refused := false, dir := 0 }

/-- The module that a packet goes to. -/
def Packet.toward (p : Packet) : Nat := if p.asks then p.dst else p.src

/-- The record of a key at an endpoint (R357); part tells the pieces of one access or card apart. -/
def recordOf (s : State) (ep : Nat) (k : Key) (part : Nat) : Option Record :=
  (s.epAt ep).window.find? (fun r => r.key == k && r.part == part)

/-- Make a record (R357). -/
def addRecord (s : State) (ep : Nat) (r : Record) : State :=
  let e := s.epAt ep
  s.setEp ep { e with window := e.window ++ [r] }

/-- Perform a read, write or atomic at its home: the answer, and the result that a record keeps. -/
def performAccess (s : State) (p : Packet) : PktKind × Nat × State :=
  let s := dropLines s p.key.vd p.va p.addr (match p.kind with
    | .read n => n | .write b _ => b.length | .atom _ _ n _ _ _ => n | _ => 1)
  match p.kind with
  | .read n =>
    match errorMark s ((List.range n).map (p.addr + ·)) with
    | some a => (.refuse 0x70 a, 0, s)
    | none => (.reply (ofBytes ((List.range n).map (fun j => s.mem.look (p.addr + j)))) 0, 0, s)
  | .write bytes mask =>
    let t := { s with mem := s.mem.storeMask p.addr bytes mask }
    (.reply 0 0, 0, clearMarks t (((List.range bytes.length).filter (fun j => mask.testBit j)).map (p.addr + ·)))
  | .atom op signed n y cmp f32 =>
    match errorMark s ((List.range n).map (p.addr + ·)) with
    | some a => (.refuse 0x70 a, 0, s)
    | none =>
      let x := ofBytes ((List.range n).map (fun j => s.mem.look (p.addr + j)))
      let (write, new, st) := atomOp op signed n f32 x y cmp
      let t := if write then { s with mem := s.mem.storeAll p.addr (toBytes n new) } else s
      (.reply x st, x + st * 2 ^ 64, t)
  | k => (k, 0, s)

/-- The idempotence of what a packet asks of its home: I, T, O (R356); 3 for no access of this kind. -/
def PktKind.idem : PktKind → Nat
  | .read _ => 0
  | .write _ _ => 1
  | .atom _ _ _ _ _ _ => 2
  | _ => 3

/-- HOME_ACCESS: an accepted read, write or atomic is performed at its home, once for its key (R182, R357, R358); one that the home cannot
perform leaves no record. -/
def execHomeAccess (pk : Nat) (s : State) : Host.Outcome State Fault Refusal :=
  match s.packet pk with
  | none => .next s
  | some p =>
    let idem := p.kind.idem
    if idem = 3 ∨ !p.accepted ∨ p.dst ≠ s.module ∨ flowBlocked s p then .next s
    else if p.ca then
      match (if idem = 0 then none else recordOf s p.ep p.key p.off) with
      | some _ => .next (answer s p (.reply 0 0))
      | none =>
        let (k, t) := frameAccess s p
        .next (answer (if idem = 0 then t else addRecord t p.ep ⟨p.key, p.off, 0, 0⟩) p k)
    else if idem = 0 then
      let (k, _, t) := performAccess s p
      .next (answer t p k)
    else match recordOf s p.ep p.key p.off with
      | some r => .next (answer s p (.reply (r.result % 2 ^ 64) (r.result / 2 ^ 64)))
      | none =>
        if Config.windowRecords ≤ (s.epAt p.ep).window.length then .next (putPacket s { p with refused := true })
        else
          match performAccess s p with
          | (.refuse c n, _, t) => .next (answer t p (.refuse c n))
          | (k, r, t) => .next (answer (addRecord t p.ep ⟨p.key, p.off, r, 0⟩) p k)

/-! ### Replies (R88, R248, R283, R287, R288, R355) -/

/-- Give a result in flight its data. -/
def answerPend (k : Nat) (v : Nat) (e : Pend) : Pend :=
  if e.ifr = some k then
    { e with
      val := match e.dst with | some r => fitFile r.file (BitVec.ofNat 512 v) | none => e.val,
      avail := true, poison := false }
  else e

/-- Whether a result in flight waits for an entry and has not entered a file. -/
def awaits (k : Nat) (e : Pend) : Bool := e.ifr == some k && !e.done

/-- The register that still holds the poison mark of an entry (R283). -/
def markedBy (s : State) (loc k : Nat) : Option Reg :=
  match (s.seqAt loc).poison.find? (fun m => m.2 == k) with
  | some m => some m.1
  | none => ((s.coreAt (coreOf loc)).cmarks.find? (fun m => m.2.1 == loc && m.2.2 == k)).map (fun m => ⟨.c, m.1⟩)

/-- Bring data to the result of an entry: to a result in flight, in the running code or in the frame; else to the register that
still holds the entry's poison mark (R283). -/
def bringResult (s : State) (loc k v : Nat) : State :=
  let q := s.seqAt loc
  let inFrame := match q.frame with | some f => f.pend.any (awaits k) | none => false
  if q.pend.any (awaits k) || inFrame then
    settle (s.setSeq loc { q with
      pend := q.pend.map (answerPend k v),
      frame := q.frame.map (fun f => { f with pend := f.pend.map (answerPend k v) }) }) loc
  else
    match markedBy s loc k with
    | some r => regPut (clearErr (setMark s loc r none) loc r allBytes) loc r (fitFile r.file (BitVec.ofNat 512 v))
    | none => s

/-- An entry has all its answers: its result is brought, its sticky bits set, and it frees when nothing of it is left to
land (R249, R355). -/
def completeAccess (s : State) (loc k : Nat) (e : Ifr) : State :=
  let v := if e.kind = 3 ∨ e.kind = 6 then atomValue (e.rtype == 6) e.len e.reply.toNat
    else loadValue e.rtype e.len e.reply.toNat
  let q := s.seqAt loc
  let s := s.setSeq loc { q with
    conv := if e.halted then q.conv else q.conv ||| BitVec.ofNat 64 e.sticky, ifr := q.ifr.put k { e with state := 3 } }
  let s := if e.dst.isSome && !e.halted then bringResult s loc k v else s
  tryFinish (s.setSeq loc (freeReplied (s.seqAt loc))) loc

/-- One answer reaches its entry. -/
def takeAnswer (s : State) (p : Packet) (e : Ifr) : State :=
  let s := dropPacket s p.id
  let q := s.seqAt p.loc
  match p.kind with
  | .reply x st =>
    let e : Ifr :=
    { e with
      reply := e.reply ||| BitVec.ofNat 512 (x * 2 ^ (8 * p.off)), sticky := Nat.lor e.sticky st, left := e.left - 1 }
    if e.left = 0 then completeAccess s p.loc p.entry e else s.setSeq p.loc { q with ifr := q.ifr.put p.entry e }
  | .refuse c i =>
    s.setSeq p.loc { q with ifr := q.ifr.put p.entry { e with state := 4, fault := 1, code := c, info := i } }
  | _ => s

/-- Whether the save engine has begun to write a sequencer's context: a reply that comes now is discarded (R360). -/
def engineWrites (s : State) (loc : Nat) : Bool :=
  match (s.dieAt (dieOf loc)).job with
  | some j => !j.restore && j.done != 0 && (match j.ctx with | some (_, t, _) => t == loc | none => j.part == partOf loc)
  | none => false

/-- Take the first answer for an entry whose kind is listed; an answer without an entry of its key is discarded (R360). -/
def takeReply (s : State) (loc entry : Nat) (kinds : List Nat) : State :=
  match s.net.find? (fun p => !p.asks && p.src == s.module && p.loc == loc && p.entry == entry) with
  | none => s
  | some p =>
    match (s.seqAt loc).ifr.find entry with
    | some e =>
      if engineWrites s loc then dropPacket s p.id
      else if e.key = p.key then (if kinds.contains e.kind ∧ e.state < 3 then takeAnswer s p e else s)
      else dropPacket s p.id
    | none => dropPacket s p.id

/-- Whether an `ldr` result has passed its landing index (R282). -/
def isLate (q : Seq) (k : Nat) : Bool :=
  !(q.pend.any (fun e => awaits k e && decide (stepOf q (deciderOf e) < e.li)) ||
    (match q.frame with
     | some f => f.pend.any (fun e => awaits k e && decide (f.steps.look 0 (deciderOf e).num < e.li))
     | none => false))

/-- LOAD_REPLY: the data of a device-memory load, or of an `ldr` in time, returns (R88, R282). -/
def execLoadReply (loc entry : Nat) (s : State) : Host.Outcome State Fault Refusal :=
  .next (takeReply s loc entry (if isLate (s.seqAt loc) entry then [1] else [1, 4]))

/-- LDR_LATE_REPLY: the reply of an `ldr` returns after its landing index and settles the poison mark or is discarded
(R283). -/
def execLdrLateReply (loc entry : Nat) (s : State) : Host.Outcome State Fault Refusal :=
  if isLate (s.seqAt loc) entry then .next (takeReply s loc entry [4]) else .next s

/-- STORE_ACK: the acknowledgement of a store returns (R88, R287). -/
def execStoreAck (loc entry : Nat) (s : State) : Host.Outcome State Fault Refusal := .next (takeReply s loc entry [2, 5])

/-- ATOMIC_REPLY: the old value of an atomic returns (R248, R288). -/
def execAtomicReply (loc entry : Nat) (s : State) : Host.Outcome State Fault Refusal := .next (takeReply s loc entry [3, 6])

/-! ### Page-table walks (R323 to R325) -/

/-- PAGE_TABLE_WALK: walk number no / 8 of die no % 8, which a walker holds, ends with a translation or a trap code; a walker is free again. -/
def execPageTableWalk (no : Nat) (s : State) : Host.Outcome State Fault Refusal :=
  .next ((List.range 8).foldl (fun t d =>
    let k := t.dieAt d
    if k.walks.any (fun w => w.no == no / 8 && w.active && w.found.isNone && w.code == 0 && decide (d = no % 8)) then
      let ws := k.walks.map (fun w =>
        if w.no = no / 8 then
          match walk t w.vd (w.page * 4096) with
          | .ok (frame, bits, ok) => { w with found := some (frame + w.page * 4096 % 2 ^ bits, ok) }
          | .error c => { w with code := c }
        else w)
      t.setDie d { k with walks := grantWalks (residentParts t d) [] ws }
    else t) s)

end Sys2Proof.Machine
end

