-- ==== Sys2Proof/Machine/LoadStore.lean ====
section
/-! DEFINITION. Loads and stores of the L and W slots (05_memory_ops.md R82 to R90, R320). -/

namespace Sys2Proof.Machine

/-- The address of an access from its two address operands (R83). -/
def accessAddr (a b : Opnd) : Act Nat := do
  let x ← readOp a
  let y ← readOp b
  return (x + y) % 2 ^ 64

/-- The window class of an access, whose bytes lie in one window (R36, R83). -/
def accessWindow (a n : Nat) : Act Nat :=
  match windowOf a n with
  | some w => pure w
  | none => Act.trap 0x11 a

/-- Read bytes of the local store or the slice banks at issue (R89, R320, R348). -/
def readNear (a n : Nat) : Act Nat := do
  let s ← Act.view id
  Act.check (banksOk s s.cur.loc ((List.range n).map (a + ·))) 0x11 a
  readLocal a n

/-- Write bytes of the local store or the slice banks at issue, under a mask (R86, R89, R320). -/
def writeNear (a : Nat) (bytes : List Byte) (mask : Nat) : Act Unit := do
  let s ← Act.view id
  Act.check (banksOk s s.cur.loc (((List.range bytes.length).filter (fun j => mask.testBit j)).map (a + ·))) 0x11 a
  Act.change (fun s => nearWrite s s.cur.loc a bytes mask)

/-- The line accesses of n bytes from an address: address, byte offset, length (R86). -/
def lineAccesses (a n : Nat) : List (Nat × Nat × Nat) :=
  let k := 64 - a % 64
  if n ≤ k then [(a, 0, n)] else [(a, 0, k), (a + k, k, n - k)]

/-- Translate each line access. -/
def homesOf (write : Bool) : List (Nat × Nat × Nat) → Act (List (Nat × Nat × Nat × Nat))
  | [] => pure []
  | (a, off, n) :: r => do
    let pa ← Act.home a write false
    let rest ← homesOf write r
    return (pa, a, off, n) :: rest

/-- A load of n bytes (R84, R86, R88): at issue from the near windows, by an in-flight entry from device memory. -/
def actLoad (i : Instr) (a b : Opnd) (n : Nat) (aligned : Bool) (cls : BitVec 4) (t : Fmt) : Act Unit := do
  let va ← accessAddr a b
  Act.check (!aligned || decide (va % n = 0)) 0x11 va
  let w ← accessWindow va n
  let s ← Act.view id
  let dst := (destsOf s.cur.slot i).head?
  if w = 13 then do
    let hs ← homesOf false (lineAccesses va n)
    let k ← openAccess
      { Ifr.blank with
        kind := 1, cls := cls.toNat, scope := s.scope 0, target := va, len := n, rtype := t.code, dst := dst,
        li := s.here + latency s.me 13 }
      (hs.map (fun h => (h.1, h.2.1, h.2.2.1, PktKind.read h.2.2.2)))
    match dst with
    | some r => awaitResult r (latency s.me 13) k false
    | none => pure ()
  else do
    let x ← readNear va n
    match dst with
    | some r => writeReg r (latency s.me w) (fitFile r.file (BitVec.ofNat 512 (loadValue t.code n x)))
    | none => pure ()

/-- `ld` (R84). -/
def execLd (g : Guard) (dst : Dest) (a b : Opnd) (cls : BitVec 4) (t : Fmt) (s : State) : Host.Outcome State Fault Refusal :=
  issue (.ld g dst a b cls t) g (actLoad (.ld g dst a b cls t) a b (t.width / 8) true cls t) s
/-- `vld` (R86). -/
def execVld (g : Guard) (dst : Dest) (a b : Opnd) (cls : BitVec 4) (s : State) : Host.Outcome State Fault Refusal :=
  issue (.vld g dst a b cls) g (actLoad (.vld g dst a b cls) a b 64 true cls .b8) s
/-- `vldu` (R86). -/
def execVldu (g : Guard) (dst : Dest) (a b : Opnd) (cls : BitVec 4) (s : State) : Host.Outcome State Fault Refusal :=
  issue (.vldu g dst a b cls) g (actLoad (.vldu g dst a b cls) a b 64 false cls .b8) s

/-- `pf` (R90): it changes nothing that a program can read. -/
def execPf (g : Guard) (a b : Opnd) (s : State) : Host.Outcome State Fault Refusal :=
  issue (.pf g a b) g (do let _ ← accessAddr a b) s

/-- A store of n bytes under a mask to one window, once its address has passed: the data is read last (R85, R86, R88). -/
def actStore (va n mask w : Nat) (cls : BitVec 4) (data : Act Nat) : Act Unit := do
  let s ← Act.view id
  if w = 13 then do
    let ls := (lineAccesses va n).filter (fun l => bitsAt mask l.2.1 l.2.2 != 0)
    let hs ← homesOf true ls
    Act.await (fun s => (s.me.ifr.free Config.ifrEntries).isSome)
    let x ← data
    let _ ← openAccess
      { Ifr.blank with
        kind := 2, cls := cls.toNat, scope := s.scope 0, idem := 1, target := va, len := n }
      (hs.map (fun h => (h.1, h.2.1, h.2.2.1,
        PktKind.write (toBytes h.2.2.2 (x / 2 ^ (8 * h.2.2.1))) (bitsAt mask h.2.2.1 h.2.2.2))))
  else do
    Act.check (banksOk s s.cur.loc (((List.range n).filter (fun j => mask.testBit j)).map (va + ·))) 0x11 va
    let x ← data
    writeNear va (toBytes n x) mask

/-- `st` (R85). -/
def execSt (g : Guard) (src a b : Opnd) (cls : BitVec 4) (t : Fmt) (s : State) : Host.Outcome State Fault Refusal :=
  issue (.st g src a b cls t) g (do
    let va ← accessAddr a b
    let n := t.width / 8
    Act.check (decide (va % n = 0)) 0x11 va
    let w ← accessWindow va n
    actStore va n (2 ^ n - 1) w cls (readOp src)) s

/-- `vst` (R86). -/
def execVst (g : Guard) (src a b : Opnd) (cls : BitVec 4) (s : State) : Host.Outcome State Fault Refusal :=
  issue (.vst g src a b cls) g (do
    let va ← accessAddr a b
    Act.check (decide (va % 64 = 0)) 0x11 va
    let w ← accessWindow va 64
    actStore va 64 allBytes w cls (do return (← readRaw src).toNat)) s

/-- The window of the bytes that a mask names from an address: all in one window (R86). -/
def maskedWindow (a mask : Nat) : Option Nat :=
  let js := (List.range 64).filter (fun j => mask.testBit j)
  match js with
  | [] => some 0
  | j :: _ => if js.all (fun k => windowOf (a + k) 1 == windowOf (a + j) 1) then windowOf (a + j) 1 else none

/-- `vstm` (R86): the mask is a k register of V0 or V1, read by W at its issue. -/
def execVstm (g : Guard) (src a : Opnd) (k : BitVec 4) (v1 : Bool) (cls : BitVec 4) (s : State) :
    Host.Outcome State Fault Refusal :=
  issue (.vstm g src a k v1 cls) g (do
    let va ← readOp a
    let mask ← readNat (if v1 then .k1 else .k0) k.toNat
    if mask = 0 then do
      let _ ← readRaw src
    else
      match maskedWindow va mask with
      | none => Act.trap 0x11 va
      | some w => actStore va 64 mask w cls (do return (← readRaw src).toNat)) s

end Sys2Proof.Machine
end

