-- ==== Sys2Proof/Machine/GridShape.lean ====
section
/-! DEFINITION. The geometry of grid objects: descriptor fields, boxes, neighbours, faces and versions (17_grids.md R261 to R266,
02_machine.md R14). -/

namespace Sys2Proof.Machine

/-- The fields of a grid descriptor (Table 17.1). -/
abbrev GridDesc := BitVec 1024

/-- TNAME. -/
def GridDesc.tname (g : GridDesc) : Nat := bitsAt g.toNat 0 24
/-- The code of FMT. -/
def GridDesc.fmtCode (g : GridDesc) : Nat := bitsAt g.toNat 24 5
/-- FMT. -/
def GridDesc.fmt (g : GridDesc) : Fmt := (Fmt.ofCode g.fmtCode).getD .b8
/-- NDIM. -/
def GridDesc.ndim (g : GridDesc) : Nat := bitsAt g.toNat 29 2
/-- D. -/
def GridDesc.depth (g : GridDesc) : Nat := bitsAt g.toNat 31 3
/-- GPRI. -/
def GridDesc.pri (g : GridDesc) : Nat := bitsAt g.toNat 34 4
/-- HCH. -/
def GridDesc.hch (g : GridDesc) : Nat := bitsAt g.toNat 38 3
/-- IBASE. -/
def GridDesc.ibase (g : GridDesc) : Nat := bitsAt g.toNat 64 52
/-- GBASE. -/
def GridDesc.gbase (g : GridDesc) : Nat := bitsAt g.toNat 128 52
/-- PTAB. -/
def GridDesc.ptab (g : GridDesc) : Nat := bitsAt g.toNat 192 52
/-- SPLIT. -/
def GridDesc.split (g : GridDesc) : Nat := bitsAt g.toNat 256 52
/-- CONST. -/
def GridDesc.const (g : GridDesc) : Nat := bitsAt g.toNat 320 32
/-- SHBASE. -/
def GridDesc.shbase (g : GridDesc) : Nat := bitsAt g.toNat 640 52
/-- N of an axis. -/
def GridDesc.size (g : GridDesc) (d : Nat) : Nat := bitsAt g.toNat (384 + 64 * d) 24
/-- P of an axis. -/
def GridDesc.count (g : GridDesc) (d : Nat) : Nat := bitsAt g.toNat (384 + 64 * d + 24) 12
/-- HLO of an axis. -/
def GridDesc.hlo (g : GridDesc) (d : Nat) : Nat := bitsAt g.toNat (384 + 64 * d + 36) 4
/-- HHI of an axis. -/
def GridDesc.hhi (g : GridDesc) (d : Nat) : Nat := bitsAt g.toNat (384 + 64 * d + 40) 4
/-- BLO of an axis. -/
def GridDesc.blo (g : GridDesc) (d : Nat) : Nat := bitsAt g.toNat (384 + 64 * d + 44) 3
/-- BHI of an axis. -/
def GridDesc.bhi (g : GridDesc) (d : Nat) : Nat := bitsAt g.toNat (384 + 64 * d + 47) 3
/-- The size of an element in bytes. -/
def GridDesc.es (g : GridDesc) : Nat := g.fmt.width / 8
/-- Parties in all. -/
def GridDesc.parties (g : GridDesc) : Nat := g.count 0 * g.count 1 * g.count 2 * g.count 3

/-- The coordinates of a party number, last axis fastest (R261). -/
def GridDesc.coordOf (g : GridDesc) (j : Nat) : List Nat :=
  [j / (g.count 3 * g.count 2 * g.count 1), j / (g.count 3 * g.count 2) % g.count 1, j / g.count 3 % g.count 2, j % g.count 3]

/-- The party number of coordinates (R261). -/
def GridDesc.numberOf (g : GridDesc) (c : List Nat) : Nat :=
  ((c.getD 0 0 * g.count 1 + c.getD 1 0) * g.count 2 + c.getD 2 0) * g.count 3 + c.getD 3 0

/-- The first element of part j when n elements are split over p parts (R14): the first n mod p parts hold one more. -/
def splitStart (n p j : Nat) : Nat := j * (n / p) + Nat.min j (n % p)

/-- The neighbour of a party across a face (R264). -/
def GridDesc.neighbour (g : GridDesc) (j f : Nat) : Option Nat :=
  let d := f / 2
  let c := g.coordOf j
  let jd := c.getD d 0
  let p := g.count d
  let wide := g.hlo d + g.hhi d != 0
  let wrap := g.blo d == 1 && g.bhi d == 1
  if g.ndim < d then none
  else if f % 2 = 0 then
    if 0 < jd ∧ wide then some (g.numberOf (c.set d (jd - 1)))
    else if jd = 0 ∧ wrap then some (g.numberOf (c.set d (p - 1))) else none
  else
    if jd + 1 < p ∧ wide then some (g.numberOf (c.set d (jd + 1)))
    else if jd + 1 = p ∧ wrap then some (g.numberOf (c.set d 0)) else none

/-- The distinct neighbours of a party (R264). -/
def GridDesc.neighbours (g : GridDesc) (j : Nat) : List Nat := ((List.range 8).filterMap (g.neighbour j)).eraseDups

/-- The width of a ghost face (R265). -/
def GridDesc.width (g : GridDesc) (f : Nat) : Nat := if f % 2 = 0 then g.hlo (f / 2) else g.hhi (f / 2)
/-- The width of a send face: the widths exchanged (R265). -/
def GridDesc.sendWidth (g : GridDesc) (f : Nat) : Nat := if f % 2 = 0 then g.hhi (f / 2) else g.hlo (f / 2)

/-- Extents of a slab of width w on axis d of a box (R265). -/
def slabExtents (box : List Nat) (d w : Nat) : List Nat := box.set d w
/-- Elements of a slab. -/
def slabCount (ext : List Nat) : Nat := ext.foldl (· * ·) 1
/-- Bytes of a ghost face. -/
def GridDesc.faceBytes (g : GridDesc) (box : List Nat) (f : Nat) : Nat :=
  slabCount (slabExtents box (f / 2) (g.width f)) * g.es
/-- Bytes of a send face. -/
def GridDesc.sendBytes (g : GridDesc) (box : List Nat) (f : Nat) : Nat :=
  slabCount (slabExtents box (f / 2) (g.sendWidth f)) * g.es
/-- FOFF (R265). -/
def GridDesc.foff (g : GridDesc) (box : List Nat) : Nat → Nat
  | 0 => 0
  | f + 1 => g.foff box f + 64 * ceilDiv (g.faceBytes box f) 64
/-- VSIZE (R265). -/
def GridDesc.vsize (g : GridDesc) (box : List Nat) : Nat := g.foff box 8
/-- SFOFF (R265). -/
def GridDesc.sfoff (g : GridDesc) (box : List Nat) : Nat → Nat
  | 0 => 0
  | f + 1 => g.sfoff box f + 64 * ceilDiv (g.sendBytes box f) 64
/-- SSIZE (R265). -/
def GridDesc.ssize (g : GridDesc) (box : List Nat) : Nat := g.sfoff box 8

/-- The box extents of a declared grid's own party (R263). -/
def Grid.box (g : Grid) : List Nat := (List.range 4).map (fun d => g.hi.getD d 0 + 1 - g.lo.getD d 0)

/-- Multi-dimensional coordinates of element j of a box, last dimension fastest (R213). -/
def boxCoord (ext : List Nat) (j : Nat) : List Nat :=
  let e := fun i => ext.getD i 1
  [j / (e 3 * e 2 * e 1), j / (e 3 * e 2) % e 1, j / e 3 % e 2, j % e 3]

end Sys2Proof.Machine
end

