-- ==== Sys2Proof/Machine/Approx.lean ====
section
/-! DEFINITION. The approximations of R138: the exact function value rounded to nearest on the reduced grid. Reciprocal and
reciprocal root are exact; powers and logarithms are enclosed far beyond the grid (assumption 9). -/

namespace Sys2Proof.Machine

/-- The reduced grid of R138: f32 with fraction bits [7:0] zero. -/
def reducedShape : FloatShape := ⟨8, 15, 127, true, 254, 2 ^ 15 - 1⟩

/-- A finite non-zero value rounded to nearest on the reduced grid; INEXACT is never set (R138). -/
def roundReduced (neg : Bool) (man : Nat) (exp : Int) : Nat × Nat :=
  let (b, st) := roundFloat .f32 reducedShape 0 0 false neg man exp
  (b * 2 ^ 8, st - st / stickyInexact % 2 * stickyInexact)

/-- The floor of a square root below 2^n, bit by bit. -/
def isqrt (x : Nat) : Nat → Nat → Nat
  | 0, r => r
  | n + 1, r => if (r + 2 ^ n) * (r + 2 ^ n) ≤ x then isqrt x n (r + 2 ^ n) else isqrt x n r

/-- A floor with one more bit that tells whether something was cut off: it rounds as the exact value does. -/
def withRest (q : Nat) (exact : Bool) : Nat := 2 * q + (if exact then 0 else 1)

/-- `vrcp` of one lane (R138, Table 7.2). -/
def rcpLane (x : Num) : Nat × Nat :=
  match x with
  | .nan => (canonNan .f32, 0)
  | .inf s => (zeroBits .f32 s, 0)
  | .fin s m e =>
    if m = 0 then infBits .f32 s false
    else
      let k := m.log2 + 40
      roundReduced s (withRest (2 ^ k / m) (2 ^ k % m = 0)) (-e - k - 1)

/-- `vrsq` of one lane (R138, Table 7.2). -/
def rsqLane (x : Num) : Nat × Nat :=
  match x with
  | .nan => (canonNan .f32, 0)
  | .inf s => if s then (canonNan .f32, stickyNanMade) else (0, 0)
  | .fin s m e =>
    if m = 0 then infBits .f32 s false
    else if s then (canonNan .f32, stickyNanMade)
    else
      let m := if e % 2 = 0 then m else 2 * m
      let e := if e % 2 = 0 then e else e - 1
      let k := m.log2 + 40
      let y := isqrt (2 ^ (2 * k) / m) (k + 1) 0
      roundReduced false (withRest y (y * y * m = 2 ^ (2 * k))) (-(e / 2) - k - 1)

/-- The product of the roots 2^(2^-i) that the bits of a fraction select, to p bits below the point, from below. -/
def powBits (p : Nat) : List Bool → Nat → Nat → Nat
  | [], _, acc => acc
  | b :: bs, root, acc =>
    let root := isqrt (root * 2 ^ p) (p + 1) 0
    powBits p bs root (if b then acc * root / 2 ^ p else acc)

/-- `vexp2` of one lane (R138, Table 7.2). -/
def exp2Lane (x : Num) : Nat × Nat :=
  match x with
  | .nan => (canonNan .f32, 0)
  | .inf s => if s then (0, 0) else infBits .f32 false false
  | .fin s m e =>
    if m = 0 then roundReduced false 1 0
    else if 8 ≤ (m.log2 : Int) + e then (if s then roundReduced false 1 (-400) else roundReduced false 1 400)
    else
      let p := 96
      let u : Nat := (-e).toNat
      let v : Int := (if s then -1 else 1) * (m * 2 ^ e.toNat : Nat)
      let n : Int := v / 2 ^ u
      let f := (v % 2 ^ u).toNat
      if f = 0 then roundReduced false 1 n
      else
        let bits := (List.range p).map (fun j => decide (j < u) && f.testBit (u - 1 - j))
        let lo := powBits p bits (2 * 2 ^ p) (2 ^ p)
        let a := roundReduced false lo (n - p)
        let b := roundReduced false (lo + 6 * p + 8) (n - p)
        if a.1 = b.1 then b else a

/-- n bits of the binary logarithm of y / 2^w in [1, 2), by squaring; up rounds each square up. -/
def logBits (w : Nat) (up : Bool) : Nat → Nat → Nat → Nat
  | 0, _, acc => acc
  | n + 1, y, acc =>
    let z := if up then ceilDiv (y * y) (2 ^ w) else y * y / 2 ^ w
    if 2 * 2 ^ w ≤ z then logBits w up n (if up then ceilDiv z 2 else z / 2) (2 * acc + 1) else logBits w up n z (2 * acc)

/-- `vlog2` of one lane (R138, Table 7.2). -/
def log2Lane (x : Num) : Nat × Nat :=
  match x with
  | .nan => (canonNan .f32, 0)
  | .inf s => if s then (canonNan .f32, stickyNanMade) else infBits .f32 false false
  | .fin s m e =>
    if m = 0 then infBits .f32 true false
    else if s then (canonNan .f32, stickyNanMade)
    else
      let top : Int := m.log2 + e
      if m = 2 ^ m.log2 then
        if top = 0 then (0, 0) else roundReduced (decide (top < 0)) top.natAbs 0
      else
        let n := 120
        let w := 300
        let y := m * 2 ^ (w - m.log2)
        let lo : Int := top * 2 ^ n + (logBits w false n y 0 : Nat)
        let hi : Int := top * 2 ^ n + (logBits w true n y 0 : Nat) + 1
        let a := roundReduced (decide (lo < 0)) lo.natAbs (-n)
        let b := roundReduced (decide (hi < 0)) hi.natAbs (-n)
        if a.1 = b.1 then b else a

end Sys2Proof.Machine
end

