-- ==== Sys2Proof/Machine/Vector.lean ====
section
/-! DEFINITION. The V0 and V1 slots (07_vector.md R117 to R141). -/

namespace Sys2Proof.Machine

/-! ### Masks and results -/

/-- A write mask as a byte mask of the 64 lanes: field 0 is unmasked (R121). -/
def readKm (k : BitVec 4) : Act Nat := do
  if k = 0 then return allBytes
  let x ← Act.view (fun s => s.cur.slot)
  return (← readReg ⟨maskFile x, k.toNat⟩).toNat % 2 ^ 64

/-- Whether a mask enables lane i of w bits: the bit of its lowest byte (R121). -/
def laneOn (w m i : Nat) : Bool := m.testBit (w / 8 * i)

/-- The bytes of the enabled lanes (R121). -/
def laneBytes (w m : Nat) : Nat := compareMask w (laneOn w m)

/-- Deliver lanes of a type, each with the sticky bits it raises: into a register under the mask, or into a ring (R120 to
R122). -/
def vecOut (i : Instr) (d : Opnd) (t : Fmt) (k : BitVec 4) (xs : List (Nat × Nat)) : Act Unit := do
  let m ← readKm k
  let s ← Act.view id
  let v := BitVec.ofNat 512 (ofLanes t.width (xs.map (·.1)))
  let st := ((List.range xs.length).map (fun j => if laneOn t.width m j then (xs.getD j (0, 0)).2 else 0)).foldl Nat.lor 0
  match d with
  | .pop q => do
    stickyAt (latSteps s i) st
    pushLanes q.toNat t (if rmodeAt s.me s.here = 4 then ownDraws i else 0) v (latSteps s i)
  | _ => deliverMasked i v (if k = 0 then allBytes else laneBytes t.width m) st

/-- Deliver lanes that raise no sticky bit. -/
def vecPlain (i : Instr) (d : Opnd) (t : Fmt) (k : BitVec 4) (f : Nat → Nat) : Act Unit :=
  vecOut i d t k ((List.range (512 / t.width)).map (fun j => (f j % 2 ^ t.width, 0)))

/-- A lane-wise operation of two sources. -/
def vec2 (i : Instr) (d a b : Opnd) (t : Fmt) (k : BitVec 4) (f : Nat → Nat → Nat) : Act Unit := do
  let x ← readVec t a
  let y ← readVec t b
  vecPlain i d t k (fun j => f (lane x j t.width) (lane y j t.width))

/-- A lane-wise operation of one source. -/
def vec1 (i : Instr) (d a : Opnd) (t : Fmt) (k : BitVec 4) (f : Nat → Nat) : Act Unit := do
  let x ← readVec t a
  vecPlain i d t k (fun j => f (lane x j t.width))

/-- A lane as its type reads it (R123). -/
def laneInt (t : Fmt) (x : Nat) : Int := if t.isSigned then sext t.width x else (x : Int)

/-! ### Integer lanes (R123 to R125) -/

/-- `vadd` (R123). -/
def execVadd (g : Guard) (d a b : Opnd) (t : Fmt) (k : BitVec 4) (s : State) : Host.Outcome State Fault Refusal :=
  issue (.vadd g d a b t k) g (vec2 (.vadd g d a b t k) d a b t k (fun x y => x + y)) s
/-- `vsub` (R123). -/
def execVsub (g : Guard) (d a b : Opnd) (t : Fmt) (k : BitVec 4) (s : State) : Host.Outcome State Fault Refusal :=
  issue (.vsub g d a b t k) g (vec2 (.vsub g d a b t k) d a b t k (fun x y => x + 2 ^ t.width - y)) s
/-- `vmul` (R123). -/
def execVmul (g : Guard) (d a b : Opnd) (t : Fmt) (k : BitVec 4) (s : State) : Host.Outcome State Fault Refusal :=
  issue (.vmul g d a b t k) g (vec2 (.vmul g d a b t k) d a b t k (fun x y => x * y)) s
/-- `vmulh` (R123). -/
def execVmulh (g : Guard) (d a b : Opnd) (t : Fmt) (k : BitVec 4) (s : State) : Host.Outcome State Fault Refusal :=
  issue (.vmulh g d a b t k) g (vec2 (.vmulh g d a b t k) d a b t k
    (fun x y => wrap (2 * t.width) (laneInt t x * laneInt t y) / 2 ^ t.width)) s
/-- `vmin` (R123). -/
def execVmin (g : Guard) (d a b : Opnd) (t : Fmt) (k : BitVec 4) (s : State) : Host.Outcome State Fault Refusal :=
  issue (.vmin g d a b t k) g (vec2 (.vmin g d a b t k) d a b t k
    (fun x y => if laneInt t x ≤ laneInt t y then x else y)) s
/-- `vmax` (R123). -/
def execVmax (g : Guard) (d a b : Opnd) (t : Fmt) (k : BitVec 4) (s : State) : Host.Outcome State Fault Refusal :=
  issue (.vmax g d a b t k) g (vec2 (.vmax g d a b t k) d a b t k
    (fun x y => if laneInt t y ≤ laneInt t x then x else y)) s
/-- `vabs` (R123). -/
def execVabs (g : Guard) (d a : Opnd) (t : Fmt) (k : BitVec 4) (s : State) : Host.Outcome State Fault Refusal :=
  issue (.vabs g d a t k) g (vec1 (.vabs g d a t k) d a t k (fun x => (sext t.width x).natAbs)) s
/-- `vand` (R123). -/
def execVand (g : Guard) (d a b : Opnd) (t : Fmt) (k : BitVec 4) (s : State) : Host.Outcome State Fault Refusal :=
  issue (.vand g d a b t k) g (vec2 (.vand g d a b t k) d a b t k Nat.land) s
/-- `vor` (R123). -/
def execVor (g : Guard) (d a b : Opnd) (t : Fmt) (k : BitVec 4) (s : State) : Host.Outcome State Fault Refusal :=
  issue (.vor g d a b t k) g (vec2 (.vor g d a b t k) d a b t k Nat.lor) s
/-- `vxor` (R123). -/
def execVxor (g : Guard) (d a b : Opnd) (t : Fmt) (k : BitVec 4) (s : State) : Host.Outcome State Fault Refusal :=
  issue (.vxor g d a b t k) g (vec2 (.vxor g d a b t k) d a b t k Nat.xor) s
/-- `vandn` (R123). -/
def execVandn (g : Guard) (d a b : Opnd) (t : Fmt) (k : BitVec 4) (s : State) : Host.Outcome State Fault Refusal :=
  issue (.vandn g d a b t k) g (vec2 (.vandn g d a b t k) d a b t k
    (fun x y => Nat.land x (2 ^ t.width - 1 - y))) s

/-- A lane shifted left; w or more places give 0 (R124). -/
def laneShl (w x n : Nat) : Nat := if n < w then x * 2 ^ n else 0
/-- A lane shifted right (R124). -/
def laneShr (w x n : Nat) : Nat := if n < w then x / 2 ^ n else 0
/-- A lane shifted right with its sign (R124). -/
def laneSra (w x n : Nat) : Nat :=
  if n < w then wrap w (sext w x / 2 ^ n) else if sext w x < 0 then 2 ^ w - 1 else 0
/-- A funnel shift of two lanes (R124). -/
def laneFunnel (w : Nat) (right : Bool) (x y c : Nat) : Nat :=
  let n := Nat.min c w
  if right then (x * 2 ^ w + y) / 2 ^ n % 2 ^ w else bitsAt ((x * 2 ^ w + y) * 2 ^ n) w w

/-- `vshl` (R124). -/
def execVshl (g : Guard) (d a b : Opnd) (t : Fmt) (k : BitVec 4) (s : State) : Host.Outcome State Fault Refusal :=
  issue (.vshl g d a b t k) g (vec2 (.vshl g d a b t k) d a b t k (laneShl t.width)) s
/-- `vshr` (R124). -/
def execVshr (g : Guard) (d a b : Opnd) (t : Fmt) (k : BitVec 4) (s : State) : Host.Outcome State Fault Refusal :=
  issue (.vshr g d a b t k) g (vec2 (.vshr g d a b t k) d a b t k (laneShr t.width)) s
/-- `vsra` (R124). -/
def execVsra (g : Guard) (d a b : Opnd) (t : Fmt) (k : BitVec 4) (s : State) : Host.Outcome State Fault Refusal :=
  issue (.vsra g d a b t k) g (vec2 (.vsra g d a b t k) d a b t k (laneSra t.width)) s
/-- `vfsh` (R124): the counts come from d, read at issue. -/
def execVfsh (g : Guard) (d a b : Opnd) (t : Fmt) (right : Bool) (s : State) : Host.Outcome State Fault Refusal :=
  issue (.vfsh g d a b t right) g (do
    let x ← readVec t a
    let y ← readVec t b
    let c ← readRaw d
    vecPlain (.vfsh g d a b t right) d t 0 (fun j =>
      laneFunnel t.width right (lane x j t.width) (lane y j t.width) (lane c j t.width))) s
/-- `vclz` (R125). -/
def execVclz (g : Guard) (d a : Opnd) (t : Fmt) (k : BitVec 4) (s : State) : Host.Outcome State Fault Refusal :=
  issue (.vclz g d a t k) g (vec1 (.vclz g d a t k) d a t k (leadingZeros t.width)) s
/-- `vpopc` (R125). -/
def execVpopc (g : Guard) (d a : Opnd) (t : Fmt) (k : BitVec 4) (s : State) : Host.Outcome State Fault Refusal :=
  issue (.vpopc g d a t k) g (vec1 (.vpopc g d a t k) d a t k (onesCount t.width)) s

/-! ### Compares, selection, masks (R126 to R128) -/

/-- `vcmp` (R126). -/
def execVcmp (g : Guard) (kd : BitVec 4) (a b : Opnd) (t : Fmt) (cc : BitVec 4) (s : State) :
    Host.Outcome State Fault Refusal :=
  issue (.vcmp g kd a b t cc) g (do
    let x ← readVec t a
    let y ← readVec t b
    deliverNat (.vcmp g kd a b t cc) (compareMask t.width (fun j =>
      condition t.width cc.toNat (lane x j t.width) (lane y j t.width)))) s
/-- `vsel` (R127): byte by byte under any k register. -/
def execVsel (g : Guard) (d a b : Opnd) (t : Fmt) (ks : BitVec 4) (s : State) : Host.Outcome State Fault Refusal :=
  issue (.vsel g d a b t ks) g (do
    let x ← readVec t a
    let y ← readVec t b
    let slot ← Act.view (fun s => s.cur.slot)
    let m ← readReg ⟨maskFile slot, ks.toNat⟩
    let r := mergeBytes y x (m.toNat % 2 ^ 64)
    vecPlain (.vsel g d a b t ks) d t 0 (fun j => lane r j t.width)) s

/-- A mask register of the own slot. -/
def readMask (k : BitVec 4) : Act Nat := do
  let slot ← Act.view (fun s => s.cur.slot)
  return (← readReg ⟨maskFile slot, k.toNat⟩).toNat % 2 ^ 64

/-- `kand` (R128). -/
def execKand (g : Guard) (kd ka kb : BitVec 4) (s : State) : Host.Outcome State Fault Refusal :=
  issue (.kand g kd ka kb) g (do
    let x ← readMask ka
    let y ← readMask kb
    deliverNat (.kand g kd ka kb) (Nat.land x y)) s
/-- `kor` (R128). -/
def execKor (g : Guard) (kd ka kb : BitVec 4) (s : State) : Host.Outcome State Fault Refusal :=
  issue (.kor g kd ka kb) g (do
    let x ← readMask ka
    let y ← readMask kb
    deliverNat (.kor g kd ka kb) (Nat.lor x y)) s
/-- `kxor` (R128). -/
def execKxor (g : Guard) (kd ka kb : BitVec 4) (s : State) : Host.Outcome State Fault Refusal :=
  issue (.kxor g kd ka kb) g (do
    let x ← readMask ka
    let y ← readMask kb
    deliverNat (.kxor g kd ka kb) (Nat.xor x y)) s
/-- `knot` (R128). -/
def execKnot (g : Guard) (kd ka : BitVec 4) (s : State) : Host.Outcome State Fault Refusal :=
  issue (.knot g kd ka) g (do
    let x ← readMask ka
    deliverNat (.knot g kd ka) (2 ^ 64 - 1 - x)) s
/-- `kpop` (R128). -/
def execKpop (g : Guard) (d : Opnd) (ka : BitVec 4) (s : State) : Host.Outcome State Fault Refusal :=
  issue (.kpop g d ka) g (do
    let x ← readMask ka
    deliverNat (.kpop g d ka) (onesCount 64 x)) s
/-- `kfirst` (R128). -/
def execKfirst (g : Guard) (d : Opnd) (ka : BitVec 4) (s : State) : Host.Outcome State Fault Refusal :=
  issue (.kfirst g d ka) g (do
    let x ← readMask ka
    deliverNat (.kfirst g d ka) (trailingZeros 64 x)) s

/-! ### Lane movement (R129, R130) -/

/-- `vbcast` (R129). -/
def execVbcast (g : Guard) (d a : Opnd) (n : BitVec 10) (t : Fmt) (k : BitVec 4) (s : State) :
    Host.Outcome State Fault Refusal :=
  issue (.vbcast g d a n t k) g (do
    let x ← readVec t a
    vecPlain (.vbcast g d a n t k) d t k (fun _ => lane x n.toNat t.width)) s
/-- `vext` (R129). -/
def execVext (g : Guard) (d a : Opnd) (n : BitVec 10) (t : Fmt) (s : State) : Host.Outcome State Fault Refusal :=
  issue (.vext g d a n t) g (do
    let x ← readVec t a
    vecPlain (.vext g d a n t) d t 0 (fun j => if j = 0 then lane x n.toNat t.width else 0)) s
/-- `vins` (R129): d is read at issue. -/
def execVins (g : Guard) (d a : Opnd) (n : BitVec 10) (t : Fmt) (s : State) : Host.Outcome State Fault Refusal :=
  issue (.vins g d a n t) g (do
    let x ← readVec t a
    let old ← readRaw d
    vecPlain (.vins g d a n t) d t 0 (fun j => if j = n.toNat then lane x 0 t.width else lane old j t.width)) s
/-- `vperm` (R130). -/
def execVperm (g : Guard) (d a b : Opnd) (t : Fmt) (k : BitVec 4) (s : State) : Host.Outcome State Fault Refusal :=
  issue (.vperm g d a b t k) g (do
    let x ← readVec t a
    let y ← readVec t b
    vecPlain (.vperm g d a b t k) d t k (fun j =>
      let i := lane y j t.width
      if i < 512 / t.width then lane x i t.width else 0)) s
/-- `vrot` (R129). -/
def execVrot (g : Guard) (d a : Opnd) (n : BitVec 10) (t : Fmt) (k : BitVec 4) (s : State) :
    Host.Outcome State Fault Refusal :=
  issue (.vrot g d a n t k) g (do
    let x ← readVec t a
    vecPlain (.vrot g d a n t k) d t k (fun j => lane x ((j + n.toNat) % (512 / t.width)) t.width)) s
/-- `vslide` (R129). -/
def execVslide (g : Guard) (d a : Opnd) (n : BitVec 7) (dn : Bool) (t : Fmt) (k : BitVec 4) (s : State) :
    Host.Outcome State Fault Refusal :=
  issue (.vslide g d a n dn t k) g (do
    let x ← readVec t a
    vecPlain (.vslide g d a n dn t k) d t k (fun j =>
      if dn then (if j + n.toNat < 512 / t.width then lane x (j + n.toNat) t.width else 0)
      else if n.toNat ≤ j then lane x (j - n.toNat) t.width else 0)) s

/-! ### Groups (R131 to R133) -/

/-- The lanes of a group of 2^GS bytes. -/
def groupLanes (gs : BitVec 3) (t : Fmt) : Nat := 8 * 2 ^ gs.toNat / t.width

/-- `vred` of one group's lanes (R132). -/
def reduceLanes (t : Fmt) (op : Nat) (xs : List Nat) : Nat :=
  match op with
  | 0 => xs.sum
  | 1 => xs.foldl (fun r x => if laneInt t x < laneInt t r then x else r) (xs.headD 0)
  | 2 => xs.foldl (fun r x => if laneInt t r < laneInt t x then x else r) (xs.headD 0)
  | _ => xs.foldl Nat.lor 0

/-- The lanes of the group that holds lane j. -/
def groupOf (n w : Nat) (v : Vec) (j : Nat) : List Nat := (List.range n).map (fun i => lane v (j / n * n + i) w)

/-- `vred` (R132). -/
def execVred (g : Guard) (d a : Opnd) (gs : BitVec 3) (op : BitVec 2) (t : Fmt) (s : State) :
    Host.Outcome State Fault Refusal :=
  issue (.vred g d a gs op t) g (do
    let x ← readVec t a
    vecPlain (.vred g d a gs op t) d t 0 (fun j => reduceLanes t op.toNat (groupOf (groupLanes gs t) t.width x j))) s
/-- `vscan` (R132). -/
def execVscan (g : Guard) (d a : Opnd) (gs : BitVec 3) (op : BitVec 2) (t : Fmt) (s : State) :
    Host.Outcome State Fault Refusal :=
  issue (.vscan g d a gs op t) g (do
    let x ← readVec t a
    let n := groupLanes gs t
    vecPlain (.vscan g d a gs op t) d t 0 (fun j =>
      ((groupOf n t.width x j).take (j % n + (if op = 0 then 1 else 0))).sum)) s

/-- The smaller of two floats, -0 below +0, a NaN giving way to the other (R136). -/
def fmin (x y : Num) : Num :=
  if x.isNan then y else if y.isNan then x
  else if x.lt y || (x.eq y && x.sign) then x else y
/-- The larger under the same rules (R136). -/
def fmax (x y : Num) : Num :=
  if x.isNan then y else if y.isNan then x
  else if y.lt x || (x.eq y && !x.sign) then x else y

/-- One node of the tree of `vfred`: a sum rounds, a choice does not (R133). -/
def fredNode (op : Nat) (x y : Nat × Nat) : Nat × Nat :=
  let a := decodeNum .f32 x.1
  let b := decodeNum .f32 y.1
  match op with
  | 0 =>
    let r := a.add b
    let (c, st) := roundNear .f32 r
    (c, Nat.lor (Nat.lor x.2 y.2) (Nat.lor st (madeNan r [a, b])))
  | 1 => ((roundNear .f32 (fmin a b)).1, Nat.lor x.2 y.2)
  | _ => ((roundNear .f32 (fmax a b)).1, Nat.lor x.2 y.2)

/-- One level of the tree. -/
def fredLevel (op : Nat) : List (Nat × Nat) → List (Nat × Nat)
  | x :: y :: r => fredNode op x y :: fredLevel op r
  | r => r

/-- The whole tree (R133). -/
def fredTree (op : Nat) : Nat → List (Nat × Nat) → Nat × Nat
  | 0, xs => xs.headD (0, 0)
  | n + 1, xs => fredTree op n (fredLevel op xs)

/-- `vfred` (R133). -/
def execVfred (g : Guard) (d a : Opnd) (gs : BitVec 3) (op : BitVec 2) (t : Fmt) (s : State) :
    Host.Outcome State Fault Refusal :=
  issue (.vfred g d a gs op t) g (do
    let x ← readVec t a
    let n := groupLanes gs t
    vecOut (.vfred g d a gs op t) d t 0 ((List.range 16).map (fun j =>
      fredTree op.toNat n.log2 ((groupOf n 32 x j).map (fun e => (e, 0)))))) s

/-! ### Packing (R134) -/

/-- The type of half the width. -/
def narrowType : Fmt → Fmt
  | .b16 => .b8 | .b32 => .b16 | .b64 => .b32 | .s16 => .s8 | .s32 => .s16 | .s64 => .s32
  | t => t
/-- The type of twice the width. -/
def wideType : Fmt → Fmt
  | .b8 => .b16 | .b16 => .b32 | .b32 => .b64 | .s8 => .s16 | .s16 => .s32 | .s32 => .s64
  | t => t

/-- Narrow of R134. -/
def narrowLane (t : Fmt) (wr : Bool) (x : Nat) : Nat :=
  let h := t.width / 2
  if wr then x % 2 ^ h
  else wrap h (sat (laneInt t x) (intRange (narrowType t)).1 (intRange (narrowType t)).2)

/-- `vpack` (R134). -/
def execVpack (g : Guard) (d a b : Opnd) (t : Fmt) (wr : Bool) (s : State) : Host.Outcome State Fault Refusal :=
  issue (.vpack g d a b t wr) g (do
    let x ← readVec t a
    let y ← readVec t b
    let n := 512 / t.width
    vecPlain (.vpack g d a b t wr) d (narrowType t) 0 (fun j =>
      narrowLane t wr (if j < n then lane x j t.width else lane y (j - n) t.width))) s
/-- `vunpk` (R134). -/
def execVunpk (g : Guard) (d a : Opnd) (t : Fmt) (hi : Bool) (s : State) : Host.Outcome State Fault Refusal :=
  issue (.vunpk g d a t hi) g (do
    let x ← readVec t a
    let n := 512 / t.width / 2
    vecPlain (.vunpk g d a t hi) d (wideType t) 0 (fun j =>
      wrap (2 * t.width) (laneInt t (lane x (if hi then n + j else j) t.width)))) s

/-! ### Floating lanes (R135 to R137) -/

/-- A rounded lane with the sticky bits it raises: RoundTo's, and NAN_MADE where a NaN is new (R122, R135). -/
def floatLane (t : Fmt) (r : Num) (ops : List Num) : Nat × Nat :=
  let (c, st) := roundNear t r
  (c, Nat.lor st (madeNan r ops))

/-- A floating operation of two sources that rounds. -/
def vecF2 (i : Instr) (d a b : Opnd) (t : Fmt) (k : BitVec 4) (f : Num → Num → Num) : Act Unit := do
  let x ← readVec t a
  let y ← readVec t b
  vecOut i d t k ((List.range (512 / t.width)).map (fun j =>
    let u := decodeNum t (lane x j t.width)
    let v := decodeNum t (lane y j t.width)
    floatLane t (f u v) [u, v]))

/-- A floating operation of three sources, d read at issue. -/
def vecF3 (i : Instr) (d a b : Opnd) (t : Fmt) (k : BitVec 4) (f : Num → Num → Num → Num) : Act Unit := do
  let x ← readVec t a
  let y ← readVec t b
  let z ← readRaw d
  vecOut i d t k ((List.range (512 / t.width)).map (fun j =>
    let u := decodeNum t (lane x j t.width)
    let v := decodeNum t (lane y j t.width)
    let w := decodeNum t (lane z j t.width)
    floatLane t (f u v w) [u, v, w]))

/-- `vfadd` (R135). -/
def execVfadd (g : Guard) (d a b : Opnd) (t : Fmt) (k : BitVec 4) (s : State) : Host.Outcome State Fault Refusal :=
  issue (.vfadd g d a b t k) g (vecF2 (.vfadd g d a b t k) d a b t k Num.add) s
/-- `vfsub` (R135). -/
def execVfsub (g : Guard) (d a b : Opnd) (t : Fmt) (k : BitVec 4) (s : State) : Host.Outcome State Fault Refusal :=
  issue (.vfsub g d a b t k) g (vecF2 (.vfsub g d a b t k) d a b t k (fun u v => u.add v.neg)) s
/-- `vfmul` (R135). -/
def execVfmul (g : Guard) (d a b : Opnd) (t : Fmt) (k : BitVec 4) (s : State) : Host.Outcome State Fault Refusal :=
  issue (.vfmul g d a b t k) g (vecF2 (.vfmul g d a b t k) d a b t k Num.mul) s
/-- `vfma` (R135). -/
def execVfma (g : Guard) (d a b : Opnd) (t : Fmt) (k : BitVec 4) (s : State) : Host.Outcome State Fault Refusal :=
  issue (.vfma g d a b t k) g (vecF3 (.vfma g d a b t k) d a b t k (fun u v w => (u.mul v).add w)) s
/-- `vfms` (R135). -/
def execVfms (g : Guard) (d a b : Opnd) (t : Fmt) (k : BitVec 4) (s : State) : Host.Outcome State Fault Refusal :=
  issue (.vfms g d a b t k) g (vecF3 (.vfms g d a b t k) d a b t k (fun u v w => w.add (u.mul v).neg)) s

/-- A choice or sign operation: no rounding and no sticky bit (R136). -/
def vecChoice (i : Instr) (d a b : Opnd) (t : Fmt) (k : BitVec 4) (f : Num → Num → Nat → Num) : Act Unit := do
  let x ← readVec t a
  let y ← readVec t b
  vecPlain i d t k (fun j =>
    (roundNear t (f (decodeNum t (lane x j t.width)) (decodeNum t (lane y j t.width)) (lane y j t.width))).1)

/-- `vfmin` (R136). -/
def execVfmin (g : Guard) (d a b : Opnd) (t : Fmt) (k : BitVec 4) (s : State) : Host.Outcome State Fault Refusal :=
  issue (.vfmin g d a b t k) g (vecChoice (.vfmin g d a b t k) d a b t k (fun u v _ => fmin u v)) s
/-- `vfmax` (R136). -/
def execVfmax (g : Guard) (d a b : Opnd) (t : Fmt) (k : BitVec 4) (s : State) : Host.Outcome State Fault Refusal :=
  issue (.vfmax g d a b t k) g (vecChoice (.vfmax g d a b t k) d a b t k (fun u v _ => fmax u v)) s
/-- `vfabs` (R136). -/
def execVfabs (g : Guard) (d a : Opnd) (t : Fmt) (k : BitVec 4) (s : State) : Host.Outcome State Fault Refusal :=
  issue (.vfabs g d a t k) g (vec1 (.vfabs g d a t k) d a t k (fun x => (roundNear t (decodeNum t x).abs).1)) s
/-- `vfneg` (R136). -/
def execVfneg (g : Guard) (d a : Opnd) (t : Fmt) (k : BitVec 4) (s : State) : Host.Outcome State Fault Refusal :=
  issue (.vfneg g d a t k) g (vec1 (.vfneg g d a t k) d a t k (fun x => (roundNear t (decodeNum t x).neg).1)) s
/-- `vfsgn` (R136). -/
def execVfsgn (g : Guard) (d a b : Opnd) (t : Fmt) (k : BitVec 4) (s : State) : Host.Outcome State Fault Refusal :=
  issue (.vfsgn g d a b t k) g (vecChoice (.vfsgn g d a b t k) d a b t k (fun u v y =>
    if !v.isNan && y.testBit (t.width - 1) then u.abs.neg else u.abs)) s

/-- A floating condition (R137). -/
def fcondition (cc : Nat) (x y : Num) : Bool :=
  let un := x.isNan || y.isNan
  match cc with
  | 0 => x.eq y
  | 1 => !x.eq y
  | 2 => x.lt y
  | 3 => !un && !y.lt x
  | 4 => y.lt x
  | 5 => !un && !x.lt y
  | 6 => un
  | _ => !un

/-- `vfcmp` (R137). -/
def execVfcmp (g : Guard) (kd : BitVec 4) (a b : Opnd) (t : Fmt) (cc : BitVec 4) (s : State) :
    Host.Outcome State Fault Refusal :=
  issue (.vfcmp g kd a b t cc) g (do
    let x ← readVec t a
    let y ← readVec t b
    deliverNat (.vfcmp g kd a b t cc) (compareMask t.width (fun j =>
      fcondition cc.toNat (decodeNum t (lane x j t.width)) (decodeNum t (lane y j t.width))))) s

/-! ### Approximations and conversions (R138, R139) -/

/-- A function of one f32 lane with its sticky bits. -/
def vecF1 (i : Instr) (d a : Opnd) (k : BitVec 4) (f : Num → Nat × Nat) : Act Unit := do
  let x ← readVec .f32 a
  vecOut i d .f32 k ((List.range 16).map (fun j => f (decodeNum .f32 (lane x j 32))))

/-- `vrcp` (R138). -/
def execVrcp (g : Guard) (d a : Opnd) (t : Fmt) (k : BitVec 4) (s : State) : Host.Outcome State Fault Refusal :=
  issue (.vrcp g d a t k) g (vecF1 (.vrcp g d a t k) d a k rcpLane) s
/-- `vrsq` (R138). -/
def execVrsq (g : Guard) (d a : Opnd) (t : Fmt) (k : BitVec 4) (s : State) : Host.Outcome State Fault Refusal :=
  issue (.vrsq g d a t k) g (vecF1 (.vrsq g d a t k) d a k rsqLane) s
/-- `vexp2` (R138). -/
def execVexp2 (g : Guard) (d a : Opnd) (t : Fmt) (k : BitVec 4) (s : State) : Host.Outcome State Fault Refusal :=
  issue (.vexp2 g d a t k) g (vecF1 (.vexp2 g d a t k) d a k exp2Lane) s
/-- `vlog2` (R138). -/
def execVlog2 (g : Guard) (d a : Opnd) (t : Fmt) (k : BitVec 4) (s : State) : Host.Outcome State Fault Refusal :=
  issue (.vlog2 g d a t k) g (vecF1 (.vlog2 g d a t k) d a k log2Lane) s

/-- Convert 16 lanes under CONV: their type, the type they become (R139). -/
def vecConvert (i : Instr) (d a : Opnd) (src dst : Fmt) (k : BitVec 4) : Act Unit := do
  let x ← readVec src a
  let s ← Act.view id
  let mode := rmodeAt s.me s.here
  let xs := (List.range 16).map (fun j => decodeNum src (lane x j 32))
  vecOut i d dst k ((xs.zip (drawList s 0 16)).map (fun p => roundTo dst mode p.2 (sate4At s.me s.here) p.1))

/-- `vicvt` (R139). -/
def execVicvt (g : Guard) (d a : Opnd) (t : Fmt) (k : BitVec 4) (s : State) : Host.Outcome State Fault Refusal :=
  issue (.vicvt g d a t k) g (vecConvert (.vicvt g d a t k) d a t .f32 k) s
/-- `vfcvt` (R139). -/
def execVfcvt (g : Guard) (d a : Opnd) (t : Fmt) (k : BitVec 4) (s : State) : Host.Outcome State Fault Refusal :=
  issue (.vfcvt g d a t k) g (vecConvert (.vfcvt g d a t k) d a .f32 t k) s

/-! ### Cross-file copies (R140) -/

/-- Whether a ring source may feed `vxmov`: no block-scaled stream (R119). -/
def unscaled (o : Opnd) : Act Unit := do
  let q ← Act.view State.me
  match opndRing o with
  | some n => Act.check ((q.rings.find n).all (fun r => r.blk == 0)) 0x01 0
  | none => pure ()

/-- `vxmov` (R140). -/
def execVxmov (g : Guard) (dst : Dest) (a : Opnd) (lane : BitVec 3) (s : State) : Host.Outcome State Fault Refusal :=
  issue (.vxmov g dst a lane) g (do
    unscaled a
    let v ← readRaw a
    let t ← Act.view id
    match dst with
    | .here (.pop q) => pushRaw q.toNat v (latSteps t (.vxmov g dst a lane))
    | _ => deliver (.vxmov g dst a lane) (BitVec.ofNat 512 (v.toNat / 2 ^ (64 * lane.toNat)))) s

end Sys2Proof.Machine
end

