-- ==== Sys2Proof/Machine/Landing.lean ====
section
/-! DEFINITION. Landing maps, the landing unit, sync words and the Attic (14_transfers.md R213 to R230, 17_grids.md R266, R267). -/

namespace Sys2Proof.Machine

/-! ### Transfer descriptors (Table 14.1) -/

/-- A transfer descriptor. -/
abbrev TransferDesc := BitVec 512

/-- TNAME. -/
def TransferDesc.tname (t : TransferDesc) : Nat := bitsAt t.toNat 0 24
/-- The code of FMT. -/
def TransferDesc.fmtCode (t : TransferDesc) : Nat := bitsAt t.toNat 24 5
/-- FMT. -/
def TransferDesc.fmt (t : TransferDesc) : Fmt := (Fmt.ofCode t.fmtCode).getD .b8
/-- NDIM. -/
def TransferDesc.ndim (t : TransferDesc) : Nat := bitsAt t.toNat 29 2
/-- DEST. -/
def TransferDesc.dest (t : TransferDesc) : Nat := bitsAt t.toNat 32 15
/-- EPK. -/
def TransferDesc.epk (t : TransferDesc) : Nat := bitsAt t.toNat 47 3
/-- EPN. -/
def TransferDesc.epn (t : TransferDesc) : Nat := bitsAt t.toNat 50 5
/-- ORIG of a dimension. -/
def TransferDesc.orig (t : TransferDesc) (d : Nat) : Nat := bitsAt t.toNat (64 + d / 2 * 64 + d % 2 * 24) 24
/-- EXT of a dimension. -/
def TransferDesc.ext (t : TransferDesc) (d : Nat) : Nat := bitsAt t.toNat (192 + d / 2 * 64 + d % 2 * 24) 24
/-- SWIDX, SWCORE as one number: 65,536 × SWCORE + SWIDX. -/
def TransferDesc.sync (t : TransferDesc) : Nat := bitsAt t.toNat 336 5 * 65536 + bitsAt t.toNat 320 16
/-- SWV. -/
def TransferDesc.swv (t : TransferDesc) : Bool := t.getLsbD 341
/-- RANK. -/
def TransferDesc.rank (t : TransferDesc) : Nat := bitsAt t.toNat 352 16
/-- SSTR of a dimension. -/
def TransferDesc.stride (t : TransferDesc) (d : Nat) : Int := sext 32 (bitsAt t.toNat (384 + 32 * d) 32)
/-- Bytes of an element. -/
def TransferDesc.es (t : TransferDesc) : Nat := t.fmt.width / 8
/-- The extents of the box. -/
def TransferDesc.box (t : TransferDesc) : List Nat := [t.ext 0, t.ext 1, t.ext 2, t.ext 3]
/-- Elements of the box. -/
def TransferDesc.total (t : TransferDesc) : Nat := t.ext 0 * t.ext 1 * t.ext 2 * t.ext 3
/-- Beats of the data (Table 14.2). -/
def TransferDesc.beatCount (t : TransferDesc) : Nat := ceilDiv (t.total * t.es) 64
/-- The coordinates of element j (R213). -/
def TransferDesc.coord (t : TransferDesc) (j : Nat) : List Nat :=
  (List.range 4).map (fun d => t.orig d + (boxCoord t.box j).getD d 0)
/-- The number of the endpoint in its module (R215). -/
def endpointNo (dest epk epn : Nat) : Nat :=
  let die := dest % 512 / 64
  if epk = 0 then dest % 512 / 2 else if epk = 1 then 256 + 32 * die + epn else 512 + 2 * die + (epk - 2)

/-- The endpoint of a descriptor in its module. -/
def TransferDesc.endpoint (t : TransferDesc) : Nat := endpointNo t.dest t.epk t.epn

/-! ### Job cards (Table 14.6) -/

/-- A job card (Table 14.6). -/
abbrev JobCard := BitVec 1024

/-- KIND. -/
def JobCard.kind (c : JobCard) : Nat := bitsAt c.toNat 0 2
/-- NR. -/
def JobCard.nr (c : JobCard) : Nat := bitsAt c.toNat 2 3
/-- NW. -/
def JobCard.nw (c : JobCard) : Nat := bitsAt c.toNat 5 3
/-- ROWB. -/
def JobCard.rowb (c : JobCard) : Nat := bitsAt c.toNat 64 32
/-- Bits of region j: 0 to 3 read regions, 4 to 7 write regions. -/
def JobCard.region (c : JobCard) (j : Nat) : Nat := bitsAt c.toNat ((if j < 4 then 256 else 640) + 96 * (j % 4)) 96
/-- BASE of a region. -/
def JobCard.base (c : JobCard) (j : Nat) : Nat := bitsAt (c.region j) 0 52
/-- LEN of a region. -/
def JobCard.len (c : JobCard) (j : Nat) : Nat := bitsAt (c.region j) 52 32
/-- FORM of a region. -/
def JobCard.form (c : JobCard) (j : Nat) : Nat := bitsAt (c.region j) 84 2

/-- The regions of a card that are used. -/
def JobCard.used (c : JobCard) : List Nat := List.range c.nr ++ (List.range c.nw).map (4 + ·)
/-- The descriptor of a box region; none where its address is not that of a 64-byte block of the local store. -/
def boxDesc (s : State) (loc : Nat) (c : JobCard) (j : Nat) : Option TransferDesc :=
  if c.form j = 2 ∧ c.base j % 64 = 0 ∧ c.base j + 64 ≤ Config.localBytes then
    some (BitVec.ofNat 512 (nearNat s loc (c.base j) 64))
  else none

/-! ### Landing map entries (Table 14.3) -/

/-- A landing map entry. -/
abbrev MapEntry := BitVec 512

/-- TNAME. -/
def MapEntry.tname (m : MapEntry) : Nat := bitsAt m.toNat 0 24
/-- PRI. -/
def MapEntry.pri (m : MapEntry) : Nat := bitsAt m.toNat 24 4
/-- OP. -/
def MapEntry.op (m : MapEntry) : Nat := bitsAt m.toNat 28 2
/-- FAN. -/
def MapEntry.fan (m : MapEntry) : Bool := m.getLsbD 30
/-- KEEP. -/
def MapEntry.keep (m : MapEntry) : Bool := m.getLsbD 31
/-- The code of FMT. -/
def MapEntry.fmtCode (m : MapEntry) : Nat := bitsAt m.toNat 32 5
/-- FMT. -/
def MapEntry.fmt (m : MapEntry) : Fmt := (Fmt.ofCode m.fmtCode).getD .b8
/-- NDIM. -/
def MapEntry.ndim (m : MapEntry) : Nat := bitsAt m.toNat 37 2
/-- LAYOUT. -/
def MapEntry.layout (m : MapEntry) : Nat := bitsAt m.toNat 39 2
/-- RMODE. -/
def MapEntry.rmode (m : MapEntry) : Nat := bitsAt m.toNat 41 2
/-- SATE4. -/
def MapEntry.sate4 (m : MapEntry) : Bool := m.getLsbD 43
/-- GEN. -/
def MapEntry.gen (m : MapEntry) : Nat := bitsAt m.toNat 48 16
/-- LO of a dimension. -/
def MapEntry.lo (m : MapEntry) (d : Nat) : Nat := bitsAt m.toNat (64 + d / 2 * 64 + d % 2 * 24) 24
/-- HI of a dimension. -/
def MapEntry.hi (m : MapEntry) (d : Nat) : Nat := bitsAt m.toNat (192 + d / 2 * 64 + d % 2 * 24) 24
/-- BLK of dimension 0 or 1. -/
def MapEntry.blk (m : MapEntry) (d : Nat) : Nat := bitsAt m.toNat (112 + 8 * d) 8
/-- SWCORE and SWIDX as one number. -/
def MapEntry.sync (m : MapEntry) : Nat := bitsAt m.toNat 240 5 * 65536 + bitsAt m.toNat 176 16
/-- SWV. -/
def MapEntry.swv (m : MapEntry) : Bool := m.getLsbD 245
/-- BASE. -/
def MapEntry.base (m : MapEntry) : Nat := bitsAt m.toNat 320 52
/-- STR of a dimension. -/
def MapEntry.stride (m : MapEntry) (d : Nat) : Int := sext 32 (bitsAt m.toNat (384 + 32 * d) 32)
/-- Bytes of an element. -/
def MapEntry.es (m : MapEntry) : Nat := m.fmt.width / 8
/-- The extents of the box. -/
def MapEntry.box (m : MapEntry) : List Nat := (List.range 4).map (fun d => m.hi d + 1 - m.lo d)
/-- The entry with a generation. -/
def MapEntry.withGen (m : MapEntry) (n : Nat) : MapEntry :=
  BitVec.ofNat 512 (m.toNat - m.gen * 2 ^ 48 + n % 2 ^ 16 * 2 ^ 48)

/-- Whether a map contains coordinates, name and device apart (R219). -/
def MapEntry.contains (m : MapEntry) (c : List Nat) : Bool :=
  (List.range 4).all (fun d =>
    if d ≤ m.ndim then decide (m.lo d ≤ c.getD d 0) && decide (c.getD d 0 ≤ m.hi d) else c.getD d 0 == 0)

/-- Position of R219. -/
def MapEntry.position (m : MapEntry) (c : List Nat) : Int :=
  let i := fun d => c.getD d 0 - m.lo d
  let b : Int := m.base
  match m.layout with
  | 2 =>
    b + (i 0 / m.blk 0 : Nat) * m.stride 0 + (i 1 / m.blk 1 : Nat) * m.stride 1 +
      ((i 0 % m.blk 0 * m.blk 1 + i 1 % m.blk 1) * m.es : Nat)
  | 3 => b + (i 0 : Int) * m.stride 0 + (Nat.xor (i 1 * m.es) (i 0 % 16 * 64) : Nat)
  | _ => b + (i 0 : Int) * m.stride 0 + (i 1 : Int) * m.stride 1 + (i 2 : Int) * m.stride 2 + (i 3 : Int) * m.stride 3

/-! ### Endpoints (R218, R220, R228) -/

/-- The kind of an endpoint as EPK. -/
def epKind (ep : Nat) : Nat := if ep < 256 then 0 else if ep < 512 then 1 else 2 + ep % 2
/-- The die of an endpoint. -/
def epDie (ep : Nat) : Nat := if ep < 256 then ep / 32 else if ep < 512 then (ep - 256) / 32 else (ep - 512) / 2
/-- Map entries of an endpoint (R218). -/
def epSlots (ep : Nat) : Nat := match epKind ep with | 0 => 64 | 1 => 32 | _ => 256
/-- Bytes of its staging store (R228). -/
def epStaging (ep : Nat) : Nat := match epKind ep with | 0 => 131072 | 1 => 65536 | _ => 1048576

/-- The physical address of a byte of an endpoint's own space (R220), or the trap code that keeps it out of reach; a tier's positions
translate under the tables in force, for reading or writing. -/
def posByte (s : State) (ep vd pos : Nat) (write : Bool) : Except Nat Nat :=
  match epKind ep with
  | 0 => .ok (localPhys s ep pos)
  | 1 => .ok (bankPhys s (epDie ep) (ep % 32) pos)
  | k =>
    match translate s vd pos write with
    | .ok pa => if physMod pa = s.module ∧ physDie pa = epDie ep ∧ physTier pa = k - 2 then .ok pa else .error 0x11
    | .bad c => .error c
    | .wait => .error 0x10

/-- The physical addresses of the n bytes of an element, each translated on its own: an element may lie in two pages. -/
def posBytes (s : State) (ep vd : Nat) (write : Bool) : Nat → Nat → Except Nat (List Nat)
  | _, 0 => .ok []
  | pos, n + 1 =>
    match posByte s ep vd pos write with
    | .error c => .error c
    | .ok a =>
      match posBytes s ep vd write (pos + 1) n with
      | .error c => .error c
      | .ok r => .ok (a :: r)

/-- Write back and drop the token-frame lines of bytes of a tier that are accessed: virtual addresses from va on, with their homes
(R291). -/
def dropEach (s : State) (vd : Nat) : Nat → List Nat → State
  | _, [] => s
  | va, pa :: r => dropEach (dropLines s vd va pa 1) vd (va + 1) r

/-- Write bytes at physical addresses. -/
def storeEach (s : State) (pas : List Nat) (b : List Byte) : State :=
  clearMarks (s.setMem ((pas.zip b).foldl (fun m e => m.store e.1 e.2) s.mem)) pas

/-! ### Sync words (R216, R229) -/

/-- The sync-word flags of sticky bits (Table 14.5). -/
def syncFlags (st : Nat) : Nat :=
  bit (Nat.land st stickyInexact != 0) + 2 * bit (Nat.land st stickyUnderflow != 0) +
  4 * bit (Nat.land st stickyOverflow != 0) + 8 * bit (Nat.land st stickyNanMade != 0)

/-- The physical address of a sync word of a die (R216). -/
def syncPhys (s : State) (die w : Nat) : Nat := localPhys s (32 * die + w / 65536) (w % 65536 * 16)

/-- The 16 bytes of a sync word. -/
def syncWord (s : State) (die w : Nat) : Nat := ofBytes ((List.range 16).map (fun j => s.mem.look (syncPhys s die w + j)))

/-- Write a sync word. -/
def putSync (s : State) (die w target count gen flags : Nat) : State :=
  let a := syncPhys s die w
  let m := s.mem.storeAll a (toBytes 16 (packBits [(0, 32, target), (32, 32, count), (64, 32, gen), (96, 32, flags)]))
  clearMarks (s.setMem m) ((List.range 16).map (a + ·))

/-! ### Landing one element (R227, R228) -/

/-- The sum that `add` and `oadd` write (R227), with its sticky bits. -/
def landSum (t : Fmt) (mode : Nat) (sate4 : Bool) (x y : Nat) : Nat × Nat :=
  if t.isInt then ((x + y) % 2 ^ t.width, 0)
  else
    let r := (decodeNum t x).add (decodeNum t y)
    let (b, st) := roundTo t mode 0 sate4 r
    (b, Nat.lor st (madeNan r [decodeNum t x, decodeNum t y]))

/-- The larger element (R227). -/
def landMax (t : Fmt) (x y : Nat) : Nat :=
  if t.isInt then
    (if (if t.isSigned then decide (sext t.width x < sext t.width y) else decide (x < y)) then y else x)
  else (roundNear t (fmax (decodeNum t x) (decodeNum t y))).1

/-- Failure of a landing: code and INFO; zero when there is none. -/
abbrev LandFail := Nat × Nat

/-- Keep the first failure. -/
def firstFail (a b : LandFail) : LandFail := if a.1 = 0 then b else a

/-- Combine an arriving element with the one at a position: new state, sticky bits, failure (R220, R227, R348). -/
def landAt (s : State) (ep vd pos op : Nat) (t : Fmt) (mode : Nat) (sate4 : Bool) (y : Nat) : State × Nat × LandFail :=
  let n := t.width / 8
  match posBytes s ep vd true pos n with
  | .error _ => (s, 0, (0x11, 0))
  | .ok pas =>
    let s := if epKind ep < 2 then s else dropEach s vd pos pas
    match (if op = 0 then none else errorMark s pas) with
    | some a => (s, 0, (0x70, a))
    | none =>
      let x := ofBytes (pas.map s.mem.look)
      let (v, st) := match op with
        | 0 => (y, 0)
        | 3 => (landMax t x y, 0)
        | _ => landSum t mode sate4 x y
      (storeEach s pas (toBytes n v), st, (0, 0))

/-- The order of contributions to an element (R228). -/
def stagedLt (a b : Staged) : Bool :=
  decide (a.rank < b.rank) || (a.rank == b.rank && (decide (a.key.tag < b.key.tag) || (a.key.tag == b.key.tag &&
    (decide (a.part < b.part) || (a.part == b.part && decide (a.elt < b.elt))))))

/-- Insert a contribution in that order. -/
def insertStaged (e : Nat × Staged) : List (Nat × Staged) → List (Nat × Staged)
  | [] => [e]
  | x :: xs => if stagedLt e.2 x.2 then e :: x :: xs else x :: insertStaged e xs

/-- The endpoints of a die that hold something. -/
def epsOf (s : State) (die : Nat) : List Nat := (s.eps.map (·.1)).filter (fun e => epDie e == die)

/-- Mark the transfer of a contribution failed. -/
def failTransfer (s : State) (ep : Nat) (k : Key) (part : Nat) (f : LandFail) : State :=
  let e := s.epAt ep
  s.setEp ep { e with arrive := e.arrive.map (fun a =>
    if a.key = k ∧ a.part = part ∧ a.fail = 0 then { a with fail := f.1, info := f.2 } else a) }

/-- Add every contribution of a list in order (R228): the state and the sticky bits raised. -/
def addStaged (s : State) : List (Nat × Staged) → State × Nat
  | [] => (s, 0)
  | (ep, c) :: r =>
    let (t, st, f) := landAt s ep c.key.vd c.addr 1 c.fmt c.mode c.sate4 c.bits
    let t := if f.1 = 0 then t else failTransfer t ep c.key c.part f
    let (u, st') := addStaged t r
    (u, Nat.lor st st')

/-- Combine the staged contributions of a sync word of a die (R228). -/
def combineStaged (s : State) (die w : Nat) : State × Nat :=
  let all := (epsOf s die).flatMap (fun e => ((s.epAt e).staged.filter (fun c => c.sync == w)).map (fun c => (e, c)))
  let sorted := all.foldl (fun l e => insertStaged e l) []
  let (t, st) := addStaged s sorted
  ((epsOf s die).foldl (fun t e =>
    let k := t.epAt e
    t.setEp e { k with staged := k.staged.filter (fun c => c.sync != w) }) t, st)

/-- Count a landing of es bytes at a sync word of a die (R229). -/
def countSync (s : State) (die w es st : Nat) : State :=
  let x := syncWord s die w
  let target := bitsAt x 0 32
  let count := (bitsAt x 32 32 + es) % 2 ^ 32
  let gen := bitsAt x 64 32
  let flags := Nat.lor (bitsAt x 96 32) (syncFlags st)
  if target = 0 ∨ flags.testBit 4 then putSync s die w target count gen flags
  else if count = target then
    let (t, st') := combineStaged s die w
    putSync t die w target 0 (gen + 1) (Nat.lor flags (syncFlags st'))
  else if target < count then putSync s die w target count gen (Nat.lor flags 16)
  else putSync s die w target count gen flags

/-! ### Resolving a transfer (R222 to R224) -/

/-- The maps of an endpoint that a transfer is pinned to: those of its tensor name and device (R222). -/
def pinSet (s : State) (ep vd tname : Nat) : List (Nat × MapSlot) :=
  (s.epAt ep).maps.filter (fun m => m.2.vd == vd && MapEntry.tname m.2.entry == tname)

/-- Maps in descending priority. -/
def byPriority (ms : List (Nat × MapSlot)) : List (Nat × MapSlot) :=
  ms.foldr (fun m l =>
    let p := MapEntry.pri m.2.entry
    l.takeWhile (fun x => decide (p < MapEntry.pri x.2.entry)) ++ m :: l.dropWhile (fun x => decide (p < MapEntry.pri x.2.entry))) []

/-- The maps in which an element lands: the winner, and with FAN every other map that contains it (R223). -/
def receivers (pins : List (Nat × MapSlot)) (c : List Nat) : List (Nat × MapSlot) :=
  let ms := byPriority (pins.filter (fun m => MapEntry.contains m.2.entry c))
  match ms with
  | [] => []
  | w :: r => if MapEntry.fan w.2.entry then w :: r else [w]

/-- Whether every element of a transfer lies in some map (R224). -/
def matched (pins : List (Nat × MapSlot)) (d : TransferDesc) : Bool :=
  (List.range d.total).all (fun j => !(receivers pins (d.coord j)).isEmpty)

/-- Whether every map that would receive an element has the transfer's format (Table 14.4). -/
def formatsAgree (pins : List (Nat × MapSlot)) (d : TransferDesc) : Bool :=
  (List.range d.total).all (fun j => (receivers pins (d.coord j)).all (fun m => MapEntry.fmtCode m.2.entry == d.fmtCode))

/-- Bytes that `oadd` landings of elements from j on stage. -/
def stagedNeed (pins : List (Nat × MapSlot)) (d : TransferDesc) (j : Nat) : Nat :=
  d.es * ((List.range (d.total - j)).map (fun i =>
    ((receivers pins (d.coord (j + i))).filter (fun m => MapEntry.op m.2.entry == 2)).length)).sum

/-! ### Shipments and ghost maps (R266, R267) -/

/-- The grid of a ghost map. -/
def ghostGrid (s : State) (m : MapSlot) : Option (Nat × Nat × Nat × Grid) :=
  match m.ghost with
  | some (loc, slot, f) => ((s.seqAt loc).grids.find slot).map (fun g => (loc, slot, f, g))
  | none => none

/-- How far a shipment's version lies above its map's base (R266). -/
def versionOffset (s : State) (m : MapSlot) (step : Option Nat) : Nat :=
  match step, ghostGrid s m with
  | some t, some (_, _, _, g) => t % (GridDesc.depth g.desc + 1) * GridDesc.vsize g.desc g.box
  | _, _ => 0

/-- Whether a shipment may land: each ghost map in which one of its elements lands belongs to a party that has committed step s - D
(R267). -/
def shipmentReady (s : State) (pins : List (Nat × MapSlot)) (d : TransferDesc) (step : Option Nat) : Bool :=
  match step with
  | none => true
  | some t => (List.range d.total).all (fun j => (receivers pins (d.coord j)).all (fun m => match ghostGrid s m.2 with
    | some (_, _, _, g) => decide ((t : Int) - (GridDesc.depth g.desc : Int) ≤ g.step)
    | none => true))

/-- Set TAG and FULL of the ghost faces that a shipment lands on (R266). -/
def tagFaces (s : State) (maps : List (Nat × MapSlot)) (step : Option Nat) (full : Bool) : State :=
  match step with
  | none => s
  | some t => maps.foldl (fun s m => match ghostGrid s m.2 with
    | some (loc, slot, f, g) =>
      let v := t % (GridDesc.depth g.desc + 1)
      let q := s.seqAt loc
      s.setSeq loc { q with grids := q.grids.put slot { g with tags := g.tags.put (8 * v + f) ⟨t, full⟩ } }
    | none => s) s

/-! ### Landing beats (R222, R223, R226) -/

/-- The sync word that counts a landing, if any: for the winner the transfer's own reference where it has one (R229). -/
def landSync (d : TransferDesc) (e : MapEntry) (winner : Bool) : Option Nat :=
  if winner && d.swv then some d.sync else if e.swv then some e.sync else none

/-- What an element's landings do one after another: the element of a transfer lands in each receiver. -/
def landIn (ep : Nat) (a : Arrival) (j y : Nat) (winner : Bool) : List (Nat × MapSlot) → State → State × LandFail
  | [], s => (s, (0, 0))
  | m :: ms, s =>
    let e : MapEntry := m.2.entry
    let d : TransferDesc := a.desc
    let pos := (e.position (d.coord j)).toNat + versionOffset s m.2 a.step
    let ref := landSync d e winner
    let (t, st, f) :=
      if e.op = 2 then
        let k := s.epAt ep
        let c : Staged := ⟨ref.getD 0, pos, d.fmt, e.rmode, e.sate4, d.rank, a.key, a.part, j, y⟩
        (s.setEp ep { k with staged := k.staged ++ [c] }, 0, (0, 0))
      else landAt s ep a.key.vd pos e.op d.fmt e.rmode e.sate4 y
    let t := match ref with
      | some w => if f.1 = 0 then countSync t (epDie ep) w d.es st else t
      | none => t
    let t := if epKind ep = 0 then perf t (2 * ep) 4 1 else t
    let (u, f') := landIn ep a j y false ms t
    (u, firstFail f f')

/-- The further copies of an element that are still to be written: they are writes of their own, which other parties may see later
(R197, R223). -/
def landCopies (ep : Nat) (a : Arrival) : List (Nat × Nat) → State → State × LandFail
  | [], s => (s, (0, 0))
  | (j, y) :: r, s =>
    let (t, f) := landIn ep a j y false ((receivers a.pins (TransferDesc.coord a.desc j)).drop 1) s
    let (u, f') := landCopies ep a r t
    (u, firstFail f f')

/-- Land elements j, j + 1, ... of a transfer from its data bytes: the state, the first failure, and the last element with its bits where
its further copies are left for later. -/
def landElements (ep : Nat) (a : Arrival) (bytes : List Byte) : List Nat → State → State × LandFail × List (Nat × Nat)
  | [], s => (s, (0, 0), [])
  | j :: js, s =>
    let d : TransferDesc := a.desc
    let first := j * d.es - a.taken * 64
    let y := ofBytes ((bytes.drop first).take d.es)
    let rs := receivers a.pins (d.coord j)
    let s := if j = 0 then tagFaces s (rs.filter (fun m => m.2.ghost.isSome)) a.step false else s
    let (t, f) := landIn ep a j y true (if js.isEmpty then rs.take 1 else rs) s
    let t := if j + 1 = d.total then tagFaces t (rs.filter (fun m => m.2.ghost.isSome)) a.step true else t
    let (u, f', fan) := landElements ep a bytes js t
    (u, firstFail f f', if js.isEmpty && decide (1 < rs.length) then [(j, y)] else fan)

/-- Replace an arrival at an endpoint. -/
def putArrival (s : State) (ep : Nat) (a : Arrival) : State :=
  let e := s.epAt ep
  s.setEp ep { e with arrive := e.arrive.map (fun b => if b.key = a.key ∧ b.part = a.part then a else b) }

/-- Set the progress count and the cached result of a transfer's record (R357). -/
def setRecord (s : State) (ep : Nat) (k : Key) (part result progress : Nat) : State :=
  let e := s.epAt ep
  s.setEp ep { e with window := e.window.map (fun r =>
    if r.key = k ∧ r.part = part then { r with result := result, progress := progress } else r) }

/-- Tell the sender how a transfer ended. -/
def tellSender (s : State) (ep : Nat) (key : Key) (src loc entry part code info : Nat) : State :=
  emit s { id := 0, kind := if code = 0 then .reply 0 0 else .refuse code info, key := key, src := src, loc := loc,
           entry := entry, cls := 0, chan := key.tag / 2 ^ 30 % 8, dst := s.module, ep := ep, addr := 0, va := 0,
           off := part, ca := false, accepted := src == s.module, refused := false,
           st := if src = s.module then none else some (epDie ep / 2) }

/-- Take a transfer out of its endpoint and tell its sender. -/
def endArrival (s : State) (ep : Nat) (a : Arrival) : State :=
  let e := s.epAt ep
  let s := s.setEp ep { e with arrive := e.arrive.filter (fun b => !(b.key == a.key && b.part == a.part)) }
  let s := setRecord s ep a.key a.part a.fail a.beats
  let s := tellSender s ep a.key a.src a.loc a.entry a.part a.fail a.info
  if ep < 256 then tryFinish (tryFinish s (2 * ep)) (2 * ep + 1) else s

/-- Whether a transfer has landed and nothing of it is staged (R231). -/
def arrivalDone (s : State) (ep : Nat) (a : Arrival) : Bool :=
  !a.parked && a.taken == a.beats && a.fan.isEmpty && !(s.epAt ep).staged.any (fun c => c.key == a.key && c.part == a.part)

/-- End every transfer of a die that is done. -/
def endDone (s : State) (die : Nat) : State :=
  (epsOf s die).foldl (fun t ep => ((t.epAt ep).arrive.filter (fun a => arrivalDone t ep a)).foldl
    (fun t a => endArrival t ep a) t) s

/-- The arrival of a key and part at an endpoint as it stands. -/
def arrivalNow (s : State) (ep : Nat) (a : Arrival) : Arrival :=
  ((s.epAt ep).arrive.find? (fun b => b.key == a.key && b.part == a.part)).getD a

/-- Write the copies that an arrival still has to make. -/
def flushCopies (s : State) (ep : Nat) (a : Arrival) : State :=
  if a.fan.isEmpty then s
  else
    let (t, f) := landCopies ep a a.fan s
    let now := arrivalNow t ep a
    putArrival t ep { now with
      fan := [], fail := (firstFail (now.fail, now.info) f).1, info := (firstFail (now.fail, now.info) f).2 }

/-- Land the beats of a pinned transfer whose data bytes are given, from the beats taken on (R222). -/
def landBeats (s : State) (ep : Nat) (a : Arrival) (bytes : List Byte) : State :=
  let s := flushCopies s ep a
  let d : TransferDesc := a.desc
  let n := bytes.length / 64
  let j0 := 64 * a.taken / d.es
  let j1 := Nat.min d.total (64 * (a.taken + n) / d.es)
  let (t, f, fan) := landElements ep a bytes ((List.range (j1 - j0)).map (j0 + ·)) s
  let now := arrivalNow t ep a
  let t := putArrival t ep { now with
    taken := a.taken + n, data := [], fan := fan, pk := a.pk, fail := (firstFail (now.fail, now.info) f).1,
    info := (firstFail (now.fail, now.info) f).2 }
  let t := setRecord t ep a.key a.part 0 (a.taken + n)
  endDone t (epDie ep)

/-! ### The Attic (R224, R225) -/

/-- Bytes of the Attic in use. -/
def atticUsed (e : Endpoint) : Nat := ((e.arrive.filter (·.parked)).map (fun a => 64 + 64 * a.beats)).sum

/-- Bytes of the staging store in use or promised to transfers under way (R228). -/
def stagingUsed (e : Endpoint) : Nat :=
  (e.staged.map (fun c => c.fmt.width / 8)).sum +
  ((e.arrive.filter (fun a => !a.parked)).map (fun a =>
    stagedNeed a.pins a.desc (64 * a.taken / TransferDesc.es a.desc))).sum

/-- Whether two transfers are of one channel of one sequencer's epoch. -/
def sameChannel (a b : Key) : Bool :=
  a.fam && b.fam && a.origin == b.origin && a.epoch == b.epoch && a.vd == b.vd && a.tag / 2 ^ 30 == b.tag / 2 ^ 30

/-- Whether an earlier transfer of the channel is parked at the endpoint: a later one does not land before it (R197). -/
def parkedBefore (s : State) (ep : Nat) (k : Key) : Bool :=
  (s.epAt ep).arrive.any (fun a => a.parked && sameChannel a.key k && idBefore 30 (a.key.tag % 2 ^ 30) (k.tag % 2 ^ 30))

/-- Whether the cores of the sync words that may count a transfer's landings are of partitions resident for its device: no device reaches
the local store of another (R318, R331). (DEDUCED, assumption 62) -/
def syncsOpen (s : State) (ep vd : Nat) (pins : List (Nat × MapSlot)) (d : TransferDesc) : Bool :=
  let core := fun w => (s.quadAt (partOf (64 * epDie ep + 2 * (w / 65536)))).resident == some vd
  (!d.swv || core d.sync) && (List.range d.total).all (fun j =>
    (receivers pins (d.coord j)).all (fun m => !MapEntry.swv m.2.entry || core (MapEntry.sync m.2.entry)))

/-- Look at one parked transfer again (R225, R267). -/
def reexamine (s : State) (ep : Nat) (a : Arrival) : State :=
  let d : TransferDesc := a.desc
  let pins := pinSet s ep a.key.vd d.tname
  if !matched pins d || !shipmentReady s pins d a.step || parkedBefore s ep a.key || !syncsOpen s ep a.key.vd pins d then s
  else if !formatsAgree pins d then endArrival s ep { a with fail := 0x50 }
  else if stagingUsed (s.epAt ep) + stagedNeed pins d 0 > epStaging ep then s
  else
    let b : Arrival := { a with pins := pins, parked := false, taken := 0 }
    landBeats (putArrival s ep { b with data := [] }) ep b a.data

/-- Look at every parked transfer of an endpoint in parking order (R225). -/
def reexamineAll (s : State) (ep : Nat) : State :=
  ((s.epAt ep).arrive.filter (·.parked)).foldl (fun t a => reexamine t ep a) s

/-! ### The order of a channel's transfers at one receiver (R197) -/

/-- Where an outstanding transfer lands: module, endpoint, part and beats. A `cget` lands in the issuing core's local store, and the
boxes of a collective are parts of its card. -/
def receiversOf (s : State) (loc : Nat) (f : Ifr) : List (Nat × Nat × Nat × Nat) :=
  let t : TransferDesc := f.desc.setWidth 512
  let c : JobCard := f.desc
  match f.kind with
  | 7 | 10 => [(t.dest / 512, t.endpoint, 0, t.beatCount)]
  | 8 => [(s.module, coreOf loc, 0, t.beatCount)]
  | 9 =>
    if c.kind = 3 then (List.range c.nw).filterMap (fun j => (boxDesc s loc c (4 + j)).map (fun t =>
      (TransferDesc.dest t / 512, TransferDesc.endpoint t, j, TransferDesc.beatCount t)))
    else []
  | _ => []

/-- The incomplete transfers of an entry's channel with an earlier id. -/
def earlierTransfers (q : Seq) (e : Ifr) : List Ifr :=
  (q.ifr.map (·.2)).filter (fun f => decide (7 ≤ f.kind) && decide (f.kind ≤ 10) && f.key.origin == e.key.origin &&
    f.key.epoch == e.key.epoch && f.ch == e.ch && decide (f.state < 3) && idBefore 32 f.id e.id)

/-- Whether an earlier transfer of the channel still has something to send to a receiver. (DEDUCED, assumption 49) -/
def sendsAfter (s : State) (loc : Nat) (e : Ifr) (dst ep : Nat) : Bool :=
  (earlierTransfers (s.seqAt loc) e).any (fun f =>
    (match f.kind with | 7 | 10 => decide (f.beats < f.total) | 9 => f.total == 0 | _ => false) &&
    (receiversOf s loc f).any (fun r => r.1 == dst && r.2.1 == ep))

/-- Whether an earlier transfer of the channel of a beat from this module has not been taken whole at the beat's endpoint.
(DEDUCED, assumption 49) -/
def landsAfter (s : State) (p : Packet) : Bool :=
  p.src == s.module &&
  (match (s.seqAt p.loc).ifr.find p.entry with
   | some e => e.key == p.key && (earlierTransfers (s.seqAt p.loc) e).any (fun f => (receiversOf s p.loc f).any (fun r =>
       r.1 == p.dst && r.2.1 == p.ep &&
       !(match recordOf s p.ep f.key r.2.2.1 with | some x => decide (r.2.2.2 ≤ x.progress) | none => false)))
   | none => false)

/-! ### LANDING_BEAT (R222, R224, R331, R357) -/

/-- Whether an arrival of a device may land at an endpoint now (R331). -/
def landingOpen (s : State) (ep vd : Nat) : Bool :=
  match epKind ep with
  | 0 => (s.quadAt (ep / 4)).resident == some vd && (match (s.dieAt (ep / 32)).job with
    | some j => j.restore || j.ctx.isSome || j.part != ep / 4 || j.done == 0
    | none => true)
  | 1 => (List.range 8).any (fun q =>
      let p := 8 * epDie ep + q
      (s.quadAt p).resident == some vd && ((s.vdAt vd).masks.look 0 (podPart s p)).testBit (ep % 32))
  | _ => true

/-- Refuse a packet: it goes round again (R379). -/
def refusePacket (s : State) (p : Packet) : State := putPacket s { p with refused := true }

/-- The first beat of a transfer without a record: judge it (Table 14.4). -/
def firstBeat (s : State) (p : Packet) (d : TransferDesc) (step : Option Nat) (total : Nat) (bytes : List Byte) : State :=
  let ep := p.ep
  let e := s.epAt ep
  let pins := pinSet s ep p.key.vd d.tname
  let a : Arrival :=
  { key := p.key, part := p.off, src := p.src, loc := p.loc, entry := p.entry, desc := d, step := step, beats := total,
    pins := pins, taken := 0, data := [], parked := false, fail := 0, info := 0, pk := p.id, fan := [] }
  if Config.windowRecords ≤ e.window.length then refusePacket s p
  else if matched pins d then
    if !formatsAgree pins d then
      endArrival (addRecord (dropPacket s p.id) ep ⟨p.key, p.off, 0x50, total⟩) ep { a with fail := 0x50 }
    else if !shipmentReady s pins d step ∨ parkedBefore s ep p.key ∨ !syncsOpen s ep p.key.vd pins d ∨
        epStaging ep < stagingUsed e + stagedNeed pins d 0 then refusePacket s p
    else
      let s := addRecord (dropPacket s p.id) ep ⟨p.key, p.off, 0, 0⟩
      let k := s.epAt ep
      landBeats (s.setEp ep { k with arrive := k.arrive ++ [a] }) ep a bytes
  else if Config.atticBytes < atticUsed e + 64 + 64 * total then
    endArrival (addRecord (dropPacket s p.id) ep ⟨p.key, p.off, 0x50, total⟩) ep { a with fail := 0x50 }
  else
    let s := addRecord (dropPacket s p.id) ep ⟨p.key, p.off, 0, 1⟩
    let k := s.epAt ep
    let s := s.setEp ep { k with arrive := k.arrive ++ [{ a with parked := true, pins := [], taken := 1, data := bytes }] }
    postEvent s (epDie ep) p.key.vd (fullLoc s (64 * epDie ep)) 4 0 d.tname 0

/-- A beat of a transfer that has a record. -/
def laterBeat (s : State) (p : Packet) (no : Nat) (bytes : List Byte) (r : Record) : State :=
  match (s.epAt p.ep).arrive.find? (fun a => a.key == p.key && a.part == p.off) with
  | none =>
    let s := dropPacket s p.id
    if no + 1 = r.progress then tellSender s p.ep p.key p.src p.loc p.entry p.off r.result 0 else s
  | some a =>
    let old := a
    let a : Arrival := { a with src := p.src, loc := p.loc, entry := p.entry }
    if !old.parked && !syncsOpen s p.ep p.key.vd a.pins a.desc then refusePacket s p
    else
    let s := dropPacket s p.id
    if no < a.taken then putArrival s p.ep a
    else if a.parked then
      setRecord (putArrival s p.ep { a with taken := a.taken + 1, data := a.data ++ bytes, pk := p.id }) p.ep p.key p.off 0 (a.taken + 1)
    else landBeats (putArrival s p.ep { a with pk := p.id }) p.ep { a with pk := p.id } bytes

/-- The endpoint and the arrival whose last beat was a packet and which has copies still to write. -/
def copiesOf (s : State) (pk : Nat) : Option (Nat × Arrival) :=
  (s.eps.flatMap (fun e => (e.2.arrive.filter (fun a => a.pk == pk && !a.fan.isEmpty)).map (fun a => (e.1, a)))).head?

/-- LANDING_BEAT: the landing unit takes the header of a transfer, or one arriving beat (R217, R222, R224, R357), the transfers of a
channel in the order of their ids (R197); a further turn for a beat writes the copies that fan has left (R223). -/
def execLandingBeat (pk : Nat) (s : State) : Host.Outcome State Fault Refusal :=
  match s.packet pk with
  | none =>
    match copiesOf s pk with
    | some (ep, a) => .next (endDone (flushCopies s ep a) (epDie ep))
    | none => .next s
  | some p =>
    match p.kind with
    | .header _ _ _ =>
      if !p.accepted ∨ p.dst ≠ s.module ∨ flowBlocked s p ∨ landsAfter s p then .next s
      else if !landingOpen s p.ep p.key.vd then .next (refusePacket s p)
      else .next (dropPacket s pk)
    | .beat d step no total bytes =>
      if !p.accepted ∨ p.dst ≠ s.module ∨ flowBlocked s p ∨ landsAfter s p then .next s
      else if !landingOpen s p.ep p.key.vd then .next (refusePacket s p)
      else match recordOf s p.ep p.key p.off with
        | some r => .next (laterBeat s p no bytes r)
        | none => .next (firstBeat s p d step total bytes)
    | _ => .next s

/-! ### Map instructions (R221, R236, R241 to R244) -/

/-- The span of positions of a map: first byte and the byte after the last (R219, R220). -/
def MapEntry.extent (m : MapEntry) : Int × Int :=
  let n := fun d => m.hi d + 1 - m.lo d
  let b : Int := m.base
  match m.layout with
  | 2 =>
    let ends := fun d => let k := ceilDiv (n d) (m.blk d); [0, k - 2, k - 1]
    let rows := fun d i => Nat.min (m.blk d) (n d - i * m.blk d)
    let at' := fun (p : Nat × Nat) => (p.1 : Int) * m.stride 0 + (p.2 : Int) * m.stride 1
    let blocks := (ends 0).flatMap (fun i => (ends 1).map (fun j => (i, j)))
    let top := fun (p : Nat × Nat) => at' p + (((rows 0 p.1 - 1) * m.blk 1 + rows 1 p.2) * m.es : Nat)
    (b + (blocks.map at').foldl min (at' (0, 0)), b + (blocks.map top).foldl max (top (0, 0)))
  | 3 =>
    let rows := (List.range (Nat.min 16 (n 0))).map (fun k => n 0 - 1 - k)
    let tops := rows.map (fun (i : Nat) => (i : Int) * m.stride 0 +
      (((List.range (n 1)).map (fun j => Nat.xor (j * m.es) (i % 16 * 64) + m.es)).foldl Nat.max 0 : Nat))
    (b, b + tops.foldl max 0)
  | _ =>
    let ss := (List.range 4).map (fun d => strideSpan (n d) (m.stride d))
    (b + (ss.map (·.1)).sum, b + (ss.map (·.2)).sum + m.es)

/-- The checks of R221 that raise trap 0x01; rmode is the installer's. -/
def MapEntry.fieldsOk (m : MapEntry) (rmode : Nat) : Bool :=
  let d := m.toNat
  let n := m.ndim
  bitsAt d 44 4 == 0 && bitsAt d 246 10 == 0 && bitsAt d 304 16 == 0 && bitsAt d 372 12 == 0 &&
  decide (m.fmtCode < 16) && m.fmtCode != 13 && m.fmtCode != 15 &&
  (List.range 4).all (fun i => if i ≤ n then decide (m.lo i ≤ m.hi i) else m.lo i == 0 && m.hi i == 0) &&
  (m.layout != 0 || m.stride n == m.es) && (m.layout != 1 || m.stride 0 == m.es) &&
  (decide (m.layout < 2) || (n == 1 && m.stride 2 == 0 && m.stride 3 == 0)) &&
  (m.layout != 2 || (m.blk 0 != 0 && m.blk 1 != 0)) &&
  (m.layout != 3 || (m.base % 1024 == 0 && m.stride 0 % 1024 == 0 && m.stride 1 == 0 &&
    decide ((1024 * ceilDiv ((m.hi 1 + 1 - m.lo 1) * m.es) 1024 : Nat) ≤ m.stride 0))) &&
  (m.layout == 2 || (m.blk 0 == 0 && m.blk 1 == 0)) &&
  (m.op != 2 || m.swv) && !((m.op == 1 || m.op == 2) && rmode == 4)

/-- The space of an endpoint (R220): first byte and the byte after the last. -/
def epSpace (ep : Nat) : Int × Int :=
  match epKind ep with
  | 0 => (0, 0x600000)
  | 1 => (0, 0x200000)
  | _ => (0x100000000, 2 ^ 52)

/-- The first failing byte of a map at a tier controller, with its trap code: the first and the last of each element are looked at, which
lie in every page that it touches (R221). -/
def mapPageFault (s : State) (ep vd : Nat) (m : MapEntry) : Option (Nat × Nat) :=
  if epKind ep < 2 then none
  else
    let box := m.box
    ((List.range (slabCount box)).flatMap (fun j =>
      let c := (List.range 4).map (fun d => m.lo d + (boxCoord box j).getD d 0)
      let p := (m.position c).toNat
      [p, p + m.es - 1])).filterMap (fun p =>
      match translate s vd p false with
      | .ok pa =>
        if physMod pa = s.module ∧ physDie pa = epDie ep ∧ physTier pa = epKind ep - 2 then none else some (p, 0x10)
      | .bad k => some (p, k)
      | .wait => some (p, 0x10)) |>.head?

/-- Whether the boxes of two maps meet. -/
def boxesMeet (a b : MapEntry) : Bool :=
  (List.range 4).all (fun d => decide (a.lo d ≤ b.hi d) && decide (b.lo d ≤ a.hi d))

/-- Whether a device holds the core of a sync reference on an endpoint's die (R318). (DEDUCED, assumption 62) -/
def holdsCore (v : Vd) (m die w : Nat) : Bool := v.parts.contains (64 * m + partOf (64 * die + 2 * (w / 65536)))

/-- Whether the sync word of a map, if it has one, lies in a core that the device holds (R221, R318). -/
def syncHeld (s : State) (ep vd : Nat) (m : MapEntry) : Bool := !m.swv || holdsCore (s.vdAt vd) s.module (epDie ep) m.sync

/-- Check a map entry for an endpoint in the order of R221; the slot it replaces is left out of the overlap check. -/
def mapCheck (s : State) (ep vd rmode : Nat) (m : MapEntry) (except : Option Nat) : Except (Nat × Nat) Unit :=
  if !m.fieldsOk rmode then .error (0x01, 0)
  else if !(decide ((epSpace ep).1 ≤ m.extent.1) && decide (m.extent.2 ≤ (epSpace ep).2)) || !syncHeld s ep vd m then .error (0x11, 0)
  else match mapPageFault s ep vd m with
    | some (a, c) => .error (c, a)
    | none =>
      if (s.epAt ep).maps.any (fun e => e.2.vd == vd && some e.1 != except && MapEntry.tname e.2.entry == m.tname &&
          MapEntry.pri e.2.entry == m.pri && boxesMeet e.2.entry m) then .error (0x51, 0)
      else .ok ()

/-- An endpoint of the issuer's own die by EPK and EPN (R236, R320). -/
def ownEndpoint (epk epn : Nat) : Act Nat := do
  let s ← Act.view id
  let loc := s.cur.loc
  Act.check (decide (epk < 4) && (epk == 1 || epn == 0)) 0x01 0
  Act.check (epk != 1 || holdsBank (s.vdAt s.myVd) s.module (dieOf loc) epn) 0x11 0
  return endpointNo loc epk epn

/-- The endpoint and slot of a handle (R236). -/
def handleSlot (h : Nat) : Act (Nat × Nat) := do
  Act.check (h / 2 ^ 16 == 1) 0x01 0
  let ep ← ownEndpoint (bitsAt h 8 3) (bitsAt h 11 5)
  Act.check (decide (h % 256 < epSlots ep)) 0x01 0
  return (ep, h % 256)

/-- Read a map entry at a local-store address. -/
def readMap (a : Nat) : Act MapEntry := do return MapEntry.withGen (BitVec.ofNat 512 (← localBlock a)) 0

/-- Check a map for the issuer. -/
def checkMap (ep : Nat) (m : MapEntry) (except : Option Nat) : Act Unit := do
  let s ← Act.view id
  match mapCheck s ep s.myVd (rmodeAt s.me s.here) m except with
  | .error (c, i) => Act.trap c i
  | .ok _ => pure ()

/-- Put a map into a slot at one point in lo, then look at the Attic again (R225). -/
def commitMap (ep slot : Nat) (m : MapSlot) (s : State) : State :=
  let e := s.epAt ep
  reexamineAll (s.setEp ep { e with maps := e.maps.put slot m }) ep

/-- Whether a transfer is pinned to a map slot of an endpoint (R243). -/
def slotPinned (s : State) (ep slot : Nat) : Bool := (s.epAt ep).arrive.any (fun a => a.pins.any (fun p => p.1 == slot))

/-- Whether a transfer is pinned to an old entry of a slot (R242). -/
def oldPinned (s : State) (ep slot : Nat) : Bool :=
  match (s.epAt ep).maps.find slot with
  | some m => (s.epAt ep).arrive.any (fun a => a.pins.any (fun p => p.1 == slot && p.2.entry != m.entry))
  | none => false

/-- `mapi` (R241). -/
def execMapi (g : Guard) (d e : BitVec 5) (epk : BitVec 3) (epn : BitVec 5) (s : State) : Host.Outcome State Fault Refusal :=
  issue (.mapi g d e epk epn) g (do
    let ep ← ownEndpoint epk.toNat epn.toNat
    let a ← readNat .e e.toNat
    let m ← readMap a
    checkMap ep m none
    let s ← Act.view id
    match (s.epAt ep).maps.free (epSlots ep) with
    | none => deliverNat (.mapi g d e epk epn) 0
    | some n => do
      Act.change (commitMap ep n ⟨m, s.myVd, none⟩)
      deliverNat (.mapi g d e epk epn) (n + epk.toNat * 2 ^ 8 + epn.toNat * 2 ^ 11 + 2 ^ 16)) s

/-- The map of a handle that may be changed: it is the issuer's and no ghost map (R242, R243, R266). -/
def heldMap (ep slot : Nat) : Act MapSlot := do
  let s ← Act.view id
  match (s.epAt ep).maps.find slot with
  | some m => do
    Act.check (m.vd == s.myVd && m.ghost.isNone) 0x01 0
    return m
  | none => Act.trap 0x01 0

/-- `mapx` (R242). -/
def execMapx (g : Guard) (h e : BitVec 5) (s : State) : Host.Outcome State Fault Refusal :=
  issue (.mapx g h e) g (do
    let hv ← readNat .e h.toNat
    let (ep, slot) ← handleSlot hv
    let old ← heldMap ep slot
    let a ← readNat .e e.toNat
    let m ← readMap a
    checkMap ep m (some slot)
    Act.await (fun s => !oldPinned s ep slot)
    Act.change (commitMap ep slot { old with entry := m.withGen (MapEntry.gen old.entry + 1) })) s

/-- Take map slots out of an endpoint at one point in lo. -/
def retireMaps (ep : Nat) (slots : List Nat) (s : State) : State :=
  let e := s.epAt ep
  s.setEp ep { e with maps := e.maps.filter (fun m => !slots.contains m.1) }

/-- `mapr` (R243). -/
def execMapr (g : Guard) (h : BitVec 5) (s : State) : Host.Outcome State Fault Refusal :=
  issue (.mapr g h) g (do
    let hv ← readNat .e h.toNat
    let (ep, slot) ← handleSlot hv
    let _ ← heldMap ep slot
    Act.await (fun s => !slotPinned s ep slot)
    Act.change (retireMaps ep [slot])) s

/-- `mapr.all` (R243, R15). -/
def execMaprAll (g : Guard) (epk : BitVec 3) (epn : BitVec 5) (s : State) : Host.Outcome State Fault Refusal :=
  issue (.maprAll g epk epn) g (do
    let ep ← ownEndpoint epk.toNat epn.toNat
    let s ← Act.view id
    let slots := ((s.epAt ep).maps.filter (fun m =>
      m.2.vd == s.myVd && !MapEntry.keep m.2.entry && m.2.ghost.isNone)).map (·.1)
    Act.await (fun s => slots.all (fun n => !slotPinned s ep n))
    Act.change (retireMaps ep slots)) s

/-- `mapq` (R244). -/
def execMapq (g : Guard) (d h : BitVec 5) (s : State) : Host.Outcome State Fault Refusal :=
  issue (.mapq g d h) g (do
    let hv ← readNat .e h.toNat
    let (ep, slot) ← handleSlot hv
    let s ← Act.view id
    let e := s.epAt ep
    let mine := match e.maps.find slot with | some m => if m.vd = s.myVd then some m else none | none => none
    let pinned := (e.arrive.filter (fun a => a.pins.any (fun p => p.1 == slot))).length
    let parked := (e.arrive.filter (·.parked)).length
    deliverNat (.mapq g d h) (packBits [(0, 16, match mine with | some m => MapEntry.gen m.entry | none => 0),
      (16, 1, bit mine.isSome), (17, 1, bit (mine.isSome && oldPinned s ep slot)),
      (24, 8, if mine.isSome then Nat.min 255 pinned else 0), (32, 8, Nat.min 255 parked)])) s

/-! ### sarm and swait (R245) -/

/-- The sync word that a y register names, as the number of a core's word. -/
def syncOperand (a : Nat) : Act Nat := do
  let x ← readNat .y a
  let p := bitsAt x 0 52
  Act.check (p % 16 == 0 && decide (p < 2 ^ 20)) 0x11 p
  return p

/-- Discard the staged contributions of a sync word that is armed anew; their transfers fail (R245). -/
def discardStaged (s : State) (die w : Nat) : State :=
  let gone := (epsOf s die).flatMap (fun e => ((s.epAt e).staged.filter (fun c => c.sync == w)).map (fun c => (e, c)))
  let s := gone.foldl (fun t g => failTransfer t g.1 g.2.key g.2.part (0x50, 0)) s
  let s := (epsOf s die).foldl (fun t e =>
    let k := t.epAt e
    t.setEp e { k with staged := k.staged.filter (fun c => c.sync != w) }) s
  endDone s die

/-- `sarm` (R245). -/
def execSarm (g : Guard) (a b : BitVec 5) (s : State) : Host.Outcome State Fault Refusal :=
  issue (.sarm g a b) g (do
    let p ← syncOperand a.toNat
    let t ← readNat .y b.toNat
    Act.change (fun s =>
      let die := dieOf s.cur.loc
      let w := coreOf s.cur.loc % 32 * 65536 + p / 16
      let s := discardStaged s die w
      putSync s die w (t % 2 ^ 32) 0 (bitsAt (syncWord s die w) 64 32) 0)) s

/-- `swait` (R245). -/
def execSwait (g : Guard) (a y : BitVec 5) (s : State) : Host.Outcome State Fault Refusal :=
  issue (.swait g a y) g (do
    let p ← syncOperand a.toNat
    let n ← readNat .y y.toNat
    let s ← Act.view id
    let x := syncWord s (dieOf s.cur.loc) (coreOf s.cur.loc % 32 * 65536 + p / 16)
    let ahead := (bitsAt x 64 32 + 2 ^ 32 - n % 2 ^ 32) % 2 ^ 32
    Act.check (!x.testBit 100) 0x52 p
    Act.await (fun _ => ahead != 0 && decide (ahead < 2 ^ 31))
    writeReg ⟨.y, y.toNat⟩ 1 (BitVec.ofNat 512 ((n + 1) % 2 ^ 32))) s

end Sys2Proof.Machine
end

