-- ==== Sys2Proof/Machine/Transfers.lean ====
section
/-! DEFINITION. Transfers, channels and job cards on the issuer's side (14_transfers.md R217, R231 to R240, 24_preemption.md R355,
R356). -/

namespace Sys2Proof.Machine

/-! ### Reading and writing as an L address would be (R83, R232) -/

/-- The physical address of a byte that a transfer or card of a location's task reaches, or the failing code and INFO: the
local store, the slice banks in the partition's mask, and device memory of the die. -/
def reach (s : State) (loc vd va : Nat) (write : Bool) : Except (Nat × Nat) Nat :=
  match windowOf va 1 with
  | none => .error (0x11, 0)
  | some 11 => .ok (nearPhys s loc va)
  | some 12 =>
    if ((s.vdAt vd).masks.look 0 (podPart s (partOf loc))).testBit (bankOf va) then .ok (nearPhys s loc va) else .error (0x11, 0)
  | some _ =>
    match translate s vd va write with
    | .ok pa => if physMod pa = s.module ∧ physDie pa = dieOf loc then .ok pa else .error (0x11, 0)
    | .bad 0x10 => .error (0x10, va)
    | .bad _ => .error (0x11, 0)
    | .wait => .error (0x10, va)

/-- The physical addresses of n bytes from an address. -/
def reachAll (s : State) (loc vd : Nat) (write : Bool) : Nat → Nat → Except (Nat × Nat) (List Nat)
  | _, 0 => .ok []
  | va, n + 1 =>
    match reach s loc vd va write with
    | .error e => .error e
    | .ok a =>
      match reachAll s loc vd write (va + 1) n with
      | .error e => .error e
      | .ok r => .ok (a :: r)

/-- Read bytes of a transfer's source or a card's region: the bytes, or the failing code and INFO (R232, R348); token-frame lines that it
meets are written back and dropped (R291). -/
def readSource (s : State) (loc vd va n : Nat) : Except (Nat × Nat) (List Byte × State) :=
  match reachAll s loc vd false va n with
  | .error e => .error e
  | .ok pas =>
    match errorMark s pas with
    | some a => .error (0x70, a)
    | none =>
      let t := if windowOf va 1 = some 13 then dropEach s vd va pas else s
      .ok (pas.map t.mem.look, t)

/-- Read several pieces one after another. -/
def readPieces (s : State) (loc vd n : Nat) : List Nat → Except (Nat × Nat) (List Byte × State)
  | [] => .ok ([], s)
  | va :: r =>
    match readSource s loc vd va n with
    | .error e => .error e
    | .ok (b, t) =>
      match readPieces t loc vd n r with
      | .error e => .error e
      | .ok (c, u) => .ok (b ++ c, u)

/-- Bytes padded with zero to a multiple of 64 (R217). -/
def padBeat (b : List Byte) : List Byte := b ++ List.replicate ((64 - b.length % 64) % 64) 0

/-! ### Descriptors (R213, R215, R238, R318, R320) -/

/-- The checks of R238 that raise trap 0x01 for `cput` and `cget` alike. -/
def TransferDesc.fieldsOk (t : TransferDesc) : Bool :=
  let d := t.toNat
  bitsAt d 31 1 == 0 && bitsAt d 55 9 == 0 && bitsAt d 112 16 == 0 && bitsAt d 176 16 == 0 && bitsAt d 240 16 == 0 &&
  bitsAt d 304 16 == 0 && bitsAt d 342 10 == 0 && bitsAt d 368 16 == 0 &&
  decide (t.fmtCode < 16) && t.fmtCode != 13 && t.fmtCode != 15 &&
  (List.range 4).all (fun i => t.ext i != 0 && decide (t.orig i + t.ext i ≤ 2 ^ 24) &&
    (decide (i ≤ t.ndim) || (t.orig i == 0 && t.ext i == 1))) &&
  decide (t.epk < 4) && (t.epk == 1 || t.epn == 0) && t.dest % (if t.epk = 0 then 2 else 64) == 0

/-- Bytes of the box. -/
def TransferDesc.bytes (t : TransferDesc) : Nat := t.total * t.es

/-- The address of source element j of a walk from a base (R238). -/
def TransferDesc.source (t : TransferDesc) (base j : Nat) : Nat :=
  ((base : Int) + ((List.range 4).map (fun d => ((boxCoord t.box j).getD d 0 : Int) * t.stride d)).sum).toNat

/-- Whether the source walk lies in one window (R238). -/
def TransferDesc.walkInside (t : TransferDesc) (base : Nat) : Bool :=
  let ss := (List.range 4).map (fun d => strideSpan (t.ext d) (t.stride d))
  let lo : Int := (base : Int) + (ss.map (·.1)).sum
  let hi : Int := (base : Int) + (ss.map (·.2)).sum + t.es
  decide (0 ≤ lo) && (windowOf lo.toNat (hi - lo).toNat).isSome

/-- Whether a device may send to the endpoint that a descriptor names, and count at the sync word (R318, R320). (DEDUCED, assumption 62) -/
def TransferDesc.reachable (t : TransferDesc) (v : Vd) : Bool :=
  let m := t.dest / 512
  let d := t.dest % 512 / 64
  (!t.swv || holdsCore v m d t.sync) &&
  if t.epk = 0 then v.parts.contains (64 * m + t.dest % 512 / 8)
  else holdsDie v m d && (t.epk != 1 || holdsBank v m d t.epn)

/-- The sync reference as an in-flight entry holds it. -/
def TransferDesc.syncField (t : TransferDesc) : Nat := t.sync + 2 ^ 21 * bit t.swv

/-! ### Entries and channels (R217, R231, R355, R356) -/

/-- The suppression key of a transfer (R217, R356). -/
def transferKey (q : Seq) (ch id : Nat) : Key := ⟨q.origin * 2 ^ 33 + ch * 2 ^ 30 + id % 2 ^ 30, true, q.origin, q.epoch, q.task.vd⟩

/-- The id that the next transfer of a channel takes. -/
def nextId (q : Seq) (ch : Nat) : Nat := (q.chans.look Channel.reset ch).next

/-- Give a location's sequencer an in-flight entry for a transfer on a channel (R231, R355): the entry's number. -/
def openTransfer (s : State) (loc k ch : Nat) (x : Slot) (i : Nat) (e : Ifr) : State :=
  let q := s.seqAt loc
  let c := q.chans.look Channel.reset ch
  let e : Ifr :=
  { e with
    state := 1, idem := 1, key := transferKey q ch c.next, ch := ch, id := c.next, num := q.task.num, lseq := q.task.lseq,
    slot := x, bundle := i, era := eraOf q, alloc := q.access }
  s.setSeq loc { q with
    ifr := q.ifr.put k e, access := (q.access + 1) % 2 ^ 30, chans := q.chans.put ch { c with next := (c.next + 1) % 2 ^ 32 } }

/-- The packet of a transfer's entry for an endpoint of a module; nothing stands between a die and its own endpoints. -/
def transferPacket (s : State) (loc entry : Nat) (e : Ifr) (dst ep part : Nat) (k : PktKind) : Packet :=
  { id := 0, kind := k, key := e.key, src := s.module, loc := loc, entry := entry, cls := 0, chan := e.ch, dst := dst, ep := ep,
    addr := 0, va := 0, off := part, ca := false, accepted := dst == s.module && epDie ep == dieOf loc, refused := false }

/-- A free in-flight entry, or a stall (R237, R355). -/
def freeEntry : Act Nat := fun s =>
  match s.me.ifr.free Config.ifrEntries with
  | none => .error .stall
  | some k => .ok (k, s)

/-- The horizon of a channel (R231): the smallest id of an incomplete transfer, or the next id. -/
def horizonOf (q : Seq) (ch : Nat) : Nat :=
  let next := nextId q ch
  let far := ((q.ifr.filter (fun e => 7 ≤ e.2.kind && e.2.kind ≤ 10 && e.2.ch == ch && !e.2.halted)).map
    (fun e => (next + 2 ^ 32 - e.2.id) % 2 ^ 32)).foldl Nat.max 0
  (next + 2 ^ 32 - far) % 2 ^ 32

/-! ### cput and cget (R238) -/

/-- Read a transfer descriptor at the address in an e register and check it (R237, R238). -/
def readTransfer (a : Nat) : Act TransferDesc := do
  let t : TransferDesc := BitVec.ofNat 512 (← localBlock a)
  Act.check t.fieldsOk 0x01 0
  return t

/-- `cput` (R238). -/
def execCput (g : Guard) (ch : BitVec 3) (d e x : BitVec 5) (s : State) : Host.Outcome State Fault Refusal :=
  issue (.cput g ch d e x) g (do
    let src ← readNat .e x.toNat
    let a ← readNat .e e.toNat
    let t ← readTransfer a
    Act.check (decide (t.bytes ≤ 2 ^ 24)) 0x01 0
    Act.check (t.walkInside src) 0x11 0
    let s ← Act.view id
    Act.check (t.reachable (s.vdAt s.myVd)) 0x11 0
    let k ← freeEntry
    Act.change (fun s => perf (openTransfer s s.cur.loc k ch.toNat .C s.here
      { Ifr.blank with
        kind := 7, scope := s.scope 0, target := src, sync := t.syncField, len := a, desc := t.setWidth 1024,
        total := t.beatCount }) s.cur.loc 5 1)
    deliverNat (.cput g ch d e x) (nextId s.me ch.toNat)) s

/-- `cget` (R238): the request goes to the endpoint that the descriptor names. -/
def execCget (g : Guard) (ch : BitVec 3) (d e : BitVec 5) (s : State) : Host.Outcome State Fault Refusal :=
  issue (.cget g ch d e) g (do
    let a ← readNat .e e.toNat
    let t ← readTransfer a
    let s ← Act.view id
    Act.check ((List.range 4).all (fun i => t.stride i == 0) && !(t.swv && t.sync / 65536 != coreOf s.cur.loc % 32)) 0x01 0
    Act.check (decide (t.bytes ≤ 2 ^ 24)) 0x01 0
    Act.check (t.reachable (s.vdAt s.myVd)) 0x11 0
    let k ← freeEntry
    Act.change (fun s =>
      let s := openTransfer s s.cur.loc k ch.toNat .C s.here
        { Ifr.blank with
          kind := 8, scope := s.scope 0, sync := t.syncField, len := a, desc := t.setWidth 1024, total := t.beatCount }
      let en := (s.me.ifr.find k).getD Ifr.blank
      perf (emit s (transferPacket s s.cur.loc k en (t.dest / 512) t.endpoint 0 (.ask t))) s.cur.loc 5 1)
    deliverNat (.cget g ch d e) (nextId s.me ch.toNat)) s

/-! ### The sender's side (R217, R232, R238, R268) -/

/-- Replace an in-flight entry. -/
def putEntry (s : State) (loc k : Nat) (e : Ifr) : State :=
  let q := s.seqAt loc
  s.setSeq loc { q with ifr := q.ifr.put k e }

/-- Write the copies that the transfers of an endpoint still have to make, of those that a test names. -/
def flushSome (s : State) (ep : Nat) (which : Arrival → Bool) : State :=
  ((s.epAt ep).arrive.filter which).foldl (fun t a => flushCopies t ep a) s

/-- Take a transfer's beats out of the fabric and its unfinished part out of its endpoint, which keeps what has landed.
(DEDUCED, assumption 42) -/
def abandon (s : State) (key : Key) (dst ep : Nat) : State :=
  let s := { s with net := s.net.filter (fun p => !(p.key == key && p.asks)) }
  if dst = s.module then
    let s := flushSome s ep (fun a => a.key == key)
    let k := s.epAt ep
    s.setEp ep { k with arrive := k.arrive.filter (fun a => a.key != key), staged := k.staged.filter (fun c => c.key != key) }
  else s

/-- An entry's read has failed (R232): a page fault waits for its trap while the task runs, and fails with 0x11 once it has
halted; anything else fails. -/
def failRead (s : State) (loc k : Nat) (e : Ifr) (c i : Nat) : State :=
  if c = 0x10 ∧ !e.halted then putEntry s loc k { e with fault := 1, code := c, info := i }
  else
    let t : TransferDesc := e.desc.setWidth 512
    let s := if e.kind = 9 then s else abandon s e.key (t.dest / 512) t.endpoint
    putEntry s loc k { e with state := 4, code := if c = 0x10 then 0x11 else c, info := i }

/-- Where an entry's source walk starts. -/
def sourceBase (e : Ifr) : Nat := if e.kind = 7 then e.target else bitsAt e.desc.toNat 512 52

/-- The unit reads the source elements of a transfer's next beat and sends it, the first behind the header, once
every earlier transfer of the channel to the same receiver has been sent (R197, R217, R238, R268). (DEDUCED, assumption 21) -/
def sourceRead (loc entry : Nat) (s : State) : State :=
  match (s.seqAt loc).ifr.find entry with
  | none => s
  | some e =>
    if !(e.kind = 7 ∨ e.kind = 10) ∨ e.state ≠ 1 ∨ e.fault ≠ 0 ∨ e.total ≤ e.beats ∨ (s.seqAt loc).save ≠ 0 then s
    else
      let t : TransferDesc := e.desc.setWidth 512
      if sendsAfter s loc e (t.dest / 512) t.endpoint then s
      else
        let per := 64 / t.es
        let js := (List.range (Nat.min per (t.total - per * e.beats))).map (per * e.beats + ·)
        match readPieces s loc e.key.vd t.es (js.map (t.source (sourceBase e))) with
        | .error (c, i) => failRead s loc entry e c i
        | .ok (b, s) =>
          let s := putEntry s loc entry { e with beats := e.beats + 1 }
          let step := if e.kind = 10 then some e.len else none
          let p := transferPacket s loc entry e (t.dest / 512) t.endpoint 0 (.header t step e.total)
          let s := if e.beats = 0 then emit s p else s
          emit s { p with kind := .beat t step e.beats e.total (padBeat b) }

/-! ### CGET_SOURCE_RESOLVE (R238) -/

/-- Read an element of a box at its source endpoint, at the position of its highest-priority map: a page that is absent is a page fault of
the transfer's source (R232, R238). -/
def readElement (s : State) (ep vd : Nat) (t : TransferDesc) (pins : List (Nat × MapSlot)) (j : Nat) :
    Except (Nat × Nat) (List Byte × State) :=
  match receivers pins (t.coord j) with
  | [] => .error (0x50, 0)
  | m :: _ =>
    if MapEntry.fmtCode m.2.entry ≠ t.fmtCode then .error (0x50, 0)
    else
      let pos := (MapEntry.position m.2.entry (t.coord j)).toNat
      match posBytes s ep vd false pos t.es with
      | .error c => .error (if c = 0x10 then (0x10, pos) else (0x11, 0))
      | .ok pas =>
        match errorMark s pas with
        | some a => .error (0x70, a)
        | none =>
          let u := if epKind ep < 2 then s else dropEach s vd pos pas
          .ok (pas.map u.mem.look, u)

/-- Read the elements of a box in order. -/
def readElements (s : State) (ep vd : Nat) (t : TransferDesc) (pins : List (Nat × MapSlot)) :
    List Nat → Except (Nat × Nat) (List Byte × State)
  | [] => .ok ([], s)
  | j :: js =>
    match readElement s ep vd t pins j with
    | .error e => .error e
    | .ok (b, u) =>
      match readElements u ep vd t pins js with
      | .error e => .error e
      | .ok (c, v) => .ok (b ++ c, v)

/-- Beats of bytes from a number on, in order, as packets like the given one. -/
def emitBeats (s : State) (p : Packet) (d : TransferDesc) (step : Option Nat) (total : Nat) : Nat → Nat → List Byte → State
  | 0, _, _ => s
  | n + 1, no, b =>
    emitBeats (emit s { p with kind := .beat d step no total (b.take 64) }) p d step total n (no + 1) (b.drop 64)

/-- A whole transfer: its header, then its beats (R217). -/
def emitTransfer (s : State) (p : Packet) (d : TransferDesc) (b : List Byte) : State :=
  emitBeats (emit s { p with kind := .header d none d.beatCount }) p d none d.beatCount d.beatCount 0 (padBeat b)

/-- CGET_SOURCE_RESOLVE: a source endpoint resolves a `cget` box through its maps and sends it to the issuing core's local
store, or fails (R238). -/
def execCgetSourceResolve (pk : Nat) (s : State) : Host.Outcome State Fault Refusal :=
  match s.packet pk with
  | none => .next s
  | some p =>
    match p.kind with
    | .ask d =>
      let t : TransferDesc := d
      if !p.accepted ∨ p.dst ≠ s.module ∨ flowBlocked s p then .next s
      else if !landingOpen s p.ep p.key.vd then .next (refusePacket s p)
      else
        match readElements s p.ep p.key.vd t (pinSet s p.ep p.key.vd t.tname) (List.range t.total) with
        | .error (c, i) => .next (answer s p (.refuse c i))
        | .ok (b, s) =>
          let home := coreOf p.loc
          let out : Packet :=
          { p with
            dst := p.src, ep := home, off := 0, refused := false, accepted := p.src == s.module && dieOf p.loc == epDie p.ep }
          .next (emitTransfer (dropPacket s pk) out t b)
    | _ => .next s

/-! ### Completion (R231, R232) -/

/-- The record of a failed transfer whose task has halted (R232, R345): SLOT 15, BINDEX where its slots stood at `halt`; AUX names the
entry of a page fault or of trap 0x71 (R232, Table 23.2). -/
def haltedRecord (s : State) (loc k : Nat) (e : Ifr) (code info : Nat) : Nat :=
  packBits [(0, 8, code), (12, 4, 15), (16, 15, fullLoc s loc), (32, 16, e.key.vd), (64, 32, e.num), (96, 32, e.lseq),
    (128, 64, e.bundle), (320, 64, info), (384, 64, vtime s e.key.vd),
    (448, 16, if code = 0x71 ∨ (code = 0x11 ∧ info ≠ 0) then k else 0)]

/-- End a transfer: its mark is set, or its record posted once its task has halted, and its entry is free (R231, R232). -/
def endTransfer (s : State) (loc k : Nat) (e : Ifr) (code info : Nat) : State :=
  let info := if code = 0x50 then e.id else info
  let s :=
    if code ≠ 0 ∧ e.halted then
      let rc := haltedRecord s loc k e code info
      if code = 0x71 then postFatal s (dieOf loc) e.key.vd (rc + 256) else postLane s (dieOf loc) e.key.vd rc
    else s
  let q := s.seqAt loc
  let c := q.chans.look Channel.reset e.ch
  let chans := if code ≠ 0 ∧ code ≠ 0x71 ∧ !e.halted then q.chans.put e.ch { c with fails := c.fails ++ [(e.id, code, info)] } else q.chans
  tryFinish (s.setSeq loc { q with ifr := q.ifr.drop k, chans := chans }) loc

/-- TRANSFER_COMPLETE: the end of a transfer reaches its sender, or one that has failed there is taken note of; a card counts
the ends of its own transfers (R231, R232). -/
def execTransferComplete (loc entry : Nat) (s : State) : Host.Outcome State Fault Refusal :=
  match (s.seqAt loc).ifr.find entry with
  | none => .next s
  | some e =>
    if e.kind < 7 ∨ 10 < e.kind then .next s
    else if engineWrites s loc ∧ (e.state = 3 ∨ e.state = 4) then .next s
    else if e.state = 3 ∨ e.state = 4 then .next (endTransfer s loc entry e e.code e.info)
    else
      match s.net.find? (fun p => !p.asks && p.src == s.module && p.loc == loc && p.entry == entry) with
      | none => .next s
      | some p =>
        let s := dropPacket s p.id
        if p.key ≠ e.key ∨ engineWrites s loc then .next s
        else
          let (c, i) := match p.kind with | .refuse c i => (c, i) | _ => (0, 0)
          if e.kind = 9 then
            .next (putEntry s loc entry { e with
              left := e.left - 1, code := if e.code = 0 then c else e.code, info := if e.code = 0 then i else e.info })
          else
            let t : TransferDesc := e.desc.setWidth 512
            let s := if c = 0 then s else { s with net := s.net.filter (fun p => !(p.key == e.key && p.asks)) }
            if c = 0x10 then .next (failRead s loc entry e c i)
            else .next (endTransfer s loc entry { e with desc := t.setWidth 1024 } c i)

/-! ### cwait and cstat (R232, R240) -/

/-- The lowest fail mark of a channel below a limit (R232). -/
def lowestMark (c : Channel) (lim : Nat) : Option (Nat × Nat × Nat) :=
  let dist := fun (f : Nat × Nat × Nat) => (lim + 2 ^ 32 - f.1) % 2 ^ 32
  (c.fails.filter (fun f => 0 < dist f && dist f < 2 ^ 31)).foldl (fun r f =>
    match r with
    | none => some f
    | some m => if dist m < dist f then some f else some m) none

/-- Raise the lowest fail mark of a channel below a limit; the mark clears when its trap is taken (R232). -/
def reportBelow (ch lim : Nat) : Act Unit := fun s =>
  let q := s.me
  let c := q.chans.look Channel.reset ch
  match lowestMark c lim with
  | none => .ok ((), s)
  | some f => .error (.trapWith (s.setMe { q with chans := q.chans.put ch { c with fails := c.fails.filter (fun m => m.1 != f.1) } })
      f.2.1 f.2.2)

/-- `cwait` (R240). -/
def execCwait (g : Guard) (ch : BitVec 3) (e : BitVec 5) (inc : Bool) (s : State) : Host.Outcome State Fault Refusal :=
  issue (.cwait g ch e inc) g (do
    let x ← readNat .e e.toNat
    let n := (x + bit inc) % 2 ^ 32
    Act.await (fun s => decide ((horizonOf s.me ch.toNat + 2 ^ 32 - n) % 2 ^ 32 < 2 ^ 31))
    reportBelow ch.toNat n) s

/-- `cstat` (R240). -/
def execCstat (g : Guard) (ch : BitVec 3) (d : BitVec 5) (s : State) : Host.Outcome State Fault Refusal :=
  issue (.cstat g ch d) g (do
    let h ← Act.view (fun s => horizonOf s.me ch.toNat)
    reportBelow ch.toNat h
    deliverNat (.cstat g ch d) h) s

/-! ### Job cards (R233 to R235, R239) -/

/-- Whether a region is one the card writes. -/
def isWrite (j : Nat) : Bool := decide (4 ≤ j)

/-- The checks of R234 that raise trap 0x01 and need no descriptor. -/
def JobCard.fieldsOk (c : JobCard) : Bool :=
  let d := c.toNat
  let n := c.nr
  bitsAt d 8 8 == 0 && bitsAt d 18 6 == 0 && bitsAt d 32 32 == 0 && bitsAt d 96 160 == 0 &&
  decide (c.nr ≤ 4) && decide (c.nw ≤ 4) &&
  (List.range 8).all (fun j => bitsAt (c.region j) 86 10 == 0 && (c.used.contains j || c.form j == 0)) &&
  (match c.kind with
   | 0 => n != 0 && c.nw == n && (List.range n).all (fun j => c.form j == 1 && c.form (4 + j) == 1 && c.len j == c.len (4 + j))
   | 3 => n != 0 && c.nw == n && (List.range n).all (fun j => c.form j == 1 && c.form (4 + j) == 2 && c.len (4 + j) == 0)
   | k => c.rowb != 0 && n == 2 && c.nw == 1 && c.form 0 == 1 && c.form 1 == 1 && c.form 4 == 1 && c.len 1 % 4 == 0 &&
       c.len (if k = 1 then 4 else 0) == c.len 1 / 4 * c.rowb)

/-- The in-flight entry of a card, none while its sequencer's context is saved. -/
def cardEntry (s : State) (x : Card) : Option Ifr := ((s.seqAt x.loc).ifr.find x.entry).filter (fun e => e.key == x.key)

/-- The checks of the boxes of a collective at its `ccard`: the descriptor's own, its length, and where it may go (R234, R238,
R318, R320). -/
def checkBoxes (c : JobCard) : Act Unit := do
  let s ← Act.view id
  let v := s.vdAt s.myVd
  let ds := (List.range c.nw).filterMap (fun j => (boxDesc s s.cur.loc c (4 + j)).map (fun t => (j, t)))
  Act.check (ds.all (fun e => e.2.fieldsOk && e.2.bytes == c.len e.1)) 0x01 0
  Act.check (ds.all (fun e => e.2.reachable v)) 0x11 0

/-- `ccard` (R239): the card goes to the die's intake. -/
def execCcard (g : Guard) (ch : BitVec 3) (d e : BitVec 5) (s : State) : Host.Outcome State Fault Refusal :=
  issue (.ccard g ch d e) g (do
    let a ← readNat .e e.toNat
    Act.check (decide (a % 128 = 0) && decide (a + 128 ≤ Config.localBytes)) 0x11 a
    let c : JobCard := BitVec.ofNat 1024 (← readLocal a 128)
    Act.check c.fieldsOk 0x01 0
    if c.kind = 3 then checkBoxes c else pure ()
    let s ← Act.view id
    let k ← freeEntry
    Act.await (fun s => decide (((s.dieAt (dieOf s.cur.loc)).cards.filter (fun x =>
      partOf x.loc == partOf s.cur.loc && (cardEntry s x).isSome)).length < Config.intakeCards))
    Act.change (fun s =>
      let loc := s.cur.loc
      let s := openTransfer s loc k ch.toNat .C s.here
        { Ifr.blank with kind := 9, scope := s.scope 0, len := a, desc := c }
      let die := s.dieAt (dieOf loc)
      s.setDie (dieOf loc)
        { die with cards := die.cards ++ [⟨((die.cards.getLast?.map (·.no)).getD 0) + 1,
            ((s.seqAt loc).ifr.look Ifr.blank k).key, loc, k, a, c, false⟩] })
    deliverNat (.ccard g ch d e) (nextId s.me ch.toNat)) s

/-- A range cut at 4 KiB boundaries: the physical start of each piece, none where it does not translate, and its length. -/
def rangePieces (s : State) (loc vd : Nat) (write : Bool) : Nat → Nat → Nat → List (Option Nat × Nat)
  | 0, _, _ => []
  | fuel + 1, a, n =>
    if n = 0 then []
    else
      let k := Nat.min n (4096 - a % 4096)
      let rest := rangePieces s loc vd write fuel (a + k) (n - k)
      match reach s loc vd a write with
      | .ok pa => (some pa, k) :: rest
      | .error _ => (none, k) :: rest

/-- The pieces of a range region. -/
def JobCard.pieces (s : State) (loc vd : Nat) (c : JobCard) (j : Nat) : List (Option Nat × Nat) :=
  rangePieces s loc vd (isWrite j) (c.len j / 4096 + 2) (c.base j) (c.len j)

/-- Whether the boxes of two descriptors meet at one endpoint (R235). -/
def descsMeet (a b : TransferDesc) : Bool :=
  a.tname == b.tname && a.dest / 512 == b.dest / 512 && a.endpoint == b.endpoint &&
  (List.range 4).all (fun d => decide (a.orig d < b.orig d + b.ext d) && decide (b.orig d < a.orig d + a.ext d))

/-- Whether two pieces share a byte of a home; one without a translation may share one with any. -/
def piecesMeet (p r : Option Nat × Nat) : Bool :=
  match p.1, r.1 with
  | some a, some b => linesMeet a p.2 b r.2
  | _, _ => true

/-- Whether two regions of cards overlap (R235). -/
def regionsMeet (s : State) (x : Card) (xv j : Nat) (y : Card) (yv k : Nat) : Bool :=
  let cx : JobCard := x.bits
  let cy : JobCard := y.bits
  if cx.form j = 1 ∧ cy.form k = 1 then
    (cx.pieces s x.loc xv j).any (fun p => (cy.pieces s y.loc yv k).any (piecesMeet p))
  else match boxDesc s x.loc cx j, boxDesc s y.loc cy k with
    | some a, some b => xv == yv && descsMeet a b
    | _, _ => false

/-- Whether an earlier card holds back another: regions of theirs overlap where at least one of them is written; one whose sequencer is
saved holds back its own device's cards only (R195, R333, R235). -/
def cardsMeet (s : State) (x y : Card) : Bool :=
  ((cardEntry s x).isSome || x.key.vd == y.key.vd) &&
  (JobCard.used x.bits).any (fun j => (JobCard.used y.bits).any (fun k =>
    (isWrite j || isWrite k) && regionsMeet s x x.key.vd j y y.key.vd k))

/-- Whether a card's read and write ranges overlap each other (R234): by address, or at one home. -/
def selfMeets (s : State) (x : Card) : Bool :=
  let c : JobCard := x.bits
  let vd := x.key.vd
  c.used.any (fun j => c.used.any (fun k =>
    !isWrite j && isWrite k && c.form j == 1 && c.form k == 1 &&
    (linesMeet (c.base j) (c.len j) (c.base k) (c.len k) ||
     (c.pieces s x.loc vd j).any (fun p => (c.pieces s x.loc vd k).any (fun r =>
       p.1.isSome && r.1.isSome && piecesMeet p r)))))

/-- Whether a region lies in one window (R234). -/
def JobCard.regionInside (s : State) (loc : Nat) (c : JobCard) (j : Nat) : Bool :=
  if c.form j = 1 then (windowOf (c.base j) (c.len j)).isSome else (boxDesc s loc c j).isSome

/-- Replace a card of a die. -/
def putCard (s : State) (d : Nat) (x : Card) : State :=
  let k := s.dieAt d
  s.setDie d { k with cards := k.cards.map (fun y => if y.no = x.no then x else y) }

/-- The descriptor of a collective's transfer, with the strides of a packed row-major box at the source (R234). -/
def packedBytes (s : State) (loc vd : Nat) (c : JobCard) (j : Nat) : Except (Nat × Nat) (List Byte × State) :=
  readSource s loc vd (c.base j) (c.len j)

/-- Send the transfers of a collective one after another. -/
def sendCollective (loc k : Nat) (e : Ifr) (c : JobCard) : List Nat → State → State
  | [], s => s
  | j :: js, s =>
    match packedBytes s loc e.key.vd c j, boxDesc s loc c (4 + j) with
    | .ok (b, u), some t =>
      let p := transferPacket u loc k e (t.dest / 512) t.endpoint j (.ask t)
      sendCollective loc k e c js (perf (emitTransfer u p t b) loc 5 1)
    | _, _ => sendCollective loc k e c js s

/-- The first failure of reading a collective's ranges. -/
def collectiveFault (s : State) (loc vd : Nat) (c : JobCard) : Option (Nat × Nat) :=
  ((List.range c.nr).filterMap (fun j => match packedBytes s loc vd c j with | .error f => some f | .ok _ => none)).head?

/-- JOB_CARD_START: a card starts once no earlier incomplete card of the die overlaps it; a collective sends its transfers
(R234, R235). -/
def execJobCardStart (die card : Nat) (s : State) : Host.Outcome State Fault Refusal :=
  let cards := (s.dieAt die).cards
  match cards.find? (fun x => x.no == card) with
  | none => .next s
  | some x =>
    match cardEntry s x with
    | none => .next s
    | some e =>
      let c : JobCard := x.bits
      let s' := putCard s die { x with started := true }
      if x.started || e.fault != 0 || (s.seqAt x.loc).save != 0 || (cards.takeWhile (fun y => y.no != card)).any (fun y => cardsMeet s y x) then .next s
      else if (receiversOf s x.loc e).any (fun r => sendsAfter s x.loc e r.1 r.2.1) then .next s
      else if !c.used.all (c.regionInside s x.loc) || selfMeets s x then
        .next (putEntry s' x.loc x.entry { e with code := 0x11 })
      else if c.kind ≠ 3 then .next s'
      else match collectiveFault s x.loc e.key.vd c with
        | some (f, i) =>
          if f = 0x10 ∧ !e.halted then .next (failRead s x.loc x.entry e f i)
          else .next (putEntry s' x.loc x.entry { e with code := if f = 0x10 then 0x11 else f, info := i })
        | none =>
          let e := { e with left := c.nw, total := c.nw }
          .next (sendCollective x.loc x.entry e c (List.range c.nw) (putEntry s' x.loc x.entry e))

/-- A copy of n bytes between addresses of a card, byte for byte in ascending order. -/
def copyBytes (s : State) (loc vd src dst n : Nat) : Except (Nat × Nat) State :=
  match readSource s loc vd src n with
  | .error e => .error e
  | .ok (b, t) =>
    match reachAll t loc vd true dst n with
    | .error e => .error e
    | .ok pas => .ok (storeEach (if windowOf dst 1 = some 13 then dropEach t vd dst pas else t) pas b)

/-- How the copies of a card end: done, failed with a code and INFO, or refused by an endpoint whose window is full. -/
inductive CopyEnd where
  | done
  | fail (code info : Nat)
  | full
  deriving DecidableEq, Repr

/-- Copies one after another from the n-th on; the first failure stops them, and what is written stays (R234). Each leaves a record where it
is written, so that a reissue does not write it again, and an endpoint whose window is full refuses it (R357, R358).
(DEDUCED, assumption 63) -/
def copyAll (loc : Nat) (key : Key) : Nat → List (Nat × Nat × Nat) → State → State × CopyEnd
  | _, [], s => (s, .done)
  | n, (a, b, len) :: r, s =>
    match reach s loc key.vd b true with
    | .error (c, i) => if len = 0 then copyAll loc key (n + 1) r s else (s, .fail c i)
    | .ok pa =>
      let ep := endpointOf pa
      if (recordOf s ep key n).isSome then copyAll loc key (n + 1) r s
      else if Config.windowRecords ≤ (s.epAt ep).window.length then (s, .full)
      else match copyBytes s loc key.vd a b len with
        | .error (c, i) => (s, .fail c i)
        | .ok t => copyAll loc key (n + 1) r (addRecord t ep ⟨key, n, 0, 1⟩)

/-- The index rows of a gather or scatter card. -/
def indexRows (c : JobCard) (b : List Byte) : List (Nat × Nat) :=
  (List.range (c.len 1 / 4)).map (fun i => (i, ofBytes ((b.drop (4 * i)).take 4)))

/-- The copy that a row of a gather or scatter card makes (R234). -/
def rowCopy (c : JobCard) (r : Nat × Nat) : Nat × Nat × Nat :=
  if c.kind = 1 then (c.base 0 + r.2 * c.rowb, c.base 4 + r.1 * c.rowb, c.rowb)
  else (c.base 0 + r.1 * c.rowb, c.base 4 + r.2 * c.rowb, c.rowb)

/-- Whether a row's index lies in the table (R234). -/
def rowGood (c : JobCard) (r : Nat × Nat) : Bool := decide ((r.2 + 1) * c.rowb ≤ c.len (if c.kind = 1 then 0 else 4))

/-- The copies that a copy, gather or scatter card makes (R234) with the code of an index beyond the table and the state after reading the
indices; none where they cannot be read, with the code and INFO. A card with such an index may have copied any rows before it (assumption 28). -/
def cardCopies (s : State) (loc vd : Nat) (c : JobCard) : Except (Nat × Nat) (List (Nat × Nat × Nat) × Nat × State) :=
  if c.kind = 0 then .ok ((List.range c.nr).map (fun j => (c.base j, c.base (4 + j), c.len j)), 0, s)
  else
    match readSource s loc vd (c.base 1) (c.len 1) with
    | .error e => .error e
    | .ok (b, t) =>
      let rows := indexRows c b
      if rows.all (rowGood c) then .ok (rows.map (rowCopy c), 0, t)
      else .ok (((rows.takeWhile (rowGood c)).takeWhile (fun r => Config.freeBit s.free r.1)).map (rowCopy c), 0x11, t)

/-- Write STATUS and FCODE of a card and let it leave the intake (R233). -/
def closeCard (s : State) (die : Nat) (x : Card) (e : Ifr) (code info : Nat) : State :=
  let s := nearWrite s x.loc (x.addr + 2) [BitVec.ofNat 8 (if code = 0 then 1 else 2), BitVec.ofNat 8 code] 3
  let k := s.dieAt die
  let s := s.setDie die { k with cards := k.cards.filter (fun y => y.no != x.no) }
  putEntry s x.loc x.entry { e with state := if code = 0 then 3 else 4, code := code, info := info }

/-- JOB_CARD_COMPLETE: the engine of a started card finishes: it has copied, or every transfer of the collective has ended
(R233, R234). -/
def execJobCardComplete (die card : Nat) (s : State) : Host.Outcome State Fault Refusal :=
  match (s.dieAt die).cards.find? (fun x => x.no == card) with
  | none => .next s
  | some x =>
    match cardEntry s x with
    | none => .next s
    | some e =>
      let c : JobCard := x.bits
      if !x.started || e.fault != 0 || (s.seqAt x.loc).save != 0 || (c.kind == 3 && e.left != 0) then .next s
      else if e.code ≠ 0 ∨ c.kind = 3 then .next (closeCard s die x e e.code e.info)
      else
        match cardCopies s x.loc e.key.vd c with
        | .error (f, i) => .next (if f = 0x10 ∧ !e.halted then failRead s x.loc x.entry e f i
            else closeCard s die x e (if f = 0x10 then 0x11 else f) i)
        | .ok (l, late, u) =>
          match copyAll x.loc e.key 0 l u with
          | (t, .done) => .next (closeCard t die x e late 0)
          | (t, .full) => .next t
          | (t, .fail f i) => .next (if f = 0x10 ∧ !e.halted then failRead t x.loc x.entry e f i
              else closeCard t die x e (if f = 0x10 then 0x11 else f) i)

end Sys2Proof.Machine
end

