-- ==== Sys2Proof/Machine/Atomics.lean ====
section
/-! DEFINITION. Atomics of the W slot, routing counters and fences (15_atomics.md R247 to R258). -/

namespace Sys2Proof.Machine

/-! ### What a fence waits for (R185, R188, R258, R391) -/

/-- Whether an endpoint of a module lies within a location's scope of a code (R16, R185, R188). -/
def endpointInScope (s : State) (loc scope m ep : Nat) : Bool :=
  match scope with
  | 1 | 2 => m == s.module && ep == coreOf loc
  | 3 => m == s.module && decide (ep < 256) && ep / 4 == partOf loc
  | 4 => m == s.module && epDie ep == dieOf loc
  | 5 => m == s.module
  | _ => true

/-- Whether the home of a physical address lies within a location's scope. -/
def homeInScope (s : State) (loc scope pa : Nat) : Bool := endpointInScope s loc scope (physMod pa) (endpointOf pa)

/-- Whether an address that a transfer of a location reads has its home in scope; one whose page does not translate may yet. -/
def sourceInScope (s : State) (loc vd scope va : Nat) : Bool :=
  match reach s loc vd va false with
  | .ok pa => homeInScope s loc scope pa
  | .error _ => true

/-- Whether a range that a card of a location reads has a home in scope: homes change at 4 KiB boundaries at the finest. -/
def rangeInScope (s : State) (loc vd scope base len : Nat) : Bool :=
  (List.range (len / 4096 + 2)).any (fun i =>
    let a := Nat.max base (base / 4096 * 4096 + 4096 * i)
    decide (a < base + len) && sourceInScope s loc vd scope a)

/-- The beats of a transfer of a location up to the last that reads a source in scope, from beat n on. -/
def beatsInScope (s : State) (loc scope : Nat) (e : Ifr) : Nat :=
  let t : TransferDesc := e.desc.setWidth 512
  (List.range (e.total - e.beats)).foldl (fun m d =>
    let j := 64 * (e.beats + d) / t.es
    if (List.range (Nat.min (64 / t.es) (t.total - j))).any (fun i =>
      sourceInScope s loc e.key.vd scope (t.source (sourceBase e) (j + i))) then e.beats + d + 1 else m) 0

/-- Whether an entry has source reads left whose home lies in scope. -/
def readsLeft (s : State) (loc scope : Nat) (e : Ifr) : Bool :=
  let t : TransferDesc := e.desc.setWidth 512
  match e.kind with
  | 7 | 10 => decide (0 < beatsInScope s loc scope e)
  | 8 =>
    endpointInScope s loc scope (t.dest / 512) t.endpoint &&
    s.net.any (fun p => p.key == e.key && (match p.kind with | .ask _ => true | _ => false))
  | 9 =>
    let c : JobCard := e.desc
    e.total == 0 && (List.range c.nr).any (fun j => rangeInScope s loc e.key.vd scope (c.base j) (c.len j))
  | _ => false

/-- Whether an entry is an outstanding access of a masked class whose home lies in scope. -/
def accessLeft (s : State) (loc scope mask : Nat) (e : Ifr) : Bool :=
  decide (1 ≤ e.kind) && decide (e.kind ≤ 6) && decide (e.state < 3) && mask.testBit e.cls &&
  e.homes.any (homeInScope s loc scope)

/-- Whether a fence waits for an entry whose operation is po-before it: a masked access, or the source reads of a transfer or card, which
every fence orders (R258, R391). -/
def fenceAwaits (s : State) (loc scope mask : Nat) (e : Ifr) : Bool :=
  !e.halted && (accessLeft s loc scope mask e || (decide (e.state < 3) && readsLeft s loc scope e))

/-- Whether a fence in slot x of a location waits (R258). -/
def fenceWaits (s : State) (loc : Nat) (x : Slot) (scope mask : Nat) : Bool :=
  let q := s.seqAt loc
  q.ifr.any (fun e => poBefore q x (stepOf q x) e.2 && fenceAwaits s loc scope mask e.2)

/-- `fence` (R257, R258). -/
def execFence (g : Guard) (scope : ScopeCode) (mask : BitVec 16) (s : State) : Host.Outcome State Fault Refusal :=
  issue (.fence g scope mask) g (do
    let n ← Act.view (fun s => s.scope scope.toNat)
    Act.await (fun s => !fenceWaits s s.cur.loc .Y n mask.toNat)) s

/-- The fence of a release form before its atomic (R250). -/
def orderBefore (ord scope : Nat) : Act Unit := Act.await (fun s =>
  !(decide (ord / 2 = 1) && fenceWaits s s.cur.loc .W scope 0xFFFF))

/-- The fence of an acquire form after its atomic: what it waits for, the atomic with it, holds back what comes after (R250).
(DEDUCED, assumption 34) -/
def orderAfter (ord scope : Nat) : Act Unit := Act.change (fun s =>
  if ord % 2 = 1 then
    let q := s.me
    s.setMe { q with ifr := q.ifr.map (fun e =>
      if (poBefore q .W s.here e.2 || (e.2.slot == .W && e.2.bundle == s.here)) && fenceAwaits s s.cur.loc scope 0xFFFF e.2 then
        (e.1, { e.2 with acq := some (beatsInScope s s.cur.loc scope e.2, eraOf q, s.here) })
      else e) }
  else s)

/-! ### Memory atomics (R248 to R251) -/

/-- Set sticky bits at issue (R249). -/
def stickyNow (st : Nat) : Act Unit := Act.change (fun s =>
  if st = 0 then s else s.setMe { s.me with conv := s.me.conv ||| BitVec.ofNat 64 st })

/-- A memory atomic of the W slot with its ROP code, type, ordering and destination (Tables 15.3 and 15.4). -/
def actAtomic (op : Nat) (wd : BitVec 5) (a b : Opnd) (nr : Bool) (ord : BitVec 2) (cls : BitVec 4) (t : Fmt) : Act Unit := do
  let va ← readOp a
  let n := t.width / 8
  let r : Reg := ⟨.w, wd.toNat⟩
  Act.check (decide (va % n = 0)) 0x11 va
  let w ← accessWindow va n
  let y := bitsAt (← readOp b) 0 (8 * n)
  let old ← (if op = 7 then readNat .w wd.toNat else pure 0)
  let cmp := bitsAt old 0 (8 * n)
  let s ← Act.view id
  let scope := s.scope 0
  if w = 13 then do
    let pa ← Act.home va true false
    let _ ← Act.home va false false
    orderBefore ord.toNat scope
    let k ← openAccess
      { Ifr.blank with
        kind := 3, cls := cls.toNat, scope := scope, idem := 2, target := va, len := n, rtype := t.code,
        dst := if nr then none else some r, li := s.here + latency s.me 13 }
      [(pa, va, 0, .atom op t.isSigned n y cmp (t == .f32))]
    if nr then pure () else awaitResult r (latency s.me 13) k false
  else do
    orderBefore ord.toNat scope
    let x ← readNear va n
    let (write, new, st) := atomOp op t.isSigned n (t == .f32) x y cmp
    if write then writeNear va (toBytes n new) allBytes else pure ()
    stickyNow st
    if nr then pure () else writeReg r (latency s.me w) (BitVec.ofNat 512 (atomValue (t == .s32) n x))
  orderAfter ord.toNat scope

/-- `aadd` (R249). -/
def execAadd (g : Guard) (wd : BitVec 5) (a b : Opnd) (nr : Bool) (ord : BitVec 2) (cls : BitVec 4) (t : Fmt) (s : State) :
    Host.Outcome State Fault Refusal :=
  issue (.aadd g wd a b nr ord cls t) g (actAtomic 0 wd a b nr ord cls t) s
/-- `amin` (R249). -/
def execAmin (g : Guard) (wd : BitVec 5) (a b : Opnd) (nr : Bool) (ord : BitVec 2) (cls : BitVec 4) (t : Fmt) (s : State) :
    Host.Outcome State Fault Refusal :=
  issue (.amin g wd a b nr ord cls t) g (actAtomic 1 wd a b nr ord cls t) s
/-- `amax` (R249). -/
def execAmax (g : Guard) (wd : BitVec 5) (a b : Opnd) (nr : Bool) (ord : BitVec 2) (cls : BitVec 4) (t : Fmt) (s : State) :
    Host.Outcome State Fault Refusal :=
  issue (.amax g wd a b nr ord cls t) g (actAtomic 2 wd a b nr ord cls t) s
/-- `alog` (R249): LOP 0 and, 1 or, 2 xor. -/
def execAlog (g : Guard) (wd : BitVec 5) (a b : Opnd) (nr : Bool) (lop ord : BitVec 2) (cls : BitVec 4) (t : Fmt) (s : State) :
    Host.Outcome State Fault Refusal :=
  issue (.alog g wd a b nr lop ord cls t) g (actAtomic (3 + lop.toNat) wd a b nr ord cls t) s
/-- `aswp` (R249). -/
def execAswp (g : Guard) (wd : BitVec 5) (a b : Opnd) (nr : Bool) (ord : BitVec 2) (cls : BitVec 4) (t : Fmt) (s : State) :
    Host.Outcome State Fault Refusal :=
  issue (.aswp g wd a b nr ord cls t) g (actAtomic 6 wd a b nr ord cls t) s
/-- `acas` (R249): the compare value is w[WD] at issue. -/
def execAcas (g : Guard) (wd : BitVec 5) (a b : Opnd) (ord : BitVec 2) (cls : BitVec 4) (t : Fmt) (s : State) :
    Host.Outcome State Fault Refusal :=
  issue (.acas g wd a b ord cls t) g (actAtomic 7 wd a b false ord cls t) s
/-- `aincb` (R249, R251). -/
def execAincb (g : Guard) (wd : BitVec 5) (a b : Opnd) (nr : Bool) (ord : BitVec 2) (cls : BitVec 4) (t : Fmt) (s : State) :
    Host.Outcome State Fault Refusal :=
  issue (.aincb g wd a b nr ord cls t) g (actAtomic 8 wd a b nr ord cls t) s

/-! ### Routing counters (R253 to R256) -/

/-- A lane that counts nothing (R254). -/
def padLane : Nat := 0xFFFFFFFF

/-- The sixteen ids that the source of `rcnt` supplies (R254). -/
def readIds (b : Opnd) : Act (List Nat) :=
  match b with
  | .own _ => do
    let x ← readOp b
    return bitsAt x 0 32 :: bitsAt x 32 32 :: List.replicate 14 padLane
  | _ => do
    let v ← readRaw b
    return (List.range 16).map (fun j => lane v j 32)

/-- Count one id in a routing-counter store; counters saturate (R253, R254). -/
def countId (t : Tab Nat) (n : Nat) : Tab Nat := t.put n (Nat.min (t.look 0 n + 1) (2 ^ 32 - 1))

/-- `rcnt` (R254). -/
def execRcnt (g : Guard) (a b : Opnd) (s : State) : Host.Outcome State Fault Refusal :=
  issue (.rcnt g a b) g (do
    let base ← readOp a
    let ids ← readIds b
    let js := ids.filter (· != padLane)
    Act.check (js.all (fun x => decide (base + x < 1024))) 0x11 0
    Act.change (fun s =>
      let p := partOf s.cur.loc
      let k := s.quadAt p
      s.setQuad p { k with ctr := js.foldl (fun t x => countId t (base + x)) k.ctr })) s

/-- `asnap` (R255). -/
def execAsnap (g : Guard) (wd : BitVec 5) (a b : Opnd) (cls : BitVec 4) (s : State) : Host.Outcome State Fault Refusal :=
  issue (.asnap g wd a b cls) g (do
    let x ← readOp a
    let n ← readOp b
    Act.check (decide (x % 64 = 0) && decide (x + 64 ≤ Config.localBytes)) 0x11 x
    Act.check (decide (n < 64)) 0x11 0
    let s ← Act.view id
    let p := partOf s.cur.loc
    let vs := (List.range 16).map (fun j => (s.quadAt p).ctr.look 0 (16 * n + j))
    Act.change (fun s => s.setQuad p { s.quadAt p with ctr := (s.quadAt p).ctr.clear (16 * n) 16 })
    writeNear x (toBytes 64 (ofLanes 32 vs)) allBytes
    writeReg ⟨.w, wd.toNat⟩ (latency s.me 11) (BitVec.ofNat 512 vs.sum)) s

end Sys2Proof.Machine
end

