-- ==== Sys2Proof/Machine/Grids.lean ====
section
/-! DEFINITION. Grid objects and the halo engine (17_grids.md R261 to R278). -/

namespace Sys2Proof.Machine

/-! ### Declaring a grid (R262, R263, R266, R274) -/

/-- The field of axis d of a grid descriptor. -/
def GridDesc.axis (g : GridDesc) (d : Nat) : Nat := bitsAt g.toNat (384 + 64 * d) 64
/-- Whether an axis is periodic (R264). -/
def GridDesc.wraps (g : GridDesc) (d : Nat) : Bool := g.blo d == 1 && g.bhi d == 1

/-- The first check of R274, slot and SHBASE apart. (DEDUCED, assumption 48) -/
def GridDesc.fieldsOk (g : GridDesc) : Bool :=
  let x := g.toNat
  let axes := List.range 4
  bitsAt x 41 23 == 0 && bitsAt x 116 12 == 0 && bitsAt x 180 12 == 0 && bitsAt x 244 12 == 0 && bitsAt x 308 12 == 0 &&
  bitsAt x 352 32 == 0 && axes.all (fun d => bitsAt (g.axis d) 50 14 == 0) && bitsAt x 692 332 == 0 &&
  decide (g.fmtCode < 16) && g.fmtCode != 13 && g.fmtCode != 15 &&
  axes.all (fun d => decide (g.blo d < 6) && decide (g.bhi d < 6) && (g.blo d == 1) == (g.bhi d == 1) &&
    g.count d != 0 && g.size d != 0 && (decide (d ≤ g.ndim) || g.axis d == 1 + 2 ^ 24)) &&
  decide (g.parties ≤ 4096) && g.gbase % 64 == 0 && g.ptab % 2 == 0 && g.split % 4 == 0

/-- The last part of the first check of R274: where some face of the party has a neighbour, SHBASE is a place of send versions. -/
def GridDesc.shbaseOk (g : GridDesc) (self : Nat) : Bool :=
  (List.range 8).all (fun f => (g.neighbour self f).isNone) || (g.shbase != 0 && g.shbase % 64 == 0)

/-- Values of the split table before axis d. -/
def GridDesc.splitBefore (g : GridDesc) : Nat → Nat
  | 0 => 0
  | d + 1 => g.splitBefore d + g.count d + 1

/-- The first element of part j of axis d, or N when j is the number of parts (R14, R263): table is the split table. -/
def GridDesc.bound (g : GridDesc) (table d j : Nat) : Nat :=
  if g.split = 0 ∨ g.ndim < d then splitStart (g.size d) (g.count d) j else bitsAt table (32 * (g.splitBefore d + j)) 32

/-- The third check of R274: the split table rises from 0 to N, and no party's box is narrower than a ghost width. -/
def GridDesc.boundsOk (g : GridDesc) (table : Nat) : Bool :=
  (List.range 4).all (fun d =>
    g.bound table d 0 == 0 && g.bound table d (g.count d) == g.size d &&
    (List.range (g.count d)).all (fun j =>
      decide (g.bound table d j < g.bound table d (j + 1)) || g.split == 0 || decide (g.ndim < d)) &&
    (List.range (g.count d)).all (fun j =>
      let b := g.bound table d (j + 1) - g.bound table d j
      (g.hlo d == 0 || decide (g.hlo d ≤ b)) && (g.hhi d == 0 || decide (g.hhi d ≤ b))))

/-- Row-major strides in bytes of a slab: extents and the stride of each dimension up to NDIM, zero above it (R266). -/
def slabStride (ndim es : Nat) (ext : List Nat) (d : Nat) : Nat :=
  if ndim < d then 0 else es * slabCount ((List.range (ndim - d)).map (fun k => ext.getD (d + 1 + k) 1))

/-- The ghost map of a face (R266). -/
def ghostMap (g : Grid) (f : Nat) : MapEntry :=
  let x : GridDesc := g.desc
  let d := f / 2
  let w := x.width f
  let c := (x.coordOf g.self).getD d 0
  let ext := slabExtents g.box d w
  let lo := fun e => if e ≠ d then g.lo.getD e 0
    else if f % 2 = 0 then (if c = 0 then x.size d - w else g.lo.getD d 0 - w)
    else if c + 1 = x.count d then 0 else g.hi.getD d 0 + 1
  let hi := fun e => if e ≠ d then g.hi.getD e 0 else lo d + w - 1
  BitVec.ofNat 512 (packBits ([(0, 24, x.tname), (24, 4, x.pri), (31, 1, 1), (32, 5, x.fmtCode), (37, 2, x.ndim),
    (320, 52, x.gbase + x.foff g.box f)] ++
    (List.range 4).flatMap (fun e => [(64 + e / 2 * 64 + e % 2 * 24, 24, lo e), (192 + e / 2 * 64 + e % 2 * 24, 24, hi e),
      (384 + 32 * e, 32, slabStride x.ndim x.es ext e)])))

/-- The faces of a grid with a ghost map: they have cells and a neighbour (R14, R266). -/
def ghostFaces (g : Grid) : List Nat :=
  (List.range 8).filter (fun f => GridDesc.faceBytes g.desc g.box f != 0 && (GridDesc.neighbour g.desc g.self f).isSome)

/-- Check the ghost maps of a grid in face order, each against the maps before it (R221, R274). -/
def checkGhosts (s : State) (ep vd : Nat) : List MapEntry → List MapEntry → Option (Nat × Nat)
  | _, [] => none
  | before, m :: ms =>
    match mapCheck s ep vd 0 m none with
    | .error e => some e
    | .ok _ =>
      if before.any (fun b => boxesMeet b m) then some (0x51, 0) else checkGhosts s ep vd (before ++ [m]) ms

/-- Install ghost maps in face order, each into the lowest free slot (R274, R225). -/
def installGhosts (ep loc gs vd : Nat) : List (Nat × MapEntry) → State → State
  | [], s => s
  | (f, m) :: r, s =>
    match (s.epAt ep).maps.free (epSlots ep) with
    | none => installGhosts ep loc gs vd r s
    | some n =>
      let q := s.seqAt loc
      let s := match q.grids.find gs with
        | some g => s.setSeq loc { q with grids := q.grids.put gs { g with maps := g.maps.put f n } }
        | none => s
      installGhosts ep loc gs vd r (commitMap ep n ⟨m, vd, some (loc, gs, f)⟩ s)

/-- Whether n bytes from an address lie in the local-store window. -/
def inLocal (a n : Nat) : Bool := decide (a + n ≤ Config.localBytes)

/-- `gdecl` (R274). -/
def execGdecl (g : Guard) (d : BitVec 5) (gs : BitVec 2) (e : BitVec 5) (s : State) : Host.Outcome State Fault Refusal :=
  issue (.gdecl g d gs e) g (do
    let a ← readNat .e e.toNat
    Act.check (decide (a % 128 = 0) && inLocal a 128) 0x11 a
    let x : GridDesc := BitVec.ofNat 1024 (← readLocal a 128)
    let s ← Act.view id
    let loc := s.cur.loc
    let slot := gs.toNat
    let peek := (List.range x.parties).map (fun j => bitsAt (nearNat s loc x.ptab (2 * x.parties)) (16 * j) 15)
    Act.check (!s.me.grids.has slot && x.fieldsOk &&
      (!inLocal x.ptab (2 * x.parties) || !peek.contains (fullLoc s loc) || x.shbaseOk (peek.idxOf (fullLoc s loc)))) 0x01 0
    Act.check (inLocal x.ptab (2 * x.parties)) 0x11 x.ptab
    let n := 4 * x.splitBefore (x.ndim + 1)
    Act.check (x.split == 0 || inLocal x.split n) 0x11 x.split
    let table ← if x.split = 0 then pure 0 else readLocal x.split n
    Act.check (x.boundsOk table) 0x01 0
    let ptab ← readLocal x.ptab (2 * x.parties)
    let locs := (List.range x.parties).map (fun j => bitsAt ptab (16 * j) 15)
    Act.check (locs.count (fullLoc s loc) == 1) 0x01 0
    let self := locs.idxOf (fullLoc s loc)
    let c := x.coordOf self
    let grid : Grid :=
    { desc := x
      lo := (List.range 4).map (fun d => x.bound table d (c.getD d 0))
      hi := (List.range 4).map (fun d => x.bound table d (c.getD d 0 + 1) - 1)
      parties := locs, self := self, step := -1, tags := [], known := [], maps := [], copy := none }
    Act.check (inLocal x.ibase (slabCount grid.box * x.es)) 0x11 x.ibase
    Act.check (inLocal x.gbase ((x.depth + 1) * x.vsize grid.box)) 0x11 x.gbase
    Act.check (inLocal x.shbase ((x.depth + 2) * x.ssize grid.box)) 0x11 x.shbase
    let ep := coreOf loc
    let maps := (ghostFaces grid).map (fun f => (f, ghostMap grid f))
    match checkGhosts s ep s.myVd [] (maps.map (·.2)) with
    | some (k, i) => Act.trap k i
    | none =>
      if epSlots ep < (s.epAt ep).maps.length + maps.length then deliverNat (.gdecl g d gs e) 0
      else do
        Act.change (fun s =>
          { s.setMe { s.me with grids := s.me.grids.put slot grid } with
            gone := s.gone.filter (fun p => !(p.of s.myVd grid && p.self == self)) })
        Act.change (installGhosts ep loc slot s.myVd maps)
        deliverNat (.gdecl g d gs e) 1) s

/-- The grid of a slot, or trap 0x01. -/
def Act.grid (gs : Nat) : Act Grid := fun s =>
  match s.me.grids.find gs with
  | some g => .ok (g, s)
  | none => .error (.trap 0x01 0)

/-- `gdecl.r` (R275): the neighbours keep what they are to know of the party's commits. -/
def execGdeclR (g : Guard) (gs : BitVec 2) (s : State) : Host.Outcome State Fault Refusal :=
  issue (.gdeclR g gs) g (do
    let x ← Act.grid gs.toNat
    Act.await (fun s => !ghostPinned s s.cur.loc (some gs.toNat) && x.copy.isNone)
    Act.change (fun s =>
      let s := noteStep (dropGhosts s s.cur.loc (some gs.toNat)) s.myVd x
      s.setMe { s.me with grids := s.me.grids.drop gs.toNat })) s

/-! ### Committing (R268, R269, R276) -/

/-- The committed step of a neighbour as this party's engine knows it; its own when the neighbour is the party itself. -/
def Grid.knows (g : Grid) (party : Nat) : Int := if party = g.self then g.step else g.known.look (-1) party

/-- The address of the interior element at coordinates relative to the box (R265). -/
def Grid.interior (g : Grid) (c : List Nat) : Nat :=
  let b := g.box
  GridDesc.ibase g.desc + GridDesc.es g.desc *
    (((c.getD 0 0 * b.getD 1 1 + c.getD 1 0) * b.getD 2 1 + c.getD 2 0) * b.getD 3 1 + c.getD 3 0)

/-- The coordinates, relative to the box, of the interior elements that a send face carries, in order (R265, R268). -/
def sendCoords (g : Grid) (f : Nat) : List (List Nat) :=
  let x : GridDesc := g.desc
  let d := f / 2
  let ext := slabExtents g.box d (x.sendWidth f)
  (List.range (slabCount ext)).map (fun j =>
    let c := boxCoord ext j
    if f % 2 = 0 then c else c.set d (c.getD d 0 + (g.box.getD d 1 - x.sendWidth f)))

/-- The interior addresses behind a ghost face of a domain boundary, in the face's order, for rules 2 and 5 (Table 17.2). -/
def domainCoords (g : Grid) (f rule : Nat) : List (List Nat) :=
  let x : GridDesc := g.desc
  let d := f / 2
  let w := x.width f
  let ext := slabExtents g.box d w
  let b := g.box.getD d 1
  (List.range (slabCount ext)).map (fun j =>
    let c := boxCoord ext j
    let k := c.getD d 0
    let i := if f % 2 = 0 then w - 1 - k else k
    c.set d (if rule = 2 then (if f % 2 = 0 then i else b - 1 - i) else if f % 2 = 0 then 0 else b - 1))

/-- The faces that ship: they have a neighbour and elements to send (R14, R268). -/
def sendFaces (g : Grid) : List Nat :=
  (List.range 8).filter (fun f => GridDesc.sendBytes g.desc g.box f != 0 && (GridDesc.neighbour g.desc g.self f).isSome)

/-- The domain faces of a party that have a width (R268). -/
def domainFaces (g : Grid) : List Nat :=
  (List.range 8).filter (fun f => GridDesc.width g.desc f != 0 && (GridDesc.neighbour g.desc g.self f).isNone)

/-- The boundary rule of a face. -/
def GridDesc.rule (g : GridDesc) (f : Nat) : Nat := if f % 2 = 0 then g.blo (f / 2) else g.bhi (f / 2)

/-- Bytes of elements at local-store addresses. -/
def gatherBytes (s : State) (loc es : Nat) (as : List Nat) : List Byte := as.flatMap (fun a => nearBytes s loc a es)

/-- Where send face f of the send version of a step starts (R265). -/
def sendBase (g : Grid) (step f : Nat) : Nat :=
  let x : GridDesc := g.desc
  x.shbase + step % (x.depth + 2) * x.ssize g.box + x.sfoff g.box f

/-- Copy the boundary layers into the send version of a step (R268, second). -/
def copyBoundary (loc step : Nat) (g : Grid) (s : State) : State :=
  (sendFaces g).foldl (fun t f =>
    let b := gatherBytes s loc (GridDesc.es g.desc) ((sendCoords g f).map g.interior)
    nearWriteAll t loc (sendBase g step f) b) s
where
  /-- Write all of a byte list. -/
  nearWriteAll (s : State) (loc a : Nat) (b : List Byte) : State :=
    let pa := nearPhys s loc a
    clearMarks (s.setMem (s.mem.storeAll pa b)) ((List.range b.length).map (pa + ·))

/-- The transfer descriptor of a shipment across a face (R268). -/
def shipmentDesc (g : Grid) (f dest : Nat) : TransferDesc :=
  let x : GridDesc := g.desc
  let d := f / 2
  let w := x.sendWidth f
  let ext := slabExtents g.box d w
  let org := fun e => if e = d ∧ f % 2 = 1 then g.hi.getD d 0 + 1 - w else g.lo.getD e 0
  BitVec.ofNat 512 (packBits ([(0, 24, x.tname), (24, 5, x.fmtCode), (29, 2, x.ndim), (32, 15, dest / 2 * 2),
    (352, 16, g.self)] ++
    (List.range 4).flatMap (fun e => [(64 + e / 2 * 64 + e % 2 * 24, 24, org e),
      (192 + e / 2 * 64 + e % 2 * 24, 24, ext.getD e 1), (384 + 32 * e, 32, slabStride x.ndim x.es ext e)])))

/-- Start the shipments of a step in face order (R268, third). -/
def startShipments (loc gs step i scope : Nat) (g : Grid) : List Nat → State → State
  | [], s => s
  | f :: fs, s =>
    match (s.seqAt loc).ifr.free Config.ifrEntries, GridDesc.neighbour g.desc g.self f with
    | some k, some p =>
      let t := shipmentDesc g f (g.parties.getD p 0)
      let e : Ifr :=
      { Ifr.blank with
        kind := 10, scope := scope, target := gs + 4 * f, len := step, total := t.beatCount
        desc := t.setWidth 1024 ||| BitVec.ofNat 1024 (sendBase g step f * 2 ^ 512) }
      startShipments loc gs step i scope g fs
        (perf (openTransfer s loc k (GridDesc.hch g.desc) .Y i e) loc 5 1)
    | _, _ => startShipments loc gs step i scope g fs s

/-- The bytes that the rule of a domain face writes; none for rule 0 (R269). -/
def domainBytes (s : State) (loc : Nat) (g : Grid) (f : Nat) : Option (List Byte) :=
  let x : GridDesc := g.desc
  let n := slabCount (slabExtents g.box (f / 2) (x.width f))
  match x.rule f with
  | 0 => none
  | 3 => some (List.replicate (n * x.es) 0)
  | 4 => some ((List.range n).flatMap (fun _ => toBytes x.es x.const))
  | r => some (gatherBytes s loc x.es ((domainCoords g f r).map g.interior))

/-- Fill the domain faces of a step and set their tags (R268, fourth, R269). -/
def fillDomain (loc gs step : Nat) (g : Grid) : List Nat → State → State
  | [], s => s
  | f :: fs, s =>
    let x : GridDesc := g.desc
    let v := step % (x.depth + 1)
    let t := match domainBytes s loc g f with
      | none => s
      | some b => copyBoundary.nearWriteAll s loc (x.gbase + v * x.vsize g.box + x.foff g.box f) b
    let q := t.seqAt loc
    let t := match q.grids.find gs with
      | some h => t.setSeq loc { q with grids := q.grids.put gs { h with tags := h.tags.put (8 * v + f) ⟨step, true⟩ } }
      | none => t
    fillDomain loc gs step g fs t

/-- The engine's part of a commit that is still to come: it copies the boundary layers and fills the domain faces (R268, second and
fourth). -/
def finishCommit (loc gs : Nat) (s : State) : State :=
  let q := s.seqAt loc
  match q.grids.find gs with
  | none => s
  | some g =>
    if g.copy.isNone then s
    else
      let s := s.setSeq loc { q with grids := q.grids.put gs { g with copy := none } }
      fillDomain loc gs g.step.toNat g (domainFaces g) (copyBoundary loc g.step.toNat g s)

/-- Commit a step (R268): the parked shipments are looked at again, since the party's step has moved (R225, R267). The engine copies the
boundary layers before it sends any of them, at the latest when it reads the first beat; with nothing to ship it is done at once.
(DEDUCED, assumption 65) -/
def commitStep (loc gs step i scope : Nat) (g : Grid) (s : State) : State :=
  let q := s.seqAt loc
  let s := s.setSeq loc { q with grids := q.grids.put gs { g with step := step, copy := some (eraOf q, i) } }
  let s := startShipments loc gs step i scope g (sendFaces g) s
  reexamineAll (if (sendFaces g).isEmpty then finishCommit loc gs s else s) (coreOf loc)

/-- TRANSFER_SOURCE_READ: the next beat of a transfer is read at its source and sent; a shipment's boundary layers are copied before
(R217, R238, R268). -/
def execTransferSourceRead (loc entry : Nat) (s : State) : Host.Outcome State Fault Refusal :=
  match (s.seqAt loc).ifr.find entry with
  | none => .next s
  | some e => .next (sourceRead loc entry (if e.kind = 10 then finishCommit loc (e.target % 4) s else s))

/-- The interior addresses that a commit reads. -/
def commitReads (g : Grid) : List Nat :=
  (sendFaces g).flatMap (fun f => (sendCoords g f).map g.interior) ++
  (domainFaces g).flatMap (fun f => if GridDesc.rule g.desc f = 2 ∨ GridDesc.rule g.desc f = 5 then
    (domainCoords g f (GridDesc.rule g.desc f)).map g.interior else [])

/-- `gstep` (R276). -/
def execGstep (g : Guard) (gs : BitVec 2) (a : BitVec 5) (s : State) : Host.Outcome State Fault Refusal :=
  issue (.gstep g gs a) (begunGuard (waitBegun s) g) (do
    let x ← latched (readNat .y a.toNat)
    let h ← Act.grid gs.toNat
    let step := bitsAt x 0 31
    let d : Nat := GridDesc.depth h.desc
    Act.check (!x.testBit 31 && decide ((step : Int) = h.step + 1)) 0x41 0
    awaitLatched x (fun s => (GridDesc.neighbours h.desc h.self).all (fun n => decide ((step : Int) - 1 - d ≤ h.knows n)) &&
      !s.me.ifr.any (fun e => e.2.kind == 10 && !e.2.halted && e.2.target % 4 == gs.toNat && e.2.len + d + 2 == step) &&
      h.copy.isNone && decide (s.me.ifr.length + (sendFaces h).length ≤ Config.ifrEntries))
    let s ← Act.view id
    match errorMark s ((commitReads h).flatMap (fun p => (List.range (GridDesc.es h.desc)).map (fun j =>
        nearPhys s s.cur.loc (p + j)))) with
    | some p => Act.trap 0x70 p
    | none => Act.change (fun s => commitStep s.cur.loc gs.toNat step s.here (s.scope 0) h (s.setMe { s.me with latch := none }))) s

/-! ### Ghost loads (R270, R271, R277) -/

/-- The face that holds n bytes from an offset (R270). -/
def faceOf (g : Grid) (off n : Nat) : Option Nat :=
  let x : GridDesc := g.desc
  (List.range 8).find? (fun f => decide (x.foff g.box f ≤ off) && decide (off + n ≤ x.foff g.box f + x.faceBytes g.box f))

/-- TAG and FULL of a face of a version. -/
def Grid.tag (g : Grid) (v f : Nat) : FaceTag := g.tags.look ⟨-1, false⟩ (8 * v + f)

/-- A ghost load stalls; its count runs from its first stall (R271). -/
def ghostStall (gs v f step : Nat) : Act Nat := fun s =>
  match s.me.halo with
  | some h =>
    if h.grid = gs ∧ h.ver = v ∧ h.face = f ∧ h.step = step then .error .stall
    else .error (.stallWith (s.setMe { s.me with halo := some ⟨s.now, gs, v, f, step⟩ }))
  | none => .error (.stallWith (s.setMe { s.me with halo := some ⟨s.now, gs, v, f, step⟩ }))

/-- A ghost load of n bytes (R270): the bits read. -/
def ghostRead (gs : Nat) (a b : Opnd) (n : Nat) (aligned : Bool) : Act Nat := do
  let off ← readOp a
  let step := bitsAt (← readOp b) 0 31
  let g ← Act.grid gs
  let x : GridDesc := g.desc
  let v := step % (x.depth + 1)
  match faceOf g off n with
  | none => Act.trap 0x11 off
  | some f => do
    Act.check (!aligned || decide (off % n = 0)) 0x11 off
    let t := g.tag v f
    if (step : Int) < t.tag then Act.trap 0x30 step
    else if t.tag = step ∧ t.full then do
      Act.change (fun s => s.setMe { s.me with halo := none })
      readLocal (x.gbase + v * x.vsize g.box + off) n
    else ghostStall gs v f step

/-- `ldg` (R277). -/
def execLdg (g : Guard) (dst : Dest) (a b : Opnd) (gs : BitVec 2) (t : Fmt) (s : State) : Host.Outcome State Fault Refusal :=
  issue (.ldg g dst a b gs t) g (do
    let n := t.width / 8
    let x ← ghostRead gs.toNat a b n true
    deliver (.ldg g dst a b gs t) (BitVec.ofNat 512 (loadValue t.code n x))) s

/-- `vldg` (R277). -/
def execVldg (g : Guard) (dst : Dest) (a b : Opnd) (gs : BitVec 2) (s : State) : Host.Outcome State Fault Refusal :=
  issue (.vldg g dst a b gs) g (do
    let x ← ghostRead gs.toNat a b 64 false
    deliver (.vldg g dst a b gs) (BitVec.ofNat 512 x)) s

/-- HALO_TIMEOUT: a ghost load that has stalled for GRID.TIMEOUT raises trap 0x31 in L (R271); a limit of 0 never ends. -/
def execHaloTimeout (loc : Nat) (s : State) : Host.Outcome State Fault Refusal :=
  let q := s.seqAt loc
  match q.halo with
  | none => .next s
  | some h =>
    let limit := (srAt q 8 (stepOf q .L) q.gridTime).toNat
    let arrived := match q.grids.find h.grid with
      | some g => decide ((h.step : Int) < (g.tag h.ver h.face).tag) || ((g.tag h.ver h.face).tag == h.step &&
          (g.tag h.ver h.face).full)
      | none => true
    if q.status ≠ 1 ∨ limit = 0 ∨ s.now < h.since + limit ∨ arrived = true then .next s
    else .next (takeTrap s loc Slot.L.num (stepOf q .L) 0x31 h.step 0)

/-! ### gq and notices (R268, R278) -/

/-- A step as 32-bit two's complement. -/
def stepWord (n : Int) : Nat := wrap 32 n

/-- The value that `gq` writes (Table 17.5). -/
def gridQuery (g : Grid) (n : Nat) : Nat :=
  let x : GridDesc := g.desc
  if n = 0 then stepWord g.step
  else if n = 1 then
    match (x.neighbours g.self).map g.knows with
    | [] => stepWord g.step
    | k :: ks => stepWord (ks.foldl min k)
  else if n = 2 then g.self + x.parties * 2 ^ 16
  else if n ≤ 6 then g.lo.getD (n - 3) 0 + g.hi.getD (n - 3) 0 * 2 ^ 24
  else if n = 7 then x.vsize g.box
  else if n ≤ 15 then x.foff g.box (n - 8)
  else stepWord (((List.range (x.depth + 1)).map (fun v =>
    if (g.tag v (n - 16)).full then (g.tag v (n - 16)).tag else -1)).foldl max (-1))

/-- `gq` (R278). -/
def execGq (g : Guard) (d : BitVec 5) (gs : BitVec 2) (which : BitVec 5) (s : State) : Host.Outcome State Fault Refusal :=
  issue (.gq g d gs which) g (do
    let h ← Act.grid gs.toNat
    deliverNat (.gq g d gs which) (gridQuery h which.toNat)) s

/-- The committed step of a party of this module's grid as it stands, or as it was when the party left: −1 for one that has not
declared it (R268). -/
def partyStep (s : State) (vd : Nat) (g : Grid) (party : Nat) : Int :=
  let q := s.seqAt (g.parties.getD party 0 % 512)
  match (if q.task.vd = vd then q.grids.find? (fun h => GridDesc.tname h.2.desc == GridDesc.tname g.desc && h.2.parties == g.parties &&
      h.2.self == party) else none) with
  | some h => h.2.step
  | none => ((s.gone.find? (fun x => x.of vd g && x.self == party)).map (·.step)).getD (-1)

/-- NEIGHBOUR_COMMIT_NOTICE: a party's engine learns what a neighbour has committed (R268): in this module, its step as it
stands; of a party of another module each notice tells one commit. -/
def execNeighbourCommitNotice (loc grid party : Nat) (s : State) : Host.Outcome State Fault Refusal :=
  let q := s.seqAt loc
  match q.grids.find grid with
  | none => .next s
  | some g =>
    if !(GridDesc.neighbours g.desc g.self).contains party then .next s
    else
      let old := g.known.look (-1) party
      let now := if g.parties.getD party 0 / 512 = s.module then max old (partyStep s q.task.vd g party) else old + 1
      .next (s.setSeq loc { q with grids := q.grids.put grid { g with known := g.known.put party now }, stalled := 0 })

end Sys2Proof.Machine
end

