-- ==== Sys2Proof/Machine/Launches.lean ====
section
/-! DEFINITION. Launch packets, distribution, the loader and records to the host (20_progress.md R297 to R302, 02_machine.md R20,
R37, R392, 26_outside.md R377, 22_isolation.md R329). -/

namespace Sys2Proof.Machine

/-! ### Launch packets (Table 20.1) -/

/-- A launch packet. -/
abbrev LaunchPacket := BitVec 1024

/-- VD. -/
def LaunchPacket.vd (p : LaunchPacket) : Nat := bitsAt p.toNat 16 16
/-- SEQSEL. -/
def LaunchPacket.seqsel (p : LaunchPacket) : Nat := bitsAt p.toNat 12 2
/-- PRI. -/
def LaunchPacket.pri (p : LaunchPacket) : Nat := bitsAt p.toNat 8 3
/-- BCO. -/
def LaunchPacket.bco (p : LaunchPacket) : Nat := bitsAt p.toNat 64 52
/-- T. -/
def LaunchPacket.count (p : LaunchPacket) : Nat := bitsAt p.toNat 128 32
/-- TPS. -/
def LaunchPacket.tps (p : LaunchPacket) : Nat := bitsAt p.toNat 160 16
/-- BS. -/
def LaunchPacket.bs (p : LaunchPacket) : Nat := bitsAt p.toNat 176 16
/-- QFIRST. -/
def LaunchPacket.qfirst (p : LaunchPacket) : Nat := bitsAt p.toNat 192 32
/-- QCOUNT. -/
def LaunchPacket.qcount (p : LaunchPacket) : Nat := bitsAt p.toNat 224 32
/-- WEIGHT. -/
def LaunchPacket.weight (p : LaunchPacket) : Nat := bitsAt p.toNat 256 64
/-- ARGADDR. -/
def LaunchPacket.argaddr (p : LaunchPacket) : Nat := bitsAt p.toNat 320 52
/-- ARGSTRIDE. -/
def LaunchPacket.argstride (p : LaunchPacket) : Nat := bitsAt p.toNat 384 32
/-- ARGLEN. -/
def LaunchPacket.arglen (p : LaunchPacket) : Nat := bitsAt p.toNat 416 16
/-- ARGLS. -/
def LaunchPacket.argls (p : LaunchPacket) : Nat := bitsAt p.toNat 448 52
/-- DESCADDR. -/
def LaunchPacket.descaddr (p : LaunchPacket) : Nat := bitsAt p.toNat 512 52
/-- DESCLEN. -/
def LaunchPacket.desclen (p : LaunchPacket) : Nat := bitsAt p.toNat 576 32
/-- DESCLS. -/
def LaunchPacket.descls (p : LaunchPacket) : Nat := bitsAt p.toNat 640 52
/-- AFTER. -/
def LaunchPacket.after (p : LaunchPacket) : Nat := bitsAt p.toNat 704 32
/-- AFTERV. -/
def LaunchPacket.afterv (p : LaunchPacket) : Bool := p.getLsbD 736
/-- CODE. -/
def LaunchPacket.code (p : LaunchPacket) : Nat := bitsAt p.toNat 768 32
/-- Bytes of one sequencer's argument area (R300). -/
def LaunchPacket.argArea (p : LaunchPacket) : Nat := 64 * ceilDiv p.arglen 64

/-- Check 2 of Table 20.2 for a packet that would take a launch sequence number. -/
def LaunchPacket.fieldsOk (p : LaunchPacket) (lseq : Nat) : Bool :=
  let x := p.toNat
  bitsAt x 0 8 == 1 && bitsAt x 11 1 == 0 && bitsAt x 14 2 == 0 && bitsAt x 32 32 == 0 && bitsAt x 116 12 == 0 &&
  bitsAt x 372 12 == 0 && bitsAt x 432 16 == 0 && bitsAt x 500 12 == 0 && bitsAt x 564 12 == 0 && bitsAt x 608 32 == 0 &&
  bitsAt x 692 12 == 0 && bitsAt x 737 31 == 0 && bitsAt x 800 224 == 0 &&
  p.seqsel != 3 && p.bs != 0 && p.tps != 0 && p.count != 0 && decide (p.count < 2 ^ 31) && p.qcount != 0 &&
  decide (p.arglen ≤ 4096) && p.arglen % 8 == 0 && decide (p.desclen ≤ 65536) && p.desclen % 64 == 0 &&
  p.argls % 64 == 0 && p.descls % 64 == 0 && p.bco % 64 == 0 &&
  (!p.afterv || (decide (0 < (lseq + 2 ^ 32 - p.after) % 2 ^ 32) && decide ((lseq + 2 ^ 32 - p.after) % 2 ^ 32 < 2 ^ 31)))

/-! ### Reading through a virtual device (R298, R392) -/

/-- Whether every byte from an address is a readable device-memory byte of a device (check 6). -/
def readable (s : State) (vd va n : Nat) : Bool :=
  n == 0 || (decide (2 ^ 32 ≤ va) && decide (va + n ≤ 2 ^ 52) &&
    (List.range ((va + n - 1) / 4096 + 1 - va / 4096)).all (fun j =>
      match translate s vd (Nat.max va ((va / 4096 + j) * 4096)) false with | .ok _ => true | _ => false))

/-- A byte as a device sees it; zero where it does not translate. -/
def deviceByte (s : State) (vd va : Nat) : Byte :=
  match translate s vd va false with | .ok pa => walkByte s pa | _ => 0

/-- The n bytes at a device virtual address as a number. -/
def deviceNat (s : State) (vd va n : Nat) : Nat := ofBytes ((List.range n).map (fun j => deviceByte s vd (va + j)))

/-! ### Code objects (R392, R37) -/

/-- The header of a code object with its tables: header bits, data sections, save sets, safe points as the table dwords. -/
structure CodeObject where
  hdr   : Nat
  datas : List Nat
  saves : List Nat
  safes : List Nat
  deriving DecidableEq, Repr

/-- LENGTH. -/
def CodeObject.length (c : CodeObject) : Nat := bitsAt c.hdr 32 32
/-- Entry n of the latency block. -/
def CodeObject.lat (c : CodeObject) (n : Nat) : Nat := bitsAt c.hdr (1024 + 16 * n) 16

/-- Read a code object through a device; tables beyond the object are not read. -/
def readCode (s : State) (vd bco : Nat) : CodeObject :=
  let h := deviceNat s vd bco 256
  let len := bitsAt h 32 32
  let table := fun off n w => if off + n * w ≤ len then
      (List.range n).map (fun j => deviceNat s vd (bco + off + j * w) w) else []
  ⟨h, table (bitsAt h 512 32) (bitsAt h 544 32) 24, table (bitsAt h 576 32) (bitsAt h 608 32) 16,
    table (bitsAt h 448 32) (bitsAt h 416 32) 8⟩

/-- Local-store address, byte count and offset of a data-section entry. -/
def dataOf (d : Nat) : Nat × Nat × Nat := (bitsAt d 0 52, bitsAt d 64 32, bitsAt d 128 32)
/-- First byte and the byte after the last of a save-set entry. -/
def saveOf (d : Nat) : Nat × Nat := (bitsAt d 0 52, bitsAt d 64 52)

/-- The checks of R392 and R37 on a code object. A table of no entries, or a data section of no bytes, is checked by its offset all the
same: one that stands beyond LENGTH is refused. (DESIGN CHOICE, assumption 64) -/
def CodeObject.ok (c : CodeObject) : Bool :=
  let h := c.hdr
  let len := c.length
  let codeOff := bitsAt h 64 32
  let codeLen := bitsAt h 96 32
  let entry := bitsAt h 128 32
  bitsAt h 0 16 == 1 && bitsAt h 16 16 == 0 && bitsAt h 160 32 == 0 && bitsAt h 230 26 == 0 && bitsAt h 480 32 == 0 &&
  bitsAt h 640 384 == 0 && bitsAt h 1536 512 == 0 && decide (256 ≤ len) &&
  codeOff % 64 == 0 && codeLen % 64 == 0 && entry % 64 == 0 && codeLen != 0 && decide (entry < codeLen) &&
  bitsAt h 448 32 % 8 == 0 && bitsAt h 512 32 % 8 == 0 && bitsAt h 576 32 % 8 == 0 &&
  decide (codeOff + codeLen ≤ len) && decide (bitsAt h 448 32 + 8 * bitsAt h 416 32 ≤ len) &&
  decide (bitsAt h 512 32 + 24 * bitsAt h 544 32 ≤ len) && decide (bitsAt h 576 32 + 16 * bitsAt h 608 32 ≤ len) &&
  decide (bitsAt h 192 10 ≤ Config.vFile) && decide (bitsAt h 202 10 ≤ Config.vFile) && decide (bitsAt h 212 6 ≤ 32) &&
  decide (bitsAt h 218 6 ≤ Config.tFile) && decide (bitsAt h 224 6 ≤ 32) &&
  (List.range 32).all (fun n => decide (bitsAt h (256 + 4 * n) 4 ≤ 4)) &&
  c.datas.all (fun d => bitsAt d 52 12 == 0 && bitsAt d 96 32 == 0 && bitsAt d 160 32 == 0 &&
    decide ((dataOf d).2.2 + (dataOf d).2.1 ≤ len) && decide ((dataOf d).1 + (dataOf d).2.1 ≤ Config.localBytes)) &&
  c.saves.all (fun d => bitsAt d 52 12 == 0 && bitsAt d 116 12 == 0 && decide ((saveOf d).1 ≤ (saveOf d).2) &&
    decide ((saveOf d).2 ≤ Config.localBytes)) &&
  c.safes.all (fun d => bitsAt d 52 12 == 0 && d % 64 == 0 && decide (d < codeLen)) &&
  (List.range 32).all (fun n => if 19 ≤ n then c.lat n == 0 else decide (c.lat n ≤ 4095))

/-- The task that a code object describes, without a number of its own; one without safe points claims no bound (R38). -/
def CodeObject.task (c : CodeObject) (vd lseq bco : Nat) : Task :=
  let h := c.hdr
  { vd := vd, lseq := lseq, num := 0, bco := bco, codeOff := bitsAt h 64 32, codeLen := bitsAt h 96 32,
    entry := bitsAt h 128 32, lat := (List.range 32).map c.lat, winV0 := bitsAt h 192 10, winV1 := bitsAt h 202 10,
    winT := bitsAt h 218 6, winAcc := bitsAt h 212 6, winLar := bitsAt h 224 6,
    depths := (List.range 32).map (fun n => bitsAt h (256 + 4 * n) 4), spdist := if bitsAt h 416 32 = 0 then 2 ^ 32 - 1 else bitsAt h 384 32, saves := c.saves.map saveOf }

/-- Whether the windows of two tasks fit beside each other in one core (R20). -/
def windowsFit (a b : Task) : Bool :=
  decide (a.winV0 + b.winV0 ≤ Config.vFile) && decide (a.winV1 + b.winV1 ≤ Config.vFile) && decide (a.winT + b.winT ≤ Config.tFile) &&
  decide (a.winAcc + b.winAcc ≤ 32) && decide (a.winLar + b.winLar ≤ 32)

/-! ### Distribution (R299) -/

/-- The partitions of a launch by pod number, in the device's numbering (R297). -/
def launchParts (v : Vd) (p : LaunchPacket) : List Nat := (v.parts.drop p.qfirst).take p.qcount

/-- The sequencers that SEQSEL allows of a partition, by pod location. -/
def seqsOf (sel part : Nat) : List Nat := (List.range 8).filterMap (fun k =>
  if sel = 0 ∨ k % 2 + 1 = sel then some (8 * part + k) else none)

/-- The launch dies in location order, by pod number. -/
def launchDies (v : Vd) (p : LaunchPacket) : List Nat := ((launchParts v p).map (· / 8)).eraseDups

/-- The eligible sequencers of a die, in location order. -/
def eligible (v : Vd) (p : LaunchPacket) (die : Nat) : List Nat :=
  ((launchParts v p).filter (fun x => x / 8 == die)).flatMap (seqsOf p.seqsel)

/-- The weight of position n. -/
def weightOf (p : LaunchPacket) (n : Nat) : Nat := if p.weight = 0 then 1 else bitsAt p.weight (4 * (n % 16)) 4

/-- One position's turn in a round: at most BS tasks as often as its weight; the tasks go behind those it has. -/
def dealPosition (bs total cap : Nat) : Nat → Nat → List Nat → Nat × List Nat
  | 0, task, got => (task, got)
  | w + 1, task, got =>
    let n := Nat.min bs (Nat.min (total - task) (cap - got.length))
    dealPosition bs total cap w (task + n) (got ++ (List.range n).map (task + ·))

/-- One round over the positions, each with weight, capacity and what it has. -/
def dealRound (bs total : Nat) : Nat → List (Nat × Nat × List Nat) → Nat × List (Nat × Nat × List Nat)
  | task, [] => (task, [])
  | task, (w, cap, got) :: r =>
    let (t, g) := dealPosition bs total cap w task got
    let (t', r') := dealRound bs total t r
    (t', (w, cap, g) :: r')

/-- Rounds until every task is dealt; each deals at least one while capacity is left. -/
def dealAll (bs total : Nat) : Nat → Nat → List (Nat × Nat × List Nat) → List (Nat × Nat × List Nat)
  | 0, _, ps => ps
  | fuel + 1, task, ps =>
    if total ≤ task then ps
    else
      let (t, ps') := dealRound bs total task ps
      dealAll bs total fuel t ps'

/-- The positions of a launch before the deal: weight, capacity, nothing. -/
def positions (v : Vd) (p : LaunchPacket) : List (Nat × Nat × List Nat) :=
  let ds := launchDies v p
  (List.range ds.length).map (fun n =>
    let w := weightOf p n
    (w, if w = 0 then 0 else (eligible v p (ds.getD n 0)).length * p.tps, []))

/-- The tasks of each location of a die of this module, by local location, given those dealt to its position. -/
def spreadTasks (seqs got : List Nat) : Tab (List Nat) :=
  ((List.range got.length).zip got).foldl (fun t e =>
    let loc := seqs.getD (e.1 % seqs.length) 0 % 512
    t.put loc (t.look [] loc ++ [e.2])) []

/-! ### Taking a packet (R297, R298, R301) -/

/-- The failing check of a packet (Table 20.2), in the table's order; 0 for one that passes. -/
def launchCheck (s : State) (p : LaunchPacket) : Nat :=
  let v := s.vdAt p.vd
  let len := bitsAt (deviceNat s p.vd p.bco 8) 32 32
  let c := readCode s p.vd p.bco
  let t := c.task p.vd 0 p.bco
  if !p.fieldsOk s.lseq then 2
  else if !s.vds.has p.vd || decide (v.parts.length < p.qfirst + p.qcount) then 5
  else if !readable s p.vd p.bco 256 || !readable s p.vd p.bco (Nat.max 256 len) ||
      !(List.range (if p.arglen = 0 then 0 else p.count)).all (fun k => readable s p.vd (p.argaddr + k * p.argstride) p.arglen) ||
      !readable s p.vd p.descaddr p.desclen then 6
  else if !c.ok || (p.seqsel == 0 && !windowsFit t t) || decide (Config.localBytes < p.argls + 2 * p.argArea) ||
      decide (Config.localBytes < p.descls + p.desclen) then 3
  else if ((positions v p).map (·.2.1)).sum < p.count then 4
  else 0

/-- Launches of a device and priority in a die's queue: those with a task not yet started (R301). -/
def queueLength (s : State) (d vd pri : Nat) : Nat :=
  ((s.dieAt d).launches.filter (fun l => LaunchPacket.vd l.pkt == vd && LaunchPacket.pri l.pkt == pri &&
    l.todo.any (fun e => !e.2.isEmpty))).length

/-- The dies of this module that take part in a launch, with their positions. -/
def ownDies (s : State) (p : LaunchPacket) : List (Nat × Nat) :=
  let ds := launchDies (s.vdAt p.vd) p
  ((List.range ds.length).zip ds).filterMap (fun e => if e.2 / 8 = s.module then some (e.1, e.2 % 8) else none)

/-- Put an accepted launch on its dies (R299 to R302). -/
def placeLaunch (s : State) (p : LaunchPacket) : State :=
  let v := s.vdAt p.vd
  let c := readCode s p.vd p.bco
  let dealt := dealAll p.bs p.count p.count 0 (positions v p)
  (ownDies s p).foldl (fun t e =>
    let seqs := eligible v p (8 * s.module + e.2)
    let got := (dealt.getD e.1 (0, 0, [])).2.2
    let k := t.dieAt e.2
    let l : Launch :=
    { pkt := p, lseq := s.lseq, code := c.task p.vd s.lseq p.bco, datas := c.datas.map dataOf
      elig := seqs.map (· % 512), todo := spreadTasks seqs got, share := got.length, halted := 0, spawned := [] }
    completeLaunches e.2 (k.launches.length + 2) (t.setDie e.2 { k with launches := k.launches ++ [l] })) s

/-- The cores of this module in the place of a barrier. -/
def barrierCores (key : Nat) : List Nat :=
  let place := key / 16 % 2 ^ 15
  match key / 2 ^ 19 with
  | 1 => [place / 2 % 256]
  | 2 => [place % 256]
  | 3 => (List.range 4).map (fun j => place % 64 * 4 + j)
  | 4 => (List.range 32).map (fun j => place % 8 * 32 + j)
  | _ => List.range 256

/-- Whether a broadcast has reached some of its cores and not others (R200). -/
def Cast.halfway : Cast → Bool
  | .flip _ key _ cores => cores != barrierCores key
  | .launch _ _ => false

/-- Take a store to the launch window (R297, R298): numbered, checked and distributed, or discarded with an event; none while it is
refused: before bring-up is done (R384), while a queue is full (R301), and while a broadcast that comes before it in bo has reached only
some of its cores (R200). (DEDUCED, assumption 38) -/
def takeLaunch (offset : Nat) (data : List Byte) (s : State) : Option State :=
  if !s.ready then none
  else if offset ≠ 0 ∨ data.length ≠ 128 then some (postEvent s 0 0 (fullLoc s 0) 3 s.lseq 1 0)
  else
    let p : LaunchPacket := BitVec.ofNat 1024 (ofBytes data)
    let code := launchCheck s p
    let next := (s.lseq + 1) % 2 ^ 32
    if code ≠ 0 then
      let vd := if code = 5 ∧ !s.vds.has p.vd then 0 else p.vd
      some { postEvent s 0 vd (fullLoc s 0) 3 s.lseq code 0 with lseq := next }
    else if s.casts.any Cast.halfway ||
        (ownDies s p).any (fun e => decide (Config.queueLaunches ≤ queueLength s e.2 p.vd p.pri)) then none
    else some { placeLaunch s p with lseq := next }

/-- Offer the stores that recirculate to the launch window once more, in their order (R301, R379). -/
def offerLaunches (s : State) : State :=
  s.casts.foldl (fun t c => match c with
    | .launch o d => (match takeLaunch o d t with
      | some u => { u with casts := u.casts.erase c }
      | none => t)
    | .flip _ _ _ _ => t) s

/-- LAUNCH_PACKET: a store to the launch window, behind those that recirculate (R297, R298, R379). -/
def execLaunchPacket (offset : Nat) (data : List Byte) (s : State) : Host.Outcome State Fault Refusal :=
  .next (offerLaunches { s with casts := s.casts ++ [.launch offset data] })

/-! ### The loader (R300) -/

/-- The launch of a sequencer's task on its die. -/
def launchOf (s : State) (loc : Nat) : Option Launch :=
  (s.dieAt (dieOf loc)).launches.find? (fun l => l.lseq == (s.seqAt loc).task.lseq)

/-- The copies that the loader makes for a location's task: local-store address, device address, bytes; the once-per-core ones
where the core has not been prepared for the launch. -/
def loaderCopies (s : State) (loc : Nat) (args : Bool) : List (Nat × Nat × Nat) :=
  match launchOf s loc with
  | none => []
  | some l =>
    let p : LaunchPacket := l.pkt
    let q := s.seqAt loc
    let once := if (s.coreAt (coreOf loc)).placed.contains l.lseq then [] else
      l.datas.map (fun d => (d.1, p.bco + d.2.2, d.2.1)) ++ [(p.descls, p.descaddr, p.desclen)]
    let mine := if args then
      [(p.argls + (if loc % 2 = 0 then 0 else p.argArea), p.argaddr + q.task.num * p.argstride, p.arglen)] else []
    once ++ mine

/-- The first byte of a copy whose page is neither readable nor filled with zero. -/
def copyFault (s : State) (vd va n : Nat) (zero : List Nat) : Option Nat :=
  if n = 0 then none
  else ((List.range ((va + n - 1) / 4096 + 1 - va / 4096)).map (fun j => Nat.max va ((va / 4096 + j) * 4096))).find? (fun a =>
    !zero.contains (a / 4096) && (match translate s vd a false with | .ok _ => false | _ => true))

/-- Make one copy; the bytes of the pages that Skip has filled are zero (R300). -/
def makeCopy (loc vd : Nat) (zero : List Nat) (s : State) (c : Nat × Nat × Nat) : State :=
  let b := (List.range c.2.2).map (fun j => if zero.contains ((c.2.1 + j) / 4096) then 0 else deviceByte s vd (c.2.1 + j))
  let a := localPhys s (coreOf loc) c.1
  clearMarks (s.setMem (s.mem.storeAll a b)) ((List.range c.2.2).map (a + ·))

/-- Run the loader for a task that has been given to a sequencer: it starts, or it is frozen with trap 0x10 (R300).
(DEDUCED, assumption 44) -/
def runLoader (s : State) (loc : Nat) (args : Bool) (zero : List Nat) : State :=
  let vd := (s.seqAt loc).task.vd
  let cs := loaderCopies s loc args
  match (cs.filterMap (fun c => copyFault s vd c.2.1 c.2.2 zero)).head? with
  | some va =>
    let s := s.setSeq loc { s.seqAt loc with load := some ⟨args, zero⟩ }
    takeTrap s loc 15 0 0x10 va 0
  | none =>
    let s := cs.foldl (makeCopy loc vd zero) s
    let c := s.coreAt (coreOf loc)
    let n := (s.seqAt loc).task.lseq
    let s := s.setCore (coreOf loc) { c with placed := if c.placed.contains n then c.placed else c.placed ++ [n] }
    s.setSeq loc { s.seqAt loc with load := none, status := 1 }

/-- Byte ranges that a task adds to its partition's save-set union (R363): the code object's, argument and descriptor areas. -/
def taskSaves (t : Task) (p : LaunchPacket) : List (Nat × Nat) :=
  t.saves ++ (if p.arglen = 0 then [] else [(p.argls, p.argls + 2 * p.argArea)]) ++
  (if p.desclen = 0 then [] else [(p.descls, p.descls + p.desclen)])

/-- Zero the windows of a location's task (R142, R145, R300). -/
def clearWindows (s : State) (loc : Nat) : State :=
  let t := (s.seqAt loc).task
  let c := s.coreAt (coreOf loc)
  let first := tileNo s loc 0
  s.setCore (coreOf loc)
    { c with
      v0 := c.v0.clear (winBase loc Config.vFile t.winV0) t.winV0
      v1 := c.v1.clear (winBase loc Config.vFile t.winV1) t.winV1
      t := c.t.clear (winBase loc Config.tFile t.winT) t.winT
      tile := c.tile.clear (32768 * first) (32768 * t.winAcc)
      ovfc := c.ovfc.clear first t.winAcc
      nanc := c.nanc.clear first t.winAcc
      larder := c.larder.clear (larderBase (s.seqAt loc) loc) (larderWindow (s.seqAt loc)) }

/-- The origins of a location's earlier tasks with their last horizons, its last task's among them (R359). -/
def pastOf (q : Seq) : List (Nat × Nat × List Nat) :=
  if q.epoch = 0 then q.past
  else q.past ++ [(q.origin, q.epoch, q.access :: (List.range 8).map (fun c => (q.chans.look Channel.reset c).next))]

/-- Put a sequencer into the task-start state (R300, R356): what no rule resets there stays. -/
def taskStart (s : State) (loc : Nat) (t : Task) : State :=
  let q := s.seqAt loc
  let n := q.starts + 1
  let s := s.setSeq loc
    { Seq.reset with
      collide := q.collide, task := t, pc := t.entry, trapRec := q.trapRec, repInfo := q.repInfo, repRet := q.repRet
      mrsIndex := q.mrsIndex, taskId := BitVec.ofNat 64 (t.num + t.lseq * 2 ^ 32), ifr := q.ifr, errs := q.errs.filter (·.1.isNone), origin := fullLoc s loc
      epoch := s.boot * 2 ^ 64 + n, starts := n, past := pastOf q, status := 1 }
  clearWindows s loc

/-- The number of an image: a device and a number of its partitions. -/
def imageKey (vd num : Nat) : Nat := 4096 * vd + num

/-- Add a task's ranges to its partition's save-set union. -/
def addSaves (s : State) (part : Nat) (xs : List (Nat × Nat)) : State :=
  let k := s.quadAt part
  s.setQuad part { k with saves := k.saves ++ xs.filter (fun x => !k.saves.contains x) }

/-- Whether a location may start tasks of a device: its partition is resident for it and no save or restore of it is under way
(R317, R362). -/
def mayStart (s : State) (loc vd : Nat) : Bool :=
  (s.quadAt (partOf loc)).resident == some vd &&
  (match (s.dieAt (dieOf loc)).job with | some j => j.part != partOf loc | none => true)

/-- Whether a launch has a ready task for a location (R301, R317). -/
def readyTask (s : State) (loc : Nat) (l : Launch) : Bool :=
  !(l.todo.look [] loc).isEmpty && launchReady s (dieOf loc) l && mayStart s loc (LaunchPacket.vd l.pkt)

/-- The launch whose task a location takes next: the highest PRI, then the lowest LSEQ (R301). -/
def nextLaunch (s : State) (loc : Nat) : Option Launch :=
  ((s.dieAt (dieOf loc)).launches.filter (readyTask s loc)).foldl (fun r l =>
    match r with
    | none => some l
    | some m =>
      let a := LaunchPacket.pri l.pkt
      let b := LaunchPacket.pri m.pkt
      if b < a ∨ (a = b ∧ l.lseq < m.lseq) then some l else some m) none

/-- Whether a task's windows fit beside the task that the sibling runs (R20, R301). -/
def fitsSibling (s : State) (loc : Nat) (t : Task) : Bool :=
  let o := s.seqAt (siblingOf loc)
  o.status == 0 || windowsFit t o.task

/-- Whether a location may take another task: its start count is not spent (R356). -/
def mayTake (s : State) (loc : Nat) : Bool := decide ((s.seqAt loc).starts < 2 ^ 64 - 1)

/-- The task that `spawn` has started on a location and that waits for the partition to be resident, with the registers passed
(R308, R317). -/
def spawnedAt (s : State) (loc vd : Nat) : Option (Launch × Task × List (Nat × Vec)) :=
  (s.dieAt (dieOf loc)).launches.findSome? (fun l =>
    if LaunchPacket.vd l.pkt = vd then (l.spawned.find? (fun e => e.1 == loc)).map (fun e => (l, e.2)) else none)

/-- Start a spawned task: task-start state, the passed registers, and the loader without an argument block (R308). -/
def beginSpawned (s : State) (loc : Nat) (task : Task) (passed : List (Nat × Vec)) : State :=
  let s := taskStart s loc task
  let s := match launchOf s loc with
    | some l => addSaves s (partOf loc) (taskSaves task l.pkt)
    | none => s
  runLoader (passed.foldl (fun s e => regPut s loc ⟨.s, e.1⟩ e.2) s) loc false []

/-- Whether an idle location may begin a spawned task of a device (R301, R317, R356). -/
def mayBegin (s : State) (loc vd : Nat) (task : Task) : Bool :=
  mayStart s loc vd && mayTake s loc && (s.seqAt loc).status == 0 && fitsSibling s loc task

/-- What TASK_START does on a location that a spawned task waits for: it starts when it may, and nothing passes it; none where no task
waits so. -/
def takeSpawned (s : State) (loc : Nat) : Option State :=
  match (s.quadAt (partOf loc)).resident with
  | none => none
  | some vd => (spawnedAt s loc vd).map (fun (l, task, passed) =>
    if !mayBegin s loc vd task then s
    else
      let k := s.dieAt (dieOf loc)
      beginSpawned (s.setDie (dieOf loc) { k with launches := k.launches.map (fun m =>
        if m.lseq = l.lseq then { m with spawned := m.spawned.filter (fun e => e.1 != loc) } else m) }) loc task passed)

/-- TASK_START: an idle sequencer takes its next ready task and the loader prepares it (R300, R301); a task that `spawn` has given it
before comes first. A launch that waited for a place in the queue is offered again. -/
def execTaskStart (loc : Nat) (s : State) : Host.Outcome State Fault Refusal :=
  let q := s.seqAt loc
  if q.status ≠ 0 ∨ !mayTake s loc ∨ 512 ≤ loc then .next s
  else match takeSpawned s loc with
  | some t => .next t
  | none => match nextLaunch s loc with
    | none => .next s
    | some l =>
      match l.todo.look [] loc with
      | [] => .next s
      | n :: r =>
        let t := { l.code with num := n }
        if !fitsSibling s loc t then .next s
        else
          let k := s.dieAt (dieOf loc)
          let s := s.setDie (dieOf loc) { k with launches := k.launches.map (fun m =>
            if m.lseq = l.lseq then { m with todo := m.todo.put loc r } else m) }
          let s := addSaves (taskStart s loc t) (partOf loc) (taskSaves t l.pkt)
          .next (offerLaunches (runLoader s loc true []))

/-! ### Records to the host (R310, R329, R345, R377) -/

/-- Advance PROD of a ring. -/
def Die.produced (k : Die) (n : Nat) : Die :=
  { k with ringRegs := k.ringRegs.put (4 * n + 2) (BitVec.ofNat 64 ((k.ring n 2 + 1) % 2 ^ 32)) }

/-- Take out the first record that may be sent. -/
def takeRecord (ok : Rec → Bool) : List Rec → Option (List Rec)
  | [] => none
  | r :: rs => if ok r then some rs else (takeRecord ok rs).map (r :: ·)

/-- RECORD_DELIVERY: a die writes the first record of a lane that may be sent into the host's ring and advances PROD; a fatal
record goes before a replayable one, and a device's records wait while it is not resident on the die (R329, R345, R377). -/
def execRecordDelivery (die : Nat) (fatal : Bool) (s : State) : Host.Outcome State Fault Refusal :=
  let k := s.dieAt die
  if fatal then
    match k.fatal with
    | [] => .next s
    | _ :: rs => if ringOpen k 1 then .next (s.setDie die ({ k with fatal := rs }.produced 1)) else .next s
  else if (!k.fatal.isEmpty && ringOpen k 1) || !ringOpen k 0 then .next s
  else
    match takeRecord (fun r => residentOn s die r.vd) k.lane with
    | none => .next s
    | some rs => .next (s.setDie die ({ k with lane := rs }.produced 0))

end Sys2Proof.Machine
end

