-- ==== Sys2Proof/Machine/Transform.lean ====
section
/-! DEFINITION. The X slot (09_transform.md R161 to R169, R176). -/

namespace Sys2Proof.Machine

/-- Deliver an X result: to a register, or as a raw push (R161, R163). -/
def xOut (i : Instr) (d : Opnd) (v : Nat) (st : Nat) : Act Unit := do
  let s ← Act.view id
  match d with
  | .pop q => do
    stickyAt (latSteps s i) st
    pushRaw q.toNat (BitVec.ofNat 512 v) (latSteps s i)
  | _ => deliverMasked i (BitVec.ofNat 512 v) allBytes st

/-- Replace lanes of w bits from lane first on. -/
def putLanes (old w first : Nat) (xs : List Nat) : Nat :=
  let n := w * xs.length
  old - bitsAt old (w * first) n * 2 ^ (w * first) + ofLanes w xs * 2 ^ (w * first)

/-- `xcvt` (R165). -/
def execXcvt (g : Guard) (d a : Opnd) (p : BitVec 8) (fo fi : Fmt) (s : State) : Host.Outcome State Fault Refusal :=
  issue (.xcvt g d a p fo fi) g (do
    let x ← readRaw a
    let wi := fi.cvtWidth
    let wo := fo.cvtWidth
    let n := 512 / Nat.max wi wo
    let old ← (if wo < wi then readRaw d else pure 0)
    let t ← Act.view id
    let first := if wi < wo then p.toNat * n else 0
    let (xs, st) := convertAll t fo 0 ((List.range n).map (fun j => decodeNum fi (lane x (j + first) wi)))
    xOut (.xcvt g d a p fo fi) d (putLanes old.toNat wo (if wo < wi then p.toNat * n else 0) xs) st) s

/-- A value times 2^k; a scale of 0xFF makes it a NaN (R166). -/
def Num.scaled (x : Num) (sc : Nat) (k : Int) : Num :=
  if sc = 0xFF then .nan
  else match x with
    | .fin s m e => .fin s m (e + k)
    | y => y

/-- `xquant` (R166). -/
def execXquant (g : Guard) (d a b : Opnd) (fo : Fmt) (p : BitVec 3) (s : State) : Host.Outcome State Fault Refusal :=
  issue (.xquant g d a b fo p) g (do
    let x ← readRaw a
    let y ← readRaw b
    let old ← readRaw d
    let t ← Act.view id
    let sc := y.toNat % 256
    let (xs, st) := convertAll t fo 0 ((List.range 16).map (fun j => (decodeNum .f32 (lane x j 32)).scaled sc (127 - sc)))
    xOut (.xquant g d a b fo p) d (putLanes old.toNat fo.width (16 * p.toNat) xs) st) s

/-- `xdeq` (R166). -/
def execXdeq (g : Guard) (d a b : Opnd) (p : BitVec 3) (fi : Fmt) (s : State) : Host.Outcome State Fault Refusal :=
  issue (.xdeq g d a b p fi) g (do
    let x ← readRaw a
    let y ← readRaw b
    let t ← Act.view id
    let sc := y.toNat % 256
    let (xs, st) := convertAll t .f32 0 ((List.range 16).map (fun j =>
      (decodeNum fi (lane x (16 * p.toNat + j) fi.width)).scaled sc ((sc : Int) - 127)))
    xOut (.xdeq g d a b p fi) d (ofLanes 32 xs) st) s

/-- The largest finite magnitude of a narrow format as mantissa and exponent (Tables 6.2, 6.4, 6.5). -/
def largestOf : Fmt → Nat × Int
  | .e4m3 => (448, 0) | .e5m2 => (57344, 0) | .e2m1 => (6, 0) | .t8 => (4096, 0) | .t6 => (256, 0)
  | _ => (1, 0)

/-- The E8 scale that `xamax` finds for a magnitude (R166). -/
def amaxScale (fo : Fmt) (m : Num) : Nat :=
  match m with
  | .nan | .inf _ => 0xFF
  | .fin _ man e =>
    if man = 0 then 127
    else
      let (big, _) := largestOf fo
      let k0 : Int := (man.log2 : Int) + e - big.log2 - 1
      let fits := fun (k : Int) =>
        let u := min e k
        decide (man * 2 ^ (e - u).toNat ≤ big * 2 ^ (k - u).toNat)
      let k := if fits k0 then k0 else if fits (k0 + 1) then k0 + 1 else k0 + 2
      (sat (127 + k) 0 254).toNat

/-- `xamax` (R166). -/
def execXamax (g : Guard) (d a b : Opnd) (fo : Fmt) (s : State) : Host.Outcome State Fault Refusal :=
  issue (.xamax g d a b fo) g (do
    let x ← readRaw a
    let y ← readRaw b
    let m := ((List.range 16).map (fun j => (decodeNum .f32 (lane x j 32)).abs)).foldl
      (fun r v => if r.isNan || v.isNan then Num.nan else if r.lt v then v else r) (decodeNum .f32 (lane y 0 32)).abs
    xOut (.xamax g d a b fo) d ((roundNear .f32 m).1 + amaxScale fo m * 2 ^ 32) 0) s

/-- `xtr` (R163, R167): one occupancy of the transpose unit of the core. -/
def execXtr (g : Guard) (d a : BitVec 5) (t : Fmt) (s : State) : Host.Outcome State Fault Refusal :=
  issue (.xtr g d a t) g (do
    let q ← Act.view State.me
    Act.check (q.xtrFree ≤ stepOf q .X) 0x01 0
    Act.await (fun s =>
      let o := s.seqAt (siblingOf s.cur.loc)
      !(o.status != 0 && (decide (stepOf o .X < o.xtrFree) ||
        o.frame.any (fun f => decide (f.steps.look 0 Slot.X.num < f.xtrFree)))))
    let n := if t.width = 32 then 16 else 32
    let rows ← (List.range n).mapM (fun r => readReg ⟨.t, a.toNat + r⟩)
    let l ← Act.view (fun s => latSteps s (.xtr g d a t))
    Act.change (fun s => s.setMe { s.me with xtrFree := s.here + (if t.width = 32 then 16 else 32) })
    (List.range n).forM (fun c =>
      writeReg ⟨.t, d.toNat + c⟩ l (mkLanes t.width n (fun r => lane (rows.getD r 0) c t.width)))) s

/-- `xpack` (R168). -/
def execXpack (g : Guard) (d a : Opnd) (p : BitVec 8) (t : Fmt) (s : State) : Host.Outcome State Fault Refusal :=
  issue (.xpack g d a p t) g (do
    let x ← readRaw a
    let old ← readRaw d
    let w := t.width
    xOut (.xpack g d a p t) d
      (putLanes (old.toNat / 2 ^ (256 * p.toNat)) w 0 ((List.range 64).map (fun j => lane x j 8 % 2 ^ w)) * 2 ^ (256 * p.toNat)
        + old.toNat % 2 ^ (256 * p.toNat)) 0) s

/-- `xunpk` (R168). -/
def execXunpk (g : Guard) (d a : Opnd) (p : BitVec 8) (t : Fmt) (s : State) : Host.Outcome State Fault Refusal :=
  issue (.xunpk g d a p t) g (do
    let x ← readRaw a
    let w := t.width
    xOut (.xunpk g d a p t) d (ofLanes 8 ((List.range 64).map (fun j => bitsAt x.toNat (256 * p.toNat + w * j) w))) 0) s

/-- `xcrc` (R169). -/
def execXcrc (g : Guard) (d a b : Opnd) (n1 : BitVec 6) (s : State) : Host.Outcome State Fault Refusal :=
  issue (.xcrc g d a b n1) g (do
    let x ← readRaw a
    let y ← readRaw b
    xOut (.xcrc g d a b n1) d (crcBytes (lane y 0 32) (toBytes (n1.toNat + 1) x.toNat)) 0) s

/-- Push whole entries of `xexp`: entry e lands e steps after the first (R176). -/
def pushEntries (q l : Nat) : List Nat → Nat → Act Unit
  | [], _ => pure ()
  | x :: xs, e => do
    pushRaw q (BitVec.ofNat 512 x) (l + e)
    pushEntries q l xs (e + 1)

/-- `xexp` (R176). -/
def execXexp (g : Guard) (q a : BitVec 5) (dbp : Bool) (t : Fmt) (chk : Bool) (s : State) :
    Host.Outcome State Fault Refusal :=
  issue (.xexp g q a dbp t chk) g (do
    let r ← Act.ring a.toNat false
    let o ← Act.ring q.toNat true
    ringAwait a.toNat r r.readPos 64
    let hdr := r.bitsFrom r.readPos 64
    let dlen := bitsAt hdr 0 16
    let elen := bitsAt hdr 16 16
    let size := 64 + 64 * ceilDiv elen 8
    let m ← Act.view State.me
    let ne := ceilDiv (dlen * t.width) 512
    Act.check (size + r.readPos % 512 ≤ 512 * ringDepth m a.toNat && ne ≤ ringDepth m q.toNat) 0x23 a.toNat
    Act.check (match r.streamBits with | some b => r.readPos + size ≤ b | none => true) 0x11 0
    ringAwait a.toNat r r.readPos size
    let bytes := toBytes (size / 8 - 8) (r.bitsFrom (r.readPos + 64) (size - 64))
    match decodeChunk (if dbp then 2 else 1) t.width 15 chk 65535 hdr (bytes.take elen) (bytes.drop elen) with
    | .error c => Act.trap c a.toNat
    | .ok els =>
      let all := ofLanes t.width els
      let l ← Act.view (fun s => latency s.me 17)
      Act.check (match o.streamBits with
        | some b => 512 * (o.moved + (closePart o.entries).length + ne) ≤ b
        | none => true) 0x11 0
      if ringDepth m q.toNat < (closePart o.entries).length + ne then ringStall
      Act.change (setRing a.toNat (r.consume size))
      pushEntries q.toNat l ((List.range ne).map (fun e => bitsAt all (512 * e) 512)) 0) s

end Sys2Proof.Machine
end

