-- ==== Sys2Proof/Machine/Commands.lean ====
section
/-! DEFINITION. Command slots (26_outside.md R376): the order of commands, their checks and their STATUS. -/

namespace Sys2Proof.Machine

/-- Dword d of a die's command slot. -/
def Die.dword (k : Die) (slot d : Nat) : Nat := (k.cmds.look 0 (8 * slot + d)).toNat

/-- OP of a command. -/
def Die.op (k : Die) (slot : Nat) : Nat := bitsAt (k.dword slot 0) 0 8

/-- Write STATUS of a command slot. -/
def setStatus (s : State) (d slot status : Nat) : State :=
  let k := s.dieAt d
  let w := k.dword slot 0
  s.setDie d { k with cmds := k.cmds.put (8 * slot) (BitVec.ofNat 64 (w - bitsAt w 24 8 * 2 ^ 24 + status * 2 ^ 24)) }

/-- Execute the command of a slot when it is the next of its die: another major version is refused, an unknown OP is malformed,
and the body answers the state with its STATUS, none while it goes on (R376, R382).
(DEDUCED, assumption 14) (DEDUCED, assumption 25) -/
def command (s : State) (d slot op : Nat) (body : (Nat → Nat) → State → State × Option Nat) : State :=
  let k := s.dieAt d
  if k.due.head? ≠ some slot then s
  else
    let s' := s.setDie d { k with due := k.due.drop 1 }
    if bitsAt (k.dword slot 0) 8 16 ≠ bitsAt Config.interfaceVersion 16 16 then setStatus s' d slot 4
    else if k.op slot = 0 ∨ 10 < k.op slot then setStatus s' d slot 3
    else if k.op slot ≠ op then s
    else match body (k.dword slot) s' with
      | (t, some status) => setStatus t d slot status
      | (t, none) => t

end Sys2Proof.Machine
end

