-- ==== Sys2Proof/Machine/Progress.lean ====
section
/-! DEFINITION. Barriers, `spawn` and `sjoin`, `yield`, `sleep` and `evpost`, and the events that end their waits
(20_progress.md R304 to R310, 02_machine.md R25). -/

namespace Sys2Proof.Machine

/-! ### Barriers (R305 to R307) -/

/-- The number of a location's scope of a code among those of its kind (R188): sequencer, core, quad, die, module, pod. -/
def scopePlace (s : State) (loc scope : Nat) : Nat :=
  match scope with
  | 1 => fullLoc s loc
  | 2 => fullLoc s loc / 2
  | 3 => fullLoc s loc / 8
  | 4 => fullLoc s loc / 64
  | 5 => s.module
  | _ => 0

/-- The number of a barrier of a virtual device: scope, place and id (R305). (DEDUCED, assumption 29) -/
def barrierKey (s : State) (loc scope id : Nat) : Nat := (scope * 2 ^ 15 + scopePlace s loc scope) * 16 + id

/-- The number of sequencers of a virtual device in a scope of a location (R306). -/
def scopeSeqs (s : State) (loc scope : Nat) : Nat :=
  let v := s.vdAt (s.seqAt loc).task.vd
  match scope with
  | 1 => 1
  | 2 => 2
  | 3 => 8
  | 4 => 8 * (v.parts.filter (fun p => p / 8 == fullLoc s loc / 64)).length
  | 5 => 8 * (v.parts.filter (fun p => p / 64 == s.module)).length
  | _ => 8 * v.parts.length

/-- Whether an arrival raises trap 0x41 (R306): n expected by it, m sequencers, the issuer's pod location. -/
def Barrier.misuse (b : Barrier) (n m loc : Nat) : Bool :=
  n == 0 || decide (m < n) || (b.ac != 0 && (n != b.ec || b.arrived.contains loc))

/-- Count an arrival at the root (R306). -/
def Barrier.arrive (b : Barrier) (n loc : Nat) : Barrier :=
  let ec := if b.ac = 0 then n else b.ec
  if b.ac + 1 = ec then { ph := (b.ph + 1) % 2 ^ 32, ec := ec, ac := 0, arrived := [] }
  else { b with ec := ec, ac := b.ac + 1, arrived := b.arrived ++ [loc] }

/-- The root's state of a barrier. -/
def State.barrier (s : State) (vd key : Nat) : Barrier := (s.vdAt vd).barriers.look Barrier.reset key

/-- Arrivals on their way to a barrier's root, in sending order: expected count and the issuer's pod location. -/
def arrivalsDue (s : State) (vd key : Nat) : List (Nat × Nat) :=
  s.net.filterMap (fun p => match p.kind with
    | .arrival k n => if k = key ∧ p.key.vd = vd then some (n, 512 * p.src + p.loc) else none
    | _ => none)

/-- The module that holds the root of a barrier: the pod root stands in the module of the device's first partition. -/
def rootModule (s : State) (vd scope : Nat) : Nat :=
  if scope = 6 then ((s.vdAt vd).parts.head?.map (· / 64)).getD s.module else s.module

/-- Scope code of a barrier's number. -/
def barrierScope (key : Nat) : Nat := key / 2 ^ 19

/-- Whether the root of a barrier stands in this module; of another one the module keeps the copy of its leaves. -/
def ownRoot (s : State) (vd key : Nat) : Bool := rootModule s vd (barrierScope key) == s.module

/-- The state of a barrier that an issue is judged by: the root's, with the arrivals on their way counted, or the copy of a root in another
module: its phase as the flips have told, and the arrivals of this module since (R306). (DEDUCED, assumption 12) -/
def barrierView (s : State) (vd key : Nat) : Barrier :=
  if ownRoot s vd key then (arrivalsDue s vd key).foldl (fun b a => b.arrive a.1 a.2) (s.barrier vd key) else s.barrier vd key

/-- An arrival on its way to a root in another module stands in the copy (R306). -/
def copyArrival (s : State) (vd key n loc : Nat) : State :=
  if ownRoot s vd key then s
  else
    let v := s.vdAt vd
    let b := s.barrier vd key
    s.setVd vd { v with barriers := v.barriers.put key { b with ec := if b.ac = 0 then n else b.ec, ac := b.ac + 1, arrived := b.arrived ++ [loc] } }

/-- A flip of a root in another module opens the next phase in the copy (R305). -/
def copyFlip (s : State) (vd key ph : Nat) : State :=
  if ownRoot s vd key then s
  else
    let v := s.vdAt vd
    s.setVd vd { v with barriers := v.barriers.put key { s.barrier vd key with ph := ph, ac := 0, arrived := [] } }

/-- The phase at the leaf of a core (R305). -/
def leafPhase (s : State) (vd key core : Nat) : Nat := (s.vdAt vd).leaves.look 0 (256 * key + core)

/-- Count an arrival at its root, and send the flip to the leaves when it completes the phase (R305, R306). -/
def countArrival (s : State) (vd key n loc : Nat) : State :=
  let v := s.vdAt vd
  let b := s.barrier vd key
  let b' := b.arrive n loc
  let s := s.setVd vd { v with barriers := v.barriers.put key b' }
  if b'.ph = b.ph then s else { s with casts := s.casts ++ [.flip vd key b'.ph (barrierCores key)] }

/-- A counted arrival of this module frees its entry (R306). -/
def freeArrival (s : State) (p : Packet) : State :=
  let q := s.seqAt p.loc
  match q.ifr.find p.entry with
  | some e => if e.key = p.key then s.setSeq p.loc { q with ifr := q.ifr.drop p.entry } else s
  | none => s

/-- The number by which a barrier root's records are kept, beside those of the endpoints. -/
def barrierEp : Nat := 1024

/-- Arrive at a barrier: the checks, the release, the count or the packet to the root; answers the phase arrived in (R306). -/
def arriveAt (scope id n : Nat) : Act Nat := do
  let s ← Act.view (fun s => s)
  let loc := s.cur.loc
  let vd := s.myVd
  let key := barrierKey s loc scope id
  let b := barrierView s vd key
  Act.check (!b.misuse n (scopeSeqs s loc scope) (fullLoc s loc)) 0x41 0
  Act.await (fun s => !fenceWaits s s.cur.loc .Y scope 0xFFFF)
  if scope < 3 then Act.change (fun s => countArrival s vd key n (fullLoc s loc))
  else do
    let k ← freeEntry
    Act.change (fun s =>
      let q := s.me
      let e : Ifr :=
      { Ifr.blank with
        kind := 11, cls := 0, scope := scope, idem := 2, state := 1, key := accessKey q, id := q.access, num := q.task.num,
        lseq := q.task.lseq, target := id + 16 * scope, slot := .Y, bundle := s.here, left := 1, code := n, era := eraOf q,
        alloc := q.access }
      let s := copyArrival s vd key n (fullLoc s loc)
      let s := s.setMe { q with ifr := q.ifr.put k e, access := (q.access + 1) % 2 ^ 30 }
      emit s
        { id := 0, kind := .arrival key n, key := e.key, src := s.module, loc := loc, entry := k, cls := 0, chan := 0,
          dst := rootModule s vd scope, ep := barrierEp, addr := 0, va := 0, off := 0, ca := false, accepted := scope < 5,
          refused := false })
  return b.ph

/-- Wait at the leaf for a phase to flip, and acquire (R307). -/
def waitFlip (scope id ph : Nat) : Act Unit := do
  Act.await (fun s =>
    let d := wrap 32 ((leafPhase s s.myVd (barrierKey s s.cur.loc scope id) (coreOf s.cur.loc) : Int) - ph)
    decide (1 ≤ d) && decide (d < 2 ^ 31))
  Act.await (fun s => !fenceWaits s s.cur.loc .Y scope 0xFFFF)

/-- `bar.a` (R306). -/
def execBarA (g : Guard) (scope : ScopeCode) (id c p : BitVec 4) (s : State) : Host.Outcome State Fault Refusal :=
  issue (.barA g scope id c p) g (do
    let n ← readNat .y c.toNat
    let sc ← Act.view (fun s => s.scope scope.toNat)
    let ph ← arriveAt sc id.toNat (n % 2 ^ 32)
    writeReg ⟨.y, p.toNat⟩ 1 (BitVec.ofNat 512 ph)) s

/-- `bar.w` (R307). -/
def execBarW (g : Guard) (scope : ScopeCode) (id p : BitVec 4) (s : State) : Host.Outcome State Fault Refusal :=
  issue (.barW g scope id p) g (do
    let ph ← readNat .y p.toNat
    let sc ← Act.view (fun s => s.scope scope.toNat)
    waitFlip sc id.toNat (ph % 2 ^ 32)) s

/-- `bar` (R307): it arrives once, keeps the phase it arrived in, and waits for its flip. -/
def execBar (g : Guard) (scope : ScopeCode) (id c p : BitVec 4) (s : State) : Host.Outcome State Fault Refusal :=
  issue (.bar g scope id c p) (begunGuard s.me.barAt.isSome g) (do
    let sc ← Act.view (fun s => s.scope scope.toNat)
    match s.me.barAt with
    | none => do
      let n ← readNat .y c.toNat
      let ph ← arriveAt sc id.toNat (n % 2 ^ 32)
      Act.hold (fun s => s.setMe { s.me with barAt := some ph })
    | some ph => do
      waitFlip sc id.toNat ph
      Act.change (fun s => s.setMe { s.me with barAt := none })
      writeReg ⟨.y, p.toNat⟩ 1 (BitVec.ofNat 512 ph)) s

/-- BARRIER_ROOT_ARRIVAL: an arrival reaches its root and is counted, once for its key; arrivals at one barrier are counted in
sending order, and refused while the root's suppression window is full (R194, R306, R357, R358). The root answers one from another
module. -/
def execBarrierRootArrival (pk : Nat) (s : State) : Host.Outcome State Fault Refusal :=
  match s.packet pk with
  | none => .next s
  | some p =>
    match p.kind with
    | .arrival key n =>
      let before := (s.net.takeWhile (fun q => q.id != pk)).any (fun q => match q.kind with
        | .arrival k _ => k == key && q.key.vd == p.key.vd
        | _ => false)
      if !p.accepted ∨ p.dst ≠ s.module ∨ before then .next s
      else if (recordOf s barrierEp p.key 0).isNone ∧ Config.windowRecords ≤ (s.epAt barrierEp).window.length then
        .next (putPacket s { p with refused := true })
      else
        let ph := (s.barrier p.key.vd key).ph
        let t := match recordOf s barrierEp p.key 0 with
          | some _ => s
          | none => countArrival (addRecord s barrierEp ⟨p.key, 0, ph, 0⟩) p.key.vd key n (512 * p.src + p.loc)
        if p.src ≠ s.module then .next (answer t p (.reply 0 0)) else .next (freeArrival (dropPacket t pk) p)
    | _ => .next s

/-- Whether a broadcast has yet to reach a core. -/
def Cast.awaits (core : Nat) : Cast → Bool
  | .flip _ _ _ cores => cores.contains core
  | .launch _ _ => false

/-- PHASE_FLIP: a flip reaches a leaf, after every flip before it in bo (R200, R305); launch packets that waited for its last leaf are
offered again. -/
def execPhaseFlip (flip core : Nat) (s : State) : Host.Outcome State Fault Refusal :=
  match s.casts[flip]? with
  | some (.flip vd key ph cores) =>
    if !cores.contains core || (s.casts.take flip).any (·.awaits core) then .next s
    else
      let v := s.vdAt vd
      let s := s.setVd vd { v with leaves := v.leaves.put (256 * key + core) ph }
      let rest := cores.filter (· != core)
      let left := if rest.isEmpty then [] else [Cast.flip vd key ph rest]
      .next (offerLaunches { s with casts := s.casts.take flip ++ left ++ s.casts.drop (flip + 1) })
  | _ => .next s

/-! ### spawn and sjoin (R308) -/

/-- The target of a `spawn` or `sjoin` on the issuer's die, an eligible sequencer of its launch. -/
def spawnTarget (y : Nat) : Act Nat := do
  let s ← Act.view id
  let t := 64 * dieOf s.cur.loc + y % 64
  let ok := match launchOf s s.cur.loc with
    | some l => l.elig.contains t
    | none => false
  Act.check (decide (y < 64) && ok) 0x11 0
  return t

/-- Whether a sequencer runs a task of a device: where its partition is not resident for the device, as it was saved. -/
def runsTask (s : State) (t vd : Nat) : Bool :=
  if (s.quadAt (partOf t)).resident = some vd then (s.seqAt t).status != 0
  else match s.images.find (imageKey vd ((s.vdAt vd).parts.idxOf (podPart s (partOf t)))) with
    | some x => x.busy.contains (t % 8)
    | none => false

/-- Whether a sequencer is busy for a `spawn`: it runs a task, or holds one that is to start: a ready task of any launch of the device, or
one that waits for its partition (R308, R317). (DEDUCED, assumption 30) -/
def spawnBusy (s : State) (t vd : Nat) : Bool :=
  runsTask s t vd || (spawnedAt s t vd).isSome ||
  (s.dieAt (dieOf t)).launches.any (fun l => LaunchPacket.vd l.pkt == vd && !(l.todo.look [] t).isEmpty && launchReady s (dieOf t) l)

/-- s16 to s23 as the issuing Y slot reads them. -/
def readPassed : List Nat → Act (List (Nat × Vec))
  | [] => pure []
  | i :: r => do
    let v ← readReg ⟨.s, i⟩
    let vs ← readPassed r
    return (i, v) :: vs

/-- Start the spawned task, one more task of the share: at once where its sequencer may take it, else when it may: its partition resident
for the device, its windows fitting, its start count not spent (R301, R308, R317, R356). -/
def startSpawned (s : State) (t entry : Nat) (passed : List (Nat × Vec)) : State :=
  let task := { s.me.task with entry := entry }
  let now := mayBegin s t task.vd task
  let d := dieOf t
  let k := s.dieAt d
  let s := s.setDie d { k with launches := k.launches.map (fun l =>
    if l.lseq = task.lseq then { l with share := l.share + 1, spawned := l.spawned ++ (if now then [] else [(t, task, passed)]) }
    else l) }
  if now then beginSpawned s t task passed else s

/-- `spawn` (R308). -/
def execSpawn (g : Guard) (t e : BitVec 4) (s : State) : Host.Outcome State Fault Refusal :=
  issue (.spawn g t e) g (do
    let y ← readNat .y t.toNat
    let entry ← readNat .y e.toNat
    let tgt ← spawnTarget y
    Act.check (decide (entry % 64 = 0) && decide (entry < s.me.task.codeLen)) 0x11 0
    let passed ← readPassed [16, 17, 18, 19, 20, 21, 22, 23]
    let s ← Act.view id
    Act.check (tgt != s.cur.loc && !spawnBusy s tgt s.myVd) 0x40 (fullLoc s tgt)
    Act.change (fun s => startSpawned s tgt entry passed)) s

/-- Whether a sequencer is idle for a `sjoin`, and what its task has stored is performed: every event of that task is before the return
(R190, R308). (DEDUCED, assumption 66) -/
def joined (s : State) (t vd : Nat) : Bool :=
  !runsTask s t vd && (spawnedAt s t vd).isNone &&
  ((s.quadAt (partOf t)).resident != some vd || (s.seqAt t).ifr.all (fun e => decide (7 ≤ e.2.kind) || decide (3 ≤ e.2.state)))

/-- `sjoin` (R308). -/
def execSjoin (g : Guard) (t : BitVec 4) (s : State) : Host.Outcome State Fault Refusal :=
  issue (.sjoin g t) g (do
    let y ← readNat .y t.toNat
    let tgt ← spawnTarget y
    Act.check (tgt != s.cur.loc) 0x41 0
    Act.await (fun s => joined s tgt s.myVd)) s

/-! ### yield, sleep and evpost (R309, R310) -/

/-- The nanoseconds that 16 cycles of the arithmetic clock take, rounded up (R12). (DEDUCED, assumption 15) -/
def yieldTime : Nat := 23

/-- `yield` (R309): two of the same moment cancel each other; with an idle sibling it does nothing. -/
def execYield (g : Guard) (s : State) : Host.Outcome State Fault Refusal :=
  issue (.yield g) g (Act.change (fun s =>
    let c := coreOf s.cur.loc
    let k := s.coreAt c
    if (s.seqAt (siblingOf s.cur.loc)).status = 0 then s
    else
      s.setCore c
        { k with yieldTo :=
            if k.yieldTo = some (s.cur.loc, s.now + yieldTime) then none
            else some (siblingOf s.cur.loc, s.now + yieldTime) })) s

/-- YIELD_EXPIRY: the 16 cycles run out (R309). -/
def execYieldExpiry (core : Nat) (s : State) : Host.Outcome State Fault Refusal :=
  let k := s.coreAt core
  match k.yieldTo with
  | some (_, t) => if t ≤ s.now then .next (s.setCore core { k with yieldTo := none }) else .next s
  | none => .next s

/-- B_PRIORITY_PROMOTION: B has been able to issue for 15 cycles without being chosen; it goes first in the slot (R25). -/
def execBPriorityPromotion (core slot : Nat) (s : State) : Host.Outcome State Fault Refusal :=
  let k := s.coreAt core
  if slot < 9 ∧ 15 ≤ k.ready.look 0 slot then .next (s.setCore core { k with first := Nat.lor k.first (2 ^ slot) })
  else .next s

/-- `sleep` (R309): Y stalls until the count has passed since its first try; a count of 0 issues at once. -/
def execSleep (g : Guard) (n : BitVec 4) (s : State) : Host.Outcome State Fault Refusal :=
  issue (.sleep g n) (begunGuard s.me.sleepTo.isSome g) (match s.me.sleepTo with
    | none => do
      let x ← readNat .y n.toNat
      if x % 2 ^ 32 = 0 then pure ()
      else Act.hold (fun s => s.setMe { s.me with sleepTo := some (s.now + x % 2 ^ 32) })
    | some t => do
      Act.await (fun s => decide (t ≤ s.now))
      Act.change (fun s => s.setMe { s.me with sleepTo := none })) s

/-- SLEEP_EXPIRY: the interval has elapsed and Y may issue (R309). -/
def execSleepExpiry (loc : Nat) (s : State) : Host.Outcome State Fault Refusal :=
  let q := s.seqAt loc
  match q.sleepTo with
  | some t =>
    if q.status = 1 ∧ t ≤ s.now then .next (s.setSeq loc { q with stalled := Nat.land q.stalled (511 - 2 ^ Slot.Y.num) })
    else .next s
  | none => .next s

/-- `evpost` (R310). -/
def execEvpost (g : Guard) (a b : BitVec 4) (s : State) : Host.Outcome State Fault Refusal :=
  issue (.evpost g a b) g (do
    let x ← readNat .y a.toNat
    let y ← readNat .y b.toNat
    Act.await (fun s => decide (laneCount s (dieOf s.cur.loc) s.myVd < Config.laneEntries))
    Act.change (fun s =>
      let q := s.me
      postLane s (dieOf s.cur.loc) q.task.vd
        (eventRec q.task.vd (fullLoc s s.cur.loc) 1 q.task.lseq (x % 2 ^ 32) y (Nat.max (vtime s q.task.vd) q.last)))) s

end Sys2Proof.Machine
end

