-- ==== Sys2Proof/Machine/Traps.lean ====
section
/-! DEFINITION. Software traps, asynchronous traps, the return from a handler and the disposal of traps (23_traps.md R335, R336,
R343, R344, R350, R351, 24_preemption.md R361). -/

namespace Sys2Proof.Machine

/-! ### Sending an entry again (R361) -/

/-- The physical addresses of an access's requests under the tables as they stand, or the address that faults. A reissue reaches its home
from whichever die its sequencer has been brought to. -/
def retranslate (s : State) (e : Ifr) :
    List (Nat × Nat × PktKind) → Except Nat (List (Nat × Nat × Nat × PktKind))
  | [] => .ok []
  | (va, off, k) :: r =>
    let write := match k with | .read _ => false | _ => true
    match translate s e.key.vd va write with
    | .ok pa =>
      match retranslate s e r with
      | .ok l => .ok ((pa, va, off, k) :: l)
      | .error a => .error a
    | _ => .error va

/-- Send an access again with its key, class and scope; a page fault waits for its trap. A cached access whose die no longer holds the
token goes to its home (R291). (DEDUCED, assumption 67) -/
def resendAccess (s : State) (loc k : Nat) (e : Ifr) : State :=
  let t := s.tokenAt e.key.vd e.target
  let e := { e with ca := e.ca && t.holder == some (8 * s.module + dieOf loc) && !t.reached }
  match retranslate s e e.reqs with
  | .error va => putEntry s loc k { e with fault := 1, code := 0x10, info := va }
  | .ok l =>
    let e : Ifr := { e with state := 1, fault := 0, code := 0, info := 0, reply := 0, sticky := 0, left := l.length, homes := l.map (·.1) }
    l.foldl (fun t r => emit t (accessPacket t loc k e r.1 r.2.1 r.2.2.1 r.2.2.2)) (putEntry s loc k e)

/-- The bits of the descriptor or card that an entry names, read again from local store (R355), or the marked word that it meets. -/
def readAgain (s : State) (loc : Nat) (e : Ifr) (n : Nat) : Except Nat Nat :=
  match errorMark s ((List.range n).map (fun j => nearPhys s loc (e.len + j))) with
  | some a => .error a
  | none => .ok (nearNat s loc e.len n)

/-- Put a card into a die's intake again: in its old place where it still stands there, else last (R195, R361). -/
def returnCard (s : State) (loc k : Nat) (e : Ifr) : State :=
  let d := s.dieAt (dieOf loc)
  let elsewhere := s.dies.map (fun x => (x.1, if x.1 = dieOf loc then x.2 else
    { x.2 with cards := x.2.cards.filter (fun c => c.key != e.key) }))
  let s : State := { s with dies := elsewhere }
  if d.cards.any (fun c => c.key == e.key) then
    s.setDie (dieOf loc) { d with cards := d.cards.map (fun c =>
      if c.key = e.key then { c with loc := loc, entry := k, addr := e.len, bits := e.desc, started := false } else c) }
  else
    s.setDie (dieOf loc)
      { d with cards := d.cards ++ [⟨((d.cards.getLast?.map (·.no)).getD 0) + 1, e.key, loc, k, e.len, e.desc, false⟩] }

/-- Send a transfer again by the descriptor as it stands: its beats, or the request of a `cget`. -/
def resendTransfer (s : State) (loc k : Nat) (e : Ifr) (t : TransferDesc) : State :=
  let e : Ifr := { e with state := 1, fault := 0, beats := 0, total := t.beatCount, again := true, sync := t.syncField, desc :=
    (e.desc >>> 512) <<< 512 ||| t.setWidth 1024 }
  let v := s.vdAt e.key.vd
  if !t.fieldsOk || !t.reachable v || (e.kind == 7 && !t.walkInside e.target) then failRead s loc k e 0x11 0
  else if e.kind = 8 then
    emit (putEntry s loc k { e with total := 0, again := false }) (transferPacket s loc k e (t.dest / 512) t.endpoint 0 (.ask t))
  else putEntry s loc k e

/-- Send an in-flight entry again (R361); one that reads a descriptor or card reads it again (R355). (DEDUCED, assumption 32) -/
def resend (s : State) (loc k : Nat) (e : Ifr) : State :=
  let s := perf s loc 6 1
  match e.kind with
  | 7 | 8 =>
    match readAgain s loc e 64 with
    | .error a => failRead s loc k e 0x70 a
    | .ok d => resendTransfer s loc k e (BitVec.ofNat 512 d)
  | 10 => putEntry s loc k { e with state := 1, fault := 0, beats := 0, again := true }
  | 9 =>
    match readAgain s loc e 128 with
    | .error a => failRead s loc k e 0x70 a
    | .ok d =>
      let c : JobCard := BitVec.ofNat 1024 d
      let e : Ifr := { e with state := 1, fault := 0, left := 0, total := 0, desc := c, code := if c.fieldsOk then 0 else 0x11, info := 0 }
      returnCard (putEntry s loc k e) loc k e
  | 11 =>
    let scope := e.target / 16
    let p : Packet :=
      { id := 0, kind := .arrival (barrierKey s loc scope (e.target % 16)) e.code, key := e.key, src := s.module, loc := loc,
        entry := k, cls := 0, chan := 0, dst := rootModule s e.key.vd scope, ep := barrierEp, addr := 0, va := 0, off := 0,
        ca := false, accepted := decide (scope < 5), refused := false }
    emit (putEntry s loc k { e with state := 1, fault := 0 }) p
  | _ => resendAccess s loc k e

/-! ### Asynchronous traps (R153, R336) -/

/-- What an asynchronous trap comes from: a ring that will never fill, an in-flight entry, or an error in a pipe-image or in-flight entry by
the number of its structure. -/
inductive TrapCause where
  | ring (n : Nat)
  | entry (k : Nat)
  | own (n : Nat)
  deriving DecidableEq, Repr

/-- The asynchronous traps that are due on a location, as code, INFO, AUX and cause (R153, R336, R348). (DEDUCED, assumption 31) -/
def asyncDue (s : State) (loc : Nat) : List (Nat × Nat × Nat × TrapCause) :=
  let q := s.seqAt loc
  (List.range 32).filterMap (fun n => (stuckOn q n).map (fun f => (f.1, f.2, 0, .ring n))) ++
  (q.ifr.filter (fun e => e.2.fault == 1 && !e.2.halted)).map (fun e =>
    (e.2.code, e.2.info, if e.2.code = 0x10 ∨ e.2.code = 0x71 then e.1 else 0, .entry e.1)) ++
  (q.errs.filter (·.1.isNone)).map (fun e => (0x70, ownStructure e.2, 0, .own e.2))

/-- Entry numbers end below this one: a poison mark under it has no reply to come (R284). -/
def noEntry : Nat := 256

/-- Free an access that will not be performed: its destination keeps its old bits and is released (R336); the mark of an `ldr`
whose home cannot reply stays (R284). -/
def releaseAccess (s : State) (loc k : Nat) (e : Ifr) : State :=
  let stays := e.kind == 4 && e.code == 0x71
  let fix := fun (ps : List Pend) => if stays then
      ps.map (fun p => if p.ifr = some k then { p with ifr := some noEntry } else p)
    else ps.filter (fun p => p.ifr != some k || p.done)
  let c := s.coreAt (coreOf loc)
  let s := s.setCore (coreOf loc) { c with cmarks := if stays then c.cmarks.map (fun m =>
      if m.2.1 = loc ∧ m.2.2 = k then (m.1, loc, noEntry) else m) else c.cmarks.filter (fun m => !(m.2.1 == loc && m.2.2 == k)) }
  let q := s.seqAt loc
  s.setSeq loc
    { q with
      pend := fix q.pend, frame := q.frame.map (fun f => { f with pend := fix f.pend }), ifr := q.ifr.drop k
      poison := if stays then q.poison.map (fun m => if m.2 = k then (m.1, noEntry) else m) else q.poison.filter (fun m => m.2 != k) }

/-- An entry fails for good (R232, R336). -/
def failEntry (s : State) (loc k : Nat) (e : Ifr) : State :=
  let code := if e.code = 0x10 then 0x11 else e.code
  let t : TransferDesc := e.desc.setWidth 512
  match e.kind with
  | 7 | 8 | 10 => putEntry (abandon s e.key (t.dest / 512) t.endpoint) loc k { e with state := 4, fault := 0, code := code }
  | 9 =>
    let d := s.dieAt (dieOf loc)
    let s := s.setDie (dieOf loc) { d with cards := d.cards.map (fun x => if x.key = e.key then { x with started := true } else x) }
    putEntry { s with net := s.net.filter (fun p => p.key != e.key) } loc k { e with fault := 0, left := 0, code := code }
  | 11 => s.setSeq loc { s.seqAt loc with ifr := (s.seqAt loc).ifr.drop k }
  | _ => releaseAccess s loc k e

/-- Settle the entry whose trap is disposed of: a page fault is retried or fails with 0x11; what cannot be retried has failed
with its trap (R336). (DEDUCED, assumption 31) -/
def settleEntries (s : State) (loc : Nat) (retry : Bool) : State :=
  ((s.seqAt loc).ifr.filter (fun e => e.2.fault == 2)).foldl (fun t e =>
    if retry ∧ e.2.code = 0x10 then
      (if e.2.kind ≤ 6 then resend t loc e.1 e.2 else putEntry t loc e.1 { e.2 with fault := 0, code := 0 })
    else failEntry t loc e.1 e.2) s

/-- ASYNCHRONOUS_TRAP: a trap that no issuing operation raises freezes every slot of a running sequencer (R336); an array
operation or fill that can never finish is discarded (R153), and an error of a pipe-image or in-flight entry is raised (R348). The entries of a task that has ended fail as they are. -/
def execAsynchronousTrap (loc code info aux : Nat) (s : State) : Host.Outcome State Fault Refusal :=
  let q := s.seqAt loc
  match (asyncDue s loc).find? (fun d => d.1 == code && d.2.1 == info && d.2.2.1 == aux) with
  | none =>
    match q.ifr.find? (fun e => e.2.fault == 1 && e.2.halted && e.2.code == code && e.2.info == info && e.1 == aux) with
    | some (k, e) => .next (if e.kind < 7 then
        postFatal (s.setSeq loc { q with ifr := q.ifr.drop k }) (dieOf loc) e.key.vd (haltedRecord s loc k e code info + 256)
      else failEntry s loc k e)
    | none => .next s
  | some (_, _, _, .own n) =>
    if q.status = 1 then .next (asyncTrap (s.setSeq loc { q with errs := q.errs.erase (none, n) }) loc code info aux) else .next s
  | some (_, _, _, .ring n) =>
    if q.status = 1 then .next (asyncTrap (s.setSeq loc (discardOn q n)) loc code info aux) else .next s
  | some (_, _, _, .entry k) =>
    match q.ifr.find k with
    | none => .next s
    | some e =>
      if q.status = 1 then .next (asyncTrap (putEntry s loc k { e with fault := 2 }) loc code info aux)
      else if q.ended then .next (tryFinish (failEntry s loc k e) loc)
      else .next s

/-! ### Disposal (R300, R344) -/

/-- Let a sequencer run again, unless a save holds it: it fetches the bundles of its queue image again (R337). -/
def release (s : State) (loc : Nat) : State :=
  let q := s.seqAt loc
  let q := { q with delivered := false, stalled := 0, queue := unfetched q.queue }
  s.setSeq loc (if q.save = 0 then runClocks s.now { q with status := 1 } else q)

/-- End a task (R344): nothing that is pending lands; it becomes idle once its entries complete. -/
def endTask (s : State) (loc : Nat) : State :=
  let q := s.seqAt loc
  let s := s.setSeq loc
    { q with
      delivered := false, ended := true, pend := [], queue := [], ghosts := [], frame := none, stalled := 0, tiles := [], fills := []
      ifr := q.ifr.map (fun e => if e.2.halted then e else (e.1, { e.2 with dst := none })) }
  tryFinish s loc

/-- Dispose of the trap of a frozen sequencer: 0 retry, 1 skip, 2 end (R344). For a task that the loader could not prepare, Retry
copies again and Skip fills the page with zero (R300). -/
def dispose (s : State) (loc mode : Nat) : State :=
  let q := s.seqAt loc
  let rc := q.record.toNat
  match q.load with
  | some l =>
    if mode = 2 then becomeIdle s loc
    else
      let zero := if mode = 1 then bitsAt rc 320 64 / 4096 :: l.zero else l.zero
      runLoader (s.setSeq loc { q with delivered := false }) loc l.args zero
  | none =>
    let s := settleEntries s loc (mode == 0)
    if mode = 2 then endTask s loc
    else
      let q := s.seqAt loc
      let skip := if mode = 1 ∧ bitsAt rc 12 4 ≠ 15 then (bitsAt rc 12 4, bitsAt rc 128 64) :: q.skips else q.skips
      release (s.setSeq loc { q with skips := skip }) loc

/-- DISPOSE_TRAP: command 1 (R344, R376). -/
def execDisposeTrap (die slot : Nat) (s : State) : Host.Outcome State Fault Refusal :=
  .next (command s die slot 1 (fun w s =>
    let loc := w 1 % 512
    let q := s.seqAt loc
    if 2 < w 2 ∨ 2 ^ 15 ≤ w 1 then (s, some 3)
    else if w 1 / 512 ≠ s.module ∨ !(q.status == 3 && q.delivered) then (s, some 2)
    else (dispose s loc (w 2), some 1)))

/-! ### Instructions (R349 to R351) -/

/-- `trap` (R350). -/
def execTrap (g : Guard) (imm : BitVec 16) (s : State) : Host.Outcome State Fault Refusal :=
  issue (.trap g imm) g (Act.trap 0x60 imm.toNat) s

/-- Whether another slot has yet to issue an operation of the handler, in the bundle of its `eret` or before. -/
def handlerLags (s : State) (x : Slot) : Bool :=
  let q := s.me
  x != s.cur.slot && (List.range (s.here + 1 - stepOf q x)).any (fun d =>
    (x == .M && q.routine.isSome) || (match (bundleAt q (stepOf q x + d)).bits.op x with
      | some .noOperation => false
      | _ => true))

/-- Whether every result of the handler has landed or can land: its operations have issued, their values have returned, its tile writes are
complete (R343). (DEDUCED, assumption 13) -/
def handlerDone (s : State) : Bool :=
  let q := s.me
  !Slot.all.any (handlerLags s) && q.pend.all (fun e => !e.live || e.avail) && q.tiles.all (fun t => !t.inh || t.complete)

/-- Land what the handler has produced: register results, tile writes, ring pushes. -/
def landHandler (s : State) (loc : Nat) : State :=
  let s := landAll s loc
  let q := s.seqAt loc
  let s := (q.tiles.filter (·.inh)).foldl (fun t w => performTile t loc w) s
  s.setSeq loc
    { q with
      tiles := q.tiles.filter (fun t => !t.inh)
      rings := q.rings.map (fun r => (r.1, { r.2 with entries := r.2.entries.map (fun e =>
        { e with waits := e.waits.filter (fun w => !w.2.2) }) })) }

/-- `eret` returns from the handler and disposes of its trap (R343, R344, R351). -/
def execEret (g : Guard) (mode : BitVec 2) (s : State) : Host.Outcome State Fault Refusal :=
  .next (issueWith (fun s =>
      let loc := s.cur.loc
      dispose (leaveHandler (landHandler { s with free := s.free + 1 } loc) loc) loc mode.toNat)
    (.eret g mode) g (do
      let s ← Act.view id
      Act.check s.me.frame.isSome 0x01 0
      Act.await handlerDone) s)

/-- The target of a supervisor operation: another sequencer of the module (R346). -/
def supervisorTarget (t : BitVec 4) : Act Nat := do
  let y ← readNat .y t.toNat
  let s ← Act.view id
  Act.check (decide (y < 512) && y != s.cur.loc) 0x11 0
  return y

/-- `eret.t` disposes of the delivered trap of another sequencer (R351). -/
def execEretT (g : Guard) (mode : BitVec 2) (t : BitVec 4) (s : State) : Host.Outcome State Fault Refusal :=
  issue (.eretT g mode t) g (do
    let loc ← supervisorTarget t
    let s ← Act.view id
    let q := s.seqAt loc
    Act.check (q.status == 3 && q.delivered) 0x11 0
    Act.change (fun s => dispose s loc mode.toNat)) s

end Sys2Proof.Machine
end

