-- ==== Sys2Proof/Machine/Cellar.lean ====
section
/-! DEFINITION. The layout of a saved partition in device memory: the view of a sequencer, the context's core part and header, the parts of the
Cellar, the partition image (24_preemption.md R355, R362 to R365, 23_traps.md R338). -/

namespace Sys2Proof.Machine

/-! ### The layout of a context (Tables 23.1, 24.1 and 24.4) -/

/-- REM of an in-flight entry with a register result. -/
def ifrRem (q : Seq) (e : Ifr) : Nat :=
  if e.dst.isSome ∧ (e.kind = 1 ∨ e.kind = 3 ∨ e.kind = 4 ∨ e.kind = 6) then e.li - stepOf q e.slot else 0

/-- STATE of an in-flight entry. -/
def ifrState (s : State) (loc k : Nat) (e : Ifr) : Nat :=
  if e.state = 1 ∧ s.net.any (fun p => p.asks && p.refused && p.loc == loc && p.entry == k && p.key == e.key) then 2 else e.state

/-- An in-flight entry (Table 24.1). -/
def ifrBits (s : State) (loc k : Nat) (q : Seq) (e : Ifr) : Nat :=
  packBits [(0, 4, e.kind), (4, 3, ifrState s loc k e), (7, 2, e.idem), (9, 3, e.scope), (12, 4, e.cls), (16, 48, e.key.tag),
    (64, 52, e.target), (128, 32, e.len), (160, 3, e.ch), (163, 22, e.sync),
    (192 + 32, 32, if 7 ≤ e.kind ∧ e.kind ≤ 10 then e.id else ifrRem q e),
    (192 + 20, 5, if e.kind = 1 ∨ e.kind = 4 then e.rtype else 0), (192 + 16, 4, (e.dst.map (fun r => r.file.code)).getD 0), (192 + 6, 10, (e.dst.map (·.idx)).getD 0)]

/-- The first two dwords of a pipe-image entry (Table 23.1). -/
def pipeHead (q : Seq) (e : Pend) : Nat :=
  match e.dst with
  | none => 0
  | some r => packBits [(0, 1, 1), (15, 4, e.slot.num), (19, 4, r.file.code), (23, 10, r.idx), (33, 1, bit e.poison),
      (34, 12, remOf q e), (64, 64, e.mask)]

/-- The value of a pipe-image entry; a poisoned result has none yet. -/
def pipeValue (e : Pend) : Nat := if e.poison then 0 else e.val.toNat

/-- A pipe image in 80-byte entries, 64 for each slot (Table 24.4). -/
def imageBytes (q : Seq) (all : List Pend) : List Byte :=
  Slot.all.flatMap (fun x =>
    let mine := all.filter (fun e => e.slot == x)
    (List.range 64).flatMap (fun j => match mine[j]? with
      | some e => toBytes 16 (pipeHead q e) ++ toBytes 64 (pipeValue e)
      | none => List.replicate 80 0))

/-- Saved state of a header: 0 idle, 1 frozen, 2 frozen by trap. -/
def savedState (q : Seq) : Nat := if q.status = 0 then 0 else if q.delivered then 2 else 1

/-! ### The registers of a view (Table 24.4) -/

/-- The register files in the order in which a view holds them. -/
def viewFiles : List (File × Nat) := [(.s, 64), (.k0, 16), (.k1, 16), (.m, 8), (.b, 32), (.w, 32), (.e, 32), (.y, 16)]

/-- The register of a dword counted from the first file. -/
def viewReg : List (File × Nat) → Nat → Option Reg
  | [], _ => none
  | (f, n) :: r, d => if d < n then some ⟨f, d⟩ else viewReg r (d - n)

/-- A per-sequencer file of 64-bit registers. -/
def Seq.wordFile (q : Seq) : File → Tab Word
  | .s => q.fs | .k0 => q.fk0 | .k1 => q.fk1 | .m => q.fm | .b => q.fb | .w => q.fw | .e => q.fe | .y => q.fy
  | _ => []

/-- Replace a register of such a file. -/
def Seq.putWord (q : Seq) (r : Reg) (x : Word) : Seq :=
  match r.file with
  | .s => if r.idx = 0 then q else { q with fs := q.fs.put r.idx x }
  | .k0 => { q with fk0 := q.fk0.put r.idx x } | .k1 => { q with fk1 := q.fk1.put r.idx x }
  | .m => { q with fm := q.fm.put r.idx x } | .b => { q with fb := q.fb.put r.idx x }
  | .w => { q with fw := q.fw.put r.idx x } | .e => { q with fe := q.fe.put r.idx x }
  | .y => { q with fy := q.fy.put r.idx x }
  | _ => q

/-- The dwords of a view behind the register files: predicates, system registers, program counter, tag origin, access counter, the
slots' steps, TRAP.REC. -/
def viewRest (q : Seq) (d : Nat) : Nat :=
  match d with
  | 0 => q.fp.toNat | 1 => q.conv.toNat | 2 => q.replay.toNat | 3 => q.repInfo.toNat | 4 => q.repRet.toNat | 5 => q.tvec.toNat
  | 6 => q.gridTime.toNat | 7 => q.mrsIndex | 8 => q.taskId.toNat | 9 => q.last | 10 => q.pc | 11 => q.origin
  | 12 => q.epoch % 2 ^ 64 | 13 => q.epoch / 2 ^ 64 | 14 => q.access
  | n => if n < 24 then q.steps.look 0 (n - 15) else if n < 32 then bitsAt q.trapRec.toNat (64 * (n - 24)) 64 else 0

/-- Dword d of a sequencer's view from offset 0x40 on. Where the spec lists the contents of this part and gives no place, the order is the
model's. (DESIGN CHOICE, assumption 10) -/
def viewGet (q : Seq) (d : Nat) : Nat :=
  match viewReg viewFiles d with
  | some r => (q.wordFile r.file |>.look 0 r.idx).toNat
  | none => viewRest q (d - 216)

/-- A dword of the view behind the files replaced: what a host or a context may set of a sequencer that stands still. -/
def viewPutRest (q : Seq) (d x : Nat) : Seq :=
  let w : Word := BitVec.ofNat 64 x
  match d with
  | 0 => { q with fp := BitVec.ofNat 16 (x % 2 ^ 15) } | 1 => { q with conv := w } | 2 => { q with replay := w }
  | 3 => { q with repInfo := w } | 4 => { q with repRet := w } | 5 => { q with tvec := w } | 6 => { q with gridTime := w }
  | 7 => { q with mrsIndex := x % 2 ^ 64 } | 8 => { q with taskId := w } | 9 => { q with last := x } | 10 => { q with pc := x }
  | 11 => { q with origin := x } | 12 => { q with epoch := q.epoch / 2 ^ 64 * 2 ^ 64 + x }
  | 13 => { q with epoch := x * 2 ^ 64 + q.epoch % 2 ^ 64 } | 14 => { q with access := x }
  | n =>
    if n < 24 then { q with steps := q.steps.put (n - 15) x }
    else if n < 32 then { q with trapRec := BitVec.ofNat 512 (q.trapRec.toNat - bitsAt q.trapRec.toNat (64 * (n - 24)) 64 * 2 ^ (64 * (n - 24)) +
      x * 2 ^ (64 * (n - 24))) }
    else q

/-- Dword d of a sequencer's view replaced. -/
def viewPut (q : Seq) (d x : Nat) : Seq :=
  match viewReg viewFiles d with
  | some r => q.putWord r (BitVec.ofNat 64 x)
  | none => viewPutRest q (d - 216) x

/-- The dword of a view behind every register: there a context names what of its contents has no place of its own. -/
def handleDword : Nat := 300

/-! ### Contexts (R364, Table 24.4) -/

/-- The device of a context: the one that its partition is resident for. -/
def contextVd (s : State) (loc : Nat) : Nat := (s.quadAt (partOf loc)).resident.getD (s.seqAt loc).task.vd

/-- Bytes 0x40 to 0xFFF of a context; handle is the number under which its other contents are kept. -/
def viewBytes (q : Seq) (handle : Nat) : List Byte :=
  (List.range 504).flatMap (fun d => toBytes 8 (if d = handleDword then handle else viewGet q d))

/-- The record and the reply store of a sequencer. -/
def recordBytes (s : State) (loc : Nat) : List Byte :=
  let q := s.seqAt loc
  (List.range 256).flatMap (fun k => match q.ifr.find k with
    | some e => toBytes 32 (ifrBits s loc k q e)
    | none => List.replicate 32 0) ++
  (List.range 256).flatMap (fun k => match q.ifr.find k with
    | some e => toBytes 64 e.reply.toNat
    | none => List.replicate 64 0)

/-- The pipe image of the trap frame, and the trap record with the rest of the frame: steps, fetch address and generator state. -/
def frameBytes (q : Seq) : List Byte :=
  (match q.frame with
    | some f =>
      let r := { q with steps := f.steps, pend := f.pend }
      imageBytes r (pipeImage r)
    | none => List.replicate 46080 0) ++
  toBytes 64 q.record.toNat ++
  (match q.frame with
    | some f => (List.range 9).flatMap (fun x => toBytes 8 (f.steps.look 0 x)) ++ toBytes 8 f.pc ++ toBytes 8 f.seed ++ toBytes 8 f.nextIdx
    | none => List.replicate 96 0) ++
  List.replicate (4096 - 160) 0

/-- The core part of a context from offset 0x40 to its end. -/
def coreBytes (s : State) (loc handle : Nat) : List Byte :=
  let q := s.seqAt loc
  viewBytes q handle ++ recordBytes s loc ++ imageBytes q (pipeImage q) ++ frameBytes q

/-- Keys of a table counted from a base. -/
def fromBase {α : Type} (t : Tab α) (base n : Nat) : Tab α := (t.slice base n).map (fun e => (e.1 - base, e.2))
/-- Entries counted from a base put into a table in place of what stands there. -/
def toBase {α : Type} (t u : Tab α) (base n : Nat) : Tab α := u.foldl (fun r e => r.put (base + e.1) e.2) (t.clear base n)

/-- A ring as a context holds it: chunks that the decoder has staged are decoded again after the restore (R175). -/
def Ring.forSave (r : Ring) : Ring := { r with chunks := [] }

/-- The context of a location with the registers of its windows (R364). -/
def contextOf (s : State) (loc handle : Nat) : Saved :=
  let q := s.seqAt loc
  let t := q.task
  let c := s.coreAt (coreOf loc)
  let first := tileNo s loc 0
  { vd := contextVd s loc, state := savedState q, seq := { q with rings := q.rings.map (fun r => (r.1, r.2.forSave)) }
    v0 := fromBase c.v0 (winBase loc Config.vFile t.winV0) t.winV0
    v1 := fromBase c.v1 (winBase loc Config.vFile t.winV1) t.winV1
    t := fromBase c.t (winBase loc Config.tFile t.winT) t.winT
    tile := fromBase c.tile (32768 * first) (32768 * t.winAcc)
    ovfc := fromBase c.ovfc first t.winAcc
    nanc := fromBase c.nanc first t.winAcc
    larder := fromBase c.larder (larderBase q loc) (larderWindow q)
    bytes := coreBytes s loc handle }

/-- Registers of 512 bits as bytes. -/
def vecBytes (t : Tab Vec) (n : Nat) : List Byte := (List.range n).flatMap (fun i => toBytes 64 (t.look 0 i).toNat)
/-- Tile elements as bytes. -/
def wordBytes (t : Tab (BitVec 32)) (n : Nat) : List Byte := (List.range n).flatMap (fun i => toBytes 4 (t.look 0 i).toNat)

/-- A sequencer's own declared parts: its V0, V1, X, Tarn and Larder windows (R364). -/
def ownBytes (x : Saved) : List Byte :=
  let t := x.seq.task
  vecBytes x.v0 t.winV0 ++ vecBytes x.v1 t.winV1 ++ vecBytes x.t t.winT ++ wordBytes x.tile (32768 * t.winAcc) ++
  vecBytes x.larder (larderWindow x.seq)

/-- The header of a context (R364). -/
def contextHeader (s : State) (loc : Nat) (x : Saved) : Nat :=
  let q := s.seqAt loc
  packBits [(0, 16, 1), (16, 1, bit q.frame.isSome), (17, 3, savedState q), (64, 16, x.vd), (80, 15, fullLoc s loc),
    (128, 32, crc32c (x.bytes ++ ownBytes x)),
    (192, 12, q.task.winV0), (204, 12, q.task.winV1), (216, 12, q.task.winT), (228, 12, q.task.winAcc), (240, 12, q.task.winLar)]

/-- The number under which the next context keeps what has no place of its own. -/
def freshHandle (s : State) : Nat := ((s.saved.getLast?.map (·.1)).getD 0) + 1

/-! ### The parts of the Cellar (Table 24.3) -/

/-- The address of a device's partition in its Cellar. -/
def cellarBase (v : Vd) (num : Nat) : Nat := v.cellar + num * 0x4000000
/-- The offset of core c's area. -/
def coreArea (c : Nat) : Nat := 0x200000 + c * 0xE00000
/-- The address of the context of sequencer j of a device's partition. -/
def cellarAddr (v : Vd) (num j : Nat) : Nat := cellarBase v num + coreArea (j / 2) + j % 2 * 0x20000

/-- A part of a save: its offset, its blocks of 4 KiB, and what each holds. -/
structure CellarPart where
  off   : Nat
  count : Nat
  block : Nat → List Byte

/-- Block n of a list of bytes. -/
def blockOf (b : List Byte) (n : Nat) : List Byte :=
  let x := (b.drop (4096 * n)).take 4096
  x ++ List.replicate (4096 - x.length) 0

/-- A part of 512-bit registers, 64 to a block; absent when there are none. -/
def vecPart (off blocks n : Nat) (f : Nat → Vec) : CellarPart :=
  ⟨off, if n = 0 then 0 else blocks, fun b => (List.range 64).flatMap (fun j => if 64 * b + j < n then toBytes 64 (f (64 * b + j)).toNat
    else List.replicate 64 0)⟩

/-- A register file that holds A's window and then B's. -/
def windowPart (off : Nat) (t : Tab Vec) (size a b : Nat) : CellarPart :=
  vecPart off 12 (a + b) (fun i => if i < a then t.look 0 i else t.look 0 (winBase 1 size b + (i - a)))

/-- The entries of a sequencer's bound rings, by ring number. -/
def ringParts (q : Seq) : List Vec := q.rings.flatMap (fun r => r.2.entries.map (·.data))

/-- The results of the array operations in flight, whole tiles (R338). -/
def stagedBytes (s : State) (loc : Nat) : List Byte :=
  ((s.seqAt loc).tiles.filter (fun w => match w.kind with | .array _ => true | _ => false)).flatMap (fun w =>
    let c := (performTile s loc w).coreAt (coreOf loc)
    (List.range 32768).flatMap (fun i => toBytes 4 (c.tile.look 0 (32768 * tileNo s loc w.acc + i)).toNat))

/-- Tile counters, and the landing indices of array results in flight. -/
def counterBytes (s : State) (a b : Nat) : List Byte :=
  let c := s.coreAt (coreOf a)
  (List.range 32).flatMap (fun n => toBytes 4 (c.ovfc.look 0 n) ++ toBytes 4 (c.nanc.look 0 n)) ++
  [a, b].flatMap (fun loc => (s.seqAt loc).tiles.flatMap (fun w => toBytes 8 w.li))

/-- The parts of core c of a partition but the core parts. -/
def corePartsOf (s : State) (part c : Nat) : List CellarPart :=
  let a := 8 * part + 2 * c
  let ta := (s.seqAt a).task
  let tb := (s.seqAt (a + 1)).task
  let k := s.coreAt (4 * part + c)
  let o := coreArea c
  let rings := ringParts (s.seqAt a) ++ ringParts (s.seqAt (a + 1))
  let staged := stagedBytes s a ++ stagedBytes s (a + 1)
  let lo := localPhys s (4 * part + c) 0
  let keep := (s.quadAt part).saves
  let held := fun p => keep.any (fun r => decide (r.1 ≤ p) && decide (p < r.2))
  [windowPart (o + 0x40000) k.v0 Config.vFile ta.winV0 tb.winV0, windowPart (o + 0x4C000) k.v1 Config.vFile ta.winV1 tb.winV1,
   vecPart (o + 0x58000) 1 (if ta.winT + tb.winT = 0 then 0 else Config.tFile) (k.t.look 0),
   vecPart (o + 0x60000) (ceilDiv rings.length 64) rings.length (fun i => rings.getD i 0),
   ⟨o + 0xA0000, 1, blockOf (counterBytes s a (a + 1))⟩,
   ⟨o + 0x100000, ceilDiv staged.length 4096, blockOf staged⟩,
   ⟨o + 0x200000, if ta.winAcc + tb.winAcc = 0 then 0 else 1024, fun b =>
     (List.range 1024).flatMap (fun i => toBytes 4 (k.tile.look 0 (1024 * b + i)).toNat)⟩,
   vecPart (o + 0x600000) 512 (if ta.winLar + tb.winLar = 0 then 0 else Config.larderLines) (k.larder.look 0)] ++
  ((List.range 1536).filter (fun b => keep.any (fun r => decide (r.1 < 4096 * (b + 1)) && decide (4096 * b < r.2)))).map (fun b =>
    ⟨o + 0x800000 + 4096 * b, 1, fun _ => (List.range 4096).map (fun j =>
      if held (4096 * b + j) then s.mem.look (lo + 4096 * b + j) else 0)⟩)

/-- The core part of a context without its first block. -/
def contextPart (s : State) (loc off : Nat) : CellarPart := ⟨off + 4096, 30, fun b => blockOf (List.replicate 64 0 ++ coreBytes s loc 0) (b + 1)⟩

/-- The block of a context's header with the registers behind it. -/
def headerBlock (s : State) (loc : Nat) : List Byte :=
  let x := contextOf s loc (freshHandle s)
  toBytes 64 (contextHeader s loc x) ++ x.bytes.take 4032

/-- The partition image: routing counters, PERF counters and barrier phases, routine stores, common files, landing maps; the order is the
model's, and what else belongs to it is kept beside (R365). (DESIGN CHOICE, assumption 10) -/
def imageBlock (s : State) (vd part n : Nat) : List Byte :=
  let v := s.vdAt vd
  let core := 4 * part + n % 4
  if n = 0 then (List.range 1024).flatMap (fun i => toBytes 4 ((s.quadAt part).ctr.look 0 i))
  else if n = 1 then
    blockOf ((List.range 8).flatMap (fun j => toBytes 8 (v.perfCnt.look 0 (8 * podPart s part + j))) ++
      (List.range 4).flatMap (fun c => (List.range 16).flatMap (fun id => toBytes 4
        (v.leaves.look 0 (256 * ((3 * 2 ^ 15 + podPart s part) * 16 + id) + 4 * part + c))))) 0
  else if 4 ≤ n ∧ n < 20 then
    (List.range 512).flatMap (fun i => toBytes 8 ((s.coreAt (4 * part + (n - 4) / 4)).store.look 0 (512 * ((n - 4) % 4) + i)).toNat)
  else if 20 ≤ n ∧ n < 24 then (List.range 64).flatMap (fun i => toBytes 64 ((s.coreAt core).c.look 0 i).toNat)
  else if 24 ≤ n ∧ n < 28 then
    (List.range 64).flatMap (fun i => toBytes 64 ((((s.epAt core).maps.find i).map (·.entry.toNat)).getD 0))
  else List.replicate 4096 0

/-- What the save of a partition writes, in order: the image, the contexts without their headers, then the headers (R362). -/
def partitionParts (s : State) (vd part : Nat) : List CellarPart :=
  [⟨0, 512, imageBlock s vd part⟩] ++
  (List.range 4).flatMap (fun c =>
    [contextPart s (8 * part + 2 * c) (coreArea c), contextPart s (8 * part + 2 * c + 1) (coreArea c + 0x20000)] ++ corePartsOf s part c)

/-! ### Reading a context -/

/-- The bytes of a sequencer's own declared parts as they stand in its device's Cellar; x tells its windows. -/
def cellarOwn (s : State) (vd num j : Nat) (x : Saved) : List Byte :=
  let v := s.vdAt vd
  let t := x.seq.task
  let base := cellarBase v num + coreArea (j / 2)
  let head := deviceNat s vd (cellarAddr v num (j - j % 2)) 64
  let skip := fun lo n => if j % 2 = 0 then 0 else bitsAt head lo n
  let bytes := fun a n => (List.range n).map (fun i => deviceByte s vd (a + i))
  bytes (base + 0x40000 + 64 * skip 192 12) (64 * t.winV0) ++ bytes (base + 0x4C000 + 64 * skip 204 12) (64 * t.winV1) ++
  bytes (base + 0x58000 + 64 * winBase j Config.tFile t.winT) (64 * t.winT) ++
  bytes (base + 0x200000 + 131072 * winBase j 32 t.winAcc) (131072 * t.winAcc) ++
  bytes (base + 0x600000 + 64 * larderBase x.seq j) (64 * larderWindow x.seq)

/-- The checks of a context before it is loaded (R364): version, device, CRC, and windows that fit beside the sibling's. Its bytes stand at
an address of device rd; own are the declared parts, given what the context keeps beside. The registers that its bytes hold are taken
from there. -/
def contextOk (s : State) (loc vd rd va : Nat) (own : Saved → List Byte) : Option Saved :=
  let head := deviceNat s rd va 64
  let body := (List.range (0x1E800 - 64)).map (fun j => deviceByte s rd (va + 64 + j))
  match s.saved.find (deviceNat s rd (va + 64 + 8 * handleDword) 8) with
  | none => none
  | some x =>
    let o := s.seqAt (siblingOf loc)
    if bitsAt head 0 16 = 1 ∧ bitsAt head 64 16 = vd ∧ x.vd = vd ∧ bitsAt head 128 32 = crc32c (body ++ own x) ∧
        (o.status = 0 ∨ windowsFit x.seq.task o.task) then
      some { x with seq := (List.range 248).foldl (fun q d => viewPut q d (ofBytes ((body.drop (8 * d)).take 8))) x.seq }
    else none

end Sys2Proof.Machine
end

