-- ==== Sys2Proof/Machine/Preempt.lean ====
section
/-! DEFINITION. Slice ends, withdraws, the save engine, contexts in device memory, replay horizons (22_isolation.md R331 to R333,
23_traps.md R352, R353, 24_preemption.md R355, R359 to R366). -/

namespace Sys2Proof.Machine

/-! ### Slice ends and freezes (R332) -/

/-- The locations of a partition. -/
def partLocs (p : Nat) : List Nat := (List.range 8).map (8 * p + ·)

/-- Freeze a sequencer at once for a save; one frozen by a trap is saved as it stands, and an idle one idle. What their entries have in the
fabric is withdrawn (R332, R360). -/
def freezeNow (s : State) (loc : Nat) : State :=
  let q := s.seqAt loc
  if q.status = 1 then freezeForSave s loc
  else if q.save = 0 ∧ (q.status = 3 ∨ !q.ifr.isEmpty) then postWithdraw (s.setSeq loc { q with save := 1 }) loc
  else s

/-- Freeze a sequencer at a slice end: at its next safe point where those are close enough, otherwise at once (R332). -/
def endSliceOf (vd : Nat) (s : State) (loc : Nat) : State :=
  let q := s.seqAt loc
  let grace := (s.vdAt vd).grace
  if q.status = 1 ∧ 10 * q.task.spdist ≤ 7 * grace then s.setSeq loc { q with slice := some (s.now + grace) }
  else freezeNow s loc

/-- SLICE_GRACE_EXPIRY: the window has ended without a safe point (R332). -/
def execSliceGraceExpiry (loc : Nat) (s : State) : Host.Outcome State Fault Refusal :=
  let q := s.seqAt loc
  match q.slice with
  | some t => if q.status = 1 ∧ t ≤ s.now then .next (freezeForSave s loc) else .next s
  | none => .next s

/-! ### Withdraws (R360) -/

/-- Whether a packet lies where a withdraw place answers for it: an endpoint for the packets to it, a bridge station for those that
leave the module. -/
def placeHolds (s : State) (ep : Nat) (p : Packet) : Bool :=
  if p.dst = s.module then p.ep == ep else 1100 + dieOf p.loc / 2 == ep

/-- The packets of an origin that no endpoint has accepted and that satisfy a test leave the fabric. -/
def discardOrigin (s : State) (origin epoch : Nat) (ok : Packet → Bool) : State :=
  { s with net := s.net.filter (fun p => !(p.asks && p.key.origin == origin && p.key.epoch == epoch && ok p)) }

/-- The tag origins of a sequencer's task and of its in-flight entries, those of tasks that have halted among them. -/
def originsOf (q : Seq) : List (Nat × Nat) := ((q.origin, q.epoch) :: q.ifr.map (fun e => (e.2.key.origin, e.2.key.epoch))).eraseDups

/-- The packets of a sequencer's origins leave the fabric, those that satisfy a test. -/
def discardFor (s : State) (loc : Nat) (ok : Packet → Bool) : State :=
  (originsOf (s.seqAt loc)).foldl (fun t o => discardOrigin t o.1 o.2 ok) s

/-- Change the first withdraw of a location. -/
def mapWithdraw (loc : Nat) (f : Withdraw → Withdraw) : List Withdraw → List Withdraw
  | [] => []
  | w :: ws => if w.loc = loc then f w :: ws else w :: mapWithdraw loc f ws

/-- WITHDRAW_RECEIVE: a place discards the origin's packets and acknowledges (R360). -/
def execWithdrawReceive (loc ep : Nat) (s : State) : Host.Outcome State Fault Refusal :=
  match s.withdraws.find? (fun w => w.loc == loc) with
  | none => .next s
  | some w =>
    if !w.discard.contains ep then .next s
    else
      let s := discardFor s loc (placeHolds s ep)
      let f := fun (w : Withdraw) => { w with discard := w.discard.filter (· != ep), acks := w.acks ++ [ep] }
      .next { s with withdraws := mapWithdraw loc f s.withdraws }

/-- WITHDRAW_ACK: an acknowledgement arrives; after the last one only replies of the origin are left (R360). -/
def execWithdrawAck (loc ep : Nat) (s : State) : Host.Outcome State Fault Refusal :=
  match s.withdraws.find? (fun w => w.loc == loc) with
  | none => .next s
  | some w =>
    if !w.acks.contains ep then .next s
    else
      let w' := { w with acks := w.acks.filter (· != ep) }
      if w'.acks.isEmpty ∧ w'.discard.isEmpty then
        .next (discardFor { s with withdraws := s.withdraws.filter (fun v => v.loc != loc) } loc (fun _ => true))
      else .next { s with withdraws := mapWithdraw loc (fun _ => w') s.withdraws }

/-- Whether a sequencer may be saved: idle with nothing in flight, or frozen or idle with its withdraw acknowledged. -/
def savable (s : State) (loc : Nat) : Bool :=
  let q := s.seqAt loc
  (q.status == 0 && q.ifr.isEmpty) || (q.status != 1 && q.save != 0 && !s.withdraws.any (fun w => w.loc == loc))

/-! ### Leaving and loading (R352, R360, R364) -/

/-- Leave a location idle after its context has been written: a reply that comes later is discarded, and its job cards keep their places
in the intake (R195, R352, R360). -/
def leaveSaved (s : State) (loc : Nat) : State :=
  { s.setSeq loc { Seq.reset with starts := (s.seqAt loc).starts } with
    net := s.net.filter (fun p => !(!p.asks && p.src == s.module && p.loc == loc)) }

/-- Bring a context into a location, frozen as it was saved (R364); horizons that the location has not published stay to be published
(R359). -/
def loadContext (s : State) (loc : Nat) (x : Saved) : State :=
  let o := s.seqAt loc
  let s := s.setSeq loc { x.seq with starts := o.starts, past := pastOf o ++ x.seq.past, stalled := 0 }
  let q := s.seqAt loc
  let t := q.task
  let c := s.coreAt (coreOf loc)
  let first := tileNo s loc 0
  s.setCore (coreOf loc)
    { c with
      v0 := toBase c.v0 x.v0 (winBase loc Config.vFile t.winV0) t.winV0
      v1 := toBase c.v1 x.v1 (winBase loc Config.vFile t.winV1) t.winV1
      t := toBase c.t x.t (winBase loc Config.tFile t.winT) t.winT
      tile := toBase c.tile x.tile (32768 * first) (32768 * t.winAcc)
      ovfc := toBase c.ovfc x.ovfc first t.winAcc
      nanc := toBase c.nanc x.nanc first t.winAcc
      larder := toBase c.larder x.larder (larderBase q loc) (larderWindow q) }

/-! ### Resuming (R361) -/

/-- How far back an entry was allocated, by the access counter then; those of earlier tasks come before. -/
def entryAge (q : Seq) (e : Ifr) : Nat :=
  (q.access + 2 ^ 30 - e.alloc) % 2 ^ 30 + (if e.key.epoch = q.epoch then 0 else 2 ^ 30)

/-- Insert an entry behind the older ones. -/
def insertEntry (q : Seq) (x : Nat × Ifr) : List (Nat × Ifr) → List (Nat × Ifr)
  | [] => [x]
  | y :: ys => if entryAge q y.2 < entryAge q x.2 then x :: y :: ys else y :: insertEntry q x ys

/-- Send again, in allocation order, every entry that is outstanding or refused (R361); one whose trap stands waits for it. -/
def resendAll (s : State) (loc : Nat) : State :=
  let q := s.seqAt loc
  ((q.ifr.filter (fun e => decide (e.2.state < 3) && e.2.fault != 2)).foldl (fun l e => insertEntry q e l) []).foldl
    (fun t e => resend t loc e.1 e.2) s

/-- Resume a saved sequencer: its entries go out before any slot issues, and it fetches the bundles of its queue image again (R337); one
frozen by a trap stays frozen. -/
def resume (s : State) (loc : Nat) : State :=
  let s := resendAll s loc
  let q := { s.seqAt loc with save := 0 }
  s.setSeq loc (if q.status = 0 || q.delivered || q.ended then q
    else runClocks s.now { q with status := 1, queue := unfetched q.queue })

/-! ### ctxsave, ctxload and pimg (R352, R353) -/

/-- Translate the pages of a context for a Y operation. -/
def pagesOf (va : Nat) (write : Bool) : Nat → Act (List Nat)
  | 0 => pure []
  | n + 1 => do
    let r ← pagesOf va write n
    let pa ← Act.xlate (va + 4096 * n) write
    return r ++ [pa]

/-- The address operand of `ctxsave` and `ctxload`: a multiple of 4 KiB in the device-memory window. -/
def contextAddr (a : BitVec 4) (write : Bool) : Act (List Nat) := do
  let va ← readNat .y a.toNat
  Act.check (va % 4096 == 0 && windowOf va 0x20000 == some 13) 0x11 va
  pagesOf va write 32

/-- Give the save engine of a partition's die a job. -/
def startJob (s : State) (j : SaveJob) : State :=
  let k := s.dieAt (j.part / 8)
  s.setDie (j.part / 8) { k with job := some j }

/-- The job of a `ctxsave` or `ctxload` of the issuing sequencer. -/
def contextJob (s : State) (loc va : Nat) (load : Bool) : SaveJob :=
  ⟨contextVd s loc, partOf loc, 0, load, 0, none, [], some (s.cur.loc, loc, va)⟩

/-- Whether the engine of a target's die has no job. -/
def engineFree (s : State) (loc : Nat) : Bool := (s.dieAt (dieOf loc)).job.isNone

/-- Whether the engine still works for the issuing sequencer. -/
def engineMine (s : State) (loc : Nat) : Bool :=
  match (s.dieAt (dieOf loc)).job with
  | some j => (match j.ctx with | some (by_, _, _) => by_ == s.cur.loc | none => false)
  | none => false

/-- The target and address of a context operation, read when its wait begins: target + 512 × address. -/
def contextOperands (t a : BitVec 4) (write : Bool) : Act Nat := latched (do
  let loc ← supervisorTarget t
  let va ← readNat .y a.toNat
  let _ ← contextAddr a write
  return loc + 512 * va)

/-- Begin the engine's work for a context operation, once it is free, and stall (R352, R362). -/
def beginContext (v : Nat) (load : Bool) (f : State → State) : Act Unit := do
  Act.await (fun s => engineFree s (v % 512))
  Act.hold (fun s =>
    let s := f s
    startJob (s.setMe { s.me with latch := some (s.cur.slot.num, s.here, v) }) (contextJob s (v % 512) (v / 512) load))

/-- `ctxsave` (R352): the target is frozen at once, the save engine writes its context once its withdraw is acknowledged, and it is
idle. -/
def execCtxsave (g : Guard) (t a : BitVec 4) (s : State) : Host.Outcome State Fault Refusal :=
  issue (.ctxsave g t a) (begunGuard (waitBegun s) g) (do
    let v ← contextOperands t a true
    let s ← Act.view id
    if !waitBegun s then beginContext v false (fun s => freezeNow s (v % 512))
    else do
      Act.await (fun s => !engineMine s (v % 512))
      Act.change (fun s => s.setMe { s.me with latch := none })) s

/-- `ctxload` (R352): the context is checked and brought into an idle target, and with GO resumed.
(DEDUCED, assumption 36) -/
def execCtxload (g : Guard) (t a : BitVec 4) (go : Bool) (s : State) : Host.Outcome State Fault Refusal :=
  issue (.ctxload g t a go) (begunGuard (waitBegun s) g) (do
    let v ← contextOperands t a false
    let loc := v % 512
    let s ← Act.view id
    if !waitBegun s then do
      Act.check ((s.seqAt loc).status == 0) 0x40 (fullLoc s loc)
      Act.await (fun s => (s.seqAt loc).ifr.isEmpty)
      beginContext v true id
    else do
      Act.await (fun s => !engineMine s loc)
      Act.change (fun s => s.setMe { s.me with latch := none })
      let s ← Act.view id
      match (match (s.quadAt (partOf loc)).resident with
        | some vd => contextOk s loc vd s.myVd (v / 512) ownBytes
        | none => none) with
      | none => fun s => .error (.trapWith s 0x11 0)
      | some x =>
        Act.change (fun s =>
          let s := loadContext s loc x
          if !go then s
          else
            let s := resume s loc
            if x.state = 2 then dispose s loc 0 else s)) s

/-- The bytes that `pimg` writes (R353). -/
def pimgBytes (q : Seq) : List Byte :=
  let es := pipeImage q
  let counts := Slot.all.map (fun x => BitVec.ofNat 8 (es.filter (fun e => e.slot == x)).length)
  counts ++ List.replicate 55 0 ++
    es.flatMap (fun e => toBytes 16 (pipeHead q e) ++ List.replicate 48 0 ++ toBytes 64 (pipeValue e))

/-- `pimg` (R353). -/
def execPimg (g : Guard) (t a : BitVec 4) (s : State) : Host.Outcome State Fault Refusal :=
  issue (.pimg g t a) g (do
    let loc ← supervisorTarget t
    let va ← readNat .y a.toNat
    let s ← Act.view id
    let b := pimgBytes (s.seqAt loc)
    Act.check ((s.seqAt loc).status == 3) 0x11 0
    Act.check (va % 64 == 0 && decide (va + b.length ≤ Config.localBytes)) 0x11 va
    Act.change (fun s => clearMarks (s.setMem (s.mem.storeAll (localPhys s (coreOf s.cur.loc) va) b))
      ((List.range b.length).map (localPhys s (coreOf s.cur.loc) va + ·)))) s

/-! ### The save engine (R362, R363, R365, R366) -/

/-- Bytes of a partition's local stores that its save sets hold, at 8 MiB × core + address (R365). -/
def savedBytes (s : State) (part : Nat) : Memory :=
  let keep := (s.quadAt part).saves
  (List.range 4).flatMap (fun j =>
    let lo := localPhys s (4 * part + j) 0
    ((s.mem.inside lo 0x600000).map (fun c => (0x800000 * j + (c.1 - lo), c.2))).filter (fun c =>
      keep.any (fun r => decide (r.1 ≤ c.1 % 0x800000) && decide (c.1 % 0x800000 < r.2))))

/-- The image of a partition (R365). -/
def imageOf (s : State) (vd part : Nat) : Image :=
  let k := s.quadAt part
  let each := fun {α : Type} (f : Nat → α) => (List.range 4).map (fun j => (j, f (4 * part + j)))
  { vd := vd, ctr := k.ctr, comm := each (fun c => (s.coreAt c).c), cmarks := each (fun c => (s.coreAt c).cmarks), stores := each (fun c => (s.coreAt c).store)
    eps := each s.epAt, placed := each (fun c => (s.coreAt c).placed), saves := k.saves, bytes := savedBytes s part
    busy := (List.range 8).filter (fun i => (s.seqAt (8 * part + i)).status != 0) }

/-- Empty a partition for the next device: what no save holds is gone. (DEDUCED, assumption 35) -/
def blankPartition (s : State) (part : Nat) : State :=
  let s := (List.range 4).foldl (fun t j =>
    let c := 4 * part + j
    let lo := localPhys t c 0
    let t := t.setMem (t.mem.erase lo 0x600000)
    { (t.setCore c Core.reset).setEp c Endpoint.reset with
      marks := t.marks.filter (fun m => !(decide (lo ≤ 8 * m) && decide (8 * m < lo + 0x600000))) }) s
  let d := s.dieAt (part / 8)
  (s.setQuad part Quad.reset).setDie (part / 8) { d with walks := d.walks.filter (fun w => w.part != part) }

/-- Records of devices that are no longer resident on a die are withheld there (R329, R332). -/
def withhold (s : State) (die : Nat) : State :=
  let k := s.dieAt die
  s.setDie die { k with lane := k.lane.map (fun r => { r with held := r.held || !residentOn s die r.vd }) }

/-- End a save: image and contexts stand, the partition is free (R317, R362); a `ctxsave` leaves its target idle (R352). -/
def finishSave (s : State) (j : SaveJob) : State :=
  match j.ctx with
  | some (_, loc, _) => leaveSaved s loc
  | none =>
    let s := { s with images := s.images.put (imageKey j.vd j.num) (imageOf s j.vd j.part) }
    withhold (blankPartition ((partLocs j.part).foldl leaveSaved s) j.part) (j.part / 8)

/-- A ghost map's location after its partition has moved (R266). -/
def moveMap (part : Nat) (m : MapSlot) : MapSlot := { m with ghost := m.ghost.map (fun g => (8 * part + g.1 % 8, g.2)) }

/-- Bring an image into a partition (R365). -/
def loadImage (s : State) (part : Nat) (x : Image) : State :=
  let s := blankPartition s part
  let s := (List.range 4).foldl (fun t j =>
    let c := 4 * part + j
    let e := x.eps.look Endpoint.reset j
    let t := t.setCore c { Core.reset with c := x.comm.look [] j, cmarks := x.cmarks.look [] j, store := x.stores.look [] j, placed := x.placed.look [] j }
    let t := t.setEp c
      { e with
        maps := e.maps.map (fun m => (m.1, moveMap part m.2)),
        arrive := e.arrive.map (fun a => { a with pins := a.pins.map (fun m => (m.1, moveMap part m.2)) }) }
    let lo := localPhys t c 0
    t.setMem ((x.bytes.inside (0x800000 * j) 0x600000).foldl (fun m b => m.store (lo + (b.1 - 0x800000 * j)) b.2) t.mem)) s
  s.setQuad part { ctr := x.ctr, resident := none, saves := x.saves }

/-- Load the context of sequencer i of a partition; one that fails its checks leaves it idle and posts a fatal record (R364). -/
def restoreContext (j : SaveJob) (s : State) (i : Nat) : State :=
  let loc := 8 * j.part + i
  match contextOk s loc j.vd j.vd (cellarAddr (s.vdAt j.vd) j.num i) (cellarOwn s j.vd j.num i) with
  | some x => loadContext s loc x
  | none =>
    postFatal s (dieOf loc) j.vd (packBits [(0, 8, 0x7F), (8, 1, 1), (12, 4, 15), (16, 15, fullLoc s loc), (32, 16, j.vd),
      (320, 64, j.vd), (384, 64, vtime s j.vd)])

/-- End a restore: image, contexts, residency, then resume (R361, R362, R376); a `ctxload` does the rest itself (R352). -/
def finishRestore (s : State) (j : SaveJob) : State :=
  if j.ctx.isSome then s
  else match s.images.find (imageKey j.vd j.num) with
  | none => s
  | some x =>
    let s := (List.range 8).foldl (restoreContext j) (loadImage s j.part x)
    let s := s.setQuad j.part { s.quadAt j.part with resident := some j.vd }
    (partLocs j.part).foldl resume s

/-- Drop every trace of a device but its registers, tables and partitions, and end its tasks (R317, R366).
(DEDUCED, assumption 35) -/
def resetDevice (s : State) (vd : Nat) : State :=
  let parts := (List.range 64).filter (fun p => (s.quadAt p).resident == some vd)
  let s := { s with
    net := s.net.filter (fun p => p.key.vd != vd), casts := s.casts.filter (fun c => match c with | .flip v _ _ _ => v != vd | .launch _ _ => true),
    gone := s.gone.filter (fun x => x.vd != vd),
    withdraws := s.withdraws.filter (fun w => (s.seqAt w.loc).task.vd != vd),
    published := s.published.filter (fun h => !parts.contains (partOf h.loc)),
    tokens := s.tokens.filter (fun t => t.1 / 2 ^ 31 != vd),
    saved := s.saved.filter (fun x => x.2.vd != vd), images := s.images.filter (fun x => x.2.vd != vd),
    eps := s.eps.map (fun e => (e.1, {
      maps := e.2.maps.filter (fun m => m.2.vd != vd), arrive := e.2.arrive.filter (fun a => a.key.vd != vd),
      staged := e.2.staged.filter (fun c => c.key.vd != vd), window := e.2.window.filter (fun r => r.key.vd != vd) })),
    dies := s.dies.map (fun d => (d.1, { d.2 with
      launches := d.2.launches.filter (fun l => LaunchPacket.vd l.pkt != vd),
      cards := d.2.cards.filter (fun c => c.key.vd != vd),
      walks := d.2.walks.filter (fun w => w.vd != vd),
      job := d.2.job.filter (fun j => j.vd != vd) })) }
  let s := parts.foldl (fun t p =>
    (partLocs p).foldl (fun t loc => t.setSeq loc { Seq.reset with starts := (t.seqAt loc).starts }) (blankPartition t p)) s
  let v := s.vdAt vd
  (List.range 8).foldl withhold (offerLaunches (s.setVd vd { v with barriers := [], leaves := [], perfCnt := [] }))

/-- A reset has reached a save at a step boundary: no further step of the device's saves runs, its state goes, a fatal record is posted for
each save, and the command of each reset is done (R366, R376). -/
def abortSave (s : State) (die : Nat) (j : SaveJob) : State :=
  let at_ := (List.range 8).filter (fun d => d == die || (s.dieAt d).job.any (fun k => k.vd == j.vd))
  let t := j.abort.foldl (fun t n => setStatus t (n / 64) (n % 64) 1) (resetDevice s j.vd)
  at_.foldl (fun t d => postFatal t d j.vd (packBits [(0, 8, 0x7F), (8, 1, 1), (12, 4, 15), (16, 15, fullLoc t (64 * d)), (32, 16, j.vd),
    (320, 64, j.vd), (384, 64, vtime t j.vd)])) t

/-- The sequencers that a job saves. -/
def jobLocs (j : SaveJob) : List Nat :=
  match j.ctx with
  | some (_, loc, _) => [loc]
  | none => partLocs j.part

/-- Whether every sequencer that a job saves is frozen and withdrawn. -/
def jobReady (s : State) (j : SaveJob) : Bool := j.restore || (jobLocs j).all (savable s)

/-- The device through which a job's addresses are translated, and the address where its parts begin. -/
def jobBase (s : State) (j : SaveJob) : Nat × Nat :=
  match j.ctx with
  | some (by_, _, va) => ((s.seqAt by_).task.vd, va)
  | none => (j.vd, cellarBase (s.vdAt j.vd) j.num)

/-- The blocks that a save writes before its headers. -/
def jobBlocks (s : State) (j : SaveJob) : List (CellarPart × Nat) :=
  let parts := match j.ctx with
    | some (_, loc, _) => [contextPart s loc 0]
    | none => partitionParts s j.vd j.part
  parts.flatMap (fun p => (List.range p.count).map (fun n => (p, n)))

/-- The headers that a save writes last: location and offset. -/
def jobHeaders (j : SaveJob) : List (Nat × Nat) :=
  match j.ctx with
  | some (_, loc, _) => [(loc, 0)]
  | none => (List.range 8).map (fun i => (8 * j.part + i, coreArea (i / 2) + i % 2 * 0x20000))

/-- Write a block of 4 KiB at an offset of a job's area; one whose page does not translate is not written. -/
def writeBlock (s : State) (j : SaveJob) (off : Nat) (b : List Byte) : State :=
  let (vd, va) := jobBase s j
  match translate s vd (va + off) true with
  | .ok pa =>
    if physMod pa = s.module then clearMarks (s.setMem (s.mem.storeAll pa b)) ((List.range b.length).map (pa + ·)) else s
  | _ => s

/-- Write a context's header with the block that it stands in: the context is complete (R362). -/
def writeHeader (s : State) (j : SaveJob) (loc off : Nat) : State :=
  let n := freshHandle s
  let s' := writeBlock s j off (headerBlock s loc)
  { s' with saved := s.saved.put n (contextOf s loc n) }

/-- Steps of a restore: the image's blocks and those of each core part. -/
def restoreSteps (j : SaveJob) : Nat := if j.ctx.isSome then 31 else 512 + 8 * 31

/-- STATUS of the command that a job answers. -/
def jobStatus (s : State) (j : SaveJob) : State :=
  match j.slot with
  | some n => setStatus s (n / 64) (n % 64) 1
  | none => s

/-- A job has ended: the engine is free, and its command is done. -/
def endJob (s : State) (die : Nat) (j : SaveJob) : State :=
  let s := s.setDie die { s.dieAt die with job := none }
  jobStatus (if j.restore then finishRestore s j else finishSave s j) j

/-- SAVE_STEP: the engine writes one block of a save: the partition image, the contexts, their headers last; or it reads one of a restore.
The last step ends the job (R362, R366). (DEDUCED, assumption 22) -/
def execSaveStep (die : Nat) (s : State) : Host.Outcome State Fault Refusal :=
  match (s.dieAt die).job with
  | none => .next s
  | some j =>
    let on := fun (t : State) => t.setDie die { t.dieAt die with job := some { j with done := j.done + 1 } }
    if !jobReady s j then .next s
    else if !j.abort.isEmpty then .next (abortSave s die j)
    else if j.restore then .next (if j.done + 1 < restoreSteps j then on s else endJob s die j)
    else
      let bs := jobBlocks s j
      let hs := jobHeaders j
      match bs[j.done]? with
      | some (p, n) => .next (on (writeBlock s j (p.off + 4096 * n) (p.block n)))
      | none =>
        let t := match hs[j.done - bs.length]? with
          | some (loc, off) => writeHeader s j loc off
          | none => s
        .next (if j.done + 1 < bs.length + hs.length then on t else endJob t die j)

/-- The partition of this module that a device's partition number names, by its number in the module. -/
def ownPartition (s : State) (vd num : Nat) : Option Nat :=
  match (s.vdAt vd).parts[num]? with
  | some p => if p / 64 = s.module then some (p % 64) else none
  | none => none

/-- Whether the command at the head of a die's slots names a partition whose die's save engine is at work: it waits (R362).
(DEDUCED, assumption 25) -/
def engineBusy (s : State) (die slot : Nat) : Bool :=
  let k := s.dieAt die
  match ownPartition s (k.dword slot 1) (k.dword slot 2) with
  | some part => (s.dieAt (part / 8)).job.isSome
  | none => false

/-- A job of a partition that answers a command slot. -/
def slotJob (vd part num : Nat) (restore : Bool) (die slot : Nat) : SaveJob :=
  ⟨vd, part, num, restore, 0, some (64 * die + slot), [], none⟩

/-- Start a save of a partition, its sequencers frozen by f; it must be resident for the device and its Cellar mapped (R362). -/
def startSave (die slot : Nat) (f : State → Nat → State) (w : Nat → Nat) (s : State) : State × Option Nat :=
  match ownPartition s (w 1) (w 2) with
  | none => (s, some 3)
  | some part =>
    if (s.quadAt part).resident ≠ some (w 1) then (s, some 2)
    else (startJob ((partLocs part).foldl f s) (slotJob (w 1) part (w 2) false die slot), none)

/-- SAVE_PARTITION: command 3 (R362, R376). -/
def execSavePartition (die slot : Nat) (s : State) : Host.Outcome State Fault Refusal :=
  if engineBusy s die slot then .next s
  else .next (command s die slot 3 (startSave die slot freezeNow))

/-- END_SLICE: command 5 (R332, R376). -/
def execEndSlice (die slot : Nat) (s : State) : Host.Outcome State Fault Refusal :=
  if engineBusy s die slot then .next s
  else .next (command s die slot 5 (fun w s => startSave die slot (endSliceOf (w 1)) w s))

/-- RESTORE_PARTITION: command 4 (R317, R362, R376): a partition never saved starts with every sequencer idle. -/
def execRestorePartition (die slot : Nat) (s : State) : Host.Outcome State Fault Refusal :=
  if engineBusy s die slot then .next s
  else .next (command s die slot 4 (fun w s =>
    let vd := w 1
    match ownPartition s vd (w 2) with
    | none => (s, some 3)
    | some part =>
      if (s.quadAt part).resident.isSome then (s, some 2)
      else if s.images.has (imageKey vd (w 2)) then (startJob s (slotJob vd part (w 2) true die slot), none)
      else
        let s := blankPartition s part
        (s.setQuad part { s.quadAt part with resident := some vd }, some 1)))

/-! ### Replay horizons (R359) -/

/-- The smallest counter among values, seen from the next value below a modulus; the next value when there are none. -/
def oldest (next m : Nat) (xs : List Nat) : Nat := (next + m - (xs.map (fun x => (next + m - x) % m)).foldl Nat.max 0) % m

/-- The nine horizons of a sequencer's origin: access counter and channels 0 to 7. -/
def horizonsOf (q : Seq) : List Nat :=
  let mine := (q.ifr.map (·.2)).filter (fun e => e.key.origin == q.origin && e.key.epoch == q.epoch)
  oldest q.access (2 ^ 30) ((mine.filter (fun e => e.kind < 7 || e.kind == 11)).map (·.id)) ::
  (List.range 8).map (fun c =>
    oldest (nextId q c) (2 ^ 32) ((mine.filter (fun e => 7 ≤ e.kind && e.kind ≤ 10 && e.ch == c)).map (·.id)))

/-- Where a publication goes: every endpoint and the barrier tree. -/
def publishPlaces : List Nat := List.range 528 ++ [barrierEp]

/-- HORIZON_PUBLISH: a sequencer publishes the last horizons of an earlier task all of whose entries are free, or those of its
task when one of them has moved (R359). -/
def execHorizonPublish (loc : Nat) (s : State) : Host.Outcome State Fault Refusal :=
  let q := s.seqAt loc
  match q.past.find? (fun p => !q.ifr.any (fun e => e.2.key.origin == p.1 && e.2.key.epoch == p.2.1)) with
  | some p =>
    .next { s.setSeq loc { q with past := q.past.filter (· != p) } with
      published := s.published ++ [⟨loc, p.1, p.2.1, p.2.2, publishPlaces⟩] }
  | none =>
    let h := horizonsOf q
    if q.epoch = 0 ∨ h = q.horizons then .next s
    else .next { s.setSeq loc { q with horizons := h } with
      published := s.published ++ [⟨loc, q.origin, q.epoch, h, publishPlaces⟩] }

/-- Whether a record lies below a published horizon; tags hold ids modulo 2^30 (R356, R359). -/
def retired (h : Horizon) (r : Record) : Bool :=
  let n := r.key.tag % 2 ^ 30
  let m := if r.key.fam then h.marks.getD (1 + r.key.tag / 2 ^ 30 % 8) 0 else h.marks.getD 0 0
  let d := (m + 2 ^ 30 - n) % 2 ^ 30
  r.key.origin == h.origin && r.key.epoch == h.epoch && decide (1 ≤ d) && decide (d < 2 ^ 29)

/-- HORIZON_RETIRE: a publication reaches an endpoint, which retires the records below it (R359). -/
def execHorizonRetire (ep loc : Nat) (s : State) : Host.Outcome State Fault Refusal :=
  match s.published.find? (fun h => h.loc == loc && h.eps.contains ep) with
  | none => .next s
  | some h =>
    let k := s.epAt ep
    let s := s.setEp ep { k with window := k.window.filter (fun r => !retired h r) }
    let h' := { h with eps := h.eps.filter (· != ep) }
    .next { s with published := (s.published.map (fun x => if x = h then h' else x)).filter (fun x => !x.eps.isEmpty) }

end Sys2Proof.Machine
end

