-- ==== Sys2Proof/Machine/Links.lean ====
section
/-! DEFINITION. Stations, rings and bridge links (22_isolation.md R330, 24_preemption.md R367, 26_outside.md R378 to R382,
18_remote.md R284). -/

namespace Sys2Proof.Machine

/-! ### Directions (R378, R381) -/

/-- A link of a station: 0 leads to the next module, 1 to the previous one. -/
def State.link (s : State) (l : Nat) : Link := s.links.look Link.reset l
/-- Replace a link. -/
def State.setLink (s : State) (l : Nat) (k : Link) : State := { s with links := s.links.put l k }

/-- Whether packets may be sent over a link: trained and not unrecoverable. -/
def linkUp (s : State) (l : Nat) : Bool := (s.link l).up && !(s.link l).dead

/-- The bridge station that a packet uses: the one beside its requester's die, or the one by which it came. -/
def stationOf (p : Packet) : Nat := p.st.getD (dieOf p.loc / 2)

/-- The link of a direction at a station: clockwise leads to the next module. -/
def linkOf (st dir : Nat) : Nat := 2 * st + (dir - 1)

/-- Hops clockwise on the way of a packet, and the length of its ring: dies of the module, or modules of the pod map. -/
def hopsOf (s : State) (p : Packet) : Nat × Nat :=
  if p.toward = s.module then ((epDie p.ep + 8 - dieOf p.loc) % 8, 8)
  else
    let ring := (List.range 64).filter (fun m => s.podMap.testBit m)
    let at_ := fun m => (ring.takeWhile (· < m)).length
    ((at_ p.toward + ring.length - at_ s.module) % ring.length, ring.length)

/-- Whether a direction is open to a packet: a path over a link that is down is never chosen. -/
def dirOpen (s : State) (p : Packet) (dir : Nat) : Bool :=
  p.toward == s.module || linkUp s (linkOf (stationOf p) dir)

/-- The station that measures a packet's ring: 0 to 3 the bridge stations on their rack rings, 4 + d that of die d on the package ring. -/
def ringStation (s : State) (p : Packet) : Nat := if p.toward = s.module then 4 + dieOf p.loc else stationOf p

/-- The direction of a flow that has no packet outstanding: the shorter path, clockwise on a tie, unless the other one is less occupied
by more than RING.SKEW; 0 when none is open (R381). -/
def freshDir (s : State) (p : Packet) : Nat :=
  let (n, ring) := hopsOf s p
  let short := if n ≤ ring - n then 1 else 2
  let other := 3 - short
  let occ := fun d => s.occup.look 0 (2 * ringStation s p + (d - 1))
  if !dirOpen s p short then (if dirOpen s p other then other else 0)
  else if s.skew ≠ 0 ∧ occ other + s.skew < occ short ∧ dirOpen s p other then other
  else short

/-- Whether a request of this module that has left it is unanswered. -/
def unanswered (s : State) (p : Packet) : Bool :=
  match (s.seqAt p.loc).ifr.find p.entry with
  | some e => decide (e.key = p.key) && decide (e.state < 3)
  | none => false

/-- The direction of a packet: that of its flow while another packet of it is outstanding (R381). -/
def chooseDir (s : State) (p : Packet) : Nat :=
  let sent := s.links.flatMap (fun l => l.2.buffer.map (·.2) ++ l.2.away.filter (unanswered s))
  match (s.net ++ sent).find? (fun q => q.id != p.id && q.dir != 0 && q.asks == p.asks && sameFlow q p) with
  | some q => if dirOpen s p q.dir then q.dir else freshDir s p
  | none => freshDir s p

/-! ### Ingress slots (R330) -/

/-- The traffic class of a packet: 0 request, 1 reply, 2 transfer beat, 3 notification. -/
def Packet.trafficClass (p : Packet) : Nat :=
  match p.kind with
  | .reply _ _ | .refuse _ _ => 1
  | .beat _ _ _ _ _ | .header _ _ _ => 2
  | .arrival _ _ => 3
  | _ => 0

/-- The minimum of a device and class at a station. -/
def minShare (s : State) (st vd cls : Nat) : Nat := (s.vdAt vd).shares.look 0 (4 * st + cls)

/-- Slots of a station's direction that a device holds in a class: packets it has taken that have not left over a link, and those that a
link has brought and that have not been served. -/
def slotsHeld (s : State) (st dir vd cls : Nat) : Nat :=
  (s.net.filter (fun p => p.accepted && (p.toward != s.module || p.st.isSome) && stationOf p == st && p.dir == dir && p.key.vd == vd &&
    p.trafficClass == cls)).length

/-- Every minimum of a station. -/
def allShares (s : State) (st : Nat) : Nat :=
  (s.vds.map (fun v => ((List.range 4).map (fun c => minShare s st v.1 c)).sum)).sum

/-- Pool slots in use in a station's direction. -/
def poolUsed (s : State) (st dir : Nat) : Nat :=
  (s.vds.map (fun v => ((List.range 4).map (fun c => slotsHeld s st dir v.1 c - minShare s st v.1 c)).sum)).sum

/-- Whether a packet finds a slot in the ingress buffer of a direction: one of its device's own, else one of the pool (R330). -/
def slotFree (s : State) (p : Packet) (dir : Nat) : Bool :=
  let st := stationOf p
  decide (slotsHeld s st dir p.key.vd p.trafficClass < minShare s st p.key.vd p.trafficClass) ||
  decide (poolUsed s st dir < Config.ingressSlots - allShares s st)

/-! ### Links beyond recovery (R284, R367) -/

/-- INFO of trap 0x71: bridge station and link. -/
def linkInfo (st l : Nat) : Nat := 2 * st + l % 2

/-- The entry of a packet that cannot reach its home completes with trap 0x71. -/
def loseEntry (info : Nat) (s : State) (p : Packet) : State :=
  if p.src = s.module ∧ p.asks then
    match (s.seqAt p.loc).ifr.find p.entry with
    | some e => if e.key = p.key then putEntry s p.loc p.entry { e with state := 4, fault := 1, code := 0x71, info := info } else s
    | none => s
  else s

/-- A link is unrecoverable: the entries whose packets depend on it, those that it holds and those whose answers were to come back over it,
complete with trap 0x71, and packets that had chosen it choose again. (DEDUCED, assumption 68) -/
def killLink (s : State) (l : Nat) : State :=
  let k := s.link l
  let s := (k.buffer.map (·.2) ++ k.away.filter (unanswered s)).foldl (loseEntry (linkInfo (l / 2) l)) s
  let again := fun (p : Packet) => if p.toward ≠ s.module ∧ p.dir ≠ 0 ∧ linkOf (stationOf p) p.dir = l then
    { p with accepted := false, dir := 0 } else p
  { s.setLink l { k with up := false, dead := true, retrain := none, buffer := [], away := [] } with net := s.net.map again }

/-! ### PACKET_OFFER (R330, R379 to R381) -/

/-- An earlier packet of the flow that satisfies a test. -/
def earlierInFlow (s : State) (p : Packet) (ok : Packet → Bool) : Bool :=
  (s.net.takeWhile (fun q => q.id != p.id)).any (fun q => q.asks == p.asks && sameFlow q p && ok q)

/-- A packet on its way within the module is offered to the stations of the package ring; one that a link has brought takes a slot of its
bridge station first (R330). -/
def offerNear (s : State) (p : Packet) : State :=
  if earlierInFlow s p (fun q => !q.accepted) ∨ (p.st.isSome ∧ !slotFree s p p.dir) then putPacket s { p with refused := true }
  else if p.st.isSome then putPacket s { p with accepted := true, refused := false }
  else putPacket s { p with accepted := true, refused := false, dir := chooseDir s p }

/-- A packet that leaves the module is offered to its bridge station. (DEDUCED, assumption 24) -/
def offerStation (s : State) (p : Packet) : State :=
  let st := stationOf p
  let dir := chooseDir s p
  if (s.link (2 * st)).dead ∧ (s.link (2 * st + 1)).dead then loseEntry (linkInfo st (2 * st)) (dropPacket s p.id) p
  else if dir = 0 ∨ earlierInFlow s p (fun q => !q.accepted) ∨ !slotFree s p dir then putPacket s { p with refused := true }
  else putPacket s { p with accepted := true, refused := false, dir := dir }

/-- A packet that a station has taken goes into its link's replay buffer. -/
def offerLink (s : State) (p : Packet) : State :=
  let l := linkOf (stationOf p) p.dir
  let k := s.link l
  if !linkUp s l ∨ k.retrain.isSome ∨ Config.replaySlots ≤ k.buffer.length ∨ earlierInFlow s p (fun _ => true) then s
  else
    let n := (k.sent + 1) % 2 ^ 16
    (dropPacket s p.id).setLink l { k with sent := n, buffer := k.buffer ++ [(n, p)] }

/-- PACKET_OFFER: a packet is offered to the next station on its way, which takes it into a free slot or refuses it (R379). -/
def execPacketOffer (pk : Nat) (s : State) : Host.Outcome State Fault Refusal :=
  match s.packet pk with
  | none => .next s
  | some p =>
    if p.toward = s.module then (if p.accepted then .next (putPacket s { p with refused := false }) else .next (offerNear s p))
    else if p.accepted then .next (offerLink s p)
    else .next (offerStation s p)

/-! ### Link events (R367, R382) -/

/-- Number j of eight bytes in a frame's data. -/
def frameWord (f : LinkFrame) (j : Nat) : Nat := ofBytes ((f.data.drop (8 * j)).take 8)

/-- The suppression key of a frame. -/
def frameKey (f : LinkFrame) : Key := ⟨f.tag, f.fam, f.tag / 2 ^ 33 % 2 ^ 15, f.epoch, f.vd⟩

/-- What a frame asks or answers; none for notifications that no packet carries. -/
def frameContent (f : LinkFrame) : Option PktKind :=
  let d := f.data
  match f.kind with
  | 0 => some (.read (frameWord f 0))
  | 1 => some (.write d (2 ^ d.length - 1))
  | 2 => some (.atom (frameWord f 0) (frameWord f 1 != 0) (frameWord f 2) (frameWord f 3) (frameWord f 4) (frameWord f 5 != 0))
  | 3 => some (.beat (BitVec.ofNat 512 (ofBytes (d.take 64))) (if frameWord f 8 = 0 then none else some (frameWord f 8 - 1)) (frameWord f 9)
      (frameWord f 10) ((d.drop 88).take 64))
  | 4 => some (.ask (BitVec.ofNat 512 (ofBytes (d.take 64))))
  | 5 => some (.arrival (frameWord f 0) (frameWord f 1))
  | 6 => some (.reply (ofBytes (d.take 64)) (frameWord f 8))
  | 7 => some (.refuse (frameWord f 0) (frameWord f 1))
  | 11 => some (.header (BitVec.ofNat 512 (ofBytes (d.take 64))) (if frameWord f 8 = 0 then none else some (frameWord f 8 - 1)) (frameWord f 9))
  | _ => none

/-- The packet of a frame as it enters the module by a link: what comes from the previous module goes clockwise. It is offered to its
bridge station there. -/
def framePacket (s : State) (l : Nat) (f : LinkFrame) (k : PktKind) : Packet :=
  let p : Packet :=
  { id := 0, kind := k, key := frameKey f, src := f.src, loc := f.loc, entry := f.entry, cls := f.cls, chan := f.chan, dst := f.dst,
    ep := f.ep, addr := f.addr, va := f.va, off := f.off, ca := false, accepted := false, refused := false, st := some (l / 2) }
  if p.toward = s.module then
    let p := { p with dir := 2 - l % 2 }
    { p with accepted := slotFree s p p.dir, refused := !slotFree s p p.dir }
  else p

/-- Whether a packet from a link is the answer of a barrier root to an arrival of this module (R306). -/
def countedArrival (s : State) (p : Packet) : Bool :=
  !p.asks && p.src == s.module && (match (s.seqAt p.loc).ifr.find p.entry with | some e => e.kind == 11 | none => false)

/-- Take in what an accepted frame carries: the answer to an arrival frees its entry. (DESIGN CHOICE, assumption 23) -/
def takeFrame (s : State) (l : Nat) (f : LinkFrame) : State :=
  match frameContent f with
  | some k =>
    let p := framePacket s l f k
    if countedArrival s p then freeArrival s p else emit s p
  | none =>
    let k := frameKey f
    if f.kind = 8 then
      let s := copyFlip s f.vd (frameWord f 0) (frameWord f 1)
      { s with casts := s.casts ++ [.flip f.vd (frameWord f 0) (frameWord f 1) (barrierCores (frameWord f 0))] }
    else if f.kind = 9 then discardOrigin s k.origin k.epoch (fun _ => true)
    else if f.kind = 10 then
      { s with published := s.published ++ [⟨2 ^ 15 + k.origin, k.origin, k.epoch, (List.range 9).map (frameWord f), publishPlaces⟩] }
    else s

/-- LINK_PACKET_RECEIVE: the receiver accepts the next number in order whose check passes and discards every other (R367). -/
def execLinkPacketReceive (link : Nat) (f : LinkFrame) (s : State) : Host.Outcome State Fault Refusal :=
  let k := s.link link
  if !linkUp s link ∨ !f.good ∨ f.seq ≠ (k.accepted + 1) % 2 ^ 16 then .next s
  else .next (takeFrame (s.setLink link { k with accepted := f.seq }) link f)

/-- LINK_ACK: a cumulative acknowledgement frees the replay buffer up to its number (R367). -/
def execLinkAck (link seq : Nat) (s : State) : Host.Outcome State Fault Refusal :=
  let k := s.link link
  let n := (seq + 2 ^ 16 - k.acked) % 2 ^ 16
  if !linkUp s link ∨ 2 ^ 16 ≤ seq ∨ k.buffer.length < n then .next s
  else
    let gone := ((k.buffer.take n).map (·.2)).filter (fun p => p.asks && p.src == s.module)
    .next (s.setLink link { k with acked := seq, buffer := k.buffer.drop n, away := k.away.filter (unanswered s) ++ gone })

/-- LANE_FAILURE: a link of 16 lanes retrains to the half without the failed lane; a failure in the remaining half makes it
unrecoverable (R367). -/
def execLaneFailure (link lane : Nat) (s : State) : Host.Outcome State Fault Refusal :=
  let k := s.link link
  if !linkUp s link ∨ 16 ≤ lane then .next s
  else if k.lanes = 16 then
    .next (s.setLink link { k with lanes := 8, lowHalf := decide (8 ≤ lane), retrain := some s.now })
  else if k.lowHalf = decide (lane < 8) then .next (killLink s link)
  else .next s

/-- LINK_RETRAINED: retraining completes in time; the sender resends from the last acknowledged number plus one (R367). -/
def execLinkRetrained (link : Nat) (s : State) : Host.Outcome State Fault Refusal :=
  let k := s.link link
  match k.retrain with
  | some t => if s.now ≤ t + 2000 then .next (s.setLink link { k with retrain := none }) else .next s
  | none => .next s

/-- LINK_RETRAIN_TIMEOUT: retraining has not completed within 2 microseconds (R367). -/
def execLinkRetrainTimeout (link : Nat) (s : State) : Host.Outcome State Fault Refusal :=
  match (s.link link).retrain with
  | some t => if t + 2000 < s.now then .next (killLink s link) else .next s
  | none => .next s

/-- LINK_TRAINING: two ends of major 1 run at the smaller minor, and the modules that answer enter the pod map; ends of different
majors leave the link down (R382, R384). -/
def execLinkTraining (link version : Nat) (modules : List Nat) (s : State) : Host.Outcome State Fault Refusal :=
  if 8 ≤ link ∨ (s.link link).up ∨ s.ready = false then .next s
  else if bitsAt version 16 16 ≠ bitsAt Config.linkVersion 16 16 ∨ 2 ^ 32 ≤ version then .next (s.setLink link { Link.reset with up := false })
  else
    let found := modules.foldl (fun m n => if n < 64 then Nat.lor m (2 ^ n) else m) s.podMap
    let minor := Nat.min (bitsAt version 0 16) (bitsAt Config.linkVersion 0 16)
    .next { s.setLink link { Link.reset with up := true, version := minor } with podMap := found }

/-- RETRAIN_LINK: command 6 (R367, R376): a degraded link is trained to 16 lanes. -/
def execRetrainLink (die slot : Nat) (s : State) : Host.Outcome State Fault Refusal :=
  .next (command s die slot 6 (fun w s =>
    if 4 ≤ w 1 ∨ 2 ≤ w 2 then (s, some 3)
    else
      let l := 2 * w 1 + w 2
      let k := s.link l
      if linkUp s l ∧ k.lanes = 8 ∧ k.retrain.isNone then (s.setLink l { k with lanes := 16 }, some 1) else (s, some 2)))

/-- RING_SKEW_MEASURE: a station's window of 1,024 cycles closes with the mean occupancy of each direction of its ring in percent (R381):
bridge stations 0 to 3 on their rack rings, 4 + d the station of die d on the package ring. -/
def execRingSkewMeasure (station cw ccw : Nat) (s : State) : Host.Outcome State Fault Refusal :=
  if 12 ≤ station then .next s
  else .next { s with occup := (s.occup.put (2 * station) (Nat.min cw 100)).put (2 * station + 1) (Nat.min ccw 100) }

/-- MINIMUM_SHARE_SETTING: the hypervisor sets a device's minimum of a class at a station; all minimums of a station sum to at most
2,048 (R330). -/
def execMinimumShareSetting (station vd cls slots : Nat) (s : State) : Host.Outcome State Fault Refusal :=
  if 4 ≤ station ∨ 4 ≤ cls ∨ !s.vds.has vd then .next s
  else
    let v := s.vdAt vd
    let t := s.setVd vd { v with shares := v.shares.put (4 * station + cls) slots }
    if allShares t station ≤ Config.ingressMinimums then .next t else .next s

end Sys2Proof.Machine
end

