-- ==== Sys2Proof/Machine/Outside.lean ====
section
/-! DEFINITION. Host commands and stores, virtual devices, errors, reset and power (22_isolation.md R320 to R328, 23_traps.md R347,
R348, 26_outside.md R373 to R376, R384 to R387, R393). -/

namespace Sys2Proof.Machine

/-! ### Commands (R376) -/

/-- The endpoint that dword 1 of command 2 names on a die, where it is well formed. -/
def parkedEndpoint (die w : Nat) : Option Nat :=
  let kind := w % 8
  let n := w / 8
  if kind = 0 ∧ n < 32 then some (32 * die + n)
  else if kind = 1 ∧ n < 32 then some (256 + 32 * die + n)
  else if (kind = 2 ∨ kind = 3) ∧ n = 0 then some (512 + 2 * die + (kind - 2))
  else none

/-- DISCARD_PARKED_TRANSFER: command 2: the transfer fails with 0x50, and the others are looked at again (R225). -/
def execDiscardParkedTransfer (die slot : Nat) (s : State) : Host.Outcome State Fault Refusal :=
  .next (command s die slot 2 (fun w s =>
    match parkedEndpoint die (w 1) with
    | none => (s, some 3)
    | some ep =>
      match ((s.epAt ep).arrive.filter (·.parked))[w 2]? with
      | none => (s, some 2)
      | some a => (reexamineAll (endArrival s ep { a with fail := 0x50 }) ep, some 1)))

/-- FUNCTION_LEVEL_RESET: command 7: a reset that meets a save of the device takes effect, and is done, at the next
step boundary (R366). -/
def execFunctionLevelReset (die slot : Nat) (s : State) : Host.Outcome State Fault Refusal :=
  .next (command s die slot 7 (fun w s =>
    let vd := w 1
    if !s.vds.has vd then (s, some 3)
    else
      let busy := fun (d : Die) => d.job.any (fun j => j.vd == vd)
      if s.dies.any (fun d => busy d.2) then
        ({ s with dies := s.dies.map (fun d => (d.1, { d.2 with job := d.2.job.map (fun j =>
            if j.vd = vd then { j with abort := j.abort ++ [64 * die + slot] } else j) })) }, none)
      else (resetDevice s vd, some 1)))

/-- Write a register of a device (Table 26.4) for partition p where its scope is Partition; none for a number that is not one. -/
def Vd.write (v : Vd) (n x p : Nat) : Option Vd :=
  if n = 0x100 then some { v with scale := x % 2 ^ 32 }
  else if n = 0x101 then some { v with offset := x % 2 ^ 64 }
  else if n = 0x102 then some { v with root := bitsAt x 12 40 * 2 ^ 12 }
  else if n = 0x104 then some { v with masks := v.masks.put p (x % 2 ^ 32) }
  else if n = 0x105 then some { v with grace := x % 2 ^ 32 }
  else if n = 0x106 then some { v with rcache := bitsAt x 29 23 * 2 ^ 29 }
  else if n = 0x107 then some { v with cellar := bitsAt x 26 26 * 2 ^ 26 }
  else if 0x110 ≤ n ∧ n ≤ 0x117 then
    let k := 8 * p + (n - 0x110)
    some { v with perfSel := v.perfSel.put k (x % 256), perfCnt := v.perfCnt.put k 0 }
  else if 0x118 ≤ n ∧ n ≤ 0x11F then some { v with perfCnt := v.perfCnt.put (8 * p + (n - 0x118)) (x % 2 ^ 64) }
  else none

/-- Whether a register's scope is Partition (Table 26.4). -/
def perPartition (n : Nat) : Bool := n == 0x104 || (decide (0x110 ≤ n) && decide (n ≤ 0x11F))

/-- WRITE_VD_REGISTER: command 8 (R326, R328, R376). -/
def execWriteVdRegister (die slot : Nat) (s : State) : Host.Outcome State Fault Refusal :=
  .next (command s die slot 8 (fun w s =>
    let v := s.vdAt (w 1)
    let part := if perPartition (w 2) then v.parts[w 4]? else if w 4 = 0 then some 0 else none
    if !s.vds.has (w 1) then (s, some 3)
    else match part with
      | none => (s, some 3)
      | some p =>
        match v.write (w 2) (w 3) p with
        | none => (s, some 3)
        | some v' => (s.setVd (w 1) v', some 1)))

/-- TRANS_INV: command 9: no core keeps a translation of the device that is older (R325). -/
def execTransInv (die slot : Nat) (s : State) : Host.Outcome State Fault Refusal :=
  .next (command s die slot 9 (fun w s =>
    if !s.vds.has (w 1) then (s, some 3)
    else
      ({ s with dies := s.dies.map (fun d => (d.1, { d.2 with walks := d.2.walks.filter (fun x =>
          x.vd != w 1 || (x.found.isNone && x.code == 0)) })) }, some 1)))

/-- The measurements of a report: of each accepted firmware image, zero where there is none (Table 26.6). -/
def measurements (images : List Nat) : List Byte :=
  (List.range 8).flatMap (fun i => (List.range 48).map (fun j => match images[i]? with
    | some x => Config.measureByte x j
    | none => 0))

/-- The bytes of an attestation report (Table 26.6): what keys, hashes and signatures decide is free. -/
def reportBytes (s : State) (nonce : Nat) : List Byte :=
  toBytes 8 nonce ++ toBytes 4 0x93C ++ toBytes 4 s.rollback ++
  (List.range 0x30).map (fun j => Config.reportByte 0 0 (0x10 + j)) ++ measurements s.firmware ++
  (List.range 0x30).map (fun j => Config.reportByte 0 s.boot (0x1C0 + j)) ++
  (List.range (0x93C - 0x1F0)).map (fun j => Config.reportByte nonce s.lmsLeaf (0x1F0 + j)) ++
  List.replicate (4096 - 0x93C) 0

/-- ATTESTATION_REPORT: command 10 (R385). -/
def execAttestationReport (die slot : Nat) (s : State) : Host.Outcome State Fault Refusal :=
  .next (command s die slot 10 (fun w s =>
    if w 2 % 64 ≠ 0 ∨ Config.localBytes < w 2 + 4096 ∨ w 3 ≠ 0 then (s, some 3)
    else if 2 ^ 20 ≤ s.lmsLeaf then (s, some 2)
    else
      let a := localPhys s 0 (w 2)
      let t := clearMarks (s.setMem (s.mem.storeAll a (reportBytes s (w 1)))) ((List.range 4096).map (a + ·))
      ({ t with lmsLeaf := s.lmsLeaf + 1 }, some 1)))

/-! ### Host stores (R374, R375, R393) -/

/-- A store of an aligned dword to a command slot; dword 0 issues the command. -/
def storeCommand (s : State) (die i : Nat) (x : Word) : State :=
  let k := s.dieAt die
  let slot := i / 8
  s.setDie die
    { k with
      cmds := k.cmds.put i x
      due := if i % 8 = 0 then k.due.filter (· != slot) ++ [slot] else k.due }

/-- A store to a record ring register (Table 26.3): PROD is the die's. -/
def storeRing (s : State) (die i : Nat) (x : Nat) : State :=
  let k := s.dieAt die
  let v := match i % 4 with | 0 => x % 2 ^ 55 | 1 => x % 32 | _ => x % 2 ^ 32
  if i % 4 = 2 then s else s.setDie die { k with ringRegs := k.ringRegs.put i (BitVec.ofNat 64 v) }

/-- A dword of a 512-bit value replaced. -/
def setLane (v lane x : Nat) : Nat := v - bitsAt v (64 * lane) 64 * 2 ^ (64 * lane) + x * 2 ^ (64 * lane)

/-- A pipe-image entry with dword d of its 80 bytes replaced (Table 23.1): one whose V is cleared, or whose FILE names none, is gone. -/
def storePipe (q : Seq) (e : Pend) (d x : Nat) : Option Pend :=
  if d = 0 then
    match File.ofCode (bitsAt x 19 4) with
    | some f =>
      if bitsAt x 0 1 = 0 then none
      else
        let n := { e with dst := some ⟨f, bitsAt x 23 10⟩, poison := x.testBit 33 }
        some { n with li := stepOf q (deciderOf n) + bitsAt x 34 12 }
    | none => none
  else if d = 1 then some { e with mask := x }
  else some { e with val := BitVec.ofNat 512 (setLane e.val.toNat (d - 2) x) }

/-- A store of a dword of a pipe image (Table 24.4): 64 entries of 80 bytes for each slot. A place without an entry takes a valid dword 0
as a new result of its slot. -/
def storeImage (uid : Nat) (q : Seq) (o x : Nat) : Seq :=
  match Slot.all[o / 80 / 64]? with
  | none => q
  | some y =>
    match (slotImage q y)[o / 80 % 64]? with
    | some e =>
      let rest := q.pend.filter (· != e)
      { q with pend := match storePipe q e (o % 80 / 8) x with | some n => insertPend n rest | none => rest }
    | none =>
      let e : Pend :=
      { slot := y, dst := none, val := 0, mask := 0, poison := false, li := 0, bundle := stepOf q y - 1, live := true, done := false,
        avail := true, moved := false, ifr := none, sticky := 0, uid := uid }
      match (if o % 80 / 8 = 0 then storePipe q e 0 x else none) with
      | some n => { q with pend := insertPend n q.pend }
      | none => q

/-- An in-flight entry with a dword of its 32 bytes replaced (Table 24.1); one whose STATE or KIND becomes 0 is gone. -/
def storeEntry (q : Seq) (e : Ifr) (d x : Nat) : Option Ifr :=
  match d with
  | 0 =>
    if bitsAt x 4 3 = 0 ∨ bitsAt x 0 4 = 0 then none
    else some { e with
      kind := bitsAt x 0 4, state := bitsAt x 4 3, idem := bitsAt x 7 2, scope := bitsAt x 9 3, cls := bitsAt x 12 4
      key := { e.key with tag := bitsAt x 16 48 } }
  | 1 => some { e with target := bitsAt x 0 52 }
  | 2 => some { e with len := bitsAt x 0 32, ch := bitsAt x 32 3, sync := bitsAt x 35 22 }
  | _ =>
    let e := { e with
      rtype := bitsAt x 20 5, dst := (File.ofCode (bitsAt x 16 4)).map (fun f => ⟨f, bitsAt x 6 10⟩) }
    some (if 7 ≤ e.kind ∧ e.kind ≤ 10 then { e with id := bitsAt x 32 32 } else { e with li := stepOf q e.slot + bitsAt x 32 32 })

/-- A store of a dword behind the pipe image of the trap frame: the trap record, then the frame's steps, fetch address and generator state
(Table 24.4). -/
def storeFrame (q : Seq) (d x : Nat) : Seq :=
  if d < 8 then { q with record := BitVec.ofNat 512 (setLane q.record.toNat d x) }
  else match q.frame with
    | none => q
    | some f =>
      let g := if d < 17 then { f with steps := f.steps.put (d - 8) x } else if d = 17 then { f with pc := x }
        else if d = 18 then { f with seed := x } else if d = 19 then { f with nextIdx := x } else f
      { q with frame := some g }

/-- A store to the in-flight record: an entry that does not stand yet appears with a dword 0 that names its state and kind. -/
def storeRecord (q : Seq) (vd k d x : Nat) : Seq :=
  let kind := bitsAt x 0 4
  match q.ifr.find k with
  | some e => { q with ifr := match storeEntry q e d x with | some n => q.ifr.put k n | none => q.ifr.drop k }
  | none =>
    let new : Ifr := { Ifr.blank with key := ⟨0, decide (7 ≤ kind ∧ kind ≤ 10), q.origin, q.epoch, vd⟩, alloc := q.access }
    match (if d = 0 then storeEntry q new 0 x else none) with
    | some n => { q with ifr := q.ifr.put k n }
    | none => q

/-- A store of a dword of the view of a frozen or idle sequencer (Table 24.4). (DEDUCED, assumption 37) -/
def storeView (s : State) (loc o x : Nat) : State :=
  let q := s.seqAt loc
  let uid := 64 * s.free
  if q.status ≠ 0 ∧ q.status ≠ 3 then s
  else if 0x40 ≤ o ∧ o < 0x1000 then s.setSeq loc (viewPut q ((o - 0x40) / 8) x)
  else if 0x1000 ≤ o ∧ o < 0x3000 then
    s.setSeq loc (storeRecord q (contextVd s loc) ((o - 0x1000) / 32) ((o - 0x1000) % 32 / 8) x)
  else if 0x3000 ≤ o ∧ o < 0x7000 then
    let k := (o - 0x3000) / 64
    match q.ifr.find k with
    | some e => s.setSeq loc
      { q with ifr := q.ifr.put k { e with reply := BitVec.ofNat 512 (setLane e.reply.toNat ((o - 0x3000) % 64 / 8) x) } }
    | none => s
  else if 0x7000 ≤ o ∧ o < 0x12400 then s.setSeq loc (storeImage uid q (o - 0x7000) x)
  else if 0x12400 ≤ o ∧ o < 0x1D800 then
    match q.frame with
    | some f =>
      let r := storeImage uid { q with steps := f.steps, pend := f.pend } (o - 0x12400) x
      s.setSeq loc { q with frame := some { f with pend := r.pend } }
    | none => s
  else if 0x1D800 ≤ o then s.setSeq loc (storeFrame q ((o - 0x1D800) / 8) x)
  else s

/-- A module after bring-up stage 6, or halted in a stage: what the flash and the fuses keep stays, and so do the launches that recirculate
on the rings (R379, R384). -/
def afterReset (s : State) (boot : Nat) (images : List Nat) (ready : Bool) : State :=
  let up : State :=
  { State.reset with
    agenda := s.agenda, cur := s.cur, free := s.free + 1, module := s.module, boot := boot, rollback := s.rollback
    lmsLeaf := s.lmsLeaf, podMap := 2 ^ s.module, ready := ready, firmware := images
    casts := s.casts.filter (fun c => match c with | .launch _ _ => true | .flip _ _ _ _ => false) }
  if ready then offerLaunches up else { up with mem := s.mem, marks := s.marks }

/-- Whether the boot ROM accepts an image: both signatures and the security version, which its low 32 bits hold (R384).
(DESIGN CHOICE, assumption 7) -/
def accepted (s : State) (image : Nat) : Bool := Config.imageAccepted image && decide (s.rollback ≤ image % 2 ^ 32)

/-- A module reset that finds these firmware images: it halts at a spent boot number or at a refused image (R384). -/
def moduleReset (images : List Nat) (s : State) : State :=
  let boot := Nat.min (s.boot + 1) (2 ^ 32 - 1)
  afterReset s boot images (decide (boot < 2 ^ 32 - 1) && images.all (accepted s))

/-- The firmware image written through the local store of core 0 of die 0, as one number. -/
def writtenImage (s : State) : Nat :=
  let lo := localPhys s 0 0
  (s.mem.inside lo Config.localBytes).foldl (fun n c => n + c.2.toNat * 2 ^ (8 * (c.1 - lo))) 0

/-- The images that the next reset finds: after a refusal the written one stands in the refused one's place (R384).
(DESIGN CHOICE, assumption 7) -/
def imagesFound (s : State) : List Nat :=
  if s.ready then s.firmware
  else match s.firmware.find? (fun i => !accepted s i) with
    | some bad => s.firmware.map (fun i => if i = bad then writtenImage s else i)
    | none => s.firmware

/-- HOST_STATE_STORE: a host store of an aligned dword to the state window (R374, R375): what Table 26.1 does not list, and what is not
the host's to write, is discarded. A store of 1 to dword 3 of a header resets the module; a module whose bring-up has halted takes only that
and a firmware image (R384). -/
def execHostStateStore (die offset : Nat) (value : Word) (s : State) : Host.Outcome State Fault Refusal :=
  let inCore := decide (0x110000000 ≤ offset) && decide (offset < 0x120000000) && decide (offset % 0x800000 < 0x600000)
  if 8 ≤ die ∨ offset % 8 ≠ 0 then .next s
  else if offset = 0x100000018 then .next (if value = 1 then moduleReset (imagesFound s) s else s)
  else if !s.ready && !(decide (die = 0) && inCore && decide (offset < 0x110800000)) then .next s
  else if 0x100001000 ≤ offset ∧ offset < 0x100002000 then .next (storeCommand s die ((offset - 0x100001000) / 8) value)
  else if 0x100100000 ≤ offset ∧ offset < 0x100100040 then .next (storeRing s die ((offset - 0x100100000) / 8) value.toNat)
  else if 0x101000000 ≤ offset ∧ offset < 0x101800000 then
    .next (storeView s (64 * die + (offset - 0x101000000) / 0x20000) ((offset - 0x101000000) % 0x20000) value.toNat)
  else if inCore || (decide (0x120000000 ≤ offset) && decide (offset < 0x124000000)) then
    let a := physOf s die 3 offset
    .next (clearMarks (s.setMem (s.mem.storeAll a (toBytes 8 value.toNat))) ((List.range 8).map (a + ·)))
  else .next s

/-- Write back and drop the lines of token frames that an access of n bytes at a physical address touches, whatever device they are of
(R291, R393). -/
def dropPhysical (s : State) (addr n : Nat) : State :=
  s.tokens.foldl (fun t e =>
    (e.2.present.map (· / 64)).eraseDups.foldl (fun u l =>
      let va := e.1 % 2 ^ 31 * 2 ^ 21 + 64 * l
      match translate u (e.1 / 2 ^ 31) va false with
      | .ok pa => if pa < addr + n ∧ addr < pa + 64 then dropLines u (e.1 / 2 ^ 31) va pa 64 else u
      | _ => u) t) s

/-- HOST_MEMORY_ACCESS: an untranslated access of the host to as many tier bytes of this module as data holds: a read gives them to the host
(R393). -/
def execHostMemoryAccess (addr : Nat) (write : Bool) (data : List Byte) (s : State) : Host.Outcome State Fault Refusal :=
  let ok := s.ready && decide (physMod addr = s.module) && decide (addr < 2 ^ 52) && decide (physTier addr < 2) &&
    decide (physOff addr + data.length ≤ Config.tierBytes (physTier addr))
  if !ok then .next s
  else
    let t := dropPhysical s addr data.length
    if write then
      .next (clearMarks (t.setMem (t.mem.storeAll addr data)) ((List.range data.length).map (addr + ·)))
    else .next { t with hostData := (List.range data.length).map (fun j => t.mem.look (addr + j)) }

/-! ### The hypervisor (R297, R305, R317, R322) -/

/-- The physical span of a range entry. -/
def rangeFirst (e : RangeEntry) : Int := (e.vbase : Int) + e.offset
/-- Its last address. -/
def rangeLast (e : RangeEntry) : Int := (e.vlimit : Int) + e.offset

/-- The checks of one entry: whole pages, and a span within one tier of TIER 0 or 1 (R322). -/
def rangeOk (e : RangeEntry) : Bool :=
  !e.v || (e.vbase % 4096 == 0 && (e.vlimit + 1) % 4096 == 0 && decide (e.vbase ≤ e.vlimit) && decide (e.vlimit < 2 ^ 52) &&
    decide (0 ≤ (rangeFirst e)) && decide ((rangeLast e) < 2 ^ 52) &&
    (let a := (rangeFirst e).toNat
     let b := (rangeLast e).toNat
     a / 2 ^ 41 == b / 2 ^ 41 && decide (physTier a < 2) && decide (physOff b < Config.tierBytes (physTier a))))

/-- Whether no two valid entries overlap. -/
def apart : List RangeEntry → Bool
  | [] => true
  | e :: r => r.all (fun f => !e.v || !f.v || decide (e.vlimit < f.vbase) || decide (f.vlimit < e.vbase)) && apart r

/-- RANGE_TABLE_INSTALL: the hypervisor installs a range table; one that breaks a rule is rejected whole (R322).
(DEDUCED, assumption 38) -/
def execRangeTableInstall (vd : Nat) (entries : List RangeEntry) (s : State) : Host.Outcome State Fault Refusal :=
  if s.ready = true ∧ s.vds.has vd ∧ entries.length ≤ 32 ∧ entries.all rangeOk ∧ apart entries then
    .next (s.setVd vd { s.vdAt vd with ranges := entries })
  else .next s

/-- Partitions in the location order of their first cores (R297). -/
def inOrder (ps : List Nat) : List Nat := (List.range 4096).filter (fun p => ps.contains p)

/-- VIRTUAL_DEVICE_CREATION: a device with its partitions numbered, its registers as Table 26.4 resets them and its barriers at phase 0
(R297, R305, R326). The supervisor device is given its partitions once, and is resident on those of this module (R317, R346). -/
def execVirtualDeviceCreation (vd : Nat) (partitions : List Nat) (s : State) : Host.Outcome State Fault Refusal :=
  let ps := inOrder partitions
  if s.ready = false ∨ 2 ^ 16 ≤ vd ∨ ps.isEmpty ∨ partitions.any (fun p => decide (4096 ≤ p)) then .next s
  else if vd = 0 then
    let own := ps.filter (fun p => p / 64 == s.module)
    if (s.vdAt 0).parts.isEmpty && own.all (fun p => (s.quadAt (p % 64)).resident.isNone) then
      .next (own.foldl (fun t p => t.setQuad (p % 64) { t.quadAt (p % 64) with resident := some 0 })
        (s.setVd 0 { s.vdAt 0 with parts := ps }))
    else .next s
  else if s.vds.has vd then .next s
  else .next (s.setVd vd { Vd.reset with parts := ps })

/-! ### Errors (R347, R348) -/

/-- CORRECTED_ERROR: a corrected error changes nothing visible and is counted (R347). -/
def execCorrectedError (die : Nat) (s : State) : Host.Outcome State Fault Refusal :=
  let k := s.dieAt die
  .next (s.setDie die { k with errors := k.errors + 1 })

/-- The register of a sequencer's own state that an error names: file code and index; none for a pipe-image or in-flight entry. -/
def errorReg (x : Nat) : Option Reg := (File.ofCode (bitsAt x 8 4)).map (fun f => ⟨f, bitsAt x 12 10⟩)

/-- UNCORRECTABLE_ERROR: a word takes an error mark, which raises trap 0x70 where an operation or a unit reads it. An address at 2^64 and
above names the state of sequencer addr / 2^64 - 1: in its low bits the structure's number in [7:0], and for a register its file code in
[11:8] and its index from bit 12 on; without a file code the error lies in a pipe-image or in-flight entry and traps by itself (R348).
(DEDUCED, assumption 33) -/
def execUncorrectableError (addr : Nat) (s : State) : Host.Outcome State Fault Refusal :=
  if 2 ^ 64 ≤ addr then
    let loc := addr / 2 ^ 64 - 1
    let q := s.seqAt loc
    let e := (errorReg (addr % 2 ^ 64), addr % 256)
    if 512 ≤ loc ∨ q.errs.contains e then .next s else .next (s.setSeq loc { q with errs := q.errs ++ [e] })
  else if s.marks.contains (addr / 8) then .next s
  else .next { s with marks := s.marks ++ [addr / 8] }

/-! ### Reset and power (R384, R386) -/

/-- MODULE_RESET: bring-up with the firmware images given. A boot number that is spent or a refused image halts it (R384). -/
def execModuleReset (images : List Nat) (s : State) : Host.Outcome State Fault Refusal := .next (moduleReset images s)

/-- POWER_OFF: everything but the flash and the fuses is lost (R386). -/
def execPowerOff (s : State) : Host.Outcome State Fault Refusal :=
  .next { afterReset s s.boot s.firmware false with mem := [], marks := [], casts := [], power := false }

end Sys2Proof.Machine
end

