-- ==== Sys2Proof/Machine/Remote.lean ====
section
/-! DEFINITION. Remote memory over the fabric and ownership tokens (18_remote.md R280 to R291). -/

namespace Sys2Proof.Machine

/-! ### Addresses (R280) -/

/-- The checks of a remote address of n bytes at issue (R280). -/
def remoteAddr (va n : Nat) : Act Unit :=
  Act.check (decide (2 ^ 32 ≤ va) && decide (va < 2 ^ 52) && decide (va % n = 0)) 0x11 va

/-- The pod's number of the issuer's die. -/
def podDie (s : State) : Nat := 8 * s.module + dieOf s.cur.loc

/-- A cached access needs the region's token on the issuer's die, before a recall has reached it (R291). -/
def needToken (va : Nat) : Act Unit := do
  let s ← Act.view id
  let t := s.tokenAt s.myVd va
  Act.check (t.holder == some (podDie s) && !t.reached) 0x12 va

/-! ### ldr, str, ratom (R281 to R288) -/

/-- `ldr` (R282): its result is poisoned at the landing index unless the reply has come. -/
def execLdr (g : Guard) (dst : Dest) (a : Opnd) (ca : Bool) (lq : BitVec 9) (cls : BitVec 4) (t : Fmt) (s : State) :
    Host.Outcome State Fault Refusal :=
  let i : Instr := .ldr g dst a ca lq cls t
  issue i g (do
    let va ← readOp a
    let n := t.width / 8
    remoteAddr va n
    let pa ← Act.home va false true
    if ca then needToken va else pure ()
    let s ← Act.view id
    let r := (destsOf s.cur.slot i).head?
    let l := 16 * (lq.toNat + 1)
    let k ← openAccess
      { Ifr.blank with
        kind := 4, cls := cls.toNat, scope := s.scope 0, target := va, len := n, rtype := t.code, dst := r, li := s.here + l,
        late := true, ca := ca }
      [(pa, va, 0, .read n)]
    match r with
    | some r => awaitResult r l k true
    | none => pure ()) s

/-- `str` (R287). -/
def execStr (g : Guard) (src a : Opnd) (ca : Bool) (cls : BitVec 4) (t : Fmt) (s : State) : Host.Outcome State Fault Refusal :=
  issue (.str g src a ca cls t) g (do
    let va ← readOp a
    let n := t.width / 8
    remoteAddr va n
    let pa ← Act.home va true true
    if ca then needToken va else pure ()
    let x ← readOp src
    let s ← Act.view id
    let _ ← openAccess
      { Ifr.blank with
        kind := 5, cls := cls.toNat, scope := s.scope 0, idem := 1, target := va, len := n, ca := ca }
      [(pa, va, 0, .write (toBytes n x) (2 ^ n - 1))]) s

/-- `ratom` (R288): every later W operation that reads its result waits for the value (DEDUCED, assumption 11). -/
def execRatom (g : Guard) (wd : BitVec 5) (a : Opnd) (wb : BitVec 5) (rop : BitVec 4) (nr : Bool) (ord : BitVec 2)
    (cls : BitVec 4) (t : Fmt) (s : State) : Host.Outcome State Fault Refusal :=
  issue (.ratom g wd a wb rop nr ord cls t) g (do
    let va ← readOp a
    let n := t.width / 8
    remoteAddr va n
    let pa ← Act.home va true true
    let _ ← Act.home va false true
    let y ← readNat .w wb.toNat
    let cmp ← if rop.toNat = 7 then readNat .w wd.toNat else pure 0
    let s ← Act.view id
    let scope := s.scope 0
    orderBefore ord.toNat scope
    let r : Reg := ⟨.w, wd.toNat⟩
    let k ← openAccess
      { Ifr.blank with
        kind := 6, cls := cls.toNat, scope := scope, idem := 2, target := va, len := n, rtype := t.code,
        dst := if nr then none else some r, li := s.here + 1 }
      [(pa, va, 0, .atom rop.toNat t.isSigned n (bitsAt y 0 (8 * n)) (bitsAt cmp 0 (8 * n)) (t == .f32))]
    if nr then pure () else awaitResult r 1 k false
    orderAfter ord.toNat scope) s

/-! ### Ownership tokens (R289 to R291) -/

/-- The device of a token's number, and the first address of its region. -/
def tokenVd (n : Nat) : Nat := n / 2 ^ 31
/-- First address of a token's region. -/
def tokenRegion (n : Nat) : Nat := n % 2 ^ 31 * 2 ^ 21

/-- Whether every 4 KiB page of a region is present and all lie at one endpoint (R290). -/
def regionWhole (s : State) (vd va : Nat) : Bool :=
  match translate s vd va false with
  | .ok p => (List.range 512).all (fun j => match translate s vd (va + 4096 * j) false with
    | .ok r => physMod r == physMod p && endpointOf r == endpointOf p
    | _ => false)
  | _ => false

/-- Frames of a device that a die holds or has asked for (R289). -/
def framesTaken (s : State) (vd die : Nat) : Nat :=
  (s.tokens.filter (fun t => tokenVd t.1 == vd && (t.2.holder == some die || t.2.asks.contains die))).length

/-- The region that an e register names (R280, R290). -/
def regionOperand (e : BitVec 5) : Act Nat := do
  let va ← readNat .e e.toNat
  Act.check (decide (2 ^ 32 ≤ va) && decide (va < 2 ^ 52) && decide (va % 2 ^ 21 = 0)) 0x11 va
  let s ← Act.view id
  Act.check (regionWhole s s.myVd va) 0x11 va
  return va

/-- Ask for a token and stall until it is granted (R290). -/
def askToken (va : Nat) : Act Unit := fun s =>
  let t := s.tokenAt s.myVd va
  if t.asks.contains (podDie s) then .error .stall
  else .error (.stallWith (s.setToken s.myVd va { t with asks := t.asks ++ [podDie s] }))

/-- `tacq` (R290). -/
def execTacq (g : Guard) (d e : BitVec 5) (s : State) : Host.Outcome State Fault Refusal :=
  issue (.tacq g d e) g (do
    let va ← regionOperand e
    let s ← Act.view id
    let t := s.tokenAt s.myVd va
    if t.holder = some (podDie s) then deliverNat (.tacq g d e) 1
    else if !t.asks.contains (podDie s) &&
        ((s.vdAt s.myVd).rcache == 0 || decide (Config.tokenFrames ≤ framesTaken s s.myVd (podDie s))) then
      deliverNat (.tacq g d e) 0
    else askToken va) s

/-- Whether cached accesses of a device to a region have not been performed. -/
def cachedPending (s : State) (vd va : Nat) : Bool :=
  s.net.any (fun p => p.ca && p.asks && p.key.vd == vd && p.va / 2 ^ 21 == va / 2 ^ 21)

/-- Write the written bytes of a frame back to their homes and empty it; the token returns to its home (R290, R291). -/
def returnToken (s : State) (vd va : Nat) : State :=
  let t := s.tokenAt vd va
  let s := t.dirty.foldl (fun s o => match translate s vd (va + o) true with
    | .ok pa => putHome s pa (s.mem.look (t.frame + o))
    | _ => s) s
  s.setToken vd va { Token.reset with asks := t.asks }

/-- `trel` (R290): of a token that the die does not hold it does nothing. -/
def execTrel (g : Guard) (e : BitVec 5) (s : State) : Host.Outcome State Fault Refusal :=
  issue (.trel g e) g (do
    let va ← regionOperand e
    let s ← Act.view id
    if (s.tokenAt s.myVd va).holder = some (podDie s) then do
      Act.await (fun s => !cachedPending s s.myVd va)
      Act.change (fun s => returnToken s s.myVd va)
    else pure ()) s

/-- TACQ_REQUEST: the home of region number region of a device serves the first request: it recalls the token from its holder,
or sends a grant (R290). -/
def execTacqRequest (vd region : Nat) (s : State) : Host.Outcome State Fault Refusal :=
  let va := region * 2 ^ 21
  let t := s.tokenAt vd va
  match t.asks with
  | [] => .next s
  | d :: r =>
    if t.granted then .next s
    else match t.holder with
      | none => .next (s.setToken vd va { t with granted := true })
      | some h => if h = d then .next (s.setToken vd va { t with asks := r }) else .next (s.setToken vd va { t with recalled := true })

/-- The first free block of a device's token frames on a die of this module: the register gives one place, which every die has in its own
GDDR 7 (R289). (DEDUCED, assumption 43) -/
def freeFrame (s : State) (vd d : Nat) : Nat :=
  let first := physOf s (d % 8) 0 ((s.vdAt vd).rcache / 2 ^ 29 * 2 ^ 29 % 2 ^ 41)
  let used := (s.tokens.filter (fun t => tokenVd t.1 == vd && t.2.holder == some d)).map (·.2.frame)
  first + ((List.range Config.tokenFrames).find? (fun j => !used.contains (first + j * 2 ^ 21))).getD 0 * 2 ^ 21

/-- TOKEN_GRANT: a grant reaches the first requesting die, which takes a frame; its minimum hold begins (R290). -/
def execTokenGrant (vd region : Nat) (s : State) : Host.Outcome State Fault Refusal :=
  let va := region * 2 ^ 21
  let t := s.tokenAt vd va
  match t.asks with
  | [] => .next s
  | d :: r =>
    if !t.granted then .next s
    else .next (s.setToken vd va
      { Token.reset with holder := some d, asks := r, held := some s.now, frame := freeFrame s vd d })

/-- TOKEN_RECALL: the holder receives a recall after its minimum hold: what has passed the check finishes, then the frame is
written back and emptied and the token moves (R291). -/
def execTokenRecall (vd region : Nat) (s : State) : Host.Outcome State Fault Refusal :=
  let va := region * 2 ^ 21
  let t := s.tokenAt vd va
  if !t.recalled || t.holder.isNone || t.held.isSome then .next s
  else
    let s := s.setToken vd va { t with reached := true }
    if cachedPending s vd va then .next s else .next (returnToken s vd va)

/-- TOKEN_HOLD_EXPIRY: the minimum hold of 1 microsecond ends (R290). -/
def execTokenHoldExpiry (vd region : Nat) (s : State) : Host.Outcome State Fault Refusal :=
  let va := region * 2 ^ 21
  let t := s.tokenAt vd va
  match t.held with
  | none => .next s
  | some since => if s.now < since + 1000 then .next s else .next (s.setToken vd va { t with held := none })

end Sys2Proof.Machine
end

