-- ==== Sys2Proof/Machine/Dispatch.lean ====
section
/-! DEFINITION. The dispatch of an operation or event to its meaning, one arm each. -/

namespace Sys2Proof.Machine

/-- The meaning of an operation of the issuing slot, or of an event. -/
def exec (i : Instr) (s : State) : Host.Outcome State Fault Refusal :=
  match i with
  | .add g d a b => Sys2Proof.Machine.execAdd g d a b s
  | .sub g d a b => Sys2Proof.Machine.execSub g d a b s
  | .addsl g d a b sh => Sys2Proof.Machine.execAddsl g d a b sh s
  | .mul g d a b => Sys2Proof.Machine.execMul g d a b s
  | .mulh g d a b => Sys2Proof.Machine.execMulh g d a b s
  | .mulhB g d a b => Sys2Proof.Machine.execMulhB g d a b s
  | .div g d a b => Sys2Proof.Machine.execDiv g d a b s
  | .divB g d a b => Sys2Proof.Machine.execDivB g d a b s
  | .rem g d a b => Sys2Proof.Machine.execRem g d a b s
  | .remB g d a b => Sys2Proof.Machine.execRemB g d a b s
  | .and g d a b => Sys2Proof.Machine.execAnd g d a b s
  | .or g d a b => Sys2Proof.Machine.execOr g d a b s
  | .xor g d a b => Sys2Proof.Machine.execXor g d a b s
  | .andn g d a b => Sys2Proof.Machine.execAndn g d a b s
  | .shl g d a b => Sys2Proof.Machine.execShl g d a b s
  | .shr g d a b => Sys2Proof.Machine.execShr g d a b s
  | .sra g d a b => Sys2Proof.Machine.execSra g d a b s
  | .rotl g d a b => Sys2Proof.Machine.execRotl g d a b s
  | .fshl g d a b sh => Sys2Proof.Machine.execFshl g d a b sh s
  | .fshr g d a b sh => Sys2Proof.Machine.execFshr g d a b sh s
  | .clz g d a => Sys2Proof.Machine.execClz g d a s
  | .ctz g d a => Sys2Proof.Machine.execCtz g d a s
  | .popc g d a => Sys2Proof.Machine.execPopc g d a s
  | .min g d a b => Sys2Proof.Machine.execMin g d a b s
  | .max g d a b => Sys2Proof.Machine.execMax g d a b s
  | .minB g d a b => Sys2Proof.Machine.execMinB g d a b s
  | .maxB g d a b => Sys2Proof.Machine.execMaxB g d a b s
  | .bfx g d a b sx => Sys2Proof.Machine.execBfx g d a b sx s
  | .bfi g d a b => Sys2Proof.Machine.execBfi g d a b s
  | .sel g d a b psel pinv => Sys2Proof.Machine.execSel g d a b psel pinv s
  | .cmp g p cc a b => Sys2Proof.Machine.execCmp g p cc a b s
  | .pand g d a b na nb => Sys2Proof.Machine.execPand g d a b na nb s
  | .por g d a b na nb => Sys2Proof.Machine.execPor g d a b na nb s
  | .pnot g d a => Sys2Proof.Machine.execPnot g d a s
  | .addi g d a imm => Sys2Proof.Machine.execAddi g d a imm s
  | .andi g d a imm => Sys2Proof.Machine.execAndi g d a imm s
  | .ori g d a imm => Sys2Proof.Machine.execOri g d a imm s
  | .xori g d a imm => Sys2Proof.Machine.execXori g d a imm s
  | .shli g d a imm => Sys2Proof.Machine.execShli g d a imm s
  | .shri g d a imm => Sys2Proof.Machine.execShri g d a imm s
  | .srai g d a imm => Sys2Proof.Machine.execSrai g d a imm s
  | .li g d imm => Sys2Proof.Machine.execLi g d imm s
  | .lih g d a imm => Sys2Proof.Machine.execLih g d a imm s
  | .cmpi g p cc a imm => Sys2Proof.Machine.execCmpi g p cc a imm s
  | .br g imm => Sys2Proof.Machine.execBr g imm s
  | .jmp g imm => Sys2Proof.Machine.execJmp g imm s
  | .jmpr g a => Sys2Proof.Machine.execJmpr g a s
  | .call g d imm => Sys2Proof.Machine.execCall g d imm s
  | .ret g a => Sys2Proof.Machine.execRet g a s
  | .loop g a imm => Sys2Proof.Machine.execLoop g a imm s
  | .halt g => Sys2Proof.Machine.execHalt g s
  | .xmov g dst a lane bcast => Sys2Proof.Machine.execXmov g dst a lane bcast s
  | .rdsr g d sr => Sys2Proof.Machine.execRdsr g d sr s
  | .wrsr g sr a => Sys2Proof.Machine.execWrsr g sr a s
  | .mrsData g a => Sys2Proof.Machine.execMrsData g a s
  | .rdts g d => Sys2Proof.Machine.execRdts g d s
  | .vadd g d a b t k => Sys2Proof.Machine.execVadd g d a b t k s
  | .vsub g d a b t k => Sys2Proof.Machine.execVsub g d a b t k s
  | .vmul g d a b t k => Sys2Proof.Machine.execVmul g d a b t k s
  | .vmulh g d a b t k => Sys2Proof.Machine.execVmulh g d a b t k s
  | .vmin g d a b t k => Sys2Proof.Machine.execVmin g d a b t k s
  | .vmax g d a b t k => Sys2Proof.Machine.execVmax g d a b t k s
  | .vabs g d a t k => Sys2Proof.Machine.execVabs g d a t k s
  | .vand g d a b t k => Sys2Proof.Machine.execVand g d a b t k s
  | .vor g d a b t k => Sys2Proof.Machine.execVor g d a b t k s
  | .vxor g d a b t k => Sys2Proof.Machine.execVxor g d a b t k s
  | .vandn g d a b t k => Sys2Proof.Machine.execVandn g d a b t k s
  | .vshl g d a b t k => Sys2Proof.Machine.execVshl g d a b t k s
  | .vshr g d a b t k => Sys2Proof.Machine.execVshr g d a b t k s
  | .vsra g d a b t k => Sys2Proof.Machine.execVsra g d a b t k s
  | .vfsh g d a b t right => Sys2Proof.Machine.execVfsh g d a b t right s
  | .vclz g d a t k => Sys2Proof.Machine.execVclz g d a t k s
  | .vpopc g d a t k => Sys2Proof.Machine.execVpopc g d a t k s
  | .vcmp g kd a b t cc => Sys2Proof.Machine.execVcmp g kd a b t cc s
  | .vsel g d a b t ks => Sys2Proof.Machine.execVsel g d a b t ks s
  | .kand g kd ka kb => Sys2Proof.Machine.execKand g kd ka kb s
  | .kor g kd ka kb => Sys2Proof.Machine.execKor g kd ka kb s
  | .kxor g kd ka kb => Sys2Proof.Machine.execKxor g kd ka kb s
  | .knot g kd ka => Sys2Proof.Machine.execKnot g kd ka s
  | .kpop g d ka => Sys2Proof.Machine.execKpop g d ka s
  | .kfirst g d ka => Sys2Proof.Machine.execKfirst g d ka s
  | .vbcast g d a n t k => Sys2Proof.Machine.execVbcast g d a n t k s
  | .vext g d a n t => Sys2Proof.Machine.execVext g d a n t s
  | .vins g d a n t => Sys2Proof.Machine.execVins g d a n t s
  | .vperm g d a b t k => Sys2Proof.Machine.execVperm g d a b t k s
  | .vrot g d a n t k => Sys2Proof.Machine.execVrot g d a n t k s
  | .vslide g d a n dn t k => Sys2Proof.Machine.execVslide g d a n dn t k s
  | .vred g d a gs op t => Sys2Proof.Machine.execVred g d a gs op t s
  | .vscan g d a gs op t => Sys2Proof.Machine.execVscan g d a gs op t s
  | .vpack g d a b t wr => Sys2Proof.Machine.execVpack g d a b t wr s
  | .vunpk g d a t hi => Sys2Proof.Machine.execVunpk g d a t hi s
  | .vfadd g d a b t k => Sys2Proof.Machine.execVfadd g d a b t k s
  | .vfsub g d a b t k => Sys2Proof.Machine.execVfsub g d a b t k s
  | .vfmul g d a b t k => Sys2Proof.Machine.execVfmul g d a b t k s
  | .vfma g d a b t k => Sys2Proof.Machine.execVfma g d a b t k s
  | .vfms g d a b t k => Sys2Proof.Machine.execVfms g d a b t k s
  | .vfmin g d a b t k => Sys2Proof.Machine.execVfmin g d a b t k s
  | .vfmax g d a b t k => Sys2Proof.Machine.execVfmax g d a b t k s
  | .vfcmp g kd a b t cc => Sys2Proof.Machine.execVfcmp g kd a b t cc s
  | .vfabs g d a t k => Sys2Proof.Machine.execVfabs g d a t k s
  | .vfneg g d a t k => Sys2Proof.Machine.execVfneg g d a t k s
  | .vfsgn g d a b t k => Sys2Proof.Machine.execVfsgn g d a b t k s
  | .vfred g d a gs op t => Sys2Proof.Machine.execVfred g d a gs op t s
  | .vrcp g d a t k => Sys2Proof.Machine.execVrcp g d a t k s
  | .vrsq g d a t k => Sys2Proof.Machine.execVrsq g d a t k s
  | .vexp2 g d a t k => Sys2Proof.Machine.execVexp2 g d a t k s
  | .vlog2 g d a t k => Sys2Proof.Machine.execVlog2 g d a t k s
  | .vicvt g d a t k => Sys2Proof.Machine.execVicvt g d a t k s
  | .vfcvt g d a t k => Sys2Proof.Machine.execVfcvt g d a t k s
  | .vxmov g dst a lane => Sys2Proof.Machine.execVxmov g dst a lane s
  | .mclr g acc => Sys2Proof.Machine.execMclr g acc s
  | .mmac g acc q af bf kn lm adv => Sys2Proof.Machine.execMmac g acc q af bf kn lm adv s
  | .mmacs g acc q af bf kn lm km adv => Sys2Proof.Machine.execMmacs g acc q af bf kn lm km adv s
  | .mdrain g dq acc rs nr1 fo cl => Sys2Proof.Machine.execMdrain g dq acc rs nr1 fo cl s
  | .mlar g q kn lm adv => Sys2Proof.Machine.execMlar g q kn lm adv s
  | .mpar g md imm hi => Sys2Proof.Machine.execMpar g md imm hi s
  | .mcall g idx => Sys2Proof.Machine.execMcall g idx s
  | .mloop g count mi src => Sys2Proof.Machine.execMloop g count mi src s
  | .mend g => Sys2Proof.Machine.execMend g s
  | .mendF g => Sys2Proof.Machine.execMendF g s
  | .mcntRd g dq acc => Sys2Proof.Machine.execMcntRd g dq acc s
  | .mcntSnap g dq acc => Sys2Proof.Machine.execMcntSnap g dq acc s
  | .mcntClr g acc => Sys2Proof.Machine.execMcntClr g acc s
  | .routineWordIssue => Sys2Proof.Machine.execRoutineWordIssue s
  | .ld g dst a b cls t => Sys2Proof.Machine.execLd g dst a b cls t s
  | .vld g dst a b cls => Sys2Proof.Machine.execVld g dst a b cls s
  | .vldu g dst a b cls => Sys2Proof.Machine.execVldu g dst a b cls s
  | .pf g a b => Sys2Proof.Machine.execPf g a b s
  | .gpush g q a => Sys2Proof.Machine.execGpush g q a s
  | .ldg g dst a b gs t => Sys2Proof.Machine.execLdg g dst a b gs t s
  | .vldg g dst a b gs => Sys2Proof.Machine.execVldg g dst a b gs s
  | .ldr g dst a ca lq cls t => Sys2Proof.Machine.execLdr g dst a ca lq cls t s
  | .st g src a b cls t => Sys2Proof.Machine.execSt g src a b cls t s
  | .vst g src a b cls => Sys2Proof.Machine.execVst g src a b cls s
  | .vstm g src a k v1 cls => Sys2Proof.Machine.execVstm g src a k v1 cls s
  | .aadd g wd a b nr ord cls t => Sys2Proof.Machine.execAadd g wd a b nr ord cls t s
  | .amin g wd a b nr ord cls t => Sys2Proof.Machine.execAmin g wd a b nr ord cls t s
  | .amax g wd a b nr ord cls t => Sys2Proof.Machine.execAmax g wd a b nr ord cls t s
  | .alog g wd a b nr lop ord cls t => Sys2Proof.Machine.execAlog g wd a b nr lop ord cls t s
  | .aswp g wd a b nr ord cls t => Sys2Proof.Machine.execAswp g wd a b nr ord cls t s
  | .acas g wd a b ord cls t => Sys2Proof.Machine.execAcas g wd a b ord cls t s
  | .aincb g wd a b nr ord cls t => Sys2Proof.Machine.execAincb g wd a b nr ord cls t s
  | .rcnt g a b => Sys2Proof.Machine.execRcnt g a b s
  | .asnap g wd a b cls => Sys2Proof.Machine.execAsnap g wd a b cls s
  | .str g src a ca cls t => Sys2Proof.Machine.execStr g src a ca cls t s
  | .ratom g wd a wb rop nr ord cls t => Sys2Proof.Machine.execRatom g wd a wb rop nr ord cls t s
  | .cbind g q e gather => Sys2Proof.Machine.execCbind g q e gather s
  | .cfree g q => Sys2Proof.Machine.execCfree g q s
  | .cput g ch d e sv => Sys2Proof.Machine.execCput g ch d e sv s
  | .cget g ch d e => Sys2Proof.Machine.execCget g ch d e s
  | .ccard g ch d e => Sys2Proof.Machine.execCcard g ch d e s
  | .cwait g ch e inc => Sys2Proof.Machine.execCwait g ch e inc s
  | .cstat g ch d => Sys2Proof.Machine.execCstat g ch d s
  | .mapi g d e epk epn => Sys2Proof.Machine.execMapi g d e epk epn s
  | .mapx g h e => Sys2Proof.Machine.execMapx g h e s
  | .mapr g h => Sys2Proof.Machine.execMapr g h s
  | .maprAll g epk epn => Sys2Proof.Machine.execMaprAll g epk epn s
  | .mapq g d h => Sys2Proof.Machine.execMapq g d h s
  | .gdecl g d gs e => Sys2Proof.Machine.execGdecl g d gs e s
  | .gdeclR g gs => Sys2Proof.Machine.execGdeclR g gs s
  | .gq g d gs sel => Sys2Proof.Machine.execGq g d gs sel s
  | .tacq g d e => Sys2Proof.Machine.execTacq g d e s
  | .trel g e => Sys2Proof.Machine.execTrel g e s
  | .qwait g q n => Sys2Proof.Machine.execQwait g q n s
  | .qadv g q n => Sys2Proof.Machine.execQadv g q n s
  | .sarm g a b => Sys2Proof.Machine.execSarm g a b s
  | .swait g a y => Sys2Proof.Machine.execSwait g a y s
  | .fence g scope mask => Sys2Proof.Machine.execFence g scope mask s
  | .gstep g gs a => Sys2Proof.Machine.execGstep g gs a s
  | .barA g scope id c p => Sys2Proof.Machine.execBarA g scope id c p s
  | .barW g scope id p => Sys2Proof.Machine.execBarW g scope id p s
  | .bar g scope id c p => Sys2Proof.Machine.execBar g scope id c p s
  | .spawn g t e => Sys2Proof.Machine.execSpawn g t e s
  | .sjoin g t => Sys2Proof.Machine.execSjoin g t s
  | .yield g => Sys2Proof.Machine.execYield g s
  | .sleep g n => Sys2Proof.Machine.execSleep g n s
  | .evpost g a b => Sys2Proof.Machine.execEvpost g a b s
  | .trap g imm => Sys2Proof.Machine.execTrap g imm s
  | .eret g mode => Sys2Proof.Machine.execEret g mode s
  | .eretT g mode t => Sys2Proof.Machine.execEretT g mode t s
  | .ctxsave g t a => Sys2Proof.Machine.execCtxsave g t a s
  | .ctxload g t a go => Sys2Proof.Machine.execCtxload g t a go s
  | .pimg g t a => Sys2Proof.Machine.execPimg g t a s
  | .xcvt g d a p fo fi => Sys2Proof.Machine.execXcvt g d a p fo fi s
  | .xquant g d a b fo p => Sys2Proof.Machine.execXquant g d a b fo p s
  | .xdeq g d a b p fi => Sys2Proof.Machine.execXdeq g d a b p fi s
  | .xamax g d a b fo => Sys2Proof.Machine.execXamax g d a b fo s
  | .xtr g d a t => Sys2Proof.Machine.execXtr g d a t s
  | .xexp g q a dbp t chk => Sys2Proof.Machine.execXexp g q a dbp t chk s
  | .xpack g d a p t => Sys2Proof.Machine.execXpack g d a p t s
  | .xunpk g d a p t => Sys2Proof.Machine.execXunpk g d a p t s
  | .xcrc g d a b n1 => Sys2Proof.Machine.execXcrc g d a b n1 s
  | .noOperation => Sys2Proof.Machine.execNoOperation s
  | .fetchBeyondCode => Sys2Proof.Machine.execFetchBeyondCode s
  | .asynchronousTrap loc code info aux => Sys2Proof.Machine.execAsynchronousTrap loc code info aux s
  | .ringEntryFill loc q => Sys2Proof.Machine.execRingEntryFill loc q s
  | .gatherRowFetch loc q rows => Sys2Proof.Machine.execGatherRowFetch loc q rows s
  | .ringEntryDrain loc q => Sys2Proof.Machine.execRingEntryDrain loc q s
  | .drainQueueForward loc q => Sys2Proof.Machine.execDrainQueueForward loc q s
  | .chunkDecode loc q chunk => Sys2Proof.Machine.execChunkDecode loc q chunk s
  | .tileWriteComplete loc acc => Sys2Proof.Machine.execTileWriteComplete loc acc s
  | .mlarFillComplete loc => Sys2Proof.Machine.execMlarFillComplete loc s
  | .loadReply loc entry => Sys2Proof.Machine.execLoadReply loc entry s
  | .ldrLateReply loc entry => Sys2Proof.Machine.execLdrLateReply loc entry s
  | .storeAck loc entry => Sys2Proof.Machine.execStoreAck loc entry s
  | .atomicReply loc entry => Sys2Proof.Machine.execAtomicReply loc entry s
  | .homeAccess pk => Sys2Proof.Machine.execHomeAccess pk s
  | .packetOffer pk => Sys2Proof.Machine.execPacketOffer pk s
  | .pageTableWalk walk => Sys2Proof.Machine.execPageTableWalk walk s
  | .transferSourceRead loc entry => Sys2Proof.Machine.execTransferSourceRead loc entry s
  | .cgetSourceResolve pk => Sys2Proof.Machine.execCgetSourceResolve pk s
  | .landingBeat pk => Sys2Proof.Machine.execLandingBeat pk s
  | .transferComplete loc entry => Sys2Proof.Machine.execTransferComplete loc entry s
  | .jobCardStart die card => Sys2Proof.Machine.execJobCardStart die card s
  | .jobCardComplete die card => Sys2Proof.Machine.execJobCardComplete die card s
  | .haloTimeout loc => Sys2Proof.Machine.execHaloTimeout loc s
  | .neighbourCommitNotice loc grid party => Sys2Proof.Machine.execNeighbourCommitNotice loc grid party s
  | .barrierRootArrival pk => Sys2Proof.Machine.execBarrierRootArrival pk s
  | .phaseFlip flip core => Sys2Proof.Machine.execPhaseFlip flip core s
  | .sleepExpiry loc => Sys2Proof.Machine.execSleepExpiry loc s
  | .yieldExpiry core => Sys2Proof.Machine.execYieldExpiry core s
  | .bPriorityPromotion core slot => Sys2Proof.Machine.execBPriorityPromotion core slot s
  | .taskStart loc => Sys2Proof.Machine.execTaskStart loc s
  | .recordDelivery die fatal => Sys2Proof.Machine.execRecordDelivery die fatal s
  | .disposeTrap die slot => Sys2Proof.Machine.execDisposeTrap die slot s
  | .discardParkedTransfer die slot => Sys2Proof.Machine.execDiscardParkedTransfer die slot s
  | .savePartition die slot => Sys2Proof.Machine.execSavePartition die slot s
  | .restorePartition die slot => Sys2Proof.Machine.execRestorePartition die slot s
  | .endSlice die slot => Sys2Proof.Machine.execEndSlice die slot s
  | .sliceGraceExpiry loc => Sys2Proof.Machine.execSliceGraceExpiry loc s
  | .withdrawReceive loc ep => Sys2Proof.Machine.execWithdrawReceive loc ep s
  | .withdrawAck loc ep => Sys2Proof.Machine.execWithdrawAck loc ep s
  | .saveStep die => Sys2Proof.Machine.execSaveStep die s
  | .retrainLink die slot => Sys2Proof.Machine.execRetrainLink die slot s
  | .functionLevelReset die slot => Sys2Proof.Machine.execFunctionLevelReset die slot s
  | .writeVdRegister die slot => Sys2Proof.Machine.execWriteVdRegister die slot s
  | .transInv die slot => Sys2Proof.Machine.execTransInv die slot s
  | .attestationReport die slot => Sys2Proof.Machine.execAttestationReport die slot s
  | .horizonPublish loc => Sys2Proof.Machine.execHorizonPublish loc s
  | .horizonRetire ep loc => Sys2Proof.Machine.execHorizonRetire ep loc s
  | .tokenRecall vd region => Sys2Proof.Machine.execTokenRecall vd region s
  | .tokenGrant vd region => Sys2Proof.Machine.execTokenGrant vd region s
  | .tokenHoldExpiry vd region => Sys2Proof.Machine.execTokenHoldExpiry vd region s
  | .tacqRequest vd region => Sys2Proof.Machine.execTacqRequest vd region s
  | .launchPacket offset data => Sys2Proof.Machine.execLaunchPacket offset data s
  | .hostStateStore die offset value => Sys2Proof.Machine.execHostStateStore die offset value s
  | .hostMemoryAccess addr write data => Sys2Proof.Machine.execHostMemoryAccess addr write data s
  | .linkPacketReceive link f => Sys2Proof.Machine.execLinkPacketReceive link f s
  | .linkAck link seq => Sys2Proof.Machine.execLinkAck link seq s
  | .laneFailure link lane => Sys2Proof.Machine.execLaneFailure link lane s
  | .linkRetrained link => Sys2Proof.Machine.execLinkRetrained link s
  | .linkRetrainTimeout link => Sys2Proof.Machine.execLinkRetrainTimeout link s
  | .linkTraining link version modules => Sys2Proof.Machine.execLinkTraining link version modules s
  | .ringSkewMeasure station cw ccw => Sys2Proof.Machine.execRingSkewMeasure station cw ccw s
  | .correctedError die => Sys2Proof.Machine.execCorrectedError die s
  | .uncorrectableError addr => Sys2Proof.Machine.execUncorrectableError addr s
  | .moduleReset images => Sys2Proof.Machine.execModuleReset images s
  | .powerOff => Sys2Proof.Machine.execPowerOff s
  | .rangeTableInstall vd entries => Sys2Proof.Machine.execRangeTableInstall vd entries s
  | .virtualDeviceCreation vd partitions => Sys2Proof.Machine.execVirtualDeviceCreation vd partitions s
  | .minimumShareSetting station vd cls slots => Sys2Proof.Machine.execMinimumShareSetting station vd cls slots s

end Sys2Proof.Machine
end

