-- ==== Sys2Proof/Machine/Merge.lean ====
section
/-! DEFINITION. The two sequencers of a core on its shared slot units: which of them issues in a slot (02_machine.md R25, 20_progress.md
R309). -/

namespace Sys2Proof.Machine

/-- Try the next operation of a slot. -/
def tryIssue (loc : Nat) (x : Slot) (s : State) : Host.Outcome State Fault Refusal :=
  match turn s loc x with
  | .run i t => exec i t
  | .over t => .next t

/-- Whether a slot's next operation may issue now (R24). -/
def issuesNow (s : State) (loc : Nat) (x : Slot) : Bool :=
  match tryIssue loc x s with
  | .next t => decide (stepOf (s.seqAt loc) x < stepOf (t.seqAt loc) x)
  | _ => false

/-- Whether B's operation in a slot comes ahead of A's: B has been able to issue for 15 cycles without being chosen (R25); while a `yield`
is in force the one it favours comes first (R309). -/
def bFirst (s : State) (core : Nat) (x : Slot) : Bool :=
  let k := s.coreAt core
  match k.yieldTo with
  | some (l, t) => if s.now < t then l % 2 == 1 else k.first.testBit x.num || decide (15 ≤ k.ready.look 0 x.num)
  | none => k.first.testBit x.num || decide (15 ≤ k.ready.look 0 x.num)

/-- Whether the merge rule gives a slot's unit to the sibling, which may issue there (R25, R309). -/
def mergeHolds (s : State) (loc : Nat) (x : Slot) : Bool :=
  (s.seqAt (siblingOf loc)).status == 1 && (bFirst s (coreOf loc) x == (loc % 2 == 0)) && issuesNow s (siblingOf loc) x

/-- B's turn in a slot, and the cycles that it has stood back there, come to an end. -/
def endCount (s : State) (core : Nat) (x : Slot) : State :=
  let k := s.coreAt core
  if k.ready.has x.num || k.first.testBit x.num then
    s.setCore core { k with ready := k.ready.drop x.num, first := Nat.land k.first (511 - 2 ^ x.num) }
  else s

/-- Keep the count of consecutive cycles in which B was able to issue in a slot and A was chosen, for an issue of either that led from s
to t (R25). (DEDUCED, assumption 19) -/
def countMerge (s t : State) (loc : Nat) (x : Slot) : State :=
  let b := loc / 2 * 2 + 1
  if loc % 2 = 0 ∧ (s.seqAt b).status = 1 ∧ issuesNow s b x = true then
    let k := t.coreAt (coreOf loc)
    t.setCore (coreOf loc) { k with ready := k.ready.put x.num (k.ready.look 0 x.num + 1) }
  else endCount t (coreOf loc) x

/-- A slot's next operation, where the merge rule lets it go: a slot that stands back stalls, and B is looked at again. -/
def issueMove (loc : Nat) (x : Slot) (s : State) : Host.Outcome State Fault Refusal :=
  if mergeHolds s loc x then
    let o := siblingOf loc
    let t := stallHere { s with cur := ⟨loc, x⟩ }
    .next (t.setSeq o { t.seqAt o with stalled := Nat.land (t.seqAt o).stalled (511 - 2 ^ x.num) })
  else
    match tryIssue loc x s with
    | .next t => .next (if stepOf (s.seqAt loc) x < stepOf (t.seqAt loc) x then countMerge s t loc x else t)
    | .fault f => .fault f
    | .refused r => .refused r

end Sys2Proof.Machine
end

