-- ==== Sys2Proof/Machine/Schedule.lean ====
section
/-! DEFINITION. What moves next when the agenda names nothing (assumption 1): slots first, then the engines in rotation. -/

namespace Sys2Proof.Machine

/-- The slot of a running sequencer with the smallest step among those that have not stalled. -/
def readySlot (q : Seq) : Option Slot :=
  if q.status ≠ 1 then none
  else (Slot.all.filter (fun x => !q.stalled.testBit x.num)).foldl (fun r x =>
    match r with
    | none => some x
    | some y => if stepOf q x < stepOf q y then some x else some y) none

/-- The first sequencer and slot that can be tried. -/
def readyPlace : Tab Seq → Option (Nat × Slot)
  | [] => none
  | (loc, q) :: r => match readySlot q with | some x => some (loc, x) | none => readyPlace r

/-- A list of one event where a condition holds. -/
def evIf (c : Bool) (i : Instr) : List Instr := if c then [i] else []

/-- Events of a bound ring. -/
def ringEvents (loc n : Nat) (r : Ring) : List Instr :=
  if r.dir then [if r.fin = 2 then Instr.drainQueueForward loc n else Instr.ringEntryDrain loc n]
  else List.flatten [evIf r.gather (Instr.gatherRowFetch loc n 1), evIf (r.comp != 0) (Instr.chunkDecode loc n r.relNo),
    [Instr.ringEntryFill loc n]]

/-- Events of an in-flight entry. -/
def entryEvents (loc k : Nat) (e : Ifr) : List Instr :=
  match e.kind with
  | 1 => [Instr.loadReply loc k]
  | 4 => [Instr.loadReply loc k, Instr.ldrLateReply loc k]
  | 2 | 5 => [Instr.storeAck loc k]
  | 3 | 6 => [Instr.atomicReply loc k]
  | 11 => []
  | _ => [Instr.transferSourceRead loc k, Instr.transferComplete loc k]

/-- Events of a sequencer's waits. -/
def waitEvents (loc : Nat) (q : Seq) : List Instr :=
  List.flatten [evIf q.halo.isSome (Instr.haloTimeout loc), evIf q.sleepTo.isSome (Instr.sleepExpiry loc),
    evIf q.slice.isSome (Instr.sliceGraceExpiry loc), evIf (q.epoch != 0 || !q.past.isEmpty) (Instr.horizonPublish loc)]

/-- Asynchronous traps of a sequencer. -/
def trapEvents (s : State) (loc : Nat) (q : Seq) : List Instr :=
  List.flatten [(asyncDue s loc).map (fun d => Instr.asynchronousTrap loc d.1 d.2.1 d.2.2.1),
    (q.ifr.filter (fun e => e.2.fault == 1 && e.2.halted)).map (fun e => Instr.asynchronousTrap loc e.2.code e.2.info e.1)]

/-- Notices that may reach a declared grid. -/
def noticeEvents (loc n : Nat) (g : Grid) : List Instr :=
  (List.range g.parties.length).map (fun p => Instr.neighbourCommitNotice loc n p)

/-- Events of a sequencer's engines. -/
def seqEvents (s : State) (loc : Nat) (q : Seq) : List Instr :=
  List.flatten [q.rings.flatMap (fun r => ringEvents loc r.1 r.2), q.tiles.map (fun t => Instr.tileWriteComplete loc t.acc),
    evIf (!q.fills.isEmpty) (Instr.mlarFillComplete loc), q.ifr.flatMap (fun e => entryEvents loc e.1 e.2), trapEvents s loc q,
    waitEvents loc q, q.grids.flatMap (fun g => noticeEvents loc g.1 g.2)]

/-- Events of a packet. -/
def packetEvents (p : Packet) : List Instr :=
  match p.kind with
  | .read _ | .write _ _ | .atom _ _ _ _ _ _ => [Instr.packetOffer p.id, Instr.homeAccess p.id]
  | .header _ _ _ | .beat _ _ _ _ _ => [Instr.packetOffer p.id, Instr.landingBeat p.id]
  | .ask _ => [Instr.packetOffer p.id, Instr.cgetSourceResolve p.id]
  | .arrival _ _ => [Instr.packetOffer p.id, Instr.barrierRootArrival p.id]
  | _ => [Instr.packetOffer p.id]

/-- Fan copies of a beat that have still to be written. -/
def copyEvents (k : Endpoint) : List Instr := (k.arrive.filter (fun a => !a.fan.isEmpty)).map (fun a => Instr.landingBeat a.pk)

/-- The event of a command. -/
def commandEvent (die slot op : Nat) : Instr :=
  match op with
  | 2 => Instr.discardParkedTransfer die slot
  | 3 => Instr.savePartition die slot
  | 4 => Instr.restorePartition die slot
  | 5 => Instr.endSlice die slot
  | 6 => Instr.retrainLink die slot
  | 7 => Instr.functionLevelReset die slot
  | 8 => Instr.writeVdRegister die slot
  | 9 => Instr.transInv die slot
  | 10 => Instr.attestationReport die slot
  | _ => Instr.disposeTrap die slot

/-- The command that a die executes next. -/
def commandEvents (d : Nat) (k : Die) : List Instr :=
  match k.due with
  | n :: _ => [commandEvent d n (k.op n)]
  | [] => []

/-- Events of a die. -/
def dieEvents (d : Nat) (k : Die) : List Instr :=
  List.flatten [k.launches.flatMap (fun l => (l.todo.map (·.1) ++ l.spawned.map (·.1)).map Instr.taskStart),
    k.cards.flatMap (fun c => [Instr.jobCardStart d c.no, Instr.jobCardComplete d c.no]),
    (k.walks.filter (·.active)).map (fun w => Instr.pageTableWalk (8 * w.no + d)),
    evIf (!k.fatal.isEmpty) (Instr.recordDelivery d true), evIf (!k.lane.isEmpty) (Instr.recordDelivery d false),
    commandEvents d k, evIf k.job.isSome (Instr.saveStep d)]

/-- Events of a token. -/
def tokenEvents (n : Nat) : List Instr :=
  let vd := n / 2 ^ 31
  let r := n % 2 ^ 31
  [Instr.tokenHoldExpiry vd r, Instr.tacqRequest vd r, Instr.tokenRecall vd r, Instr.tokenGrant vd r]

/-- Events of a core's merge order. -/
def coreEvents (n : Nat) (c : Core) : List Instr :=
  List.flatten [evIf c.yieldTo.isSome (Instr.yieldExpiry n),
    (c.ready.filter (fun r => decide (15 ≤ r.2))).map (fun r => Instr.bPriorityPromotion n r.1)]

/-- The cores that a flip on its way may reach. -/
def flipEvents (s : State) (n : Nat) : List Instr :=
  match s.casts[n]? with
  | some (.flip _ _ _ cores) => cores.map (fun c => Instr.phaseFlip n c)
  | _ => []

/-- Events of withdraws, horizons and flips. -/
def noteEvents (s : State) : List Instr :=
  List.flatten [s.withdraws.flatMap (fun w => w.discard.map (fun e => Instr.withdrawReceive w.loc e)),
    s.withdraws.flatMap (fun w => w.acks.map (fun e => Instr.withdrawAck w.loc e)),
    s.published.flatMap (fun h => h.eps.map (fun e => Instr.horizonRetire e h.loc)),
    (List.range s.casts.length).flatMap (fun n => flipEvents s n)]

/-- The events of engines, fabric and lanes that may have work. -/
def engineEvents (s : State) : List Instr :=
  List.flatten [s.seqs.flatMap (fun e => seqEvents s e.1 e.2), s.net.flatMap packetEvents,
    s.eps.flatMap (fun e => copyEvents e.2), s.dies.flatMap (fun d => dieEvents d.1 d.2), s.tokens.flatMap (fun t => tokenEvents t.1), noteEvents s,
    s.cores.flatMap (fun c => coreEvents c.1 c.2)]

/-- Clear every stall bit, so that each slot is tried again. -/
def clearStalls (s : State) : State := { s with seqs := s.seqs.map (fun e => (e.1, { e.2 with stalled := 0 })) }

/-- The default move: a slot that can be tried; else the engines take turns and one nanosecond passes. -/
def defaultMove (s : State) : Option Move × State :=
  match readyPlace s.seqs with
  | some (loc, x) => (some (.issue loc x), s)
  | none =>
    let es := engineEvents s
    let s' := clearStalls { s with now := s.now + 1, free := s.free + 1 }
    ((es[s.free % es.length]?).map Move.event, s')

end Sys2Proof.Machine
end

