-- ==== Sys2Proof/Machine/Step.lean ====
section
/-! DEFINITION. One step of the module: the next move of the agenda, or the default move (assumption 1). -/

namespace Sys2Proof.Machine

/-- Perform one move. Without power only a module reset moves (R386). -/
def runMove (m : Move) (s : State) : Host.Outcome State Fault Refusal :=
  match m with
  | .issue loc x =>
    if s.power then issueMove loc x s else .fault .unpowered
  | .event i =>
    if !isEvent i then .next s
    else if s.power || isReset i then exec i s
    else .fault .unpowered

/-- One step. -/
def step (s : State) : Host.Outcome State Fault Refusal :=
  match s.agenda with
  | (dt, m) :: rest => runMove m { s with agenda := rest, now := s.now + dt }
  | [] =>
    match defaultMove s with
    | (some m, t) => runMove m t
    | (none, t) => if s.power then .next t else .fault .unpowered

/-- The state with an instruction stored where the next step fetches, and the next move its issue.
(DESIGN CHOICE, assumption 16) -/
def State.withFetchWord (s : State) (nbits w : Nat) : State := placeBundle s (BitVec.ofNat 512 (w % 2 ^ nbits))

end Sys2Proof.Machine
end

