-- ==== Sys2Proof/Laws/Encoding.lean ====
section
/-! SUPPORT. Lemmas about the fields of slot words: each field of an encoded word reads back (Tables 3.3, 3.4), and operand,
format and destination codes are inverted by their decoders. -/

namespace Sys2Proof

/-! ### Fields of a 56-bit word -/

theorem fld_word56_mod {g : Guard} {op : Nat} {d a b : BitVec 10} {m : BitVec 13} {lo n : Nat} (h : 43 ≤ lo) : fld (word56 g op d a b m) lo n = m.extractLsb' (lo - 43) n := by
  unfold fld word56
  apply BitVec.eq_of_getLsbD_eq
  intro i hi
  simp only [BitVec.getLsbD_extractLsb', BitVec.getLsbD_append]
  grind

theorem fld_word56_b {g : Guard} {op : Nat} {d a b : BitVec 10} {m : BitVec 13} {lo n : Nat} (h : 33 ≤ lo)
    (h' : lo + n ≤ 43) : fld (word56 g op d a b m) lo n = b.extractLsb' (lo - 33) n := by
  unfold fld word56
  apply BitVec.eq_of_getLsbD_eq
  intro i hi
  simp only [BitVec.getLsbD_extractLsb', BitVec.getLsbD_append]
  grind

theorem fld_word56_a {g : Guard} {op : Nat} {d a b : BitVec 10} {m : BitVec 13} {lo n : Nat} (h : 23 ≤ lo)
    (h' : lo + n ≤ 33) : fld (word56 g op d a b m) lo n = a.extractLsb' (lo - 23) n := by
  unfold fld word56
  apply BitVec.eq_of_getLsbD_eq
  intro i hi
  simp only [BitVec.getLsbD_extractLsb', BitVec.getLsbD_append]
  grind

theorem fld_word56_d {g : Guard} {op : Nat} {d a b : BitVec 10} {m : BitVec 13} {lo n : Nat} (h : 13 ≤ lo)
    (h' : lo + n ≤ 23) : fld (word56 g op d a b m) lo n = d.extractLsb' (lo - 13) n := by
  unfold fld word56
  apply BitVec.eq_of_getLsbD_eq
  intro i hi
  simp only [BitVec.getLsbD_extractLsb', BitVec.getLsbD_append]
  grind

@[simp] theorem fld_word56_op {g : Guard} {op : Nat} {d a b : BitVec 10} {m : BitVec 13} :
    fld (word56 g op d a b m) 5 8 = BitVec.ofNat 8 op := by
  unfold fld word56
  apply BitVec.eq_of_getLsbD_eq
  intro i hi
  simp only [BitVec.getLsbD_extractLsb', BitVec.getLsbD_append]
  grind

@[simp] theorem guardOf_word56 {g : Guard} {op : Nat} {d a b : BitVec 10} {m : BitVec 13} :
    guardOf (word56 g op d a b m) = g := by
  have h1 : fld (word56 g op d a b m) 0 4 = g.pred := by
    unfold fld word56
    apply BitVec.eq_of_getLsbD_eq
    intro i hi
    simp only [BitVec.getLsbD_extractLsb', BitVec.getLsbD_append]
    grind
  have h2 : fld (word56 g op d a b m) 4 1 = bit1 g.inv := by
    unfold fld word56
    apply BitVec.eq_of_getLsbD_eq
    intro i hi
    simp only [BitVec.getLsbD_extractLsb', BitVec.getLsbD_append]
    grind
  rw [guardOf, h1, h2]
  cases g with
  | mk p v => cases v <;> rfl

/-! ### Fields of a 56-bit word in an immediate form -/

@[simp] theorem fld_word56i_imm {g : Guard} {op : Nat} {d a : BitVec 10} {m : BitVec 23} :
    fld (word56i g op d a m) 33 23 = m := by
  unfold fld word56i
  apply BitVec.eq_of_getLsbD_eq
  intro i hi
  simp only [BitVec.getLsbD_extractLsb', BitVec.getLsbD_append]
  grind

theorem fld_word56i_a {g : Guard} {op : Nat} {d a : BitVec 10} {m : BitVec 23} {lo n : Nat} (h : 23 ≤ lo)
    (h' : lo + n ≤ 33) : fld (word56i g op d a m) lo n = a.extractLsb' (lo - 23) n := by
  unfold fld word56i
  apply BitVec.eq_of_getLsbD_eq
  intro i hi
  simp only [BitVec.getLsbD_extractLsb', BitVec.getLsbD_append]
  grind

theorem fld_word56i_d {g : Guard} {op : Nat} {d a : BitVec 10} {m : BitVec 23} {lo n : Nat} (h : 13 ≤ lo)
    (h' : lo + n ≤ 23) : fld (word56i g op d a m) lo n = d.extractLsb' (lo - 13) n := by
  unfold fld word56i
  apply BitVec.eq_of_getLsbD_eq
  intro i hi
  simp only [BitVec.getLsbD_extractLsb', BitVec.getLsbD_append]
  grind

@[simp] theorem fld_word56i_op {g : Guard} {op : Nat} {d a : BitVec 10} {m : BitVec 23} :
    fld (word56i g op d a m) 5 8 = BitVec.ofNat 8 op := by
  unfold fld word56i
  apply BitVec.eq_of_getLsbD_eq
  intro i hi
  simp only [BitVec.getLsbD_extractLsb', BitVec.getLsbD_append]
  grind

@[simp] theorem guardOf_word56i {g : Guard} {op : Nat} {d a : BitVec 10} {m : BitVec 23} :
    guardOf (word56i g op d a m) = g := by
  have h1 : fld (word56i g op d a m) 0 4 = g.pred := by
    unfold fld word56i
    apply BitVec.eq_of_getLsbD_eq
    intro i hi
    simp only [BitVec.getLsbD_extractLsb', BitVec.getLsbD_append]
    grind
  have h2 : fld (word56i g op d a m) 4 1 = bit1 g.inv := by
    unfold fld word56i
    apply BitVec.eq_of_getLsbD_eq
    intro i hi
    simp only [BitVec.getLsbD_extractLsb', BitVec.getLsbD_append]
    grind
  rw [guardOf, h1, h2]
  cases g with
  | mk p v => cases v <;> rfl

/-! ### Fields of a 48-bit and of a 40-bit word -/

theorem fld_word48_ops {g : Guard} {op : Nat} {x : BitVec 36} {lo n : Nat} (h : 12 ≤ lo) (h' : lo + n ≤ 48) :
    fld ((word48 g op x).setWidth 56) lo n = x.extractLsb' (lo - 12) n := by
  unfold fld word48
  apply BitVec.eq_of_getLsbD_eq
  intro i hi
  simp only [BitVec.getLsbD_extractLsb', BitVec.getLsbD_setWidth, BitVec.getLsbD_append]
  grind

@[simp] theorem fld_word48_op {g : Guard} {op : Nat} {x : BitVec 36} :
    fld ((word48 g op x).setWidth 56) 5 7 = BitVec.ofNat 7 op := by
  unfold fld word48
  apply BitVec.eq_of_getLsbD_eq
  intro i hi
  simp only [BitVec.getLsbD_extractLsb', BitVec.getLsbD_setWidth, BitVec.getLsbD_append]
  grind

@[simp] theorem guardOf_word48 {g : Guard} {op : Nat} {x : BitVec 36} : guardOf ((word48 g op x).setWidth 56) = g := by
  have h1 : fld ((word48 g op x).setWidth 56) 0 4 = g.pred := by
    unfold fld word48
    apply BitVec.eq_of_getLsbD_eq
    intro i hi
    simp only [BitVec.getLsbD_extractLsb', BitVec.getLsbD_setWidth, BitVec.getLsbD_append]
    grind
  have h2 : fld ((word48 g op x).setWidth 56) 4 1 = bit1 g.inv := by
    unfold fld word48
    apply BitVec.eq_of_getLsbD_eq
    intro i hi
    simp only [BitVec.getLsbD_extractLsb', BitVec.getLsbD_setWidth, BitVec.getLsbD_append]
    grind
  rw [guardOf, h1, h2]
  cases g with
  | mk p v => cases v <;> rfl

theorem fld_word40_ops {g : Guard} {op : Nat} {x : BitVec 29} {lo n : Nat} (h : 11 ≤ lo) (h' : lo + n ≤ 40) :
    fld ((word40 g op x).setWidth 56) lo n = x.extractLsb' (lo - 11) n := by
  unfold fld word40
  apply BitVec.eq_of_getLsbD_eq
  intro i hi
  simp only [BitVec.getLsbD_extractLsb', BitVec.getLsbD_setWidth, BitVec.getLsbD_append]
  grind

@[simp] theorem fld_word40_op {g : Guard} {op : Nat} {x : BitVec 29} :
    fld ((word40 g op x).setWidth 56) 5 6 = BitVec.ofNat 6 op := by
  unfold fld word40
  apply BitVec.eq_of_getLsbD_eq
  intro i hi
  simp only [BitVec.getLsbD_extractLsb', BitVec.getLsbD_setWidth, BitVec.getLsbD_append]
  grind

@[simp] theorem guardOf_word40 {g : Guard} {op : Nat} {x : BitVec 29} : guardOf ((word40 g op x).setWidth 56) = g := by
  have h1 : fld ((word40 g op x).setWidth 56) 0 4 = g.pred := by
    unfold fld word40
    apply BitVec.eq_of_getLsbD_eq
    intro i hi
    simp only [BitVec.getLsbD_extractLsb', BitVec.getLsbD_setWidth, BitVec.getLsbD_append]
    grind
  have h2 : fld ((word40 g op x).setWidth 56) 4 1 = bit1 g.inv := by
    unfold fld word40
    apply BitVec.eq_of_getLsbD_eq
    intro i hi
    simp only [BitVec.getLsbD_extractLsb', BitVec.getLsbD_setWidth, BitVec.getLsbD_append]
    grind
  rw [guardOf, h1, h2]
  cases g with
  | mk p v => cases v <;> rfl

/-! ### Sub-fields -/

/-- A field of a concatenation below its low part's width lies in the low part. -/
theorem ex_lo {v w : Nat} {x : BitVec v} {y : BitVec w} {lo n : Nat} (h : lo + n ≤ w) :
    BitVec.extractLsb' (n := no_index (v + w)) lo n (HAppend.hAppend (γ := no_index (BitVec (v + w))) x y) = y.extractLsb' lo n := by
  apply BitVec.eq_of_getLsbD_eq
  intro i hi
  simp only [BitVec.getLsbD_extractLsb', BitVec.getLsbD_append]
  grind

/-- A field of a concatenation above its low part lies in the high part. -/
theorem ex_hi {v w : Nat} {x : BitVec v} {y : BitVec w} {lo n : Nat} (h : w ≤ lo) :
    BitVec.extractLsb' (n := no_index (v + w)) lo n (HAppend.hAppend (γ := no_index (BitVec (v + w))) x y) = x.extractLsb' (lo - w) n := by
  apply BitVec.eq_of_getLsbD_eq
  intro i hi
  simp only [BitVec.getLsbD_extractLsb', BitVec.getLsbD_append]
  grind

/-- A field of an extended value that lies within it. -/
theorem ex_ext {v w : Nat} {x : BitVec v} {lo n : Nat} (h : lo + n ≤ v) (h' : v ≤ w) :
    (x.setWidth w).extractLsb' lo n = x.extractLsb' lo n := by
  apply BitVec.eq_of_getLsbD_eq
  intro i hi
  simp only [BitVec.getLsbD_extractLsb', BitVec.getLsbD_setWidth]
  grind

/-- A field of an extended value that lies above it is zero. -/
theorem ex_ext0 {v w : Nat} {x : BitVec v} {lo n : Nat} (_ : v ≤ lo) :
    (x.setWidth w).extractLsb' lo n = 0#n := by
  apply BitVec.eq_of_getLsbD_eq
  intro i hi
  simp only [BitVec.getLsbD_extractLsb', BitVec.getLsbD_setWidth, BitVec.getLsbD_zero]
  grind

/-- The whole of a value is its own field. -/
theorem ex_self {w : Nat} {x : BitVec w} : x.extractLsb' 0 w = x := BitVec.extractLsb'_eq_self

theorem bit1_beq {b : Bool} : (bit1 b == 1#1) = b := by cases b <;> rfl

/-! ### Codes -/

theorem Fmt.ofCode_code5 {t : Fmt} : Fmt.ofCode (BitVec.ofNat 5 t.code).toNat = some t := by cases t <;> rfl
theorem Fmt.ofCode_code4 {t : Fmt} : Fmt.ofCode (BitVec.ofNat 4 t.code).toNat = some t := by cases t <;> rfl

theorem Fmt.ofCode_mod32 {t : Fmt} : Fmt.ofCode (t.code % 32) = some t := by cases t <;> rfl
theorem Fmt.ofCode_mod16 {t : Fmt} : Fmt.ofCode (t.code % 16) = some t := by cases t <;> rfl

/-- Operands whose code reads back as themselves. -/
def Opnd.coded : Opnd → Bool
  | .own i => i.toNat < 768
  | _ => true

theorem Opnd.of10 {o : Opnd} (h : o.coded = true) : Opnd.ofCode10 o.code10 = some o := by
  cases o with
  | own i =>
    have h' : i.toNat < 768 := by simpa [Opnd.coded] using h
    simp [Opnd.ofCode10, Opnd.code10, h']
  | pop q =>
    revert q
    decide
  | peek q =>
    revert q
    decide
  | com c =>
    revert c
    decide
  | dq n =>
    revert n
    decide

theorem Opnd.of8 {o : Opnd} (h : o.okXSrc = true) : Opnd.ofCode8 o.code8 = some o := by
  cases o with
  | own i =>
    have h' : i.toNat < 32 := by simpa [Opnd.okXSrc] using h
    have h2 : i.toNat < 256 := by omega
    simp [Opnd.ofCode8, Opnd.code8, Nat.mod_eq_of_lt h2, h']
  | pop q =>
    revert q
    decide
  | peek q =>
    revert q
    decide
  | com c =>
    revert c
    decide
  | dq n =>
    revert n
    decide

theorem Opnd.coded_okS {o : Opnd} (h : o.okS = true) : o.coded = true := by
  cases o <;> simp_all [Opnd.okS, Opnd.coded]; omega
theorem Opnd.coded_okVSrc {o : Opnd} (h : o.okVSrc = true) : o.coded = true := by cases o <;> simp_all [Opnd.okVSrc, Opnd.coded]
theorem Opnd.coded_okVDst {o : Opnd} (h : o.okVDst = true) : o.coded = true := by cases o <;> simp_all [Opnd.okVDst, Opnd.coded]
theorem Opnd.coded_okVReg {o : Opnd} (h : o.okVReg = true) : o.coded = true := by cases o <;> simp_all [Opnd.okVReg, Opnd.coded]
theorem Opnd.coded_okLW {o : Opnd} (h : o.okLW = true) : o.coded = true := by
  cases o <;> simp_all [Opnd.okLW, Opnd.coded]; omega
theorem Opnd.coded_okWVec {o : Opnd} (h : o.okWVec = true) : o.coded = true := by cases o <;> simp_all [Opnd.okWVec, Opnd.coded]
theorem Opnd.coded_okWSrc {o : Opnd} (h : o.okWSrc = true) : o.coded = true := by
  cases o <;> simp_all [Opnd.okWSrc, Opnd.coded]; omega
theorem Opnd.src_okXDst {o : Opnd} (h : o.okXDst = true) : o.okXSrc = true := by cases o <;> simp_all [Opnd.okXDst, Opnd.okXSrc]
theorem Opnd.src_okXReg {o : Opnd} (h : o.okXReg = true) : o.okXSrc = true := by cases o <;> simp_all [Opnd.okXReg, Opnd.okXSrc]

/-- Destinations whose fields read back as themselves. -/
def Dest.coded : Dest → Bool
  | .here o => o.coded
  | .file _ _ => true

theorem Dest.ofCodes_codes {x : Dest} (h : x.coded = true) : Dest.ofCodes x.fileCode x.code10 = some x := by
  cases x with
  | here o => simp [Dest.ofCodes, Dest.fileCode, Dest.code10, Opnd.of10 (by simpa [Dest.coded] using h)]
  | file f i => cases f <;> rfl

theorem Dest.coded_okLd {x : Dest} (h : x.okLd = true) : x.coded = true := by
  cases x with
  | here o => cases o <;> simp_all [Dest.okLd, Dest.coded, Opnd.coded]; omega
  | file f i => rfl
theorem Dest.coded_okVld {x : Dest} (h : x.okVld = true) : x.coded = true := by
  cases x with
  | here o => simp [Dest.okVld] at h
  | file f i => rfl
theorem Dest.coded_okXmov {x : Dest} {b : Bool} (h : x.okXmov b = true) : x.coded = true := by
  cases x with
  | here o => cases o <;> simp_all [Dest.okXmov, Dest.coded, Opnd.coded]; omega
  | file f i => rfl
theorem Dest.coded_okVxmov {x : Dest} {l : BitVec 3} (h : x.okVxmov l = true) : x.coded = true := by
  cases x with
  | here o => exact Opnd.coded_okVDst (by simp [Dest.okVxmov] at h; exact h.1)
  | file f i => rfl

/-! An operand of each kind reads back from its code; likewise a destination. -/

theorem Opnd.of10_okS {o : Opnd} (h : o.okS = true) : Opnd.ofCode10 o.code10 = some o := Opnd.of10 (Opnd.coded_okS h)
theorem Opnd.of10_okVSrc {o : Opnd} (h : o.okVSrc = true) : Opnd.ofCode10 o.code10 = some o := Opnd.of10 (Opnd.coded_okVSrc h)
theorem Opnd.of10_okVDst {o : Opnd} (h : o.okVDst = true) : Opnd.ofCode10 o.code10 = some o := Opnd.of10 (Opnd.coded_okVDst h)
theorem Opnd.of10_okVReg {o : Opnd} (h : o.okVReg = true) : Opnd.ofCode10 o.code10 = some o := Opnd.of10 (Opnd.coded_okVReg h)
theorem Opnd.of10_okLW {o : Opnd} (h : o.okLW = true) : Opnd.ofCode10 o.code10 = some o := Opnd.of10 (Opnd.coded_okLW h)
theorem Opnd.of10_okWVec {o : Opnd} (h : o.okWVec = true) : Opnd.ofCode10 o.code10 = some o := Opnd.of10 (Opnd.coded_okWVec h)
theorem Opnd.of10_okWSrc {o : Opnd} (h : o.okWSrc = true) : Opnd.ofCode10 o.code10 = some o := Opnd.of10 (Opnd.coded_okWSrc h)
theorem Opnd.of8_okXDst {o : Opnd} (h : o.okXDst = true) : Opnd.ofCode8 o.code8 = some o := Opnd.of8 (Opnd.src_okXDst h)
theorem Opnd.of8_okXReg {o : Opnd} (h : o.okXReg = true) : Opnd.ofCode8 o.code8 = some o := Opnd.of8 (Opnd.src_okXReg h)
theorem Dest.of_okLd {x : Dest} (h : x.okLd = true) : Dest.ofCodes x.fileCode x.code10 = some x :=
  Dest.ofCodes_codes (Dest.coded_okLd h)
theorem Dest.of_okVld {x : Dest} (h : x.okVld = true) : Dest.ofCodes x.fileCode x.code10 = some x :=
  Dest.ofCodes_codes (Dest.coded_okVld h)
theorem Dest.of_okXmov {x : Dest} {b : Bool} (h : x.okXmov b = true) : Dest.ofCodes x.fileCode x.code10 = some x :=
  Dest.ofCodes_codes (Dest.coded_okXmov h)
theorem Dest.of_okVxmov {x : Dest} {l : BitVec 3} (h : x.okVxmov l = true) : Dest.ofCodes x.fileCode x.code10 = some x :=
  Dest.ofCodes_codes (Dest.coded_okVxmov h)

/-- The ring number within an X ring code (Table 9.2). -/
theorem ex_ring {q : BitVec 5} : (BitVec.ofNat 8 (32 + q.toNat)).extractLsb' 0 5 = q := by
  revert q
  decide

theorem ex_kind {b : Bool} : ((if b = true then (2#5) else 1#5).extractLsb' 0 2 == 2#2) = b := by cases b <;> rfl

/-! ### From fields to the decoder -/

/-- A word that reads as an instruction which is encoded by it decodes to that instruction (R52). -/
theorem decodeWord_of_raw {sl : Slot} {i : Instr} {w : Nat} (hw : i.wf = true) (he : encode i = some w)
    (hr : rawSlot sl (BitVec.ofNat 56 w) = some i) : decodeWord sl w = some i := by
  simp [decodeWord, hr, hw, he]

theorem ofNat56 {x : BitVec 56} : BitVec.ofNat 56 x.toNat = x := by simp
theorem ofNat48 {x : BitVec 48} : BitVec.ofNat 56 x.toNat = x.setWidth 56 := by simp [BitVec.ofNat_toNat]
theorem ofNat40 {x : BitVec 40} : BitVec.ofNat 56 x.toNat = x.setWidth 56 := by simp [BitVec.ofNat_toNat]

/-- What decodes is well formed and is encoded by exactly the word (R52). -/
theorem decodeWord_sound {sl : Slot} {i : Instr} {w : Nat} (h : decodeWord sl w = some i) : i.wf = true ∧ encode i = some w := by
  unfold decodeWord at h
  cases hr : rawSlot sl (BitVec.ofNat 56 w) with
  | none => simp [hr] at h
  | some j =>
    simp only [hr, Option.bind_eq_bind, Option.bind_some, Option.ite_none_right_eq_some, Option.some.injEq] at h
    obtain ⟨hj, rfl⟩ := h
    simpa using hj

end Sys2Proof
end

