-- ==== Sys2Proof/Laws/PerInstr.lean ====
section
/-! SUPPORT. Statements made per instruction: encoding and decoding agree (R45, R52). -/

namespace Sys2Proof.Laws.RoundTrip

set_option linter.unusedSimpArgs false
set_option linter.unusedTactic false
set_option linter.unreachableTactic false
set_option linter.unnecessarySeqFocus false
set_option Elab.async false

/-- The slots whose word table holds an operation (Table 3.1, Tables 3.7 to 3.14); an event stands in none. -/
def slotsOf : Instr → List Slot
  | .add _ _ _ _ | .sub _ _ _ _ | .addsl _ _ _ _ _ | .mul _ _ _ _ | .mulh _ _ _ _ | .mulhB _ _ _ _ | .div _ _ _ _
  | .divB _ _ _ _ | .rem _ _ _ _ | .remB _ _ _ _ | .and _ _ _ _ | .or _ _ _ _ | .xor _ _ _ _ | .andn _ _ _ _
  | .shl _ _ _ _ | .shr _ _ _ _ | .sra _ _ _ _ | .rotl _ _ _ _ | .fshl _ _ _ _ _ | .fshr _ _ _ _ _ | .clz _ _ _
  | .ctz _ _ _ | .popc _ _ _ | .min _ _ _ _ | .max _ _ _ _ | .minB _ _ _ _ | .maxB _ _ _ _ | .bfx _ _ _ _ _
  | .bfi _ _ _ _ | .sel _ _ _ _ _ _ | .cmp _ _ _ _ _ | .pand _ _ _ _ _ _ | .por _ _ _ _ _ _ | .pnot _ _ _
  | .addi _ _ _ _ | .andi _ _ _ _ | .ori _ _ _ _ | .xori _ _ _ _ | .shli _ _ _ _ | .shri _ _ _ _ | .srai _ _ _ _
  | .li _ _ _ | .lih _ _ _ _ | .cmpi _ _ _ _ _ | .br _ _ | .jmp _ _ | .jmpr _ _ | .call _ _ _ | .ret _ _ | .loop _ _ _
  | .halt _ | .xmov _ _ _ _ _ | .rdsr _ _ _ | .wrsr _ _ _ | .mrsData _ _ | .rdts _ _ => [.S]
  | .vadd _ _ _ _ _ _ | .vsub _ _ _ _ _ _ | .vmul _ _ _ _ _ _ | .vmulh _ _ _ _ _ _ | .vmin _ _ _ _ _ _
  | .vmax _ _ _ _ _ _ | .vabs _ _ _ _ _ | .vand _ _ _ _ _ _ | .vor _ _ _ _ _ _ | .vxor _ _ _ _ _ _
  | .vandn _ _ _ _ _ _ | .vshl _ _ _ _ _ _ | .vshr _ _ _ _ _ _ | .vsra _ _ _ _ _ _ | .vfsh _ _ _ _ _ _
  | .vclz _ _ _ _ _ | .vpopc _ _ _ _ _ | .vcmp _ _ _ _ _ _ | .vsel _ _ _ _ _ _ | .kand _ _ _ _ | .kor _ _ _ _
  | .kxor _ _ _ _ | .knot _ _ _ | .kpop _ _ _ | .kfirst _ _ _ | .vbcast _ _ _ _ _ _ | .vext _ _ _ _ _
  | .vins _ _ _ _ _ | .vperm _ _ _ _ _ _ | .vrot _ _ _ _ _ _ | .vslide _ _ _ _ _ _ _ | .vred _ _ _ _ _ _
  | .vscan _ _ _ _ _ _ | .vpack _ _ _ _ _ _ | .vunpk _ _ _ _ _ | .vfadd _ _ _ _ _ _ | .vfsub _ _ _ _ _ _
  | .vfmul _ _ _ _ _ _ | .vfma _ _ _ _ _ _ | .vfms _ _ _ _ _ _ | .vfmin _ _ _ _ _ _ | .vfmax _ _ _ _ _ _
  | .vfcmp _ _ _ _ _ _ | .vfabs _ _ _ _ _ | .vfneg _ _ _ _ _ | .vfsgn _ _ _ _ _ _ | .vfred _ _ _ _ _ _
  | .vrcp _ _ _ _ _ | .vrsq _ _ _ _ _ | .vexp2 _ _ _ _ _ | .vlog2 _ _ _ _ _ | .vicvt _ _ _ _ _ | .vfcvt _ _ _ _ _
  | .vxmov _ _ _ _ => [.V0, .V1]
  | .mclr _ _ | .mmac _ _ _ _ _ _ _ _ | .mmacs _ _ _ _ _ _ _ _ _ | .mdrain _ _ _ _ _ _ _ | .mlar _ _ _ _ _
  | .mpar _ _ _ _ | .mcall _ _ | .mloop _ _ _ _ | .mend _ | .mendF _ | .mcntRd _ _ _ | .mcntSnap _ _ _ | .mcntClr _ _ => [.M]
  | .ld _ _ _ _ _ _ | .vld _ _ _ _ _ | .vldu _ _ _ _ _ | .pf _ _ _ | .gpush _ _ _ | .ldg _ _ _ _ _ _ | .vldg _ _ _ _ _
  | .ldr _ _ _ _ _ _ _ => [.L]
  | .st _ _ _ _ _ _ | .vst _ _ _ _ _ | .vstm _ _ _ _ _ _ | .aadd _ _ _ _ _ _ _ _ | .amin _ _ _ _ _ _ _ _
  | .amax _ _ _ _ _ _ _ _ | .alog _ _ _ _ _ _ _ _ _ | .aswp _ _ _ _ _ _ _ _ | .acas _ _ _ _ _ _ _
  | .aincb _ _ _ _ _ _ _ _ | .rcnt _ _ _ | .asnap _ _ _ _ _ | .str _ _ _ _ _ _ | .ratom _ _ _ _ _ _ _ _ _ => [.W]
  | .cbind _ _ _ _ | .cfree _ _ | .cput _ _ _ _ _ | .cget _ _ _ _ | .ccard _ _ _ _ | .cwait _ _ _ _ | .cstat _ _ _
  | .mapi _ _ _ _ _ | .mapx _ _ _ | .mapr _ _ | .maprAll _ _ _ | .mapq _ _ _ | .gdecl _ _ _ _ | .gdeclR _ _
  | .gq _ _ _ _ | .tacq _ _ _ | .trel _ _ => [.C]
  | .qwait _ _ _ | .qadv _ _ _ | .sarm _ _ _ | .swait _ _ _ | .fence _ _ _ | .gstep _ _ _ | .barA _ _ _ _ _
  | .barW _ _ _ _ | .bar _ _ _ _ _ | .spawn _ _ _ | .sjoin _ _ | .yield _ | .sleep _ _ | .evpost _ _ _ | .trap _ _
  | .eret _ _ | .eretT _ _ _ | .ctxsave _ _ _ | .ctxload _ _ _ _ | .pimg _ _ _ => [.Y]
  | .xcvt _ _ _ _ _ _ | .xquant _ _ _ _ _ _ | .xdeq _ _ _ _ _ _ | .xamax _ _ _ _ _ | .xtr _ _ _ _ | .xexp _ _ _ _ _ _
  | .xpack _ _ _ _ _ | .xunpk _ _ _ _ _ | .xcrc _ _ _ _ _ => [.X]
  | .routineWordIssue | .noOperation | .fetchBeyondCode | .asynchronousTrap _ _ _ _ | .ringEntryFill _ _
  | .gatherRowFetch _ _ _ | .ringEntryDrain _ _ | .drainQueueForward _ _ | .chunkDecode _ _ _ | .tileWriteComplete _ _
  | .mlarFillComplete _ | .loadReply _ _ | .ldrLateReply _ _ | .storeAck _ _ | .atomicReply _ _ | .homeAccess _
  | .packetOffer _ | .pageTableWalk _ | .transferSourceRead _ _ | .cgetSourceResolve _ | .landingBeat _
  | .transferComplete _ _ | .jobCardStart _ _ | .jobCardComplete _ _ | .haloTimeout _ | .neighbourCommitNotice _ _ _
  | .barrierRootArrival _ | .phaseFlip _ _ | .sleepExpiry _ | .yieldExpiry _ | .bPriorityPromotion _ _ | .taskStart _
  | .recordDelivery _ _ | .disposeTrap _ _ | .discardParkedTransfer _ _ | .savePartition _ _ | .restorePartition _ _
  | .endSlice _ _ | .sliceGraceExpiry _ | .withdrawReceive _ _ | .withdrawAck _ _ | .saveStep _ | .retrainLink _ _
  | .functionLevelReset _ _ | .writeVdRegister _ _ | .transInv _ _ | .attestationReport _ _ | .horizonPublish _
  | .horizonRetire _ _ | .tokenRecall _ _ | .tokenGrant _ _ | .tokenHoldExpiry _ _ | .tacqRequest _ _
  | .launchPacket _ _ | .hostStateStore _ _ _ | .hostMemoryAccess _ _ _ | .linkPacketReceive _ _ | .linkAck _ _
  | .laneFailure _ _ | .linkRetrained _ | .linkRetrainTimeout _ | .linkTraining _ _ _ | .ringSkewMeasure _ _ _
  | .correctedError _ | .uncorrectableError _ | .moduleReset _ | .powerOff | .rangeTableInstall _ _
  | .virtualDeviceCreation _ _ | .minimumShareSetting _ _ _ _ => []

/-- A well-formed operation decodes, from its own word and in each slot that takes it, to itself. -/
def Statement (i : Instr) : Prop :=
  i.wf = true → ∀ w, encode i = some w → ∀ sl ∈ slotsOf i, decodeWord sl w = some i

theorem add (g : Guard) (d : Opnd) (a : Opnd) (b : Opnd) : Statement (.add g d a b) := by
  intro hw w he sl hs
  refine decodeWord_of_raw hw he ?_
  have e := Option.some.inj (show some _ = some w from he)
  subst e
  simp [slotsOf] at hs
  simp [Instr.wf, okV3, okV2, okAtom] at hw
  rw [ofNat56]
  generalize hx : word56 _ _ _ _ _ _ = w
  have ho : (fld w 5 8).toNat = 0x01 := by rw [← hx, fld_word56_op]; rfl
  subst hs
  show rawS w = _
  unfold rawS
  rw [ho]
  show raw3 w _ = _
  subst hx
  simp (disch := decide) only [fld_word56_op, guardOf_word56, raw3, raw2, rawAB, rawA, rawD, destOf, fld_word56_mod, fld_word56_b, fld_word56_a, fld_word56_d, tmod, ex_lo, ex_hi, ex_ext, ex_ext0, ex_self, bit1_beq, Fmt.ofCode_code5, Fmt.ofCode_code4]
  simp [ex_self,  bit1_beq, Fmt.ofCode_mod32, Fmt.ofCode_mod16, Opnd.of10_okS, Dest.of_okXmov, hw]

theorem sub (g : Guard) (d : Opnd) (a : Opnd) (b : Opnd) : Statement (.sub g d a b) := by
  intro hw w he sl hs
  refine decodeWord_of_raw hw he ?_
  have e := Option.some.inj (show some _ = some w from he)
  subst e
  simp [slotsOf] at hs
  simp [Instr.wf, okV3, okV2, okAtom] at hw
  rw [ofNat56]
  generalize hx : word56 _ _ _ _ _ _ = w
  have ho : (fld w 5 8).toNat = 0x02 := by rw [← hx, fld_word56_op]; rfl
  subst hs
  show rawS w = _
  unfold rawS
  rw [ho]
  show raw3 w _ = _
  subst hx
  simp (disch := decide) only [fld_word56_op, guardOf_word56, raw3, raw2, rawAB, rawA, rawD, destOf, fld_word56_mod, fld_word56_b, fld_word56_a, fld_word56_d, tmod, ex_lo, ex_hi, ex_ext, ex_ext0, ex_self, bit1_beq, Fmt.ofCode_code5, Fmt.ofCode_code4]
  simp [ex_self,  bit1_beq, Fmt.ofCode_mod32, Fmt.ofCode_mod16, Opnd.of10_okS, Dest.of_okXmov, hw]

theorem addsl (g : Guard) (d : Opnd) (a : Opnd) (b : Opnd) (sh : BitVec 6) : Statement (.addsl g d a b sh) := by
  intro hw w he sl hs
  refine decodeWord_of_raw hw he ?_
  have e := Option.some.inj (show some _ = some w from he)
  subst e
  simp [slotsOf] at hs
  simp [Instr.wf, okV3, okV2, okAtom] at hw
  rw [ofNat56]
  generalize hx : word56 _ _ _ _ _ _ = w
  have ho : (fld w 5 8).toNat = 0x03 := by rw [← hx, fld_word56_op]; rfl
  subst hs
  show rawS w = _
  unfold rawS
  rw [ho]
  show raw3 w _ = _
  subst hx
  simp (disch := decide) only [fld_word56_op, guardOf_word56, raw3, raw2, rawAB, rawA, rawD, destOf, fld_word56_mod, fld_word56_b, fld_word56_a, fld_word56_d, tmod, ex_lo, ex_hi, ex_ext, ex_ext0, ex_self, bit1_beq, Fmt.ofCode_code5, Fmt.ofCode_code4]
  simp [ex_self,  bit1_beq, Fmt.ofCode_mod32, Fmt.ofCode_mod16, Opnd.of10_okS, Dest.of_okXmov, hw]

theorem mul (g : Guard) (d : Opnd) (a : Opnd) (b : Opnd) : Statement (.mul g d a b) := by
  intro hw w he sl hs
  refine decodeWord_of_raw hw he ?_
  have e := Option.some.inj (show some _ = some w from he)
  subst e
  simp [slotsOf] at hs
  simp [Instr.wf, okV3, okV2, okAtom] at hw
  rw [ofNat56]
  generalize hx : word56 _ _ _ _ _ _ = w
  have ho : (fld w 5 8).toNat = 0x04 := by rw [← hx, fld_word56_op]; rfl
  subst hs
  show rawS w = _
  unfold rawS
  rw [ho]
  show raw3 w _ = _
  subst hx
  simp (disch := decide) only [fld_word56_op, guardOf_word56, raw3, raw2, rawAB, rawA, rawD, destOf, fld_word56_mod, fld_word56_b, fld_word56_a, fld_word56_d, tmod, ex_lo, ex_hi, ex_ext, ex_ext0, ex_self, bit1_beq, Fmt.ofCode_code5, Fmt.ofCode_code4]
  simp [ex_self,  bit1_beq, Fmt.ofCode_mod32, Fmt.ofCode_mod16, Opnd.of10_okS, Dest.of_okXmov, hw]

theorem mulh (g : Guard) (d : Opnd) (a : Opnd) (b : Opnd) : Statement (.mulh g d a b) := by
  intro hw w he sl hs
  refine decodeWord_of_raw hw he ?_
  have e := Option.some.inj (show some _ = some w from he)
  subst e
  simp [slotsOf] at hs
  simp [Instr.wf, okV3, okV2, okAtom] at hw
  rw [ofNat56]
  generalize hx : word56 _ _ _ _ _ _ = w
  have ho : (fld w 5 8).toNat = 0x05 := by rw [← hx, fld_word56_op]; rfl
  subst hs
  show rawS w = _
  unfold rawS
  rw [ho]
  show raw3 w _ = _
  subst hx
  simp (disch := decide) only [fld_word56_op, guardOf_word56, raw3, raw2, rawAB, rawA, rawD, destOf, fld_word56_mod, fld_word56_b, fld_word56_a, fld_word56_d, tmod, ex_lo, ex_hi, ex_ext, ex_ext0, ex_self, bit1_beq, Fmt.ofCode_code5, Fmt.ofCode_code4]
  simp [ex_self,  bit1_beq, Fmt.ofCode_mod32, Fmt.ofCode_mod16, Opnd.of10_okS, Dest.of_okXmov, hw]

theorem mulhB (g : Guard) (d : Opnd) (a : Opnd) (b : Opnd) : Statement (.mulhB g d a b) := by
  intro hw w he sl hs
  refine decodeWord_of_raw hw he ?_
  have e := Option.some.inj (show some _ = some w from he)
  subst e
  simp [slotsOf] at hs
  simp [Instr.wf, okV3, okV2, okAtom] at hw
  rw [ofNat56]
  generalize hx : word56 _ _ _ _ _ _ = w
  have ho : (fld w 5 8).toNat = 0x06 := by rw [← hx, fld_word56_op]; rfl
  subst hs
  show rawS w = _
  unfold rawS
  rw [ho]
  show raw3 w _ = _
  subst hx
  simp (disch := decide) only [fld_word56_op, guardOf_word56, raw3, raw2, rawAB, rawA, rawD, destOf, fld_word56_mod, fld_word56_b, fld_word56_a, fld_word56_d, tmod, ex_lo, ex_hi, ex_ext, ex_ext0, ex_self, bit1_beq, Fmt.ofCode_code5, Fmt.ofCode_code4]
  simp [ex_self,  bit1_beq, Fmt.ofCode_mod32, Fmt.ofCode_mod16, Opnd.of10_okS, Dest.of_okXmov, hw]

theorem div (g : Guard) (d : Opnd) (a : Opnd) (b : Opnd) : Statement (.div g d a b) := by
  intro hw w he sl hs
  refine decodeWord_of_raw hw he ?_
  have e := Option.some.inj (show some _ = some w from he)
  subst e
  simp [slotsOf] at hs
  simp [Instr.wf, okV3, okV2, okAtom] at hw
  rw [ofNat56]
  generalize hx : word56 _ _ _ _ _ _ = w
  have ho : (fld w 5 8).toNat = 0x07 := by rw [← hx, fld_word56_op]; rfl
  subst hs
  show rawS w = _
  unfold rawS
  rw [ho]
  show raw3 w _ = _
  subst hx
  simp (disch := decide) only [fld_word56_op, guardOf_word56, raw3, raw2, rawAB, rawA, rawD, destOf, fld_word56_mod, fld_word56_b, fld_word56_a, fld_word56_d, tmod, ex_lo, ex_hi, ex_ext, ex_ext0, ex_self, bit1_beq, Fmt.ofCode_code5, Fmt.ofCode_code4]
  simp [ex_self,  bit1_beq, Fmt.ofCode_mod32, Fmt.ofCode_mod16, Opnd.of10_okS, Dest.of_okXmov, hw]

theorem divB (g : Guard) (d : Opnd) (a : Opnd) (b : Opnd) : Statement (.divB g d a b) := by
  intro hw w he sl hs
  refine decodeWord_of_raw hw he ?_
  have e := Option.some.inj (show some _ = some w from he)
  subst e
  simp [slotsOf] at hs
  simp [Instr.wf, okV3, okV2, okAtom] at hw
  rw [ofNat56]
  generalize hx : word56 _ _ _ _ _ _ = w
  have ho : (fld w 5 8).toNat = 0x08 := by rw [← hx, fld_word56_op]; rfl
  subst hs
  show rawS w = _
  unfold rawS
  rw [ho]
  show raw3 w _ = _
  subst hx
  simp (disch := decide) only [fld_word56_op, guardOf_word56, raw3, raw2, rawAB, rawA, rawD, destOf, fld_word56_mod, fld_word56_b, fld_word56_a, fld_word56_d, tmod, ex_lo, ex_hi, ex_ext, ex_ext0, ex_self, bit1_beq, Fmt.ofCode_code5, Fmt.ofCode_code4]
  simp [ex_self,  bit1_beq, Fmt.ofCode_mod32, Fmt.ofCode_mod16, Opnd.of10_okS, Dest.of_okXmov, hw]

theorem rem (g : Guard) (d : Opnd) (a : Opnd) (b : Opnd) : Statement (.rem g d a b) := by
  intro hw w he sl hs
  refine decodeWord_of_raw hw he ?_
  have e := Option.some.inj (show some _ = some w from he)
  subst e
  simp [slotsOf] at hs
  simp [Instr.wf, okV3, okV2, okAtom] at hw
  rw [ofNat56]
  generalize hx : word56 _ _ _ _ _ _ = w
  have ho : (fld w 5 8).toNat = 0x09 := by rw [← hx, fld_word56_op]; rfl
  subst hs
  show rawS w = _
  unfold rawS
  rw [ho]
  show raw3 w _ = _
  subst hx
  simp (disch := decide) only [fld_word56_op, guardOf_word56, raw3, raw2, rawAB, rawA, rawD, destOf, fld_word56_mod, fld_word56_b, fld_word56_a, fld_word56_d, tmod, ex_lo, ex_hi, ex_ext, ex_ext0, ex_self, bit1_beq, Fmt.ofCode_code5, Fmt.ofCode_code4]
  simp [ex_self,  bit1_beq, Fmt.ofCode_mod32, Fmt.ofCode_mod16, Opnd.of10_okS, Dest.of_okXmov, hw]

theorem remB (g : Guard) (d : Opnd) (a : Opnd) (b : Opnd) : Statement (.remB g d a b) := by
  intro hw w he sl hs
  refine decodeWord_of_raw hw he ?_
  have e := Option.some.inj (show some _ = some w from he)
  subst e
  simp [slotsOf] at hs
  simp [Instr.wf, okV3, okV2, okAtom] at hw
  rw [ofNat56]
  generalize hx : word56 _ _ _ _ _ _ = w
  have ho : (fld w 5 8).toNat = 0x0A := by rw [← hx, fld_word56_op]; rfl
  subst hs
  show rawS w = _
  unfold rawS
  rw [ho]
  show raw3 w _ = _
  subst hx
  simp (disch := decide) only [fld_word56_op, guardOf_word56, raw3, raw2, rawAB, rawA, rawD, destOf, fld_word56_mod, fld_word56_b, fld_word56_a, fld_word56_d, tmod, ex_lo, ex_hi, ex_ext, ex_ext0, ex_self, bit1_beq, Fmt.ofCode_code5, Fmt.ofCode_code4]
  simp [ex_self,  bit1_beq, Fmt.ofCode_mod32, Fmt.ofCode_mod16, Opnd.of10_okS, Dest.of_okXmov, hw]

theorem and (g : Guard) (d : Opnd) (a : Opnd) (b : Opnd) : Statement (.and g d a b) := by
  intro hw w he sl hs
  refine decodeWord_of_raw hw he ?_
  have e := Option.some.inj (show some _ = some w from he)
  subst e
  simp [slotsOf] at hs
  simp [Instr.wf, okV3, okV2, okAtom] at hw
  rw [ofNat56]
  generalize hx : word56 _ _ _ _ _ _ = w
  have ho : (fld w 5 8).toNat = 0x10 := by rw [← hx, fld_word56_op]; rfl
  subst hs
  show rawS w = _
  unfold rawS
  rw [ho]
  show raw3 w _ = _
  subst hx
  simp (disch := decide) only [fld_word56_op, guardOf_word56, raw3, raw2, rawAB, rawA, rawD, destOf, fld_word56_mod, fld_word56_b, fld_word56_a, fld_word56_d, tmod, ex_lo, ex_hi, ex_ext, ex_ext0, ex_self, bit1_beq, Fmt.ofCode_code5, Fmt.ofCode_code4]
  simp [ex_self,  bit1_beq, Fmt.ofCode_mod32, Fmt.ofCode_mod16, Opnd.of10_okS, Dest.of_okXmov, hw]

theorem or (g : Guard) (d : Opnd) (a : Opnd) (b : Opnd) : Statement (.or g d a b) := by
  intro hw w he sl hs
  refine decodeWord_of_raw hw he ?_
  have e := Option.some.inj (show some _ = some w from he)
  subst e
  simp [slotsOf] at hs
  simp [Instr.wf, okV3, okV2, okAtom] at hw
  rw [ofNat56]
  generalize hx : word56 _ _ _ _ _ _ = w
  have ho : (fld w 5 8).toNat = 0x11 := by rw [← hx, fld_word56_op]; rfl
  subst hs
  show rawS w = _
  unfold rawS
  rw [ho]
  show raw3 w _ = _
  subst hx
  simp (disch := decide) only [fld_word56_op, guardOf_word56, raw3, raw2, rawAB, rawA, rawD, destOf, fld_word56_mod, fld_word56_b, fld_word56_a, fld_word56_d, tmod, ex_lo, ex_hi, ex_ext, ex_ext0, ex_self, bit1_beq, Fmt.ofCode_code5, Fmt.ofCode_code4]
  simp [ex_self,  bit1_beq, Fmt.ofCode_mod32, Fmt.ofCode_mod16, Opnd.of10_okS, Dest.of_okXmov, hw]

theorem xor (g : Guard) (d : Opnd) (a : Opnd) (b : Opnd) : Statement (.xor g d a b) := by
  intro hw w he sl hs
  refine decodeWord_of_raw hw he ?_
  have e := Option.some.inj (show some _ = some w from he)
  subst e
  simp [slotsOf] at hs
  simp [Instr.wf, okV3, okV2, okAtom] at hw
  rw [ofNat56]
  generalize hx : word56 _ _ _ _ _ _ = w
  have ho : (fld w 5 8).toNat = 0x12 := by rw [← hx, fld_word56_op]; rfl
  subst hs
  show rawS w = _
  unfold rawS
  rw [ho]
  show raw3 w _ = _
  subst hx
  simp (disch := decide) only [fld_word56_op, guardOf_word56, raw3, raw2, rawAB, rawA, rawD, destOf, fld_word56_mod, fld_word56_b, fld_word56_a, fld_word56_d, tmod, ex_lo, ex_hi, ex_ext, ex_ext0, ex_self, bit1_beq, Fmt.ofCode_code5, Fmt.ofCode_code4]
  simp [ex_self,  bit1_beq, Fmt.ofCode_mod32, Fmt.ofCode_mod16, Opnd.of10_okS, Dest.of_okXmov, hw]

theorem andn (g : Guard) (d : Opnd) (a : Opnd) (b : Opnd) : Statement (.andn g d a b) := by
  intro hw w he sl hs
  refine decodeWord_of_raw hw he ?_
  have e := Option.some.inj (show some _ = some w from he)
  subst e
  simp [slotsOf] at hs
  simp [Instr.wf, okV3, okV2, okAtom] at hw
  rw [ofNat56]
  generalize hx : word56 _ _ _ _ _ _ = w
  have ho : (fld w 5 8).toNat = 0x13 := by rw [← hx, fld_word56_op]; rfl
  subst hs
  show rawS w = _
  unfold rawS
  rw [ho]
  show raw3 w _ = _
  subst hx
  simp (disch := decide) only [fld_word56_op, guardOf_word56, raw3, raw2, rawAB, rawA, rawD, destOf, fld_word56_mod, fld_word56_b, fld_word56_a, fld_word56_d, tmod, ex_lo, ex_hi, ex_ext, ex_ext0, ex_self, bit1_beq, Fmt.ofCode_code5, Fmt.ofCode_code4]
  simp [ex_self,  bit1_beq, Fmt.ofCode_mod32, Fmt.ofCode_mod16, Opnd.of10_okS, Dest.of_okXmov, hw]

theorem shl (g : Guard) (d : Opnd) (a : Opnd) (b : Opnd) : Statement (.shl g d a b) := by
  intro hw w he sl hs
  refine decodeWord_of_raw hw he ?_
  have e := Option.some.inj (show some _ = some w from he)
  subst e
  simp [slotsOf] at hs
  simp [Instr.wf, okV3, okV2, okAtom] at hw
  rw [ofNat56]
  generalize hx : word56 _ _ _ _ _ _ = w
  have ho : (fld w 5 8).toNat = 0x14 := by rw [← hx, fld_word56_op]; rfl
  subst hs
  show rawS w = _
  unfold rawS
  rw [ho]
  show raw3 w _ = _
  subst hx
  simp (disch := decide) only [fld_word56_op, guardOf_word56, raw3, raw2, rawAB, rawA, rawD, destOf, fld_word56_mod, fld_word56_b, fld_word56_a, fld_word56_d, tmod, ex_lo, ex_hi, ex_ext, ex_ext0, ex_self, bit1_beq, Fmt.ofCode_code5, Fmt.ofCode_code4]
  simp [ex_self,  bit1_beq, Fmt.ofCode_mod32, Fmt.ofCode_mod16, Opnd.of10_okS, Dest.of_okXmov, hw]

theorem shr (g : Guard) (d : Opnd) (a : Opnd) (b : Opnd) : Statement (.shr g d a b) := by
  intro hw w he sl hs
  refine decodeWord_of_raw hw he ?_
  have e := Option.some.inj (show some _ = some w from he)
  subst e
  simp [slotsOf] at hs
  simp [Instr.wf, okV3, okV2, okAtom] at hw
  rw [ofNat56]
  generalize hx : word56 _ _ _ _ _ _ = w
  have ho : (fld w 5 8).toNat = 0x15 := by rw [← hx, fld_word56_op]; rfl
  subst hs
  show rawS w = _
  unfold rawS
  rw [ho]
  show raw3 w _ = _
  subst hx
  simp (disch := decide) only [fld_word56_op, guardOf_word56, raw3, raw2, rawAB, rawA, rawD, destOf, fld_word56_mod, fld_word56_b, fld_word56_a, fld_word56_d, tmod, ex_lo, ex_hi, ex_ext, ex_ext0, ex_self, bit1_beq, Fmt.ofCode_code5, Fmt.ofCode_code4]
  simp [ex_self,  bit1_beq, Fmt.ofCode_mod32, Fmt.ofCode_mod16, Opnd.of10_okS, Dest.of_okXmov, hw]

theorem sra (g : Guard) (d : Opnd) (a : Opnd) (b : Opnd) : Statement (.sra g d a b) := by
  intro hw w he sl hs
  refine decodeWord_of_raw hw he ?_
  have e := Option.some.inj (show some _ = some w from he)
  subst e
  simp [slotsOf] at hs
  simp [Instr.wf, okV3, okV2, okAtom] at hw
  rw [ofNat56]
  generalize hx : word56 _ _ _ _ _ _ = w
  have ho : (fld w 5 8).toNat = 0x16 := by rw [← hx, fld_word56_op]; rfl
  subst hs
  show rawS w = _
  unfold rawS
  rw [ho]
  show raw3 w _ = _
  subst hx
  simp (disch := decide) only [fld_word56_op, guardOf_word56, raw3, raw2, rawAB, rawA, rawD, destOf, fld_word56_mod, fld_word56_b, fld_word56_a, fld_word56_d, tmod, ex_lo, ex_hi, ex_ext, ex_ext0, ex_self, bit1_beq, Fmt.ofCode_code5, Fmt.ofCode_code4]
  simp [ex_self,  bit1_beq, Fmt.ofCode_mod32, Fmt.ofCode_mod16, Opnd.of10_okS, Dest.of_okXmov, hw]

theorem rotl (g : Guard) (d : Opnd) (a : Opnd) (b : Opnd) : Statement (.rotl g d a b) := by
  intro hw w he sl hs
  refine decodeWord_of_raw hw he ?_
  have e := Option.some.inj (show some _ = some w from he)
  subst e
  simp [slotsOf] at hs
  simp [Instr.wf, okV3, okV2, okAtom] at hw
  rw [ofNat56]
  generalize hx : word56 _ _ _ _ _ _ = w
  have ho : (fld w 5 8).toNat = 0x17 := by rw [← hx, fld_word56_op]; rfl
  subst hs
  show rawS w = _
  unfold rawS
  rw [ho]
  show raw3 w _ = _
  subst hx
  simp (disch := decide) only [fld_word56_op, guardOf_word56, raw3, raw2, rawAB, rawA, rawD, destOf, fld_word56_mod, fld_word56_b, fld_word56_a, fld_word56_d, tmod, ex_lo, ex_hi, ex_ext, ex_ext0, ex_self, bit1_beq, Fmt.ofCode_code5, Fmt.ofCode_code4]
  simp [ex_self,  bit1_beq, Fmt.ofCode_mod32, Fmt.ofCode_mod16, Opnd.of10_okS, Dest.of_okXmov, hw]

theorem fshl (g : Guard) (d : Opnd) (a : Opnd) (b : Opnd) (sh : BitVec 6) : Statement (.fshl g d a b sh) := by
  intro hw w he sl hs
  refine decodeWord_of_raw hw he ?_
  have e := Option.some.inj (show some _ = some w from he)
  subst e
  simp [slotsOf] at hs
  simp [Instr.wf, okV3, okV2, okAtom] at hw
  rw [ofNat56]
  generalize hx : word56 _ _ _ _ _ _ = w
  have ho : (fld w 5 8).toNat = 0x18 := by rw [← hx, fld_word56_op]; rfl
  subst hs
  show rawS w = _
  unfold rawS
  rw [ho]
  show raw3 w _ = _
  subst hx
  simp (disch := decide) only [fld_word56_op, guardOf_word56, raw3, raw2, rawAB, rawA, rawD, destOf, fld_word56_mod, fld_word56_b, fld_word56_a, fld_word56_d, tmod, ex_lo, ex_hi, ex_ext, ex_ext0, ex_self, bit1_beq, Fmt.ofCode_code5, Fmt.ofCode_code4]
  simp [ex_self,  bit1_beq, Fmt.ofCode_mod32, Fmt.ofCode_mod16, Opnd.of10_okS, Dest.of_okXmov, hw]

theorem fshr (g : Guard) (d : Opnd) (a : Opnd) (b : Opnd) (sh : BitVec 6) : Statement (.fshr g d a b sh) := by
  intro hw w he sl hs
  refine decodeWord_of_raw hw he ?_
  have e := Option.some.inj (show some _ = some w from he)
  subst e
  simp [slotsOf] at hs
  simp [Instr.wf, okV3, okV2, okAtom] at hw
  rw [ofNat56]
  generalize hx : word56 _ _ _ _ _ _ = w
  have ho : (fld w 5 8).toNat = 0x19 := by rw [← hx, fld_word56_op]; rfl
  subst hs
  show rawS w = _
  unfold rawS
  rw [ho]
  show raw3 w _ = _
  subst hx
  simp (disch := decide) only [fld_word56_op, guardOf_word56, raw3, raw2, rawAB, rawA, rawD, destOf, fld_word56_mod, fld_word56_b, fld_word56_a, fld_word56_d, tmod, ex_lo, ex_hi, ex_ext, ex_ext0, ex_self, bit1_beq, Fmt.ofCode_code5, Fmt.ofCode_code4]
  simp [ex_self,  bit1_beq, Fmt.ofCode_mod32, Fmt.ofCode_mod16, Opnd.of10_okS, Dest.of_okXmov, hw]

theorem clz (g : Guard) (d : Opnd) (a : Opnd) : Statement (.clz g d a) := by
  intro hw w he sl hs
  refine decodeWord_of_raw hw he ?_
  have e := Option.some.inj (show some _ = some w from he)
  subst e
  simp [slotsOf] at hs
  simp [Instr.wf, okV3, okV2, okAtom] at hw
  rw [ofNat56]
  generalize hx : word56 _ _ _ _ _ _ = w
  have ho : (fld w 5 8).toNat = 0x20 := by rw [← hx, fld_word56_op]; rfl
  subst hs
  show rawS w = _
  unfold rawS
  rw [ho]
  show raw2 w _ = _
  subst hx
  simp (disch := decide) only [fld_word56_op, guardOf_word56, raw3, raw2, rawAB, rawA, rawD, destOf, fld_word56_mod, fld_word56_b, fld_word56_a, fld_word56_d, tmod, ex_lo, ex_hi, ex_ext, ex_ext0, ex_self, bit1_beq, Fmt.ofCode_code5, Fmt.ofCode_code4]
  simp [ex_self,  bit1_beq, Fmt.ofCode_mod32, Fmt.ofCode_mod16, Opnd.of10_okS, Dest.of_okXmov, hw]

theorem ctz (g : Guard) (d : Opnd) (a : Opnd) : Statement (.ctz g d a) := by
  intro hw w he sl hs
  refine decodeWord_of_raw hw he ?_
  have e := Option.some.inj (show some _ = some w from he)
  subst e
  simp [slotsOf] at hs
  simp [Instr.wf, okV3, okV2, okAtom] at hw
  rw [ofNat56]
  generalize hx : word56 _ _ _ _ _ _ = w
  have ho : (fld w 5 8).toNat = 0x21 := by rw [← hx, fld_word56_op]; rfl
  subst hs
  show rawS w = _
  unfold rawS
  rw [ho]
  show raw2 w _ = _
  subst hx
  simp (disch := decide) only [fld_word56_op, guardOf_word56, raw3, raw2, rawAB, rawA, rawD, destOf, fld_word56_mod, fld_word56_b, fld_word56_a, fld_word56_d, tmod, ex_lo, ex_hi, ex_ext, ex_ext0, ex_self, bit1_beq, Fmt.ofCode_code5, Fmt.ofCode_code4]
  simp [ex_self,  bit1_beq, Fmt.ofCode_mod32, Fmt.ofCode_mod16, Opnd.of10_okS, Dest.of_okXmov, hw]

theorem popc (g : Guard) (d : Opnd) (a : Opnd) : Statement (.popc g d a) := by
  intro hw w he sl hs
  refine decodeWord_of_raw hw he ?_
  have e := Option.some.inj (show some _ = some w from he)
  subst e
  simp [slotsOf] at hs
  simp [Instr.wf, okV3, okV2, okAtom] at hw
  rw [ofNat56]
  generalize hx : word56 _ _ _ _ _ _ = w
  have ho : (fld w 5 8).toNat = 0x22 := by rw [← hx, fld_word56_op]; rfl
  subst hs
  show rawS w = _
  unfold rawS
  rw [ho]
  show raw2 w _ = _
  subst hx
  simp (disch := decide) only [fld_word56_op, guardOf_word56, raw3, raw2, rawAB, rawA, rawD, destOf, fld_word56_mod, fld_word56_b, fld_word56_a, fld_word56_d, tmod, ex_lo, ex_hi, ex_ext, ex_ext0, ex_self, bit1_beq, Fmt.ofCode_code5, Fmt.ofCode_code4]
  simp [ex_self,  bit1_beq, Fmt.ofCode_mod32, Fmt.ofCode_mod16, Opnd.of10_okS, Dest.of_okXmov, hw]

theorem min (g : Guard) (d : Opnd) (a : Opnd) (b : Opnd) : Statement (.min g d a b) := by
  intro hw w he sl hs
  refine decodeWord_of_raw hw he ?_
  have e := Option.some.inj (show some _ = some w from he)
  subst e
  simp [slotsOf] at hs
  simp [Instr.wf, okV3, okV2, okAtom] at hw
  rw [ofNat56]
  generalize hx : word56 _ _ _ _ _ _ = w
  have ho : (fld w 5 8).toNat = 0x23 := by rw [← hx, fld_word56_op]; rfl
  subst hs
  show rawS w = _
  unfold rawS
  rw [ho]
  show raw3 w _ = _
  subst hx
  simp (disch := decide) only [fld_word56_op, guardOf_word56, raw3, raw2, rawAB, rawA, rawD, destOf, fld_word56_mod, fld_word56_b, fld_word56_a, fld_word56_d, tmod, ex_lo, ex_hi, ex_ext, ex_ext0, ex_self, bit1_beq, Fmt.ofCode_code5, Fmt.ofCode_code4]
  simp [ex_self,  bit1_beq, Fmt.ofCode_mod32, Fmt.ofCode_mod16, Opnd.of10_okS, Dest.of_okXmov, hw]

theorem max (g : Guard) (d : Opnd) (a : Opnd) (b : Opnd) : Statement (.max g d a b) := by
  intro hw w he sl hs
  refine decodeWord_of_raw hw he ?_
  have e := Option.some.inj (show some _ = some w from he)
  subst e
  simp [slotsOf] at hs
  simp [Instr.wf, okV3, okV2, okAtom] at hw
  rw [ofNat56]
  generalize hx : word56 _ _ _ _ _ _ = w
  have ho : (fld w 5 8).toNat = 0x24 := by rw [← hx, fld_word56_op]; rfl
  subst hs
  show rawS w = _
  unfold rawS
  rw [ho]
  show raw3 w _ = _
  subst hx
  simp (disch := decide) only [fld_word56_op, guardOf_word56, raw3, raw2, rawAB, rawA, rawD, destOf, fld_word56_mod, fld_word56_b, fld_word56_a, fld_word56_d, tmod, ex_lo, ex_hi, ex_ext, ex_ext0, ex_self, bit1_beq, Fmt.ofCode_code5, Fmt.ofCode_code4]
  simp [ex_self,  bit1_beq, Fmt.ofCode_mod32, Fmt.ofCode_mod16, Opnd.of10_okS, Dest.of_okXmov, hw]

theorem minB (g : Guard) (d : Opnd) (a : Opnd) (b : Opnd) : Statement (.minB g d a b) := by
  intro hw w he sl hs
  refine decodeWord_of_raw hw he ?_
  have e := Option.some.inj (show some _ = some w from he)
  subst e
  simp [slotsOf] at hs
  simp [Instr.wf, okV3, okV2, okAtom] at hw
  rw [ofNat56]
  generalize hx : word56 _ _ _ _ _ _ = w
  have ho : (fld w 5 8).toNat = 0x25 := by rw [← hx, fld_word56_op]; rfl
  subst hs
  show rawS w = _
  unfold rawS
  rw [ho]
  show raw3 w _ = _
  subst hx
  simp (disch := decide) only [fld_word56_op, guardOf_word56, raw3, raw2, rawAB, rawA, rawD, destOf, fld_word56_mod, fld_word56_b, fld_word56_a, fld_word56_d, tmod, ex_lo, ex_hi, ex_ext, ex_ext0, ex_self, bit1_beq, Fmt.ofCode_code5, Fmt.ofCode_code4]
  simp [ex_self,  bit1_beq, Fmt.ofCode_mod32, Fmt.ofCode_mod16, Opnd.of10_okS, Dest.of_okXmov, hw]

theorem maxB (g : Guard) (d : Opnd) (a : Opnd) (b : Opnd) : Statement (.maxB g d a b) := by
  intro hw w he sl hs
  refine decodeWord_of_raw hw he ?_
  have e := Option.some.inj (show some _ = some w from he)
  subst e
  simp [slotsOf] at hs
  simp [Instr.wf, okV3, okV2, okAtom] at hw
  rw [ofNat56]
  generalize hx : word56 _ _ _ _ _ _ = w
  have ho : (fld w 5 8).toNat = 0x26 := by rw [← hx, fld_word56_op]; rfl
  subst hs
  show rawS w = _
  unfold rawS
  rw [ho]
  show raw3 w _ = _
  subst hx
  simp (disch := decide) only [fld_word56_op, guardOf_word56, raw3, raw2, rawAB, rawA, rawD, destOf, fld_word56_mod, fld_word56_b, fld_word56_a, fld_word56_d, tmod, ex_lo, ex_hi, ex_ext, ex_ext0, ex_self, bit1_beq, Fmt.ofCode_code5, Fmt.ofCode_code4]
  simp [ex_self,  bit1_beq, Fmt.ofCode_mod32, Fmt.ofCode_mod16, Opnd.of10_okS, Dest.of_okXmov, hw]

theorem bfx (g : Guard) (d : Opnd) (a : Opnd) (b : Opnd) (sx : Bool) : Statement (.bfx g d a b sx) := by
  intro hw w he sl hs
  refine decodeWord_of_raw hw he ?_
  have e := Option.some.inj (show some _ = some w from he)
  subst e
  simp [slotsOf] at hs
  simp [Instr.wf, okV3, okV2, okAtom] at hw
  rw [ofNat56]
  generalize hx : word56 _ _ _ _ _ _ = w
  have ho : (fld w 5 8).toNat = 0x27 := by rw [← hx, fld_word56_op]; rfl
  subst hs
  show rawS w = _
  unfold rawS
  rw [ho]
  show raw3 w _ = _
  subst hx
  simp (disch := decide) only [fld_word56_op, guardOf_word56, raw3, raw2, rawAB, rawA, rawD, destOf, fld_word56_mod, fld_word56_b, fld_word56_a, fld_word56_d, tmod, ex_lo, ex_hi, ex_ext, ex_ext0, ex_self, bit1_beq, Fmt.ofCode_code5, Fmt.ofCode_code4]
  simp [ex_self,  bit1_beq, Fmt.ofCode_mod32, Fmt.ofCode_mod16, Opnd.of10_okS, Dest.of_okXmov, hw]

theorem bfi (g : Guard) (d : Opnd) (a : Opnd) (b : Opnd) : Statement (.bfi g d a b) := by
  intro hw w he sl hs
  refine decodeWord_of_raw hw he ?_
  have e := Option.some.inj (show some _ = some w from he)
  subst e
  simp [slotsOf] at hs
  simp [Instr.wf, okV3, okV2, okAtom] at hw
  have hd : Opnd.ofCode10 d.code10 = some d := Opnd.of10 (by cases d <;> simp_all [Opnd.coded] <;> omega)
  rw [ofNat56]
  generalize hx : word56 _ _ _ _ _ _ = w
  have ho : (fld w 5 8).toNat = 0x28 := by rw [← hx, fld_word56_op]; rfl
  subst hs
  show rawS w = _
  unfold rawS
  rw [ho]
  show raw3 w _ = _
  subst hx
  simp (disch := decide) only [fld_word56_op, guardOf_word56, raw3, raw2, rawAB, rawA, rawD, destOf, fld_word56_mod, fld_word56_b, fld_word56_a, fld_word56_d, tmod, ex_lo, ex_hi, ex_ext, ex_ext0, ex_self, bit1_beq, Fmt.ofCode_code5, Fmt.ofCode_code4]
  simp [ex_self,  bit1_beq, Fmt.ofCode_mod32, Fmt.ofCode_mod16, hd, Opnd.of10_okS, Dest.of_okXmov, hw]

theorem sel (g : Guard) (d : Opnd) (a : Opnd) (b : Opnd) (psel : BitVec 4) (pinv : Bool) : Statement (.sel g d a b psel pinv) := by
  intro hw w he sl hs
  refine decodeWord_of_raw hw he ?_
  have e := Option.some.inj (show some _ = some w from he)
  subst e
  simp [slotsOf] at hs
  simp [Instr.wf, okV3, okV2, okAtom] at hw
  rw [ofNat56]
  generalize hx : word56 _ _ _ _ _ _ = w
  have ho : (fld w 5 8).toNat = 0x29 := by rw [← hx, fld_word56_op]; rfl
  subst hs
  show rawS w = _
  unfold rawS
  rw [ho]
  show raw3 w _ = _
  subst hx
  simp (disch := decide) only [fld_word56_op, guardOf_word56, raw3, raw2, rawAB, rawA, rawD, destOf, fld_word56_mod, fld_word56_b, fld_word56_a, fld_word56_d, tmod, ex_lo, ex_hi, ex_ext, ex_ext0, ex_self, bit1_beq, Fmt.ofCode_code5, Fmt.ofCode_code4]
  simp [ex_self,  bit1_beq, Fmt.ofCode_mod32, Fmt.ofCode_mod16, Opnd.of10_okS, Dest.of_okXmov, hw]

theorem cmp (g : Guard) (p : BitVec 4) (cc : BitVec 4) (a : Opnd) (b : Opnd) : Statement (.cmp g p cc a b) := by
  intro hw w he sl hs
  refine decodeWord_of_raw hw he ?_
  have e := Option.some.inj (show some _ = some w from he)
  subst e
  simp [slotsOf] at hs
  simp [Instr.wf, okV3, okV2, okAtom] at hw
  rw [ofNat56]
  generalize hx : word56 _ _ _ _ _ _ = w
  have ho : (fld w 5 8).toNat = 0x30 := by rw [← hx, fld_word56_op]; rfl
  subst hs
  show rawS w = _
  unfold rawS
  rw [ho]
  show rawAB w _ = _
  subst hx
  simp (disch := decide) only [fld_word56_op, guardOf_word56, raw3, raw2, rawAB, rawA, rawD, destOf, fld_word56_mod, fld_word56_b, fld_word56_a, fld_word56_d, tmod, ex_lo, ex_hi, ex_ext, ex_ext0, ex_self, bit1_beq, Fmt.ofCode_code5, Fmt.ofCode_code4]
  simp [ex_self,  bit1_beq, Fmt.ofCode_mod32, Fmt.ofCode_mod16, Opnd.of10_okS, Dest.of_okXmov, hw]

theorem pand (g : Guard) (d : BitVec 4) (a : BitVec 4) (b : BitVec 4) (na : Bool) (nb : Bool) : Statement (.pand g d a b na nb) := by
  intro hw w he sl hs
  refine decodeWord_of_raw hw he ?_
  have e := Option.some.inj (show some _ = some w from he)
  subst e
  simp [slotsOf] at hs
  simp [Instr.wf, okV3, okV2, okAtom] at hw
  rw [ofNat56]
  generalize hx : word56 _ _ _ _ _ _ = w
  have ho : (fld w 5 8).toNat = 0x31 := by rw [← hx, fld_word56_op]; rfl
  subst hs
  show rawS w = _
  unfold rawS
  rw [ho]
  show (some (.pand (guardOf w) (fld w 13 4) (fld w 23 4) (fld w 33 4) (fld w 43 1 == 1) (fld w 44 1 == 1)) : Option Instr) = _
  subst hx
  simp (disch := decide) only [fld_word56_op, guardOf_word56, raw3, raw2, rawAB, rawA, rawD, destOf, fld_word56_mod, fld_word56_b, fld_word56_a, fld_word56_d, tmod, ex_lo, ex_hi, ex_ext, ex_ext0, ex_self, bit1_beq, Fmt.ofCode_code5, Fmt.ofCode_code4]
  simp [ex_self,  bit1_beq, Fmt.ofCode_mod32, Fmt.ofCode_mod16, Opnd.of10_okS, Dest.of_okXmov, hw]

theorem por (g : Guard) (d : BitVec 4) (a : BitVec 4) (b : BitVec 4) (na : Bool) (nb : Bool) : Statement (.por g d a b na nb) := by
  intro hw w he sl hs
  refine decodeWord_of_raw hw he ?_
  have e := Option.some.inj (show some _ = some w from he)
  subst e
  simp [slotsOf] at hs
  simp [Instr.wf, okV3, okV2, okAtom] at hw
  rw [ofNat56]
  generalize hx : word56 _ _ _ _ _ _ = w
  have ho : (fld w 5 8).toNat = 0x32 := by rw [← hx, fld_word56_op]; rfl
  subst hs
  show rawS w = _
  unfold rawS
  rw [ho]
  show (some (.por (guardOf w) (fld w 13 4) (fld w 23 4) (fld w 33 4) (fld w 43 1 == 1) (fld w 44 1 == 1)) : Option Instr) = _
  subst hx
  simp (disch := decide) only [fld_word56_op, guardOf_word56, raw3, raw2, rawAB, rawA, rawD, destOf, fld_word56_mod, fld_word56_b, fld_word56_a, fld_word56_d, tmod, ex_lo, ex_hi, ex_ext, ex_ext0, ex_self, bit1_beq, Fmt.ofCode_code5, Fmt.ofCode_code4]
  simp [ex_self,  bit1_beq, Fmt.ofCode_mod32, Fmt.ofCode_mod16, Opnd.of10_okS, Dest.of_okXmov, hw]

theorem pnot (g : Guard) (d : BitVec 4) (a : BitVec 4) : Statement (.pnot g d a) := by
  intro hw w he sl hs
  refine decodeWord_of_raw hw he ?_
  have e := Option.some.inj (show some _ = some w from he)
  subst e
  simp [slotsOf] at hs
  simp [Instr.wf, okV3, okV2, okAtom] at hw
  rw [ofNat56]
  generalize hx : word56 _ _ _ _ _ _ = w
  have ho : (fld w 5 8).toNat = 0x33 := by rw [← hx, fld_word56_op]; rfl
  subst hs
  show rawS w = _
  unfold rawS
  rw [ho]
  show (some (.pnot (guardOf w) (fld w 13 4) (fld w 23 4)) : Option Instr) = _
  subst hx
  simp (disch := decide) only [fld_word56_op, guardOf_word56, raw3, raw2, rawAB, rawA, rawD, destOf, fld_word56_mod, fld_word56_b, fld_word56_a, fld_word56_d, tmod, ex_lo, ex_hi, ex_ext, ex_ext0, ex_self, bit1_beq, Fmt.ofCode_code5, Fmt.ofCode_code4]
  simp [ex_self,  bit1_beq, Fmt.ofCode_mod32, Fmt.ofCode_mod16, Opnd.of10_okS, Dest.of_okXmov, hw]

theorem addi (g : Guard) (d : Opnd) (a : Opnd) (imm : BitVec 23) : Statement (.addi g d a imm) := by
  intro hw w he sl hs
  refine decodeWord_of_raw hw he ?_
  have e := Option.some.inj (show some _ = some w from he)
  subst e
  simp [slotsOf] at hs
  simp [Instr.wf, okV3, okV2, okAtom] at hw
  rw [ofNat56]
  generalize hx : word56i _ _ _ _ _ = w
  have ho : (fld w 5 8).toNat = 0x40 := by rw [← hx, fld_word56i_op]; rfl
  subst hs
  show rawS w = _
  unfold rawS
  rw [ho]
  show raw2 w _ = _
  subst hx
  simp (disch := decide) only [fld_word56i_op, guardOf_word56i, fld_word56i_imm, raw3, raw2, rawAB, rawA, rawD, destOf, fld_word56i_a, fld_word56i_d, ex_lo, ex_hi, ex_ext, ex_ext0, ex_self, bit1_beq, Fmt.ofCode_code5, Fmt.ofCode_code4]
  simp [ex_self,  bit1_beq, Fmt.ofCode_mod32, Fmt.ofCode_mod16, Opnd.of10_okS, Dest.of_okXmov, hw]

theorem andi (g : Guard) (d : Opnd) (a : Opnd) (imm : BitVec 23) : Statement (.andi g d a imm) := by
  intro hw w he sl hs
  refine decodeWord_of_raw hw he ?_
  have e := Option.some.inj (show some _ = some w from he)
  subst e
  simp [slotsOf] at hs
  simp [Instr.wf, okV3, okV2, okAtom] at hw
  rw [ofNat56]
  generalize hx : word56i _ _ _ _ _ = w
  have ho : (fld w 5 8).toNat = 0x41 := by rw [← hx, fld_word56i_op]; rfl
  subst hs
  show rawS w = _
  unfold rawS
  rw [ho]
  show raw2 w _ = _
  subst hx
  simp (disch := decide) only [fld_word56i_op, guardOf_word56i, fld_word56i_imm, raw3, raw2, rawAB, rawA, rawD, destOf, fld_word56i_a, fld_word56i_d, ex_lo, ex_hi, ex_ext, ex_ext0, ex_self, bit1_beq, Fmt.ofCode_code5, Fmt.ofCode_code4]
  simp [ex_self,  bit1_beq, Fmt.ofCode_mod32, Fmt.ofCode_mod16, Opnd.of10_okS, Dest.of_okXmov, hw]

theorem ori (g : Guard) (d : Opnd) (a : Opnd) (imm : BitVec 23) : Statement (.ori g d a imm) := by
  intro hw w he sl hs
  refine decodeWord_of_raw hw he ?_
  have e := Option.some.inj (show some _ = some w from he)
  subst e
  simp [slotsOf] at hs
  simp [Instr.wf, okV3, okV2, okAtom] at hw
  rw [ofNat56]
  generalize hx : word56i _ _ _ _ _ = w
  have ho : (fld w 5 8).toNat = 0x42 := by rw [← hx, fld_word56i_op]; rfl
  subst hs
  show rawS w = _
  unfold rawS
  rw [ho]
  show raw2 w _ = _
  subst hx
  simp (disch := decide) only [fld_word56i_op, guardOf_word56i, fld_word56i_imm, raw3, raw2, rawAB, rawA, rawD, destOf, fld_word56i_a, fld_word56i_d, ex_lo, ex_hi, ex_ext, ex_ext0, ex_self, bit1_beq, Fmt.ofCode_code5, Fmt.ofCode_code4]
  simp [ex_self,  bit1_beq, Fmt.ofCode_mod32, Fmt.ofCode_mod16, Opnd.of10_okS, Dest.of_okXmov, hw]

theorem xori (g : Guard) (d : Opnd) (a : Opnd) (imm : BitVec 23) : Statement (.xori g d a imm) := by
  intro hw w he sl hs
  refine decodeWord_of_raw hw he ?_
  have e := Option.some.inj (show some _ = some w from he)
  subst e
  simp [slotsOf] at hs
  simp [Instr.wf, okV3, okV2, okAtom] at hw
  rw [ofNat56]
  generalize hx : word56i _ _ _ _ _ = w
  have ho : (fld w 5 8).toNat = 0x43 := by rw [← hx, fld_word56i_op]; rfl
  subst hs
  show rawS w = _
  unfold rawS
  rw [ho]
  show raw2 w _ = _
  subst hx
  simp (disch := decide) only [fld_word56i_op, guardOf_word56i, fld_word56i_imm, raw3, raw2, rawAB, rawA, rawD, destOf, fld_word56i_a, fld_word56i_d, ex_lo, ex_hi, ex_ext, ex_ext0, ex_self, bit1_beq, Fmt.ofCode_code5, Fmt.ofCode_code4]
  simp [ex_self,  bit1_beq, Fmt.ofCode_mod32, Fmt.ofCode_mod16, Opnd.of10_okS, Dest.of_okXmov, hw]

theorem shli (g : Guard) (d : Opnd) (a : Opnd) (imm : BitVec 23) : Statement (.shli g d a imm) := by
  intro hw w he sl hs
  refine decodeWord_of_raw hw he ?_
  have e := Option.some.inj (show some _ = some w from he)
  subst e
  simp [slotsOf] at hs
  simp [Instr.wf, okV3, okV2, okAtom] at hw
  rw [ofNat56]
  generalize hx : word56i _ _ _ _ _ = w
  have ho : (fld w 5 8).toNat = 0x44 := by rw [← hx, fld_word56i_op]; rfl
  subst hs
  show rawS w = _
  unfold rawS
  rw [ho]
  show raw2 w _ = _
  subst hx
  simp (disch := decide) only [fld_word56i_op, guardOf_word56i, fld_word56i_imm, raw3, raw2, rawAB, rawA, rawD, destOf, fld_word56i_a, fld_word56i_d, ex_lo, ex_hi, ex_ext, ex_ext0, ex_self, bit1_beq, Fmt.ofCode_code5, Fmt.ofCode_code4]
  simp [ex_self,  bit1_beq, Fmt.ofCode_mod32, Fmt.ofCode_mod16, Opnd.of10_okS, Dest.of_okXmov, hw]

theorem shri (g : Guard) (d : Opnd) (a : Opnd) (imm : BitVec 23) : Statement (.shri g d a imm) := by
  intro hw w he sl hs
  refine decodeWord_of_raw hw he ?_
  have e := Option.some.inj (show some _ = some w from he)
  subst e
  simp [slotsOf] at hs
  simp [Instr.wf, okV3, okV2, okAtom] at hw
  rw [ofNat56]
  generalize hx : word56i _ _ _ _ _ = w
  have ho : (fld w 5 8).toNat = 0x45 := by rw [← hx, fld_word56i_op]; rfl
  subst hs
  show rawS w = _
  unfold rawS
  rw [ho]
  show raw2 w _ = _
  subst hx
  simp (disch := decide) only [fld_word56i_op, guardOf_word56i, fld_word56i_imm, raw3, raw2, rawAB, rawA, rawD, destOf, fld_word56i_a, fld_word56i_d, ex_lo, ex_hi, ex_ext, ex_ext0, ex_self, bit1_beq, Fmt.ofCode_code5, Fmt.ofCode_code4]
  simp [ex_self,  bit1_beq, Fmt.ofCode_mod32, Fmt.ofCode_mod16, Opnd.of10_okS, Dest.of_okXmov, hw]

theorem srai (g : Guard) (d : Opnd) (a : Opnd) (imm : BitVec 23) : Statement (.srai g d a imm) := by
  intro hw w he sl hs
  refine decodeWord_of_raw hw he ?_
  have e := Option.some.inj (show some _ = some w from he)
  subst e
  simp [slotsOf] at hs
  simp [Instr.wf, okV3, okV2, okAtom] at hw
  rw [ofNat56]
  generalize hx : word56i _ _ _ _ _ = w
  have ho : (fld w 5 8).toNat = 0x46 := by rw [← hx, fld_word56i_op]; rfl
  subst hs
  show rawS w = _
  unfold rawS
  rw [ho]
  show raw2 w _ = _
  subst hx
  simp (disch := decide) only [fld_word56i_op, guardOf_word56i, fld_word56i_imm, raw3, raw2, rawAB, rawA, rawD, destOf, fld_word56i_a, fld_word56i_d, ex_lo, ex_hi, ex_ext, ex_ext0, ex_self, bit1_beq, Fmt.ofCode_code5, Fmt.ofCode_code4]
  simp [ex_self,  bit1_beq, Fmt.ofCode_mod32, Fmt.ofCode_mod16, Opnd.of10_okS, Dest.of_okXmov, hw]

theorem li (g : Guard) (d : Opnd) (imm : BitVec 23) : Statement (.li g d imm) := by
  intro hw w he sl hs
  refine decodeWord_of_raw hw he ?_
  have e := Option.some.inj (show some _ = some w from he)
  subst e
  simp [slotsOf] at hs
  simp [Instr.wf, okV3, okV2, okAtom] at hw
  rw [ofNat56]
  generalize hx : word56i _ _ _ _ _ = w
  have ho : (fld w 5 8).toNat = 0x47 := by rw [← hx, fld_word56i_op]; rfl
  subst hs
  show rawS w = _
  unfold rawS
  rw [ho]
  show rawD w _ = _
  subst hx
  simp (disch := decide) only [fld_word56i_op, guardOf_word56i, fld_word56i_imm, raw3, raw2, rawAB, rawA, rawD, destOf, fld_word56i_a, fld_word56i_d, ex_lo, ex_hi, ex_ext, ex_ext0, ex_self, bit1_beq, Fmt.ofCode_code5, Fmt.ofCode_code4]
  simp [ex_self,  bit1_beq, Fmt.ofCode_mod32, Fmt.ofCode_mod16, Opnd.of10_okS, Dest.of_okXmov, hw]

theorem lih (g : Guard) (d : Opnd) (a : Opnd) (imm : BitVec 23) : Statement (.lih g d a imm) := by
  intro hw w he sl hs
  refine decodeWord_of_raw hw he ?_
  have e := Option.some.inj (show some _ = some w from he)
  subst e
  simp [slotsOf] at hs
  simp [Instr.wf, okV3, okV2, okAtom] at hw
  rw [ofNat56]
  generalize hx : word56i _ _ _ _ _ = w
  have ho : (fld w 5 8).toNat = 0x48 := by rw [← hx, fld_word56i_op]; rfl
  subst hs
  show rawS w = _
  unfold rawS
  rw [ho]
  show raw2 w _ = _
  subst hx
  simp (disch := decide) only [fld_word56i_op, guardOf_word56i, fld_word56i_imm, raw3, raw2, rawAB, rawA, rawD, destOf, fld_word56i_a, fld_word56i_d, ex_lo, ex_hi, ex_ext, ex_ext0, ex_self, bit1_beq, Fmt.ofCode_code5, Fmt.ofCode_code4]
  simp [ex_self,  bit1_beq, Fmt.ofCode_mod32, Fmt.ofCode_mod16, Opnd.of10_okS, Dest.of_okXmov, hw]

theorem cmpi (g : Guard) (p : BitVec 4) (cc : BitVec 4) (a : Opnd) (imm : BitVec 23) : Statement (.cmpi g p cc a imm) := by
  intro hw w he sl hs
  refine decodeWord_of_raw hw he ?_
  have e := Option.some.inj (show some _ = some w from he)
  subst e
  simp [slotsOf] at hs
  simp [Instr.wf, okV3, okV2, okAtom] at hw
  rw [ofNat56]
  generalize hx : word56i _ _ _ _ _ = w
  have ho : (fld w 5 8).toNat = 0x49 := by rw [← hx, fld_word56i_op]; rfl
  subst hs
  show rawS w = _
  unfold rawS
  rw [ho]
  show rawA w _ = _
  subst hx
  simp (disch := decide) only [fld_word56i_op, guardOf_word56i, fld_word56i_imm, raw3, raw2, rawAB, rawA, rawD, destOf, fld_word56i_a, fld_word56i_d, ex_lo, ex_hi, ex_ext, ex_ext0, ex_self, bit1_beq, Fmt.ofCode_code5, Fmt.ofCode_code4]
  simp [ex_self,  bit1_beq, Fmt.ofCode_mod32, Fmt.ofCode_mod16, Opnd.of10_okS, Dest.of_okXmov, hw]

theorem br (g : Guard) (imm : BitVec 23) : Statement (.br g imm) := by
  intro hw w he sl hs
  refine decodeWord_of_raw hw he ?_
  have e := Option.some.inj (show some _ = some w from he)
  subst e
  simp [slotsOf] at hs
  simp [Instr.wf, okV3, okV2, okAtom] at hw
  rw [ofNat56]
  generalize hx : word56i _ _ _ _ _ = w
  have ho : (fld w 5 8).toNat = 0x60 := by rw [← hx, fld_word56i_op]; rfl
  subst hs
  show rawS w = _
  unfold rawS
  rw [ho]
  show (some (.br (guardOf w) (fld w 33 23)) : Option Instr) = _
  subst hx
  simp (disch := decide) only [fld_word56i_op, guardOf_word56i, fld_word56i_imm, raw3, raw2, rawAB, rawA, rawD, destOf, fld_word56i_a, fld_word56i_d, ex_lo, ex_hi, ex_ext, ex_ext0, ex_self, bit1_beq, Fmt.ofCode_code5, Fmt.ofCode_code4]
  try simp [ex_self,  bit1_beq, Fmt.ofCode_mod32, Fmt.ofCode_mod16, Opnd.of10_okS, Dest.of_okXmov, hw]

theorem jmp (g : Guard) (imm : BitVec 23) : Statement (.jmp g imm) := by
  intro hw w he sl hs
  refine decodeWord_of_raw hw he ?_
  have e := Option.some.inj (show some _ = some w from he)
  subst e
  simp [slotsOf] at hs
  simp [Instr.wf, okV3, okV2, okAtom] at hw
  rw [ofNat56]
  generalize hx : word56i _ _ _ _ _ = w
  have ho : (fld w 5 8).toNat = 0x61 := by rw [← hx, fld_word56i_op]; rfl
  subst hs
  show rawS w = _
  unfold rawS
  rw [ho]
  show (some (.jmp (guardOf w) (fld w 33 23)) : Option Instr) = _
  subst hx
  simp (disch := decide) only [fld_word56i_op, guardOf_word56i, fld_word56i_imm, raw3, raw2, rawAB, rawA, rawD, destOf, fld_word56i_a, fld_word56i_d, ex_lo, ex_hi, ex_ext, ex_ext0, ex_self, bit1_beq, Fmt.ofCode_code5, Fmt.ofCode_code4]
  try simp [ex_self,  bit1_beq, Fmt.ofCode_mod32, Fmt.ofCode_mod16, Opnd.of10_okS, Dest.of_okXmov, hw]

theorem jmpr (g : Guard) (a : Opnd) : Statement (.jmpr g a) := by
  intro hw w he sl hs
  refine decodeWord_of_raw hw he ?_
  have e := Option.some.inj (show some _ = some w from he)
  subst e
  simp [slotsOf] at hs
  simp [Instr.wf, okV3, okV2, okAtom] at hw
  rw [ofNat56]
  generalize hx : word56 _ _ _ _ _ _ = w
  have ho : (fld w 5 8).toNat = 0x62 := by rw [← hx, fld_word56_op]; rfl
  subst hs
  show rawS w = _
  unfold rawS
  rw [ho]
  show rawA w _ = _
  subst hx
  simp (disch := decide) only [fld_word56_op, guardOf_word56, raw3, raw2, rawAB, rawA, rawD, destOf, fld_word56_mod, fld_word56_b, fld_word56_a, fld_word56_d, tmod, ex_lo, ex_hi, ex_ext, ex_ext0, ex_self, bit1_beq, Fmt.ofCode_code5, Fmt.ofCode_code4]
  simp [ex_self,  bit1_beq, Fmt.ofCode_mod32, Fmt.ofCode_mod16, Opnd.of10_okS, Dest.of_okXmov, hw]

theorem call (g : Guard) (d : Opnd) (imm : BitVec 23) : Statement (.call g d imm) := by
  intro hw w he sl hs
  refine decodeWord_of_raw hw he ?_
  have e := Option.some.inj (show some _ = some w from he)
  subst e
  simp [slotsOf] at hs
  simp [Instr.wf, okV3, okV2, okAtom] at hw
  have hd : Opnd.ofCode10 d.code10 = some d := Opnd.of10 (by cases d <;> simp_all [Opnd.coded] <;> omega)
  rw [ofNat56]
  generalize hx : word56i _ _ _ _ _ = w
  have ho : (fld w 5 8).toNat = 0x63 := by rw [← hx, fld_word56i_op]; rfl
  subst hs
  show rawS w = _
  unfold rawS
  rw [ho]
  show rawD w _ = _
  subst hx
  simp (disch := decide) only [fld_word56i_op, guardOf_word56i, fld_word56i_imm, raw3, raw2, rawAB, rawA, rawD, destOf, fld_word56i_a, fld_word56i_d, ex_lo, ex_hi, ex_ext, ex_ext0, ex_self, bit1_beq, Fmt.ofCode_code5, Fmt.ofCode_code4]
  simp [ex_self,  bit1_beq, Fmt.ofCode_mod32, Fmt.ofCode_mod16, hd, Opnd.of10_okS, Dest.of_okXmov, hw]

theorem ret (g : Guard) (a : Opnd) : Statement (.ret g a) := by
  intro hw w he sl hs
  refine decodeWord_of_raw hw he ?_
  have e := Option.some.inj (show some _ = some w from he)
  subst e
  simp [slotsOf] at hs
  simp [Instr.wf, okV3, okV2, okAtom] at hw
  rw [ofNat56]
  generalize hx : word56 _ _ _ _ _ _ = w
  have ho : (fld w 5 8).toNat = 0x64 := by rw [← hx, fld_word56_op]; rfl
  subst hs
  show rawS w = _
  unfold rawS
  rw [ho]
  show rawA w _ = _
  subst hx
  simp (disch := decide) only [fld_word56_op, guardOf_word56, raw3, raw2, rawAB, rawA, rawD, destOf, fld_word56_mod, fld_word56_b, fld_word56_a, fld_word56_d, tmod, ex_lo, ex_hi, ex_ext, ex_ext0, ex_self, bit1_beq, Fmt.ofCode_code5, Fmt.ofCode_code4]
  simp [ex_self,  bit1_beq, Fmt.ofCode_mod32, Fmt.ofCode_mod16, Opnd.of10_okS, Dest.of_okXmov, hw]

theorem loop (g : Guard) (a : Opnd) (imm : BitVec 23) : Statement (.loop g a imm) := by
  intro hw w he sl hs
  refine decodeWord_of_raw hw he ?_
  have e := Option.some.inj (show some _ = some w from he)
  subst e
  simp [slotsOf] at hs
  simp [Instr.wf, okV3, okV2, okAtom] at hw
  rw [ofNat56]
  generalize hx : word56i _ _ _ _ _ = w
  have ho : (fld w 5 8).toNat = 0x65 := by rw [← hx, fld_word56i_op]; rfl
  subst hs
  show rawS w = _
  unfold rawS
  rw [ho]
  show rawA w _ = _
  subst hx
  simp (disch := decide) only [fld_word56i_op, guardOf_word56i, fld_word56i_imm, raw3, raw2, rawAB, rawA, rawD, destOf, fld_word56i_a, fld_word56i_d, ex_lo, ex_hi, ex_ext, ex_ext0, ex_self, bit1_beq, Fmt.ofCode_code5, Fmt.ofCode_code4]
  simp [ex_self,  bit1_beq, Fmt.ofCode_mod32, Fmt.ofCode_mod16, Opnd.of10_okS, Dest.of_okXmov, hw]

theorem halt (g : Guard) : Statement (.halt g) := by
  intro hw w he sl hs
  refine decodeWord_of_raw hw he ?_
  have e := Option.some.inj (show some _ = some w from he)
  subst e
  simp [slotsOf] at hs
  simp [Instr.wf, okV3, okV2, okAtom] at hw
  rw [ofNat56]
  generalize hx : word56 _ _ _ _ _ _ = w
  have ho : (fld w 5 8).toNat = 0x66 := by rw [← hx, fld_word56_op]; rfl
  subst hs
  show rawS w = _
  unfold rawS
  rw [ho]
  show (some (.halt (guardOf w)) : Option Instr) = _
  subst hx
  simp (disch := decide) only [fld_word56_op, guardOf_word56, raw3, raw2, rawAB, rawA, rawD, destOf, fld_word56_mod, fld_word56_b, fld_word56_a, fld_word56_d, tmod, ex_lo, ex_hi, ex_ext, ex_ext0, ex_self, bit1_beq, Fmt.ofCode_code5, Fmt.ofCode_code4]
  try simp [ex_self,  bit1_beq, Fmt.ofCode_mod32, Fmt.ofCode_mod16, Opnd.of10_okS, Dest.of_okXmov, hw]

theorem xmov (g : Guard) (dst : Dest) (a : Opnd) (lane : BitVec 3) (bcast : Bool) : Statement (.xmov g dst a lane bcast) := by
  intro hw w he sl hs
  refine decodeWord_of_raw hw he ?_
  have e := Option.some.inj (show some _ = some w from he)
  subst e
  simp [slotsOf] at hs
  simp [Instr.wf, okV3, okV2, okAtom] at hw
  have hd := Dest.of_okXmov hw.1.2
  rw [ofNat56]
  generalize hx : word56 _ _ _ _ _ _ = w
  have ho : (fld w 5 8).toNat = 0x70 := by rw [← hx, fld_word56_op]; rfl
  subst hs
  show rawS w = _
  unfold rawS
  rw [ho]
  show rawA w _ = _
  subst hx
  simp (disch := decide) only [fld_word56_op, guardOf_word56, raw3, raw2, rawAB, rawA, rawD, destOf, fld_word56_mod, fld_word56_b, fld_word56_a, fld_word56_d, tmod, ex_lo, ex_hi, ex_ext, ex_ext0, ex_self, bit1_beq, Fmt.ofCode_code5, Fmt.ofCode_code4]
  simp [ex_self,  bit1_beq, Fmt.ofCode_mod32, Fmt.ofCode_mod16, hd, Opnd.of10_okS, Dest.of_okXmov, hw]

theorem rdsr (g : Guard) (d : Opnd) (sr : BitVec 23) : Statement (.rdsr g d sr) := by
  intro hw w he sl hs
  refine decodeWord_of_raw hw he ?_
  have e := Option.some.inj (show some _ = some w from he)
  subst e
  simp [slotsOf] at hs
  simp [Instr.wf, okV3, okV2, okAtom] at hw
  rw [ofNat56]
  generalize hx : word56i _ _ _ _ _ = w
  have ho : (fld w 5 8).toNat = 0x71 := by rw [← hx, fld_word56i_op]; rfl
  subst hs
  show rawS w = _
  unfold rawS
  rw [ho]
  show rawD w _ = _
  subst hx
  simp (disch := decide) only [fld_word56i_op, guardOf_word56i, fld_word56i_imm, raw3, raw2, rawAB, rawA, rawD, destOf, fld_word56i_a, fld_word56i_d, ex_lo, ex_hi, ex_ext, ex_ext0, ex_self, bit1_beq, Fmt.ofCode_code5, Fmt.ofCode_code4]
  simp [ex_self,  bit1_beq, Fmt.ofCode_mod32, Fmt.ofCode_mod16, Opnd.of10_okS, Dest.of_okXmov, hw]

theorem wrsr (g : Guard) (sr : BitVec 23) (a : Opnd) : Statement (.wrsr g sr a) := by
  intro hw w he sl hs
  refine decodeWord_of_raw hw he ?_
  have e := Option.some.inj (show some _ = some w from he)
  subst e
  simp [slotsOf] at hs
  simp [Instr.wf, okV3, okV2, okAtom] at hw
  rw [ofNat56]
  generalize hx : word56i _ _ _ _ _ = w
  have ho : (fld w 5 8).toNat = 0x72 := by rw [← hx, fld_word56i_op]; rfl
  subst hs
  show rawS w = _
  unfold rawS
  rw [ho]
  show rawA w _ = _
  subst hx
  simp (disch := decide) only [fld_word56i_op, guardOf_word56i, fld_word56i_imm, raw3, raw2, rawAB, rawA, rawD, destOf, fld_word56i_a, fld_word56i_d, ex_lo, ex_hi, ex_ext, ex_ext0, ex_self, bit1_beq, Fmt.ofCode_code5, Fmt.ofCode_code4]
  simp [ex_self,  bit1_beq, Fmt.ofCode_mod32, Fmt.ofCode_mod16, Opnd.of10_okS, Dest.of_okXmov, hw]

theorem mrsData (g : Guard) (a : Opnd) : Statement (.mrsData g a) := by
  intro hw w he sl hs
  refine decodeWord_of_raw hw he ?_
  have e := Option.some.inj (show some _ = some w from he)
  subst e
  simp [slotsOf] at hs
  simp [Instr.wf, okV3, okV2, okAtom] at hw
  rw [ofNat56]
  generalize hx : word56i _ _ _ _ _ = w
  have ho : (fld w 5 8).toNat = 0x72 := by rw [← hx, fld_word56i_op]; rfl
  subst hs
  show rawS w = _
  unfold rawS
  rw [ho]
  show rawA w _ = _
  subst hx
  simp (disch := decide) only [fld_word56i_op, guardOf_word56i, fld_word56i_imm, raw3, raw2, rawAB, rawA, rawD, destOf, fld_word56i_a, fld_word56i_d, ex_lo, ex_hi, ex_ext, ex_ext0, ex_self, bit1_beq, Fmt.ofCode_code5, Fmt.ofCode_code4]
  simp [ex_self,  bit1_beq, Fmt.ofCode_mod32, Fmt.ofCode_mod16, Opnd.of10_okS, Dest.of_okXmov, hw]

theorem rdts (g : Guard) (d : Opnd) : Statement (.rdts g d) := by
  intro hw w he sl hs
  refine decodeWord_of_raw hw he ?_
  have e := Option.some.inj (show some _ = some w from he)
  subst e
  simp [slotsOf] at hs
  simp [Instr.wf, okV3, okV2, okAtom] at hw
  rw [ofNat56]
  generalize hx : word56 _ _ _ _ _ _ = w
  have ho : (fld w 5 8).toNat = 0x73 := by rw [← hx, fld_word56_op]; rfl
  subst hs
  show rawS w = _
  unfold rawS
  rw [ho]
  show rawD w _ = _
  subst hx
  simp (disch := decide) only [fld_word56_op, guardOf_word56, raw3, raw2, rawAB, rawA, rawD, destOf, fld_word56_mod, fld_word56_b, fld_word56_a, fld_word56_d, tmod, ex_lo, ex_hi, ex_ext, ex_ext0, ex_self, bit1_beq, Fmt.ofCode_code5, Fmt.ofCode_code4]
  simp [ex_self,  bit1_beq, Fmt.ofCode_mod32, Fmt.ofCode_mod16, Opnd.of10_okS, Dest.of_okXmov, hw]

theorem vadd (g : Guard) (d : Opnd) (a : Opnd) (b : Opnd) (t : Fmt) (k : BitVec 4) : Statement (.vadd g d a b t k) := by
  intro hw w he sl hs
  refine decodeWord_of_raw hw he ?_
  have e := Option.some.inj (show some _ = some w from he)
  subst e
  simp [slotsOf] at hs
  simp [Instr.wf, okV3, okV2, okAtom] at hw
  rw [ofNat56]
  generalize hx : word56 _ _ _ _ _ _ = w
  have ho : (fld w 5 8).toNat = 0x01 := by rw [← hx, fld_word56_op]; rfl
  rw [show rawSlot sl = rawV by rcases hs with rfl | rfl <;> rfl]
  show rawV w = _
  unfold rawV
  rw [ho]
  show raw3 w _ = _
  subst hx
  simp (disch := decide) only [fld_word56_op, guardOf_word56, raw3, raw2, rawAB, rawA, rawD, typeOf, destOf, fld_word56_mod, fld_word56_b, fld_word56_a, fld_word56_d, tmod, ex_lo, ex_hi, ex_ext, ex_ext0, ex_self, bit1_beq, Fmt.ofCode_code5, Fmt.ofCode_code4]
  simp [ex_self,  bit1_beq, Fmt.ofCode_mod32, Fmt.ofCode_mod16, Opnd.of10_okVSrc, Opnd.of10_okVDst, Opnd.of10_okVReg, Dest.of_okVxmov, hw]

theorem vsub (g : Guard) (d : Opnd) (a : Opnd) (b : Opnd) (t : Fmt) (k : BitVec 4) : Statement (.vsub g d a b t k) := by
  intro hw w he sl hs
  refine decodeWord_of_raw hw he ?_
  have e := Option.some.inj (show some _ = some w from he)
  subst e
  simp [slotsOf] at hs
  simp [Instr.wf, okV3, okV2, okAtom] at hw
  rw [ofNat56]
  generalize hx : word56 _ _ _ _ _ _ = w
  have ho : (fld w 5 8).toNat = 0x02 := by rw [← hx, fld_word56_op]; rfl
  rw [show rawSlot sl = rawV by rcases hs with rfl | rfl <;> rfl]
  show rawV w = _
  unfold rawV
  rw [ho]
  show raw3 w _ = _
  subst hx
  simp (disch := decide) only [fld_word56_op, guardOf_word56, raw3, raw2, rawAB, rawA, rawD, typeOf, destOf, fld_word56_mod, fld_word56_b, fld_word56_a, fld_word56_d, tmod, ex_lo, ex_hi, ex_ext, ex_ext0, ex_self, bit1_beq, Fmt.ofCode_code5, Fmt.ofCode_code4]
  simp [ex_self,  bit1_beq, Fmt.ofCode_mod32, Fmt.ofCode_mod16, Opnd.of10_okVSrc, Opnd.of10_okVDst, Opnd.of10_okVReg, Dest.of_okVxmov, hw]

theorem vmul (g : Guard) (d : Opnd) (a : Opnd) (b : Opnd) (t : Fmt) (k : BitVec 4) : Statement (.vmul g d a b t k) := by
  intro hw w he sl hs
  refine decodeWord_of_raw hw he ?_
  have e := Option.some.inj (show some _ = some w from he)
  subst e
  simp [slotsOf] at hs
  simp [Instr.wf, okV3, okV2, okAtom] at hw
  rw [ofNat56]
  generalize hx : word56 _ _ _ _ _ _ = w
  have ho : (fld w 5 8).toNat = 0x03 := by rw [← hx, fld_word56_op]; rfl
  rw [show rawSlot sl = rawV by rcases hs with rfl | rfl <;> rfl]
  show rawV w = _
  unfold rawV
  rw [ho]
  show raw3 w _ = _
  subst hx
  simp (disch := decide) only [fld_word56_op, guardOf_word56, raw3, raw2, rawAB, rawA, rawD, typeOf, destOf, fld_word56_mod, fld_word56_b, fld_word56_a, fld_word56_d, tmod, ex_lo, ex_hi, ex_ext, ex_ext0, ex_self, bit1_beq, Fmt.ofCode_code5, Fmt.ofCode_code4]
  simp [ex_self,  bit1_beq, Fmt.ofCode_mod32, Fmt.ofCode_mod16, Opnd.of10_okVSrc, Opnd.of10_okVDst, Opnd.of10_okVReg, Dest.of_okVxmov, hw]

theorem vmulh (g : Guard) (d : Opnd) (a : Opnd) (b : Opnd) (t : Fmt) (k : BitVec 4) : Statement (.vmulh g d a b t k) := by
  intro hw w he sl hs
  refine decodeWord_of_raw hw he ?_
  have e := Option.some.inj (show some _ = some w from he)
  subst e
  simp [slotsOf] at hs
  simp [Instr.wf, okV3, okV2, okAtom] at hw
  rw [ofNat56]
  generalize hx : word56 _ _ _ _ _ _ = w
  have ho : (fld w 5 8).toNat = 0x04 := by rw [← hx, fld_word56_op]; rfl
  rw [show rawSlot sl = rawV by rcases hs with rfl | rfl <;> rfl]
  show rawV w = _
  unfold rawV
  rw [ho]
  show raw3 w _ = _
  subst hx
  simp (disch := decide) only [fld_word56_op, guardOf_word56, raw3, raw2, rawAB, rawA, rawD, typeOf, destOf, fld_word56_mod, fld_word56_b, fld_word56_a, fld_word56_d, tmod, ex_lo, ex_hi, ex_ext, ex_ext0, ex_self, bit1_beq, Fmt.ofCode_code5, Fmt.ofCode_code4]
  simp [ex_self,  bit1_beq, Fmt.ofCode_mod32, Fmt.ofCode_mod16, Opnd.of10_okVSrc, Opnd.of10_okVDst, Opnd.of10_okVReg, Dest.of_okVxmov, hw]

theorem vmin (g : Guard) (d : Opnd) (a : Opnd) (b : Opnd) (t : Fmt) (k : BitVec 4) : Statement (.vmin g d a b t k) := by
  intro hw w he sl hs
  refine decodeWord_of_raw hw he ?_
  have e := Option.some.inj (show some _ = some w from he)
  subst e
  simp [slotsOf] at hs
  simp [Instr.wf, okV3, okV2, okAtom] at hw
  rw [ofNat56]
  generalize hx : word56 _ _ _ _ _ _ = w
  have ho : (fld w 5 8).toNat = 0x05 := by rw [← hx, fld_word56_op]; rfl
  rw [show rawSlot sl = rawV by rcases hs with rfl | rfl <;> rfl]
  show rawV w = _
  unfold rawV
  rw [ho]
  show raw3 w _ = _
  subst hx
  simp (disch := decide) only [fld_word56_op, guardOf_word56, raw3, raw2, rawAB, rawA, rawD, typeOf, destOf, fld_word56_mod, fld_word56_b, fld_word56_a, fld_word56_d, tmod, ex_lo, ex_hi, ex_ext, ex_ext0, ex_self, bit1_beq, Fmt.ofCode_code5, Fmt.ofCode_code4]
  simp [ex_self,  bit1_beq, Fmt.ofCode_mod32, Fmt.ofCode_mod16, Opnd.of10_okVSrc, Opnd.of10_okVDst, Opnd.of10_okVReg, Dest.of_okVxmov, hw]

theorem vmax (g : Guard) (d : Opnd) (a : Opnd) (b : Opnd) (t : Fmt) (k : BitVec 4) : Statement (.vmax g d a b t k) := by
  intro hw w he sl hs
  refine decodeWord_of_raw hw he ?_
  have e := Option.some.inj (show some _ = some w from he)
  subst e
  simp [slotsOf] at hs
  simp [Instr.wf, okV3, okV2, okAtom] at hw
  rw [ofNat56]
  generalize hx : word56 _ _ _ _ _ _ = w
  have ho : (fld w 5 8).toNat = 0x06 := by rw [← hx, fld_word56_op]; rfl
  rw [show rawSlot sl = rawV by rcases hs with rfl | rfl <;> rfl]
  show rawV w = _
  unfold rawV
  rw [ho]
  show raw3 w _ = _
  subst hx
  simp (disch := decide) only [fld_word56_op, guardOf_word56, raw3, raw2, rawAB, rawA, rawD, typeOf, destOf, fld_word56_mod, fld_word56_b, fld_word56_a, fld_word56_d, tmod, ex_lo, ex_hi, ex_ext, ex_ext0, ex_self, bit1_beq, Fmt.ofCode_code5, Fmt.ofCode_code4]
  simp [ex_self,  bit1_beq, Fmt.ofCode_mod32, Fmt.ofCode_mod16, Opnd.of10_okVSrc, Opnd.of10_okVDst, Opnd.of10_okVReg, Dest.of_okVxmov, hw]

theorem vabs (g : Guard) (d : Opnd) (a : Opnd) (t : Fmt) (k : BitVec 4) : Statement (.vabs g d a t k) := by
  intro hw w he sl hs
  refine decodeWord_of_raw hw he ?_
  have e := Option.some.inj (show some _ = some w from he)
  subst e
  simp [slotsOf] at hs
  simp [Instr.wf, okV3, okV2, okAtom] at hw
  rw [ofNat56]
  generalize hx : word56 _ _ _ _ _ _ = w
  have ho : (fld w 5 8).toNat = 0x07 := by rw [← hx, fld_word56_op]; rfl
  rw [show rawSlot sl = rawV by rcases hs with rfl | rfl <;> rfl]
  show rawV w = _
  unfold rawV
  rw [ho]
  show raw2 w _ = _
  subst hx
  simp (disch := decide) only [fld_word56_op, guardOf_word56, raw3, raw2, rawAB, rawA, rawD, typeOf, destOf, fld_word56_mod, fld_word56_b, fld_word56_a, fld_word56_d, tmod, ex_lo, ex_hi, ex_ext, ex_ext0, ex_self, bit1_beq, Fmt.ofCode_code5, Fmt.ofCode_code4]
  simp [ex_self,  bit1_beq, Fmt.ofCode_mod32, Fmt.ofCode_mod16, Opnd.of10_okVSrc, Opnd.of10_okVDst, Opnd.of10_okVReg, Dest.of_okVxmov, hw]

theorem vand (g : Guard) (d : Opnd) (a : Opnd) (b : Opnd) (t : Fmt) (k : BitVec 4) : Statement (.vand g d a b t k) := by
  intro hw w he sl hs
  refine decodeWord_of_raw hw he ?_
  have e := Option.some.inj (show some _ = some w from he)
  subst e
  simp [slotsOf] at hs
  simp [Instr.wf, okV3, okV2, okAtom] at hw
  rw [ofNat56]
  generalize hx : word56 _ _ _ _ _ _ = w
  have ho : (fld w 5 8).toNat = 0x08 := by rw [← hx, fld_word56_op]; rfl
  rw [show rawSlot sl = rawV by rcases hs with rfl | rfl <;> rfl]
  show rawV w = _
  unfold rawV
  rw [ho]
  show raw3 w _ = _
  subst hx
  simp (disch := decide) only [fld_word56_op, guardOf_word56, raw3, raw2, rawAB, rawA, rawD, typeOf, destOf, fld_word56_mod, fld_word56_b, fld_word56_a, fld_word56_d, tmod, ex_lo, ex_hi, ex_ext, ex_ext0, ex_self, bit1_beq, Fmt.ofCode_code5, Fmt.ofCode_code4]
  simp [ex_self,  bit1_beq, Fmt.ofCode_mod32, Fmt.ofCode_mod16, Opnd.of10_okVSrc, Opnd.of10_okVDst, Opnd.of10_okVReg, Dest.of_okVxmov, hw]

theorem vor (g : Guard) (d : Opnd) (a : Opnd) (b : Opnd) (t : Fmt) (k : BitVec 4) : Statement (.vor g d a b t k) := by
  intro hw w he sl hs
  refine decodeWord_of_raw hw he ?_
  have e := Option.some.inj (show some _ = some w from he)
  subst e
  simp [slotsOf] at hs
  simp [Instr.wf, okV3, okV2, okAtom] at hw
  rw [ofNat56]
  generalize hx : word56 _ _ _ _ _ _ = w
  have ho : (fld w 5 8).toNat = 0x09 := by rw [← hx, fld_word56_op]; rfl
  rw [show rawSlot sl = rawV by rcases hs with rfl | rfl <;> rfl]
  show rawV w = _
  unfold rawV
  rw [ho]
  show raw3 w _ = _
  subst hx
  simp (disch := decide) only [fld_word56_op, guardOf_word56, raw3, raw2, rawAB, rawA, rawD, typeOf, destOf, fld_word56_mod, fld_word56_b, fld_word56_a, fld_word56_d, tmod, ex_lo, ex_hi, ex_ext, ex_ext0, ex_self, bit1_beq, Fmt.ofCode_code5, Fmt.ofCode_code4]
  simp [ex_self,  bit1_beq, Fmt.ofCode_mod32, Fmt.ofCode_mod16, Opnd.of10_okVSrc, Opnd.of10_okVDst, Opnd.of10_okVReg, Dest.of_okVxmov, hw]

theorem vxor (g : Guard) (d : Opnd) (a : Opnd) (b : Opnd) (t : Fmt) (k : BitVec 4) : Statement (.vxor g d a b t k) := by
  intro hw w he sl hs
  refine decodeWord_of_raw hw he ?_
  have e := Option.some.inj (show some _ = some w from he)
  subst e
  simp [slotsOf] at hs
  simp [Instr.wf, okV3, okV2, okAtom] at hw
  rw [ofNat56]
  generalize hx : word56 _ _ _ _ _ _ = w
  have ho : (fld w 5 8).toNat = 0x0A := by rw [← hx, fld_word56_op]; rfl
  rw [show rawSlot sl = rawV by rcases hs with rfl | rfl <;> rfl]
  show rawV w = _
  unfold rawV
  rw [ho]
  show raw3 w _ = _
  subst hx
  simp (disch := decide) only [fld_word56_op, guardOf_word56, raw3, raw2, rawAB, rawA, rawD, typeOf, destOf, fld_word56_mod, fld_word56_b, fld_word56_a, fld_word56_d, tmod, ex_lo, ex_hi, ex_ext, ex_ext0, ex_self, bit1_beq, Fmt.ofCode_code5, Fmt.ofCode_code4]
  simp [ex_self,  bit1_beq, Fmt.ofCode_mod32, Fmt.ofCode_mod16, Opnd.of10_okVSrc, Opnd.of10_okVDst, Opnd.of10_okVReg, Dest.of_okVxmov, hw]

theorem vandn (g : Guard) (d : Opnd) (a : Opnd) (b : Opnd) (t : Fmt) (k : BitVec 4) : Statement (.vandn g d a b t k) := by
  intro hw w he sl hs
  refine decodeWord_of_raw hw he ?_
  have e := Option.some.inj (show some _ = some w from he)
  subst e
  simp [slotsOf] at hs
  simp [Instr.wf, okV3, okV2, okAtom] at hw
  rw [ofNat56]
  generalize hx : word56 _ _ _ _ _ _ = w
  have ho : (fld w 5 8).toNat = 0x0B := by rw [← hx, fld_word56_op]; rfl
  rw [show rawSlot sl = rawV by rcases hs with rfl | rfl <;> rfl]
  show rawV w = _
  unfold rawV
  rw [ho]
  show raw3 w _ = _
  subst hx
  simp (disch := decide) only [fld_word56_op, guardOf_word56, raw3, raw2, rawAB, rawA, rawD, typeOf, destOf, fld_word56_mod, fld_word56_b, fld_word56_a, fld_word56_d, tmod, ex_lo, ex_hi, ex_ext, ex_ext0, ex_self, bit1_beq, Fmt.ofCode_code5, Fmt.ofCode_code4]
  simp [ex_self,  bit1_beq, Fmt.ofCode_mod32, Fmt.ofCode_mod16, Opnd.of10_okVSrc, Opnd.of10_okVDst, Opnd.of10_okVReg, Dest.of_okVxmov, hw]

theorem vshl (g : Guard) (d : Opnd) (a : Opnd) (b : Opnd) (t : Fmt) (k : BitVec 4) : Statement (.vshl g d a b t k) := by
  intro hw w he sl hs
  refine decodeWord_of_raw hw he ?_
  have e := Option.some.inj (show some _ = some w from he)
  subst e
  simp [slotsOf] at hs
  simp [Instr.wf, okV3, okV2, okAtom] at hw
  rw [ofNat56]
  generalize hx : word56 _ _ _ _ _ _ = w
  have ho : (fld w 5 8).toNat = 0x0C := by rw [← hx, fld_word56_op]; rfl
  rw [show rawSlot sl = rawV by rcases hs with rfl | rfl <;> rfl]
  show rawV w = _
  unfold rawV
  rw [ho]
  show raw3 w _ = _
  subst hx
  simp (disch := decide) only [fld_word56_op, guardOf_word56, raw3, raw2, rawAB, rawA, rawD, typeOf, destOf, fld_word56_mod, fld_word56_b, fld_word56_a, fld_word56_d, tmod, ex_lo, ex_hi, ex_ext, ex_ext0, ex_self, bit1_beq, Fmt.ofCode_code5, Fmt.ofCode_code4]
  simp [ex_self,  bit1_beq, Fmt.ofCode_mod32, Fmt.ofCode_mod16, Opnd.of10_okVSrc, Opnd.of10_okVDst, Opnd.of10_okVReg, Dest.of_okVxmov, hw]

theorem vshr (g : Guard) (d : Opnd) (a : Opnd) (b : Opnd) (t : Fmt) (k : BitVec 4) : Statement (.vshr g d a b t k) := by
  intro hw w he sl hs
  refine decodeWord_of_raw hw he ?_
  have e := Option.some.inj (show some _ = some w from he)
  subst e
  simp [slotsOf] at hs
  simp [Instr.wf, okV3, okV2, okAtom] at hw
  rw [ofNat56]
  generalize hx : word56 _ _ _ _ _ _ = w
  have ho : (fld w 5 8).toNat = 0x0D := by rw [← hx, fld_word56_op]; rfl
  rw [show rawSlot sl = rawV by rcases hs with rfl | rfl <;> rfl]
  show rawV w = _
  unfold rawV
  rw [ho]
  show raw3 w _ = _
  subst hx
  simp (disch := decide) only [fld_word56_op, guardOf_word56, raw3, raw2, rawAB, rawA, rawD, typeOf, destOf, fld_word56_mod, fld_word56_b, fld_word56_a, fld_word56_d, tmod, ex_lo, ex_hi, ex_ext, ex_ext0, ex_self, bit1_beq, Fmt.ofCode_code5, Fmt.ofCode_code4]
  simp [ex_self,  bit1_beq, Fmt.ofCode_mod32, Fmt.ofCode_mod16, Opnd.of10_okVSrc, Opnd.of10_okVDst, Opnd.of10_okVReg, Dest.of_okVxmov, hw]

theorem vsra (g : Guard) (d : Opnd) (a : Opnd) (b : Opnd) (t : Fmt) (k : BitVec 4) : Statement (.vsra g d a b t k) := by
  intro hw w he sl hs
  refine decodeWord_of_raw hw he ?_
  have e := Option.some.inj (show some _ = some w from he)
  subst e
  simp [slotsOf] at hs
  simp [Instr.wf, okV3, okV2, okAtom] at hw
  rw [ofNat56]
  generalize hx : word56 _ _ _ _ _ _ = w
  have ho : (fld w 5 8).toNat = 0x0E := by rw [← hx, fld_word56_op]; rfl
  rw [show rawSlot sl = rawV by rcases hs with rfl | rfl <;> rfl]
  show rawV w = _
  unfold rawV
  rw [ho]
  show raw3 w _ = _
  subst hx
  simp (disch := decide) only [fld_word56_op, guardOf_word56, raw3, raw2, rawAB, rawA, rawD, typeOf, destOf, fld_word56_mod, fld_word56_b, fld_word56_a, fld_word56_d, tmod, ex_lo, ex_hi, ex_ext, ex_ext0, ex_self, bit1_beq, Fmt.ofCode_code5, Fmt.ofCode_code4]
  simp [ex_self,  bit1_beq, Fmt.ofCode_mod32, Fmt.ofCode_mod16, Opnd.of10_okVSrc, Opnd.of10_okVDst, Opnd.of10_okVReg, Dest.of_okVxmov, hw]

theorem vfsh (g : Guard) (d : Opnd) (a : Opnd) (b : Opnd) (t : Fmt) (right : Bool) : Statement (.vfsh g d a b t right) := by
  intro hw w he sl hs
  refine decodeWord_of_raw hw he ?_
  have e := Option.some.inj (show some _ = some w from he)
  subst e
  simp [slotsOf] at hs
  simp [Instr.wf, okV3, okV2, okAtom] at hw
  rw [ofNat56]
  generalize hx : word56 _ _ _ _ _ _ = w
  have ho : (fld w 5 8).toNat = 0x0F := by rw [← hx, fld_word56_op]; rfl
  rw [show rawSlot sl = rawV by rcases hs with rfl | rfl <;> rfl]
  show rawV w = _
  unfold rawV
  rw [ho]
  show raw3 w _ = _
  subst hx
  simp (disch := decide) only [fld_word56_op, guardOf_word56, raw3, raw2, rawAB, rawA, rawD, typeOf, destOf, fld_word56_mod, fld_word56_b, fld_word56_a, fld_word56_d, tmod, ex_lo, ex_hi, ex_ext, ex_ext0, ex_self, bit1_beq, Fmt.ofCode_code5, Fmt.ofCode_code4]
  simp [ex_self,  bit1_beq, Fmt.ofCode_mod32, Fmt.ofCode_mod16, Opnd.of10_okVSrc, Opnd.of10_okVDst, Opnd.of10_okVReg, Dest.of_okVxmov, hw]

theorem vclz (g : Guard) (d : Opnd) (a : Opnd) (t : Fmt) (k : BitVec 4) : Statement (.vclz g d a t k) := by
  intro hw w he sl hs
  refine decodeWord_of_raw hw he ?_
  have e := Option.some.inj (show some _ = some w from he)
  subst e
  simp [slotsOf] at hs
  simp [Instr.wf, okV3, okV2, okAtom] at hw
  rw [ofNat56]
  generalize hx : word56 _ _ _ _ _ _ = w
  have ho : (fld w 5 8).toNat = 0x10 := by rw [← hx, fld_word56_op]; rfl
  rw [show rawSlot sl = rawV by rcases hs with rfl | rfl <;> rfl]
  show rawV w = _
  unfold rawV
  rw [ho]
  show raw2 w _ = _
  subst hx
  simp (disch := decide) only [fld_word56_op, guardOf_word56, raw3, raw2, rawAB, rawA, rawD, typeOf, destOf, fld_word56_mod, fld_word56_b, fld_word56_a, fld_word56_d, tmod, ex_lo, ex_hi, ex_ext, ex_ext0, ex_self, bit1_beq, Fmt.ofCode_code5, Fmt.ofCode_code4]
  simp [ex_self,  bit1_beq, Fmt.ofCode_mod32, Fmt.ofCode_mod16, Opnd.of10_okVSrc, Opnd.of10_okVDst, Opnd.of10_okVReg, Dest.of_okVxmov, hw]

theorem vpopc (g : Guard) (d : Opnd) (a : Opnd) (t : Fmt) (k : BitVec 4) : Statement (.vpopc g d a t k) := by
  intro hw w he sl hs
  refine decodeWord_of_raw hw he ?_
  have e := Option.some.inj (show some _ = some w from he)
  subst e
  simp [slotsOf] at hs
  simp [Instr.wf, okV3, okV2, okAtom] at hw
  rw [ofNat56]
  generalize hx : word56 _ _ _ _ _ _ = w
  have ho : (fld w 5 8).toNat = 0x11 := by rw [← hx, fld_word56_op]; rfl
  rw [show rawSlot sl = rawV by rcases hs with rfl | rfl <;> rfl]
  show rawV w = _
  unfold rawV
  rw [ho]
  show raw2 w _ = _
  subst hx
  simp (disch := decide) only [fld_word56_op, guardOf_word56, raw3, raw2, rawAB, rawA, rawD, typeOf, destOf, fld_word56_mod, fld_word56_b, fld_word56_a, fld_word56_d, tmod, ex_lo, ex_hi, ex_ext, ex_ext0, ex_self, bit1_beq, Fmt.ofCode_code5, Fmt.ofCode_code4]
  simp [ex_self,  bit1_beq, Fmt.ofCode_mod32, Fmt.ofCode_mod16, Opnd.of10_okVSrc, Opnd.of10_okVDst, Opnd.of10_okVReg, Dest.of_okVxmov, hw]

theorem vcmp (g : Guard) (kd : BitVec 4) (a : Opnd) (b : Opnd) (t : Fmt) (cc : BitVec 4) : Statement (.vcmp g kd a b t cc) := by
  intro hw w he sl hs
  refine decodeWord_of_raw hw he ?_
  have e := Option.some.inj (show some _ = some w from he)
  subst e
  simp [slotsOf] at hs
  simp [Instr.wf, okV3, okV2, okAtom] at hw
  rw [ofNat56]
  generalize hx : word56 _ _ _ _ _ _ = w
  have ho : (fld w 5 8).toNat = 0x12 := by rw [← hx, fld_word56_op]; rfl
  rw [show rawSlot sl = rawV by rcases hs with rfl | rfl <;> rfl]
  show rawV w = _
  unfold rawV
  rw [ho]
  show rawAB w _ = _
  subst hx
  simp (disch := decide) only [fld_word56_op, guardOf_word56, raw3, raw2, rawAB, rawA, rawD, typeOf, destOf, fld_word56_mod, fld_word56_b, fld_word56_a, fld_word56_d, tmod, ex_lo, ex_hi, ex_ext, ex_ext0, ex_self, bit1_beq, Fmt.ofCode_code5, Fmt.ofCode_code4]
  simp [ex_self,  bit1_beq, Fmt.ofCode_mod32, Fmt.ofCode_mod16, Opnd.of10_okVSrc, Opnd.of10_okVDst, Opnd.of10_okVReg, Dest.of_okVxmov, hw]

theorem vsel (g : Guard) (d : Opnd) (a : Opnd) (b : Opnd) (t : Fmt) (ks : BitVec 4) : Statement (.vsel g d a b t ks) := by
  intro hw w he sl hs
  refine decodeWord_of_raw hw he ?_
  have e := Option.some.inj (show some _ = some w from he)
  subst e
  simp [slotsOf] at hs
  simp [Instr.wf, okV3, okV2, okAtom] at hw
  rw [ofNat56]
  generalize hx : word56 _ _ _ _ _ _ = w
  have ho : (fld w 5 8).toNat = 0x13 := by rw [← hx, fld_word56_op]; rfl
  rw [show rawSlot sl = rawV by rcases hs with rfl | rfl <;> rfl]
  show rawV w = _
  unfold rawV
  rw [ho]
  show raw3 w _ = _
  subst hx
  simp (disch := decide) only [fld_word56_op, guardOf_word56, raw3, raw2, rawAB, rawA, rawD, typeOf, destOf, fld_word56_mod, fld_word56_b, fld_word56_a, fld_word56_d, tmod, ex_lo, ex_hi, ex_ext, ex_ext0, ex_self, bit1_beq, Fmt.ofCode_code5, Fmt.ofCode_code4]
  simp [ex_self,  bit1_beq, Fmt.ofCode_mod32, Fmt.ofCode_mod16, Opnd.of10_okVSrc, Opnd.of10_okVDst, Opnd.of10_okVReg, Dest.of_okVxmov, hw]

theorem kand (g : Guard) (kd : BitVec 4) (ka : BitVec 4) (kb : BitVec 4) : Statement (.kand g kd ka kb) := by
  intro hw w he sl hs
  refine decodeWord_of_raw hw he ?_
  have e := Option.some.inj (show some _ = some w from he)
  subst e
  simp [slotsOf] at hs
  simp [Instr.wf, okV3, okV2, okAtom] at hw
  rw [ofNat56]
  generalize hx : word56 _ _ _ _ _ _ = w
  have ho : (fld w 5 8).toNat = 0x18 := by rw [← hx, fld_word56_op]; rfl
  rw [show rawSlot sl = rawV by rcases hs with rfl | rfl <;> rfl]
  show rawV w = _
  unfold rawV
  rw [ho]
  show (some (.kand (guardOf w) (fld w 13 4) (fld w 23 4) (fld w 33 4)) : Option Instr) = _
  subst hx
  simp (disch := decide) only [fld_word56_op, guardOf_word56, raw3, raw2, rawAB, rawA, rawD, typeOf, destOf, fld_word56_mod, fld_word56_b, fld_word56_a, fld_word56_d, tmod, ex_lo, ex_hi, ex_ext, ex_ext0, ex_self, bit1_beq, Fmt.ofCode_code5, Fmt.ofCode_code4]
  simp [ex_self,  bit1_beq, Fmt.ofCode_mod32, Fmt.ofCode_mod16, Opnd.of10_okVSrc, Opnd.of10_okVDst, Opnd.of10_okVReg, Dest.of_okVxmov, hw]

theorem kor (g : Guard) (kd : BitVec 4) (ka : BitVec 4) (kb : BitVec 4) : Statement (.kor g kd ka kb) := by
  intro hw w he sl hs
  refine decodeWord_of_raw hw he ?_
  have e := Option.some.inj (show some _ = some w from he)
  subst e
  simp [slotsOf] at hs
  simp [Instr.wf, okV3, okV2, okAtom] at hw
  rw [ofNat56]
  generalize hx : word56 _ _ _ _ _ _ = w
  have ho : (fld w 5 8).toNat = 0x19 := by rw [← hx, fld_word56_op]; rfl
  rw [show rawSlot sl = rawV by rcases hs with rfl | rfl <;> rfl]
  show rawV w = _
  unfold rawV
  rw [ho]
  show (some (.kor (guardOf w) (fld w 13 4) (fld w 23 4) (fld w 33 4)) : Option Instr) = _
  subst hx
  simp (disch := decide) only [fld_word56_op, guardOf_word56, raw3, raw2, rawAB, rawA, rawD, typeOf, destOf, fld_word56_mod, fld_word56_b, fld_word56_a, fld_word56_d, tmod, ex_lo, ex_hi, ex_ext, ex_ext0, ex_self, bit1_beq, Fmt.ofCode_code5, Fmt.ofCode_code4]
  simp [ex_self,  bit1_beq, Fmt.ofCode_mod32, Fmt.ofCode_mod16, Opnd.of10_okVSrc, Opnd.of10_okVDst, Opnd.of10_okVReg, Dest.of_okVxmov, hw]

theorem kxor (g : Guard) (kd : BitVec 4) (ka : BitVec 4) (kb : BitVec 4) : Statement (.kxor g kd ka kb) := by
  intro hw w he sl hs
  refine decodeWord_of_raw hw he ?_
  have e := Option.some.inj (show some _ = some w from he)
  subst e
  simp [slotsOf] at hs
  simp [Instr.wf, okV3, okV2, okAtom] at hw
  rw [ofNat56]
  generalize hx : word56 _ _ _ _ _ _ = w
  have ho : (fld w 5 8).toNat = 0x1A := by rw [← hx, fld_word56_op]; rfl
  rw [show rawSlot sl = rawV by rcases hs with rfl | rfl <;> rfl]
  show rawV w = _
  unfold rawV
  rw [ho]
  show (some (.kxor (guardOf w) (fld w 13 4) (fld w 23 4) (fld w 33 4)) : Option Instr) = _
  subst hx
  simp (disch := decide) only [fld_word56_op, guardOf_word56, raw3, raw2, rawAB, rawA, rawD, typeOf, destOf, fld_word56_mod, fld_word56_b, fld_word56_a, fld_word56_d, tmod, ex_lo, ex_hi, ex_ext, ex_ext0, ex_self, bit1_beq, Fmt.ofCode_code5, Fmt.ofCode_code4]
  simp [ex_self,  bit1_beq, Fmt.ofCode_mod32, Fmt.ofCode_mod16, Opnd.of10_okVSrc, Opnd.of10_okVDst, Opnd.of10_okVReg, Dest.of_okVxmov, hw]

theorem knot (g : Guard) (kd : BitVec 4) (ka : BitVec 4) : Statement (.knot g kd ka) := by
  intro hw w he sl hs
  refine decodeWord_of_raw hw he ?_
  have e := Option.some.inj (show some _ = some w from he)
  subst e
  simp [slotsOf] at hs
  simp [Instr.wf, okV3, okV2, okAtom] at hw
  rw [ofNat56]
  generalize hx : word56 _ _ _ _ _ _ = w
  have ho : (fld w 5 8).toNat = 0x1B := by rw [← hx, fld_word56_op]; rfl
  rw [show rawSlot sl = rawV by rcases hs with rfl | rfl <;> rfl]
  show rawV w = _
  unfold rawV
  rw [ho]
  show (some (.knot (guardOf w) (fld w 13 4) (fld w 23 4)) : Option Instr) = _
  subst hx
  simp (disch := decide) only [fld_word56_op, guardOf_word56, raw3, raw2, rawAB, rawA, rawD, typeOf, destOf, fld_word56_mod, fld_word56_b, fld_word56_a, fld_word56_d, tmod, ex_lo, ex_hi, ex_ext, ex_ext0, ex_self, bit1_beq, Fmt.ofCode_code5, Fmt.ofCode_code4]
  simp [ex_self,  bit1_beq, Fmt.ofCode_mod32, Fmt.ofCode_mod16, Opnd.of10_okVSrc, Opnd.of10_okVDst, Opnd.of10_okVReg, Dest.of_okVxmov, hw]

theorem kpop (g : Guard) (d : Opnd) (ka : BitVec 4) : Statement (.kpop g d ka) := by
  intro hw w he sl hs
  refine decodeWord_of_raw hw he ?_
  have e := Option.some.inj (show some _ = some w from he)
  subst e
  simp [slotsOf] at hs
  simp [Instr.wf, okV3, okV2, okAtom] at hw
  have hd : Opnd.ofCode10 d.code10 = some d := Opnd.of10 (by cases d <;> simp_all [Opnd.coded] <;> omega)
  rw [ofNat56]
  generalize hx : word56 _ _ _ _ _ _ = w
  have ho : (fld w 5 8).toNat = 0x1C := by rw [← hx, fld_word56_op]; rfl
  rw [show rawSlot sl = rawV by rcases hs with rfl | rfl <;> rfl]
  show rawV w = _
  unfold rawV
  rw [ho]
  show rawD w _ = _
  subst hx
  simp (disch := decide) only [fld_word56_op, guardOf_word56, raw3, raw2, rawAB, rawA, rawD, typeOf, destOf, fld_word56_mod, fld_word56_b, fld_word56_a, fld_word56_d, tmod, ex_lo, ex_hi, ex_ext, ex_ext0, ex_self, bit1_beq, Fmt.ofCode_code5, Fmt.ofCode_code4]
  simp [ex_self,  bit1_beq, Fmt.ofCode_mod32, Fmt.ofCode_mod16, hd, Opnd.of10_okVSrc, Opnd.of10_okVDst, Opnd.of10_okVReg, Dest.of_okVxmov, hw]

theorem kfirst (g : Guard) (d : Opnd) (ka : BitVec 4) : Statement (.kfirst g d ka) := by
  intro hw w he sl hs
  refine decodeWord_of_raw hw he ?_
  have e := Option.some.inj (show some _ = some w from he)
  subst e
  simp [slotsOf] at hs
  simp [Instr.wf, okV3, okV2, okAtom] at hw
  have hd : Opnd.ofCode10 d.code10 = some d := Opnd.of10 (by cases d <;> simp_all [Opnd.coded] <;> omega)
  rw [ofNat56]
  generalize hx : word56 _ _ _ _ _ _ = w
  have ho : (fld w 5 8).toNat = 0x1D := by rw [← hx, fld_word56_op]; rfl
  rw [show rawSlot sl = rawV by rcases hs with rfl | rfl <;> rfl]
  show rawV w = _
  unfold rawV
  rw [ho]
  show rawD w _ = _
  subst hx
  simp (disch := decide) only [fld_word56_op, guardOf_word56, raw3, raw2, rawAB, rawA, rawD, typeOf, destOf, fld_word56_mod, fld_word56_b, fld_word56_a, fld_word56_d, tmod, ex_lo, ex_hi, ex_ext, ex_ext0, ex_self, bit1_beq, Fmt.ofCode_code5, Fmt.ofCode_code4]
  simp [ex_self,  bit1_beq, Fmt.ofCode_mod32, Fmt.ofCode_mod16, hd, Opnd.of10_okVSrc, Opnd.of10_okVDst, Opnd.of10_okVReg, Dest.of_okVxmov, hw]

theorem vbcast (g : Guard) (d : Opnd) (a : Opnd) (n : BitVec 10) (t : Fmt) (k : BitVec 4) : Statement (.vbcast g d a n t k) := by
  intro hw w he sl hs
  refine decodeWord_of_raw hw he ?_
  have e := Option.some.inj (show some _ = some w from he)
  subst e
  simp [slotsOf] at hs
  simp [Instr.wf, okV3, okV2, okAtom] at hw
  rw [ofNat56]
  generalize hx : word56 _ _ _ _ _ _ = w
  have ho : (fld w 5 8).toNat = 0x20 := by rw [← hx, fld_word56_op]; rfl
  rw [show rawSlot sl = rawV by rcases hs with rfl | rfl <;> rfl]
  show rawV w = _
  unfold rawV
  rw [ho]
  show raw2 w _ = _
  subst hx
  simp (disch := decide) only [fld_word56_op, guardOf_word56, raw3, raw2, rawAB, rawA, rawD, typeOf, destOf, fld_word56_mod, fld_word56_b, fld_word56_a, fld_word56_d, tmod, ex_lo, ex_hi, ex_ext, ex_ext0, ex_self, bit1_beq, Fmt.ofCode_code5, Fmt.ofCode_code4]
  simp [ex_self,  bit1_beq, Fmt.ofCode_mod32, Fmt.ofCode_mod16, Opnd.of10_okVSrc, Opnd.of10_okVDst, Opnd.of10_okVReg, Dest.of_okVxmov, hw]

theorem vext (g : Guard) (d : Opnd) (a : Opnd) (n : BitVec 10) (t : Fmt) : Statement (.vext g d a n t) := by
  intro hw w he sl hs
  refine decodeWord_of_raw hw he ?_
  have e := Option.some.inj (show some _ = some w from he)
  subst e
  simp [slotsOf] at hs
  simp [Instr.wf, okV3, okV2, okAtom] at hw
  rw [ofNat56]
  generalize hx : word56 _ _ _ _ _ _ = w
  have ho : (fld w 5 8).toNat = 0x21 := by rw [← hx, fld_word56_op]; rfl
  rw [show rawSlot sl = rawV by rcases hs with rfl | rfl <;> rfl]
  show rawV w = _
  unfold rawV
  rw [ho]
  show raw2 w _ = _
  subst hx
  simp (disch := decide) only [fld_word56_op, guardOf_word56, raw3, raw2, rawAB, rawA, rawD, typeOf, destOf, fld_word56_mod, fld_word56_b, fld_word56_a, fld_word56_d, tmod, ex_lo, ex_hi, ex_ext, ex_ext0, ex_self, bit1_beq, Fmt.ofCode_code5, Fmt.ofCode_code4]
  simp [ex_self,  bit1_beq, Fmt.ofCode_mod32, Fmt.ofCode_mod16, Opnd.of10_okVSrc, Opnd.of10_okVDst, Opnd.of10_okVReg, Dest.of_okVxmov, hw]

theorem vins (g : Guard) (d : Opnd) (a : Opnd) (n : BitVec 10) (t : Fmt) : Statement (.vins g d a n t) := by
  intro hw w he sl hs
  refine decodeWord_of_raw hw he ?_
  have e := Option.some.inj (show some _ = some w from he)
  subst e
  simp [slotsOf] at hs
  simp [Instr.wf, okV3, okV2, okAtom] at hw
  rw [ofNat56]
  generalize hx : word56 _ _ _ _ _ _ = w
  have ho : (fld w 5 8).toNat = 0x22 := by rw [← hx, fld_word56_op]; rfl
  rw [show rawSlot sl = rawV by rcases hs with rfl | rfl <;> rfl]
  show rawV w = _
  unfold rawV
  rw [ho]
  show raw2 w _ = _
  subst hx
  simp (disch := decide) only [fld_word56_op, guardOf_word56, raw3, raw2, rawAB, rawA, rawD, typeOf, destOf, fld_word56_mod, fld_word56_b, fld_word56_a, fld_word56_d, tmod, ex_lo, ex_hi, ex_ext, ex_ext0, ex_self, bit1_beq, Fmt.ofCode_code5, Fmt.ofCode_code4]
  simp [ex_self,  bit1_beq, Fmt.ofCode_mod32, Fmt.ofCode_mod16, Opnd.of10_okVSrc, Opnd.of10_okVDst, Opnd.of10_okVReg, Dest.of_okVxmov, hw]

theorem vperm (g : Guard) (d : Opnd) (a : Opnd) (b : Opnd) (t : Fmt) (k : BitVec 4) : Statement (.vperm g d a b t k) := by
  intro hw w he sl hs
  refine decodeWord_of_raw hw he ?_
  have e := Option.some.inj (show some _ = some w from he)
  subst e
  simp [slotsOf] at hs
  simp [Instr.wf, okV3, okV2, okAtom] at hw
  rw [ofNat56]
  generalize hx : word56 _ _ _ _ _ _ = w
  have ho : (fld w 5 8).toNat = 0x23 := by rw [← hx, fld_word56_op]; rfl
  rw [show rawSlot sl = rawV by rcases hs with rfl | rfl <;> rfl]
  show rawV w = _
  unfold rawV
  rw [ho]
  show raw3 w _ = _
  subst hx
  simp (disch := decide) only [fld_word56_op, guardOf_word56, raw3, raw2, rawAB, rawA, rawD, typeOf, destOf, fld_word56_mod, fld_word56_b, fld_word56_a, fld_word56_d, tmod, ex_lo, ex_hi, ex_ext, ex_ext0, ex_self, bit1_beq, Fmt.ofCode_code5, Fmt.ofCode_code4]
  simp [ex_self,  bit1_beq, Fmt.ofCode_mod32, Fmt.ofCode_mod16, Opnd.of10_okVSrc, Opnd.of10_okVDst, Opnd.of10_okVReg, Dest.of_okVxmov, hw]

theorem vrot (g : Guard) (d : Opnd) (a : Opnd) (n : BitVec 10) (t : Fmt) (k : BitVec 4) : Statement (.vrot g d a n t k) := by
  intro hw w he sl hs
  refine decodeWord_of_raw hw he ?_
  have e := Option.some.inj (show some _ = some w from he)
  subst e
  simp [slotsOf] at hs
  simp [Instr.wf, okV3, okV2, okAtom] at hw
  rw [ofNat56]
  generalize hx : word56 _ _ _ _ _ _ = w
  have ho : (fld w 5 8).toNat = 0x24 := by rw [← hx, fld_word56_op]; rfl
  rw [show rawSlot sl = rawV by rcases hs with rfl | rfl <;> rfl]
  show rawV w = _
  unfold rawV
  rw [ho]
  show raw2 w _ = _
  subst hx
  simp (disch := decide) only [fld_word56_op, guardOf_word56, raw3, raw2, rawAB, rawA, rawD, typeOf, destOf, fld_word56_mod, fld_word56_b, fld_word56_a, fld_word56_d, tmod, ex_lo, ex_hi, ex_ext, ex_ext0, ex_self, bit1_beq, Fmt.ofCode_code5, Fmt.ofCode_code4]
  simp [ex_self,  bit1_beq, Fmt.ofCode_mod32, Fmt.ofCode_mod16, Opnd.of10_okVSrc, Opnd.of10_okVDst, Opnd.of10_okVReg, Dest.of_okVxmov, hw]

theorem vslide (g : Guard) (d : Opnd) (a : Opnd) (n : BitVec 7) (dn : Bool) (t : Fmt) (k : BitVec 4) : Statement (.vslide g d a n dn t k) := by
  intro hw w he sl hs
  refine decodeWord_of_raw hw he ?_
  have e := Option.some.inj (show some _ = some w from he)
  subst e
  simp [slotsOf] at hs
  simp [Instr.wf, okV3, okV2, okAtom] at hw
  rw [ofNat56]
  generalize hx : word56 _ _ _ _ _ _ = w
  have ho : (fld w 5 8).toNat = 0x25 := by rw [← hx, fld_word56_op]; rfl
  rw [show rawSlot sl = rawV by rcases hs with rfl | rfl <;> rfl]
  show rawV w = _
  unfold rawV
  rw [ho]
  show raw2 w _ = _
  subst hx
  simp (disch := decide) only [fld_word56_op, guardOf_word56, raw3, raw2, rawAB, rawA, rawD, typeOf, destOf, fld_word56_mod, fld_word56_b, fld_word56_a, fld_word56_d, tmod, ex_lo, ex_hi, ex_ext, ex_ext0, ex_self, bit1_beq, Fmt.ofCode_code5, Fmt.ofCode_code4]
  simp [ex_self,  bit1_beq, Fmt.ofCode_mod32, Fmt.ofCode_mod16, Opnd.of10_okVSrc, Opnd.of10_okVDst, Opnd.of10_okVReg, Dest.of_okVxmov, hw]

theorem vred (g : Guard) (d : Opnd) (a : Opnd) (gs : BitVec 3) (op : BitVec 2) (t : Fmt) : Statement (.vred g d a gs op t) := by
  intro hw w he sl hs
  refine decodeWord_of_raw hw he ?_
  have e := Option.some.inj (show some _ = some w from he)
  subst e
  simp [slotsOf] at hs
  simp [Instr.wf, okV3, okV2, okAtom] at hw
  rw [ofNat56]
  generalize hx : word56 _ _ _ _ _ _ = w
  have ho : (fld w 5 8).toNat = 0x28 := by rw [← hx, fld_word56_op]; rfl
  rw [show rawSlot sl = rawV by rcases hs with rfl | rfl <;> rfl]
  show rawV w = _
  unfold rawV
  rw [ho]
  show raw2 w _ = _
  subst hx
  simp (disch := decide) only [fld_word56_op, guardOf_word56, raw3, raw2, rawAB, rawA, rawD, typeOf, destOf, fld_word56_mod, fld_word56_b, fld_word56_a, fld_word56_d, tmod, ex_lo, ex_hi, ex_ext, ex_ext0, ex_self, bit1_beq, Fmt.ofCode_code5, Fmt.ofCode_code4]
  simp [ex_self,  bit1_beq, Fmt.ofCode_mod32, Fmt.ofCode_mod16, Opnd.of10_okVSrc, Opnd.of10_okVDst, Opnd.of10_okVReg, Dest.of_okVxmov, hw]

theorem vscan (g : Guard) (d : Opnd) (a : Opnd) (gs : BitVec 3) (op : BitVec 2) (t : Fmt) : Statement (.vscan g d a gs op t) := by
  intro hw w he sl hs
  refine decodeWord_of_raw hw he ?_
  have e := Option.some.inj (show some _ = some w from he)
  subst e
  simp [slotsOf] at hs
  simp [Instr.wf, okV3, okV2, okAtom] at hw
  rw [ofNat56]
  generalize hx : word56 _ _ _ _ _ _ = w
  have ho : (fld w 5 8).toNat = 0x29 := by rw [← hx, fld_word56_op]; rfl
  rw [show rawSlot sl = rawV by rcases hs with rfl | rfl <;> rfl]
  show rawV w = _
  unfold rawV
  rw [ho]
  show raw2 w _ = _
  subst hx
  simp (disch := decide) only [fld_word56_op, guardOf_word56, raw3, raw2, rawAB, rawA, rawD, typeOf, destOf, fld_word56_mod, fld_word56_b, fld_word56_a, fld_word56_d, tmod, ex_lo, ex_hi, ex_ext, ex_ext0, ex_self, bit1_beq, Fmt.ofCode_code5, Fmt.ofCode_code4]
  simp [ex_self,  bit1_beq, Fmt.ofCode_mod32, Fmt.ofCode_mod16, Opnd.of10_okVSrc, Opnd.of10_okVDst, Opnd.of10_okVReg, Dest.of_okVxmov, hw]

theorem vpack (g : Guard) (d : Opnd) (a : Opnd) (b : Opnd) (t : Fmt) (wr : Bool) : Statement (.vpack g d a b t wr) := by
  intro hw w he sl hs
  refine decodeWord_of_raw hw he ?_
  have e := Option.some.inj (show some _ = some w from he)
  subst e
  simp [slotsOf] at hs
  simp [Instr.wf, okV3, okV2, okAtom] at hw
  rw [ofNat56]
  generalize hx : word56 _ _ _ _ _ _ = w
  have ho : (fld w 5 8).toNat = 0x2A := by rw [← hx, fld_word56_op]; rfl
  rw [show rawSlot sl = rawV by rcases hs with rfl | rfl <;> rfl]
  show rawV w = _
  unfold rawV
  rw [ho]
  show raw3 w _ = _
  subst hx
  simp (disch := decide) only [fld_word56_op, guardOf_word56, raw3, raw2, rawAB, rawA, rawD, typeOf, destOf, fld_word56_mod, fld_word56_b, fld_word56_a, fld_word56_d, tmod, ex_lo, ex_hi, ex_ext, ex_ext0, ex_self, bit1_beq, Fmt.ofCode_code5, Fmt.ofCode_code4]
  simp [ex_self,  bit1_beq, Fmt.ofCode_mod32, Fmt.ofCode_mod16, Opnd.of10_okVSrc, Opnd.of10_okVDst, Opnd.of10_okVReg, Dest.of_okVxmov, hw]

theorem vunpk (g : Guard) (d : Opnd) (a : Opnd) (t : Fmt) (hi : Bool) : Statement (.vunpk g d a t hi) := by
  intro hw w he sl hs
  refine decodeWord_of_raw hw he ?_
  have e := Option.some.inj (show some _ = some w from he)
  subst e
  simp [slotsOf] at hs
  simp [Instr.wf, okV3, okV2, okAtom] at hw
  rw [ofNat56]
  generalize hx : word56 _ _ _ _ _ _ = w
  have ho : (fld w 5 8).toNat = 0x2B := by rw [← hx, fld_word56_op]; rfl
  rw [show rawSlot sl = rawV by rcases hs with rfl | rfl <;> rfl]
  show rawV w = _
  unfold rawV
  rw [ho]
  show raw2 w _ = _
  subst hx
  simp (disch := decide) only [fld_word56_op, guardOf_word56, raw3, raw2, rawAB, rawA, rawD, typeOf, destOf, fld_word56_mod, fld_word56_b, fld_word56_a, fld_word56_d, tmod, ex_lo, ex_hi, ex_ext, ex_ext0, ex_self, bit1_beq, Fmt.ofCode_code5, Fmt.ofCode_code4]
  simp [ex_self,  bit1_beq, Fmt.ofCode_mod32, Fmt.ofCode_mod16, Opnd.of10_okVSrc, Opnd.of10_okVDst, Opnd.of10_okVReg, Dest.of_okVxmov, hw]

theorem vfadd (g : Guard) (d : Opnd) (a : Opnd) (b : Opnd) (t : Fmt) (k : BitVec 4) : Statement (.vfadd g d a b t k) := by
  intro hw w he sl hs
  refine decodeWord_of_raw hw he ?_
  have e := Option.some.inj (show some _ = some w from he)
  subst e
  simp [slotsOf] at hs
  simp [Instr.wf, okV3, okV2, okAtom] at hw
  rw [ofNat56]
  generalize hx : word56 _ _ _ _ _ _ = w
  have ho : (fld w 5 8).toNat = 0x30 := by rw [← hx, fld_word56_op]; rfl
  rw [show rawSlot sl = rawV by rcases hs with rfl | rfl <;> rfl]
  show rawV w = _
  unfold rawV
  rw [ho]
  show raw3 w _ = _
  subst hx
  simp (disch := decide) only [fld_word56_op, guardOf_word56, raw3, raw2, rawAB, rawA, rawD, typeOf, destOf, fld_word56_mod, fld_word56_b, fld_word56_a, fld_word56_d, tmod, ex_lo, ex_hi, ex_ext, ex_ext0, ex_self, bit1_beq, Fmt.ofCode_code5, Fmt.ofCode_code4]
  simp [ex_self,  bit1_beq, Fmt.ofCode_mod32, Fmt.ofCode_mod16, Opnd.of10_okVSrc, Opnd.of10_okVDst, Opnd.of10_okVReg, Dest.of_okVxmov, hw]

theorem vfsub (g : Guard) (d : Opnd) (a : Opnd) (b : Opnd) (t : Fmt) (k : BitVec 4) : Statement (.vfsub g d a b t k) := by
  intro hw w he sl hs
  refine decodeWord_of_raw hw he ?_
  have e := Option.some.inj (show some _ = some w from he)
  subst e
  simp [slotsOf] at hs
  simp [Instr.wf, okV3, okV2, okAtom] at hw
  rw [ofNat56]
  generalize hx : word56 _ _ _ _ _ _ = w
  have ho : (fld w 5 8).toNat = 0x31 := by rw [← hx, fld_word56_op]; rfl
  rw [show rawSlot sl = rawV by rcases hs with rfl | rfl <;> rfl]
  show rawV w = _
  unfold rawV
  rw [ho]
  show raw3 w _ = _
  subst hx
  simp (disch := decide) only [fld_word56_op, guardOf_word56, raw3, raw2, rawAB, rawA, rawD, typeOf, destOf, fld_word56_mod, fld_word56_b, fld_word56_a, fld_word56_d, tmod, ex_lo, ex_hi, ex_ext, ex_ext0, ex_self, bit1_beq, Fmt.ofCode_code5, Fmt.ofCode_code4]
  simp [ex_self,  bit1_beq, Fmt.ofCode_mod32, Fmt.ofCode_mod16, Opnd.of10_okVSrc, Opnd.of10_okVDst, Opnd.of10_okVReg, Dest.of_okVxmov, hw]

theorem vfmul (g : Guard) (d : Opnd) (a : Opnd) (b : Opnd) (t : Fmt) (k : BitVec 4) : Statement (.vfmul g d a b t k) := by
  intro hw w he sl hs
  refine decodeWord_of_raw hw he ?_
  have e := Option.some.inj (show some _ = some w from he)
  subst e
  simp [slotsOf] at hs
  simp [Instr.wf, okV3, okV2, okAtom] at hw
  rw [ofNat56]
  generalize hx : word56 _ _ _ _ _ _ = w
  have ho : (fld w 5 8).toNat = 0x32 := by rw [← hx, fld_word56_op]; rfl
  rw [show rawSlot sl = rawV by rcases hs with rfl | rfl <;> rfl]
  show rawV w = _
  unfold rawV
  rw [ho]
  show raw3 w _ = _
  subst hx
  simp (disch := decide) only [fld_word56_op, guardOf_word56, raw3, raw2, rawAB, rawA, rawD, typeOf, destOf, fld_word56_mod, fld_word56_b, fld_word56_a, fld_word56_d, tmod, ex_lo, ex_hi, ex_ext, ex_ext0, ex_self, bit1_beq, Fmt.ofCode_code5, Fmt.ofCode_code4]
  simp [ex_self,  bit1_beq, Fmt.ofCode_mod32, Fmt.ofCode_mod16, Opnd.of10_okVSrc, Opnd.of10_okVDst, Opnd.of10_okVReg, Dest.of_okVxmov, hw]

theorem vfma (g : Guard) (d : Opnd) (a : Opnd) (b : Opnd) (t : Fmt) (k : BitVec 4) : Statement (.vfma g d a b t k) := by
  intro hw w he sl hs
  refine decodeWord_of_raw hw he ?_
  have e := Option.some.inj (show some _ = some w from he)
  subst e
  simp [slotsOf] at hs
  simp [Instr.wf, okV3, okV2, okAtom] at hw
  rw [ofNat56]
  generalize hx : word56 _ _ _ _ _ _ = w
  have ho : (fld w 5 8).toNat = 0x33 := by rw [← hx, fld_word56_op]; rfl
  rw [show rawSlot sl = rawV by rcases hs with rfl | rfl <;> rfl]
  show rawV w = _
  unfold rawV
  rw [ho]
  show raw3 w _ = _
  subst hx
  simp (disch := decide) only [fld_word56_op, guardOf_word56, raw3, raw2, rawAB, rawA, rawD, typeOf, destOf, fld_word56_mod, fld_word56_b, fld_word56_a, fld_word56_d, tmod, ex_lo, ex_hi, ex_ext, ex_ext0, ex_self, bit1_beq, Fmt.ofCode_code5, Fmt.ofCode_code4]
  simp [ex_self,  bit1_beq, Fmt.ofCode_mod32, Fmt.ofCode_mod16, Opnd.of10_okVSrc, Opnd.of10_okVDst, Opnd.of10_okVReg, Dest.of_okVxmov, hw]

theorem vfms (g : Guard) (d : Opnd) (a : Opnd) (b : Opnd) (t : Fmt) (k : BitVec 4) : Statement (.vfms g d a b t k) := by
  intro hw w he sl hs
  refine decodeWord_of_raw hw he ?_
  have e := Option.some.inj (show some _ = some w from he)
  subst e
  simp [slotsOf] at hs
  simp [Instr.wf, okV3, okV2, okAtom] at hw
  rw [ofNat56]
  generalize hx : word56 _ _ _ _ _ _ = w
  have ho : (fld w 5 8).toNat = 0x34 := by rw [← hx, fld_word56_op]; rfl
  rw [show rawSlot sl = rawV by rcases hs with rfl | rfl <;> rfl]
  show rawV w = _
  unfold rawV
  rw [ho]
  show raw3 w _ = _
  subst hx
  simp (disch := decide) only [fld_word56_op, guardOf_word56, raw3, raw2, rawAB, rawA, rawD, typeOf, destOf, fld_word56_mod, fld_word56_b, fld_word56_a, fld_word56_d, tmod, ex_lo, ex_hi, ex_ext, ex_ext0, ex_self, bit1_beq, Fmt.ofCode_code5, Fmt.ofCode_code4]
  simp [ex_self,  bit1_beq, Fmt.ofCode_mod32, Fmt.ofCode_mod16, Opnd.of10_okVSrc, Opnd.of10_okVDst, Opnd.of10_okVReg, Dest.of_okVxmov, hw]

theorem vfmin (g : Guard) (d : Opnd) (a : Opnd) (b : Opnd) (t : Fmt) (k : BitVec 4) : Statement (.vfmin g d a b t k) := by
  intro hw w he sl hs
  refine decodeWord_of_raw hw he ?_
  have e := Option.some.inj (show some _ = some w from he)
  subst e
  simp [slotsOf] at hs
  simp [Instr.wf, okV3, okV2, okAtom] at hw
  rw [ofNat56]
  generalize hx : word56 _ _ _ _ _ _ = w
  have ho : (fld w 5 8).toNat = 0x35 := by rw [← hx, fld_word56_op]; rfl
  rw [show rawSlot sl = rawV by rcases hs with rfl | rfl <;> rfl]
  show rawV w = _
  unfold rawV
  rw [ho]
  show raw3 w _ = _
  subst hx
  simp (disch := decide) only [fld_word56_op, guardOf_word56, raw3, raw2, rawAB, rawA, rawD, typeOf, destOf, fld_word56_mod, fld_word56_b, fld_word56_a, fld_word56_d, tmod, ex_lo, ex_hi, ex_ext, ex_ext0, ex_self, bit1_beq, Fmt.ofCode_code5, Fmt.ofCode_code4]
  simp [ex_self,  bit1_beq, Fmt.ofCode_mod32, Fmt.ofCode_mod16, Opnd.of10_okVSrc, Opnd.of10_okVDst, Opnd.of10_okVReg, Dest.of_okVxmov, hw]

theorem vfmax (g : Guard) (d : Opnd) (a : Opnd) (b : Opnd) (t : Fmt) (k : BitVec 4) : Statement (.vfmax g d a b t k) := by
  intro hw w he sl hs
  refine decodeWord_of_raw hw he ?_
  have e := Option.some.inj (show some _ = some w from he)
  subst e
  simp [slotsOf] at hs
  simp [Instr.wf, okV3, okV2, okAtom] at hw
  rw [ofNat56]
  generalize hx : word56 _ _ _ _ _ _ = w
  have ho : (fld w 5 8).toNat = 0x36 := by rw [← hx, fld_word56_op]; rfl
  rw [show rawSlot sl = rawV by rcases hs with rfl | rfl <;> rfl]
  show rawV w = _
  unfold rawV
  rw [ho]
  show raw3 w _ = _
  subst hx
  simp (disch := decide) only [fld_word56_op, guardOf_word56, raw3, raw2, rawAB, rawA, rawD, typeOf, destOf, fld_word56_mod, fld_word56_b, fld_word56_a, fld_word56_d, tmod, ex_lo, ex_hi, ex_ext, ex_ext0, ex_self, bit1_beq, Fmt.ofCode_code5, Fmt.ofCode_code4]
  simp [ex_self,  bit1_beq, Fmt.ofCode_mod32, Fmt.ofCode_mod16, Opnd.of10_okVSrc, Opnd.of10_okVDst, Opnd.of10_okVReg, Dest.of_okVxmov, hw]

theorem vfcmp (g : Guard) (kd : BitVec 4) (a : Opnd) (b : Opnd) (t : Fmt) (cc : BitVec 4) : Statement (.vfcmp g kd a b t cc) := by
  intro hw w he sl hs
  refine decodeWord_of_raw hw he ?_
  have e := Option.some.inj (show some _ = some w from he)
  subst e
  simp [slotsOf] at hs
  simp [Instr.wf, okV3, okV2, okAtom] at hw
  rw [ofNat56]
  generalize hx : word56 _ _ _ _ _ _ = w
  have ho : (fld w 5 8).toNat = 0x37 := by rw [← hx, fld_word56_op]; rfl
  rw [show rawSlot sl = rawV by rcases hs with rfl | rfl <;> rfl]
  show rawV w = _
  unfold rawV
  rw [ho]
  show rawAB w _ = _
  subst hx
  simp (disch := decide) only [fld_word56_op, guardOf_word56, raw3, raw2, rawAB, rawA, rawD, typeOf, destOf, fld_word56_mod, fld_word56_b, fld_word56_a, fld_word56_d, tmod, ex_lo, ex_hi, ex_ext, ex_ext0, ex_self, bit1_beq, Fmt.ofCode_code5, Fmt.ofCode_code4]
  simp [ex_self,  bit1_beq, Fmt.ofCode_mod32, Fmt.ofCode_mod16, Opnd.of10_okVSrc, Opnd.of10_okVDst, Opnd.of10_okVReg, Dest.of_okVxmov, hw]

theorem vfabs (g : Guard) (d : Opnd) (a : Opnd) (t : Fmt) (k : BitVec 4) : Statement (.vfabs g d a t k) := by
  intro hw w he sl hs
  refine decodeWord_of_raw hw he ?_
  have e := Option.some.inj (show some _ = some w from he)
  subst e
  simp [slotsOf] at hs
  simp [Instr.wf, okV3, okV2, okAtom] at hw
  rw [ofNat56]
  generalize hx : word56 _ _ _ _ _ _ = w
  have ho : (fld w 5 8).toNat = 0x38 := by rw [← hx, fld_word56_op]; rfl
  rw [show rawSlot sl = rawV by rcases hs with rfl | rfl <;> rfl]
  show rawV w = _
  unfold rawV
  rw [ho]
  show raw2 w _ = _
  subst hx
  simp (disch := decide) only [fld_word56_op, guardOf_word56, raw3, raw2, rawAB, rawA, rawD, typeOf, destOf, fld_word56_mod, fld_word56_b, fld_word56_a, fld_word56_d, tmod, ex_lo, ex_hi, ex_ext, ex_ext0, ex_self, bit1_beq, Fmt.ofCode_code5, Fmt.ofCode_code4]
  simp [ex_self,  bit1_beq, Fmt.ofCode_mod32, Fmt.ofCode_mod16, Opnd.of10_okVSrc, Opnd.of10_okVDst, Opnd.of10_okVReg, Dest.of_okVxmov, hw]

theorem vfneg (g : Guard) (d : Opnd) (a : Opnd) (t : Fmt) (k : BitVec 4) : Statement (.vfneg g d a t k) := by
  intro hw w he sl hs
  refine decodeWord_of_raw hw he ?_
  have e := Option.some.inj (show some _ = some w from he)
  subst e
  simp [slotsOf] at hs
  simp [Instr.wf, okV3, okV2, okAtom] at hw
  rw [ofNat56]
  generalize hx : word56 _ _ _ _ _ _ = w
  have ho : (fld w 5 8).toNat = 0x39 := by rw [← hx, fld_word56_op]; rfl
  rw [show rawSlot sl = rawV by rcases hs with rfl | rfl <;> rfl]
  show rawV w = _
  unfold rawV
  rw [ho]
  show raw2 w _ = _
  subst hx
  simp (disch := decide) only [fld_word56_op, guardOf_word56, raw3, raw2, rawAB, rawA, rawD, typeOf, destOf, fld_word56_mod, fld_word56_b, fld_word56_a, fld_word56_d, tmod, ex_lo, ex_hi, ex_ext, ex_ext0, ex_self, bit1_beq, Fmt.ofCode_code5, Fmt.ofCode_code4]
  simp [ex_self,  bit1_beq, Fmt.ofCode_mod32, Fmt.ofCode_mod16, Opnd.of10_okVSrc, Opnd.of10_okVDst, Opnd.of10_okVReg, Dest.of_okVxmov, hw]

theorem vfsgn (g : Guard) (d : Opnd) (a : Opnd) (b : Opnd) (t : Fmt) (k : BitVec 4) : Statement (.vfsgn g d a b t k) := by
  intro hw w he sl hs
  refine decodeWord_of_raw hw he ?_
  have e := Option.some.inj (show some _ = some w from he)
  subst e
  simp [slotsOf] at hs
  simp [Instr.wf, okV3, okV2, okAtom] at hw
  rw [ofNat56]
  generalize hx : word56 _ _ _ _ _ _ = w
  have ho : (fld w 5 8).toNat = 0x3A := by rw [← hx, fld_word56_op]; rfl
  rw [show rawSlot sl = rawV by rcases hs with rfl | rfl <;> rfl]
  show rawV w = _
  unfold rawV
  rw [ho]
  show raw3 w _ = _
  subst hx
  simp (disch := decide) only [fld_word56_op, guardOf_word56, raw3, raw2, rawAB, rawA, rawD, typeOf, destOf, fld_word56_mod, fld_word56_b, fld_word56_a, fld_word56_d, tmod, ex_lo, ex_hi, ex_ext, ex_ext0, ex_self, bit1_beq, Fmt.ofCode_code5, Fmt.ofCode_code4]
  simp [ex_self,  bit1_beq, Fmt.ofCode_mod32, Fmt.ofCode_mod16, Opnd.of10_okVSrc, Opnd.of10_okVDst, Opnd.of10_okVReg, Dest.of_okVxmov, hw]

theorem vfred (g : Guard) (d : Opnd) (a : Opnd) (gs : BitVec 3) (op : BitVec 2) (t : Fmt) : Statement (.vfred g d a gs op t) := by
  intro hw w he sl hs
  refine decodeWord_of_raw hw he ?_
  have e := Option.some.inj (show some _ = some w from he)
  subst e
  simp [slotsOf] at hs
  simp [Instr.wf, okV3, okV2, okAtom] at hw
  rw [ofNat56]
  generalize hx : word56 _ _ _ _ _ _ = w
  have ho : (fld w 5 8).toNat = 0x3B := by rw [← hx, fld_word56_op]; rfl
  rw [show rawSlot sl = rawV by rcases hs with rfl | rfl <;> rfl]
  show rawV w = _
  unfold rawV
  rw [ho]
  show raw2 w _ = _
  subst hx
  simp (disch := decide) only [fld_word56_op, guardOf_word56, raw3, raw2, rawAB, rawA, rawD, typeOf, destOf, fld_word56_mod, fld_word56_b, fld_word56_a, fld_word56_d, tmod, ex_lo, ex_hi, ex_ext, ex_ext0, ex_self, bit1_beq, Fmt.ofCode_code5, Fmt.ofCode_code4]
  simp [ex_self,  bit1_beq, Fmt.ofCode_mod32, Fmt.ofCode_mod16, Opnd.of10_okVSrc, Opnd.of10_okVDst, Opnd.of10_okVReg, Dest.of_okVxmov, hw]

theorem vrcp (g : Guard) (d : Opnd) (a : Opnd) (t : Fmt) (k : BitVec 4) : Statement (.vrcp g d a t k) := by
  intro hw w he sl hs
  refine decodeWord_of_raw hw he ?_
  have e := Option.some.inj (show some _ = some w from he)
  subst e
  simp [slotsOf] at hs
  simp [Instr.wf, okV3, okV2, okAtom] at hw
  rw [ofNat56]
  generalize hx : word56 _ _ _ _ _ _ = w
  have ho : (fld w 5 8).toNat = 0x40 := by rw [← hx, fld_word56_op]; rfl
  rw [show rawSlot sl = rawV by rcases hs with rfl | rfl <;> rfl]
  show rawV w = _
  unfold rawV
  rw [ho]
  show raw2 w _ = _
  subst hx
  simp (disch := decide) only [fld_word56_op, guardOf_word56, raw3, raw2, rawAB, rawA, rawD, typeOf, destOf, fld_word56_mod, fld_word56_b, fld_word56_a, fld_word56_d, tmod, ex_lo, ex_hi, ex_ext, ex_ext0, ex_self, bit1_beq, Fmt.ofCode_code5, Fmt.ofCode_code4]
  simp [ex_self,  bit1_beq, Fmt.ofCode_mod32, Fmt.ofCode_mod16, Opnd.of10_okVSrc, Opnd.of10_okVDst, Opnd.of10_okVReg, Dest.of_okVxmov, hw]

theorem vrsq (g : Guard) (d : Opnd) (a : Opnd) (t : Fmt) (k : BitVec 4) : Statement (.vrsq g d a t k) := by
  intro hw w he sl hs
  refine decodeWord_of_raw hw he ?_
  have e := Option.some.inj (show some _ = some w from he)
  subst e
  simp [slotsOf] at hs
  simp [Instr.wf, okV3, okV2, okAtom] at hw
  rw [ofNat56]
  generalize hx : word56 _ _ _ _ _ _ = w
  have ho : (fld w 5 8).toNat = 0x41 := by rw [← hx, fld_word56_op]; rfl
  rw [show rawSlot sl = rawV by rcases hs with rfl | rfl <;> rfl]
  show rawV w = _
  unfold rawV
  rw [ho]
  show raw2 w _ = _
  subst hx
  simp (disch := decide) only [fld_word56_op, guardOf_word56, raw3, raw2, rawAB, rawA, rawD, typeOf, destOf, fld_word56_mod, fld_word56_b, fld_word56_a, fld_word56_d, tmod, ex_lo, ex_hi, ex_ext, ex_ext0, ex_self, bit1_beq, Fmt.ofCode_code5, Fmt.ofCode_code4]
  simp [ex_self,  bit1_beq, Fmt.ofCode_mod32, Fmt.ofCode_mod16, Opnd.of10_okVSrc, Opnd.of10_okVDst, Opnd.of10_okVReg, Dest.of_okVxmov, hw]

theorem vexp2 (g : Guard) (d : Opnd) (a : Opnd) (t : Fmt) (k : BitVec 4) : Statement (.vexp2 g d a t k) := by
  intro hw w he sl hs
  refine decodeWord_of_raw hw he ?_
  have e := Option.some.inj (show some _ = some w from he)
  subst e
  simp [slotsOf] at hs
  simp [Instr.wf, okV3, okV2, okAtom] at hw
  rw [ofNat56]
  generalize hx : word56 _ _ _ _ _ _ = w
  have ho : (fld w 5 8).toNat = 0x42 := by rw [← hx, fld_word56_op]; rfl
  rw [show rawSlot sl = rawV by rcases hs with rfl | rfl <;> rfl]
  show rawV w = _
  unfold rawV
  rw [ho]
  show raw2 w _ = _
  subst hx
  simp (disch := decide) only [fld_word56_op, guardOf_word56, raw3, raw2, rawAB, rawA, rawD, typeOf, destOf, fld_word56_mod, fld_word56_b, fld_word56_a, fld_word56_d, tmod, ex_lo, ex_hi, ex_ext, ex_ext0, ex_self, bit1_beq, Fmt.ofCode_code5, Fmt.ofCode_code4]
  simp [ex_self,  bit1_beq, Fmt.ofCode_mod32, Fmt.ofCode_mod16, Opnd.of10_okVSrc, Opnd.of10_okVDst, Opnd.of10_okVReg, Dest.of_okVxmov, hw]

theorem vlog2 (g : Guard) (d : Opnd) (a : Opnd) (t : Fmt) (k : BitVec 4) : Statement (.vlog2 g d a t k) := by
  intro hw w he sl hs
  refine decodeWord_of_raw hw he ?_
  have e := Option.some.inj (show some _ = some w from he)
  subst e
  simp [slotsOf] at hs
  simp [Instr.wf, okV3, okV2, okAtom] at hw
  rw [ofNat56]
  generalize hx : word56 _ _ _ _ _ _ = w
  have ho : (fld w 5 8).toNat = 0x43 := by rw [← hx, fld_word56_op]; rfl
  rw [show rawSlot sl = rawV by rcases hs with rfl | rfl <;> rfl]
  show rawV w = _
  unfold rawV
  rw [ho]
  show raw2 w _ = _
  subst hx
  simp (disch := decide) only [fld_word56_op, guardOf_word56, raw3, raw2, rawAB, rawA, rawD, typeOf, destOf, fld_word56_mod, fld_word56_b, fld_word56_a, fld_word56_d, tmod, ex_lo, ex_hi, ex_ext, ex_ext0, ex_self, bit1_beq, Fmt.ofCode_code5, Fmt.ofCode_code4]
  simp [ex_self,  bit1_beq, Fmt.ofCode_mod32, Fmt.ofCode_mod16, Opnd.of10_okVSrc, Opnd.of10_okVDst, Opnd.of10_okVReg, Dest.of_okVxmov, hw]

theorem vicvt (g : Guard) (d : Opnd) (a : Opnd) (t : Fmt) (k : BitVec 4) : Statement (.vicvt g d a t k) := by
  intro hw w he sl hs
  refine decodeWord_of_raw hw he ?_
  have e := Option.some.inj (show some _ = some w from he)
  subst e
  simp [slotsOf] at hs
  simp [Instr.wf, okV3, okV2, okAtom] at hw
  rw [ofNat56]
  generalize hx : word56 _ _ _ _ _ _ = w
  have ho : (fld w 5 8).toNat = 0x48 := by rw [← hx, fld_word56_op]; rfl
  rw [show rawSlot sl = rawV by rcases hs with rfl | rfl <;> rfl]
  show rawV w = _
  unfold rawV
  rw [ho]
  show raw2 w _ = _
  subst hx
  simp (disch := decide) only [fld_word56_op, guardOf_word56, raw3, raw2, rawAB, rawA, rawD, typeOf, destOf, fld_word56_mod, fld_word56_b, fld_word56_a, fld_word56_d, tmod, ex_lo, ex_hi, ex_ext, ex_ext0, ex_self, bit1_beq, Fmt.ofCode_code5, Fmt.ofCode_code4]
  simp [ex_self,  bit1_beq, Fmt.ofCode_mod32, Fmt.ofCode_mod16, Opnd.of10_okVSrc, Opnd.of10_okVDst, Opnd.of10_okVReg, Dest.of_okVxmov, hw]

theorem vfcvt (g : Guard) (d : Opnd) (a : Opnd) (t : Fmt) (k : BitVec 4) : Statement (.vfcvt g d a t k) := by
  intro hw w he sl hs
  refine decodeWord_of_raw hw he ?_
  have e := Option.some.inj (show some _ = some w from he)
  subst e
  simp [slotsOf] at hs
  simp [Instr.wf, okV3, okV2, okAtom] at hw
  rw [ofNat56]
  generalize hx : word56 _ _ _ _ _ _ = w
  have ho : (fld w 5 8).toNat = 0x49 := by rw [← hx, fld_word56_op]; rfl
  rw [show rawSlot sl = rawV by rcases hs with rfl | rfl <;> rfl]
  show rawV w = _
  unfold rawV
  rw [ho]
  show raw2 w _ = _
  subst hx
  simp (disch := decide) only [fld_word56_op, guardOf_word56, raw3, raw2, rawAB, rawA, rawD, typeOf, destOf, fld_word56_mod, fld_word56_b, fld_word56_a, fld_word56_d, tmod, ex_lo, ex_hi, ex_ext, ex_ext0, ex_self, bit1_beq, Fmt.ofCode_code5, Fmt.ofCode_code4]
  simp [ex_self,  bit1_beq, Fmt.ofCode_mod32, Fmt.ofCode_mod16, Opnd.of10_okVSrc, Opnd.of10_okVDst, Opnd.of10_okVReg, Dest.of_okVxmov, hw]

theorem vxmov (g : Guard) (dst : Dest) (a : Opnd) (lane : BitVec 3) : Statement (.vxmov g dst a lane) := by
  intro hw w he sl hs
  refine decodeWord_of_raw hw he ?_
  have e := Option.some.inj (show some _ = some w from he)
  subst e
  simp [slotsOf] at hs
  simp [Instr.wf, okV3, okV2, okAtom] at hw
  have hd := Dest.of_okVxmov hw.2
  rw [ofNat56]
  generalize hx : word56 _ _ _ _ _ _ = w
  have ho : (fld w 5 8).toNat = 0x70 := by rw [← hx, fld_word56_op]; rfl
  rw [show rawSlot sl = rawV by rcases hs with rfl | rfl <;> rfl]
  show rawV w = _
  unfold rawV
  rw [ho]
  show rawA w _ = _
  subst hx
  simp (disch := decide) only [fld_word56_op, guardOf_word56, raw3, raw2, rawAB, rawA, rawD, typeOf, destOf, fld_word56_mod, fld_word56_b, fld_word56_a, fld_word56_d, tmod, ex_lo, ex_hi, ex_ext, ex_ext0, ex_self, bit1_beq, Fmt.ofCode_code5, Fmt.ofCode_code4]
  simp [ex_self,  bit1_beq, Fmt.ofCode_mod32, Fmt.ofCode_mod16, hd, Opnd.of10_okVSrc, Opnd.of10_okVDst, Opnd.of10_okVReg, Dest.of_okVxmov, hw]

theorem mclr (g : Guard) (acc : BitVec 5) : Statement (.mclr g acc) := by
  intro hw w he sl hs
  refine decodeWord_of_raw hw he ?_
  have e := Option.some.inj (show some _ = some w from he)
  subst e
  simp [slotsOf] at hs
  simp [Instr.wf, okV3, okV2, okAtom] at hw
  rw [ofNat48]
  generalize hx : (word48 _ _ _).setWidth 56 = w
  have ho : (fld w 5 7).toNat = 0x01 := by rw [← hx, fld_word48_op]; rfl
  subst hs
  show rawM w = _
  unfold rawM
  rw [ho]
  show (some (.mclr (guardOf w) (fld w 12 5)) : Option Instr) = _
  subst hx
  simp (disch := decide) only [fld_word48_op, guardOf_word48, fld_word48_ops, ex_lo, ex_hi, ex_ext, ex_ext0, ex_self, bit1_beq, Fmt.ofCode_code5, Fmt.ofCode_code4]
  simp [ex_self,  bit1_beq, Fmt.ofCode_mod32, Fmt.ofCode_mod16, hw]

theorem mmac (g : Guard) (acc : BitVec 5) (q : BitVec 5) (af : Fmt) (bf : Fmt) (kn : BitVec 7) (lm : BitVec 3) (adv : Bool) : Statement (.mmac g acc q af bf kn lm adv) := by
  intro hw w he sl hs
  refine decodeWord_of_raw hw he ?_
  have e := Option.some.inj (show some _ = some w from he)
  subst e
  simp [slotsOf] at hs
  simp [Instr.wf, okV3, okV2, okAtom] at hw
  rw [ofNat48]
  generalize hx : (word48 _ _ _).setWidth 56 = w
  have ho : (fld w 5 7).toNat = 0x02 := by rw [← hx, fld_word48_op]; rfl
  subst hs
  show rawM w = _
  unfold rawM
  rw [ho]
  show (do some (.mmac (guardOf w) (fld w 12 5) (fld w 17 5) (← Fmt.ofCode (fld w 22 4).toNat) (← Fmt.ofCode (fld w 26 4).toNat) (fld w 30 7) (fld w 37 3) (fld w 40 1 == 1)) : Option Instr) = _
  subst hx
  simp (disch := decide) only [fld_word48_op, guardOf_word48, fld_word48_ops, ex_lo, ex_hi, ex_ext, ex_ext0, ex_self, bit1_beq, Fmt.ofCode_code5, Fmt.ofCode_code4]
  simp [ex_self,  bit1_beq, Fmt.ofCode_mod32, Fmt.ofCode_mod16, hw]

theorem mmacs (g : Guard) (acc : BitVec 5) (q : BitVec 5) (af : Fmt) (bf : Fmt) (kn : BitVec 7) (lm : BitVec 3) (km : BitVec 3) (adv : Bool) : Statement (.mmacs g acc q af bf kn lm km adv) := by
  intro hw w he sl hs
  refine decodeWord_of_raw hw he ?_
  have e := Option.some.inj (show some _ = some w from he)
  subst e
  simp [slotsOf] at hs
  simp [Instr.wf, okV3, okV2, okAtom] at hw
  rw [ofNat48]
  generalize hx : (word48 _ _ _).setWidth 56 = w
  have ho : (fld w 5 7).toNat = 0x03 := by rw [← hx, fld_word48_op]; rfl
  subst hs
  show rawM w = _
  unfold rawM
  rw [ho]
  show (do some (.mmacs (guardOf w) (fld w 12 5) (fld w 17 5) (← Fmt.ofCode (fld w 22 4).toNat) (← Fmt.ofCode (fld w 26 4).toNat) (fld w 30 7) (fld w 37 3) (fld w 41 3) (fld w 40 1 == 1)) : Option Instr) = _
  subst hx
  simp (disch := decide) only [fld_word48_op, guardOf_word48, fld_word48_ops, ex_lo, ex_hi, ex_ext, ex_ext0, ex_self, bit1_beq, Fmt.ofCode_code5, Fmt.ofCode_code4]
  simp [ex_self,  bit1_beq, Fmt.ofCode_mod32, Fmt.ofCode_mod16, hw]

theorem mdrain (g : Guard) (dq : BitVec 2) (acc : BitVec 5) (rs : BitVec 7) (nr1 : BitVec 4) (fo : Fmt) (cl : Bool) : Statement (.mdrain g dq acc rs nr1 fo cl) := by
  intro hw w he sl hs
  refine decodeWord_of_raw hw he ?_
  have e := Option.some.inj (show some _ = some w from he)
  subst e
  simp [slotsOf] at hs
  simp [Instr.wf, okV3, okV2, okAtom] at hw
  rw [ofNat48]
  generalize hx : (word48 _ _ _).setWidth 56 = w
  have ho : (fld w 5 7).toNat = 0x04 := by rw [← hx, fld_word48_op]; rfl
  subst hs
  show rawM w = _
  unfold rawM
  rw [ho]
  show (do some (.mdrain (guardOf w) (fld w 17 2) (fld w 12 5) (fld w 23 7) (fld w 30 4) (← Fmt.ofCode (fld w 19 4).toNat) (fld w 34 1 == 1)) : Option Instr) = _
  subst hx
  simp (disch := decide) only [fld_word48_op, guardOf_word48, fld_word48_ops, ex_lo, ex_hi, ex_ext, ex_ext0, ex_self, bit1_beq, Fmt.ofCode_code5, Fmt.ofCode_code4]
  simp [ex_self,  bit1_beq, Fmt.ofCode_mod32, Fmt.ofCode_mod16, hw]

theorem mlar (g : Guard) (q : BitVec 5) (kn : BitVec 7) (lm : BitVec 3) (adv : BitVec 2) : Statement (.mlar g q kn lm adv) := by
  intro hw w he sl hs
  refine decodeWord_of_raw hw he ?_
  have e := Option.some.inj (show some _ = some w from he)
  subst e
  simp [slotsOf] at hs
  simp [Instr.wf, okV3, okV2, okAtom] at hw
  rw [ofNat48]
  generalize hx : (word48 _ _ _).setWidth 56 = w
  have ho : (fld w 5 7).toNat = 0x05 := by rw [← hx, fld_word48_op]; rfl
  subst hs
  show rawM w = _
  unfold rawM
  rw [ho]
  show (some (.mlar (guardOf w) (fld w 12 5) (fld w 17 7) (fld w 24 3) (fld w 27 2)) : Option Instr) = _
  subst hx
  simp (disch := decide) only [fld_word48_op, guardOf_word48, fld_word48_ops, ex_lo, ex_hi, ex_ext, ex_ext0, ex_self, bit1_beq, Fmt.ofCode_code5, Fmt.ofCode_code4]
  simp [ex_self,  bit1_beq, Fmt.ofCode_mod32, Fmt.ofCode_mod16, hw]

theorem mpar (g : Guard) (md : BitVec 3) (imm : BitVec 32) (hi : Bool) : Statement (.mpar g md imm hi) := by
  intro hw w he sl hs
  refine decodeWord_of_raw hw he ?_
  have e := Option.some.inj (show some _ = some w from he)
  subst e
  simp [slotsOf] at hs
  simp [Instr.wf, okV3, okV2, okAtom] at hw
  rw [ofNat48]
  generalize hx : (word48 _ _ _).setWidth 56 = w
  have ho : (fld w 5 7).toNat = 0x06 := by rw [← hx, fld_word48_op]; rfl
  subst hs
  show rawM w = _
  unfold rawM
  rw [ho]
  show (some (.mpar (guardOf w) (fld w 12 3) (fld w 16 32) (fld w 15 1 == 1)) : Option Instr) = _
  subst hx
  simp (disch := decide) only [fld_word48_op, guardOf_word48, fld_word48_ops, ex_lo, ex_hi, ex_ext, ex_ext0, ex_self, bit1_beq, Fmt.ofCode_code5, Fmt.ofCode_code4]
  simp [ex_self,  bit1_beq, Fmt.ofCode_mod32, Fmt.ofCode_mod16, hw]

theorem mcall (g : Guard) (idx : BitVec 11) : Statement (.mcall g idx) := by
  intro hw w he sl hs
  refine decodeWord_of_raw hw he ?_
  have e := Option.some.inj (show some _ = some w from he)
  subst e
  simp [slotsOf] at hs
  simp [Instr.wf, okV3, okV2, okAtom] at hw
  rw [ofNat48]
  generalize hx : (word48 _ _ _).setWidth 56 = w
  have ho : (fld w 5 7).toNat = 0x07 := by rw [← hx, fld_word48_op]; rfl
  subst hs
  show rawM w = _
  unfold rawM
  rw [ho]
  show (some (.mcall (guardOf w) (fld w 12 11)) : Option Instr) = _
  subst hx
  simp (disch := decide) only [fld_word48_op, guardOf_word48, fld_word48_ops, ex_lo, ex_hi, ex_ext, ex_ext0, ex_self, bit1_beq, Fmt.ofCode_code5, Fmt.ofCode_code4]
  simp [ex_self,  bit1_beq, Fmt.ofCode_mod32, Fmt.ofCode_mod16, hw]

theorem mloop (g : Guard) (count : BitVec 16) (mi : BitVec 3) (src : Bool) : Statement (.mloop g count mi src) := by
  intro hw w he sl hs
  refine decodeWord_of_raw hw he ?_
  have e := Option.some.inj (show some _ = some w from he)
  subst e
  simp [slotsOf] at hs
  simp [Instr.wf, okV3, okV2, okAtom] at hw
  rw [ofNat48]
  generalize hx : (word48 _ _ _).setWidth 56 = w
  have ho : (fld w 5 7).toNat = 0x08 := by rw [← hx, fld_word48_op]; rfl
  subst hs
  show rawM w = _
  unfold rawM
  rw [ho]
  show (some (.mloop (guardOf w) (fld w 16 16) (fld w 13 3) (fld w 12 1 == 1)) : Option Instr) = _
  subst hx
  simp (disch := decide) only [fld_word48_op, guardOf_word48, fld_word48_ops, ex_lo, ex_hi, ex_ext, ex_ext0, ex_self, bit1_beq, Fmt.ofCode_code5, Fmt.ofCode_code4]
  simp [ex_self,  bit1_beq, Fmt.ofCode_mod32, Fmt.ofCode_mod16, hw]

theorem mend (g : Guard) : Statement (.mend g) := by
  intro hw w he sl hs
  refine decodeWord_of_raw hw he ?_
  have e := Option.some.inj (show some _ = some w from he)
  subst e
  simp [slotsOf] at hs
  simp [Instr.wf, okV3, okV2, okAtom] at hw
  rw [ofNat48]
  generalize hx : (word48 _ _ _).setWidth 56 = w
  have ho : (fld w 5 7).toNat = 0x09 := by rw [← hx, fld_word48_op]; rfl
  subst hs
  show rawM w = _
  unfold rawM
  rw [ho]
  show (some (if fld w 12 1 = 1 then .mendF (guardOf w) else .mend (guardOf w)) : Option Instr) = _
  subst hx
  simp (disch := decide) only [fld_word48_op, guardOf_word48, fld_word48_ops, ex_lo, ex_hi, ex_ext, ex_ext0, ex_self, bit1_beq, Fmt.ofCode_code5, Fmt.ofCode_code4]
  simp [ex_self,  bit1_beq, Fmt.ofCode_mod32, Fmt.ofCode_mod16, hw]

theorem mendF (g : Guard) : Statement (.mendF g) := by
  intro hw w he sl hs
  refine decodeWord_of_raw hw he ?_
  have e := Option.some.inj (show some _ = some w from he)
  subst e
  simp [slotsOf] at hs
  simp [Instr.wf, okV3, okV2, okAtom] at hw
  rw [ofNat48]
  generalize hx : (word48 _ _ _).setWidth 56 = w
  have ho : (fld w 5 7).toNat = 0x09 := by rw [← hx, fld_word48_op]; rfl
  subst hs
  show rawM w = _
  unfold rawM
  rw [ho]
  show (some (if fld w 12 1 = 1 then .mendF (guardOf w) else .mend (guardOf w)) : Option Instr) = _
  subst hx
  simp (disch := decide) only [fld_word48_op, guardOf_word48, fld_word48_ops, ex_lo, ex_hi, ex_ext, ex_ext0, ex_self, bit1_beq, Fmt.ofCode_code5, Fmt.ofCode_code4]
  simp [ex_self,  bit1_beq, Fmt.ofCode_mod32, Fmt.ofCode_mod16, hw]

theorem mcntRd (g : Guard) (dq : BitVec 2) (acc : BitVec 5) : Statement (.mcntRd g dq acc) := by
  intro hw w he sl hs
  refine decodeWord_of_raw hw he ?_
  have e := Option.some.inj (show some _ = some w from he)
  subst e
  simp [slotsOf] at hs
  simp [Instr.wf, okV3, okV2, okAtom] at hw
  rw [ofNat48]
  generalize hx : (word48 _ _ _).setWidth 56 = w
  have ho : (fld w 5 7).toNat = 0x0A := by rw [← hx, fld_word48_op]; rfl
  subst hs
  show rawM w = _
  unfold rawM
  rw [ho]
  subst hx
  simp (disch := decide) only [fld_word48_op, guardOf_word48, fld_word48_ops, ex_lo, ex_hi, ex_ext, ex_ext0, ex_self, bit1_beq, Fmt.ofCode_code5, Fmt.ofCode_code4]
  simp [ex_self,  bit1_beq, Fmt.ofCode_mod32, Fmt.ofCode_mod16, hw]

theorem mcntSnap (g : Guard) (dq : BitVec 2) (acc : BitVec 5) : Statement (.mcntSnap g dq acc) := by
  intro hw w he sl hs
  refine decodeWord_of_raw hw he ?_
  have e := Option.some.inj (show some _ = some w from he)
  subst e
  simp [slotsOf] at hs
  simp [Instr.wf, okV3, okV2, okAtom] at hw
  rw [ofNat48]
  generalize hx : (word48 _ _ _).setWidth 56 = w
  have ho : (fld w 5 7).toNat = 0x0A := by rw [← hx, fld_word48_op]; rfl
  subst hs
  show rawM w = _
  unfold rawM
  rw [ho]
  subst hx
  simp (disch := decide) only [fld_word48_op, guardOf_word48, fld_word48_ops, ex_lo, ex_hi, ex_ext, ex_ext0, ex_self, bit1_beq, Fmt.ofCode_code5, Fmt.ofCode_code4]
  simp [ex_self,  bit1_beq, Fmt.ofCode_mod32, Fmt.ofCode_mod16, hw]

theorem mcntClr (g : Guard) (acc : BitVec 5) : Statement (.mcntClr g acc) := by
  intro hw w he sl hs
  refine decodeWord_of_raw hw he ?_
  have e := Option.some.inj (show some _ = some w from he)
  subst e
  simp [slotsOf] at hs
  simp [Instr.wf, okV3, okV2, okAtom] at hw
  rw [ofNat48]
  generalize hx : (word48 _ _ _).setWidth 56 = w
  have ho : (fld w 5 7).toNat = 0x0A := by rw [← hx, fld_word48_op]; rfl
  subst hs
  show rawM w = _
  unfold rawM
  rw [ho]
  subst hx
  simp (disch := decide) only [fld_word48_op, guardOf_word48, fld_word48_ops, ex_lo, ex_hi, ex_ext, ex_ext0, ex_self, bit1_beq, Fmt.ofCode_code5, Fmt.ofCode_code4]
  simp [ex_self,  bit1_beq, Fmt.ofCode_mod32, Fmt.ofCode_mod16, hw]

theorem routineWordIssue : Statement (.routineWordIssue) := by
  intro _ w _ sl hs
  exact nomatch (show sl ∈ ([] : List Slot) from hs)

theorem ld (g : Guard) (dst : Dest) (a : Opnd) (b : Opnd) (cls : BitVec 4) (t : Fmt) : Statement (.ld g dst a b cls t) := by
  intro hw w he sl hs
  refine decodeWord_of_raw hw he ?_
  have e := Option.some.inj (show some _ = some w from he)
  subst e
  simp [slotsOf] at hs
  simp [Instr.wf, okV3, okV2, okAtom] at hw
  rw [ofNat56]
  generalize hx : word56 _ _ _ _ _ _ = w
  have ho : (fld w 5 8).toNat = 0x01 := by rw [← hx, fld_word56_op]; rfl
  subst hs
  show rawL w = _
  unfold rawL
  rw [ho]
  show rawAB w _ = _
  subst hx
  simp (disch := decide) only [fld_word56_op, guardOf_word56, rawAB, rawA, typeOf, destOf, fld_word56_mod, fld_word56_b, fld_word56_a, fld_word56_d, tmod, ex_lo, ex_hi, ex_ext, ex_ext0, ex_self, bit1_beq, Fmt.ofCode_code5, Fmt.ofCode_code4]
  simp [ex_self,  bit1_beq, Fmt.ofCode_mod32, Fmt.ofCode_mod16, Opnd.of10_okLW, Dest.of_okLd, Dest.of_okVld, hw]

theorem vld (g : Guard) (dst : Dest) (a : Opnd) (b : Opnd) (cls : BitVec 4) : Statement (.vld g dst a b cls) := by
  intro hw w he sl hs
  refine decodeWord_of_raw hw he ?_
  have e := Option.some.inj (show some _ = some w from he)
  subst e
  simp [slotsOf] at hs
  simp [Instr.wf, okV3, okV2, okAtom] at hw
  rw [ofNat56]
  generalize hx : word56 _ _ _ _ _ _ = w
  have ho : (fld w 5 8).toNat = 0x02 := by rw [← hx, fld_word56_op]; rfl
  subst hs
  show rawL w = _
  unfold rawL
  rw [ho]
  show rawAB w _ = _
  subst hx
  simp (disch := decide) only [fld_word56_op, guardOf_word56, rawAB, rawA, typeOf, destOf, fld_word56_mod, fld_word56_b, fld_word56_a, fld_word56_d, tmod, ex_lo, ex_hi, ex_ext, ex_ext0, ex_self, bit1_beq, Fmt.ofCode_code5, Fmt.ofCode_code4]
  simp [ex_self,  bit1_beq, Fmt.ofCode_mod32, Fmt.ofCode_mod16, Opnd.of10_okLW, Dest.of_okLd, Dest.of_okVld, hw]

theorem vldu (g : Guard) (dst : Dest) (a : Opnd) (b : Opnd) (cls : BitVec 4) : Statement (.vldu g dst a b cls) := by
  intro hw w he sl hs
  refine decodeWord_of_raw hw he ?_
  have e := Option.some.inj (show some _ = some w from he)
  subst e
  simp [slotsOf] at hs
  simp [Instr.wf, okV3, okV2, okAtom] at hw
  rw [ofNat56]
  generalize hx : word56 _ _ _ _ _ _ = w
  have ho : (fld w 5 8).toNat = 0x03 := by rw [← hx, fld_word56_op]; rfl
  subst hs
  show rawL w = _
  unfold rawL
  rw [ho]
  show rawAB w _ = _
  subst hx
  simp (disch := decide) only [fld_word56_op, guardOf_word56, rawAB, rawA, typeOf, destOf, fld_word56_mod, fld_word56_b, fld_word56_a, fld_word56_d, tmod, ex_lo, ex_hi, ex_ext, ex_ext0, ex_self, bit1_beq, Fmt.ofCode_code5, Fmt.ofCode_code4]
  simp [ex_self,  bit1_beq, Fmt.ofCode_mod32, Fmt.ofCode_mod16, Opnd.of10_okLW, Dest.of_okLd, Dest.of_okVld, hw]

theorem pf (g : Guard) (a : Opnd) (b : Opnd) : Statement (.pf g a b) := by
  intro hw w he sl hs
  refine decodeWord_of_raw hw he ?_
  have e := Option.some.inj (show some _ = some w from he)
  subst e
  simp [slotsOf] at hs
  simp [Instr.wf, okV3, okV2, okAtom] at hw
  rw [ofNat56]
  generalize hx : word56 _ _ _ _ _ _ = w
  have ho : (fld w 5 8).toNat = 0x04 := by rw [← hx, fld_word56_op]; rfl
  subst hs
  show rawL w = _
  unfold rawL
  rw [ho]
  show rawAB w _ = _
  subst hx
  simp (disch := decide) only [fld_word56_op, guardOf_word56, rawAB, rawA, typeOf, destOf, fld_word56_mod, fld_word56_b, fld_word56_a, fld_word56_d, tmod, ex_lo, ex_hi, ex_ext, ex_ext0, ex_self, bit1_beq, Fmt.ofCode_code5, Fmt.ofCode_code4]
  simp [ex_self,  bit1_beq, Fmt.ofCode_mod32, Fmt.ofCode_mod16, Opnd.of10_okLW, Dest.of_okLd, Dest.of_okVld, hw]

theorem gpush (g : Guard) (q : BitVec 5) (a : Opnd) : Statement (.gpush g q a) := by
  intro hw w he sl hs
  refine decodeWord_of_raw hw he ?_
  have e := Option.some.inj (show some _ = some w from he)
  subst e
  simp [slotsOf] at hs
  simp [Instr.wf, okV3, okV2, okAtom] at hw
  rw [ofNat56]
  generalize hx : word56 _ _ _ _ _ _ = w
  have ho : (fld w 5 8).toNat = 0x05 := by rw [← hx, fld_word56_op]; rfl
  subst hs
  show rawL w = _
  unfold rawL
  rw [ho]
  show rawA w _ = _
  subst hx
  simp (disch := decide) only [fld_word56_op, guardOf_word56, rawAB, rawA, typeOf, destOf, fld_word56_mod, fld_word56_b, fld_word56_a, fld_word56_d, tmod, ex_lo, ex_hi, ex_ext, ex_ext0, ex_self, bit1_beq, Fmt.ofCode_code5, Fmt.ofCode_code4]
  simp [ex_self,  bit1_beq, Fmt.ofCode_mod32, Fmt.ofCode_mod16, Opnd.of10_okLW, Dest.of_okLd, Dest.of_okVld, hw]

theorem ldg (g : Guard) (dst : Dest) (a : Opnd) (b : Opnd) (gs : BitVec 2) (t : Fmt) : Statement (.ldg g dst a b gs t) := by
  intro hw w he sl hs
  refine decodeWord_of_raw hw he ?_
  have e := Option.some.inj (show some _ = some w from he)
  subst e
  simp [slotsOf] at hs
  simp [Instr.wf, okV3, okV2, okAtom] at hw
  rw [ofNat56]
  generalize hx : word56 _ _ _ _ _ _ = w
  have ho : (fld w 5 8).toNat = 0x10 := by rw [← hx, fld_word56_op]; rfl
  subst hs
  show rawL w = _
  unfold rawL
  rw [ho]
  show rawAB w _ = _
  subst hx
  simp (disch := decide) only [fld_word56_op, guardOf_word56, rawAB, rawA, typeOf, destOf, fld_word56_mod, fld_word56_b, fld_word56_a, fld_word56_d, tmod, ex_lo, ex_hi, ex_ext, ex_ext0, ex_self, bit1_beq, Fmt.ofCode_code5, Fmt.ofCode_code4]
  simp [ex_self,  bit1_beq, Fmt.ofCode_mod32, Fmt.ofCode_mod16, Opnd.of10_okLW, Dest.of_okLd, Dest.of_okVld, hw]

theorem vldg (g : Guard) (dst : Dest) (a : Opnd) (b : Opnd) (gs : BitVec 2) : Statement (.vldg g dst a b gs) := by
  intro hw w he sl hs
  refine decodeWord_of_raw hw he ?_
  have e := Option.some.inj (show some _ = some w from he)
  subst e
  simp [slotsOf] at hs
  simp [Instr.wf, okV3, okV2, okAtom] at hw
  rw [ofNat56]
  generalize hx : word56 _ _ _ _ _ _ = w
  have ho : (fld w 5 8).toNat = 0x11 := by rw [← hx, fld_word56_op]; rfl
  subst hs
  show rawL w = _
  unfold rawL
  rw [ho]
  show rawAB w _ = _
  subst hx
  simp (disch := decide) only [fld_word56_op, guardOf_word56, rawAB, rawA, typeOf, destOf, fld_word56_mod, fld_word56_b, fld_word56_a, fld_word56_d, tmod, ex_lo, ex_hi, ex_ext, ex_ext0, ex_self, bit1_beq, Fmt.ofCode_code5, Fmt.ofCode_code4]
  simp [ex_self,  bit1_beq, Fmt.ofCode_mod32, Fmt.ofCode_mod16, Opnd.of10_okLW, Dest.of_okLd, Dest.of_okVld, hw]

theorem ldr (g : Guard) (dst : Dest) (a : Opnd) (ca : Bool) (lq : BitVec 9) (cls : BitVec 4) (t : Fmt) : Statement (.ldr g dst a ca lq cls t) := by
  intro hw w he sl hs
  refine decodeWord_of_raw hw he ?_
  have e := Option.some.inj (show some _ = some w from he)
  subst e
  simp [slotsOf] at hs
  simp [Instr.wf, okV3, okV2, okAtom] at hw
  rw [ofNat56]
  generalize hx : word56 _ _ _ _ _ _ = w
  have ho : (fld w 5 8).toNat = 0x18 := by rw [← hx, fld_word56_op]; rfl
  subst hs
  show rawL w = _
  unfold rawL
  rw [ho]
  show rawA w _ = _
  subst hx
  simp (disch := decide) only [fld_word56_op, guardOf_word56, rawAB, rawA, typeOf, destOf, fld_word56_mod, fld_word56_b, fld_word56_a, fld_word56_d, tmod, ex_lo, ex_hi, ex_ext, ex_ext0, ex_self, bit1_beq, Fmt.ofCode_code5, Fmt.ofCode_code4]
  simp [ex_self,  bit1_beq, Fmt.ofCode_mod32, Fmt.ofCode_mod16, Opnd.of10_okLW, Dest.of_okLd, Dest.of_okVld, hw]

theorem st (g : Guard) (src : Opnd) (a : Opnd) (b : Opnd) (cls : BitVec 4) (t : Fmt) : Statement (.st g src a b cls t) := by
  intro hw w he sl hs
  refine decodeWord_of_raw hw he ?_
  have e := Option.some.inj (show some _ = some w from he)
  subst e
  simp [slotsOf] at hs
  simp [Instr.wf, okV3, okV2, okAtom] at hw
  rw [ofNat56]
  generalize hx : word56 _ _ _ _ _ _ = w
  have ho : (fld w 5 8).toNat = 0x01 := by rw [← hx, fld_word56_op]; rfl
  subst hs
  show rawW w = _
  unfold rawW
  rw [ho]
  show raw3 w _ = _
  subst hx
  simp (disch := decide) only [fld_word56_op, guardOf_word56, raw3, raw2, rawAB, rawA, typeOf, fld_word56_mod, fld_word56_b, fld_word56_a, fld_word56_d, tmod, ex_lo, ex_hi, ex_ext, ex_ext0, ex_self, bit1_beq, Fmt.ofCode_code5, Fmt.ofCode_code4]
  simp [ex_self,  bit1_beq, Fmt.ofCode_mod32, Fmt.ofCode_mod16, Opnd.of10_okLW, Opnd.of10_okWVec, Opnd.of10_okWSrc, hw]

theorem vst (g : Guard) (src : Opnd) (a : Opnd) (b : Opnd) (cls : BitVec 4) : Statement (.vst g src a b cls) := by
  intro hw w he sl hs
  refine decodeWord_of_raw hw he ?_
  have e := Option.some.inj (show some _ = some w from he)
  subst e
  simp [slotsOf] at hs
  simp [Instr.wf, okV3, okV2, okAtom] at hw
  rw [ofNat56]
  generalize hx : word56 _ _ _ _ _ _ = w
  have ho : (fld w 5 8).toNat = 0x02 := by rw [← hx, fld_word56_op]; rfl
  subst hs
  show rawW w = _
  unfold rawW
  rw [ho]
  show raw3 w _ = _
  subst hx
  simp (disch := decide) only [fld_word56_op, guardOf_word56, raw3, raw2, rawAB, rawA, typeOf, fld_word56_mod, fld_word56_b, fld_word56_a, fld_word56_d, tmod, ex_lo, ex_hi, ex_ext, ex_ext0, ex_self, bit1_beq, Fmt.ofCode_code5, Fmt.ofCode_code4]
  simp [ex_self,  bit1_beq, Fmt.ofCode_mod32, Fmt.ofCode_mod16, Opnd.of10_okLW, Opnd.of10_okWVec, Opnd.of10_okWSrc, hw]

theorem vstm (g : Guard) (src : Opnd) (a : Opnd) (k : BitVec 4) (v1 : Bool) (cls : BitVec 4) : Statement (.vstm g src a k v1 cls) := by
  intro hw w he sl hs
  refine decodeWord_of_raw hw he ?_
  have e := Option.some.inj (show some _ = some w from he)
  subst e
  simp [slotsOf] at hs
  simp [Instr.wf, okV3, okV2, okAtom] at hw
  rw [ofNat56]
  generalize hx : word56 _ _ _ _ _ _ = w
  have ho : (fld w 5 8).toNat = 0x03 := by rw [← hx, fld_word56_op]; rfl
  subst hs
  show rawW w = _
  unfold rawW
  rw [ho]
  show raw2 w _ = _
  subst hx
  simp (disch := decide) only [fld_word56_op, guardOf_word56, raw3, raw2, rawAB, rawA, typeOf, fld_word56_mod, fld_word56_b, fld_word56_a, fld_word56_d, tmod, ex_lo, ex_hi, ex_ext, ex_ext0, ex_self, bit1_beq, Fmt.ofCode_code5, Fmt.ofCode_code4]
  simp [ex_self,  bit1_beq, Fmt.ofCode_mod32, Fmt.ofCode_mod16, Opnd.of10_okLW, Opnd.of10_okWVec, Opnd.of10_okWSrc, hw]

theorem aadd (g : Guard) (wd : BitVec 5) (a : Opnd) (b : Opnd) (nr : Bool) (ord : BitVec 2) (cls : BitVec 4) (t : Fmt) : Statement (.aadd g wd a b nr ord cls t) := by
  intro hw w he sl hs
  refine decodeWord_of_raw hw he ?_
  have e := Option.some.inj (show some _ = some w from he)
  subst e
  simp [slotsOf] at hs
  simp [Instr.wf, okV3, okV2, okAtom] at hw
  rw [ofNat56]
  generalize hx : word56 _ _ _ _ _ _ = w
  have ho : (fld w 5 8).toNat = 0x10 := by rw [← hx, fld_word56_op]; rfl
  subst hs
  show rawW w = _
  unfold rawW
  rw [ho]
  show rawAB w _ = _
  subst hx
  simp (disch := decide) only [fld_word56_op, guardOf_word56, raw3, raw2, rawAB, rawA, typeOf, fld_word56_mod, fld_word56_b, fld_word56_a, fld_word56_d, tmod, ex_lo, ex_hi, ex_ext, ex_ext0, ex_self, bit1_beq, Fmt.ofCode_code5, Fmt.ofCode_code4]
  simp [ex_self,  bit1_beq, Fmt.ofCode_mod32, Fmt.ofCode_mod16, Opnd.of10_okLW, Opnd.of10_okWVec, Opnd.of10_okWSrc, hw]

theorem amin (g : Guard) (wd : BitVec 5) (a : Opnd) (b : Opnd) (nr : Bool) (ord : BitVec 2) (cls : BitVec 4) (t : Fmt) : Statement (.amin g wd a b nr ord cls t) := by
  intro hw w he sl hs
  refine decodeWord_of_raw hw he ?_
  have e := Option.some.inj (show some _ = some w from he)
  subst e
  simp [slotsOf] at hs
  simp [Instr.wf, okV3, okV2, okAtom] at hw
  rw [ofNat56]
  generalize hx : word56 _ _ _ _ _ _ = w
  have ho : (fld w 5 8).toNat = 0x11 := by rw [← hx, fld_word56_op]; rfl
  subst hs
  show rawW w = _
  unfold rawW
  rw [ho]
  show rawAB w _ = _
  subst hx
  simp (disch := decide) only [fld_word56_op, guardOf_word56, raw3, raw2, rawAB, rawA, typeOf, fld_word56_mod, fld_word56_b, fld_word56_a, fld_word56_d, tmod, ex_lo, ex_hi, ex_ext, ex_ext0, ex_self, bit1_beq, Fmt.ofCode_code5, Fmt.ofCode_code4]
  simp [ex_self,  bit1_beq, Fmt.ofCode_mod32, Fmt.ofCode_mod16, Opnd.of10_okLW, Opnd.of10_okWVec, Opnd.of10_okWSrc, hw]

theorem amax (g : Guard) (wd : BitVec 5) (a : Opnd) (b : Opnd) (nr : Bool) (ord : BitVec 2) (cls : BitVec 4) (t : Fmt) : Statement (.amax g wd a b nr ord cls t) := by
  intro hw w he sl hs
  refine decodeWord_of_raw hw he ?_
  have e := Option.some.inj (show some _ = some w from he)
  subst e
  simp [slotsOf] at hs
  simp [Instr.wf, okV3, okV2, okAtom] at hw
  rw [ofNat56]
  generalize hx : word56 _ _ _ _ _ _ = w
  have ho : (fld w 5 8).toNat = 0x12 := by rw [← hx, fld_word56_op]; rfl
  subst hs
  show rawW w = _
  unfold rawW
  rw [ho]
  show rawAB w _ = _
  subst hx
  simp (disch := decide) only [fld_word56_op, guardOf_word56, raw3, raw2, rawAB, rawA, typeOf, fld_word56_mod, fld_word56_b, fld_word56_a, fld_word56_d, tmod, ex_lo, ex_hi, ex_ext, ex_ext0, ex_self, bit1_beq, Fmt.ofCode_code5, Fmt.ofCode_code4]
  simp [ex_self,  bit1_beq, Fmt.ofCode_mod32, Fmt.ofCode_mod16, Opnd.of10_okLW, Opnd.of10_okWVec, Opnd.of10_okWSrc, hw]

theorem alog (g : Guard) (wd : BitVec 5) (a : Opnd) (b : Opnd) (nr : Bool) (lop : BitVec 2) (ord : BitVec 2) (cls : BitVec 4) (t : Fmt) : Statement (.alog g wd a b nr lop ord cls t) := by
  intro hw w he sl hs
  refine decodeWord_of_raw hw he ?_
  have e := Option.some.inj (show some _ = some w from he)
  subst e
  simp [slotsOf] at hs
  simp [Instr.wf, okV3, okV2, okAtom] at hw
  rw [ofNat56]
  generalize hx : word56 _ _ _ _ _ _ = w
  have ho : (fld w 5 8).toNat = 0x13 := by rw [← hx, fld_word56_op]; rfl
  subst hs
  show rawW w = _
  unfold rawW
  rw [ho]
  show rawAB w _ = _
  subst hx
  simp (disch := decide) only [fld_word56_op, guardOf_word56, raw3, raw2, rawAB, rawA, typeOf, fld_word56_mod, fld_word56_b, fld_word56_a, fld_word56_d, tmod, ex_lo, ex_hi, ex_ext, ex_ext0, ex_self, bit1_beq, Fmt.ofCode_code5, Fmt.ofCode_code4]
  simp [ex_self,  bit1_beq, Fmt.ofCode_mod32, Fmt.ofCode_mod16, Opnd.of10_okLW, Opnd.of10_okWVec, Opnd.of10_okWSrc, hw]

theorem aswp (g : Guard) (wd : BitVec 5) (a : Opnd) (b : Opnd) (nr : Bool) (ord : BitVec 2) (cls : BitVec 4) (t : Fmt) : Statement (.aswp g wd a b nr ord cls t) := by
  intro hw w he sl hs
  refine decodeWord_of_raw hw he ?_
  have e := Option.some.inj (show some _ = some w from he)
  subst e
  simp [slotsOf] at hs
  simp [Instr.wf, okV3, okV2, okAtom] at hw
  rw [ofNat56]
  generalize hx : word56 _ _ _ _ _ _ = w
  have ho : (fld w 5 8).toNat = 0x14 := by rw [← hx, fld_word56_op]; rfl
  subst hs
  show rawW w = _
  unfold rawW
  rw [ho]
  show rawAB w _ = _
  subst hx
  simp (disch := decide) only [fld_word56_op, guardOf_word56, raw3, raw2, rawAB, rawA, typeOf, fld_word56_mod, fld_word56_b, fld_word56_a, fld_word56_d, tmod, ex_lo, ex_hi, ex_ext, ex_ext0, ex_self, bit1_beq, Fmt.ofCode_code5, Fmt.ofCode_code4]
  simp [ex_self,  bit1_beq, Fmt.ofCode_mod32, Fmt.ofCode_mod16, Opnd.of10_okLW, Opnd.of10_okWVec, Opnd.of10_okWSrc, hw]

theorem acas (g : Guard) (wd : BitVec 5) (a : Opnd) (b : Opnd) (ord : BitVec 2) (cls : BitVec 4) (t : Fmt) : Statement (.acas g wd a b ord cls t) := by
  intro hw w he sl hs
  refine decodeWord_of_raw hw he ?_
  have e := Option.some.inj (show some _ = some w from he)
  subst e
  simp [slotsOf] at hs
  simp [Instr.wf, okV3, okV2, okAtom] at hw
  rw [ofNat56]
  generalize hx : word56 _ _ _ _ _ _ = w
  have ho : (fld w 5 8).toNat = 0x15 := by rw [← hx, fld_word56_op]; rfl
  subst hs
  show rawW w = _
  unfold rawW
  rw [ho]
  show rawAB w _ = _
  subst hx
  simp (disch := decide) only [fld_word56_op, guardOf_word56, raw3, raw2, rawAB, rawA, typeOf, fld_word56_mod, fld_word56_b, fld_word56_a, fld_word56_d, tmod, ex_lo, ex_hi, ex_ext, ex_ext0, ex_self, bit1_beq, Fmt.ofCode_code5, Fmt.ofCode_code4]
  simp [ex_self,  bit1_beq, Fmt.ofCode_mod32, Fmt.ofCode_mod16, Opnd.of10_okLW, Opnd.of10_okWVec, Opnd.of10_okWSrc, hw]

theorem aincb (g : Guard) (wd : BitVec 5) (a : Opnd) (b : Opnd) (nr : Bool) (ord : BitVec 2) (cls : BitVec 4) (t : Fmt) : Statement (.aincb g wd a b nr ord cls t) := by
  intro hw w he sl hs
  refine decodeWord_of_raw hw he ?_
  have e := Option.some.inj (show some _ = some w from he)
  subst e
  simp [slotsOf] at hs
  simp [Instr.wf, okV3, okV2, okAtom] at hw
  rw [ofNat56]
  generalize hx : word56 _ _ _ _ _ _ = w
  have ho : (fld w 5 8).toNat = 0x16 := by rw [← hx, fld_word56_op]; rfl
  subst hs
  show rawW w = _
  unfold rawW
  rw [ho]
  show rawAB w _ = _
  subst hx
  simp (disch := decide) only [fld_word56_op, guardOf_word56, raw3, raw2, rawAB, rawA, typeOf, fld_word56_mod, fld_word56_b, fld_word56_a, fld_word56_d, tmod, ex_lo, ex_hi, ex_ext, ex_ext0, ex_self, bit1_beq, Fmt.ofCode_code5, Fmt.ofCode_code4]
  simp [ex_self,  bit1_beq, Fmt.ofCode_mod32, Fmt.ofCode_mod16, Opnd.of10_okLW, Opnd.of10_okWVec, Opnd.of10_okWSrc, hw]

theorem rcnt (g : Guard) (a : Opnd) (b : Opnd) : Statement (.rcnt g a b) := by
  intro hw w he sl hs
  refine decodeWord_of_raw hw he ?_
  have e := Option.some.inj (show some _ = some w from he)
  subst e
  simp [slotsOf] at hs
  simp [Instr.wf, okV3, okV2, okAtom] at hw
  rw [ofNat56]
  generalize hx : word56 _ _ _ _ _ _ = w
  have ho : (fld w 5 8).toNat = 0x17 := by rw [← hx, fld_word56_op]; rfl
  subst hs
  show rawW w = _
  unfold rawW
  rw [ho]
  show rawAB w _ = _
  subst hx
  simp (disch := decide) only [fld_word56_op, guardOf_word56, raw3, raw2, rawAB, rawA, typeOf, fld_word56_mod, fld_word56_b, fld_word56_a, fld_word56_d, tmod, ex_lo, ex_hi, ex_ext, ex_ext0, ex_self, bit1_beq, Fmt.ofCode_code5, Fmt.ofCode_code4]
  simp [ex_self,  bit1_beq, Fmt.ofCode_mod32, Fmt.ofCode_mod16, Opnd.of10_okLW, Opnd.of10_okWVec, Opnd.of10_okWSrc, hw]

theorem asnap (g : Guard) (wd : BitVec 5) (a : Opnd) (b : Opnd) (cls : BitVec 4) : Statement (.asnap g wd a b cls) := by
  intro hw w he sl hs
  refine decodeWord_of_raw hw he ?_
  have e := Option.some.inj (show some _ = some w from he)
  subst e
  simp [slotsOf] at hs
  simp [Instr.wf, okV3, okV2, okAtom] at hw
  rw [ofNat56]
  generalize hx : word56 _ _ _ _ _ _ = w
  have ho : (fld w 5 8).toNat = 0x18 := by rw [← hx, fld_word56_op]; rfl
  subst hs
  show rawW w = _
  unfold rawW
  rw [ho]
  show rawAB w _ = _
  subst hx
  simp (disch := decide) only [fld_word56_op, guardOf_word56, raw3, raw2, rawAB, rawA, typeOf, fld_word56_mod, fld_word56_b, fld_word56_a, fld_word56_d, tmod, ex_lo, ex_hi, ex_ext, ex_ext0, ex_self, bit1_beq, Fmt.ofCode_code5, Fmt.ofCode_code4]
  simp [ex_self,  bit1_beq, Fmt.ofCode_mod32, Fmt.ofCode_mod16, Opnd.of10_okLW, Opnd.of10_okWVec, Opnd.of10_okWSrc, hw]

theorem str (g : Guard) (src : Opnd) (a : Opnd) (ca : Bool) (cls : BitVec 4) (t : Fmt) : Statement (.str g src a ca cls t) := by
  intro hw w he sl hs
  refine decodeWord_of_raw hw he ?_
  have e := Option.some.inj (show some _ = some w from he)
  subst e
  simp [slotsOf] at hs
  simp [Instr.wf, okV3, okV2, okAtom] at hw
  rw [ofNat56]
  generalize hx : word56 _ _ _ _ _ _ = w
  have ho : (fld w 5 8).toNat = 0x20 := by rw [← hx, fld_word56_op]; rfl
  subst hs
  show rawW w = _
  unfold rawW
  rw [ho]
  show raw2 w _ = _
  subst hx
  simp (disch := decide) only [fld_word56_op, guardOf_word56, raw3, raw2, rawAB, rawA, typeOf, fld_word56_mod, fld_word56_b, fld_word56_a, fld_word56_d, tmod, ex_lo, ex_hi, ex_ext, ex_ext0, ex_self, bit1_beq, Fmt.ofCode_code5, Fmt.ofCode_code4]
  simp [ex_self,  bit1_beq, Fmt.ofCode_mod32, Fmt.ofCode_mod16, Opnd.of10_okLW, Opnd.of10_okWVec, Opnd.of10_okWSrc, hw]

theorem ratom (g : Guard) (wd : BitVec 5) (a : Opnd) (wb : BitVec 5) (rop : BitVec 4) (nr : Bool) (ord : BitVec 2) (cls : BitVec 4) (t : Fmt) : Statement (.ratom g wd a wb rop nr ord cls t) := by
  intro hw w he sl hs
  refine decodeWord_of_raw hw he ?_
  have e := Option.some.inj (show some _ = some w from he)
  subst e
  simp [slotsOf] at hs
  simp [Instr.wf, okV3, okV2, okAtom] at hw
  rw [ofNat56]
  generalize hx : word56 _ _ _ _ _ _ = w
  have ho : (fld w 5 8).toNat = 0x21 := by rw [← hx, fld_word56_op]; rfl
  subst hs
  show rawW w = _
  unfold rawW
  rw [ho]
  show rawA w _ = _
  subst hx
  simp (disch := decide) only [fld_word56_op, guardOf_word56, raw3, raw2, rawAB, rawA, typeOf, fld_word56_mod, fld_word56_b, fld_word56_a, fld_word56_d, tmod, ex_lo, ex_hi, ex_ext, ex_ext0, ex_self, bit1_beq, Fmt.ofCode_code5, Fmt.ofCode_code4]
  simp [ex_self,  bit1_beq, Fmt.ofCode_mod32, Fmt.ofCode_mod16, Opnd.of10_okLW, Opnd.of10_okWVec, Opnd.of10_okWSrc, hw]

theorem cbind (g : Guard) (q : BitVec 5) (e : BitVec 5) (gather : Bool) : Statement (.cbind g q e gather) := by
  intro hw w he sl hs
  refine decodeWord_of_raw hw he ?_
  have e := Option.some.inj (show some _ = some w from he)
  subst e
  simp [slotsOf] at hs
  simp [Instr.wf, okV3, okV2, okAtom] at hw
  rw [ofNat48]
  generalize hx : (word48 _ _ _).setWidth 56 = w
  have ho : (fld w 5 7).toNat = 0x01 := by rw [← hx, fld_word48_op]; rfl
  subst hs
  show rawC w = _
  unfold rawC
  rw [ho]
  show (some (.cbind (guardOf w) (fld w 12 5) (fld w 17 5) (fld w 22 1 == 1)) : Option Instr) = _
  subst hx
  simp (disch := decide) only [fld_word48_op, guardOf_word48, fld_word48_ops, ex_lo, ex_hi, ex_ext, ex_ext0, ex_self, bit1_beq, Fmt.ofCode_code5, Fmt.ofCode_code4]
  simp [ex_self,  bit1_beq, Fmt.ofCode_mod32, Fmt.ofCode_mod16, hw]

theorem cfree (g : Guard) (q : BitVec 5) : Statement (.cfree g q) := by
  intro hw w he sl hs
  refine decodeWord_of_raw hw he ?_
  have e := Option.some.inj (show some _ = some w from he)
  subst e
  simp [slotsOf] at hs
  simp [Instr.wf, okV3, okV2, okAtom] at hw
  rw [ofNat48]
  generalize hx : (word48 _ _ _).setWidth 56 = w
  have ho : (fld w 5 7).toNat = 0x02 := by rw [← hx, fld_word48_op]; rfl
  subst hs
  show rawC w = _
  unfold rawC
  rw [ho]
  show (some (.cfree (guardOf w) (fld w 12 5)) : Option Instr) = _
  subst hx
  simp (disch := decide) only [fld_word48_op, guardOf_word48, fld_word48_ops, ex_lo, ex_hi, ex_ext, ex_ext0, ex_self, bit1_beq, Fmt.ofCode_code5, Fmt.ofCode_code4]
  simp [ex_self,  bit1_beq, Fmt.ofCode_mod32, Fmt.ofCode_mod16, hw]

theorem cput (g : Guard) (ch : BitVec 3) (d : BitVec 5) (e : BitVec 5) (s : BitVec 5) : Statement (.cput g ch d e s) := by
  intro hw w he sl hs
  refine decodeWord_of_raw hw he ?_
  have e := Option.some.inj (show some _ = some w from he)
  subst e
  simp [slotsOf] at hs
  simp [Instr.wf, okV3, okV2, okAtom] at hw
  rw [ofNat48]
  generalize hx : (word48 _ _ _).setWidth 56 = w
  have ho : (fld w 5 7).toNat = 0x10 := by rw [← hx, fld_word48_op]; rfl
  subst hs
  show rawC w = _
  unfold rawC
  rw [ho]
  show (some (.cput (guardOf w) (fld w 27 3) (fld w 12 5) (fld w 17 5) (fld w 22 5)) : Option Instr) = _
  subst hx
  simp (disch := decide) only [fld_word48_op, guardOf_word48, fld_word48_ops, ex_lo, ex_hi, ex_ext, ex_ext0, ex_self, bit1_beq, Fmt.ofCode_code5, Fmt.ofCode_code4]
  simp [ex_self,  bit1_beq, Fmt.ofCode_mod32, Fmt.ofCode_mod16, hw]

theorem cget (g : Guard) (ch : BitVec 3) (d : BitVec 5) (e : BitVec 5) : Statement (.cget g ch d e) := by
  intro hw w he sl hs
  refine decodeWord_of_raw hw he ?_
  have e := Option.some.inj (show some _ = some w from he)
  subst e
  simp [slotsOf] at hs
  simp [Instr.wf, okV3, okV2, okAtom] at hw
  rw [ofNat48]
  generalize hx : (word48 _ _ _).setWidth 56 = w
  have ho : (fld w 5 7).toNat = 0x11 := by rw [← hx, fld_word48_op]; rfl
  subst hs
  show rawC w = _
  unfold rawC
  rw [ho]
  show (some (.cget (guardOf w) (fld w 27 3) (fld w 12 5) (fld w 17 5)) : Option Instr) = _
  subst hx
  simp (disch := decide) only [fld_word48_op, guardOf_word48, fld_word48_ops, ex_lo, ex_hi, ex_ext, ex_ext0, ex_self, bit1_beq, Fmt.ofCode_code5, Fmt.ofCode_code4]
  simp [ex_self,  bit1_beq, Fmt.ofCode_mod32, Fmt.ofCode_mod16, hw]

theorem ccard (g : Guard) (ch : BitVec 3) (d : BitVec 5) (e : BitVec 5) : Statement (.ccard g ch d e) := by
  intro hw w he sl hs
  refine decodeWord_of_raw hw he ?_
  have e := Option.some.inj (show some _ = some w from he)
  subst e
  simp [slotsOf] at hs
  simp [Instr.wf, okV3, okV2, okAtom] at hw
  rw [ofNat48]
  generalize hx : (word48 _ _ _).setWidth 56 = w
  have ho : (fld w 5 7).toNat = 0x12 := by rw [← hx, fld_word48_op]; rfl
  subst hs
  show rawC w = _
  unfold rawC
  rw [ho]
  show (some (.ccard (guardOf w) (fld w 27 3) (fld w 12 5) (fld w 17 5)) : Option Instr) = _
  subst hx
  simp (disch := decide) only [fld_word48_op, guardOf_word48, fld_word48_ops, ex_lo, ex_hi, ex_ext, ex_ext0, ex_self, bit1_beq, Fmt.ofCode_code5, Fmt.ofCode_code4]
  simp [ex_self,  bit1_beq, Fmt.ofCode_mod32, Fmt.ofCode_mod16, hw]

theorem cwait (g : Guard) (ch : BitVec 3) (e : BitVec 5) (inc : Bool) : Statement (.cwait g ch e inc) := by
  intro hw w he sl hs
  refine decodeWord_of_raw hw he ?_
  have e := Option.some.inj (show some _ = some w from he)
  subst e
  simp [slotsOf] at hs
  simp [Instr.wf, okV3, okV2, okAtom] at hw
  rw [ofNat48]
  generalize hx : (word48 _ _ _).setWidth 56 = w
  have ho : (fld w 5 7).toNat = 0x13 := by rw [← hx, fld_word48_op]; rfl
  subst hs
  show rawC w = _
  unfold rawC
  rw [ho]
  show (some (.cwait (guardOf w) (fld w 27 3) (fld w 17 5) (fld w 30 1 == 1)) : Option Instr) = _
  subst hx
  simp (disch := decide) only [fld_word48_op, guardOf_word48, fld_word48_ops, ex_lo, ex_hi, ex_ext, ex_ext0, ex_self, bit1_beq, Fmt.ofCode_code5, Fmt.ofCode_code4]
  simp [ex_self,  bit1_beq, Fmt.ofCode_mod32, Fmt.ofCode_mod16, hw]

theorem cstat (g : Guard) (ch : BitVec 3) (d : BitVec 5) : Statement (.cstat g ch d) := by
  intro hw w he sl hs
  refine decodeWord_of_raw hw he ?_
  have e := Option.some.inj (show some _ = some w from he)
  subst e
  simp [slotsOf] at hs
  simp [Instr.wf, okV3, okV2, okAtom] at hw
  rw [ofNat48]
  generalize hx : (word48 _ _ _).setWidth 56 = w
  have ho : (fld w 5 7).toNat = 0x14 := by rw [← hx, fld_word48_op]; rfl
  subst hs
  show rawC w = _
  unfold rawC
  rw [ho]
  show (some (.cstat (guardOf w) (fld w 27 3) (fld w 12 5)) : Option Instr) = _
  subst hx
  simp (disch := decide) only [fld_word48_op, guardOf_word48, fld_word48_ops, ex_lo, ex_hi, ex_ext, ex_ext0, ex_self, bit1_beq, Fmt.ofCode_code5, Fmt.ofCode_code4]
  simp [ex_self,  bit1_beq, Fmt.ofCode_mod32, Fmt.ofCode_mod16, hw]

theorem mapi (g : Guard) (d : BitVec 5) (e : BitVec 5) (epk : BitVec 3) (epn : BitVec 5) : Statement (.mapi g d e epk epn) := by
  intro hw w he sl hs
  refine decodeWord_of_raw hw he ?_
  have e := Option.some.inj (show some _ = some w from he)
  subst e
  simp [slotsOf] at hs
  simp [Instr.wf, okV3, okV2, okAtom] at hw
  rw [ofNat48]
  generalize hx : (word48 _ _ _).setWidth 56 = w
  have ho : (fld w 5 7).toNat = 0x18 := by rw [← hx, fld_word48_op]; rfl
  subst hs
  show rawC w = _
  unfold rawC
  rw [ho]
  show (some (.mapi (guardOf w) (fld w 12 5) (fld w 17 5) (fld w 32 3) (fld w 35 5)) : Option Instr) = _
  subst hx
  simp (disch := decide) only [fld_word48_op, guardOf_word48, fld_word48_ops, ex_lo, ex_hi, ex_ext, ex_ext0, ex_self, bit1_beq, Fmt.ofCode_code5, Fmt.ofCode_code4]
  simp [ex_self,  bit1_beq, Fmt.ofCode_mod32, Fmt.ofCode_mod16, hw]

theorem mapx (g : Guard) (h : BitVec 5) (e : BitVec 5) : Statement (.mapx g h e) := by
  intro hw w he sl hs
  refine decodeWord_of_raw hw he ?_
  have e := Option.some.inj (show some _ = some w from he)
  subst e
  simp [slotsOf] at hs
  simp [Instr.wf, okV3, okV2, okAtom] at hw
  rw [ofNat48]
  generalize hx : (word48 _ _ _).setWidth 56 = w
  have ho : (fld w 5 7).toNat = 0x19 := by rw [← hx, fld_word48_op]; rfl
  subst hs
  show rawC w = _
  unfold rawC
  rw [ho]
  show (some (.mapx (guardOf w) (fld w 22 5) (fld w 17 5)) : Option Instr) = _
  subst hx
  simp (disch := decide) only [fld_word48_op, guardOf_word48, fld_word48_ops, ex_lo, ex_hi, ex_ext, ex_ext0, ex_self, bit1_beq, Fmt.ofCode_code5, Fmt.ofCode_code4]
  simp [ex_self,  bit1_beq, Fmt.ofCode_mod32, Fmt.ofCode_mod16, hw]

theorem mapr (g : Guard) (h : BitVec 5) : Statement (.mapr g h) := by
  intro hw w he sl hs
  refine decodeWord_of_raw hw he ?_
  have e := Option.some.inj (show some _ = some w from he)
  subst e
  simp [slotsOf] at hs
  simp [Instr.wf, okV3, okV2, okAtom] at hw
  rw [ofNat48]
  generalize hx : (word48 _ _ _).setWidth 56 = w
  have ho : (fld w 5 7).toNat = 0x1A := by rw [← hx, fld_word48_op]; rfl
  subst hs
  show rawC w = _
  unfold rawC
  rw [ho]
  show (some (if fld w 30 1 = 1 then .maprAll (guardOf w) (fld w 32 3) (fld w 35 5) else .mapr (guardOf w) (fld w 22 5)) : Option Instr) = _
  subst hx
  simp (disch := decide) only [fld_word48_op, guardOf_word48, fld_word48_ops, ex_lo, ex_hi, ex_ext, ex_ext0, ex_self, bit1_beq, Fmt.ofCode_code5, Fmt.ofCode_code4]
  simp [ex_self,  bit1_beq, Fmt.ofCode_mod32, Fmt.ofCode_mod16, hw]

theorem maprAll (g : Guard) (epk : BitVec 3) (epn : BitVec 5) : Statement (.maprAll g epk epn) := by
  intro hw w he sl hs
  refine decodeWord_of_raw hw he ?_
  have e := Option.some.inj (show some _ = some w from he)
  subst e
  simp [slotsOf] at hs
  simp [Instr.wf, okV3, okV2, okAtom] at hw
  rw [ofNat48]
  generalize hx : (word48 _ _ _).setWidth 56 = w
  have ho : (fld w 5 7).toNat = 0x1A := by rw [← hx, fld_word48_op]; rfl
  subst hs
  show rawC w = _
  unfold rawC
  rw [ho]
  show (some (if fld w 30 1 = 1 then .maprAll (guardOf w) (fld w 32 3) (fld w 35 5) else .mapr (guardOf w) (fld w 22 5)) : Option Instr) = _
  subst hx
  simp (disch := decide) only [fld_word48_op, guardOf_word48, fld_word48_ops, ex_lo, ex_hi, ex_ext, ex_ext0, ex_self, bit1_beq, Fmt.ofCode_code5, Fmt.ofCode_code4]
  simp [ex_self,  bit1_beq, Fmt.ofCode_mod32, Fmt.ofCode_mod16, hw]

theorem mapq (g : Guard) (d : BitVec 5) (h : BitVec 5) : Statement (.mapq g d h) := by
  intro hw w he sl hs
  refine decodeWord_of_raw hw he ?_
  have e := Option.some.inj (show some _ = some w from he)
  subst e
  simp [slotsOf] at hs
  simp [Instr.wf, okV3, okV2, okAtom] at hw
  rw [ofNat48]
  generalize hx : (word48 _ _ _).setWidth 56 = w
  have ho : (fld w 5 7).toNat = 0x1B := by rw [← hx, fld_word48_op]; rfl
  subst hs
  show rawC w = _
  unfold rawC
  rw [ho]
  show (some (.mapq (guardOf w) (fld w 12 5) (fld w 22 5)) : Option Instr) = _
  subst hx
  simp (disch := decide) only [fld_word48_op, guardOf_word48, fld_word48_ops, ex_lo, ex_hi, ex_ext, ex_ext0, ex_self, bit1_beq, Fmt.ofCode_code5, Fmt.ofCode_code4]
  simp [ex_self,  bit1_beq, Fmt.ofCode_mod32, Fmt.ofCode_mod16, hw]

theorem gdecl (g : Guard) (d : BitVec 5) (gs : BitVec 2) (e : BitVec 5) : Statement (.gdecl g d gs e) := by
  intro hw w he sl hs
  refine decodeWord_of_raw hw he ?_
  have e := Option.some.inj (show some _ = some w from he)
  subst e
  simp [slotsOf] at hs
  simp [Instr.wf, okV3, okV2, okAtom] at hw
  rw [ofNat48]
  generalize hx : (word48 _ _ _).setWidth 56 = w
  have ho : (fld w 5 7).toNat = 0x20 := by rw [← hx, fld_word48_op]; rfl
  subst hs
  show rawC w = _
  unfold rawC
  rw [ho]
  show (some (if fld w 24 1 = 1 then .gdeclR (guardOf w) (fld w 22 2) else .gdecl (guardOf w) (fld w 12 5) (fld w 22 2) (fld w 17 5)) : Option Instr) = _
  subst hx
  simp (disch := decide) only [fld_word48_op, guardOf_word48, fld_word48_ops, ex_lo, ex_hi, ex_ext, ex_ext0, ex_self, bit1_beq, Fmt.ofCode_code5, Fmt.ofCode_code4]
  simp [ex_self,  bit1_beq, Fmt.ofCode_mod32, Fmt.ofCode_mod16, hw]

theorem gdeclR (g : Guard) (gs : BitVec 2) : Statement (.gdeclR g gs) := by
  intro hw w he sl hs
  refine decodeWord_of_raw hw he ?_
  have e := Option.some.inj (show some _ = some w from he)
  subst e
  simp [slotsOf] at hs
  simp [Instr.wf, okV3, okV2, okAtom] at hw
  rw [ofNat48]
  generalize hx : (word48 _ _ _).setWidth 56 = w
  have ho : (fld w 5 7).toNat = 0x20 := by rw [← hx, fld_word48_op]; rfl
  subst hs
  show rawC w = _
  unfold rawC
  rw [ho]
  show (some (if fld w 24 1 = 1 then .gdeclR (guardOf w) (fld w 22 2) else .gdecl (guardOf w) (fld w 12 5) (fld w 22 2) (fld w 17 5)) : Option Instr) = _
  subst hx
  simp (disch := decide) only [fld_word48_op, guardOf_word48, fld_word48_ops, ex_lo, ex_hi, ex_ext, ex_ext0, ex_self, bit1_beq, Fmt.ofCode_code5, Fmt.ofCode_code4]
  simp [ex_self,  bit1_beq, Fmt.ofCode_mod32, Fmt.ofCode_mod16, hw]

theorem gq (g : Guard) (d : BitVec 5) (gs : BitVec 2) (sel : BitVec 5) : Statement (.gq g d gs sel) := by
  intro hw w he sl hs
  refine decodeWord_of_raw hw he ?_
  have e := Option.some.inj (show some _ = some w from he)
  subst e
  simp [slotsOf] at hs
  simp [Instr.wf, okV3, okV2, okAtom] at hw
  rw [ofNat48]
  generalize hx : (word48 _ _ _).setWidth 56 = w
  have ho : (fld w 5 7).toNat = 0x21 := by rw [← hx, fld_word48_op]; rfl
  subst hs
  show rawC w = _
  unfold rawC
  rw [ho]
  show (some (.gq (guardOf w) (fld w 12 5) (fld w 22 2) (fld w 24 5)) : Option Instr) = _
  subst hx
  simp (disch := decide) only [fld_word48_op, guardOf_word48, fld_word48_ops, ex_lo, ex_hi, ex_ext, ex_ext0, ex_self, bit1_beq, Fmt.ofCode_code5, Fmt.ofCode_code4]
  simp [ex_self,  bit1_beq, Fmt.ofCode_mod32, Fmt.ofCode_mod16, hw]

theorem tacq (g : Guard) (d : BitVec 5) (e : BitVec 5) : Statement (.tacq g d e) := by
  intro hw w he sl hs
  refine decodeWord_of_raw hw he ?_
  have e := Option.some.inj (show some _ = some w from he)
  subst e
  simp [slotsOf] at hs
  simp [Instr.wf, okV3, okV2, okAtom] at hw
  rw [ofNat48]
  generalize hx : (word48 _ _ _).setWidth 56 = w
  have ho : (fld w 5 7).toNat = 0x28 := by rw [← hx, fld_word48_op]; rfl
  subst hs
  show rawC w = _
  unfold rawC
  rw [ho]
  show (some (.tacq (guardOf w) (fld w 12 5) (fld w 17 5)) : Option Instr) = _
  subst hx
  simp (disch := decide) only [fld_word48_op, guardOf_word48, fld_word48_ops, ex_lo, ex_hi, ex_ext, ex_ext0, ex_self, bit1_beq, Fmt.ofCode_code5, Fmt.ofCode_code4]
  simp [ex_self,  bit1_beq, Fmt.ofCode_mod32, Fmt.ofCode_mod16, hw]

theorem trel (g : Guard) (e : BitVec 5) : Statement (.trel g e) := by
  intro hw w he sl hs
  refine decodeWord_of_raw hw he ?_
  have e := Option.some.inj (show some _ = some w from he)
  subst e
  simp [slotsOf] at hs
  simp [Instr.wf, okV3, okV2, okAtom] at hw
  rw [ofNat48]
  generalize hx : (word48 _ _ _).setWidth 56 = w
  have ho : (fld w 5 7).toNat = 0x29 := by rw [← hx, fld_word48_op]; rfl
  subst hs
  show rawC w = _
  unfold rawC
  rw [ho]
  show (some (.trel (guardOf w) (fld w 17 5)) : Option Instr) = _
  subst hx
  simp (disch := decide) only [fld_word48_op, guardOf_word48, fld_word48_ops, ex_lo, ex_hi, ex_ext, ex_ext0, ex_self, bit1_beq, Fmt.ofCode_code5, Fmt.ofCode_code4]
  simp [ex_self,  bit1_beq, Fmt.ofCode_mod32, Fmt.ofCode_mod16, hw]

theorem qwait (g : Guard) (q : BitVec 5) (n : BitVec 7) : Statement (.qwait g q n) := by
  intro hw w he sl hs
  refine decodeWord_of_raw hw he ?_
  have e := Option.some.inj (show some _ = some w from he)
  subst e
  simp [slotsOf] at hs
  simp [Instr.wf, okV3, okV2, okAtom] at hw
  rw [ofNat40]
  generalize hx : (word40 _ _ _).setWidth 56 = w
  have ho : (fld w 5 6).toNat = 0x01 := by rw [← hx, fld_word40_op]; rfl
  subst hs
  show rawY w = _
  unfold rawY
  rw [ho]
  show (some (.qwait (guardOf w) (fld w 11 5) (fld w 16 7)) : Option Instr) = _
  subst hx
  simp (disch := decide) only [fld_word40_op, guardOf_word40, fld_word40_ops, ex_lo, ex_hi, ex_ext, ex_ext0, ex_self, bit1_beq, Fmt.ofCode_code5, Fmt.ofCode_code4]
  simp [ex_self,  bit1_beq, Fmt.ofCode_mod32, Fmt.ofCode_mod16, hw]

theorem qadv (g : Guard) (q : BitVec 5) (n : BitVec 7) : Statement (.qadv g q n) := by
  intro hw w he sl hs
  refine decodeWord_of_raw hw he ?_
  have e := Option.some.inj (show some _ = some w from he)
  subst e
  simp [slotsOf] at hs
  simp [Instr.wf, okV3, okV2, okAtom] at hw
  rw [ofNat40]
  generalize hx : (word40 _ _ _).setWidth 56 = w
  have ho : (fld w 5 6).toNat = 0x02 := by rw [← hx, fld_word40_op]; rfl
  subst hs
  show rawY w = _
  unfold rawY
  rw [ho]
  show (some (.qadv (guardOf w) (fld w 11 5) (fld w 16 7)) : Option Instr) = _
  subst hx
  simp (disch := decide) only [fld_word40_op, guardOf_word40, fld_word40_ops, ex_lo, ex_hi, ex_ext, ex_ext0, ex_self, bit1_beq, Fmt.ofCode_code5, Fmt.ofCode_code4]
  simp [ex_self,  bit1_beq, Fmt.ofCode_mod32, Fmt.ofCode_mod16, hw]

theorem sarm (g : Guard) (a : BitVec 5) (b : BitVec 5) : Statement (.sarm g a b) := by
  intro hw w he sl hs
  refine decodeWord_of_raw hw he ?_
  have e := Option.some.inj (show some _ = some w from he)
  subst e
  simp [slotsOf] at hs
  simp [Instr.wf, okV3, okV2, okAtom] at hw
  rw [ofNat40]
  generalize hx : (word40 _ _ _).setWidth 56 = w
  have ho : (fld w 5 6).toNat = 0x04 := by rw [← hx, fld_word40_op]; rfl
  subst hs
  show rawY w = _
  unfold rawY
  rw [ho]
  show (some (.sarm (guardOf w) (fld w 11 5) (fld w 16 5)) : Option Instr) = _
  subst hx
  simp (disch := decide) only [fld_word40_op, guardOf_word40, fld_word40_ops, ex_lo, ex_hi, ex_ext, ex_ext0, ex_self, bit1_beq, Fmt.ofCode_code5, Fmt.ofCode_code4]
  simp [ex_self,  bit1_beq, Fmt.ofCode_mod32, Fmt.ofCode_mod16, hw]

theorem swait (g : Guard) (a : BitVec 5) (y : BitVec 5) : Statement (.swait g a y) := by
  intro hw w he sl hs
  refine decodeWord_of_raw hw he ?_
  have e := Option.some.inj (show some _ = some w from he)
  subst e
  simp [slotsOf] at hs
  simp [Instr.wf, okV3, okV2, okAtom] at hw
  rw [ofNat40]
  generalize hx : (word40 _ _ _).setWidth 56 = w
  have ho : (fld w 5 6).toNat = 0x05 := by rw [← hx, fld_word40_op]; rfl
  subst hs
  show rawY w = _
  unfold rawY
  rw [ho]
  show (some (.swait (guardOf w) (fld w 11 5) (fld w 16 5)) : Option Instr) = _
  subst hx
  simp (disch := decide) only [fld_word40_op, guardOf_word40, fld_word40_ops, ex_lo, ex_hi, ex_ext, ex_ext0, ex_self, bit1_beq, Fmt.ofCode_code5, Fmt.ofCode_code4]
  simp [ex_self,  bit1_beq, Fmt.ofCode_mod32, Fmt.ofCode_mod16, hw]

theorem fence (g : Guard) (scope : ScopeCode) (mask : BitVec 16) : Statement (.fence g scope mask) := by
  intro hw w he sl hs
  refine decodeWord_of_raw hw he ?_
  have e := Option.some.inj (show some _ = some w from he)
  subst e
  simp [slotsOf] at hs
  simp [Instr.wf, okV3, okV2, okAtom] at hw
  rw [ofNat40]
  generalize hx : (word40 _ _ _).setWidth 56 = w
  have ho : (fld w 5 6).toNat = 0x08 := by rw [← hx, fld_word40_op]; rfl
  subst hs
  show rawY w = _
  unfold rawY
  rw [ho]
  show (some (.fence (guardOf w) (fld w 27 3) (fld w 11 16)) : Option Instr) = _
  subst hx
  simp (disch := decide) only [fld_word40_op, guardOf_word40, fld_word40_ops, ex_lo, ex_hi, ex_ext, ex_ext0, ex_self, bit1_beq, Fmt.ofCode_code5, Fmt.ofCode_code4]
  simp [ex_self,  bit1_beq, Fmt.ofCode_mod32, Fmt.ofCode_mod16, hw]

theorem gstep (g : Guard) (gs : BitVec 2) (a : BitVec 5) : Statement (.gstep g gs a) := by
  intro hw w he sl hs
  refine decodeWord_of_raw hw he ?_
  have e := Option.some.inj (show some _ = some w from he)
  subst e
  simp [slotsOf] at hs
  simp [Instr.wf, okV3, okV2, okAtom] at hw
  rw [ofNat40]
  generalize hx : (word40 _ _ _).setWidth 56 = w
  have ho : (fld w 5 6).toNat = 0x0C := by rw [← hx, fld_word40_op]; rfl
  subst hs
  show rawY w = _
  unfold rawY
  rw [ho]
  show (some (.gstep (guardOf w) (fld w 16 2) (fld w 11 5)) : Option Instr) = _
  subst hx
  simp (disch := decide) only [fld_word40_op, guardOf_word40, fld_word40_ops, ex_lo, ex_hi, ex_ext, ex_ext0, ex_self, bit1_beq, Fmt.ofCode_code5, Fmt.ofCode_code4]
  simp [ex_self,  bit1_beq, Fmt.ofCode_mod32, Fmt.ofCode_mod16, hw]

theorem barA (g : Guard) (scope : ScopeCode) (id : BitVec 4) (c : BitVec 4) (p : BitVec 4) : Statement (.barA g scope id c p) := by
  intro hw w he sl hs
  refine decodeWord_of_raw hw he ?_
  have e := Option.some.inj (show some _ = some w from he)
  subst e
  simp [slotsOf] at hs
  simp [Instr.wf, okV3, okV2, okAtom] at hw
  rw [ofNat40]
  generalize hx : (word40 _ _ _).setWidth 56 = w
  have ho : (fld w 5 6).toNat = 0x10 := by rw [← hx, fld_word40_op]; rfl
  subst hs
  show rawY w = _
  unfold rawY
  rw [ho]
  show (some (.barA (guardOf w) (fld w 27 3) (fld w 23 4) (fld w 19 4) (fld w 15 4)) : Option Instr) = _
  subst hx
  simp (disch := decide) only [fld_word40_op, guardOf_word40, fld_word40_ops, ex_lo, ex_hi, ex_ext, ex_ext0, ex_self, bit1_beq, Fmt.ofCode_code5, Fmt.ofCode_code4]
  simp [ex_self,  bit1_beq, Fmt.ofCode_mod32, Fmt.ofCode_mod16, hw]

theorem barW (g : Guard) (scope : ScopeCode) (id : BitVec 4) (p : BitVec 4) : Statement (.barW g scope id p) := by
  intro hw w he sl hs
  refine decodeWord_of_raw hw he ?_
  have e := Option.some.inj (show some _ = some w from he)
  subst e
  simp [slotsOf] at hs
  simp [Instr.wf, okV3, okV2, okAtom] at hw
  rw [ofNat40]
  generalize hx : (word40 _ _ _).setWidth 56 = w
  have ho : (fld w 5 6).toNat = 0x11 := by rw [← hx, fld_word40_op]; rfl
  subst hs
  show rawY w = _
  unfold rawY
  rw [ho]
  show (some (.barW (guardOf w) (fld w 27 3) (fld w 23 4) (fld w 15 4)) : Option Instr) = _
  subst hx
  simp (disch := decide) only [fld_word40_op, guardOf_word40, fld_word40_ops, ex_lo, ex_hi, ex_ext, ex_ext0, ex_self, bit1_beq, Fmt.ofCode_code5, Fmt.ofCode_code4]
  simp [ex_self,  bit1_beq, Fmt.ofCode_mod32, Fmt.ofCode_mod16, hw]

theorem bar (g : Guard) (scope : ScopeCode) (id : BitVec 4) (c : BitVec 4) (p : BitVec 4) : Statement (.bar g scope id c p) := by
  intro hw w he sl hs
  refine decodeWord_of_raw hw he ?_
  have e := Option.some.inj (show some _ = some w from he)
  subst e
  simp [slotsOf] at hs
  simp [Instr.wf, okV3, okV2, okAtom] at hw
  rw [ofNat40]
  generalize hx : (word40 _ _ _).setWidth 56 = w
  have ho : (fld w 5 6).toNat = 0x12 := by rw [← hx, fld_word40_op]; rfl
  subst hs
  show rawY w = _
  unfold rawY
  rw [ho]
  show (some (.bar (guardOf w) (fld w 27 3) (fld w 23 4) (fld w 19 4) (fld w 15 4)) : Option Instr) = _
  subst hx
  simp (disch := decide) only [fld_word40_op, guardOf_word40, fld_word40_ops, ex_lo, ex_hi, ex_ext, ex_ext0, ex_self, bit1_beq, Fmt.ofCode_code5, Fmt.ofCode_code4]
  simp [ex_self,  bit1_beq, Fmt.ofCode_mod32, Fmt.ofCode_mod16, hw]

theorem spawn (g : Guard) (t : BitVec 4) (e : BitVec 4) : Statement (.spawn g t e) := by
  intro hw w he sl hs
  refine decodeWord_of_raw hw he ?_
  have e := Option.some.inj (show some _ = some w from he)
  subst e
  simp [slotsOf] at hs
  simp [Instr.wf, okV3, okV2, okAtom] at hw
  rw [ofNat40]
  generalize hx : (word40 _ _ _).setWidth 56 = w
  have ho : (fld w 5 6).toNat = 0x14 := by rw [← hx, fld_word40_op]; rfl
  subst hs
  show rawY w = _
  unfold rawY
  rw [ho]
  show (some (.spawn (guardOf w) (fld w 11 4) (fld w 15 4)) : Option Instr) = _
  subst hx
  simp (disch := decide) only [fld_word40_op, guardOf_word40, fld_word40_ops, ex_lo, ex_hi, ex_ext, ex_ext0, ex_self, bit1_beq, Fmt.ofCode_code5, Fmt.ofCode_code4]
  simp [ex_self,  bit1_beq, Fmt.ofCode_mod32, Fmt.ofCode_mod16, hw]

theorem sjoin (g : Guard) (t : BitVec 4) : Statement (.sjoin g t) := by
  intro hw w he sl hs
  refine decodeWord_of_raw hw he ?_
  have e := Option.some.inj (show some _ = some w from he)
  subst e
  simp [slotsOf] at hs
  simp [Instr.wf, okV3, okV2, okAtom] at hw
  rw [ofNat40]
  generalize hx : (word40 _ _ _).setWidth 56 = w
  have ho : (fld w 5 6).toNat = 0x15 := by rw [← hx, fld_word40_op]; rfl
  subst hs
  show rawY w = _
  unfold rawY
  rw [ho]
  show (some (.sjoin (guardOf w) (fld w 11 4)) : Option Instr) = _
  subst hx
  simp (disch := decide) only [fld_word40_op, guardOf_word40, fld_word40_ops, ex_lo, ex_hi, ex_ext, ex_ext0, ex_self, bit1_beq, Fmt.ofCode_code5, Fmt.ofCode_code4]
  simp [ex_self,  bit1_beq, Fmt.ofCode_mod32, Fmt.ofCode_mod16, hw]

theorem yield (g : Guard) : Statement (.yield g) := by
  intro hw w he sl hs
  refine decodeWord_of_raw hw he ?_
  have e := Option.some.inj (show some _ = some w from he)
  subst e
  simp [slotsOf] at hs
  simp [Instr.wf, okV3, okV2, okAtom] at hw
  rw [ofNat40]
  generalize hx : (word40 _ _ _).setWidth 56 = w
  have ho : (fld w 5 6).toNat = 0x16 := by rw [← hx, fld_word40_op]; rfl
  subst hs
  show rawY w = _
  unfold rawY
  rw [ho]
  show (some (.yield (guardOf w)) : Option Instr) = _
  subst hx
  simp (disch := decide) only [fld_word40_op, guardOf_word40, fld_word40_ops, ex_lo, ex_hi, ex_ext, ex_ext0, ex_self, bit1_beq, Fmt.ofCode_code5, Fmt.ofCode_code4]
  try simp [ex_self,  bit1_beq, Fmt.ofCode_mod32, Fmt.ofCode_mod16, hw]

theorem sleep (g : Guard) (n : BitVec 4) : Statement (.sleep g n) := by
  intro hw w he sl hs
  refine decodeWord_of_raw hw he ?_
  have e := Option.some.inj (show some _ = some w from he)
  subst e
  simp [slotsOf] at hs
  simp [Instr.wf, okV3, okV2, okAtom] at hw
  rw [ofNat40]
  generalize hx : (word40 _ _ _).setWidth 56 = w
  have ho : (fld w 5 6).toNat = 0x17 := by rw [← hx, fld_word40_op]; rfl
  subst hs
  show rawY w = _
  unfold rawY
  rw [ho]
  show (some (.sleep (guardOf w) (fld w 11 4)) : Option Instr) = _
  subst hx
  simp (disch := decide) only [fld_word40_op, guardOf_word40, fld_word40_ops, ex_lo, ex_hi, ex_ext, ex_ext0, ex_self, bit1_beq, Fmt.ofCode_code5, Fmt.ofCode_code4]
  simp [ex_self,  bit1_beq, Fmt.ofCode_mod32, Fmt.ofCode_mod16, hw]

theorem evpost (g : Guard) (a : BitVec 4) (b : BitVec 4) : Statement (.evpost g a b) := by
  intro hw w he sl hs
  refine decodeWord_of_raw hw he ?_
  have e := Option.some.inj (show some _ = some w from he)
  subst e
  simp [slotsOf] at hs
  simp [Instr.wf, okV3, okV2, okAtom] at hw
  rw [ofNat40]
  generalize hx : (word40 _ _ _).setWidth 56 = w
  have ho : (fld w 5 6).toNat = 0x18 := by rw [← hx, fld_word40_op]; rfl
  subst hs
  show rawY w = _
  unfold rawY
  rw [ho]
  show (some (.evpost (guardOf w) (fld w 11 4) (fld w 15 4)) : Option Instr) = _
  subst hx
  simp (disch := decide) only [fld_word40_op, guardOf_word40, fld_word40_ops, ex_lo, ex_hi, ex_ext, ex_ext0, ex_self, bit1_beq, Fmt.ofCode_code5, Fmt.ofCode_code4]
  simp [ex_self,  bit1_beq, Fmt.ofCode_mod32, Fmt.ofCode_mod16, hw]

theorem trap (g : Guard) (imm : BitVec 16) : Statement (.trap g imm) := by
  intro hw w he sl hs
  refine decodeWord_of_raw hw he ?_
  have e := Option.some.inj (show some _ = some w from he)
  subst e
  simp [slotsOf] at hs
  simp [Instr.wf, okV3, okV2, okAtom] at hw
  rw [ofNat40]
  generalize hx : (word40 _ _ _).setWidth 56 = w
  have ho : (fld w 5 6).toNat = 0x20 := by rw [← hx, fld_word40_op]; rfl
  subst hs
  show rawY w = _
  unfold rawY
  rw [ho]
  show (some (.trap (guardOf w) (fld w 11 16)) : Option Instr) = _
  subst hx
  simp (disch := decide) only [fld_word40_op, guardOf_word40, fld_word40_ops, ex_lo, ex_hi, ex_ext, ex_ext0, ex_self, bit1_beq, Fmt.ofCode_code5, Fmt.ofCode_code4]
  simp [ex_self,  bit1_beq, Fmt.ofCode_mod32, Fmt.ofCode_mod16, hw]

theorem eret (g : Guard) (mode : BitVec 2) : Statement (.eret g mode) := by
  intro hw w he sl hs
  refine decodeWord_of_raw hw he ?_
  have e := Option.some.inj (show some _ = some w from he)
  subst e
  simp [slotsOf] at hs
  simp [Instr.wf, okV3, okV2, okAtom] at hw
  rw [ofNat40]
  generalize hx : (word40 _ _ _).setWidth 56 = w
  have ho : (fld w 5 6).toNat = 0x21 := by rw [← hx, fld_word40_op]; rfl
  subst hs
  show rawY w = _
  unfold rawY
  rw [ho]
  show (some (if fld w 13 1 = 1 then .eretT (guardOf w) (fld w 11 2) (fld w 14 4) else .eret (guardOf w) (fld w 11 2)) : Option Instr) = _
  subst hx
  simp (disch := decide) only [fld_word40_op, guardOf_word40, fld_word40_ops, ex_lo, ex_hi, ex_ext, ex_ext0, ex_self, bit1_beq, Fmt.ofCode_code5, Fmt.ofCode_code4]
  simp [ex_self,  bit1_beq, Fmt.ofCode_mod32, Fmt.ofCode_mod16, hw]

theorem eretT (g : Guard) (mode : BitVec 2) (t : BitVec 4) : Statement (.eretT g mode t) := by
  intro hw w he sl hs
  refine decodeWord_of_raw hw he ?_
  have e := Option.some.inj (show some _ = some w from he)
  subst e
  simp [slotsOf] at hs
  simp [Instr.wf, okV3, okV2, okAtom] at hw
  rw [ofNat40]
  generalize hx : (word40 _ _ _).setWidth 56 = w
  have ho : (fld w 5 6).toNat = 0x21 := by rw [← hx, fld_word40_op]; rfl
  subst hs
  show rawY w = _
  unfold rawY
  rw [ho]
  show (some (if fld w 13 1 = 1 then .eretT (guardOf w) (fld w 11 2) (fld w 14 4) else .eret (guardOf w) (fld w 11 2)) : Option Instr) = _
  subst hx
  simp (disch := decide) only [fld_word40_op, guardOf_word40, fld_word40_ops, ex_lo, ex_hi, ex_ext, ex_ext0, ex_self, bit1_beq, Fmt.ofCode_code5, Fmt.ofCode_code4]
  simp [ex_self,  bit1_beq, Fmt.ofCode_mod32, Fmt.ofCode_mod16, hw]

theorem ctxsave (g : Guard) (t : BitVec 4) (a : BitVec 4) : Statement (.ctxsave g t a) := by
  intro hw w he sl hs
  refine decodeWord_of_raw hw he ?_
  have e := Option.some.inj (show some _ = some w from he)
  subst e
  simp [slotsOf] at hs
  simp [Instr.wf, okV3, okV2, okAtom] at hw
  rw [ofNat40]
  generalize hx : (word40 _ _ _).setWidth 56 = w
  have ho : (fld w 5 6).toNat = 0x30 := by rw [← hx, fld_word40_op]; rfl
  subst hs
  show rawY w = _
  unfold rawY
  rw [ho]
  show (some (.ctxsave (guardOf w) (fld w 11 4) (fld w 15 4)) : Option Instr) = _
  subst hx
  simp (disch := decide) only [fld_word40_op, guardOf_word40, fld_word40_ops, ex_lo, ex_hi, ex_ext, ex_ext0, ex_self, bit1_beq, Fmt.ofCode_code5, Fmt.ofCode_code4]
  simp [ex_self,  bit1_beq, Fmt.ofCode_mod32, Fmt.ofCode_mod16, hw]

theorem ctxload (g : Guard) (t : BitVec 4) (a : BitVec 4) (go : Bool) : Statement (.ctxload g t a go) := by
  intro hw w he sl hs
  refine decodeWord_of_raw hw he ?_
  have e := Option.some.inj (show some _ = some w from he)
  subst e
  simp [slotsOf] at hs
  simp [Instr.wf, okV3, okV2, okAtom] at hw
  rw [ofNat40]
  generalize hx : (word40 _ _ _).setWidth 56 = w
  have ho : (fld w 5 6).toNat = 0x31 := by rw [← hx, fld_word40_op]; rfl
  subst hs
  show rawY w = _
  unfold rawY
  rw [ho]
  show (some (.ctxload (guardOf w) (fld w 11 4) (fld w 15 4) (fld w 19 1 == 1)) : Option Instr) = _
  subst hx
  simp (disch := decide) only [fld_word40_op, guardOf_word40, fld_word40_ops, ex_lo, ex_hi, ex_ext, ex_ext0, ex_self, bit1_beq, Fmt.ofCode_code5, Fmt.ofCode_code4]
  simp [ex_self,  bit1_beq, Fmt.ofCode_mod32, Fmt.ofCode_mod16, hw]

theorem pimg (g : Guard) (t : BitVec 4) (a : BitVec 4) : Statement (.pimg g t a) := by
  intro hw w he sl hs
  refine decodeWord_of_raw hw he ?_
  have e := Option.some.inj (show some _ = some w from he)
  subst e
  simp [slotsOf] at hs
  simp [Instr.wf, okV3, okV2, okAtom] at hw
  rw [ofNat40]
  generalize hx : (word40 _ _ _).setWidth 56 = w
  have ho : (fld w 5 6).toNat = 0x32 := by rw [← hx, fld_word40_op]; rfl
  subst hs
  show rawY w = _
  unfold rawY
  rw [ho]
  show (some (.pimg (guardOf w) (fld w 11 4) (fld w 15 4)) : Option Instr) = _
  subst hx
  simp (disch := decide) only [fld_word40_op, guardOf_word40, fld_word40_ops, ex_lo, ex_hi, ex_ext, ex_ext0, ex_self, bit1_beq, Fmt.ofCode_code5, Fmt.ofCode_code4]
  simp [ex_self,  bit1_beq, Fmt.ofCode_mod32, Fmt.ofCode_mod16, hw]

theorem xcvt (g : Guard) (d : Opnd) (a : Opnd) (p : BitVec 8) (fo : Fmt) (fi : Fmt) : Statement (.xcvt g d a p fo fi) := by
  intro hw w he sl hs
  refine decodeWord_of_raw hw he ?_
  have e := Option.some.inj (show some _ = some w from he)
  subst e
  simp [slotsOf] at hs
  simp [Instr.wf, okV3, okV2, okAtom] at hw
  have hd : Opnd.ofCode8 d.code8 = some d := Opnd.of8 (by
    have h2 := hw.2
    split at h2
    · exact Opnd.src_okXReg h2
    · exact Opnd.src_okXDst h2)
  rw [ofNat48]
  generalize hx : (word48 _ _ _).setWidth 56 = w
  have ho : (fld w 5 7).toNat = 0x01 := by rw [← hx, fld_word48_op]; rfl
  subst hs
  show rawX w = _
  unfold rawX
  rw [ho]
  show (do some (.xcvt (guardOf w) (← xD w) (← xA w) (fld w 28 8) (← Fmt.ofCode (fld w 36 5).toNat) (← Fmt.ofCode (fld w 41 5).toNat)) : Option Instr) = _
  subst hx
  simp (disch := decide) only [fld_word48_op, guardOf_word48, xD, xA, xB, fld_word48_ops, ex_lo, ex_hi, ex_ext, ex_ext0, ex_self, bit1_beq, Fmt.ofCode_code5, Fmt.ofCode_code4]
  simp [ex_self,  bit1_beq, Fmt.ofCode_mod32, Fmt.ofCode_mod16, hd, Opnd.of8, Opnd.of8_okXDst, Opnd.of8_okXReg, hw]

theorem xquant (g : Guard) (d : Opnd) (a : Opnd) (b : Opnd) (fo : Fmt) (p : BitVec 3) : Statement (.xquant g d a b fo p) := by
  intro hw w he sl hs
  refine decodeWord_of_raw hw he ?_
  have e := Option.some.inj (show some _ = some w from he)
  subst e
  simp [slotsOf] at hs
  simp [Instr.wf, okV3, okV2, okAtom] at hw
  rw [ofNat48]
  generalize hx : (word48 _ _ _).setWidth 56 = w
  have ho : (fld w 5 7).toNat = 0x02 := by rw [← hx, fld_word48_op]; rfl
  subst hs
  show rawX w = _
  unfold rawX
  rw [ho]
  show (do some (.xquant (guardOf w) (← xD w) (← xA w) (← xB w) (← Fmt.ofCode (fld w 36 5).toNat) (fld w 41 3)) : Option Instr) = _
  subst hx
  simp (disch := decide) only [fld_word48_op, guardOf_word48, xD, xA, xB, fld_word48_ops, ex_lo, ex_hi, ex_ext, ex_ext0, ex_self, bit1_beq, Fmt.ofCode_code5, Fmt.ofCode_code4]
  simp [ex_self,  bit1_beq, Fmt.ofCode_mod32, Fmt.ofCode_mod16, Opnd.of8, Opnd.of8_okXDst, Opnd.of8_okXReg, hw]

theorem xdeq (g : Guard) (d : Opnd) (a : Opnd) (b : Opnd) (p : BitVec 3) (fi : Fmt) : Statement (.xdeq g d a b p fi) := by
  intro hw w he sl hs
  refine decodeWord_of_raw hw he ?_
  have e := Option.some.inj (show some _ = some w from he)
  subst e
  simp [slotsOf] at hs
  simp [Instr.wf, okV3, okV2, okAtom] at hw
  rw [ofNat48]
  generalize hx : (word48 _ _ _).setWidth 56 = w
  have ho : (fld w 5 7).toNat = 0x03 := by rw [← hx, fld_word48_op]; rfl
  subst hs
  show rawX w = _
  unfold rawX
  rw [ho]
  show (do some (.xdeq (guardOf w) (← xD w) (← xA w) (← xB w) (fld w 36 3) (← Fmt.ofCode (fld w 41 5).toNat)) : Option Instr) = _
  subst hx
  simp (disch := decide) only [fld_word48_op, guardOf_word48, xD, xA, xB, fld_word48_ops, ex_lo, ex_hi, ex_ext, ex_ext0, ex_self, bit1_beq, Fmt.ofCode_code5, Fmt.ofCode_code4]
  simp [ex_self,  bit1_beq, Fmt.ofCode_mod32, Fmt.ofCode_mod16, Opnd.of8, Opnd.of8_okXDst, Opnd.of8_okXReg, hw]

theorem xamax (g : Guard) (d : Opnd) (a : Opnd) (b : Opnd) (fo : Fmt) : Statement (.xamax g d a b fo) := by
  intro hw w he sl hs
  refine decodeWord_of_raw hw he ?_
  have e := Option.some.inj (show some _ = some w from he)
  subst e
  simp [slotsOf] at hs
  simp [Instr.wf, okV3, okV2, okAtom] at hw
  rw [ofNat48]
  generalize hx : (word48 _ _ _).setWidth 56 = w
  have ho : (fld w 5 7).toNat = 0x04 := by rw [← hx, fld_word48_op]; rfl
  subst hs
  show rawX w = _
  unfold rawX
  rw [ho]
  show (do some (.xamax (guardOf w) (← xD w) (← xA w) (← xB w) (← Fmt.ofCode (fld w 36 5).toNat)) : Option Instr) = _
  subst hx
  simp (disch := decide) only [fld_word48_op, guardOf_word48, xD, xA, xB, fld_word48_ops, ex_lo, ex_hi, ex_ext, ex_ext0, ex_self, bit1_beq, Fmt.ofCode_code5, Fmt.ofCode_code4]
  simp [ex_self,  bit1_beq, Fmt.ofCode_mod32, Fmt.ofCode_mod16, Opnd.of8, Opnd.of8_okXDst, Opnd.of8_okXReg, hw]

theorem xtr (g : Guard) (d : BitVec 5) (a : BitVec 5) (t : Fmt) : Statement (.xtr g d a t) := by
  intro hw w he sl hs
  refine decodeWord_of_raw hw he ?_
  have e := Option.some.inj (show some _ = some w from he)
  subst e
  simp [slotsOf] at hs
  simp [Instr.wf, okV3, okV2, okAtom] at hw
  rw [ofNat48]
  generalize hx : (word48 _ _ _).setWidth 56 = w
  have ho : (fld w 5 7).toNat = 0x05 := by rw [← hx, fld_word48_op]; rfl
  subst hs
  show rawX w = _
  unfold rawX
  rw [ho]
  show (do some (.xtr (guardOf w) (fld w 12 5) (fld w 20 5) (← Fmt.ofCode (fld w 36 5).toNat)) : Option Instr) = _
  subst hx
  simp (disch := decide) only [fld_word48_op, guardOf_word48, xD, xA, xB, fld_word48_ops, ex_lo, ex_hi, ex_ext, ex_ext0, ex_self, bit1_beq, Fmt.ofCode_code5, Fmt.ofCode_code4]
  simp [ex_self,  bit1_beq, Fmt.ofCode_mod32, Fmt.ofCode_mod16, Opnd.of8, Opnd.of8_okXDst, Opnd.of8_okXReg, hw]

theorem xexp (g : Guard) (q : BitVec 5) (a : BitVec 5) (dbp : Bool) (t : Fmt) (chk : Bool) : Statement (.xexp g q a dbp t chk) := by
  intro hw w he sl hs
  refine decodeWord_of_raw hw he ?_
  have e := Option.some.inj (show some _ = some w from he)
  subst e
  simp [slotsOf] at hs
  simp [Instr.wf, okV3, okV2, okAtom] at hw
  rw [ofNat48]
  generalize hx : (word48 _ _ _).setWidth 56 = w
  have ho : (fld w 5 7).toNat = 0x06 := by rw [← hx, fld_word48_op]; rfl
  subst hs
  show rawX w = _
  unfold rawX
  rw [ho]
  show (do some (.xexp (guardOf w) (fld w 12 5) (fld w 20 5) (fld w 36 2 == 2) (← Fmt.ofCode (fld w 41 5).toNat) (fld w 46 1 == 1)) : Option Instr) = _
  subst hx
  simp (disch := decide) only [fld_word48_op, guardOf_word48, xD, xA, xB, fld_word48_ops, ex_lo, ex_hi, ex_ext, ex_ext0, ex_self, bit1_beq, Fmt.ofCode_code5, Fmt.ofCode_code4]
  simp [ex_self, ex_ring, ex_kind,  bit1_beq, Fmt.ofCode_mod32, Fmt.ofCode_mod16, Opnd.of8, Opnd.of8_okXDst, Opnd.of8_okXReg, hw]

theorem xpack (g : Guard) (d : Opnd) (a : Opnd) (p : BitVec 8) (t : Fmt) : Statement (.xpack g d a p t) := by
  intro hw w he sl hs
  refine decodeWord_of_raw hw he ?_
  have e := Option.some.inj (show some _ = some w from he)
  subst e
  simp [slotsOf] at hs
  simp [Instr.wf, okV3, okV2, okAtom] at hw
  rw [ofNat48]
  generalize hx : (word48 _ _ _).setWidth 56 = w
  have ho : (fld w 5 7).toNat = 0x07 := by rw [← hx, fld_word48_op]; rfl
  subst hs
  show rawX w = _
  unfold rawX
  rw [ho]
  show (do some (.xpack (guardOf w) (← xD w) (← xA w) (fld w 28 8) (← Fmt.ofCode (fld w 36 5).toNat)) : Option Instr) = _
  subst hx
  simp (disch := decide) only [fld_word48_op, guardOf_word48, xD, xA, xB, fld_word48_ops, ex_lo, ex_hi, ex_ext, ex_ext0, ex_self, bit1_beq, Fmt.ofCode_code5, Fmt.ofCode_code4]
  simp [ex_self,  bit1_beq, Fmt.ofCode_mod32, Fmt.ofCode_mod16, Opnd.of8, Opnd.of8_okXDst, Opnd.of8_okXReg, hw]

theorem xunpk (g : Guard) (d : Opnd) (a : Opnd) (p : BitVec 8) (t : Fmt) : Statement (.xunpk g d a p t) := by
  intro hw w he sl hs
  refine decodeWord_of_raw hw he ?_
  have e := Option.some.inj (show some _ = some w from he)
  subst e
  simp [slotsOf] at hs
  simp [Instr.wf, okV3, okV2, okAtom] at hw
  rw [ofNat48]
  generalize hx : (word48 _ _ _).setWidth 56 = w
  have ho : (fld w 5 7).toNat = 0x08 := by rw [← hx, fld_word48_op]; rfl
  subst hs
  show rawX w = _
  unfold rawX
  rw [ho]
  show (do some (.xunpk (guardOf w) (← xD w) (← xA w) (fld w 28 8) (← Fmt.ofCode (fld w 36 5).toNat)) : Option Instr) = _
  subst hx
  simp (disch := decide) only [fld_word48_op, guardOf_word48, xD, xA, xB, fld_word48_ops, ex_lo, ex_hi, ex_ext, ex_ext0, ex_self, bit1_beq, Fmt.ofCode_code5, Fmt.ofCode_code4]
  simp [ex_self,  bit1_beq, Fmt.ofCode_mod32, Fmt.ofCode_mod16, Opnd.of8, Opnd.of8_okXDst, Opnd.of8_okXReg, hw]

theorem xcrc (g : Guard) (d : Opnd) (a : Opnd) (b : Opnd) (n1 : BitVec 6) : Statement (.xcrc g d a b n1) := by
  intro hw w he sl hs
  refine decodeWord_of_raw hw he ?_
  have e := Option.some.inj (show some _ = some w from he)
  subst e
  simp [slotsOf] at hs
  simp [Instr.wf, okV3, okV2, okAtom] at hw
  rw [ofNat48]
  generalize hx : (word48 _ _ _).setWidth 56 = w
  have ho : (fld w 5 7).toNat = 0x09 := by rw [← hx, fld_word48_op]; rfl
  subst hs
  show rawX w = _
  unfold rawX
  rw [ho]
  show (do some (.xcrc (guardOf w) (← xD w) (← xA w) (← xB w) (fld w 36 6)) : Option Instr) = _
  subst hx
  simp (disch := decide) only [fld_word48_op, guardOf_word48, xD, xA, xB, fld_word48_ops, ex_lo, ex_hi, ex_ext, ex_ext0, ex_self, bit1_beq, Fmt.ofCode_code5, Fmt.ofCode_code4]
  simp [ex_self,  bit1_beq, Fmt.ofCode_mod32, Fmt.ofCode_mod16, Opnd.of8, Opnd.of8_okXDst, Opnd.of8_okXReg, hw]

theorem noOperation : Statement (.noOperation) := by
  intro _ w _ sl hs
  exact nomatch (show sl ∈ ([] : List Slot) from hs)

theorem fetchBeyondCode : Statement (.fetchBeyondCode) := by
  intro _ w _ sl hs
  exact nomatch (show sl ∈ ([] : List Slot) from hs)

theorem asynchronousTrap (loc : Nat) (code : Nat) (info : Nat) (aux : Nat) : Statement (.asynchronousTrap loc code info aux) := by
  intro _ w _ sl hs
  exact nomatch (show sl ∈ ([] : List Slot) from hs)

theorem ringEntryFill (loc : Nat) (q : Nat) : Statement (.ringEntryFill loc q) := by
  intro _ w _ sl hs
  exact nomatch (show sl ∈ ([] : List Slot) from hs)

theorem gatherRowFetch (loc : Nat) (q : Nat) (rows : Nat) : Statement (.gatherRowFetch loc q rows) := by
  intro _ w _ sl hs
  exact nomatch (show sl ∈ ([] : List Slot) from hs)

theorem ringEntryDrain (loc : Nat) (q : Nat) : Statement (.ringEntryDrain loc q) := by
  intro _ w _ sl hs
  exact nomatch (show sl ∈ ([] : List Slot) from hs)

theorem drainQueueForward (loc : Nat) (q : Nat) : Statement (.drainQueueForward loc q) := by
  intro _ w _ sl hs
  exact nomatch (show sl ∈ ([] : List Slot) from hs)

theorem chunkDecode (loc : Nat) (q : Nat) (chunk : Nat) : Statement (.chunkDecode loc q chunk) := by
  intro _ w _ sl hs
  exact nomatch (show sl ∈ ([] : List Slot) from hs)

theorem tileWriteComplete (loc : Nat) (acc : Nat) : Statement (.tileWriteComplete loc acc) := by
  intro _ w _ sl hs
  exact nomatch (show sl ∈ ([] : List Slot) from hs)

theorem mlarFillComplete (loc : Nat) : Statement (.mlarFillComplete loc) := by
  intro _ w _ sl hs
  exact nomatch (show sl ∈ ([] : List Slot) from hs)

theorem loadReply (loc : Nat) (entry : Nat) : Statement (.loadReply loc entry) := by
  intro _ w _ sl hs
  exact nomatch (show sl ∈ ([] : List Slot) from hs)

theorem ldrLateReply (loc : Nat) (entry : Nat) : Statement (.ldrLateReply loc entry) := by
  intro _ w _ sl hs
  exact nomatch (show sl ∈ ([] : List Slot) from hs)

theorem storeAck (loc : Nat) (entry : Nat) : Statement (.storeAck loc entry) := by
  intro _ w _ sl hs
  exact nomatch (show sl ∈ ([] : List Slot) from hs)

theorem atomicReply (loc : Nat) (entry : Nat) : Statement (.atomicReply loc entry) := by
  intro _ w _ sl hs
  exact nomatch (show sl ∈ ([] : List Slot) from hs)

theorem homeAccess (pk : Nat) : Statement (.homeAccess pk) := by
  intro _ w _ sl hs
  exact nomatch (show sl ∈ ([] : List Slot) from hs)

theorem packetOffer (pk : Nat) : Statement (.packetOffer pk) := by
  intro _ w _ sl hs
  exact nomatch (show sl ∈ ([] : List Slot) from hs)

theorem pageTableWalk (walk : Nat) : Statement (.pageTableWalk walk) := by
  intro _ w _ sl hs
  exact nomatch (show sl ∈ ([] : List Slot) from hs)

theorem transferSourceRead (loc : Nat) (entry : Nat) : Statement (.transferSourceRead loc entry) := by
  intro _ w _ sl hs
  exact nomatch (show sl ∈ ([] : List Slot) from hs)

theorem cgetSourceResolve (pk : Nat) : Statement (.cgetSourceResolve pk) := by
  intro _ w _ sl hs
  exact nomatch (show sl ∈ ([] : List Slot) from hs)

theorem landingBeat (pk : Nat) : Statement (.landingBeat pk) := by
  intro _ w _ sl hs
  exact nomatch (show sl ∈ ([] : List Slot) from hs)

theorem transferComplete (loc : Nat) (entry : Nat) : Statement (.transferComplete loc entry) := by
  intro _ w _ sl hs
  exact nomatch (show sl ∈ ([] : List Slot) from hs)

theorem jobCardStart (die : Nat) (card : Nat) : Statement (.jobCardStart die card) := by
  intro _ w _ sl hs
  exact nomatch (show sl ∈ ([] : List Slot) from hs)

theorem jobCardComplete (die : Nat) (card : Nat) : Statement (.jobCardComplete die card) := by
  intro _ w _ sl hs
  exact nomatch (show sl ∈ ([] : List Slot) from hs)

theorem haloTimeout (loc : Nat) : Statement (.haloTimeout loc) := by
  intro _ w _ sl hs
  exact nomatch (show sl ∈ ([] : List Slot) from hs)

theorem neighbourCommitNotice (loc : Nat) (grid : Nat) (party : Nat) : Statement (.neighbourCommitNotice loc grid party) := by
  intro _ w _ sl hs
  exact nomatch (show sl ∈ ([] : List Slot) from hs)

theorem barrierRootArrival (pk : Nat) : Statement (.barrierRootArrival pk) := by
  intro _ w _ sl hs
  exact nomatch (show sl ∈ ([] : List Slot) from hs)

theorem phaseFlip (flip : Nat) (core : Nat) : Statement (.phaseFlip flip core) := by
  intro _ w _ sl hs
  exact nomatch (show sl ∈ ([] : List Slot) from hs)

theorem sleepExpiry (loc : Nat) : Statement (.sleepExpiry loc) := by
  intro _ w _ sl hs
  exact nomatch (show sl ∈ ([] : List Slot) from hs)

theorem yieldExpiry (core : Nat) : Statement (.yieldExpiry core) := by
  intro _ w _ sl hs
  exact nomatch (show sl ∈ ([] : List Slot) from hs)

theorem bPriorityPromotion (core : Nat) (slot : Nat) : Statement (.bPriorityPromotion core slot) := by
  intro _ w _ sl hs
  exact nomatch (show sl ∈ ([] : List Slot) from hs)

theorem taskStart (loc : Nat) : Statement (.taskStart loc) := by
  intro _ w _ sl hs
  exact nomatch (show sl ∈ ([] : List Slot) from hs)

theorem recordDelivery (die : Nat) (fatal : Bool) : Statement (.recordDelivery die fatal) := by
  intro _ w _ sl hs
  exact nomatch (show sl ∈ ([] : List Slot) from hs)

theorem disposeTrap (die : Nat) (slot : Nat) : Statement (.disposeTrap die slot) := by
  intro _ w _ sl hs
  exact nomatch (show sl ∈ ([] : List Slot) from hs)

theorem discardParkedTransfer (die : Nat) (slot : Nat) : Statement (.discardParkedTransfer die slot) := by
  intro _ w _ sl hs
  exact nomatch (show sl ∈ ([] : List Slot) from hs)

theorem savePartition (die : Nat) (slot : Nat) : Statement (.savePartition die slot) := by
  intro _ w _ sl hs
  exact nomatch (show sl ∈ ([] : List Slot) from hs)

theorem restorePartition (die : Nat) (slot : Nat) : Statement (.restorePartition die slot) := by
  intro _ w _ sl hs
  exact nomatch (show sl ∈ ([] : List Slot) from hs)

theorem endSlice (die : Nat) (slot : Nat) : Statement (.endSlice die slot) := by
  intro _ w _ sl hs
  exact nomatch (show sl ∈ ([] : List Slot) from hs)

theorem sliceGraceExpiry (loc : Nat) : Statement (.sliceGraceExpiry loc) := by
  intro _ w _ sl hs
  exact nomatch (show sl ∈ ([] : List Slot) from hs)

theorem withdrawReceive (loc : Nat) (ep : Nat) : Statement (.withdrawReceive loc ep) := by
  intro _ w _ sl hs
  exact nomatch (show sl ∈ ([] : List Slot) from hs)

theorem withdrawAck (loc : Nat) (ep : Nat) : Statement (.withdrawAck loc ep) := by
  intro _ w _ sl hs
  exact nomatch (show sl ∈ ([] : List Slot) from hs)

theorem saveStep (die : Nat) : Statement (.saveStep die) := by
  intro _ w _ sl hs
  exact nomatch (show sl ∈ ([] : List Slot) from hs)

theorem retrainLink (die : Nat) (slot : Nat) : Statement (.retrainLink die slot) := by
  intro _ w _ sl hs
  exact nomatch (show sl ∈ ([] : List Slot) from hs)

theorem functionLevelReset (die : Nat) (slot : Nat) : Statement (.functionLevelReset die slot) := by
  intro _ w _ sl hs
  exact nomatch (show sl ∈ ([] : List Slot) from hs)

theorem writeVdRegister (die : Nat) (slot : Nat) : Statement (.writeVdRegister die slot) := by
  intro _ w _ sl hs
  exact nomatch (show sl ∈ ([] : List Slot) from hs)

theorem transInv (die : Nat) (slot : Nat) : Statement (.transInv die slot) := by
  intro _ w _ sl hs
  exact nomatch (show sl ∈ ([] : List Slot) from hs)

theorem attestationReport (die : Nat) (slot : Nat) : Statement (.attestationReport die slot) := by
  intro _ w _ sl hs
  exact nomatch (show sl ∈ ([] : List Slot) from hs)

theorem horizonPublish (loc : Nat) : Statement (.horizonPublish loc) := by
  intro _ w _ sl hs
  exact nomatch (show sl ∈ ([] : List Slot) from hs)

theorem horizonRetire (ep : Nat) (loc : Nat) : Statement (.horizonRetire ep loc) := by
  intro _ w _ sl hs
  exact nomatch (show sl ∈ ([] : List Slot) from hs)

theorem tokenRecall (vd : Nat) (region : Nat) : Statement (.tokenRecall vd region) := by
  intro _ w _ sl hs
  exact nomatch (show sl ∈ ([] : List Slot) from hs)

theorem tokenGrant (vd : Nat) (region : Nat) : Statement (.tokenGrant vd region) := by
  intro _ w _ sl hs
  exact nomatch (show sl ∈ ([] : List Slot) from hs)

theorem tokenHoldExpiry (vd : Nat) (region : Nat) : Statement (.tokenHoldExpiry vd region) := by
  intro _ w _ sl hs
  exact nomatch (show sl ∈ ([] : List Slot) from hs)

theorem tacqRequest (vd : Nat) (region : Nat) : Statement (.tacqRequest vd region) := by
  intro _ w _ sl hs
  exact nomatch (show sl ∈ ([] : List Slot) from hs)

theorem launchPacket (offset : Nat) (data : List Byte) : Statement (.launchPacket offset data) := by
  intro _ w _ sl hs
  exact nomatch (show sl ∈ ([] : List Slot) from hs)

theorem hostStateStore (die : Nat) (offset : Nat) (value : Word) : Statement (.hostStateStore die offset value) := by
  intro _ w _ sl hs
  exact nomatch (show sl ∈ ([] : List Slot) from hs)

theorem hostMemoryAccess (addr : Nat) (write : Bool) (data : List Byte) : Statement (.hostMemoryAccess addr write data) := by
  intro _ w _ sl hs
  exact nomatch (show sl ∈ ([] : List Slot) from hs)

theorem linkPacketReceive (link : Nat) (f : LinkFrame) : Statement (.linkPacketReceive link f) := by
  intro _ w _ sl hs
  exact nomatch (show sl ∈ ([] : List Slot) from hs)

theorem linkAck (link : Nat) (seq : Nat) : Statement (.linkAck link seq) := by
  intro _ w _ sl hs
  exact nomatch (show sl ∈ ([] : List Slot) from hs)

theorem laneFailure (link : Nat) (lane : Nat) : Statement (.laneFailure link lane) := by
  intro _ w _ sl hs
  exact nomatch (show sl ∈ ([] : List Slot) from hs)

theorem linkRetrained (link : Nat) : Statement (.linkRetrained link) := by
  intro _ w _ sl hs
  exact nomatch (show sl ∈ ([] : List Slot) from hs)

theorem linkRetrainTimeout (link : Nat) : Statement (.linkRetrainTimeout link) := by
  intro _ w _ sl hs
  exact nomatch (show sl ∈ ([] : List Slot) from hs)

theorem linkTraining (link : Nat) (version : Nat) (modules : List Nat) : Statement (.linkTraining link version modules) := by
  intro _ w _ sl hs
  exact nomatch (show sl ∈ ([] : List Slot) from hs)

theorem ringSkewMeasure (station : Nat) (cw : Nat) (ccw : Nat) : Statement (.ringSkewMeasure station cw ccw) := by
  intro _ w _ sl hs
  exact nomatch (show sl ∈ ([] : List Slot) from hs)

theorem correctedError (die : Nat) : Statement (.correctedError die) := by
  intro _ w _ sl hs
  exact nomatch (show sl ∈ ([] : List Slot) from hs)

theorem uncorrectableError (addr : Nat) : Statement (.uncorrectableError addr) := by
  intro _ w _ sl hs
  exact nomatch (show sl ∈ ([] : List Slot) from hs)

theorem moduleReset (images : List Nat) : Statement (.moduleReset images) := by
  intro _ w _ sl hs
  exact nomatch (show sl ∈ ([] : List Slot) from hs)

theorem powerOff : Statement (.powerOff) := by
  intro _ w _ sl hs
  exact nomatch (show sl ∈ ([] : List Slot) from hs)

theorem rangeTableInstall (vd : Nat) (entries : List RangeEntry) : Statement (.rangeTableInstall vd entries) := by
  intro _ w _ sl hs
  exact nomatch (show sl ∈ ([] : List Slot) from hs)

theorem virtualDeviceCreation (vd : Nat) (partitions : List Nat) : Statement (.virtualDeviceCreation vd partitions) := by
  intro _ w _ sl hs
  exact nomatch (show sl ∈ ([] : List Slot) from hs)

theorem minimumShareSetting (station : Nat) (vd : Nat) (cls : Nat) (slots : Nat) : Statement (.minimumShareSetting station vd cls slots) := by
  intro _ w _ sl hs
  exact nomatch (show sl ∈ ([] : List Slot) from hs)

end Sys2Proof.Laws.RoundTrip
end

