-- ==== Sys2Proof/Safety.lean ====
section
/-! DEFINITION. What counts as a safe run, and the words in which statements speak of one step: when an operation may issue, what
its operands read as, what it delivers, the machine-wide invariant. -/

namespace Sys2Proof.Machine

/-! ### The invariant, and stepping on -/

/-- What every step keeps: memory in its canonical form. -/
def State.Inv (s : State) : Prop := s.mem.wf = true

/-- A step goes on: it ends in a next state. -/
def State.Goes (s : State) : Prop := ∃ t, step s = .next t

/-! ### When an operation issues -/

/-- What an act answers and the state it leaves, where it completes. -/
def Act.ends {α : Type} (m : Act α) (s : State) : Option (α × State) :=
  match m s with
  | .ok r => some r
  | .error _ => none

/-- Whether the operation issues with its predicate true: no disposed trap passes it over (R344), no earlier operation on its
rings has yet to issue (R99), it is legal (R52), its predicate register can be read and holds (R21), its slot's pipe image has
room (R338), and the draws before its own are known (R113). -/
def mayIssue (i : Instr) (g : Guard) (s : State) : Bool :=
  !s.me.skips.contains (s.cur.slot.num, s.here) && !ringBlocked s i && legal s i &&
  (Act.ends (guardHolds g) s).map (·.1) == some true && !imageFull s i && !drawsUnknown s i

/-- Whether the operation is passed over or held back before its legality is judged: by a disposed trap, or by an earlier operation on
one of its rings (R344, R99). -/
def heldBack (i : Instr) (s : State) : Bool := s.me.skips.contains (s.cur.slot.num, s.here) || ringBlocked s i

/-! ### What operands read as -/

/-- The low 64 bits that a register operand reads as, where the read completes (R61). -/
def State.opnd (s : State) (o : Opnd) : Option Word := (Act.ends (readOp o) s).map (fun r => BitVec.ofNat 64 r.1)

/-- The bits that a register reads as in the issuing slot, where the read completes. -/
def State.regIn (s : State) (r : Reg) : Option Vec := (Act.ends (readReg r) s).map (·.1)

/-- What the issuing operation read a register as at its first attempt to issue: as latched then, or as it reads now (R276). -/
def State.firstRead (s : State) (r : Reg) : Option Nat := (Act.ends (latched (readNat r.file r.idx)) s).map (·.1)

/-- A predicate, inverted where asked, as the issuing slot reads it (R21). -/
def State.predIn (s : State) (p : BitVec 4) (inv : Bool) : Option Bool := (Act.ends (guardHolds ⟨p, inv⟩) s).map (·.1)

/-- A vector operand read under a type, and the state once a ring or drain-queue entry has been consumed (R33, R119). -/
def State.vec (s : State) (t : Fmt) (o : Opnd) : Option (Vec × State) := Act.ends (readVec t o) s

/-- An operand read as 512 raw bits, and the state then (R33, R35). -/
def State.raw (s : State) (o : Opnd) : Option (Vec × State) := Act.ends (readRaw o) s

/-- A k register of the issuing slot, as 64 bits. -/
def State.maskIn (s : State) (k : BitVec 4) : Option Word :=
  (s.regIn ⟨maskFile s.cur.slot, k.toNat⟩).map (fun v => v.setWidth 64)

/-- Lane j of w bits. -/
def laneB (w : Nat) (v : Vec) (j : Nat) : BitVec w := v.extractLsb' (w * j) w

/-! ### What an operation delivers -/

/-- A result of the issuing operation on its way to a register: it lands l steps on, on the bytes of its mask, and the sticky bits
are set then (R23, R121, R80). -/
def State.send (s : State) (r : Reg) (l : Nat) (v : Vec) (mask sticky : Nat) : State :=
  s.setMe (addPend s.me
    { slot := s.cur.slot, dst := some r, val := v, mask := mask, poison := false, li := landingOf s r l, bundle := s.here,
      live := true, done := false, avail := true, moved := false, ifr := none, sticky := sticky,
      uid := 64 * s.free + s.me.pend.length % 64 })

/-- Sticky bits that are due l steps on with a result that lands in no register. -/
def State.stick (s : State) (l sticky : Nat) : State :=
  if sticky = 0 then s
  else s.setMe (addPend s.me
    { slot := s.cur.slot, dst := none, val := 0, mask := 0, poison := false, li := s.here + l, bundle := s.here, live := true,
      done := false, avail := true, moved := false, ifr := none, sticky := sticky,
      uid := 64 * s.free + s.me.pend.length % 64 })

/-- The operation's result on its way to the register it names, as that register's file takes it, with its latency. -/
def State.deliver (s : State) (i : Instr) (v : Vec) (mask sticky : Nat) : State :=
  match destsOf s.cur.slot i with
  | [] => s.stick (latSteps s i) sticky
  | r :: _ => s.send r (latSteps s i) (fitFile r.file v) mask sticky

/-- A 64-bit result on its way to the register that the operation names; a 512-bit register takes it with zeros above (R61). -/
def State.wrote (s : State) (i : Instr) (v : Word) : State := s.deliver i (v.setWidth 512) allBytes 0

/-- The state once lanes of a type have been delivered to a destination under a mask: a register or a ring (R120, R121). -/
def State.lanes (s : State) (i : Instr) (d : Opnd) (t : Fmt) (k : BitVec 4) (f : Nat → Nat) : Option State :=
  (Act.ends (vecPlain i d t k f) s).map (·.2)

/-- The state once lanes with the sticky bits each raises have been delivered (R122). -/
def State.rounded (s : State) (i : Instr) (d : Opnd) (t : Fmt) (k : BitVec 4) (f : Nat → Nat × Nat) : Option State :=
  (Act.ends (vecOut i d t k ((List.range (512 / t.width)).map f)) s).map (·.2)

/-- The bytes that a write mask enables for lanes of w bits: all of them for field 0, else those of the lanes whose lowest byte's bit is
1 in the k register (R121). -/
def State.writeMask (s : State) (w : Nat) (k : BitVec 4) : Option Nat :=
  if k = 0 then some allBytes else (s.maskIn k).map (fun m => laneBytes w m.toNat)

/-- Whether a ring is bound in a direction and no array operation or fill still takes from it (R47, R99, R153). -/
def State.ringFree (s : State) (q : Nat) (out : Bool) (r : Ring) : Prop :=
  s.me.rings.find q = some r ∧ r.dir = out ∧ ringBusy s.me q = false

/-- Whether bits of a fill stream are in the ring, none of them from a marked word (R34, R93, R348). -/
def Ring.has (r : Ring) (start len : Nat) : Prop :=
  (∀ b, r.streamBits = some b → start < b) ∧
  (match r.streamBits with | some b => min (start + len) b | none => start + len) ≤ r.filled ∧ r.errFrom start len = none

/-- Whether bits more fit a drain ring: its stream goes on that far, and the ring has the entries (R93, R34). -/
def State.ringTakes (s : State) (q : Nat) (r : Ring) (len : Nat) : Prop :=
  (∀ b, r.streamBits = some b → r.writePos + len ≤ b) ∧ ceilDiv (r.writePos + len) 512 - r.moved ≤ ringDepth s.me q

/-- A drain ring with bits placed at its write pointer, landing l steps on (R33, R120). -/
def State.place (s : State) (q : Nat) (r : Ring) (x len l : Nat) : State :=
  setRing q { r with entries := pushBits (s.cur.slot.num, s.here + l, s.me.frame.isSome) (len + 2) r.entries x len } s

/-- The state once an X result has gone to a register or, raw, to a ring (R161, R163). -/
def State.xres (s : State) (i : Instr) (d : Opnd) (v st : Nat) : Option State := (Act.ends (xOut i d v st) s).map (·.2)

/-! ### Memory accesses -/

/-- Whether the issuer may read n bytes at an address of a near window at issue: its banks are in the mask, no word is marked (R89,
R320, R348). -/
def State.canRead (s : State) (a n : Nat) : Bool :=
  banksOk s s.cur.loc ((List.range n).map (a + ·)) &&
  (errorMark s ((List.range n).map (fun j => nearPhys s s.cur.loc (a + j)))).isNone

/-- Whether it may write those of n bytes that a mask names: their banks are in the mask in force (R320). -/
def State.canWrite (s : State) (a n mask : Nat) : Bool :=
  banksOk s s.cur.loc (((List.range n).filter (fun j => mask.testBit j)).map (a + ·))

/-- The home of a device-memory address, where the issuer's translation answers with one (R83, R280). -/
def State.home (s : State) (va : Nat) (write remote : Bool) : Option Nat :=
  (Act.ends (Act.home va write remote) s).map (·.1)

/-- The homes of line accesses: physical address, address, byte offset, length (R86). -/
def State.homes (s : State) (write : Bool) (ls : List (Nat × Nat × Nat)) : Option (List (Nat × Nat × Nat × Nat)) :=
  (Act.ends (homesOf write ls) s).map (·.1)

/-- The in-flight entry that an access of the issuing operation takes, with its requests (R355, R356). -/
def State.entry (s : State) (e : Ifr) (reqs : List (Nat × Nat × Nat × PktKind)) : Ifr :=
  { e with
    state := 1, key := accessKey s.me, id := s.me.access, num := s.me.task.num, lseq := s.me.task.lseq, slot := s.cur.slot
    left := reqs.length, bundle := s.here, era := eraOf s.me, alloc := s.me.access, reqs := reqs.map (fun r => (r.2.1, r.2.2.1, r.2.2.2)), homes := reqs.map (·.1) }

/-- The state once an entry has been taken and its requests are in the fabric (R355, R356). -/
def State.opened (s : State) (k : Nat) (e : Ifr) (reqs : List (Nat × Nat × Nat × PktKind)) : State :=
  reqs.foldl (fun t r => emit t (accessPacket t s.cur.loc k (s.entry e reqs) r.1 r.2.1 r.2.2.1 r.2.2.2))
    (s.setMe { s.me with ifr := s.me.ifr.put k (s.entry e reqs), access := (s.me.access + 1) % 2 ^ 30 })

/-- A result that an entry will bring, if it has a destination: scoreboarded, or poisoned at its landing index (R88, R282). -/
def State.awaiting (s : State) (r : Option Reg) (l k : Nat) (poison : Bool) : State :=
  match r with
  | none => s
  | some r => s.setMe (addPend s.me
      { slot := s.cur.slot, dst := some r, val := 0, mask := allBytes, poison := poison, li := landingOf s r l, bundle := s.here
        live := true, done := false, avail := poison, moved := false, ifr := some k, sticky := 0
        uid := 64 * s.free + s.me.pend.length % 64 })

/-- A result for a register, if there is one. -/
def State.into (s : State) (r : Option Reg) (l : Nat) (v : Vec) : State :=
  match r with
  | none => s
  | some r => s.send r l (fitFile r.file v) allBytes 0

/-- A free in-flight entry of the issuer, the lowest (R355). -/
def State.freeEntry (s : State) : Option Nat := s.me.ifr.free Config.ifrEntries

/-- Bytes written at an address of a near window under a mask (R86, R89). -/
def State.near (s : State) (a : Nat) (bytes : List Byte) (mask : Nat) : State := nearWrite s s.cur.loc a bytes mask

/-- The entry of a load or an atomic before it is taken: kind, class, address, bytes, type, destination, landing index. -/
def State.readEntry (s : State) (kind : Nat) (cls : BitVec 4) (va n : Nat) (t : Fmt) (r : Option Reg) (l : Nat) : Ifr :=
  { Ifr.blank with
    kind := kind, cls := cls.toNat, scope := s.scope 0, target := va, len := n, rtype := t.code, dst := r, li := s.here + l }

/-- The entry of a store before it is taken. -/
def State.writeEntry (s : State) (kind : Nat) (cls : BitVec 4) (va n : Nat) : Ifr :=
  { Ifr.blank with kind := kind, cls := cls.toNat, scope := s.scope 0, idem := 1, target := va, len := n }

/-- A 64-byte block of the issuer's local store that can be read (R92). -/
def State.blockOk (s : State) (a n align : Nat) : Prop :=
  a % align = 0 ∧ a + n ≤ Config.localBytes ∧ errorMark s ((List.range n).map (fun j => nearPhys s s.cur.loc (a + j))) = none

/-- The routing counters of the issuer's partition with ids counted (R253, R254). -/
def State.counted (s : State) (ids : List Nat) : State :=
  let p := partOf s.cur.loc
  s.setQuad p { s.quadAt p with ctr := ids.foldl countId (s.quadAt p).ctr }

/-- Whether an address may be that of a remote access of n bytes (R280). -/
def remoteOk (va n : Nat) : Prop := 2 ^ 32 ≤ va ∧ va < 2 ^ 52 ∧ va % n = 0

/-- Whether the issuer's die holds the token of an address's region and no recall has reached it (R291). -/
def State.holdsToken (s : State) (va : Nat) : Bool :=
  (s.tokenAt s.myVd va).holder == some (podDie s) && !(s.tokenAt s.myVd va).reached

/-- n bytes of the issuer's local store as a number, where no word of them is marked (R348). -/
def State.localNat (s : State) (a n : Nat) : Option Nat := (Act.ends (readLocal a n) s).map (·.1)

/-- The descriptor of a transfer at a local-store address, where it can be read and passes its own checks (R237, R238). -/
def State.transferAt (s : State) (a : Nat) : Option TransferDesc := (Act.ends (readTransfer a) s).map (·.1)

/-- The endpoint of the issuer's die that EPK and EPN name, where the device may use it (R236, R320). -/
def State.ownEp (s : State) (epk epn : Nat) : Option Nat := (Act.ends (ownEndpoint epk epn) s).map (·.1)

/-- The endpoint and slot that a handle names (R236). -/
def State.handle (s : State) (h : Nat) : Option (Nat × Nat) := (Act.ends (handleSlot h) s).map (·.1)

/-- The map entry at a local-store address, with generation 0 (R241). -/
def State.mapAt (s : State) (a : Nat) : Option MapEntry := (Act.ends (readMap a) s).map (·.1)

/-- The state once a transfer's entry has been taken on a channel and counted (R231, R355, R328). -/
def State.startsTransfer (s : State) (k ch : Nat) (e : Ifr) : State := openTransfer s s.cur.loc k ch .C s.here e

/-- What a transfer operation delivers: the id its transfer took (R231). -/
def State.nextOn (s : State) (ch : Nat) : Word := BitVec.ofNat 64 (nextId s.me ch)

/-! ### Barriers -/

/-- The entry that keeps an arrival until its root has counted it (R355, R361). -/
def State.arrivalEntry (s : State) (scope id n : Nat) : Ifr :=
  { Ifr.blank with
    kind := 11, scope := scope, idem := 2, state := 1, key := accessKey s.me, id := s.me.access, num := s.me.task.num
    lseq := s.me.task.lseq, target := id + 16 * scope, slot := .Y, bundle := s.here, left := 1, code := n, era := eraOf s.me
    alloc := s.me.access }

/-- The state once an arrival has been sent to its root from a scope above the core, and counted in the leaf's copy of the
barrier where the root stands in another module (R305, R306). -/
def State.sendsArrival (s : State) (scope id n k : Nat) : State :=
  let u := (copyArrival s s.myVd (barrierKey s s.cur.loc scope id) n (fullLoc s s.cur.loc)).setMe
    { s.me with ifr := s.me.ifr.put k (s.arrivalEntry scope id n), access := (s.me.access + 1) % 2 ^ 30 }
  emit u
    { id := 0, kind := .arrival (barrierKey s s.cur.loc scope id) n, key := accessKey s.me, src := u.module, loc := s.cur.loc
      entry := k, cls := 0, chan := 0, dst := rootModule u s.myVd scope, ep := barrierEp, addr := 0, va := 0, off := 0, ca := false
      accepted := scope < 5, refused := false }

/-- Whether an arrival of n raises a trap (R306). -/
def State.misused (s : State) (scope id n : Nat) : Bool :=
  (barrierView s s.myVd (barrierKey s s.cur.loc scope id)).misuse n (scopeSeqs s s.cur.loc scope) (fullLoc s s.cur.loc)

/-- The phase that an arrival is made in, with what is on its way to the root counted (R306). -/
def State.arrivesIn (s : State) (scope id : Nat) : Nat := (barrierView s s.myVd (barrierKey s s.cur.loc scope id)).ph

/-- The state once an arrival of n has been made: counted at once up to the core, else sent by a free entry (R306). -/
def State.arrived (s : State) (scope id n : Nat) : Option State :=
  if scope < 3 then some (countArrival s s.myVd (barrierKey s s.cur.loc scope id) n (fullLoc s s.cur.loc))
  else s.freeEntry.map (s.sendsArrival scope id n)

/-- Whether a barrier has flipped past a phase at the issuer's leaf (R307). -/
def State.flipped (s : State) (scope id ph : Nat) : Prop :=
  let d := wrap 32 ((leafPhase s s.myVd (barrierKey s s.cur.loc scope id) (coreOf s.cur.loc) : Int) - ph)
  1 ≤ d ∧ d < 2 ^ 31

/-- What s16 to s23 read as in the issuing slot (R308). -/
def State.passed (s : State) : Option (List (Nat × Vec)) :=
  (Act.ends (readPassed [16, 17, 18, 19, 20, 21, 22, 23]) s).map (·.1)

/-- Whether y names, on the issuer's die, a sequencer that is eligible in the issuer's launch (R308). -/
def State.spawnable (s : State) (y : Nat) : Prop :=
  y < 64 ∧ ∃ l, launchOf s s.cur.loc = some l ∧ l.elig.contains (64 * dieOf s.cur.loc + y) = true

/-! ### Commands -/

/-- Whether a command of an operation is the next of a die, in the version that the machine takes (R376, R382). -/
def State.commandReady (s : State) (die slot op : Nat) : Prop :=
  let k := s.dieAt die
  k.due.head? = some slot ∧ bitsAt (k.dword slot 0) 8 16 = 1 ∧ k.op slot = op

/-- The state once a die has taken its next command. -/
def State.taken (s : State) (die : Nat) : State := s.setDie die { s.dieAt die with due := (s.dieAt die).due.drop 1 }

/-- Dword n of a command (R376). -/
def State.arg (s : State) (die slot n : Nat) : Nat := (s.dieAt die).dword slot n

/-! ### Contexts and packets -/

/-- The pages of a context at an address of the device-memory window, where the issuer's translation answers for each (R352). -/
def State.pages (s : State) (va : Nat) (write : Bool) : Option (List Nat) := (Act.ends (pagesOf va write 32) s).map (·.1)

/-- Whether a location is another sequencer of the module, which a supervisor operation may name (R346). -/
def State.otherSeq (s : State) (loc : Nat) : Prop := loc < 512 ∧ loc ≠ s.cur.loc

/-- The first answer in the fabric for an entry of a sequencer. -/
def State.answerFor (s : State) (loc entry : Nat) : Option Packet :=
  s.net.find? (fun p => !p.asks && p.src == s.module && p.loc == loc && p.entry == entry)

/-- Whether a packet may be served at its place now: accepted, at its module, behind no packet of its flow (R379, R380). -/
def State.atHome (s : State) (pk : Nat) (p : Packet) : Prop :=
  s.packet pk = some p ∧ p.accepted = true ∧ p.dst = s.module ∧ flowBlocked s p = false

/-- An entry that has taken an answer's bits and sticky bits (R355). -/
def Ifr.taking (e : Ifr) (p : Packet) (x st : Nat) : Ifr :=
  { e with
    reply := e.reply ||| BitVec.ofNat 512 (x * 2 ^ (8 * p.off)), sticky := Nat.lor e.sticky st, left := e.left - 1 }

/-- What one answer does to the entry that it reaches: its data is kept, and the last one completes the access; a refusal leaves the
trap to be raised (R88, R287, R336). -/
def State.answered (s : State) (p : Packet) (e : Ifr) : State :=
  let u := dropPacket s p.id
  let q := u.seqAt p.loc
  match p.kind with
  | .reply x st =>
    if e.left = 1 ∨ e.left = 0 then completeAccess u p.loc p.entry (e.taking p x st)
    else u.setSeq p.loc { q with ifr := q.ifr.put p.entry (e.taking p x st) }
  | .refuse c i => u.setSeq p.loc { q with ifr := q.ifr.put p.entry { e with state := 4, fault := 1, code := c, info := i } }
  | _ => u

/-! ### Tiles, drain queues and the Larder -/

/-- The state once the issuer's due and complete tile writes have been performed (R143). -/
def State.landed (s : State) : State := landTiles s s.cur.loc

/-- A tile write of the issuing operation on its way (R143). -/
def State.queueTile (s : State) (acc : Nat) (k : TileKind) : State :=
  s.setMe { s.me with tiles := s.me.tiles ++ [⟨acc, k, s.here + latency s.me 14, s.me.frame.isSome⟩] }

/-- Whether M may push entries into a drain queue (R154, R160): the popping slots have issued the bundle before, and it
has room for them. -/
def State.dqReady (s : State) (n count : Nat) : Prop :=
  (∀ x ∈ [Slot.V0, .V1, .W, .C, .X], s.here ≤ stepOf s.me x) ∧ dqRoom s.me n + count ≤ 64

/-- An entry of M on its way into a drain queue, landing l steps on (R35, R154). -/
def State.pushQueue (s : State) (n : Nat) (v : Vec) (l : Nat) : State :=
  let es := dqKeep s.me (s.me.dqs.look [] n)
  s.setMe { s.me with dqs := s.me.dqs.put n (es ++
    [⟨v, s.here + l, s.here, false, s.me.frame.isSome, none, 64 * s.free + es.length % 64⟩]) }

/-- Entries on their way into a drain queue, each landing one step after the one before (R154). -/
def State.pushQueueAll (s : State) (n l : Nat) (xs : List Nat) : State :=
  ((List.range xs.length).zip xs).foldl (fun t e => t.pushQueue n (BitVec.ofNat 512 e.2) (l + e.1)) s

/-- The header of a slab at a Larder line of the issuer's window (R146). -/
def State.header (s : State) (l : Nat) : Nat := (larderLine s s.cur.loc l).toNat

/-- Whether an array operation of kn elements may issue (R144, R152, R153): the array is free, its ring (of the operation's format and scaling, or it were not
legal) holds its A operand's first elements, the slab at line l is written and fits the operation, and the run of a scaled one fits too. -/
def State.arrayTakes (s : State) (q : Nat) (r : Ring) (af bf : Fmt) (kn l run : Nat) (scaled : Bool) : Prop :=
  (s.coreAt (coreOf s.cur.loc)).arrayTo ≤ s.now ∧ s.ringFree q false r ∧ l < larderWindow s.me ∧
  linesWritten s.me l 1 = false ∧ headerOk (s.header l) (larderWindow s.me) l bf kn scaled = true ∧
  linesWritten s.me l (bitsAt (s.header l) 64 16) = false ∧ (scaled = true → runOk r (s.header l) run kn = true) ∧
  (r.gather = true ∨ r.readPos + 128 * kn * r.width ≤ r.total * r.width) ∧
  r.has r.readPos (min (128 * kn * r.width) (512 - r.readPos % 512)) ∧
  (expandRows s s.cur.loc bf.width kn (l + 1 + 4 * bitsAt (s.header l) 14 3)).2 ≤ larderWindow s.me

/-- The array operation that issues then, before it has taken an element (R152, R153). -/
def State.arrayOp (s : State) (q : Nat) (r : Ring) (af bf : Fmt) (kn l run : Nat) : ArrayOp :=
  { ring := q, af := af, bf := bf, kn := kn, abits := 0, taken := 0, ascale := 0, blk := r.blk, k0 := bitsAt run 16 16
    brows := (expandRows s s.cur.loc bf.width kn (l + 1 + 4 * bitsAt (s.header l) 14 3)).1
    bscale := (List.range (4 * bitsAt (s.header l) 14 3)).map (fun j => larderLine s s.cur.loc (l + 1 + j)) }

/-- The state once it has issued: it holds the array, its tile write is queued, it takes what its ring holds, and the operation is counted. -/
def State.arrayIssued (s : State) (acc q : Nat) (o : ArrayOp) : State :=
  let u := s.setCore (coreOf s.cur.loc) { s.coreAt (coreOf s.cur.loc) with arrayTo := s.now + Config.arrayTime }
  perf (feedRing (u.queueTile acc (.array o)) s.cur.loc q) s.cur.loc 2 1

/-- A condition of Table 4.3 on two patterns. -/
def holdsCc {w : Nat} (cc : BitVec 4) (x y : BitVec w) : Bool :=
  match cc.toNat with
  | 0 => x == y
  | 1 => x != y
  | 2 => x.slt y
  | 3 => x.sle y
  | 4 => y.slt x
  | 5 => y.sle x
  | 6 => x.ult y
  | 7 => x.ule y
  | 8 => y.ult x
  | 9 => y.ule x
  | 10 => (x &&& y) != 0
  | _ => (x &&& y) == 0

/-- Where a taken control transfer leads (R73, R74): past its target's check fetch goes on there, with the loop levels that do not
contain the target popped where asked, then more happens and the slot advances; otherwise trap 0x11 with the target as INFO. -/
def State.transfer (s : State) (target : Int) (leave : Bool) (more : State → State) : State :=
  if 0 ≤ target ∧ target < s.me.task.codeLen ∧ target % 64 = 0 then
    advance (more (s.setMe
      { s.me with
        hold := none, pc := target.toNat
        loops := if leave then s.me.loops.dropWhile (fun l =>
          !(decide (l.fin - (l.len - 1) * 64 ≤ target.toNat) && decide (target.toNat ≤ l.fin))) else s.me.loops }))
  else trapHere s 0x11 (target % 2 ^ 64).toNat

/-! ### Shapes of statements -/

/-- An operation of two scalar sources completes with a value that depends on them. -/
def Computes2 (mk : Guard → Opnd → Opnd → Opnd → Instr) (f : Word → Word → Word) : Prop :=
  ∀ g d a b s x y, mayIssue (mk g d a b) g s = true → s.opnd a = some x → s.opnd b = some y →
    exec (mk g d a b) s = .next (advance (s.wrote (mk g d a b) (f x y)))

/-- An operation of one scalar source completes with a value that depends on it. -/
def Computes1 (mk : Guard → Opnd → Opnd → Instr) (f : Word → Word) : Prop :=
  ∀ g d a s x, mayIssue (mk g d a) g s = true → s.opnd a = some x →
    exec (mk g d a) s = .next (advance (s.wrote (mk g d a) (f x)))

/-- A lane-wise operation of two sources completes with lanes that depend on theirs. -/
def LaneWise2 (mk : Guard → Opnd → Opnd → Opnd → Fmt → BitVec 4 → Instr)
    (f : (t : Fmt) → BitVec t.width → BitVec t.width → BitVec t.width) : Prop :=
  ∀ g d a b t k s x y s1 s2 s3, mayIssue (mk g d a b t k) g s = true → s.vec t a = some (x, s1) → s1.vec t b = some (y, s2) →
    s2.lanes (mk g d a b t k) d t k (fun j => (f t (laneB t.width x j) (laneB t.width y j)).toNat) = some s3 →
    exec (mk g d a b t k) s = .next (advance s3)

/-- A lane-wise operation of one source completes with lanes that depend on its lanes. -/
def LaneWise1 (mk : Guard → Opnd → Opnd → Fmt → BitVec 4 → Instr) (f : (t : Fmt) → BitVec t.width → BitVec t.width) : Prop :=
  ∀ g d a t k s x s1 s3, mayIssue (mk g d a t k) g s = true → s.vec t a = some (x, s1) →
    s1.lanes (mk g d a t k) d t k (fun j => (f t (laneB t.width x j)).toNat) = some s3 →
    exec (mk g d a t k) s = .next (advance s3)

/-- An operation of one vector source completes with lanes that are a function of the lane number and the source. -/
def LanesFrom (mk : Guard → Opnd → Opnd → Fmt → BitVec 4 → Instr) (f : (t : Fmt) → Vec → Nat → Nat) : Prop :=
  ∀ g d a t k s x s1 s3, mayIssue (mk g d a t k) g s = true → s.vec t a = some (x, s1) →
    s1.lanes (mk g d a t k) d t k (f t x) = some s3 → exec (mk g d a t k) s = .next (advance s3)

/-- A floating operation of two sources completes with lanes rounded once, each with the sticky bits it raises (R135). -/
def Rounds2 (mk : Guard → Opnd → Opnd → Opnd → Fmt → BitVec 4 → Instr) (f : Num → Num → Num) : Prop :=
  ∀ g d a b t k s x y s1 s2 s3, mayIssue (mk g d a b t k) g s = true → s.vec t a = some (x, s1) → s1.vec t b = some (y, s2) →
    s2.rounded (mk g d a b t k) d t k (fun j =>
      let u := decodeNum t (lane x j t.width)
      let v := decodeNum t (lane y j t.width)
      floatLane t (f u v) [u, v]) = some s3 →
    exec (mk g d a b t k) s = .next (advance s3)

/-- A floating operation of three sources, the third its destination's old value, rounds once (R135). -/
def Rounds3 (mk : Guard → Opnd → Opnd → Opnd → Fmt → BitVec 4 → Instr) (f : Num → Num → Num → Num) : Prop :=
  ∀ g d a b t k s x y z s1 s2 s2' s3, mayIssue (mk g d a b t k) g s = true → s.vec t a = some (x, s1) →
    s1.vec t b = some (y, s2) → s2.raw d = some (z, s2') →
    s2'.rounded (mk g d a b t k) d t k (fun j =>
      let u := decodeNum t (lane x j t.width)
      let v := decodeNum t (lane y j t.width)
      let w := decodeNum t (lane z j t.width)
      floatLane t (f u v w) [u, v, w]) = some s3 →
    exec (mk g d a b t k) s = .next (advance s3)

/-- A floating choice of two sources completes with lanes that no rounding changes (R136). -/
def Chooses2 (mk : Guard → Opnd → Opnd → Opnd → Fmt → BitVec 4 → Instr) (f : Num → Num → Num) : Prop :=
  ∀ g d a b t k s x y s1 s2 s3, mayIssue (mk g d a b t k) g s = true → s.vec t a = some (x, s1) → s1.vec t b = some (y, s2) →
    s2.lanes (mk g d a b t k) d t k (fun j =>
      (roundNear t (f (decodeNum t (lane x j t.width)) (decodeNum t (lane y j t.width)))).1) = some s3 →
    exec (mk g d a b t k) s = .next (advance s3)

/-- A function of f32 lanes completes with what it gives for each lane, with its sticky bits (R138). -/
def Approximates (mk : Guard → Opnd → Opnd → Fmt → BitVec 4 → Instr) (f : Num → Nat × Nat) : Prop :=
  ∀ g d a t k s x s1 s3, mayIssue (mk g d a t k) g s = true → s.vec .f32 a = some (x, s1) →
    s1.rounded (mk g d a t k) d .f32 k (fun j => f (decodeNum .f32 (lane x j 32))) = some s3 →
    exec (mk g d a t k) s = .next (advance s3)

/-- A load of n bytes completes (R84, R86, R88): at issue from a near window, by an in-flight entry from device memory; an address that
is not aligned, or bytes in no single window, trap. -/
def Loads (i : Instr) (g : Guard) (a b : Opnd) (n : Nat) (aligned : Bool) (cls : BitVec 4) (t : Fmt) : Prop :=
  ∀ s x y, mayIssue i g s = true → s.opnd a = some x → s.opnd b = some y →
    let va := (x + y).toNat
    let r := (destsOf s.cur.slot i).head?
    (aligned = true → va % n ≠ 0 → exec i s = .next (trapHere s 0x11 va)) ∧
    ((aligned = true → va % n = 0) →
      (windowOf va n = none → exec i s = .next (trapHere s 0x11 va)) ∧
      (∀ w, windowOf va n = some w → w ≠ 13 → s.canRead va n = true →
        exec i s = .next (advance (s.into r (latency s.me w) (BitVec.ofNat 512 (loadValue t.code n (nearNat s s.cur.loc va n)))))) ∧
      (∀ hs k, windowOf va n = some 13 → s.homes false (lineAccesses va n) = some hs → s.freeEntry = some k →
        exec i s = .next (advance ((s.opened k (s.readEntry 1 cls va n t r (latency s.me 13))
          (hs.map (fun h => (h.1, h.2.1, h.2.2.1, .read h.2.2.2)))).awaiting r (latency s.me 13) k false))))

/-- A store of n bytes at an address under a mask completes, whose data x has been read by the state s1 (R85, R86, R88). -/
def Stores (i : Instr) (s s1 : State) (va n mask x : Nat) (cls : BitVec 4) (w : Nat) : Prop :=
  (w ≠ 13 → s.canWrite va n mask = true → s1.canWrite va n mask = true →
    exec i s = .next (advance (s1.near va (toBytes n x) mask))) ∧
  (∀ hs k, w = 13 → s.homes true ((lineAccesses va n).filter (fun l => bitsAt mask l.2.1 l.2.2 != 0)) = some hs →
    s.freeEntry.isSome = true → s1.freeEntry = some k →
    exec i s = .next (advance (s1.opened k (s.writeEntry 2 cls va n) (hs.map (fun h => (h.1, h.2.1, h.2.2.1,
      .write (toBytes h.2.2.2 (x / 2 ^ (8 * h.2.2.1))) (bitsAt mask h.2.2.1 h.2.2.2)))))))

/-- The state after what an ordered form does once its atomic has been issued (R250): with acquire what a fence
would wait for, the atomic with it, holds back what comes after. -/
def State.ordered (s : State) (ord scope : Nat) : State :=
  if ord % 2 = 1 then
    s.setMe { s.me with ifr := s.me.ifr.map (fun e =>
      if (poBefore s.me .W s.here e.2 || (e.2.slot == .W && e.2.bundle == s.here)) && fenceAwaits s s.cur.loc scope 0xFFFF e.2 then
        (e.1, { e.2 with acq := some (beatsInScope s s.cur.loc scope e.2, eraOf s.me, s.here) })
      else e) }
  else s

/-- Whether nothing holds back an ordered form before its atomic (R250): a release waits for what a fence would wait for. -/
def State.orderOpen (s : State) (ord scope : Nat) : Bool :=
  !(decide (ord / 2 = 1) && fenceWaits s s.cur.loc .W scope 0xFFFF)

/-- Sticky bits set at issue. -/
def State.sticky (s : State) (st : Nat) : State :=
  if st = 0 then s else s.setMe { s.me with conv := s.me.conv ||| BitVec.ofNat 64 st }

/-- An atomic of the W slot completes (R248 to R251), given its operation's code and compare value: at issue in a near window, by an
in-flight entry in device memory; a misaligned address traps. -/
def AtomicCompletes (i : Instr) (g : Guard) (op : Nat) (wd : BitVec 5) (a b : Opnd) (nr : Bool) (ord : BitVec 2) (cls : BitVec 4)
    (t : Fmt) : Prop :=
  ∀ s x y z, mayIssue i g s = true → s.opnd a = some x → s.opnd b = some y →
    (if op = 7 then s.regIn ⟨.w, wd.toNat⟩ else some 0) = some z →
    let va := x.toNat
    let n := t.width / 8
    let arg := bitsAt y.toNat 0 (8 * n)
    let cmp := bitsAt z.toNat 0 (8 * n)
    let r : Option Reg := if nr then none else some ⟨.w, wd.toNat⟩
    let scope := s.scope 0
    (va % n ≠ 0 ∨ windowOf va n = none → exec i s = .next (trapHere s 0x11 va)) ∧
    (∀ w, va % n = 0 → windowOf va n = some w → w ≠ 13 → s.orderOpen ord.toNat scope = true → s.canRead va n = true →
      let old := nearNat s s.cur.loc va n
      let (write, new, st) := atomOp op t.isSigned n (t == .f32) old arg cmp
      let u := (if write then s.near va (toBytes n new) allBytes else s).sticky st
      let v := if nr then u else u.send ⟨.w, wd.toNat⟩ (latency s.me w) (BitVec.ofNat 512 (atomValue (t == .s32) n old)) allBytes 0
      exec i s = .next (advance (v.ordered ord.toNat scope))) ∧
    (∀ pa pr k, va % n = 0 → windowOf va n = some 13 → s.home va true false = some pa → s.home va false false = some pr →
      s.orderOpen ord.toNat scope = true → s.freeEntry = some k →
      exec i s = .next (advance (((s.opened k { s.readEntry 3 cls va n t r (latency s.me 13) with idem := 2 }
        [(pa, va, 0, .atom op t.isSigned n arg cmp (t == .f32))]).awaiting r (latency s.me 13) k false).ordered ord.toNat scope)))

/-- A ghost load of n bytes completes, stalls or traps (R270, R271, R277); f is what it delivers of the bytes. -/
def ReadsGhost (i : Instr) (g : Guard) (a b : Opnd) (gs : BitVec 2) (n : Nat) (aligned : Bool) (f : Nat → Nat) : Prop :=
  ∀ s x y h, mayIssue i g s = true → s.opnd a = some x → s.opnd b = some y → s.me.grids.find gs.toNat = some h →
    let off := x.toNat
    let step := bitsAt y.toNat 0 31
    let v := step % (GridDesc.depth h.desc + 1)
    (faceOf h off n = none → exec i s = .next (trapHere s 0x11 off)) ∧
    (∀ k, faceOf h off n = some k → aligned = true → off % n ≠ 0 → exec i s = .next (trapHere s 0x11 off)) ∧
    (∀ k, faceOf h off n = some k → (aligned = true → off % n = 0) →
      let tag := h.tag v k
      (step < tag.tag → exec i s = .next (trapHere s 0x30 step)) ∧
      (∀ z, tag.tag = step → tag.full = true →
        s.localNat (GridDesc.gbase h.desc + v * GridDesc.vsize h.desc h.box + off) n = some z →
        exec i s = .next (advance ((s.setMe { s.me with halo := none }).deliver i (BitVec.ofNat 512 (f z)) allBytes 0))) ∧
      (tag.tag < step ∨ tag.tag = step ∧ tag.full = false → s.me.halo = none →
        exec i s = .next (stallHere (s.setMe { s.me with halo := some ⟨s.now, gs.toNat, v, k, step⟩ }))))

/-! ### What an operation leaves as it is -/

/-- Whether no result, of the bundles in hand or of the trap frame, is on its way to a register (R23, R343). -/
def State.idle (s : State) (loc : Nat) (r : Reg) : Prop :=
  (∀ e ∈ (s.seqAt loc).pend, e.dst ≠ some r) ∧
  ∀ f, (s.seqAt loc).frame = some f → ∀ e ∈ f.pend, e.dst ≠ some r

/-- What t has of s where an operation of the sequencer named by s may write the registers D: every other register that no result is on
its way to, with none on its way to it after either; TVEC, REPLAY, the task and its id; the accumulators, counters, Larder and
microcode store of the core; every other sequencer, but for the steps of other parties that its grids know; every other core. -/
structure Leaves (D : List Reg) (s t : State) : Prop where
  cur : t.cur = s.cur
  regs : ∀ r, r ∉ D → s.idle s.cur.loc r → t.idle s.cur.loc r ∧ regBase t s.cur.loc r = regBase s s.cur.loc r
  task : (t.seqAt s.cur.loc).task = (s.seqAt s.cur.loc).task
  sys : (t.seqAt s.cur.loc).tvec = (s.seqAt s.cur.loc).tvec ∧ (t.seqAt s.cur.loc).replay = (s.seqAt s.cur.loc).replay ∧
    (t.seqAt s.cur.loc).taskId = (s.seqAt s.cur.loc).taskId
  acc : let k := s.coreAt (coreOf s.cur.loc)
    let k' := t.coreAt (coreOf s.cur.loc)
    k'.tile = k.tile ∧ k'.ovfc = k.ovfc ∧ k'.nanc = k.nanc ∧ k'.larder = k.larder ∧ k'.store = k.store
  seqs : ∀ l, l ≠ s.cur.loc → ∃ gs, t.seqAt l = { s.seqAt l with grids := gs }
  cores : ∀ c, c ≠ coreOf s.cur.loc → t.coreAt c = s.coreAt c

/-! ### Guards, and what may store -/

/-- The predicate of an operation of a slot (R21); an event has none. -/
def predOf : Instr → Option Guard
  | .add g _ _ _ | .sub g _ _ _ | .addsl g _ _ _ _ | .mul g _ _ _ | .mulh g _ _ _ | .mulhB g _ _ _ | .div g _ _ _
  | .divB g _ _ _ | .rem g _ _ _ | .remB g _ _ _ | .and g _ _ _ | .or g _ _ _ | .xor g _ _ _ | .andn g _ _ _ | .shl g _ _ _
  | .shr g _ _ _ | .sra g _ _ _ | .rotl g _ _ _ | .fshl g _ _ _ _ | .fshr g _ _ _ _ | .clz g _ _ | .ctz g _ _ | .popc g _ _
  | .min g _ _ _ | .max g _ _ _ | .minB g _ _ _ | .maxB g _ _ _ | .bfx g _ _ _ _ | .bfi g _ _ _ | .sel g _ _ _ _ _
  | .cmp g _ _ _ _ | .pand g _ _ _ _ _ | .por g _ _ _ _ _ | .pnot g _ _ | .addi g _ _ _ | .andi g _ _ _ | .ori g _ _ _
  | .xori g _ _ _ | .shli g _ _ _ | .shri g _ _ _ | .srai g _ _ _ | .li g _ _ | .lih g _ _ _ | .cmpi g _ _ _ _ | .br g _
  | .jmp g _ | .jmpr g _ | .call g _ _ | .ret g _ | .loop g _ _ | .halt g | .xmov g _ _ _ _ | .rdsr g _ _ | .wrsr g _ _
  | .mrsData g _ | .rdts g _ | .vadd g _ _ _ _ _ | .vsub g _ _ _ _ _ | .vmul g _ _ _ _ _ | .vmulh g _ _ _ _ _
  | .vmin g _ _ _ _ _ | .vmax g _ _ _ _ _ | .vabs g _ _ _ _ | .vand g _ _ _ _ _ | .vor g _ _ _ _ _ | .vxor g _ _ _ _ _
  | .vandn g _ _ _ _ _ | .vshl g _ _ _ _ _ | .vshr g _ _ _ _ _ | .vsra g _ _ _ _ _ | .vfsh g _ _ _ _ _ | .vclz g _ _ _ _
  | .vpopc g _ _ _ _ | .vcmp g _ _ _ _ _ | .vsel g _ _ _ _ _ | .kand g _ _ _ | .kor g _ _ _ | .kxor g _ _ _ | .knot g _ _
  | .kpop g _ _ | .kfirst g _ _ | .vbcast g _ _ _ _ _ | .vext g _ _ _ _ | .vins g _ _ _ _ | .vperm g _ _ _ _ _
  | .vrot g _ _ _ _ _ | .vslide g _ _ _ _ _ _ | .vred g _ _ _ _ _ | .vscan g _ _ _ _ _ | .vpack g _ _ _ _ _
  | .vunpk g _ _ _ _ | .vfadd g _ _ _ _ _ | .vfsub g _ _ _ _ _ | .vfmul g _ _ _ _ _ | .vfma g _ _ _ _ _ | .vfms g _ _ _ _ _
  | .vfmin g _ _ _ _ _ | .vfmax g _ _ _ _ _ | .vfcmp g _ _ _ _ _ | .vfabs g _ _ _ _ | .vfneg g _ _ _ _ | .vfsgn g _ _ _ _ _
  | .vfred g _ _ _ _ _ | .vrcp g _ _ _ _ | .vrsq g _ _ _ _ | .vexp2 g _ _ _ _ | .vlog2 g _ _ _ _ | .vicvt g _ _ _ _
  | .vfcvt g _ _ _ _ | .vxmov g _ _ _ | .mclr g _ | .mmac g _ _ _ _ _ _ _ | .mmacs g _ _ _ _ _ _ _ _
  | .mdrain g _ _ _ _ _ _ | .mlar g _ _ _ _ | .mpar g _ _ _ | .mcall g _ | .mloop g _ _ _ | .mend g | .mendF g
  | .mcntRd g _ _ | .mcntSnap g _ _ | .mcntClr g _ | .ld g _ _ _ _ _ | .vld g _ _ _ _ | .vldu g _ _ _ _ | .pf g _ _
  | .gpush g _ _ | .ldg g _ _ _ _ _ | .vldg g _ _ _ _ | .ldr g _ _ _ _ _ _ | .st g _ _ _ _ _ | .vst g _ _ _ _
  | .vstm g _ _ _ _ _ | .aadd g _ _ _ _ _ _ _ | .amin g _ _ _ _ _ _ _ | .amax g _ _ _ _ _ _ _ | .alog g _ _ _ _ _ _ _ _
  | .aswp g _ _ _ _ _ _ _ | .acas g _ _ _ _ _ _ | .aincb g _ _ _ _ _ _ _ | .rcnt g _ _ | .asnap g _ _ _ _
  | .str g _ _ _ _ _ | .ratom g _ _ _ _ _ _ _ _ | .cbind g _ _ _ | .cfree g _ | .cput g _ _ _ _ | .cget g _ _ _
  | .ccard g _ _ _ | .cwait g _ _ _ | .cstat g _ _ | .mapi g _ _ _ _ | .mapx g _ _ | .mapr g _ | .maprAll g _ _
  | .mapq g _ _ | .gdecl g _ _ _ | .gdeclR g _ | .gq g _ _ _ | .tacq g _ _ | .trel g _ | .qwait g _ _ | .qadv g _ _
  | .sarm g _ _ | .swait g _ _ | .fence g _ _ | .gstep g _ _ | .barA g _ _ _ _ | .barW g _ _ _ | .bar g _ _ _ _
  | .spawn g _ _ | .sjoin g _ | .yield g | .sleep g _ | .evpost g _ _ | .trap g _ | .eret g _ | .eretT g _ _
  | .ctxsave g _ _ | .ctxload g _ _ _ | .pimg g _ _ | .xcvt g _ _ _ _ _ | .xquant g _ _ _ _ _ | .xdeq g _ _ _ _ _
  | .xamax g _ _ _ _ | .xtr g _ _ _ | .xexp g _ _ _ _ _ | .xpack g _ _ _ _ | .xunpk g _ _ _ _ | .xcrc g _ _ _ _ => some g
  | .routineWordIssue | .noOperation | .fetchBeyondCode | .asynchronousTrap _ _ _ _ | .ringEntryFill _ _
  | .gatherRowFetch _ _ _ | .ringEntryDrain _ _ | .drainQueueForward _ _ | .chunkDecode _ _ _ | .tileWriteComplete _ _
  | .mlarFillComplete _ | .loadReply _ _ | .ldrLateReply _ _ | .storeAck _ _ | .atomicReply _ _ | .homeAccess _
  | .packetOffer _ | .pageTableWalk _ | .transferSourceRead _ _ | .cgetSourceResolve _ | .landingBeat _
  | .transferComplete _ _ | .jobCardStart _ _ | .jobCardComplete _ _ | .haloTimeout _ | .neighbourCommitNotice _ _ _
  | .barrierRootArrival _ | .phaseFlip _ _ | .sleepExpiry _ | .yieldExpiry _ | .bPriorityPromotion _ _ | .taskStart _
  | .recordDelivery _ _ | .disposeTrap _ _ | .discardParkedTransfer _ _ | .savePartition _ _ | .restorePartition _ _
  | .endSlice _ _ | .sliceGraceExpiry _ | .withdrawReceive _ _ | .withdrawAck _ _ | .saveStep _ | .retrainLink _ _
  | .functionLevelReset _ _ | .writeVdRegister _ _ | .transInv _ _ | .attestationReport _ _ | .horizonPublish _
  | .horizonRetire _ _ | .tokenRecall _ _ | .tokenGrant _ _ | .tokenHoldExpiry _ _ | .tacqRequest _ _ | .launchPacket _ _
  | .hostStateStore _ _ _ | .hostMemoryAccess _ _ _ | .linkPacketReceive _ _ | .linkAck _ _ | .laneFailure _ _
  | .linkRetrained _ | .linkRetrainTimeout _ | .linkTraining _ _ _ | .ringSkewMeasure _ _ _ | .correctedError _
  | .uncorrectableError _ | .moduleReset _ | .powerOff | .rangeTableInstall _ _ | .virtualDeviceCreation _ _
  | .minimumShareSetting _ _ _ _ => none

/-- Whether an instruction may write memory as it executes: stores, atomics and synchronisation of near windows, what ends or starts
tasks, contexts, and the events by which homes, landing units, engines and the host write. -/
def mayStore : Instr → Bool
  | .st _ _ _ _ _ _ | .vst _ _ _ _ _ | .vstm _ _ _ _ _ _ | .aadd _ _ _ _ _ _ _ _ | .amin _ _ _ _ _ _ _ _
  | .amax _ _ _ _ _ _ _ _ | .alog _ _ _ _ _ _ _ _ _ | .aswp _ _ _ _ _ _ _ _ | .acas _ _ _ _ _ _ _ | .aincb _ _ _ _ _ _ _ _
  | .asnap _ _ _ _ _ | .mapi _ _ _ _ _ | .mapx _ _ _ | .gdecl _ _ _ _ | .trel _ _ | .sarm _ _ _ | .gstep _ _ _
  | .spawn _ _ _ | .eret _ _ | .eretT _ _ _ | .ctxload _ _ _ _ | .pimg _ _ _ | .ringEntryDrain _ _
  | .asynchronousTrap _ _ _ _ | .transferSourceRead _ _ | .cgetSourceResolve _ | .transferComplete _ _ | .jobCardStart _ _
  | .homeAccess _ | .landingBeat _ | .jobCardComplete _ _ | .taskStart _ | .disposeTrap _ _ | .discardParkedTransfer _ _
  | .restorePartition _ _ | .saveStep _ | .functionLevelReset _ _ | .attestationReport _ _ | .tokenRecall _ _
  | .hostStateStore _ _ _ | .hostMemoryAccess _ _ _ | .moduleReset _ | .powerOff => true
  | _ => false

/-- The operations of slots that write nothing but results, rings, drain queues, in-flight entries and fetch state: every one but
those that write system registers, tiles and counters of the array, landing maps, sync words, grids, tokens, and other sequencers or
contexts. -/
def framed (i : Instr) : Bool := (predOf i).isSome &&
  match i with
  | .wrsr _ _ _ | .mrsData _ _ | .mclr _ _ | .mmac _ _ _ _ _ _ _ _ | .mmacs _ _ _ _ _ _ _ _ _ | .mdrain _ _ _ _ _ _ _
  | .mlar _ _ _ _ _ | .mcntRd _ _ _ | .mcntSnap _ _ _ | .mcntClr _ _ | .mapi _ _ _ _ _ | .mapx _ _ _ | .gdecl _ _ _ _
  | .trel _ _ | .sarm _ _ _ | .gstep _ _ _ | .spawn _ _ _ | .eret _ _ | .eretT _ _ _ | .ctxsave _ _ _ | .ctxload _ _ _ _
  | .pimg _ _ _ => false
  | _ => true

/-- The bytes of the near windows that an operation of W stores to at issue: address, length and byte mask, as its operands read (R85,
R86, R248, R255); none where its address lies in the device-memory window, whose stores are requests to homes. -/
def State.span (s : State) (i : Instr) : Option (Nat × Nat × Nat) :=
  let near (va n m : Nat) : Option (Nat × Nat × Nat) := if windowOf va n = some 13 then none else some (va, n, m)
  match i with
  | .st _ _ a b _ t => (s.opnd a).bind (fun x => (s.opnd b).bind (fun y => near (x + y).toNat (t.width / 8) allBytes))
  | .vst _ _ a b _ => (s.opnd a).bind (fun x => (s.opnd b).bind (fun y => near (x + y).toNat 64 allBytes))
  | .vstm _ _ a k v1 _ => (s.opnd a).bind (fun x =>
    (s.regIn ⟨if v1 then .k1 else .k0, k.toNat⟩).bind (fun m => some (x.toNat, 64, m.toNat)))
  | .aadd _ _ a _ _ _ _ t | .amin _ _ a _ _ _ _ t | .amax _ _ a _ _ _ _ t | .alog _ _ a _ _ _ _ _ t | .aswp _ _ a _ _ _ _ t
  | .acas _ _ a _ _ _ t | .aincb _ _ a _ _ _ _ t => (s.opnd a).bind (fun x => near x.toNat (t.width / 8) allBytes)
  | .asnap _ _ a _ _ => (s.opnd a).bind (fun x => some (x.toNat, 64, allBytes))
  | _ => none

/-! ### A slot's turn -/

/-- Whether a slot's next bundle may issue there now: within 16 bundles of the slowest slot, with its sync bit, an earlier bundle of
system-register access, the safe point of a slice that ends, acquire forms and the copy of a commit not in its way (R24, R38, R79, R250, R276). -/
def State.inTurn (s : State) (loc : Nat) (x : Slot) : Bool :=
  let q := s.seqAt loc
  let k := stepOf q x
  let sync := (bundleAt q k).bits.sync x || holdsSysOp (bundleAt q k).bits
  decide (k ≤ loOf q + 16) && !(sync && decide (loOf q < k)) &&
  !(decide (0 < k) && holdsSysOp (bundleAt q (k - 1)).bits && decide (stepOf q .S < k)) &&
  !(match safePointOf q with | some p => decide (p < k) | none => false) && !acquireWaits s loc x k sync && !copyWaits q x k

/-- Whether slot x finds in its bundle an operation to execute: the bundle lies in the code section, its header is no fault, no
routine runs in M, and the slot's word is that operation (R41, R45, R53, R76, R158). -/
def State.finds (s : State) (loc : Nat) (x : Slot) (i : Instr) : Prop :=
  let q := s.seqAt loc
  let f := bundleAt q (stepOf q x)
  f.addr < q.task.codeLen ∧ f.bits.headerBad = false ∧ ¬(x = .M ∧ q.routine.isSome = true) ∧ f.bits.op x = some i

/-- A sequencer with bundle k fetched as b from pc: fetch goes on at the next address, or waits for a transfer (R72, R76). -/
def Seq.fetched (q : Seq) (k : Nat) (b : Bundle) : Seq :=
  let q := { q with queue := q.queue.put k ⟨q.pc, b, true⟩, nextIdx := k + 1 }
  if holdsTransfer b then { q with hold := some k }
  else { q with pc := (nextPc q.pc q.loops).1, loops := (nextPc q.pc q.loops).2 }

end Sys2Proof.Machine
end

