-- ==== Sys2Proof/Certificates/Slice0/Obligations.lean ====
section
/-! DEFINITION. The statements for the provers: each says what an instruction or the machine does, with the rules of the manual that
say so. -/

open Sys2Proof Sys2Proof.Machine

/-- An arithmetic operation of the S slot that may issue completes, and what it delivers to its destination is: x + y for add, x
- y for sub, x + y * 2^k for addsl, x * y for mul, the high 64 bits of the signed product for mulh and of the unsigned product
for mulh.b, all modulo 2^64, where x and y are what a and b read as; it never traps on overflow and raises no sticky bit. (R63)
-/
def Obligations.ScalarArithmetic : Prop :=
  Computes2 .add (fun x y => x + y) ∧
  Computes2 .sub (fun x y => x - y) ∧
  (∀ k : BitVec 6, Computes2 (fun g d a b => .addsl g d a b k) (fun x y => x + y <<< k.toNat)) ∧
  Computes2 .mul (fun x y => x * y) ∧
  Computes2 .mulh (fun x y => (x.signExtend 128 * y.signExtend 128).extractLsb' 64 64) ∧
  Computes2 .mulhB (fun x y => (x.setWidth 128 * y.setWidth 128).extractLsb' 64 64)

/-- A division operation of the S slot that may issue completes: div delivers the signed quotient truncated toward zero, -1 for
a zero divisor and -2^63 for -2^63 by -1; rem the remainder with the sign of the dividend, the dividend for a zero divisor and 0
for -2^63 by -1; div.b and rem.b the unsigned quotient and remainder, 2^64 - 1 and the dividend for a zero divisor. (R64) -/
def Obligations.ScalarDivision : Prop :=
  Computes2 .div (fun x y => if y = 0 then BitVec.allOnes 64 else x.sdiv y) ∧
  Computes2 .divB (fun x y => if y = 0 then BitVec.allOnes 64 else x / y) ∧
  Computes2 .rem (fun x y => if y = 0 then x else x.srem y) ∧
  Computes2 .remB (fun x y => if y = 0 then x else x % y)

/-- A logic or shift operation of the S slot that may issue completes with and, or, xor, and-not of its operands, or with a
shifted or rotated by the low six bits of b, the higher bits of b being ignored; fshl and fshr deliver the high half of the
128-bit concatenation of a and b shifted left by the immediate, and the low half of it shifted right. (R65) -/
def Obligations.ScalarLogicAndShifts : Prop :=
  Computes2 .and (fun x y => x &&& y) ∧
  Computes2 .or (fun x y => x ||| y) ∧
  Computes2 .xor (fun x y => x ^^^ y) ∧
  Computes2 .andn (fun x y => x &&& ~~~y) ∧
  Computes2 .shl (fun x y => x <<< (y.toNat % 64)) ∧
  Computes2 .shr (fun x y => x >>> (y.toNat % 64)) ∧
  Computes2 .sra (fun x y => x.sshiftRight (y.toNat % 64)) ∧
  Computes2 .rotl (fun x y => x.rotateLeft (y.toNat % 64)) ∧
  (∀ k : BitVec 6, Computes2 (fun g d a b => .fshl g d a b k) (fun x y => ((x ++ y) <<< k.toNat).extractLsb' 64 64)) ∧
  (∀ k : BitVec 6, Computes2 (fun g d a b => .fshr g d a b k) (fun x y => ((x ++ y) >>> k.toNat).extractLsb' 0 64))

/-- An immediate operation of the S slot that may issue completes: addi adds the sign-extended 23-bit immediate, andi, ori and
xori combine with that pattern, shli, shri and srai shift by the immediate, li delivers the pattern, lih shifts the operand left
by 23 bits and puts the immediate below. A shift whose immediate exceeds 63 raises trap 0x01 at issue whatever its predicate.
(R66, R69) -/
def Obligations.ScalarImmediates : Prop :=
  (∀ k : BitVec 23, Computes1 (fun g d a => .addi g d a k) (fun x => x + k.signExtend 64)) ∧
  (∀ k : BitVec 23, Computes1 (fun g d a => .andi g d a k) (fun x => x &&& k.signExtend 64)) ∧
  (∀ k : BitVec 23, Computes1 (fun g d a => .ori g d a k) (fun x => x ||| k.signExtend 64)) ∧
  (∀ k : BitVec 23, Computes1 (fun g d a => .xori g d a k) (fun x => x ^^^ k.signExtend 64)) ∧
  (∀ k : BitVec 23, Computes1 (fun g d a => .shli g d a k) (fun x => x <<< k.toNat)) ∧
  (∀ k : BitVec 23, Computes1 (fun g d a => .shri g d a k) (fun x => x >>> k.toNat)) ∧
  (∀ k : BitVec 23, Computes1 (fun g d a => .srai g d a k) (fun x => x.sshiftRight k.toNat)) ∧
  (∀ k : BitVec 23, Computes1 (fun g d a => .lih g d a k) (fun x => x.extractLsb' 0 41 ++ k)) ∧
  (∀ (k : BitVec 23) g d s, mayIssue (.li g d k) g s = true →
    exec (.li g d k) s = .next (advance (s.wrote (.li g d k) (k.signExtend 64)))) ∧
  (∀ (k : BitVec 23) g d a s i, 63 < k.toNat → i ∈ [.shli g d a k, .shri g d a k, .srai g d a k] → heldBack i s = false →
    exec i s = .next (trapHere s 0x01 0))

/-- A count, limit or selection of the S slot that may issue completes: clz and ctz deliver the number of leading and trailing
zero bits, 64 for zero, popc the number of one bits; min and max the smaller and the larger operand as signed numbers, min.b and
max.b as unsigned ones; sel delivers a where its selecting predicate, inverted where PINV is set, is true and b otherwise. (R67)
-/
def Obligations.ScalarCountsAndLimits : Prop :=
  Computes1 .clz (fun x => if x = 0 then 64 else BitVec.ofNat 64 (63 - x.toNat.log2)) ∧
  Computes1 .ctz (fun x => if x = 0 then 64 else BitVec.ofNat 64 (x &&& -x).toNat.log2) ∧
  Computes1 .popc (fun x => BitVec.ofNat 64 ((List.range 64).filter (fun j => x.getLsbD j)).length) ∧
  Computes2 .min (fun x y => if x.sle y then x else y) ∧
  Computes2 .max (fun x y => if y.sle x then x else y) ∧
  Computes2 .minB (fun x y => if x ≤ y then x else y) ∧
  Computes2 .maxB (fun x y => if y ≤ x then x else y) ∧
  (∀ p inv g d a b s x y u, mayIssue (.sel g d a b p inv) g s = true → s.opnd a = some x → s.opnd b = some y →
    s.predIn p inv = some u →
    exec (.sel g d a b p inv) s = .next (advance (s.wrote (.sel g d a b p inv) (if u then x else y))))

/-- With pos the low six bits of b and len the smaller of b[14:8] and 64, bfx delivers the len bits of a from pos, bits above 63
reading as zero, sign-extended where SX is set and 0 < len <= 64 - pos; bfi delivers its destination's old value with the len
bits from pos on replaced by the low bits of a, bits above 63 dropped. (R68) -/
def Obligations.ScalarBitfields : Prop :=
  (∀ sx : Bool, Computes2 (fun g d a b => .bfx g d a b sx) (fun x y =>
    let pos := (y.extractLsb' 0 6).toNat
    let len := min (y.extractLsb' 8 7).toNat 64
    let f : BitVec len := (x >>> pos).setWidth len
    if sx ∧ 0 < len ∧ len ≤ 64 - pos then f.signExtend 64 else f.setWidth 64)) ∧
  (∀ g d a b s x y old, mayIssue (.bfi g d a b) g s = true → s.opnd a = some x → s.opnd b = some y → s.opnd d = some old →
    exec (.bfi g d a b) s = .next (advance (s.wrote (.bfi g d a b)
      (let pos := (y.extractLsb' 0 6).toNat
       let len := min (y.extractLsb' 8 7).toNat 64
       let m : Word := BitVec.ofNat 64 (2 ^ len - 1) <<< pos
       (old &&& ~~~m) ||| ((x <<< pos) &&& m)))))

/-- cmp delivers 1 to its predicate where the condition of Table 4.3 holds of a and b and 0 otherwise, cmpi the same of a and
the sign-extended immediate; pand and por deliver the conjunction and the disjunction of two predicates, each inverted where
asked, and pnot the inverse of one. Each completes whenever it may issue and its operands can be read. (R70, R71, Table 4.3) -/
def Obligations.ComparesAndPredicates : Prop :=
  (∀ g p cc a b s x y, mayIssue (.cmp g p cc a b) g s = true → s.opnd a = some x → s.opnd b = some y →
    exec (.cmp g p cc a b) s = .next (advance (s.wrote (.cmp g p cc a b) (if holdsCc cc x y then 1 else 0)))) ∧
  (∀ g p cc a (k : BitVec 23) s x, mayIssue (.cmpi g p cc a k) g s = true → s.opnd a = some x →
    exec (.cmpi g p cc a k) s = .next (advance (s.wrote (.cmpi g p cc a k) (if holdsCc cc x (k.signExtend 64) then 1 else 0)))) ∧
  (∀ g d a b na nb s u v, mayIssue (.pand g d a b na nb) g s = true → s.predIn a na = some u → s.predIn b nb = some v →
    exec (.pand g d a b na nb) s = .next (advance (s.wrote (.pand g d a b na nb) (if u && v then 1 else 0)))) ∧
  (∀ g d a b na nb s u v, mayIssue (.por g d a b na nb) g s = true → s.predIn a na = some u → s.predIn b nb = some v →
    exec (.por g d a b na nb) s = .next (advance (s.wrote (.por g d a b na nb) (if u || v then 1 else 0)))) ∧
  (∀ g d a s u, mayIssue (.pnot g d a) g s = true → s.predIn a false = some u →
    exec (.pnot g d a) s = .next (advance (s.wrote (.pnot g d a) (if u then 0 else 1))))

/-- With pc the address of the issuing bundle: br and call go to pc plus 64 times the sign-extended immediate, jmp to 64 times
it, jmpr and ret to what their operand reads as. Where that target is a multiple of 64 inside the code section the transfer
completes and fetch goes on there; br, jmp and jmpr pop the loop levels up to the first whose body contains the target, call and
ret leave the loop stack, and call also delivers pc + 64 to its link register. Elsewhere the transfer raises trap 0x11 with the
target as INFO. (R73, R74) -/
def Obligations.BranchesGoToTheirTargets : Prop :=
  (∀ g (k : BitVec 23) s, mayIssue (.br g k) g s = true →
    exec (.br g k) s = .next (s.transfer (s.bundle.addr + k.toInt * 64) true id)) ∧
  (∀ g (k : BitVec 23) s, mayIssue (.jmp g k) g s = true →
    exec (.jmp g k) s = .next (s.transfer (k.toInt * 64) true id)) ∧
  (∀ g a s x, mayIssue (.jmpr g a) g s = true → s.opnd a = some x →
    exec (.jmpr g a) s = .next (s.transfer x.toNat true id)) ∧
  (∀ g d (k : BitVec 23) s, mayIssue (.call g d k) g s = true →
    exec (.call g d k) s = .next (s.transfer (s.bundle.addr + k.toInt * 64) false
      (fun t => t.wrote (.call g d k) (BitVec.ofNat 64 (s.bundle.addr + 64))))) ∧
  (∀ g a s x, mayIssue (.ret g a) g s = true → s.opnd a = some x →
    exec (.ret g a) s = .next (s.transfer x.toNat false id))

/-- loop with count the low 32 bits of a and end at pc + 64 * IMM: with count 0 fetch goes on after end; with six open levels it
raises trap 0x42; otherwise a level (count, end, IMM) is pushed and fetch goes on at pc + 64. halt marks its bundle as the last.
An absent slot issues a no-operation: the slot advances and nothing else happens. The first issue past the code section is trap
0x11 of slot S with the address as INFO. (R75, R77, R41, R76) -/
def Obligations.LoopsAndHalt : Prop :=
  (∀ g a (k : BitVec 23) s x, mayIssue (.loop g a k) g s = true → s.opnd a = some x →
    exec (.loop g a k) s = .next (
      let count := (x.extractLsb' 0 32).toNat
      let fin := s.bundle.addr + k.toNat * 64
      if count = 0 then advance (s.setMe { s.me with hold := none, pc := fin + 64 })
      else if s.me.loops.length < 6 then
        advance (s.setMe
          { s.me with hold := none, pc := s.bundle.addr + 64, loops := ⟨count, fin, k.toNat⟩ :: s.me.loops })
      else trapHere s 0x42 0)) ∧
  (∀ g s, mayIssue (.halt g) g s = true →
    exec (.halt g) s = .next (advance (s.setMe { s.me with haltAt := some s.here }))) ∧
  (∀ s, mayIssue .noOperation ⟨15, false⟩ s = true → exec .noOperation s = .next (advance s)) ∧
  (∀ s, exec .fetchBeyondCode s = .next (takeTrap s s.cur.loc 0 s.here 0x11 s.bundle.addr 0))

/-- rdsr delivers what Table 26.4 gives for the register. wrsr writes it, the value governing the bundles after its own: STATUS
keeps bit 0 as COLLIDE, CONV its defined bits with a zero SEED taken as 1 and trap 0x01 for RMODE 5 to 7, REPLAY and TVEC bits
51:6, GRID.TIMEOUT 32 bits, MRS.INDEX 11 bits, SKEW 7 bits. A write of MRS.DATA stores one word of the routine store and moves
the index on. rdts delivers the device's virtual time, never less than what it delivered before. (R79, R80, R81, R157, R115,
Table 26.4) -/
def Obligations.SystemRegistersReadAndWrite : Prop :=
  (∀ g d (n : BitVec 23) s, mayIssue (.rdsr g d n) g s = true →
    exec (.rdsr g d n) s = .next (advance (s.wrote (.rdsr g d n) (BitVec.ofNat 64 (sysRead s n.toNat))))) ∧
  (∀ g (n : BitVec 23) a s x, mayIssue (.wrsr g n a) g s = true → s.opnd a = some x →
    exec (.wrsr g n a) s = .next (
      let q := s.me
      let i := s.here
      match n.toNat with
      | 0x000 => advance (s.setMe { q with collide := x.getLsbD 0 })
      | 0x003 =>
        if 4 < (x.extractLsb' 0 3).toNat then trapHere s 0x01 0
        else advance (s.setMe
          { q with
            srPrev := some (i, 3, BitVec.ofNat 64 (q.conv.toNat % 2 ^ 32 + genAt s s.cur.loc i .S * 2 ^ 32))
            conv := (if x.extractLsb' 32 32 = 0#32 then 1#32 else x.extractLsb' 32 32) ++ (x.extractLsb' 0 32 &&& 0xF0F#32)
            seedIdx := i + 1 })
      | 0x004 => advance (s.setMe { q with srPrev := some (i, 4, q.replay), replay := x &&& 0xFFFFFFFFFFFC0#64 })
      | 0x007 => advance (s.setMe { q with srPrev := some (i, 7, q.tvec), tvec := x &&& 0xFFFFFFFFFFFC0#64 })
      | 0x008 => advance (s.setMe { q with srPrev := some (i, 8, q.gridTime), gridTime := x &&& 0xFFFFFFFF#64 })
      | 0x009 => advance (s.setMe { q with mrsIndex := (x.extractLsb' 0 11).toNat })
      | 0x200 => advance { s with skew := (x.extractLsb' 0 7).toNat }
      | _ => advance s)) ∧
  (∀ g a s x, mayIssue (.mrsData g a) g s = true → s.opnd a = some x →
    exec (.mrsData g a) s = .next (advance (
      let q := s.me
      let k := s.coreAt (coreOf s.cur.loc)
      (s.setMe
        { q with srPrev := some (s.here, 0x00A, k.store.look 0 q.mrsIndex), mrsIndex := (q.mrsIndex + 1) % 2048 }).setCore
          (coreOf s.cur.loc) { k with store := k.store.put q.mrsIndex x }))) ∧
  (∀ g d s, mayIssue (.rdts g d) g s = true →
    exec (.rdts g d) s = .next (advance (
      let v := max (vtime s s.myVd) s.me.last
      (s.setMe { s.me with last := v }).wrote (.rdts g d) (BitVec.ofNat 64 v))))

/-- xmov delivers the chosen 64-bit lane of its source to the register it names, in every lane of a 512-bit one where BCAST is
set and with zeros above otherwise. vxmov to a register delivers its 512-bit source from the chosen lane on, a narrower register
taking the lowest lane. (R78, R140) -/
def Obligations.CrossFileMoves : Prop :=
  (∀ g dst a (n : BitVec 3) bc s r v, mayIssue (.xmov g dst a n bc) g s = true → opndReg .S a = some r → s.regIn r = some v →
    exec (.xmov g dst a n bc) s = .next (advance (s.deliver (.xmov g dst a n bc)
      (let x : Word := v.extractLsb' (64 * n.toNat) 64
       if bc then x ++ x ++ x ++ x ++ x ++ x ++ x ++ x else x.setWidth 512) allBytes 0))) ∧
  (∀ g dst a (n : BitVec 3) s v t, mayIssue (.vxmov g dst a n) g s = true →
    (∀ q r, opndRing a = some q → s.me.rings.find q = some r → r.blk = 0) → (∀ q, dst ≠ .here (.pop q)) →
    Act.ends (readRaw a) s = some (v, t) →
    exec (.vxmov g dst a n) s = .next (advance (t.deliver (.vxmov g dst a n) (v >>> (64 * n.toNat)) allBytes 0)))

/-- An integer operation of a vector slot that may issue, whose sources can be read and whose destination takes the lanes,
completes, each lane being: the sum, difference or product modulo 2^w, the high half of the product, the smaller or larger lane,
signed under an s type and unsigned under a b type, the absolute value with the most negative number as itself, or the bitwise
and, or, xor or and-not. (R123, R118) -/
def Obligations.VectorIntegerLanes : Prop :=
  LaneWise2 .vadd (fun _ x y => x + y) ∧
  LaneWise2 .vsub (fun _ x y => x - y) ∧
  LaneWise2 .vmul (fun _ x y => x * y) ∧
  LaneWise2 .vmulh (fun t x y => if t.isSigned then (x.signExtend (2 * t.width) * y.signExtend (2 * t.width)).extractLsb' t.width t.width
    else (x.setWidth (2 * t.width) * y.setWidth (2 * t.width)).extractLsb' t.width t.width) ∧
  LaneWise2 .vmin (fun t x y => if (if t.isSigned then x.sle y else x.ule y) then x else y) ∧
  LaneWise2 .vmax (fun t x y => if (if t.isSigned then y.sle x else y.ule x) then x else y) ∧
  LaneWise1 .vabs (fun _ x => x.abs) ∧
  LaneWise2 .vand (fun _ x y => x &&& y) ∧
  LaneWise2 .vor (fun _ x y => x ||| y) ∧
  LaneWise2 .vxor (fun _ x y => x ^^^ y) ∧
  LaneWise2 .vandn (fun _ x y => x &&& ~~~y)

/-- A lane shift completes with the lane of a shifted by the lane of b as an unsigned count, a count of the lane width or more
giving 0, or for vsra the sign in every bit; vfsh with the low half of the pair a, b shifted right, or its high half shifted
left, by the smaller of the lane of d and the width; vclz with the number of leading zero bits, vpopc with the number of one
bits. (R124, R125) -/
def Obligations.VectorShiftsAndCounts : Prop :=
  LaneWise2 .vshl (fun _ x y => x <<< y.toNat) ∧
  LaneWise2 .vshr (fun _ x y => x >>> y.toNat) ∧
  LaneWise2 .vsra (fun _ x y => x.sshiftRight y.toNat) ∧
  (∀ g d a b t right s x y c s1 s2 s3 s4, mayIssue (.vfsh g d a b t right) g s = true → s.vec t a = some (x, s1) →
    s1.vec t b = some (y, s2) → s2.raw d = some (c, s3) →
    s3.lanes (.vfsh g d a b t right) d t 0 (fun j =>
      let p := laneB t.width x j ++ laneB t.width y j
      let n := min (laneB t.width c j).toNat t.width
      (if right then (p >>> n).extractLsb' 0 t.width else (p <<< n).extractLsb' t.width t.width).toNat) = some s4 →
    exec (.vfsh g d a b t right) s = .next (advance s4)) ∧
  LaneWise1 .vclz (fun t x => BitVec.ofNat t.width (if x.toNat = 0 then t.width else t.width - 1 - x.toNat.log2)) ∧
  LaneWise1 .vpopc (fun t x => BitVec.ofNat t.width ((List.range t.width).filter (fun j => x.getLsbD j)).length)

/-- vcmp delivers to its k register a mask whose bits of a lane's bytes all tell whether the condition of Table 4.3 holds of the
two lanes, vfcmp the same for the floating conditions; vsel takes byte by byte a where the bit of the k register is 1 and b
otherwise; kand, kor, kxor and knot combine k registers, kpop counts the one bits of one, kfirst finds its lowest one bit, 64 if
there is none. (R126, R127, R128, R137) -/
def Obligations.VectorComparesAndMasks : Prop :=
  (∀ g kd a b t cc s x y s1 s2, mayIssue (.vcmp g kd a b t cc) g s = true → s.vec t a = some (x, s1) → s1.vec t b = some (y, s2) →
    exec (.vcmp g kd a b t cc) s = .next (advance (s2.wrote (.vcmp g kd a b t cc)
      (BitVec.ofNat 64 (compareMask t.width (fun j => holdsCc cc (laneB t.width x j) (laneB t.width y j))))))) ∧
  (∀ g kd a b t (cc : BitVec 4) s x y s1 s2, mayIssue (.vfcmp g kd a b t cc) g s = true → s.vec t a = some (x, s1) →
    s1.vec t b = some (y, s2) →
    exec (.vfcmp g kd a b t cc) s = .next (advance (s2.wrote (.vfcmp g kd a b t cc)
      (BitVec.ofNat 64 (compareMask t.width (fun j =>
        fcondition cc.toNat (decodeNum t (lane x j t.width)) (decodeNum t (lane y j t.width)))))))) ∧
  (∀ g d a b t ks s x y m s1 s2 s3, mayIssue (.vsel g d a b t ks) g s = true → s.vec t a = some (x, s1) →
    s1.vec t b = some (y, s2) → s2.maskIn ks = some m →
    s2.lanes (.vsel g d a b t ks) d t 0 (fun j => lane (mergeBytes y x m.toNat) j t.width) = some s3 →
    exec (.vsel g d a b t ks) s = .next (advance s3)) ∧
  (∀ g kd ka kb s m n, mayIssue (.kand g kd ka kb) g s = true → s.maskIn ka = some m → s.maskIn kb = some n →
    exec (.kand g kd ka kb) s = .next (advance (s.wrote (.kand g kd ka kb) (m &&& n)))) ∧
  (∀ g kd ka kb s m n, mayIssue (.kor g kd ka kb) g s = true → s.maskIn ka = some m → s.maskIn kb = some n →
    exec (.kor g kd ka kb) s = .next (advance (s.wrote (.kor g kd ka kb) (m ||| n)))) ∧
  (∀ g kd ka kb s m n, mayIssue (.kxor g kd ka kb) g s = true → s.maskIn ka = some m → s.maskIn kb = some n →
    exec (.kxor g kd ka kb) s = .next (advance (s.wrote (.kxor g kd ka kb) (m ^^^ n)))) ∧
  (∀ g kd ka s m, mayIssue (.knot g kd ka) g s = true → s.maskIn ka = some m →
    exec (.knot g kd ka) s = .next (advance (s.wrote (.knot g kd ka) (~~~m)))) ∧
  (∀ g d ka s m, mayIssue (.kpop g d ka) g s = true → s.maskIn ka = some m →
    exec (.kpop g d ka) s = .next (advance (s.wrote (.kpop g d ka)
      (BitVec.ofNat 64 ((List.range 64).filter (fun j => m.getLsbD j)).length)))) ∧
  (∀ g d ka s m, mayIssue (.kfirst g d ka) g s = true → s.maskIn ka = some m →
    exec (.kfirst g d ka) s = .next (advance (s.wrote (.kfirst g d ka)
      (if m = 0 then 64 else BitVec.ofNat 64 (m &&& -m).toNat.log2))))

/-- vbcast puts the chosen lane of a in every lane; vext puts it in lane 0 with zeros above; vins puts lane 0 of a in the chosen
lane of d's old value; vperm picks for each lane the lane of a that b names, 0 where there is none; vrot rotates the lanes;
vslide shifts them up or down with zeros; vpack narrows the lanes of a and then of b, taking the low half of each where it
wraps; vunpk widens the low or the high half of a's lanes, with sign under an s type. (R129, R130, R134) -/
def Obligations.VectorLaneMovement : Prop :=
  (∀ n : BitVec 10, LanesFrom (fun g d a t k => .vbcast g d a n t k) (fun t x _ => lane x n.toNat t.width)) ∧
  (∀ g d a (n : BitVec 10) t s x s1 s2, mayIssue (.vext g d a n t) g s = true → s.vec t a = some (x, s1) →
    s1.lanes (.vext g d a n t) d t 0 (fun j => if j = 0 then lane x n.toNat t.width else 0) = some s2 →
    exec (.vext g d a n t) s = .next (advance s2)) ∧
  (∀ g d a (n : BitVec 10) t s x z s1 s2 s3, mayIssue (.vins g d a n t) g s = true → s.vec t a = some (x, s1) →
    s1.raw d = some (z, s2) →
    s2.lanes (.vins g d a n t) d t 0 (fun j => if j = n.toNat then lane x 0 t.width else lane z j t.width) = some s3 →
    exec (.vins g d a n t) s = .next (advance s3)) ∧
  (∀ g d a b t k s x y s1 s2 s3, mayIssue (.vperm g d a b t k) g s = true → s.vec t a = some (x, s1) → s1.vec t b = some (y, s2) →
    s2.lanes (.vperm g d a b t k) d t k (fun j =>
      if lane y j t.width < 512 / t.width then lane x (lane y j t.width) t.width else 0) = some s3 →
    exec (.vperm g d a b t k) s = .next (advance s3)) ∧
  (∀ n : BitVec 10, LanesFrom (fun g d a t k => .vrot g d a n t k) (fun t x j => lane x ((j + n.toNat) % (512 / t.width)) t.width)) ∧
  (∀ (n : BitVec 7) (down : Bool), LanesFrom (fun g d a t k => .vslide g d a n down t k) (fun t x j =>
    if down then (if j + n.toNat < 512 / t.width then lane x (j + n.toNat) t.width else 0)
    else if n.toNat ≤ j then lane x (j - n.toNat) t.width else 0)) ∧
  (∀ g d a b t wr s x y s1 s2 s3, mayIssue (.vpack g d a b t wr) g s = true → s.vec t a = some (x, s1) → s1.vec t b = some (y, s2) →
    s2.lanes (.vpack g d a b t wr) d (narrowType t) 0 (fun j =>
      narrowLane t wr (if j < 512 / t.width then lane x j t.width else lane y (j - 512 / t.width) t.width)) = some s3 →
    exec (.vpack g d a b t wr) s = .next (advance s3)) ∧
  (∀ g d a t hi s x s1 s2, mayIssue (.vunpk g d a t hi) g s = true → s.vec t a = some (x, s1) →
    s1.lanes (.vunpk g d a t hi) d (wideType t) 0 (fun j =>
      let y := laneB t.width x (if hi then 512 / t.width / 2 + j else j)
      ((if t.isSigned then y.signExtend (2 * t.width) else y.setWidth (2 * t.width)) : BitVec (2 * t.width)).toNat) = some s2 →
    exec (.vunpk g d a t hi) s = .next (advance s2))

/-- In groups of 2^GS bytes: vred puts in every lane of a group the sum modulo 2^w, the least or greatest lane or the bitwise or
of the group; vscan puts in lane j the sum of the group's lanes up to j, with lane j or without it; vfred puts in every lane of
a group what the tree of R133 over its f32 lanes gives, with the sticky bits of its sums. (R131, R132, R133) -/
def Obligations.VectorGroupReductions : Prop :=
  (∀ g d a gs (op : BitVec 2) t s x s1 s2, mayIssue (.vred g d a gs op t) g s = true → s.vec t a = some (x, s1) →
    s1.lanes (.vred g d a gs op t) d t 0 (fun j => reduceLanes t op.toNat
      ((List.range (groupLanes gs t)).map (fun i => lane x (j / groupLanes gs t * groupLanes gs t + i) t.width))) = some s2 →
    exec (.vred g d a gs op t) s = .next (advance s2)) ∧
  (∀ g d a gs (op : BitVec 2) t s x s1 s2, mayIssue (.vscan g d a gs op t) g s = true → s.vec t a = some (x, s1) →
    s1.lanes (.vscan g d a gs op t) d t 0 (fun j =>
      (((List.range (groupLanes gs t)).map (fun i => lane x (j / groupLanes gs t * groupLanes gs t + i) t.width)).take
        (j % groupLanes gs t + (if op = 0 then 1 else 0))).sum) = some s2 →
    exec (.vscan g d a gs op t) s = .next (advance s2)) ∧
  (∀ g d a gs (op : BitVec 2) t s x s1 s2, mayIssue (.vfred g d a gs op t) g s = true → s.vec t a = some (x, s1) →
    s1.rounded (.vfred g d a gs op t) d t 0 (fun j => fredTree op.toNat (groupLanes gs t).log2
      ((List.range (groupLanes gs t)).map (fun i => (lane x (j / groupLanes gs t * groupLanes gs t + i) 32, 0)))) = some s2 →
    exec (.vfred g d a gs op t) s = .next (advance s2))

/-- vfadd, vfsub and vfmul deliver per lane the exact sum, difference and product rounded once, vfma and vfms the exact a * b +
d and d - a * b, each with the sticky bits it raises; vfmin and vfmax choose a lane, vfabs and vfneg change its sign, vfsgn
gives the magnitude of a with the sign of b, none of them raising a sticky bit. (R135, R136, R122) -/
def Obligations.VectorFloatingLanes : Prop :=
  Rounds2 .vfadd Machine.Num.add ∧
  Rounds2 .vfsub (fun u v => u.add v.neg) ∧
  Rounds2 .vfmul Machine.Num.mul ∧
  Rounds3 .vfma (fun u v w => (u.mul v).add w) ∧
  Rounds3 .vfms (fun u v w => w.add (u.mul v).neg) ∧
  Chooses2 .vfmin fmin ∧
  Chooses2 .vfmax fmax ∧
  LanesFrom .vfabs (fun t x j => (roundNear t (decodeNum t (lane x j t.width)).abs).1) ∧
  LanesFrom .vfneg (fun t x j => (roundNear t (decodeNum t (lane x j t.width)).neg).1) ∧
  (∀ g d a b t k s x y s1 s2 s3, mayIssue (.vfsgn g d a b t k) g s = true → s.vec t a = some (x, s1) → s1.vec t b = some (y, s2) →
    s2.lanes (.vfsgn g d a b t k) d t k (fun j =>
      let u := decodeNum t (lane x j t.width)
      (roundNear t (if !(decodeNum t (lane y j t.width)).isNan && (lane y j t.width).testBit (t.width - 1) then u.abs.neg
        else u.abs)).1) = some s3 →
    exec (.vfsgn g d a b t k) s = .next (advance s3))

/-- vrcp, vrsq, vexp2 and vlog2 deliver per f32 lane the reduced-grid value of R138 with the sticky bits it raises; vicvt
converts sixteen integer lanes to f32 and vfcvt sixteen f32 lanes to the integer type, each rounded under CONV with its draw,
where stochastic rounding is in force. (R138, R139, R113) -/
def Obligations.VectorApproximationsAndConversions : Prop :=
  Approximates .vrcp rcpLane ∧
  Approximates .vrsq rsqLane ∧
  Approximates .vexp2 exp2Lane ∧
  Approximates .vlog2 log2Lane ∧
  (∀ g d a t k s x s1 s2, mayIssue (.vicvt g d a t k) g s = true → s.vec t a = some (x, s1) →
    s1.rounded (.vicvt g d a t k) d .f32 k (fun j => roundTo .f32 (rmodeAt s1.me s1.here) ((drawList s1 0 16).getD j 0)
      (sate4At s1.me s1.here) (decodeNum t (lane x j 32))) = some s2 →
    exec (.vicvt g d a t k) s = .next (advance s2)) ∧
  (∀ g d a t k s x s1 s2, mayIssue (.vfcvt g d a t k) g s = true → s.vec .f32 a = some (x, s1) →
    s1.rounded (.vfcvt g d a t k) d t k (fun j => roundTo t (rmodeAt s1.me s1.here) ((drawList s1 0 16).getD j 0)
      (sate4At s1.me s1.here) (decodeNum .f32 (lane x j 32))) = some s2 →
    exec (.vfcvt g d a t k) s = .next (advance s2))

/-- Lanes delivered to a register make its 512 bits, landing on the bytes that the write mask enables: all for mask field 0,
else every byte of a lane whose lowest byte has its bit set in the k register. Lanes delivered to a drain ring that is bound,
free and has room enter it in lane order, each converted to the ring's format under CONV, and the sticky bits of those
conversions are due with them. (R120, R121, R122, R33) -/
def Obligations.VectorResultsReachTheirDestination : Prop :=
  (∀ i (d : Opnd) (t : Fmt) k f (s : State) m, (∀ q, d ≠ .pop q) → s.writeMask t.width k = some m →
    s.lanes i d t k f = some (s.deliver i (BitVec.ofNat 512 (ofLanes t.width ((List.range (512 / t.width)).map f))) m 0)) ∧
  (∀ (t : Fmt) m b, t.width ∈ [8, 16, 32, 64] → b < 64 →
    (laneBytes t.width m).testBit b = m.testBit (t.width / 8 * (b / (t.width / 8)))) ∧
  (∀ i (q : BitVec 5) (t : Fmt) f (s : State) r, s.ringFree q.toNat true r → s.ringTakes q.toNat r (512 / t.width * r.width) →
    s.lanes i (.pop q) t 0 f = some (
      let v : Vec := BitVec.ofNat 512 (ofLanes t.width ((List.range (512 / t.width)).map f))
      let (xs, st) := convertAll s r.fmt (if rmodeAt s.me s.here = 4 then ownDraws i else 0)
        ((List.range (512 / t.width)).map (fun j => decodeNum t (lane v j t.width)))
      (s.place q.toNat r (ofLanes r.width xs) (512 / t.width * r.width) (latSteps s i)).stick (latSteps s i) st))

/-- A pop of a bound fill ring of a fitting format whose next elements are filled reads them decoded to the lanes of the
operation's type and consumes them, a peek reads the same and leaves them; a raw pop reads the whole next entry. Where the
elements are not filled yet and no chunk has failed, the operation stalls and the stall is counted; where the read pointer
stands at the end of the stream it raises trap 0x11. (R33, R34, R93, R119) -/
def Obligations.RingSourcesReadInOrder : Prop :=
  (∀ (q : BitVec 5) (t : Fmt) (s : State) r, s.ringFree q.toNat false r → ringTypeOk r t = true →
    r.has r.readPos (512 / t.width * r.width) →
    let x := r.bitsFrom r.readPos (512 / t.width * r.width)
    let v := mkLanes t.width (512 / t.width) (fun i => ringLane r.fmt t (bitsAt x (i * r.width) r.width))
    s.vec t (.pop q) = some (v, setRing q.toNat (r.consume (512 / t.width * r.width)) s) ∧ s.vec t (.peek q) = some (v, s)) ∧
  (∀ (q : BitVec 5) (s : State) r, s.ringFree q.toNat false r → r.has (r.readPos / 512 * 512) 512 →
    let v : Vec := BitVec.ofNat 512 (r.bitsFrom (r.readPos / 512 * 512) 512)
    s.raw (.pop q) = some (v, setRing q.toNat (r.consume (r.readPos / 512 * 512 + 512 - r.readPos)) s) ∧
      s.raw (.peek q) = some (v, s)) ∧
  (∀ (q : BitVec 5) (t : Fmt) (s : State) r, s.ringFree q.toNat false r → ringTypeOk r t = true →
    (∀ b, r.streamBits = some b → r.readPos < b) → r.fail = 0 →
    r.filled < (match r.streamBits with
      | some b => min (r.readPos + 512 / t.width * r.width) b | none => r.readPos + 512 / t.width * r.width) →
    readVec t (.pop q) s = .error (.stallWith (perf s s.cur.loc 3 1))) ∧
  (∀ (q : BitVec 5) (t : Fmt) (s : State) r b, s.ringFree q.toNat false r → ringTypeOk r t = true → r.streamBits = some b → b ≤ r.readPos →
    readVec t (.pop q) s = .error (.trap 0x11 0))

/-- A slot that names a drain queue reads the data of its oldest entry not yet popped and pops it, where it must find it at its
step; where it need not find it yet the read either does the same or raises trap 0x21, and which of the two is left open; an
empty queue with no push owed raises trap 0x21 with the queue's number as INFO. (R35, R26, R154) -/
def Obligations.DrainQueuePops : Prop :=
  (∀ (n : BitVec 2) (s : State) e, (dqKeep s.me (s.me.dqs.look [] n.toNat)).find? (fun e => e.popped.isNone) = some e →
    let t := s.setMe { s.me with dqs := s.me.dqs.put n.toNat ((dqKeep s.me (s.me.dqs.look [] n.toNat)).map (fun d =>
      if d.uid = e.uid then { d with popped := some (2 * stepOf s.me s.cur.slot + bit s.me.frame.isSome) } else d)) }
    (dqMust s.me s.cur.slot e = true → s.raw (.dq n) = some (e.data, t)) ∧
    (s.raw (.dq n) = some (e.data, t) ∨ readRaw (.dq n) s = .error (.trap 0x21 n.toNat))) ∧
  (∀ (n : BitVec 2) (s : State), (∀ e ∈ dqKeep s.me (s.me.dqs.look [] n.toNat), e.popped.isSome) → dqOwed s n.toNat s.cur.slot = false →
    readRaw (.dq n) s = .error (.trap 0x21 n.toNat))

/-- xcvt converts as many elements as the wider format has in 512 bits, taking or filling part P of the narrower side; xquant
converts sixteen f32 lanes divided by the E8 scale of b into part P of d; xdeq converts the sixteen elements of part P times
that scale to f32; xamax delivers the largest magnitude of sixteen lanes and of b, and above it the scale that fits it. Each
completes where its operands can be read and its destination takes the result, with the sticky bits of its conversions. (R165,
R166, R161, R164) -/
def Obligations.TransformConversions : Prop :=
  (∀ g d a (p : BitVec 8) fo fi s x old s1 s2 s3, mayIssue (.xcvt g d a p fo fi) g s = true → s.raw a = some (x, s1) →
    (if fo.cvtWidth < fi.cvtWidth then s1.raw d else some (0, s1)) = some (old, s2) →
    (let n := 512 / max fi.cvtWidth fo.cvtWidth
     let (xs, st) := convertAll s2 fo 0 ((List.range n).map (fun j =>
       decodeNum fi (lane x (j + (if fi.cvtWidth < fo.cvtWidth then p.toNat * n else 0)) fi.cvtWidth)))
     s2.xres (.xcvt g d a p fo fi) d (putLanes old.toNat fo.cvtWidth (if fo.cvtWidth < fi.cvtWidth then p.toNat * n else 0) xs) st)
      = some s3 →
    exec (.xcvt g d a p fo fi) s = .next (advance s3)) ∧
  (∀ g d a b fo (p : BitVec 3) s x y old s1 s2 s3 s4, mayIssue (.xquant g d a b fo p) g s = true → s.raw a = some (x, s1) →
    s1.raw b = some (y, s2) → s2.raw d = some (old, s3) →
    (let sc := y.toNat % 256
     let (xs, st) := convertAll s3 fo 0 ((List.range 16).map (fun j => (decodeNum .f32 (lane x j 32)).scaled sc (127 - sc)))
     s3.xres (.xquant g d a b fo p) d (putLanes old.toNat fo.width (16 * p.toNat) xs) st) = some s4 →
    exec (.xquant g d a b fo p) s = .next (advance s4)) ∧
  (∀ g d a b (p : BitVec 3) fi s x y s1 s2 s3, mayIssue (.xdeq g d a b p fi) g s = true → s.raw a = some (x, s1) →
    s1.raw b = some (y, s2) →
    (let sc := y.toNat % 256
     let (xs, st) := convertAll s2 .f32 0 ((List.range 16).map (fun j =>
       (decodeNum fi (lane x (16 * p.toNat + j) fi.width)).scaled sc ((sc : Int) - 127)))
     s2.xres (.xdeq g d a b p fi) d (ofLanes 32 xs) st) = some s3 →
    exec (.xdeq g d a b p fi) s = .next (advance s3)) ∧
  (∀ g d a b fo s x y s1 s2 s3, mayIssue (.xamax g d a b fo) g s = true → s.raw a = some (x, s1) → s1.raw b = some (y, s2) →
    (let m := ((List.range 16).map (fun j => (decodeNum .f32 (lane x j 32)).abs)).foldl
       (fun r v => if r.isNan || v.isNan then Machine.Num.nan else if r.lt v then v else r) (decodeNum .f32 (lane y 0 32)).abs
     s2.xres (.xamax g d a b fo) d ((roundNear .f32 m).1 + amaxScale fo m * 2 ^ 32) 0) = some s3 →
    exec (.xamax g d a b fo) s = .next (advance s3))

/-- xpack puts the low bits of 64 byte lanes together as narrow elements in half P of d, xunpk spreads them into byte lanes;
xcrc delivers the checksum of the first N bytes of a continued from b. xtr writes to sixteen or thirty-two t registers the
columns of as many rows and occupies the transpose unit that long; it traps 0x01 where the sequencer's own earlier xtr still
occupies the unit. xexp decodes one chunk from a fill ring into whole entries of a drain ring, a failed chunk raising its trap.
(R167, R168, R169, R163, R176) -/
def Obligations.TransformBytesAndTranspose : Prop :=
  (∀ g d a (p : BitVec 8) t s x old s1 s2 s3, mayIssue (.xpack g d a p t) g s = true → s.raw a = some (x, s1) →
    s1.raw d = some (old, s2) →
    s2.xres (.xpack g d a p t) d
      (putLanes (old.toNat / 2 ^ (256 * p.toNat)) t.width 0 ((List.range 64).map (fun j => lane x j 8 % 2 ^ t.width))
        * 2 ^ (256 * p.toNat) + old.toNat % 2 ^ (256 * p.toNat)) 0 = some s3 →
    exec (.xpack g d a p t) s = .next (advance s3)) ∧
  (∀ g d a (p : BitVec 8) t s x s1 s2, mayIssue (.xunpk g d a p t) g s = true → s.raw a = some (x, s1) →
    s1.xres (.xunpk g d a p t) d
      (ofLanes 8 ((List.range 64).map (fun j => bitsAt x.toNat (256 * p.toNat + t.width * j) t.width))) 0 = some s2 →
    exec (.xunpk g d a p t) s = .next (advance s2)) ∧
  (∀ g d a b (n1 : BitVec 6) s x y s1 s2 s3, mayIssue (.xcrc g d a b n1) g s = true → s.raw a = some (x, s1) →
    s1.raw b = some (y, s2) →
    s2.xres (.xcrc g d a b n1) d (crcBytes (lane y 0 32) (toBytes (n1.toNat + 1) x.toNat)) 0 = some s3 →
    exec (.xcrc g d a b n1) s = .next (advance s3)) ∧
  (∀ g (d a : BitVec 5) t s (rows : Nat → Vec), mayIssue (.xtr g d a t) g s = true →
    let n := if t.width = 32 then 16 else 32
    let o := s.seqAt (siblingOf s.cur.loc)
    s.me.xtrFree ≤ stepOf s.me .X →
    (o.status ≠ 0 → o.xtrFree ≤ stepOf o .X ∧ ∀ f, o.frame = some f → f.xtrFree ≤ f.steps.look 0 Slot.X.num) →
    (∀ r < n, s.regIn ⟨.t, a.toNat + r⟩ = some (rows r)) →
    exec (.xtr g d a t) s = .next (advance ((List.range n).foldl (fun u c =>
      u.send ⟨.t, d.toNat + c⟩ (latSteps s (.xtr g d a t)) (mkLanes t.width n (fun r => lane (rows r) c t.width)) allBytes 0)
      (s.setMe { s.me with xtrFree := s.here + n })))) ∧
  (∀ g (d a : BitVec 5) t s, mayIssue (.xtr g d a t) g s = true → stepOf s.me .X < s.me.xtrFree →
    exec (.xtr g d a t) s = .next (trapHere s 0x01 0)) ∧
  (∀ g (q a : BitVec 5) dbp t chk s r o, mayIssue (.xexp g q a dbp t chk) g s = true → s.ringFree a.toNat false r →
    s.ringFree q.toNat true o →
    let hdr := r.bitsFrom r.readPos 64
    let dlen := bitsAt hdr 0 16
    let elen := bitsAt hdr 16 16
    let size := 64 + 64 * ceilDiv elen 8
    let ne := ceilDiv (dlen * t.width) 512
    let bytes := toBytes (size / 8 - 8) (r.bitsFrom (r.readPos + 64) (size - 64))
    r.has r.readPos 64 → r.has r.readPos size →
    size + r.readPos % 512 ≤ 512 * ringDepth s.me a.toNat → ne ≤ ringDepth s.me q.toNat →
    (∀ b, r.streamBits = some b → r.readPos + size ≤ b) →
    match decodeChunk (if dbp then 2 else 1) t.width 15 chk 65535 hdr (bytes.take elen) (bytes.drop elen) with
    | .error c => exec (.xexp g q a dbp t chk) s = .next (trapHere s c a.toNat)
    | .ok els =>
      (∀ b, o.streamBits = some b → 512 * (o.moved + (closePart o.entries).length + ne) ≤ b) →
      (closePart o.entries).length + ne ≤ ringDepth s.me q.toNat →
      ∀ u, (Act.ends (pushEntries q.toNat (latency s.me 17)
        ((List.range ne).map (fun e => bitsAt (ofLanes t.width els) (512 * e) 512)) 0)
        (setRing a.toNat (r.consume size) s)).map (·.2) = some u →
      exec (.xexp g q a dbp t chk) s = .next (advance u))

/-- mclr queues the clearing of a tile that no earlier write holds; mpar puts its immediate in an m register, whole or as bits
63:32 over the old low half; mcall starts a routine at a word of the store; mcnt.rd pushes both counters of a tile into a drain
queue, mcnt.snap also clears them, mcnt.clr clears them. mloop, mend and mend.f met in the slot itself raise trap 0x01, whatever
their predicate. (R143, R151, R156, R158, R160) -/
def Obligations.MatrixTileOperations : Prop :=
  (∀ g (acc : BitVec 5) s, mayIssue (.mclr g acc) g s = true → scoreboarded s.landed.me acc.toNat = false →
    exec (.mclr g acc) s = .next (advance (s.landed.queueTile acc.toNat .clear))) ∧
  (∀ g (md : BitVec 3) (k : BitVec 32) s, mayIssue (.mpar g md k false) g s = true →
    exec (.mpar g md k false) s = .next (advance (s.send ⟨.m, md.toNat⟩ 1 (k.setWidth 512) allBytes 0))) ∧
  (∀ g (md : BitVec 3) (k : BitVec 32) s v, mayIssue (.mpar g md k true) g s = true → s.regIn ⟨.m, md.toNat⟩ = some v →
    exec (.mpar g md k true) s = .next (advance (s.send ⟨.m, md.toNat⟩ 1
      ((k ++ v.extractLsb' 0 32 : BitVec 64).setWidth 512) allBytes 0))) ∧
  (∀ g (n : BitVec 11) s, mayIssue (.mcall g n) g s = true →
    exec (.mcall g n) s = .next (advance (s.setMe { s.me with routine := some ⟨n.toNat, [], 0⟩ }))) ∧
  (∀ g c m src s, s.me.routine = none → heldBack (.mloop g c m src) s = false → exec (.mloop g c m src) s = .next (trapHere s 0x01 0)) ∧
  (∀ g s, s.me.routine = none → heldBack (.mend g) s = false → exec (.mend g) s = .next (trapHere s 0x01 0)) ∧
  (∀ g s, s.me.routine = none → heldBack (.mendF g) s = false → exec (.mendF g) s = .next (trapHere s 0x01 0)) ∧
  (∀ g (n : BitVec 2) (acc : BitVec 5) s, mayIssue (.mcntRd g n acc) g s = true → scoreboarded s.landed.me acc.toNat = false →
    s.landed.dqReady n.toNat 1 →
    exec (.mcntRd g n acc) s = .next (advance (s.landed.pushQueue n.toNat
      (BitVec.ofNat 512 (countersOf s.landed acc.toNat)) (latency s.landed.me 15)))) ∧
  (∀ g (n : BitVec 2) (acc : BitVec 5) s, mayIssue (.mcntSnap g n acc) g s = true → scoreboarded s.landed.me acc.toNat = false →
    s.landed.dqReady n.toNat 1 →
    exec (.mcntSnap g n acc) s = .next (advance (clearCounters acc.toNat (s.landed.pushQueue n.toNat
      (BitVec.ofNat 512 (countersOf s.landed acc.toNat)) (latency s.landed.me 15))))) ∧
  (∀ g (acc : BitVec 5) s, mayIssue (.mcntClr g acc) g s = true → scoreboarded s.landed.me acc.toNat = false →
    exec (.mcntClr g acc) s = .next (advance (clearCounters acc.toNat s.landed)))

/-- Where the tile is free, the ring holds the first elements of the A operand in the operation's format and the slab at the
Larder line in its m register is written and fits, mmac queues its tile write and starts taking elements; with ADV its m
register becomes the line after the slab. mmacs does the same on scaled operands whose run in a second m register fits, and with
ADV its run moves on by KN, starting again at the end of the run length. (R152, R153, R145) -/
def Obligations.MatrixProducts : Prop :=
  (∀ g (acc q : BitVec 5) af bf (kn : BitVec 7) (lm : BitVec 3) adv s r v, mayIssue (.mmac g acc q af bf kn lm adv) g s = true →
    scoreboarded s.landed.me acc.toNat = false → s.landed.regIn ⟨.m, lm.toNat⟩ = some v →
    s.landed.arrayTakes q.toNat r af bf kn.toNat v.toNat 0 false →
    exec (.mmac g acc q af bf kn lm adv) s = .next (advance (
      let t := s.landed.arrayIssued acc.toNat q.toNat (s.landed.arrayOp q.toNat r af bf kn.toNat v.toNat 0)
      if adv then t.send ⟨.m, lm.toNat⟩ 1 (BitVec.ofNat 512 ((v.toNat + bitsAt (s.landed.header v.toNat) 64 16) % 2 ^ 64)) allBytes 0
      else t))) ∧
  (∀ g (acc q : BitVec 5) af bf (kn : BitVec 7) (lm km : BitVec 3) adv s r v w,
    mayIssue (.mmacs g acc q af bf kn lm km adv) g s = true →
    scoreboarded s.landed.me acc.toNat = false → s.landed.regIn ⟨.m, lm.toNat⟩ = some v → s.landed.regIn ⟨.m, km.toNat⟩ = some w →
    s.landed.arrayTakes q.toNat r af bf kn.toNat v.toNat w.toNat true →
    exec (.mmacs g acc q af bf kn lm km adv) s = .next (advance (
      let t := s.landed.arrayIssued acc.toNat q.toNat (s.landed.arrayOp q.toNat r af bf kn.toNat v.toNat w.toNat)
      let k := bitsAt w.toNat 16 16 + kn.toNat
      if adv then (t.send ⟨.m, lm.toNat⟩ 1
        (BitVec.ofNat 512 ((v.toNat + bitsAt (s.landed.header v.toNat) 64 16) % 2 ^ 64)) allBytes 0).send ⟨.m, km.toNat⟩ 1
          (BitVec.ofNat 512 (w.toNat - bitsAt w.toNat 16 16 * 2 ^ 16 +
            (if k = bitsAt w.toNat 0 16 then 0 else k) * 2 ^ 16)) allBytes 0
      else t)))

/-- mdrain converts NR rows of a free tile under CONV and pushes them as entries landing one after another, clearing the rows
afterwards where asked. mlar starts a fill from a ring that holds its first elements into a line range inside the window; with
ADV 1 its m register becomes the line after the worst extent, with ADV 2 the slot waits, its predicate judged once (log 27),
until the slab is written and the register becomes the line after it. The next word of a running routine issues in the M slot of
a bundle that has none there, and the routine moves on. (R154, R155, R158, R159) -/
def Obligations.MatrixDrainsAndFills : Prop :=
  (∀ g (n : BitVec 2) (acc : BitVec 5) (rs : BitVec 7) (nr1 : BitVec 4) fo cl s, mayIssue (.mdrain g n acc rs nr1 fo cl) g s = true →
    scoreboarded s.landed.me acc.toNat = false →
    s.landed.dqReady n.toNat (ceilDiv ((nr1.toNat + 1) * 256 * fo.width) 512) →
    exec (.mdrain g n acc rs nr1 fo cl) s = .next (advance (
      let t := s.landed
      let xs := tileRows (t.coreAt (coreOf t.cur.loc)).tile (tileBase t t.cur.loc acc.toNat) rs.toNat (nr1.toNat + 1)
      let (ys, st) := convertAll t fo 0 (xs.map (fun x => decodeNum .f32 x.toNat))
      let u := (t.pushQueueAll n.toNat (latency t.me 15) ((List.range (ceilDiv ((nr1.toNat + 1) * 256 * fo.width) 512)).map
        (fun e => bitsAt (ofLanes fo.width ys) (512 * e) 512))).stick (latency t.me 15) st
      if cl then u.queueTile acc.toNat (.rows rs.toNat (nr1.toNat + 1)) else u))) ∧
  (∀ g (q : BitVec 5) (kn : BitVec 7) (lm : BitVec 3) (adv : BitVec 2) s r v, mayIssue (.mlar g q kn lm adv) g s = true →
    (∀ f ∈ s.me.fills, f.wait ≠ some (s.here, s.me.frame.isSome)) → s.ringFree q.toNat false r →
    s.regIn ⟨.m, lm.toNat⟩ = some v → v.toNat < larderWindow s.me →
    let k0 := if r.blk = 0 then 0 else (r.coord (r.readPos / r.width)).getD 1 0
    let worst := slabWorst (blocksIn r.blk k0 kn.toNat) kn.toNat r.width
    v.toNat + worst ≤ larderWindow s.me →
    (r.gather = true ∨ r.readPos + 256 * kn.toNat * r.width ≤ r.total * r.width) →
    r.has r.readPos (min (256 * kn.toNat * r.width) (512 - r.readPos % 512)) →
    let f : Fill := ⟨q.toNat, r.fmt, kn.toNat, v.toNat, 0, 0, 0, r.blk, k0, r.cnt 1, worst, none,
      if adv = 2 then some (s.here, s.me.frame.isSome) else none⟩
    let t := feedRing (s.setMe { s.me with fills := s.me.fills ++ [f] }) s.cur.loc q.toNat
    exec (.mlar g q kn lm adv) s = .next (
      if adv = 2 then stallHere t
      else if adv = 1 then advance (t.send ⟨.m, lm.toNat⟩ 1 (BitVec.ofNat 512 (v.toNat + worst)) allBytes 0)
      else advance t)) ∧
  (∀ g (q : BitVec 5) (kn : BitVec 7) (lm : BitVec 3) (adv : BitVec 2) s f n, mayIssue (.mlar g q kn lm adv) ⟨15, false⟩ s = true →
    s.me.fills.find? (fun f => f.wait == some (s.here, s.me.frame.isSome)) = some f → f.done = some n →
    exec (.mlar g q kn lm adv) s = .next (advance (
      (s.setMe { s.me with fills := s.me.fills.filter (fun f => f.wait != some (s.here, s.me.frame.isSome)) }).send
        ⟨.m, lm.toNat⟩ 1 (BitVec.ofNat 512 (f.line + n)) allBytes 0))) ∧
  (∀ s rt i nx t, s.me.routine = some rt → s.bundle.bits.present .M = false → (s.bundle.bits.op .M).isSome = true →
    let see := seeM s s.cur.loc
    let at' := routineSkip s s.cur.loc s.here see 2048 rt
    (at'.word < 2048 → (storeWord s s.cur.loc s.here at'.word).toNat / 2 ^ 63 = 1 →
      (s.regIn ⟨.m, bitsAt (storeWord s s.cur.loc s.here at'.word).toNat 60 3⟩).isSome) →
    routineOp s s.cur.loc s.here at'.word see = some i → routineNext at' i true see = .ok nx →
    mayIssue i (begunGuard (mlarBegun s) (guardOfM i)) s = true → Act.ends (actOfM i) s = some ((), t) →
    exec .routineWordIssue s = .next (moveRoutine s.cur.loc nx (advance t)))

/-- ld reads the element of its type, aligned, sign-extended for a signed type; vld reads 64 aligned bytes and vldu 64 bytes
anywhere. A load from the local store or the slice banks delivers the value with the latency of the window; one from device
memory takes an in-flight entry, sends a read of each line and leaves its destination scoreboarded. A misaligned address, and
bytes in no single window, raise trap 0x11 with the address. pf changes nothing and completes. (R83, R84, R86, R88, R90) -/
def Obligations.LoadsComplete : Prop :=
  (∀ g dst a b cls t, Loads (.ld g dst a b cls t) g a b (t.width / 8) true cls t) ∧
  (∀ g dst a b cls, Loads (.vld g dst a b cls) g a b 64 true cls .b8) ∧
  (∀ g dst a b cls, Loads (.vldu g dst a b cls) g a b 64 false cls .b8) ∧
  (∀ g a b s x y, mayIssue (.pf g a b) g s = true → s.opnd a = some x → s.opnd b = some y →
    exec (.pf g a b) s = .next (advance s))

/-- st writes the element of its type at an aligned address, vst all 64 bytes of its source at an aligned address, vstm the
bytes whose bit is 1 in its k register at any address, all in one window; where no bit is 1 vstm writes nothing. A store to the
local store or the slice banks writes them at issue; one to device memory takes an in-flight entry and sends a write of each
line that has bytes. A misaligned st or vst, and bytes in no single window, raise trap 0x11 with the address. (R85, R86, R88) -/
def Obligations.StoresComplete : Prop :=
  (∀ g src a b cls t s x y z, mayIssue (.st g src a b cls t) g s = true → s.opnd a = some x → s.opnd b = some y →
    s.opnd src = some z →
    let va := (x + y).toNat
    let n := t.width / 8
    (va % n ≠ 0 → exec (.st g src a b cls t) s = .next (trapHere s 0x11 va)) ∧
    (va % n = 0 → windowOf va n = none → exec (.st g src a b cls t) s = .next (trapHere s 0x11 va)) ∧
    (∀ w, va % n = 0 → windowOf va n = some w → Stores (.st g src a b cls t) s s va n (2 ^ n - 1) z.toNat cls w)) ∧
  (∀ g src a b cls s x y z s1, mayIssue (.vst g src a b cls) g s = true → s.opnd a = some x → s.opnd b = some y →
    s.raw src = some (z, s1) →
    let va := (x + y).toNat
    (va % 64 ≠ 0 → exec (.vst g src a b cls) s = .next (trapHere s 0x11 va)) ∧
    (va % 64 = 0 → windowOf va 64 = none → exec (.vst g src a b cls) s = .next (trapHere s 0x11 va)) ∧
    (∀ w, va % 64 = 0 → windowOf va 64 = some w → Stores (.vst g src a b cls) s s1 va 64 allBytes z.toNat cls w)) ∧
  (∀ g src a (k : BitVec 4) v1 cls s x m z s1, mayIssue (.vstm g src a k v1 cls) g s = true → s.opnd a = some x →
    s.regIn ⟨if v1 then .k1 else .k0, k.toNat⟩ = some m → s.raw src = some (z, s1) →
    let va := x.toNat
    (m.toNat = 0 → exec (.vstm g src a k v1 cls) s = .next (advance s1)) ∧
    (m.toNat ≠ 0 → maskedWindow va m.toNat = none → exec (.vstm g src a k v1 cls) s = .next (trapHere s 0x11 va)) ∧
    (∀ w, m.toNat ≠ 0 → maskedWindow va m.toNat = some w →
      Stores (.vstm g src a k v1 cls) s s1 va 64 m.toNat z.toNat cls w))

/-- Each atomic reads the element at its aligned address, writes what Table 15.4 gives for its operation, and delivers the old
value to w[WD] unless NR is set: at issue in the local store and the slice banks, where the sticky bits of an f32 sum are set,
and by an in-flight entry in device memory. A release form issues once nothing of its scope is under way, an acquire form marks
what is; a misaligned address and an element in no single window raise trap 0x11 with the address. (R248, R249, R250, R251) -/
def Obligations.AtomicsComplete : Prop :=
  (∀ g wd a b nr ord cls t, AtomicCompletes (.aadd g wd a b nr ord cls t) g 0 wd a b nr ord cls t) ∧
  (∀ g wd a b nr ord cls t, AtomicCompletes (.amin g wd a b nr ord cls t) g 1 wd a b nr ord cls t) ∧
  (∀ g wd a b nr ord cls t, AtomicCompletes (.amax g wd a b nr ord cls t) g 2 wd a b nr ord cls t) ∧
  (∀ g wd a b nr (lop : BitVec 2) ord cls t, AtomicCompletes (.alog g wd a b nr lop ord cls t) g (3 + lop.toNat) wd a b nr ord cls t) ∧
  (∀ g wd a b nr ord cls t, AtomicCompletes (.aswp g wd a b nr ord cls t) g 6 wd a b nr ord cls t) ∧
  (∀ g wd a b ord cls t, AtomicCompletes (.acas g wd a b ord cls t) g 7 wd a b false ord cls t) ∧
  (∀ g wd a b nr ord cls t, AtomicCompletes (.aincb g wd a b nr ord cls t) g 8 wd a b nr ord cls t)

/-- rcnt adds one, saturating, to the counter of its base plus each id that is not padding, two ids from an own register and
sixteen from any other source, and traps 0x11 where a counter beyond the last is named. asnap writes sixteen counters to the
local store, delivers their sum and clears them. sarm sets target and zero count of a sync word, keeps its generation and clears
its flags; swait goes on once the generation has passed the one in its y register and adds one to it, and traps 0x52 where the
word is in error. fence waits for what is under way. (R216, R245, R254, R255, R257, R258) -/
def Obligations.CountersSyncWordsAndFences : Prop :=
  (∀ g a i s x y, mayIssue (.rcnt g a (.own i)) g s = true → s.opnd a = some x → s.opnd (.own i) = some y →
    let ids := ([y.extractLsb' 0 32, y.extractLsb' 32 32].map BitVec.toNat).filter (· != 2 ^ 32 - 1)
    ((∀ j ∈ ids, x.toNat + j < 1024) →
      exec (.rcnt g a (.own i)) s = .next (advance (s.counted (ids.map (x.toNat + ·))))) ∧
    ((∃ j ∈ ids, 1024 ≤ x.toNat + j) → exec (.rcnt g a (.own i)) s = .next (trapHere s 0x11 0))) ∧
  (∀ g a b s x v s1, mayIssue (.rcnt g a b) g s = true → s.opnd a = some x → (∀ i, b ≠ .own i) → s.raw b = some (v, s1) →
    let ids := ((List.range 16).map (fun j => (laneB 32 v j).toNat)).filter (· != 2 ^ 32 - 1)
    ((∀ j ∈ ids, x.toNat + j < 1024) → exec (.rcnt g a b) s = .next (advance (s1.counted (ids.map (x.toNat + ·))))) ∧
    ((∃ j ∈ ids, 1024 ≤ x.toNat + j) → exec (.rcnt g a b) s = .next (trapHere s 0x11 0))) ∧
  (∀ g (wd : BitVec 5) a b cls s x n, mayIssue (.asnap g wd a b cls) g s = true → s.opnd a = some x → s.opnd b = some n →
    x.toNat % 64 = 0 → x.toNat + 64 ≤ Config.localBytes → n.toNat < 64 →
    let p := partOf s.cur.loc
    let vs := (List.range 16).map (fun j => (s.quadAt p).ctr.look 0 (16 * n.toNat + j))
    exec (.asnap g wd a b cls) s = .next (advance
      (((s.setQuad p { s.quadAt p with ctr := (s.quadAt p).ctr.clear (16 * n.toNat) 16 }).near x.toNat (toBytes 64 (ofLanes 32 vs))
        allBytes).send ⟨.w, wd.toNat⟩ (latency s.me 11) (BitVec.ofNat 512 vs.sum) allBytes 0))) ∧
  (∀ g (a b : BitVec 5) s x t, mayIssue (.sarm g a b) g s = true → s.regIn ⟨.y, a.toNat⟩ = some x → s.regIn ⟨.y, b.toNat⟩ = some t →
    let p := bitsAt x.toNat 0 52
    (p % 16 = 0 → p < 2 ^ 20 →
      let die := dieOf s.cur.loc
      let w := coreOf s.cur.loc % 32 * 65536 + p / 16
      let u := discardStaged s die w
      exec (.sarm g a b) s = .next (advance (putSync u die w (t.toNat % 2 ^ 32) 0 (bitsAt (syncWord u die w) 64 32) 0))) ∧
    (p % 16 ≠ 0 ∨ 2 ^ 20 ≤ p → exec (.sarm g a b) s = .next (trapHere s 0x11 p))) ∧
  (∀ g (a y : BitVec 5) s x n, mayIssue (.swait g a y) g s = true → s.regIn ⟨.y, a.toNat⟩ = some x → s.regIn ⟨.y, y.toNat⟩ = some n →
    let p := bitsAt x.toNat 0 52
    let word := syncWord s (dieOf s.cur.loc) (coreOf s.cur.loc % 32 * 65536 + p / 16)
    let ahead := (bitsAt word 64 32 + 2 ^ 32 - n.toNat % 2 ^ 32) % 2 ^ 32
    p % 16 = 0 → p < 2 ^ 20 →
    (word.testBit 100 = true → exec (.swait g a y) s = .next (trapHere s 0x52 p)) ∧
    (word.testBit 100 = false → ahead ≠ 0 → ahead < 2 ^ 31 → exec (.swait g a y) s = .next (advance
      (s.send ⟨.y, y.toNat⟩ 1 (BitVec.ofNat 512 ((n.toNat + 1) % 2 ^ 32)) allBytes 0))) ∧
    (word.testBit 100 = false → (ahead = 0 ∨ 2 ^ 31 ≤ ahead) → exec (.swait g a y) s = .next (stallHere s))) ∧
  (∀ g scope (mask : BitVec 16) s, mayIssue (.fence g scope mask) g s = true →
    exec (.fence g scope mask) s = .next
      (if fenceWaits s s.cur.loc .Y (s.scope scope.toNat) mask.toNat then stallHere s else advance s))

/-- The address lies at or above 4 GiB, below 2 to the 52, and is aligned; anything else raises trap 0x11 with the address. ldr
sends a read and leaves its destination poisoned from the declared landing index on, until the reply comes; str sends its value;
ratom sends the operation of its code with its operand and, for a compare and swap, the compare value, and its result is
awaited. With CA a die that does not hold the token of the region raises trap 0x12. (R280, R281, R282, R287, R288, R291) -/
def Obligations.RemoteAccessesComplete : Prop :=
  (∀ g dst a ca (lq : BitVec 9) cls t s x, mayIssue (.ldr g dst a ca lq cls t) g s = true → s.opnd a = some x →
    let va := x.toNat
    let n := t.width / 8
    let r := (destsOf s.cur.slot (.ldr g dst a ca lq cls t)).head?
    let l := 16 * (lq.toNat + 1)
    (¬remoteOk va n → exec (.ldr g dst a ca lq cls t) s = .next (trapHere s 0x11 va)) ∧
    (∀ pa, remoteOk va n → s.home va false true = some pa →
      (ca = true → s.holdsToken va = false → exec (.ldr g dst a ca lq cls t) s = .next (trapHere s 0x12 va)) ∧
      (∀ k, (ca = true → s.holdsToken va = true) → s.freeEntry = some k →
        exec (.ldr g dst a ca lq cls t) s = .next (advance ((s.opened k
          { s.readEntry 4 cls va n t r l with late := true, ca := ca } [(pa, va, 0, .read n)]).awaiting r l k true)))) ) ∧
  (∀ g src a ca cls t s x z, mayIssue (.str g src a ca cls t) g s = true → s.opnd a = some x → s.opnd src = some z →
    let va := x.toNat
    let n := t.width / 8
    (¬remoteOk va n → exec (.str g src a ca cls t) s = .next (trapHere s 0x11 va)) ∧
    (∀ pa, remoteOk va n → s.home va true true = some pa →
      (ca = true → s.holdsToken va = false → exec (.str g src a ca cls t) s = .next (trapHere s 0x12 va)) ∧
      (∀ k, (ca = true → s.holdsToken va = true) → s.freeEntry = some k →
        exec (.str g src a ca cls t) s = .next (advance (s.opened k { s.writeEntry 5 cls va n with ca := ca }
          [(pa, va, 0, .write (toBytes n z.toNat) (2 ^ n - 1))]))))) ∧
  (∀ g (wd : BitVec 5) a (wb : BitVec 5) (rop : BitVec 4) nr (ord : BitVec 2) cls t s x y z,
    mayIssue (.ratom g wd a wb rop nr ord cls t) g s = true → s.opnd a = some x → s.regIn ⟨.w, wb.toNat⟩ = some y →
    (if rop.toNat = 7 then s.regIn ⟨.w, wd.toNat⟩ else some 0) = some z →
    let va := x.toNat
    let n := t.width / 8
    let r : Option Reg := if nr then none else some ⟨.w, wd.toNat⟩
    (¬remoteOk va n → exec (.ratom g wd a wb rop nr ord cls t) s = .next (trapHere s 0x11 va)) ∧
    (∀ pa pr k, remoteOk va n → s.home va true true = some pa → s.home va false true = some pr →
      s.orderOpen ord.toNat (s.scope 0) = true → s.freeEntry = some k →
      exec (.ratom g wd a wb rop nr ord cls t) s = .next (advance (((s.opened k { s.readEntry 6 cls va n t r 1 with idem := 2 }
        [(pa, va, 0, .atom rop.toNat t.isSigned n (bitsAt y.toNat 0 (8 * n)) (bitsAt z.toNat 0 (8 * n)) (t == .f32))]).awaiting
          r 1 k false).ordered ord.toNat (s.scope 0)))))

/-- tacq of a region that its die holds delivers 1; where no request of the die stands and its cache is off or full it delivers
0; otherwise it asks and stalls. trel of a held token, once no cached access to the region is under way, writes the frame back
and returns the token; of another token it does nothing. The home grants a free token to the first request and recalls one that
another die holds; a grant gives the die a free frame of its cache and starts the minimum hold of one microsecond; after it a
recall that reaches the holder returns the token once nothing is pending. (R289, R290, R291) -/
def Obligations.TokensMove : Prop :=
  (∀ g d e s x, mayIssue (.tacq g d e) g s = true → s.regIn ⟨.e, e.toNat⟩ = some x → remoteOk x.toNat (2 ^ 21) →
    regionWhole s s.myVd x.toNat = true →
    let t := s.tokenAt s.myVd x.toNat
    let cold := (s.vdAt s.myVd).rcache = 0 ∨ Config.tokenFrames ≤ framesTaken s s.myVd (podDie s)
    (t.holder = some (podDie s) → exec (.tacq g d e) s = .next (advance (s.wrote (.tacq g d e) 1))) ∧
    (t.holder ≠ some (podDie s) → podDie s ∉ t.asks → cold →
      exec (.tacq g d e) s = .next (advance (s.wrote (.tacq g d e) 0))) ∧
    (t.holder ≠ some (podDie s) → podDie s ∉ t.asks → ¬cold → exec (.tacq g d e) s = .next (stallHere
      (s.setToken s.myVd x.toNat { t with asks := t.asks ++ [podDie s] }))) ∧
    (t.holder ≠ some (podDie s) → podDie s ∈ t.asks → exec (.tacq g d e) s = .next (stallHere s))) ∧
  (∀ g e s x, mayIssue (.trel g e) g s = true → s.regIn ⟨.e, e.toNat⟩ = some x → remoteOk x.toNat (2 ^ 21) →
    regionWhole s s.myVd x.toNat = true →
    ((s.tokenAt s.myVd x.toNat).holder ≠ some (podDie s) → exec (.trel g e) s = .next (advance s)) ∧
    ((s.tokenAt s.myVd x.toNat).holder = some (podDie s) → cachedPending s s.myVd x.toNat = false →
      exec (.trel g e) s = .next (advance (returnToken s s.myVd x.toNat)))) ∧
  (∀ vd region s d r, let va := region * 2 ^ 21
    let t := s.tokenAt vd va
    t.asks = d :: r → t.granted = false →
    exec (.tacqRequest vd region) s = .next (s.setToken vd va (match t.holder with
      | none => { t with granted := true }
      | some h => if h = d then { t with asks := r } else { t with recalled := true }))) ∧
  (∀ vd region s d r, let va := region * 2 ^ 21
    (s.tokenAt vd va).asks = d :: r → (s.tokenAt vd va).granted = true →
    exec (.tokenGrant vd region) s = .next (s.setToken vd va { Token.reset with holder := some d, asks := r, held := some s.now, frame := freeFrame s vd d })) ∧
  (∀ vd region s t0, let va := region * 2 ^ 21
    (s.tokenAt vd va).held = some t0 → t0 + 1000 ≤ s.now →
    exec (.tokenHoldExpiry vd region) s = .next (s.setToken vd va { s.tokenAt vd va with held := none })) ∧
  (∀ vd region s, let va := region * 2 ^ 21
    let t := s.tokenAt vd va
    let u := s.setToken vd va { t with reached := true }
    t.recalled = true → t.holder.isSome = true → t.held = none →
    exec (.tokenRecall vd region) s = .next (if cachedPending u vd va then u else returnToken u vd va))

/-- cbind reads a stream descriptor of the local store and, where it passes its checks and its footprint lies in its window and
banks, binds the ring; a ring that is bound or has no depth traps 0x01, as cfree of an unbound ring and gpush to one bound
without G do. cfree of a fill ring, or of a drain ring whose entries are all written, ends the binding and drops its indices;
entries left in a drain ring are pushed and awaited. gpush queues a row index. qwait goes on once the ring holds, or has room
for, its count of entries; qadv moves past that many. (R92, R94, R96, R98, R172, R320) -/
def Obligations.RingsAreBoundAndFreed : Prop :=
  (∀ g (q e : BitVec 5) gather s, mayIssue (.cbind g q e gather) g s = true → ringBusy s.me q.toNat = false →
    (ringDepth s.me q.toNat = 0 ∨ s.me.rings.has q.toNat = true) → exec (.cbind g q e gather) s = .next (trapHere s 0x01 0)) ∧
  (∀ g (q : BitVec 5) s, mayIssue (.cfree g q) g s = true → s.me.rings.has q.toNat = false →
    exec (.cfree g q) s = .next (trapHere s 0x01 0)) ∧
  (∀ g (q : BitVec 5) a s, mayIssue (.gpush g q a) g s = true → (∀ r, s.me.rings.find q.toNat = some r → r.gather = false) →
    ringBusy s.me q.toNat = false →
    exec (.gpush g q a) s = .next (trapHere s 0x01 0)) ∧
  (∀ g (q e : BitVec 5) gather s a, mayIssue (.cbind g q e gather) g s = true → s.regIn ⟨.e, e.toNat⟩ = some a →
    ringBusy s.me q.toNat = false → ringDepth s.me q.toNat ≠ 0 → s.me.rings.has q.toNat = false → s.blockOk a.toNat 64 64 →
    let r := Ring.fresh (nearNat s s.cur.loc a.toNat 64) gather
    r.descOk s.me = true →
    (r.fin = 2 ∨ r.inside r.firstExtent = true ∧ (r.blk = 0 ∨ r.inside r.scaleExtent = true) ∧
      streamBanksOk s s.cur.loc r = true) →
    exec (.cbind g q e gather) s = .next (advance (setRing q.toNat r s))) ∧
  (∀ g (q : BitVec 5) s r, mayIssue (.cfree g q) g s = true → s.me.rings.find q.toNat = some r → ringBusy s.me q.toNat = false →
    (r.dir = false ∨ closePart r.entries = [] → exec (.cfree g q) s = .next (advance (s.setMe
      { s.me with rings := s.me.rings.drop q.toNat, gqueue := s.me.gqueue.filter (fun e => e.1 != q.toNat) }))) ∧
    (r.dir = true → closePart r.entries ≠ [] →
      exec (.cfree g q) s = .next (stallHere (setRing q.toNat { r with entries := closePart r.entries } s)))) ∧
  (∀ g (q : BitVec 5) a s x r, mayIssue (.gpush g q a) g s = true → s.opnd a = some x → s.me.rings.find q.toNat = some r →
    ringBusy s.me q.toNat = false → r.gather = true → x.toNat < r.cnt 1 →
    (r.fin ≠ 1 ∨ bankMask s s.cur.loc = 2 ^ 32 - 1 ∨ banksOk s s.cur.loc (r.rowBytes x.toNat) = true) → s.me.gqueue.length < 64 →
    exec (.gpush g q a) s = .next (advance (s.setMe { s.me with gqueue := s.me.gqueue ++ [(q.toNat, x.toNat)] }))) ∧
  (∀ g (q : BitVec 5) (n : BitVec 7) s r, s.me.rings.find q.toNat = some r → ringBusy s.me q.toNat = false →
    (mayIssue (.qwait g q n) g s = true → r.dir = true → n.toNat + r.entries.length ≤ ringDepth s.me q.toNat →
      exec (.qwait g q n) s = .next (advance s)) ∧
    (mayIssue (.qwait g q n) g s = true → r.dir = false → n.toNat ≤ r.entries.length →
      (∀ b, r.streamBits = some b → r.moved - r.entries.length + n.toNat ≤ b / 512) →
      exec (.qwait g q n) s = .next (advance s)) ∧
    (mayIssue (.qadv g q n) g s = true → r.dir = true →
      let es := closePart r.entries ++ List.replicate (n.toNat - if (openPart r.entries).2.valid = 0 then 0 else 1)
        ⟨0, 0, true, [], none, 0⟩
      (∀ b, r.streamBits = some b → 512 * (r.moved + es.length) ≤ b) → es.length ≤ ringDepth s.me q.toNat →
      exec (.qadv g q n) s = .next (advance (setRing q.toNat { r with entries := es } s))) ∧
    (mayIssue (.qadv g q n) g s = true → r.dir = false → n.toNat ≤ r.entries.length →
      (∀ b, r.streamBits = some b → r.moved - r.entries.length + n.toNat ≤ b / 512) →
      exec (.qadv g q n) s = .next (advance (setRing q.toNat { r with entries := r.entries.drop n.toNat, readBit := 0 } s))))

/-- A descriptor that passes its checks, whose box is at most 16 MiB and whose endpoint the device may reach, makes cput take an
in-flight entry for a transfer from its source walk, and cget one whose request goes to the endpoint; a card that passes its
checks joins the intake of the die. Each delivers the id that its channel gave and moves that on by one. cwait goes on once the
horizon of the channel has reached its limit, cstat delivers the horizon; the lowest fail mark below the limit is cleared and
raised as its trap instead. (R231, R232, R237, R238, R239, R240) -/
def Obligations.TransfersIssue : Prop :=
  (∀ g (ch : BitVec 3) (d e x : BitVec 5) s src a t k, mayIssue (.cput g ch d e x) g s = true → s.regIn ⟨.e, x.toNat⟩ = some src →
    s.regIn ⟨.e, e.toNat⟩ = some a → s.transferAt a.toNat = some t → t.bytes ≤ 2 ^ 24 → t.walkInside src.toNat = true →
    t.reachable (s.vdAt s.myVd) = true → s.freeEntry = some k →
    exec (.cput g ch d e x) s = .next (advance ((perf (s.startsTransfer k ch.toNat { Ifr.blank with
      kind := 7, scope := s.scope 0, target := src.toNat, sync := t.syncField, len := a.toNat, desc := t.setWidth 1024
      total := t.beatCount }) s.cur.loc 5 1).wrote (.cput g ch d e x) (s.nextOn ch.toNat)))) ∧
  (∀ g (ch : BitVec 3) (d e : BitVec 5) s a t k, mayIssue (.cget g ch d e) g s = true → s.regIn ⟨.e, e.toNat⟩ = some a →
    s.transferAt a.toNat = some t → (∀ i < 4, t.stride i = 0) → (t.swv = true → t.sync / 65536 = coreOf s.cur.loc % 32) →
    t.bytes ≤ 2 ^ 24 → t.reachable (s.vdAt s.myVd) = true → s.freeEntry = some k →
    let u := s.startsTransfer k ch.toNat { Ifr.blank with
      kind := 8, scope := s.scope 0, sync := t.syncField, len := a.toNat, desc := t.setWidth 1024, total := t.beatCount }
    exec (.cget g ch d e) s = .next (advance ((perf (emit u (transferPacket u s.cur.loc k ((u.me.ifr.find k).getD Ifr.blank)
      (t.dest / 512) t.endpoint 0 (.ask t))) s.cur.loc 5 1).wrote (.cget g ch d e) (s.nextOn ch.toNat)))) ∧
  (∀ g (ch : BitVec 3) (d e : BitVec 5) s a v k, mayIssue (.ccard g ch d e) g s = true → s.regIn ⟨.e, e.toNat⟩ = some a →
    a.toNat % 128 = 0 → a.toNat + 128 ≤ Config.localBytes → s.localNat a.toNat 128 = some v →
    let c : JobCard := BitVec.ofNat 1024 v
    let die := s.dieAt (dieOf s.cur.loc)
    c.fieldsOk = true →
    (c.kind = 3 → ∀ j < c.nw, ∀ t, boxDesc s s.cur.loc c (4 + j) = some t →
      t.fieldsOk = true ∧ t.bytes = c.len j ∧ t.reachable (s.vdAt s.myVd) = true) →
    s.freeEntry = some k →
    (die.cards.filter (fun x => partOf x.loc == partOf s.cur.loc && (cardEntry s x).isSome)).length < Config.intakeCards →
    let u := s.startsTransfer k ch.toNat { Ifr.blank with kind := 9, scope := s.scope 0, len := a.toNat, desc := c }
    exec (.ccard g ch d e) s = .next (advance ((u.setDie (dieOf s.cur.loc) { die with cards := die.cards ++
      [⟨((die.cards.getLast?.map (·.no)).getD 0) + 1, (u.me.ifr.look Ifr.blank k).key, s.cur.loc, k, a.toNat, c, false⟩] }).wrote
        (.ccard g ch d e) (s.nextOn ch.toNat)))) ∧
  (∀ g (ch : BitVec 3) (e : BitVec 5) inc s x, mayIssue (.cwait g ch e inc) g s = true → s.regIn ⟨.e, e.toNat⟩ = some x →
    let n := (x.toNat + if inc then 1 else 0) % 2 ^ 32
    let c := s.me.chans.look Channel.reset ch.toNat
    let done := (horizonOf s.me ch.toNat + 2 ^ 32 - n) % 2 ^ 32 < 2 ^ 31
    (¬done → exec (.cwait g ch e inc) s = .next (stallHere s)) ∧
    (done → lowestMark c n = none → exec (.cwait g ch e inc) s = .next (advance s)) ∧
    (∀ f, done → lowestMark c n = some f → exec (.cwait g ch e inc) s = .next (trapHere (s.setMe
      { s.me with chans := s.me.chans.put ch.toNat { c with fails := c.fails.filter (fun m => m.1 != f.1) } }) f.2.1 f.2.2))) ∧
  (∀ g (ch : BitVec 3) (d : BitVec 5) s, mayIssue (.cstat g ch d) g s = true →
    let h := horizonOf s.me ch.toNat
    let c := s.me.chans.look Channel.reset ch.toNat
    (lowestMark c h = none → exec (.cstat g ch d) s = .next (advance (s.wrote (.cstat g ch d) (BitVec.ofNat 64 h)))) ∧
    (∀ f, lowestMark c h = some f → exec (.cstat g ch d) s = .next (trapHere (s.setMe
      { s.me with chans := s.me.chans.put ch.toNat { c with fails := c.fails.filter (fun m => m.1 != f.1) } }) f.2.1 f.2.2)))

/-- mapi of an entry that passes its checks delivers 0 where the endpoint is full, else puts the entry into the lowest free slot
and delivers its handle. mapx replaces the entry of a handle, with its generation one higher, once no transfer is pinned to an
older one; mapr retires it once none is pinned to it; mapr.all retires every map of the device there that is not kept and
belongs to no grid. mapq delivers generation, validity, draining, pinned and parked counts. (R221, R236, R241, R242, R243, R244)
-/
def Obligations.LandingMapsAreManaged : Prop :=
  (∀ g (d e : BitVec 5) (epk : BitVec 3) (epn : BitVec 5) s ep a m, mayIssue (.mapi g d e epk epn) g s = true →
    s.ownEp epk.toNat epn.toNat = some ep → s.regIn ⟨.e, e.toNat⟩ = some a → s.mapAt a.toNat = some m →
    mapCheck s ep s.myVd (rmodeAt s.me s.here) m none = .ok () →
    ((s.epAt ep).maps.free (epSlots ep) = none →
      exec (.mapi g d e epk epn) s = .next (advance (s.wrote (.mapi g d e epk epn) 0))) ∧
    (∀ n, (s.epAt ep).maps.free (epSlots ep) = some n → exec (.mapi g d e epk epn) s = .next (advance
      ((commitMap ep n ⟨m, s.myVd, none⟩ s).wrote (.mapi g d e epk epn)
        (BitVec.ofNat 64 (n + epk.toNat * 2 ^ 8 + epn.toNat * 2 ^ 11 + 2 ^ 16)))))) ∧
  (∀ g (h e : BitVec 5) s hv ep slot old a m, mayIssue (.mapx g h e) g s = true → s.regIn ⟨.e, h.toNat⟩ = some hv →
    s.handle hv.toNat = some (ep, slot) → (s.epAt ep).maps.find slot = some old → old.vd = s.myVd → old.ghost = none →
    s.regIn ⟨.e, e.toNat⟩ = some a → s.mapAt a.toNat = some m →
    mapCheck s ep s.myVd (rmodeAt s.me s.here) m (some slot) = .ok () → oldPinned s ep slot = false →
    exec (.mapx g h e) s = .next (advance
      (commitMap ep slot { old with entry := m.withGen (MapEntry.gen old.entry + 1) } s))) ∧
  (∀ g (h : BitVec 5) s hv ep slot old, mayIssue (.mapr g h) g s = true → s.regIn ⟨.e, h.toNat⟩ = some hv →
    s.handle hv.toNat = some (ep, slot) → (s.epAt ep).maps.find slot = some old → old.vd = s.myVd → old.ghost = none →
    exec (.mapr g h) s = .next (if slotPinned s ep slot then stallHere s else advance (retireMaps ep [slot] s))) ∧
  (∀ g (epk : BitVec 3) (epn : BitVec 5) s ep, mayIssue (.maprAll g epk epn) g s = true →
    s.ownEp epk.toNat epn.toNat = some ep →
    let slots := ((s.epAt ep).maps.filter (fun m =>
      m.2.vd == s.myVd && !MapEntry.keep m.2.entry && m.2.ghost.isNone)).map (·.1)
    (∀ n ∈ slots, slotPinned s ep n = false) → exec (.maprAll g epk epn) s = .next (advance (retireMaps ep slots s))) ∧
  (∀ g (d h : BitVec 5) s hv ep slot, mayIssue (.mapq g d h) g s = true → s.regIn ⟨.e, h.toNat⟩ = some hv →
    s.handle hv.toNat = some (ep, slot) →
    let parked := Nat.min 255 ((s.epAt ep).arrive.filter (·.parked)).length
    let pinned := ((s.epAt ep).arrive.filter (fun a => a.pins.any (fun p => p.1 == slot))).length
    ((∀ m, (s.epAt ep).maps.find slot = some m → m.vd ≠ s.myVd) →
      exec (.mapq g d h) s = .next (advance (s.wrote (.mapq g d h) (BitVec.ofNat 64 (parked * 2 ^ 32))))) ∧
    (∀ m, (s.epAt ep).maps.find slot = some m → m.vd = s.myVd →
      exec (.mapq g d h) s = .next (advance (s.wrote (.mapq g d h) (BitVec.ofNat 64 (MapEntry.gen m.entry + 2 ^ 16 +
        (if oldPinned s ep slot then 2 ^ 17 else 0) + Nat.min 255 pinned * 2 ^ 24 + parked * 2 ^ 32))))))

/-- gdecl of a descriptor and tables that pass the checks makes the party's grid with its ghost maps and delivers 1, or 0 where
the endpoint has too few free slots; gdecl.r takes the grid and its maps away once no transfer is pinned to them and the engine
has copied the boundary; gq delivers what Table 17.5 names. ldg and vldg read the face that holds their bytes in the version of
their step: a step older than the face's trap 0x30, the full face of the step delivers its bytes, any other stalls and starts
the count of the halo wait. (R262, R263, R266, R270, R271, R274, R275, R277, R278) -/
def Obligations.GridsAreDeclaredAndRead : Prop :=
  (∀ g (d : BitVec 5) (gs : BitVec 2) (e : BitVec 5) s a v, mayIssue (.gdecl g d gs e) g s = true → s.regIn ⟨.e, e.toNat⟩ = some a →
    a.toNat % 128 = 0 → inLocal a.toNat 128 = true → s.localNat a.toNat 128 = some v →
    let x : GridDesc := BitVec.ofNat 1024 v
    (s.me.grids.has gs.toNat = true ∨ x.fieldsOk = false → exec (.gdecl g d gs e) s = .next (trapHere s 0x01 0)) ∧
    (∀ table ptab, s.me.grids.has gs.toNat = false → x.fieldsOk = true → inLocal x.ptab (2 * x.parties) = true →
      let n := 4 * x.splitBefore (x.ndim + 1)
      (x.split ≠ 0 → inLocal x.split n = true) → (if x.split = 0 then some 0 else s.localNat x.split n) = some table →
      x.boundsOk table = true → s.localNat x.ptab (2 * x.parties) = some ptab →
      let locs := (List.range x.parties).map (fun j => bitsAt ptab (16 * j) 15)
      locs.count (fullLoc s s.cur.loc) = 1 →
      let self := locs.idxOf (fullLoc s s.cur.loc)
      let c := x.coordOf self
      let grid : Grid :=
      { desc := x, lo := (List.range 4).map (fun d => x.bound table d (c.getD d 0))
        hi := (List.range 4).map (fun d => x.bound table d (c.getD d 0 + 1) - 1)
        parties := locs, self := self, step := -1, tags := [], known := [], maps := [], copy := none }
      x.shbaseOk self = true → inLocal x.ibase (slabCount grid.box * x.es) = true → inLocal x.gbase ((x.depth + 1) * x.vsize grid.box) = true →
      inLocal x.shbase ((x.depth + 2) * x.ssize grid.box) = true →
      let maps := (ghostFaces grid).map (fun f => (f, ghostMap grid f))
      let ep := coreOf s.cur.loc
      checkGhosts s ep s.myVd [] (maps.map (·.2)) = none →
      exec (.gdecl g d gs e) s = .next (advance
        (if epSlots ep < (s.epAt ep).maps.length + maps.length then s.wrote (.gdecl g d gs e) 0
        else (installGhosts ep s.cur.loc gs.toNat s.myVd maps
          { s.setMe { s.me with grids := s.me.grids.put gs.toNat grid } with
            gone := s.gone.filter (fun p => !(p.of s.myVd grid && p.self == self)) }).wrote (.gdecl g d gs e) 1)))) ∧
  (∀ g (gs : BitVec 2) s h, mayIssue (.gdeclR g gs) g s = true → s.me.grids.find gs.toNat = some h →
    ghostPinned s s.cur.loc (some gs.toNat) = false → h.copy = none →
    let u := noteStep (dropGhosts s s.cur.loc (some gs.toNat)) s.myVd h
    exec (.gdeclR g gs) s = .next (advance (u.setMe { u.me with grids := u.me.grids.drop gs.toNat }))) ∧
  (∀ g d (gs : BitVec 2) (n : BitVec 5) s h, mayIssue (.gq g d gs n) g s = true → s.me.grids.find gs.toNat = some h →
    exec (.gq g d gs n) s = .next (advance (s.wrote (.gq g d gs n) (BitVec.ofNat 64 (gridQuery h n.toNat))))) ∧
  (∀ g dst a b (gs : BitVec 2) t, ReadsGhost (.ldg g dst a b gs t) g a b gs (t.width / 8) true
    (fun y => loadValue t.code (t.width / 8) y)) ∧
  (∀ g dst a b (gs : BitVec 2), ReadsGhost (.vldg g dst a b gs) g a b gs 64 false id)

/-- gstep of any step but the next traps 0x41. Where a neighbour lies too far behind, or the copy of the step before is not
done, it stalls with the y register read at its first attempt; where the shipments of older steps have left and entries are free
it commits: the step is counted and the shipments start, whose boundary the engine copies before it sends them (log 65). A
commit notice raises what the engine knows of a neighbour and lets the slots try again. A ghost load that has waited as long as
GRID.TIMEOUT says, and whose face has not arrived, traps 0x31 in L with the step as INFO. (R268, R269, R271, R276) -/
def Obligations.GridStepsCommit : Prop :=
  (∀ g (gs : BitVec 2) (a : BitVec 5) s x h, mayIssue (.gstep g gs a) (begunGuard (waitBegun s) g) s = true →
    s.firstRead ⟨.y, a.toNat⟩ = some x → s.me.grids.find gs.toNat = some h →
    let step := bitsAt x 0 31
    let d : Nat := GridDesc.depth h.desc
    let near := ∀ n ∈ GridDesc.neighbours h.desc h.self, (step : Int) - 1 - d ≤ h.knows n
    (x.testBit 31 = true ∨ (step : Int) ≠ h.step + 1 → exec (.gstep g gs a) s = .next (trapHere s 0x41 0)) ∧
    (x.testBit 31 = false → (step : Int) = h.step + 1 → ¬near ∨ h.copy.isSome = true → exec (.gstep g gs a) s = .next
      (stallHere (s.setMe { s.me with latch := some (s.cur.slot.num, s.here, x) }))) ∧
    (x.testBit 31 = false → (step : Int) = h.step + 1 → near → h.copy = none →
      (∀ e ∈ s.me.ifr, ¬(e.2.kind = 10 ∧ e.2.halted = false ∧ e.2.target % 4 = gs.toNat ∧ e.2.len + d + 2 = step)) →
      s.me.ifr.length + (sendFaces h).length ≤ Config.ifrEntries →
      errorMark s ((commitReads h).flatMap (fun p => (List.range (GridDesc.es h.desc)).map (fun j =>
        nearPhys s s.cur.loc (p + j)))) = none →
      exec (.gstep g gs a) s = .next (advance (commitStep s.cur.loc gs.toNat step s.here (s.scope 0) h
        (s.setMe { s.me with latch := none }))))) ∧
  (∀ loc grid party s g, (s.seqAt loc).grids.find grid = some g → party ∈ GridDesc.neighbours g.desc g.self →
    let old := g.known.look (-1) party
    let now := if g.parties.getD party 0 / 512 = s.module then max old (partyStep s (s.seqAt loc).task.vd g party) else old + 1
    exec (.neighbourCommitNotice loc grid party) s = .next (s.setSeq loc
      { s.seqAt loc with grids := (s.seqAt loc).grids.put grid { g with known := g.known.put party now }, stalled := 0 })) ∧
  (∀ loc s h g, let q := s.seqAt loc
    let limit := (srAt q 8 (stepOf q .L) q.gridTime).toNat
    q.halo = some h → q.status = 1 → limit ≠ 0 → h.since + limit ≤ s.now → q.grids.find h.grid = some g →
    (g.tag h.ver h.face).tag ≤ h.step → ¬((g.tag h.ver h.face).tag = h.step ∧ (g.tag h.ver h.face).full = true) →
    exec (.haloTimeout loc) s = .next (takeTrap s loc Slot.L.num (stepOf q .L) 0x31 h.step 0))

/-- An arrival raises trap 0x41 where the expected count or the issuer breaks the rule of the barrier; else it waits for the
release, is counted at once up to the core and sent to its root otherwise, and y[P] takes the phase it was made in. bar.w goes
on once the leaf has flipped past y[P] and the accesses of the scope are complete, and stalls before. bar does both in one
issue: it arrives, holds Y, and writes y[P] at the end. The judging of an arrival at issue, with what is on its way counted, is
the model's reading of the indivisible act (log 12). At its root an arrival that no record holds is counted once and its entry
is freed, or the other module is answered; a flip reaches a leaf after every flip before it, whatever its barrier, and launch
packets that have waited are offered again. (R305, R306, R307, R194, R200, R357) -/
def Obligations.BarriersCountAndFlip : Prop :=
  (∀ g scope id c p s x, mayIssue (.barA g scope id c p) g s = true → s.regIn ⟨.y, c.toNat⟩ = some x →
    let sc := s.scope scope.toNat
    let n := x.toNat % 2 ^ 32
    (s.misused sc id.toNat n = true → exec (.barA g scope id c p) s = .next (trapHere s 0x41 0)) ∧
    (s.misused sc id.toNat n = false → fenceWaits s s.cur.loc .Y sc 0xFFFF = true → exec (.barA g scope id c p) s = .next (stallHere s)) ∧
    (∀ t, s.misused sc id.toNat n = false → fenceWaits s s.cur.loc .Y sc 0xFFFF = false → s.arrived sc id.toNat n = some t →
      exec (.barA g scope id c p) s = .next (advance
        (t.send ⟨.y, p.toNat⟩ 1 (BitVec.ofNat 512 (s.arrivesIn sc id.toNat)) allBytes 0)))) ∧
  (∀ g scope id p s x, mayIssue (.barW g scope id p) g s = true → s.regIn ⟨.y, p.toNat⟩ = some x →
    let sc := s.scope scope.toNat
    let there := s.flipped sc id.toNat (x.toNat % 2 ^ 32) ∧ fenceWaits s s.cur.loc .Y sc 0xFFFF = false
    (there → exec (.barW g scope id p) s = .next (advance s)) ∧ (¬there → exec (.barW g scope id p) s = .next (stallHere s))) ∧
  (∀ g scope id c p s x, s.me.barAt = none → mayIssue (.bar g scope id c p) g s = true → s.regIn ⟨.y, c.toNat⟩ = some x →
    let sc := s.scope scope.toNat
    let n := x.toNat % 2 ^ 32
    (s.misused sc id.toNat n = true → exec (.bar g scope id c p) s = .next (trapHere s 0x41 0)) ∧
    (s.misused sc id.toNat n = false → fenceWaits s s.cur.loc .Y sc 0xFFFF = true → exec (.bar g scope id c p) s = .next (stallHere s)) ∧
    (∀ t, s.misused sc id.toNat n = false → fenceWaits s s.cur.loc .Y sc 0xFFFF = false → s.arrived sc id.toNat n = some t →
      exec (.bar g scope id c p) s = .next (stallHere (t.setMe { t.me with barAt := some (s.arrivesIn sc id.toNat) })))) ∧
  (∀ g scope id c p s ph, s.me.barAt = some ph → mayIssue (.bar g scope id c p) ⟨15, false⟩ s = true →
    let sc := s.scope scope.toNat
    let there := s.flipped sc id.toNat ph ∧ fenceWaits s s.cur.loc .Y sc 0xFFFF = false
    (there → exec (.bar g scope id c p) s = .next (advance
      ((s.setMe { s.me with barAt := none }).send ⟨.y, p.toNat⟩ 1 (BitVec.ofNat 512 ph) allBytes 0))) ∧
    (¬there → exec (.bar g scope id c p) s = .next (stallHere s))) ∧
  (∀ s pk p key n, s.packet pk = some p → p.kind = .arrival key n → p.accepted = true → p.dst = s.module →
    (∀ q ∈ s.net.takeWhile (fun q => q.id != pk), ∀ j, q.kind = .arrival key j → q.key.vd ≠ p.key.vd) →
    (recordOf s barrierEp p.key 0 ≠ none ∨ (s.epAt barrierEp).window.length < Config.windowRecords) →
    let b := s.barrier p.key.vd key
    let t := match recordOf s barrierEp p.key 0 with
      | some _ => s
      | none => countArrival (addRecord s barrierEp ⟨p.key, 0, b.ph, 0⟩) p.key.vd key n (512 * p.src + p.loc)
    let u := dropPacket t pk
    let q := u.seqAt p.loc
    (p.src ≠ s.module → exec (.barrierRootArrival pk) s = .next (answer t p (.reply 0 0))) ∧
    (∀ e, p.src = s.module → q.ifr.find p.entry = some e → e.key = p.key →
      exec (.barrierRootArrival pk) s = .next (u.setSeq p.loc { q with ifr := q.ifr.drop p.entry }))) ∧
  (∀ s j core vd key ph cores, s.casts[j]? = some (.flip vd key ph cores) → cores.contains core = true →
    (∀ e ∈ s.casts.take j, e.awaits core = false) →
    let v := s.vdAt vd
    let left := cores.filter (· != core)
    exec (.phaseFlip j core) s = .next (offerLaunches
      { s.setVd vd { v with leaves := v.leaves.put (256 * key + core) ph } with
        casts := s.casts.take j ++ (if left.isEmpty then [] else [.flip vd key ph left]) ++ s.casts.drop (j + 1) }))

/-- spawn traps 0x11 on a target or an entry that may not be, 0x40 with the target's location where the target is busy or the
issuer, and else starts a task of the share with the issuer's s16 to s23. sjoin traps 0x41 on itself and waits for its target to
be idle with its stores performed (log 66). yield gives the sibling the first choice for 16 cycles, 23 ns (log 15), where the
sibling runs; sleep holds Y until its count has passed since its first try, and issues at once with 0; evpost posts a record
while the die's buffer has room and stalls otherwise. (R308, R309, R310, R25, R302) -/
def Obligations.SpawnYieldSleepAndEvents : Prop :=
  (∀ g t e s y entry, mayIssue (.spawn g t e) g s = true → s.regIn ⟨.y, t.toNat⟩ = some y → s.regIn ⟨.y, e.toNat⟩ = some entry →
    let tgt := 64 * dieOf s.cur.loc + y.toNat % 64
    let entryOk := entry.toNat % 64 = 0 ∧ entry.toNat < s.me.task.codeLen
    (¬(s.spawnable y.toNat ∧ entryOk) → exec (.spawn g t e) s = .next (trapHere s 0x11 0)) ∧
    (∀ vs, s.spawnable y.toNat → entryOk → s.passed = some vs →
      (tgt = s.cur.loc ∨ spawnBusy s tgt s.myVd = true → exec (.spawn g t e) s = .next (trapHere s 0x40 (fullLoc s tgt))) ∧
      (tgt ≠ s.cur.loc → spawnBusy s tgt s.myVd = false →
        exec (.spawn g t e) s = .next (advance (startSpawned s tgt entry.toNat vs))))) ∧
  (∀ g t s y, mayIssue (.sjoin g t) g s = true → s.regIn ⟨.y, t.toNat⟩ = some y →
    let tgt := 64 * dieOf s.cur.loc + y.toNat % 64
    (¬s.spawnable y.toNat → exec (.sjoin g t) s = .next (trapHere s 0x11 0)) ∧
    (s.spawnable y.toNat → tgt = s.cur.loc → exec (.sjoin g t) s = .next (trapHere s 0x41 0)) ∧
    (s.spawnable y.toNat → tgt ≠ s.cur.loc → joined s tgt s.myVd = true → exec (.sjoin g t) s = .next (advance s)) ∧
    (s.spawnable y.toNat → tgt ≠ s.cur.loc → joined s tgt s.myVd = false → exec (.sjoin g t) s = .next (stallHere s))) ∧
  (∀ g s, mayIssue (.yield g) g s = true →
    let c := coreOf s.cur.loc
    let k := s.coreAt c
    ((s.seqAt (siblingOf s.cur.loc)).status = 0 → exec (.yield g) s = .next (advance s)) ∧
    ((s.seqAt (siblingOf s.cur.loc)).status ≠ 0 → exec (.yield g) s = .next (advance (s.setCore c
      { k with yieldTo := if k.yieldTo = some (s.cur.loc, s.now + 23) then none else some (siblingOf s.cur.loc, s.now + 23) })))) ∧
  (∀ g n s x, s.me.sleepTo = none → mayIssue (.sleep g n) g s = true → s.regIn ⟨.y, n.toNat⟩ = some x →
    (x.toNat % 2 ^ 32 = 0 → exec (.sleep g n) s = .next (advance s)) ∧
    (x.toNat % 2 ^ 32 ≠ 0 → exec (.sleep g n) s = .next
      (stallHere (s.setMe { s.me with sleepTo := some (s.now + x.toNat % 2 ^ 32) })))) ∧
  (∀ g n s t, s.me.sleepTo = some t → mayIssue (.sleep g n) ⟨15, false⟩ s = true →
    (t ≤ s.now → exec (.sleep g n) s = .next (advance (s.setMe { s.me with sleepTo := none }))) ∧
    (s.now < t → exec (.sleep g n) s = .next (stallHere s))) ∧
  (∀ g a b s x y, mayIssue (.evpost g a b) g s = true → s.regIn ⟨.y, a.toNat⟩ = some x → s.regIn ⟨.y, b.toNat⟩ = some y →
    let d := dieOf s.cur.loc
    let vd := s.me.task.vd
    (laneCount s d s.myVd < 256 → exec (.evpost g a b) s = .next (advance (postLane s d vd
      (eventRec vd (fullLoc s s.cur.loc) 1 s.me.task.lseq (x.toNat % 2 ^ 32) y.toNat (max (vtime s vd) s.me.last))))) ∧
    (256 ≤ laneCount s d s.myVd → exec (.evpost g a b) s = .next (stallHere s))) ∧
  (∀ core s w t, (s.coreAt core).yieldTo = some (w, t) → t ≤ s.now →
    exec (.yieldExpiry core) s = .next (s.setCore core { s.coreAt core with yieldTo := none })) ∧
  (∀ core slot s, slot < 9 → 15 ≤ (s.coreAt core).ready.look 0 slot →
    exec (.bPriorityPromotion core slot) s = .next
      (s.setCore core { s.coreAt core with first := Nat.lor (s.coreAt core).first (2 ^ slot) })) ∧
  (∀ loc s t, (s.seqAt loc).sleepTo = some t → (s.seqAt loc).status = 1 → t ≤ s.now →
    exec (.sleepExpiry loc) s = .next
      (s.setSeq loc { s.seqAt loc with stalled := Nat.land (s.seqAt loc).stalled (511 - 2 ^ Slot.Y.num) }))

/-- A trap freezes its sequencer: steps, pipe image, queue image, fetch state and loop stack stay, the record stands, and it
goes to the fatal lane for a fatal code and to the replayable lane otherwise. With a handler (or for poison a replay routine)
and outside a handler, the sequencer runs on instead: at the address that governs the bundle, with bundle index 0, empty
pipelines and an empty loop stack, the record in TRAP.REC, and a frame that holds steps, image, queue, fetch state, loops and
record. Poison leaves the consumed register and the return address in REPLAY. Leaving the handler restores all of it and the
generator state, with the sequencer frozen again. (R285, R335, R337, R338, R340, R342, R343, R345) -/
def Obligations.TrapsAreTakenAndReturnedFrom : Prop :=
  (∀ (s : State) loc slot i code info aux,
    let q := s.seqAt loc
    let t := takeTrap s loc slot i code info aux
    let u := t.seqAt loc
    let rc := trapRecord s loc slot i code info aux
    let replay := code = 0x20 ∧ srAt q 4 i q.replay ≠ 0 ∧ q.frame = none
    let handler := ¬replay ∧ handledCode code = true ∧ srAt q 7 i q.tvec ≠ 0 ∧ q.frame = none
    (¬replay → ¬handler →
      u.status = 3 ∧ u.record = BitVec.ofNat 512 rc ∧ u.trapSlot = slot ∧ u.delivered = true ∧ u.frame = q.frame ∧
      u.steps = q.steps ∧ u.pend = q.pend ∧ u.queue = q.queue ∧ u.nextIdx = q.nextIdx ∧ u.pc = q.pc ∧ u.hold = q.hold ∧
      u.loops = q.loops ∧
      (fatalCode code = true → (t.dieAt (dieOf loc)).fatal = (s.dieAt (dieOf loc)).fatal ++ [⟨q.task.vd, BitVec.ofNat 512 rc, false⟩] ∧
        (t.dieAt (dieOf loc)).lane = (s.dieAt (dieOf loc)).lane) ∧
      (fatalCode code = false → (t.dieAt (dieOf loc)).lane = (s.dieAt (dieOf loc)).lane ++
        [⟨q.task.vd, BitVec.ofNat 512 rc, !residentOn s (dieOf loc) q.task.vd⟩] ∧
        (t.dieAt (dieOf loc)).fatal = (s.dieAt (dieOf loc)).fatal)) ∧
    (replay ∨ handler →
      u.status = 1 ∧ u.steps = [] ∧ u.pend = [] ∧ u.queue = [] ∧ u.nextIdx = 0 ∧ u.hold = none ∧ u.loops = [] ∧
      u.trapRec = BitVec.ofNat 512 rc ∧
      ∃ f, u.frame = some f ∧ f.record = BitVec.ofNat 512 rc ∧ f.steps = q.steps ∧ f.queue = q.queue ∧ f.nextIdx = q.nextIdx ∧
        f.pc = q.pc ∧ f.hold = q.hold ∧ f.loops = q.loops ∧
        f.pend.map (fun e => (e.uid, e.slot, e.dst, e.val, e.mask, e.li)) =
          q.pend.map (fun e => (e.uid, e.slot, e.dst, e.val, e.mask, e.li))) ∧
    (replay → u.pc = bitsAt (srAt q 4 i q.replay).toNat 6 46 * 64) ∧
    (handler → u.pc = bitsAt (srAt q 7 i q.tvec).toNat 6 46 * 64) ∧
    (code = 0x20 → u.repRet = BitVec.ofNat 64 (bundleAddr q i) ∧
      u.repInfo = BitVec.ofNat 64 (info - info / 2 ^ 14 % 2 * 2 ^ 14))) ∧
  (∀ (s : State) loc (f : Frame), (s.seqAt loc).frame = some f →
    let q := s.seqAt loc
    let u := (leaveHandler s loc).seqAt loc
    u.status = 3 ∧ u.frame = none ∧ u.steps = f.steps ∧ u.pend = f.pend ∧ u.queue = f.queue ∧ u.nextIdx = f.nextIdx ∧ u.pc = f.pc ∧
    u.hold = f.hold ∧ u.loops = f.loops ∧ u.record = f.record ∧ u.seedIdx = f.seedIdx ∧ u.drawn = f.drawn ∧
    u.conv = BitVec.ofNat 64 (q.conv.toNat % 2 ^ 32 + f.seed * 2 ^ 32) ∧ u.fs = q.fs ∧ u.fp = q.fp ∧ u.fw = q.fw ∧ u.fy = q.fy)

/-- Each field of the 64-byte record reads back, at its place and width, as what it stands for: CODE, LANE 1 for the fatal
codes, INH inside a handler, SLOT, LOC, VD, TASK, LSEQ, BINDEX, ADDR, the nine step differences as 6-bit two's-complement
numbers, INFO, TSTAMP and AUX. A location beyond its width or a value beyond its field shows its low bits. (R340, R341) -/
def Obligations.TrapRecordsHoldTheirFields : Prop :=
  ∀ (s : State) loc slot i code info aux,
    let q := s.seqAt loc
    let rc := trapRecord s loc slot i code info aux
    bitsAt rc 0 8 = code % 2 ^ 8 ∧ bitsAt rc 8 1 = (if fatalCode code then 1 else 0) ∧
    bitsAt rc 9 1 = (if q.frame.isSome then 1 else 0) ∧ bitsAt rc 12 4 = slot % 2 ^ 4 ∧ bitsAt rc 16 15 = fullLoc s loc % 2 ^ 15 ∧
    bitsAt rc 32 16 = q.task.vd % 2 ^ 16 ∧ bitsAt rc 64 32 = q.task.num % 2 ^ 32 ∧ bitsAt rc 96 32 = q.task.lseq % 2 ^ 32 ∧
    bitsAt rc 128 64 = i % 2 ^ 64 ∧ bitsAt rc 192 52 = bundleAddr q i % 2 ^ 52 ∧
    (∀ x : Slot, bitsAt rc (256 + 6 * x.num) 6 = wrap 6 ((stepOf q x : Int) - i)) ∧
    bitsAt rc 320 64 = info % 2 ^ 64 ∧ bitsAt rc 384 64 = max (vtime s q.task.vd) q.last % 2 ^ 64 ∧ bitsAt rc 448 16 = aux % 2 ^ 16

/-- trap raises 0x60 with its immediate. eret outside a handler traps 0x01; inside it waits until the handler is done, lands
what it produced, leaves the handler and disposes of its trap by MODE. eret.t and command 1 dispose of another sequencer's
delivered trap, with 0x11 or STATUS 2 where it holds none, STATUS 3 for an unknown mode. Retry runs it again, Skip passes the
named operation over, End ends the task. An asynchronous trap of an entry marks the entry and freezes the running sequencer; one
of a ring discards what can never finish; one of an error in a pipe-image or in-flight entry is raised once. When a handler is
done is the model's reading (log 13). (R336, R344, R346, R348, R350, R351, R376) -/
def Obligations.TrapInstructionsAndDisposal : Prop :=
  (∀ g imm s, mayIssue (.trap g imm) g s = true → exec (.trap g imm) s = .next (trapHere s 0x60 imm.toNat)) ∧
  (∀ g mode s, mayIssue (.eret g mode) g s = true →
    (s.me.frame = none → exec (.eret g mode) s = .next (trapHere s 0x01 0)) ∧
    (s.me.frame ≠ none → handlerDone s = false → exec (.eret g mode) s = .next (stallHere s)) ∧
    (s.me.frame ≠ none → handlerDone s = true → exec (.eret g mode) s = .next
      (dispose (leaveHandler (landHandler { s with free := s.free + 1 } s.cur.loc) s.cur.loc) s.cur.loc mode.toNat))) ∧
  (∀ g mode t s y, mayIssue (.eretT g mode t) g s = true → s.regIn ⟨.y, t.toNat⟩ = some y →
    let q := s.seqAt y.toNat
    let there := y.toNat < 512 ∧ y.toNat ≠ s.cur.loc ∧ q.status = 3 ∧ q.delivered = true
    (¬there → exec (.eretT g mode t) s = .next (trapHere s 0x11 0)) ∧
    (there → exec (.eretT g mode t) s = .next (advance (dispose s y.toNat mode.toNat)))) ∧
  (∀ die slot s, s.commandReady die slot 1 →
    let a := s.arg die slot 1
    let mode := s.arg die slot 2
    let q := s.seqAt (a % 512)
    (2 < mode ∨ 2 ^ 15 ≤ a → exec (.disposeTrap die slot) s = .next (setStatus (s.taken die) die slot 3)) ∧
    (mode ≤ 2 → a < 2 ^ 15 → ¬(a / 512 = s.module ∧ q.status = 3 ∧ q.delivered = true) →
      exec (.disposeTrap die slot) s = .next (setStatus (s.taken die) die slot 2)) ∧
    (mode ≤ 2 → a < 2 ^ 15 → a / 512 = s.module → q.status = 3 → q.delivered = true →
      exec (.disposeTrap die slot) s = .next (setStatus (dispose (s.taken die) (a % 512) mode) die slot 1))) ∧
  (∀ (s : State) loc, (s.seqAt loc).load = none →
    let t := settleEntries s loc false
    dispose s loc 0 = release (settleEntries s loc true) loc ∧ dispose s loc 2 = endTask t loc ∧
    (bitsAt (s.seqAt loc).record.toNat 12 4 ≠ 15 → dispose s loc 1 = release (t.setSeq loc
      { t.seqAt loc with skips := (bitsAt (s.seqAt loc).record.toNat 12 4, bitsAt (s.seqAt loc).record.toNat 128 64) ::
          (t.seqAt loc).skips }) loc)) ∧
  (∀ s loc code info aux d, (asyncDue s loc).find? (fun d => d.1 == code && d.2.1 == info && d.2.2.1 == aux) = some d →
    (s.seqAt loc).status = 1 →
    (∀ n, d.2.2.2 = .ring n → exec (.asynchronousTrap loc code info aux) s = .next
      (asyncTrap (s.setSeq loc (discardOn (s.seqAt loc) n)) loc code info aux)) ∧
    (∀ n, d.2.2.2 = .own n → exec (.asynchronousTrap loc code info aux) s = .next
      (asyncTrap (s.setSeq loc { s.seqAt loc with errs := (s.seqAt loc).errs.erase (none, n) }) loc code info aux)) ∧
    (∀ k e, d.2.2.2 = .entry k → (s.seqAt loc).ifr.find k = some e → exec (.asynchronousTrap loc code info aux) s = .next
      (asyncTrap (putEntry s loc k { e with fault := 2 }) loc code info aux)))

/-- A target outside the module or the issuer itself raises trap 0x11, and so does an address that is no multiple of 4 KiB in
the window. ctxsave freezes its target, gives the die's save engine the job of writing its context once the engine is free, and
stalls until the engine has done it (R362). ctxload raises 0x40 where the target is not idle, lets the engine read, and then
raises 0x11 where the context fails its checks, or brings it in, frozen, or running again with GO. pimg writes the pipe image of
a frozen target into the issuer's local store. What a context keeps beside its bytes, and which device it belongs to, are the
model's (log 10). (R346, R352, R353, R360, R362, R364) -/
def Obligations.ContextsAreSavedLoadedAndImaged : Prop :=
  (∀ g t a s y x, waitBegun s = false → mayIssue (.ctxsave g t a) g s = true → s.regIn ⟨.y, t.toNat⟩ = some y → s.regIn ⟨.y, a.toNat⟩ = some x →
    let loc := y.toNat
    let addrOk := x.toNat % 4096 = 0 ∧ windowOf x.toNat 0x20000 = some 13
    (¬s.otherSeq loc → exec (.ctxsave g t a) s = .next (trapHere s 0x11 0)) ∧
    (s.otherSeq loc → ¬addrOk → exec (.ctxsave g t a) s = .next (trapHere s 0x11 x.toNat)) ∧
    (∀ pages, s.otherSeq loc → addrOk → s.pages x.toNat true = some pages →
      (engineFree s loc = false → exec (.ctxsave g t a) s = .next (stallHere s)) ∧
      (engineFree s loc = true →
        let u := freezeNow s loc
        exec (.ctxsave g t a) s = .next (stallHere (startJob (u.setMe
          { u.me with latch := some (u.cur.slot.num, u.here, loc + 512 * x.toNat) }) (contextJob u loc x.toNat false)))))) ∧
  (∀ g t a s v, s.me.latch = some (s.cur.slot.num, s.here, v) → mayIssue (.ctxsave g t a) ⟨15, false⟩ s = true →
    (engineMine s (v % 512) = true → exec (.ctxsave g t a) s = .next (stallHere s)) ∧
    (engineMine s (v % 512) = false → exec (.ctxsave g t a) s = .next (advance (s.setMe { s.me with latch := none })))) ∧
  (∀ g t a go s y x, waitBegun s = false → mayIssue (.ctxload g t a go) g s = true → s.regIn ⟨.y, t.toNat⟩ = some y →
    s.regIn ⟨.y, a.toNat⟩ = some x →
    let loc := y.toNat
    let addrOk := x.toNat % 4096 = 0 ∧ windowOf x.toNat 0x20000 = some 13
    (¬s.otherSeq loc → exec (.ctxload g t a go) s = .next (trapHere s 0x11 0)) ∧
    (s.otherSeq loc → ¬addrOk → exec (.ctxload g t a go) s = .next (trapHere s 0x11 x.toNat)) ∧
    (∀ pages, s.otherSeq loc → addrOk → s.pages x.toNat false = some pages →
      ((s.seqAt loc).status ≠ 0 → exec (.ctxload g t a go) s = .next (trapHere s 0x40 (fullLoc s loc))) ∧
      ((s.seqAt loc).status = 0 → (s.seqAt loc).ifr ≠ [] ∨ engineFree s loc = false →
        exec (.ctxload g t a go) s = .next (stallHere s)) ∧
      ((s.seqAt loc).status = 0 → (s.seqAt loc).ifr = [] → engineFree s loc = true →
        exec (.ctxload g t a go) s = .next (stallHere (startJob (s.setMe
          { s.me with latch := some (s.cur.slot.num, s.here, loc + 512 * x.toNat) }) (contextJob s loc x.toNat true)))))) ∧
  (∀ g t a go s v, s.me.latch = some (s.cur.slot.num, s.here, v) → mayIssue (.ctxload g t a go) ⟨15, false⟩ s = true →
    let loc := v % 512
    let u := s.setMe { s.me with latch := none }
    (engineMine s loc = true → exec (.ctxload g t a go) s = .next (stallHere s)) ∧
    (∀ vd, engineMine s loc = false → (u.quadAt (partOf loc)).resident = some vd →
      (contextOk u loc vd u.myVd (v / 512) ownBytes = none → exec (.ctxload g t a go) s = .next (trapHere u 0x11 0)) ∧
      (∀ c, contextOk u loc vd u.myVd (v / 512) ownBytes = some c →
        let w := loadContext u loc c
        (go = false → exec (.ctxload g t a go) s = .next (advance w)) ∧
        (go = true → exec (.ctxload g t a go) s = .next
          (advance (if c.state = 2 then dispose (resume w loc) loc 0 else resume w loc)))))) ∧
  (∀ g t a s y x, mayIssue (.pimg g t a) g s = true → s.regIn ⟨.y, t.toNat⟩ = some y → s.regIn ⟨.y, a.toNat⟩ = some x →
    let loc := y.toNat
    let b := pimgBytes (s.seqAt loc)
    let at0 := localPhys s (coreOf s.cur.loc) x.toNat
    (¬s.otherSeq loc → exec (.pimg g t a) s = .next (trapHere s 0x11 0)) ∧
    (s.otherSeq loc → (s.seqAt loc).status ≠ 3 → exec (.pimg g t a) s = .next (trapHere s 0x11 0)) ∧
    (s.otherSeq loc → (s.seqAt loc).status = 3 → ¬(x.toNat % 64 = 0 ∧ x.toNat + b.length ≤ Config.localBytes) →
      exec (.pimg g t a) s = .next (trapHere s 0x11 x.toNat)) ∧
    (s.otherSeq loc → (s.seqAt loc).status = 3 → x.toNat % 64 = 0 → x.toNat + b.length ≤ Config.localBytes →
      exec (.pimg g t a) s = .next (advance (clearMarks (s.setMem (s.mem.storeAll at0 b)) ((List.range b.length).map (at0 + ·))))))

/-- The unit puts the next entry of a fill ring behind those that it holds while the ring has room, and an operation under way
takes from it; it fetches a row or a joined run of rows for a gather ring whose fetched rows are used up; it writes the first
pushed entry of a drain ring to its elements, or forwards it into its drain queue while that has room, but for one that a qadv
has skipped (log 61); the decoder stages one of the next four chunks of a compressed stream and releases what is in order. Tile
writes that are due and complete are performed, and the earliest fill that can complete writes its slab; the last of either may
end a task that has halted. (R92, R93, R96, R97, R35, R143, R147, R153, R173) -/
def Obligations.RingsTilesAndFillsProgress : Prop :=
  (∀ loc n s r e r', let m := s.seqAt loc
    m.rings.find n = some r → r.dir = false → r.entries.length < ringDepth m n → nextEntry s loc r = some (e, r') →
    exec (.ringEntryFill loc n) s = .next (feedRing (s.setSeq loc
      { m with rings := m.rings.put n { r' with entries := r'.entries ++ [e], moved := r'.moved + 1 } }) loc n)) ∧
  (∀ loc n rows s r, let m := s.seqAt loc
    let mine := (m.gqueue.filter (fun e => e.1 == n)).map (·.2)
    let xs := joinedRows r (max 1 rows) mine
    m.rings.find n = some r → r.gather = true → r.rows = [] → mine ≠ [] →
    exec (.gatherRowFetch loc n rows) s = .next (s.setSeq loc { m with
      gqueue := m.gqueue.filter (fun e => e.1 != n) ++ (mine.drop xs.length).map (fun x => (n, x))
      rings := m.rings.put n { r with rows := xs.flatMap (rowEntries s loc r) } })) ∧
  (∀ loc n s r e, let m := s.seqAt loc
    let k0 := 512 * r.moved / r.width
    let k1 := 512 * (r.moved + 1) / r.width
    let t := drainElements loc r e ((List.range (k1 - k0)).map (k0 + ·)) s
    m.rings.find n = some r → headReady m r = some e → r.fin ≠ 2 →
    exec (.ringEntryDrain loc n) s = .next (t.setSeq loc { t.seqAt loc with rings := m.rings.put n (r.afterDrain e) })) ∧
  (∀ loc n s r e, let m := s.seqAt loc
    m.rings.find n = some r → headReady m r = some e → r.fin = 2 → e.valid ≠ 0 → dqCount m r.dq < 64 →
    exec (.drainQueueForward loc n) s = .next (s.setSeq loc { m with
      rings := m.rings.put n { r with entries := r.entries.drop 1, moved := r.moved + 1 }
      dqs := m.dqs.put r.dq (m.dqs.look [] r.dq ++ [⟨e.data, 0, 0, true, false, none, 64 * s.free⟩]) })) ∧
  (∀ loc n s r e, let m := s.seqAt loc
    m.rings.find n = some r → headReady m r = some e → r.fin = 2 → e.valid = 0 →
    exec (.drainQueueForward loc n) s = .next (s.setSeq loc
      { m with rings := m.rings.put n { r with entries := r.entries.drop 1, moved := r.moved + 1 } })) ∧
  (∀ loc n j s r, let m := s.seqAt loc
    m.rings.find n = some r → r.comp ≠ 0 → r.fail = 0 → r.relElts ≠ r.total → r.relNo ≤ j → j < r.relNo + 4 →
    r.chunks.has j = false →
    let r' := releaseChunks 5 (stageChunk r j (chunkAt s loc r (chunkAddr s loc r (j - r.relNo))))
    exec (.chunkDecode loc n j) s = .next (s.setSeq loc { m with rings := m.rings.put n r' })) ∧
  (∀ loc acc s, (∃ w ∈ (s.seqAt loc).tiles, w.acc = acc ∧ w.complete = true) →
    exec (.tileWriteComplete loc acc) s = .next (tryFinish (landTiles s loc) loc)) ∧
  (∀ loc s, exec (.mlarFillComplete loc) s = .next (tryFinish (completeFill s loc [] (s.seqAt loc).fills) loc))

/-- A read is performed at its home; a write or atomic whose key has a record is answered from it, one without is performed and
recorded, and a full window refuses it, and one that meets a marked word leaves no record; a cached access is performed in the
frame of its token. A load or ldr in time, a late ldr, a store and an atomic take the first answer for their entry: data is
merged at its offset, the last answer completes the access, a refusal leaves its trap to be raised, and an answer for no entry
of its key, or for a context that the save engine has begun to write, is discarded. An offered packet is taken or refused by the
station it is offered to. A walk ends with the frame it finds or the code of its trap, and the next waiting walks go on. (R88,
R248, R282, R283, R287, R288, R289, R323, R357, R358, R360, R379) -/
def Obligations.HomesPerformAndRepliesReturn : Prop :=
  (∀ pk s p, s.atHome pk p →
    (∀ n, p.kind = .read n → p.ca = false → exec (.homeAccess pk) s = .next (answer (performAccess s p).2.2 p (performAccess s p).1)) ∧
    (∀ n, p.kind = .read n → p.ca = true → exec (.homeAccess pk) s = .next (answer (frameAccess s p).2 p (frameAccess s p).1)) ∧
    (∀ b m, p.kind = .write b m → p.ca = true →
      (recordOf s p.ep p.key p.off ≠ none → exec (.homeAccess pk) s = .next (answer s p (.reply 0 0))) ∧
      (recordOf s p.ep p.key p.off = none →
        exec (.homeAccess pk) s = .next (answer (addRecord (frameAccess s p).2 p.ep ⟨p.key, p.off, 0, 0⟩) p (frameAccess s p).1))) ∧
    ((∃ b m, p.kind = .write b m) ∨ (∃ op sg n y c f, p.kind = .atom op sg n y c f) → p.ca = false →
      (∀ r, recordOf s p.ep p.key p.off = some r → exec (.homeAccess pk) s = .next
        (answer s p (.reply (r.result % 2 ^ 64) (r.result / 2 ^ 64)))) ∧
      (recordOf s p.ep p.key p.off = none → Config.windowRecords ≤ (s.epAt p.ep).window.length →
        exec (.homeAccess pk) s = .next (putPacket s { p with refused := true })) ∧
      (recordOf s p.ep p.key p.off = none → (s.epAt p.ep).window.length < Config.windowRecords →
        let (k, r, t) := performAccess s p
        ((∃ c n, k = .refuse c n) → exec (.homeAccess pk) s = .next (answer t p k)) ∧
        ((¬∃ c n, k = .refuse c n) → exec (.homeAccess pk) s = .next (answer (addRecord t p.ep ⟨p.key, p.off, r, 0⟩) p k))))) ∧
  (∀ loc entry s p, s.answerFor loc entry = some p →
    (∀ e, (s.seqAt loc).ifr.find entry = some e → e.key = p.key → e.state < 3 → engineWrites s loc = false →
      let late := isLate (s.seqAt loc) entry
      (e.kind = 1 ∨ e.kind = 4 ∧ late = false → exec (.loadReply loc entry) s = .next (s.answered p e)) ∧
      (e.kind = 4 → late = true → exec (.ldrLateReply loc entry) s = .next (s.answered p e)) ∧
      (e.kind = 2 ∨ e.kind = 5 → exec (.storeAck loc entry) s = .next (s.answered p e)) ∧
      (e.kind = 3 ∨ e.kind = 6 → exec (.atomicReply loc entry) s = .next (s.answered p e))) ∧
    (∀ e, (s.seqAt loc).ifr.find entry = some e → engineWrites s loc = true →
      exec (.storeAck loc entry) s = .next (dropPacket s p.id)) ∧
    ((s.seqAt loc).ifr.find entry = none → exec (.loadReply loc entry) s = .next (dropPacket s p.id)) ∧
    (∀ e, (s.seqAt loc).ifr.find entry = some e → e.key ≠ p.key → exec (.loadReply loc entry) s = .next (dropPacket s p.id))) ∧
  (∀ pk s p, s.packet pk = some p →
    (p.toward = s.module → p.accepted = true → exec (.packetOffer pk) s = .next (putPacket s { p with refused := false })) ∧
    (p.toward = s.module → p.accepted = false →
      earlierInFlow s p (fun q => !q.accepted) = true ∨ p.st.isSome = true ∧ slotFree s p p.dir = false →
      exec (.packetOffer pk) s = .next (putPacket s { p with refused := true })) ∧
    (p.toward = s.module → p.accepted = false → earlierInFlow s p (fun q => !q.accepted) = false → p.st.isSome = true →
      slotFree s p p.dir = true → exec (.packetOffer pk) s = .next (putPacket s { p with accepted := true, refused := false })) ∧
    (p.toward = s.module → p.accepted = false → earlierInFlow s p (fun q => !q.accepted) = false → p.st = none →
      exec (.packetOffer pk) s = .next (putPacket s { p with accepted := true, refused := false, dir := chooseDir s p })) ∧
    (p.toward ≠ s.module → p.accepted = false → ¬((s.link (2 * stationOf p)).dead = true ∧ (s.link (2 * stationOf p + 1)).dead = true) →
      let taken := chooseDir s p ≠ 0 ∧ earlierInFlow s p (fun q => !q.accepted) = false ∧ slotFree s p (chooseDir s p) = true
      (taken → exec (.packetOffer pk) s = .next (putPacket s { p with accepted := true, refused := false, dir := chooseDir s p })) ∧
      (¬taken → exec (.packetOffer pk) s = .next (putPacket s { p with refused := true }))) ∧
    (p.toward ≠ s.module → p.accepted = true → exec (.packetOffer pk) s = .next (offerLink s p))) ∧
  (∀ no d s, d < 8 → no % 8 = d →
    let k := s.dieAt d
    (∃ w ∈ k.walks, w.no = no / 8 ∧ w.active = true ∧ w.found = none ∧ w.code = 0) →
    exec (.pageTableWalk no) s = .next (s.setDie d { k with walks := grantWalks (residentParts s d) [] (k.walks.map (fun w =>
      if w.no = no / 8 then
        match walk s w.vd (w.page * 4096) with
        | .ok (frame, bits, ok) => { w with found := some (frame + w.page * 4096 % 2 ^ bits, ok) }
        | .error c => { w with code := c }
      else w)) }))

/-- An outstanding transfer that has beats left, no trap and no save reads its next beat and sends it, the first behind the
header, or fails with the fault of the read. A cget box that has been accepted is read through the source's maps and its beats
go to the core of the issuer, or the fault goes back. A landing beat whose transfer has a record carries it on, and one that has
none is judged; fan copies of its last element may come later. The end of a transfer frees its entry; a card counts the ends of
its transfers. A card starts once no earlier one meets it, fails where its regions break a rule, and writes its status when its
engine has finished. The transfers of a channel keep the order of their ids at a receiver: a beat waits until those before it
have been taken whole. One beat a source read is the model's granularity (log 21). (R197, R217, R222, R224, R231, R232, R233,
R234, R235, R238, R357) -/
def Obligations.TransfersAndCardsProgress : Prop :=
  (∀ loc k s e0, (s.seqAt loc).ifr.find k = some e0 →
    let v := if e0.kind = 10 then finishCommit loc (e0.target % 4) s else s
    ∀ e, (v.seqAt loc).ifr.find k = some e → e.kind = 7 ∨ e.kind = 10 → e.state = 1 → e.fault = 0 → e.beats < e.total →
    (v.seqAt loc).save = 0 → let t : TransferDesc := e.desc.setWidth 512
    sendsAfter v loc e (TransferDesc.dest t / 512) (TransferDesc.endpoint t) = false →
    let per := 64 / TransferDesc.es t
    let js := (List.range (min per (TransferDesc.total t - per * e.beats))).map (per * e.beats + ·)
    let src := readPieces v loc e.key.vd (TransferDesc.es t) (js.map (TransferDesc.source t (sourceBase e)))
    (∀ c i, src = .error (c, i) → exec (.transferSourceRead loc k) s = .next (failRead v loc k e c i)) ∧
    (∀ b w, src = .ok (b, w) →
      let u := putEntry w loc k { e with beats := e.beats + 1 }
      let step := if e.kind = 10 then some e.len else none
      let p := transferPacket u loc k e (TransferDesc.dest t / 512) (TransferDesc.endpoint t) 0 (.header t step e.total)
      exec (.transferSourceRead loc k) s = .next (emit (if e.beats = 0 then emit u p else u)
        { p with kind := .beat t step e.beats e.total (padBeat b) }))) ∧
  (∀ pk s p d, s.atHome pk p → p.kind = .ask d →
    (landingOpen s p.ep p.key.vd = false → exec (.cgetSourceResolve pk) s = .next (putPacket s { p with refused := true })) ∧
    (landingOpen s p.ep p.key.vd = true →
      let read := readElements s p.ep p.key.vd d (pinSet s p.ep p.key.vd (TransferDesc.tname d)) (List.range (TransferDesc.total d))
      (∀ c i, read = .error (c, i) → exec (.cgetSourceResolve pk) s = .next (answer s p (.refuse c i))) ∧
      (∀ b u, read = .ok (b, u) → exec (.cgetSourceResolve pk) s = .next (emitTransfer (dropPacket u pk)
        { p with
          dst := p.src, ep := coreOf p.loc, off := 0, refused := false
          accepted := p.src == u.module && dieOf p.loc == epDie p.ep } d b)))) ∧
  (∀ pk s p d step total, s.atHome pk p → p.kind = .header d step total → landsAfter s p = false →
    (landingOpen s p.ep p.key.vd = false → exec (.landingBeat pk) s = .next (putPacket s { p with refused := true })) ∧
    (landingOpen s p.ep p.key.vd = true → exec (.landingBeat pk) s = .next (dropPacket s pk))) ∧
  (∀ pk s ep a, s.packet pk = none → copiesOf s pk = some (ep, a) →
    exec (.landingBeat pk) s = .next (endDone (flushCopies s ep a) (epDie ep))) ∧
  (∀ pk s p d step no total bytes, s.atHome pk p → p.kind = .beat d step no total bytes → landsAfter s p = false →
    (landingOpen s p.ep p.key.vd = false → exec (.landingBeat pk) s = .next (putPacket s { p with refused := true })) ∧
    (∀ r, landingOpen s p.ep p.key.vd = true → recordOf s p.ep p.key p.off = some r →
      exec (.landingBeat pk) s = .next (laterBeat s p no bytes r)) ∧
    (landingOpen s p.ep p.key.vd = true → recordOf s p.ep p.key p.off = none →
      exec (.landingBeat pk) s = .next (firstBeat s p d step total bytes))) ∧
  (∀ pk s p d step no total bytes, s.packet pk = some p → p.kind = .beat d step no total bytes → landsAfter s p = true →
    exec (.landingBeat pk) s = .next s) ∧
  (∀ loc k s e, (s.seqAt loc).ifr.find k = some e → 7 ≤ e.kind → e.kind ≤ 10 → engineWrites s loc = false →
    (e.state = 3 ∨ e.state = 4 → exec (.transferComplete loc k) s = .next (endTransfer s loc k e e.code e.info)) ∧
    (∀ p, e.state ≠ 3 → e.state ≠ 4 → s.answerFor loc k = some p →
      (p.key ≠ e.key → exec (.transferComplete loc k) s = .next (dropPacket s p.id)) ∧
      (∀ x y, p.key = e.key → e.kind = 9 → p.kind = .reply x y → exec (.transferComplete loc k) s = .next
        (putEntry (dropPacket s p.id) loc k { e with left := e.left - 1, info := if e.code = 0 then 0 else e.info })) ∧
      (∀ x y, p.key = e.key → e.kind ≠ 9 → p.kind = .reply x y → exec (.transferComplete loc k) s = .next
        (endTransfer (dropPacket s p.id) loc k { e with desc := (e.desc.setWidth 512).setWidth 1024 } 0 0)))) ∧
  (∀ d card s x e, let cards := (s.dieAt d).cards
    let c : JobCard := x.bits
    let started := putCard s d { x with started := true }
    cards.find? (fun y => y.no == card) = some x → cardEntry s x = some e → x.started = false → e.fault = 0 →
    (s.seqAt x.loc).save = 0 → (∀ y ∈ cards.takeWhile (fun y => y.no != card), cardsMeet s y x = false) →
    (∀ r ∈ receiversOf s x.loc e, sendsAfter s x.loc e r.1 r.2.1 = false) →
    let fits := (∀ j ∈ JobCard.used c, JobCard.regionInside s x.loc c j = true) ∧ selfMeets s x = false
    (¬fits → exec (.jobCardStart d card) s = .next (putEntry started x.loc x.entry { e with code := 0x11 })) ∧
    (fits → JobCard.kind c ≠ 3 → exec (.jobCardStart d card) s = .next started) ∧
    (fits → JobCard.kind c = 3 → collectiveFault s x.loc e.key.vd c = none →
      let e' : Ifr := { e with left := JobCard.nw c, total := JobCard.nw c }
      exec (.jobCardStart d card) s = .next
        (sendCollective x.loc x.entry e' c (List.range (JobCard.nw c)) (putEntry started x.loc x.entry e')))) ∧
  (∀ d card s x e, let c : JobCard := x.bits
    (s.dieAt d).cards.find? (fun y => y.no == card) = some x → cardEntry s x = some e → x.started = true →
    e.fault = 0 → (s.seqAt x.loc).save = 0 →
    (e.code ≠ 0 → (JobCard.kind c = 3 → e.left = 0) →
      exec (.jobCardComplete d card) s = .next (closeCard s d x e e.code e.info)) ∧
    (JobCard.kind c = 3 → e.left = 0 → exec (.jobCardComplete d card) s = .next (closeCard s d x e e.code e.info)) ∧
    (∀ l u t, e.code = 0 → JobCard.kind c ≠ 3 → cardCopies s x.loc e.key.vd c = .ok (l, 0, u) →
      (copyAll x.loc e.key 0 l u = (t, .done) → exec (.jobCardComplete d card) s = .next (closeCard t d x e 0 0)) ∧
      (copyAll x.loc e.key 0 l u = (t, .full) → exec (.jobCardComplete d card) s = .next t)))

/-- Where no other broadcast is on its way: before bring-up is done a launch store waits; one that is no whole 128-byte write
posts a rejection with code 1 and takes no number; a packet that fails a check posts its code and takes the number; one that
finds a queue full waits, and one that finds them open is placed. An idle sequencer takes the first ready task that fits beside
its sibling: the queue gives it up, the sequencer takes the state of task start, the loader prepares it, and stores that wait
are offered again. A die sends a fatal record first, then the first record whose device is resident, and advances PROD. (R297,
R298, R299, R300, R301, R329, R345, R377, R384) -/
def Obligations.LaunchesTasksAndRecordsRun : Prop :=
  (∀ offset data s, s.casts = [] →
    let p : LaunchPacket := BitVec.ofNat 1024 (ofBytes data)
    let t : State := { s with casts := [.launch offset data] }
    let code := launchCheck t p
    let next := (t.lseq + 1) % 2 ^ 32
    (t.ready = false → exec (.launchPacket offset data) s = .next t) ∧
    (t.ready = true → ¬(offset = 0 ∧ data.length = 128) → exec (.launchPacket offset data) s = .next
      { postEvent t 0 0 (fullLoc t 0) 3 t.lseq 1 0 with casts := [] }) ∧
    (t.ready = true → offset = 0 → data.length = 128 → code ≠ 0 → exec (.launchPacket offset data) s = .next
      { postEvent t 0 (if code = 5 ∧ t.vds.has (LaunchPacket.vd p) = false then 0 else LaunchPacket.vd p) (fullLoc t 0) 3 t.lseq code 0 with
        lseq := next, casts := [] }) ∧
    (t.ready = true → offset = 0 → data.length = 128 → code = 0 →
      ((∃ e ∈ ownDies t p, Config.queueLaunches ≤ queueLength t e.2 (LaunchPacket.vd p) (LaunchPacket.pri p)) →
        exec (.launchPacket offset data) s = .next t) ∧
      ((∀ e ∈ ownDies t p, queueLength t e.2 (LaunchPacket.vd p) (LaunchPacket.pri p) < Config.queueLaunches) →
        let u := placeLaunch t p
        exec (.launchPacket offset data) s = .next { u with lseq := next, casts := u.casts.erase (.launch offset data) }))) ∧
  (∀ loc s l n r, let q := s.seqAt loc
    q.status = 0 → q.starts < 2 ^ 64 - 1 → loc < 512 → takeSpawned s loc = none → nextLaunch s loc = some l → l.todo.look [] loc = n :: r →
    let t := { l.code with num := n }
    fitsSibling s loc t = true →
    let k := s.dieAt (dieOf loc)
    let s1 := s.setDie (dieOf loc) { k with launches := k.launches.map (fun m =>
      if m.lseq = l.lseq then { m with todo := m.todo.put loc r } else m) }
    exec (.taskStart loc) s = .next
      (offerLaunches (runLoader (addSaves (taskStart s1 loc t) (partOf loc) (taskSaves t l.pkt)) loc true []))) ∧
  (∀ d s r rs, let k := s.dieAt d
    k.fatal = r :: rs → ringOpen k 1 = true →
    exec (.recordDelivery d true) s = .next (s.setDie d (Die.produced { k with fatal := rs } 1))) ∧
  (∀ d s rs, let k := s.dieAt d
    (k.fatal = [] ∨ ringOpen k 1 = false) → ringOpen k 0 = true → takeRecord (fun r => residentOn s d r.vd) k.lane = some rs →
    exec (.recordDelivery d false) s = .next (s.setDie d (Die.produced { k with lane := rs } 0)))

/-- A command in its turn whose target does not exist or whose dwords are malformed answers STATUS 3; one whose target stands in
the wrong state answers 2; otherwise it acts and answers 1. A parked transfer fails with 0x50 and the others are looked at
again; a save or a slice end freezes the partition and gives it to the save engine, a restore gives it back or starts it blank;
a degraded link goes back to 16 lanes; a reset drops the device, or marks the jobs of its saves, which end with it and answer
then; a register of a device takes its value; older translations go; a report is written for a nonce and uses up a one-time key.
That an unknown partition answers 3 is the model's reading (log 14). (R225, R317, R325, R326, R332, R362, R366, R367, R376,
R385) -/
def Obligations.CommandsAnswerWithTheirStatus : Prop :=
  (∀ d slot s ep a, s.commandReady d slot 2 → parkedEndpoint d (s.arg d slot 1) = some ep →
    ((s.epAt ep).arrive.filter (·.parked))[s.arg d slot 2]? = some a →
    exec (.discardParkedTransfer d slot) s = .next
      (setStatus (reexamineAll (endArrival (s.taken d) ep { a with fail := 0x50 }) ep) d slot 1)) ∧
  (∀ d slot s, s.commandReady d slot 2 → parkedEndpoint d (s.arg d slot 1) = none →
    exec (.discardParkedTransfer d slot) s = .next (setStatus (s.taken d) d slot 3)) ∧
  (∀ d slot s p, let vd := s.arg d slot 1
    let num := s.arg d slot 2
    let u := s.taken d
    engineBusy s d slot = false → ownPartition s vd num = some p →
    (s.commandReady d slot 3 → (s.quadAt p).resident = some vd → exec (.savePartition d slot) s = .next
      (startJob ((partLocs p).foldl freezeNow u) (slotJob vd p num false d slot))) ∧
    (s.commandReady d slot 5 → (s.quadAt p).resident = some vd → exec (.endSlice d slot) s = .next
      (startJob ((partLocs p).foldl (endSliceOf vd) u) (slotJob vd p num false d slot))) ∧
    (s.commandReady d slot 3 → (s.quadAt p).resident ≠ some vd →
      exec (.savePartition d slot) s = .next (setStatus u d slot 2)) ∧
    (s.commandReady d slot 4 → (s.quadAt p).resident = none → s.images.has (imageKey vd num) = true →
      exec (.restorePartition d slot) s = .next (startJob u (slotJob vd p num true d slot))) ∧
    (s.commandReady d slot 4 → (s.quadAt p).resident = none → s.images.has (imageKey vd num) = false →
      let b := blankPartition u p
      exec (.restorePartition d slot) s = .next
        (setStatus (b.setQuad p { b.quadAt p with resident := some vd }) d slot 1)) ∧
    (s.commandReady d slot 4 → (s.quadAt p).resident ≠ none →
      exec (.restorePartition d slot) s = .next (setStatus u d slot 2))) ∧
  (∀ d slot s, s.commandReady d slot 6 →
    let l := 2 * s.arg d slot 1 + s.arg d slot 2
    let k := s.link l
    s.arg d slot 1 < 4 → s.arg d slot 2 < 2 →
    let low := linkUp s l = true ∧ k.lanes = 8 ∧ k.retrain = none
    (low → exec (.retrainLink d slot) s = .next (setStatus ((s.taken d).setLink l { k with lanes := 16 }) d slot 1)) ∧
    (¬low → exec (.retrainLink d slot) s = .next (setStatus (s.taken d) d slot 2))) ∧
  (∀ d slot s, s.commandReady d slot 7 → s.vds.has (s.arg d slot 1) = true →
    let u := s.taken d
    let vd := s.arg d slot 1
    let busy := ∃ e ∈ u.dies, ∃ j, e.2.job = some j ∧ j.vd = vd
    (¬busy → exec (.functionLevelReset d slot) s = .next (setStatus (resetDevice u vd) d slot 1)) ∧
    (busy → exec (.functionLevelReset d slot) s = .next { u with dies := u.dies.map (fun e => (e.1,
      { e.2 with job := e.2.job.map (fun j => if j.vd = vd then { j with abort := j.abort ++ [64 * d + slot] } else j) })) })) ∧
  (∀ d slot s v', s.commandReady d slot 8 → s.vds.has (s.arg d slot 1) = true →
    let v := s.vdAt (s.arg d slot 1)
    let n := s.arg d slot 2
    (∀ p, perPartition n = true → v.parts[s.arg d slot 4]? = some p → Vd.write v n (s.arg d slot 3) p = some v' →
      exec (.writeVdRegister d slot) s = .next (setStatus ((s.taken d).setVd (s.arg d slot 1) v') d slot 1)) ∧
    (perPartition n = false → s.arg d slot 4 = 0 → Vd.write v n (s.arg d slot 3) 0 = some v' →
      exec (.writeVdRegister d slot) s = .next (setStatus ((s.taken d).setVd (s.arg d slot 1) v') d slot 1))) ∧
  (∀ d slot s, s.commandReady d slot 9 → s.vds.has (s.arg d slot 1) = true →
    exec (.transInv d slot) s = .next (setStatus { s.taken d with dies := (s.taken d).dies.map (fun e => (e.1,
      { e.2 with walks := e.2.walks.filter (fun x => x.vd != s.arg d slot 1 || (x.found.isNone && x.code == 0)) })) } d slot 1)) ∧
  (∀ d slot s, s.commandReady d slot 10 → s.arg d slot 2 % 64 = 0 → s.arg d slot 2 + 4096 ≤ Config.localBytes → s.arg d slot 3 = 0 →
    let u := s.taken d
    let a := localPhys u 0 (s.arg d slot 2)
    (2 ^ 20 ≤ s.lmsLeaf → exec (.attestationReport d slot) s = .next (setStatus u d slot 2)) ∧
    (s.lmsLeaf < 2 ^ 20 → exec (.attestationReport d slot) s = .next (setStatus
      { clearMarks (u.setMem (u.mem.storeAll a (reportBytes u (s.arg d slot 1)))) ((List.range 4096).map (a + ·)) with
        lmsLeaf := s.lmsLeaf + 1 } d slot 1)))

/-- A slice window that has run out freezes its running sequencer for a save. A place that a withdraw has not reached discards
the origin's packets that it holds and acknowledges; the last acknowledgement takes the withdraw away. A save step writes one
block once every sequencer that the job saves is frozen and withdrawn, the blocks of the image and the contexts first and their
headers last; the last step ends the job and answers the command, and a reset of the device aborts it. A sequencer publishes its
horizons when they have moved; an endpoint that a publication reaches retires the records below it. Which block stands where in
the image is the model's order (log 10, log 22). (R332, R359, R360, R361, R362, R365, R366) -/
def Obligations.SlicesWithdrawsSavesAndHorizons : Prop :=
  (∀ loc s t, (s.seqAt loc).slice = some t → (s.seqAt loc).status = 1 → t ≤ s.now →
    exec (.sliceGraceExpiry loc) s = .next (freezeForSave s loc)) ∧
  (∀ loc ep s w, s.withdraws.find? (fun w => w.loc == loc) = some w → w.discard.contains ep = true →
    let u := discardFor s loc (placeHolds s ep)
    exec (.withdrawReceive loc ep) s = .next { u with withdraws := mapWithdraw loc (fun w => { w with
      discard := w.discard.filter (· != ep), acks := w.acks ++ [ep] }) u.withdraws }) ∧
  (∀ loc ep s w, s.withdraws.find? (fun w => w.loc == loc) = some w → w.acks.contains ep = true →
    let w' := { w with acks := w.acks.filter (· != ep) }
    (w'.acks = [] ∧ w'.discard = [] → exec (.withdrawAck loc ep) s = .next (discardFor
      { s with withdraws := s.withdraws.filter (fun v => v.loc != loc) } loc (fun _ => true))) ∧
    (¬(w'.acks = [] ∧ w'.discard = []) →
      exec (.withdrawAck loc ep) s = .next { s with withdraws := mapWithdraw loc (fun _ => w') s.withdraws })) ∧
  (∀ d s j, let k := s.dieAt d
    k.job = some j → jobReady s j = true →
    let on := fun (t : State) => t.setDie d { t.dieAt d with job := some { j with done := j.done + 1 } }
    let bs := jobBlocks s j
    let hs := jobHeaders j
    (j.abort ≠ [] → exec (.saveStep d) s = .next (abortSave s d j)) ∧
    (j.abort = [] → j.restore = true →
      exec (.saveStep d) s = .next (if j.done + 1 < restoreSteps j then on s else endJob s d j)) ∧
    (∀ p n, j.abort = [] → j.restore = false → bs[j.done]? = some (p, n) →
      exec (.saveStep d) s = .next (on (writeBlock s j (p.off + 4096 * n) (p.block n)))) ∧
    (∀ loc off, j.abort = [] → j.restore = false → bs.length ≤ j.done → hs[j.done - bs.length]? = some (loc, off) →
      let t := writeHeader s j loc off
      exec (.saveStep d) s = .next (if j.done + 1 < bs.length + hs.length then on t else endJob t d j))) ∧
  (∀ loc s, let q := s.seqAt loc
    let h := horizonsOf q
    (∀ p ∈ q.past, ∃ e ∈ q.ifr, e.2.key.origin = p.1 ∧ e.2.key.epoch = p.2.1) → q.epoch ≠ 0 → h ≠ q.horizons →
    exec (.horizonPublish loc) s = .next { s.setSeq loc { q with horizons := h } with
      published := s.published ++ [⟨loc, q.origin, q.epoch, h, publishPlaces⟩] }) ∧
  (∀ ep loc s h, s.published.find? (fun h => h.loc == loc && h.eps.contains ep) = some h →
    let k := s.epAt ep
    let u := s.setEp ep { k with window := k.window.filter (fun r => !retired h r) }
    exec (.horizonRetire ep loc) s = .next { u with published := (u.published.map (fun x =>
      if x = h then { h with eps := h.eps.filter (· != ep) } else x)).filter (fun x => !x.eps.isEmpty) })

/-- A store of an aligned dword writes a command slot, dword 0 issuing the command, a ring register but PROD, a dword of an idle
or frozen sequencer's view, or eight bytes of a local store or bank; a 1 in dword 3 of the header resets the module; any other
store is discarded. An access to the tiers of this module writes back and drops the token-frame lines that it touches; a write
stores its bytes and clears the marks of the words it covers, a read gives the bytes to the host. A range table takes effect
whole where it keeps every rule and not at all otherwise; a new device has its partitions in order and the registers of reset; a
minimum is set where the station's minimums stay within their sum. (R291, R297, R320, R322, R326, R330, R374, R375, R384, R393)
-/
def Obligations.HostAndHypervisorAct : Prop :=
  (∀ d offset x s, s.ready = true → d < 8 → offset % 8 = 0 →
    (offset = 0x100000018 → exec (.hostStateStore d offset x) s = .next (if x = 1 then moduleReset (imagesFound s) s else s)) ∧
    (0x100001000 ≤ offset → offset < 0x100002000 →
      exec (.hostStateStore d offset x) s = .next (storeCommand s d ((offset - 0x100001000) / 8) x)) ∧
    (0x100100000 ≤ offset → offset < 0x100100040 →
      exec (.hostStateStore d offset x) s = .next (storeRing s d ((offset - 0x100100000) / 8) x.toNat)) ∧
    (0x101000000 ≤ offset → offset < 0x101800000 → exec (.hostStateStore d offset x) s = .next
      (storeView s (64 * d + (offset - 0x101000000) / 0x20000) ((offset - 0x101000000) % 0x20000) x.toNat)) ∧
    ((0x110000000 ≤ offset ∧ offset < 0x120000000 ∧ offset % 0x800000 < 0x600000) ∨ (0x120000000 ≤ offset ∧ offset < 0x124000000) →
      let a := physOf s d 3 offset
      exec (.hostStateStore d offset x) s = .next
        (clearMarks (s.setMem (s.mem.storeAll a (toBytes 8 x.toNat))) ((List.range 8).map (a + ·))))) ∧
  (∀ addr data s, s.ready = true → physMod addr = s.module → addr < 2 ^ 52 → physTier addr < 2 →
    physOff addr + data.length ≤ Config.tierBytes (physTier addr) →
    let t := dropPhysical s addr data.length
    exec (.hostMemoryAccess addr true data) s = .next
      (clearMarks (t.setMem (t.mem.storeAll addr data)) ((List.range data.length).map (addr + ·))) ∧
    exec (.hostMemoryAccess addr false data) s = .next
      { t with hostData := (List.range data.length).map (fun j => t.mem.look (addr + j)) }) ∧
  (∀ vd entries s, let keeps := s.ready = true ∧ s.vds.has vd = true ∧ entries.length ≤ 32 ∧ (∀ e ∈ entries, rangeOk e = true) ∧ apart entries = true
    (keeps → exec (.rangeTableInstall vd entries) s = .next (s.setVd vd { s.vdAt vd with ranges := entries })) ∧
    (¬keeps → exec (.rangeTableInstall vd entries) s = .next s)) ∧
  (∀ vd ps s, s.ready = true → 0 < vd → vd < 2 ^ 16 → inOrder ps ≠ [] → (∀ p ∈ ps, p < 4096) → s.vds.has vd = false →
    exec (.virtualDeviceCreation vd ps) s = .next (s.setVd vd { Vd.reset with parts := inOrder ps })) ∧
  (∀ st vd cls n s, st < 4 → cls < 4 → s.vds.has vd = true →
    let v := s.vdAt vd
    let t := s.setVd vd { v with shares := v.shares.put (4 * st + cls) n }
    (allShares t st ≤ Config.ingressMinimums → exec (.minimumShareSetting st vd cls n) s = .next t) ∧
    (Config.ingressMinimums < allShares t st → exec (.minimumShareSetting st vd cls n) s = .next s))

/-- A link that is up accepts the frame with the next number whose check passes and discards any other. An acknowledgement frees
the replay buffer up to its number; requests of this module that it covers depend on the link until they are answered. A link of
16 lanes goes on with the half that has not failed and retrains; a failure in the remaining half, or retraining that takes over
2 microseconds, makes it unrecoverable. Ends of major version 1 train at the smaller minor and the modules that answer enter the
pod map; ends of another major leave the link down. A window of occupancy closes with the percentages of both directions. (R284,
R367, R381, R382, R384) -/
def Obligations.LinksCarryAndRecover : Prop :=
  (∀ l f s, let k := s.link l
    let next := linkUp s l = true ∧ f.good = true ∧ f.seq = (k.accepted + 1) % 2 ^ 16
    (next → exec (.linkPacketReceive l f) s = .next (takeFrame (s.setLink l { k with accepted := f.seq }) l f)) ∧
    (¬next → exec (.linkPacketReceive l f) s = .next s)) ∧
  (∀ l seq s, let k := s.link l
    let n := (seq + 2 ^ 16 - k.acked) % 2 ^ 16
    linkUp s l = true → seq < 2 ^ 16 → n ≤ k.buffer.length →
    let sent := ((k.buffer.take n).map (·.2)).filter (fun p => p.asks && p.src == s.module)
    exec (.linkAck l seq) s = .next (s.setLink l
      { k with acked := seq, buffer := k.buffer.drop n, away := k.away.filter (unanswered s) ++ sent })) ∧
  (∀ l lane s, let k := s.link l
    linkUp s l = true → lane < 16 →
    (k.lanes = 16 → exec (.laneFailure l lane) s = .next
      (s.setLink l { k with lanes := 8, lowHalf := decide (8 ≤ lane), retrain := some s.now })) ∧
    (k.lanes ≠ 16 → k.lowHalf = decide (lane < 8) → exec (.laneFailure l lane) s = .next (killLink s l))) ∧
  (∀ l t s, (s.link l).retrain = some t →
    (s.now ≤ t + 2000 → exec (.linkRetrained l) s = .next (s.setLink l { s.link l with retrain := none })) ∧
    (t + 2000 < s.now → exec (.linkRetrainTimeout l) s = .next (killLink s l))) ∧
  (∀ l version ms s, s.ready = true → l < 8 → (s.link l).up = false →
    let good := bitsAt version 16 16 = 1 ∧ version < 2 ^ 32
    (¬good → exec (.linkTraining l version ms) s = .next (s.setLink l { Link.reset with up := false })) ∧
    (good → exec (.linkTraining l version ms) s = .next
      { s.setLink l { Link.reset with up := true, version := min (bitsAt version 0 16) 0 } with
        podMap := ms.foldl (fun m n => if n < 64 then Nat.lor m (2 ^ n) else m) s.podMap })) ∧
  (∀ st cw ccw s, st < 12 → exec (.ringSkewMeasure st cw ccw) s = .next
    { s with occup := (s.occup.put (2 * st) (min cw 100)).put (2 * st + 1) (min ccw 100) })

/-- A corrected error is counted and changes nothing else. An uncorrectable error in memory marks its word, which stays marked;
one in the state of a sequencer marks that register or entry there, which raises trap 0x70 when it is read. A module reset
leaves the machine of reset but for the flash and the fuses: the boot number counts on, the security version, the used one-time
keys and the module number stay, and a boot number that is spent, an image that is not accepted or one that is older halts it.
No launch store waits in the statement of a reset. Power off loses everything but those. Which image is accepted is a free
value; the machine of reset stands after bring-up (log 2, log 7). (R347, R348, R384, R386) -/
def Obligations.ErrorsResetAndPowerAct : Prop :=
  (∀ d s, exec (.correctedError d) s = .next (s.setDie d { s.dieAt d with errors := (s.dieAt d).errors + 1 })) ∧
  (∀ addr s, addr < 2 ^ 64 → s.marks.contains (addr / 8) = false →
    exec (.uncorrectableError addr) s = .next { s with marks := s.marks ++ [addr / 8] }) ∧
  (∀ addr s, 2 ^ 64 ≤ addr → addr / 2 ^ 64 - 1 < 512 →
    let q := s.seqAt (addr / 2 ^ 64 - 1)
    let e := (errorReg (addr % 2 ^ 64), addr % 256)
    q.errs.contains e = false →
    exec (.uncorrectableError addr) s = .next (s.setSeq (addr / 2 ^ 64 - 1) { q with errs := q.errs ++ [e] })) ∧
  (∀ images s, 2 ^ 32 - 2 ≤ s.boot → ∃ t, exec (.moduleReset images) s = .next t ∧ t.ready = false) ∧
  (∀ images s, s.boot < 2 ^ 32 - 2 → s.casts = [] →
    let good := ∀ i ∈ images, Config.imageAccepted i = true ∧ s.rollback ≤ i % 2 ^ 32
    ∃ t, exec (.moduleReset images) s = .next t ∧ (t.ready = true ↔ good) ∧ t.boot = s.boot + 1 ∧ t.rollback = s.rollback ∧
      t.lmsLeaf = s.lmsLeaf ∧ t.module = s.module ∧ t.firmware = images ∧ t.podMap = 2 ^ s.module ∧ t.seqs = State.reset.seqs ∧
      t.dies = State.reset.dies ∧ t.vds = State.reset.vds ∧ t.net = [] ∧
      (good → t.mem = [] ∧ t.marks = []) ∧ (¬good → t.mem = s.mem)) ∧
  (∀ s, ∃ t, exec .powerOff s = .next t ∧ t.power = false ∧ t.ready = false ∧ t.boot = s.boot ∧ t.rollback = s.rollback ∧
    t.lmsLeaf = s.lmsLeaf ∧ t.module = s.module ∧ t.mem = [] ∧ t.seqs = State.reset.seqs ∧ t.net = [])

/-- Each word that the manual assembles in its text decodes, in its slot, to the operation and the operands for which the manual
gives it: S, V0, V1, M, L, W, X, C and Y. Hexadecimal digits are those of the manual. (Table 3.7, Table 3.8, Table 3.9, Table
3.10, Table 3.11, Table 3.12, Table 3.13, Table 3.14) -/
def Obligations.DecodesSpecWords : Prop :=
  decodeWord .S 0xFFFFFA02008812 = some (.addi ⟨2, true⟩ (.own 4) (.own 4) (BitVec.ofInt 23 (-3))) ∧
  decodeWord .L 0x1018080181202F = some (.ld ⟨15, false⟩ (.file .s 9) (.own 3) (.own 4) 0 .b64) ∧
  decodeWord .S 0x40080A08F = some (.mul ⟨15, false⟩ (.own 5) (.own 1) (.own 2)) ∧
  decodeWord .V0 0x36860481402F = some (.vadd ⟨15, false⟩ (.own 10) (.own 9) (.com 3) .s32 0) ∧
  decodeWord .S 0x40084460F = some (.cmp ⟨15, false⟩ 2 2 (.own 1) (.own 2)) ∧
  decodeWord .S 0x600800CAF = some (.loop ⟨15, false⟩ (.own 1) 3) ∧
  decodeWord .W 0x2602E8406F = some (.vstm ⟨15, false⟩ (.com 2) (.own 5) 3 true 0) ∧
  decodeWord .C 0x40002F = some (.cbind ⟨15, false⟩ 0 0 true) ∧
  decodeWord .V1 0x10280200A50F = some (.vred ⟨15, false⟩ (.own 5) (.own 4) 4 2 .b32) ∧
  decodeWord .V0 0x210140380E02F = some (.vadd ⟨15, false⟩ (.own 7) (.own 7) (.own 10) .b32 2) ∧
  decodeWord .V0 0x3C060E12F = some (.vor ⟨15, false⟩ (.pop 7) (.dq 0) (.own 1) .b8 0) ∧
  decodeWord .M 0x282EC4304F = some (.mmac ⟨15, false⟩ 3 2 .e4m3 .e4m3 32 1 false) ∧
  decodeWord .M 0x3C05A308F = some (.mdrain ⟨15, false⟩ 1 3 0 15 .e4m3 false) ∧
  decodeWord .M 0x2820CF = some (.mpar ⟨15, false⟩ 2 0x28 false) ∧
  decodeWord .M 0x400EF = some (.mcall ⟨15, false⟩ 64) ∧
  decodeWord .X 0x10B02010302F = some (.xcvt ⟨15, false⟩ (.own 3) (.own 1) 2 .e4m3 .f32) ∧
  decodeWord .C 0x1148120F = some (.cput ⟨15, false⟩ 2 1 4 5) ∧
  decodeWord .Y 0x310AF = some (.swait ⟨15, false⟩ 2 3) ∧
  decodeWord .W 0x1004008082CF = some (.aincb ⟨15, false⟩ 4 (.own 1) (.own 2) false 0 0 .b32) ∧
  decodeWord .W 0x110060108A28F = some (.aswp ⟨15, false⟩ 5 (.own 2) (.own 3) false 2 1 .b32) ∧
  decodeWord .Y 0x2800190F = some (.fence ⟨15, false⟩ 5 0x0003) ∧
  decodeWord .C 0x6740F = some (.gdecl ⟨15, false⟩ 7 0 3) ∧
  decodeWord .Y 0x98F = some (.gstep ⟨15, false⟩ 0 1) ∧
  decodeWord .L 0x1010060100820F = some (.ldg ⟨15, false⟩ (.file .s 4) (.own 2) (.own 3) 0 .b32) ∧
  decodeWord .C 0x100242F = some (.gq ⟨15, false⟩ 2 0 1) ∧
  decodeWord .L 0x1018FE0100A30F = some (.ldr ⟨15, false⟩ (.file .s 5) (.own 2) false 127 0 .b64) ∧
  decodeWord .W 0x14000080640F = some (.str ⟨15, false⟩ (.own 3) (.own 1) true 0 .b32) ∧
  decodeWord .W 0x12040080842F = some (.ratom ⟨15, false⟩ 4 (.own 1) 2 8 false 0 0 .b32) ∧
  decodeWord .C 0xC350F = some (.tacq ⟨15, false⟩ 3 6) ∧
  decodeWord .C 0xC052F = some (.trel ⟨15, false⟩ 6) ∧
  decodeWord .Y 0x21A9024F = some (.bar ⟨15, false⟩ 4 3 5 2) ∧
  decodeWord .Y 0x3228F = some (.spawn ⟨15, false⟩ 4 6) ∧
  decodeWord .Y 0x91A40F = some (.trap ⟨15, false⟩ 0x1234) ∧
  decodeWord .Y 0xC2F = some (.eret ⟨15, false⟩ 1) ∧
  decodeWord .Y 0xE42F = some (.eretT ⟨15, false⟩ 0 3) ∧
  decodeWord .Y 0x2960F = some (.ctxsave ⟨15, false⟩ 2 5) ∧
  decodeWord .Y 0xA962F = some (.ctxload ⟨15, false⟩ 2 5 true) ∧
  decodeWord .Y 0x2964F = some (.pimg ⟨15, false⟩ 2 5)

/-- For every instruction that is well formed and has an encoding, and in every slot whose word table holds it, decoding its
word gives the instruction back with every operand. Where a word decodes in a slot, the instruction is well formed and encodes
to that word, so no bit of a word is dropped and no word stands for two instructions. (R45, R46, R49, R52, Table 3.16) -/
def Obligations.DecodeEncodeAgree : Prop :=
  (∀ i, Sys2Proof.Laws.RoundTrip.Statement i) ∧
  (∀ sl w i, decodeWord sl w = some i → i.wf = true ∧ encode i = some w) ∧
  (∀ sl w v i, decodeWord sl w = some i → decodeWord sl v = some i → w = v)

/-- From every state, reachable or not, whose memory lists rising addresses and no byte equal to what an unlisted one reads as,
each step that goes on ends in a state whose memory is of that form: so equal memories are equal data, whatever stored to them.
(R39, R383) -/
def Obligations.StepKeepsMemoryForm : Prop :=
  ∀ s t, s.Inv → step s = .next t → t.Inv

/-- State.reset is the module after stages 1 to 6 of bring-up (log 2). Its memory has the canonical form and every byte reads as
zero. Every system register reads as Table 26.4 gives it, SEQ.LOC being the location, CONV as at task start. Every location is
idle with nothing in flight, no ring, no grid and no loop. Tiles, counters, Larders and routine stores hold zero, no partition
is resident, no token has left its home, no packet is in the fabric. The 512-bit files read zero by the scrub; that registers of
the other files read zero is the model's choice (log 3), but for s0 and p15, which always read 0 and 1. The physical count,
LSEQ, the start counts and the ready flag are those of stages 1 and 6. (R384, R115, R253, R271, R387, Table 26.4, R19, R21,
R383) -/
def Obligations.ResetLeavesTheStatedValues : Prop :=
  let s := State.reset
  s.Inv ∧ (∀ a, s.mem.look a = 0) ∧ s.now = 0 ∧ s.lseq = 0 ∧ s.ready = true ∧ s.power = true ∧ s.net = [] ∧ s.marks = [] ∧
  (∀ loc r, regBase s loc r = if r = ⟨.p, 15⟩ then 1 else 0) ∧
  (∀ loc, let q := s.seqAt loc
    q.status = 0 ∧ q.pend = [] ∧ q.rings = [] ∧ q.grids = [] ∧ q.loops = [] ∧ q.ifr = [] ∧ q.dqs = [] ∧ q.frame = none ∧
    q.starts = 0) ∧
  (∀ loc, let t : State := { s with cur := ⟨loc, .S⟩ }
    sysRead t 0x000 = 0 ∧ sysRead t 0x001 = loc ∧ sysRead t 0x003 = 0x0000000100000000 ∧ sysRead t 0x004 = 0 ∧
    sysRead t 0x005 = 0 ∧ sysRead t 0x006 = 0 ∧ sysRead t 0x007 = 0 ∧ sysRead t 0x008 = 1000000 ∧ sysRead t 0x009 = 0 ∧
    (∀ i, i < 8 → sysRead t (0x010 + i) = 0) ∧ sysRead t 0x100 = 0x01000000 ∧ sysRead t 0x101 = 0 ∧ sysRead t 0x102 = 0 ∧
    sysRead t 0x104 = 0 ∧ sysRead t 0x105 = 2000 ∧ sysRead t 0x106 = 0 ∧ sysRead t 0x107 = 0 ∧
    (∀ i, i < 8 → sysRead t (0x110 + i) = 0 ∧ sysRead t (0x118 + i) = 0) ∧ sysRead t 0x200 = 25) ∧
  (∀ c a, let k := s.coreAt c
    k.tile.look 0 a = 0 ∧ k.ovfc.look 0 a = 0 ∧ k.nanc.look 0 a = 0 ∧ k.larder.look 0 a = 0 ∧ k.store.look 0 a = 0) ∧
  (∀ p a, (s.quadAt p).ctr.look 0 a = 0 ∧ (s.quadAt p).resident = none) ∧ (∀ vd va, (s.tokenAt vd va).holder = none) ∧
  (∀ e, (s.epAt e).maps = [] ∧ (s.epAt e).window = []) ∧ (∀ d, (s.dieAt d).lane = [] ∧ (s.dieAt d).fatal = [])

/-- When the next move is a slot of a running sequencer with power, and neither its sibling, a slice that has ended, records or
reissued transfers that come first (R329, R332, R361) nor the turn conditions hold it back, the step executes, with exec, the
operation that the slot's word of its next bundle decodes to; where the slot advances, the count of B's cycles is kept (R25). A
bundle that a resume has not fetched again is fetched first. Where the bundle is the next one, it is the 64 bytes at the fetch
address, and fetch goes on past it or waits for its control transfer. An operation in a present slot is what its word decodes
to; an absent slot with a zero word is a no-operation. When the next move is an event, the step executes that event. The agenda
that names the next move is the model's own (log 1). (R22, R24, R25, R41, R53, R72, R76, R250, R309, R332, R337, R361) -/
def Obligations.StepRunsTheDecodedInstruction : Prop :=
  (∀ s dt loc x rest i, s.agenda = (dt, .issue loc x) :: rest → s.power = true →
    let u : State := { s with agenda := rest, now := s.now + dt }
    let c : State := { u with cur := ⟨loc, x⟩ }
    let q := c.seqAt loc
    let k := stepOf q x
    let runs := fun (v : State) => match exec i { v with cur := ⟨loc, x⟩ } with
      | .next t => Host.Outcome.next (if k < stepOf (t.seqAt loc) x then countMerge u t loc x else t)
      | o => o
    q.status = 1 → mergeHolds u loc x = false → sliceHolds c loc = false →
    (∀ v, v = refill c loc → q.queue.has k = true → (bundleAt (v.seqAt loc) k).here = true → v.inTurn loc x = true →
      v.finds loc x i → step s = runs v) ∧
    (∀ pa, q.queue.has k = false → k = q.nextIdx → q.hold = none → k ≤ loOf q + 16 → q.pc < q.task.codeLen →
      translate c q.task.vd (q.task.bco + q.task.codeOff + q.pc) false = .ok pa →
      errorMark c ((List.range 64).map (pa + ·)) = none →
      let b : Bundle := BitVec.ofNat 512 (ofBytes ((List.range 64).map (fun j => walkByte c (pa + j))))
      let v := c.setSeq loc (q.fetched k b)
      v.inTurn loc x = true → v.finds loc x i → step s = runs v)) ∧
  (∀ (q : Seq), (∀ f ∈ q.queue, f.2.here = true) → ∀ s loc, s.seqAt loc = q → refill s loc = s) ∧
  (∀ (b : Bundle) x, (b.present x = true → b.op x = decodeWord x (b.word x)) ∧
    (b.present x = false → b.word x = 0 → b.op x = some .noOperation)) ∧
  (∀ s dt i rest, s.agenda = (dt, .event i) :: rest → isEvent i = true → s.power = true ∨ isReset i = true →
    step s = exec i { s with agenda := rest, now := s.now + dt })

/-- For every operation of a slot that neither a disposed trap passes over nor an earlier operation on its rings holds back: it
raises trap 0x01 where it is not legal, whatever its predicate; so does an operation that reads a ring of no binding or of one
bound with DIR 1, or pushes into a ring of no binding or bound with DIR 0; and so do ctxsave, ctxload and pimg outside
supervisor mode. A legal operation whose predicate is false writes nothing but takes part in collisions, and its slot advances
(an operation that has begun to wait was judged when it began). An operation that a disposed trap passes over is void, one
behind an earlier operation on its rings stalls, and so does one whose results would not fit its slot's pipe image, or whose
draws depend on routine words that M has yet to issue (log 54). (R47, R51) -/
def Obligations.IllegalAndVoidOperations : Prop :=
  (∀ i g s, predOf i = some g → heldBack i s = false →
    (legal s i = false → exec i s = .next (trapHere s 0x01 0)) ∧
    (∀ n ∈ readRingsOf i, (¬∃ r, s.me.rings.find n = some r ∧ r.dir = false) → exec i s = .next (trapHere s 0x01 0)) ∧
    (∀ n, pushOf i = some n → (¬∃ r, s.me.rings.find n = some r ∧ r.dir = true) → exec i s = .next (trapHere s 0x01 0)) ∧
    (legal s i = true → s.me.barAt = none → s.me.sleepTo = none → waitBegun s = false → mlarBegun s = false →
      (s.predIn g.pred g.inv = some false → exec i s = .next (voidIssue i s)) ∧
      (s.predIn g.pred g.inv = some true → imageFull s i = true ∨ drawsUnknown s i = true → exec i s = .next (stallHere s)))) ∧
  (∀ i g t a m s, i = .ctxsave g t a ∨ (∃ go, i = .ctxload g t a go) ∨ i = .pimg g t a ∨ i = .eretT g m t →
    supervisor s.me = false → heldBack i s = false → exec i s = .next (trapHere s 0x01 0)) ∧
  (∀ i g s, predOf i = some g →
    (s.me.skips.contains (s.cur.slot.num, s.here) = true → exec i s = .next (voidIssue i s)) ∧
    (s.me.skips.contains (s.cur.slot.num, s.here) = false → ringBlocked s i = true →
      exec i s = .next (stallHere (perf s s.cur.loc 3 1))))

/-- An instruction that is no store, atomic, end or start of a task, context operation or writing event leaves every byte of
memory as it was when it goes on, whether it completed, stalled or trapped. A store, an atomic or asnap of the W slot leaves
every byte but those of its near-window span under its mask, the span being computed from what its operands read as; where its
address lies in the device-memory window it stores nothing at issue, since its requests go to their homes. (The form of memory
is the invariant that StepKeepsMemoryForm states.) (R85, R86, R88, R248, R255) -/
def Obligations.MemoryFrames : Prop :=
  (∀ i s t, mayStore i = false → exec i s = .next t → ∀ p, t.mem.look p = s.mem.look p) ∧
  (∀ i s t, (∃ g src a b cls ty, i = .st g src a b cls ty) ∨ (∃ g src a b cls, i = .vst g src a b cls) ∨
      (∃ g src a k v1 cls, i = .vstm g src a k v1 cls) ∨ (∃ g wd a b nr o cls ty, i = .aadd g wd a b nr o cls ty ∨
        i = .amin g wd a b nr o cls ty ∨ i = .amax g wd a b nr o cls ty ∨ i = .aswp g wd a b nr o cls ty ∨
        i = .aincb g wd a b nr o cls ty) ∨ (∃ g wd a b nr l o cls ty, i = .alog g wd a b nr l o cls ty) ∨
      (∃ g wd a b o cls ty, i = .acas g wd a b o cls ty) ∨ (∃ g wd a b cls, i = .asnap g wd a b cls) →
    s.Inv → exec i s = .next t →
    ∀ p, (∀ va n m, s.span i = some (va, n, m) → ∀ j, j < n → m.testBit j = true → p ≠ nearPhys s s.cur.loc (va + j)) →
      t.mem.look p = s.mem.look p)

/-- An operation that goes on, having completed, been void, stalled or trapped, leaves as it was every register of its sequencer
that is none of its destinations and that no result already on its way names, and puts none on its way to it; TVEC, REPLAY and
the task; the tiles, their counters, the Larder and the routine store of its core; every other sequencer but for the steps that
its grids know of their parties; every other core. This holds of every operation of S, V0, V1, X, L and W and most of C and Y
and M: not of those whose effect is to write system registers, tiles, maps, sync words, grids, tokens, contexts or other
sequencers. Predicates are registers here, so flags that a compare writes are covered; the sticky bits and COLLIDE of CONV
follow landings. (R8, R21, R22, R23, R26, R27, R29, R79) -/
def Obligations.RegisterFrames : Prop :=
  ∀ i s t, framed i = true → exec i s = .next t → Leaves (destsOf s.cur.slot i) s t
end

