-- ==== Sys2Proof/Laws/Issue.lean ====
section
/-! SUPPORT. What the issue of one operation answers: one lemma for each way an issue ends, and what the reads and deliveries that
acts are made of answer. -/

namespace Sys2Proof.Machine

set_option Elab.async false

/-! ### Acts -/

theorem Act.ends_eq {α : Type} {m : Act α} {s : State} {r : α × State} : Act.ends m s = some r ↔ m s = .ok r := by
  unfold Act.ends
  cases h : m s <;> simp

theorem Act.bind_ok {α β : Type} {m : Act α} {f : α → Act β} {s t : State} {x : α} (h : m s = .ok (x, t)) :
    (m >>= f) s = f x t := by
  show (m s >>= fun p => f p.1 p.2) = _
  rw [h]
  rfl

theorem Act.bind_error {α β : Type} {m : Act α} {f : α → Act β} {s : State} {e : Stop} (h : m s = .error e) :
    (m >>= f) s = .error e := by
  show (m s >>= fun p => f p.1 p.2) = _
  rw [h]
  rfl

@[simp] theorem Act.pure_run {α : Type} (x : α) (s : State) : (pure x : Act α) s = .ok (x, s) := rfl
@[simp] theorem Act.view_run {α : Type} (f : State → α) (s : State) : Act.view f s = .ok (f s, s) := rfl
@[simp] theorem Act.change_run (f : State → State) (s : State) : Act.change f s = .ok ((), f s) := rfl
@[simp] theorem Act.trap_run {α : Type} (c n : Nat) (s : State) : (Act.trap c n : Act α) s = .error (.trap c n) := rfl
theorem Act.check_ok {ok : Bool} (h : ok = true) (c n : Nat) (s : State) : Act.check ok c n s = .ok ((), s) := by
  simp [Act.check, h]
theorem Act.check_stop {ok : Bool} (h : ok = false) (c n : Nat) (s : State) : Act.check ok c n s = .error (.trap c n) := by
  simp [Act.check, h]
theorem Act.await_ok {p : State → Bool} {s : State} (h : p s = true) : Act.await p s = .ok ((), s) := by
  simp [Act.await, h]
theorem await_stall {p : State → Bool} {s : State} (h : p s = false) : Act.await p s = .error .stall := by
  unfold Act.await; simp only [h]; rfl

/-! ### Reads leave the state as it is -/

theorem readReg_pure {r : Reg} {s t : State} {v : Vec} (h : readReg r s = .ok (v, t)) : t = s := by
  unfold readReg readRegAs at h
  split at h
  · simp_all
  · split at h
    · simp_all
    · split at h
      · simp at h
      · split at h
        · simp at h
        · dsimp only at h
          split at h <;> simp_all

theorem readOp_run (o : Opnd) (s : State) : readOp o s =
    (match opndReg s.cur.slot o with
     | some r => (match readReg r s with | .ok (v, t) => .ok (v.toNat % 2 ^ 64, t) | .error e => .error e)
     | none => .ok (0, s)) := by
  unfold readOp
  rw [Act.bind_ok (Act.view_run _ s)]
  cases h : opndReg s.cur.slot o with
  | none => rfl
  | some r =>
    dsimp only
    cases h' : readReg r s with
    | ok p => exact Act.bind_ok h'
    | error e => exact Act.bind_error h'

theorem readOp_pure {o : Opnd} {s t : State} {n : Nat} (h : readOp o s = .ok (n, t)) : t = s ∧ n < 2 ^ 64 := by
  rw [readOp_run] at h
  split at h
  · split at h
    · rename_i h'
      simp only [Except.ok.injEq, Prod.mk.injEq] at h
      obtain ⟨rfl, rfl⟩ := h
      exact ⟨readReg_pure h', Nat.mod_lt _ (by decide)⟩
    · simp at h
  · simp only [Except.ok.injEq, Prod.mk.injEq] at h
    obtain ⟨rfl, rfl⟩ := h
    exact ⟨rfl, by decide⟩

/-- An operand's value is what `readOp` answers. -/
theorem State.opnd_ok {o : Opnd} {s : State} {x : Word} (h : s.opnd o = some x) : readOp o s = .ok (x.toNat, s) := by
  unfold State.opnd at h
  cases hr : Act.ends (readOp o) s with
  | none => simp [hr] at h
  | some p =>
    rw [hr] at h
    obtain ⟨n, t⟩ := p
    rw [Act.ends_eq] at hr
    obtain ⟨rfl, hn⟩ := readOp_pure hr
    simp only [Option.map_some, Option.some.injEq] at h
    subst h
    rw [hr, BitVec.toNat_ofNat, Nat.mod_eq_of_lt hn]

theorem State.regIn_ok {r : Reg} {s : State} {v : Vec} (h : s.regIn r = some v) : readReg r s = .ok (v, s) := by
  unfold State.regIn at h
  cases hr : Act.ends (readReg r) s with
  | none => simp [hr] at h
  | some p =>
    rw [hr] at h
    obtain ⟨n, t⟩ := p
    rw [Act.ends_eq] at hr
    have := readReg_pure hr
    simp_all

theorem guardHolds_run (g : Guard) (s : State) : guardHolds g s =
    (match readReg ⟨.p, g.pred.toNat⟩ s with | .ok (v, t) => .ok ((v != 0) != g.inv, t) | .error e => .error e) := by
  unfold guardHolds
  cases h : readReg ⟨.p, g.pred.toNat⟩ s with
  | ok p => exact Act.bind_ok h
  | error e => exact Act.bind_error h

theorem guardHolds_pure {g : Guard} {s t : State} {b : Bool} (h : guardHolds g s = .ok (b, t)) : t = s := by
  rw [guardHolds_run] at h
  split at h
  · rename_i h'
    simp only [Except.ok.injEq, Prod.mk.injEq] at h
    obtain ⟨rfl, rfl⟩ := h
    exact readReg_pure h'
  · simp at h

theorem State.predIn_ok {p : BitVec 4} {inv b : Bool} {s : State} (h : s.predIn p inv = some b) :
    guardHolds ⟨p, inv⟩ s = .ok (b, s) := by
  unfold State.predIn at h
  cases hr : Act.ends (guardHolds ⟨p, inv⟩) s with
  | none => simp [hr] at h
  | some q =>
    rw [hr] at h
    obtain ⟨n, t⟩ := q
    rw [Act.ends_eq] at hr
    have := guardHolds_pure hr
    simp_all

/-! ### The ways an issue ends -/

/-- An operation that may issue and whose act completes: the slot advances past it. -/
theorem issueFull_next {fin void : State → State} {i : Instr} {g : Guard} {act : Act Unit} {s t : State}
    (hm : mayIssue i g s = true) (ha : act s = .ok ((), t)) : issueFull fin void i g act s = fin t := by
  simp only [mayIssue, Bool.and_eq_true, Bool.not_eq_true'] at hm
  obtain ⟨⟨⟨⟨⟨h1, h2⟩, h3⟩, h4⟩, h5⟩, h6⟩ := hm
  have hg : guardHolds g s = .ok (true, s) := by
    have h4 : (Act.ends (guardHolds g) s).map (·.1) = some true := by simpa using h4
    exact State.predIn_ok (p := g.pred) (inv := g.inv) h4
  simp only [issueFull, h1, h2, h3, hg, h5, h6, ha, Bool.false_eq_true, if_false, Bool.not_true, Bool.or_self]

theorem issueFull_stop {fin void : State → State} {i : Instr} {g : Guard} {act : Act Unit} {s : State} {e : Stop}
    (hm : mayIssue i g s = true) (ha : act s = .error e) : issueFull fin void i g act s = stopHere s e := by
  simp only [mayIssue, Bool.and_eq_true, Bool.not_eq_true'] at hm
  obtain ⟨⟨⟨⟨⟨h1, h2⟩, h3⟩, h4⟩, h5⟩, h6⟩ := hm
  have hg : guardHolds g s = .ok (true, s) := by
    have h4 : (Act.ends (guardHolds g) s).map (·.1) = some true := by simpa using h4
    exact State.predIn_ok (p := g.pred) (inv := g.inv) h4
  simp only [issueFull, h1, h2, h3, hg, h5, h6, ha, Bool.false_eq_true, if_false, Bool.not_true, Bool.or_self]

/-- An operation that may issue and whose act completes: the slot advances past it. -/
theorem issue_next {i : Instr} {g : Guard} {act : Act Unit} {s t : State}
    (hm : mayIssue i g s = true) (ha : act s = .ok ((), t)) : issue i g act s = .next (advance t) :=
  congrArg _ (issueFull_next hm ha)

/-- An operation that may issue and whose act stops: it stalls or traps. -/
theorem issue_stop {i : Instr} {g : Guard} {act : Act Unit} {s : State} {e : Stop}
    (hm : mayIssue i g s = true) (ha : act s = .error e) : issue i g act s = .next (stopHere s e) := by
  simp only [mayIssue, Bool.and_eq_true, Bool.not_eq_true'] at hm
  obtain ⟨⟨⟨⟨⟨h1, h2⟩, h3⟩, h4⟩, h5⟩, h6⟩ := hm
  have hg : guardHolds g s = .ok (true, s) := by
    have h4 : (Act.ends (guardHolds g) s).map (·.1) = some true := by simpa using h4
    exact State.predIn_ok (p := g.pred) (inv := g.inv) h4
  simp only [issue, issueWith, issueFull, h1, h2, h3, hg, h5, h6, ha, Bool.false_eq_true, if_false, Bool.not_true, Bool.or_self]

/-- What an issue does at all: it passes the operation over, stalls on a ring, traps, or acts. -/
theorem issue_answers (i : Instr) (g : Guard) (act : Act Unit) (s : State) :
    ∃ t, issue i g act s = .next t := ⟨_, rfl⟩

/-! ### Deliveries -/

theorem writeMasked_run (r : Reg) (l : Nat) (v : Vec) (mask sticky : Nat) (s : State) :
    writeMasked r l v mask sticky s = .ok ((), s.send r l v mask sticky) := rfl

theorem writeReg_run (r : Reg) (l : Nat) (v : Vec) (s : State) :
    writeReg r l v s = .ok ((), s.send r l v allBytes 0) := rfl

theorem stickyAt_run (l st : Nat) (s : State) : stickyAt l st s = .ok ((), s.stick l st) := by
  unfold stickyAt State.stick
  split <;> rfl

theorem deliverMasked_run (i : Instr) (v : Vec) (mask sticky : Nat) (s : State) :
    deliverMasked i v mask sticky s = .ok ((), s.deliver i v mask sticky) := by
  unfold deliverMasked State.deliver
  rw [Act.bind_ok (Act.view_run _ s)]
  dsimp only [id]
  cases destsOf s.cur.slot i with
  | nil => exact stickyAt_run _ _ _
  | cons r l => exact writeMasked_run _ _ _ _ _ _

theorem deliver_run (i : Instr) (v : Vec) (s : State) : deliver i v s = .ok ((), s.deliver i v allBytes 0) :=
  deliverMasked_run i v allBytes 0 s

theorem deliverNat_run (i : Instr) (n : Nat) (s : State) :
    deliverNat i n s = .ok ((), s.wrote i (BitVec.ofNat 64 n)) := by
  unfold deliverNat State.wrote
  rw [deliver_run]
  congr 3
  apply BitVec.eq_of_toNat_eq
  simp only [BitVec.toNat_ofNat, BitVec.toNat_setWidth]

/-! ### Scalar operations -/

/-- A two-operand scalar operation that may issue delivers its function of what its operands read as. -/
theorem scalar2_next {i : Instr} {g : Guard} {a b : Opnd} {f : Nat → Nat → Nat} {s : State} {x y : Word}
    (hm : mayIssue i g s = true) (ha : s.opnd a = some x) (hb : s.opnd b = some y) :
    issue i g (scalar2 i a b f) s = .next (advance (s.wrote i (BitVec.ofNat 64 (f x.toNat y.toNat)))) := by
  apply issue_next hm
  unfold scalar2
  rw [Act.bind_ok (State.opnd_ok ha), Act.bind_ok (State.opnd_ok hb)]
  exact deliverNat_run _ _ _

/-- A one-operand scalar operation that may issue delivers its function of what its operand reads as. -/
theorem scalar1_next {i : Instr} {g : Guard} {a : Opnd} {f : Nat → Nat} {s : State} {x : Word}
    (hm : mayIssue i g s = true) (ha : s.opnd a = some x) :
    issue i g (scalar1 i a f) s = .next (advance (s.wrote i (BitVec.ofNat 64 (f x.toNat)))) := by
  apply issue_next hm
  unfold scalar1
  rw [Act.bind_ok (State.opnd_ok ha)]
  exact deliverNat_run _ _ _

end Sys2Proof.Machine
end

