-- ==== Sys2Proof/Laws/Acts.lean ====
section
/-! SUPPORT. What the acts that operations are made of answer where they complete: reads of memory, stores, translations, in-flight
entries, rings. -/

namespace Sys2Proof.Machine

set_option Elab.async false

theorem translateFor_ok {s t : State} {loc vd a : Nat} {w : Bool} {pa : Nat} (h : translateFor s loc vd a w = (.ok pa, t)) : t = s := by
  unfold translateFor at h
  split at h
  · rename_i e he
    by_cases c : (if w = true then e.w else e.r) = true
    · rw [if_pos c] at h; exact (congrArg Prod.snd h).symm
    · rw [if_neg c] at h; simp at h
  · dsimp only at h
    split at h
    · simp at h
    · split at h
      · split at h <;> simp_all
      · split at h <;> simp_all

theorem actHome_pure {va : Nat} {w r : Bool} {s t : State} {pa : Nat} (h : Act.home va w r s = .ok (pa, t)) : t = s := by
  unfold Act.home at h
  cases hx : Act.xlate va w s with
  | error e => rw [Act.bind_error hx] at h; simp at h
  | ok p =>
    obtain ⟨q, u⟩ := p
    have hu : u = s := by
      unfold Act.xlate at hx
      split at hx
      · rename_i hh; simp at hx; rw [← hx.2]; exact translateFor_ok hh
      · simp at hx
      · simp at hx
    subst hu
    rw [Act.bind_ok hx, Act.bind_ok (Act.view_run _ _)] at h
    unfold Act.check at h
    by_cases hc : (r || (physMod q == (id u).module && physDie q == dieOf (id u).cur.loc)) = true
    · have : ∀ k : Unit → Act Nat, ((fun s => if (r || (physMod q == (id u).module && physDie q == dieOf (id u).cur.loc)) = true then Except.ok ((), s) else Except.error (Stop.trap 17 va) : Act Unit) >>= k) u = k () u := fun k => Act.bind_ok (by simp only [hc, if_true])
      rw [this] at h
      simp at h; exact h.2.symm
    · have : ∀ k : Unit → Act Nat, ((fun s => if (r || (physMod q == (id u).module && physDie q == dieOf (id u).cur.loc)) = true then Except.ok ((), s) else Except.error (Stop.trap 17 va) : Act Unit) >>= k) u = .error (.trap 17 va) := fun k => Act.bind_error (by simp only [hc]; rfl)
      rw [this] at h; simp at h

theorem home_ok {va : Nat} {w r : Bool} {s : State} {pa : Nat} (h : s.home va w r = some pa) : Act.home va w r s = .ok (pa, s) := by
  unfold State.home at h
  cases hr : Act.ends (Act.home va w r) s with
  | none => simp [hr] at h
  | some p =>
    rw [hr] at h; obtain ⟨n, t⟩ := p
    rw [Act.ends_eq] at hr
    have := actHome_pure hr
    simp_all

theorem homesOf_pure {w : Bool} {ls : List (Nat × Nat × Nat)} {s t : State} {hs} (h : homesOf w ls s = .ok (hs, t)) : t = s := by
  induction ls generalizing hs t with
  | nil => simp [homesOf] at h; exact h.2.symm
  | cons l ls ih =>
    obtain ⟨a, off, n⟩ := l
    unfold homesOf at h
    cases hx : Act.home a w false s with
    | error e => rw [Act.bind_error hx] at h; simp at h
    | ok p =>
      obtain ⟨q, u⟩ := p
      have := actHome_pure hx; subst this
      rw [Act.bind_ok hx] at h
      cases hy : homesOf w ls u with
      | error e => rw [Act.bind_error hy] at h; simp at h
      | ok p =>
        obtain ⟨q2, u2⟩ := p
        rw [Act.bind_ok hy] at h
        have := ih hy; subst this
        simp at h; exact h.2.symm

theorem homes_ok {w : Bool} {ls : List (Nat × Nat × Nat)} {s : State} {hs} (h : s.homes w ls = some hs) : homesOf w ls s = .ok (hs, s) := by
  unfold State.homes at h
  cases hr : Act.ends (homesOf w ls) s with
  | none => simp [hr] at h
  | some p =>
    rw [hr] at h; obtain ⟨n, t⟩ := p
    rw [Act.ends_eq] at hr
    have := homesOf_pure hr
    simp_all

theorem openAccess_ok {s : State} {k : Nat} (e : Ifr) (reqs) (h : s.freeEntry = some k) : openAccess e reqs s = .ok (k, s.opened k e reqs) := by
  unfold openAccess
  dsimp only
  rw [show s.me.ifr.free Config.ifrEntries = some k from h]
  rfl

theorem awaitResult_ok (r : Reg) (l k : Nat) (p : Bool) (s : State) : awaitResult r l k p s = .ok ((), s.awaiting (some r) l k p) := rfl

theorem readNear_ok {s : State} {a n : Nat} (h : s.canRead a n = true) : readNear a n s = .ok (nearNat s s.cur.loc a n, s) := by
  unfold State.canRead at h
  simp only [Bool.and_eq_true, Option.isNone_iff_eq_none] at h
  unfold readNear
  rw [Act.bind_ok (Act.view_run _ _)]
  dsimp only [id]
  rw [Act.bind_ok (Act.check_ok h.1 _ _ _)]
  unfold readLocal
  rw [Act.bind_ok (Act.view_run _ _)]
  dsimp only [id]
  rw [h.2]; rfl

theorem writeNear_ok {s : State} {a : Nat} {bytes : List Byte} {mask n : Nat} (hn : bytes.length = n) (h : s.canWrite a n mask = true) :
    writeNear a bytes mask s = .ok ((), s.near a bytes mask) := by
  unfold writeNear
  rw [Act.bind_ok (Act.view_run _ _), hn]
  exact Act.bind_ok (Act.check_ok h _ _ _)

theorem toBytes_length (n x : Nat) : (toBytes n x).length = n := by
  induction n generalizing x with
  | zero => rfl
  | succ n ih => simp [toBytes, ih]

theorem accessAddr_ok {s : State} {a b : Opnd} {x y : Word} (ha : s.opnd a = some x) (hb : s.opnd b = some y) : accessAddr a b s = .ok ((x + y).toNat, s) := by
  unfold accessAddr
  rw [Act.bind_ok (State.opnd_ok ha), Act.bind_ok (State.opnd_ok hb), BitVec.toNat_add]
  rfl

theorem accessWindow_ok {s : State} {a n w : Nat} (h : windowOf a n = some w) : accessWindow a n s = .ok (w, s) := by
  unfold accessWindow; rw [h]; rfl

theorem actStore_near {s s1 : State} {va n mask x w : Nat} {cls : BitVec 4} {data : Act Nat} (h13 : w ≠ 13) (h1 : s.canWrite va n mask = true)
    (h2 : s1.canWrite va n mask = true) (hd : data s = .ok (x, s1)) : actStore va n mask w cls data s = .ok ((), s1.near va (toBytes n x) mask) := by
  unfold actStore
  rw [Act.bind_ok (Act.view_run _ _)]
  dsimp only [id]
  rw [if_neg h13]
  refine (Act.bind_ok (Act.check_ok h1 _ _ _)).trans ?_
  rw [Act.bind_ok hd]
  exact writeNear_ok (toBytes_length _ _) h2

theorem actStore_far {s s1 : State} {va n mask x k : Nat} {cls : BitVec 4} {data : Act Nat} {hs}
    (hh : s.homes true ((lineAccesses va n).filter (fun l => bitsAt mask l.2.1 l.2.2 != 0)) = some hs) (hf : s.freeEntry.isSome = true)
    (hk : s1.freeEntry = some k) (hd : data s = .ok (x, s1)) : actStore va n mask 13 cls data s = .ok ((), s1.opened k (s.writeEntry 2 cls va n)
      (hs.map (fun h => (h.1, h.2.1, h.2.2.1, .write (toBytes h.2.2.2 (x / 2 ^ (8 * h.2.2.1))) (bitsAt mask h.2.2.1 h.2.2.2))))) := by
  unfold actStore
  rw [Act.bind_ok (Act.view_run _ _)]
  dsimp only [id]
  rw [if_pos rfl, Act.bind_ok (homes_ok hh), Act.bind_ok (Act.await_ok hf), Act.bind_ok hd, Act.bind_ok (openAccess_ok _ _ hk)]
  rfl

theorem raw_ok {s s1 : State} {o : Opnd} {v : Vec} (h : s.raw o = some (v, s1)) : (do return (← readRaw o).toNat : Act Nat) s = .ok (v.toNat, s1) := by
  rw [Act.bind_ok (Act.ends_eq.1 h)]; rfl

theorem orderBefore_ok {s : State} {ord scope : Nat} (h : s.orderOpen ord scope = true) : orderBefore ord scope s = .ok ((), s) := Act.await_ok h

theorem readNat_ok {f : File} {i : Nat} {s : State} {v : Vec} (h : s.regIn ⟨f, i⟩ = some v) : readNat f i s = .ok (v.toNat, s) := by
  unfold readNat; rw [Act.bind_ok (State.regIn_ok h)]; rfl

theorem syncOperand_ok {a : BitVec 5} {s : State} {x : Vec} (h : s.regIn ⟨.y, a.toNat⟩ = some x) (h1 : bitsAt x.toNat 0 52 % 16 = 0) (h2 : bitsAt x.toNat 0 52 < 2 ^ 20) :
    syncOperand a.toNat s = .ok (bitsAt x.toNat 0 52, s) := by
  unfold syncOperand
  rw [Act.bind_ok (readNat_ok h)]
  exact Act.bind_ok (Act.check_ok (by rw [h1, decide_eq_true h2]; rfl) _ _ _)

theorem remoteAddr_ok {va n : Nat} (h : remoteOk va n) (s : State) : remoteAddr va n s = .ok ((), s) := by
  obtain ⟨h1, h2, h3⟩ := h
  exact Act.check_ok (by rw [decide_eq_true h1, decide_eq_true h2, decide_eq_true h3]; rfl) _ _ _

theorem remoteAddr_stop {va n : Nat} (h : ¬remoteOk va n) (s : State) : remoteAddr va n s = .error (.trap 0x11 va) := by
  refine Act.check_stop ?_ _ _ _
  rw [← Bool.not_eq_true]
  intro hc
  simp only [Bool.and_eq_true, decide_eq_true_eq] at hc
  exact h ⟨hc.1.1, hc.1.2, hc.2⟩

theorem token_ok {ca : Bool} {va : Nat} {s : State} (h : ca = true → s.holdsToken va = true) : (if ca then needToken va else pure () : Act Unit) s = .ok ((), s) := by
  cases ca with
  | false => rfl
  | true =>
    rw [if_pos rfl]
    unfold needToken
    rw [Act.bind_ok (Act.view_run _ _)]
    exact Act.check_ok (h rfl) _ _ _

theorem token_stop {ca : Bool} {va : Nat} {s : State} (hc : ca = true) (h : s.holdsToken va = false) : (if ca then needToken va else pure () : Act Unit) s = .error (.trap 0x12 va) := by
  rw [if_pos hc]
  unfold needToken
  rw [Act.bind_ok (Act.view_run _ _)]
  exact Act.check_stop h _ _ _

theorem regionOperand_ok {e : BitVec 5} {s : State} {x : Vec} (h : s.regIn ⟨.e, e.toNat⟩ = some x) (h1 : remoteOk x.toNat (2 ^ 21)) (h2 : regionWhole s s.myVd x.toNat = true) :
    regionOperand e s = .ok (x.toNat, s) := by
  unfold regionOperand
  rw [Act.bind_ok (readNat_ok h)]
  obtain ⟨g1, g2, g3⟩ := h1
  rw [Act.bind_ok (Act.check_ok (by rw [decide_eq_true g1, decide_eq_true g2, decide_eq_true g3]; rfl) _ _ _), Act.bind_ok (Act.view_run _ _)]
  dsimp only [id]
  rw [Act.bind_ok (Act.check_ok h2 _ _ _)]
  rfl

theorem anyRing_ok {q : Nat} {s : State} {r : Ring} (h1 : s.me.rings.find q = some r) (h2 : ringBusy s.me q = false) : Act.anyRing q s = .ok (r, s) := by
  unfold Act.anyRing
  rw [h1]
  dsimp only
  rw [if_neg (by simp [h2])]

theorem localBlock_ok {s : State} {a : Nat} (h : s.blockOk a 64 64) : localBlock a s = .ok (nearNat s s.cur.loc a 64, s) := by
  obtain ⟨h1, h2, h3⟩ := h
  unfold localBlock
  rw [Act.bind_ok (Act.check_ok (by rw [decide_eq_true h1, decide_eq_true h2]; rfl) _ _ _)]
  unfold readLocal
  rw [Act.bind_ok (Act.view_run _ _)]
  dsimp only [id]
  rw [h3]; rfl

theorem fillWait_ok {q n : Nat} {r : Ring} (h1 : n ≤ r.entries.length) (h2 : ∀ b, r.streamBits = some b → r.moved - r.entries.length + n ≤ b / 512) (s : State) :
    fillWait q n r s = .ok ((), s) := by
  unfold fillWait
  rw [Act.bind_ok (Act.check_ok _ _ _ _)]
  · rw [if_pos h1]; rfl
  · cases hb : r.streamBits with
    | none => rfl
    | some b => simpa using h2 b hb

/-! ### Acts that leave the state as it is -/

/-- An act that completes leaves the state as it found it. -/
def Act.Pure {α : Type} (m : Act α) : Prop := ∀ s n t, m s = .ok (n, t) → t = s

theorem Act.Pure.bind {α β : Type} {m : Act α} {f : α → Act β} (h1 : m.Pure) (h2 : ∀ x, (f x).Pure) : (m >>= f).Pure := by
  intro s n t h
  cases hm : m s with
  | error e => rw [Act.bind_error hm] at h; simp at h
  | ok p =>
    obtain ⟨x, u⟩ := p
    rw [Act.bind_ok hm] at h
    have e1 := h1 _ _ _ hm
    have e2 := h2 x _ _ _ h
    rw [e2, e1]

theorem Act.Pure.ret {α : Type} (x : α) : (pure x : Act α).Pure := by
  intro s n t h
  simp only [Act.pure_run, Except.ok.injEq, Prod.mk.injEq] at h
  exact h.2.symm

theorem Act.Pure.view {α : Type} (f : State → α) : (Act.view f).Pure := by
  intro s n t h
  simp only [Act.view_run, Except.ok.injEq, Prod.mk.injEq] at h
  exact h.2.symm

theorem Act.Pure.check (b : Bool) (c n : Nat) : (Act.check b c n).Pure := by
  intro s x t h
  unfold Act.check at h
  split at h
  · simp only [Except.ok.injEq, Prod.mk.injEq] at h
    exact h.2.symm
  · simp at h

theorem Act.Pure.await (f : State → Bool) : (Act.await f).Pure := by
  intro s x t h
  unfold Act.await at h
  split at h
  · simp only [Except.ok.injEq, Prod.mk.injEq] at h
    exact h.2.symm
  · simp at h

theorem Act.Pure.trap {α : Type} (c n : Nat) : (Act.trap c n : Act α).Pure := by
  intro s x t h
  simp at h

theorem Act.Pure.readReg (r : Reg) : (Sys2Proof.Machine.readReg r).Pure := fun _ _ _ h => readReg_pure h

theorem Act.Pure.readNat (f : File) (i : Nat) : (Sys2Proof.Machine.readNat f i).Pure := by
  unfold Sys2Proof.Machine.readNat
  exact Act.Pure.bind (Act.Pure.readReg _) fun _ => Act.Pure.ret _

theorem Act.Pure.readOp (o : Opnd) : (Sys2Proof.Machine.readOp o).Pure := fun _ _ _ h => (readOp_pure h).1

/-- Where such an act completes, it completes with its answer and the same state. -/
theorem Act.Pure.ok {α : Type} {m : Act α} (hp : m.Pure) {s : State} {n : α} (h : (Act.ends m s).map (·.1) = some n) : m s = .ok (n, s) := by
  cases hr : Act.ends m s with
  | none => simp [hr] at h
  | some p =>
    rw [hr] at h
    obtain ⟨x, t⟩ := p
    rw [Act.ends_eq] at hr
    have := hp _ _ _ hr
    simp_all

theorem readLocal_pure (a n : Nat) : (readLocal a n).Pure := by
  unfold readLocal
  refine Act.Pure.bind (Act.Pure.view _) fun s => ?_
  split
  · exact Act.Pure.trap _ _
  · exact Act.Pure.ret _

/-- A latched read leaves the state as it was. -/
theorem latched_pure {rd : Act Nat} (h : rd.Pure) : (latched rd).Pure := by
  intro s n t hs
  unfold latched at hs
  split at hs
  · split at hs
    · cases hs; rfl
    · exact h _ _ _ hs
  · exact h _ _ _ hs

/-- At its first attempt a latched operand is read. -/
theorem latched_fresh {rd : Act Nat} {s : State} (h : waitBegun s = false) : latched rd s = rd s := by
  unfold latched
  unfold waitBegun at h
  split
  · rename_i x b v hl
    rw [hl] at h
    exact if_neg (of_decide_eq_false h)
  · rfl

/-- Once its wait has begun an operation finds its operand latched. -/
theorem latched_begun {rd : Act Nat} {s : State} {v : Nat} (h : s.me.latch = some (s.cur.slot.num, s.here, v)) :
    latched rd s = .ok (v, s) := by
  unfold latched
  rw [h]
  exact if_pos ⟨rfl, rfl⟩

/-- An operation with its operand latched has begun to wait. -/
theorem waitBegun_latched {s : State} {v : Nat} (h : s.me.latch = some (s.cur.slot.num, s.here, v)) : waitBegun s = true := by
  unfold waitBegun
  rw [h]
  exact decide_eq_true ⟨rfl, rfl⟩

/-- What State.firstRead answers is what the first attempt reads (R276). -/
theorem State.firstRead_ok {s : State} {f : File} {i x : Nat} (h : s.firstRead ⟨f, i⟩ = some x) :
    latched (Sys2Proof.Machine.readNat f i) s = .ok (x, s) := by
  unfold State.firstRead at h
  cases hr : Act.ends (latched (Sys2Proof.Machine.readNat f i)) s with
  | none => rw [hr] at h; cases h
  | some p =>
    rw [hr] at h
    obtain ⟨y, t⟩ := p
    have hp := latched_pure (Act.Pure.readNat f i) _ _ _ (Act.ends_eq.1 hr)
    cases h
    rw [Act.ends_eq.1 hr, hp]

theorem localBlock_pure (a : Nat) : (localBlock a).Pure := by
  unfold localBlock
  exact Act.Pure.bind (Act.Pure.check _ _ _) fun _ => readLocal_pure _ _

theorem readTransfer_pure (a : Nat) : (readTransfer a).Pure := by
  unfold readTransfer
  exact Act.Pure.bind (localBlock_pure _) fun _ => Act.Pure.bind (Act.Pure.check _ _ _) fun _ => Act.Pure.ret _

theorem ownEndpoint_pure (k n : Nat) : (ownEndpoint k n).Pure := by
  unfold ownEndpoint
  exact Act.Pure.bind (Act.Pure.view _) fun _ => Act.Pure.bind (Act.Pure.check _ _ _) fun _ =>
    Act.Pure.bind (Act.Pure.check _ _ _) fun _ => Act.Pure.ret _

theorem handleSlot_pure (h : Nat) : (handleSlot h).Pure := by
  unfold handleSlot
  exact Act.Pure.bind (Act.Pure.check _ _ _) fun _ => Act.Pure.bind (ownEndpoint_pure _ _) fun _ =>
    Act.Pure.bind (Act.Pure.check _ _ _) fun _ => Act.Pure.ret _

theorem readMap_pure (a : Nat) : (readMap a).Pure := by
  unfold readMap
  exact Act.Pure.bind (localBlock_pure _) fun _ => Act.Pure.ret _

theorem freeEntry_ok {s : State} {k : Nat} (h : s.freeEntry = some k) : freeEntry s = .ok (k, s) := by
  unfold freeEntry
  rw [show s.me.ifr.free Config.ifrEntries = some k from h]

/-! ### Barriers, `spawn`, supervisor targets, commands -/

theorem arriveAt_stop {sc id n : Nat} {s : State} (h : s.misused sc id n = true) : arriveAt sc id n s = .error (.trap 0x41 0) := by
  unfold arriveAt
  rw [Act.bind_ok (Act.view_run _ _)]
  refine Act.bind_error (Act.check_stop ?_ _ _ _)
  rw [Bool.not_eq_false']
  exact h

theorem arriveAt_wait {sc id n : Nat} {s : State} (h : s.misused sc id n = false) (hw : fenceWaits s s.cur.loc .Y sc 0xFFFF = true) :
    arriveAt sc id n s = .error .stall := by
  unfold arriveAt
  rw [Act.bind_ok (Act.view_run _ _)]
  refine (Act.bind_ok (Act.check_ok ?_ _ _ _)).trans ?_
  · rw [Bool.not_eq_true']; exact h
  exact Act.bind_error (await_stall (by rw [hw]; rfl))

theorem arriveAt_ok {sc id n : Nat} {s t : State} (h : s.misused sc id n = false) (hw : fenceWaits s s.cur.loc .Y sc 0xFFFF = false)
    (ht : s.arrived sc id n = some t) : arriveAt sc id n s = .ok (s.arrivesIn sc id, t) := by
  unfold arriveAt
  rw [Act.bind_ok (Act.view_run _ _)]
  refine (Act.bind_ok (Act.check_ok ?_ _ _ _)).trans ?_
  · rw [Bool.not_eq_true']; exact h
  refine (Act.bind_ok (Act.await_ok (by rw [hw]; rfl))).trans ?_
  unfold State.arrived at ht
  by_cases hs : sc < 3
  · rw [if_pos hs] at ht ⊢
    rw [← Option.some.inj ht]; rfl
  · rw [if_neg hs] at ht ⊢
    cases hk : s.freeEntry with
    | none => rw [hk] at ht; cases ht
    | some k =>
      rw [hk] at ht
      rw [← Option.some.inj ht]
      rw [Act.bind_ok (freeEntry_ok hk)]; rfl

theorem waitFlip_ok {sc id ph : Nat} {s : State} (h : s.flipped sc id ph) (hw : fenceWaits s s.cur.loc .Y sc 0xFFFF = false) : waitFlip sc id ph s = .ok ((), s) := by
  unfold waitFlip
  obtain ⟨h1, h2⟩ := h
  rw [Act.bind_ok (Act.await_ok _)]
  · exact Act.await_ok (by rw [hw]; rfl)
  · show (decide _ && decide _) = true
    rw [decide_eq_true h1, decide_eq_true h2]; rfl

theorem waitFlip_stop {sc id ph : Nat} {s : State} (h : ¬(s.flipped sc id ph ∧ fenceWaits s s.cur.loc .Y sc 0xFFFF = false)) : waitFlip sc id ph s = .error .stall := by
  unfold waitFlip
  by_cases h1 : s.flipped sc id ph
  · have hw : fenceWaits s s.cur.loc .Y sc 0xFFFF = true := by
      cases hc : fenceWaits s s.cur.loc .Y sc 0xFFFF with
      | true => rfl
      | false => exact absurd ⟨h1, hc⟩ h
    obtain ⟨g1, g2⟩ := h1
    rw [Act.bind_ok (Act.await_ok _)]
    · exact await_stall (by rw [hw]; rfl)
    · show (decide _ && decide _) = true
      rw [decide_eq_true g1, decide_eq_true g2]; rfl
  · refine Act.bind_error (await_stall ?_)
    show (decide _ && decide _) = false
    rw [← Bool.not_eq_true, Bool.and_eq_true, decide_eq_true_iff, decide_eq_true_iff]
    exact h1

theorem readPassed_pure (l : List Nat) : (readPassed l).Pure := by
  induction l with
  | nil => exact Act.Pure.ret _
  | cons i r ih => exact Act.Pure.bind (Act.Pure.readReg _) fun _ => Act.Pure.bind ih fun _ => Act.Pure.ret _

theorem spawnTarget_ok {y : Nat} {s : State} (h : s.spawnable y) : spawnTarget y s = .ok (64 * dieOf s.cur.loc + y % 64, s) := by
  obtain ⟨h1, l, h2, h3⟩ := h
  unfold spawnTarget
  rw [Act.bind_ok (Act.view_run _ _)]
  dsimp only [id]
  refine (Act.bind_ok (Act.check_ok ?_ _ _ _)).trans rfl
  rw [h2, Nat.mod_eq_of_lt h1, decide_eq_true h1]
  exact h3

theorem spawnTarget_stop {y : Nat} {s : State} (h : ¬s.spawnable y) : spawnTarget y s = .error (.trap 0x11 0) := by
  unfold spawnTarget
  rw [Act.bind_ok (Act.view_run _ _)]
  dsimp only [id]
  refine Act.bind_error (Act.check_stop ?_ _ _ _)
  rw [← Bool.not_eq_true, Bool.and_eq_true, decide_eq_true_iff]
  rintro ⟨h1, h2⟩
  apply h
  cases hl : launchOf s s.cur.loc with
  | none => rw [hl] at h2; cases h2
  | some l => rw [hl, Nat.mod_eq_of_lt h1] at h2; exact ⟨h1, l, hl, h2⟩

theorem supervisorTarget_ok {t : BitVec 4} {s : State} {y : Vec} (hy : s.regIn ⟨.y, t.toNat⟩ = some y) (h1 : y.toNat < 512) (h2 : y.toNat ≠ s.cur.loc) :
    supervisorTarget t s = .ok (y.toNat, s) := by
  unfold supervisorTarget
  rw [Act.bind_ok (readNat_ok hy), Act.bind_ok (Act.view_run _ _)]
  refine (Act.bind_ok (Act.check_ok ?_ _ _ _)).trans rfl
  rw [decide_eq_true h1]; simp [h2]

theorem supervisorTarget_stop {t : BitVec 4} {s : State} {y : Vec} (hy : s.regIn ⟨.y, t.toNat⟩ = some y) (h : ¬(y.toNat < 512 ∧ y.toNat ≠ s.cur.loc)) :
    supervisorTarget t s = .error (.trap 0x11 0) := by
  unfold supervisorTarget
  rw [Act.bind_ok (readNat_ok hy), Act.bind_ok (Act.view_run _ _)]
  refine Act.bind_error (Act.check_stop ?_ _ _ _)
  rw [← Bool.not_eq_true, Bool.and_eq_true, decide_eq_true_iff, bne_iff_ne]
  exact h

theorem command_ok {s : State} {d slot op : Nat} (h : s.commandReady d slot op) (h0 : op ≠ 0) (h1 : op ≤ 10) (body) :
    command s d slot op body = match body (s.arg d slot) (s.taken d) with
      | (t, some st) => setStatus t d slot st
      | (t, none) => t := by
  obtain ⟨a1, a2, a3⟩ := h
  unfold command
  dsimp only
  rw [if_neg (fun h => h a1), if_neg (fun h => h a2), if_neg (by omega), if_neg (fun h => h a3)]
  rfl

end Sys2Proof.Machine
end

