-- ==== Sys2Proof/Laws/Words.lean ====
section
/-! SUPPORT. Word arithmetic: what sign extension, wrapping, shifts, bit fields, lanes and masks are as operations on bit vectors. -/

namespace Sys2Proof.Machine

set_option Elab.async false
set_option linter.unusedSimpArgs false
set_option linter.unusedVariables false

theorem sext64 (x : Word) : sext 64 x.toNat = x.toInt := by
  unfold sext
  rw [BitVec.toInt_eq_toNat_cond]
  have := x.isLt
  simp only [Nat.mod_eq_of_lt this]
  split <;> split <;> omega

theorem wrap64 (z : Int) : BitVec.ofNat 64 (wrap 64 z) = BitVec.ofInt 64 z := by
  unfold wrap
  apply BitVec.eq_of_toNat_eq
  simp only [BitVec.toNat_ofNat, BitVec.toNat_ofInt]
  omega

theorem shr64 (x : Word) (n : Nat) : BitVec.ofNat 64 (x.toNat / 2 ^ n) = x >>> n := by
  apply BitVec.eq_of_toNat_eq
  simp only [BitVec.toNat_ofNat, BitVec.toNat_ushiftRight, Nat.shiftRight_eq_div_pow]
  exact Nat.mod_eq_of_lt (Nat.lt_of_le_of_lt (Nat.div_le_self _ _) x.isLt)

theorem shl64 (x : Word) (n : Nat) : BitVec.ofNat 64 (x.toNat * 2 ^ n) = x <<< n := by
  apply BitVec.eq_of_toNat_eq
  simp only [BitVec.toNat_ofNat, BitVec.toNat_shiftLeft, Nat.shiftLeft_eq]

theorem sra64 (x : Word) (n : Nat) : BitVec.ofNat 64 (shiftArith x.toNat n) = x.sshiftRight n := by
  unfold shiftArith
  rw [sext64, wrap64]
  apply BitVec.eq_of_toInt_eq
  rw [BitVec.toInt_ofInt, BitVec.toInt_sshiftRight, Int.shiftRight_eq_div_pow]
  have h1 := BitVec.toInt_lt (x := x)
  have h2 := BitVec.le_toInt (x := x)
  have h3 : (0:Int) < 2 ^ n := by positivity
  have h4 : x.toInt / 2 ^ n ≤ max x.toInt 0 := by
    rcases le_or_gt 0 x.toInt with h | h
    · exact (Int.ediv_le_self _ h).trans (le_max_left _ _)
    · exact (Int.ediv_neg_of_neg_of_pos h h3).le.trans (le_max_right _ _)
  have h5 : min x.toInt 0 ≤ x.toInt / 2 ^ n := by
    rcases le_or_gt 0 x.toInt with h | h
    · exact (min_le_right _ _).trans (Int.ediv_nonneg h h3.le)
    · refine (min_le_left _ _).trans ?_
      rw [Int.le_ediv_iff_mul_le h3]
      nlinarith [show (1:Int) ≤ 2 ^ n from h3]
  simp only [Nat.add_one_sub_one] at *
  push_cast
  rw [Int.bmod_eq_of_le] <;> omega

theorem andW (x y : Word) : BitVec.ofNat 64 (Nat.land x.toNat y.toNat) = x &&& y := by
  apply BitVec.eq_of_toNat_eq
  simp only [BitVec.toNat_ofNat, BitVec.toNat_and]
  exact Nat.mod_eq_of_lt (Nat.and_lt_two_pow _ y.isLt)

theorem orW (x y : Word) : BitVec.ofNat 64 (Nat.lor x.toNat y.toNat) = x ||| y := by
  apply BitVec.eq_of_toNat_eq
  simp only [BitVec.toNat_ofNat, BitVec.toNat_or]
  exact Nat.mod_eq_of_lt (Nat.or_lt_two_pow x.isLt y.isLt)

theorem xorW (x y : Word) : BitVec.ofNat 64 (Nat.xor x.toNat y.toNat) = x ^^^ y := by
  apply BitVec.eq_of_toNat_eq
  simp only [BitVec.toNat_ofNat, BitVec.toNat_xor]
  exact Nat.mod_eq_of_lt (Nat.xor_lt_two_pow x.isLt y.isLt)

theorem catW (x y : Word) : (x ++ y).toNat = x.toNat * 2 ^ 64 + y.toNat := by
  rw [BitVec.toNat_append, Nat.shiftLeft_eq, Nat.mul_comm, ← Nat.two_pow_add_eq_or_of_lt y.isLt]

theorem immW (k : BitVec 23) : immPattern k = (k.signExtend 64).toNat := by
  unfold immPattern
  have : sext 23 k.toNat = k.toInt := by
    unfold sext
    rw [BitVec.toInt_eq_toNat_cond]
    have := k.isLt
    simp only [Nat.mod_eq_of_lt this]
    split <;> split <;> omega
  rw [this, ← BitVec.toInt_signExtend_of_le (v := 64) (x := k) (by decide)]
  have h := congrArg BitVec.toNat (wrap64 (k.signExtend 64).toInt)
  rw [BitVec.ofInt_toInt, BitVec.toNat_ofNat] at h
  rw [← h, Nat.mod_eq_of_lt]
  unfold wrap
  omega

theorem log2_eq_of {x n : Nat} (h1 : 2 ^ n ≤ x) (h2 : x < 2 ^ (n + 1)) : x.log2 = n := by
  have hx : x ≠ 0 := by have := Nat.two_pow_pos n; omega
  apply Nat.le_antisymm
  · have := (Nat.log2_lt hx (k := n + 1)).2 h2; omega
  · exact (Nat.le_log2 hx).2 h1

theorem lz (n x : Nat) (hx : x < 2 ^ n) : leadingZeros n x = if x = 0 then n else n - 1 - x.log2 := by
  induction n with
  | zero =>
    have : x = 0 := by omega
    subst this; rfl
  | succ n ih =>
    unfold leadingZeros bitList at *
    rw [List.range_succ, List.map_append, List.reverse_append, List.map_singleton, List.reverse_singleton, List.singleton_append]
    rw [List.takeWhile_cons]
    by_cases hb : x.testBit n
    · have h1 : 2 ^ n ≤ x := Nat.ge_two_pow_of_testBit hb
      have : x ≠ 0 := by have := Nat.two_pow_pos n; omega
      simp only [hb, Bool.not_true, if_false, List.length_nil, if_neg this, Bool.false_eq_true]
      rw [log2_eq_of h1 hx]; omega
    · have hlt : x < 2 ^ n := Nat.lt_pow_two_of_testBit _ (fun i hi => by
        rcases Nat.lt_or_ge n i with h | h
        · exact Nat.testBit_lt_two_pow (Nat.lt_of_lt_of_le hx (Nat.pow_le_pow_right (by decide) h))
        · have : i = n := by omega
          subst this; simpa using hb)
      have := ih hlt
      simp only [Bool.not_eq_true] at hb
      simp only [hb, Bool.not_false, if_true, List.length_cons, this]
      split
      · rfl
      · rename_i h0
        have := (Nat.log2_lt h0).2 hlt
        omega

theorem takeWhile_len (p : Nat → Bool) (n m : Nat) (hm : m ≤ n) (h1 : ∀ i < m, p i = false) (h2 : m < n → p m = true) :
    (((List.range n).map p).takeWhile (fun b => !b)).length = m := by
  induction n generalizing m p with
  | zero => simp at hm; subst hm; rfl
  | succ n ih =>
    rw [List.range_succ_eq_map, List.map_cons, List.map_map, List.takeWhile_cons]
    cases m with
    | zero => rw [h2 (by omega)]; rfl
    | succ m =>
      rw [h1 0 (by omega)]
      simp only [Bool.not_false, if_true, List.length_cons]
      congr 1
      exact ih (p ∘ Nat.succ) m (by omega) (fun i hi => h1 _ (by omega)) (fun h => h2 (by omega))

theorem tz (x : Word) (h0 : x ≠ 0) : trailingZeros 64 x.toNat = (x &&& -x).toNat.log2 := by
  -- the lowest set bit
  have hx : ∃ n, x.toNat.testBit n = true := by
    by_contra h
    push_neg at h
    apply h0
    apply BitVec.eq_of_toNat_eq
    apply Nat.eq_of_testBit_eq
    intro i
    simpa using h i
  obtain ⟨m, hm, hlt⟩ : ∃ m, x.toNat.testBit m = true ∧ ∀ i < m, x.toNat.testBit i = false := by
    refine ⟨Nat.find hx, Nat.find_spec hx, fun i hi => ?_⟩
    have := Nat.find_min hx hi
    simpa using this
  have hm64 : m < 64 := by
    by_contra h
    rw [Nat.testBit_lt_two_pow (Nat.lt_of_lt_of_le x.isLt (Nat.pow_le_pow_right (by decide) (by omega)))] at hm
    simp at hm
  have hl : trailingZeros 64 x.toNat = m := by
    unfold trailingZeros bitList
    exact takeWhile_len _ _ _ (by omega) hlt (fun _ => hm)
  have h2 : (x &&& -x).toNat = 2 ^ m := by
    apply Nat.eq_of_testBit_eq
    intro i
    rw [← BitVec.getLsbD, BitVec.getLsbD_and, BitVec.getLsbD_neg, Nat.testBit_two_pow]
    simp only [BitVec.getLsbD] at *
    by_cases him : i < m
    · simp [hlt i him, show m ≠ i by omega]
    · by_cases e : i = m
      · subst e
        have : ¬ ∃ j, j < i ∧ x.toNat.testBit j = true := by
          rintro ⟨j, hj, h⟩; rw [hlt j hj] at h; simp at h
        simp [hm, this]
      · by_cases h64 : i < 64
        · have : ∃ j, j < i ∧ x.toNat.testBit j = true := ⟨m, by omega, hm⟩
          simp [this, h64, show m ≠ i by omega]
        · have : x.toNat.testBit i = false := Nat.testBit_lt_two_pow (Nat.lt_of_lt_of_le x.isLt (Nat.pow_le_pow_right (by decide) (by omega)))
          simp [this, show m ≠ i by omega]
  rw [hl, h2, Nat.log2_two_pow]

theorem condW (cc : BitVec 4) (x y : Word) : condition 64 cc.toNat x.toNat y.toNat = holdsCc cc x y := by
  unfold condition holdsCc
  simp only [sext64]
  have hcc : cc.toNat < 16 := cc.isLt
  generalize cc.toNat = n at hcc
  have e1 : (x.toNat == y.toNat) = (x == y) := by
    rw [Bool.eq_iff_iff]; simp [BitVec.toNat_eq]
  have e2 : (Nat.land x.toNat y.toNat == 0) = ((x &&& y) == 0) := by
    rw [Bool.eq_iff_iff]; simp only [beq_iff_eq]; rw [BitVec.toNat_eq]; rfl
  interval_cases n <;> simp only [BitVec.slt, BitVec.sle, BitVec.ult, BitVec.ule, e1, bne, e2]

theorem bitW (b : Bool) : BitVec.ofNat 64 (bit b) = if b then 1 else 0 := by cases b <;> rfl

theorem imm_int (k : BitVec 23) : sext 23 k.toNat = k.toInt := by
  unfold sext
  rw [BitVec.toInt_eq_toNat_cond]
  have := k.isLt
  simp only [Nat.mod_eq_of_lt this]
  split <;> split <;> omega

theorem maskW (x : Word) : BitVec.ofNat 64 (bitsAt x.toNat 6 46 * 64) = x &&& 0xFFFFFFFFFFFC0#64 := by
  apply BitVec.eq_of_toNat_eq
  rw [BitVec.toNat_ofNat, BitVec.toNat_and]
  apply Nat.eq_of_testBit_eq
  intro i
  rw [bitsAt]
  have e : x.toNat / 2 ^ 6 % 2 ^ 46 * 64 = x.toNat / 2 ^ 6 % 2 ^ 46 * 2 ^ 6 := rfl
  rw [e, Nat.testBit_mod_two_pow, Nat.testBit_mul_two_pow, Nat.testBit_mod_two_pow, Nat.testBit_div_two_pow, Nat.testBit_and]
  have c : (0xFFFFFFFFFFFC0#64).toNat.testBit i = (decide (6 ≤ i) && decide (i < 52)) := by
    have : (0xFFFFFFFFFFFC0#64).toNat = (2 ^ 46 - 1) * 2 ^ 6 := rfl
    rw [this, Nat.testBit_mul_two_pow, Nat.testBit_two_pow_sub_one, Bool.eq_iff_iff]
    simp; omega
  rw [c]
  by_cases h6 : 6 ≤ i
  · rw [Nat.sub_add_cancel h6] at *
    by_cases h52 : i < 52
    · simp [h6, h52, show i - 6 < 46 by omega, show i < 64 by omega]
    · simp [h52, show ¬ i - 6 < 46 by omega]
  · simp [h6]

theorem lowW (x : Word) : BitVec.ofNat 64 (x.toNat % 2 ^ 32) = x &&& 0xFFFFFFFF#64 := by
  apply BitVec.eq_of_toNat_eq
  rw [BitVec.toNat_ofNat, BitVec.toNat_and]
  have : (0xFFFFFFFF#64).toNat = 2 ^ 32 - 1 := rfl
  rw [this, Nat.and_two_pow_sub_one_eq_mod]
  omega

theorem convW (x : Word) : BitVec.ofNat 64 (convWritten x.toNat) =
    (if x.extractLsb' 32 32 = 0#32 then 1#32 else x.extractLsb' 32 32) ++ (x.extractLsb' 0 32 &&& 0xF0F#32) := by
  have e1 : (x.extractLsb' 32 32).toNat = x.toNat / 2 ^ 32 := by
    have := x.isLt
    simp only [BitVec.extractLsb'_toNat, Nat.shiftRight_eq_div_pow]
    omega
  have e2 : (x.extractLsb' 0 32).toNat = x.toNat % 2 ^ 32 := by simp
  apply BitVec.eq_of_toNat_eq
  rw [BitVec.toNat_append, Nat.shiftLeft_eq, Nat.mul_comm, ← Nat.two_pow_add_eq_or_of_lt (BitVec.isLt _)]
  rw [BitVec.toNat_and, e2]
  unfold convWritten
  have hx := x.isLt
  have hl : Nat.land (x.toNat % 2 ^ 32) 0xF0F < 2 ^ 32 := Nat.lt_of_le_of_lt Nat.and_le_right (by norm_num)
  have e3 : (0xF0F#32).toNat = 0xF0F := rfl
  rw [e3]
  change _ = 2 ^ 32 * _ + Nat.land (x.toNat % 2 ^ 32) 0xF0F
  rw [BitVec.toNat_ofNat]
  have hc : (x.extractLsb' 32 32 = 0#32) ↔ x.toNat / 2 ^ 32 = 0 := by
    rw [← e1]; constructor
    · intro h; rw [h]; rfl
    · intro h; exact BitVec.eq_of_toNat_eq (by simpa using h)
  generalize Nat.land (x.toNat % 2 ^ 32) 0xF0F = z at *
  by_cases h : x.toNat / 2 ^ 32 = 0
  · rw [if_pos h, if_pos (hc.2 h)]
    have : (1#32).toNat = 1 := rfl
    rw [this]; omega
  · rw [if_neg h, if_neg (fun h' => h (hc.1 h')), e1]; omega

theorem spreadW (x : Word) : BitVec.ofNat 512 (ofLanes 64 (List.replicate 8 x.toNat)) = x ++ x ++ x ++ x ++ x ++ x ++ x ++ x := by
  have hx := x.isLt
  have app : ∀ (n : Nat) (y : BitVec n), (y ++ x).toNat = x.toNat + 2 ^ 64 * y.toNat := by
    intro n y
    rw [BitVec.toNat_append, Nat.shiftLeft_eq, Nat.mul_comm, ← Nat.two_pow_add_eq_or_of_lt hx, Nat.add_comm]
  apply BitVec.eq_of_toNat_eq
  have e : (x ++ x ++ x ++ x ++ x ++ x ++ x ++ x).toNat = ofLanes 64 (List.replicate 8 x.toNat) := by
    simp only [app, List.replicate, ofLanes, Nat.mod_eq_of_lt hx]
    ring
  have hl := (x ++ x ++ x ++ x ++ x ++ x ++ x ++ x).isLt
  rw [BitVec.toNat_ofNat, ← e]
  exact Nat.mod_eq_of_lt hl

theorem laneB_eq (w : Nat) (v : Vec) (j : Nat) : lane v j w = (laneB w v j).toNat := by
  simp [lane, laneB, bitsAt, Nat.shiftRight_eq_div_pow]

theorem width_pos (t : Fmt) : 0 < t.width := by cases t <;> decide

theorem sextN (w : Nat) (hw : 0 < w) (x : BitVec w) : sext w x.toNat = x.toInt := by
  unfold sext
  rw [BitVec.toInt_eq_toNat_cond]
  have hx := x.isLt
  obtain ⟨n, rfl⟩ : ∃ n, w = n + 1 := ⟨w - 1, by omega⟩
  simp only [Nat.mod_eq_of_lt hx, Nat.add_sub_cancel]
  have : 2 * x.toNat < 2 ^ (n + 1) ↔ x.toNat < 2 ^ n := by rw [Nat.pow_succ]; omega
  simp only [this]
  have h5 : (x.toNat : Int) % 2 ^ (n+1) = x.toNat := Int.emod_eq_of_lt (by positivity) (by exact_mod_cast hx)
  rw [h5]
  push_cast
  rfl

theorem wrapN (w : Nat) (z : Int) : BitVec.ofNat w (wrap w z) = BitVec.ofInt w z := by
  unfold wrap
  apply BitVec.eq_of_toNat_eq
  rw [BitVec.toNat_ofNat, BitVec.toNat_ofInt]
  have h : (0:Int) ≤ z % 2 ^ w := Int.emod_nonneg _ (by positivity)
  have h2 : z % 2 ^ w < 2 ^ w := Int.emod_lt_of_pos _ (by positivity)
  have : ((2 ^ w : Nat) : Int) = 2 ^ w := by push_cast; rfl
  rw [this]
  apply Nat.mod_eq_of_lt
  zify
  rw [Int.toNat_of_nonneg h]
  exact h2

theorem sraN {w : Nat} (hw : 0 < w) (x : BitVec w) (n : Nat) (hn : n < w) : BitVec.ofNat w (wrap w (sext w x.toNat / 2 ^ n)) = x.sshiftRight n := by
  rw [sextN _ hw, wrapN]
  apply BitVec.eq_of_toInt_eq
  rw [BitVec.toInt_ofInt, BitVec.toInt_sshiftRight, Int.shiftRight_eq_div_pow]
  have h1 := BitVec.toInt_lt (x := x)
  have h2 := BitVec.le_toInt (x := x)
  have h3 : (0:Int) < 2 ^ n := by positivity
  have h4 : x.toInt / 2 ^ n ≤ max x.toInt 0 := by
    rcases le_or_gt 0 x.toInt with h | h
    · exact (Int.ediv_le_self _ h).trans (le_max_left _ _)
    · exact (Int.ediv_neg_of_neg_of_pos h h3).le.trans (le_max_right _ _)
  have h5 : min x.toInt 0 ≤ x.toInt / 2 ^ n := by
    rcases le_or_gt 0 x.toInt with h | h
    · exact (min_le_right _ _).trans (Int.ediv_nonneg h h3.le)
    · refine (min_le_left _ _).trans ?_
      rw [Int.le_ediv_iff_mul_le h3]
      nlinarith [show (1:Int) ≤ 2 ^ n from h3]
  obtain ⟨m, rfl⟩ : ∃ m, w = m + 1 := ⟨w - 1, by omega⟩
  simp only [Nat.add_sub_cancel] at *
  push_cast
  have e : (2:Int) ^ (m+1) = 2 * 2 ^ m := by ring
  have hp : (0:Int) < 2 ^ m := by positivity
  rw [Int.bmod_eq_of_le] <;> push_cast <;> rw [e] <;> omega

theorem catN {w : Nat} (x y : BitVec w) : (x ++ y).toNat = x.toNat * 2 ^ w + y.toNat := by
  rw [BitVec.toNat_append, Nat.shiftLeft_eq, Nat.mul_comm, ← Nat.two_pow_add_eq_or_of_lt y.isLt]

theorem condN {w : Nat} (hw : 0 < w) (cc : BitVec 4) (x y : BitVec w) : condition w cc.toNat x.toNat y.toNat = holdsCc cc x y := by
  unfold condition holdsCc
  simp only [sextN w hw]
  have hcc : cc.toNat < 16 := cc.isLt
  generalize cc.toNat = n at hcc
  have e1 : (x.toNat == y.toNat) = (x == y) := by
    rw [Bool.eq_iff_iff]; simp [BitVec.toNat_eq]
  have e2 : (Nat.land x.toNat y.toNat == 0) = ((x &&& y) == 0) := by
    rw [Bool.eq_iff_iff]; simp only [beq_iff_eq]; rw [BitVec.toNat_eq, BitVec.toNat_and]; simp
  interval_cases n <;> simp only [BitVec.slt, BitVec.sle, BitVec.ult, BitVec.ule, e1, bne, e2]

theorem len_gDraws (n g : Nat) : (gDraws n g).length = n := by
  induction n generalizing g with
  | zero => rfl
  | succ n ih => simp [gDraws, ih]

theorem len_drawList (s : State) (k n : Nat) : (drawList s k n).length = n := by
  unfold drawList; split <;> simp [len_gDraws]

theorem zip_range {α β : Type} (n : Nat) (f : Nat → α) (l : List β) (d : β) (hl : l.length = n) :
    ((List.range n).map f).zip l = (List.range n).map (fun j => (f j, l.getD j d)) := by
  apply List.ext_getElem
  · simp [hl]
  · intro j h1 h2
    simp at h1 h2
    simp [h1]

theorem foldl_zero (l : List Nat) (h : ∀ x ∈ l, x = 0) (a : Nat) (ha : a = 0) : l.foldl Nat.lor a = 0 := by
  induction l generalizing a with
  | nil => exact ha
  | cons x l ih =>
    have hx : x = 0 := h x (by simp)
    subst ha; subst hx
    exact ih (fun y hy => h y (by simp [hy])) _ rfl

theorem ofLanes_mod (w : Nat) (l : List Nat) : ofLanes w (l.map (· % 2 ^ w)) = ofLanes w l := by
  induction l with
  | nil => rfl
  | cons x l ih => simp [ofLanes, ih]

theorem ofLanes_bit (c : Nat) (hc : 0 < c) (l : List Nat) (b : Nat) : (ofLanes c l).testBit b = (l.getD (b / c) 0 % 2 ^ c).testBit (b % c) := by
  induction l generalizing b with
  | nil => simp [ofLanes]
  | cons x l ih =>
    have e : ofLanes c (x :: l) = 2 ^ c * ofLanes c l + x % 2 ^ c := by rw [ofLanes]; omega
    rw [e, Nat.testBit_two_pow_mul_add _ (Nat.mod_lt _ (by positivity))]
    by_cases h : b < c
    · rw [if_pos h, Nat.div_eq_of_lt h, Nat.mod_eq_of_lt h]; rfl
    · rw [if_neg h, ih]
      obtain ⟨m, rfl⟩ : ∃ m, b = c + m := ⟨b - c, by omega⟩
      rw [Nat.add_sub_cancel_left, Nat.add_div_left _ hc, Nat.add_mod_left]
      rfl

theorem mask_bits (w : Nat) (hw : w ∈ [8, 16, 32, 64]) (f : Nat → Bool) (b : Nat) (hb : b < 64) :
    (compareMask w f).testBit b = f (b / (w / 8)) := by
  unfold compareMask
  have hc : 0 < w / 8 ∧ (w / 8) * (512 / w) = 64 := by
    simp at hw; rcases hw with rfl | rfl | rfl | rfl <;> decide
  rw [ofLanes_bit _ hc.1]
  have hlt : b / (w / 8) < 512 / w := by
    rw [Nat.div_lt_iff_lt_mul hc.1, Nat.mul_comm, hc.2]; exact hb
  rw [List.getD_eq_getElem?_getD, List.getElem?_map, List.getElem?_range hlt]
  have hm := Nat.mod_lt b hc.1
  simp only [Option.map_some, Option.getD_some]
  cases f (b / (w / 8))
  · simp
  · simp only [if_true]
    rw [Nat.mod_eq_of_lt (by have := Nat.two_pow_pos (w / 8); omega), Nat.testBit_two_pow_sub_one]
    simp [hm]

theorem packBits_small (x y : Nat) (a b : Bool) (g : Nat) (hg : g < 2 ^ 16) (hx : x ≤ 255) (hy : y ≤ 255) :
    packBits [(0, 16, g), (16, 1, bit a), (17, 1, bit b), (24, 8, x), (32, 8, y)] = g + bit a * 2 ^ 16 + bit b * 2 ^ 17 + x * 2 ^ 24 + y * 2 ^ 32 := by
  have ha : bit a ≤ 1 := by cases a <;> decide
  have hb : bit b ≤ 1 := by cases b <;> decide
  simp only [packBits]
  omega

theorem packBits_none (x : Nat) (hx : x ≤ 255) : packBits [(0, 16, 0), (16, 1, bit false), (17, 1, bit false), (24, 8, 0), (32, 8, x)] = x * 2 ^ 32 := by
  have h0 : bit false = 0 := rfl
  simp only [packBits, h0]
  omega

/-- Fields that begin at lo or above and do not overlap, in rising order. -/
def Rising : Nat → List (Nat × Nat × Nat) → Prop
  | _, [] => True
  | lo, e :: r => lo ≤ e.1 ∧ Rising (e.1 + e.2.1) r

theorem packBits_dvd {lo : Nat} {l : List (Nat × Nat × Nat)} (h : Rising lo l) : ∃ c, packBits l = c * 2 ^ lo := by
  induction l generalizing lo with
  | nil => exact ⟨0, by simp [packBits]⟩
  | cons e r ih =>
    obtain ⟨h1, h2⟩ := h
    obtain ⟨a, n, v⟩ := e
    obtain ⟨c, hc⟩ := ih h2
    dsimp only at h1 hc
    obtain ⟨d, rfl⟩ := Nat.exists_eq_add_of_le h1
    refine ⟨v % 2 ^ n * 2 ^ d + c * 2 ^ (d + n), ?_⟩
    rw [packBits, hc]
    rw [Nat.pow_add, Nat.pow_add, Nat.pow_add, Nat.pow_add]
    ring

theorem rising_le {lo : Nat} {l : List (Nat × Nat × Nat)} (h : Rising lo l) : ∀ e ∈ l, lo ≤ e.1 := by
  induction l generalizing lo with
  | nil => simp
  | cons e r ih =>
    intro f hf
    rcases List.mem_cons.1 hf with rfl | hf
    · exact h.1
    · have := ih h.2 f hf
      have := h.1
      omega

theorem packBits_field {lo : Nat} {l : List (Nat × Nat × Nat)} (h : Rising lo l) {a n v : Nat} (hm : (a, n, v) ∈ l) : bitsAt (packBits l) a n = v % 2 ^ n := by
  induction l generalizing lo with
  | nil => cases hm
  | cons e r ih =>
    obtain ⟨h1, h2⟩ := h
    obtain ⟨b, k, w⟩ := e
    obtain ⟨c, hc⟩ := packBits_dvd h2
    dsimp only at h1 hc h2
    rcases List.mem_cons.1 hm with he | hr
    · cases he
      unfold bitsAt
      rw [packBits, hc, Nat.pow_add]
      have : v % 2 ^ n * 2 ^ a + c * (2 ^ a * 2 ^ n) = 2 ^ a * (v % 2 ^ n + 2 ^ n * c) := by ring
      rw [this, Nat.mul_div_cancel_left _ (Nat.two_pow_pos _), Nat.add_mul_mod_self_left, Nat.mod_mod]
    · have hle : b + k ≤ a := rising_le h2 _ hr
      rw [← ih h2 hr]
      unfold bitsAt
      rw [packBits, hc]
      obtain ⟨d, rfl⟩ := Nat.exists_eq_add_of_le hle
      rw [Nat.pow_add 2 (b + k) d, ← Nat.div_div_eq_div_mul, ← Nat.div_div_eq_div_mul]
      congr 2
      rw [Nat.pow_add]
      have hlt : w % 2 ^ k * 2 ^ b < 2 ^ b * 2 ^ k := by
        rw [Nat.mul_comm]
        exact Nat.mul_lt_mul_of_pos_left (Nat.mod_lt _ (Nat.two_pow_pos _)) (Nat.two_pow_pos _)
      rw [Nat.add_mul_div_right _ _ (Nat.mul_pos (Nat.two_pow_pos _) (Nat.two_pow_pos _)), Nat.div_eq_of_lt hlt, Nat.zero_add,
        Nat.mul_div_cancel _ (Nat.mul_pos (Nat.two_pow_pos _) (Nat.two_pow_pos _))]

theorem foldl_one {α : Type} (f : α → Nat → α) (l : List Nat) (d : Nat) (hd : d ∈ l) (hn : l.Nodup) (h : ∀ t, ∀ x ∈ l, x ≠ d → f t x = t) (s : α) :
    l.foldl f s = f s d := by
  induction l generalizing s with
  | nil => cases hd
  | cons x r ih =>
    rw [List.nodup_cons] at hn
    rw [List.foldl_cons]
    by_cases hx : x = d
    · subst hx
      have : ∀ t, r.foldl f t = t := by
        intro t
        have h' : ∀ t, ∀ y ∈ r, f t y = t := fun t y hy => h t y (List.mem_cons_of_mem _ hy) (fun hc => hn.1 (hc ▸ hy))
        clear ih h hn hd
        induction r generalizing t with
        | nil => rfl
        | cons y r ih => rw [List.foldl_cons, h' t y (List.mem_cons_self), ih _ (fun t z hz => h' t z (List.mem_cons_of_mem _ hz))]
      exact this _
    · rw [h s x List.mem_cons_self hx]
      rcases List.mem_cons.1 hd with rfl | hd
      · exact absurd rfl hx
      · exact ih hd hn.2 (fun t y hy => h t y (List.mem_cons_of_mem _ hy)) s

theorem any_false {α : Type} {l : List α} {f : α → Bool} (h : ∀ x ∈ l, f x = false) : l.any f = false := by
  rw [List.any_eq_false]; intro x hx; rw [h x hx]; exact Bool.false_ne_true

end Sys2Proof.Machine
end

