-- ==== Sys2Proof/Laws/Deliver.lean ====
section
/-! SUPPORT. What the acts of the families answer: deliveries to registers and rings, tile operations, maps, grids, contexts, replies and commands. -/

namespace Sys2Proof.Machine

set_option Elab.async false
set_option linter.unusedSimpArgs false
set_option linter.unusedVariables false

theorem issue_illegal {i : Instr} {g : Guard} {act : Act Unit} {s : State} (h : heldBack i s = false) (hl : legal s i = false) :
    issue i g act s = .next (trapHere s 0x01 0) := by
  simp only [heldBack, Bool.or_eq_false_iff] at h
  simp only [issue, issueWith, issueFull, h.1, h.2, hl, Bool.false_eq_true, if_false, Bool.not_false, if_true]

theorem legal_wf {i : Instr} {s : State} (h : i.wf = false) : legal s i = false := by simp [legal, h]

theorem leave_drop (n : Nat) (ls : List LoopLevel) : leaveLoops n ls = ls.dropWhile (fun l =>
    !(decide (l.fin - (l.len - 1) * 64 ≤ n) && decide (n ≤ l.fin))) := by
  induction ls with
  | nil => rfl
  | cons l ls ih =>
    rw [leaveLoops, List.dropWhile_cons]
    by_cases h : l.fin - (l.len - 1) * 64 ≤ n ∧ n ≤ l.fin
    · simp [h.1, h.2]
    · rw [if_neg h, ih]
      have : (!(decide (l.fin - (l.len - 1) * 64 ≤ n) && decide (n ≤ l.fin))) = true := by
        simp only [Bool.not_eq_true', Bool.and_eq_false_iff, decide_eq_false_iff_not]
        by_cases h1 : l.fin - (l.len - 1) * 64 ≤ n
        · exact .inr (fun h2 => h ⟨h1, h2⟩)
        · exact .inl h1
      rw [if_pos this]

theorem codeOk_iff (q : Seq) (a : Int) : codeOk q a = true ↔ 0 ≤ a ∧ a < q.task.codeLen ∧ a % 64 = 0 := by
  simp [codeOk, and_assoc]

theorem issue_congr {i : Instr} {g : Guard} {a b : Act Unit} {s : State} (h : a s = b s) (hm : mayIssue i g s = true) :
    issue i g a s = issue i g b s := by
  cases hb : b s with
  | ok p => rw [issue_next hm (h.trans hb), issue_next hm hb]
  | error e => rw [issue_stop hm (h.trans hb), issue_stop hm hb]

theorem goTo_transfer {i : Instr} {g : Guard} {s : State} (target : Int) (leave : Bool) (k : Act Unit) (m : State → State)
    (hk : ∀ t, k t = .ok ((), m t)) (hm : mayIssue i g s = true) :
    issue i g (goTo target leave >>= fun _ => k) s = .next (s.transfer target leave m) := by
  by_cases h : 0 ≤ target ∧ target < s.me.task.codeLen ∧ target % 64 = 0
  · rw [State.transfer, if_pos h]
    apply issue_next hm
    have : goTo target leave s = .ok ((), s.setMe { s.me with
        hold := none, pc := target.toNat
        loops := if leave then leaveLoops target.toNat s.me.loops else s.me.loops }) := by
      unfold goTo
      rw [Act.bind_ok (Act.view_run _ _)]
      dsimp only [id]
      rw [Act.bind_ok (Act.check_ok ((codeOk_iff _ _).2 h) _ _ _)]
      exact Act.change_run _ _
    rw [Act.bind_ok this, hk]
    simp only [leave_drop]
  · rw [State.transfer, if_neg h]
    have hc : codeOk s.me target = false := by
      rw [Bool.eq_false_iff]; exact fun h' => h ((codeOk_iff _ _).1 h')
    refine (issue_stop hm (e := .trap 0x11 (wrap 64 target)) ?_)
    apply Act.bind_error
    unfold goTo
    rw [Act.bind_ok (Act.view_run _ _)]
    apply Act.bind_error
    simp [Act.check, hc]

theorem lanes_ok {s u : State} {i : Instr} {d : Opnd} {t : Fmt} {k : BitVec 4} {f : Nat → Nat} (h : s.lanes i d t k f = some u) :
    vecPlain i d t k f s = .ok ((), u) := by
  unfold State.lanes at h
  cases hr : Act.ends (vecPlain i d t k f) s with
  | none => simp [hr] at h
  | some p => rw [hr] at h; simp at h; rw [Act.ends_eq] at hr; rw [hr, ← h]

theorem rounded_ok {s u : State} {i : Instr} {d : Opnd} {t : Fmt} {k : BitVec 4} {f : Nat → Nat × Nat} (h : s.rounded i d t k f = some u) :
    vecOut i d t k ((List.range (512 / t.width)).map f) s = .ok ((), u) := by
  unfold State.rounded at h
  cases hr : Act.ends (vecOut i d t k ((List.range (512 / t.width)).map f)) s with
  | none => simp [hr] at h
  | some p => rw [hr] at h; simp at h; rw [Act.ends_eq] at hr; rw [hr, ← h]

theorem plain_congr {i : Instr} {d : Opnd} {t : Fmt} {k : BitVec 4} {f f' : Nat → Nat} (h : ∀ j, f j % 2 ^ t.width = f' j % 2 ^ t.width) :
    vecPlain i d t k f = vecPlain i d t k f' := by
  unfold vecPlain
  congr 1
  apply List.map_congr_left
  intro j _
  rw [h j]

theorem maskIn_ok {k : BitVec 4} {s : State} {m : Word} (h : s.maskIn k = some m) :
    ∃ v, readReg ⟨maskFile s.cur.slot, k.toNat⟩ s = .ok (v, s) ∧ v.toNat % 2 ^ 64 = m.toNat := by
  unfold State.maskIn at h
  cases hr : s.regIn ⟨maskFile s.cur.slot, k.toNat⟩ with
  | none => simp [hr] at h
  | some v =>
    rw [hr] at h
    simp only [Option.map_some, Option.some.injEq] at h
    refine ⟨v, State.regIn_ok hr, ?_⟩
    rw [← h, BitVec.toNat_setWidth]

theorem readMask_ok {k : BitVec 4} {s : State} {m : Word} (h : s.maskIn k = some m) : readMask k s = .ok (m.toNat, s) := by
  obtain ⟨v, hv, hm⟩ := maskIn_ok h
  unfold readMask
  rw [Act.bind_ok (Act.view_run _ _), Act.bind_ok hv, hm]
  rfl

theorem ring_ok {s : State} {q : Nat} {out : Bool} {r : Ring} (h : s.ringFree q out r) : Act.ring q out s = .ok (r, s) := by
  obtain ⟨h1, h2, h3⟩ := h
  unfold Act.ring
  rw [h1]
  simp [h2, h3]

theorem ringAwait_ok {r : Ring} {start len : Nat} (h : r.has start len) (n : Nat) (s : State) : ringAwait n r start len s = .ok ((), s) := by
  obtain ⟨h1, h2, h3⟩ := h
  unfold ringAwait
  rw [Act.bind_ok (Act.check_ok _ _ _ _)]
  · cases hb : r.streamBits with
    | none => rw [hb] at h2; dsimp only at h2 ⊢; rw [if_pos h2, h3]; rfl
    | some b => rw [hb] at h2; dsimp only at h2 ⊢; rw [if_pos (show Nat.min (start + len) b ≤ r.filled from h2), h3]; rfl
  · cases hb : r.streamBits with
    | none => rfl
    | some b => simpa using h1 b hb

theorem ringPlace_ok {s : State} {q : Nat} {r : Ring} {len : Nat} (h : s.ringTakes q r len) (x l : Nat) :
    ringPlace q r x len l s = .ok ((), s.place q r x len l) := by
  obtain ⟨h1, h2⟩ := h
  unfold ringPlace
  rw [Act.bind_ok (Act.view_run _ _), Act.bind_ok (Act.check_ok _ _ _ _)]
  · dsimp only [id]
    rw [if_neg (by omega)]
    rfl
  · cases hb : r.streamBits with
    | none => rfl
    | some b => simpa using h1 b hb

theorem readKm_ok {s : State} {t : Fmt} {k : BitVec 4} {m : Nat} (h : s.writeMask t.width k = some m) :
    ∃ n, readKm k s = .ok (n, s) ∧ (if k = 0 then allBytes else laneBytes t.width n) = m := by
  unfold State.writeMask at h
  unfold readKm
  by_cases hk : k = 0
  · rw [if_pos hk] at h
    simp only [Option.some.injEq] at h
    exact ⟨allBytes, by rw [if_pos hk]; rfl, by rw [if_pos hk]; exact h⟩
  · rw [if_neg hk] at h
    cases hm : s.maskIn k with
    | none => simp [hm] at h
    | some n =>
      rw [hm] at h
      simp only [Option.map_some, Option.some.injEq] at h
      unfold State.maskIn at hm
      cases hr : s.regIn ⟨maskFile s.cur.slot, k.toNat⟩ with
      | none => simp [hr] at hm
      | some v =>
        rw [hr] at hm
        simp only [Option.map_some, Option.some.injEq] at hm
        refine ⟨n.toNat, ?_, by rw [if_neg hk]; exact h⟩
        rw [if_neg hk]
        show (Act.view _ >>= _) s = _
        rw [Act.bind_ok (Act.view_run _ _), Act.bind_ok (State.regIn_ok hr)]
        rw [← hm, BitVec.toNat_setWidth]
        rfl

theorem xres_ok {s u : State} {i : Instr} {d : Opnd} {v st : Nat} (h : s.xres i d v st = some u) : xOut i d v st s = .ok ((), u) := by
  unfold State.xres at h
  cases hr : Act.ends (xOut i d v st) s with
  | none => simp [hr] at h
  | some p => rw [hr] at h; simp at h; rw [Act.ends_eq] at hr; rw [hr, ← h]

theorem forM_send (l : List Nat) (r : Nat → Reg) (n : Nat) (v : Nat → Vec) (s : State) :
    l.forM (fun c => writeReg (r c) n (v c)) s = .ok (⟨⟩, l.foldl (fun u c => u.send (r c) n (v c) allBytes 0) s) := by
  induction l generalizing s with
  | nil => rfl
  | cons c l ih =>
    show (writeReg (r c) n (v c) >>= fun _ => l.forM (fun c => writeReg (r c) n (v c))) s = _
    rw [Act.bind_ok (writeReg_run _ _ _ _)]
    exact ih _

theorem mapM_reads (l : List Nat) (r : Nat → Reg) (v : Nat → Vec) (s : State) (h : ∀ j ∈ l, s.regIn (r j) = some (v j)) :
    l.mapM (fun j => readReg (r j)) s = .ok (l.map v, s) := by
  induction l with
  | nil => rfl
  | cons c l ih =>
    rw [List.mapM_cons, Act.bind_ok (State.regIn_ok (h c (by simp))), Act.bind_ok (ih (fun j hj => h j (by simp [hj])))]
    rfl

theorem useTile_ok {s : State} {acc : Nat} (h : scoreboarded s.landed.me acc = false) : useTile acc s = .ok ((), s.landed) := by
  unfold useTile
  rw [Act.bind_ok (Act.change_run _ _)]
  exact Act.await_ok (by show (!scoreboarded s.landed.me acc) = true; rw [h]; rfl)

theorem reserve_ok {s : State} {n c : Nat} (h : s.dqReady n c) : reserveDq n c s = .ok ((), s) := by
  obtain ⟨h2, h3⟩ := h
  unfold reserveDq
  rw [Act.bind_ok (Act.await_ok _), Act.bind_ok (Act.view_run _ _)]
  · exact Act.check_ok (by simpa using h3) _ _ _
  · rw [List.all_eq_true]; intro x hx; simpa using h2 x hx

theorem pushDq_ok (n : Nat) (v : Vec) (l : Nat) (s : State) : pushDq n v l s = .ok ((), s.pushQueue n v l) := rfl

theorem lineIn_ok {s : State} {lm : BitVec 3} {v : Vec} (h : s.regIn ⟨.m, lm.toNat⟩ = some v) (hw : v.toNat < larderWindow s.me) :
    lineIn lm s = .ok (v.toNat, s) := by
  unfold lineIn
  rw [Act.bind_ok (readNat_ok h), Act.bind_ok (Act.view_run _ _), Act.bind_ok (Act.check_ok (by simpa using hw) _ _ _)]
  rfl

theorem takeReady_ok {s : State} {r : Ring} {n need : Nat} (h1 : r.gather = true ∨ r.readPos + need * r.width ≤ r.total * r.width)
    (h2 : r.has r.readPos (min (need * r.width) (512 - r.readPos % 512))) : takeReady n r need s = .ok ((), s) := by
  unfold takeReady
  rw [Act.bind_ok (Act.check_ok (by simpa using h1) _ _ _)]
  exact ringAwait_ok h2 _ _

theorem takeArray_ok {s : State} (h : (s.coreAt (coreOf s.cur.loc)).arrayTo ≤ s.now) :
    takeArray s = .ok ((), s.setCore (coreOf s.cur.loc) { s.coreAt (coreOf s.cur.loc) with arrayTo := s.now + Config.arrayTime }) := by
  unfold takeArray
  rw [Act.bind_ok (Act.await_ok (by simpa using h))]
  rfl

theorem actMmac_ok {s : State} {acc q : BitVec 5} {af bf : Fmt} {kn : BitVec 7} {lm : BitVec 3} {km : Option (BitVec 3)} {adv : Bool} {r : Ring} {v : Vec} {run : Nat}
    (h1 : scoreboarded s.landed.me acc.toNat = false) (h2 : s.landed.regIn ⟨.m, lm.toNat⟩ = some v)
    (h4 : (match km with | some k => readNat .m k.toNat | none => pure 0 : Act Nat) s.landed = .ok (run, s.landed))
    (h3 : s.landed.arrayTakes q.toNat r af bf kn.toNat v.toNat run km.isSome) :
    actMmac acc q af bf kn lm km adv s = (do
      if adv then do
        writeReg ⟨.m, lm.toNat⟩ 1 (BitVec.ofNat 512 ((v.toNat + bitsAt (s.landed.header v.toNat) 64 16) % 2 ^ 64))
        match km with
        | some k => do
          let k0 := bitsAt run 16 16 + kn.toNat
          let k0 := if k0 = bitsAt run 0 16 then 0 else k0
          writeReg ⟨.m, k.toNat⟩ 1 (BitVec.ofNat 512 (run - bitsAt run 16 16 * 2 ^ 16 + k0 * 2 ^ 16))
        | none => pure () : Act Unit) (s.landed.arrayIssued acc.toNat q.toNat (s.landed.arrayOp q.toNat r af bf kn.toNat v.toNat run)) := by
  obtain ⟨a0, a1, a5, a6, a7, a8, a9, a10, a11, a12⟩ := h3
  unfold actMmac
  rw [Act.bind_ok (useTile_ok h1), Act.bind_ok (ring_ok a1), Act.bind_ok (lineIn_ok h2 a5),
    Act.bind_ok (Act.await_ok (by rw [a6]; rfl)), Act.bind_ok (Act.view_run _ _)]
  dsimp only [id]
  unfold State.header at a7 a8 a9 a12
  rw [Act.bind_ok (Act.check_ok a7 _ _ _), Act.bind_ok (Act.await_ok (by rw [a8]; rfl))]
  refine (Act.bind_ok h4).trans ?_
  rw [Act.bind_ok (Act.check_ok _ _ _ _), Act.bind_ok (takeReady_ok a10 a11)]
  · unfold State.arrayOp State.header
    generalize hx : expandRows s.landed s.landed.cur.loc bf.width kn.toNat (v.toNat + 1 + 4 * bitsAt (larderLine s.landed s.landed.cur.loc v.toNat).toNat 14 3) = p at a12 ⊢
    obtain ⟨rows, fin⟩ := p
    dsimp only at a12 ⊢
    rw [Act.bind_ok (Act.check_ok (by simpa using a12) _ _ _), Act.bind_ok (takeArray_ok a0)]
    unfold addTile
    rw [Act.bind_ok (Act.change_run _ _), Act.bind_ok (Act.change_run _ _)]
    rfl
  · cases km with
    | none => rfl
    | some k => simpa using a9 rfl

theorem pushAll_ok (n l : Nat) (xs : List Nat) (e : Nat) (s : State) :
    pushDqAll n l xs e s = .ok ((), ((List.range' e xs.length).zip xs).foldl (fun t e => t.pushQueue n (BitVec.ofNat 512 e.2) (l + e.1)) s) := by
  induction xs generalizing e s with
  | nil => rfl
  | cons x xs ih =>
    unfold pushDqAll
    rw [Act.bind_ok (pushDq_ok _ _ _ _), ih]
    rfl

theorem routine_next {s t : State} {rt p : Routine} {i : Instr} {nx : Option Routine} (hrt : s.me.routine = some rt)
    (hp : s.bundle.bits.present .M = false) (hw : (s.bundle.bits.op .M).isSome = true) (hat : p = routineSkip s s.cur.loc s.here (seeM s s.cur.loc) 2048 rt)
    (hsub : p.word < 2048 → (storeWord s s.cur.loc s.here p.word).toNat / 2 ^ 63 = 1 →
      (s.regIn ⟨.m, bitsAt (storeWord s s.cur.loc s.here p.word).toNat 60 3⟩).isSome)
    (hop : routineOp s s.cur.loc s.here p.word (seeM s s.cur.loc) = some i) (hnx : routineNext p i true (seeM s s.cur.loc) = .ok nx)
    (hm : mayIssue i (begunGuard (mlarBegun s) (guardOfM i)) s = true) (ha : Act.ends (actOfM i) s = some ((), t)) :
    execRoutineWordIssue s = .next (moveRoutine s.cur.loc nx (advance t)) := by
  unfold execRoutineWordIssue
  rw [hrt]
  dsimp only
  rw [hp, ← hat, if_neg (by cases ho : s.bundle.bits.op .M with
    | none => rw [ho] at hw; cases hw
    | some _ => simp)]
  have h2 : ∃ v, (if (if p.word < 2048 then (storeWord s s.cur.loc s.here p.word).toNat else 0) / 2 ^ 63 = 1 then
        readReg ⟨.m, bitsAt (if p.word < 2048 then (storeWord s s.cur.loc s.here p.word).toNat else 0) 60 3⟩ s else (.ok (0, s) : Except Stop (Vec × State))) = .ok (v, s) := by
    by_cases hw : p.word < 2048
    · rw [if_pos hw]
      by_cases h63 : (storeWord s s.cur.loc s.here p.word).toNat / 2 ^ 63 = 1
      · rw [if_pos h63]
        obtain ⟨v, hv⟩ := Option.isSome_iff_exists.1 (hsub hw h63)
        exact ⟨v, State.regIn_ok hv⟩
      · rw [if_neg h63]; exact ⟨0, rfl⟩
    · rw [if_neg hw, if_neg (by decide)]; exact ⟨0, rfl⟩
  obtain ⟨v, hv⟩ := h2
  rw [hv]
  dsimp only
  congr 1
  unfold issueWord
  dsimp only
  rw [hop]
  dsimp only
  rw [hnx]
  have hact : (do
        actOfM i
        match (Except.ok nx : Except Nat (Option Routine)) with
        | .error c => Act.trap c 0
        | .ok _ => pure () : Act Unit) s = .ok ((), t) := by
    rw [Act.bind_ok (Act.ends_eq.1 ha)]; rfl
  rw [issueFull_next hm hact]
  rfl

theorem reportBelow_none {ch lim : Nat} {s : State} (h : lowestMark (s.me.chans.look Channel.reset ch) lim = none) : reportBelow ch lim s = .ok ((), s) := by
  unfold reportBelow
  dsimp only
  rw [h]

theorem reportBelow_some {ch lim : Nat} {s : State} {f} (h : lowestMark (s.me.chans.look Channel.reset ch) lim = some f) :
    reportBelow ch lim s = .error (.trapWith (s.setMe { s.me with chans := s.me.chans.put ch { s.me.chans.look Channel.reset ch with fails := (s.me.chans.look Channel.reset ch).fails.filter (fun m => m.1 != f.1) } }) f.2.1 f.2.2) := by
  unfold reportBelow
  dsimp only
  rw [h]

theorem checkMap_ok {ep : Nat} {m : MapEntry} {ex : Option Nat} {s : State} (h : mapCheck s ep s.myVd (rmodeAt s.me s.here) m ex = .ok ()) : checkMap ep m ex s = .ok ((), s) := by
  unfold checkMap
  rw [Act.bind_ok (Act.view_run _ _)]
  dsimp only [id]
  rw [h]; rfl

theorem heldMap_ok {ep slot : Nat} {m : MapSlot} {s : State} (h : (s.epAt ep).maps.find slot = some m) (h1 : m.vd = s.myVd) (h2 : m.ghost = none) : heldMap ep slot s = .ok (m, s) := by
  unfold heldMap
  rw [Act.bind_ok (Act.view_run _ _)]
  dsimp only [id]
  rw [h]
  exact Act.bind_ok (Act.check_ok (by simp [h1, h2]) _ _ _)

theorem grid_ok {gs : Nat} {s : State} {g : Grid} (h : s.me.grids.find gs = some g) : Act.grid gs s = .ok (g, s) := by
  unfold Act.grid; rw [h]

theorem readLocal_halo {a n z : Nat} {s : State} (h : s.localNat a n = some z) (q : Seq) : readLocal a n (s.setMe q) = .ok (z, s.setMe q) := by
  have hh := (readLocal_pure a n).ok h
  unfold readLocal at hh ⊢
  rw [Act.bind_ok (Act.view_run _ _)] at hh ⊢
  dsimp only [id] at hh ⊢
  have e1 : errorMark (s.setMe q) ((List.range n).map (fun j => nearPhys (s.setMe q) (s.setMe q).cur.loc (a + j))) = errorMark s ((List.range n).map (fun j => nearPhys s s.cur.loc (a + j))) := rfl
  have e2 : nearNat (s.setMe q) (s.setMe q).cur.loc a n = nearNat s s.cur.loc a n := rfl
  rw [e1, e2]
  generalize errorMark s ((List.range n).map (fun j => nearPhys s s.cur.loc (a + j))) = o at hh ⊢
  cases o with
  | some w => cases hh
  | none =>
    simp only [Act.pure_run, Except.ok.injEq, Prod.mk.injEq] at hh ⊢
    exact ⟨hh.1, trivial⟩

theorem xlate_pure (a : Nat) (w : Bool) : (Act.xlate a w).Pure := by
  intro s n t h
  unfold Act.xlate at h
  split at h
  · rename_i hh
    simp only [Except.ok.injEq, Prod.mk.injEq] at h
    rw [← h.2]; exact translateFor_ok hh
  · simp at h
  · simp at h

theorem pagesOf_pure (va : Nat) (w : Bool) (n : Nat) : (pagesOf va w n).Pure := by
  induction n with
  | zero => exact Act.Pure.ret _
  | succ n ih => exact Act.Pure.bind ih fun _ => Act.Pure.bind (xlate_pure _ _) fun _ => Act.Pure.ret _

theorem contextAddr_ok {a : BitVec 4} {w : Bool} {s : State} {x : Vec} {pages : List Nat} (hx : s.regIn ⟨.y, a.toNat⟩ = some x)
    (h : x.toNat % 4096 = 0 ∧ windowOf x.toNat 0x20000 = some 13) (hp : s.pages x.toNat w = some pages) : contextAddr a w s = .ok (pages, s) := by
  unfold contextAddr
  rw [Act.bind_ok (readNat_ok hx)]
  refine (Act.bind_ok (Act.check_ok ?_ _ _ _)).trans ?_
  · rw [h.1, h.2]; rfl
  · exact (pagesOf_pure _ _ _).ok hp

theorem contextAddr_stop {a : BitVec 4} {w : Bool} {s : State} {x : Vec} (hx : s.regIn ⟨.y, a.toNat⟩ = some x)
    (h : ¬(x.toNat % 4096 = 0 ∧ windowOf x.toNat 0x20000 = some 13)) : contextAddr a w s = .error (.trap 0x11 x.toNat) := by
  unfold contextAddr
  rw [Act.bind_ok (readNat_ok hx)]
  refine Act.bind_error (Act.check_stop ?_ _ _ _)
  rw [← Bool.not_eq_true, Bool.and_eq_true, beq_iff_eq, beq_iff_eq]
  exact h

theorem answered_eq (s : State) (p : Packet) (e : Ifr) : takeAnswer s p e = s.answered p e := by
  unfold takeAnswer State.answered
  dsimp only
  cases hk : p.kind with
  | reply x st =>
    dsimp only
    by_cases h : e.left = 1 ∨ e.left = 0
    · rw [if_pos h, if_pos (by omega)]; rfl
    · rw [if_neg h, if_neg (by omega)]; rfl
  | _ => rfl

theorem takeReply_ok {s : State} {loc entry : Nat} {p : Packet} {e : Ifr} {kinds : List Nat} (h : s.answerFor loc entry = some p)
    (h1 : (s.seqAt loc).ifr.find entry = some e) (h2 : e.key = p.key) (h3 : e.state < 3) (h4 : kinds.contains e.kind = true) (hw : engineWrites s loc = false) :
    takeReply s loc entry kinds = s.answered p e := by
  unfold takeReply
  rw [show s.net.find? _ = some p from h]
  dsimp only
  rw [h1]
  dsimp only
  rw [hw, if_neg (by decide), if_pos h2, if_pos ⟨h4, h3⟩, answered_eq]

/-- How the answer of a command's body ends it. -/
def ended (die slot : Nat) (r : State × Option Nat) : State :=
  match r with
  | (t, some st) => setStatus t die slot st
  | (t, none) => t

theorem command_eq {s : State} {d slot op : Nat} (h : s.commandReady d slot op) (h0 : op ≠ 0) (h1 : op ≤ 10) (body) {r} (hr : body (s.arg d slot) (s.taken d) = r) :
    command s d slot op body = ended d slot r := by
  rw [command_ok h h0 h1, hr]; rfl

end Sys2Proof.Machine
end

