-- ==== Sys2Proof/Laws/State.lean ====
section
/-! SUPPORT. What each replacement of a part of the module leaves in every field, and what its parts then read as. -/

namespace Sys2Proof.Machine

set_option Elab.async false

/-! ### Tables -/

/-- What was put is read. -/
@[simp] theorem Tab.look_put_eq {α : Type} (d : α) (t : Tab α) (i : Nat) (v : α) : (Tab.put t i v).look d i = v := by
  induction t with
  | nil => simp [Tab.put, Tab.look]
  | cons e r ih =>
    obtain ⟨k, w⟩ := e
    unfold Tab.put
    split
    · simp [Tab.look]
    · split
      · simp [Tab.look]
      · rename_i h1 h2
        simp [Tab.look, h1, h2, ih]

/-- Other keys read as before. -/
theorem Tab.look_put_ne {α : Type} (d : α) (t : Tab α) (i j : Nat) (v : α) (h : j ≠ i) :
    (Tab.put t i v).look d j = Tab.look d t j := by
  induction t with
  | nil =>
    simp only [Tab.put, Tab.look]
    split
    · omega
    · simp
  | cons e r ih =>
    obtain ⟨k, w⟩ := e
    unfold Tab.put
    split
    · rename_i hk
      subst hk
      simp only [Tab.look]
      split
      · omega
      · rfl
    · split
      · rename_i h1 h2
        simp only [Tab.look]
        by_cases hj : i = j
        · omega
        · by_cases hlt : j < i
          · have : ¬ k = j := by omega
            have : j < k := by omega
            simp [*]
          · simp [*]
      · simp only [Tab.look, ih]

theorem Tab.put_put {α : Type} (t : Tab α) (i : Nat) (v w : α) : (t.put i v).put i w = t.put i w := by
  induction t with
  | nil => simp [Tab.put]
  | cons e r ih =>
    obtain ⟨k, x⟩ := e
    by_cases h : k = i
    · simp [h, Tab.put]
    · by_cases h2 : i < k
      · simp [h, h2, Tab.put]
      · simp [h, h2, Tab.put, ih]

/-! ### setSeq -/

@[simp] theorem State.setSeq_agenda (s : State) (loc : Nat) (q : Seq) : (s.setSeq loc q).agenda = s.agenda := rfl
@[simp] theorem State.setSeq_cur (s : State) (loc : Nat) (q : Seq) : (s.setSeq loc q).cur = s.cur := rfl
@[simp] theorem State.setSeq_free (s : State) (loc : Nat) (q : Seq) : (s.setSeq loc q).free = s.free := rfl
@[simp] theorem State.setSeq_now (s : State) (loc : Nat) (q : Seq) : (s.setSeq loc q).now = s.now := rfl
@[simp] theorem State.setSeq_mem (s : State) (loc : Nat) (q : Seq) : (s.setSeq loc q).mem = s.mem := rfl
@[simp] theorem State.setSeq_marks (s : State) (loc : Nat) (q : Seq) : (s.setSeq loc q).marks = s.marks := rfl
@[simp] theorem State.setSeq_module (s : State) (loc : Nat) (q : Seq) : (s.setSeq loc q).module = s.module := rfl
@[simp] theorem State.setSeq_power (s : State) (loc : Nat) (q : Seq) : (s.setSeq loc q).power = s.power := rfl
@[simp] theorem State.setSeq_ready (s : State) (loc : Nat) (q : Seq) : (s.setSeq loc q).ready = s.ready := rfl
@[simp] theorem State.setSeq_boot (s : State) (loc : Nat) (q : Seq) : (s.setSeq loc q).boot = s.boot := rfl
@[simp] theorem State.setSeq_lseq (s : State) (loc : Nat) (q : Seq) : (s.setSeq loc q).lseq = s.lseq := rfl
@[simp] theorem State.setSeq_podMap (s : State) (loc : Nat) (q : Seq) : (s.setSeq loc q).podMap = s.podMap := rfl
@[simp] theorem State.setSeq_rollback (s : State) (loc : Nat) (q : Seq) : (s.setSeq loc q).rollback = s.rollback := rfl
@[simp] theorem State.setSeq_lmsLeaf (s : State) (loc : Nat) (q : Seq) : (s.setSeq loc q).lmsLeaf = s.lmsLeaf := rfl
@[simp] theorem State.setSeq_firmware (s : State) (loc : Nat) (q : Seq) : (s.setSeq loc q).firmware = s.firmware := rfl
@[simp] theorem State.setSeq_hostData (s : State) (loc : Nat) (q : Seq) : (s.setSeq loc q).hostData = s.hostData := rfl
@[simp] theorem State.setSeq_skew (s : State) (loc : Nat) (q : Seq) : (s.setSeq loc q).skew = s.skew := rfl
@[simp] theorem State.setSeq_seqs (s : State) (loc : Nat) (q : Seq) : (s.setSeq loc q).seqs = s.seqs.put loc q := rfl
@[simp] theorem State.setSeq_cores (s : State) (loc : Nat) (q : Seq) : (s.setSeq loc q).cores = s.cores := rfl
@[simp] theorem State.setSeq_quads (s : State) (loc : Nat) (q : Seq) : (s.setSeq loc q).quads = s.quads := rfl
@[simp] theorem State.setSeq_dies (s : State) (loc : Nat) (q : Seq) : (s.setSeq loc q).dies = s.dies := rfl
@[simp] theorem State.setSeq_vds (s : State) (loc : Nat) (q : Seq) : (s.setSeq loc q).vds = s.vds := rfl
@[simp] theorem State.setSeq_eps (s : State) (loc : Nat) (q : Seq) : (s.setSeq loc q).eps = s.eps := rfl
@[simp] theorem State.setSeq_net (s : State) (loc : Nat) (q : Seq) : (s.setSeq loc q).net = s.net := rfl
@[simp] theorem State.setSeq_nextPkt (s : State) (loc : Nat) (q : Seq) : (s.setSeq loc q).nextPkt = s.nextPkt := rfl
@[simp] theorem State.setSeq_tokens (s : State) (loc : Nat) (q : Seq) : (s.setSeq loc q).tokens = s.tokens := rfl
@[simp] theorem State.setSeq_links (s : State) (loc : Nat) (q : Seq) : (s.setSeq loc q).links = s.links := rfl
@[simp] theorem State.setSeq_occup (s : State) (loc : Nat) (q : Seq) : (s.setSeq loc q).occup = s.occup := rfl
@[simp] theorem State.setSeq_casts (s : State) (loc : Nat) (q : Seq) : (s.setSeq loc q).casts = s.casts := rfl
@[simp] theorem State.setSeq_gone (s : State) (loc : Nat) (q : Seq) : (s.setSeq loc q).gone = s.gone := rfl
@[simp] theorem State.setSeq_withdraws (s : State) (loc : Nat) (q : Seq) : (s.setSeq loc q).withdraws = s.withdraws := rfl
@[simp] theorem State.setSeq_published (s : State) (loc : Nat) (q : Seq) : (s.setSeq loc q).published = s.published := rfl
@[simp] theorem State.setSeq_saved (s : State) (loc : Nat) (q : Seq) : (s.setSeq loc q).saved = s.saved := rfl
@[simp] theorem State.setSeq_images (s : State) (loc : Nat) (q : Seq) : (s.setSeq loc q).images = s.images := rfl
@[simp] theorem State.setSeq_seqAt_eq (s : State) (loc : Nat) (q : Seq) : (s.setSeq loc q).seqAt loc = q := by
  simp [State.setSeq, State.seqAt]
theorem State.setSeq_seqAt_ne (s : State) (loc : Nat) (q : Seq) (i : Nat) (h : i ≠ loc) : (s.setSeq loc q).seqAt i = s.seqAt i := by
  simp [State.setSeq, State.seqAt, Tab.look_put_ne _ _ _ _ _ h]
theorem State.setSeq_setSeq (s : State) (loc : Nat) (q q' : Seq) : (s.setSeq loc q).setSeq loc q' = s.setSeq loc q' := by
  unfold State.setSeq
  simp only [Tab.put_put]
@[simp] theorem State.setSeq_coreAt (s : State) (loc : Nat) (q : Seq) (i : Nat) : (s.setSeq loc q).coreAt i = s.coreAt i := rfl
@[simp] theorem State.setSeq_quadAt (s : State) (loc : Nat) (q : Seq) (i : Nat) : (s.setSeq loc q).quadAt i = s.quadAt i := rfl
@[simp] theorem State.setSeq_dieAt (s : State) (loc : Nat) (q : Seq) (i : Nat) : (s.setSeq loc q).dieAt i = s.dieAt i := rfl
@[simp] theorem State.setSeq_vdAt (s : State) (loc : Nat) (q : Seq) (i : Nat) : (s.setSeq loc q).vdAt i = s.vdAt i := rfl
@[simp] theorem State.setSeq_epAt (s : State) (loc : Nat) (q : Seq) (i : Nat) : (s.setSeq loc q).epAt i = s.epAt i := rfl

/-! ### setMe -/

@[simp] theorem State.setMe_agenda (s : State) (q : Seq) : (s.setMe q).agenda = s.agenda := rfl
@[simp] theorem State.setMe_cur (s : State) (q : Seq) : (s.setMe q).cur = s.cur := rfl
@[simp] theorem State.setMe_free (s : State) (q : Seq) : (s.setMe q).free = s.free := rfl
@[simp] theorem State.setMe_now (s : State) (q : Seq) : (s.setMe q).now = s.now := rfl
@[simp] theorem State.setMe_mem (s : State) (q : Seq) : (s.setMe q).mem = s.mem := rfl
@[simp] theorem State.setMe_marks (s : State) (q : Seq) : (s.setMe q).marks = s.marks := rfl
@[simp] theorem State.setMe_module (s : State) (q : Seq) : (s.setMe q).module = s.module := rfl
@[simp] theorem State.setMe_power (s : State) (q : Seq) : (s.setMe q).power = s.power := rfl
@[simp] theorem State.setMe_ready (s : State) (q : Seq) : (s.setMe q).ready = s.ready := rfl
@[simp] theorem State.setMe_boot (s : State) (q : Seq) : (s.setMe q).boot = s.boot := rfl
@[simp] theorem State.setMe_lseq (s : State) (q : Seq) : (s.setMe q).lseq = s.lseq := rfl
@[simp] theorem State.setMe_podMap (s : State) (q : Seq) : (s.setMe q).podMap = s.podMap := rfl
@[simp] theorem State.setMe_rollback (s : State) (q : Seq) : (s.setMe q).rollback = s.rollback := rfl
@[simp] theorem State.setMe_lmsLeaf (s : State) (q : Seq) : (s.setMe q).lmsLeaf = s.lmsLeaf := rfl
@[simp] theorem State.setMe_firmware (s : State) (q : Seq) : (s.setMe q).firmware = s.firmware := rfl
@[simp] theorem State.setMe_hostData (s : State) (q : Seq) : (s.setMe q).hostData = s.hostData := rfl
@[simp] theorem State.setMe_skew (s : State) (q : Seq) : (s.setMe q).skew = s.skew := rfl
@[simp] theorem State.setMe_seqs (s : State) (q : Seq) : (s.setMe q).seqs = s.seqs.put s.cur.loc q := rfl
@[simp] theorem State.setMe_cores (s : State) (q : Seq) : (s.setMe q).cores = s.cores := rfl
@[simp] theorem State.setMe_quads (s : State) (q : Seq) : (s.setMe q).quads = s.quads := rfl
@[simp] theorem State.setMe_dies (s : State) (q : Seq) : (s.setMe q).dies = s.dies := rfl
@[simp] theorem State.setMe_vds (s : State) (q : Seq) : (s.setMe q).vds = s.vds := rfl
@[simp] theorem State.setMe_eps (s : State) (q : Seq) : (s.setMe q).eps = s.eps := rfl
@[simp] theorem State.setMe_net (s : State) (q : Seq) : (s.setMe q).net = s.net := rfl
@[simp] theorem State.setMe_nextPkt (s : State) (q : Seq) : (s.setMe q).nextPkt = s.nextPkt := rfl
@[simp] theorem State.setMe_tokens (s : State) (q : Seq) : (s.setMe q).tokens = s.tokens := rfl
@[simp] theorem State.setMe_links (s : State) (q : Seq) : (s.setMe q).links = s.links := rfl
@[simp] theorem State.setMe_occup (s : State) (q : Seq) : (s.setMe q).occup = s.occup := rfl
@[simp] theorem State.setMe_casts (s : State) (q : Seq) : (s.setMe q).casts = s.casts := rfl
@[simp] theorem State.setMe_gone (s : State) (q : Seq) : (s.setMe q).gone = s.gone := rfl
@[simp] theorem State.setMe_withdraws (s : State) (q : Seq) : (s.setMe q).withdraws = s.withdraws := rfl
@[simp] theorem State.setMe_published (s : State) (q : Seq) : (s.setMe q).published = s.published := rfl
@[simp] theorem State.setMe_saved (s : State) (q : Seq) : (s.setMe q).saved = s.saved := rfl
@[simp] theorem State.setMe_images (s : State) (q : Seq) : (s.setMe q).images = s.images := rfl
@[simp] theorem State.setMe_coreAt (s : State) (q : Seq) (i : Nat) : (s.setMe q).coreAt i = s.coreAt i := rfl
@[simp] theorem State.setMe_quadAt (s : State) (q : Seq) (i : Nat) : (s.setMe q).quadAt i = s.quadAt i := rfl
@[simp] theorem State.setMe_dieAt (s : State) (q : Seq) (i : Nat) : (s.setMe q).dieAt i = s.dieAt i := rfl
@[simp] theorem State.setMe_vdAt (s : State) (q : Seq) (i : Nat) : (s.setMe q).vdAt i = s.vdAt i := rfl
@[simp] theorem State.setMe_epAt (s : State) (q : Seq) (i : Nat) : (s.setMe q).epAt i = s.epAt i := rfl

/-! ### setCore -/

@[simp] theorem State.setCore_agenda (s : State) (c : Nat) (k : Core) : (s.setCore c k).agenda = s.agenda := rfl
@[simp] theorem State.setCore_cur (s : State) (c : Nat) (k : Core) : (s.setCore c k).cur = s.cur := rfl
@[simp] theorem State.setCore_free (s : State) (c : Nat) (k : Core) : (s.setCore c k).free = s.free := rfl
@[simp] theorem State.setCore_now (s : State) (c : Nat) (k : Core) : (s.setCore c k).now = s.now := rfl
@[simp] theorem State.setCore_mem (s : State) (c : Nat) (k : Core) : (s.setCore c k).mem = s.mem := rfl
@[simp] theorem State.setCore_marks (s : State) (c : Nat) (k : Core) : (s.setCore c k).marks = s.marks := rfl
@[simp] theorem State.setCore_module (s : State) (c : Nat) (k : Core) : (s.setCore c k).module = s.module := rfl
@[simp] theorem State.setCore_power (s : State) (c : Nat) (k : Core) : (s.setCore c k).power = s.power := rfl
@[simp] theorem State.setCore_ready (s : State) (c : Nat) (k : Core) : (s.setCore c k).ready = s.ready := rfl
@[simp] theorem State.setCore_boot (s : State) (c : Nat) (k : Core) : (s.setCore c k).boot = s.boot := rfl
@[simp] theorem State.setCore_lseq (s : State) (c : Nat) (k : Core) : (s.setCore c k).lseq = s.lseq := rfl
@[simp] theorem State.setCore_podMap (s : State) (c : Nat) (k : Core) : (s.setCore c k).podMap = s.podMap := rfl
@[simp] theorem State.setCore_rollback (s : State) (c : Nat) (k : Core) : (s.setCore c k).rollback = s.rollback := rfl
@[simp] theorem State.setCore_lmsLeaf (s : State) (c : Nat) (k : Core) : (s.setCore c k).lmsLeaf = s.lmsLeaf := rfl
@[simp] theorem State.setCore_firmware (s : State) (c : Nat) (k : Core) : (s.setCore c k).firmware = s.firmware := rfl
@[simp] theorem State.setCore_hostData (s : State) (c : Nat) (k : Core) : (s.setCore c k).hostData = s.hostData := rfl
@[simp] theorem State.setCore_skew (s : State) (c : Nat) (k : Core) : (s.setCore c k).skew = s.skew := rfl
@[simp] theorem State.setCore_seqs (s : State) (c : Nat) (k : Core) : (s.setCore c k).seqs = s.seqs := rfl
@[simp] theorem State.setCore_cores (s : State) (c : Nat) (k : Core) : (s.setCore c k).cores = s.cores.put c k := rfl
@[simp] theorem State.setCore_quads (s : State) (c : Nat) (k : Core) : (s.setCore c k).quads = s.quads := rfl
@[simp] theorem State.setCore_dies (s : State) (c : Nat) (k : Core) : (s.setCore c k).dies = s.dies := rfl
@[simp] theorem State.setCore_vds (s : State) (c : Nat) (k : Core) : (s.setCore c k).vds = s.vds := rfl
@[simp] theorem State.setCore_eps (s : State) (c : Nat) (k : Core) : (s.setCore c k).eps = s.eps := rfl
@[simp] theorem State.setCore_net (s : State) (c : Nat) (k : Core) : (s.setCore c k).net = s.net := rfl
@[simp] theorem State.setCore_nextPkt (s : State) (c : Nat) (k : Core) : (s.setCore c k).nextPkt = s.nextPkt := rfl
@[simp] theorem State.setCore_tokens (s : State) (c : Nat) (k : Core) : (s.setCore c k).tokens = s.tokens := rfl
@[simp] theorem State.setCore_links (s : State) (c : Nat) (k : Core) : (s.setCore c k).links = s.links := rfl
@[simp] theorem State.setCore_occup (s : State) (c : Nat) (k : Core) : (s.setCore c k).occup = s.occup := rfl
@[simp] theorem State.setCore_casts (s : State) (c : Nat) (k : Core) : (s.setCore c k).casts = s.casts := rfl
@[simp] theorem State.setCore_gone (s : State) (c : Nat) (k : Core) : (s.setCore c k).gone = s.gone := rfl
@[simp] theorem State.setCore_withdraws (s : State) (c : Nat) (k : Core) : (s.setCore c k).withdraws = s.withdraws := rfl
@[simp] theorem State.setCore_published (s : State) (c : Nat) (k : Core) : (s.setCore c k).published = s.published := rfl
@[simp] theorem State.setCore_saved (s : State) (c : Nat) (k : Core) : (s.setCore c k).saved = s.saved := rfl
@[simp] theorem State.setCore_images (s : State) (c : Nat) (k : Core) : (s.setCore c k).images = s.images := rfl
@[simp] theorem State.setCore_seqAt (s : State) (c : Nat) (k : Core) (i : Nat) : (s.setCore c k).seqAt i = s.seqAt i := rfl
@[simp] theorem State.setCore_coreAt_eq (s : State) (c : Nat) (k : Core) : (s.setCore c k).coreAt c = k := by
  simp [State.setCore, State.coreAt]
theorem State.setCore_coreAt_ne (s : State) (c : Nat) (k : Core) (i : Nat) (h : i ≠ c) : (s.setCore c k).coreAt i = s.coreAt i := by
  simp [State.setCore, State.coreAt, Tab.look_put_ne _ _ _ _ _ h]
@[simp] theorem State.setCore_quadAt (s : State) (c : Nat) (k : Core) (i : Nat) : (s.setCore c k).quadAt i = s.quadAt i := rfl
@[simp] theorem State.setCore_dieAt (s : State) (c : Nat) (k : Core) (i : Nat) : (s.setCore c k).dieAt i = s.dieAt i := rfl
@[simp] theorem State.setCore_vdAt (s : State) (c : Nat) (k : Core) (i : Nat) : (s.setCore c k).vdAt i = s.vdAt i := rfl
@[simp] theorem State.setCore_epAt (s : State) (c : Nat) (k : Core) (i : Nat) : (s.setCore c k).epAt i = s.epAt i := rfl

/-! ### setQuad -/

@[simp] theorem State.setQuad_agenda (s : State) (p : Nat) (k : Quad) : (s.setQuad p k).agenda = s.agenda := rfl
@[simp] theorem State.setQuad_cur (s : State) (p : Nat) (k : Quad) : (s.setQuad p k).cur = s.cur := rfl
@[simp] theorem State.setQuad_free (s : State) (p : Nat) (k : Quad) : (s.setQuad p k).free = s.free := rfl
@[simp] theorem State.setQuad_now (s : State) (p : Nat) (k : Quad) : (s.setQuad p k).now = s.now := rfl
@[simp] theorem State.setQuad_mem (s : State) (p : Nat) (k : Quad) : (s.setQuad p k).mem = s.mem := rfl
@[simp] theorem State.setQuad_marks (s : State) (p : Nat) (k : Quad) : (s.setQuad p k).marks = s.marks := rfl
@[simp] theorem State.setQuad_module (s : State) (p : Nat) (k : Quad) : (s.setQuad p k).module = s.module := rfl
@[simp] theorem State.setQuad_power (s : State) (p : Nat) (k : Quad) : (s.setQuad p k).power = s.power := rfl
@[simp] theorem State.setQuad_ready (s : State) (p : Nat) (k : Quad) : (s.setQuad p k).ready = s.ready := rfl
@[simp] theorem State.setQuad_boot (s : State) (p : Nat) (k : Quad) : (s.setQuad p k).boot = s.boot := rfl
@[simp] theorem State.setQuad_lseq (s : State) (p : Nat) (k : Quad) : (s.setQuad p k).lseq = s.lseq := rfl
@[simp] theorem State.setQuad_podMap (s : State) (p : Nat) (k : Quad) : (s.setQuad p k).podMap = s.podMap := rfl
@[simp] theorem State.setQuad_rollback (s : State) (p : Nat) (k : Quad) : (s.setQuad p k).rollback = s.rollback := rfl
@[simp] theorem State.setQuad_lmsLeaf (s : State) (p : Nat) (k : Quad) : (s.setQuad p k).lmsLeaf = s.lmsLeaf := rfl
@[simp] theorem State.setQuad_firmware (s : State) (p : Nat) (k : Quad) : (s.setQuad p k).firmware = s.firmware := rfl
@[simp] theorem State.setQuad_hostData (s : State) (p : Nat) (k : Quad) : (s.setQuad p k).hostData = s.hostData := rfl
@[simp] theorem State.setQuad_skew (s : State) (p : Nat) (k : Quad) : (s.setQuad p k).skew = s.skew := rfl
@[simp] theorem State.setQuad_seqs (s : State) (p : Nat) (k : Quad) : (s.setQuad p k).seqs = s.seqs := rfl
@[simp] theorem State.setQuad_cores (s : State) (p : Nat) (k : Quad) : (s.setQuad p k).cores = s.cores := rfl
@[simp] theorem State.setQuad_quads (s : State) (p : Nat) (k : Quad) : (s.setQuad p k).quads = s.quads.put p k := rfl
@[simp] theorem State.setQuad_dies (s : State) (p : Nat) (k : Quad) : (s.setQuad p k).dies = s.dies := rfl
@[simp] theorem State.setQuad_vds (s : State) (p : Nat) (k : Quad) : (s.setQuad p k).vds = s.vds := rfl
@[simp] theorem State.setQuad_eps (s : State) (p : Nat) (k : Quad) : (s.setQuad p k).eps = s.eps := rfl
@[simp] theorem State.setQuad_net (s : State) (p : Nat) (k : Quad) : (s.setQuad p k).net = s.net := rfl
@[simp] theorem State.setQuad_nextPkt (s : State) (p : Nat) (k : Quad) : (s.setQuad p k).nextPkt = s.nextPkt := rfl
@[simp] theorem State.setQuad_tokens (s : State) (p : Nat) (k : Quad) : (s.setQuad p k).tokens = s.tokens := rfl
@[simp] theorem State.setQuad_links (s : State) (p : Nat) (k : Quad) : (s.setQuad p k).links = s.links := rfl
@[simp] theorem State.setQuad_occup (s : State) (p : Nat) (k : Quad) : (s.setQuad p k).occup = s.occup := rfl
@[simp] theorem State.setQuad_casts (s : State) (p : Nat) (k : Quad) : (s.setQuad p k).casts = s.casts := rfl
@[simp] theorem State.setQuad_gone (s : State) (p : Nat) (k : Quad) : (s.setQuad p k).gone = s.gone := rfl
@[simp] theorem State.setQuad_withdraws (s : State) (p : Nat) (k : Quad) : (s.setQuad p k).withdraws = s.withdraws := rfl
@[simp] theorem State.setQuad_published (s : State) (p : Nat) (k : Quad) : (s.setQuad p k).published = s.published := rfl
@[simp] theorem State.setQuad_saved (s : State) (p : Nat) (k : Quad) : (s.setQuad p k).saved = s.saved := rfl
@[simp] theorem State.setQuad_images (s : State) (p : Nat) (k : Quad) : (s.setQuad p k).images = s.images := rfl
@[simp] theorem State.setQuad_seqAt (s : State) (p : Nat) (k : Quad) (i : Nat) : (s.setQuad p k).seqAt i = s.seqAt i := rfl
@[simp] theorem State.setQuad_coreAt (s : State) (p : Nat) (k : Quad) (i : Nat) : (s.setQuad p k).coreAt i = s.coreAt i := rfl
@[simp] theorem State.setQuad_quadAt_eq (s : State) (p : Nat) (k : Quad) : (s.setQuad p k).quadAt p = k := by
  simp [State.setQuad, State.quadAt]
theorem State.setQuad_quadAt_ne (s : State) (p : Nat) (k : Quad) (i : Nat) (h : i ≠ p) : (s.setQuad p k).quadAt i = s.quadAt i := by
  simp [State.setQuad, State.quadAt, Tab.look_put_ne _ _ _ _ _ h]
@[simp] theorem State.setQuad_dieAt (s : State) (p : Nat) (k : Quad) (i : Nat) : (s.setQuad p k).dieAt i = s.dieAt i := rfl
@[simp] theorem State.setQuad_vdAt (s : State) (p : Nat) (k : Quad) (i : Nat) : (s.setQuad p k).vdAt i = s.vdAt i := rfl
@[simp] theorem State.setQuad_epAt (s : State) (p : Nat) (k : Quad) (i : Nat) : (s.setQuad p k).epAt i = s.epAt i := rfl

/-! ### setDie -/

@[simp] theorem State.setDie_agenda (s : State) (d : Nat) (k : Die) : (s.setDie d k).agenda = s.agenda := rfl
@[simp] theorem State.setDie_cur (s : State) (d : Nat) (k : Die) : (s.setDie d k).cur = s.cur := rfl
@[simp] theorem State.setDie_free (s : State) (d : Nat) (k : Die) : (s.setDie d k).free = s.free := rfl
@[simp] theorem State.setDie_now (s : State) (d : Nat) (k : Die) : (s.setDie d k).now = s.now := rfl
@[simp] theorem State.setDie_mem (s : State) (d : Nat) (k : Die) : (s.setDie d k).mem = s.mem := rfl
@[simp] theorem State.setDie_marks (s : State) (d : Nat) (k : Die) : (s.setDie d k).marks = s.marks := rfl
@[simp] theorem State.setDie_module (s : State) (d : Nat) (k : Die) : (s.setDie d k).module = s.module := rfl
@[simp] theorem State.setDie_power (s : State) (d : Nat) (k : Die) : (s.setDie d k).power = s.power := rfl
@[simp] theorem State.setDie_ready (s : State) (d : Nat) (k : Die) : (s.setDie d k).ready = s.ready := rfl
@[simp] theorem State.setDie_boot (s : State) (d : Nat) (k : Die) : (s.setDie d k).boot = s.boot := rfl
@[simp] theorem State.setDie_lseq (s : State) (d : Nat) (k : Die) : (s.setDie d k).lseq = s.lseq := rfl
@[simp] theorem State.setDie_podMap (s : State) (d : Nat) (k : Die) : (s.setDie d k).podMap = s.podMap := rfl
@[simp] theorem State.setDie_rollback (s : State) (d : Nat) (k : Die) : (s.setDie d k).rollback = s.rollback := rfl
@[simp] theorem State.setDie_lmsLeaf (s : State) (d : Nat) (k : Die) : (s.setDie d k).lmsLeaf = s.lmsLeaf := rfl
@[simp] theorem State.setDie_firmware (s : State) (d : Nat) (k : Die) : (s.setDie d k).firmware = s.firmware := rfl
@[simp] theorem State.setDie_hostData (s : State) (d : Nat) (k : Die) : (s.setDie d k).hostData = s.hostData := rfl
@[simp] theorem State.setDie_skew (s : State) (d : Nat) (k : Die) : (s.setDie d k).skew = s.skew := rfl
@[simp] theorem State.setDie_seqs (s : State) (d : Nat) (k : Die) : (s.setDie d k).seqs = s.seqs := rfl
@[simp] theorem State.setDie_cores (s : State) (d : Nat) (k : Die) : (s.setDie d k).cores = s.cores := rfl
@[simp] theorem State.setDie_quads (s : State) (d : Nat) (k : Die) : (s.setDie d k).quads = s.quads := rfl
@[simp] theorem State.setDie_dies (s : State) (d : Nat) (k : Die) : (s.setDie d k).dies = s.dies.put d k := rfl
@[simp] theorem State.setDie_vds (s : State) (d : Nat) (k : Die) : (s.setDie d k).vds = s.vds := rfl
@[simp] theorem State.setDie_eps (s : State) (d : Nat) (k : Die) : (s.setDie d k).eps = s.eps := rfl
@[simp] theorem State.setDie_net (s : State) (d : Nat) (k : Die) : (s.setDie d k).net = s.net := rfl
@[simp] theorem State.setDie_nextPkt (s : State) (d : Nat) (k : Die) : (s.setDie d k).nextPkt = s.nextPkt := rfl
@[simp] theorem State.setDie_tokens (s : State) (d : Nat) (k : Die) : (s.setDie d k).tokens = s.tokens := rfl
@[simp] theorem State.setDie_links (s : State) (d : Nat) (k : Die) : (s.setDie d k).links = s.links := rfl
@[simp] theorem State.setDie_occup (s : State) (d : Nat) (k : Die) : (s.setDie d k).occup = s.occup := rfl
@[simp] theorem State.setDie_casts (s : State) (d : Nat) (k : Die) : (s.setDie d k).casts = s.casts := rfl
@[simp] theorem State.setDie_gone (s : State) (d : Nat) (k : Die) : (s.setDie d k).gone = s.gone := rfl
@[simp] theorem State.setDie_withdraws (s : State) (d : Nat) (k : Die) : (s.setDie d k).withdraws = s.withdraws := rfl
@[simp] theorem State.setDie_published (s : State) (d : Nat) (k : Die) : (s.setDie d k).published = s.published := rfl
@[simp] theorem State.setDie_saved (s : State) (d : Nat) (k : Die) : (s.setDie d k).saved = s.saved := rfl
@[simp] theorem State.setDie_images (s : State) (d : Nat) (k : Die) : (s.setDie d k).images = s.images := rfl
@[simp] theorem State.setDie_seqAt (s : State) (d : Nat) (k : Die) (i : Nat) : (s.setDie d k).seqAt i = s.seqAt i := rfl
@[simp] theorem State.setDie_coreAt (s : State) (d : Nat) (k : Die) (i : Nat) : (s.setDie d k).coreAt i = s.coreAt i := rfl
@[simp] theorem State.setDie_quadAt (s : State) (d : Nat) (k : Die) (i : Nat) : (s.setDie d k).quadAt i = s.quadAt i := rfl
@[simp] theorem State.setDie_dieAt_eq (s : State) (d : Nat) (k : Die) : (s.setDie d k).dieAt d = k := by
  simp [State.setDie, State.dieAt]
theorem State.setDie_dieAt_ne (s : State) (d : Nat) (k : Die) (i : Nat) (h : i ≠ d) : (s.setDie d k).dieAt i = s.dieAt i := by
  simp [State.setDie, State.dieAt, Tab.look_put_ne _ _ _ _ _ h]
@[simp] theorem State.setDie_vdAt (s : State) (d : Nat) (k : Die) (i : Nat) : (s.setDie d k).vdAt i = s.vdAt i := rfl
@[simp] theorem State.setDie_epAt (s : State) (d : Nat) (k : Die) (i : Nat) : (s.setDie d k).epAt i = s.epAt i := rfl

/-! ### setVd -/

@[simp] theorem State.setVd_agenda (s : State) (n : Nat) (v : Vd) : (s.setVd n v).agenda = s.agenda := rfl
@[simp] theorem State.setVd_cur (s : State) (n : Nat) (v : Vd) : (s.setVd n v).cur = s.cur := rfl
@[simp] theorem State.setVd_free (s : State) (n : Nat) (v : Vd) : (s.setVd n v).free = s.free := rfl
@[simp] theorem State.setVd_now (s : State) (n : Nat) (v : Vd) : (s.setVd n v).now = s.now := rfl
@[simp] theorem State.setVd_mem (s : State) (n : Nat) (v : Vd) : (s.setVd n v).mem = s.mem := rfl
@[simp] theorem State.setVd_marks (s : State) (n : Nat) (v : Vd) : (s.setVd n v).marks = s.marks := rfl
@[simp] theorem State.setVd_module (s : State) (n : Nat) (v : Vd) : (s.setVd n v).module = s.module := rfl
@[simp] theorem State.setVd_power (s : State) (n : Nat) (v : Vd) : (s.setVd n v).power = s.power := rfl
@[simp] theorem State.setVd_ready (s : State) (n : Nat) (v : Vd) : (s.setVd n v).ready = s.ready := rfl
@[simp] theorem State.setVd_boot (s : State) (n : Nat) (v : Vd) : (s.setVd n v).boot = s.boot := rfl
@[simp] theorem State.setVd_lseq (s : State) (n : Nat) (v : Vd) : (s.setVd n v).lseq = s.lseq := rfl
@[simp] theorem State.setVd_podMap (s : State) (n : Nat) (v : Vd) : (s.setVd n v).podMap = s.podMap := rfl
@[simp] theorem State.setVd_rollback (s : State) (n : Nat) (v : Vd) : (s.setVd n v).rollback = s.rollback := rfl
@[simp] theorem State.setVd_lmsLeaf (s : State) (n : Nat) (v : Vd) : (s.setVd n v).lmsLeaf = s.lmsLeaf := rfl
@[simp] theorem State.setVd_firmware (s : State) (n : Nat) (v : Vd) : (s.setVd n v).firmware = s.firmware := rfl
@[simp] theorem State.setVd_hostData (s : State) (n : Nat) (v : Vd) : (s.setVd n v).hostData = s.hostData := rfl
@[simp] theorem State.setVd_skew (s : State) (n : Nat) (v : Vd) : (s.setVd n v).skew = s.skew := rfl
@[simp] theorem State.setVd_seqs (s : State) (n : Nat) (v : Vd) : (s.setVd n v).seqs = s.seqs := rfl
@[simp] theorem State.setVd_cores (s : State) (n : Nat) (v : Vd) : (s.setVd n v).cores = s.cores := rfl
@[simp] theorem State.setVd_quads (s : State) (n : Nat) (v : Vd) : (s.setVd n v).quads = s.quads := rfl
@[simp] theorem State.setVd_dies (s : State) (n : Nat) (v : Vd) : (s.setVd n v).dies = s.dies := rfl
@[simp] theorem State.setVd_vds (s : State) (n : Nat) (v : Vd) : (s.setVd n v).vds = s.vds.put n v := rfl
@[simp] theorem State.setVd_eps (s : State) (n : Nat) (v : Vd) : (s.setVd n v).eps = s.eps := rfl
@[simp] theorem State.setVd_net (s : State) (n : Nat) (v : Vd) : (s.setVd n v).net = s.net := rfl
@[simp] theorem State.setVd_nextPkt (s : State) (n : Nat) (v : Vd) : (s.setVd n v).nextPkt = s.nextPkt := rfl
@[simp] theorem State.setVd_tokens (s : State) (n : Nat) (v : Vd) : (s.setVd n v).tokens = s.tokens := rfl
@[simp] theorem State.setVd_links (s : State) (n : Nat) (v : Vd) : (s.setVd n v).links = s.links := rfl
@[simp] theorem State.setVd_occup (s : State) (n : Nat) (v : Vd) : (s.setVd n v).occup = s.occup := rfl
@[simp] theorem State.setVd_casts (s : State) (n : Nat) (v : Vd) : (s.setVd n v).casts = s.casts := rfl
@[simp] theorem State.setVd_gone (s : State) (n : Nat) (v : Vd) : (s.setVd n v).gone = s.gone := rfl
@[simp] theorem State.setVd_withdraws (s : State) (n : Nat) (v : Vd) : (s.setVd n v).withdraws = s.withdraws := rfl
@[simp] theorem State.setVd_published (s : State) (n : Nat) (v : Vd) : (s.setVd n v).published = s.published := rfl
@[simp] theorem State.setVd_saved (s : State) (n : Nat) (v : Vd) : (s.setVd n v).saved = s.saved := rfl
@[simp] theorem State.setVd_images (s : State) (n : Nat) (v : Vd) : (s.setVd n v).images = s.images := rfl
@[simp] theorem State.setVd_seqAt (s : State) (n : Nat) (v : Vd) (i : Nat) : (s.setVd n v).seqAt i = s.seqAt i := rfl
@[simp] theorem State.setVd_coreAt (s : State) (n : Nat) (v : Vd) (i : Nat) : (s.setVd n v).coreAt i = s.coreAt i := rfl
@[simp] theorem State.setVd_quadAt (s : State) (n : Nat) (v : Vd) (i : Nat) : (s.setVd n v).quadAt i = s.quadAt i := rfl
@[simp] theorem State.setVd_dieAt (s : State) (n : Nat) (v : Vd) (i : Nat) : (s.setVd n v).dieAt i = s.dieAt i := rfl
@[simp] theorem State.setVd_vdAt_eq (s : State) (n : Nat) (v : Vd) : (s.setVd n v).vdAt n = v := by
  simp [State.setVd, State.vdAt]
theorem State.setVd_vdAt_ne (s : State) (n : Nat) (v : Vd) (i : Nat) (h : i ≠ n) : (s.setVd n v).vdAt i = s.vdAt i := by
  simp [State.setVd, State.vdAt, Tab.look_put_ne _ _ _ _ _ h]
@[simp] theorem State.setVd_epAt (s : State) (n : Nat) (v : Vd) (i : Nat) : (s.setVd n v).epAt i = s.epAt i := rfl

/-! ### setEp -/

@[simp] theorem State.setEp_agenda (s : State) (e : Nat) (k : Endpoint) : (s.setEp e k).agenda = s.agenda := rfl
@[simp] theorem State.setEp_cur (s : State) (e : Nat) (k : Endpoint) : (s.setEp e k).cur = s.cur := rfl
@[simp] theorem State.setEp_free (s : State) (e : Nat) (k : Endpoint) : (s.setEp e k).free = s.free := rfl
@[simp] theorem State.setEp_now (s : State) (e : Nat) (k : Endpoint) : (s.setEp e k).now = s.now := rfl
@[simp] theorem State.setEp_mem (s : State) (e : Nat) (k : Endpoint) : (s.setEp e k).mem = s.mem := rfl
@[simp] theorem State.setEp_marks (s : State) (e : Nat) (k : Endpoint) : (s.setEp e k).marks = s.marks := rfl
@[simp] theorem State.setEp_module (s : State) (e : Nat) (k : Endpoint) : (s.setEp e k).module = s.module := rfl
@[simp] theorem State.setEp_power (s : State) (e : Nat) (k : Endpoint) : (s.setEp e k).power = s.power := rfl
@[simp] theorem State.setEp_ready (s : State) (e : Nat) (k : Endpoint) : (s.setEp e k).ready = s.ready := rfl
@[simp] theorem State.setEp_boot (s : State) (e : Nat) (k : Endpoint) : (s.setEp e k).boot = s.boot := rfl
@[simp] theorem State.setEp_lseq (s : State) (e : Nat) (k : Endpoint) : (s.setEp e k).lseq = s.lseq := rfl
@[simp] theorem State.setEp_podMap (s : State) (e : Nat) (k : Endpoint) : (s.setEp e k).podMap = s.podMap := rfl
@[simp] theorem State.setEp_rollback (s : State) (e : Nat) (k : Endpoint) : (s.setEp e k).rollback = s.rollback := rfl
@[simp] theorem State.setEp_lmsLeaf (s : State) (e : Nat) (k : Endpoint) : (s.setEp e k).lmsLeaf = s.lmsLeaf := rfl
@[simp] theorem State.setEp_firmware (s : State) (e : Nat) (k : Endpoint) : (s.setEp e k).firmware = s.firmware := rfl
@[simp] theorem State.setEp_hostData (s : State) (e : Nat) (k : Endpoint) : (s.setEp e k).hostData = s.hostData := rfl
@[simp] theorem State.setEp_skew (s : State) (e : Nat) (k : Endpoint) : (s.setEp e k).skew = s.skew := rfl
@[simp] theorem State.setEp_seqs (s : State) (e : Nat) (k : Endpoint) : (s.setEp e k).seqs = s.seqs := rfl
@[simp] theorem State.setEp_cores (s : State) (e : Nat) (k : Endpoint) : (s.setEp e k).cores = s.cores := rfl
@[simp] theorem State.setEp_quads (s : State) (e : Nat) (k : Endpoint) : (s.setEp e k).quads = s.quads := rfl
@[simp] theorem State.setEp_dies (s : State) (e : Nat) (k : Endpoint) : (s.setEp e k).dies = s.dies := rfl
@[simp] theorem State.setEp_vds (s : State) (e : Nat) (k : Endpoint) : (s.setEp e k).vds = s.vds := rfl
@[simp] theorem State.setEp_eps (s : State) (e : Nat) (k : Endpoint) : (s.setEp e k).eps = s.eps.put e k := rfl
@[simp] theorem State.setEp_net (s : State) (e : Nat) (k : Endpoint) : (s.setEp e k).net = s.net := rfl
@[simp] theorem State.setEp_nextPkt (s : State) (e : Nat) (k : Endpoint) : (s.setEp e k).nextPkt = s.nextPkt := rfl
@[simp] theorem State.setEp_tokens (s : State) (e : Nat) (k : Endpoint) : (s.setEp e k).tokens = s.tokens := rfl
@[simp] theorem State.setEp_links (s : State) (e : Nat) (k : Endpoint) : (s.setEp e k).links = s.links := rfl
@[simp] theorem State.setEp_occup (s : State) (e : Nat) (k : Endpoint) : (s.setEp e k).occup = s.occup := rfl
@[simp] theorem State.setEp_casts (s : State) (e : Nat) (k : Endpoint) : (s.setEp e k).casts = s.casts := rfl
@[simp] theorem State.setEp_gone (s : State) (e : Nat) (k : Endpoint) : (s.setEp e k).gone = s.gone := rfl
@[simp] theorem State.setEp_withdraws (s : State) (e : Nat) (k : Endpoint) : (s.setEp e k).withdraws = s.withdraws := rfl
@[simp] theorem State.setEp_published (s : State) (e : Nat) (k : Endpoint) : (s.setEp e k).published = s.published := rfl
@[simp] theorem State.setEp_saved (s : State) (e : Nat) (k : Endpoint) : (s.setEp e k).saved = s.saved := rfl
@[simp] theorem State.setEp_images (s : State) (e : Nat) (k : Endpoint) : (s.setEp e k).images = s.images := rfl
@[simp] theorem State.setEp_seqAt (s : State) (e : Nat) (k : Endpoint) (i : Nat) : (s.setEp e k).seqAt i = s.seqAt i := rfl
@[simp] theorem State.setEp_coreAt (s : State) (e : Nat) (k : Endpoint) (i : Nat) : (s.setEp e k).coreAt i = s.coreAt i := rfl
@[simp] theorem State.setEp_quadAt (s : State) (e : Nat) (k : Endpoint) (i : Nat) : (s.setEp e k).quadAt i = s.quadAt i := rfl
@[simp] theorem State.setEp_dieAt (s : State) (e : Nat) (k : Endpoint) (i : Nat) : (s.setEp e k).dieAt i = s.dieAt i := rfl
@[simp] theorem State.setEp_vdAt (s : State) (e : Nat) (k : Endpoint) (i : Nat) : (s.setEp e k).vdAt i = s.vdAt i := rfl
@[simp] theorem State.setEp_epAt_eq (s : State) (e : Nat) (k : Endpoint) : (s.setEp e k).epAt e = k := by
  simp [State.setEp, State.epAt]
theorem State.setEp_epAt_ne (s : State) (e : Nat) (k : Endpoint) (i : Nat) (h : i ≠ e) : (s.setEp e k).epAt i = s.epAt i := by
  simp [State.setEp, State.epAt, Tab.look_put_ne _ _ _ _ _ h]

/-! ### setMem -/

@[simp] theorem State.setMem_agenda (s : State) (m : Memory) : (s.setMem m).agenda = s.agenda := rfl
@[simp] theorem State.setMem_cur (s : State) (m : Memory) : (s.setMem m).cur = s.cur := rfl
@[simp] theorem State.setMem_free (s : State) (m : Memory) : (s.setMem m).free = s.free := rfl
@[simp] theorem State.setMem_now (s : State) (m : Memory) : (s.setMem m).now = s.now := rfl
@[simp] theorem State.setMem_mem (s : State) (m : Memory) : (s.setMem m).mem = m := rfl
@[simp] theorem State.setMem_marks (s : State) (m : Memory) : (s.setMem m).marks = s.marks := rfl
@[simp] theorem State.setMem_module (s : State) (m : Memory) : (s.setMem m).module = s.module := rfl
@[simp] theorem State.setMem_power (s : State) (m : Memory) : (s.setMem m).power = s.power := rfl
@[simp] theorem State.setMem_ready (s : State) (m : Memory) : (s.setMem m).ready = s.ready := rfl
@[simp] theorem State.setMem_boot (s : State) (m : Memory) : (s.setMem m).boot = s.boot := rfl
@[simp] theorem State.setMem_lseq (s : State) (m : Memory) : (s.setMem m).lseq = s.lseq := rfl
@[simp] theorem State.setMem_podMap (s : State) (m : Memory) : (s.setMem m).podMap = s.podMap := rfl
@[simp] theorem State.setMem_rollback (s : State) (m : Memory) : (s.setMem m).rollback = s.rollback := rfl
@[simp] theorem State.setMem_lmsLeaf (s : State) (m : Memory) : (s.setMem m).lmsLeaf = s.lmsLeaf := rfl
@[simp] theorem State.setMem_firmware (s : State) (m : Memory) : (s.setMem m).firmware = s.firmware := rfl
@[simp] theorem State.setMem_hostData (s : State) (m : Memory) : (s.setMem m).hostData = s.hostData := rfl
@[simp] theorem State.setMem_skew (s : State) (m : Memory) : (s.setMem m).skew = s.skew := rfl
@[simp] theorem State.setMem_seqs (s : State) (m : Memory) : (s.setMem m).seqs = s.seqs := rfl
@[simp] theorem State.setMem_cores (s : State) (m : Memory) : (s.setMem m).cores = s.cores := rfl
@[simp] theorem State.setMem_quads (s : State) (m : Memory) : (s.setMem m).quads = s.quads := rfl
@[simp] theorem State.setMem_dies (s : State) (m : Memory) : (s.setMem m).dies = s.dies := rfl
@[simp] theorem State.setMem_vds (s : State) (m : Memory) : (s.setMem m).vds = s.vds := rfl
@[simp] theorem State.setMem_eps (s : State) (m : Memory) : (s.setMem m).eps = s.eps := rfl
@[simp] theorem State.setMem_net (s : State) (m : Memory) : (s.setMem m).net = s.net := rfl
@[simp] theorem State.setMem_nextPkt (s : State) (m : Memory) : (s.setMem m).nextPkt = s.nextPkt := rfl
@[simp] theorem State.setMem_tokens (s : State) (m : Memory) : (s.setMem m).tokens = s.tokens := rfl
@[simp] theorem State.setMem_links (s : State) (m : Memory) : (s.setMem m).links = s.links := rfl
@[simp] theorem State.setMem_occup (s : State) (m : Memory) : (s.setMem m).occup = s.occup := rfl
@[simp] theorem State.setMem_casts (s : State) (m : Memory) : (s.setMem m).casts = s.casts := rfl
@[simp] theorem State.setMem_gone (s : State) (m : Memory) : (s.setMem m).gone = s.gone := rfl
@[simp] theorem State.setMem_withdraws (s : State) (m : Memory) : (s.setMem m).withdraws = s.withdraws := rfl
@[simp] theorem State.setMem_published (s : State) (m : Memory) : (s.setMem m).published = s.published := rfl
@[simp] theorem State.setMem_saved (s : State) (m : Memory) : (s.setMem m).saved = s.saved := rfl
@[simp] theorem State.setMem_images (s : State) (m : Memory) : (s.setMem m).images = s.images := rfl
@[simp] theorem State.setMem_seqAt (s : State) (m : Memory) (i : Nat) : (s.setMem m).seqAt i = s.seqAt i := rfl
@[simp] theorem State.setMem_coreAt (s : State) (m : Memory) (i : Nat) : (s.setMem m).coreAt i = s.coreAt i := rfl
@[simp] theorem State.setMem_quadAt (s : State) (m : Memory) (i : Nat) : (s.setMem m).quadAt i = s.quadAt i := rfl
@[simp] theorem State.setMem_dieAt (s : State) (m : Memory) (i : Nat) : (s.setMem m).dieAt i = s.dieAt i := rfl
@[simp] theorem State.setMem_vdAt (s : State) (m : Memory) (i : Nat) : (s.setMem m).vdAt i = s.vdAt i := rfl
@[simp] theorem State.setMem_epAt (s : State) (m : Memory) (i : Nat) : (s.setMem m).epAt i = s.epAt i := rfl

/-! ### The issuing sequencer -/

@[simp] theorem State.me_setMe (s : State) (q : Seq) : (s.setMe q).me = q := by simp [State.me, State.setMe]
@[simp] theorem State.seqAt_setMe (s : State) (q : Seq) : (s.setMe q).seqAt s.cur.loc = q := by simp [State.setMe]
theorem State.seqAt_setMe_ne (s : State) (q : Seq) (i : Nat) (h : i ≠ s.cur.loc) : (s.setMe q).seqAt i = s.seqAt i := by
  simp [State.setMe, State.setSeq_seqAt_ne _ _ _ _ h]
@[simp] theorem State.setCore_me (s : State) (c : Nat) (k : Core) : (s.setCore c k).me = s.me := rfl
@[simp] theorem State.setQuad_me (s : State) (p : Nat) (k : Quad) : (s.setQuad p k).me = s.me := rfl
@[simp] theorem State.setDie_me (s : State) (d : Nat) (k : Die) : (s.setDie d k).me = s.me := rfl
@[simp] theorem State.setVd_me (s : State) (n : Nat) (v : Vd) : (s.setVd n v).me = s.me := rfl
@[simp] theorem State.setEp_me (s : State) (e : Nat) (k : Endpoint) : (s.setEp e k).me = s.me := rfl
@[simp] theorem State.setMem_me (s : State) (m : Memory) : (s.setMem m).me = s.me := rfl

end Sys2Proof.Machine
end

