-- ==== Sys2Proof/Laws/Entry.lean ====
section
/-! SUPPORT. What taking a trap does: the sequencer that stands frozen, the record, the handler entered or the lane told. -/

namespace Sys2Proof.Machine

set_option Elab.async false
set_option linter.unusedSimpArgs false
set_option linter.unusedVariables false

theorem perf_same (s : State) (loc c n : Nat) : perf s loc c n = s ∨ ∃ vd v, perf s loc c n = s.setVd vd { s.vdAt vd with perfCnt := v } := by
  unfold perf
  split
  · exact .inl rfl
  · dsimp only
    split
    · exact .inl rfl
    · exact .inr ⟨_, _, rfl⟩

theorem perf_seqs (s : State) (loc c n l : Nat) : (perf s loc c n).seqAt l = s.seqAt l := by
  rcases perf_same s loc c n with h | ⟨vd, v, h⟩ <;> rw [h]
  rfl

theorem perf_dies (s : State) (loc c n l : Nat) : (perf s loc c n).dieAt l = s.dieAt l := by
  rcases perf_same s loc c n with h | ⟨vd, v, h⟩ <;> rw [h]
  rfl

theorem perf_module (s : State) (loc c n : Nat) : (perf s loc c n).module = s.module := by
  rcases perf_same s loc c n with h | ⟨vd, v, h⟩ <;> rw [h]
  rfl

theorem perf_vtime (s : State) (loc c n d : Nat) : vtime (perf s loc c n) d = vtime s d := by
  rcases perf_same s loc c n with h | ⟨vd, v, h⟩ <;> rw [h]
  unfold vtime
  dsimp only
  by_cases hd : d = vd
  · subst hd
    rw [State.setVd_vdAt_eq]
    rfl
  · rw [State.setVd_vdAt_ne _ _ _ _ hd]
    rfl

theorem trapRecord_perf (s : State) (loc slot i code info aux c n : Nat) : trapRecord (perf s loc c n) loc slot i code info aux = trapRecord s loc slot i code info aux := by
  unfold trapRecord fullLoc
  simp only [perf_seqs, perf_module, perf_vtime]

/-- What the landing of results never touches: steps, queue, fetch state, loops. -/
structure SameCtl (q u : Seq) : Prop where
  steps : u.steps = q.steps
  lastSync : u.lastSync = q.lastSync
  queue : u.queue = q.queue
  nextIdx : u.nextIdx = q.nextIdx
  pc : u.pc = q.pc
  hold : u.hold = q.hold
  loops : u.loops = q.loops
  record : u.record = q.record
  frame : u.frame = q.frame
  status : u.status = q.status
  repInfo : u.repInfo = q.repInfo
  repRet : u.repRet = q.repRet

theorem SameCtl.refl (q : Seq) : SameCtl q q := by constructor <;> rfl

theorem SameCtl.trans {a b c : Seq} (h1 : SameCtl a b) (h2 : SameCtl b c) : SameCtl a c := by
  obtain ⟨a1, a2, a3, a4, a5, a6, a7, a8, a9, a10, a11, a12⟩ := h1
  obtain ⟨b1, b2, b3, b4, b5, b6, b7, b8, b9, b10, b11, b12⟩ := h2
  constructor <;> simp [*]

theorem setSeq_ctl {s : State} {loc : Nat} {q : Seq} (h : SameCtl (s.seqAt loc) q) : SameCtl (s.seqAt loc) ((s.setSeq loc q).seqAt loc) := by
  rw [State.setSeq_seqAt_eq]; exact h

theorem regPut_ctl (s : State) (loc : Nat) (r : Reg) (v : Vec) : SameCtl (s.seqAt loc) ((regPut s loc r v).seqAt loc) := by
  unfold regPut
  dsimp only
  cases r.file <;> dsimp only <;> (try split) <;> first | exact SameCtl.refl _ | (refine setSeq_ctl ?_; constructor <;> rfl)

theorem setMark_ctl (s : State) (loc : Nat) (r : Reg) (m : Option Nat) : SameCtl (s.seqAt loc) ((setMark s loc r m).seqAt loc) := by
  unfold setMark
  dsimp only
  split
  · exact SameCtl.refl _
  · refine setSeq_ctl ?_; constructor <;> rfl

theorem clearErr_ctl (s : State) (loc : Nat) (r : Reg) (m : Nat) : SameCtl (s.seqAt loc) ((clearErr s loc r m).seqAt loc) := by
  unfold clearErr
  dsimp only
  split
  · refine setSeq_ctl ?_; constructor <;> rfl
  · exact SameCtl.refl _

theorem endGhosts_seq (s : State) (loc l : Nat) (r : Reg) : (endGhosts s loc r).seqAt l = s.seqAt l := by
  unfold endGhosts
  dsimp only
  split <;> rfl

theorem noteOld_ctl (s : State) (loc : Nat) (r : Reg) (e : Pend) : SameCtl (s.seqAt loc) ((noteOld s loc r e).seqAt loc) := by
  unfold noteOld
  dsimp only
  rw [← endGhosts_seq s loc loc r]
  split
  · unfold addGhost
    dsimp only
    split
    · exact SameCtl.refl _
    · refine setSeq_ctl ?_; constructor <;> rfl
  · exact SameCtl.refl _

theorem landFlags_ctl (s : State) (loc : Nat) (all : List Pend) (e : Pend) : SameCtl (s.seqAt loc) ((landFlags s loc all e).seqAt loc) := by
  unfold landFlags
  dsimp only
  refine setSeq_ctl ?_
  split <;> split <;> (constructor <;> rfl)

theorem landOne_ctl (s : State) (loc : Nat) (all : List Pend) (e : Pend) : SameCtl (s.seqAt loc) ((landOne s loc all e).seqAt loc) := by
  unfold landOne
  dsimp only
  refine (landFlags_ctl s loc all e).trans ?_
  generalize landFlags s loc all e = s
  split
  · exact SameCtl.refl _
  · split
    · exact SameCtl.refl _
    · rename_i r _ _
      have h := fun m => (noteOld_ctl s loc r e).trans (setMark_ctl (noteOld s loc r e) loc r m)
      split
      · exact h _
      · exact (h _).trans ((clearErr_ctl _ _ _ _).trans (regPut_ctl _ _ _ _))

theorem landDue_ctl (loc : Nat) (due : Pend → Bool) (block : Bool) (all ps kept : List Pend) (s : State) : SameCtl (s.seqAt loc) ((landDue loc due block all ps kept s).1.seqAt loc) := by
  induction ps generalizing kept s with
  | nil => exact SameCtl.refl _
  | cons e ps ih =>
    unfold landDue
    split
    · split
      · exact (landFlags_ctl _ _ _ _).trans (ih _ _)
      · exact (landOne_ctl _ _ _ _).trans (ih _ _)
    · exact ih _ _

theorem landImage_ctl (s : State) (loc : Nat) : SameCtl (s.seqAt loc) ((landImage s loc).seqAt loc) := by
  unfold landImage
  dsimp only
  rw [State.setSeq_seqAt_eq]
  have h := landDue_ctl loc (landedImage (s.seqAt loc) (encodedPend (s.seqAt loc) (Slot.all.foldl (fun n x => Nat.max n (stepOf (s.seqAt loc) x)) 0)))
    false (s.seqAt loc).pend (s.seqAt loc).pend [] s
  exact h.trans (by constructor <;> rfl)

theorem landImage_pend (s : State) (loc : Nat) : ((landImage s loc).seqAt loc).pend.map (fun e => (e.uid, e.slot, e.dst, e.val, e.mask, e.li)) =
    (s.seqAt loc).pend.map (fun e => (e.uid, e.slot, e.dst, e.val, e.mask, e.li)) := by
  unfold landImage
  dsimp only
  rw [State.setSeq_seqAt_eq]
  dsimp only
  rw [List.map_map]
  congr 1
  funext e
  simp only [Function.comp]
  split <;> rfl

theorem enterHandler_seq (s : State) (loc pc rc : Nat) :
    let q := s.seqAt loc
    let u := (enterHandler s loc pc rc).seqAt loc
    u.status = 1 ∧ u.steps = [] ∧ u.pend = [] ∧ u.queue = [] ∧ u.nextIdx = 0 ∧ u.hold = none ∧ u.loops = [] ∧ u.trapRec = BitVec.ofNat 512 rc ∧ u.pc = pc ∧
    u.repInfo = q.repInfo ∧ u.repRet = q.repRet ∧
    ∃ f, u.frame = some f ∧ f.record = BitVec.ofNat 512 rc ∧ f.steps = q.steps ∧ f.queue = q.queue ∧ f.nextIdx = q.nextIdx ∧ f.pc = q.pc ∧ f.hold = q.hold ∧
      f.loops = q.loops ∧ f.pend.map (fun e => (e.uid, e.slot, e.dst, e.val, e.mask, e.li)) = q.pend.map (fun e => (e.uid, e.slot, e.dst, e.val, e.mask, e.li)) := by
  have h := landImage_ctl s loc
  unfold enterHandler
  dsimp only
  rw [State.setSeq_seqAt_eq]
  refine ⟨rfl, rfl, rfl, rfl, rfl, rfl, rfl, rfl, rfl, h.repInfo, h.repRet, _, rfl, rfl, h.steps, h.queue, h.nextIdx, h.pc, h.hold, h.loops, landImage_pend s loc⟩

/-- The sequencer as a trap leaves it frozen. -/
def frozen (s : State) (loc slot i code info : Nat) (rc : Nat) : Seq :=
  let q := stopClocks s.now (if slot = Slot.num .L then { s.seqAt loc with halo := none } else s.seqAt loc)
  let q := { q with status := 3, record := BitVec.ofNat 512 rc, trapSlot := slot, stalled := 0 }
  if code = 0x20 then { q with repInfo := BitVec.ofNat 64 (info - info / 2 ^ 14 % 2 * 2 ^ 14), repRet := BitVec.ofNat 64 (bundleAddr q i) } else q

theorem takeTrap_eq (s : State) (loc slot i code info aux : Nat) : takeTrap s loc slot i code info aux =
    let p := perf s loc 7 1
    let rc := trapRecord p loc slot i code info aux
    let q := frozen p loc slot i code info rc
    let u := p.setSeq loc q
    if code = 0x20 ∧ srAt q 4 i q.replay ≠ 0 ∧ q.frame.isNone then enterHandler u loc (bitsAt (srAt q 4 i q.replay).toNat 6 46 * 64) rc
    else if handledCode code ∧ srAt q 7 i q.tvec ≠ 0 ∧ q.frame.isNone then enterHandler u loc (bitsAt (srAt q 7 i q.tvec).toNat 6 46 * 64) rc
    else deliverTrap u loc code rc := by
  unfold takeTrap
  generalize perf s loc 7 1 = p
  by_cases h : code = 0x20
  · simp only [frozen, if_pos h, h, true_and]
  · simp only [frozen, if_neg h, h, false_and]

theorem frozen_keeps (s : State) (loc slot i code info rc : Nat) :
    let q := s.seqAt loc
    let u := frozen s loc slot i code info rc
    u.status = 3 ∧ u.record = BitVec.ofNat 512 rc ∧ u.trapSlot = slot ∧ u.frame = q.frame ∧ u.steps = q.steps ∧ u.pend = q.pend ∧ u.queue = q.queue ∧
    u.nextIdx = q.nextIdx ∧ u.pc = q.pc ∧ u.hold = q.hold ∧ u.loops = q.loops ∧ u.replay = q.replay ∧ u.tvec = q.tvec ∧ u.srPrev = q.srPrev ∧ u.task = q.task ∧
    (code = 0x20 → u.repRet = BitVec.ofNat 64 (bundleAddr q i) ∧ u.repInfo = BitVec.ofNat 64 (info - info / 2 ^ 14 % 2 * 2 ^ 14)) := by
  unfold frozen stopClocks
  dsimp only
  by_cases h : code = 0x20
  · rw [if_pos h]
    split <;> exact ⟨rfl, rfl, rfl, rfl, rfl, rfl, rfl, rfl, rfl, rfl, rfl, rfl, rfl, rfl, rfl, fun _ => ⟨rfl, rfl⟩⟩
  · rw [if_neg h]
    split <;> exact ⟨rfl, rfl, rfl, rfl, rfl, rfl, rfl, rfl, rfl, rfl, rfl, rfl, rfl, rfl, rfl, fun hc => absurd hc h⟩

/-- A sequencer whose trap has gone to a lane: where it awaits the end of its slice, it is saved so (R332). -/
def deliveredSeq (q : Seq) : Seq := { q with delivered := true, slice := none, save := if q.slice.isSome then 1 else q.save }

theorem deliveredSeq_none {q : Seq} (h : q.slice = none) : deliveredSeq q = { q with delivered := true } := by
  cases q
  dsimp only at h
  subst h
  rfl

theorem deliveredSeq_some {q : Seq} {t : Nat} (h : q.slice = some t) :
    deliveredSeq q = { q with delivered := true, slice := none, save := 1 } := by
  unfold deliveredSeq
  rw [h]
  rfl

theorem deliverTrap_seq (s : State) (loc code rc : Nat) : (deliverTrap s loc code rc).seqAt loc = deliveredSeq (s.seqAt loc) := by
  cases h : (s.seqAt loc).slice with
  | none =>
    rw [deliveredSeq_none h]
    unfold deliverTrap
    dsimp only
    rw [h]
    split <;> exact State.setSeq_seqAt_eq _ _ _
  | some t =>
    rw [deliveredSeq_some h]
    unfold deliverTrap
    dsimp only
    rw [h]
    split <;> exact State.setSeq_seqAt_eq _ _ _

end Sys2Proof.Machine
end

