-- ==== Sys2Proof/Laws/Memory.lean ====
section
/-! SUPPORT. The laws of memory: a read after a write, every other byte as before, and the canonical form kept. -/

namespace Sys2Proof.Machine

set_option Elab.async false

/-! ### The canonical form -/

/-- The canonical form is: no blank entry, and addresses strictly rising. -/
theorem Memory.wf_iff (m : Memory) : m.wf = true ↔ (∀ c ∈ m, c.2 ≠ 0) ∧ m.Pairwise (fun a b => a.1 < b.1) := by
  induction m with
  | nil => simp [Memory.wf]
  | cons c r ih =>
    cases r with
    | nil => simp [Memory.wf]
    | cons d r =>
      simp only [Memory.wf, Bool.and_eq_true, bne_iff_ne, ne_eq, decide_eq_true_eq, ih, List.mem_cons, List.pairwise_cons]
      constructor
      · rintro ⟨⟨h0, h1⟩, h2, h3, h4⟩
        refine ⟨fun x hx => ?_, fun x hx => ?_, h3, h4⟩
        · rcases hx with rfl | hx
          · exact h0
          · exact h2 x hx
        · rcases hx with rfl | hx
          · exact h1
          · exact Nat.lt_trans h1 (h3 x hx)
      · rintro ⟨h0, h1, h3, h4⟩
        exact ⟨⟨h0 c (Or.inl rfl), h1 d (Or.inl rfl)⟩, fun x hx => h0 x (Or.inr hx), h3, h4⟩

/-- What follows an entry of a canonical memory is canonical. -/
theorem Memory.wf_tail {c : Host.Cell} {r : Memory} (h : Memory.wf (c :: r) = true) : r.wf = true := by
  rw [Memory.wf_iff] at h ⊢
  exact ⟨fun x hx => h.1 x (List.mem_cons_of_mem _ hx), (List.pairwise_cons.1 h.2).2⟩

/-- Keeping some entries keeps the form. -/
theorem Memory.wf_filter (p : Host.Cell → Bool) {m : Memory} (h : m.wf = true) : Memory.wf (m.filter p) = true := by
  rw [Memory.wf_iff] at h ⊢
  exact ⟨fun x hx => h.1 x (List.mem_filter.1 hx).1, h.2.filter p⟩

/-- An entry after a store is the byte stored, or one that was there at another address. -/
theorem Memory.mem_store {m : Memory} {a : Nat} {b : Byte} {c : Host.Cell} (h : c ∈ m.store a b) :
    (c = (a, b) ∧ b ≠ 0) ∨ c ∈ m := by
  induction m with
  | nil =>
    simp only [Memory.store, Memory.cons] at h
    split at h
    · simp at h
    · exact Or.inl ⟨by simpa using h, ‹_›⟩
  | cons d r ih =>
    simp only [Memory.store] at h
    split at h
    · simp only [Memory.cons] at h
      split at h
      · exact Or.inr (List.mem_cons_of_mem _ h)
      · rcases List.mem_cons.1 h with h | h
        · exact Or.inl ⟨h, ‹_›⟩
        · exact Or.inr (List.mem_cons_of_mem _ h)
    · split at h
      · simp only [Memory.cons] at h
        split at h
        · exact Or.inr h
        · rcases List.mem_cons.1 h with h | h
          · exact Or.inl ⟨h, ‹_›⟩
          · exact Or.inr h
      · rcases List.mem_cons.1 h with h | h
        · exact Or.inr (h ▸ List.mem_cons_self)
        · rcases ih h with h | h
          · exact Or.inl h
          · exact Or.inr (List.mem_cons_of_mem _ h)

/-- A store keeps the canonical form. -/
@[simp] theorem Memory.wf_store {m : Memory} (h : m.wf = true) (a : Nat) (b : Byte) : Memory.wf (m.store a b) = true := by
  induction m with
  | nil =>
    simp only [Memory.store, Memory.cons]
    split
    · rfl
    · simp only [Memory.wf, bne_iff_ne, ne_eq]
      assumption
  | cons c r ih =>
    have ht := Memory.wf_tail h
    rw [Memory.wf_iff] at h
    have hc := h.1 c List.mem_cons_self
    have hp := List.pairwise_cons.1 h.2
    simp only [Memory.store]
    split
    · rename_i he
      simp only [Memory.cons]
      split
      · exact ht
      · rw [Memory.wf_iff]
        refine ⟨fun x hx => ?_, List.pairwise_cons.2 ⟨fun x hx => ?_, hp.2⟩⟩
        · rcases List.mem_cons.1 hx with rfl | hx
          · assumption
          · exact h.1 x (List.mem_cons_of_mem _ hx)
        · exact he ▸ hp.1 x hx
    · split
      · rename_i hlt
        simp only [Memory.cons]
        split
        · rw [Memory.wf_iff]; exact h
        · rw [Memory.wf_iff]
          refine ⟨fun x hx => ?_, List.pairwise_cons.2 ⟨fun x hx => ?_, h.2⟩⟩
          · rcases List.mem_cons.1 hx with rfl | hx
            · assumption
            · exact h.1 x hx
          · rcases List.mem_cons.1 hx with rfl | hx
            · exact hlt
            · exact Nat.lt_trans hlt (hp.1 x hx)
      · have hi := (Memory.wf_iff _).1 (ih ht)
        rw [Memory.wf_iff]
        refine ⟨fun x hx => ?_, List.pairwise_cons.2 ⟨fun x hx => ?_, hi.2⟩⟩
        · rcases List.mem_cons.1 hx with rfl | hx
          · exact hc
          · exact hi.1 x hx
        · rcases Memory.mem_store hx with ⟨rfl, -⟩ | hx
          · show c.1 < a
            omega
          · exact hp.1 x hx

/-- Writing a list of bytes keeps the form. -/
@[simp] theorem Memory.wf_storeAll {m : Memory} (h : m.wf = true) (a : Nat) (bs : List Byte) :
    Memory.wf (m.storeAll a bs) = true := by
  induction bs generalizing m a with
  | nil => exact h
  | cons b bs ih => exact ih (Memory.wf_store h a b) (a + 1)

/-- Writing under a mask keeps the form. -/
@[simp] theorem Memory.wf_storeMask {m : Memory} (h : m.wf = true) (a : Nat) (bs : List Byte) (k : Nat) :
    Memory.wf (m.storeMask a bs k) = true := by
  induction bs generalizing m a k with
  | nil => exact h
  | cons b bs ih =>
    simp only [Memory.storeMask]
    apply ih
    split
    · exact Memory.wf_store h a b
    · exact h

/-- The entries inside a range are in canonical form. -/
@[simp] theorem Memory.wf_inside {m : Memory} (h : m.wf = true) (lo n : Nat) : Memory.wf (m.inside lo n) = true :=
  Memory.wf_filter _ h

/-- Blanking a range keeps the form. -/
@[simp] theorem Memory.wf_erase {m : Memory} (h : m.wf = true) (lo n : Nat) : Memory.wf (m.erase lo n) = true :=
  Memory.wf_filter _ h

/-! ### Reading -/

/-- Below its first entry a canonical memory reads blank. -/
theorem Memory.look_below {m : Memory} {a : Nat} (h : ∀ c ∈ m, a < c.1) : m.look a = Memory.blank := by
  cases m with
  | nil => rfl
  | cons c r =>
    have := h c List.mem_cons_self
    have h1 : ¬ c.1 = a := by omega
    simp [Memory.look, h1, this]

/-- A read after a write to the same byte gives the byte written. -/
theorem Memory.look_store_eq {m : Memory} (h : m.wf = true) (a : Nat) (b : Byte) : (m.store a b).look a = b := by
  induction m with
  | nil =>
    simp only [Memory.store, Memory.cons]
    split
    · simp [Memory.look, *]
    · simp [Memory.look]
  | cons c r ih =>
    have hp := List.pairwise_cons.1 ((Memory.wf_iff _).1 h).2
    simp only [Memory.store]
    split
    · rename_i he
      simp only [Memory.cons]
      split
      · rename_i hb
        rw [Memory.look_below (fun x hx => he ▸ hp.1 x hx), hb]
      · simp [Memory.look]
    · split
      · rename_i hlt
        simp only [Memory.cons]
        split
        · rename_i hb
          rw [hb]
          apply Memory.look_below
          intro x hx
          rcases List.mem_cons.1 hx with rfl | hx
          · exact hlt
          · exact Nat.lt_trans hlt (hp.1 x hx)
        · simp [Memory.look]
      · simp [Memory.look, *, ih (Memory.wf_tail h)]

/-- A write leaves every other byte alone. -/
theorem Memory.look_store_ne {m : Memory} (h : m.wf = true) {a x : Nat} (hx : x ≠ a) (b : Byte) :
    (m.store a b).look x = m.look x := by
  have e : ¬ a = x := fun e => hx e.symm
  induction m with
  | nil =>
    simp only [Memory.store, Memory.cons]
    split
    · rfl
    · simp [Memory.look, e]
  | cons c r ih =>
    have hp := List.pairwise_cons.1 ((Memory.wf_iff _).1 h).2
    simp only [Memory.store]
    split
    · rename_i he
      have hc : ¬ c.1 = x := he ▸ e
      have below : x < c.1 → Memory.look r x = Memory.blank :=
        fun hlt => Memory.look_below (fun y hy => Nat.lt_trans hlt (hp.1 y hy))
      simp only [Memory.cons]
      split
      · simp only [Memory.look, hc, if_false]
        split
        · exact below ‹_›
        · rfl
      · simp only [Memory.look, e, if_false, he]
    · split
      · rename_i hlt
        simp only [Memory.cons]
        split
        · rfl
        · simp only [Memory.look, e, if_false]
          split
          · rename_i hxa
            have h1 : ¬ c.1 = x := by omega
            have h2 : x < c.1 := by omega
            simp [h1, h2]
          · rfl
      · simp only [Memory.look, ih (Memory.wf_tail h)]

/-- A write of bytes leaves every byte outside them alone. -/
theorem Memory.look_storeAll_ne {m : Memory} (h : m.wf = true) {a x : Nat} (bs : List Byte)
    (hx : x < a ∨ a + bs.length ≤ x) : (m.storeAll a bs).look x = m.look x := by
  induction bs generalizing m a with
  | nil => rfl
  | cons b bs ih =>
    simp only [List.length_cons] at hx
    simp only [Memory.storeAll]
    rw [ih (Memory.wf_store h a b) (by omega), Memory.look_store_ne h (by omega)]

/-- A write of bytes stores each at its place. -/
theorem Memory.look_storeAll {m : Memory} (h : m.wf = true) (a : Nat) (bs : List Byte) (j : Nat) (hj : j < bs.length) :
    (m.storeAll a bs).look (a + j) = bs[j] := by
  induction bs generalizing m a j with
  | nil => simp at hj
  | cons b bs ih =>
    simp only [Memory.storeAll]
    cases j with
    | zero =>
      rw [Memory.look_storeAll_ne (Memory.wf_store h a b) bs (by omega)]
      simpa using Memory.look_store_eq h a b
    | succ j =>
      have := ih (Memory.wf_store h a b) (a + 1) j (by simpa using hj)
      simpa [Nat.add_comm, Nat.add_left_comm] using this

/-- A masked write leaves every byte outside its bytes, and every byte whose mask bit is clear, alone. -/
theorem Memory.look_storeMask_ne {m : Memory} (h : m.wf = true) {a x : Nat} (bs : List Byte) (k : Nat)
    (hx : ∀ j < bs.length, k.testBit j = true → x ≠ a + j) : (m.storeMask a bs k).look x = m.look x := by
  induction bs generalizing m a k with
  | nil => rfl
  | cons b bs ih =>
    simp only [Memory.storeMask]
    have step : ∀ j < bs.length, (k / 2).testBit j = true → x ≠ a + 1 + j := by
      intro j hj hk
      have := hx (j + 1) (by simpa using hj) (by rwa [Nat.testBit_succ])
      omega
    by_cases hb : k % 2 = 1
    · simp only [hb, if_true]
      rw [ih (Memory.wf_store h a b) _ step, Memory.look_store_ne h]
      have := hx 0 (by simp) (by simp [Nat.testBit_zero, hb])
      simpa using this
    · simp only [hb, if_false]
      exact ih h _ step

/-- Two canonical memories that read alike are equal. -/
theorem Memory.ext_look {m n : Memory} (hm : m.wf = true) (hn : n.wf = true) (h : ∀ a, m.look a = n.look a) : m = n := by
  induction m generalizing n with
  | nil =>
    cases n with
    | nil => rfl
    | cons d r =>
      have := h d.1
      have h0 := ((Memory.wf_iff _).1 hn).1 d List.mem_cons_self
      simp only [Memory.look, if_true, Memory.blank] at this
      exact absurd this.symm h0
  | cons c r ih =>
    cases n with
    | nil =>
      have := h c.1
      have h0 := ((Memory.wf_iff _).1 hm).1 c List.mem_cons_self
      simp only [Memory.look, if_true, Memory.blank] at this
      exact absurd this h0
    | cons d t =>
      have hc := ((Memory.wf_iff _).1 hm).1 c List.mem_cons_self
      have hd := ((Memory.wf_iff _).1 hn).1 d List.mem_cons_self
      have e1 : c.1 = d.1 := by
        rcases Nat.lt_trichotomy c.1 d.1 with hlt | heq | hgt
        · have h1 := h c.1
          have h2 : ¬ d.1 = c.1 := by omega
          simp only [Memory.look, if_true, h2, if_false, hlt, Memory.blank] at h1
          exact absurd h1 hc
        · exact heq
        · have h1 := h d.1
          have h2 : ¬ c.1 = d.1 := by omega
          have h3 : d.1 < c.1 := hgt
          simp only [Memory.look, if_true, h2, if_false, h3, Memory.blank] at h1
          exact absurd h1.symm hd
      have e2 : c.2 = d.2 := by
        have h1 := h c.1
        have h2 : d.1 = c.1 := e1.symm
        simpa only [Memory.look, if_true, h2] using h1
      have e : c = d := Prod.ext e1 e2
      subst e
      congr 1
      apply ih (Memory.wf_tail hm) (Memory.wf_tail hn)
      intro a
      have h1 := h a
      simp only [Memory.look] at h1
      have pm := List.pairwise_cons.1 ((Memory.wf_iff _).1 hm).2
      have pn := List.pairwise_cons.1 ((Memory.wf_iff _).1 hn).2
      by_cases hle : a ≤ c.1
      · rw [Memory.look_below (fun x hx => Nat.lt_of_le_of_lt hle (pm.1 x hx)),
          Memory.look_below (fun x hx => Nat.lt_of_le_of_lt hle (pn.1 x hx))]
      · have h2 : ¬ c.1 = a := by omega
        have h3 : ¬ a < c.1 := by omega
        simpa only [h2, h3, if_false] using h1

end Sys2Proof.Machine
end

