-- ==== Sys2Proof/Laws/Keeps.lean ====
section
/-! SUPPORT. What keeps memory as it is: the kit in which the lemmas of Laws/ say of each operation over the module that it
leaves memory unchanged, or that it keeps the canonical form of memory. -/

namespace Sys2Proof.Machine

set_option Elab.async false

/-- A property of the module that memory alone decides. -/
def Quiet (P : State → Prop) : Prop := ∀ s t : State, t.mem = s.mem → P s → P t

/-- The canonical form is such a property. -/
@[simp] theorem Quiet.inv : Quiet State.Inv := fun s t h hs => by
  unfold State.Inv at *
  rw [h]
  exact hs

/-- That memory is a given one is such a property. -/
@[simp] theorem Quiet.same (m : Memory) : Quiet (fun t => t.mem = m) := fun _ _ h hs => h.trans hs

/-- That a byte of memory reads as a given one is such a property. -/
@[simp] theorem Quiet.byte (a : Nat) (b : Byte) : Quiet (fun t => t.mem.look a = b) := fun _ _ h hs => by
  simp only [h]
  exact hs

/-- How an act ends, where the state it ends in, and the state that a stall or a trap leaves, have a property. -/
def EndsIn {α : Type} (P : State → Prop) : Except Stop (α × State) → Prop
  | .ok x => P x.2
  | .error (.stallWith t) => P t
  | .error (.trapWith t _ _) => P t
  | .error _ => True

@[simp] theorem EndsIn.ok {α : Type} (P : State → Prop) (x : α × State) : EndsIn P (.ok x) = P x.2 := rfl
@[simp] theorem EndsIn.stall {α : Type} (P : State → Prop) : EndsIn (α := α) P (.error .stall) = True := rfl
@[simp] theorem EndsIn.trap {α : Type} (P : State → Prop) (c n : Nat) : EndsIn (α := α) P (.error (.trap c n)) = True := rfl
@[simp] theorem EndsIn.stallWith {α : Type} (P : State → Prop) (t : State) :
    EndsIn (α := α) P (.error (.stallWith t)) = P t := rfl
@[simp] theorem EndsIn.trapWith {α : Type} (P : State → Prop) (t : State) (c n : Nat) :
    EndsIn (α := α) P (.error (.trapWith t c n)) = P t := rfl

/-- An act keeps a property. -/
def Act.Keeps {α : Type} (P : State → Prop) (m : Act α) : Prop := ∀ s, P s → EndsIn P (m s)

namespace Act.Keeps

variable {α β : Type} {P : State → Prop}

theorem lam {m : State → Except Stop (α × State)} (h : ∀ s, P s → EndsIn P (m s)) : Act.Keeps P (m : Act α) := h

@[simp] theorem ret (a : α) : (pure a : Act α).Keeps P := fun _ h => h

theorem bind {m : Act α} {k : α → Act β} (hm : m.Keeps P) (hk : ∀ a, (k a).Keeps P) : (m >>= k).Keeps P := by
  intro s hs
  have h := hm s hs
  show EndsIn P (StateT.bind m k s)
  unfold StateT.bind
  cases hms : m s with
  | error e =>
    rw [hms] at h
    cases e <;> exact h
  | ok x =>
    rw [hms] at h
    exact hk x.1 x.2 h

@[simp] theorem map {f : α → β} {m : Act α} (hm : m.Keeps P) : (f <$> m).Keeps P := by
  rw [map_eq_pure_bind]
  exact bind hm fun _ => ret _

theorem ite {c : Prop} [Decidable c] {m n : Act α} (hm : m.Keeps P) (hn : n.Keeps P) : (if c then m else n).Keeps P := by
  split <;> assumption

@[simp] theorem view (f : State → α) : (Act.view f).Keeps P := fun _ h => h
@[simp] theorem trap (c n : Nat) : (Act.trap c n : Act α).Keeps P := fun _ _ => trivial
@[simp] theorem stall : (Act.stall : Act α).Keeps P := fun _ _ => trivial
@[simp] theorem check (ok : Bool) (c n : Nat) : (Act.check ok c n).Keeps P := by
  intro s h
  unfold Act.check
  cases ok <;> simp [h]
@[simp] theorem await (ok : State → Bool) : (Act.await ok).Keeps P := by
  intro s h
  unfold Act.await
  cases ok s <;> simp [h]

theorem change {f : State → State} (h : ∀ s, P s → P (f s)) : (Act.change f).Keeps P := h

@[simp] theorem change_mem {f : State → State} (hP : Quiet P) (h : ∀ s, (f s).mem = s.mem) : (Act.change f).Keeps P :=
  fun s hs => hP s _ (h s) hs

@[simp] theorem stallOwn : Act.Keeps P (fun s => .error (.stallWith s) : Act α) := fun _ h => h

@[simp] theorem lamStall {f : State → State} (hP : Quiet P) (h : ∀ s, (f s).mem = s.mem) :
    Act.Keeps P (fun s => .error (.stallWith (f s)) : Act α) := fun s hs => hP s _ (h s) hs

@[simp] theorem mapM {γ : Type} {f : γ → Act α} (h : ∀ x, (f x).Keeps P) (l : List γ) : (l.mapM f).Keeps P := by
  induction l with
  | nil => simp
  | cons x l ih =>
    rw [List.mapM_cons]
    exact bind (h x) fun _ => bind ih fun _ => ret _

@[simp] theorem forM {γ : Type} {f : γ → Act PUnit} (h : ∀ x, (f x).Keeps P) (l : List γ) : (forM l f).Keeps P := by
  induction l with
  | nil => simp
  | cons x l ih =>
    rw [List.forM_cons]
    exact bind (h x) fun _ => ih

theorem change_wf {f : State → State} (h : ∀ s : State, s.mem.wf = true → (f s).mem.wf = true) :
    (Act.change f).Keeps State.Inv := h

end Act.Keeps

/-- An act that keeps the property of having a given memory leaves memory as it was. -/
theorem Act.mem_of_keeps {α : Type} {m : Act α} {s t : State} {a : α} (h : m.Keeps (fun u => u.mem = s.mem))
    (e : m s = .ok (a, t)) : t.mem = s.mem := by
  have := h s rfl
  rw [e] at this
  exact this

/-- How an instruction ends, where its next state has a property. -/
def OutKeeps (P : State → Prop) : Host.Outcome State Fault Refusal → Prop
  | .next t => P t
  | _ => True

@[simp] theorem OutKeeps.next (P : State → Prop) (t : State) : OutKeeps P (.next t) = P t := rfl

/-- A fold of steps that leave memory alone leaves it alone. -/
@[simp] theorem foldl_mem {β : Type} {f : State → β → State} (h : ∀ s b, (f s b).mem = s.mem) (l : List β) (s : State) :
    (l.foldl f s).mem = s.mem := by
  induction l generalizing s with
  | nil => rfl
  | cons b l ih => exact (ih (f s b)).trans (h s b)

/-- A fold of steps that keep the canonical form keeps it. -/
@[simp] theorem foldl_wf {β : Type} {f : State → β → State} (h : ∀ s b, s.mem.wf = true → (f s b).mem.wf = true)
    (l : List β) {s : State} (hs : s.mem.wf = true) : (l.foldl f s).mem.wf = true := by
  induction l generalizing s with
  | nil => exact hs
  | cons b l ih => exact ih (h s b hs)

end Sys2Proof.Machine
end

