-- ==== Sys2Proof/Laws/KeepsOps.lean ====
section
/-! SUPPORT. What the named operations leave of memory. -/

namespace Sys2Proof.Machine

set_option Elab.async false
set_option linter.unusedTactic false
set_option linter.unreachableTactic false
set_option linter.unusedSimpArgs false
set_option linter.unusedVariables false

/-! ### Ops -/

@[simp] theorem nearStore_wf (s : State) (loc a : Nat) (bs : List Byte) (k : Nat) (h : s.mem.wf = true) :
    (nearStore s loc a bs k).mem.wf = true := by
  induction bs generalizing a k with
  | nil => exact h
  | cons b bs ih =>
    simp only [nearStore]
    split
    · exact Memory.wf_store (ih (a + 1) (k / 2)) _ _
    · exact ih (a + 1) (k / 2)

@[simp] theorem clearMarks_mem (s : State) (bytes : List Nat) : (clearMarks s bytes).mem = s.mem := by
  unfold clearMarks
  repeat' (first | split | simp | rfl | refine (foldl_mem (fun _ _ => ?_) _ _).trans ?_)

@[simp] theorem translateFor_mem (s : State) (loc vd a : Nat) (write : Bool) : (translateFor s loc vd a write).2.mem = s.mem := by
  unfold translateFor
  repeat' (first | split | simp | rfl | refine (foldl_mem (fun _ _ => ?_) _ _).trans ?_)

@[simp] theorem perf_mem (s : State) (loc code n : Nat) : (perf s loc code n).mem = s.mem := by
  unfold perf
  repeat' (first | split | simp | rfl | refine (foldl_mem (fun _ _ => ?_) _ _).trans ?_)

@[simp] theorem postLane_mem (s : State) (die vd bits : Nat) : (postLane s die vd bits).mem = s.mem := by
  unfold postLane
  repeat' (first | split | simp | rfl | refine (foldl_mem (fun _ _ => ?_) _ _).trans ?_)

@[simp] theorem postFatal_mem (s : State) (die vd bits : Nat) : (postFatal s die vd bits).mem = s.mem := by
  unfold postFatal
  repeat' (first | split | simp | rfl | refine (foldl_mem (fun _ _ => ?_) _ _).trans ?_)

@[simp] theorem postEvent_mem (s : State) (die vd loc kind lseq code data : Nat) : (postEvent s die vd loc kind lseq code data).mem = s.mem := by
  unfold postEvent
  repeat' (first | split | simp | rfl | refine (foldl_mem (fun _ _ => ?_) _ _).trans ?_)

@[simp] theorem regPut_mem (s : State) (loc : Nat) (r : Reg) (v : Vec) : (regPut s loc r v).mem = s.mem := by
  unfold regPut
  repeat' (first | split | simp | rfl | refine (foldl_mem (fun _ _ => ?_) _ _).trans ?_)

@[simp] theorem setMark_mem (s : State) (loc : Nat) (r : Reg) (m : Option Nat) : (setMark s loc r m).mem = s.mem := by
  unfold setMark
  repeat' (first | split | simp | rfl)

@[simp] theorem addGhost_mem (s : State) (loc : Nat) (g : Ghost) : (addGhost s loc g).mem = s.mem := by
  unfold addGhost
  repeat' (first | split | simp | rfl)

@[simp] theorem endGhosts_mem (s : State) (loc : Nat) (r : Reg) : (endGhosts s loc r).mem = s.mem := by
  unfold endGhosts
  repeat' (first | split | simp | rfl)

@[simp] theorem pruneGhosts_mem (s : State) (loc : Nat) : (pruneGhosts s loc).mem = s.mem := by
  unfold pruneGhosts
  repeat' (first | split | simp | rfl)

@[simp] theorem landFlags_mem (s : State) (loc : Nat) (all : List Pend) (e : Pend) : (landFlags s loc all e).mem = s.mem := by
  unfold landFlags
  repeat' (first | split | simp | rfl)

@[simp] theorem noteOld_mem (s : State) (loc : Nat) (r : Reg) (e : Pend) : (noteOld s loc r e).mem = s.mem := by
  unfold noteOld
  repeat' (first | split | simp | rfl)

@[simp] theorem clearErr_mem (s : State) (loc : Nat) (r : Reg) (m : Nat) : (clearErr s loc r m).mem = s.mem := by
  unfold clearErr
  repeat' (first | split | simp | rfl)

@[simp] theorem postWithdraw_mem (s : State) (loc : Nat) : (postWithdraw s loc).mem = s.mem := rfl

@[simp] theorem landOne_mem (s : State) (loc : Nat) (all : List Pend) (e : Pend) : (landOne s loc all e).mem = s.mem := by
  unfold landOne
  repeat' (first | split | simp | rfl | refine (foldl_mem (fun _ _ => ?_) _ _).trans ?_)

@[simp] theorem landDue_mem (loc : Nat) (due : Pend → Bool) (block : Bool) (all ps kept : List Pend) (s : State) :
    (landDue loc due block all ps kept s).1.mem = s.mem := by
  induction ps generalizing kept s with
  | nil => rfl
  | cons e ps ih =>
    unfold landDue
    split
    · split
      · rw [ih, landFlags_mem]
      · rw [ih, landOne_mem]
    · rw [ih]

@[simp] theorem settle_mem (s : State) (loc : Nat) : (settle s loc).mem = s.mem := by
  unfold settle
  repeat' (first | split | simp | rfl | refine (foldl_mem (fun _ _ => ?_) _ _).trans ?_)

@[simp] theorem landAll_mem (s : State) (loc : Nat) : (landAll s loc).mem = s.mem := by
  unfold landAll
  repeat' (first | split | simp | rfl | refine (foldl_mem (fun _ _ => ?_) _ _).trans ?_)

@[simp] theorem landImage_mem (s : State) (loc : Nat) : (landImage s loc).mem = s.mem := by
  unfold landImage
  repeat' (first | split | simp | rfl | refine (foldl_mem (fun _ _ => ?_) _ _).trans ?_)

@[simp] theorem Act.xlate_keeps (a : Nat) (write : Bool) {P : State → Prop} (hP : Quiet P) : (Act.xlate a write).Keeps P := by
  refine Act.Keeps.lam fun s hs => ?_
  have h := translateFor_mem s s.cur.loc s.me.task.vd a write
  unfold Act.xlate
  split <;> (rename_i e; rw [e] at h; exact hP _ _ h hs)

@[simp] theorem readRegAs_keeps (x : Slot) (r : Reg) {P : State → Prop} : (readRegAs x r).Keeps P := by
  refine Act.Keeps.lam fun s hs => ?_
  unfold readRegAs
  repeat' (first | exact hs | split | simp [hs])

@[simp] theorem readReg_keeps (r : Reg) {P : State → Prop} : (readReg r).Keeps P :=
  Act.Keeps.lam fun s hs => readRegAs_keeps s.cur.slot r s hs

@[simp] theorem readNat_keeps (f : File) (i : Nat) {P : State → Prop} : (readNat f i).Keeps P := by
  unfold readNat
  repeat' (first | with_reducible refine Act.Keeps.bind ?_ fun _ => ?_ | with_reducible refine Act.Keeps.change_mem hP fun _ => ?_ | split | simp)

@[simp] theorem writeMasked_keeps (r : Reg) (l : Nat) (v : Vec) (mask sticky : Nat) {P : State → Prop} (hP : Quiet P) : (writeMasked r l v mask sticky).Keeps P := by
  refine Act.Keeps.lam fun s hs => ?_
  unfold writeMasked
  repeat' (first | exact hs | split | simp [hs])
  all_goals exact hP _ _ (by simp) hs

@[simp] theorem writeReg_keeps (r : Reg) (l : Nat) (v : Vec) {P : State → Prop} (hP : Quiet P) : (writeReg r l v).Keeps P := by
  unfold writeReg
  repeat' (first | with_reducible refine Act.Keeps.bind ?_ fun _ => ?_ | with_reducible refine Act.Keeps.change_mem hP fun _ => ?_ | split | simp [hP])

@[simp] theorem stickyAt_keeps (l sticky : Nat) {P : State → Prop} (hP : Quiet P) : (stickyAt l sticky).Keeps P := by
  refine Act.Keeps.lam fun s hs => ?_
  unfold stickyAt
  split
  · exact hs
  · exact hP _ _ (by simp) hs

@[simp] theorem enterHandler_mem (s : State) (loc pc rc : Nat) : (enterHandler s loc pc rc).mem = s.mem := by
  unfold enterHandler
  repeat' (first | split | simp | rfl | refine (foldl_mem (fun _ _ => ?_) _ _).trans ?_)

@[simp] theorem leaveHandler_mem (s : State) (loc : Nat) : (leaveHandler s loc).mem = s.mem := by
  unfold leaveHandler
  repeat' (first | split | simp | rfl | refine (foldl_mem (fun _ _ => ?_) _ _).trans ?_)

@[simp] theorem deliverTrap_mem (s : State) (loc code rc : Nat) : (deliverTrap s loc code rc).mem = s.mem := by
  unfold deliverTrap
  repeat' (first | split | simp | rfl | refine (foldl_mem (fun _ _ => ?_) _ _).trans ?_)

@[simp] theorem takeTrap_mem (s : State) (loc slot i code info aux : Nat) : (takeTrap s loc slot i code info aux).mem = s.mem := by
  unfold takeTrap
  repeat' (first | split | simp | rfl | refine (foldl_mem (fun _ _ => ?_) _ _).trans ?_)

@[simp] theorem trapHere_mem (s : State) (code info : Nat) : (trapHere s code info).mem = s.mem := by
  unfold trapHere
  repeat' (first | split | simp | rfl | refine (foldl_mem (fun _ _ => ?_) _ _).trans ?_)

@[simp] theorem asyncTrap_mem (s : State) (loc code info aux : Nat) : (asyncTrap s loc code info aux).mem = s.mem := by
  unfold asyncTrap
  repeat' (first | split | simp | rfl | refine (foldl_mem (fun _ _ => ?_) _ _).trans ?_)

end Sys2Proof.Machine
end

