-- ==== Sys2Proof/Laws/KeepsIssue.lean ====
section
/-! SUPPORT. What the issue of one operation leaves of memory. -/

namespace Sys2Proof.Machine

set_option Elab.async false
set_option linter.unusedTactic false
set_option linter.unreachableTactic false
set_option linter.unusedSimpArgs false
set_option linter.unusedVariables false

/-! ### Issue -/

theorem fetchNext_mem (s : State) (loc : Nat) {t : State} (h : fetchNext s loc = .ok t) : t.mem = s.mem := by
  simp only [fetchNext] at h
  repeat' (first | split at h | (cases h; rfl) | cases h)

theorem fetchAgain_mem (s : State) (loc k : Nat) {t : State} (h : fetchAgain s loc k = .ok t) : t.mem = s.mem := by
  simp only [fetchAgain] at h
  repeat' (first | (cases h; rfl) | cases h | split at h)

@[simp] theorem refill_mem (s : State) (loc : Nat) : (refill s loc).mem = s.mem := by
  unfold refill
  refine foldl_mem (fun t f => ?_) _ _
  split
  · rename_i u h
    exact fetchAgain_mem _ _ _ h
  · rfl

@[simp] theorem completeLaunches_mem (d n : Nat) (s : State) : (completeLaunches d n s).mem = s.mem := by
  induction n generalizing s with
  | zero => rfl
  | succ n ih =>
    unfold completeLaunches
    split
    · rfl
    · rw [ih]; simp

@[simp] theorem taskHalted_mem (s : State) (loc : Nat) : (taskHalted s loc).mem = s.mem := by
  unfold taskHalted
  repeat' (first | split | simp | rfl | refine (foldl_mem (fun _ _ => ?_) _ _).trans ?_)

@[simp] theorem reportMarks_mem (s : State) (loc : Nat) : (reportMarks s loc).mem = s.mem := by
  unfold reportMarks
  repeat' (first | split | simp | rfl | refine (foldl_mem (fun _ _ => ?_) _ _).trans ?_)

@[simp] theorem noteStep_mem (s : State) (vd : Nat) (g : Grid) : (noteStep s vd g).mem = s.mem := by
  unfold noteStep
  repeat' (first | split | simp | rfl | refine (foldl_mem (fun _ _ => ?_) _ _).trans ?_)

@[simp] theorem noteGrids_mem (s : State) (loc : Nat) : (noteGrids s loc).mem = s.mem := by
  unfold noteGrids
  repeat' (first | split | simp | rfl | refine (foldl_mem (fun _ _ => ?_) _ _).trans ?_)

@[simp] theorem becomeIdle_mem (s : State) (loc : Nat) : (becomeIdle s loc).mem = s.mem := by
  unfold becomeIdle
  repeat' (first | split | simp | rfl | refine (foldl_mem (fun _ _ => ?_) _ _).trans ?_)

@[simp] theorem dropGhosts_mem (s : State) (loc : Nat) (slot : Option Nat) : (dropGhosts s loc slot).mem = s.mem := by
  unfold dropGhosts
  repeat' (first | split | simp | rfl | refine (foldl_mem (fun _ _ => ?_) _ _).trans ?_)

@[simp] theorem tryFinish_mem (s : State) (loc : Nat) : (tryFinish s loc).mem = s.mem := by
  unfold tryFinish
  dsimp only
  split
  · split <;> simp
  · split
    · rw [becomeIdle_mem, dropGhosts_mem]
      split <;> simp
    · rfl

@[simp] theorem freezeForSave_mem (s : State) (loc : Nat) : (freezeForSave s loc).mem = s.mem := by
  unfold freezeForSave
  repeat' (first | split | simp | rfl | refine (foldl_mem (fun _ _ => ?_) _ _).trans ?_)

@[simp] theorem advance_mem (s : State) : (advance s).mem = s.mem := by
  have h : ∀ (p : Option Nat) (u : State) (l : Nat) (c : Nat → Prop) [DecidablePred c], u.mem = s.mem →
      (match p with
        | some p => if c p then freezeForSave u l else tryFinish u l
        | none => tryFinish u l).mem = s.mem := by
    intro p u l c _ hu
    split
    · split <;> simp [hu]
    · simp [hu]
  unfold advance
  refine h _ _ _ _ ?_
  rw [State.setSeq_mem, pruneGhosts_mem, settle_mem]
  have hp : ∀ (c : Prop) [Decidable c] (u : State) (n : Nat), u.mem = s.mem → (if c then perf u n 1 1 else u).mem = s.mem := by
    intro c _ u n hu
    split
    · rw [perf_mem, hu]
    · exact hu
  exact hp _ _ _ rfl

@[simp] theorem stallHere_mem (s : State) : (stallHere s).mem = s.mem := by
  unfold stallHere
  repeat' (first | split | simp | rfl | refine (foldl_mem (fun _ _ => ?_) _ _).trans ?_)

@[simp] theorem voidDests_mem (i : Instr) (s : State) : (voidDests i s).mem = s.mem := by
  unfold voidDests
  refine foldl_mem (fun t r => ?_) _ _
  rfl

@[simp] theorem notTaken_mem (s : State) : (notTaken s).mem = s.mem := by
  unfold notTaken
  repeat' (first | split | simp | rfl | refine (foldl_mem (fun _ _ => ?_) _ _).trans ?_)

@[simp] theorem voidIssue_mem (i : Instr) (s : State) : (voidIssue i s).mem = s.mem := by
  unfold voidIssue
  repeat' (first | split | simp | rfl | refine (foldl_mem (fun _ _ => ?_) _ _).trans ?_)

@[simp] theorem fetchFails_mem (s : State) (loc : Nat) (x : Slot) (code info : Nat) : (fetchFails s loc x code info).mem = s.mem := by
  unfold fetchFails
  repeat' (first | split | simp | rfl)

@[simp] theorem guardHolds_keeps (g : Guard) {P : State → Prop} : (guardHolds g).Keeps P := by
  unfold guardHolds
  repeat' (first | with_reducible refine Act.Keeps.bind ?_ fun _ => ?_ | with_reducible refine Act.Keeps.change_mem hP fun _ => ?_ | split | simp)

theorem stopHere_keeps (s : State) {P : State → Prop} (hP : Quiet P) (hs : P s) {α : Type} (e : Stop)
    (h : EndsIn (α := α) P (.error e)) : P (stopHere s e) := by
  cases e with
  | stall => exact hP _ _ (stallHere_mem s) hs
  | trap c n => exact hP _ _ (trapHere_mem s c n) hs
  | stallWith t => exact hP _ _ (stallHere_mem t) h
  | trapWith t c n => exact hP _ _ (trapHere_mem t c n) h

/-- Whatever follows an act and a void issue, an issue keeps what they and the act keep. -/
theorem issueFull_keeps (i : Instr) (g : Guard) {act : Act Unit} {fin void : State → State} {P : State → Prop} (hP : Quiet P)
    (hf : ∀ s, P s → P (fin s)) (hv : ∀ s, P s → P (void s)) (h : act.Keeps P) {s : State} (hs : P s) :
    P (issueFull fin void i g act s) := by
  unfold issueFull
  split
  · exact hv s hs
  · split
    · exact hP _ _ (by simp) hs
    · split
      · exact hP _ _ (by simp) hs
      · have hg := guardHolds_keeps (P := P) g s hs
        split
        · rename_i e he
          rw [he] at hg
          exact stopHere_keeps s hP hs e hg
        · rename_i t he
          rw [he] at hg
          exact hv t hg
        · rename_i t he
          rw [he] at hg
          split
          · exact hP _ _ (by simp) hg
          · have ha := h t hg
            split
            · rename_i u hu
              rw [hu] at ha
              exact hf u ha
            · rename_i e hu
              rw [hu] at ha
              exact stopHere_keeps t hP hg e ha

theorem issueWith_keeps (i : Instr) (g : Guard) {act : Act Unit} {fin : State → State} {P : State → Prop} (hP : Quiet P)
    (hf : ∀ s, P s → P (fin s)) (h : act.Keeps P) {s : State} (hs : P s) : P (issueWith fin i g act s) :=
  issueFull_keeps i g hP hf (fun s h => hP _ _ (voidIssue_mem i s) h) h hs

/-- An issued operation keeps what its act keeps. -/
theorem issue_keeps (i : Instr) (g : Guard) {act : Act Unit} {P : State → Prop} (hP : Quiet P) (h : act.Keeps P)
    {s : State} (hs : P s) : OutKeeps P (issue i g act s) :=
  issueWith_keeps i g hP (fun s h => hP _ _ (advance_mem s) h) h hs

end Sys2Proof.Machine
end

