-- ==== Sys2Proof/Laws/KeepsScalar.lean ====
section
/-! SUPPORT. What the scalar operations and the acts on rings leave of memory. -/

namespace Sys2Proof.Machine

set_option Elab.async false
set_option linter.unusedTactic false
set_option linter.unreachableTactic false
set_option linter.unusedSimpArgs false
set_option linter.unusedVariables false

/-! ### Scalar -/

@[simp] theorem readOp_keeps (o : Opnd) {P : State → Prop} : (readOp o).Keeps P := by
  unfold readOp
  repeat' (first | with_reducible refine Act.Keeps.bind ?_ fun _ => ?_ | with_reducible refine Act.Keeps.change_mem hP fun _ => ?_ | split | simp)

@[simp] theorem deliverMasked_keeps (i : Instr) (v : Vec) (mask sticky : Nat) {P : State → Prop} (hP : Quiet P) : (deliverMasked i v mask sticky).Keeps P := by
  unfold deliverMasked
  repeat' (first | with_reducible refine Act.Keeps.bind ?_ fun _ => ?_ | with_reducible refine Act.Keeps.change_mem hP fun _ => ?_ | split | simp [hP])

@[simp] theorem deliver_keeps (i : Instr) (v : Vec) {P : State → Prop} (hP : Quiet P) : (deliver i v).Keeps P := by
  unfold deliver
  repeat' (first | with_reducible refine Act.Keeps.bind ?_ fun _ => ?_ | with_reducible refine Act.Keeps.change_mem hP fun _ => ?_ | split | simp [hP])

@[simp] theorem deliverNat_keeps (i : Instr) (v : Nat) {P : State → Prop} (hP : Quiet P) : (deliverNat i v).Keeps P := by
  unfold deliverNat
  repeat' (first | with_reducible refine Act.Keeps.bind ?_ fun _ => ?_ | with_reducible refine Act.Keeps.change_mem hP fun _ => ?_ | split | simp [hP])

@[simp] theorem scalar2_keeps (i : Instr) (a b : Opnd) (f : Nat → Nat → Nat) {P : State → Prop} (hP : Quiet P) : (scalar2 i a b f).Keeps P := by
  unfold scalar2
  repeat' (first | with_reducible refine Act.Keeps.bind ?_ fun _ => ?_ | with_reducible refine Act.Keeps.change_mem hP fun _ => ?_ | split | simp [hP])

@[simp] theorem scalar1_keeps (i : Instr) (a : Opnd) (f : Nat → Nat) {P : State → Prop} (hP : Quiet P) : (scalar1 i a f).Keeps P := by
  unfold scalar1
  repeat' (first | with_reducible refine Act.Keeps.bind ?_ fun _ => ?_ | with_reducible refine Act.Keeps.change_mem hP fun _ => ?_ | split | simp [hP])

theorem execAdd_keeps (g : Guard) (d a b : Opnd) {s : State} {P : State → Prop} (hP : Quiet P) (hs : P s) : OutKeeps P (execAdd g d a b s) := by
  unfold execAdd
  refine issue_keeps _ _ hP ?_ hs
  repeat' (first | with_reducible refine Act.Keeps.bind ?_ fun _ => ?_ | with_reducible refine Act.Keeps.change_mem hP fun _ => ?_ | split | simp [hP])

theorem execSub_keeps (g : Guard) (d a b : Opnd) {s : State} {P : State → Prop} (hP : Quiet P) (hs : P s) : OutKeeps P (execSub g d a b s) := by
  unfold execSub
  refine issue_keeps _ _ hP ?_ hs
  repeat' (first | with_reducible refine Act.Keeps.bind ?_ fun _ => ?_ | with_reducible refine Act.Keeps.change_mem hP fun _ => ?_ | split | simp [hP])

theorem execAddsl_keeps (g : Guard) (d a b : Opnd) (sh : BitVec 6) {s : State} {P : State → Prop} (hP : Quiet P) (hs : P s) : OutKeeps P (execAddsl g d a b sh s) := by
  unfold execAddsl
  refine issue_keeps _ _ hP ?_ hs
  repeat' (first | with_reducible refine Act.Keeps.bind ?_ fun _ => ?_ | with_reducible refine Act.Keeps.change_mem hP fun _ => ?_ | split | simp [hP])

theorem execMul_keeps (g : Guard) (d a b : Opnd) {s : State} {P : State → Prop} (hP : Quiet P) (hs : P s) : OutKeeps P (execMul g d a b s) := by
  unfold execMul
  refine issue_keeps _ _ hP ?_ hs
  repeat' (first | with_reducible refine Act.Keeps.bind ?_ fun _ => ?_ | with_reducible refine Act.Keeps.change_mem hP fun _ => ?_ | split | simp [hP])

theorem execMulh_keeps (g : Guard) (d a b : Opnd) {s : State} {P : State → Prop} (hP : Quiet P) (hs : P s) : OutKeeps P (execMulh g d a b s) := by
  unfold execMulh
  refine issue_keeps _ _ hP ?_ hs
  repeat' (first | with_reducible refine Act.Keeps.bind ?_ fun _ => ?_ | with_reducible refine Act.Keeps.change_mem hP fun _ => ?_ | split | simp [hP])

theorem execMulhB_keeps (g : Guard) (d a b : Opnd) {s : State} {P : State → Prop} (hP : Quiet P) (hs : P s) : OutKeeps P (execMulhB g d a b s) := by
  unfold execMulhB
  refine issue_keeps _ _ hP ?_ hs
  repeat' (first | with_reducible refine Act.Keeps.bind ?_ fun _ => ?_ | with_reducible refine Act.Keeps.change_mem hP fun _ => ?_ | split | simp [hP])

theorem execDiv_keeps (g : Guard) (d a b : Opnd) {s : State} {P : State → Prop} (hP : Quiet P) (hs : P s) : OutKeeps P (execDiv g d a b s) := by
  unfold execDiv
  refine issue_keeps _ _ hP ?_ hs
  repeat' (first | with_reducible refine Act.Keeps.bind ?_ fun _ => ?_ | with_reducible refine Act.Keeps.change_mem hP fun _ => ?_ | split | simp [hP])

theorem execDivB_keeps (g : Guard) (d a b : Opnd) {s : State} {P : State → Prop} (hP : Quiet P) (hs : P s) : OutKeeps P (execDivB g d a b s) := by
  unfold execDivB
  refine issue_keeps _ _ hP ?_ hs
  repeat' (first | with_reducible refine Act.Keeps.bind ?_ fun _ => ?_ | with_reducible refine Act.Keeps.change_mem hP fun _ => ?_ | split | simp [hP])

theorem execRem_keeps (g : Guard) (d a b : Opnd) {s : State} {P : State → Prop} (hP : Quiet P) (hs : P s) : OutKeeps P (execRem g d a b s) := by
  unfold execRem
  refine issue_keeps _ _ hP ?_ hs
  repeat' (first | with_reducible refine Act.Keeps.bind ?_ fun _ => ?_ | with_reducible refine Act.Keeps.change_mem hP fun _ => ?_ | split | simp [hP])

theorem execRemB_keeps (g : Guard) (d a b : Opnd) {s : State} {P : State → Prop} (hP : Quiet P) (hs : P s) : OutKeeps P (execRemB g d a b s) := by
  unfold execRemB
  refine issue_keeps _ _ hP ?_ hs
  repeat' (first | with_reducible refine Act.Keeps.bind ?_ fun _ => ?_ | with_reducible refine Act.Keeps.change_mem hP fun _ => ?_ | split | simp [hP])

theorem execAnd_keeps (g : Guard) (d a b : Opnd) {s : State} {P : State → Prop} (hP : Quiet P) (hs : P s) : OutKeeps P (execAnd g d a b s) := by
  unfold execAnd
  refine issue_keeps _ _ hP ?_ hs
  repeat' (first | with_reducible refine Act.Keeps.bind ?_ fun _ => ?_ | with_reducible refine Act.Keeps.change_mem hP fun _ => ?_ | split | simp [hP])

theorem execOr_keeps (g : Guard) (d a b : Opnd) {s : State} {P : State → Prop} (hP : Quiet P) (hs : P s) : OutKeeps P (execOr g d a b s) := by
  unfold execOr
  refine issue_keeps _ _ hP ?_ hs
  repeat' (first | with_reducible refine Act.Keeps.bind ?_ fun _ => ?_ | with_reducible refine Act.Keeps.change_mem hP fun _ => ?_ | split | simp [hP])

theorem execXor_keeps (g : Guard) (d a b : Opnd) {s : State} {P : State → Prop} (hP : Quiet P) (hs : P s) : OutKeeps P (execXor g d a b s) := by
  unfold execXor
  refine issue_keeps _ _ hP ?_ hs
  repeat' (first | with_reducible refine Act.Keeps.bind ?_ fun _ => ?_ | with_reducible refine Act.Keeps.change_mem hP fun _ => ?_ | split | simp [hP])

theorem execAndn_keeps (g : Guard) (d a b : Opnd) {s : State} {P : State → Prop} (hP : Quiet P) (hs : P s) : OutKeeps P (execAndn g d a b s) := by
  unfold execAndn
  refine issue_keeps _ _ hP ?_ hs
  repeat' (first | with_reducible refine Act.Keeps.bind ?_ fun _ => ?_ | with_reducible refine Act.Keeps.change_mem hP fun _ => ?_ | split | simp [hP])

theorem execShl_keeps (g : Guard) (d a b : Opnd) {s : State} {P : State → Prop} (hP : Quiet P) (hs : P s) : OutKeeps P (execShl g d a b s) := by
  unfold execShl
  refine issue_keeps _ _ hP ?_ hs
  repeat' (first | with_reducible refine Act.Keeps.bind ?_ fun _ => ?_ | with_reducible refine Act.Keeps.change_mem hP fun _ => ?_ | split | simp [hP])

theorem execShr_keeps (g : Guard) (d a b : Opnd) {s : State} {P : State → Prop} (hP : Quiet P) (hs : P s) : OutKeeps P (execShr g d a b s) := by
  unfold execShr
  refine issue_keeps _ _ hP ?_ hs
  repeat' (first | with_reducible refine Act.Keeps.bind ?_ fun _ => ?_ | with_reducible refine Act.Keeps.change_mem hP fun _ => ?_ | split | simp [hP])

theorem execSra_keeps (g : Guard) (d a b : Opnd) {s : State} {P : State → Prop} (hP : Quiet P) (hs : P s) : OutKeeps P (execSra g d a b s) := by
  unfold execSra
  refine issue_keeps _ _ hP ?_ hs
  repeat' (first | with_reducible refine Act.Keeps.bind ?_ fun _ => ?_ | with_reducible refine Act.Keeps.change_mem hP fun _ => ?_ | split | simp [hP])

theorem execRotl_keeps (g : Guard) (d a b : Opnd) {s : State} {P : State → Prop} (hP : Quiet P) (hs : P s) : OutKeeps P (execRotl g d a b s) := by
  unfold execRotl
  refine issue_keeps _ _ hP ?_ hs
  repeat' (first | with_reducible refine Act.Keeps.bind ?_ fun _ => ?_ | with_reducible refine Act.Keeps.change_mem hP fun _ => ?_ | split | simp [hP])

theorem execFshl_keeps (g : Guard) (d a b : Opnd) (sh : BitVec 6) {s : State} {P : State → Prop} (hP : Quiet P) (hs : P s) : OutKeeps P (execFshl g d a b sh s) := by
  unfold execFshl
  refine issue_keeps _ _ hP ?_ hs
  repeat' (first | with_reducible refine Act.Keeps.bind ?_ fun _ => ?_ | with_reducible refine Act.Keeps.change_mem hP fun _ => ?_ | split | simp [hP])

theorem execFshr_keeps (g : Guard) (d a b : Opnd) (sh : BitVec 6) {s : State} {P : State → Prop} (hP : Quiet P) (hs : P s) : OutKeeps P (execFshr g d a b sh s) := by
  unfold execFshr
  refine issue_keeps _ _ hP ?_ hs
  repeat' (first | with_reducible refine Act.Keeps.bind ?_ fun _ => ?_ | with_reducible refine Act.Keeps.change_mem hP fun _ => ?_ | split | simp [hP])

theorem execAddi_keeps (g : Guard) (d a : Opnd) (imm : BitVec 23) {s : State} {P : State → Prop} (hP : Quiet P) (hs : P s) : OutKeeps P (execAddi g d a imm s) := by
  unfold execAddi
  refine issue_keeps _ _ hP ?_ hs
  repeat' (first | with_reducible refine Act.Keeps.bind ?_ fun _ => ?_ | with_reducible refine Act.Keeps.change_mem hP fun _ => ?_ | split | simp [hP])

theorem execAndi_keeps (g : Guard) (d a : Opnd) (imm : BitVec 23) {s : State} {P : State → Prop} (hP : Quiet P) (hs : P s) : OutKeeps P (execAndi g d a imm s) := by
  unfold execAndi
  refine issue_keeps _ _ hP ?_ hs
  repeat' (first | with_reducible refine Act.Keeps.bind ?_ fun _ => ?_ | with_reducible refine Act.Keeps.change_mem hP fun _ => ?_ | split | simp [hP])

theorem execOri_keeps (g : Guard) (d a : Opnd) (imm : BitVec 23) {s : State} {P : State → Prop} (hP : Quiet P) (hs : P s) : OutKeeps P (execOri g d a imm s) := by
  unfold execOri
  refine issue_keeps _ _ hP ?_ hs
  repeat' (first | with_reducible refine Act.Keeps.bind ?_ fun _ => ?_ | with_reducible refine Act.Keeps.change_mem hP fun _ => ?_ | split | simp [hP])

theorem execXori_keeps (g : Guard) (d a : Opnd) (imm : BitVec 23) {s : State} {P : State → Prop} (hP : Quiet P) (hs : P s) : OutKeeps P (execXori g d a imm s) := by
  unfold execXori
  refine issue_keeps _ _ hP ?_ hs
  repeat' (first | with_reducible refine Act.Keeps.bind ?_ fun _ => ?_ | with_reducible refine Act.Keeps.change_mem hP fun _ => ?_ | split | simp [hP])

theorem execShli_keeps (g : Guard) (d a : Opnd) (imm : BitVec 23) {s : State} {P : State → Prop} (hP : Quiet P) (hs : P s) : OutKeeps P (execShli g d a imm s) := by
  unfold execShli
  refine issue_keeps _ _ hP ?_ hs
  repeat' (first | with_reducible refine Act.Keeps.bind ?_ fun _ => ?_ | with_reducible refine Act.Keeps.change_mem hP fun _ => ?_ | split | simp [hP])

theorem execShri_keeps (g : Guard) (d a : Opnd) (imm : BitVec 23) {s : State} {P : State → Prop} (hP : Quiet P) (hs : P s) : OutKeeps P (execShri g d a imm s) := by
  unfold execShri
  refine issue_keeps _ _ hP ?_ hs
  repeat' (first | with_reducible refine Act.Keeps.bind ?_ fun _ => ?_ | with_reducible refine Act.Keeps.change_mem hP fun _ => ?_ | split | simp [hP])

theorem execSrai_keeps (g : Guard) (d a : Opnd) (imm : BitVec 23) {s : State} {P : State → Prop} (hP : Quiet P) (hs : P s) : OutKeeps P (execSrai g d a imm s) := by
  unfold execSrai
  refine issue_keeps _ _ hP ?_ hs
  repeat' (first | with_reducible refine Act.Keeps.bind ?_ fun _ => ?_ | with_reducible refine Act.Keeps.change_mem hP fun _ => ?_ | split | simp [hP])

theorem execClz_keeps (g : Guard) (d a : Opnd) {s : State} {P : State → Prop} (hP : Quiet P) (hs : P s) : OutKeeps P (execClz g d a s) := by
  unfold execClz
  refine issue_keeps _ _ hP ?_ hs
  repeat' (first | with_reducible refine Act.Keeps.bind ?_ fun _ => ?_ | with_reducible refine Act.Keeps.change_mem hP fun _ => ?_ | split | simp [hP])

theorem execCtz_keeps (g : Guard) (d a : Opnd) {s : State} {P : State → Prop} (hP : Quiet P) (hs : P s) : OutKeeps P (execCtz g d a s) := by
  unfold execCtz
  refine issue_keeps _ _ hP ?_ hs
  repeat' (first | with_reducible refine Act.Keeps.bind ?_ fun _ => ?_ | with_reducible refine Act.Keeps.change_mem hP fun _ => ?_ | split | simp [hP])

theorem execPopc_keeps (g : Guard) (d a : Opnd) {s : State} {P : State → Prop} (hP : Quiet P) (hs : P s) : OutKeeps P (execPopc g d a s) := by
  unfold execPopc
  refine issue_keeps _ _ hP ?_ hs
  repeat' (first | with_reducible refine Act.Keeps.bind ?_ fun _ => ?_ | with_reducible refine Act.Keeps.change_mem hP fun _ => ?_ | split | simp [hP])

theorem execMin_keeps (g : Guard) (d a b : Opnd) {s : State} {P : State → Prop} (hP : Quiet P) (hs : P s) : OutKeeps P (execMin g d a b s) := by
  unfold execMin
  refine issue_keeps _ _ hP ?_ hs
  repeat' (first | with_reducible refine Act.Keeps.bind ?_ fun _ => ?_ | with_reducible refine Act.Keeps.change_mem hP fun _ => ?_ | split | simp [hP])

theorem execMax_keeps (g : Guard) (d a b : Opnd) {s : State} {P : State → Prop} (hP : Quiet P) (hs : P s) : OutKeeps P (execMax g d a b s) := by
  unfold execMax
  refine issue_keeps _ _ hP ?_ hs
  repeat' (first | with_reducible refine Act.Keeps.bind ?_ fun _ => ?_ | with_reducible refine Act.Keeps.change_mem hP fun _ => ?_ | split | simp [hP])

theorem execMinB_keeps (g : Guard) (d a b : Opnd) {s : State} {P : State → Prop} (hP : Quiet P) (hs : P s) : OutKeeps P (execMinB g d a b s) := by
  unfold execMinB
  refine issue_keeps _ _ hP ?_ hs
  repeat' (first | with_reducible refine Act.Keeps.bind ?_ fun _ => ?_ | with_reducible refine Act.Keeps.change_mem hP fun _ => ?_ | split | simp [hP])

theorem execMaxB_keeps (g : Guard) (d a b : Opnd) {s : State} {P : State → Prop} (hP : Quiet P) (hs : P s) : OutKeeps P (execMaxB g d a b s) := by
  unfold execMaxB
  refine issue_keeps _ _ hP ?_ hs
  repeat' (first | with_reducible refine Act.Keeps.bind ?_ fun _ => ?_ | with_reducible refine Act.Keeps.change_mem hP fun _ => ?_ | split | simp [hP])

theorem execBfx_keeps (g : Guard) (d a b : Opnd) (sx : Bool) {s : State} {P : State → Prop} (hP : Quiet P) (hs : P s) : OutKeeps P (execBfx g d a b sx s) := by
  unfold execBfx
  refine issue_keeps _ _ hP ?_ hs
  repeat' (first | with_reducible refine Act.Keeps.bind ?_ fun _ => ?_ | with_reducible refine Act.Keeps.change_mem hP fun _ => ?_ | split | simp [hP])

theorem execBfi_keeps (g : Guard) (d a b : Opnd) {s : State} {P : State → Prop} (hP : Quiet P) (hs : P s) : OutKeeps P (execBfi g d a b s) := by
  unfold execBfi
  refine issue_keeps _ _ hP ?_ hs
  repeat' (first | with_reducible refine Act.Keeps.bind ?_ fun _ => ?_ | with_reducible refine Act.Keeps.change_mem hP fun _ => ?_ | split | simp [hP])

theorem execSel_keeps (g : Guard) (d a b : Opnd) (psel : BitVec 4) (pinv : Bool) {s : State} {P : State → Prop} (hP : Quiet P) (hs : P s) : OutKeeps P (execSel g d a b psel pinv s) := by
  unfold execSel
  refine issue_keeps _ _ hP ?_ hs
  repeat' (first | with_reducible refine Act.Keeps.bind ?_ fun _ => ?_ | with_reducible refine Act.Keeps.change_mem hP fun _ => ?_ | split | simp [hP])

theorem execLi_keeps (g : Guard) (d : Opnd) (imm : BitVec 23) {s : State} {P : State → Prop} (hP : Quiet P) (hs : P s) : OutKeeps P (execLi g d imm s) := by
  unfold execLi
  refine issue_keeps _ _ hP ?_ hs
  repeat' (first | with_reducible refine Act.Keeps.bind ?_ fun _ => ?_ | with_reducible refine Act.Keeps.change_mem hP fun _ => ?_ | split | simp [hP])

theorem execLih_keeps (g : Guard) (d a : Opnd) (imm : BitVec 23) {s : State} {P : State → Prop} (hP : Quiet P) (hs : P s) : OutKeeps P (execLih g d a imm s) := by
  unfold execLih
  refine issue_keeps _ _ hP ?_ hs
  repeat' (first | with_reducible refine Act.Keeps.bind ?_ fun _ => ?_ | with_reducible refine Act.Keeps.change_mem hP fun _ => ?_ | split | simp [hP])

theorem execCmp_keeps (g : Guard) (p cc : BitVec 4) (a b : Opnd) {s : State} {P : State → Prop} (hP : Quiet P) (hs : P s) : OutKeeps P (execCmp g p cc a b s) := by
  unfold execCmp
  refine issue_keeps _ _ hP ?_ hs
  repeat' (first | with_reducible refine Act.Keeps.bind ?_ fun _ => ?_ | with_reducible refine Act.Keeps.change_mem hP fun _ => ?_ | split | simp [hP])

theorem execCmpi_keeps (g : Guard) (p cc : BitVec 4) (a : Opnd) (imm : BitVec 23) {s : State} {P : State → Prop} (hP : Quiet P) (hs : P s) : OutKeeps P (execCmpi g p cc a imm s) := by
  unfold execCmpi
  refine issue_keeps _ _ hP ?_ hs
  repeat' (first | with_reducible refine Act.Keeps.bind ?_ fun _ => ?_ | with_reducible refine Act.Keeps.change_mem hP fun _ => ?_ | split | simp [hP])

theorem execPand_keeps (g : Guard) (d a b : BitVec 4) (na nb : Bool) {s : State} {P : State → Prop} (hP : Quiet P) (hs : P s) : OutKeeps P (execPand g d a b na nb s) := by
  unfold execPand
  refine issue_keeps _ _ hP ?_ hs
  repeat' (first | with_reducible refine Act.Keeps.bind ?_ fun _ => ?_ | with_reducible refine Act.Keeps.change_mem hP fun _ => ?_ | split | simp [hP])

theorem execPor_keeps (g : Guard) (d a b : BitVec 4) (na nb : Bool) {s : State} {P : State → Prop} (hP : Quiet P) (hs : P s) : OutKeeps P (execPor g d a b na nb s) := by
  unfold execPor
  refine issue_keeps _ _ hP ?_ hs
  repeat' (first | with_reducible refine Act.Keeps.bind ?_ fun _ => ?_ | with_reducible refine Act.Keeps.change_mem hP fun _ => ?_ | split | simp [hP])

theorem execPnot_keeps (g : Guard) (d a : BitVec 4) {s : State} {P : State → Prop} (hP : Quiet P) (hs : P s) : OutKeeps P (execPnot g d a s) := by
  unfold execPnot
  refine issue_keeps _ _ hP ?_ hs
  repeat' (first | with_reducible refine Act.Keeps.bind ?_ fun _ => ?_ | with_reducible refine Act.Keeps.change_mem hP fun _ => ?_ | split | simp [hP])

@[simp] theorem goTo_keeps (target : Int) (leave : Bool) {P : State → Prop} (hP : Quiet P) : (goTo target leave).Keeps P := by
  unfold goTo
  repeat' (first | with_reducible refine Act.Keeps.bind ?_ fun _ => ?_ | with_reducible refine Act.Keeps.change_mem hP fun _ => ?_ | split | simp [hP])

theorem execBr_keeps (g : Guard) (imm : BitVec 23) {s : State} {P : State → Prop} (hP : Quiet P) (hs : P s) : OutKeeps P (execBr g imm s) := by
  unfold execBr
  refine issue_keeps _ _ hP ?_ hs
  repeat' (first | with_reducible refine Act.Keeps.bind ?_ fun _ => ?_ | with_reducible refine Act.Keeps.change_mem hP fun _ => ?_ | split | simp [hP])

theorem execJmp_keeps (g : Guard) (imm : BitVec 23) {s : State} {P : State → Prop} (hP : Quiet P) (hs : P s) : OutKeeps P (execJmp g imm s) := by
  unfold execJmp
  refine issue_keeps _ _ hP ?_ hs
  repeat' (first | with_reducible refine Act.Keeps.bind ?_ fun _ => ?_ | with_reducible refine Act.Keeps.change_mem hP fun _ => ?_ | split | simp [hP])

theorem execJmpr_keeps (g : Guard) (a : Opnd) {s : State} {P : State → Prop} (hP : Quiet P) (hs : P s) : OutKeeps P (execJmpr g a s) := by
  unfold execJmpr
  refine issue_keeps _ _ hP ?_ hs
  repeat' (first | with_reducible refine Act.Keeps.bind ?_ fun _ => ?_ | with_reducible refine Act.Keeps.change_mem hP fun _ => ?_ | split | simp [hP])

theorem execCall_keeps (g : Guard) (d : Opnd) (imm : BitVec 23) {s : State} {P : State → Prop} (hP : Quiet P) (hs : P s) : OutKeeps P (execCall g d imm s) := by
  unfold execCall
  refine issue_keeps _ _ hP ?_ hs
  repeat' (first | with_reducible refine Act.Keeps.bind ?_ fun _ => ?_ | with_reducible refine Act.Keeps.change_mem hP fun _ => ?_ | split | simp [hP])

theorem execRet_keeps (g : Guard) (a : Opnd) {s : State} {P : State → Prop} (hP : Quiet P) (hs : P s) : OutKeeps P (execRet g a s) := by
  unfold execRet
  refine issue_keeps _ _ hP ?_ hs
  repeat' (first | with_reducible refine Act.Keeps.bind ?_ fun _ => ?_ | with_reducible refine Act.Keeps.change_mem hP fun _ => ?_ | split | simp [hP])

theorem execLoop_keeps (g : Guard) (a : Opnd) (imm : BitVec 23) {s : State} {P : State → Prop} (hP : Quiet P) (hs : P s) : OutKeeps P (execLoop g a imm s) := by
  unfold execLoop
  refine issue_keeps _ _ hP ?_ hs
  repeat' (first | with_reducible refine Act.Keeps.bind ?_ fun _ => ?_ | with_reducible refine Act.Keeps.change_mem hP fun _ => ?_ | split | simp [hP])

theorem execHalt_keeps (g : Guard) {s : State} {P : State → Prop} (hP : Quiet P) (hs : P s) : OutKeeps P (execHalt g s) := by
  unfold execHalt
  refine issue_keeps _ _ hP ?_ hs
  repeat' (first | with_reducible refine Act.Keeps.bind ?_ fun _ => ?_ | with_reducible refine Act.Keeps.change_mem hP fun _ => ?_ | split | simp [hP])

theorem execXmov_keeps (g : Guard) (dst : Dest) (a : Opnd) (lane : BitVec 3) (bcast : Bool) {s : State} {P : State → Prop} (hP : Quiet P) (hs : P s) : OutKeeps P (execXmov g dst a lane bcast s) := by
  unfold execXmov
  refine issue_keeps _ _ hP ?_ hs
  repeat' (first | with_reducible refine Act.Keeps.bind ?_ fun _ => ?_ | with_reducible refine Act.Keeps.change_mem hP fun _ => ?_ | split | simp [hP])

@[simp] theorem sysWrite_mem (n x : Nat) (s : State) : (sysWrite n x s).mem = s.mem := by
  unfold sysWrite
  repeat' (first | split | simp | rfl | refine (foldl_mem (fun _ _ => ?_) _ _).trans ?_)

theorem execRdsr_keeps (g : Guard) (d : Opnd) (sr : BitVec 23) {s : State} {P : State → Prop} (hP : Quiet P) (hs : P s) : OutKeeps P (execRdsr g d sr s) := by
  unfold execRdsr
  refine issue_keeps _ _ hP ?_ hs
  repeat' (first | with_reducible refine Act.Keeps.bind ?_ fun _ => ?_ | with_reducible refine Act.Keeps.change_mem hP fun _ => ?_ | split | simp [hP])

theorem execWrsr_keeps (g : Guard) (sr : BitVec 23) (a : Opnd) {s : State} {P : State → Prop} (hP : Quiet P) (hs : P s) : OutKeeps P (execWrsr g sr a s) := by
  unfold execWrsr
  refine issue_keeps _ _ hP ?_ hs
  repeat' (first | with_reducible refine Act.Keeps.bind ?_ fun _ => ?_ | with_reducible refine Act.Keeps.change_mem hP fun _ => ?_ | split | simp [hP])

theorem execMrsData_keeps (g : Guard) (a : Opnd) {s : State} {P : State → Prop} (hP : Quiet P) (hs : P s) : OutKeeps P (execMrsData g a s) := by
  unfold execMrsData
  refine issue_keeps _ _ hP ?_ hs
  repeat' (first | with_reducible refine Act.Keeps.bind ?_ fun _ => ?_ | with_reducible refine Act.Keeps.change_mem hP fun _ => ?_ | split | simp [hP])

theorem execRdts_keeps (g : Guard) (d : Opnd) {s : State} {P : State → Prop} (hP : Quiet P) (hs : P s) : OutKeeps P (execRdts g d s) := by
  unfold execRdts
  refine issue_keeps _ _ hP ?_ hs
  repeat' (first | with_reducible refine Act.Keeps.bind ?_ fun _ => ?_ | with_reducible refine Act.Keeps.change_mem hP fun _ => ?_ | split | simp [hP])

theorem execNoOperation_keeps  {s : State} {P : State → Prop} (hP : Quiet P) (hs : P s) : OutKeeps P (execNoOperation s) := by
  unfold execNoOperation
  refine issue_keeps _ _ hP ?_ hs
  repeat' (first | with_reducible refine Act.Keeps.bind ?_ fun _ => ?_ | with_reducible refine Act.Keeps.change_mem hP fun _ => ?_ | split | simp [hP])

theorem execFetchBeyondCode_keeps  {s : State} {P : State → Prop} (hP : Quiet P) (hs : P s) : OutKeeps P (execFetchBeyondCode s) := by
  unfold execFetchBeyondCode
  try dsimp only
  repeat' (first | with_reducible exact hs | split | exact hP _ _ (by simp) hs)

/-! ### RingOps -/

@[simp] theorem Act.ring_keeps (n : Nat) (out : Bool) {P : State → Prop} (hP : Quiet P) : (Act.ring n out).Keeps P := by
  refine Act.Keeps.lam fun s hs => ?_
  unfold Act.ring
  repeat' (first | exact hs | split | simp [hs])
  all_goals exact hP _ _ (by simp) hs

@[simp] theorem setRing_mem (n : Nat) (r : Ring) (s : State) : (setRing n r s).mem = s.mem := by
  unfold setRing
  repeat' (first | split | simp | rfl | refine (foldl_mem (fun _ _ => ?_) _ _).trans ?_)

@[simp] theorem ringStall_keeps {α : Type} {P : State → Prop} (hP : Quiet P) : (ringStall  : Act α).Keeps P := by
  refine Act.Keeps.lam fun s hs => ?_
  unfold ringStall
  repeat' (first | exact hs | split | simp [hs])
  all_goals exact hP _ _ (by simp) hs

@[simp] theorem ringAwait_keeps (n : Nat) (r : Ring) (start len : Nat) {P : State → Prop} (hP : Quiet P) : (ringAwait n r start len).Keeps P := by
  unfold ringAwait
  repeat' (first | with_reducible refine Act.Keeps.bind ?_ fun _ => ?_ | with_reducible refine Act.Keeps.change_mem hP fun _ => ?_ | split | simp [hP])

@[simp] theorem ringRead_keeps (n : Nat) (peek : Bool) (t : Fmt) {P : State → Prop} (hP : Quiet P) : (ringRead n peek t).Keeps P := by
  unfold ringRead
  repeat' (first | with_reducible refine Act.Keeps.bind ?_ fun _ => ?_ | with_reducible refine Act.Keeps.change_mem hP fun _ => ?_ | split | simp [hP])

@[simp] theorem ringRaw_keeps (n : Nat) (peek : Bool) {P : State → Prop} (hP : Quiet P) : (ringRaw n peek).Keeps P := by
  unfold ringRaw
  repeat' (first | with_reducible refine Act.Keeps.bind ?_ fun _ => ?_ | with_reducible refine Act.Keeps.change_mem hP fun _ => ?_ | split | simp [hP])

@[simp] theorem ringPlace_keeps (n : Nat) (r : Ring) (x len l : Nat) {P : State → Prop} (hP : Quiet P) : (ringPlace n r x len l).Keeps P := by
  unfold ringPlace
  repeat' (first | with_reducible refine Act.Keeps.bind ?_ fun _ => ?_ | with_reducible refine Act.Keeps.change_mem hP fun _ => ?_ | split | simp [hP])

@[simp] theorem pushRaw_keeps (n : Nat) (v : Vec) (l : Nat) {P : State → Prop} (hP : Quiet P) : (pushRaw n v l).Keeps P := by
  unfold pushRaw
  repeat' (first | with_reducible refine Act.Keeps.bind ?_ fun _ => ?_ | with_reducible refine Act.Keeps.change_mem hP fun _ => ?_ | split | simp [hP])

@[simp] theorem pushLanes_keeps (n : Nat) (t : Fmt) (skip : Nat) (v : Vec) (l : Nat) {P : State → Prop} (hP : Quiet P) : (pushLanes n t skip v l).Keeps P := by
  unfold pushLanes
  repeat' (first | with_reducible refine Act.Keeps.bind ?_ fun _ => ?_ | with_reducible refine Act.Keeps.change_mem hP fun _ => ?_ | split | simp [hP])

@[simp] theorem dqPop_keeps (n : Nat) {P : State → Prop} (hP : Quiet P) : (dqPop n).Keeps P := by
  refine Act.Keeps.lam fun s hs => ?_
  unfold dqPop
  repeat' (first | exact hs | split | simp [hs])
  all_goals exact hP _ _ (by simp) hs

@[simp] theorem readRaw_keeps (o : Opnd) {P : State → Prop} (hP : Quiet P) : (readRaw o).Keeps P := by
  unfold readRaw
  repeat' (first | with_reducible refine Act.Keeps.bind ?_ fun _ => ?_ | with_reducible refine Act.Keeps.change_mem hP fun _ => ?_ | split | simp [hP])

@[simp] theorem readVec_keeps (t : Fmt) (o : Opnd) {P : State → Prop} (hP : Quiet P) : (readVec t o).Keeps P := by
  unfold readVec
  repeat' (first | with_reducible refine Act.Keeps.bind ?_ fun _ => ?_ | with_reducible refine Act.Keeps.change_mem hP fun _ => ?_ | split | simp [hP])

end Sys2Proof.Machine
end

