-- ==== Sys2Proof/Laws/KeepsMatrix.lean ====
section
/-! SUPPORT. What the operations of M leave of memory. -/

namespace Sys2Proof.Machine

set_option Elab.async false
set_option linter.unusedTactic false
set_option linter.unreachableTactic false
set_option linter.unusedSimpArgs false
set_option linter.unusedVariables false

/-! ### Matrix -/

@[simp] theorem performTile_mem (s : State) (loc : Nat) (t : TileWrite) : (performTile s loc t).mem = s.mem := by
  unfold performTile
  repeat' (first | split | simp | rfl | refine (foldl_mem (fun _ _ => ?_) _ _).trans ?_)

@[simp] theorem landTileList_mem (loc : Nat) (ts kept : List TileWrite) (s : State) :
    (landTileList loc ts kept s).1.mem = s.mem := by
  induction ts generalizing kept s with
  | nil => rfl
  | cons t ts ih =>
    unfold landTileList
    split <;> simp [ih]

@[simp] theorem landTiles_mem (s : State) (loc : Nat) : (landTiles s loc).mem = s.mem :=
  landTileList_mem loc (s.seqAt loc).tiles [] s

@[simp] theorem useTile_keeps (acc : Nat) {P : State → Prop} (hP : Quiet P) : (useTile acc).Keeps P := by
  unfold useTile
  repeat' (first | with_reducible refine Act.Keeps.bind ?_ fun _ => ?_ | with_reducible refine Act.Keeps.change_mem hP fun _ => ?_ | split | simp [hP])

@[simp] theorem addTile_keeps (acc : Nat) (k : TileKind) {P : State → Prop} (hP : Quiet P) : (addTile acc k).Keeps P := by
  unfold addTile
  repeat' (first | with_reducible refine Act.Keeps.bind ?_ fun _ => ?_ | with_reducible refine Act.Keeps.change_mem hP fun _ => ?_ | split | simp [hP])

@[simp] theorem putLines_mem (s : State) (loc l : Nat) (xs : List Nat) : (putLines s loc l xs).mem = s.mem := by
  induction xs generalizing l with
  | nil => rfl
  | cons x xs ih =>
    unfold putLines
    simp [ih]

@[simp] theorem completeFill_mem (s : State) (loc : Nat) (before fs : List Fill) :
    (completeFill s loc before fs).mem = s.mem := by
  induction fs generalizing before with
  | nil => rfl
  | cons f fs ih =>
    unfold completeFill
    split <;> simp [ih]

@[simp] theorem feedRing_mem (s : State) (loc n : Nat) : (feedRing s loc n).mem = s.mem := by
  unfold feedRing
  repeat' (first | split | simp | rfl | refine (foldl_mem (fun _ _ => ?_) _ _).trans ?_)

@[simp] theorem takeReady_keeps (n : Nat) (r : Ring) (need : Nat) {P : State → Prop} (hP : Quiet P) : (takeReady n r need).Keeps P := by
  unfold takeReady
  repeat' (first | with_reducible refine Act.Keeps.bind ?_ fun _ => ?_ | with_reducible refine Act.Keeps.change_mem hP fun _ => ?_ | split | simp [hP])

@[simp] theorem lineIn_keeps (lm : BitVec 3) {P : State → Prop} (hP : Quiet P) : (lineIn lm).Keeps P := by
  unfold lineIn
  repeat' (first | with_reducible refine Act.Keeps.bind ?_ fun _ => ?_ | with_reducible refine Act.Keeps.change_mem hP fun _ => ?_ | split | simp [hP])

@[simp] theorem takeArray_keeps {P : State → Prop} (hP : Quiet P) : (takeArray).Keeps P := by
  unfold takeArray
  repeat' (first | with_reducible refine Act.Keeps.bind ?_ fun _ => ?_ | with_reducible refine Act.Keeps.change_mem hP fun _ => ?_ | split | simp [hP])

@[simp] theorem actMmac_keeps (acc q : BitVec 5) (af bf : Fmt) (kn : BitVec 7) (lm : BitVec 3) (km : Option (BitVec 3)) (adv : Bool) {P : State → Prop} (hP : Quiet P) : (actMmac acc q af bf kn lm km adv).Keeps P := by
  unfold actMmac
  repeat' (first | with_reducible refine Act.Keeps.bind ?_ fun _ => ?_ | with_reducible refine Act.Keeps.change_mem hP fun _ => ?_ | split | simp [hP])

@[simp] theorem actMclr_keeps (acc : BitVec 5) {P : State → Prop} (hP : Quiet P) : (actMclr acc).Keeps P := by
  unfold actMclr
  repeat' (first | with_reducible refine Act.Keeps.bind ?_ fun _ => ?_ | with_reducible refine Act.Keeps.change_mem hP fun _ => ?_ | split | simp [hP])

@[simp] theorem pushDq_keeps (n : Nat) (v : Vec) (l : Nat) {P : State → Prop} (hP : Quiet P) : (pushDq n v l).Keeps P := by
  unfold pushDq
  repeat' (first | with_reducible refine Act.Keeps.bind ?_ fun _ => ?_ | with_reducible refine Act.Keeps.change_mem hP fun _ => ?_ | split | simp [hP])

@[simp] theorem reserveDq_keeps (n count : Nat) {P : State → Prop} (hP : Quiet P) : (reserveDq n count).Keeps P := by
  unfold reserveDq
  repeat' (first | with_reducible refine Act.Keeps.bind ?_ fun _ => ?_ | with_reducible refine Act.Keeps.change_mem hP fun _ => ?_ | split | simp [hP])

@[simp] theorem pushDqAll_keeps (n l : Nat) (xs : List Nat) (e : Nat) {P : State → Prop} (hP : Quiet P) : (pushDqAll n l xs e).Keeps P := by
  induction xs generalizing e with
  | nil => exact Act.Keeps.ret _
  | cons x xs ih =>
    unfold pushDqAll
    exact Act.Keeps.bind (by simp [hP]) fun _ => ih _

@[simp] theorem actMdrain_keeps (dq : BitVec 2) (acc : BitVec 5) (rs : BitVec 7) (nr1 : BitVec 4) (fo : Fmt) (cl : Bool) {P : State → Prop} (hP : Quiet P) : (actMdrain dq acc rs nr1 fo cl).Keeps P := by
  unfold actMdrain
  repeat' (first | with_reducible refine Act.Keeps.bind ?_ fun _ => ?_ | with_reducible refine Act.Keeps.change_mem hP fun _ => ?_ | split | simp [hP])

@[simp] theorem actMlar_keeps (q : BitVec 5) (kn : BitVec 7) (lm : BitVec 3) (adv : BitVec 2) {P : State → Prop} (hP : Quiet P) : (actMlar q kn lm adv).Keeps P := by
  unfold actMlar
  repeat' (first | with_reducible refine Act.Keeps.bind ?_ fun _ => ?_ | with_reducible refine Act.Keeps.change_mem hP fun _ => ?_ | split | simp [hP])

@[simp] theorem actMpar_keeps (md : BitVec 3) (imm : BitVec 32) (hi : Bool) {P : State → Prop} (hP : Quiet P) : (actMpar md imm hi).Keeps P := by
  unfold actMpar
  repeat' (first | with_reducible refine Act.Keeps.bind ?_ fun _ => ?_ | with_reducible refine Act.Keeps.change_mem hP fun _ => ?_ | split | simp [hP])

@[simp] theorem clearCounters_mem (acc : Nat) (s : State) : (clearCounters acc s).mem = s.mem := by
  unfold clearCounters
  repeat' (first | split | simp | rfl | refine (foldl_mem (fun _ _ => ?_) _ _).trans ?_)

@[simp] theorem actMcnt_keeps (dq : BitVec 2) (acc : BitVec 5) (clear : Bool) {P : State → Prop} (hP : Quiet P) : (actMcnt dq acc clear).Keeps P := by
  unfold actMcnt
  repeat' (first | with_reducible refine Act.Keeps.bind ?_ fun _ => ?_ | with_reducible refine Act.Keeps.change_mem hP fun _ => ?_ | split | simp [hP])

@[simp] theorem actMcntClr_keeps (acc : BitVec 5) {P : State → Prop} (hP : Quiet P) : (actMcntClr acc).Keeps P := by
  unfold actMcntClr
  repeat' (first | with_reducible refine Act.Keeps.bind ?_ fun _ => ?_ | with_reducible refine Act.Keeps.change_mem hP fun _ => ?_ | split | simp [hP])

theorem execMclr_keeps (g : Guard) (acc : BitVec 5) {s : State} {P : State → Prop} (hP : Quiet P) (hs : P s) : OutKeeps P (execMclr g acc s) := by
  unfold execMclr
  refine issue_keeps _ _ hP ?_ hs
  repeat' (first | with_reducible refine Act.Keeps.bind ?_ fun _ => ?_ | with_reducible refine Act.Keeps.change_mem hP fun _ => ?_ | split | simp [hP])

theorem execMmac_keeps (g : Guard) (acc q : BitVec 5) (af bf : Fmt) (kn : BitVec 7) (lm : BitVec 3) (adv : Bool) {s : State} {P : State → Prop} (hP : Quiet P) (hs : P s) : OutKeeps P (execMmac g acc q af bf kn lm adv s) := by
  unfold execMmac
  refine issue_keeps _ _ hP ?_ hs
  repeat' (first | with_reducible refine Act.Keeps.bind ?_ fun _ => ?_ | with_reducible refine Act.Keeps.change_mem hP fun _ => ?_ | split | simp [hP])

theorem execMmacs_keeps (g : Guard) (acc q : BitVec 5) (af bf : Fmt) (kn : BitVec 7) (lm km : BitVec 3) (adv : Bool) {s : State} {P : State → Prop} (hP : Quiet P) (hs : P s) : OutKeeps P (execMmacs g acc q af bf kn lm km adv s) := by
  unfold execMmacs
  refine issue_keeps _ _ hP ?_ hs
  repeat' (first | with_reducible refine Act.Keeps.bind ?_ fun _ => ?_ | with_reducible refine Act.Keeps.change_mem hP fun _ => ?_ | split | simp [hP])

theorem execMdrain_keeps (g : Guard) (dq : BitVec 2) (acc : BitVec 5) (rs : BitVec 7) (nr1 : BitVec 4) (fo : Fmt) (cl : Bool) {s : State} {P : State → Prop} (hP : Quiet P) (hs : P s) : OutKeeps P (execMdrain g dq acc rs nr1 fo cl s) := by
  unfold execMdrain
  refine issue_keeps _ _ hP ?_ hs
  repeat' (first | with_reducible refine Act.Keeps.bind ?_ fun _ => ?_ | with_reducible refine Act.Keeps.change_mem hP fun _ => ?_ | split | simp [hP])

theorem execMlar_keeps (g : Guard) (q : BitVec 5) (kn : BitVec 7) (lm : BitVec 3) (adv : BitVec 2) {s : State} {P : State → Prop} (hP : Quiet P) (hs : P s) : OutKeeps P (execMlar g q kn lm adv s) := by
  unfold execMlar
  refine issue_keeps _ _ hP ?_ hs
  repeat' (first | with_reducible refine Act.Keeps.bind ?_ fun _ => ?_ | with_reducible refine Act.Keeps.change_mem hP fun _ => ?_ | split | simp [hP])

theorem execMpar_keeps (g : Guard) (md : BitVec 3) (imm : BitVec 32) (hi : Bool) {s : State} {P : State → Prop} (hP : Quiet P) (hs : P s) : OutKeeps P (execMpar g md imm hi s) := by
  unfold execMpar
  refine issue_keeps _ _ hP ?_ hs
  repeat' (first | with_reducible refine Act.Keeps.bind ?_ fun _ => ?_ | with_reducible refine Act.Keeps.change_mem hP fun _ => ?_ | split | simp [hP])

theorem execMcall_keeps (g : Guard) (idx : BitVec 11) {s : State} {P : State → Prop} (hP : Quiet P) (hs : P s) : OutKeeps P (execMcall g idx s) := by
  unfold execMcall
  refine issue_keeps _ _ hP ?_ hs
  repeat' (first | with_reducible refine Act.Keeps.bind ?_ fun _ => ?_ | with_reducible refine Act.Keeps.change_mem hP fun _ => ?_ | split | simp [hP])

theorem execMloop_keeps (g : Guard) (count : BitVec 16) (mi : BitVec 3) (src : Bool) {s : State} {P : State → Prop} (hP : Quiet P) (hs : P s) : OutKeeps P (execMloop g count mi src s) := by
  unfold execMloop
  refine issue_keeps _ _ hP ?_ hs
  repeat' (first | with_reducible refine Act.Keeps.bind ?_ fun _ => ?_ | with_reducible refine Act.Keeps.change_mem hP fun _ => ?_ | split | simp [hP])

theorem execMend_keeps (g : Guard) {s : State} {P : State → Prop} (hP : Quiet P) (hs : P s) : OutKeeps P (execMend g s) := by
  unfold execMend
  refine issue_keeps _ _ hP ?_ hs
  repeat' (first | with_reducible refine Act.Keeps.bind ?_ fun _ => ?_ | with_reducible refine Act.Keeps.change_mem hP fun _ => ?_ | split | simp [hP])

theorem execMendF_keeps (g : Guard) {s : State} {P : State → Prop} (hP : Quiet P) (hs : P s) : OutKeeps P (execMendF g s) := by
  unfold execMendF
  refine issue_keeps _ _ hP ?_ hs
  repeat' (first | with_reducible refine Act.Keeps.bind ?_ fun _ => ?_ | with_reducible refine Act.Keeps.change_mem hP fun _ => ?_ | split | simp [hP])

theorem execMcntRd_keeps (g : Guard) (dq : BitVec 2) (acc : BitVec 5) {s : State} {P : State → Prop} (hP : Quiet P) (hs : P s) : OutKeeps P (execMcntRd g dq acc s) := by
  unfold execMcntRd
  refine issue_keeps _ _ hP ?_ hs
  repeat' (first | with_reducible refine Act.Keeps.bind ?_ fun _ => ?_ | with_reducible refine Act.Keeps.change_mem hP fun _ => ?_ | split | simp [hP])

theorem execMcntSnap_keeps (g : Guard) (dq : BitVec 2) (acc : BitVec 5) {s : State} {P : State → Prop} (hP : Quiet P) (hs : P s) : OutKeeps P (execMcntSnap g dq acc s) := by
  unfold execMcntSnap
  refine issue_keeps _ _ hP ?_ hs
  repeat' (first | with_reducible refine Act.Keeps.bind ?_ fun _ => ?_ | with_reducible refine Act.Keeps.change_mem hP fun _ => ?_ | split | simp [hP])

theorem execMcntClr_keeps (g : Guard) (acc : BitVec 5) {s : State} {P : State → Prop} (hP : Quiet P) (hs : P s) : OutKeeps P (execMcntClr g acc s) := by
  unfold execMcntClr
  refine issue_keeps _ _ hP ?_ hs
  repeat' (first | with_reducible refine Act.Keeps.bind ?_ fun _ => ?_ | with_reducible refine Act.Keeps.change_mem hP fun _ => ?_ | split | simp [hP])

@[simp] theorem actOfM_keeps (i : Instr) {P : State → Prop} (hP : Quiet P) : (actOfM i).Keeps P := by
  unfold actOfM
  repeat' (first | with_reducible refine Act.Keeps.bind ?_ fun _ => ?_ | split | simp [hP])

@[simp] theorem moveRoutine_mem (loc : Nat) (rt : Option Routine) (s : State) : (moveRoutine loc rt s).mem = s.mem := by
  unfold moveRoutine
  repeat' (first | split | simp | rfl | refine (foldl_mem (fun _ _ => ?_) _ _).trans ?_)

theorem issueWord_keeps (s : State) (rt : Routine) {P : State → Prop} (hP : Quiet P) (hs : P s) : P (issueWord s rt) := by
  unfold issueWord
  dsimp only
  split
  · split <;> exact hP _ _ (by simp) hs
  · refine issueFull_keeps _ _ hP (fun t h => hP _ _ (by simp) h) (fun t h => hP _ _ (by simp) h) ?_ hs
    refine Act.Keeps.bind (by simp [hP]) fun _ => ?_
    split <;> simp

theorem execRoutineWordIssue_keeps {s : State} {P : State → Prop} (hP : Quiet P) (hs : P s) :
    OutKeeps P (execRoutineWordIssue s) := by
  have hr : ∀ (c : Prop) [Decidable c] (r : Reg), EndsIn P (if c then readReg r s else .ok (0, s)) := by
    intro c _ r
    split
    · exact readReg_keeps r s hs
    · exact hs
  unfold execRoutineWordIssue
  dsimp only
  split
  · exact hs
  · split
    · simp only [OutKeeps.next]
      split <;> exact hP _ _ (by simp) hs
    · split
      · rename_i e he
        refine stopHere_keeps s hP hs (α := Vec) e ?_
        rw [← he]
        exact hr _ _
      · rename_i v t he
        refine issueWord_keeps t _ hP ?_
        have h : EndsIn P (.ok (v, t)) := by
          rw [← he]
          exact hr _ _
        exact h

theorem execTileWriteComplete_keeps (loc acc : Nat) {s : State} {P : State → Prop} (hP : Quiet P) (hs : P s) : OutKeeps P (execTileWriteComplete loc acc s) := by
  unfold execTileWriteComplete
  try dsimp only
  repeat' (first | with_reducible exact hs | split | exact hP _ _ (by simp) hs)

theorem execMlarFillComplete_keeps (loc : Nat) {s : State} {P : State → Prop} (hP : Quiet P) (hs : P s) : OutKeeps P (execMlarFillComplete loc s) := by
  unfold execMlarFillComplete
  try dsimp only
  repeat' (first | with_reducible exact hs | split | exact hP _ _ (by simp) hs)

end Sys2Proof.Machine
end

