-- ==== Sys2Proof/Laws/KeepsRings.lean ====
section
/-! SUPPORT. What the stream unit and the fabric leave of memory. -/

namespace Sys2Proof.Machine

set_option Elab.async false
set_option linter.unusedTactic false
set_option linter.unreachableTactic false
set_option linter.unusedSimpArgs false
set_option linter.unusedVariables false

/-! ### Rings -/

@[simp] theorem readLocal_keeps (a n : Nat) {P : State → Prop} (hP : Quiet P) : (readLocal a n).Keeps P := by
  unfold readLocal
  repeat' (first | with_reducible refine Act.Keeps.bind ?_ fun _ => ?_ | with_reducible refine Act.Keeps.change_mem hP fun _ => ?_ | split | simp [hP])

@[simp] theorem localBlock_keeps (a : Nat) {P : State → Prop} (hP : Quiet P) : (localBlock a).Keeps P := by
  unfold localBlock
  repeat' (first | with_reducible refine Act.Keeps.bind ?_ fun _ => ?_ | with_reducible refine Act.Keeps.change_mem hP fun _ => ?_ | split | simp [hP])

@[simp] theorem nearWrite_wf (s : State) (loc a : Nat) (bytes : List Byte) (mask : Nat) (h : s.mem.wf = true) : (nearWrite s loc a bytes mask).mem.wf = true := by
  unfold nearWrite
  try dsimp only
  repeat' (first | with_reducible exact h | split | simp [*] | refine foldl_wf (fun _ _ _ => ?_) _ ?_)

@[simp] theorem nearPutBits_wf (s : State) (loc b w x : Nat) (h : s.mem.wf = true) : (nearPutBits s loc b w x).mem.wf = true := by
  unfold nearPutBits
  try dsimp only
  repeat' (first | with_reducible exact h | split | simp [*] | refine foldl_wf (fun _ _ _ => ?_) _ ?_)

theorem execCbind_keeps (g : Guard) (q e : BitVec 5) (gather : Bool) {s : State} {P : State → Prop} (hP : Quiet P) (hs : P s) : OutKeeps P (execCbind g q e gather s) := by
  unfold execCbind
  refine issue_keeps _ _ hP ?_ hs
  repeat' (first | with_reducible refine Act.Keeps.bind ?_ fun _ => ?_ | with_reducible refine Act.Keeps.change_mem hP fun _ => ?_ | split | simp [hP])

@[simp] theorem Act.anyRing_keeps (n : Nat) {P : State → Prop} (hP : Quiet P) : (Act.anyRing n).Keeps P := by
  refine Act.Keeps.lam fun s hs => ?_
  unfold Act.anyRing
  repeat' (first | exact hs | split | simp [hs])
  all_goals exact hP _ _ (by simp) hs

theorem execCfree_keeps (g : Guard) (q : BitVec 5) {s : State} {P : State → Prop} (hP : Quiet P) (hs : P s) : OutKeeps P (execCfree g q s) := by
  unfold execCfree
  refine issue_keeps _ _ hP ?_ hs
  repeat' (first | with_reducible refine Act.Keeps.bind ?_ fun _ => ?_ | with_reducible refine Act.Keeps.change_mem hP fun _ => ?_ | split | simp [hP])

theorem execGpush_keeps (g : Guard) (q : BitVec 5) (a : Opnd) {s : State} {P : State → Prop} (hP : Quiet P) (hs : P s) : OutKeeps P (execGpush g q a s) := by
  unfold execGpush
  refine issue_keeps _ _ hP ?_ hs
  repeat' (first | with_reducible refine Act.Keeps.bind ?_ fun _ => ?_ | with_reducible refine Act.Keeps.change_mem hP fun _ => ?_ | split | simp [hP])

@[simp] theorem fillWait_keeps (q n : Nat) (r : Ring) {P : State → Prop} (hP : Quiet P) : (fillWait q n r).Keeps P := by
  unfold fillWait
  repeat' (first | with_reducible refine Act.Keeps.bind ?_ fun _ => ?_ | with_reducible refine Act.Keeps.change_mem hP fun _ => ?_ | split | simp [hP])

theorem execQwait_keeps (g : Guard) (q : BitVec 5) (n : BitVec 7) {s : State} {P : State → Prop} (hP : Quiet P) (hs : P s) : OutKeeps P (execQwait g q n s) := by
  unfold execQwait
  refine issue_keeps _ _ hP ?_ hs
  repeat' (first | with_reducible refine Act.Keeps.bind ?_ fun _ => ?_ | with_reducible refine Act.Keeps.change_mem hP fun _ => ?_ | split | simp [hP])

theorem execQadv_keeps (g : Guard) (q : BitVec 5) (n : BitVec 7) {s : State} {P : State → Prop} (hP : Quiet P) (hs : P s) : OutKeeps P (execQadv g q n s) := by
  unfold execQadv
  refine issue_keeps _ _ hP ?_ hs
  repeat' (first | with_reducible refine Act.Keeps.bind ?_ fun _ => ?_ | with_reducible refine Act.Keeps.change_mem hP fun _ => ?_ | split | simp [hP])

theorem execRingEntryFill_keeps (loc q : Nat) {s : State} {P : State → Prop} (hP : Quiet P) (hs : P s) : OutKeeps P (execRingEntryFill loc q s) := by
  unfold execRingEntryFill
  try dsimp only
  repeat' (first | with_reducible exact hs | split | exact hP _ _ (by simp) hs)

theorem execGatherRowFetch_keeps (loc q rows : Nat) {s : State} {P : State → Prop} (hP : Quiet P) (hs : P s) : OutKeeps P (execGatherRowFetch loc q rows s) := by
  unfold execGatherRowFetch
  try dsimp only
  repeat' (first | with_reducible exact hs | split | exact hP _ _ (by simp) hs)

theorem execChunkDecode_keeps (loc q chunk : Nat) {s : State} {P : State → Prop} (hP : Quiet P) (hs : P s) : OutKeeps P (execChunkDecode loc q chunk s) := by
  unfold execChunkDecode
  try dsimp only
  repeat' (first | with_reducible exact hs | split | exact hP _ _ (by simp) hs)

@[simp] theorem drainElements_wf (loc : Nat) (r : Ring) (e : RingEntry) (ks : List Nat) (s : State) (h : s.mem.wf = true) :
    (drainElements loc r e ks s).mem.wf = true := by
  induction ks generalizing s with
  | nil => exact h
  | cons k ks ih =>
    unfold drainElements
    dsimp only
    apply ih
    repeat' (first | split | simp [h])

theorem execRingEntryDrain_inv (loc q : Nat) {s : State} (hs : s.Inv) : OutKeeps State.Inv (execRingEntryDrain loc q s) := by
  have h : s.mem.wf = true := hs
  unfold execRingEntryDrain
  try dsimp only
  repeat' (first | with_reducible exact hs | split | simp [h, State.Inv] | refine foldl_wf (fun _ _ _ => ?_) _ ?_)

theorem execDrainQueueForward_keeps (loc q : Nat) {s : State} {P : State → Prop} (hP : Quiet P) (hs : P s) : OutKeeps P (execDrainQueueForward loc q s) := by
  unfold execDrainQueueForward
  try dsimp only
  repeat' (first | with_reducible exact hs | split | exact hP _ _ (by simp) hs)

/-! ### Traffic -/

@[simp] theorem emit_mem (s : State) (p : Packet) : (emit s p).mem = s.mem := by
  unfold emit
  repeat' (first | split | simp | rfl | refine (foldl_mem (fun _ _ => ?_) _ _).trans ?_)

@[simp] theorem openAccess_keeps (e : Ifr) (reqs : List (Nat × Nat × Nat × PktKind)) {P : State → Prop} (hP : Quiet P) : (openAccess e reqs).Keeps P := by
  refine Act.Keeps.lam fun s hs => ?_
  unfold openAccess
  repeat' (first | exact hs | split | simp [hs])
  all_goals exact hP _ _ (by simp) hs

@[simp] theorem Act.home_keeps (va : Nat) (write remote : Bool) {P : State → Prop} (hP : Quiet P) : (Act.home va write remote).Keeps P := by
  unfold Act.home
  repeat' (first | with_reducible refine Act.Keeps.bind ?_ fun _ => ?_ | with_reducible refine Act.Keeps.change_mem hP fun _ => ?_ | split | simp [hP])

@[simp] theorem awaitResult_keeps (r : Reg) (l k : Nat) (poison : Bool) {P : State → Prop} (hP : Quiet P) : (awaitResult r l k poison).Keeps P := by
  unfold awaitResult
  repeat' (first | with_reducible refine Act.Keeps.bind ?_ fun _ => ?_ | with_reducible refine Act.Keeps.change_mem hP fun _ => ?_ | split | simp [hP])

@[simp] theorem State.setToken_mem (s : State) (vd va : Nat) (t : Token) : (State.setToken s vd va t).mem = s.mem := by
  unfold State.setToken
  repeat' (first | split | simp | rfl | refine (foldl_mem (fun _ _ => ?_) _ _).trans ?_)

@[simp] theorem putHome_wf (s : State) (pa : Nat) (b : Byte) (h : s.mem.wf = true) : (putHome s pa b).mem.wf = true := by
  unfold putHome
  try dsimp only
  repeat' (first | with_reducible exact h | split | simp [*] | refine foldl_wf (fun _ _ _ => ?_) _ ?_)

theorem putHomes_wf (l : List Nat) (f : Nat → Nat) (b : State → Nat → Byte) {s : State} (h : s.mem.wf = true) :
    (l.foldl (fun s o => putHome s (f o) (b s o)) s).mem.wf = true :=
  foldl_wf (fun _ _ h => putHome_wf _ _ _ h) l h

@[simp] theorem dropLines_wf (s : State) (vd va pa n : Nat) (h : s.mem.wf = true) : (dropLines s vd va pa n).mem.wf = true := by
  by_cases hh : (s.tokenAt vd va).holder.isNone = true
  · simp only [dropLines, hh, if_true, h]
  · simp only [dropLines, hh, if_false, State.setToken_mem, Bool.false_eq_true]
    exact putHomes_wf _ _ (fun u o => u.mem.look ((s.tokenAt vd va).frame + o)) h

@[simp] theorem fetchLine_wf (s : State) (vd va : Nat) (t : Token) (o pa : Nat) (h : s.mem.wf = true) :
    (fetchLine s vd va t o pa).mem.wf = true := by
  unfold fetchLine
  dsimp only
  rw [State.setToken_mem]
  exact putHomes_wf _ _ (fun _ j => walkByte s (pa - o % 64 + j)) h

@[simp] theorem frameAccess_wf (s : State) (p : Packet) (h : s.mem.wf = true) : (frameAccess s p).2.mem.wf = true := by
  unfold frameAccess
  dsimp only
  split
  · have hf : ∀ (c : Prop) [Decidable c] (u : State), u.mem.wf = true → (if c then s else u).mem.wf = true := by
      intro c _ u hu
      split
      · exact h
      · exact hu
    split <;> exact hf _ _ (fetchLine_wf _ _ _ _ _ _ h)
  · rw [State.setToken_mem, clearMarks_mem]
    exact Memory.wf_storeAll h _ _
  · exact h

@[simp] theorem dropPacket_mem (s : State) (pk : Nat) : (dropPacket s pk).mem = s.mem := by
  unfold dropPacket
  repeat' (first | split | simp | rfl | refine (foldl_mem (fun _ _ => ?_) _ _).trans ?_)

@[simp] theorem putPacket_mem (s : State) (p : Packet) : (putPacket s p).mem = s.mem := by
  unfold putPacket
  repeat' (first | split | simp | rfl | refine (foldl_mem (fun _ _ => ?_) _ _).trans ?_)

@[simp] theorem answer_mem (s : State) (p : Packet) (k : PktKind) : (answer s p k).mem = s.mem := by
  unfold answer
  repeat' (first | split | simp | rfl | refine (foldl_mem (fun _ _ => ?_) _ _).trans ?_)

@[simp] theorem addRecord_mem (s : State) (ep : Nat) (r : Record) : (addRecord s ep r).mem = s.mem := by
  unfold addRecord
  repeat' (first | split | simp | rfl | refine (foldl_mem (fun _ _ => ?_) _ _).trans ?_)

@[simp] theorem performAccess_wf (s : State) (p : Packet) (h : s.mem.wf = true) : (performAccess s p).2.2.mem.wf = true := by
  unfold performAccess
  have hd : ∀ n, (dropLines s p.key.vd p.va p.addr n).mem.wf = true := fun n => dropLines_wf _ _ _ _ _ h
  dsimp only
  split
  · split <;> exact hd _
  · simp [hd]
  · split
    · exact hd _
    · dsimp only
      split
      · exact Memory.wf_storeAll (hd _) _ _
      · exact hd _
  · exact hd _

theorem execHomeAccess_inv (pk : Nat) {s : State} (hs : s.Inv) : OutKeeps State.Inv (execHomeAccess pk s) := by
  have h : s.mem.wf = true := hs
  unfold execHomeAccess
  split
  · exact hs
  · rename_i p _
    have hp : (performAccess s p).2.2.mem.wf = true := performAccess_wf s p h
    have hf : (frameAccess s p).2.mem.wf = true := frameAccess_wf s p h
    dsimp only
    split
    · exact hs
    · split
      · split
        · simp [h, State.Inv]
        · split <;> simp [hf, State.Inv]
      · split
        · simp [hp, State.Inv]
        · split
          · simp [h, State.Inv]
          · split
            · simp [h, State.Inv]
            · cases hr : performAccess s p with
              | mk k r =>
                rw [hr] at hp
                obtain ⟨n, t⟩ := r
                cases k <;> simpa [State.Inv] using hp

@[simp] theorem bringResult_mem (s : State) (loc k v : Nat) : (bringResult s loc k v).mem = s.mem := by
  unfold bringResult
  repeat' (first | split | simp | rfl | refine (foldl_mem (fun _ _ => ?_) _ _).trans ?_)

@[simp] theorem completeAccess_mem (s : State) (loc k : Nat) (e : Ifr) : (completeAccess s loc k e).mem = s.mem := by
  unfold completeAccess
  repeat' (first | split | simp | rfl | refine (foldl_mem (fun _ _ => ?_) _ _).trans ?_)

@[simp] theorem takeAnswer_mem (s : State) (p : Packet) (e : Ifr) : (takeAnswer s p e).mem = s.mem := by
  unfold takeAnswer
  repeat' (first | split | simp | rfl | refine (foldl_mem (fun _ _ => ?_) _ _).trans ?_)

@[simp] theorem takeReply_mem (s : State) (loc entry : Nat) (kinds : List Nat) : (takeReply s loc entry kinds).mem = s.mem := by
  unfold takeReply
  repeat' (first | split | simp | rfl | refine (foldl_mem (fun _ _ => ?_) _ _).trans ?_)

theorem execLoadReply_keeps (loc entry : Nat) {s : State} {P : State → Prop} (hP : Quiet P) (hs : P s) : OutKeeps P (execLoadReply loc entry s) := by
  unfold execLoadReply
  try dsimp only
  repeat' (first | with_reducible exact hs | split | exact hP _ _ (by simp) hs)

theorem execLdrLateReply_keeps (loc entry : Nat) {s : State} {P : State → Prop} (hP : Quiet P) (hs : P s) : OutKeeps P (execLdrLateReply loc entry s) := by
  unfold execLdrLateReply
  try dsimp only
  repeat' (first | with_reducible exact hs | split | exact hP _ _ (by simp) hs)

theorem execStoreAck_keeps (loc entry : Nat) {s : State} {P : State → Prop} (hP : Quiet P) (hs : P s) : OutKeeps P (execStoreAck loc entry s) := by
  unfold execStoreAck
  try dsimp only
  repeat' (first | with_reducible exact hs | split | exact hP _ _ (by simp) hs)

theorem execAtomicReply_keeps (loc entry : Nat) {s : State} {P : State → Prop} (hP : Quiet P) (hs : P s) : OutKeeps P (execAtomicReply loc entry s) := by
  unfold execAtomicReply
  try dsimp only
  repeat' (first | with_reducible exact hs | split | exact hP _ _ (by simp) hs)

theorem execPageTableWalk_keeps (no : Nat) {s : State} {P : State → Prop} (hP : Quiet P) (hs : P s) :
    OutKeeps P (execPageTableWalk no s) := by
  refine hP _ _ (foldl_mem (fun t d => ?_) _ _) hs
  dsimp only
  split <;> rfl

end Sys2Proof.Machine
end

