-- ==== Sys2Proof/Laws/KeepsVector.lean ====
section
/-! SUPPORT. What the operations of V0, V1 and X leave of memory. -/

namespace Sys2Proof.Machine

set_option Elab.async false
set_option linter.unusedTactic false
set_option linter.unreachableTactic false
set_option linter.unusedSimpArgs false
set_option linter.unusedVariables false

/-! ### Vector -/

@[simp] theorem readKm_keeps (k : BitVec 4) {P : State → Prop} : (readKm k).Keeps P := by
  unfold readKm
  repeat' (first | with_reducible refine Act.Keeps.bind ?_ fun _ => ?_ | with_reducible refine Act.Keeps.change_mem hP fun _ => ?_ | split | simp)

@[simp] theorem vecOut_keeps (i : Instr) (d : Opnd) (t : Fmt) (k : BitVec 4) (xs : List (Nat × Nat)) {P : State → Prop} (hP : Quiet P) : (vecOut i d t k xs).Keeps P := by
  unfold vecOut
  repeat' (first | with_reducible refine Act.Keeps.bind ?_ fun _ => ?_ | with_reducible refine Act.Keeps.change_mem hP fun _ => ?_ | split | simp [hP])

@[simp] theorem vecPlain_keeps (i : Instr) (d : Opnd) (t : Fmt) (k : BitVec 4) (f : Nat → Nat) {P : State → Prop} (hP : Quiet P) : (vecPlain i d t k f).Keeps P := by
  unfold vecPlain
  repeat' (first | with_reducible refine Act.Keeps.bind ?_ fun _ => ?_ | with_reducible refine Act.Keeps.change_mem hP fun _ => ?_ | split | simp [hP])

@[simp] theorem vec2_keeps (i : Instr) (d a b : Opnd) (t : Fmt) (k : BitVec 4) (f : Nat → Nat → Nat) {P : State → Prop} (hP : Quiet P) : (vec2 i d a b t k f).Keeps P := by
  unfold vec2
  repeat' (first | with_reducible refine Act.Keeps.bind ?_ fun _ => ?_ | with_reducible refine Act.Keeps.change_mem hP fun _ => ?_ | split | simp [hP])

@[simp] theorem vec1_keeps (i : Instr) (d a : Opnd) (t : Fmt) (k : BitVec 4) (f : Nat → Nat) {P : State → Prop} (hP : Quiet P) : (vec1 i d a t k f).Keeps P := by
  unfold vec1
  repeat' (first | with_reducible refine Act.Keeps.bind ?_ fun _ => ?_ | with_reducible refine Act.Keeps.change_mem hP fun _ => ?_ | split | simp [hP])

theorem execVadd_keeps (g : Guard) (d a b : Opnd) (t : Fmt) (k : BitVec 4) {s : State} {P : State → Prop} (hP : Quiet P) (hs : P s) : OutKeeps P (execVadd g d a b t k s) := by
  unfold execVadd
  refine issue_keeps _ _ hP ?_ hs
  repeat' (first | with_reducible refine Act.Keeps.bind ?_ fun _ => ?_ | with_reducible refine Act.Keeps.change_mem hP fun _ => ?_ | split | simp [hP])

theorem execVsub_keeps (g : Guard) (d a b : Opnd) (t : Fmt) (k : BitVec 4) {s : State} {P : State → Prop} (hP : Quiet P) (hs : P s) : OutKeeps P (execVsub g d a b t k s) := by
  unfold execVsub
  refine issue_keeps _ _ hP ?_ hs
  repeat' (first | with_reducible refine Act.Keeps.bind ?_ fun _ => ?_ | with_reducible refine Act.Keeps.change_mem hP fun _ => ?_ | split | simp [hP])

theorem execVmul_keeps (g : Guard) (d a b : Opnd) (t : Fmt) (k : BitVec 4) {s : State} {P : State → Prop} (hP : Quiet P) (hs : P s) : OutKeeps P (execVmul g d a b t k s) := by
  unfold execVmul
  refine issue_keeps _ _ hP ?_ hs
  repeat' (first | with_reducible refine Act.Keeps.bind ?_ fun _ => ?_ | with_reducible refine Act.Keeps.change_mem hP fun _ => ?_ | split | simp [hP])

theorem execVmulh_keeps (g : Guard) (d a b : Opnd) (t : Fmt) (k : BitVec 4) {s : State} {P : State → Prop} (hP : Quiet P) (hs : P s) : OutKeeps P (execVmulh g d a b t k s) := by
  unfold execVmulh
  refine issue_keeps _ _ hP ?_ hs
  repeat' (first | with_reducible refine Act.Keeps.bind ?_ fun _ => ?_ | with_reducible refine Act.Keeps.change_mem hP fun _ => ?_ | split | simp [hP])

theorem execVmin_keeps (g : Guard) (d a b : Opnd) (t : Fmt) (k : BitVec 4) {s : State} {P : State → Prop} (hP : Quiet P) (hs : P s) : OutKeeps P (execVmin g d a b t k s) := by
  unfold execVmin
  refine issue_keeps _ _ hP ?_ hs
  repeat' (first | with_reducible refine Act.Keeps.bind ?_ fun _ => ?_ | with_reducible refine Act.Keeps.change_mem hP fun _ => ?_ | split | simp [hP])

theorem execVmax_keeps (g : Guard) (d a b : Opnd) (t : Fmt) (k : BitVec 4) {s : State} {P : State → Prop} (hP : Quiet P) (hs : P s) : OutKeeps P (execVmax g d a b t k s) := by
  unfold execVmax
  refine issue_keeps _ _ hP ?_ hs
  repeat' (first | with_reducible refine Act.Keeps.bind ?_ fun _ => ?_ | with_reducible refine Act.Keeps.change_mem hP fun _ => ?_ | split | simp [hP])

theorem execVabs_keeps (g : Guard) (d a : Opnd) (t : Fmt) (k : BitVec 4) {s : State} {P : State → Prop} (hP : Quiet P) (hs : P s) : OutKeeps P (execVabs g d a t k s) := by
  unfold execVabs
  refine issue_keeps _ _ hP ?_ hs
  repeat' (first | with_reducible refine Act.Keeps.bind ?_ fun _ => ?_ | with_reducible refine Act.Keeps.change_mem hP fun _ => ?_ | split | simp [hP])

theorem execVand_keeps (g : Guard) (d a b : Opnd) (t : Fmt) (k : BitVec 4) {s : State} {P : State → Prop} (hP : Quiet P) (hs : P s) : OutKeeps P (execVand g d a b t k s) := by
  unfold execVand
  refine issue_keeps _ _ hP ?_ hs
  repeat' (first | with_reducible refine Act.Keeps.bind ?_ fun _ => ?_ | with_reducible refine Act.Keeps.change_mem hP fun _ => ?_ | split | simp [hP])

theorem execVor_keeps (g : Guard) (d a b : Opnd) (t : Fmt) (k : BitVec 4) {s : State} {P : State → Prop} (hP : Quiet P) (hs : P s) : OutKeeps P (execVor g d a b t k s) := by
  unfold execVor
  refine issue_keeps _ _ hP ?_ hs
  repeat' (first | with_reducible refine Act.Keeps.bind ?_ fun _ => ?_ | with_reducible refine Act.Keeps.change_mem hP fun _ => ?_ | split | simp [hP])

theorem execVxor_keeps (g : Guard) (d a b : Opnd) (t : Fmt) (k : BitVec 4) {s : State} {P : State → Prop} (hP : Quiet P) (hs : P s) : OutKeeps P (execVxor g d a b t k s) := by
  unfold execVxor
  refine issue_keeps _ _ hP ?_ hs
  repeat' (first | with_reducible refine Act.Keeps.bind ?_ fun _ => ?_ | with_reducible refine Act.Keeps.change_mem hP fun _ => ?_ | split | simp [hP])

theorem execVandn_keeps (g : Guard) (d a b : Opnd) (t : Fmt) (k : BitVec 4) {s : State} {P : State → Prop} (hP : Quiet P) (hs : P s) : OutKeeps P (execVandn g d a b t k s) := by
  unfold execVandn
  refine issue_keeps _ _ hP ?_ hs
  repeat' (first | with_reducible refine Act.Keeps.bind ?_ fun _ => ?_ | with_reducible refine Act.Keeps.change_mem hP fun _ => ?_ | split | simp [hP])

theorem execVshl_keeps (g : Guard) (d a b : Opnd) (t : Fmt) (k : BitVec 4) {s : State} {P : State → Prop} (hP : Quiet P) (hs : P s) : OutKeeps P (execVshl g d a b t k s) := by
  unfold execVshl
  refine issue_keeps _ _ hP ?_ hs
  repeat' (first | with_reducible refine Act.Keeps.bind ?_ fun _ => ?_ | with_reducible refine Act.Keeps.change_mem hP fun _ => ?_ | split | simp [hP])

theorem execVshr_keeps (g : Guard) (d a b : Opnd) (t : Fmt) (k : BitVec 4) {s : State} {P : State → Prop} (hP : Quiet P) (hs : P s) : OutKeeps P (execVshr g d a b t k s) := by
  unfold execVshr
  refine issue_keeps _ _ hP ?_ hs
  repeat' (first | with_reducible refine Act.Keeps.bind ?_ fun _ => ?_ | with_reducible refine Act.Keeps.change_mem hP fun _ => ?_ | split | simp [hP])

theorem execVsra_keeps (g : Guard) (d a b : Opnd) (t : Fmt) (k : BitVec 4) {s : State} {P : State → Prop} (hP : Quiet P) (hs : P s) : OutKeeps P (execVsra g d a b t k s) := by
  unfold execVsra
  refine issue_keeps _ _ hP ?_ hs
  repeat' (first | with_reducible refine Act.Keeps.bind ?_ fun _ => ?_ | with_reducible refine Act.Keeps.change_mem hP fun _ => ?_ | split | simp [hP])

theorem execVfsh_keeps (g : Guard) (d a b : Opnd) (t : Fmt) (right : Bool) {s : State} {P : State → Prop} (hP : Quiet P) (hs : P s) : OutKeeps P (execVfsh g d a b t right s) := by
  unfold execVfsh
  refine issue_keeps _ _ hP ?_ hs
  repeat' (first | with_reducible refine Act.Keeps.bind ?_ fun _ => ?_ | with_reducible refine Act.Keeps.change_mem hP fun _ => ?_ | split | simp [hP])

theorem execVclz_keeps (g : Guard) (d a : Opnd) (t : Fmt) (k : BitVec 4) {s : State} {P : State → Prop} (hP : Quiet P) (hs : P s) : OutKeeps P (execVclz g d a t k s) := by
  unfold execVclz
  refine issue_keeps _ _ hP ?_ hs
  repeat' (first | with_reducible refine Act.Keeps.bind ?_ fun _ => ?_ | with_reducible refine Act.Keeps.change_mem hP fun _ => ?_ | split | simp [hP])

theorem execVpopc_keeps (g : Guard) (d a : Opnd) (t : Fmt) (k : BitVec 4) {s : State} {P : State → Prop} (hP : Quiet P) (hs : P s) : OutKeeps P (execVpopc g d a t k s) := by
  unfold execVpopc
  refine issue_keeps _ _ hP ?_ hs
  repeat' (first | with_reducible refine Act.Keeps.bind ?_ fun _ => ?_ | with_reducible refine Act.Keeps.change_mem hP fun _ => ?_ | split | simp [hP])

theorem execVcmp_keeps (g : Guard) (kd : BitVec 4) (a b : Opnd) (t : Fmt) (cc : BitVec 4) {s : State} {P : State → Prop} (hP : Quiet P) (hs : P s) : OutKeeps P (execVcmp g kd a b t cc s) := by
  unfold execVcmp
  refine issue_keeps _ _ hP ?_ hs
  repeat' (first | with_reducible refine Act.Keeps.bind ?_ fun _ => ?_ | with_reducible refine Act.Keeps.change_mem hP fun _ => ?_ | split | simp [hP])

theorem execVsel_keeps (g : Guard) (d a b : Opnd) (t : Fmt) (ks : BitVec 4) {s : State} {P : State → Prop} (hP : Quiet P) (hs : P s) : OutKeeps P (execVsel g d a b t ks s) := by
  unfold execVsel
  refine issue_keeps _ _ hP ?_ hs
  repeat' (first | with_reducible refine Act.Keeps.bind ?_ fun _ => ?_ | with_reducible refine Act.Keeps.change_mem hP fun _ => ?_ | split | simp [hP])

@[simp] theorem readMask_keeps (k : BitVec 4) {P : State → Prop} : (readMask k).Keeps P := by
  unfold readMask
  repeat' (first | with_reducible refine Act.Keeps.bind ?_ fun _ => ?_ | with_reducible refine Act.Keeps.change_mem hP fun _ => ?_ | split | simp)

theorem execKand_keeps (g : Guard) (kd ka kb : BitVec 4) {s : State} {P : State → Prop} (hP : Quiet P) (hs : P s) : OutKeeps P (execKand g kd ka kb s) := by
  unfold execKand
  refine issue_keeps _ _ hP ?_ hs
  repeat' (first | with_reducible refine Act.Keeps.bind ?_ fun _ => ?_ | with_reducible refine Act.Keeps.change_mem hP fun _ => ?_ | split | simp [hP])

theorem execKor_keeps (g : Guard) (kd ka kb : BitVec 4) {s : State} {P : State → Prop} (hP : Quiet P) (hs : P s) : OutKeeps P (execKor g kd ka kb s) := by
  unfold execKor
  refine issue_keeps _ _ hP ?_ hs
  repeat' (first | with_reducible refine Act.Keeps.bind ?_ fun _ => ?_ | with_reducible refine Act.Keeps.change_mem hP fun _ => ?_ | split | simp [hP])

theorem execKxor_keeps (g : Guard) (kd ka kb : BitVec 4) {s : State} {P : State → Prop} (hP : Quiet P) (hs : P s) : OutKeeps P (execKxor g kd ka kb s) := by
  unfold execKxor
  refine issue_keeps _ _ hP ?_ hs
  repeat' (first | with_reducible refine Act.Keeps.bind ?_ fun _ => ?_ | with_reducible refine Act.Keeps.change_mem hP fun _ => ?_ | split | simp [hP])

theorem execKnot_keeps (g : Guard) (kd ka : BitVec 4) {s : State} {P : State → Prop} (hP : Quiet P) (hs : P s) : OutKeeps P (execKnot g kd ka s) := by
  unfold execKnot
  refine issue_keeps _ _ hP ?_ hs
  repeat' (first | with_reducible refine Act.Keeps.bind ?_ fun _ => ?_ | with_reducible refine Act.Keeps.change_mem hP fun _ => ?_ | split | simp [hP])

theorem execKpop_keeps (g : Guard) (d : Opnd) (ka : BitVec 4) {s : State} {P : State → Prop} (hP : Quiet P) (hs : P s) : OutKeeps P (execKpop g d ka s) := by
  unfold execKpop
  refine issue_keeps _ _ hP ?_ hs
  repeat' (first | with_reducible refine Act.Keeps.bind ?_ fun _ => ?_ | with_reducible refine Act.Keeps.change_mem hP fun _ => ?_ | split | simp [hP])

theorem execKfirst_keeps (g : Guard) (d : Opnd) (ka : BitVec 4) {s : State} {P : State → Prop} (hP : Quiet P) (hs : P s) : OutKeeps P (execKfirst g d ka s) := by
  unfold execKfirst
  refine issue_keeps _ _ hP ?_ hs
  repeat' (first | with_reducible refine Act.Keeps.bind ?_ fun _ => ?_ | with_reducible refine Act.Keeps.change_mem hP fun _ => ?_ | split | simp [hP])

theorem execVbcast_keeps (g : Guard) (d a : Opnd) (n : BitVec 10) (t : Fmt) (k : BitVec 4) {s : State} {P : State → Prop} (hP : Quiet P) (hs : P s) : OutKeeps P (execVbcast g d a n t k s) := by
  unfold execVbcast
  refine issue_keeps _ _ hP ?_ hs
  repeat' (first | with_reducible refine Act.Keeps.bind ?_ fun _ => ?_ | with_reducible refine Act.Keeps.change_mem hP fun _ => ?_ | split | simp [hP])

theorem execVext_keeps (g : Guard) (d a : Opnd) (n : BitVec 10) (t : Fmt) {s : State} {P : State → Prop} (hP : Quiet P) (hs : P s) : OutKeeps P (execVext g d a n t s) := by
  unfold execVext
  refine issue_keeps _ _ hP ?_ hs
  repeat' (first | with_reducible refine Act.Keeps.bind ?_ fun _ => ?_ | with_reducible refine Act.Keeps.change_mem hP fun _ => ?_ | split | simp [hP])

theorem execVins_keeps (g : Guard) (d a : Opnd) (n : BitVec 10) (t : Fmt) {s : State} {P : State → Prop} (hP : Quiet P) (hs : P s) : OutKeeps P (execVins g d a n t s) := by
  unfold execVins
  refine issue_keeps _ _ hP ?_ hs
  repeat' (first | with_reducible refine Act.Keeps.bind ?_ fun _ => ?_ | with_reducible refine Act.Keeps.change_mem hP fun _ => ?_ | split | simp [hP])

theorem execVperm_keeps (g : Guard) (d a b : Opnd) (t : Fmt) (k : BitVec 4) {s : State} {P : State → Prop} (hP : Quiet P) (hs : P s) : OutKeeps P (execVperm g d a b t k s) := by
  unfold execVperm
  refine issue_keeps _ _ hP ?_ hs
  repeat' (first | with_reducible refine Act.Keeps.bind ?_ fun _ => ?_ | with_reducible refine Act.Keeps.change_mem hP fun _ => ?_ | split | simp [hP])

theorem execVrot_keeps (g : Guard) (d a : Opnd) (n : BitVec 10) (t : Fmt) (k : BitVec 4) {s : State} {P : State → Prop} (hP : Quiet P) (hs : P s) : OutKeeps P (execVrot g d a n t k s) := by
  unfold execVrot
  refine issue_keeps _ _ hP ?_ hs
  repeat' (first | with_reducible refine Act.Keeps.bind ?_ fun _ => ?_ | with_reducible refine Act.Keeps.change_mem hP fun _ => ?_ | split | simp [hP])

theorem execVslide_keeps (g : Guard) (d a : Opnd) (n : BitVec 7) (dn : Bool) (t : Fmt) (k : BitVec 4) {s : State} {P : State → Prop} (hP : Quiet P) (hs : P s) : OutKeeps P (execVslide g d a n dn t k s) := by
  unfold execVslide
  refine issue_keeps _ _ hP ?_ hs
  repeat' (first | with_reducible refine Act.Keeps.bind ?_ fun _ => ?_ | with_reducible refine Act.Keeps.change_mem hP fun _ => ?_ | split | simp [hP])

theorem execVred_keeps (g : Guard) (d a : Opnd) (gs : BitVec 3) (op : BitVec 2) (t : Fmt) {s : State} {P : State → Prop} (hP : Quiet P) (hs : P s) : OutKeeps P (execVred g d a gs op t s) := by
  unfold execVred
  refine issue_keeps _ _ hP ?_ hs
  repeat' (first | with_reducible refine Act.Keeps.bind ?_ fun _ => ?_ | with_reducible refine Act.Keeps.change_mem hP fun _ => ?_ | split | simp [hP])

theorem execVscan_keeps (g : Guard) (d a : Opnd) (gs : BitVec 3) (op : BitVec 2) (t : Fmt) {s : State} {P : State → Prop} (hP : Quiet P) (hs : P s) : OutKeeps P (execVscan g d a gs op t s) := by
  unfold execVscan
  refine issue_keeps _ _ hP ?_ hs
  repeat' (first | with_reducible refine Act.Keeps.bind ?_ fun _ => ?_ | with_reducible refine Act.Keeps.change_mem hP fun _ => ?_ | split | simp [hP])

theorem execVfred_keeps (g : Guard) (d a : Opnd) (gs : BitVec 3) (op : BitVec 2) (t : Fmt) {s : State} {P : State → Prop} (hP : Quiet P) (hs : P s) : OutKeeps P (execVfred g d a gs op t s) := by
  unfold execVfred
  refine issue_keeps _ _ hP ?_ hs
  repeat' (first | with_reducible refine Act.Keeps.bind ?_ fun _ => ?_ | with_reducible refine Act.Keeps.change_mem hP fun _ => ?_ | split | simp [hP])

theorem execVpack_keeps (g : Guard) (d a b : Opnd) (t : Fmt) (wr : Bool) {s : State} {P : State → Prop} (hP : Quiet P) (hs : P s) : OutKeeps P (execVpack g d a b t wr s) := by
  unfold execVpack
  refine issue_keeps _ _ hP ?_ hs
  repeat' (first | with_reducible refine Act.Keeps.bind ?_ fun _ => ?_ | with_reducible refine Act.Keeps.change_mem hP fun _ => ?_ | split | simp [hP])

theorem execVunpk_keeps (g : Guard) (d a : Opnd) (t : Fmt) (hi : Bool) {s : State} {P : State → Prop} (hP : Quiet P) (hs : P s) : OutKeeps P (execVunpk g d a t hi s) := by
  unfold execVunpk
  refine issue_keeps _ _ hP ?_ hs
  repeat' (first | with_reducible refine Act.Keeps.bind ?_ fun _ => ?_ | with_reducible refine Act.Keeps.change_mem hP fun _ => ?_ | split | simp [hP])

@[simp] theorem vecF2_keeps (i : Instr) (d a b : Opnd) (t : Fmt) (k : BitVec 4) (f : Num → Num → Num) {P : State → Prop} (hP : Quiet P) : (vecF2 i d a b t k f).Keeps P := by
  unfold vecF2
  repeat' (first | with_reducible refine Act.Keeps.bind ?_ fun _ => ?_ | with_reducible refine Act.Keeps.change_mem hP fun _ => ?_ | split | simp [hP])

@[simp] theorem vecF3_keeps (i : Instr) (d a b : Opnd) (t : Fmt) (k : BitVec 4) (f : Num → Num → Num → Num) {P : State → Prop} (hP : Quiet P) : (vecF3 i d a b t k f).Keeps P := by
  unfold vecF3
  repeat' (first | with_reducible refine Act.Keeps.bind ?_ fun _ => ?_ | with_reducible refine Act.Keeps.change_mem hP fun _ => ?_ | split | simp [hP])

theorem execVfadd_keeps (g : Guard) (d a b : Opnd) (t : Fmt) (k : BitVec 4) {s : State} {P : State → Prop} (hP : Quiet P) (hs : P s) : OutKeeps P (execVfadd g d a b t k s) := by
  unfold execVfadd
  refine issue_keeps _ _ hP ?_ hs
  repeat' (first | with_reducible refine Act.Keeps.bind ?_ fun _ => ?_ | with_reducible refine Act.Keeps.change_mem hP fun _ => ?_ | split | simp [hP])

theorem execVfsub_keeps (g : Guard) (d a b : Opnd) (t : Fmt) (k : BitVec 4) {s : State} {P : State → Prop} (hP : Quiet P) (hs : P s) : OutKeeps P (execVfsub g d a b t k s) := by
  unfold execVfsub
  refine issue_keeps _ _ hP ?_ hs
  repeat' (first | with_reducible refine Act.Keeps.bind ?_ fun _ => ?_ | with_reducible refine Act.Keeps.change_mem hP fun _ => ?_ | split | simp [hP])

theorem execVfmul_keeps (g : Guard) (d a b : Opnd) (t : Fmt) (k : BitVec 4) {s : State} {P : State → Prop} (hP : Quiet P) (hs : P s) : OutKeeps P (execVfmul g d a b t k s) := by
  unfold execVfmul
  refine issue_keeps _ _ hP ?_ hs
  repeat' (first | with_reducible refine Act.Keeps.bind ?_ fun _ => ?_ | with_reducible refine Act.Keeps.change_mem hP fun _ => ?_ | split | simp [hP])

theorem execVfma_keeps (g : Guard) (d a b : Opnd) (t : Fmt) (k : BitVec 4) {s : State} {P : State → Prop} (hP : Quiet P) (hs : P s) : OutKeeps P (execVfma g d a b t k s) := by
  unfold execVfma
  refine issue_keeps _ _ hP ?_ hs
  repeat' (first | with_reducible refine Act.Keeps.bind ?_ fun _ => ?_ | with_reducible refine Act.Keeps.change_mem hP fun _ => ?_ | split | simp [hP])

theorem execVfms_keeps (g : Guard) (d a b : Opnd) (t : Fmt) (k : BitVec 4) {s : State} {P : State → Prop} (hP : Quiet P) (hs : P s) : OutKeeps P (execVfms g d a b t k s) := by
  unfold execVfms
  refine issue_keeps _ _ hP ?_ hs
  repeat' (first | with_reducible refine Act.Keeps.bind ?_ fun _ => ?_ | with_reducible refine Act.Keeps.change_mem hP fun _ => ?_ | split | simp [hP])

@[simp] theorem vecChoice_keeps (i : Instr) (d a b : Opnd) (t : Fmt) (k : BitVec 4) (f : Num → Num → Nat → Num) {P : State → Prop} (hP : Quiet P) : (vecChoice i d a b t k f).Keeps P := by
  unfold vecChoice
  repeat' (first | with_reducible refine Act.Keeps.bind ?_ fun _ => ?_ | with_reducible refine Act.Keeps.change_mem hP fun _ => ?_ | split | simp [hP])

theorem execVfmin_keeps (g : Guard) (d a b : Opnd) (t : Fmt) (k : BitVec 4) {s : State} {P : State → Prop} (hP : Quiet P) (hs : P s) : OutKeeps P (execVfmin g d a b t k s) := by
  unfold execVfmin
  refine issue_keeps _ _ hP ?_ hs
  repeat' (first | with_reducible refine Act.Keeps.bind ?_ fun _ => ?_ | with_reducible refine Act.Keeps.change_mem hP fun _ => ?_ | split | simp [hP])

theorem execVfmax_keeps (g : Guard) (d a b : Opnd) (t : Fmt) (k : BitVec 4) {s : State} {P : State → Prop} (hP : Quiet P) (hs : P s) : OutKeeps P (execVfmax g d a b t k s) := by
  unfold execVfmax
  refine issue_keeps _ _ hP ?_ hs
  repeat' (first | with_reducible refine Act.Keeps.bind ?_ fun _ => ?_ | with_reducible refine Act.Keeps.change_mem hP fun _ => ?_ | split | simp [hP])

theorem execVfabs_keeps (g : Guard) (d a : Opnd) (t : Fmt) (k : BitVec 4) {s : State} {P : State → Prop} (hP : Quiet P) (hs : P s) : OutKeeps P (execVfabs g d a t k s) := by
  unfold execVfabs
  refine issue_keeps _ _ hP ?_ hs
  repeat' (first | with_reducible refine Act.Keeps.bind ?_ fun _ => ?_ | with_reducible refine Act.Keeps.change_mem hP fun _ => ?_ | split | simp [hP])

theorem execVfneg_keeps (g : Guard) (d a : Opnd) (t : Fmt) (k : BitVec 4) {s : State} {P : State → Prop} (hP : Quiet P) (hs : P s) : OutKeeps P (execVfneg g d a t k s) := by
  unfold execVfneg
  refine issue_keeps _ _ hP ?_ hs
  repeat' (first | with_reducible refine Act.Keeps.bind ?_ fun _ => ?_ | with_reducible refine Act.Keeps.change_mem hP fun _ => ?_ | split | simp [hP])

theorem execVfsgn_keeps (g : Guard) (d a b : Opnd) (t : Fmt) (k : BitVec 4) {s : State} {P : State → Prop} (hP : Quiet P) (hs : P s) : OutKeeps P (execVfsgn g d a b t k s) := by
  unfold execVfsgn
  refine issue_keeps _ _ hP ?_ hs
  repeat' (first | with_reducible refine Act.Keeps.bind ?_ fun _ => ?_ | with_reducible refine Act.Keeps.change_mem hP fun _ => ?_ | split | simp [hP])

theorem execVfcmp_keeps (g : Guard) (kd : BitVec 4) (a b : Opnd) (t : Fmt) (cc : BitVec 4) {s : State} {P : State → Prop} (hP : Quiet P) (hs : P s) : OutKeeps P (execVfcmp g kd a b t cc s) := by
  unfold execVfcmp
  refine issue_keeps _ _ hP ?_ hs
  repeat' (first | with_reducible refine Act.Keeps.bind ?_ fun _ => ?_ | with_reducible refine Act.Keeps.change_mem hP fun _ => ?_ | split | simp [hP])

@[simp] theorem vecF1_keeps (i : Instr) (d a : Opnd) (k : BitVec 4) (f : Num → Nat × Nat) {P : State → Prop} (hP : Quiet P) : (vecF1 i d a k f).Keeps P := by
  unfold vecF1
  repeat' (first | with_reducible refine Act.Keeps.bind ?_ fun _ => ?_ | with_reducible refine Act.Keeps.change_mem hP fun _ => ?_ | split | simp [hP])

theorem execVrcp_keeps (g : Guard) (d a : Opnd) (t : Fmt) (k : BitVec 4) {s : State} {P : State → Prop} (hP : Quiet P) (hs : P s) : OutKeeps P (execVrcp g d a t k s) := by
  unfold execVrcp
  refine issue_keeps _ _ hP ?_ hs
  repeat' (first | with_reducible refine Act.Keeps.bind ?_ fun _ => ?_ | with_reducible refine Act.Keeps.change_mem hP fun _ => ?_ | split | simp [hP])

theorem execVrsq_keeps (g : Guard) (d a : Opnd) (t : Fmt) (k : BitVec 4) {s : State} {P : State → Prop} (hP : Quiet P) (hs : P s) : OutKeeps P (execVrsq g d a t k s) := by
  unfold execVrsq
  refine issue_keeps _ _ hP ?_ hs
  repeat' (first | with_reducible refine Act.Keeps.bind ?_ fun _ => ?_ | with_reducible refine Act.Keeps.change_mem hP fun _ => ?_ | split | simp [hP])

theorem execVexp2_keeps (g : Guard) (d a : Opnd) (t : Fmt) (k : BitVec 4) {s : State} {P : State → Prop} (hP : Quiet P) (hs : P s) : OutKeeps P (execVexp2 g d a t k s) := by
  unfold execVexp2
  refine issue_keeps _ _ hP ?_ hs
  repeat' (first | with_reducible refine Act.Keeps.bind ?_ fun _ => ?_ | with_reducible refine Act.Keeps.change_mem hP fun _ => ?_ | split | simp [hP])

theorem execVlog2_keeps (g : Guard) (d a : Opnd) (t : Fmt) (k : BitVec 4) {s : State} {P : State → Prop} (hP : Quiet P) (hs : P s) : OutKeeps P (execVlog2 g d a t k s) := by
  unfold execVlog2
  refine issue_keeps _ _ hP ?_ hs
  repeat' (first | with_reducible refine Act.Keeps.bind ?_ fun _ => ?_ | with_reducible refine Act.Keeps.change_mem hP fun _ => ?_ | split | simp [hP])

@[simp] theorem vecConvert_keeps (i : Instr) (d a : Opnd) (src dst : Fmt) (k : BitVec 4) {P : State → Prop} (hP : Quiet P) : (vecConvert i d a src dst k).Keeps P := by
  unfold vecConvert
  repeat' (first | with_reducible refine Act.Keeps.bind ?_ fun _ => ?_ | with_reducible refine Act.Keeps.change_mem hP fun _ => ?_ | split | simp [hP])

theorem execVicvt_keeps (g : Guard) (d a : Opnd) (t : Fmt) (k : BitVec 4) {s : State} {P : State → Prop} (hP : Quiet P) (hs : P s) : OutKeeps P (execVicvt g d a t k s) := by
  unfold execVicvt
  refine issue_keeps _ _ hP ?_ hs
  repeat' (first | with_reducible refine Act.Keeps.bind ?_ fun _ => ?_ | with_reducible refine Act.Keeps.change_mem hP fun _ => ?_ | split | simp [hP])

theorem execVfcvt_keeps (g : Guard) (d a : Opnd) (t : Fmt) (k : BitVec 4) {s : State} {P : State → Prop} (hP : Quiet P) (hs : P s) : OutKeeps P (execVfcvt g d a t k s) := by
  unfold execVfcvt
  refine issue_keeps _ _ hP ?_ hs
  repeat' (first | with_reducible refine Act.Keeps.bind ?_ fun _ => ?_ | with_reducible refine Act.Keeps.change_mem hP fun _ => ?_ | split | simp [hP])

@[simp] theorem unscaled_keeps (o : Opnd) {P : State → Prop} (hP : Quiet P) : (unscaled o).Keeps P := by
  unfold unscaled
  repeat' (first | with_reducible refine Act.Keeps.bind ?_ fun _ => ?_ | with_reducible refine Act.Keeps.change_mem hP fun _ => ?_ | split | simp [hP])

theorem execVxmov_keeps (g : Guard) (dst : Dest) (a : Opnd) (lane : BitVec 3) {s : State} {P : State → Prop} (hP : Quiet P) (hs : P s) : OutKeeps P (execVxmov g dst a lane s) := by
  unfold execVxmov
  refine issue_keeps _ _ hP ?_ hs
  repeat' (first | with_reducible refine Act.Keeps.bind ?_ fun _ => ?_ | with_reducible refine Act.Keeps.change_mem hP fun _ => ?_ | split | simp [hP])

/-! ### Transform -/

@[simp] theorem xOut_keeps (i : Instr) (d : Opnd) (v : Nat) (st : Nat) {P : State → Prop} (hP : Quiet P) : (xOut i d v st).Keeps P := by
  unfold xOut
  repeat' (first | with_reducible refine Act.Keeps.bind ?_ fun _ => ?_ | with_reducible refine Act.Keeps.change_mem hP fun _ => ?_ | split | simp [hP])

theorem execXcvt_keeps (g : Guard) (d a : Opnd) (p : BitVec 8) (fo fi : Fmt) {s : State} {P : State → Prop} (hP : Quiet P) (hs : P s) : OutKeeps P (execXcvt g d a p fo fi s) := by
  unfold execXcvt
  refine issue_keeps _ _ hP ?_ hs
  repeat' (first | with_reducible refine Act.Keeps.bind ?_ fun _ => ?_ | with_reducible refine Act.Keeps.change_mem hP fun _ => ?_ | split | simp [hP])

theorem execXquant_keeps (g : Guard) (d a b : Opnd) (fo : Fmt) (p : BitVec 3) {s : State} {P : State → Prop} (hP : Quiet P) (hs : P s) : OutKeeps P (execXquant g d a b fo p s) := by
  unfold execXquant
  refine issue_keeps _ _ hP ?_ hs
  repeat' (first | with_reducible refine Act.Keeps.bind ?_ fun _ => ?_ | with_reducible refine Act.Keeps.change_mem hP fun _ => ?_ | split | simp [hP])

theorem execXdeq_keeps (g : Guard) (d a b : Opnd) (p : BitVec 3) (fi : Fmt) {s : State} {P : State → Prop} (hP : Quiet P) (hs : P s) : OutKeeps P (execXdeq g d a b p fi s) := by
  unfold execXdeq
  refine issue_keeps _ _ hP ?_ hs
  repeat' (first | with_reducible refine Act.Keeps.bind ?_ fun _ => ?_ | with_reducible refine Act.Keeps.change_mem hP fun _ => ?_ | split | simp [hP])

theorem execXamax_keeps (g : Guard) (d a b : Opnd) (fo : Fmt) {s : State} {P : State → Prop} (hP : Quiet P) (hs : P s) : OutKeeps P (execXamax g d a b fo s) := by
  unfold execXamax
  refine issue_keeps _ _ hP ?_ hs
  repeat' (first | with_reducible refine Act.Keeps.bind ?_ fun _ => ?_ | with_reducible refine Act.Keeps.change_mem hP fun _ => ?_ | split | simp [hP])

theorem execXtr_keeps (g : Guard) (d a : BitVec 5) (t : Fmt) {s : State} {P : State → Prop} (hP : Quiet P) (hs : P s) : OutKeeps P (execXtr g d a t s) := by
  unfold execXtr
  refine issue_keeps _ _ hP ?_ hs
  repeat' (first | with_reducible refine Act.Keeps.bind ?_ fun _ => ?_ | with_reducible refine Act.Keeps.change_mem hP fun _ => ?_ | split | simp [hP])

theorem execXpack_keeps (g : Guard) (d a : Opnd) (p : BitVec 8) (t : Fmt) {s : State} {P : State → Prop} (hP : Quiet P) (hs : P s) : OutKeeps P (execXpack g d a p t s) := by
  unfold execXpack
  refine issue_keeps _ _ hP ?_ hs
  repeat' (first | with_reducible refine Act.Keeps.bind ?_ fun _ => ?_ | with_reducible refine Act.Keeps.change_mem hP fun _ => ?_ | split | simp [hP])

theorem execXunpk_keeps (g : Guard) (d a : Opnd) (p : BitVec 8) (t : Fmt) {s : State} {P : State → Prop} (hP : Quiet P) (hs : P s) : OutKeeps P (execXunpk g d a p t s) := by
  unfold execXunpk
  refine issue_keeps _ _ hP ?_ hs
  repeat' (first | with_reducible refine Act.Keeps.bind ?_ fun _ => ?_ | with_reducible refine Act.Keeps.change_mem hP fun _ => ?_ | split | simp [hP])

theorem execXcrc_keeps (g : Guard) (d a b : Opnd) (n1 : BitVec 6) {s : State} {P : State → Prop} (hP : Quiet P) (hs : P s) : OutKeeps P (execXcrc g d a b n1 s) := by
  unfold execXcrc
  refine issue_keeps _ _ hP ?_ hs
  repeat' (first | with_reducible refine Act.Keeps.bind ?_ fun _ => ?_ | with_reducible refine Act.Keeps.change_mem hP fun _ => ?_ | split | simp [hP])

@[simp] theorem pushEntries_keeps (q l : Nat) (xs : List Nat) (e : Nat) {P : State → Prop} (hP : Quiet P) : (pushEntries q l xs e).Keeps P := by
  induction xs generalizing e with
  | nil => exact Act.Keeps.ret _
  | cons x xs ih =>
    unfold pushEntries
    exact Act.Keeps.bind (by simp [hP]) fun _ => ih _

theorem execXexp_keeps (g : Guard) (q a : BitVec 5) (dbp : Bool) (t : Fmt) (chk : Bool) {s : State} {P : State → Prop} (hP : Quiet P) (hs : P s) : OutKeeps P (execXexp g q a dbp t chk s) := by
  unfold execXexp
  refine issue_keeps _ _ hP ?_ hs
  repeat' (first | with_reducible refine Act.Keeps.bind ?_ fun _ => ?_ | with_reducible refine Act.Keeps.change_mem hP fun _ => ?_ | split | simp [hP])

end Sys2Proof.Machine
end

