-- ==== Sys2Proof/Laws/KeepsLanding.lean ====
section
/-! SUPPORT. What landing maps leave of memory. -/

namespace Sys2Proof.Machine

set_option Elab.async false
set_option linter.unusedTactic false
set_option linter.unreachableTactic false
set_option linter.unusedSimpArgs false
set_option linter.unusedVariables false

/-! ### GridShape -/

/-! ### Landing -/

@[simp] theorem putSync_wf (s : State) (die w target count gen flags : Nat) (h : s.mem.wf = true) : (putSync s die w target count gen flags).mem.wf = true := by
  unfold putSync
  try dsimp only
  repeat' (first | with_reducible exact h | split | simp [*] | refine foldl_wf (fun _ _ _ => ?_) _ ?_)

@[simp] theorem dropEach_wf (s : State) (vd va : Nat) (pas : List Nat) (h : s.mem.wf = true) : (dropEach s vd va pas).mem.wf = true := by
  induction pas generalizing va s with
  | nil => exact h
  | cons pa r ih => exact ih _ _ (dropLines_wf _ _ _ _ _ h)

theorem storePairs_wf (l : List (Nat × Byte)) {m : Memory} (h : m.wf = true) : (l.foldl (fun m e => m.store e.1 e.2) m).wf = true := by
  induction l generalizing m with
  | nil => exact h
  | cons e l ih => exact ih (Memory.wf_store h _ _)

@[simp] theorem storeEach_wf (s : State) (pas : List Nat) (b : List Byte) (h : s.mem.wf = true) : (storeEach s pas b).mem.wf = true := by
  unfold storeEach
  rw [clearMarks_mem]
  exact storePairs_wf _ h

@[simp] theorem landAt_wf (s : State) (ep vd pos op : Nat) (t : Fmt) (mode : Nat) (sate4 : Bool) (y : Nat) (h : s.mem.wf = true) : (landAt s ep vd pos op t mode sate4 y).1.mem.wf = true := by
  unfold landAt
  dsimp only
  split
  · exact h
  · rename_i pas _
    have hd : (if epKind ep < 2 then s else dropEach s vd pos pas).mem.wf = true := by
      split
      · exact h
      · exact dropEach_wf _ _ _ _ h
    generalize (if epKind ep < 2 then s else dropEach s vd pos pas) = u at hd ⊢
    split
    · exact hd
    · exact storeEach_wf _ _ _ hd

@[simp] theorem failTransfer_mem (s : State) (ep : Nat) (k : Key) (part : Nat) (f : LandFail) : (failTransfer s ep k part f).mem = s.mem := by
  unfold failTransfer
  repeat' (first | split | simp | rfl | refine (foldl_mem (fun _ _ => ?_) _ _).trans ?_)

@[simp] theorem addStaged_wf (s : State) (cs : List (Nat × Staged)) (h : s.mem.wf = true) :
    (addStaged s cs).1.mem.wf = true := by
  induction cs generalizing s with
  | nil => exact h
  | cons c cs ih =>
    obtain ⟨ep, c⟩ := c
    have hl := landAt_wf s ep c.key.vd c.addr 1 c.fmt c.mode c.sate4 c.bits h
    unfold addStaged
    generalize landAt s ep c.key.vd c.addr 1 c.fmt c.mode c.sate4 c.bits = x at hl ⊢
    obtain ⟨t, st, f⟩ := x
    dsimp only at hl ⊢
    apply ih
    repeat' (first | split | simp [hl])

@[simp] theorem combineStaged_wf (s : State) (die w : Nat) (h : s.mem.wf = true) : (combineStaged s die w).1.mem.wf = true := by
  unfold combineStaged
  try dsimp only
  repeat' (first | with_reducible exact h | split | simp [*] | refine foldl_wf (fun _ _ _ => ?_) _ ?_)

@[simp] theorem countSync_wf (s : State) (die w es st : Nat) (h : s.mem.wf = true) : (countSync s die w es st).mem.wf = true := by
  unfold countSync
  try dsimp only
  repeat' (first | with_reducible exact h | split | simp [*] | refine foldl_wf (fun _ _ _ => ?_) _ ?_)

@[simp] theorem tagFaces_mem (s : State) (maps : List (Nat × MapSlot)) (step : Option Nat) (full : Bool) : (tagFaces s maps step full).mem = s.mem := by
  unfold tagFaces
  repeat' (first | split | simp | rfl | refine (foldl_mem (fun _ _ => ?_) _ _).trans ?_)

@[simp] theorem landIn_wf (ep : Nat) (a : Arrival) (j y : Nat) (winner : Bool) (ms : List (Nat × MapSlot)) (s : State)
    (h : s.mem.wf = true) : (landIn ep a j y winner ms s).1.mem.wf = true := by
  induction ms generalizing winner s with
  | nil => exact h
  | cons m ms ih =>
    unfold landIn
    dsimp only
    apply ih
    repeat' (first | split | simp [h])

@[simp] theorem landElements_wf (ep : Nat) (a : Arrival) (bytes : List Byte) (js : List Nat) (s : State)
    (h : s.mem.wf = true) : (landElements ep a bytes js s).1.mem.wf = true := by
  induction js generalizing s with
  | nil => exact h
  | cons j js ih =>
    unfold landElements
    dsimp only
    apply ih
    repeat' (first | split | simp [h])

@[simp] theorem landCopies_wf (ep : Nat) (a : Arrival) (js : List (Nat × Nat)) (s : State)
    (h : s.mem.wf = true) : (landCopies ep a js s).1.mem.wf = true := by
  induction js generalizing s with
  | nil => exact h
  | cons j js ih =>
    obtain ⟨j, y⟩ := j
    unfold landCopies
    dsimp only
    apply ih
    exact landIn_wf _ _ _ _ _ _ _ h

@[simp] theorem putArrival_mem (s : State) (ep : Nat) (a : Arrival) : (putArrival s ep a).mem = s.mem := by
  unfold putArrival
  repeat' (first | split | simp | rfl | refine (foldl_mem (fun _ _ => ?_) _ _).trans ?_)

@[simp] theorem setRecord_mem (s : State) (ep : Nat) (k : Key) (part result progress : Nat) : (setRecord s ep k part result progress).mem = s.mem := by
  unfold setRecord
  repeat' (first | split | simp | rfl | refine (foldl_mem (fun _ _ => ?_) _ _).trans ?_)

@[simp] theorem tellSender_mem (s : State) (ep : Nat) (key : Key) (src loc entry part code info : Nat) : (tellSender s ep key src loc entry part code info).mem = s.mem := by
  unfold tellSender
  repeat' (first | split | simp | rfl | refine (foldl_mem (fun _ _ => ?_) _ _).trans ?_)

@[simp] theorem endArrival_mem (s : State) (ep : Nat) (a : Arrival) : (endArrival s ep a).mem = s.mem := by
  unfold endArrival
  repeat' (first | split | simp | rfl | refine (foldl_mem (fun _ _ => ?_) _ _).trans ?_)

@[simp] theorem endDone_mem (s : State) (die : Nat) : (endDone s die).mem = s.mem := by
  unfold endDone
  repeat' (first | split | simp | rfl | refine (foldl_mem (fun _ _ => ?_) _ _).trans ?_)

@[simp] theorem flushCopies_wf (s : State) (ep : Nat) (a : Arrival) (h : s.mem.wf = true) : (flushCopies s ep a).mem.wf = true := by
  unfold flushCopies
  split
  · exact h
  · dsimp only
    rw [putArrival_mem]
    exact landCopies_wf _ _ _ _ h

@[simp] theorem landBeats_wf (s : State) (ep : Nat) (a : Arrival) (bytes : List Byte) (h : s.mem.wf = true) : (landBeats s ep a bytes).mem.wf = true := by
  unfold landBeats
  try dsimp only
  repeat' (first | with_reducible exact h | split | simp [*] | refine foldl_wf (fun _ _ _ => ?_) _ ?_)

@[simp] theorem reexamine_wf (s : State) (ep : Nat) (a : Arrival) (h : s.mem.wf = true) : (reexamine s ep a).mem.wf = true := by
  unfold reexamine
  try dsimp only
  repeat' (first | with_reducible exact h | split | simp [*] | refine foldl_wf (fun _ _ _ => ?_) _ ?_)

@[simp] theorem reexamineAll_wf (s : State) (ep : Nat) (h : s.mem.wf = true) : (reexamineAll s ep).mem.wf = true := by
  unfold reexamineAll
  try dsimp only
  repeat' (first | with_reducible exact h | split | simp [*] | refine foldl_wf (fun _ _ _ => ?_) _ ?_)

@[simp] theorem refusePacket_mem (s : State) (p : Packet) : (refusePacket s p).mem = s.mem := by
  unfold refusePacket
  repeat' (first | split | simp | rfl | refine (foldl_mem (fun _ _ => ?_) _ _).trans ?_)

@[simp] theorem firstBeat_wf (s : State) (p : Packet) (d : TransferDesc) (step : Option Nat) (total : Nat) (bytes : List Byte) (h : s.mem.wf = true) : (firstBeat s p d step total bytes).mem.wf = true := by
  unfold firstBeat
  try dsimp only
  repeat' (first | with_reducible exact h | split | simp [*] | refine foldl_wf (fun _ _ _ => ?_) _ ?_)

@[simp] theorem laterBeat_wf (s : State) (p : Packet) (no : Nat) (bytes : List Byte) (r : Record) (h : s.mem.wf = true) : (laterBeat s p no bytes r).mem.wf = true := by
  unfold laterBeat
  try dsimp only
  repeat' (first | with_reducible exact h | split | simp [*] | refine foldl_wf (fun _ _ _ => ?_) _ ?_)

theorem execLandingBeat_inv (pk : Nat) {s : State} (hs : s.Inv) : OutKeeps State.Inv (execLandingBeat pk s) := by
  have h : s.mem.wf = true := hs
  unfold execLandingBeat
  try dsimp only
  repeat' (first | with_reducible exact hs | split | simp [h, State.Inv] | refine foldl_wf (fun _ _ _ => ?_) _ ?_)

@[simp] theorem ownEndpoint_keeps (epk epn : Nat) {P : State → Prop} (hP : Quiet P) : (ownEndpoint epk epn).Keeps P := by
  unfold ownEndpoint
  repeat' (first | with_reducible refine Act.Keeps.bind ?_ fun _ => ?_ | with_reducible refine Act.Keeps.change_mem hP fun _ => ?_ | split | simp [hP])

@[simp] theorem handleSlot_keeps (h : Nat) {P : State → Prop} (hP : Quiet P) : (handleSlot h).Keeps P := by
  unfold handleSlot
  repeat' (first | with_reducible refine Act.Keeps.bind ?_ fun _ => ?_ | with_reducible refine Act.Keeps.change_mem hP fun _ => ?_ | split | simp [hP])

@[simp] theorem readMap_keeps (a : Nat) {P : State → Prop} (hP : Quiet P) : (readMap a).Keeps P := by
  unfold readMap
  repeat' (first | with_reducible refine Act.Keeps.bind ?_ fun _ => ?_ | with_reducible refine Act.Keeps.change_mem hP fun _ => ?_ | split | simp [hP])

@[simp] theorem checkMap_keeps (ep : Nat) (m : MapEntry) (except : Option Nat) {P : State → Prop} (hP : Quiet P) : (checkMap ep m except).Keeps P := by
  unfold checkMap
  repeat' (first | with_reducible refine Act.Keeps.bind ?_ fun _ => ?_ | with_reducible refine Act.Keeps.change_mem hP fun _ => ?_ | split | simp [hP])

@[simp] theorem commitMap_wf (ep slot : Nat) (m : MapSlot) (s : State) (h : s.mem.wf = true) : (commitMap ep slot m s).mem.wf = true := by
  unfold commitMap
  try dsimp only
  repeat' (first | with_reducible exact h | split | simp [*] | refine foldl_wf (fun _ _ _ => ?_) _ ?_)

theorem execMapi_inv (g : Guard) (d e : BitVec 5) (epk : BitVec 3) (epn : BitVec 5) {s : State} (hs : s.Inv) : OutKeeps State.Inv (execMapi g d e epk epn s) := by
  unfold execMapi
  refine issue_keeps _ _ Quiet.inv ?_ hs
  repeat' (first | with_reducible refine Act.Keeps.bind ?_ fun _ => ?_ | with_reducible refine actStore_keeps _ _ _ _ _ _ ?_ | split | simp [*] | (with_reducible refine Act.Keeps.change_wf fun _ _ => ?_))

@[simp] theorem heldMap_keeps (ep slot : Nat) {P : State → Prop} (hP : Quiet P) : (heldMap ep slot).Keeps P := by
  unfold heldMap
  repeat' (first | with_reducible refine Act.Keeps.bind ?_ fun _ => ?_ | with_reducible refine Act.Keeps.change_mem hP fun _ => ?_ | split | simp [hP])

theorem execMapx_inv (g : Guard) (h e : BitVec 5) {s : State} (hs : s.Inv) : OutKeeps State.Inv (execMapx g h e s) := by
  unfold execMapx
  refine issue_keeps _ _ Quiet.inv ?_ hs
  repeat' (first | with_reducible refine Act.Keeps.bind ?_ fun _ => ?_ | with_reducible refine actStore_keeps _ _ _ _ _ _ ?_ | split | simp [*] | (with_reducible refine Act.Keeps.change_wf fun _ _ => ?_))

@[simp] theorem retireMaps_mem (ep : Nat) (slots : List Nat) (s : State) : (retireMaps ep slots s).mem = s.mem := by
  unfold retireMaps
  repeat' (first | split | simp | rfl | refine (foldl_mem (fun _ _ => ?_) _ _).trans ?_)

theorem execMapr_keeps (g : Guard) (h : BitVec 5) {s : State} {P : State → Prop} (hP : Quiet P) (hs : P s) : OutKeeps P (execMapr g h s) := by
  unfold execMapr
  refine issue_keeps _ _ hP ?_ hs
  repeat' (first | with_reducible refine Act.Keeps.bind ?_ fun _ => ?_ | with_reducible refine Act.Keeps.change_mem hP fun _ => ?_ | split | simp [hP])

theorem execMaprAll_keeps (g : Guard) (epk : BitVec 3) (epn : BitVec 5) {s : State} {P : State → Prop} (hP : Quiet P) (hs : P s) : OutKeeps P (execMaprAll g epk epn s) := by
  unfold execMaprAll
  refine issue_keeps _ _ hP ?_ hs
  repeat' (first | with_reducible refine Act.Keeps.bind ?_ fun _ => ?_ | with_reducible refine Act.Keeps.change_mem hP fun _ => ?_ | split | simp [hP])

theorem execMapq_keeps (g : Guard) (d h : BitVec 5) {s : State} {P : State → Prop} (hP : Quiet P) (hs : P s) : OutKeeps P (execMapq g d h s) := by
  unfold execMapq
  refine issue_keeps _ _ hP ?_ hs
  repeat' (first | with_reducible refine Act.Keeps.bind ?_ fun _ => ?_ | with_reducible refine Act.Keeps.change_mem hP fun _ => ?_ | split | simp [hP])

@[simp] theorem syncOperand_keeps (a : Nat) {P : State → Prop} (hP : Quiet P) : (syncOperand a).Keeps P := by
  unfold syncOperand
  repeat' (first | with_reducible refine Act.Keeps.bind ?_ fun _ => ?_ | with_reducible refine Act.Keeps.change_mem hP fun _ => ?_ | split | simp [hP])

@[simp] theorem discardStaged_mem (s : State) (die w : Nat) : (discardStaged s die w).mem = s.mem := by
  unfold discardStaged
  repeat' (first | split | simp | rfl | refine (foldl_mem (fun _ _ => ?_) _ _).trans ?_)

theorem execSarm_inv (g : Guard) (a b : BitVec 5) {s : State} (hs : s.Inv) : OutKeeps State.Inv (execSarm g a b s) := by
  unfold execSarm
  refine issue_keeps _ _ Quiet.inv ?_ hs
  repeat' (first | with_reducible refine Act.Keeps.bind ?_ fun _ => ?_ | with_reducible refine actStore_keeps _ _ _ _ _ _ ?_ | split | simp [*] | (with_reducible refine Act.Keeps.change_wf fun _ _ => ?_))

theorem execSwait_keeps (g : Guard) (a y : BitVec 5) {s : State} {P : State → Prop} (hP : Quiet P) (hs : P s) : OutKeeps P (execSwait g a y s) := by
  unfold execSwait
  refine issue_keeps _ _ hP ?_ hs
  repeat' (first | with_reducible refine Act.Keeps.bind ?_ fun _ => ?_ | with_reducible refine Act.Keeps.change_mem hP fun _ => ?_ | split | simp [hP])

end Sys2Proof.Machine
end

