-- ==== Sys2Proof/Laws/KeepsLoadStore.lean ====
section
/-! SUPPORT. What loads and stores leave of memory. -/

namespace Sys2Proof.Machine

set_option Elab.async false
set_option linter.unusedTactic false
set_option linter.unreachableTactic false
set_option linter.unusedSimpArgs false
set_option linter.unusedVariables false

/-! ### LoadStore -/

@[simp] theorem accessAddr_keeps (a b : Opnd) {P : State → Prop} (hP : Quiet P) : (accessAddr a b).Keeps P := by
  unfold accessAddr
  repeat' (first | with_reducible refine Act.Keeps.bind ?_ fun _ => ?_ | with_reducible refine Act.Keeps.change_mem hP fun _ => ?_ | split | simp [hP])

@[simp] theorem accessWindow_keeps (a n : Nat) {P : State → Prop} (hP : Quiet P) : (accessWindow a n).Keeps P := by
  unfold accessWindow
  repeat' (first | with_reducible refine Act.Keeps.bind ?_ fun _ => ?_ | with_reducible refine Act.Keeps.change_mem hP fun _ => ?_ | split | simp [hP])

@[simp] theorem readNear_keeps (a n : Nat) {P : State → Prop} (hP : Quiet P) : (readNear a n).Keeps P := by
  unfold readNear
  repeat' (first | with_reducible refine Act.Keeps.bind ?_ fun _ => ?_ | with_reducible refine Act.Keeps.change_mem hP fun _ => ?_ | split | simp [hP])

@[simp] theorem writeNear_keeps (a : Nat) (bytes : List Byte) (mask : Nat) : (writeNear a bytes mask).Keeps State.Inv := by
  unfold writeNear
  repeat' (first | with_reducible refine Act.Keeps.bind ?_ fun _ => ?_ | split | simp [*] | (with_reducible refine Act.Keeps.change_wf fun _ _ => ?_))

@[simp] theorem homesOf_keeps (write : Bool) (ls : List (Nat × Nat × Nat)) {P : State → Prop} (hP : Quiet P) :
    (homesOf write ls).Keeps P := by
  induction ls with
  | nil => exact Act.Keeps.ret _
  | cons l ls ih =>
    obtain ⟨a, off, n⟩ := l
    unfold homesOf
    exact Act.Keeps.bind (by simp [hP]) fun _ => Act.Keeps.bind ih fun _ => Act.Keeps.ret _

@[simp] theorem actLoad_keeps (i : Instr) (a b : Opnd) (n : Nat) (aligned : Bool) (cls : BitVec 4) (t : Fmt) {P : State → Prop} (hP : Quiet P) : (actLoad i a b n aligned cls t).Keeps P := by
  unfold actLoad
  repeat' (first | with_reducible refine Act.Keeps.bind ?_ fun _ => ?_ | with_reducible refine Act.Keeps.change_mem hP fun _ => ?_ | split | simp [hP])

theorem execLd_keeps (g : Guard) (dst : Dest) (a b : Opnd) (cls : BitVec 4) (t : Fmt) {s : State} {P : State → Prop} (hP : Quiet P) (hs : P s) : OutKeeps P (execLd g dst a b cls t s) := by
  unfold execLd
  refine issue_keeps _ _ hP ?_ hs
  repeat' (first | with_reducible refine Act.Keeps.bind ?_ fun _ => ?_ | with_reducible refine Act.Keeps.change_mem hP fun _ => ?_ | split | simp [hP])

theorem execVld_keeps (g : Guard) (dst : Dest) (a b : Opnd) (cls : BitVec 4) {s : State} {P : State → Prop} (hP : Quiet P) (hs : P s) : OutKeeps P (execVld g dst a b cls s) := by
  unfold execVld
  refine issue_keeps _ _ hP ?_ hs
  repeat' (first | with_reducible refine Act.Keeps.bind ?_ fun _ => ?_ | with_reducible refine Act.Keeps.change_mem hP fun _ => ?_ | split | simp [hP])

theorem execVldu_keeps (g : Guard) (dst : Dest) (a b : Opnd) (cls : BitVec 4) {s : State} {P : State → Prop} (hP : Quiet P) (hs : P s) : OutKeeps P (execVldu g dst a b cls s) := by
  unfold execVldu
  refine issue_keeps _ _ hP ?_ hs
  repeat' (first | with_reducible refine Act.Keeps.bind ?_ fun _ => ?_ | with_reducible refine Act.Keeps.change_mem hP fun _ => ?_ | split | simp [hP])

theorem execPf_keeps (g : Guard) (a b : Opnd) {s : State} {P : State → Prop} (hP : Quiet P) (hs : P s) : OutKeeps P (execPf g a b s) := by
  unfold execPf
  refine issue_keeps _ _ hP ?_ hs
  repeat' (first | with_reducible refine Act.Keeps.bind ?_ fun _ => ?_ | with_reducible refine Act.Keeps.change_mem hP fun _ => ?_ | split | simp [hP])

@[simp] theorem actStore_keeps (va n mask w : Nat) (cls : BitVec 4) (data : Act Nat) (hd : data.Keeps State.Inv) :
    (actStore va n mask w cls data).Keeps State.Inv := by
  unfold actStore
  repeat' (first | exact hd | with_reducible refine Act.Keeps.bind ?_ fun _ => ?_ | split | simp)

theorem execSt_inv (g : Guard) (src a b : Opnd) (cls : BitVec 4) (t : Fmt) {s : State} (hs : s.Inv) : OutKeeps State.Inv (execSt g src a b cls t s) := by
  unfold execSt
  refine issue_keeps _ _ Quiet.inv ?_ hs
  repeat' (first | with_reducible refine Act.Keeps.bind ?_ fun _ => ?_ | with_reducible refine actStore_keeps _ _ _ _ _ _ ?_ | split | simp [*] | (with_reducible refine Act.Keeps.change_wf fun _ _ => ?_))

theorem execVst_inv (g : Guard) (src a b : Opnd) (cls : BitVec 4) {s : State} (hs : s.Inv) : OutKeeps State.Inv (execVst g src a b cls s) := by
  unfold execVst
  refine issue_keeps _ _ Quiet.inv ?_ hs
  repeat' (first | with_reducible refine Act.Keeps.bind ?_ fun _ => ?_ | with_reducible refine actStore_keeps _ _ _ _ _ _ ?_ | split | simp [*] | (with_reducible refine Act.Keeps.change_wf fun _ _ => ?_))

theorem execVstm_inv (g : Guard) (src a : Opnd) (k : BitVec 4) (v1 : Bool) (cls : BitVec 4) {s : State} (hs : s.Inv) : OutKeeps State.Inv (execVstm g src a k v1 cls s) := by
  unfold execVstm
  refine issue_keeps _ _ Quiet.inv ?_ hs
  repeat' (first | with_reducible refine Act.Keeps.bind ?_ fun _ => ?_ | with_reducible refine actStore_keeps _ _ _ _ _ _ ?_ | split | simp [*] | (with_reducible refine Act.Keeps.change_wf fun _ _ => ?_))

end Sys2Proof.Machine
end

