-- ==== Sys2Proof/Laws/KeepsTransfers.lean ====
section
/-! SUPPORT. What transfers and atomics leave of memory. -/

namespace Sys2Proof.Machine

set_option Elab.async false
set_option linter.unusedTactic false
set_option linter.unreachableTactic false
set_option linter.unusedSimpArgs false
set_option linter.unusedVariables false

/-! ### Transfers -/

@[simp] theorem openTransfer_mem (s : State) (loc k ch : Nat) (x : Slot) (i : Nat) (e : Ifr) : (openTransfer s loc k ch x i e).mem = s.mem := by
  unfold openTransfer
  repeat' (first | split | simp | rfl | refine (foldl_mem (fun _ _ => ?_) _ _).trans ?_)

@[simp] theorem freeEntry_keeps  {P : State → Prop} (hP : Quiet P) : (freeEntry ).Keeps P := by
  refine Act.Keeps.lam fun s hs => ?_
  unfold freeEntry
  repeat' (first | exact hs | split | simp [hs])
  all_goals exact hP _ _ (by simp) hs

@[simp] theorem readTransfer_keeps (a : Nat) {P : State → Prop} (hP : Quiet P) : (readTransfer a).Keeps P := by
  unfold readTransfer
  repeat' (first | with_reducible refine Act.Keeps.bind ?_ fun _ => ?_ | with_reducible refine Act.Keeps.change_mem hP fun _ => ?_ | split | simp [hP])

theorem execCput_keeps (g : Guard) (ch : BitVec 3) (d e x : BitVec 5) {s : State} {P : State → Prop} (hP : Quiet P) (hs : P s) : OutKeeps P (execCput g ch d e x s) := by
  unfold execCput
  refine issue_keeps _ _ hP ?_ hs
  repeat' (first | with_reducible refine Act.Keeps.bind ?_ fun _ => ?_ | with_reducible refine Act.Keeps.change_mem hP fun _ => ?_ | split | simp [hP])

theorem execCget_keeps (g : Guard) (ch : BitVec 3) (d e : BitVec 5) {s : State} {P : State → Prop} (hP : Quiet P) (hs : P s) : OutKeeps P (execCget g ch d e s) := by
  unfold execCget
  refine issue_keeps _ _ hP ?_ hs
  repeat' (first | with_reducible refine Act.Keeps.bind ?_ fun _ => ?_ | with_reducible refine Act.Keeps.change_mem hP fun _ => ?_ | split | simp [hP])

@[simp] theorem putEntry_mem (s : State) (loc k : Nat) (e : Ifr) : (putEntry s loc k e).mem = s.mem := by
  unfold putEntry
  repeat' (first | split | simp | rfl | refine (foldl_mem (fun _ _ => ?_) _ _).trans ?_)

@[simp] theorem flushSome_wf (s : State) (ep : Nat) (which : Arrival → Bool) (h : s.mem.wf = true) :
    (flushSome s ep which).mem.wf = true := by
  unfold flushSome
  exact foldl_wf (fun _ _ h => flushCopies_wf _ _ _ h) _ h

@[simp] theorem abandon_wf (s : State) (key : Key) (dst ep : Nat) (h : s.mem.wf = true) : (abandon s key dst ep).mem.wf = true := by
  unfold abandon
  dsimp only
  split
  · rw [State.setEp_mem]
    exact flushSome_wf _ _ _ h
  · exact h

@[simp] theorem failRead_wf (s : State) (loc k : Nat) (e : Ifr) (c i : Nat) (h : s.mem.wf = true) : (failRead s loc k e c i).mem.wf = true := by
  unfold failRead
  repeat' (first | split | simp [h])

theorem readSource_wf {s t : State} {loc vd va n : Nat} {b : List Byte} (h : s.mem.wf = true)
    (e : readSource s loc vd va n = .ok (b, t)) : t.mem.wf = true := by
  unfold readSource at e
  split at e
  · cases e
  · split at e
    · cases e
    · cases e
      split
      · exact dropEach_wf _ _ _ _ h
      · exact h

theorem readPieces_wf {loc vd n : Nat} (l : List Nat) {s t : State} {b : List Byte} (h : s.mem.wf = true)
    (e : readPieces s loc vd n l = .ok (b, t)) : t.mem.wf = true := by
  induction l generalizing s b with
  | nil => cases e; exact h
  | cons va r ih =>
    unfold readPieces at e
    split at e
    · cases e
    · split at e
      · cases e
      · cases e
        exact ih (readSource_wf h ‹_›) ‹_›

@[simp] theorem sourceRead_wf (loc entry : Nat) (s : State) (h : s.mem.wf = true) : (sourceRead loc entry s).mem.wf = true := by
  unfold sourceRead
  split
  · exact h
  · split
    · exact h
    · dsimp only
      split
      · exact h
      · split
        · exact failRead_wf _ _ _ _ _ _ h
        · have h' := readPieces_wf _ h ‹_›
          rw [emit_mem]
          split <;> simp [h']

theorem readElement_wf {s t : State} {ep vd : Nat} {d : TransferDesc} {pins : List (Nat × MapSlot)} {j : Nat} {b : List Byte}
    (h : s.mem.wf = true) (e : readElement s ep vd d pins j = .ok (b, t)) : t.mem.wf = true := by
  unfold readElement at e
  split at e
  · cases e
  · split at e
    · cases e
    · dsimp only at e
      split at e
      · cases e
      · split at e
        · cases e
        · cases e
          split
          · exact h
          · exact dropEach_wf _ _ _ _ h

theorem readElements_wf {ep vd : Nat} {d : TransferDesc} {pins : List (Nat × MapSlot)} (l : List Nat) {s t : State} {b : List Byte}
    (h : s.mem.wf = true) (e : readElements s ep vd d pins l = .ok (b, t)) : t.mem.wf = true := by
  induction l generalizing s b with
  | nil => cases e; exact h
  | cons j r ih =>
    unfold readElements at e
    split at e
    · cases e
    · split at e
      · cases e
      · cases e
        exact ih (readElement_wf h ‹_›) ‹_›

@[simp] theorem emitBeats_mem (s : State) (p : Packet) (d : TransferDesc) (step : Option Nat) (total n no : Nat) (b : List Byte) :
    (emitBeats s p d step total n no b).mem = s.mem := by
  induction n generalizing s no b with
  | zero => rfl
  | succ n ih =>
    unfold emitBeats
    rw [ih, emit_mem]

@[simp] theorem emitTransfer_mem (s : State) (p : Packet) (d : TransferDesc) (b : List Byte) : (emitTransfer s p d b).mem = s.mem := by
  unfold emitTransfer
  rw [emitBeats_mem, emit_mem]

theorem execCgetSourceResolve_inv (pk : Nat) {s : State} (hs : s.Inv) : OutKeeps State.Inv (execCgetSourceResolve pk s) := by
  have h : s.mem.wf = true := hs
  unfold execCgetSourceResolve
  split
  · exact hs
  · split
    · dsimp only
      split
      · exact hs
      · split
        · simp [State.Inv, h]
        · split
          · simp [State.Inv, h]
          · have h' := readElements_wf _ h ‹_›
            simp [State.Inv, h']
    · exact hs

@[simp] theorem endTransfer_mem (s : State) (loc k : Nat) (e : Ifr) (code info : Nat) : (endTransfer s loc k e code info).mem = s.mem := by
  unfold endTransfer
  dsimp only
  rw [tryFinish_mem, State.setSeq_mem]
  repeat' (first | split | simp)

theorem execTransferComplete_inv (loc entry : Nat) {s : State} (hs : s.Inv) : OutKeeps State.Inv (execTransferComplete loc entry s) := by
  have h : s.mem.wf = true := hs
  unfold execTransferComplete
  try dsimp only
  repeat' (first | with_reducible exact hs | split | simp [State.Inv, h])

@[simp] theorem reportBelow_keeps (ch lim : Nat) {P : State → Prop} (hP : Quiet P) : (reportBelow ch lim).Keeps P := by
  refine Act.Keeps.lam fun s hs => ?_
  unfold reportBelow
  repeat' (first | exact hs | split | simp [hs])
  all_goals exact hP _ _ (by simp) hs

theorem execCwait_keeps (g : Guard) (ch : BitVec 3) (e : BitVec 5) (inc : Bool) {s : State} {P : State → Prop} (hP : Quiet P) (hs : P s) : OutKeeps P (execCwait g ch e inc s) := by
  unfold execCwait
  refine issue_keeps _ _ hP ?_ hs
  repeat' (first | with_reducible refine Act.Keeps.bind ?_ fun _ => ?_ | with_reducible refine Act.Keeps.change_mem hP fun _ => ?_ | split | simp [hP])

theorem execCstat_keeps (g : Guard) (ch : BitVec 3) (d : BitVec 5) {s : State} {P : State → Prop} (hP : Quiet P) (hs : P s) : OutKeeps P (execCstat g ch d s) := by
  unfold execCstat
  refine issue_keeps _ _ hP ?_ hs
  repeat' (first | with_reducible refine Act.Keeps.bind ?_ fun _ => ?_ | with_reducible refine Act.Keeps.change_mem hP fun _ => ?_ | split | simp [hP])

@[simp] theorem checkBoxes_keeps (c : JobCard) {P : State → Prop} (hP : Quiet P) : (checkBoxes c).Keeps P := by
  unfold checkBoxes
  repeat' (first | with_reducible refine Act.Keeps.bind ?_ fun _ => ?_ | with_reducible refine Act.Keeps.change_mem hP fun _ => ?_ | split | simp [hP])

theorem execCcard_keeps (g : Guard) (ch : BitVec 3) (d e : BitVec 5) {s : State} {P : State → Prop} (hP : Quiet P) (hs : P s) : OutKeeps P (execCcard g ch d e s) := by
  unfold execCcard
  refine issue_keeps _ _ hP ?_ hs
  repeat' (first | with_reducible refine Act.Keeps.bind ?_ fun _ => ?_ | with_reducible refine Act.Keeps.change_mem hP fun _ => ?_ | split | simp [hP])

@[simp] theorem putCard_mem (s : State) (d : Nat) (x : Card) : (putCard s d x).mem = s.mem := by
  unfold putCard
  repeat' (first | split | simp | rfl | refine (foldl_mem (fun _ _ => ?_) _ _).trans ?_)

@[simp] theorem sendCollective_wf (loc k : Nat) (e : Ifr) (c : JobCard) (js : List Nat) (s : State) (h : s.mem.wf = true) :
    (sendCollective loc k e c js s).mem.wf = true := by
  induction js generalizing s with
  | nil => exact h
  | cons j js ih =>
    unfold sendCollective
    split
    · have h' := readSource_wf h ‹_›
      apply ih
      rw [perf_mem, emitTransfer_mem]
      exact h'
    · exact ih _ h

theorem execJobCardStart_inv (die card : Nat) {s : State} (hs : s.Inv) : OutKeeps State.Inv (execJobCardStart die card s) := by
  have h : s.mem.wf = true := hs
  unfold execJobCardStart
  try dsimp only
  repeat' (first | with_reducible exact hs | split | simp [State.Inv, h])

theorem copyBytes_wf (s : State) (loc vd src dst n : Nat) (h : s.mem.wf = true) {t : State}
    (e : copyBytes s loc vd src dst n = .ok t) : t.mem.wf = true := by
  simp only [copyBytes] at e
  split at e
  · cases e
  · have h' := readSource_wf h ‹_›
    split at e
    · cases e
    · cases e
      refine storeEach_wf _ _ _ ?_
      split
      · exact dropEach_wf _ _ _ _ h'
      · exact h'

theorem copyAll_wf (loc : Nat) (key : Key) (n : Nat) (l : List (Nat × Nat × Nat)) {s t : State} {r : CopyEnd} (h : s.mem.wf = true)
    (e : copyAll loc key n l s = (t, r)) : t.mem.wf = true := by
  induction l generalizing s n with
  | nil => cases e; exact h
  | cons c l ih =>
    obtain ⟨a, b, k⟩ := c
    unfold copyAll at e
    split at e
    · split at e
      · exact ih _ h e
      · cases e; exact h
    · dsimp only at e
      split at e
      · exact ih _ h e
      · split at e
        · cases e; exact h
        · split at e
          · cases e; exact h
          · refine ih _ ?_ e
            simpa using copyBytes_wf s loc key.vd a b k h ‹_›

theorem cardCopies_wf {s t : State} {loc vd : Nat} {c : JobCard} {l : List (Nat × Nat × Nat)} {late : Nat} (h : s.mem.wf = true)
    (e : cardCopies s loc vd c = .ok (l, late, t)) : t.mem.wf = true := by
  unfold cardCopies at e
  split at e
  · cases e; exact h
  · split at e
    · cases e
    · have h' := readSource_wf h ‹_›
      dsimp only at e
      split at e <;> (cases e; exact h')

@[simp] theorem closeCard_wf (s : State) (die : Nat) (x : Card) (e : Ifr) (code info : Nat) (h : s.mem.wf = true) : (closeCard s die x e code info).mem.wf = true := by
  unfold closeCard
  try dsimp only
  repeat' (first | with_reducible exact h | split | simp [*] | refine foldl_wf (fun _ _ _ => ?_) _ ?_)

theorem execJobCardComplete_inv (die card : Nat) {s : State} (hs : s.Inv) : OutKeeps State.Inv (execJobCardComplete die card s) := by
  have h : s.mem.wf = true := hs
  unfold execJobCardComplete
  split
  · exact hs
  · split
    · exact hs
    · dsimp only
      split
      · exact hs
      · split
        · simp [State.Inv, h]
        · split
          · split <;> simp [State.Inv, h]
          · have h1 := cardCopies_wf h ‹_›
            split <;> (have h2 := copyAll_wf _ _ _ _ h1 ‹_›) <;> (try split) <;> simp [State.Inv, h2]

/-! ### Atomics -/

theorem execFence_keeps (g : Guard) (scope : ScopeCode) (mask : BitVec 16) {s : State} {P : State → Prop} (hP : Quiet P) (hs : P s) : OutKeeps P (execFence g scope mask s) := by
  unfold execFence
  refine issue_keeps _ _ hP ?_ hs
  repeat' (first | with_reducible refine Act.Keeps.bind ?_ fun _ => ?_ | with_reducible refine Act.Keeps.change_mem hP fun _ => ?_ | split | simp [hP])

@[simp] theorem orderBefore_keeps (ord scope : Nat) {P : State → Prop} (hP : Quiet P) : (orderBefore ord scope).Keeps P := by
  unfold orderBefore
  repeat' (first | with_reducible refine Act.Keeps.bind ?_ fun _ => ?_ | with_reducible refine Act.Keeps.change_mem hP fun _ => ?_ | split | simp [hP])

@[simp] theorem orderAfter_keeps (ord scope : Nat) {P : State → Prop} (hP : Quiet P) : (orderAfter ord scope).Keeps P := by
  unfold orderAfter
  repeat' (first | with_reducible refine Act.Keeps.bind ?_ fun _ => ?_ | with_reducible refine Act.Keeps.change_mem hP fun _ => ?_ | split | simp [hP])

@[simp] theorem stickyNow_keeps (st : Nat) {P : State → Prop} (hP : Quiet P) : (stickyNow st).Keeps P := by
  unfold stickyNow
  repeat' (first | with_reducible refine Act.Keeps.bind ?_ fun _ => ?_ | with_reducible refine Act.Keeps.change_mem hP fun _ => ?_ | split | simp [hP])

@[simp] theorem actAtomic_keeps (op : Nat) (wd : BitVec 5) (a b : Opnd) (nr : Bool) (ord : BitVec 2) (cls : BitVec 4) (t : Fmt) : (actAtomic op wd a b nr ord cls t).Keeps State.Inv := by
  unfold actAtomic
  repeat' (first | with_reducible refine Act.Keeps.bind ?_ fun _ => ?_ | split | simp [*] | (with_reducible refine Act.Keeps.change_wf fun _ _ => ?_))

theorem execAadd_inv (g : Guard) (wd : BitVec 5) (a b : Opnd) (nr : Bool) (ord : BitVec 2) (cls : BitVec 4) (t : Fmt) {s : State} (hs : s.Inv) : OutKeeps State.Inv (execAadd g wd a b nr ord cls t s) := by
  unfold execAadd
  refine issue_keeps _ _ Quiet.inv ?_ hs
  repeat' (first | with_reducible refine Act.Keeps.bind ?_ fun _ => ?_ | split | simp [*] | (with_reducible refine Act.Keeps.change_wf fun _ _ => ?_))

theorem execAmin_inv (g : Guard) (wd : BitVec 5) (a b : Opnd) (nr : Bool) (ord : BitVec 2) (cls : BitVec 4) (t : Fmt) {s : State} (hs : s.Inv) : OutKeeps State.Inv (execAmin g wd a b nr ord cls t s) := by
  unfold execAmin
  refine issue_keeps _ _ Quiet.inv ?_ hs
  repeat' (first | with_reducible refine Act.Keeps.bind ?_ fun _ => ?_ | split | simp [*] | (with_reducible refine Act.Keeps.change_wf fun _ _ => ?_))

theorem execAmax_inv (g : Guard) (wd : BitVec 5) (a b : Opnd) (nr : Bool) (ord : BitVec 2) (cls : BitVec 4) (t : Fmt) {s : State} (hs : s.Inv) : OutKeeps State.Inv (execAmax g wd a b nr ord cls t s) := by
  unfold execAmax
  refine issue_keeps _ _ Quiet.inv ?_ hs
  repeat' (first | with_reducible refine Act.Keeps.bind ?_ fun _ => ?_ | split | simp [*] | (with_reducible refine Act.Keeps.change_wf fun _ _ => ?_))

theorem execAlog_inv (g : Guard) (wd : BitVec 5) (a b : Opnd) (nr : Bool) (lop ord : BitVec 2) (cls : BitVec 4) (t : Fmt) {s : State} (hs : s.Inv) : OutKeeps State.Inv (execAlog g wd a b nr lop ord cls t s) := by
  unfold execAlog
  refine issue_keeps _ _ Quiet.inv ?_ hs
  repeat' (first | with_reducible refine Act.Keeps.bind ?_ fun _ => ?_ | split | simp [*] | (with_reducible refine Act.Keeps.change_wf fun _ _ => ?_))

theorem execAswp_inv (g : Guard) (wd : BitVec 5) (a b : Opnd) (nr : Bool) (ord : BitVec 2) (cls : BitVec 4) (t : Fmt) {s : State} (hs : s.Inv) : OutKeeps State.Inv (execAswp g wd a b nr ord cls t s) := by
  unfold execAswp
  refine issue_keeps _ _ Quiet.inv ?_ hs
  repeat' (first | with_reducible refine Act.Keeps.bind ?_ fun _ => ?_ | split | simp [*] | (with_reducible refine Act.Keeps.change_wf fun _ _ => ?_))

theorem execAcas_inv (g : Guard) (wd : BitVec 5) (a b : Opnd) (ord : BitVec 2) (cls : BitVec 4) (t : Fmt) {s : State} (hs : s.Inv) : OutKeeps State.Inv (execAcas g wd a b ord cls t s) := by
  unfold execAcas
  refine issue_keeps _ _ Quiet.inv ?_ hs
  repeat' (first | with_reducible refine Act.Keeps.bind ?_ fun _ => ?_ | split | simp [*] | (with_reducible refine Act.Keeps.change_wf fun _ _ => ?_))

theorem execAincb_inv (g : Guard) (wd : BitVec 5) (a b : Opnd) (nr : Bool) (ord : BitVec 2) (cls : BitVec 4) (t : Fmt) {s : State} (hs : s.Inv) : OutKeeps State.Inv (execAincb g wd a b nr ord cls t s) := by
  unfold execAincb
  refine issue_keeps _ _ Quiet.inv ?_ hs
  repeat' (first | with_reducible refine Act.Keeps.bind ?_ fun _ => ?_ | split | simp [*] | (with_reducible refine Act.Keeps.change_wf fun _ _ => ?_))

@[simp] theorem readIds_keeps (b : Opnd) {P : State → Prop} (hP : Quiet P) : (readIds b).Keeps P := by
  unfold readIds
  repeat' (first | with_reducible refine Act.Keeps.bind ?_ fun _ => ?_ | with_reducible refine Act.Keeps.change_mem hP fun _ => ?_ | split | simp [hP])

theorem execRcnt_keeps (g : Guard) (a b : Opnd) {s : State} {P : State → Prop} (hP : Quiet P) (hs : P s) : OutKeeps P (execRcnt g a b s) := by
  unfold execRcnt
  refine issue_keeps _ _ hP ?_ hs
  repeat' (first | with_reducible refine Act.Keeps.bind ?_ fun _ => ?_ | with_reducible refine Act.Keeps.change_mem hP fun _ => ?_ | split | simp [hP])

theorem execAsnap_inv (g : Guard) (wd : BitVec 5) (a b : Opnd) (cls : BitVec 4) {s : State} (hs : s.Inv) : OutKeeps State.Inv (execAsnap g wd a b cls s) := by
  unfold execAsnap
  refine issue_keeps _ _ Quiet.inv ?_ hs
  repeat' (first | with_reducible refine Act.Keeps.bind ?_ fun _ => ?_ | split | simp [*] | (with_reducible refine Act.Keeps.change_wf fun _ _ => ?_))

end Sys2Proof.Machine
end

