-- ==== Sys2Proof/Laws/KeepsGrids.lean ====
section
/-! SUPPORT. What grids and remote memory leave of memory. -/

namespace Sys2Proof.Machine

set_option Elab.async false
set_option linter.unusedTactic false
set_option linter.unreachableTactic false
set_option linter.unusedSimpArgs false
set_option linter.unusedVariables false

/-! ### Grids -/

@[simp] theorem installGhosts_wf (ep loc gs vd : Nat) (l : List (Nat × MapEntry)) (s : State) (h : s.mem.wf = true) :
    (installGhosts ep loc gs vd l s).mem.wf = true := by
  induction l generalizing s with
  | nil => exact h
  | cons x l ih =>
    obtain ⟨f, m⟩ := x
    unfold installGhosts
    split
    · exact ih s h
    · apply ih
      apply commitMap_wf
      split <;> simp [h]

theorem execGdecl_inv (g : Guard) (d : BitVec 5) (gs : BitVec 2) (e : BitVec 5) {s : State} (hs : s.Inv) : OutKeeps State.Inv (execGdecl g d gs e s) := by
  unfold execGdecl
  refine issue_keeps _ _ Quiet.inv ?_ hs
  repeat' (first | with_reducible refine Act.Keeps.bind ?_ fun _ => ?_ | split | simp [*] | (with_reducible refine Act.Keeps.change_wf fun _ _ => ?_))

@[simp] theorem latched_keeps (m : Act Nat) {P : State → Prop} (hm : m.Keeps P) : (latched m).Keeps P := by
  refine Act.Keeps.lam fun s hs => ?_
  unfold latched
  split
  · split
    · exact hs
    · exact hm s hs
  · exact hm s hs

@[simp] theorem awaitLatched_keeps (x : Nat) (ok : State → Bool) {P : State → Prop} (hP : Quiet P) : (awaitLatched x ok).Keeps P := by
  refine Act.Keeps.lam fun s hs => ?_
  unfold awaitLatched
  repeat' (first | exact hs | split | simp [hs])
  all_goals exact hP _ _ (by simp) hs

@[simp] theorem Act.grid_keeps (gs : Nat) {P : State → Prop} (hP : Quiet P) : (Act.grid gs).Keeps P := by
  refine Act.Keeps.lam fun s hs => ?_
  unfold Act.grid
  repeat' (first | exact hs | split | simp [hs])
  all_goals exact hP _ _ (by simp) hs

theorem execGdeclR_keeps (g : Guard) (gs : BitVec 2) {s : State} {P : State → Prop} (hP : Quiet P) (hs : P s) : OutKeeps P (execGdeclR g gs s) := by
  unfold execGdeclR
  refine issue_keeps _ _ hP ?_ hs
  repeat' (first | with_reducible refine Act.Keeps.bind ?_ fun _ => ?_ | with_reducible refine Act.Keeps.change_mem hP fun _ => ?_ | split | simp [hP])

@[simp] theorem copyBoundary.nearWriteAll_wf (s : State) (loc a : Nat) (b : List Byte) (h : s.mem.wf = true) :
    (copyBoundary.nearWriteAll s loc a b).mem.wf = true := by
  unfold copyBoundary.nearWriteAll
  simp [h]

@[simp] theorem copyBoundary_wf (loc step : Nat) (g : Grid) (s : State) (h : s.mem.wf = true) :
    (copyBoundary loc step g s).mem.wf = true :=
  foldl_wf (fun _ _ h => copyBoundary.nearWriteAll_wf _ _ _ _ h) _ h

@[simp] theorem startShipments_mem (loc gs step i scope : Nat) (g : Grid) (fs : List Nat) (s : State) :
    (startShipments loc gs step i scope g fs s).mem = s.mem := by
  induction fs generalizing s with
  | nil => rfl
  | cons f fs ih =>
    unfold startShipments
    split <;> simp [ih]

@[simp] theorem fillDomain_wf (loc gs step : Nat) (g : Grid) (fs : List Nat) (s : State) (h : s.mem.wf = true) :
    (fillDomain loc gs step g fs s).mem.wf = true := by
  induction fs generalizing s with
  | nil => exact h
  | cons f fs ih =>
    unfold fillDomain
    dsimp only
    apply ih
    repeat' (first | split | simp [h])

@[simp] theorem finishCommit_wf (loc gs : Nat) (s : State) (h : s.mem.wf = true) : (finishCommit loc gs s).mem.wf = true := by
  unfold finishCommit
  dsimp only
  split
  · exact h
  · split
    · exact h
    · exact fillDomain_wf _ _ _ _ _ _ (copyBoundary_wf _ _ _ _ (by simpa using h))

@[simp] theorem commitStep_wf (loc gs step i scope : Nat) (g : Grid) (s : State) (h : s.mem.wf = true) : (commitStep loc gs step i scope g s).mem.wf = true := by
  unfold commitStep
  dsimp only
  refine reexamineAll_wf _ _ ?_
  split
  · exact finishCommit_wf _ _ _ (by simpa using h)
  · simpa using h

theorem execTransferSourceRead_inv (loc entry : Nat) {s : State} (hs : s.Inv) :
    OutKeeps State.Inv (execTransferSourceRead loc entry s) := by
  have h : s.mem.wf = true := hs
  unfold execTransferSourceRead
  split
  · exact hs
  · refine sourceRead_wf _ _ _ ?_
    split
    · exact finishCommit_wf _ _ _ h
    · exact h

theorem execGstep_inv (g : Guard) (gs : BitVec 2) (a : BitVec 5) {s : State} (hs : s.Inv) : OutKeeps State.Inv (execGstep g gs a s) := by
  unfold execGstep
  refine issue_keeps _ _ Quiet.inv ?_ hs
  repeat' (first | with_reducible refine Act.Keeps.bind ?_ fun _ => ?_ | split | simp [*] | (with_reducible refine Act.Keeps.change_wf fun _ _ => ?_))

@[simp] theorem ghostStall_keeps (gs v f step : Nat) {P : State → Prop} (hP : Quiet P) : (ghostStall gs v f step).Keeps P := by
  refine Act.Keeps.lam fun s hs => ?_
  unfold ghostStall
  repeat' (first | exact hs | split | simp [hs])
  all_goals exact hP _ _ (by simp) hs

@[simp] theorem ghostRead_keeps (gs : Nat) (a b : Opnd) (n : Nat) (aligned : Bool) {P : State → Prop} (hP : Quiet P) : (ghostRead gs a b n aligned).Keeps P := by
  unfold ghostRead
  repeat' (first | with_reducible refine Act.Keeps.bind ?_ fun _ => ?_ | with_reducible refine Act.Keeps.change_mem hP fun _ => ?_ | split | simp [hP])

theorem execLdg_keeps (g : Guard) (dst : Dest) (a b : Opnd) (gs : BitVec 2) (t : Fmt) {s : State} {P : State → Prop} (hP : Quiet P) (hs : P s) : OutKeeps P (execLdg g dst a b gs t s) := by
  unfold execLdg
  refine issue_keeps _ _ hP ?_ hs
  repeat' (first | with_reducible refine Act.Keeps.bind ?_ fun _ => ?_ | with_reducible refine Act.Keeps.change_mem hP fun _ => ?_ | split | simp [hP])

theorem execVldg_keeps (g : Guard) (dst : Dest) (a b : Opnd) (gs : BitVec 2) {s : State} {P : State → Prop} (hP : Quiet P) (hs : P s) : OutKeeps P (execVldg g dst a b gs s) := by
  unfold execVldg
  refine issue_keeps _ _ hP ?_ hs
  repeat' (first | with_reducible refine Act.Keeps.bind ?_ fun _ => ?_ | with_reducible refine Act.Keeps.change_mem hP fun _ => ?_ | split | simp [hP])

theorem execHaloTimeout_keeps (loc : Nat) {s : State} {P : State → Prop} (hP : Quiet P) (hs : P s) : OutKeeps P (execHaloTimeout loc s) := by
  unfold execHaloTimeout
  try dsimp only
  repeat' (first | with_reducible exact hs | split | exact hP _ _ (by simp) hs)

theorem execGq_keeps (g : Guard) (d : BitVec 5) (gs : BitVec 2) (which : BitVec 5) {s : State} {P : State → Prop} (hP : Quiet P) (hs : P s) : OutKeeps P (execGq g d gs which s) := by
  unfold execGq
  refine issue_keeps _ _ hP ?_ hs
  repeat' (first | with_reducible refine Act.Keeps.bind ?_ fun _ => ?_ | with_reducible refine Act.Keeps.change_mem hP fun _ => ?_ | split | simp [hP])

theorem execNeighbourCommitNotice_keeps (loc grid party : Nat) {s : State} {P : State → Prop} (hP : Quiet P) (hs : P s) : OutKeeps P (execNeighbourCommitNotice loc grid party s) := by
  unfold execNeighbourCommitNotice
  try dsimp only
  repeat' (first | with_reducible exact hs | split | exact hP _ _ (by simp) hs)

/-! ### Remote -/

@[simp] theorem remoteAddr_keeps (va n : Nat) {P : State → Prop} (hP : Quiet P) : (remoteAddr va n).Keeps P := by
  unfold remoteAddr
  repeat' (first | with_reducible refine Act.Keeps.bind ?_ fun _ => ?_ | with_reducible refine Act.Keeps.change_mem hP fun _ => ?_ | split | simp [hP])

@[simp] theorem needToken_keeps (va : Nat) {P : State → Prop} (hP : Quiet P) : (needToken va).Keeps P := by
  unfold needToken
  repeat' (first | with_reducible refine Act.Keeps.bind ?_ fun _ => ?_ | with_reducible refine Act.Keeps.change_mem hP fun _ => ?_ | split | simp [hP])

theorem execLdr_keeps (g : Guard) (dst : Dest) (a : Opnd) (ca : Bool) (lq : BitVec 9) (cls : BitVec 4) (t : Fmt) {s : State} {P : State → Prop} (hP : Quiet P) (hs : P s) : OutKeeps P (execLdr g dst a ca lq cls t s) := by
  unfold execLdr
  refine issue_keeps _ _ hP ?_ hs
  repeat' (first | with_reducible refine Act.Keeps.bind ?_ fun _ => ?_ | with_reducible refine Act.Keeps.change_mem hP fun _ => ?_ | split | simp [hP])

theorem execStr_keeps (g : Guard) (src a : Opnd) (ca : Bool) (cls : BitVec 4) (t : Fmt) {s : State} {P : State → Prop} (hP : Quiet P) (hs : P s) : OutKeeps P (execStr g src a ca cls t s) := by
  unfold execStr
  refine issue_keeps _ _ hP ?_ hs
  repeat' (first | with_reducible refine Act.Keeps.bind ?_ fun _ => ?_ | with_reducible refine Act.Keeps.change_mem hP fun _ => ?_ | split | simp [hP])

theorem execRatom_keeps (g : Guard) (wd : BitVec 5) (a : Opnd) (wb : BitVec 5) (rop : BitVec 4) (nr : Bool) (ord : BitVec 2) (cls : BitVec 4) (t : Fmt) {s : State} {P : State → Prop} (hP : Quiet P) (hs : P s) : OutKeeps P (execRatom g wd a wb rop nr ord cls t s) := by
  unfold execRatom
  refine issue_keeps _ _ hP ?_ hs
  repeat' (first | with_reducible refine Act.Keeps.bind ?_ fun _ => ?_ | with_reducible refine Act.Keeps.change_mem hP fun _ => ?_ | split | simp [hP])

@[simp] theorem regionOperand_keeps (e : BitVec 5) {P : State → Prop} (hP : Quiet P) : (regionOperand e).Keeps P := by
  unfold regionOperand
  repeat' (first | with_reducible refine Act.Keeps.bind ?_ fun _ => ?_ | with_reducible refine Act.Keeps.change_mem hP fun _ => ?_ | split | simp [hP])

@[simp] theorem askToken_keeps (va : Nat) {P : State → Prop} (hP : Quiet P) : (askToken va).Keeps P := by
  refine Act.Keeps.lam fun s hs => ?_
  unfold askToken
  repeat' (first | exact hs | split | simp [hs])
  all_goals exact hP _ _ (by simp) hs

theorem execTacq_keeps (g : Guard) (d e : BitVec 5) {s : State} {P : State → Prop} (hP : Quiet P) (hs : P s) : OutKeeps P (execTacq g d e s) := by
  unfold execTacq
  refine issue_keeps _ _ hP ?_ hs
  repeat' (first | with_reducible refine Act.Keeps.bind ?_ fun _ => ?_ | with_reducible refine Act.Keeps.change_mem hP fun _ => ?_ | split | simp [hP])

@[simp] theorem returnToken_wf (s : State) (vd va : Nat) (h : s.mem.wf = true) : (returnToken s vd va).mem.wf = true := by
  unfold returnToken
  dsimp only
  rw [State.setToken_mem]
  refine foldl_wf (fun t o h => ?_) _ h
  split
  · exact putHome_wf _ _ _ h
  · exact h

theorem execTrel_inv (g : Guard) (e : BitVec 5) {s : State} (hs : s.Inv) : OutKeeps State.Inv (execTrel g e s) := by
  unfold execTrel
  refine issue_keeps _ _ Quiet.inv ?_ hs
  repeat' (first | with_reducible refine Act.Keeps.bind ?_ fun _ => ?_ | split | simp [*] | (with_reducible refine Act.Keeps.change_wf fun _ _ => ?_))

theorem execTacqRequest_keeps (vd region : Nat) {s : State} {P : State → Prop} (hP : Quiet P) (hs : P s) : OutKeeps P (execTacqRequest vd region s) := by
  unfold execTacqRequest
  try dsimp only
  repeat' (first | with_reducible exact hs | split | exact hP _ _ (by simp) hs)

theorem execTokenGrant_keeps (vd region : Nat) {s : State} {P : State → Prop} (hP : Quiet P) (hs : P s) : OutKeeps P (execTokenGrant vd region s) := by
  unfold execTokenGrant
  try dsimp only
  repeat' (first | with_reducible exact hs | split | exact hP _ _ (by simp) hs)

theorem execTokenRecall_inv (vd region : Nat) {s : State} (hs : s.Inv) : OutKeeps State.Inv (execTokenRecall vd region s) := by
  have h : s.mem.wf = true := hs
  unfold execTokenRecall
  try dsimp only
  repeat' (first | with_reducible exact hs | split | simp [h, State.Inv] | refine foldl_wf (fun _ _ _ => ?_) _ ?_)

theorem execTokenHoldExpiry_keeps (vd region : Nat) {s : State} {P : State → Prop} (hP : Quiet P) (hs : P s) : OutKeeps P (execTokenHoldExpiry vd region s) := by
  unfold execTokenHoldExpiry
  try dsimp only
  repeat' (first | with_reducible exact hs | split | exact hP _ _ (by simp) hs)

end Sys2Proof.Machine
end

