-- ==== Sys2Proof/Laws/KeepsLaunches.lean ====
section
/-! SUPPORT. What launches, barriers and tasks leave of memory. -/

namespace Sys2Proof.Machine

set_option Elab.async false
set_option linter.unusedTactic false
set_option linter.unreachableTactic false
set_option linter.unusedSimpArgs false
set_option linter.unusedVariables false

/-! ### Launches -/

@[simp] theorem placeLaunch_mem (s : State) (p : LaunchPacket) : (placeLaunch s p).mem = s.mem := by
  unfold placeLaunch
  repeat' (first | split | simp | rfl | refine (foldl_mem (fun _ _ => ?_) _ _).trans ?_)

theorem takeLaunch_mem {offset : Nat} {data : List Byte} {s t : State} (e : takeLaunch offset data s = some t) : t.mem = s.mem := by
  unfold takeLaunch at e
  dsimp only at e
  repeat' (first | (cases e; done) | (cases e; simp; done) | split at e)

@[simp] theorem offerLaunches_mem (s : State) : (offerLaunches s).mem = s.mem := by
  unfold offerLaunches
  refine foldl_mem (fun t c => ?_) _ _
  cases c with
  | flip _ _ _ _ => rfl
  | launch o d =>
    dsimp only
    split
    · have h := takeLaunch_mem ‹_›
      exact h
    · rfl

theorem execLaunchPacket_keeps (offset : Nat) (data : List Byte) {s : State} {P : State → Prop} (hP : Quiet P) (hs : P s) : OutKeeps P (execLaunchPacket offset data s) := by
  unfold execLaunchPacket
  exact hP _ _ (by simp) hs

@[simp] theorem makeCopy_wf (loc vd : Nat) (zero : List Nat) (s : State) (c : Nat × Nat × Nat) (h : s.mem.wf = true) : (makeCopy loc vd zero s c).mem.wf = true := by
  unfold makeCopy
  try dsimp only
  repeat' (first | with_reducible exact h | split | simp [*] | refine foldl_wf (fun _ _ _ => ?_) _ ?_)

@[simp] theorem runLoader_wf (s : State) (loc : Nat) (args : Bool) (zero : List Nat) (h : s.mem.wf = true) :
    (runLoader s loc args zero).mem.wf = true := by
  unfold runLoader
  dsimp only
  split
  · simp [h]
  · rw [State.setSeq_mem, State.setCore_mem]
    exact foldl_wf (fun _ _ h => makeCopy_wf _ _ _ _ _ h) _ h

@[simp] theorem clearWindows_mem (s : State) (loc : Nat) : (clearWindows s loc).mem = s.mem := by
  unfold clearWindows
  repeat' (first | split | simp | rfl | refine (foldl_mem (fun _ _ => ?_) _ _).trans ?_)

@[simp] theorem taskStart_mem (s : State) (loc : Nat) (t : Task) : (taskStart s loc t).mem = s.mem := by
  unfold taskStart
  repeat' (first | split | simp | rfl | refine (foldl_mem (fun _ _ => ?_) _ _).trans ?_)

@[simp] theorem addSaves_mem (s : State) (part : Nat) (xs : List (Nat × Nat)) : (addSaves s part xs).mem = s.mem := by
  unfold addSaves
  repeat' (first | split | simp | rfl | refine (foldl_mem (fun _ _ => ?_) _ _).trans ?_)

@[simp] theorem beginSpawned_wf (s : State) (loc : Nat) (task : Task) (passed : List (Nat × Vec)) (h : s.mem.wf = true) :
    (beginSpawned s loc task passed).mem.wf = true := by
  unfold beginSpawned
  dsimp only
  apply runLoader_wf
  refine foldl_wf (fun _ _ h => ?_) _ ?_
  · rw [regPut_mem]
    exact h
  · split <;> simp [h]

theorem takeSpawned_wf {s t : State} {loc : Nat} (h : s.mem.wf = true) (e : takeSpawned s loc = some t) : t.mem.wf = true := by
  unfold takeSpawned at e
  split at e
  · cases e
  · rename_i vd _
    cases hx : spawnedAt s loc vd with
    | none => rw [hx] at e; cases e
    | some x =>
      rw [hx] at e
      obtain ⟨l, task, passed⟩ := x
      cases e
      dsimp only
      split
      · exact h
      · exact beginSpawned_wf _ _ _ _ (by simpa using h)

theorem execTaskStart_inv (loc : Nat) {s : State} (hs : s.Inv) : OutKeeps State.Inv (execTaskStart loc s) := by
  have h : s.mem.wf = true := hs
  unfold execTaskStart
  dsimp only
  split
  · exact hs
  · split
    · exact takeSpawned_wf h ‹_›
    · split
      · exact hs
      · split
        · exact hs
        · split
          · exact hs
          · simp [State.Inv, h]

theorem execRecordDelivery_keeps (die : Nat) (fatal : Bool) {s : State} {P : State → Prop} (hP : Quiet P) (hs : P s) : OutKeeps P (execRecordDelivery die fatal s) := by
  unfold execRecordDelivery
  try dsimp only
  repeat' (first | with_reducible exact hs | split | exact hP _ _ (by simp) hs)

/-! ### Progress -/

@[simp] theorem countArrival_mem (s : State) (vd key n loc : Nat) : (countArrival s vd key n loc).mem = s.mem := by
  unfold countArrival
  repeat' (first | split | simp | rfl | refine (foldl_mem (fun _ _ => ?_) _ _).trans ?_)

@[simp] theorem copyArrival_mem (s : State) (vd key n loc : Nat) : (copyArrival s vd key n loc).mem = s.mem := by
  unfold copyArrival
  repeat' (first | split | simp | rfl)

@[simp] theorem copyFlip_mem (s : State) (vd key ph : Nat) : (copyFlip s vd key ph).mem = s.mem := by
  unfold copyFlip
  repeat' (first | split | simp | rfl)

@[simp] theorem arriveAt_keeps (scope id n : Nat) {P : State → Prop} (hP : Quiet P) : (arriveAt scope id n).Keeps P := by
  unfold arriveAt
  repeat' (first | with_reducible refine Act.Keeps.bind ?_ fun _ => ?_ | with_reducible refine Act.Keeps.change_mem hP fun _ => ?_ | with_reducible refine Act.hold_keeps hP fun _ => ?_ | split | simp [hP])

@[simp] theorem waitFlip_keeps (scope id ph : Nat) {P : State → Prop} (hP : Quiet P) : (waitFlip scope id ph).Keeps P := by
  unfold waitFlip
  repeat' (first | with_reducible refine Act.Keeps.bind ?_ fun _ => ?_ | with_reducible refine Act.Keeps.change_mem hP fun _ => ?_ | with_reducible refine Act.hold_keeps hP fun _ => ?_ | split | simp [hP])

theorem execBarA_keeps (g : Guard) (scope : ScopeCode) (id c p : BitVec 4) {s : State} {P : State → Prop} (hP : Quiet P) (hs : P s) : OutKeeps P (execBarA g scope id c p s) := by
  unfold execBarA
  refine issue_keeps _ _ hP ?_ hs
  repeat' (first | with_reducible refine Act.Keeps.bind ?_ fun _ => ?_ | with_reducible refine Act.Keeps.change_mem hP fun _ => ?_ | with_reducible refine Act.hold_keeps hP fun _ => ?_ | split | simp [hP])

theorem execBarW_keeps (g : Guard) (scope : ScopeCode) (id p : BitVec 4) {s : State} {P : State → Prop} (hP : Quiet P) (hs : P s) : OutKeeps P (execBarW g scope id p s) := by
  unfold execBarW
  refine issue_keeps _ _ hP ?_ hs
  repeat' (first | with_reducible refine Act.Keeps.bind ?_ fun _ => ?_ | with_reducible refine Act.Keeps.change_mem hP fun _ => ?_ | with_reducible refine Act.hold_keeps hP fun _ => ?_ | split | simp [hP])

@[simp] theorem Act.hold_keeps {α : Type} {f : State → State} {P : State → Prop} (hP : Quiet P)
    (h : ∀ s, (f s).mem = s.mem) : (Act.hold f : Act α).Keeps P := fun s hs => hP s _ (h s) hs

theorem execBar_keeps (g : Guard) (scope : ScopeCode) (id c p : BitVec 4) {s : State} {P : State → Prop} (hP : Quiet P) (hs : P s) : OutKeeps P (execBar g scope id c p s) := by
  unfold execBar
  refine issue_keeps _ _ hP ?_ hs
  repeat' (first | with_reducible refine Act.Keeps.bind ?_ fun _ => ?_ | with_reducible refine Act.Keeps.change_mem hP fun _ => ?_ | with_reducible refine Act.hold_keeps hP fun _ => ?_ | split | simp [hP])

@[simp] theorem freeArrival_mem (s : State) (p : Packet) : (freeArrival s p).mem = s.mem := by
  unfold freeArrival
  repeat' (first | split | simp | rfl)

theorem execBarrierRootArrival_keeps (pk : Nat) {s : State} {P : State → Prop} (hP : Quiet P) (hs : P s) : OutKeeps P (execBarrierRootArrival pk s) := by
  unfold execBarrierRootArrival
  try dsimp only
  repeat' (first | with_reducible exact hs | split | exact hP _ _ (by simp) hs)

theorem execPhaseFlip_keeps (flip core : Nat) {s : State} {P : State → Prop} (hP : Quiet P) (hs : P s) : OutKeeps P (execPhaseFlip flip core s) := by
  unfold execPhaseFlip
  try dsimp only
  repeat' (first | exact hs | split | exact hP _ _ (by rw [offerLaunches_mem]; simp) hs)

@[simp] theorem spawnTarget_keeps (y : Nat) {P : State → Prop} (hP : Quiet P) : (spawnTarget y).Keeps P := by
  unfold spawnTarget
  repeat' (first | with_reducible refine Act.Keeps.bind ?_ fun _ => ?_ | with_reducible refine Act.Keeps.change_mem hP fun _ => ?_ | with_reducible refine Act.hold_keeps hP fun _ => ?_ | split | simp [hP])

@[simp] theorem readPassed_keeps (l : List Nat) {P : State → Prop} : (readPassed l).Keeps P := by
  induction l with
  | nil => exact Act.Keeps.ret _
  | cons i l ih =>
    unfold readPassed
    exact Act.Keeps.bind (by simp) fun _ => Act.Keeps.bind ih fun _ => Act.Keeps.ret _

@[simp] theorem startSpawned_wf (s : State) (t entry : Nat) (passed : List (Nat × Vec)) (h : s.mem.wf = true) :
    (startSpawned s t entry passed).mem.wf = true := by
  unfold startSpawned
  dsimp only
  split <;> simp [h]

theorem execSpawn_inv (g : Guard) (t e : BitVec 4) {s : State} (hs : s.Inv) : OutKeeps State.Inv (execSpawn g t e s) := by
  unfold execSpawn
  refine issue_keeps _ _ Quiet.inv ?_ hs
  repeat' (first | with_reducible refine Act.Keeps.bind ?_ fun _ => ?_ | split | simp [*] | (with_reducible refine Act.Keeps.change_wf fun _ _ => ?_))

theorem execSjoin_keeps (g : Guard) (t : BitVec 4) {s : State} {P : State → Prop} (hP : Quiet P) (hs : P s) : OutKeeps P (execSjoin g t s) := by
  unfold execSjoin
  refine issue_keeps _ _ hP ?_ hs
  repeat' (first | with_reducible refine Act.Keeps.bind ?_ fun _ => ?_ | with_reducible refine Act.Keeps.change_mem hP fun _ => ?_ | with_reducible refine Act.hold_keeps hP fun _ => ?_ | split | simp [hP])

theorem execYield_keeps (g : Guard) {s : State} {P : State → Prop} (hP : Quiet P) (hs : P s) : OutKeeps P (execYield g s) := by
  unfold execYield
  refine issue_keeps _ _ hP ?_ hs
  repeat' (first | with_reducible refine Act.Keeps.bind ?_ fun _ => ?_ | with_reducible refine Act.Keeps.change_mem hP fun _ => ?_ | with_reducible refine Act.hold_keeps hP fun _ => ?_ | split | simp [hP])

theorem execYieldExpiry_keeps (core : Nat) {s : State} {P : State → Prop} (hP : Quiet P) (hs : P s) : OutKeeps P (execYieldExpiry core s) := by
  unfold execYieldExpiry
  try dsimp only
  repeat' (first | with_reducible exact hs | split | exact hP _ _ (by simp) hs)

theorem execBPriorityPromotion_keeps (core slot : Nat) {s : State} {P : State → Prop} (hP : Quiet P) (hs : P s) : OutKeeps P (execBPriorityPromotion core slot s) := by
  unfold execBPriorityPromotion
  try dsimp only
  repeat' (first | with_reducible exact hs | split | exact hP _ _ (by simp) hs)

theorem execSleep_keeps (g : Guard) (n : BitVec 4) {s : State} {P : State → Prop} (hP : Quiet P) (hs : P s) : OutKeeps P (execSleep g n s) := by
  unfold execSleep
  refine issue_keeps _ _ hP ?_ hs
  repeat' (first | with_reducible refine Act.Keeps.bind ?_ fun _ => ?_ | with_reducible refine Act.Keeps.change_mem hP fun _ => ?_ | with_reducible refine Act.hold_keeps hP fun _ => ?_ | split | simp [hP])

theorem execSleepExpiry_keeps (loc : Nat) {s : State} {P : State → Prop} (hP : Quiet P) (hs : P s) : OutKeeps P (execSleepExpiry loc s) := by
  unfold execSleepExpiry
  try dsimp only
  repeat' (first | with_reducible exact hs | split | exact hP _ _ (by simp) hs)

theorem execEvpost_keeps (g : Guard) (a b : BitVec 4) {s : State} {P : State → Prop} (hP : Quiet P) (hs : P s) : OutKeeps P (execEvpost g a b s) := by
  unfold execEvpost
  refine issue_keeps _ _ hP ?_ hs
  repeat' (first | with_reducible refine Act.Keeps.bind ?_ fun _ => ?_ | with_reducible refine Act.Keeps.change_mem hP fun _ => ?_ | with_reducible refine Act.hold_keeps hP fun _ => ?_ | split | simp [hP])

end Sys2Proof.Machine
end

