-- ==== Sys2Proof/Laws/KeepsTraps.lean ====
section
/-! SUPPORT. What returning from a trap and disposing of one leave of memory. -/

namespace Sys2Proof.Machine

set_option Elab.async false
set_option linter.unusedTactic false
set_option linter.unreachableTactic false
set_option linter.unusedSimpArgs false
set_option linter.unusedVariables false

/-! ### Commands -/

@[simp] theorem setStatus_mem (s : State) (d slot status : Nat) : (setStatus s d slot status).mem = s.mem := by
  unfold setStatus
  repeat' (first | split | simp | rfl | refine (foldl_mem (fun _ _ => ?_) _ _).trans ?_)

/-- A command keeps what its body keeps. -/
theorem command_keeps (d slot op : Nat) {body : (Nat → Nat) → State → State × Option Nat} {P : State → Prop} (hP : Quiet P)
    (hb : ∀ w s, P s → P (body w s).1) {s : State} (hs : P s) : P (command s d slot op body) := by
  unfold command
  dsimp only
  split
  · exact hs
  · split
    · exact hP _ _ (by simp) hs
    · split
      · exact hP _ _ (by simp) hs
      · split
        · exact hs
        · generalize hx : body _ _ = x
          have h := hb ((s.dieAt d).dword slot)
            (s.setDie d { s.dieAt d with due := (s.dieAt d).due.drop 1 }) (hP _ _ (by simp) hs)
          rw [hx] at h
          obtain ⟨t, st⟩ := x
          cases st with
          | none => exact h
          | some n => exact hP _ _ (by simp) h

/-! ### Traps -/

@[simp] theorem resendAccess_mem (s : State) (loc k : Nat) (e : Ifr) : (resendAccess s loc k e).mem = s.mem := by
  unfold resendAccess
  repeat' (first | split | simp | rfl | refine (foldl_mem (fun _ _ => ?_) _ _).trans ?_)

@[simp] theorem returnCard_mem (s : State) (loc k : Nat) (e : Ifr) : (returnCard s loc k e).mem = s.mem := by
  unfold returnCard
  dsimp only
  split <;> rfl

@[simp] theorem resendTransfer_wf (s : State) (loc k : Nat) (e : Ifr) (t : TransferDesc) (h : s.mem.wf = true) :
    (resendTransfer s loc k e t).mem.wf = true := by
  unfold resendTransfer
  dsimp only
  repeat' (first | split | simp [h])

@[simp] theorem resend_wf (s : State) (loc k : Nat) (e : Ifr) (h : s.mem.wf = true) : (resend s loc k e).mem.wf = true := by
  unfold resend
  dsimp only
  split <;> (try split) <;> simp [h]

@[simp] theorem releaseAccess_mem (s : State) (loc k : Nat) (e : Ifr) : (releaseAccess s loc k e).mem = s.mem := by
  unfold releaseAccess
  repeat' (first | split | simp | rfl | refine (foldl_mem (fun _ _ => ?_) _ _).trans ?_)

@[simp] theorem failEntry_wf (s : State) (loc k : Nat) (e : Ifr) (h : s.mem.wf = true) : (failEntry s loc k e).mem.wf = true := by
  unfold failEntry
  dsimp only
  split <;> simp [h]

@[simp] theorem settleEntries_wf (s : State) (loc : Nat) (retry : Bool) (h : s.mem.wf = true) : (settleEntries s loc retry).mem.wf = true := by
  unfold settleEntries
  refine foldl_wf (fun t e h => ?_) _ h
  repeat' (first | split | simp [h])

theorem execAsynchronousTrap_inv (loc code info aux : Nat) {s : State} (hs : s.Inv) : OutKeeps State.Inv (execAsynchronousTrap loc code info aux s) := by
  have h : s.mem.wf = true := hs
  unfold execAsynchronousTrap
  dsimp only
  split
  · split
    · simp only [OutKeeps.next, State.Inv]
      split <;> simp [h]
    · exact hs
  · split <;> simp [h, State.Inv]
  · split <;> simp [h, State.Inv]
  · split
    · exact hs
    · split
      · simp [h, State.Inv]
      · split <;> simp [h, State.Inv]

@[simp] theorem release_mem (s : State) (loc : Nat) : (release s loc).mem = s.mem := by
  unfold release
  repeat' (first | split | simp | rfl | refine (foldl_mem (fun _ _ => ?_) _ _).trans ?_)

@[simp] theorem endTask_mem (s : State) (loc : Nat) : (endTask s loc).mem = s.mem := by
  unfold endTask
  repeat' (first | split | simp | rfl | refine (foldl_mem (fun _ _ => ?_) _ _).trans ?_)

@[simp] theorem dispose_wf (s : State) (loc mode : Nat) (h : s.mem.wf = true) : (dispose s loc mode).mem.wf = true := by
  unfold dispose
  try dsimp only
  repeat' (first | with_reducible exact h | split | simp [*] | refine foldl_wf (fun _ _ _ => ?_) _ ?_)

theorem execDisposeTrap_inv (die slot : Nat) {s : State} (hs : s.Inv) : OutKeeps State.Inv (execDisposeTrap die slot s) := by
  refine command_keeps die slot 1 Quiet.inv (fun w s h => ?_) hs
  have h' : s.mem.wf = true := h
  dsimp only
  repeat' (first | exact h | split | simp [h', State.Inv])

theorem execTrap_keeps (g : Guard) (imm : BitVec 16) {s : State} {P : State → Prop} (hP : Quiet P) (hs : P s) : OutKeeps P (execTrap g imm s) := by
  unfold execTrap
  refine issue_keeps _ _ hP ?_ hs
  repeat' (first | with_reducible refine Act.Keeps.bind ?_ fun _ => ?_ | with_reducible refine Act.Keeps.change_mem hP fun _ => ?_ | split | simp [hP])

@[simp] theorem landHandler_mem (s : State) (loc : Nat) : (landHandler s loc).mem = s.mem := by
  unfold landHandler
  repeat' (first | split | simp | rfl | refine (foldl_mem (fun _ _ => ?_) _ _).trans ?_)

theorem execEret_inv (g : Guard) (mode : BitVec 2) {s : State} (hs : s.Inv) : OutKeeps State.Inv (execEret g mode s) := by
  refine issueWith_keeps _ g Quiet.inv (fun s h => ?_) ?_ hs
  · have h' : s.mem.wf = true := h
    show (dispose _ _ _).mem.wf = true
    simp [h']
  · exact Act.Keeps.bind (by simp) fun _ => Act.Keeps.bind (by simp) fun _ => by simp

@[simp] theorem supervisorTarget_keeps (t : BitVec 4) {P : State → Prop} (hP : Quiet P) : (supervisorTarget t).Keeps P := by
  unfold supervisorTarget
  repeat' (first | with_reducible refine Act.Keeps.bind ?_ fun _ => ?_ | with_reducible refine Act.Keeps.change_mem hP fun _ => ?_ | split | simp [hP])

theorem execEretT_inv (g : Guard) (mode : BitVec 2) (t : BitVec 4) {s : State} (hs : s.Inv) : OutKeeps State.Inv (execEretT g mode t s) := by
  unfold execEretT
  refine issue_keeps _ _ Quiet.inv ?_ hs
  repeat' (first | with_reducible refine Act.Keeps.bind ?_ fun _ => ?_ | split | simp [*] | (with_reducible refine Act.Keeps.change_wf fun _ _ => ?_))

end Sys2Proof.Machine
end

