-- ==== Sys2Proof/Laws/KeepsPreempt.lean ====
section
/-! SUPPORT. What saving and restoring leave of memory. -/

namespace Sys2Proof.Machine

set_option Elab.async false
set_option linter.unusedTactic false
set_option linter.unreachableTactic false
set_option linter.unusedSimpArgs false
set_option linter.unusedVariables false

/-! ### Preempt -/

@[simp] theorem freezeNow_mem (s : State) (loc : Nat) : (freezeNow s loc).mem = s.mem := by
  unfold freezeNow
  repeat' (first | split | simp | rfl | refine (foldl_mem (fun _ _ => ?_) _ _).trans ?_)

@[simp] theorem endSliceOf_mem (vd : Nat) (s : State) (loc : Nat) : (endSliceOf vd s loc).mem = s.mem := by
  unfold endSliceOf
  repeat' (first | split | simp | rfl | refine (foldl_mem (fun _ _ => ?_) _ _).trans ?_)

theorem execSliceGraceExpiry_keeps (loc : Nat) {s : State} {P : State → Prop} (hP : Quiet P) (hs : P s) : OutKeeps P (execSliceGraceExpiry loc s) := by
  unfold execSliceGraceExpiry
  try dsimp only
  repeat' (first | with_reducible exact hs | split | exact hP _ _ (by simp) hs)

@[simp] theorem discardOrigin_mem (s : State) (origin epoch : Nat) (ok : Packet → Bool) : (discardOrigin s origin epoch ok).mem = s.mem := by
  unfold discardOrigin
  repeat' (first | split | simp | rfl | refine (foldl_mem (fun _ _ => ?_) _ _).trans ?_)

@[simp] theorem discardFor_mem (s : State) (loc : Nat) (ok : Packet → Bool) : (discardFor s loc ok).mem = s.mem := by
  unfold discardFor
  exact foldl_mem (fun _ _ => discardOrigin_mem _ _ _ _) _ _

theorem execWithdrawReceive_keeps (loc ep : Nat) {s : State} {P : State → Prop} (hP : Quiet P) (hs : P s) : OutKeeps P (execWithdrawReceive loc ep s) := by
  unfold execWithdrawReceive
  try dsimp only
  repeat' (first | with_reducible exact hs | split | exact hP _ _ (by simp) hs)

theorem execWithdrawAck_keeps (loc ep : Nat) {s : State} {P : State → Prop} (hP : Quiet P) (hs : P s) : OutKeeps P (execWithdrawAck loc ep s) := by
  unfold execWithdrawAck
  try dsimp only
  repeat' (first | with_reducible exact hs | split | exact hP _ _ (by first | rfl | simp) hs)

@[simp] theorem leaveSaved_mem (s : State) (loc : Nat) : (leaveSaved s loc).mem = s.mem := rfl

@[simp] theorem loadContext_mem (s : State) (loc : Nat) (x : Saved) : (loadContext s loc x).mem = s.mem := by
  unfold loadContext
  repeat' (first | split | simp | rfl | refine (foldl_mem (fun _ _ => ?_) _ _).trans ?_)

@[simp] theorem resendAll_wf (s : State) (loc : Nat) (h : s.mem.wf = true) : (resendAll s loc).mem.wf = true := by
  unfold resendAll
  exact foldl_wf (fun _ _ h => resend_wf _ _ _ _ h) _ h

@[simp] theorem resume_wf (s : State) (loc : Nat) (h : s.mem.wf = true) : (resume s loc).mem.wf = true := by
  unfold resume
  dsimp only
  rw [State.setSeq_mem]
  exact resendAll_wf _ _ h

@[simp] theorem pagesOf_keeps (va : Nat) (write : Bool) (n : Nat) {P : State → Prop} (hP : Quiet P) :
    (pagesOf va write n).Keeps P := by
  induction n with
  | zero => exact Act.Keeps.ret _
  | succ n ih =>
    unfold pagesOf
    exact Act.Keeps.bind ih fun _ => Act.Keeps.bind (by simp [hP]) fun _ => Act.Keeps.ret _

@[simp] theorem contextAddr_keeps (a : BitVec 4) (write : Bool) {P : State → Prop} (hP : Quiet P) : (contextAddr a write).Keeps P := by
  unfold contextAddr
  repeat' (first | with_reducible refine Act.Keeps.bind ?_ fun _ => ?_ | with_reducible refine Act.Keeps.change_mem hP fun _ => ?_ | split | simp [hP])

@[simp] theorem startJob_mem (s : State) (j : SaveJob) : (startJob s j).mem = s.mem := rfl

@[simp] theorem contextOperands_keeps (t a : BitVec 4) (write : Bool) {P : State → Prop} (hP : Quiet P) :
    (contextOperands t a write).Keeps P := by
  refine latched_keeps _ ?_
  repeat' (first | with_reducible refine Act.Keeps.bind ?_ fun _ => ?_ | split | simp [hP])

theorem beginContext_keeps (v : Nat) (load : Bool) {f : State → State} {P : State → Prop} (hP : Quiet P) (hf : ∀ s, (f s).mem = s.mem) :
    (beginContext v load f).Keeps P := by
  refine Act.Keeps.bind (Act.Keeps.await _) fun _ => Act.hold_keeps hP fun s => ?_
  dsimp only
  rw [startJob_mem, State.setMe_mem, hf]

theorem execCtxsave_keeps (g : Guard) (t a : BitVec 4) {s : State} {P : State → Prop} (hP : Quiet P) (hs : P s) : OutKeeps P (execCtxsave g t a s) := by
  unfold execCtxsave
  refine issue_keeps _ _ hP ?_ hs
  refine Act.Keeps.bind (contextOperands_keeps _ _ _ hP) fun v => Act.Keeps.bind (Act.Keeps.view _) fun s => Act.Keeps.ite ?_ ?_
  · exact beginContext_keeps _ _ hP fun _ => freezeNow_mem _ _
  · exact Act.Keeps.bind (Act.Keeps.await _) fun _ => Act.Keeps.change_mem hP fun _ => rfl

theorem execCtxload_inv (g : Guard) (t a : BitVec 4) (go : Bool) {s : State} (hs : s.Inv) : OutKeeps State.Inv (execCtxload g t a go s) := by
  unfold execCtxload
  refine issue_keeps _ _ Quiet.inv ?_ hs
  refine Act.Keeps.bind (contextOperands_keeps _ _ _ Quiet.inv) fun v => Act.Keeps.bind (Act.Keeps.view _) fun s => Act.Keeps.ite ?_ ?_
  · exact Act.Keeps.bind (Act.Keeps.check _ _ _) fun _ => Act.Keeps.bind (Act.Keeps.await _) fun _ =>
      beginContext_keeps _ _ Quiet.inv fun _ => rfl
  · refine Act.Keeps.bind (Act.Keeps.await _) fun _ => Act.Keeps.bind (Act.Keeps.change_mem Quiet.inv fun _ => rfl) fun _ =>
      Act.Keeps.bind (Act.Keeps.view _) fun s => ?_
    split
    · exact fun _ h => h
    · refine Act.Keeps.change_wf fun s h => ?_
      dsimp only
      repeat' (first | split | simp [h])

theorem execPimg_inv (g : Guard) (t a : BitVec 4) {s : State} (hs : s.Inv) : OutKeeps State.Inv (execPimg g t a s) := by
  unfold execPimg
  refine issue_keeps _ _ Quiet.inv ?_ hs
  repeat' (first | with_reducible refine Act.Keeps.bind ?_ fun _ => ?_ | split | simp [*] | (with_reducible refine Act.Keeps.change_wf fun _ _ => ?_))

theorem blankStep_wf (t : State) (c lo n : Nat) (ms : List Nat) (h : t.mem.wf = true) :
    ({ ((t.setMem (t.mem.erase lo n)).setCore c Core.reset).setEp c Endpoint.reset with marks := ms } : State).mem.wf = true :=
  Memory.wf_erase h lo n

@[simp] theorem blankPartition_wf (s : State) (part : Nat) (h : s.mem.wf = true) : (blankPartition s part).mem.wf = true := by
  unfold blankPartition
  dsimp only
  rw [State.setDie_mem, State.setQuad_mem]
  exact foldl_wf (fun t j h => blankStep_wf t _ _ _ _ h) _ h

@[simp] theorem withhold_mem (s : State) (die : Nat) : (withhold s die).mem = s.mem := rfl

@[simp] theorem finishSave_wf (s : State) (j : SaveJob) (h : s.mem.wf = true) : (finishSave s j).mem.wf = true := by
  unfold finishSave
  split
  · exact h
  · dsimp only
    rw [withhold_mem]
    refine blankPartition_wf _ _ (foldl_wf (fun t loc h => ?_) _ h)
    rw [leaveSaved_mem]
    exact h

theorem storeCells_wf (l : Memory) (f : Nat → Nat) {m : Memory} (h : m.wf = true) :
    Memory.wf (l.foldl (fun m b => m.store (f b.1) b.2) m) = true := by
  induction l generalizing m with
  | nil => exact h
  | cons e l ih => exact ih (Memory.wf_store h _ _)

theorem loadStep_wf (t : State) (c : Nat) (k : Core) (e : Endpoint) (l : Memory) (f : Nat → Nat) (h : t.mem.wf = true) :
    (((t.setCore c k).setEp c e).setMem (l.foldl (fun m b => m.store (f b.1) b.2) t.mem)).mem.wf = true :=
  storeCells_wf l f h

@[simp] theorem loadImage_wf (s : State) (part : Nat) (x : Image) (h : s.mem.wf = true) : (loadImage s part x).mem.wf = true := by
  unfold loadImage
  dsimp only
  rw [State.setQuad_mem]
  exact foldl_wf (fun t j h => loadStep_wf t _ _ _ _ (fun b => localPhys _ _ _ + (b - 0x800000 * j)) h) _ (blankPartition_wf s part h)

@[simp] theorem restoreContext_mem (j : SaveJob) (s : State) (i : Nat) : (restoreContext j s i).mem = s.mem := by
  unfold restoreContext
  repeat' (first | split | simp | rfl | refine (foldl_mem (fun _ _ => ?_) _ _).trans ?_)

@[simp] theorem finishRestore_wf (s : State) (j : SaveJob) (h : s.mem.wf = true) : (finishRestore s j).mem.wf = true := by
  unfold finishRestore
  split
  · exact h
  · split
    · exact h
    · dsimp only
      refine foldl_wf (fun t loc h => resume_wf _ _ h) _ ?_
      rw [State.setQuad_mem]
      refine foldl_wf (fun t i h => ?_) _ (loadImage_wf _ _ _ h)
      rw [restoreContext_mem]
      exact h

theorem clearSeqs_mem (l : List Nat) (f : State → Nat → Seq) (s : State) :
    (l.foldl (fun t loc => t.setSeq loc (f t loc)) s).mem = s.mem :=
  foldl_mem (fun t n => State.setSeq_mem t n (f t n)) l s

@[simp] theorem resetDevice_wf (s : State) (vd : Nat) (h : s.mem.wf = true) : (resetDevice s vd).mem.wf = true := by
  unfold resetDevice
  dsimp only
  rw [foldl_mem (fun _ _ => withhold_mem _ _), offerLaunches_mem, State.setVd_mem]
  refine foldl_wf (fun t p h => ?_) _ h
  rw [clearSeqs_mem _ (fun t loc => { Seq.reset with starts := (t.seqAt loc).starts })]
  exact blankPartition_wf _ _ h

@[simp] theorem abortSave_wf (s : State) (die : Nat) (j : SaveJob) (h : s.mem.wf = true) : (abortSave s die j).mem.wf = true := by
  unfold abortSave
  dsimp only
  rw [foldl_mem (fun _ _ => postFatal_mem _ _ _ _), foldl_mem (fun _ _ => setStatus_mem _ _ _ _)]
  exact resetDevice_wf _ _ h

@[simp] theorem jobStatus_mem (s : State) (j : SaveJob) : (jobStatus s j).mem = s.mem := by
  unfold jobStatus
  repeat' (first | split | simp | rfl | refine (foldl_mem (fun _ _ => ?_) _ _).trans ?_)

@[simp] theorem writeBlock_wf (s : State) (j : SaveJob) (off : Nat) (b : List Byte) (h : s.mem.wf = true) :
    (writeBlock s j off b).mem.wf = true := by
  unfold writeBlock
  dsimp only
  repeat' (first | exact h | split | simp [h])

@[simp] theorem writeHeader_wf (s : State) (j : SaveJob) (loc off : Nat) (h : s.mem.wf = true) :
    (writeHeader s j loc off).mem.wf = true := writeBlock_wf _ _ _ _ h

@[simp] theorem endJob_wf (s : State) (die : Nat) (j : SaveJob) (h : s.mem.wf = true) : (endJob s die j).mem.wf = true := by
  unfold endJob
  dsimp only
  rw [jobStatus_mem]
  split
  · exact finishRestore_wf _ _ h
  · exact finishSave_wf _ _ h

theorem execSaveStep_inv (die : Nat) {s : State} (hs : s.Inv) : OutKeeps State.Inv (execSaveStep die s) := by
  have h : s.mem.wf = true := hs
  unfold execSaveStep
  split
  · exact hs
  · dsimp only
    split
    · exact hs
    · split
      · exact abortSave_wf _ _ _ h
      · split
        · split
          · exact h
          · exact endJob_wf _ _ _ h
        · split
          · exact writeBlock_wf _ _ _ _ h
          · simp only [OutKeeps.next, State.Inv]
            split <;> split <;> simp [h]

theorem startSave_mem (die slot : Nat) {f : State → Nat → State} (hf : ∀ s n, (f s n).mem = s.mem) (w : Nat → Nat) (s : State) :
    (startSave die slot f w s).1.mem = s.mem := by
  unfold startSave
  split
  · rfl
  · split
    · rfl
    · simp only [startJob_mem]
      exact foldl_mem hf _ _

theorem execSavePartition_keeps (die slot : Nat) {s : State} {P : State → Prop} (hP : Quiet P) (hs : P s) :
    OutKeeps P (execSavePartition die slot s) := by
  unfold execSavePartition
  split
  · exact hs
  · exact command_keeps die slot 3 hP (fun w s h => hP _ _ (startSave_mem _ _ (fun _ _ => by simp) _ _) h) hs

theorem execEndSlice_keeps (die slot : Nat) {s : State} {P : State → Prop} (hP : Quiet P) (hs : P s) :
    OutKeeps P (execEndSlice die slot s) := by
  unfold execEndSlice
  split
  · exact hs
  · exact command_keeps die slot 5 hP (fun w s h => hP _ _ (startSave_mem _ _ (fun _ _ => by simp) _ _) h) hs

theorem execRestorePartition_inv (die slot : Nat) {s : State} (hs : s.Inv) : OutKeeps State.Inv (execRestorePartition die slot s) := by
  unfold execRestorePartition
  split
  · exact hs
  · refine command_keeps die slot 4 Quiet.inv (fun w s h => ?_) hs
    dsimp only
    split
    · exact h
    · split
      · exact h
      · split
        · exact Quiet.inv _ _ (startJob_mem _ _) h
        · exact Quiet.inv _ _ (State.setQuad_mem _ _ _) (blankPartition_wf _ _ h)

theorem execHorizonPublish_keeps (loc : Nat) {s : State} {P : State → Prop} (hP : Quiet P) (hs : P s) : OutKeeps P (execHorizonPublish loc s) := by
  unfold execHorizonPublish
  try dsimp only
  repeat' (first | with_reducible exact hs | split | exact hP _ _ (by simp) hs)

theorem execHorizonRetire_keeps (ep loc : Nat) {s : State} {P : State → Prop} (hP : Quiet P) (hs : P s) : OutKeeps P (execHorizonRetire ep loc s) := by
  unfold execHorizonRetire
  try dsimp only
  repeat' (first | with_reducible exact hs | split | exact hP _ _ (by simp) hs)

end Sys2Proof.Machine
end

