-- ==== Sys2Proof/Laws/KeepsLinks.lean ====
section
/-! SUPPORT. What links and the outside world leave of memory. -/

namespace Sys2Proof.Machine

set_option Elab.async false
set_option linter.unusedTactic false
set_option linter.unreachableTactic false
set_option linter.unusedSimpArgs false
set_option linter.unusedVariables false

/-! ### Links -/

@[simp] theorem State.setLink_mem (s : State) (l : Nat) (k : Link) : (State.setLink s l k).mem = s.mem := by
  unfold State.setLink
  repeat' (first | split | simp | rfl | refine (foldl_mem (fun _ _ => ?_) _ _).trans ?_)

@[simp] theorem loseEntry_mem (info : Nat) (s : State) (p : Packet) : (loseEntry info s p).mem = s.mem := by
  unfold loseEntry
  repeat' (first | split | simp | rfl | refine (foldl_mem (fun _ _ => ?_) _ _).trans ?_)

@[simp] theorem killLink_mem (s : State) (l : Nat) : (killLink s l).mem = s.mem := by
  unfold killLink
  repeat' (first | split | simp | rfl | refine (foldl_mem (fun _ _ => ?_) _ _).trans ?_)

@[simp] theorem offerNear_mem (s : State) (p : Packet) : (offerNear s p).mem = s.mem := by
  unfold offerNear
  repeat' (first | split | simp | rfl | refine (foldl_mem (fun _ _ => ?_) _ _).trans ?_)

@[simp] theorem offerStation_mem (s : State) (p : Packet) : (offerStation s p).mem = s.mem := by
  unfold offerStation
  repeat' (first | split | simp | rfl | refine (foldl_mem (fun _ _ => ?_) _ _).trans ?_)

@[simp] theorem offerLink_mem (s : State) (p : Packet) : (offerLink s p).mem = s.mem := by
  unfold offerLink
  repeat' (first | split | simp | rfl | refine (foldl_mem (fun _ _ => ?_) _ _).trans ?_)

theorem execPacketOffer_keeps (pk : Nat) {s : State} {P : State → Prop} (hP : Quiet P) (hs : P s) : OutKeeps P (execPacketOffer pk s) := by
  unfold execPacketOffer
  try dsimp only
  repeat' (first | with_reducible exact hs | split | exact hP _ _ (by simp) hs)

@[simp] theorem takeFrame_mem (s : State) (l : Nat) (f : LinkFrame) : (takeFrame s l f).mem = s.mem := by
  unfold takeFrame
  repeat' (first | split | simp | rfl | refine (foldl_mem (fun _ _ => ?_) _ _).trans ?_)

theorem execLinkPacketReceive_keeps (link : Nat) (f : LinkFrame) {s : State} {P : State → Prop} (hP : Quiet P) (hs : P s) : OutKeeps P (execLinkPacketReceive link f s) := by
  unfold execLinkPacketReceive
  try dsimp only
  repeat' (first | with_reducible exact hs | split | exact hP _ _ (by simp) hs)

theorem execLinkAck_keeps (link seq : Nat) {s : State} {P : State → Prop} (hP : Quiet P) (hs : P s) : OutKeeps P (execLinkAck link seq s) := by
  unfold execLinkAck
  try dsimp only
  repeat' (first | with_reducible exact hs | split | exact hP _ _ (by simp) hs)

theorem execLaneFailure_keeps (link lane : Nat) {s : State} {P : State → Prop} (hP : Quiet P) (hs : P s) : OutKeeps P (execLaneFailure link lane s) := by
  unfold execLaneFailure
  try dsimp only
  repeat' (first | with_reducible exact hs | split | exact hP _ _ (by simp) hs)

theorem execLinkRetrained_keeps (link : Nat) {s : State} {P : State → Prop} (hP : Quiet P) (hs : P s) : OutKeeps P (execLinkRetrained link s) := by
  unfold execLinkRetrained
  try dsimp only
  repeat' (first | with_reducible exact hs | split | exact hP _ _ (by simp) hs)

theorem execLinkRetrainTimeout_keeps (link : Nat) {s : State} {P : State → Prop} (hP : Quiet P) (hs : P s) : OutKeeps P (execLinkRetrainTimeout link s) := by
  unfold execLinkRetrainTimeout
  try dsimp only
  repeat' (first | with_reducible exact hs | split | exact hP _ _ (by simp) hs)

theorem execLinkTraining_keeps (link version : Nat) (modules : List Nat) {s : State} {P : State → Prop} (hP : Quiet P) (hs : P s) : OutKeeps P (execLinkTraining link version modules s) := by
  unfold execLinkTraining
  try dsimp only
  repeat' (first | with_reducible exact hs | split | exact hP _ _ (by simp) hs)

theorem execRetrainLink_keeps (die slot : Nat) {s : State} {P : State → Prop} (hP : Quiet P) (hs : P s) :
    OutKeeps P (execRetrainLink die slot s) := by
  refine command_keeps die slot 6 hP (fun w s h => ?_) hs
  try dsimp only
  repeat' (first | with_reducible exact h | split | exact hP _ _ (by simp) h)

theorem execRingSkewMeasure_keeps (station cw ccw : Nat) {s : State} {P : State → Prop} (hP : Quiet P) (hs : P s) : OutKeeps P (execRingSkewMeasure station cw ccw s) := by
  unfold execRingSkewMeasure
  try dsimp only
  repeat' (first | with_reducible exact hs | split | exact hP _ _ (by simp) hs)

theorem execMinimumShareSetting_keeps (station vd cls slots : Nat) {s : State} {P : State → Prop} (hP : Quiet P) (hs : P s) : OutKeeps P (execMinimumShareSetting station vd cls slots s) := by
  unfold execMinimumShareSetting
  try dsimp only
  repeat' (first | with_reducible exact hs | split | exact hP _ _ (by simp) hs)

/-! ### Outside -/

theorem execDiscardParkedTransfer_inv (die slot : Nat) {s : State} (hs : s.Inv) : OutKeeps State.Inv (execDiscardParkedTransfer die slot s) := by
  refine command_keeps die slot 2 Quiet.inv (fun w s h => ?_) hs
  have h' : s.mem.wf = true := h
  try dsimp only
  repeat' (first | with_reducible exact h | split | simp [State.Inv, h'])

theorem execFunctionLevelReset_inv (die slot : Nat) {s : State} (hs : s.Inv) : OutKeeps State.Inv (execFunctionLevelReset die slot s) := by
  refine command_keeps die slot 7 Quiet.inv (fun w s h => ?_) hs
  have h' : s.mem.wf = true := h
  try dsimp only
  repeat' (first | with_reducible exact h | split | simp [State.Inv, h'])

theorem execWriteVdRegister_keeps (die slot : Nat) {s : State} {P : State → Prop} (hP : Quiet P) (hs : P s) :
    OutKeeps P (execWriteVdRegister die slot s) := by
  refine command_keeps die slot 8 hP (fun w s h => ?_) hs
  try dsimp only
  repeat' (first | with_reducible exact h | split | exact hP _ _ (by simp) h)

theorem execTransInv_keeps (die slot : Nat) {s : State} {P : State → Prop} (hP : Quiet P) (hs : P s) :
    OutKeeps P (execTransInv die slot s) := by
  refine command_keeps die slot 9 hP (fun w s h => ?_) hs
  try dsimp only
  repeat' (first | with_reducible exact h | split | exact hP _ _ (by simp) h)

theorem reportStep_wf (s t : State) (a n : Nat) (b : List Byte) (l : List Nat) (h : s.mem.wf = true) :
    ({ clearMarks (s.setMem (s.mem.storeAll a b)) l with lmsLeaf := n } : State).mem.wf = true := by
  rw [show ({ clearMarks (s.setMem (s.mem.storeAll a b)) l with lmsLeaf := n } : State).mem = s.mem.storeAll a b from rfl]
  exact Memory.wf_storeAll h _ _

theorem execAttestationReport_inv (die slot : Nat) {s : State} (hs : s.Inv) :
    OutKeeps State.Inv (execAttestationReport die slot s) := by
  refine command_keeps die slot 10 Quiet.inv (fun w s h => ?_) hs
  dsimp only
  split
  · exact h
  · split
    · exact h
    · exact reportStep_wf s s _ _ _ _ h

@[simp] theorem storeCommand_mem (s : State) (die i : Nat) (x : Word) : (storeCommand s die i x).mem = s.mem := by
  unfold storeCommand
  repeat' (first | split | simp | rfl | refine (foldl_mem (fun _ _ => ?_) _ _).trans ?_)

@[simp] theorem storeRing_mem (s : State) (die i : Nat) (x : Nat) : (storeRing s die i x).mem = s.mem := by
  unfold storeRing
  repeat' (first | split | simp | rfl | refine (foldl_mem (fun _ _ => ?_) _ _).trans ?_)

@[simp] theorem storeView_mem (s : State) (loc o x : Nat) : (storeView s loc o x).mem = s.mem := by
  unfold storeView
  repeat' (first | split | simp | rfl | refine (foldl_mem (fun _ _ => ?_) _ _).trans ?_)

theorem storeMarked_wf (s : State) (a : Nat) (b : List Byte) (l : List Nat) (h : s.mem.wf = true) :
    (clearMarks (s.setMem (s.mem.storeAll a b)) l).mem.wf = true := by
  simp [h]

@[simp] theorem State.reset_mem : State.reset.mem = [] := rfl

@[simp] theorem afterReset_wf (s : State) (boot : Nat) (images : List Nat) (ready : Bool) (h : s.mem.wf = true) :
    (afterReset s boot images ready).mem.wf = true := by
  unfold afterReset
  dsimp only
  split
  · rw [offerLaunches_mem]
    rfl
  · exact h

@[simp] theorem moduleReset_wf (images : List Nat) (s : State) (h : s.mem.wf = true) : (moduleReset images s).mem.wf = true :=
  afterReset_wf _ _ _ _ h

theorem execHostStateStore_inv (die offset : Nat) (value : Word) {s : State} (hs : s.Inv) :
    OutKeeps State.Inv (execHostStateStore die offset value s) := by
  have h : s.mem.wf = true := hs
  unfold execHostStateStore
  dsimp only
  split
  · exact hs
  split
  · simp only [OutKeeps.next, State.Inv]
    split
    · exact moduleReset_wf _ _ h
    · exact h
  split
  · exact hs
  split
  · exact Quiet.inv _ _ (storeCommand_mem _ _ _ _) hs
  split
  · exact Quiet.inv _ _ (storeRing_mem _ _ _ _) hs
  split
  · exact Quiet.inv _ _ (storeView_mem _ _ _ _) hs
  split
  · exact storeMarked_wf s _ _ _ hs
  · exact hs

@[simp] theorem dropPhysical_wf (s : State) (addr n : Nat) (h : s.mem.wf = true) : (dropPhysical s addr n).mem.wf = true := by
  unfold dropPhysical
  refine foldl_wf (fun t e h => foldl_wf (fun u l h => ?_) _ h) _ h
  dsimp only
  repeat' (first | exact h | exact dropLines_wf _ _ _ _ _ h | split)

theorem execHostMemoryAccess_inv (addr : Nat) (write : Bool) (data : List Byte) {s : State} (hs : s.Inv) : OutKeeps State.Inv (execHostMemoryAccess addr write data s) := by
  have h : s.mem.wf = true := hs
  have h' := dropPhysical_wf s addr data.length h
  unfold execHostMemoryAccess
  dsimp only
  repeat' (first | with_reducible exact hs | split | simp [h, h', State.Inv])

theorem execRangeTableInstall_keeps (vd : Nat) (entries : List RangeEntry) {s : State} {P : State → Prop} (hP : Quiet P) (hs : P s) : OutKeeps P (execRangeTableInstall vd entries s) := by
  unfold execRangeTableInstall
  try dsimp only
  repeat' (first | with_reducible exact hs | split | exact hP _ _ (by simp) hs)

theorem execVirtualDeviceCreation_keeps (vd : Nat) (partitions : List Nat) {s : State} {P : State → Prop} (hP : Quiet P)
    (hs : P s) : OutKeeps P (execVirtualDeviceCreation vd partitions s) := by
  have hf : ∀ (l : List Nat) (t : State),
      (l.foldl (fun t p => t.setQuad (p % 64) { t.quadAt (p % 64) with resident := some 0 }) t).mem = t.mem :=
    fun l t => foldl_mem (fun t p => State.setQuad_mem t _ _) l t
  unfold execVirtualDeviceCreation
  dsimp only
  split
  · exact hs
  · split
    · split
      · refine hP _ _ ?_ hs
        rw [hf]
        rfl
      · exact hs
    · split
      · exact hs
      · exact hP s _ rfl hs

theorem execCorrectedError_keeps (die : Nat) {s : State} {P : State → Prop} (hP : Quiet P) (hs : P s) : OutKeeps P (execCorrectedError die s) := by
  unfold execCorrectedError
  try dsimp only
  repeat' (first | with_reducible exact hs | split | exact hP _ _ (by simp) hs)

theorem execUncorrectableError_keeps (addr : Nat) {s : State} {P : State → Prop} (hP : Quiet P) (hs : P s) : OutKeeps P (execUncorrectableError addr s) := by
  unfold execUncorrectableError
  try dsimp only
  repeat' (first | with_reducible exact hs | split | exact hP _ _ (by simp) hs)

theorem execModuleReset_inv (images : List Nat) {s : State} (hs : s.Inv) : OutKeeps State.Inv (execModuleReset images s) := by
  have h : s.mem.wf = true := hs
  unfold execModuleReset
  try dsimp only
  repeat' (first | with_reducible exact hs | split | simp [h, State.Inv] | refine foldl_wf (fun _ _ _ => ?_) _ ?_)

theorem execPowerOff_inv {s : State} (hs : s.Inv) : OutKeeps State.Inv (execPowerOff s) := by
  simp only [execPowerOff, OutKeeps.next, State.Inv]
  rfl

end Sys2Proof.Machine
end

