-- ==== Sys2Proof/Laws/KeepsStep.lean ====
section
/-! SUPPORT. What the choice of the next move and the placing of a bundle leave of memory. -/

namespace Sys2Proof.Machine

set_option Elab.async false
set_option linter.unusedTactic false
set_option linter.unreachableTactic false
set_option linter.unusedSimpArgs false
set_option linter.unusedVariables false

/-! ### Schedule -/

@[simp] theorem clearStalls_mem (s : State) : (clearStalls s).mem = s.mem := by
  unfold clearStalls
  repeat' (first | split | simp | rfl | refine (foldl_mem (fun _ _ => ?_) _ _).trans ?_)

@[simp] theorem defaultMove_mem (s : State) : (defaultMove s).2.mem = s.mem := by
  unfold defaultMove
  repeat' (first | split | simp | rfl | refine (foldl_mem (fun _ _ => ?_) _ _).trans ?_)

/-! ### Fetch -/

@[simp] theorem placeBundle_wf (s : State) (b : Bundle) (h : s.mem.wf = true) : (placeBundle s b).mem.wf = true := by
  unfold placeBundle
  try dsimp only
  repeat' (first | with_reducible exact h | split | simp [*] | refine foldl_wf (fun _ _ _ => ?_) _ ?_)

/-! ### A slot's turn -/

/-- The state of a turn has a property. -/
def TurnIn (P : State → Prop) : Turn → Prop
  | .run _ t => P t
  | .over t => P t

@[simp] theorem TurnIn.run (P : State → Prop) (i : Instr) (t : State) : TurnIn P (.run i t) = P t := rfl
@[simp] theorem TurnIn.over (P : State → Prop) (t : State) : TurnIn P (.over t) = P t := rfl

theorem TurnIn.ite {P : State → Prop} {c : Prop} [Decidable c] {a b : Turn} (ha : TurnIn P a) (hb : TurnIn P b) :
    TurnIn P (if c then a else b) := by
  split <;> assumption

theorem turnAt_keeps (s : State) (loc : Nat) (x : Slot) {P : State → Prop} (hP : Quiet P) (hs : P s) :
    TurnIn P (turnAt s loc x) := by
  have h0 : P { s with cur := ⟨loc, x⟩ } := hP s _ rfl hs
  unfold turnAt
  dsimp only
  generalize ({ s with cur := ⟨loc, x⟩ } : State) = s' at h0 ⊢
  have h1 : P (stallHere s') := hP _ _ (by simp) h0
  have h2 (i : Instr) : P (voidIssue i s') := hP _ _ (by simp) h0
  have h3 : P (trapHere s' 0x01 0) := hP _ _ (by simp) h0
  refine .ite h1 (.ite h1 (.ite h1 (.ite h1 (.ite h1 (.ite (.ite (h2 _) h0) (.ite (.ite (h2 _) h3) (.ite h0 ?_)))))))
  split
  · exact h0
  · exact .ite (h2 _) h3

theorem turn_keeps (s : State) (loc : Nat) (x : Slot) {P : State → Prop} (hP : Quiet P) (hs : P s) :
    TurnIn P (turn s loc x) := by
  have h0 : P { s with cur := ⟨loc, x⟩ } := hP s _ rfl hs
  unfold turn
  dsimp only
  generalize ({ s with cur := ⟨loc, x⟩ } : State) = s' at h0 ⊢
  have h1 : P (stallHere s') := hP _ _ (by simp) h0
  have h2 : P (refill s' loc) := hP _ _ (refill_mem _ _) h0
  refine .ite h0 (.ite h1 (.ite (.ite (turnAt_keeps _ _ _ hP h2) ?_) (.ite h1 ?_)))
  · split
    · exact turnAt_keeps _ _ _ hP (hP _ _ (fetchAgain_mem _ _ _ ‹_›) h2)
    · exact hP _ _ (fetchFails_mem _ _ _ _ _) h2
  · split
    · exact turnAt_keeps _ _ _ hP (hP _ _ (fetchNext_mem _ _ ‹_›) h0)
    · exact hP _ _ (fetchFails_mem _ _ _ _ _) h0

/-! ### Merge -/

@[simp] theorem endCount_mem (s : State) (core : Nat) (x : Slot) : (endCount s core x).mem = s.mem := by
  unfold endCount
  dsimp only
  split <;> rfl

@[simp] theorem countMerge_mem (s t : State) (loc : Nat) (x : Slot) : (countMerge s t loc x).mem = t.mem := by
  unfold countMerge
  dsimp only
  split
  · rfl
  · exact endCount_mem _ _ _

theorem tryIssue_keeps {P : State → Prop} (hP : Quiet P) (h : ∀ i s, P s → OutKeeps P (exec i s)) (loc : Nat) (x : Slot) {s : State}
    (hs : P s) : OutKeeps P (tryIssue loc x s) := by
  have ht := turn_keeps s loc x hP hs
  unfold tryIssue
  split
  · rename_i e
    rw [e] at ht
    exact h _ _ ht
  · rename_i e
    rw [e] at ht
    exact ht

/-- A slot's move keeps what every instruction keeps. -/
theorem issueMove_keeps {P : State → Prop} (hP : Quiet P) (h : ∀ i s, P s → OutKeeps P (exec i s)) (loc : Nat) (x : Slot) {s : State}
    (hs : P s) : OutKeeps P (issueMove loc x s) := by
  unfold issueMove
  split
  · exact hP _ _ (by simp) hs
  · have ht := tryIssue_keeps hP h loc x hs
    split
    · rename_i e
      rw [e] at ht
      simp only [OutKeeps.next] at ht ⊢
      split
      · exact hP _ _ (countMerge_mem _ _ _ _) ht
      · exact ht
    · exact trivial
    · exact trivial

theorem defaultMove_keeps (s : State) {P : State → Prop} (hP : Quiet P) (hs : P s) : P (defaultMove s).2 :=
  hP _ _ (by simp) hs

end Sys2Proof.Machine
end

