-- ==== Sys2Proof/Laws/Leaves.lean ====
section
/-! SUPPORT. What the shared operations leave of registers, system registers, accumulators, sequencers and cores: landing, advancing,
stalling, trapping, ending a task, and the issue of an operation whose act leaves it. -/

namespace Sys2Proof.Machine

set_option Elab.async false
set_option linter.unusedSimpArgs false
set_option linter.unusedVariables false

/-- A register of a location written by `regPut` is the only one that changes. -/
theorem regPut_other {s : State} {loc : Nat} {r r' : Reg} (v : Vec) (h : r' ≠ r) :
    regBase (regPut s loc r v) loc r' = regBase s loc r' := by
  obtain ⟨f, i⟩ := r
  obtain ⟨f', i'⟩ := r'
  have hi : f' = f → i' ≠ i := by
    rintro rfl hh
    exact h (by rw [hh])
  unfold regBase regPut
  cases f <;> dsimp only <;>
    (try (by_cases h0 : i = 0 <;> simp only [h0, if_true, if_false] <;> try trivial)) <;>
    (try (by_cases h0 : i = 15 <;> simp only [h0, if_true, if_false] <;> try trivial)) <;>
    cases f' <;> dsimp only <;>
    (try simp only [State.setSeq_seqAt_eq, State.setSeq_coreAt, State.setCore_seqAt, State.setCore_coreAt_eq]) <;>
    (try rw [Tab.look_put_ne _ _ _ _ _ (by have := hi rfl; omega)])
  have hb : (BitVec.ofNat 16 (2 ^ i)).getLsbD i' = false := by
    rw [BitVec.getLsbD_ofNat, Nat.testBit_two_pow]
    simp only [Bool.and_eq_false_imp, decide_eq_true_eq, decide_eq_false_iff_not]
    intro _
    have := hi rfl
    omega
  congr 3
  split
  · rw [BitVec.getLsbD_and, BitVec.getLsbD_not, hb]
    cases hq : (s.seqAt loc).fp.getLsbD i'
    · rfl
    · simp [BitVec.lt_of_getLsbD hq]
  · rw [BitVec.getLsbD_or, hb, Bool.or_false]

theorem Leaves.refl (D : List Reg) (s : State) : Leaves D s s :=
  ⟨rfl, fun _ _ h => ⟨h, rfl⟩, rfl, ⟨rfl, rfl, rfl⟩, ⟨rfl, rfl, rfl, rfl, rfl⟩, fun _ _ => ⟨_, rfl⟩, fun _ _ => rfl⟩

theorem Leaves.trans {D : List Reg} {s t u : State} (h : Leaves D s t) (k : Leaves D t u) : Leaves D s u where
  cur := k.cur.trans h.cur
  regs r hr hi := by
    have h1 := h.regs r hr hi
    have h2 := k.regs r hr (by rw [h.cur]; exact h1.1)
    rw [h.cur] at h2
    exact ⟨h2.1, h2.2.trans h1.2⟩
  task := by have := k.task; rw [h.cur] at this; exact this.trans h.task
  sys := by
    have := k.sys
    rw [h.cur] at this
    exact ⟨this.1.trans h.sys.1, this.2.1.trans h.sys.2.1, this.2.2.trans h.sys.2.2⟩
  acc := by
    have := k.acc
    rw [h.cur] at this
    exact ⟨this.1.trans h.acc.1, this.2.1.trans h.acc.2.1, this.2.2.1.trans h.acc.2.2.1, this.2.2.2.1.trans h.acc.2.2.2.1,
      this.2.2.2.2.trans h.acc.2.2.2.2⟩
  seqs l hl := by
    obtain ⟨g1, h1⟩ := h.seqs l hl
    obtain ⟨g2, h2⟩ := k.seqs l (by rw [h.cur]; exact hl)
    exact ⟨g2, by rw [h2, h1]⟩
  cores c hc := (k.cores c (by rw [h.cur]; exact hc)).trans (h.cores c hc)

/-- A sequencer that has the same registers, task and system registers, and nothing more on its way. -/
structure SameRegs (D : List Reg) (q u : Seq) : Prop where
  fs : u.fs = q.fs
  fk0 : u.fk0 = q.fk0
  fk1 : u.fk1 = q.fk1
  fm : u.fm = q.fm
  fb : u.fb = q.fb
  fw : u.fw = q.fw
  fe : u.fe = q.fe
  fy : u.fy = q.fy
  fp : u.fp = q.fp
  task : u.task = q.task
  tvec : u.tvec = q.tvec
  replay : u.replay = q.replay
  taskId : u.taskId = q.taskId
  idle : ∀ r, r ∉ D → (∀ e ∈ q.pend, e.dst ≠ some r) ∧ (∀ f, q.frame = some f → ∀ e ∈ f.pend, e.dst ≠ some r) →
    (∀ e ∈ u.pend, e.dst ≠ some r) ∧ ∀ f, u.frame = some f → ∀ e ∈ f.pend, e.dst ≠ some r

theorem SameRegs.refl (D : List Reg) (q : Seq) : SameRegs D q q := by
  constructor <;> first | rfl | exact fun _ _ h => h

theorem SameRegs.trans {D : List Reg} {a b c : Seq} (h : SameRegs D a b) (k : SameRegs D b c) : SameRegs D a c where
  fs := k.fs.trans h.fs
  fk0 := k.fk0.trans h.fk0
  fk1 := k.fk1.trans h.fk1
  fm := k.fm.trans h.fm
  fb := k.fb.trans h.fb
  fw := k.fw.trans h.fw
  fe := k.fe.trans h.fe
  fy := k.fy.trans h.fy
  fp := k.fp.trans h.fp
  task := k.task.trans h.task
  tvec := k.tvec.trans h.tvec
  replay := k.replay.trans h.replay
  taskId := k.taskId.trans h.taskId
  idle r hr hi := k.idle r hr (h.idle r hr hi)

/-- A sequencer replaced by one with the same registers. -/
theorem Leaves.setSeq {D : List Reg} {s : State} {q : Seq} (h : SameRegs D (s.seqAt s.cur.loc) q) :
    Leaves D s (s.setSeq s.cur.loc q) where
  cur := rfl
  regs r hr hi := by
    constructor
    · have := h.idle r hr hi
      unfold State.idle
      rw [State.setSeq_seqAt_eq]
      exact this
    · obtain ⟨f, i⟩ := r
      unfold regBase
      simp only [State.setSeq_seqAt_eq, State.setSeq_coreAt, h.fs, h.fk0, h.fk1, h.fm, h.fb, h.fw, h.fe, h.fy, h.fp, h.task]
  task := by rw [State.setSeq_seqAt_eq, h.task]
  sys := by rw [State.setSeq_seqAt_eq]; exact ⟨h.tvec, h.replay, h.taskId⟩
  acc := ⟨rfl, rfl, rfl, rfl, rfl⟩
  seqs l hl := ⟨(s.seqAt l).grids, by rw [State.setSeq_seqAt_ne _ _ _ _ hl]⟩
  cores _ _ := rfl

theorem Leaves.setMe {D : List Reg} {s : State} {q : Seq} (h : SameRegs D s.me q) : Leaves D s (s.setMe q) := Leaves.setSeq h

/-- A state with the same sequencers, cores and issuer. -/
theorem Leaves.of_same {D : List Reg} {s t : State} (hc : t.cur = s.cur) (hq : t.seqs = s.seqs) (hk : t.cores = s.cores) : Leaves D s t := by
  have h1 : ∀ l, t.seqAt l = s.seqAt l := fun l => by unfold State.seqAt; rw [hq]
  have h2 : ∀ l, t.coreAt l = s.coreAt l := fun l => by unfold State.coreAt; rw [hk]
  refine ⟨hc, fun r _ hi => ⟨?_, ?_⟩, by rw [h1], by rw [h1]; exact ⟨rfl, rfl, rfl⟩, by rw [h2]; exact ⟨rfl, rfl, rfl, rfl, rfl⟩, fun l _ => ⟨(s.seqAt l).grids, h1 l⟩, fun c _ => h2 c⟩
  · unfold State.idle at *
    rw [h1]; exact hi
  · unfold regBase
    rw [h1, h2]

/-- A core replaced by one with the same registers and accumulators. -/
theorem Leaves.setCore {D : List Reg} {s : State} {k : Core} (h : let k0 := s.coreAt (coreOf s.cur.loc)
    k.v0 = k0.v0 ∧ k.v1 = k0.v1 ∧ k.t = k0.t ∧ k.c = k0.c ∧ k.tile = k0.tile ∧ k.ovfc = k0.ovfc ∧ k.nanc = k0.nanc ∧
      k.larder = k0.larder ∧ k.store = k0.store) : Leaves D s (s.setCore (coreOf s.cur.loc) k) where
  cur := rfl
  regs r _ hi := by
    refine ⟨hi, ?_⟩
    obtain ⟨f, i⟩ := r
    unfold regBase
    simp only [State.setCore_coreAt_eq, State.setCore_seqAt, h.1, h.2.1, h.2.2.1, h.2.2.2.1]
  task := rfl
  sys := ⟨rfl, rfl, rfl⟩
  acc := by
    simp only [State.setCore_coreAt_eq]
    exact h.2.2.2.2
  seqs l _ := ⟨(s.seqAt l).grids, rfl⟩
  cores c hc := State.setCore_coreAt_ne _ _ _ _ hc

/-- A register of the issuer written by `regPut`, to which a result was on its way or which is a destination. -/
theorem Leaves.regPut {D : List Reg} {s : State} {r : Reg} (v : Vec) (h : r ∉ D → ¬ s.idle s.cur.loc r) :
    Leaves D s (regPut s s.cur.loc r v) where
  cur := by
    unfold Machine.regPut
    cases r.file <;> dsimp only <;> (try split) <;> rfl
  regs r' hr hi := by
    have hne : r' ≠ r := by
      rintro rfl
      exact h hr hi
    refine ⟨?_, regPut_other v hne⟩
    unfold State.idle Machine.regPut at *
    cases r.file <;> dsimp only <;> (try split) <;> first | exact hi | (simp only [State.setSeq_seqAt_eq, State.setCore_seqAt]; exact hi)
  task := by
    unfold Machine.regPut
    cases r.file <;> dsimp only <;> (try split) <;> first | rfl | (simp; done)
  sys := by
    unfold Machine.regPut
    cases r.file <;> dsimp only <;> (try split) <;> first | exact ⟨rfl, rfl, rfl⟩ | (simp; done)
  acc := by
    unfold Machine.regPut
    cases r.file <;> dsimp only <;> (try split) <;> first | exact ⟨rfl, rfl, rfl, rfl, rfl⟩ | (simp; done)
  seqs l hl := by
    refine ⟨(s.seqAt l).grids, ?_⟩
    unfold Machine.regPut
    cases r.file <;> dsimp only <;> (try split) <;> first | rfl | (rw [State.setSeq_seqAt_ne _ _ _ _ hl])
  cores c hc := by
    unfold Machine.regPut
    cases r.file <;> dsimp only <;> (try split) <;> first | rfl | (rw [State.setCore_coreAt_ne _ _ _ _ hc])

theorem SameRegs.of_dst {D : List Reg} {q u : Seq} (h1 : u.fs = q.fs ∧ u.fk0 = q.fk0 ∧ u.fk1 = q.fk1 ∧ u.fm = q.fm ∧ u.fb = q.fb ∧
    u.fw = q.fw ∧ u.fe = q.fe ∧ u.fy = q.fy ∧ u.fp = q.fp) (h2 : u.task = q.task ∧ u.tvec = q.tvec ∧ u.replay = q.replay ∧
    u.taskId = q.taskId) (h3 : u.frame = q.frame) (h4 : ∀ e ∈ u.pend, ∃ x ∈ q.pend, x.dst = e.dst) : SameRegs D q u := by
  obtain ⟨a1, a2, a3, a4, a5, a6, a7, a8, a9⟩ := h1
  obtain ⟨b1, b2, b3, b4⟩ := h2
  refine ⟨a1, a2, a3, a4, a5, a6, a7, a8, a9, b1, b2, b3, b4, fun r _ hi => ⟨fun e he hd => ?_, by rw [h3]; exact hi.2⟩⟩
  obtain ⟨x, hx, h⟩ := h4 e he
  exact hi.1 x hx (h.trans hd)

theorem SameRegs.of_pend {D : List Reg} {q u : Seq} (h1 : u.fs = q.fs ∧ u.fk0 = q.fk0 ∧ u.fk1 = q.fk1 ∧ u.fm = q.fm ∧ u.fb = q.fb ∧
    u.fw = q.fw ∧ u.fe = q.fe ∧ u.fy = q.fy ∧ u.fp = q.fp) (h2 : u.task = q.task ∧ u.tvec = q.tvec ∧ u.replay = q.replay ∧
    u.taskId = q.taskId) (h3 : u.frame = q.frame) (h4 : ∀ e ∈ u.pend, e ∈ q.pend ∨ ∃ r ∈ D, e.dst = some r) : SameRegs D q u := by
  obtain ⟨a1, a2, a3, a4, a5, a6, a7, a8, a9⟩ := h1
  obtain ⟨b1, b2, b3, b4⟩ := h2
  refine ⟨a1, a2, a3, a4, a5, a6, a7, a8, a9, b1, b2, b3, b4, fun r hr hi => ⟨fun e he hd => ?_, by rw [h3]; exact hi.2⟩⟩
  rcases h4 e he with h | ⟨r', h, h'⟩
  · exact hi.1 e h hd
  · rw [h'] at hd
    exact hr (Option.some.inj hd ▸ h)

/-- The pending results and the trap frame are those of before. -/
def SamePend (s t : State) : Prop := t.me.pend = s.me.pend ∧ t.me.frame = s.me.frame

theorem regPut_pend (s : State) (r : Reg) (v : Vec) : SamePend s (regPut s s.cur.loc r v) := by
  unfold SamePend regPut State.me
  cases r.file <;> dsimp only <;> (try split) <;> first | exact ⟨rfl, rfl⟩ | (simp; done)

/-- A step of landing: registers of others are left, and what is pending stays as it was. -/
def Lands (D : List Reg) (s t : State) : Prop := Leaves D s t ∧ SamePend s t

theorem Lands.refl (D : List Reg) (s : State) : Lands D s s := ⟨.refl _ _, rfl, rfl⟩

theorem Lands.trans {D : List Reg} {s t u : State} (h : Lands D s t) (k : Lands D t u) : Lands D s u :=
  ⟨h.1.trans k.1, k.2.1.trans h.2.1, k.2.2.trans h.2.2⟩

theorem Lands.setSeq {D : List Reg} {s : State} {l : Nat} {q : Seq} (hl : s.cur.loc = l) (h : SameRegs D (s.seqAt l) q)
    (hp : q.pend = (s.seqAt l).pend) (hf : q.frame = (s.seqAt l).frame) : Lands D s (s.setSeq l q) := by
  subst hl
  refine ⟨.setSeq h, ?_⟩
  unfold SamePend State.me
  rw [State.setSeq_cur, State.setSeq_seqAt_eq]
  exact ⟨hp, hf⟩

theorem Lands.setCore {D : List Reg} {s : State} {l : Nat} {k : Core} (hl : s.cur.loc = l) (h : let k0 := s.coreAt (coreOf l)
    k.v0 = k0.v0 ∧ k.v1 = k0.v1 ∧ k.t = k0.t ∧ k.c = k0.c ∧ k.tile = k0.tile ∧ k.ovfc = k0.ovfc ∧ k.nanc = k0.nanc ∧
      k.larder = k0.larder ∧ k.store = k0.store) : Lands D s (s.setCore (coreOf l) k) := by
  subst hl
  exact ⟨.setCore h, rfl, rfl⟩

theorem Lands.cur {D : List Reg} {s t : State} {l : Nat} (h : Lands D s t) (hl : s.cur.loc = l) : t.cur.loc = l := by rw [h.1.cur, hl]

theorem landFlags_lands {D : List Reg} {s : State} {l : Nat} (hl : s.cur.loc = l) (all : List Pend) (e : Pend) :
    Lands D s (landFlags s l all e) := by
  unfold landFlags
  dsimp only
  refine .setSeq hl ?_ ?_ ?_
  · split <;> split <;> exact .of_pend ⟨rfl, rfl, rfl, rfl, rfl, rfl, rfl, rfl, rfl⟩ ⟨rfl, rfl, rfl, rfl⟩ rfl fun _ h => .inl h
  · split <;> split <;> rfl
  · split <;> split <;> rfl

theorem setMark_lands {D : List Reg} {s : State} {l : Nat} (hl : s.cur.loc = l) (r : Reg) (m : Option Nat) : Lands D s (setMark s l r m) := by
  unfold setMark
  dsimp only
  split
  · exact .setCore hl ⟨rfl, rfl, rfl, rfl, rfl, rfl, rfl, rfl, rfl⟩
  · exact .setSeq hl (.of_pend ⟨rfl, rfl, rfl, rfl, rfl, rfl, rfl, rfl, rfl⟩ ⟨rfl, rfl, rfl, rfl⟩ rfl fun _ h => .inl h) rfl rfl

theorem noteOld_lands {D : List Reg} {s : State} {l : Nat} (hl : s.cur.loc = l) (r : Reg) (e : Pend) : Lands D s (noteOld s l r e) := by
  unfold noteOld
  have h1 : Lands D s (endGhosts s l r) := by
    unfold endGhosts
    dsimp only
    split
    · exact .setCore hl ⟨rfl, rfl, rfl, rfl, rfl, rfl, rfl, rfl, rfl⟩
    · exact .refl _ _
  dsimp only
  split
  · refine h1.trans ?_
    unfold addGhost
    dsimp only
    split
    · exact .setCore (h1.cur hl) ⟨rfl, rfl, rfl, rfl, rfl, rfl, rfl, rfl, rfl⟩
    · exact .setSeq (h1.cur hl) (.of_pend ⟨rfl, rfl, rfl, rfl, rfl, rfl, rfl, rfl, rfl⟩ ⟨rfl, rfl, rfl, rfl⟩ rfl fun _ h => .inl h) rfl rfl
  · exact h1

theorem clearErr_lands {D : List Reg} {s : State} {l : Nat} (hl : s.cur.loc = l) (r : Reg) (m : Nat) : Lands D s (clearErr s l r m) := by
  unfold clearErr
  dsimp only
  split
  · exact .setSeq hl (.of_pend ⟨rfl, rfl, rfl, rfl, rfl, rfl, rfl, rfl, rfl⟩ ⟨rfl, rfl, rfl, rfl⟩ rfl fun _ h => .inl h) rfl rfl
  · exact .refl _ _

theorem regPut_lands {D : List Reg} {s : State} {l : Nat} (hl : s.cur.loc = l) {r : Reg} (v : Vec) (h : r ∉ D → ¬ s.idle l r) :
    Lands D s (regPut s l r v) := by
  subst hl
  exact ⟨.regPut v h, regPut_pend _ _ _⟩

theorem landOne_lands {D : List Reg} {s : State} (all : List Pend) {e : Pend} (he : e ∈ s.me.pend) : Lands D s (landOne s s.cur.loc all e) := by
  unfold landOne
  dsimp only
  have h1 : Lands D s (landFlags s s.cur.loc all e) := landFlags_lands rfl all e
  generalize landFlags s s.cur.loc all e = t at h1 ⊢
  split
  · exact h1
  · rename_i r hr
    split
    · exact h1
    · have h2 := h1.trans (noteOld_lands (h1.cur rfl) r e)
      have h3 (m : Option Nat) := h2.trans (setMark_lands (h2.cur rfl) r m)
      split
      · exact h3 _
      · have h4 := (h3 none).trans (clearErr_lands ((h3 none).cur rfl) r e.mask)
        refine h4.trans (regPut_lands (h4.cur rfl) _ fun _ hi => ?_)
        have hp := h4.2.1
        rw [State.me, h4.cur rfl] at hp
        exact hi.1 e (hp ▸ he) hr

theorem landDue_leaves {D : List Reg} (due : Pend → Bool) (block : Bool) (all : List Pend) : ∀ (ps kept : List Pend) {s : State},
    (∀ e ∈ ps, e ∈ s.me.pend) → (∀ e ∈ kept, ∃ x ∈ s.me.pend, x.dst = e.dst) →
    Leaves D s (landDue s.cur.loc due block all ps kept s).1 ∧
    (landDue s.cur.loc due block all ps kept s).1.me.pend = s.me.pend ∧
    ∀ e ∈ (landDue s.cur.loc due block all ps kept s).2, ∃ x ∈ s.me.pend, x.dst = e.dst := by
  intro ps
  induction ps with
  | nil => exact fun kept s _ hk => ⟨.refl _ _, rfl, hk⟩
  | cons e ps ih =>
    intro kept s hp hk
    have step : ∀ (t : State) (kept' : List Pend), Lands D s t → (∀ e ∈ kept', ∃ x ∈ s.me.pend, x.dst = e.dst) →
        Leaves D s (landDue s.cur.loc due block all ps kept' t).1 ∧
        (landDue s.cur.loc due block all ps kept' t).1.me.pend = s.me.pend ∧
        ∀ e ∈ (landDue s.cur.loc due block all ps kept' t).2, ∃ x ∈ s.me.pend, x.dst = e.dst := by
      intro t kept' h hk'
      have h' := ih kept' (s := t) (fun e he => by rw [h.2.1]; exact hp e (by simp [he])) (by rw [h.2.1]; exact hk')
      rw [h.1.cur, h.2.1] at h'
      exact ⟨h.1.trans h'.1, h'.2⟩
    have more : ∀ x : Pend, x.dst = e.dst → ∀ y ∈ kept ++ [x], ∃ z ∈ s.me.pend, z.dst = y.dst := by
      intro x hx y hy
      rcases List.mem_append.1 hy with h | h
      · exact hk y h
      · exact ⟨e, hp e (by simp), by rw [List.mem_singleton.1 h, hx]⟩
    unfold landDue
    split
    · split
      · exact step _ _ (landFlags_lands rfl all e) (more _ rfl)
      · exact step _ _ (landOne_lands all (hp e (by simp))) hk
    · exact step _ _ (.refl _ _) (more _ rfl)

theorem Leaves.setAt {D : List Reg} {s : State} {l : Nat} {q : Seq} (hl : s.cur.loc = l) (h : SameRegs D (s.seqAt l) q) :
    Leaves D s (s.setSeq l q) := by subst hl; exact .setSeq h

theorem settle_leaves {D : List Reg} (s : State) : Leaves D s (settle s s.cur.loc) := by
  unfold settle
  dsimp only
  have h := landDue_leaves (D := D) (fun e => decide (e.li ≤ loOf (s.seqAt s.cur.loc))) true (s.seqAt s.cur.loc).pend
    (s.seqAt s.cur.loc).pend [] (s := s) (fun _ h => h) (fun _ h => by simp at h)
  generalize landDue s.cur.loc _ true _ _ [] s = p at h ⊢
  obtain ⟨h1, h2, h3⟩ := h
  refine h1.trans (.setAt (by rw [h1.cur]) (.of_dst ⟨rfl, rfl, rfl, rfl, rfl, rfl, rfl, rfl, rfl⟩ ⟨rfl, rfl, rfl, rfl⟩ rfl fun e he => ?_))
  have := h3 e he
  rw [← h2, State.me, h1.cur] at this
  exact this

theorem landAll_leaves {D : List Reg} (s : State) : Leaves D s (landAll s s.cur.loc) := by
  unfold landAll
  dsimp only
  have h := landDue_leaves (D := D) (fun _ => true) true (s.seqAt s.cur.loc).pend
    (s.seqAt s.cur.loc).pend [] (s := s) (fun _ h => h) (fun _ h => by simp at h)
  generalize landDue s.cur.loc _ true _ _ [] s = p at h ⊢
  obtain ⟨h1, h2, h3⟩ := h
  refine h1.trans (.setAt (by rw [h1.cur]) (.of_dst ⟨rfl, rfl, rfl, rfl, rfl, rfl, rfl, rfl, rfl⟩ ⟨rfl, rfl, rfl, rfl⟩ rfl fun e he => ?_))
  have := h3 e he
  rw [← h2, State.me, h1.cur] at this
  exact this

theorem landImage_leaves {D : List Reg} (s : State) : Leaves D s (landImage s s.cur.loc) := by
  unfold landImage
  dsimp only
  generalize landedImage (s.seqAt s.cur.loc) _ = now
  have h := landDue_leaves (D := D) now false (s.seqAt s.cur.loc).pend
    (s.seqAt s.cur.loc).pend [] (s := s) (fun _ h => h) (fun _ h => by simp at h)
  generalize landDue s.cur.loc now false _ _ [] s = p at h ⊢
  obtain ⟨h1, h2, h3⟩ := h
  refine h1.trans (.setAt (by rw [h1.cur]) (.of_dst ⟨rfl, rfl, rfl, rfl, rfl, rfl, rfl, rfl, rfl⟩ ⟨rfl, rfl, rfl, rfl⟩ rfl fun e he => ?_))
  obtain ⟨x, hx, rfl⟩ := List.mem_map.1 he
  rw [State.me, h1.cur] at h2
  refine ⟨x, h2 ▸ hx, ?_⟩
  split <;> rfl

theorem perf_leaves {D : List Reg} (s : State) (loc c n : Nat) : Leaves D s (perf s loc c n) := by
  unfold perf
  dsimp only
  repeat' (first | split | exact .refl _ _ | exact .of_same rfl rfl rfl)

theorem setDie_leaves {D : List Reg} (s : State) (d : Nat) (k : Die) : Leaves D s (s.setDie d k) := .of_same rfl rfl rfl

theorem postFatal_leaves {D : List Reg} (s : State) (a b c : Nat) : Leaves D s (postFatal s a b c) := by
  unfold postFatal
  exact .of_same rfl rfl rfl

theorem postLane_leaves {D : List Reg} (s : State) (a b c : Nat) : Leaves D s (postLane s a b c) := by
  unfold postLane
  exact .of_same rfl rfl rfl

theorem postEvent_leaves {D : List Reg} (s : State) (a b c d e f g : Nat) : Leaves D s (postEvent s a b c d e f g) := by
  unfold postEvent
  exact .of_same rfl rfl rfl

theorem foldl_leaves {D : List Reg} {β : Type} {f : State → β → State} (h : ∀ s b, Leaves D s (f s b)) (l : List β) (s : State) :
    Leaves D s (l.foldl f s) := by
  induction l generalizing s with
  | nil => exact .refl _ _
  | cons b l ih => exact (h s b).trans (ih (f s b))

theorem reportMarks_leaves {D : List Reg} (s : State) (loc : Nat) : Leaves D s (reportMarks s loc) := by
  unfold reportMarks
  exact foldl_leaves (fun _ _ => postLane_leaves _ _ _ _) _ _

/-- The table of sequencers mapped by a function that changes known steps of grids only. -/
theorem Leaves.mapSeqs {D : List Reg} {s : State} {f : Nat × Seq → Nat × Seq} (h : ∀ e, ∃ gs, f e = (e.1, { e.2 with grids := gs })) :
    Leaves D s { s with seqs := s.seqs.map f } := by
  have key : ∀ l, ∃ gs, State.seqAt { s with seqs := s.seqs.map f } l = { s.seqAt l with grids := gs } := by
    intro l
    unfold State.seqAt
    dsimp only
    induction s.seqs with
    | nil => exact ⟨Seq.reset.grids, rfl⟩
    | cons e t ih =>
      obtain ⟨k, v⟩ := e
      obtain ⟨gs, hf⟩ := h (k, v)
      rw [List.map_cons, hf]
      unfold Tab.look
      split
      · exact ⟨gs, rfl⟩
      · split
        · exact ⟨Seq.reset.grids, rfl⟩
        · exact ih
  obtain ⟨gs, hg⟩ := key s.cur.loc
  refine ⟨rfl, fun r hr hi => ⟨?_, ?_⟩, by rw [hg], by rw [hg]; exact ⟨rfl, rfl, rfl⟩, ⟨rfl, rfl, rfl, rfl, rfl⟩, fun l _ => key l, fun c _ => rfl⟩
  · unfold State.idle at *
    rw [hg]; exact hi
  · unfold regBase
    rw [hg]; rfl

theorem noteStep_leaves {D : List Reg} (s : State) (vd : Nat) (g : Grid) : Leaves D s (noteStep s vd g) := by
  unfold noteStep
  have key (f : Nat × Seq → Nat × Seq) (h : ∀ e, ∃ gs, f e = (e.1, { e.2 with grids := gs })) :
      Leaves D s { s with gone := leftParties s vd g, seqs := s.seqs.map f } :=
    (Leaves.of_same (s := s) (t := { s with gone := leftParties s vd g }) rfl rfl rfl).trans
      (Leaves.mapSeqs (s := { s with gone := leftParties s vd g }) h)
  refine key _ fun e => ?_
  split
  · exact ⟨_, rfl⟩
  · exact ⟨e.2.grids, rfl⟩

theorem noteGrids_leaves {D : List Reg} (s : State) (loc : Nat) : Leaves D s (noteGrids s loc) := by
  unfold noteGrids
  exact foldl_leaves (fun _ _ => noteStep_leaves _ _ _) _ _

theorem completeLaunches_leaves {D : List Reg} (d n : Nat) (s : State) : Leaves D s (completeLaunches d n s) := by
  induction n generalizing s with
  | zero => exact .refl _ _
  | succ n ih =>
    unfold completeLaunches
    split
    · exact .refl _ _
    · dsimp only
      exact ((setDie_leaves _ _ _).trans (postEvent_leaves _ _ _ _ _ _ _ _)).trans (ih _)

theorem taskHalted_leaves {D : List Reg} (s : State) (loc : Nat) : Leaves D s (taskHalted s loc) := by
  unfold taskHalted
  dsimp only
  exact (setDie_leaves _ _ _).trans (completeLaunches_leaves _ _ _)

theorem becomeIdle_leaves {D : List Reg} (s : State) : Leaves D s (becomeIdle s s.cur.loc) := by
  unfold becomeIdle
  dsimp only
  have h : Leaves D s (noteGrids (reportMarks s s.cur.loc) s.cur.loc) := (reportMarks_leaves _ _).trans (noteGrids_leaves _ _)
  refine h.trans (Leaves.trans (.setAt (by rw [h.cur]) ?_) (taskHalted_leaves _ _))
  exact ⟨rfl, rfl, rfl, rfl, rfl, rfl, rfl, rfl, rfl, rfl, rfl, rfl, rfl, fun r hr hi => ⟨fun _ h => by simp at h, fun _ h => by simp at h⟩⟩

theorem dropGhosts_leaves {D : List Reg} (s : State) (loc : Nat) (o : Option Nat) : Leaves D s (dropGhosts s loc o) := by
  unfold dropGhosts
  exact .of_same rfl rfl rfl

theorem becomeIdle_at {D : List Reg} {s : State} {l : Nat} (h : s.cur.loc = l) : Leaves D s (becomeIdle s l) := h ▸ becomeIdle_leaves s
theorem landAll_at {D : List Reg} {s : State} {l : Nat} (h : s.cur.loc = l) : Leaves D s (landAll s l) := h ▸ landAll_leaves s
theorem settle_at {D : List Reg} {s : State} {l : Nat} (h : s.cur.loc = l) : Leaves D s (settle s l) := h ▸ settle_leaves s
theorem landImage_at {D : List Reg} {s : State} {l : Nat} (h : s.cur.loc = l) : Leaves D s (landImage s l) := h ▸ landImage_leaves s

theorem tryFinish_at {D : List Reg} {s : State} {l : Nat} (h : s.cur.loc = l) : Leaves D s (tryFinish s l) := by
  unfold tryFinish
  dsimp only
  split
  · split
    · exact (dropGhosts_leaves _ _ _).trans (becomeIdle_at (by rw [(dropGhosts_leaves (D := D) _ _ _).cur, h]))
    · exact .refl _ _
  · split
    · have h1 : Leaves D s (landAll s l) := landAll_at h
      have h2 : Leaves D s (match ((landAll s l).seqAt l).frame with
          | some f => landAll ((landAll s l).setSeq l { (landAll s l).seqAt l with pend := f.pend, frame := none }) l
          | none => landAll s l) := by
        split
        · rename_i f hf
          have h3 : Leaves D s ((landAll s l).setSeq l { (landAll s l).seqAt l with pend := f.pend, frame := none }) :=
            h1.trans (.setAt (by rw [h1.cur, h]) ⟨rfl, rfl, rfl, rfl, rfl, rfl, rfl, rfl, rfl, rfl, rfl, rfl, rfl,
              fun r hr hi => ⟨hi.2 f hf, fun _ h => by simp at h⟩⟩)
          exact h3.trans (landAll_at (by rw [h3.cur, h]))
        · exact h1
      have h4 := h2.trans (dropGhosts_leaves _ l none)
      exact h4.trans (becomeIdle_at (by rw [h4.cur, h]))
    · exact .refl _ _

theorem freezeForSave_at {D : List Reg} {s : State} {l : Nat} (h : s.cur.loc = l) : Leaves D s (freezeForSave s l) := by
  unfold freezeForSave postWithdraw
  refine Leaves.trans (.setAt h ?_) (.of_same rfl rfl rfl)
  exact .of_pend ⟨rfl, rfl, rfl, rfl, rfl, rfl, rfl, rfl, rfl⟩ ⟨rfl, rfl, rfl, rfl⟩ rfl fun _ h => .inl h

theorem pruneGhosts_at {D : List Reg} {s : State} {l : Nat} (h : s.cur.loc = l) : Leaves D s (pruneGhosts s l) := by
  unfold pruneGhosts
  dsimp only
  have h1 : Leaves D s (if (s.coreAt (coreOf l)).cghosts.isEmpty then s else
      s.setCore (coreOf l) { s.coreAt (coreOf l) with cghosts := (s.coreAt (coreOf l)).cghosts.filter (fun g => g.1 != l) ++
        (keepGhosts (s.seqAt l) (((s.coreAt (coreOf l)).cghosts.filter (fun g => g.1 == l)).map (·.2))).map (fun g => (l, g)) }) := by
    split
    · exact .refl _ _
    · subst h
      exact .setCore ⟨rfl, rfl, rfl, rfl, rfl, rfl, rfl, rfl, rfl⟩
  refine h1.trans (.setAt (by rw [h1.cur, h]) ?_)
  have hq : (if (s.coreAt (coreOf l)).cghosts.isEmpty then s else
      s.setCore (coreOf l) { s.coreAt (coreOf l) with cghosts := (s.coreAt (coreOf l)).cghosts.filter (fun g => g.1 != l) ++
        (keepGhosts (s.seqAt l) (((s.coreAt (coreOf l)).cghosts.filter (fun g => g.1 == l)).map (·.2))).map (fun g => (l, g)) }).seqAt l =
      s.seqAt l := by split <;> rfl
  rw [hq]
  exact .of_pend ⟨rfl, rfl, rfl, rfl, rfl, rfl, rfl, rfl, rfl⟩ ⟨rfl, rfl, rfl, rfl⟩ rfl fun _ h => .inl h

theorem foldDraws_same {D : List Reg} (q : Seq) : SameRegs D q (foldDraws q) := by
  unfold foldDraws
  dsimp only
  split
  · exact .refl _ _
  · exact .of_pend ⟨rfl, rfl, rfl, rfl, rfl, rfl, rfl, rfl, rfl⟩ ⟨rfl, rfl, rfl, rfl⟩ rfl fun _ h => .inl h

/-- What `advance` does once the sequencer has moved on to q. -/
def advanceTo (s : State) (q : Seq) (counts : Bool) (point : Option Nat) : State :=
  let loc := s.cur.loc
  let s := if counts then perf s loc 1 1 else s
  let s := pruneGhosts (settle { s.setMe q with free := s.free + 1 } loc) loc
  let q := s.seqAt loc
  let lo := loOf q
  let s := s.setSeq loc { q with queue := q.queue.filter (fun f => lo ≤ f.1) }
  match point with
  | some p => if p < lo ∧ q.status = 1 then freezeForSave s loc else tryFinish s loc
  | none => tryFinish s loc

/-- The issuer once it has moved on. -/
def movedOn (s : State) : Seq :=
  let loc := s.cur.loc
  let x := s.cur.slot
  let q := s.me
  let k := stepOf q x
  let b := (bundleAt q k).bits
  let drew := if rmodeAt q k = 4 then (match opAhead s loc k x with | some i => drawsOf i | none => 0) else 0
  { q with
    steps := q.steps.put x.num (k + 1),
    lastSync := if b.sync x || holdsSysOp b then q.lastSync.put x.num (k + 1) else q.lastSync,
    drawn := if drew = 0 then q.drawn else q.drawn.put (16 * k + x.num) drew,
    stalled := 0,
    skips := q.skips.filter (· != (x.num, k)) }

theorem advanceTo_leaves {D : List Reg} {s : State} {q : Seq} (h : SameRegs D s.me q) (counts : Bool) (point : Option Nat) :
    Leaves D s (advanceTo s q counts point) := by
  unfold advanceTo
  dsimp only
  have h0 : Leaves D s (if counts then perf s s.cur.loc 1 1 else s) := by
    split
    · exact perf_leaves _ _ _ _
    · exact .refl _ _
  have hme : (if counts then perf s s.cur.loc 1 1 else s).me = s.me := by
    unfold State.me
    rw [h0.cur]
    split
    · rw [perf_seqs]
    · rfl
  generalize (if counts then perf s s.cur.loc 1 1 else s) = u at h0 hme ⊢
  have h1 : ∀ n, Leaves D s { u.setMe q with free := n } :=
    fun n => (h0.trans (Leaves.setMe (hme ▸ h))).trans (.of_same rfl rfl rfl)
  have h2 := (h1 (u.free + 1)).trans (settle_at (l := s.cur.loc) (by rw [(h1 (u.free + 1)).cur]))
  generalize settle _ s.cur.loc = t0 at h2 ⊢
  have h2' := h2.trans (pruneGhosts_at (l := s.cur.loc) (by rw [h2.cur]))
  generalize pruneGhosts t0 s.cur.loc = t at h2' ⊢
  have h4 : Leaves D s (t.setSeq s.cur.loc
    { t.seqAt s.cur.loc with
      queue := (t.seqAt s.cur.loc).queue.filter (fun f => loOf (t.seqAt s.cur.loc) ≤ f.1) }) :=
    h2'.trans (.setAt (by rw [h2'.cur]) (.of_pend ⟨rfl, rfl, rfl, rfl, rfl, rfl, rfl, rfl, rfl⟩ ⟨rfl, rfl, rfl, rfl⟩ rfl fun _ h => .inl h))
  split
  · split
    · exact h4.trans (freezeForSave_at (by rw [h4.cur]))
    · exact h4.trans (tryFinish_at (by rw [h4.cur]))
  · exact h4.trans (tryFinish_at (by rw [h4.cur]))

theorem advance_eq (s : State) : advance s = advanceTo s (foldDraws (movedOn s))
    (Slot.all.all (fun y => y == s.cur.slot || decide (stepOf (foldDraws (movedOn s)) y ≤ stepOf s.me s.cur.slot))) (safePointOf s.me) := rfl

theorem advance_leaves {D : List Reg} (s : State) : Leaves D s (advance s) := by
  rw [advance_eq]
  refine advanceTo_leaves (SameRegs.trans ?_ (foldDraws_same _)) _ _
  exact .of_pend ⟨rfl, rfl, rfl, rfl, rfl, rfl, rfl, rfl, rfl⟩ ⟨rfl, rfl, rfl, rfl⟩ rfl fun _ h => .inl h

theorem stallHere_leaves {D : List Reg} (s : State) : Leaves D s (stallHere s) :=
  .setMe (.of_pend ⟨rfl, rfl, rfl, rfl, rfl, rfl, rfl, rfl, rfl⟩ ⟨rfl, rfl, rfl, rfl⟩ rfl fun _ h => .inl h)

theorem enterHandler_at {D : List Reg} {s : State} {l : Nat} (h : s.cur.loc = l) (pc rc : Nat) (hf : (s.seqAt l).frame.isNone) : Leaves D s (enterHandler s l pc rc) := by
  unfold enterHandler
  dsimp only
  have h1 : Leaves D s (landImage s l) := landImage_at h
  refine h1.trans (.setAt (by rw [h1.cur, h]) ⟨rfl, rfl, rfl, rfl, rfl, rfl, rfl, rfl, rfl, rfl, rfl, rfl, rfl, fun r hr hi => ⟨fun _ h => by simp at h, ?_⟩⟩)
  intro f hf
  cases hf
  exact hi.1

theorem postWithdraw_leaves {D : List Reg} (s : State) (l : Nat) : Leaves D s (postWithdraw s l) := .of_same rfl rfl rfl

theorem deliverTrap_at {D : List Reg} {s : State} {l : Nat} (h : s.cur.loc = l) (c rc : Nat) : Leaves D s (deliverTrap s l c rc) := by
  unfold deliverTrap
  dsimp only
  have h1 : ∀ t : State, Leaves D s t → Leaves D s (if fatalCode c then postFatal t (dieOf l) (s.seqAt l).task.vd rc
      else postLane t (dieOf l) (s.seqAt l).task.vd rc) := by
    intro t ht
    split
    · exact ht.trans (postFatal_leaves _ _ _ _)
    · exact ht.trans (postLane_leaves _ _ _ _)
  refine h1 _ ?_
  split
  · refine Leaves.trans (t := s.setSeq l _) ?_ (postWithdraw_leaves _ _)
    exact .setAt h (.of_pend ⟨rfl, rfl, rfl, rfl, rfl, rfl, rfl, rfl, rfl⟩ ⟨rfl, rfl, rfl, rfl⟩ rfl fun _ h => .inl h)
  · exact .setAt h (.of_pend ⟨rfl, rfl, rfl, rfl, rfl, rfl, rfl, rfl, rfl⟩ ⟨rfl, rfl, rfl, rfl⟩ rfl fun _ h => .inl h)

theorem stopClocks_same {D : List Reg} (n : Nat) (q : Seq) : SameRegs D q (stopClocks n q) :=
  .of_pend ⟨rfl, rfl, rfl, rfl, rfl, rfl, rfl, rfl, rfl⟩ ⟨rfl, rfl, rfl, rfl⟩ rfl fun _ h => .inl h

theorem frozen_same {D : List Reg} (s : State) (loc slot i code info rc : Nat) :
    SameRegs D (s.seqAt loc) (frozen s loc slot i code info rc) := by
  unfold frozen
  dsimp only
  split <;> split <;> exact .of_pend ⟨rfl, rfl, rfl, rfl, rfl, rfl, rfl, rfl, rfl⟩ ⟨rfl, rfl, rfl, rfl⟩ rfl fun _ h => .inl h

theorem takeTrap_at {D : List Reg} {s : State} {l : Nat} (h : s.cur.loc = l) (slot i code info aux : Nat) :
    Leaves D s (takeTrap s l slot i code info aux) := by
  rw [takeTrap_eq]
  dsimp only
  have h0 : Leaves D s (perf s l 7 1) := perf_leaves _ _ _ _
  have h1 := h0.trans (.setAt (by rw [h0.cur, h]) (frozen_same (D := D) (perf s l 7 1) l slot i code info (trapRecord (perf s l 7 1) l slot i code info aux)))
  split
  · rename_i hc
    exact h1.trans (enterHandler_at (by rw [h1.cur, h]) _ _ (by rw [State.setSeq_seqAt_eq]; exact hc.2.2))
  · split
    · rename_i hc
      exact h1.trans (enterHandler_at (by rw [h1.cur, h]) _ _ (by rw [State.setSeq_seqAt_eq]; exact hc.2.2))
    · exact h1.trans (deliverTrap_at (by rw [h1.cur, h]) _ _)

theorem trapHere_leaves {D : List Reg} (s : State) (c n : Nat) : Leaves D s (trapHere s c n) := takeTrap_at rfl _ _ _ _ _

theorem insertPend_mem {e x : Pend} {ps : List Pend} (h : x ∈ insertPend e ps) : x = e ∨ x ∈ ps := by
  induction ps with
  | nil => simpa [insertPend] using h
  | cons p ps ih =>
    unfold insertPend at h
    split at h
    · simpa using h
    · rcases List.mem_cons.1 h with h | h
      · exact .inr (by simp [h])
      · rcases ih h with h | h
        · exact .inl h
        · exact .inr (by simp [h])

theorem deferCommon_dst {n li : Nat} {ps : List Pend} {x : Pend} (h : x ∈ deferCommon n li ps) : ∃ y ∈ ps, y.dst = x.dst := by
  induction n generalizing li ps with
  | zero => exact ⟨x, h, rfl⟩
  | succ n ih =>
    unfold deferCommon at h
    dsimp only at h
    split at h
    · exact ⟨x, h, rfl⟩
    · obtain ⟨y, hy, hd⟩ := ih h
      have key : ∀ (l r : List Pend) (z : Pend), z ∈ l.foldl (fun r p => insertPend p r) r → z ∈ l ∨ z ∈ r := by
        intro l
        induction l with
        | nil => exact fun r z h => .inr h
        | cons a l ih' =>
          intro r z hz
          rcases ih' _ _ hz with h | h
          · exact .inl (by simp [h])
          · rcases insertPend_mem h with h | h
            · exact .inl (by simp [h])
            · exact .inr h
      rcases key _ _ _ hy with h | h
      · obtain ⟨z, hz, rfl⟩ := List.mem_map.1 h
        refine ⟨z, hz, ?_⟩
        rw [← hd]
        split <;> rfl
      · simp at h

theorem addPend_same {D : List Reg} (q : Seq) {e : Pend} (h : ∀ r, e.dst = some r → r ∈ D) : SameRegs D q (addPend q e) := by
  unfold addPend
  dsimp only
  split
  · exact .refl _ _
  · refine ⟨rfl, rfl, rfl, rfl, rfl, rfl, rfl, rfl, rfl, rfl, rfl, rfl, rfl, fun r hr hi => ⟨fun x hx hd => ?_, hi.2⟩⟩
    have : ∃ y ∈ insertPend e q.pend, y.dst = x.dst := by
      dsimp only at hx
      split at hx
      · exact deferCommon_dst hx
      · exact ⟨x, hx, rfl⟩
    obtain ⟨y, hy, hyd⟩ := this
    rcases insertPend_mem hy with rfl | hy
    · exact hr (h r (hyd.trans hd))
    · exact hi.1 y hy (hyd.trans hd)

theorem voidIssue_leaves {i : Instr} {D : List Reg} {s : State} (hD : ∀ r ∈ destsOf s.cur.slot i, r ∈ D) : Leaves D s (voidIssue i s) := by
  unfold voidIssue
  refine Leaves.trans ?_ (advance_leaves _)
  have h1 : Leaves D s (voidDests i s) := by
    unfold voidDests
    have key : ∀ (l : List Reg) (t : State), (∀ r ∈ l, r ∈ D) → Leaves D t (l.foldl (fun t r =>
        t.setMe (addPend t.me
          { slot := t.cur.slot, dst := some r, val := 0, mask := 0, poison := false, li := landingOf t r (latSteps s i),
            bundle := t.here, live := false, done := false, avail := true, moved := false, ifr := none, sticky := 0,
            uid := 64 * t.free + t.me.pend.length % 64 })) t) := by
      intro l
      induction l with
      | nil => exact fun t _ => .refl _ _
      | cons r l ih =>
        intro t hl
        refine Leaves.trans (.setMe (addPend_same _ ?_)) (ih _ fun x hx => hl x (by simp [hx]))
        intro x hx
        cases hx
        exact hl r (by simp)
    exact key _ _ hD
  refine h1.trans ?_
  unfold notTaken
  split
  · refine .setMe ?_
    unfold letGo
    split
    · exact .of_pend ⟨rfl, rfl, rfl, rfl, rfl, rfl, rfl, rfl, rfl⟩ ⟨rfl, rfl, rfl, rfl⟩ rfl fun _ h => .inl h
    · exact .refl _ _
  · exact .refl _ _

/-- What the issue of an operation leaves, where its act leaves it. -/
theorem issueFull_leaves {D : List Reg} {fin void : State → State} {i : Instr} {g : Guard} {act : Act Unit} {s : State}
    (hf : ∀ t, Leaves D t (fin t)) (hv : ∀ t, t.cur = s.cur → Leaves D t (void t)) (ha : EndsIn (Leaves D s) (act s)) :
    Leaves D s (issueFull fin void i g act s) := by
  unfold issueFull
  have hstop : ∀ t e, Leaves D s t → (match e with | .stallWith u => Leaves D s u | .trapWith u _ _ => Leaves D s u | _ => True) →
      Leaves D s (stopHere t e) := by
    intro t e ht he
    cases e with
    | stall => exact ht.trans (stallHere_leaves _)
    | trap c n => exact ht.trans (trapHere_leaves _ _ _)
    | stallWith u => exact Leaves.trans he (stallHere_leaves _)
    | trapWith u c n => exact Leaves.trans he (trapHere_leaves _ _ _)
  split
  · exact hv s rfl
  · split
    · exact (perf_leaves _ _ _ _).trans (stallHere_leaves _)
    · split
      · exact trapHere_leaves _ _ _
      · have hg := guardHolds_keeps g (P := Leaves D s) s (.refl _ _)
        split
        · rename_i e he
          rw [he] at hg
          refine hstop _ _ (.refl _ _) ?_
          cases e <;> exact hg
        · rename_i t he
          rw [he] at hg
          have := guardHolds_pure he
          subst this
          exact hv _ rfl
        · rename_i t he
          have := guardHolds_pure he
          subst this
          split
          · exact stallHere_leaves _
          · split
            · rename_i u hu
              rw [hu] at ha
              exact Leaves.trans ha (hf _)
            · rename_i e hu
              rw [hu] at ha
              refine hstop _ _ (.refl _ _) ?_
              cases e <;> exact ha

theorem issue_leaves {D : List Reg} {i : Instr} {g : Guard} {act : Act Unit} {s : State} (hD : D = destsOf s.cur.slot i)
    (ha : EndsIn (Leaves D s) (act s)) : OutKeeps (Leaves D s) (issue i g act s) :=
  issueFull_leaves advance_leaves (fun t ht => voidIssue_leaves fun r hr => by rw [hD, ← ht]; exact hr) ha

end Sys2Proof.Machine
end

