-- ==== Sys2Proof/Laws/LeavesOps.lean ====
section
/-! SUPPORT. What each operation of a slot leaves of registers, system registers, accumulators, other sequencers and other cores. -/

namespace Sys2Proof.Machine

set_option Elab.async false
set_option linter.unusedSimpArgs false
set_option linter.unusedVariables false
set_option linter.unusedTactic false
set_option linter.unreachableTactic false

/-- A property of the module that nothing decides but what `Leaves []` keeps. -/
def Calm (P : State → Prop) : Prop := ∀ s t : State, Leaves [] s t → P s → P t

/-- A property that the writes of an operation's destinations keep. -/
def Owns (i : Instr) (P : State → Prop) : Prop := ∀ s t : State, Leaves (destsOf s.cur.slot i) s t → P s → P t

theorem Leaves.mono {D E : List Reg} {s t : State} (h : Leaves D s t) (hs : ∀ r ∈ D, r ∈ E) : Leaves E s t :=
  ⟨h.cur, fun r hr => h.regs r fun hd => hr (hs r hd), h.task, h.sys, h.acc, h.seqs, h.cores⟩

theorem Owns.calm {i : Instr} {P : State → Prop} (h : Owns i P) : Calm P := fun s t ht => h s t (ht.mono fun _ h => by simp at h)

theorem Owns.leaves (s : State) (i : Instr) : Owns i (Leaves (destsOf s.cur.slot i) s) := fun t u hu ht => by
  rw [ht.cur] at hu
  exact ht.trans hu

theorem Act.Keeps.change_calm {f : State → State} {P : State → Prop} (hP : Calm P) (h : ∀ s, Leaves [] s (f s)) : (Act.change f).Keeps P :=
  fun s hs => hP s _ (h s) hs

theorem issue_leaves_of {D : List Reg} {i : Instr} {g : Guard} {act : Act Unit} {s : State} (hD : D = destsOf s.cur.slot i)
    (ha : act.Keeps (Leaves D s)) : OutKeeps (Leaves D s) (issue i g act s) := issue_leaves hD (ha s (.refl _ _))

@[simp] theorem stickyAt_leaves (l st : Nat) {P : State → Prop} (hP : Calm P) : (stickyAt l st).Keeps P := by
  refine Act.Keeps.lam fun s hs => ?_
  unfold stickyAt
  split
  · exact hs
  · exact hP _ _ (.setMe (addPend_same _ fun r h => by simp at h)) hs

theorem writeMasked_leaves {i : Instr} {P : State → Prop} (hD : Owns i P) (r : Reg) (l : Nat) (v : Vec) (m st : Nat)
    (hr : ∀ s, P s → r ∈ destsOf s.cur.slot i) : (writeMasked r l v m st).Keeps P := fun s hs =>
  hD s _ (.setMe (addPend_same _ fun x h => by cases h; exact hr s hs)) hs

@[simp] theorem deliverMasked_leaves (i : Instr) (v : Vec) (m st : Nat) {P : State → Prop} (hP : Calm P) (hD : Owns i P) :
    (deliverMasked i v m st).Keeps P := by
  intro s hs
  rw [deliverMasked_run]
  refine hD s _ ?_ hs
  unfold State.deliver
  split
  · unfold State.stick
    split
    · exact .refl _ _
    · exact .setMe (addPend_same _ fun r h => by simp at h)
  · rename_i r rs h
    exact .setMe (addPend_same _ fun x hx => by cases hx; rw [h]; simp)

@[simp] theorem setRing_calm (n : Nat) (r : Ring) {P : State → Prop} (hP : Calm P) : (Act.change (setRing n r)).Keeps P :=
  .change_calm hP fun s => .setMe (.of_pend ⟨rfl, rfl, rfl, rfl, rfl, rfl, rfl, rfl, rfl⟩ ⟨rfl, rfl, rfl, rfl⟩ rfl fun _ h => .inl h)

@[simp] theorem deliver_leaves  (i : Instr) (v : Vec) {P : State → Prop} (hP : Calm P) (hD : Owns i P) : (deliver i v).Keeps P := by
  unfold deliver
  repeat' (first | with_reducible refine Act.Keeps.bind ?_ fun _ => ?_ | (with_reducible refine Act.Keeps.change_calm hP fun _ => ?_; first | exact Leaves.setMe (.of_pend ⟨rfl, rfl, rfl, rfl, rfl, rfl, rfl, rfl, rfl⟩ ⟨rfl, rfl, rfl, rfl⟩ rfl fun _ h => .inl h) | exact .of_same rfl rfl rfl | exact .refl _ _ | exact perf_leaves _ _ _ _) | split | (simp [hP, hD]; done) | dsimp only)

@[simp] theorem deliverNat_leaves  (i : Instr) (v : Nat) {P : State → Prop} (hP : Calm P) (hD : Owns i P) : (deliverNat i v).Keeps P := by
  unfold deliverNat
  repeat' (first | with_reducible refine Act.Keeps.bind ?_ fun _ => ?_ | (with_reducible refine Act.Keeps.change_calm hP fun _ => ?_; first | exact Leaves.setMe (.of_pend ⟨rfl, rfl, rfl, rfl, rfl, rfl, rfl, rfl, rfl⟩ ⟨rfl, rfl, rfl, rfl⟩ rfl fun _ h => .inl h) | exact .of_same rfl rfl rfl | exact .refl _ _ | exact perf_leaves _ _ _ _) | split | (simp [hP, hD]; done) | dsimp only)

@[simp] theorem scalar2_leaves  (i : Instr) (a b : Opnd) (f : Nat → Nat → Nat) {P : State → Prop} (hP : Calm P) (hD : Owns i P) : (scalar2 i a b f).Keeps P := by
  unfold scalar2
  repeat' (first | with_reducible refine Act.Keeps.bind ?_ fun _ => ?_ | (with_reducible refine Act.Keeps.change_calm hP fun _ => ?_; first | exact Leaves.setMe (.of_pend ⟨rfl, rfl, rfl, rfl, rfl, rfl, rfl, rfl, rfl⟩ ⟨rfl, rfl, rfl, rfl⟩ rfl fun _ h => .inl h) | exact .of_same rfl rfl rfl | exact .refl _ _ | exact perf_leaves _ _ _ _) | split | (simp [hP, hD]; done) | dsimp only)

@[simp] theorem scalar1_leaves  (i : Instr) (a : Opnd) (f : Nat → Nat) {P : State → Prop} (hP : Calm P) (hD : Owns i P) : (scalar1 i a f).Keeps P := by
  unfold scalar1
  repeat' (first | with_reducible refine Act.Keeps.bind ?_ fun _ => ?_ | (with_reducible refine Act.Keeps.change_calm hP fun _ => ?_; first | exact Leaves.setMe (.of_pend ⟨rfl, rfl, rfl, rfl, rfl, rfl, rfl, rfl, rfl⟩ ⟨rfl, rfl, rfl, rfl⟩ rfl fun _ h => .inl h) | exact .of_same rfl rfl rfl | exact .refl _ _ | exact perf_leaves _ _ _ _) | split | (simp [hP, hD]; done) | dsimp only)

theorem execAdd_leaves  (g : Guard) (d a b : Opnd) (s : State) : OutKeeps (Leaves (destsOf s.cur.slot (.add g d a b)) s) (execAdd g d a b s) := by
  unfold execAdd
  refine issue_leaves_of rfl ?_
  have hD := Owns.leaves s (.add g d a b)
  have hP := hD.calm
  repeat' (first | with_reducible refine Act.Keeps.bind ?_ fun _ => ?_ | (with_reducible refine Act.Keeps.change_calm hP fun _ => ?_; first | exact Leaves.setMe (.of_pend ⟨rfl, rfl, rfl, rfl, rfl, rfl, rfl, rfl, rfl⟩ ⟨rfl, rfl, rfl, rfl⟩ rfl fun _ h => .inl h) | exact .of_same rfl rfl rfl | exact .refl _ _ | exact perf_leaves _ _ _ _) | split | (simp [hP, hD]; done) | dsimp only)

theorem execSub_leaves  (g : Guard) (d a b : Opnd) (s : State) : OutKeeps (Leaves (destsOf s.cur.slot (.sub g d a b)) s) (execSub g d a b s) := by
  unfold execSub
  refine issue_leaves_of rfl ?_
  have hD := Owns.leaves s (.sub g d a b)
  have hP := hD.calm
  repeat' (first | with_reducible refine Act.Keeps.bind ?_ fun _ => ?_ | (with_reducible refine Act.Keeps.change_calm hP fun _ => ?_; first | exact Leaves.setMe (.of_pend ⟨rfl, rfl, rfl, rfl, rfl, rfl, rfl, rfl, rfl⟩ ⟨rfl, rfl, rfl, rfl⟩ rfl fun _ h => .inl h) | exact .of_same rfl rfl rfl | exact .refl _ _ | exact perf_leaves _ _ _ _) | split | (simp [hP, hD]; done) | dsimp only)

theorem execAddsl_leaves  (g : Guard) (d a b : Opnd) (sh : BitVec 6) (s : State) : OutKeeps (Leaves (destsOf s.cur.slot (.addsl g d a b sh)) s) (execAddsl g d a b sh s) := by
  unfold execAddsl
  refine issue_leaves_of rfl ?_
  have hD := Owns.leaves s (.addsl g d a b sh)
  have hP := hD.calm
  repeat' (first | with_reducible refine Act.Keeps.bind ?_ fun _ => ?_ | (with_reducible refine Act.Keeps.change_calm hP fun _ => ?_; first | exact Leaves.setMe (.of_pend ⟨rfl, rfl, rfl, rfl, rfl, rfl, rfl, rfl, rfl⟩ ⟨rfl, rfl, rfl, rfl⟩ rfl fun _ h => .inl h) | exact .of_same rfl rfl rfl | exact .refl _ _ | exact perf_leaves _ _ _ _) | split | (simp [hP, hD]; done) | dsimp only)

theorem execMul_leaves  (g : Guard) (d a b : Opnd) (s : State) : OutKeeps (Leaves (destsOf s.cur.slot (.mul g d a b)) s) (execMul g d a b s) := by
  unfold execMul
  refine issue_leaves_of rfl ?_
  have hD := Owns.leaves s (.mul g d a b)
  have hP := hD.calm
  repeat' (first | with_reducible refine Act.Keeps.bind ?_ fun _ => ?_ | (with_reducible refine Act.Keeps.change_calm hP fun _ => ?_; first | exact Leaves.setMe (.of_pend ⟨rfl, rfl, rfl, rfl, rfl, rfl, rfl, rfl, rfl⟩ ⟨rfl, rfl, rfl, rfl⟩ rfl fun _ h => .inl h) | exact .of_same rfl rfl rfl | exact .refl _ _ | exact perf_leaves _ _ _ _) | split | (simp [hP, hD]; done) | dsimp only)

theorem execMulh_leaves  (g : Guard) (d a b : Opnd) (s : State) : OutKeeps (Leaves (destsOf s.cur.slot (.mulh g d a b)) s) (execMulh g d a b s) := by
  unfold execMulh
  refine issue_leaves_of rfl ?_
  have hD := Owns.leaves s (.mulh g d a b)
  have hP := hD.calm
  repeat' (first | with_reducible refine Act.Keeps.bind ?_ fun _ => ?_ | (with_reducible refine Act.Keeps.change_calm hP fun _ => ?_; first | exact Leaves.setMe (.of_pend ⟨rfl, rfl, rfl, rfl, rfl, rfl, rfl, rfl, rfl⟩ ⟨rfl, rfl, rfl, rfl⟩ rfl fun _ h => .inl h) | exact .of_same rfl rfl rfl | exact .refl _ _ | exact perf_leaves _ _ _ _) | split | (simp [hP, hD]; done) | dsimp only)

theorem execMulhB_leaves  (g : Guard) (d a b : Opnd) (s : State) : OutKeeps (Leaves (destsOf s.cur.slot (.mulhB g d a b)) s) (execMulhB g d a b s) := by
  unfold execMulhB
  refine issue_leaves_of rfl ?_
  have hD := Owns.leaves s (.mulhB g d a b)
  have hP := hD.calm
  repeat' (first | with_reducible refine Act.Keeps.bind ?_ fun _ => ?_ | (with_reducible refine Act.Keeps.change_calm hP fun _ => ?_; first | exact Leaves.setMe (.of_pend ⟨rfl, rfl, rfl, rfl, rfl, rfl, rfl, rfl, rfl⟩ ⟨rfl, rfl, rfl, rfl⟩ rfl fun _ h => .inl h) | exact .of_same rfl rfl rfl | exact .refl _ _ | exact perf_leaves _ _ _ _) | split | (simp [hP, hD]; done) | dsimp only)

theorem execDiv_leaves  (g : Guard) (d a b : Opnd) (s : State) : OutKeeps (Leaves (destsOf s.cur.slot (.div g d a b)) s) (execDiv g d a b s) := by
  unfold execDiv
  refine issue_leaves_of rfl ?_
  have hD := Owns.leaves s (.div g d a b)
  have hP := hD.calm
  repeat' (first | with_reducible refine Act.Keeps.bind ?_ fun _ => ?_ | (with_reducible refine Act.Keeps.change_calm hP fun _ => ?_; first | exact Leaves.setMe (.of_pend ⟨rfl, rfl, rfl, rfl, rfl, rfl, rfl, rfl, rfl⟩ ⟨rfl, rfl, rfl, rfl⟩ rfl fun _ h => .inl h) | exact .of_same rfl rfl rfl | exact .refl _ _ | exact perf_leaves _ _ _ _) | split | (simp [hP, hD]; done) | dsimp only)

theorem execDivB_leaves  (g : Guard) (d a b : Opnd) (s : State) : OutKeeps (Leaves (destsOf s.cur.slot (.divB g d a b)) s) (execDivB g d a b s) := by
  unfold execDivB
  refine issue_leaves_of rfl ?_
  have hD := Owns.leaves s (.divB g d a b)
  have hP := hD.calm
  repeat' (first | with_reducible refine Act.Keeps.bind ?_ fun _ => ?_ | (with_reducible refine Act.Keeps.change_calm hP fun _ => ?_; first | exact Leaves.setMe (.of_pend ⟨rfl, rfl, rfl, rfl, rfl, rfl, rfl, rfl, rfl⟩ ⟨rfl, rfl, rfl, rfl⟩ rfl fun _ h => .inl h) | exact .of_same rfl rfl rfl | exact .refl _ _ | exact perf_leaves _ _ _ _) | split | (simp [hP, hD]; done) | dsimp only)

theorem execRem_leaves  (g : Guard) (d a b : Opnd) (s : State) : OutKeeps (Leaves (destsOf s.cur.slot (.rem g d a b)) s) (execRem g d a b s) := by
  unfold execRem
  refine issue_leaves_of rfl ?_
  have hD := Owns.leaves s (.rem g d a b)
  have hP := hD.calm
  repeat' (first | with_reducible refine Act.Keeps.bind ?_ fun _ => ?_ | (with_reducible refine Act.Keeps.change_calm hP fun _ => ?_; first | exact Leaves.setMe (.of_pend ⟨rfl, rfl, rfl, rfl, rfl, rfl, rfl, rfl, rfl⟩ ⟨rfl, rfl, rfl, rfl⟩ rfl fun _ h => .inl h) | exact .of_same rfl rfl rfl | exact .refl _ _ | exact perf_leaves _ _ _ _) | split | (simp [hP, hD]; done) | dsimp only)

theorem execRemB_leaves  (g : Guard) (d a b : Opnd) (s : State) : OutKeeps (Leaves (destsOf s.cur.slot (.remB g d a b)) s) (execRemB g d a b s) := by
  unfold execRemB
  refine issue_leaves_of rfl ?_
  have hD := Owns.leaves s (.remB g d a b)
  have hP := hD.calm
  repeat' (first | with_reducible refine Act.Keeps.bind ?_ fun _ => ?_ | (with_reducible refine Act.Keeps.change_calm hP fun _ => ?_; first | exact Leaves.setMe (.of_pend ⟨rfl, rfl, rfl, rfl, rfl, rfl, rfl, rfl, rfl⟩ ⟨rfl, rfl, rfl, rfl⟩ rfl fun _ h => .inl h) | exact .of_same rfl rfl rfl | exact .refl _ _ | exact perf_leaves _ _ _ _) | split | (simp [hP, hD]; done) | dsimp only)

theorem execAnd_leaves  (g : Guard) (d a b : Opnd) (s : State) : OutKeeps (Leaves (destsOf s.cur.slot (.and g d a b)) s) (execAnd g d a b s) := by
  unfold execAnd
  refine issue_leaves_of rfl ?_
  have hD := Owns.leaves s (.and g d a b)
  have hP := hD.calm
  repeat' (first | with_reducible refine Act.Keeps.bind ?_ fun _ => ?_ | (with_reducible refine Act.Keeps.change_calm hP fun _ => ?_; first | exact Leaves.setMe (.of_pend ⟨rfl, rfl, rfl, rfl, rfl, rfl, rfl, rfl, rfl⟩ ⟨rfl, rfl, rfl, rfl⟩ rfl fun _ h => .inl h) | exact .of_same rfl rfl rfl | exact .refl _ _ | exact perf_leaves _ _ _ _) | split | (simp [hP, hD]; done) | dsimp only)

theorem execOr_leaves  (g : Guard) (d a b : Opnd) (s : State) : OutKeeps (Leaves (destsOf s.cur.slot (.or g d a b)) s) (execOr g d a b s) := by
  unfold execOr
  refine issue_leaves_of rfl ?_
  have hD := Owns.leaves s (.or g d a b)
  have hP := hD.calm
  repeat' (first | with_reducible refine Act.Keeps.bind ?_ fun _ => ?_ | (with_reducible refine Act.Keeps.change_calm hP fun _ => ?_; first | exact Leaves.setMe (.of_pend ⟨rfl, rfl, rfl, rfl, rfl, rfl, rfl, rfl, rfl⟩ ⟨rfl, rfl, rfl, rfl⟩ rfl fun _ h => .inl h) | exact .of_same rfl rfl rfl | exact .refl _ _ | exact perf_leaves _ _ _ _) | split | (simp [hP, hD]; done) | dsimp only)

theorem execXor_leaves  (g : Guard) (d a b : Opnd) (s : State) : OutKeeps (Leaves (destsOf s.cur.slot (.xor g d a b)) s) (execXor g d a b s) := by
  unfold execXor
  refine issue_leaves_of rfl ?_
  have hD := Owns.leaves s (.xor g d a b)
  have hP := hD.calm
  repeat' (first | with_reducible refine Act.Keeps.bind ?_ fun _ => ?_ | (with_reducible refine Act.Keeps.change_calm hP fun _ => ?_; first | exact Leaves.setMe (.of_pend ⟨rfl, rfl, rfl, rfl, rfl, rfl, rfl, rfl, rfl⟩ ⟨rfl, rfl, rfl, rfl⟩ rfl fun _ h => .inl h) | exact .of_same rfl rfl rfl | exact .refl _ _ | exact perf_leaves _ _ _ _) | split | (simp [hP, hD]; done) | dsimp only)

theorem execAndn_leaves  (g : Guard) (d a b : Opnd) (s : State) : OutKeeps (Leaves (destsOf s.cur.slot (.andn g d a b)) s) (execAndn g d a b s) := by
  unfold execAndn
  refine issue_leaves_of rfl ?_
  have hD := Owns.leaves s (.andn g d a b)
  have hP := hD.calm
  repeat' (first | with_reducible refine Act.Keeps.bind ?_ fun _ => ?_ | (with_reducible refine Act.Keeps.change_calm hP fun _ => ?_; first | exact Leaves.setMe (.of_pend ⟨rfl, rfl, rfl, rfl, rfl, rfl, rfl, rfl, rfl⟩ ⟨rfl, rfl, rfl, rfl⟩ rfl fun _ h => .inl h) | exact .of_same rfl rfl rfl | exact .refl _ _ | exact perf_leaves _ _ _ _) | split | (simp [hP, hD]; done) | dsimp only)

theorem execShl_leaves  (g : Guard) (d a b : Opnd) (s : State) : OutKeeps (Leaves (destsOf s.cur.slot (.shl g d a b)) s) (execShl g d a b s) := by
  unfold execShl
  refine issue_leaves_of rfl ?_
  have hD := Owns.leaves s (.shl g d a b)
  have hP := hD.calm
  repeat' (first | with_reducible refine Act.Keeps.bind ?_ fun _ => ?_ | (with_reducible refine Act.Keeps.change_calm hP fun _ => ?_; first | exact Leaves.setMe (.of_pend ⟨rfl, rfl, rfl, rfl, rfl, rfl, rfl, rfl, rfl⟩ ⟨rfl, rfl, rfl, rfl⟩ rfl fun _ h => .inl h) | exact .of_same rfl rfl rfl | exact .refl _ _ | exact perf_leaves _ _ _ _) | split | (simp [hP, hD]; done) | dsimp only)

theorem execShr_leaves  (g : Guard) (d a b : Opnd) (s : State) : OutKeeps (Leaves (destsOf s.cur.slot (.shr g d a b)) s) (execShr g d a b s) := by
  unfold execShr
  refine issue_leaves_of rfl ?_
  have hD := Owns.leaves s (.shr g d a b)
  have hP := hD.calm
  repeat' (first | with_reducible refine Act.Keeps.bind ?_ fun _ => ?_ | (with_reducible refine Act.Keeps.change_calm hP fun _ => ?_; first | exact Leaves.setMe (.of_pend ⟨rfl, rfl, rfl, rfl, rfl, rfl, rfl, rfl, rfl⟩ ⟨rfl, rfl, rfl, rfl⟩ rfl fun _ h => .inl h) | exact .of_same rfl rfl rfl | exact .refl _ _ | exact perf_leaves _ _ _ _) | split | (simp [hP, hD]; done) | dsimp only)

theorem execSra_leaves  (g : Guard) (d a b : Opnd) (s : State) : OutKeeps (Leaves (destsOf s.cur.slot (.sra g d a b)) s) (execSra g d a b s) := by
  unfold execSra
  refine issue_leaves_of rfl ?_
  have hD := Owns.leaves s (.sra g d a b)
  have hP := hD.calm
  repeat' (first | with_reducible refine Act.Keeps.bind ?_ fun _ => ?_ | (with_reducible refine Act.Keeps.change_calm hP fun _ => ?_; first | exact Leaves.setMe (.of_pend ⟨rfl, rfl, rfl, rfl, rfl, rfl, rfl, rfl, rfl⟩ ⟨rfl, rfl, rfl, rfl⟩ rfl fun _ h => .inl h) | exact .of_same rfl rfl rfl | exact .refl _ _ | exact perf_leaves _ _ _ _) | split | (simp [hP, hD]; done) | dsimp only)

theorem execRotl_leaves  (g : Guard) (d a b : Opnd) (s : State) : OutKeeps (Leaves (destsOf s.cur.slot (.rotl g d a b)) s) (execRotl g d a b s) := by
  unfold execRotl
  refine issue_leaves_of rfl ?_
  have hD := Owns.leaves s (.rotl g d a b)
  have hP := hD.calm
  repeat' (first | with_reducible refine Act.Keeps.bind ?_ fun _ => ?_ | (with_reducible refine Act.Keeps.change_calm hP fun _ => ?_; first | exact Leaves.setMe (.of_pend ⟨rfl, rfl, rfl, rfl, rfl, rfl, rfl, rfl, rfl⟩ ⟨rfl, rfl, rfl, rfl⟩ rfl fun _ h => .inl h) | exact .of_same rfl rfl rfl | exact .refl _ _ | exact perf_leaves _ _ _ _) | split | (simp [hP, hD]; done) | dsimp only)

theorem execFshl_leaves  (g : Guard) (d a b : Opnd) (sh : BitVec 6) (s : State) : OutKeeps (Leaves (destsOf s.cur.slot (.fshl g d a b sh)) s) (execFshl g d a b sh s) := by
  unfold execFshl
  refine issue_leaves_of rfl ?_
  have hD := Owns.leaves s (.fshl g d a b sh)
  have hP := hD.calm
  repeat' (first | with_reducible refine Act.Keeps.bind ?_ fun _ => ?_ | (with_reducible refine Act.Keeps.change_calm hP fun _ => ?_; first | exact Leaves.setMe (.of_pend ⟨rfl, rfl, rfl, rfl, rfl, rfl, rfl, rfl, rfl⟩ ⟨rfl, rfl, rfl, rfl⟩ rfl fun _ h => .inl h) | exact .of_same rfl rfl rfl | exact .refl _ _ | exact perf_leaves _ _ _ _) | split | (simp [hP, hD]; done) | dsimp only)

theorem execFshr_leaves  (g : Guard) (d a b : Opnd) (sh : BitVec 6) (s : State) : OutKeeps (Leaves (destsOf s.cur.slot (.fshr g d a b sh)) s) (execFshr g d a b sh s) := by
  unfold execFshr
  refine issue_leaves_of rfl ?_
  have hD := Owns.leaves s (.fshr g d a b sh)
  have hP := hD.calm
  repeat' (first | with_reducible refine Act.Keeps.bind ?_ fun _ => ?_ | (with_reducible refine Act.Keeps.change_calm hP fun _ => ?_; first | exact Leaves.setMe (.of_pend ⟨rfl, rfl, rfl, rfl, rfl, rfl, rfl, rfl, rfl⟩ ⟨rfl, rfl, rfl, rfl⟩ rfl fun _ h => .inl h) | exact .of_same rfl rfl rfl | exact .refl _ _ | exact perf_leaves _ _ _ _) | split | (simp [hP, hD]; done) | dsimp only)

theorem execAddi_leaves  (g : Guard) (d a : Opnd) (imm : BitVec 23) (s : State) : OutKeeps (Leaves (destsOf s.cur.slot (.addi g d a imm)) s) (execAddi g d a imm s) := by
  unfold execAddi
  refine issue_leaves_of rfl ?_
  have hD := Owns.leaves s (.addi g d a imm)
  have hP := hD.calm
  repeat' (first | with_reducible refine Act.Keeps.bind ?_ fun _ => ?_ | (with_reducible refine Act.Keeps.change_calm hP fun _ => ?_; first | exact Leaves.setMe (.of_pend ⟨rfl, rfl, rfl, rfl, rfl, rfl, rfl, rfl, rfl⟩ ⟨rfl, rfl, rfl, rfl⟩ rfl fun _ h => .inl h) | exact .of_same rfl rfl rfl | exact .refl _ _ | exact perf_leaves _ _ _ _) | split | (simp [hP, hD]; done) | dsimp only)

theorem execAndi_leaves  (g : Guard) (d a : Opnd) (imm : BitVec 23) (s : State) : OutKeeps (Leaves (destsOf s.cur.slot (.andi g d a imm)) s) (execAndi g d a imm s) := by
  unfold execAndi
  refine issue_leaves_of rfl ?_
  have hD := Owns.leaves s (.andi g d a imm)
  have hP := hD.calm
  repeat' (first | with_reducible refine Act.Keeps.bind ?_ fun _ => ?_ | (with_reducible refine Act.Keeps.change_calm hP fun _ => ?_; first | exact Leaves.setMe (.of_pend ⟨rfl, rfl, rfl, rfl, rfl, rfl, rfl, rfl, rfl⟩ ⟨rfl, rfl, rfl, rfl⟩ rfl fun _ h => .inl h) | exact .of_same rfl rfl rfl | exact .refl _ _ | exact perf_leaves _ _ _ _) | split | (simp [hP, hD]; done) | dsimp only)

theorem execOri_leaves  (g : Guard) (d a : Opnd) (imm : BitVec 23) (s : State) : OutKeeps (Leaves (destsOf s.cur.slot (.ori g d a imm)) s) (execOri g d a imm s) := by
  unfold execOri
  refine issue_leaves_of rfl ?_
  have hD := Owns.leaves s (.ori g d a imm)
  have hP := hD.calm
  repeat' (first | with_reducible refine Act.Keeps.bind ?_ fun _ => ?_ | (with_reducible refine Act.Keeps.change_calm hP fun _ => ?_; first | exact Leaves.setMe (.of_pend ⟨rfl, rfl, rfl, rfl, rfl, rfl, rfl, rfl, rfl⟩ ⟨rfl, rfl, rfl, rfl⟩ rfl fun _ h => .inl h) | exact .of_same rfl rfl rfl | exact .refl _ _ | exact perf_leaves _ _ _ _) | split | (simp [hP, hD]; done) | dsimp only)

theorem execXori_leaves  (g : Guard) (d a : Opnd) (imm : BitVec 23) (s : State) : OutKeeps (Leaves (destsOf s.cur.slot (.xori g d a imm)) s) (execXori g d a imm s) := by
  unfold execXori
  refine issue_leaves_of rfl ?_
  have hD := Owns.leaves s (.xori g d a imm)
  have hP := hD.calm
  repeat' (first | with_reducible refine Act.Keeps.bind ?_ fun _ => ?_ | (with_reducible refine Act.Keeps.change_calm hP fun _ => ?_; first | exact Leaves.setMe (.of_pend ⟨rfl, rfl, rfl, rfl, rfl, rfl, rfl, rfl, rfl⟩ ⟨rfl, rfl, rfl, rfl⟩ rfl fun _ h => .inl h) | exact .of_same rfl rfl rfl | exact .refl _ _ | exact perf_leaves _ _ _ _) | split | (simp [hP, hD]; done) | dsimp only)

theorem execShli_leaves  (g : Guard) (d a : Opnd) (imm : BitVec 23) (s : State) : OutKeeps (Leaves (destsOf s.cur.slot (.shli g d a imm)) s) (execShli g d a imm s) := by
  unfold execShli
  refine issue_leaves_of rfl ?_
  have hD := Owns.leaves s (.shli g d a imm)
  have hP := hD.calm
  repeat' (first | with_reducible refine Act.Keeps.bind ?_ fun _ => ?_ | (with_reducible refine Act.Keeps.change_calm hP fun _ => ?_; first | exact Leaves.setMe (.of_pend ⟨rfl, rfl, rfl, rfl, rfl, rfl, rfl, rfl, rfl⟩ ⟨rfl, rfl, rfl, rfl⟩ rfl fun _ h => .inl h) | exact .of_same rfl rfl rfl | exact .refl _ _ | exact perf_leaves _ _ _ _) | split | (simp [hP, hD]; done) | dsimp only)

theorem execShri_leaves  (g : Guard) (d a : Opnd) (imm : BitVec 23) (s : State) : OutKeeps (Leaves (destsOf s.cur.slot (.shri g d a imm)) s) (execShri g d a imm s) := by
  unfold execShri
  refine issue_leaves_of rfl ?_
  have hD := Owns.leaves s (.shri g d a imm)
  have hP := hD.calm
  repeat' (first | with_reducible refine Act.Keeps.bind ?_ fun _ => ?_ | (with_reducible refine Act.Keeps.change_calm hP fun _ => ?_; first | exact Leaves.setMe (.of_pend ⟨rfl, rfl, rfl, rfl, rfl, rfl, rfl, rfl, rfl⟩ ⟨rfl, rfl, rfl, rfl⟩ rfl fun _ h => .inl h) | exact .of_same rfl rfl rfl | exact .refl _ _ | exact perf_leaves _ _ _ _) | split | (simp [hP, hD]; done) | dsimp only)

theorem execSrai_leaves  (g : Guard) (d a : Opnd) (imm : BitVec 23) (s : State) : OutKeeps (Leaves (destsOf s.cur.slot (.srai g d a imm)) s) (execSrai g d a imm s) := by
  unfold execSrai
  refine issue_leaves_of rfl ?_
  have hD := Owns.leaves s (.srai g d a imm)
  have hP := hD.calm
  repeat' (first | with_reducible refine Act.Keeps.bind ?_ fun _ => ?_ | (with_reducible refine Act.Keeps.change_calm hP fun _ => ?_; first | exact Leaves.setMe (.of_pend ⟨rfl, rfl, rfl, rfl, rfl, rfl, rfl, rfl, rfl⟩ ⟨rfl, rfl, rfl, rfl⟩ rfl fun _ h => .inl h) | exact .of_same rfl rfl rfl | exact .refl _ _ | exact perf_leaves _ _ _ _) | split | (simp [hP, hD]; done) | dsimp only)

theorem execClz_leaves  (g : Guard) (d a : Opnd) (s : State) : OutKeeps (Leaves (destsOf s.cur.slot (.clz g d a)) s) (execClz g d a s) := by
  unfold execClz
  refine issue_leaves_of rfl ?_
  have hD := Owns.leaves s (.clz g d a)
  have hP := hD.calm
  repeat' (first | with_reducible refine Act.Keeps.bind ?_ fun _ => ?_ | (with_reducible refine Act.Keeps.change_calm hP fun _ => ?_; first | exact Leaves.setMe (.of_pend ⟨rfl, rfl, rfl, rfl, rfl, rfl, rfl, rfl, rfl⟩ ⟨rfl, rfl, rfl, rfl⟩ rfl fun _ h => .inl h) | exact .of_same rfl rfl rfl | exact .refl _ _ | exact perf_leaves _ _ _ _) | split | (simp [hP, hD]; done) | dsimp only)

theorem execCtz_leaves  (g : Guard) (d a : Opnd) (s : State) : OutKeeps (Leaves (destsOf s.cur.slot (.ctz g d a)) s) (execCtz g d a s) := by
  unfold execCtz
  refine issue_leaves_of rfl ?_
  have hD := Owns.leaves s (.ctz g d a)
  have hP := hD.calm
  repeat' (first | with_reducible refine Act.Keeps.bind ?_ fun _ => ?_ | (with_reducible refine Act.Keeps.change_calm hP fun _ => ?_; first | exact Leaves.setMe (.of_pend ⟨rfl, rfl, rfl, rfl, rfl, rfl, rfl, rfl, rfl⟩ ⟨rfl, rfl, rfl, rfl⟩ rfl fun _ h => .inl h) | exact .of_same rfl rfl rfl | exact .refl _ _ | exact perf_leaves _ _ _ _) | split | (simp [hP, hD]; done) | dsimp only)

theorem execPopc_leaves  (g : Guard) (d a : Opnd) (s : State) : OutKeeps (Leaves (destsOf s.cur.slot (.popc g d a)) s) (execPopc g d a s) := by
  unfold execPopc
  refine issue_leaves_of rfl ?_
  have hD := Owns.leaves s (.popc g d a)
  have hP := hD.calm
  repeat' (first | with_reducible refine Act.Keeps.bind ?_ fun _ => ?_ | (with_reducible refine Act.Keeps.change_calm hP fun _ => ?_; first | exact Leaves.setMe (.of_pend ⟨rfl, rfl, rfl, rfl, rfl, rfl, rfl, rfl, rfl⟩ ⟨rfl, rfl, rfl, rfl⟩ rfl fun _ h => .inl h) | exact .of_same rfl rfl rfl | exact .refl _ _ | exact perf_leaves _ _ _ _) | split | (simp [hP, hD]; done) | dsimp only)

theorem execMin_leaves  (g : Guard) (d a b : Opnd) (s : State) : OutKeeps (Leaves (destsOf s.cur.slot (.min g d a b)) s) (execMin g d a b s) := by
  unfold execMin
  refine issue_leaves_of rfl ?_
  have hD := Owns.leaves s (.min g d a b)
  have hP := hD.calm
  repeat' (first | with_reducible refine Act.Keeps.bind ?_ fun _ => ?_ | (with_reducible refine Act.Keeps.change_calm hP fun _ => ?_; first | exact Leaves.setMe (.of_pend ⟨rfl, rfl, rfl, rfl, rfl, rfl, rfl, rfl, rfl⟩ ⟨rfl, rfl, rfl, rfl⟩ rfl fun _ h => .inl h) | exact .of_same rfl rfl rfl | exact .refl _ _ | exact perf_leaves _ _ _ _) | split | (simp [hP, hD]; done) | dsimp only)

theorem execMax_leaves  (g : Guard) (d a b : Opnd) (s : State) : OutKeeps (Leaves (destsOf s.cur.slot (.max g d a b)) s) (execMax g d a b s) := by
  unfold execMax
  refine issue_leaves_of rfl ?_
  have hD := Owns.leaves s (.max g d a b)
  have hP := hD.calm
  repeat' (first | with_reducible refine Act.Keeps.bind ?_ fun _ => ?_ | (with_reducible refine Act.Keeps.change_calm hP fun _ => ?_; first | exact Leaves.setMe (.of_pend ⟨rfl, rfl, rfl, rfl, rfl, rfl, rfl, rfl, rfl⟩ ⟨rfl, rfl, rfl, rfl⟩ rfl fun _ h => .inl h) | exact .of_same rfl rfl rfl | exact .refl _ _ | exact perf_leaves _ _ _ _) | split | (simp [hP, hD]; done) | dsimp only)

theorem execMinB_leaves  (g : Guard) (d a b : Opnd) (s : State) : OutKeeps (Leaves (destsOf s.cur.slot (.minB g d a b)) s) (execMinB g d a b s) := by
  unfold execMinB
  refine issue_leaves_of rfl ?_
  have hD := Owns.leaves s (.minB g d a b)
  have hP := hD.calm
  repeat' (first | with_reducible refine Act.Keeps.bind ?_ fun _ => ?_ | (with_reducible refine Act.Keeps.change_calm hP fun _ => ?_; first | exact Leaves.setMe (.of_pend ⟨rfl, rfl, rfl, rfl, rfl, rfl, rfl, rfl, rfl⟩ ⟨rfl, rfl, rfl, rfl⟩ rfl fun _ h => .inl h) | exact .of_same rfl rfl rfl | exact .refl _ _ | exact perf_leaves _ _ _ _) | split | (simp [hP, hD]; done) | dsimp only)

theorem execMaxB_leaves  (g : Guard) (d a b : Opnd) (s : State) : OutKeeps (Leaves (destsOf s.cur.slot (.maxB g d a b)) s) (execMaxB g d a b s) := by
  unfold execMaxB
  refine issue_leaves_of rfl ?_
  have hD := Owns.leaves s (.maxB g d a b)
  have hP := hD.calm
  repeat' (first | with_reducible refine Act.Keeps.bind ?_ fun _ => ?_ | (with_reducible refine Act.Keeps.change_calm hP fun _ => ?_; first | exact Leaves.setMe (.of_pend ⟨rfl, rfl, rfl, rfl, rfl, rfl, rfl, rfl, rfl⟩ ⟨rfl, rfl, rfl, rfl⟩ rfl fun _ h => .inl h) | exact .of_same rfl rfl rfl | exact .refl _ _ | exact perf_leaves _ _ _ _) | split | (simp [hP, hD]; done) | dsimp only)

theorem execBfx_leaves  (g : Guard) (d a b : Opnd) (sx : Bool) (s : State) : OutKeeps (Leaves (destsOf s.cur.slot (.bfx g d a b sx)) s) (execBfx g d a b sx s) := by
  unfold execBfx
  refine issue_leaves_of rfl ?_
  have hD := Owns.leaves s (.bfx g d a b sx)
  have hP := hD.calm
  repeat' (first | with_reducible refine Act.Keeps.bind ?_ fun _ => ?_ | (with_reducible refine Act.Keeps.change_calm hP fun _ => ?_; first | exact Leaves.setMe (.of_pend ⟨rfl, rfl, rfl, rfl, rfl, rfl, rfl, rfl, rfl⟩ ⟨rfl, rfl, rfl, rfl⟩ rfl fun _ h => .inl h) | exact .of_same rfl rfl rfl | exact .refl _ _ | exact perf_leaves _ _ _ _) | split | (simp [hP, hD]; done) | dsimp only)

theorem execBfi_leaves  (g : Guard) (d a b : Opnd) (s : State) : OutKeeps (Leaves (destsOf s.cur.slot (.bfi g d a b)) s) (execBfi g d a b s) := by
  unfold execBfi
  refine issue_leaves_of rfl ?_
  have hD := Owns.leaves s (.bfi g d a b)
  have hP := hD.calm
  repeat' (first | with_reducible refine Act.Keeps.bind ?_ fun _ => ?_ | (with_reducible refine Act.Keeps.change_calm hP fun _ => ?_; first | exact Leaves.setMe (.of_pend ⟨rfl, rfl, rfl, rfl, rfl, rfl, rfl, rfl, rfl⟩ ⟨rfl, rfl, rfl, rfl⟩ rfl fun _ h => .inl h) | exact .of_same rfl rfl rfl | exact .refl _ _ | exact perf_leaves _ _ _ _) | split | (simp [hP, hD]; done) | dsimp only)

theorem execSel_leaves  (g : Guard) (d a b : Opnd) (psel : BitVec 4) (pinv : Bool) (s : State) : OutKeeps (Leaves (destsOf s.cur.slot (.sel g d a b psel pinv)) s) (execSel g d a b psel pinv s) := by
  unfold execSel
  refine issue_leaves_of rfl ?_
  have hD := Owns.leaves s (.sel g d a b psel pinv)
  have hP := hD.calm
  repeat' (first | with_reducible refine Act.Keeps.bind ?_ fun _ => ?_ | (with_reducible refine Act.Keeps.change_calm hP fun _ => ?_; first | exact Leaves.setMe (.of_pend ⟨rfl, rfl, rfl, rfl, rfl, rfl, rfl, rfl, rfl⟩ ⟨rfl, rfl, rfl, rfl⟩ rfl fun _ h => .inl h) | exact .of_same rfl rfl rfl | exact .refl _ _ | exact perf_leaves _ _ _ _) | split | (simp [hP, hD]; done) | dsimp only)

theorem execLi_leaves  (g : Guard) (d : Opnd) (imm : BitVec 23) (s : State) : OutKeeps (Leaves (destsOf s.cur.slot (.li g d imm)) s) (execLi g d imm s) := by
  unfold execLi
  refine issue_leaves_of rfl ?_
  have hD := Owns.leaves s (.li g d imm)
  have hP := hD.calm
  repeat' (first | with_reducible refine Act.Keeps.bind ?_ fun _ => ?_ | (with_reducible refine Act.Keeps.change_calm hP fun _ => ?_; first | exact Leaves.setMe (.of_pend ⟨rfl, rfl, rfl, rfl, rfl, rfl, rfl, rfl, rfl⟩ ⟨rfl, rfl, rfl, rfl⟩ rfl fun _ h => .inl h) | exact .of_same rfl rfl rfl | exact .refl _ _ | exact perf_leaves _ _ _ _) | split | (simp [hP, hD]; done) | dsimp only)

theorem execLih_leaves  (g : Guard) (d a : Opnd) (imm : BitVec 23) (s : State) : OutKeeps (Leaves (destsOf s.cur.slot (.lih g d a imm)) s) (execLih g d a imm s) := by
  unfold execLih
  refine issue_leaves_of rfl ?_
  have hD := Owns.leaves s (.lih g d a imm)
  have hP := hD.calm
  repeat' (first | with_reducible refine Act.Keeps.bind ?_ fun _ => ?_ | (with_reducible refine Act.Keeps.change_calm hP fun _ => ?_; first | exact Leaves.setMe (.of_pend ⟨rfl, rfl, rfl, rfl, rfl, rfl, rfl, rfl, rfl⟩ ⟨rfl, rfl, rfl, rfl⟩ rfl fun _ h => .inl h) | exact .of_same rfl rfl rfl | exact .refl _ _ | exact perf_leaves _ _ _ _) | split | (simp [hP, hD]; done) | dsimp only)

theorem execCmp_leaves  (g : Guard) (p cc : BitVec 4) (a b : Opnd) (s : State) : OutKeeps (Leaves (destsOf s.cur.slot (.cmp g p cc a b)) s) (execCmp g p cc a b s) := by
  unfold execCmp
  refine issue_leaves_of rfl ?_
  have hD := Owns.leaves s (.cmp g p cc a b)
  have hP := hD.calm
  repeat' (first | with_reducible refine Act.Keeps.bind ?_ fun _ => ?_ | (with_reducible refine Act.Keeps.change_calm hP fun _ => ?_; first | exact Leaves.setMe (.of_pend ⟨rfl, rfl, rfl, rfl, rfl, rfl, rfl, rfl, rfl⟩ ⟨rfl, rfl, rfl, rfl⟩ rfl fun _ h => .inl h) | exact .of_same rfl rfl rfl | exact .refl _ _ | exact perf_leaves _ _ _ _) | split | (simp [hP, hD]; done) | dsimp only)

theorem execCmpi_leaves  (g : Guard) (p cc : BitVec 4) (a : Opnd) (imm : BitVec 23) (s : State) : OutKeeps (Leaves (destsOf s.cur.slot (.cmpi g p cc a imm)) s) (execCmpi g p cc a imm s) := by
  unfold execCmpi
  refine issue_leaves_of rfl ?_
  have hD := Owns.leaves s (.cmpi g p cc a imm)
  have hP := hD.calm
  repeat' (first | with_reducible refine Act.Keeps.bind ?_ fun _ => ?_ | (with_reducible refine Act.Keeps.change_calm hP fun _ => ?_; first | exact Leaves.setMe (.of_pend ⟨rfl, rfl, rfl, rfl, rfl, rfl, rfl, rfl, rfl⟩ ⟨rfl, rfl, rfl, rfl⟩ rfl fun _ h => .inl h) | exact .of_same rfl rfl rfl | exact .refl _ _ | exact perf_leaves _ _ _ _) | split | (simp [hP, hD]; done) | dsimp only)

theorem execPand_leaves  (g : Guard) (d a b : BitVec 4) (na nb : Bool) (s : State) : OutKeeps (Leaves (destsOf s.cur.slot (.pand g d a b na nb)) s) (execPand g d a b na nb s) := by
  unfold execPand
  refine issue_leaves_of rfl ?_
  have hD := Owns.leaves s (.pand g d a b na nb)
  have hP := hD.calm
  repeat' (first | with_reducible refine Act.Keeps.bind ?_ fun _ => ?_ | (with_reducible refine Act.Keeps.change_calm hP fun _ => ?_; first | exact Leaves.setMe (.of_pend ⟨rfl, rfl, rfl, rfl, rfl, rfl, rfl, rfl, rfl⟩ ⟨rfl, rfl, rfl, rfl⟩ rfl fun _ h => .inl h) | exact .of_same rfl rfl rfl | exact .refl _ _ | exact perf_leaves _ _ _ _) | split | (simp [hP, hD]; done) | dsimp only)

theorem execPor_leaves  (g : Guard) (d a b : BitVec 4) (na nb : Bool) (s : State) : OutKeeps (Leaves (destsOf s.cur.slot (.por g d a b na nb)) s) (execPor g d a b na nb s) := by
  unfold execPor
  refine issue_leaves_of rfl ?_
  have hD := Owns.leaves s (.por g d a b na nb)
  have hP := hD.calm
  repeat' (first | with_reducible refine Act.Keeps.bind ?_ fun _ => ?_ | (with_reducible refine Act.Keeps.change_calm hP fun _ => ?_; first | exact Leaves.setMe (.of_pend ⟨rfl, rfl, rfl, rfl, rfl, rfl, rfl, rfl, rfl⟩ ⟨rfl, rfl, rfl, rfl⟩ rfl fun _ h => .inl h) | exact .of_same rfl rfl rfl | exact .refl _ _ | exact perf_leaves _ _ _ _) | split | (simp [hP, hD]; done) | dsimp only)

theorem execPnot_leaves  (g : Guard) (d a : BitVec 4) (s : State) : OutKeeps (Leaves (destsOf s.cur.slot (.pnot g d a)) s) (execPnot g d a s) := by
  unfold execPnot
  refine issue_leaves_of rfl ?_
  have hD := Owns.leaves s (.pnot g d a)
  have hP := hD.calm
  repeat' (first | with_reducible refine Act.Keeps.bind ?_ fun _ => ?_ | (with_reducible refine Act.Keeps.change_calm hP fun _ => ?_; first | exact Leaves.setMe (.of_pend ⟨rfl, rfl, rfl, rfl, rfl, rfl, rfl, rfl, rfl⟩ ⟨rfl, rfl, rfl, rfl⟩ rfl fun _ h => .inl h) | exact .of_same rfl rfl rfl | exact .refl _ _ | exact perf_leaves _ _ _ _) | split | (simp [hP, hD]; done) | dsimp only)

@[simp] theorem goTo_leaves  (target : Int) (leave : Bool) {P : State → Prop} (hP : Calm P) : (goTo target leave).Keeps P := by
  unfold goTo
  repeat' (first | with_reducible refine Act.Keeps.bind ?_ fun _ => ?_ | (with_reducible refine Act.Keeps.change_calm hP fun _ => ?_; first | exact Leaves.setMe (.of_pend ⟨rfl, rfl, rfl, rfl, rfl, rfl, rfl, rfl, rfl⟩ ⟨rfl, rfl, rfl, rfl⟩ rfl fun _ h => .inl h) | exact .of_same rfl rfl rfl | exact .refl _ _ | exact perf_leaves _ _ _ _) | split | (simp [hP]; done) | dsimp only)

theorem execBr_leaves  (g : Guard) (imm : BitVec 23) (s : State) : OutKeeps (Leaves (destsOf s.cur.slot (.br g imm)) s) (execBr g imm s) := by
  unfold execBr
  refine issue_leaves_of rfl ?_
  have hD := Owns.leaves s (.br g imm)
  have hP := hD.calm
  repeat' (first | with_reducible refine Act.Keeps.bind ?_ fun _ => ?_ | (with_reducible refine Act.Keeps.change_calm hP fun _ => ?_; first | exact Leaves.setMe (.of_pend ⟨rfl, rfl, rfl, rfl, rfl, rfl, rfl, rfl, rfl⟩ ⟨rfl, rfl, rfl, rfl⟩ rfl fun _ h => .inl h) | exact .of_same rfl rfl rfl | exact .refl _ _ | exact perf_leaves _ _ _ _) | split | (simp [hP, hD]; done) | dsimp only)

theorem execJmp_leaves  (g : Guard) (imm : BitVec 23) (s : State) : OutKeeps (Leaves (destsOf s.cur.slot (.jmp g imm)) s) (execJmp g imm s) := by
  unfold execJmp
  refine issue_leaves_of rfl ?_
  have hD := Owns.leaves s (.jmp g imm)
  have hP := hD.calm
  repeat' (first | with_reducible refine Act.Keeps.bind ?_ fun _ => ?_ | (with_reducible refine Act.Keeps.change_calm hP fun _ => ?_; first | exact Leaves.setMe (.of_pend ⟨rfl, rfl, rfl, rfl, rfl, rfl, rfl, rfl, rfl⟩ ⟨rfl, rfl, rfl, rfl⟩ rfl fun _ h => .inl h) | exact .of_same rfl rfl rfl | exact .refl _ _ | exact perf_leaves _ _ _ _) | split | (simp [hP, hD]; done) | dsimp only)

theorem execJmpr_leaves  (g : Guard) (a : Opnd) (s : State) : OutKeeps (Leaves (destsOf s.cur.slot (.jmpr g a)) s) (execJmpr g a s) := by
  unfold execJmpr
  refine issue_leaves_of rfl ?_
  have hD := Owns.leaves s (.jmpr g a)
  have hP := hD.calm
  repeat' (first | with_reducible refine Act.Keeps.bind ?_ fun _ => ?_ | (with_reducible refine Act.Keeps.change_calm hP fun _ => ?_; first | exact Leaves.setMe (.of_pend ⟨rfl, rfl, rfl, rfl, rfl, rfl, rfl, rfl, rfl⟩ ⟨rfl, rfl, rfl, rfl⟩ rfl fun _ h => .inl h) | exact .of_same rfl rfl rfl | exact .refl _ _ | exact perf_leaves _ _ _ _) | split | (simp [hP, hD]; done) | dsimp only)

theorem execCall_leaves  (g : Guard) (d : Opnd) (imm : BitVec 23) (s : State) : OutKeeps (Leaves (destsOf s.cur.slot (.call g d imm)) s) (execCall g d imm s) := by
  unfold execCall
  refine issue_leaves_of rfl ?_
  have hD := Owns.leaves s (.call g d imm)
  have hP := hD.calm
  repeat' (first | with_reducible refine Act.Keeps.bind ?_ fun _ => ?_ | (with_reducible refine Act.Keeps.change_calm hP fun _ => ?_; first | exact Leaves.setMe (.of_pend ⟨rfl, rfl, rfl, rfl, rfl, rfl, rfl, rfl, rfl⟩ ⟨rfl, rfl, rfl, rfl⟩ rfl fun _ h => .inl h) | exact .of_same rfl rfl rfl | exact .refl _ _ | exact perf_leaves _ _ _ _) | split | (simp [hP, hD]; done) | dsimp only)

theorem execRet_leaves  (g : Guard) (a : Opnd) (s : State) : OutKeeps (Leaves (destsOf s.cur.slot (.ret g a)) s) (execRet g a s) := by
  unfold execRet
  refine issue_leaves_of rfl ?_
  have hD := Owns.leaves s (.ret g a)
  have hP := hD.calm
  repeat' (first | with_reducible refine Act.Keeps.bind ?_ fun _ => ?_ | (with_reducible refine Act.Keeps.change_calm hP fun _ => ?_; first | exact Leaves.setMe (.of_pend ⟨rfl, rfl, rfl, rfl, rfl, rfl, rfl, rfl, rfl⟩ ⟨rfl, rfl, rfl, rfl⟩ rfl fun _ h => .inl h) | exact .of_same rfl rfl rfl | exact .refl _ _ | exact perf_leaves _ _ _ _) | split | (simp [hP, hD]; done) | dsimp only)

theorem execLoop_leaves  (g : Guard) (a : Opnd) (imm : BitVec 23) (s : State) : OutKeeps (Leaves (destsOf s.cur.slot (.loop g a imm)) s) (execLoop g a imm s) := by
  unfold execLoop
  refine issue_leaves_of rfl ?_
  have hD := Owns.leaves s (.loop g a imm)
  have hP := hD.calm
  repeat' (first | with_reducible refine Act.Keeps.bind ?_ fun _ => ?_ | (with_reducible refine Act.Keeps.change_calm hP fun _ => ?_; first | exact Leaves.setMe (.of_pend ⟨rfl, rfl, rfl, rfl, rfl, rfl, rfl, rfl, rfl⟩ ⟨rfl, rfl, rfl, rfl⟩ rfl fun _ h => .inl h) | exact .of_same rfl rfl rfl | exact .refl _ _ | exact perf_leaves _ _ _ _) | split | (simp [hP, hD]; done) | dsimp only)

theorem execHalt_leaves  (g : Guard) (s : State) : OutKeeps (Leaves (destsOf s.cur.slot (.halt g)) s) (execHalt g s) := by
  unfold execHalt
  refine issue_leaves_of rfl ?_
  have hD := Owns.leaves s (.halt g)
  have hP := hD.calm
  repeat' (first | with_reducible refine Act.Keeps.bind ?_ fun _ => ?_ | (with_reducible refine Act.Keeps.change_calm hP fun _ => ?_; first | exact Leaves.setMe (.of_pend ⟨rfl, rfl, rfl, rfl, rfl, rfl, rfl, rfl, rfl⟩ ⟨rfl, rfl, rfl, rfl⟩ rfl fun _ h => .inl h) | exact .of_same rfl rfl rfl | exact .refl _ _ | exact perf_leaves _ _ _ _) | split | (simp [hP, hD]; done) | dsimp only)

theorem execXmov_leaves  (g : Guard) (dst : Dest) (a : Opnd) (lane : BitVec 3) (bcast : Bool) (s : State) : OutKeeps (Leaves (destsOf s.cur.slot (.xmov g dst a lane bcast)) s) (execXmov g dst a lane bcast s) := by
  unfold execXmov
  refine issue_leaves_of rfl ?_
  have hD := Owns.leaves s (.xmov g dst a lane bcast)
  have hP := hD.calm
  repeat' (first | with_reducible refine Act.Keeps.bind ?_ fun _ => ?_ | (with_reducible refine Act.Keeps.change_calm hP fun _ => ?_; first | exact Leaves.setMe (.of_pend ⟨rfl, rfl, rfl, rfl, rfl, rfl, rfl, rfl, rfl⟩ ⟨rfl, rfl, rfl, rfl⟩ rfl fun _ h => .inl h) | exact .of_same rfl rfl rfl | exact .refl _ _ | exact perf_leaves _ _ _ _) | split | (simp [hP, hD]; done) | dsimp only)

theorem execRdsr_leaves  (g : Guard) (d : Opnd) (sr : BitVec 23) (s : State) : OutKeeps (Leaves (destsOf s.cur.slot (.rdsr g d sr)) s) (execRdsr g d sr s) := by
  unfold execRdsr
  refine issue_leaves_of rfl ?_
  have hD := Owns.leaves s (.rdsr g d sr)
  have hP := hD.calm
  repeat' (first | with_reducible refine Act.Keeps.bind ?_ fun _ => ?_ | (with_reducible refine Act.Keeps.change_calm hP fun _ => ?_; first | exact Leaves.setMe (.of_pend ⟨rfl, rfl, rfl, rfl, rfl, rfl, rfl, rfl, rfl⟩ ⟨rfl, rfl, rfl, rfl⟩ rfl fun _ h => .inl h) | exact .of_same rfl rfl rfl | exact .refl _ _ | exact perf_leaves _ _ _ _) | split | (simp [hP, hD]; done) | dsimp only)

theorem execRdts_leaves  (g : Guard) (d : Opnd) (s : State) : OutKeeps (Leaves (destsOf s.cur.slot (.rdts g d)) s) (execRdts g d s) := by
  unfold execRdts
  refine issue_leaves_of rfl ?_
  have hD := Owns.leaves s (.rdts g d)
  have hP := hD.calm
  repeat' (first | with_reducible refine Act.Keeps.bind ?_ fun _ => ?_ | (with_reducible refine Act.Keeps.change_calm hP fun _ => ?_; first | exact Leaves.setMe (.of_pend ⟨rfl, rfl, rfl, rfl, rfl, rfl, rfl, rfl, rfl⟩ ⟨rfl, rfl, rfl, rfl⟩ rfl fun _ h => .inl h) | exact .of_same rfl rfl rfl | exact .refl _ _ | exact perf_leaves _ _ _ _) | split | (simp [hP, hD]; done) | dsimp only)

theorem execNoOperation_leaves   (s : State) : OutKeeps (Leaves (destsOf s.cur.slot (.noOperation)) s) (execNoOperation s) := by
  unfold execNoOperation
  refine issue_leaves_of rfl ?_
  have hD := Owns.leaves s (.noOperation)
  have hP := hD.calm
  repeat' (first | with_reducible refine Act.Keeps.bind ?_ fun _ => ?_ | (with_reducible refine Act.Keeps.change_calm hP fun _ => ?_; first | exact Leaves.setMe (.of_pend ⟨rfl, rfl, rfl, rfl, rfl, rfl, rfl, rfl, rfl⟩ ⟨rfl, rfl, rfl, rfl⟩ rfl fun _ h => .inl h) | exact .of_same rfl rfl rfl | exact .refl _ _ | exact perf_leaves _ _ _ _) | split | (simp [hP, hD]; done) | dsimp only)

@[simp] theorem Act.ring_leaves  (n : Nat) (out : Bool) {P : State → Prop} (hP : Calm P) : (Act.ring n out).Keeps P := by
  refine Act.Keeps.lam fun s hs => ?_
  unfold Act.ring
  repeat' (first | exact hs | split | (simp [hs]; done) | dsimp only)
  all_goals exact hP _ _ (by first | exact Leaves.setMe (.of_pend ⟨rfl, rfl, rfl, rfl, rfl, rfl, rfl, rfl, rfl⟩ ⟨rfl, rfl, rfl, rfl⟩ rfl fun _ h => .inl h) | exact .of_same rfl rfl rfl | exact .refl _ _ | exact perf_leaves _ _ _ _) hs

@[simp] theorem ringStall_leaves  {α : Type} {P : State → Prop} (hP : Calm P) : (ringStall  : Act α).Keeps P := by
  refine Act.Keeps.lam fun s hs => ?_
  unfold ringStall
  repeat' (first | exact hs | split | (simp [hs]; done) | dsimp only)
  all_goals exact hP _ _ (by first | exact Leaves.setMe (.of_pend ⟨rfl, rfl, rfl, rfl, rfl, rfl, rfl, rfl, rfl⟩ ⟨rfl, rfl, rfl, rfl⟩ rfl fun _ h => .inl h) | exact .of_same rfl rfl rfl | exact .refl _ _ | exact perf_leaves _ _ _ _) hs

@[simp] theorem ringAwait_leaves  (n : Nat) (r : Ring) (start len : Nat) {P : State → Prop} (hP : Calm P) : (ringAwait n r start len).Keeps P := by
  unfold ringAwait
  repeat' (first | with_reducible refine Act.Keeps.bind ?_ fun _ => ?_ | (with_reducible refine Act.Keeps.change_calm hP fun _ => ?_; first | exact Leaves.setMe (.of_pend ⟨rfl, rfl, rfl, rfl, rfl, rfl, rfl, rfl, rfl⟩ ⟨rfl, rfl, rfl, rfl⟩ rfl fun _ h => .inl h) | exact .of_same rfl rfl rfl | exact .refl _ _ | exact perf_leaves _ _ _ _) | split | (simp [hP]; done) | dsimp only)

@[simp] theorem ringRead_leaves  (n : Nat) (peek : Bool) (t : Fmt) {P : State → Prop} (hP : Calm P) : (ringRead n peek t).Keeps P := by
  unfold ringRead
  repeat' (first | with_reducible refine Act.Keeps.bind ?_ fun _ => ?_ | (with_reducible refine Act.Keeps.change_calm hP fun _ => ?_; first | exact Leaves.setMe (.of_pend ⟨rfl, rfl, rfl, rfl, rfl, rfl, rfl, rfl, rfl⟩ ⟨rfl, rfl, rfl, rfl⟩ rfl fun _ h => .inl h) | exact .of_same rfl rfl rfl | exact .refl _ _ | exact perf_leaves _ _ _ _) | split | (simp [hP]; done) | dsimp only)

@[simp] theorem ringRaw_leaves  (n : Nat) (peek : Bool) {P : State → Prop} (hP : Calm P) : (ringRaw n peek).Keeps P := by
  unfold ringRaw
  repeat' (first | with_reducible refine Act.Keeps.bind ?_ fun _ => ?_ | (with_reducible refine Act.Keeps.change_calm hP fun _ => ?_; first | exact Leaves.setMe (.of_pend ⟨rfl, rfl, rfl, rfl, rfl, rfl, rfl, rfl, rfl⟩ ⟨rfl, rfl, rfl, rfl⟩ rfl fun _ h => .inl h) | exact .of_same rfl rfl rfl | exact .refl _ _ | exact perf_leaves _ _ _ _) | split | (simp [hP]; done) | dsimp only)

@[simp] theorem ringPlace_leaves  (n : Nat) (r : Ring) (x len l : Nat) {P : State → Prop} (hP : Calm P) : (ringPlace n r x len l).Keeps P := by
  unfold ringPlace
  repeat' (first | with_reducible refine Act.Keeps.bind ?_ fun _ => ?_ | (with_reducible refine Act.Keeps.change_calm hP fun _ => ?_; first | exact Leaves.setMe (.of_pend ⟨rfl, rfl, rfl, rfl, rfl, rfl, rfl, rfl, rfl⟩ ⟨rfl, rfl, rfl, rfl⟩ rfl fun _ h => .inl h) | exact .of_same rfl rfl rfl | exact .refl _ _ | exact perf_leaves _ _ _ _) | split | (simp [hP]; done) | dsimp only)

@[simp] theorem pushRaw_leaves  (n : Nat) (v : Vec) (l : Nat) {P : State → Prop} (hP : Calm P) : (pushRaw n v l).Keeps P := by
  unfold pushRaw
  repeat' (first | with_reducible refine Act.Keeps.bind ?_ fun _ => ?_ | (with_reducible refine Act.Keeps.change_calm hP fun _ => ?_; first | exact Leaves.setMe (.of_pend ⟨rfl, rfl, rfl, rfl, rfl, rfl, rfl, rfl, rfl⟩ ⟨rfl, rfl, rfl, rfl⟩ rfl fun _ h => .inl h) | exact .of_same rfl rfl rfl | exact .refl _ _ | exact perf_leaves _ _ _ _) | split | (simp [hP]; done) | dsimp only)

@[simp] theorem pushLanes_leaves  (n : Nat) (t : Fmt) (skip : Nat) (v : Vec) (l : Nat) {P : State → Prop} (hP : Calm P) : (pushLanes n t skip v l).Keeps P := by
  unfold pushLanes
  repeat' (first | with_reducible refine Act.Keeps.bind ?_ fun _ => ?_ | (with_reducible refine Act.Keeps.change_calm hP fun _ => ?_; first | exact Leaves.setMe (.of_pend ⟨rfl, rfl, rfl, rfl, rfl, rfl, rfl, rfl, rfl⟩ ⟨rfl, rfl, rfl, rfl⟩ rfl fun _ h => .inl h) | exact .of_same rfl rfl rfl | exact .refl _ _ | exact perf_leaves _ _ _ _) | split | (simp [hP]; done) | dsimp only)

@[simp] theorem dqPop_leaves  (n : Nat) {P : State → Prop} (hP : Calm P) : (dqPop n).Keeps P := by
  refine Act.Keeps.lam fun s hs => ?_
  unfold dqPop
  repeat' (first | exact hs | split | (simp [hs]; done) | dsimp only)
  all_goals exact hP _ _ (by first | exact Leaves.setMe (.of_pend ⟨rfl, rfl, rfl, rfl, rfl, rfl, rfl, rfl, rfl⟩ ⟨rfl, rfl, rfl, rfl⟩ rfl fun _ h => .inl h) | exact .of_same rfl rfl rfl | exact .refl _ _ | exact perf_leaves _ _ _ _) hs

@[simp] theorem readRaw_leaves  (o : Opnd) {P : State → Prop} (hP : Calm P) : (readRaw o).Keeps P := by
  unfold readRaw
  repeat' (first | with_reducible refine Act.Keeps.bind ?_ fun _ => ?_ | (with_reducible refine Act.Keeps.change_calm hP fun _ => ?_; first | exact Leaves.setMe (.of_pend ⟨rfl, rfl, rfl, rfl, rfl, rfl, rfl, rfl, rfl⟩ ⟨rfl, rfl, rfl, rfl⟩ rfl fun _ h => .inl h) | exact .of_same rfl rfl rfl | exact .refl _ _ | exact perf_leaves _ _ _ _) | split | (simp [hP]; done) | dsimp only)

@[simp] theorem readVec_leaves  (t : Fmt) (o : Opnd) {P : State → Prop} (hP : Calm P) : (readVec t o).Keeps P := by
  unfold readVec
  repeat' (first | with_reducible refine Act.Keeps.bind ?_ fun _ => ?_ | (with_reducible refine Act.Keeps.change_calm hP fun _ => ?_; first | exact Leaves.setMe (.of_pend ⟨rfl, rfl, rfl, rfl, rfl, rfl, rfl, rfl, rfl⟩ ⟨rfl, rfl, rfl, rfl⟩ rfl fun _ h => .inl h) | exact .of_same rfl rfl rfl | exact .refl _ _ | exact perf_leaves _ _ _ _) | split | (simp [hP]; done) | dsimp only)

@[simp] theorem vecOut_leaves  (i : Instr) (d : Opnd) (t : Fmt) (k : BitVec 4) (xs : List (Nat × Nat)) {P : State → Prop} (hP : Calm P) (hD : Owns i P) : (vecOut i d t k xs).Keeps P := by
  unfold vecOut
  repeat' (first | with_reducible refine Act.Keeps.bind ?_ fun _ => ?_ | (with_reducible refine Act.Keeps.change_calm hP fun _ => ?_; first | exact Leaves.setMe (.of_pend ⟨rfl, rfl, rfl, rfl, rfl, rfl, rfl, rfl, rfl⟩ ⟨rfl, rfl, rfl, rfl⟩ rfl fun _ h => .inl h) | exact .of_same rfl rfl rfl | exact .refl _ _ | exact perf_leaves _ _ _ _) | split | (simp [hP, hD]; done) | dsimp only)

@[simp] theorem vecPlain_leaves  (i : Instr) (d : Opnd) (t : Fmt) (k : BitVec 4) (f : Nat → Nat) {P : State → Prop} (hP : Calm P) (hD : Owns i P) : (vecPlain i d t k f).Keeps P := by
  unfold vecPlain
  repeat' (first | with_reducible refine Act.Keeps.bind ?_ fun _ => ?_ | (with_reducible refine Act.Keeps.change_calm hP fun _ => ?_; first | exact Leaves.setMe (.of_pend ⟨rfl, rfl, rfl, rfl, rfl, rfl, rfl, rfl, rfl⟩ ⟨rfl, rfl, rfl, rfl⟩ rfl fun _ h => .inl h) | exact .of_same rfl rfl rfl | exact .refl _ _ | exact perf_leaves _ _ _ _) | split | (simp [hP, hD]; done) | dsimp only)

@[simp] theorem vec2_leaves  (i : Instr) (d a b : Opnd) (t : Fmt) (k : BitVec 4) (f : Nat → Nat → Nat) {P : State → Prop} (hP : Calm P) (hD : Owns i P) : (vec2 i d a b t k f).Keeps P := by
  unfold vec2
  repeat' (first | with_reducible refine Act.Keeps.bind ?_ fun _ => ?_ | (with_reducible refine Act.Keeps.change_calm hP fun _ => ?_; first | exact Leaves.setMe (.of_pend ⟨rfl, rfl, rfl, rfl, rfl, rfl, rfl, rfl, rfl⟩ ⟨rfl, rfl, rfl, rfl⟩ rfl fun _ h => .inl h) | exact .of_same rfl rfl rfl | exact .refl _ _ | exact perf_leaves _ _ _ _) | split | (simp [hP, hD]; done) | dsimp only)

@[simp] theorem vec1_leaves  (i : Instr) (d a : Opnd) (t : Fmt) (k : BitVec 4) (f : Nat → Nat) {P : State → Prop} (hP : Calm P) (hD : Owns i P) : (vec1 i d a t k f).Keeps P := by
  unfold vec1
  repeat' (first | with_reducible refine Act.Keeps.bind ?_ fun _ => ?_ | (with_reducible refine Act.Keeps.change_calm hP fun _ => ?_; first | exact Leaves.setMe (.of_pend ⟨rfl, rfl, rfl, rfl, rfl, rfl, rfl, rfl, rfl⟩ ⟨rfl, rfl, rfl, rfl⟩ rfl fun _ h => .inl h) | exact .of_same rfl rfl rfl | exact .refl _ _ | exact perf_leaves _ _ _ _) | split | (simp [hP, hD]; done) | dsimp only)

theorem execVadd_leaves  (g : Guard) (d a b : Opnd) (t : Fmt) (k : BitVec 4) (s : State) : OutKeeps (Leaves (destsOf s.cur.slot (.vadd g d a b t k)) s) (execVadd g d a b t k s) := by
  unfold execVadd
  refine issue_leaves_of rfl ?_
  have hD := Owns.leaves s (.vadd g d a b t k)
  have hP := hD.calm
  repeat' (first | with_reducible refine Act.Keeps.bind ?_ fun _ => ?_ | (with_reducible refine Act.Keeps.change_calm hP fun _ => ?_; first | exact Leaves.setMe (.of_pend ⟨rfl, rfl, rfl, rfl, rfl, rfl, rfl, rfl, rfl⟩ ⟨rfl, rfl, rfl, rfl⟩ rfl fun _ h => .inl h) | exact .of_same rfl rfl rfl | exact .refl _ _ | exact perf_leaves _ _ _ _) | split | (simp [hP, hD]; done) | dsimp only)

theorem execVsub_leaves  (g : Guard) (d a b : Opnd) (t : Fmt) (k : BitVec 4) (s : State) : OutKeeps (Leaves (destsOf s.cur.slot (.vsub g d a b t k)) s) (execVsub g d a b t k s) := by
  unfold execVsub
  refine issue_leaves_of rfl ?_
  have hD := Owns.leaves s (.vsub g d a b t k)
  have hP := hD.calm
  repeat' (first | with_reducible refine Act.Keeps.bind ?_ fun _ => ?_ | (with_reducible refine Act.Keeps.change_calm hP fun _ => ?_; first | exact Leaves.setMe (.of_pend ⟨rfl, rfl, rfl, rfl, rfl, rfl, rfl, rfl, rfl⟩ ⟨rfl, rfl, rfl, rfl⟩ rfl fun _ h => .inl h) | exact .of_same rfl rfl rfl | exact .refl _ _ | exact perf_leaves _ _ _ _) | split | (simp [hP, hD]; done) | dsimp only)

theorem execVmul_leaves  (g : Guard) (d a b : Opnd) (t : Fmt) (k : BitVec 4) (s : State) : OutKeeps (Leaves (destsOf s.cur.slot (.vmul g d a b t k)) s) (execVmul g d a b t k s) := by
  unfold execVmul
  refine issue_leaves_of rfl ?_
  have hD := Owns.leaves s (.vmul g d a b t k)
  have hP := hD.calm
  repeat' (first | with_reducible refine Act.Keeps.bind ?_ fun _ => ?_ | (with_reducible refine Act.Keeps.change_calm hP fun _ => ?_; first | exact Leaves.setMe (.of_pend ⟨rfl, rfl, rfl, rfl, rfl, rfl, rfl, rfl, rfl⟩ ⟨rfl, rfl, rfl, rfl⟩ rfl fun _ h => .inl h) | exact .of_same rfl rfl rfl | exact .refl _ _ | exact perf_leaves _ _ _ _) | split | (simp [hP, hD]; done) | dsimp only)

theorem execVmulh_leaves  (g : Guard) (d a b : Opnd) (t : Fmt) (k : BitVec 4) (s : State) : OutKeeps (Leaves (destsOf s.cur.slot (.vmulh g d a b t k)) s) (execVmulh g d a b t k s) := by
  unfold execVmulh
  refine issue_leaves_of rfl ?_
  have hD := Owns.leaves s (.vmulh g d a b t k)
  have hP := hD.calm
  repeat' (first | with_reducible refine Act.Keeps.bind ?_ fun _ => ?_ | (with_reducible refine Act.Keeps.change_calm hP fun _ => ?_; first | exact Leaves.setMe (.of_pend ⟨rfl, rfl, rfl, rfl, rfl, rfl, rfl, rfl, rfl⟩ ⟨rfl, rfl, rfl, rfl⟩ rfl fun _ h => .inl h) | exact .of_same rfl rfl rfl | exact .refl _ _ | exact perf_leaves _ _ _ _) | split | (simp [hP, hD]; done) | dsimp only)

theorem execVmin_leaves  (g : Guard) (d a b : Opnd) (t : Fmt) (k : BitVec 4) (s : State) : OutKeeps (Leaves (destsOf s.cur.slot (.vmin g d a b t k)) s) (execVmin g d a b t k s) := by
  unfold execVmin
  refine issue_leaves_of rfl ?_
  have hD := Owns.leaves s (.vmin g d a b t k)
  have hP := hD.calm
  repeat' (first | with_reducible refine Act.Keeps.bind ?_ fun _ => ?_ | (with_reducible refine Act.Keeps.change_calm hP fun _ => ?_; first | exact Leaves.setMe (.of_pend ⟨rfl, rfl, rfl, rfl, rfl, rfl, rfl, rfl, rfl⟩ ⟨rfl, rfl, rfl, rfl⟩ rfl fun _ h => .inl h) | exact .of_same rfl rfl rfl | exact .refl _ _ | exact perf_leaves _ _ _ _) | split | (simp [hP, hD]; done) | dsimp only)

theorem execVmax_leaves  (g : Guard) (d a b : Opnd) (t : Fmt) (k : BitVec 4) (s : State) : OutKeeps (Leaves (destsOf s.cur.slot (.vmax g d a b t k)) s) (execVmax g d a b t k s) := by
  unfold execVmax
  refine issue_leaves_of rfl ?_
  have hD := Owns.leaves s (.vmax g d a b t k)
  have hP := hD.calm
  repeat' (first | with_reducible refine Act.Keeps.bind ?_ fun _ => ?_ | (with_reducible refine Act.Keeps.change_calm hP fun _ => ?_; first | exact Leaves.setMe (.of_pend ⟨rfl, rfl, rfl, rfl, rfl, rfl, rfl, rfl, rfl⟩ ⟨rfl, rfl, rfl, rfl⟩ rfl fun _ h => .inl h) | exact .of_same rfl rfl rfl | exact .refl _ _ | exact perf_leaves _ _ _ _) | split | (simp [hP, hD]; done) | dsimp only)

theorem execVabs_leaves  (g : Guard) (d a : Opnd) (t : Fmt) (k : BitVec 4) (s : State) : OutKeeps (Leaves (destsOf s.cur.slot (.vabs g d a t k)) s) (execVabs g d a t k s) := by
  unfold execVabs
  refine issue_leaves_of rfl ?_
  have hD := Owns.leaves s (.vabs g d a t k)
  have hP := hD.calm
  repeat' (first | with_reducible refine Act.Keeps.bind ?_ fun _ => ?_ | (with_reducible refine Act.Keeps.change_calm hP fun _ => ?_; first | exact Leaves.setMe (.of_pend ⟨rfl, rfl, rfl, rfl, rfl, rfl, rfl, rfl, rfl⟩ ⟨rfl, rfl, rfl, rfl⟩ rfl fun _ h => .inl h) | exact .of_same rfl rfl rfl | exact .refl _ _ | exact perf_leaves _ _ _ _) | split | (simp [hP, hD]; done) | dsimp only)

theorem execVand_leaves  (g : Guard) (d a b : Opnd) (t : Fmt) (k : BitVec 4) (s : State) : OutKeeps (Leaves (destsOf s.cur.slot (.vand g d a b t k)) s) (execVand g d a b t k s) := by
  unfold execVand
  refine issue_leaves_of rfl ?_
  have hD := Owns.leaves s (.vand g d a b t k)
  have hP := hD.calm
  repeat' (first | with_reducible refine Act.Keeps.bind ?_ fun _ => ?_ | (with_reducible refine Act.Keeps.change_calm hP fun _ => ?_; first | exact Leaves.setMe (.of_pend ⟨rfl, rfl, rfl, rfl, rfl, rfl, rfl, rfl, rfl⟩ ⟨rfl, rfl, rfl, rfl⟩ rfl fun _ h => .inl h) | exact .of_same rfl rfl rfl | exact .refl _ _ | exact perf_leaves _ _ _ _) | split | (simp [hP, hD]; done) | dsimp only)

theorem execVor_leaves  (g : Guard) (d a b : Opnd) (t : Fmt) (k : BitVec 4) (s : State) : OutKeeps (Leaves (destsOf s.cur.slot (.vor g d a b t k)) s) (execVor g d a b t k s) := by
  unfold execVor
  refine issue_leaves_of rfl ?_
  have hD := Owns.leaves s (.vor g d a b t k)
  have hP := hD.calm
  repeat' (first | with_reducible refine Act.Keeps.bind ?_ fun _ => ?_ | (with_reducible refine Act.Keeps.change_calm hP fun _ => ?_; first | exact Leaves.setMe (.of_pend ⟨rfl, rfl, rfl, rfl, rfl, rfl, rfl, rfl, rfl⟩ ⟨rfl, rfl, rfl, rfl⟩ rfl fun _ h => .inl h) | exact .of_same rfl rfl rfl | exact .refl _ _ | exact perf_leaves _ _ _ _) | split | (simp [hP, hD]; done) | dsimp only)

theorem execVxor_leaves  (g : Guard) (d a b : Opnd) (t : Fmt) (k : BitVec 4) (s : State) : OutKeeps (Leaves (destsOf s.cur.slot (.vxor g d a b t k)) s) (execVxor g d a b t k s) := by
  unfold execVxor
  refine issue_leaves_of rfl ?_
  have hD := Owns.leaves s (.vxor g d a b t k)
  have hP := hD.calm
  repeat' (first | with_reducible refine Act.Keeps.bind ?_ fun _ => ?_ | (with_reducible refine Act.Keeps.change_calm hP fun _ => ?_; first | exact Leaves.setMe (.of_pend ⟨rfl, rfl, rfl, rfl, rfl, rfl, rfl, rfl, rfl⟩ ⟨rfl, rfl, rfl, rfl⟩ rfl fun _ h => .inl h) | exact .of_same rfl rfl rfl | exact .refl _ _ | exact perf_leaves _ _ _ _) | split | (simp [hP, hD]; done) | dsimp only)

theorem execVandn_leaves  (g : Guard) (d a b : Opnd) (t : Fmt) (k : BitVec 4) (s : State) : OutKeeps (Leaves (destsOf s.cur.slot (.vandn g d a b t k)) s) (execVandn g d a b t k s) := by
  unfold execVandn
  refine issue_leaves_of rfl ?_
  have hD := Owns.leaves s (.vandn g d a b t k)
  have hP := hD.calm
  repeat' (first | with_reducible refine Act.Keeps.bind ?_ fun _ => ?_ | (with_reducible refine Act.Keeps.change_calm hP fun _ => ?_; first | exact Leaves.setMe (.of_pend ⟨rfl, rfl, rfl, rfl, rfl, rfl, rfl, rfl, rfl⟩ ⟨rfl, rfl, rfl, rfl⟩ rfl fun _ h => .inl h) | exact .of_same rfl rfl rfl | exact .refl _ _ | exact perf_leaves _ _ _ _) | split | (simp [hP, hD]; done) | dsimp only)

theorem execVshl_leaves  (g : Guard) (d a b : Opnd) (t : Fmt) (k : BitVec 4) (s : State) : OutKeeps (Leaves (destsOf s.cur.slot (.vshl g d a b t k)) s) (execVshl g d a b t k s) := by
  unfold execVshl
  refine issue_leaves_of rfl ?_
  have hD := Owns.leaves s (.vshl g d a b t k)
  have hP := hD.calm
  repeat' (first | with_reducible refine Act.Keeps.bind ?_ fun _ => ?_ | (with_reducible refine Act.Keeps.change_calm hP fun _ => ?_; first | exact Leaves.setMe (.of_pend ⟨rfl, rfl, rfl, rfl, rfl, rfl, rfl, rfl, rfl⟩ ⟨rfl, rfl, rfl, rfl⟩ rfl fun _ h => .inl h) | exact .of_same rfl rfl rfl | exact .refl _ _ | exact perf_leaves _ _ _ _) | split | (simp [hP, hD]; done) | dsimp only)

theorem execVshr_leaves  (g : Guard) (d a b : Opnd) (t : Fmt) (k : BitVec 4) (s : State) : OutKeeps (Leaves (destsOf s.cur.slot (.vshr g d a b t k)) s) (execVshr g d a b t k s) := by
  unfold execVshr
  refine issue_leaves_of rfl ?_
  have hD := Owns.leaves s (.vshr g d a b t k)
  have hP := hD.calm
  repeat' (first | with_reducible refine Act.Keeps.bind ?_ fun _ => ?_ | (with_reducible refine Act.Keeps.change_calm hP fun _ => ?_; first | exact Leaves.setMe (.of_pend ⟨rfl, rfl, rfl, rfl, rfl, rfl, rfl, rfl, rfl⟩ ⟨rfl, rfl, rfl, rfl⟩ rfl fun _ h => .inl h) | exact .of_same rfl rfl rfl | exact .refl _ _ | exact perf_leaves _ _ _ _) | split | (simp [hP, hD]; done) | dsimp only)

theorem execVsra_leaves  (g : Guard) (d a b : Opnd) (t : Fmt) (k : BitVec 4) (s : State) : OutKeeps (Leaves (destsOf s.cur.slot (.vsra g d a b t k)) s) (execVsra g d a b t k s) := by
  unfold execVsra
  refine issue_leaves_of rfl ?_
  have hD := Owns.leaves s (.vsra g d a b t k)
  have hP := hD.calm
  repeat' (first | with_reducible refine Act.Keeps.bind ?_ fun _ => ?_ | (with_reducible refine Act.Keeps.change_calm hP fun _ => ?_; first | exact Leaves.setMe (.of_pend ⟨rfl, rfl, rfl, rfl, rfl, rfl, rfl, rfl, rfl⟩ ⟨rfl, rfl, rfl, rfl⟩ rfl fun _ h => .inl h) | exact .of_same rfl rfl rfl | exact .refl _ _ | exact perf_leaves _ _ _ _) | split | (simp [hP, hD]; done) | dsimp only)

theorem execVfsh_leaves  (g : Guard) (d a b : Opnd) (t : Fmt) (right : Bool) (s : State) : OutKeeps (Leaves (destsOf s.cur.slot (.vfsh g d a b t right)) s) (execVfsh g d a b t right s) := by
  unfold execVfsh
  refine issue_leaves_of rfl ?_
  have hD := Owns.leaves s (.vfsh g d a b t right)
  have hP := hD.calm
  repeat' (first | with_reducible refine Act.Keeps.bind ?_ fun _ => ?_ | (with_reducible refine Act.Keeps.change_calm hP fun _ => ?_; first | exact Leaves.setMe (.of_pend ⟨rfl, rfl, rfl, rfl, rfl, rfl, rfl, rfl, rfl⟩ ⟨rfl, rfl, rfl, rfl⟩ rfl fun _ h => .inl h) | exact .of_same rfl rfl rfl | exact .refl _ _ | exact perf_leaves _ _ _ _) | split | (simp [hP, hD]; done) | dsimp only)

theorem execVclz_leaves  (g : Guard) (d a : Opnd) (t : Fmt) (k : BitVec 4) (s : State) : OutKeeps (Leaves (destsOf s.cur.slot (.vclz g d a t k)) s) (execVclz g d a t k s) := by
  unfold execVclz
  refine issue_leaves_of rfl ?_
  have hD := Owns.leaves s (.vclz g d a t k)
  have hP := hD.calm
  repeat' (first | with_reducible refine Act.Keeps.bind ?_ fun _ => ?_ | (with_reducible refine Act.Keeps.change_calm hP fun _ => ?_; first | exact Leaves.setMe (.of_pend ⟨rfl, rfl, rfl, rfl, rfl, rfl, rfl, rfl, rfl⟩ ⟨rfl, rfl, rfl, rfl⟩ rfl fun _ h => .inl h) | exact .of_same rfl rfl rfl | exact .refl _ _ | exact perf_leaves _ _ _ _) | split | (simp [hP, hD]; done) | dsimp only)

theorem execVpopc_leaves  (g : Guard) (d a : Opnd) (t : Fmt) (k : BitVec 4) (s : State) : OutKeeps (Leaves (destsOf s.cur.slot (.vpopc g d a t k)) s) (execVpopc g d a t k s) := by
  unfold execVpopc
  refine issue_leaves_of rfl ?_
  have hD := Owns.leaves s (.vpopc g d a t k)
  have hP := hD.calm
  repeat' (first | with_reducible refine Act.Keeps.bind ?_ fun _ => ?_ | (with_reducible refine Act.Keeps.change_calm hP fun _ => ?_; first | exact Leaves.setMe (.of_pend ⟨rfl, rfl, rfl, rfl, rfl, rfl, rfl, rfl, rfl⟩ ⟨rfl, rfl, rfl, rfl⟩ rfl fun _ h => .inl h) | exact .of_same rfl rfl rfl | exact .refl _ _ | exact perf_leaves _ _ _ _) | split | (simp [hP, hD]; done) | dsimp only)

theorem execVcmp_leaves  (g : Guard) (kd : BitVec 4) (a b : Opnd) (t : Fmt) (cc : BitVec 4) (s : State) : OutKeeps (Leaves (destsOf s.cur.slot (.vcmp g kd a b t cc)) s) (execVcmp g kd a b t cc s) := by
  unfold execVcmp
  refine issue_leaves_of rfl ?_
  have hD := Owns.leaves s (.vcmp g kd a b t cc)
  have hP := hD.calm
  repeat' (first | with_reducible refine Act.Keeps.bind ?_ fun _ => ?_ | (with_reducible refine Act.Keeps.change_calm hP fun _ => ?_; first | exact Leaves.setMe (.of_pend ⟨rfl, rfl, rfl, rfl, rfl, rfl, rfl, rfl, rfl⟩ ⟨rfl, rfl, rfl, rfl⟩ rfl fun _ h => .inl h) | exact .of_same rfl rfl rfl | exact .refl _ _ | exact perf_leaves _ _ _ _) | split | (simp [hP, hD]; done) | dsimp only)

theorem execVsel_leaves  (g : Guard) (d a b : Opnd) (t : Fmt) (ks : BitVec 4) (s : State) : OutKeeps (Leaves (destsOf s.cur.slot (.vsel g d a b t ks)) s) (execVsel g d a b t ks s) := by
  unfold execVsel
  refine issue_leaves_of rfl ?_
  have hD := Owns.leaves s (.vsel g d a b t ks)
  have hP := hD.calm
  repeat' (first | with_reducible refine Act.Keeps.bind ?_ fun _ => ?_ | (with_reducible refine Act.Keeps.change_calm hP fun _ => ?_; first | exact Leaves.setMe (.of_pend ⟨rfl, rfl, rfl, rfl, rfl, rfl, rfl, rfl, rfl⟩ ⟨rfl, rfl, rfl, rfl⟩ rfl fun _ h => .inl h) | exact .of_same rfl rfl rfl | exact .refl _ _ | exact perf_leaves _ _ _ _) | split | (simp [hP, hD]; done) | dsimp only)

theorem execKand_leaves  (g : Guard) (kd ka kb : BitVec 4) (s : State) : OutKeeps (Leaves (destsOf s.cur.slot (.kand g kd ka kb)) s) (execKand g kd ka kb s) := by
  unfold execKand
  refine issue_leaves_of rfl ?_
  have hD := Owns.leaves s (.kand g kd ka kb)
  have hP := hD.calm
  repeat' (first | with_reducible refine Act.Keeps.bind ?_ fun _ => ?_ | (with_reducible refine Act.Keeps.change_calm hP fun _ => ?_; first | exact Leaves.setMe (.of_pend ⟨rfl, rfl, rfl, rfl, rfl, rfl, rfl, rfl, rfl⟩ ⟨rfl, rfl, rfl, rfl⟩ rfl fun _ h => .inl h) | exact .of_same rfl rfl rfl | exact .refl _ _ | exact perf_leaves _ _ _ _) | split | (simp [hP, hD]; done) | dsimp only)

theorem execKor_leaves  (g : Guard) (kd ka kb : BitVec 4) (s : State) : OutKeeps (Leaves (destsOf s.cur.slot (.kor g kd ka kb)) s) (execKor g kd ka kb s) := by
  unfold execKor
  refine issue_leaves_of rfl ?_
  have hD := Owns.leaves s (.kor g kd ka kb)
  have hP := hD.calm
  repeat' (first | with_reducible refine Act.Keeps.bind ?_ fun _ => ?_ | (with_reducible refine Act.Keeps.change_calm hP fun _ => ?_; first | exact Leaves.setMe (.of_pend ⟨rfl, rfl, rfl, rfl, rfl, rfl, rfl, rfl, rfl⟩ ⟨rfl, rfl, rfl, rfl⟩ rfl fun _ h => .inl h) | exact .of_same rfl rfl rfl | exact .refl _ _ | exact perf_leaves _ _ _ _) | split | (simp [hP, hD]; done) | dsimp only)

theorem execKxor_leaves  (g : Guard) (kd ka kb : BitVec 4) (s : State) : OutKeeps (Leaves (destsOf s.cur.slot (.kxor g kd ka kb)) s) (execKxor g kd ka kb s) := by
  unfold execKxor
  refine issue_leaves_of rfl ?_
  have hD := Owns.leaves s (.kxor g kd ka kb)
  have hP := hD.calm
  repeat' (first | with_reducible refine Act.Keeps.bind ?_ fun _ => ?_ | (with_reducible refine Act.Keeps.change_calm hP fun _ => ?_; first | exact Leaves.setMe (.of_pend ⟨rfl, rfl, rfl, rfl, rfl, rfl, rfl, rfl, rfl⟩ ⟨rfl, rfl, rfl, rfl⟩ rfl fun _ h => .inl h) | exact .of_same rfl rfl rfl | exact .refl _ _ | exact perf_leaves _ _ _ _) | split | (simp [hP, hD]; done) | dsimp only)

theorem execKnot_leaves  (g : Guard) (kd ka : BitVec 4) (s : State) : OutKeeps (Leaves (destsOf s.cur.slot (.knot g kd ka)) s) (execKnot g kd ka s) := by
  unfold execKnot
  refine issue_leaves_of rfl ?_
  have hD := Owns.leaves s (.knot g kd ka)
  have hP := hD.calm
  repeat' (first | with_reducible refine Act.Keeps.bind ?_ fun _ => ?_ | (with_reducible refine Act.Keeps.change_calm hP fun _ => ?_; first | exact Leaves.setMe (.of_pend ⟨rfl, rfl, rfl, rfl, rfl, rfl, rfl, rfl, rfl⟩ ⟨rfl, rfl, rfl, rfl⟩ rfl fun _ h => .inl h) | exact .of_same rfl rfl rfl | exact .refl _ _ | exact perf_leaves _ _ _ _) | split | (simp [hP, hD]; done) | dsimp only)

theorem execKpop_leaves  (g : Guard) (d : Opnd) (ka : BitVec 4) (s : State) : OutKeeps (Leaves (destsOf s.cur.slot (.kpop g d ka)) s) (execKpop g d ka s) := by
  unfold execKpop
  refine issue_leaves_of rfl ?_
  have hD := Owns.leaves s (.kpop g d ka)
  have hP := hD.calm
  repeat' (first | with_reducible refine Act.Keeps.bind ?_ fun _ => ?_ | (with_reducible refine Act.Keeps.change_calm hP fun _ => ?_; first | exact Leaves.setMe (.of_pend ⟨rfl, rfl, rfl, rfl, rfl, rfl, rfl, rfl, rfl⟩ ⟨rfl, rfl, rfl, rfl⟩ rfl fun _ h => .inl h) | exact .of_same rfl rfl rfl | exact .refl _ _ | exact perf_leaves _ _ _ _) | split | (simp [hP, hD]; done) | dsimp only)

theorem execKfirst_leaves  (g : Guard) (d : Opnd) (ka : BitVec 4) (s : State) : OutKeeps (Leaves (destsOf s.cur.slot (.kfirst g d ka)) s) (execKfirst g d ka s) := by
  unfold execKfirst
  refine issue_leaves_of rfl ?_
  have hD := Owns.leaves s (.kfirst g d ka)
  have hP := hD.calm
  repeat' (first | with_reducible refine Act.Keeps.bind ?_ fun _ => ?_ | (with_reducible refine Act.Keeps.change_calm hP fun _ => ?_; first | exact Leaves.setMe (.of_pend ⟨rfl, rfl, rfl, rfl, rfl, rfl, rfl, rfl, rfl⟩ ⟨rfl, rfl, rfl, rfl⟩ rfl fun _ h => .inl h) | exact .of_same rfl rfl rfl | exact .refl _ _ | exact perf_leaves _ _ _ _) | split | (simp [hP, hD]; done) | dsimp only)

theorem execVbcast_leaves  (g : Guard) (d a : Opnd) (n : BitVec 10) (t : Fmt) (k : BitVec 4) (s : State) : OutKeeps (Leaves (destsOf s.cur.slot (.vbcast g d a n t k)) s) (execVbcast g d a n t k s) := by
  unfold execVbcast
  refine issue_leaves_of rfl ?_
  have hD := Owns.leaves s (.vbcast g d a n t k)
  have hP := hD.calm
  repeat' (first | with_reducible refine Act.Keeps.bind ?_ fun _ => ?_ | (with_reducible refine Act.Keeps.change_calm hP fun _ => ?_; first | exact Leaves.setMe (.of_pend ⟨rfl, rfl, rfl, rfl, rfl, rfl, rfl, rfl, rfl⟩ ⟨rfl, rfl, rfl, rfl⟩ rfl fun _ h => .inl h) | exact .of_same rfl rfl rfl | exact .refl _ _ | exact perf_leaves _ _ _ _) | split | (simp [hP, hD]; done) | dsimp only)

theorem execVext_leaves  (g : Guard) (d a : Opnd) (n : BitVec 10) (t : Fmt) (s : State) : OutKeeps (Leaves (destsOf s.cur.slot (.vext g d a n t)) s) (execVext g d a n t s) := by
  unfold execVext
  refine issue_leaves_of rfl ?_
  have hD := Owns.leaves s (.vext g d a n t)
  have hP := hD.calm
  repeat' (first | with_reducible refine Act.Keeps.bind ?_ fun _ => ?_ | (with_reducible refine Act.Keeps.change_calm hP fun _ => ?_; first | exact Leaves.setMe (.of_pend ⟨rfl, rfl, rfl, rfl, rfl, rfl, rfl, rfl, rfl⟩ ⟨rfl, rfl, rfl, rfl⟩ rfl fun _ h => .inl h) | exact .of_same rfl rfl rfl | exact .refl _ _ | exact perf_leaves _ _ _ _) | split | (simp [hP, hD]; done) | dsimp only)

theorem execVins_leaves  (g : Guard) (d a : Opnd) (n : BitVec 10) (t : Fmt) (s : State) : OutKeeps (Leaves (destsOf s.cur.slot (.vins g d a n t)) s) (execVins g d a n t s) := by
  unfold execVins
  refine issue_leaves_of rfl ?_
  have hD := Owns.leaves s (.vins g d a n t)
  have hP := hD.calm
  repeat' (first | with_reducible refine Act.Keeps.bind ?_ fun _ => ?_ | (with_reducible refine Act.Keeps.change_calm hP fun _ => ?_; first | exact Leaves.setMe (.of_pend ⟨rfl, rfl, rfl, rfl, rfl, rfl, rfl, rfl, rfl⟩ ⟨rfl, rfl, rfl, rfl⟩ rfl fun _ h => .inl h) | exact .of_same rfl rfl rfl | exact .refl _ _ | exact perf_leaves _ _ _ _) | split | (simp [hP, hD]; done) | dsimp only)

theorem execVperm_leaves  (g : Guard) (d a b : Opnd) (t : Fmt) (k : BitVec 4) (s : State) : OutKeeps (Leaves (destsOf s.cur.slot (.vperm g d a b t k)) s) (execVperm g d a b t k s) := by
  unfold execVperm
  refine issue_leaves_of rfl ?_
  have hD := Owns.leaves s (.vperm g d a b t k)
  have hP := hD.calm
  repeat' (first | with_reducible refine Act.Keeps.bind ?_ fun _ => ?_ | (with_reducible refine Act.Keeps.change_calm hP fun _ => ?_; first | exact Leaves.setMe (.of_pend ⟨rfl, rfl, rfl, rfl, rfl, rfl, rfl, rfl, rfl⟩ ⟨rfl, rfl, rfl, rfl⟩ rfl fun _ h => .inl h) | exact .of_same rfl rfl rfl | exact .refl _ _ | exact perf_leaves _ _ _ _) | split | (simp [hP, hD]; done) | dsimp only)

theorem execVrot_leaves  (g : Guard) (d a : Opnd) (n : BitVec 10) (t : Fmt) (k : BitVec 4) (s : State) : OutKeeps (Leaves (destsOf s.cur.slot (.vrot g d a n t k)) s) (execVrot g d a n t k s) := by
  unfold execVrot
  refine issue_leaves_of rfl ?_
  have hD := Owns.leaves s (.vrot g d a n t k)
  have hP := hD.calm
  repeat' (first | with_reducible refine Act.Keeps.bind ?_ fun _ => ?_ | (with_reducible refine Act.Keeps.change_calm hP fun _ => ?_; first | exact Leaves.setMe (.of_pend ⟨rfl, rfl, rfl, rfl, rfl, rfl, rfl, rfl, rfl⟩ ⟨rfl, rfl, rfl, rfl⟩ rfl fun _ h => .inl h) | exact .of_same rfl rfl rfl | exact .refl _ _ | exact perf_leaves _ _ _ _) | split | (simp [hP, hD]; done) | dsimp only)

theorem execVslide_leaves  (g : Guard) (d a : Opnd) (n : BitVec 7) (dn : Bool) (t : Fmt) (k : BitVec 4) (s : State) : OutKeeps (Leaves (destsOf s.cur.slot (.vslide g d a n dn t k)) s) (execVslide g d a n dn t k s) := by
  unfold execVslide
  refine issue_leaves_of rfl ?_
  have hD := Owns.leaves s (.vslide g d a n dn t k)
  have hP := hD.calm
  repeat' (first | with_reducible refine Act.Keeps.bind ?_ fun _ => ?_ | (with_reducible refine Act.Keeps.change_calm hP fun _ => ?_; first | exact Leaves.setMe (.of_pend ⟨rfl, rfl, rfl, rfl, rfl, rfl, rfl, rfl, rfl⟩ ⟨rfl, rfl, rfl, rfl⟩ rfl fun _ h => .inl h) | exact .of_same rfl rfl rfl | exact .refl _ _ | exact perf_leaves _ _ _ _) | split | (simp [hP, hD]; done) | dsimp only)

theorem execVred_leaves  (g : Guard) (d a : Opnd) (gs : BitVec 3) (op : BitVec 2) (t : Fmt) (s : State) : OutKeeps (Leaves (destsOf s.cur.slot (.vred g d a gs op t)) s) (execVred g d a gs op t s) := by
  unfold execVred
  refine issue_leaves_of rfl ?_
  have hD := Owns.leaves s (.vred g d a gs op t)
  have hP := hD.calm
  repeat' (first | with_reducible refine Act.Keeps.bind ?_ fun _ => ?_ | (with_reducible refine Act.Keeps.change_calm hP fun _ => ?_; first | exact Leaves.setMe (.of_pend ⟨rfl, rfl, rfl, rfl, rfl, rfl, rfl, rfl, rfl⟩ ⟨rfl, rfl, rfl, rfl⟩ rfl fun _ h => .inl h) | exact .of_same rfl rfl rfl | exact .refl _ _ | exact perf_leaves _ _ _ _) | split | (simp [hP, hD]; done) | dsimp only)

theorem execVscan_leaves  (g : Guard) (d a : Opnd) (gs : BitVec 3) (op : BitVec 2) (t : Fmt) (s : State) : OutKeeps (Leaves (destsOf s.cur.slot (.vscan g d a gs op t)) s) (execVscan g d a gs op t s) := by
  unfold execVscan
  refine issue_leaves_of rfl ?_
  have hD := Owns.leaves s (.vscan g d a gs op t)
  have hP := hD.calm
  repeat' (first | with_reducible refine Act.Keeps.bind ?_ fun _ => ?_ | (with_reducible refine Act.Keeps.change_calm hP fun _ => ?_; first | exact Leaves.setMe (.of_pend ⟨rfl, rfl, rfl, rfl, rfl, rfl, rfl, rfl, rfl⟩ ⟨rfl, rfl, rfl, rfl⟩ rfl fun _ h => .inl h) | exact .of_same rfl rfl rfl | exact .refl _ _ | exact perf_leaves _ _ _ _) | split | (simp [hP, hD]; done) | dsimp only)

theorem execVfred_leaves  (g : Guard) (d a : Opnd) (gs : BitVec 3) (op : BitVec 2) (t : Fmt) (s : State) : OutKeeps (Leaves (destsOf s.cur.slot (.vfred g d a gs op t)) s) (execVfred g d a gs op t s) := by
  unfold execVfred
  refine issue_leaves_of rfl ?_
  have hD := Owns.leaves s (.vfred g d a gs op t)
  have hP := hD.calm
  repeat' (first | with_reducible refine Act.Keeps.bind ?_ fun _ => ?_ | (with_reducible refine Act.Keeps.change_calm hP fun _ => ?_; first | exact Leaves.setMe (.of_pend ⟨rfl, rfl, rfl, rfl, rfl, rfl, rfl, rfl, rfl⟩ ⟨rfl, rfl, rfl, rfl⟩ rfl fun _ h => .inl h) | exact .of_same rfl rfl rfl | exact .refl _ _ | exact perf_leaves _ _ _ _) | split | (simp [hP, hD]; done) | dsimp only)

theorem execVpack_leaves  (g : Guard) (d a b : Opnd) (t : Fmt) (wr : Bool) (s : State) : OutKeeps (Leaves (destsOf s.cur.slot (.vpack g d a b t wr)) s) (execVpack g d a b t wr s) := by
  unfold execVpack
  refine issue_leaves_of rfl ?_
  have hD := Owns.leaves s (.vpack g d a b t wr)
  have hP := hD.calm
  repeat' (first | with_reducible refine Act.Keeps.bind ?_ fun _ => ?_ | (with_reducible refine Act.Keeps.change_calm hP fun _ => ?_; first | exact Leaves.setMe (.of_pend ⟨rfl, rfl, rfl, rfl, rfl, rfl, rfl, rfl, rfl⟩ ⟨rfl, rfl, rfl, rfl⟩ rfl fun _ h => .inl h) | exact .of_same rfl rfl rfl | exact .refl _ _ | exact perf_leaves _ _ _ _) | split | (simp [hP, hD]; done) | dsimp only)

theorem execVunpk_leaves  (g : Guard) (d a : Opnd) (t : Fmt) (hi : Bool) (s : State) : OutKeeps (Leaves (destsOf s.cur.slot (.vunpk g d a t hi)) s) (execVunpk g d a t hi s) := by
  unfold execVunpk
  refine issue_leaves_of rfl ?_
  have hD := Owns.leaves s (.vunpk g d a t hi)
  have hP := hD.calm
  repeat' (first | with_reducible refine Act.Keeps.bind ?_ fun _ => ?_ | (with_reducible refine Act.Keeps.change_calm hP fun _ => ?_; first | exact Leaves.setMe (.of_pend ⟨rfl, rfl, rfl, rfl, rfl, rfl, rfl, rfl, rfl⟩ ⟨rfl, rfl, rfl, rfl⟩ rfl fun _ h => .inl h) | exact .of_same rfl rfl rfl | exact .refl _ _ | exact perf_leaves _ _ _ _) | split | (simp [hP, hD]; done) | dsimp only)

@[simp] theorem vecF2_leaves  (i : Instr) (d a b : Opnd) (t : Fmt) (k : BitVec 4) (f : Num → Num → Num) {P : State → Prop} (hP : Calm P) (hD : Owns i P) : (vecF2 i d a b t k f).Keeps P := by
  unfold vecF2
  repeat' (first | with_reducible refine Act.Keeps.bind ?_ fun _ => ?_ | (with_reducible refine Act.Keeps.change_calm hP fun _ => ?_; first | exact Leaves.setMe (.of_pend ⟨rfl, rfl, rfl, rfl, rfl, rfl, rfl, rfl, rfl⟩ ⟨rfl, rfl, rfl, rfl⟩ rfl fun _ h => .inl h) | exact .of_same rfl rfl rfl | exact .refl _ _ | exact perf_leaves _ _ _ _) | split | (simp [hP, hD]; done) | dsimp only)

@[simp] theorem vecF3_leaves  (i : Instr) (d a b : Opnd) (t : Fmt) (k : BitVec 4) (f : Num → Num → Num → Num) {P : State → Prop} (hP : Calm P) (hD : Owns i P) : (vecF3 i d a b t k f).Keeps P := by
  unfold vecF3
  repeat' (first | with_reducible refine Act.Keeps.bind ?_ fun _ => ?_ | (with_reducible refine Act.Keeps.change_calm hP fun _ => ?_; first | exact Leaves.setMe (.of_pend ⟨rfl, rfl, rfl, rfl, rfl, rfl, rfl, rfl, rfl⟩ ⟨rfl, rfl, rfl, rfl⟩ rfl fun _ h => .inl h) | exact .of_same rfl rfl rfl | exact .refl _ _ | exact perf_leaves _ _ _ _) | split | (simp [hP, hD]; done) | dsimp only)

theorem execVfadd_leaves  (g : Guard) (d a b : Opnd) (t : Fmt) (k : BitVec 4) (s : State) : OutKeeps (Leaves (destsOf s.cur.slot (.vfadd g d a b t k)) s) (execVfadd g d a b t k s) := by
  unfold execVfadd
  refine issue_leaves_of rfl ?_
  have hD := Owns.leaves s (.vfadd g d a b t k)
  have hP := hD.calm
  repeat' (first | with_reducible refine Act.Keeps.bind ?_ fun _ => ?_ | (with_reducible refine Act.Keeps.change_calm hP fun _ => ?_; first | exact Leaves.setMe (.of_pend ⟨rfl, rfl, rfl, rfl, rfl, rfl, rfl, rfl, rfl⟩ ⟨rfl, rfl, rfl, rfl⟩ rfl fun _ h => .inl h) | exact .of_same rfl rfl rfl | exact .refl _ _ | exact perf_leaves _ _ _ _) | split | (simp [hP, hD]; done) | dsimp only)

theorem execVfsub_leaves  (g : Guard) (d a b : Opnd) (t : Fmt) (k : BitVec 4) (s : State) : OutKeeps (Leaves (destsOf s.cur.slot (.vfsub g d a b t k)) s) (execVfsub g d a b t k s) := by
  unfold execVfsub
  refine issue_leaves_of rfl ?_
  have hD := Owns.leaves s (.vfsub g d a b t k)
  have hP := hD.calm
  repeat' (first | with_reducible refine Act.Keeps.bind ?_ fun _ => ?_ | (with_reducible refine Act.Keeps.change_calm hP fun _ => ?_; first | exact Leaves.setMe (.of_pend ⟨rfl, rfl, rfl, rfl, rfl, rfl, rfl, rfl, rfl⟩ ⟨rfl, rfl, rfl, rfl⟩ rfl fun _ h => .inl h) | exact .of_same rfl rfl rfl | exact .refl _ _ | exact perf_leaves _ _ _ _) | split | (simp [hP, hD]; done) | dsimp only)

theorem execVfmul_leaves  (g : Guard) (d a b : Opnd) (t : Fmt) (k : BitVec 4) (s : State) : OutKeeps (Leaves (destsOf s.cur.slot (.vfmul g d a b t k)) s) (execVfmul g d a b t k s) := by
  unfold execVfmul
  refine issue_leaves_of rfl ?_
  have hD := Owns.leaves s (.vfmul g d a b t k)
  have hP := hD.calm
  repeat' (first | with_reducible refine Act.Keeps.bind ?_ fun _ => ?_ | (with_reducible refine Act.Keeps.change_calm hP fun _ => ?_; first | exact Leaves.setMe (.of_pend ⟨rfl, rfl, rfl, rfl, rfl, rfl, rfl, rfl, rfl⟩ ⟨rfl, rfl, rfl, rfl⟩ rfl fun _ h => .inl h) | exact .of_same rfl rfl rfl | exact .refl _ _ | exact perf_leaves _ _ _ _) | split | (simp [hP, hD]; done) | dsimp only)

theorem execVfma_leaves  (g : Guard) (d a b : Opnd) (t : Fmt) (k : BitVec 4) (s : State) : OutKeeps (Leaves (destsOf s.cur.slot (.vfma g d a b t k)) s) (execVfma g d a b t k s) := by
  unfold execVfma
  refine issue_leaves_of rfl ?_
  have hD := Owns.leaves s (.vfma g d a b t k)
  have hP := hD.calm
  repeat' (first | with_reducible refine Act.Keeps.bind ?_ fun _ => ?_ | (with_reducible refine Act.Keeps.change_calm hP fun _ => ?_; first | exact Leaves.setMe (.of_pend ⟨rfl, rfl, rfl, rfl, rfl, rfl, rfl, rfl, rfl⟩ ⟨rfl, rfl, rfl, rfl⟩ rfl fun _ h => .inl h) | exact .of_same rfl rfl rfl | exact .refl _ _ | exact perf_leaves _ _ _ _) | split | (simp [hP, hD]; done) | dsimp only)

theorem execVfms_leaves  (g : Guard) (d a b : Opnd) (t : Fmt) (k : BitVec 4) (s : State) : OutKeeps (Leaves (destsOf s.cur.slot (.vfms g d a b t k)) s) (execVfms g d a b t k s) := by
  unfold execVfms
  refine issue_leaves_of rfl ?_
  have hD := Owns.leaves s (.vfms g d a b t k)
  have hP := hD.calm
  repeat' (first | with_reducible refine Act.Keeps.bind ?_ fun _ => ?_ | (with_reducible refine Act.Keeps.change_calm hP fun _ => ?_; first | exact Leaves.setMe (.of_pend ⟨rfl, rfl, rfl, rfl, rfl, rfl, rfl, rfl, rfl⟩ ⟨rfl, rfl, rfl, rfl⟩ rfl fun _ h => .inl h) | exact .of_same rfl rfl rfl | exact .refl _ _ | exact perf_leaves _ _ _ _) | split | (simp [hP, hD]; done) | dsimp only)

@[simp] theorem vecChoice_leaves  (i : Instr) (d a b : Opnd) (t : Fmt) (k : BitVec 4) (f : Num → Num → Nat → Num) {P : State → Prop} (hP : Calm P) (hD : Owns i P) : (vecChoice i d a b t k f).Keeps P := by
  unfold vecChoice
  repeat' (first | with_reducible refine Act.Keeps.bind ?_ fun _ => ?_ | (with_reducible refine Act.Keeps.change_calm hP fun _ => ?_; first | exact Leaves.setMe (.of_pend ⟨rfl, rfl, rfl, rfl, rfl, rfl, rfl, rfl, rfl⟩ ⟨rfl, rfl, rfl, rfl⟩ rfl fun _ h => .inl h) | exact .of_same rfl rfl rfl | exact .refl _ _ | exact perf_leaves _ _ _ _) | split | (simp [hP, hD]; done) | dsimp only)

theorem execVfmin_leaves  (g : Guard) (d a b : Opnd) (t : Fmt) (k : BitVec 4) (s : State) : OutKeeps (Leaves (destsOf s.cur.slot (.vfmin g d a b t k)) s) (execVfmin g d a b t k s) := by
  unfold execVfmin
  refine issue_leaves_of rfl ?_
  have hD := Owns.leaves s (.vfmin g d a b t k)
  have hP := hD.calm
  repeat' (first | with_reducible refine Act.Keeps.bind ?_ fun _ => ?_ | (with_reducible refine Act.Keeps.change_calm hP fun _ => ?_; first | exact Leaves.setMe (.of_pend ⟨rfl, rfl, rfl, rfl, rfl, rfl, rfl, rfl, rfl⟩ ⟨rfl, rfl, rfl, rfl⟩ rfl fun _ h => .inl h) | exact .of_same rfl rfl rfl | exact .refl _ _ | exact perf_leaves _ _ _ _) | split | (simp [hP, hD]; done) | dsimp only)

theorem execVfmax_leaves  (g : Guard) (d a b : Opnd) (t : Fmt) (k : BitVec 4) (s : State) : OutKeeps (Leaves (destsOf s.cur.slot (.vfmax g d a b t k)) s) (execVfmax g d a b t k s) := by
  unfold execVfmax
  refine issue_leaves_of rfl ?_
  have hD := Owns.leaves s (.vfmax g d a b t k)
  have hP := hD.calm
  repeat' (first | with_reducible refine Act.Keeps.bind ?_ fun _ => ?_ | (with_reducible refine Act.Keeps.change_calm hP fun _ => ?_; first | exact Leaves.setMe (.of_pend ⟨rfl, rfl, rfl, rfl, rfl, rfl, rfl, rfl, rfl⟩ ⟨rfl, rfl, rfl, rfl⟩ rfl fun _ h => .inl h) | exact .of_same rfl rfl rfl | exact .refl _ _ | exact perf_leaves _ _ _ _) | split | (simp [hP, hD]; done) | dsimp only)

theorem execVfabs_leaves  (g : Guard) (d a : Opnd) (t : Fmt) (k : BitVec 4) (s : State) : OutKeeps (Leaves (destsOf s.cur.slot (.vfabs g d a t k)) s) (execVfabs g d a t k s) := by
  unfold execVfabs
  refine issue_leaves_of rfl ?_
  have hD := Owns.leaves s (.vfabs g d a t k)
  have hP := hD.calm
  repeat' (first | with_reducible refine Act.Keeps.bind ?_ fun _ => ?_ | (with_reducible refine Act.Keeps.change_calm hP fun _ => ?_; first | exact Leaves.setMe (.of_pend ⟨rfl, rfl, rfl, rfl, rfl, rfl, rfl, rfl, rfl⟩ ⟨rfl, rfl, rfl, rfl⟩ rfl fun _ h => .inl h) | exact .of_same rfl rfl rfl | exact .refl _ _ | exact perf_leaves _ _ _ _) | split | (simp [hP, hD]; done) | dsimp only)

theorem execVfneg_leaves  (g : Guard) (d a : Opnd) (t : Fmt) (k : BitVec 4) (s : State) : OutKeeps (Leaves (destsOf s.cur.slot (.vfneg g d a t k)) s) (execVfneg g d a t k s) := by
  unfold execVfneg
  refine issue_leaves_of rfl ?_
  have hD := Owns.leaves s (.vfneg g d a t k)
  have hP := hD.calm
  repeat' (first | with_reducible refine Act.Keeps.bind ?_ fun _ => ?_ | (with_reducible refine Act.Keeps.change_calm hP fun _ => ?_; first | exact Leaves.setMe (.of_pend ⟨rfl, rfl, rfl, rfl, rfl, rfl, rfl, rfl, rfl⟩ ⟨rfl, rfl, rfl, rfl⟩ rfl fun _ h => .inl h) | exact .of_same rfl rfl rfl | exact .refl _ _ | exact perf_leaves _ _ _ _) | split | (simp [hP, hD]; done) | dsimp only)

theorem execVfsgn_leaves  (g : Guard) (d a b : Opnd) (t : Fmt) (k : BitVec 4) (s : State) : OutKeeps (Leaves (destsOf s.cur.slot (.vfsgn g d a b t k)) s) (execVfsgn g d a b t k s) := by
  unfold execVfsgn
  refine issue_leaves_of rfl ?_
  have hD := Owns.leaves s (.vfsgn g d a b t k)
  have hP := hD.calm
  repeat' (first | with_reducible refine Act.Keeps.bind ?_ fun _ => ?_ | (with_reducible refine Act.Keeps.change_calm hP fun _ => ?_; first | exact Leaves.setMe (.of_pend ⟨rfl, rfl, rfl, rfl, rfl, rfl, rfl, rfl, rfl⟩ ⟨rfl, rfl, rfl, rfl⟩ rfl fun _ h => .inl h) | exact .of_same rfl rfl rfl | exact .refl _ _ | exact perf_leaves _ _ _ _) | split | (simp [hP, hD]; done) | dsimp only)

theorem execVfcmp_leaves  (g : Guard) (kd : BitVec 4) (a b : Opnd) (t : Fmt) (cc : BitVec 4) (s : State) : OutKeeps (Leaves (destsOf s.cur.slot (.vfcmp g kd a b t cc)) s) (execVfcmp g kd a b t cc s) := by
  unfold execVfcmp
  refine issue_leaves_of rfl ?_
  have hD := Owns.leaves s (.vfcmp g kd a b t cc)
  have hP := hD.calm
  repeat' (first | with_reducible refine Act.Keeps.bind ?_ fun _ => ?_ | (with_reducible refine Act.Keeps.change_calm hP fun _ => ?_; first | exact Leaves.setMe (.of_pend ⟨rfl, rfl, rfl, rfl, rfl, rfl, rfl, rfl, rfl⟩ ⟨rfl, rfl, rfl, rfl⟩ rfl fun _ h => .inl h) | exact .of_same rfl rfl rfl | exact .refl _ _ | exact perf_leaves _ _ _ _) | split | (simp [hP, hD]; done) | dsimp only)

@[simp] theorem vecF1_leaves  (i : Instr) (d a : Opnd) (k : BitVec 4) (f : Num → Nat × Nat) {P : State → Prop} (hP : Calm P) (hD : Owns i P) : (vecF1 i d a k f).Keeps P := by
  unfold vecF1
  repeat' (first | with_reducible refine Act.Keeps.bind ?_ fun _ => ?_ | (with_reducible refine Act.Keeps.change_calm hP fun _ => ?_; first | exact Leaves.setMe (.of_pend ⟨rfl, rfl, rfl, rfl, rfl, rfl, rfl, rfl, rfl⟩ ⟨rfl, rfl, rfl, rfl⟩ rfl fun _ h => .inl h) | exact .of_same rfl rfl rfl | exact .refl _ _ | exact perf_leaves _ _ _ _) | split | (simp [hP, hD]; done) | dsimp only)

theorem execVrcp_leaves  (g : Guard) (d a : Opnd) (t : Fmt) (k : BitVec 4) (s : State) : OutKeeps (Leaves (destsOf s.cur.slot (.vrcp g d a t k)) s) (execVrcp g d a t k s) := by
  unfold execVrcp
  refine issue_leaves_of rfl ?_
  have hD := Owns.leaves s (.vrcp g d a t k)
  have hP := hD.calm
  repeat' (first | with_reducible refine Act.Keeps.bind ?_ fun _ => ?_ | (with_reducible refine Act.Keeps.change_calm hP fun _ => ?_; first | exact Leaves.setMe (.of_pend ⟨rfl, rfl, rfl, rfl, rfl, rfl, rfl, rfl, rfl⟩ ⟨rfl, rfl, rfl, rfl⟩ rfl fun _ h => .inl h) | exact .of_same rfl rfl rfl | exact .refl _ _ | exact perf_leaves _ _ _ _) | split | (simp [hP, hD]; done) | dsimp only)

theorem execVrsq_leaves  (g : Guard) (d a : Opnd) (t : Fmt) (k : BitVec 4) (s : State) : OutKeeps (Leaves (destsOf s.cur.slot (.vrsq g d a t k)) s) (execVrsq g d a t k s) := by
  unfold execVrsq
  refine issue_leaves_of rfl ?_
  have hD := Owns.leaves s (.vrsq g d a t k)
  have hP := hD.calm
  repeat' (first | with_reducible refine Act.Keeps.bind ?_ fun _ => ?_ | (with_reducible refine Act.Keeps.change_calm hP fun _ => ?_; first | exact Leaves.setMe (.of_pend ⟨rfl, rfl, rfl, rfl, rfl, rfl, rfl, rfl, rfl⟩ ⟨rfl, rfl, rfl, rfl⟩ rfl fun _ h => .inl h) | exact .of_same rfl rfl rfl | exact .refl _ _ | exact perf_leaves _ _ _ _) | split | (simp [hP, hD]; done) | dsimp only)

theorem execVexp2_leaves  (g : Guard) (d a : Opnd) (t : Fmt) (k : BitVec 4) (s : State) : OutKeeps (Leaves (destsOf s.cur.slot (.vexp2 g d a t k)) s) (execVexp2 g d a t k s) := by
  unfold execVexp2
  refine issue_leaves_of rfl ?_
  have hD := Owns.leaves s (.vexp2 g d a t k)
  have hP := hD.calm
  repeat' (first | with_reducible refine Act.Keeps.bind ?_ fun _ => ?_ | (with_reducible refine Act.Keeps.change_calm hP fun _ => ?_; first | exact Leaves.setMe (.of_pend ⟨rfl, rfl, rfl, rfl, rfl, rfl, rfl, rfl, rfl⟩ ⟨rfl, rfl, rfl, rfl⟩ rfl fun _ h => .inl h) | exact .of_same rfl rfl rfl | exact .refl _ _ | exact perf_leaves _ _ _ _) | split | (simp [hP, hD]; done) | dsimp only)

theorem execVlog2_leaves  (g : Guard) (d a : Opnd) (t : Fmt) (k : BitVec 4) (s : State) : OutKeeps (Leaves (destsOf s.cur.slot (.vlog2 g d a t k)) s) (execVlog2 g d a t k s) := by
  unfold execVlog2
  refine issue_leaves_of rfl ?_
  have hD := Owns.leaves s (.vlog2 g d a t k)
  have hP := hD.calm
  repeat' (first | with_reducible refine Act.Keeps.bind ?_ fun _ => ?_ | (with_reducible refine Act.Keeps.change_calm hP fun _ => ?_; first | exact Leaves.setMe (.of_pend ⟨rfl, rfl, rfl, rfl, rfl, rfl, rfl, rfl, rfl⟩ ⟨rfl, rfl, rfl, rfl⟩ rfl fun _ h => .inl h) | exact .of_same rfl rfl rfl | exact .refl _ _ | exact perf_leaves _ _ _ _) | split | (simp [hP, hD]; done) | dsimp only)

@[simp] theorem vecConvert_leaves  (i : Instr) (d a : Opnd) (src dst : Fmt) (k : BitVec 4) {P : State → Prop} (hP : Calm P) (hD : Owns i P) : (vecConvert i d a src dst k).Keeps P := by
  unfold vecConvert
  repeat' (first | with_reducible refine Act.Keeps.bind ?_ fun _ => ?_ | (with_reducible refine Act.Keeps.change_calm hP fun _ => ?_; first | exact Leaves.setMe (.of_pend ⟨rfl, rfl, rfl, rfl, rfl, rfl, rfl, rfl, rfl⟩ ⟨rfl, rfl, rfl, rfl⟩ rfl fun _ h => .inl h) | exact .of_same rfl rfl rfl | exact .refl _ _ | exact perf_leaves _ _ _ _) | split | (simp [hP, hD]; done) | dsimp only)

theorem execVicvt_leaves  (g : Guard) (d a : Opnd) (t : Fmt) (k : BitVec 4) (s : State) : OutKeeps (Leaves (destsOf s.cur.slot (.vicvt g d a t k)) s) (execVicvt g d a t k s) := by
  unfold execVicvt
  refine issue_leaves_of rfl ?_
  have hD := Owns.leaves s (.vicvt g d a t k)
  have hP := hD.calm
  repeat' (first | with_reducible refine Act.Keeps.bind ?_ fun _ => ?_ | (with_reducible refine Act.Keeps.change_calm hP fun _ => ?_; first | exact Leaves.setMe (.of_pend ⟨rfl, rfl, rfl, rfl, rfl, rfl, rfl, rfl, rfl⟩ ⟨rfl, rfl, rfl, rfl⟩ rfl fun _ h => .inl h) | exact .of_same rfl rfl rfl | exact .refl _ _ | exact perf_leaves _ _ _ _) | split | (simp [hP, hD]; done) | dsimp only)

theorem execVfcvt_leaves  (g : Guard) (d a : Opnd) (t : Fmt) (k : BitVec 4) (s : State) : OutKeeps (Leaves (destsOf s.cur.slot (.vfcvt g d a t k)) s) (execVfcvt g d a t k s) := by
  unfold execVfcvt
  refine issue_leaves_of rfl ?_
  have hD := Owns.leaves s (.vfcvt g d a t k)
  have hP := hD.calm
  repeat' (first | with_reducible refine Act.Keeps.bind ?_ fun _ => ?_ | (with_reducible refine Act.Keeps.change_calm hP fun _ => ?_; first | exact Leaves.setMe (.of_pend ⟨rfl, rfl, rfl, rfl, rfl, rfl, rfl, rfl, rfl⟩ ⟨rfl, rfl, rfl, rfl⟩ rfl fun _ h => .inl h) | exact .of_same rfl rfl rfl | exact .refl _ _ | exact perf_leaves _ _ _ _) | split | (simp [hP, hD]; done) | dsimp only)

@[simp] theorem unscaled_leaves  (o : Opnd) {P : State → Prop} (hP : Calm P) : (unscaled o).Keeps P := by
  unfold unscaled
  repeat' (first | with_reducible refine Act.Keeps.bind ?_ fun _ => ?_ | (with_reducible refine Act.Keeps.change_calm hP fun _ => ?_; first | exact Leaves.setMe (.of_pend ⟨rfl, rfl, rfl, rfl, rfl, rfl, rfl, rfl, rfl⟩ ⟨rfl, rfl, rfl, rfl⟩ rfl fun _ h => .inl h) | exact .of_same rfl rfl rfl | exact .refl _ _ | exact perf_leaves _ _ _ _) | split | (simp [hP]; done) | dsimp only)

theorem execVxmov_leaves  (g : Guard) (dst : Dest) (a : Opnd) (lane : BitVec 3) (s : State) : OutKeeps (Leaves (destsOf s.cur.slot (.vxmov g dst a lane)) s) (execVxmov g dst a lane s) := by
  unfold execVxmov
  refine issue_leaves_of rfl ?_
  have hD := Owns.leaves s (.vxmov g dst a lane)
  have hP := hD.calm
  repeat' (first | with_reducible refine Act.Keeps.bind ?_ fun _ => ?_ | (with_reducible refine Act.Keeps.change_calm hP fun _ => ?_; first | exact Leaves.setMe (.of_pend ⟨rfl, rfl, rfl, rfl, rfl, rfl, rfl, rfl, rfl⟩ ⟨rfl, rfl, rfl, rfl⟩ rfl fun _ h => .inl h) | exact .of_same rfl rfl rfl | exact .refl _ _ | exact perf_leaves _ _ _ _) | split | (simp [hP, hD]; done) | dsimp only)

@[simp] theorem xOut_leaves  (i : Instr) (d : Opnd) (v : Nat) (st : Nat) {P : State → Prop} (hP : Calm P) (hD : Owns i P) : (xOut i d v st).Keeps P := by
  unfold xOut
  repeat' (first | with_reducible refine Act.Keeps.bind ?_ fun _ => ?_ | (with_reducible refine Act.Keeps.change_calm hP fun _ => ?_; first | exact Leaves.setMe (.of_pend ⟨rfl, rfl, rfl, rfl, rfl, rfl, rfl, rfl, rfl⟩ ⟨rfl, rfl, rfl, rfl⟩ rfl fun _ h => .inl h) | exact .of_same rfl rfl rfl | exact .refl _ _ | exact perf_leaves _ _ _ _) | split | (simp [hP, hD]; done) | dsimp only)

theorem execXcvt_leaves  (g : Guard) (d a : Opnd) (p : BitVec 8) (fo fi : Fmt) (s : State) : OutKeeps (Leaves (destsOf s.cur.slot (.xcvt g d a p fo fi)) s) (execXcvt g d a p fo fi s) := by
  unfold execXcvt
  refine issue_leaves_of rfl ?_
  have hD := Owns.leaves s (.xcvt g d a p fo fi)
  have hP := hD.calm
  repeat' (first | with_reducible refine Act.Keeps.bind ?_ fun _ => ?_ | (with_reducible refine Act.Keeps.change_calm hP fun _ => ?_; first | exact Leaves.setMe (.of_pend ⟨rfl, rfl, rfl, rfl, rfl, rfl, rfl, rfl, rfl⟩ ⟨rfl, rfl, rfl, rfl⟩ rfl fun _ h => .inl h) | exact .of_same rfl rfl rfl | exact .refl _ _ | exact perf_leaves _ _ _ _) | split | (simp [hP, hD]; done) | dsimp only)

theorem execXquant_leaves  (g : Guard) (d a b : Opnd) (fo : Fmt) (p : BitVec 3) (s : State) : OutKeeps (Leaves (destsOf s.cur.slot (.xquant g d a b fo p)) s) (execXquant g d a b fo p s) := by
  unfold execXquant
  refine issue_leaves_of rfl ?_
  have hD := Owns.leaves s (.xquant g d a b fo p)
  have hP := hD.calm
  repeat' (first | with_reducible refine Act.Keeps.bind ?_ fun _ => ?_ | (with_reducible refine Act.Keeps.change_calm hP fun _ => ?_; first | exact Leaves.setMe (.of_pend ⟨rfl, rfl, rfl, rfl, rfl, rfl, rfl, rfl, rfl⟩ ⟨rfl, rfl, rfl, rfl⟩ rfl fun _ h => .inl h) | exact .of_same rfl rfl rfl | exact .refl _ _ | exact perf_leaves _ _ _ _) | split | (simp [hP, hD]; done) | dsimp only)

theorem execXdeq_leaves  (g : Guard) (d a b : Opnd) (p : BitVec 3) (fi : Fmt) (s : State) : OutKeeps (Leaves (destsOf s.cur.slot (.xdeq g d a b p fi)) s) (execXdeq g d a b p fi s) := by
  unfold execXdeq
  refine issue_leaves_of rfl ?_
  have hD := Owns.leaves s (.xdeq g d a b p fi)
  have hP := hD.calm
  repeat' (first | with_reducible refine Act.Keeps.bind ?_ fun _ => ?_ | (with_reducible refine Act.Keeps.change_calm hP fun _ => ?_; first | exact Leaves.setMe (.of_pend ⟨rfl, rfl, rfl, rfl, rfl, rfl, rfl, rfl, rfl⟩ ⟨rfl, rfl, rfl, rfl⟩ rfl fun _ h => .inl h) | exact .of_same rfl rfl rfl | exact .refl _ _ | exact perf_leaves _ _ _ _) | split | (simp [hP, hD]; done) | dsimp only)

theorem execXamax_leaves  (g : Guard) (d a b : Opnd) (fo : Fmt) (s : State) : OutKeeps (Leaves (destsOf s.cur.slot (.xamax g d a b fo)) s) (execXamax g d a b fo s) := by
  unfold execXamax
  refine issue_leaves_of rfl ?_
  have hD := Owns.leaves s (.xamax g d a b fo)
  have hP := hD.calm
  repeat' (first | with_reducible refine Act.Keeps.bind ?_ fun _ => ?_ | (with_reducible refine Act.Keeps.change_calm hP fun _ => ?_; first | exact Leaves.setMe (.of_pend ⟨rfl, rfl, rfl, rfl, rfl, rfl, rfl, rfl, rfl⟩ ⟨rfl, rfl, rfl, rfl⟩ rfl fun _ h => .inl h) | exact .of_same rfl rfl rfl | exact .refl _ _ | exact perf_leaves _ _ _ _) | split | (simp [hP, hD]; done) | dsimp only)

theorem execXtr_leaves (g : Guard) (d a : BitVec 5) (t : Fmt) (s : State) : OutKeeps (Leaves (destsOf s.cur.slot (.xtr g d a t)) s) (execXtr g d a t s) := by
  unfold execXtr
  refine issue_leaves_of rfl ?_
  have hD := Owns.leaves s (.xtr g d a t)
  have hP := hD.calm
  refine .bind (.view _) fun q => .bind (.check _ _ _) fun _ => .bind (.await _) fun _ => .bind (.mapM (fun r => readReg_keeps _) _) fun rows => .bind (.view _) fun l =>
    .bind (.change_calm hP fun s => .setMe (.of_pend ⟨rfl, rfl, rfl, rfl, rfl, rfl, rfl, rfl, rfl⟩ ⟨rfl, rfl, rfl, rfl⟩ rfl fun _ h => .inl h)) fun _ => ?_
  have key : ∀ l' : List Nat, (∀ c ∈ l', c < if t.width = 32 then 16 else 32) → (l'.forM (fun c =>
      writeReg ⟨.t, d.toNat + c⟩ l (mkLanes t.width (if t.width = 32 then 16 else 32) (fun r => lane (rows.getD r 0) c t.width)))).Keeps
      (Leaves (destsOf s.cur.slot (.xtr g d a t)) s) := by
    intro l'
    induction l' with
    | nil => exact fun _ => .ret _
    | cons c l' ih =>
      intro hl
      refine .bind (writeMasked_leaves hD _ _ _ _ _ fun u _ => ?_) fun _ => ih fun x hx => hl x (by simp [hx])
      unfold destsOf
      exact List.mem_map.2 ⟨c, List.mem_range.2 (hl c (by simp)), rfl⟩
  exact key _ fun c hc => List.mem_range.1 hc

theorem execXpack_leaves  (g : Guard) (d a : Opnd) (p : BitVec 8) (t : Fmt) (s : State) : OutKeeps (Leaves (destsOf s.cur.slot (.xpack g d a p t)) s) (execXpack g d a p t s) := by
  unfold execXpack
  refine issue_leaves_of rfl ?_
  have hD := Owns.leaves s (.xpack g d a p t)
  have hP := hD.calm
  repeat' (first | with_reducible refine Act.Keeps.bind ?_ fun _ => ?_ | (with_reducible refine Act.Keeps.change_calm hP fun _ => ?_; first | exact Leaves.setMe (.of_pend ⟨rfl, rfl, rfl, rfl, rfl, rfl, rfl, rfl, rfl⟩ ⟨rfl, rfl, rfl, rfl⟩ rfl fun _ h => .inl h) | exact .of_same rfl rfl rfl | exact .refl _ _ | exact perf_leaves _ _ _ _) | split | (simp [hP, hD]; done) | dsimp only)

theorem execXunpk_leaves  (g : Guard) (d a : Opnd) (p : BitVec 8) (t : Fmt) (s : State) : OutKeeps (Leaves (destsOf s.cur.slot (.xunpk g d a p t)) s) (execXunpk g d a p t s) := by
  unfold execXunpk
  refine issue_leaves_of rfl ?_
  have hD := Owns.leaves s (.xunpk g d a p t)
  have hP := hD.calm
  repeat' (first | with_reducible refine Act.Keeps.bind ?_ fun _ => ?_ | (with_reducible refine Act.Keeps.change_calm hP fun _ => ?_; first | exact Leaves.setMe (.of_pend ⟨rfl, rfl, rfl, rfl, rfl, rfl, rfl, rfl, rfl⟩ ⟨rfl, rfl, rfl, rfl⟩ rfl fun _ h => .inl h) | exact .of_same rfl rfl rfl | exact .refl _ _ | exact perf_leaves _ _ _ _) | split | (simp [hP, hD]; done) | dsimp only)

theorem execXcrc_leaves  (g : Guard) (d a b : Opnd) (n1 : BitVec 6) (s : State) : OutKeeps (Leaves (destsOf s.cur.slot (.xcrc g d a b n1)) s) (execXcrc g d a b n1 s) := by
  unfold execXcrc
  refine issue_leaves_of rfl ?_
  have hD := Owns.leaves s (.xcrc g d a b n1)
  have hP := hD.calm
  repeat' (first | with_reducible refine Act.Keeps.bind ?_ fun _ => ?_ | (with_reducible refine Act.Keeps.change_calm hP fun _ => ?_; first | exact Leaves.setMe (.of_pend ⟨rfl, rfl, rfl, rfl, rfl, rfl, rfl, rfl, rfl⟩ ⟨rfl, rfl, rfl, rfl⟩ rfl fun _ h => .inl h) | exact .of_same rfl rfl rfl | exact .refl _ _ | exact perf_leaves _ _ _ _) | split | (simp [hP, hD]; done) | dsimp only)

@[simp] theorem pushEntries_leaves (q l : Nat) (xs : List Nat) (e : Nat) {P : State → Prop} (hP : Calm P) : (pushEntries q l xs e).Keeps P := by
  induction xs generalizing e with
  | nil => exact Act.Keeps.ret _
  | cons x xs ih =>
    unfold pushEntries
    exact Act.Keeps.bind (by simp [hP]) fun _ => ih _

theorem execXexp_leaves  (g : Guard) (q a : BitVec 5) (dbp : Bool) (t : Fmt) (chk : Bool) (s : State) : OutKeeps (Leaves (destsOf s.cur.slot (.xexp g q a dbp t chk)) s) (execXexp g q a dbp t chk s) := by
  unfold execXexp
  refine issue_leaves_of rfl ?_
  have hD := Owns.leaves s (.xexp g q a dbp t chk)
  have hP := hD.calm
  repeat' (first | with_reducible refine Act.Keeps.bind ?_ fun _ => ?_ | (with_reducible refine Act.Keeps.change_calm hP fun _ => ?_; first | exact Leaves.setMe (.of_pend ⟨rfl, rfl, rfl, rfl, rfl, rfl, rfl, rfl, rfl⟩ ⟨rfl, rfl, rfl, rfl⟩ rfl fun _ h => .inl h) | exact .of_same rfl rfl rfl | exact .refl _ _ | exact perf_leaves _ _ _ _) | split | (simp [hP, hD]; done) | dsimp only)


theorem nearStore_same (s : State) (loc : Nat) : ∀ (bs : List Byte) (a k : Nat),
    (nearStore s loc a bs k).cur = s.cur ∧ (nearStore s loc a bs k).seqs = s.seqs ∧ (nearStore s loc a bs k).cores = s.cores := by
  intro bs
  induction bs with
  | nil => intro a k; exact ⟨rfl, rfl, rfl⟩
  | cons b bs ih =>
    intro a k
    unfold nearStore
    dsimp only
    split
    · exact ih _ _
    · exact ih _ _

theorem nearWrite_leaves {D : List Reg} (s : State) (loc a : Nat) (bs : List Byte) (m : Nat) : Leaves D s (nearWrite s loc a bs m) := by
  have h := nearStore_same s loc bs a m
  exact .of_same h.1 h.2.1 h.2.2

@[simp] theorem Act.xlate_leaves (a : Nat) (write : Bool) {P : State → Prop} (hP : Calm P) : (Act.xlate a write).Keeps P := by
  refine Act.Keeps.lam fun s hs => ?_
  have h : Leaves [] s (translateFor s s.cur.loc s.me.task.vd a write).2 := by
    unfold translateFor
    dsimp only
    repeat' (first | split | exact .refl _ _ | exact .of_same rfl rfl rfl)
  unfold Act.xlate
  split <;> (rename_i e; rw [e] at h; exact hP _ _ h hs)

@[simp] theorem Act.home_leaves (va : Nat) (write remote : Bool) {P : State → Prop} (hP : Calm P) : (Act.home va write remote).Keeps P := by
  unfold Act.home
  repeat' (first | with_reducible refine Act.Keeps.bind ?_ fun _ => ?_ | split | (simp [hP]; done) | dsimp only)

@[simp] theorem homesOf_leaves (write : Bool) {P : State → Prop} (hP : Calm P) : ∀ l : List (Nat × Nat × Nat), (homesOf write l).Keeps P
  | [] => .ret _
  | (a, off, n) :: r => .bind (Act.home_leaves _ _ _ hP) fun _ => .bind (homesOf_leaves write hP r) fun _ => .ret _

theorem emits_leaves {β : Type} (f : State → β → Packet) (l : List β) (s : State) :
    Leaves [] s (l.foldl (fun t r => emit t (f t r)) s) := foldl_leaves (f := fun t r => emit t (f t r)) (fun _ _ => .of_same rfl rfl rfl) _ _

@[simp] theorem openAccess_leaves (e : Ifr) (reqs : List (Nat × Nat × Nat × PktKind)) {P : State → Prop} (hP : Calm P) :
    (openAccess e reqs).Keeps P := by
  refine Act.Keeps.lam fun s hs => ?_
  unfold openAccess
  dsimp only
  split
  · trivial
  · refine hP _ _ ?_ hs
    refine Leaves.trans ?_ (emits_leaves _ _ _)
    exact Leaves.setMe (.of_pend ⟨rfl, rfl, rfl, rfl, rfl, rfl, rfl, rfl, rfl⟩ ⟨rfl, rfl, rfl, rfl⟩ rfl fun _ h => .inl h)

theorem awaitResult_leaves {i : Instr} {P : State → Prop} (hD : Owns i P) (r : Reg) (l k : Nat) (p : Bool)
    (hr : ∀ s, P s → r ∈ destsOf s.cur.slot i) : (awaitResult r l k p).Keeps P := fun s hs =>
  hD s _ (.setMe (addPend_same _ fun x h => by cases h; exact hr s hs)) hs

theorem writeReg_leaves {i : Instr} {P : State → Prop} (hD : Owns i P) (r : Reg) (l : Nat) (v : Vec)
    (hr : ∀ s, P s → r ∈ destsOf s.cur.slot i) : (writeReg r l v).Keeps P := writeMasked_leaves hD _ _ _ _ _ hr

theorem Act.Keeps.view_bind {α β : Type} {f : State → α} {k : α → Act β} {P : State → Prop} (h : ∀ s, P s → (k (f s)).Keeps P) :
    (Act.view f >>= k).Keeps P := fun s hs => by
  rw [Act.bind_ok (Act.view_run f s)]
  exact h s hs s hs

@[simp] theorem readNear_leaves (a n : Nat) {P : State → Prop} : (readNear a n).Keeps P := by
  unfold readNear
  refine .bind (.view _) fun _ => .bind (.check _ _ _) fun _ => ?_
  intro s hs
  unfold readLocal
  rw [Act.bind_ok (Act.view_run _ s)]
  dsimp only [id]
  cases errorMark s ((List.range n).map (fun j => nearPhys s s.cur.loc (a + j))) with
  | none => exact hs
  | some p => trivial

@[simp] theorem writeNear_leaves (a : Nat) (bs : List Byte) (m : Nat) {P : State → Prop} (hP : Calm P) : (writeNear a bs m).Keeps P := by
  unfold writeNear
  exact .bind (.view _) fun _ => .bind (.check _ _ _) fun _ => .change_calm hP fun _ => nearWrite_leaves _ _ _ _ _

@[simp] theorem accessAddr_leaves (a b : Opnd) {P : State → Prop} : (accessAddr a b).Keeps P := by
  unfold accessAddr
  repeat' (first | with_reducible refine Act.Keeps.bind ?_ fun _ => ?_ | split | (simp; done) | dsimp only)

@[simp] theorem accessWindow_leaves (va n : Nat) {P : State → Prop} : (accessWindow va n).Keeps P := by
  unfold accessWindow
  repeat' (first | with_reducible refine Act.Keeps.bind ?_ fun _ => ?_ | split | (simp; done) | dsimp only)

theorem actLoad_leaves (s : State) (i : Instr) (a b : Opnd) (n : Nat) (al : Bool) (cls : BitVec 4) (t : Fmt) :
    (actLoad i a b n al cls t).Keeps (Leaves (destsOf s.cur.slot i) s) := by
  have hD := Owns.leaves s i
  have hP := hD.calm
  unfold actLoad
  refine .bind (accessAddr_leaves _ _) fun va => .bind (.check _ _ _) fun _ => .bind (accessWindow_leaves _ _) fun w => .view_bind fun u hu => ?_
  have hr : ∀ r, (destsOf (id u).cur.slot i).head? = some r → ∀ v, Leaves (destsOf s.cur.slot i) s v → r ∈ destsOf v.cur.slot i := by
    intro r h v hv
    rw [hv.cur, ← hu.cur]
    exact List.mem_of_mem_head? h
  dsimp only
  split
  · refine .bind (homesOf_leaves _ hP _) fun hs => .bind (openAccess_leaves _ _ hP) fun k => ?_
    split
    · exact awaitResult_leaves hD _ _ _ _ (hr _ ‹_›)
    · exact .ret _
  · refine .bind (readNear_leaves _ _) fun x => ?_
    split
    · exact writeReg_leaves hD _ _ _ (hr _ ‹_›)
    · exact .ret _

theorem execLd_leaves (g : Guard) (dst : Dest) (a b : Opnd) (cls : BitVec 4) (t : Fmt) (s : State) :
    OutKeeps (Leaves (destsOf s.cur.slot (.ld g dst a b cls t)) s) (execLd g dst a b cls t s) := issue_leaves_of rfl (actLoad_leaves _ _ _ _ _ _ _ _)
theorem execVld_leaves (g : Guard) (dst : Dest) (a b : Opnd) (cls : BitVec 4) (s : State) :
    OutKeeps (Leaves (destsOf s.cur.slot (.vld g dst a b cls)) s) (execVld g dst a b cls s) := issue_leaves_of rfl (actLoad_leaves _ _ _ _ _ _ _ _)
theorem execVldu_leaves (g : Guard) (dst : Dest) (a b : Opnd) (cls : BitVec 4) (s : State) :
    OutKeeps (Leaves (destsOf s.cur.slot (.vldu g dst a b cls)) s) (execVldu g dst a b cls s) := issue_leaves_of rfl (actLoad_leaves _ _ _ _ _ _ _ _)

@[simp] theorem remoteAddr_leaves (va n : Nat) {P : State → Prop} : (remoteAddr va n).Keeps P := .check _ _ _

@[simp] theorem needToken_leaves (va : Nat) {P : State → Prop} : (needToken va).Keeps P :=
  .bind (.view _) fun _ => .check _ _ _

theorem execLdr_leaves (g : Guard) (dst : Dest) (a : Opnd) (ca : Bool) (lq : BitVec 9) (cls : BitVec 4) (t : Fmt) (s : State) :
    OutKeeps (Leaves (destsOf s.cur.slot (.ldr g dst a ca lq cls t)) s) (execLdr g dst a ca lq cls t s) := by
  have hD := Owns.leaves s (.ldr g dst a ca lq cls t)
  have hP := hD.calm
  unfold execLdr
  refine issue_leaves_of rfl ?_
  refine .bind (readOp_keeps _) fun va => .bind (remoteAddr_leaves _ _) fun _ => .bind (Act.home_leaves _ _ _ hP) fun pa => ?_
  have hr : ∀ u, Leaves (destsOf s.cur.slot (.ldr g dst a ca lq cls t)) s u → ∀ r, (destsOf (id u).cur.slot (.ldr g dst a ca lq cls t)).head? = some r →
      ∀ v, Leaves (destsOf s.cur.slot (.ldr g dst a ca lq cls t)) s v → r ∈ destsOf v.cur.slot (.ldr g dst a ca lq cls t) := by
    intro u hu r h v hv
    rw [hv.cur, ← hu.cur]
    exact List.mem_of_mem_head? h
  dsimp only
  split
  · refine .bind (needToken_leaves _) fun _ => .view_bind fun u hu => .bind (openAccess_leaves _ _ hP) fun k => ?_
    split
    · exact awaitResult_leaves hD _ _ _ _ (hr u hu _ ‹_›)
    · exact .ret _
  · refine .view_bind fun u hu => .bind (openAccess_leaves _ _ hP) fun k => ?_
    split
    · exact awaitResult_leaves hD _ _ _ _ (hr u hu _ ‹_›)
    · exact .ret _

theorem execStr_leaves (g : Guard) (src a : Opnd) (ca : Bool) (cls : BitVec 4) (t : Fmt) (s : State) :
    OutKeeps (Leaves (destsOf s.cur.slot (.str g src a ca cls t)) s) (execStr g src a ca cls t s) := by
  have hP := (Owns.leaves s (.str g src a ca cls t)).calm
  unfold execStr
  refine issue_leaves_of rfl ?_
  repeat' (first | with_reducible refine Act.Keeps.bind ?_ fun _ => ?_ | (with_reducible refine Act.Keeps.change_calm hP fun _ => ?_; first | exact Leaves.setMe (.of_pend ⟨rfl, rfl, rfl, rfl, rfl, rfl, rfl, rfl, rfl⟩ ⟨rfl, rfl, rfl, rfl⟩ rfl fun _ h => .inl h) | exact .of_same rfl rfl rfl | exact .refl _ _) | split | (simp [hP]; done) | dsimp only)

@[simp] theorem orderBefore_leaves (o sc : Nat) {P : State → Prop} : (orderBefore o sc).Keeps P := .await _

@[simp] theorem orderAfter_leaves (o sc : Nat) {P : State → Prop} (hP : Calm P) : (orderAfter o sc).Keeps P := by
  unfold orderAfter
  refine .change_calm hP fun _ => ?_
  split
  · exact Leaves.setMe (.of_pend ⟨rfl, rfl, rfl, rfl, rfl, rfl, rfl, rfl, rfl⟩ ⟨rfl, rfl, rfl, rfl⟩ rfl fun _ h => .inl h)
  · exact .refl _ _

@[simp] theorem stickyNow_leaves (st : Nat) {P : State → Prop} (hP : Calm P) : (stickyNow st).Keeps P := by
  unfold stickyNow
  refine .change_calm hP fun _ => ?_
  split
  · exact .refl _ _
  · exact Leaves.setMe (.of_pend ⟨rfl, rfl, rfl, rfl, rfl, rfl, rfl, rfl, rfl⟩ ⟨rfl, rfl, rfl, rfl⟩ rfl fun _ h => .inl h)

theorem actAtomic_leaves {i : Instr} {P : State → Prop} (hD : Owns i P) (op : Nat) (wd : BitVec 5) (a b : Opnd) (nr : Bool) (ord : BitVec 2) (cls : BitVec 4) (t : Fmt)
    (hr : ¬ nr = true → ∀ s, P s → (⟨.w, wd.toNat⟩ : Reg) ∈ destsOf s.cur.slot i) : (actAtomic op wd a b nr ord cls t).Keeps P := by
  have hP := hD.calm
  unfold actAtomic
  repeat' (first | with_reducible refine Act.Keeps.bind ?_ fun _ => ?_ | split | (simp [hP]; done) | with_reducible exact awaitResult_leaves hD _ _ _ _ (hr ‹_›) | with_reducible exact writeReg_leaves hD _ _ _ (hr ‹_›) | dsimp only)

theorem execRatom_leaves (g : Guard) (wd : BitVec 5) (a : Opnd) (wb : BitVec 5) (rop : BitVec 4) (nr : Bool) (ord : BitVec 2)
    (cls : BitVec 4) (t : Fmt) (s : State) :
    OutKeeps (Leaves (destsOf s.cur.slot (.ratom g wd a wb rop nr ord cls t)) s) (execRatom g wd a wb rop nr ord cls t s) := by
  have hD := Owns.leaves s (.ratom g wd a wb rop nr ord cls t)
  have hP := hD.calm
  have hr : ¬ nr = true → ∀ v, Leaves (destsOf s.cur.slot (.ratom g wd a wb rop nr ord cls t)) s v → (⟨.w, wd.toNat⟩ : Reg) ∈ destsOf v.cur.slot (.ratom g wd a wb rop nr ord cls t) :=
    fun h v _ => by simp [destsOf, h]
  unfold execRatom
  refine issue_leaves_of rfl ?_
  repeat' (first | with_reducible refine Act.Keeps.bind ?_ fun _ => ?_ | split | (simp [hP]; done) | exact awaitResult_leaves hD _ _ _ _ (hr ‹_›) | dsimp only)

theorem execAadd_leaves (g : Guard) (wd : BitVec 5) (a b : Opnd) (nr : Bool) (ord : BitVec 2) (cls : BitVec 4) (t : Fmt) (s : State) :
    OutKeeps (Leaves (destsOf s.cur.slot (.aadd g wd a b nr ord cls t)) s) (execAadd g wd a b nr ord cls t s) :=
  issue_leaves_of rfl (actAtomic_leaves (Owns.leaves s (.aadd g wd a b nr ord cls t)) _ _ _ _ _ _ _ _ fun h v _ => by simp [destsOf, h])

theorem execAmin_leaves (g : Guard) (wd : BitVec 5) (a b : Opnd) (nr : Bool) (ord : BitVec 2) (cls : BitVec 4) (t : Fmt) (s : State) :
    OutKeeps (Leaves (destsOf s.cur.slot (.amin g wd a b nr ord cls t)) s) (execAmin g wd a b nr ord cls t s) :=
  issue_leaves_of rfl (actAtomic_leaves (Owns.leaves s (.amin g wd a b nr ord cls t)) _ _ _ _ _ _ _ _ fun h v _ => by simp [destsOf, h])

theorem execAmax_leaves (g : Guard) (wd : BitVec 5) (a b : Opnd) (nr : Bool) (ord : BitVec 2) (cls : BitVec 4) (t : Fmt) (s : State) :
    OutKeeps (Leaves (destsOf s.cur.slot (.amax g wd a b nr ord cls t)) s) (execAmax g wd a b nr ord cls t s) :=
  issue_leaves_of rfl (actAtomic_leaves (Owns.leaves s (.amax g wd a b nr ord cls t)) _ _ _ _ _ _ _ _ fun h v _ => by simp [destsOf, h])

theorem execAswp_leaves (g : Guard) (wd : BitVec 5) (a b : Opnd) (nr : Bool) (ord : BitVec 2) (cls : BitVec 4) (t : Fmt) (s : State) :
    OutKeeps (Leaves (destsOf s.cur.slot (.aswp g wd a b nr ord cls t)) s) (execAswp g wd a b nr ord cls t s) :=
  issue_leaves_of rfl (actAtomic_leaves (Owns.leaves s (.aswp g wd a b nr ord cls t)) _ _ _ _ _ _ _ _ fun h v _ => by simp [destsOf, h])

theorem execAincb_leaves (g : Guard) (wd : BitVec 5) (a b : Opnd) (nr : Bool) (ord : BitVec 2) (cls : BitVec 4) (t : Fmt) (s : State) :
    OutKeeps (Leaves (destsOf s.cur.slot (.aincb g wd a b nr ord cls t)) s) (execAincb g wd a b nr ord cls t s) :=
  issue_leaves_of rfl (actAtomic_leaves (Owns.leaves s (.aincb g wd a b nr ord cls t)) _ _ _ _ _ _ _ _ fun h v _ => by simp [destsOf, h])

theorem execAlog_leaves (g : Guard) (wd : BitVec 5) (a b : Opnd) (nr : Bool) (lop ord : BitVec 2) (cls : BitVec 4) (t : Fmt) (s : State) :
    OutKeeps (Leaves (destsOf s.cur.slot (.alog g wd a b nr lop ord cls t)) s) (execAlog g wd a b nr lop ord cls t s) :=
  issue_leaves_of rfl (actAtomic_leaves (Owns.leaves s (.alog g wd a b nr lop ord cls t)) _ _ _ _ _ _ _ _ fun h v _ => by simp [destsOf, h])

theorem execAcas_leaves (g : Guard) (wd : BitVec 5) (a b : Opnd) (ord : BitVec 2) (cls : BitVec 4) (t : Fmt) (s : State) :
    OutKeeps (Leaves (destsOf s.cur.slot (.acas g wd a b ord cls t)) s) (execAcas g wd a b ord cls t s) :=
  issue_leaves_of rfl (actAtomic_leaves (Owns.leaves s (.acas g wd a b ord cls t)) _ _ _ _ _ _ _ _ fun h v _ => by simp [destsOf])

@[simp] theorem actStore_leaves (va n mask w : Nat) (cls : BitVec 4) (data : Act Nat) {P : State → Prop} (hP : Calm P) (hd : data.Keeps P) :
    (actStore va n mask w cls data).Keeps P := by
  unfold actStore
  repeat' (first | with_reducible refine Act.Keeps.bind ?_ fun _ => ?_ | exact hd | split | (simp [hP]; done) | dsimp only)

theorem execSt_leaves (g : Guard) (src a b : Opnd) (cls : BitVec 4) (t : Fmt) (s : State) :
    OutKeeps (Leaves (destsOf s.cur.slot (.st g src a b cls t)) s) (execSt g src a b cls t s) := by
  have hP := (Owns.leaves s (.st g src a b cls t)).calm
  unfold execSt
  refine issue_leaves_of rfl ?_
  repeat' (first | with_reducible refine Act.Keeps.bind ?_ fun _ => ?_ | (with_reducible refine actStore_leaves _ _ _ _ _ _ hP ?_) | split | (simp [hP]; done) | dsimp only)

theorem execVst_leaves (g : Guard) (src a b : Opnd) (cls : BitVec 4) (s : State) :
    OutKeeps (Leaves (destsOf s.cur.slot (.vst g src a b cls)) s) (execVst g src a b cls s) := by
  have hP := (Owns.leaves s (.vst g src a b cls)).calm
  unfold execVst
  refine issue_leaves_of rfl ?_
  repeat' (first | with_reducible refine Act.Keeps.bind ?_ fun _ => ?_ | (with_reducible refine actStore_leaves _ _ _ _ _ _ hP ?_) | split | (simp [hP]; done) | dsimp only)

theorem execVstm_leaves (g : Guard) (src a : Opnd) (k : BitVec 4) (v1 : Bool) (cls : BitVec 4) (s : State) :
    OutKeeps (Leaves (destsOf s.cur.slot (.vstm g src a k v1 cls)) s) (execVstm g src a k v1 cls s) := by
  have hP := (Owns.leaves s (.vstm g src a k v1 cls)).calm
  unfold execVstm
  refine issue_leaves_of rfl ?_
  repeat' (first | with_reducible refine Act.Keeps.bind ?_ fun _ => ?_ | (with_reducible refine actStore_leaves _ _ _ _ _ _ hP ?_) | split | (simp [hP]; done) | dsimp only)

@[simp] theorem readIds_leaves (b : Opnd) {P : State → Prop} (hP : Calm P) : (readIds b).Keeps P := by
  unfold readIds
  repeat' (first | with_reducible refine Act.Keeps.bind ?_ fun _ => ?_ | split | (simp [hP]; done) | dsimp only)

theorem execRcnt_leaves (g : Guard) (a b : Opnd) (s : State) :
    OutKeeps (Leaves (destsOf s.cur.slot (.rcnt g a b)) s) (execRcnt g a b s) := by
  have hP := (Owns.leaves s (.rcnt g a b)).calm
  unfold execRcnt
  refine issue_leaves_of rfl ?_
  repeat' (first | with_reducible refine Act.Keeps.bind ?_ fun _ => ?_ | (with_reducible refine Act.Keeps.change_calm hP fun _ => ?_; first | exact Leaves.setMe (.of_pend ⟨rfl, rfl, rfl, rfl, rfl, rfl, rfl, rfl, rfl⟩ ⟨rfl, rfl, rfl, rfl⟩ rfl fun _ h => .inl h) | exact .of_same rfl rfl rfl | exact .refl _ _) | split | (simp [hP]; done) | dsimp only)

theorem execAsnap_leaves (g : Guard) (wd : BitVec 5) (a b : Opnd) (cls : BitVec 4) (s : State) :
    OutKeeps (Leaves (destsOf s.cur.slot (.asnap g wd a b cls)) s) (execAsnap g wd a b cls s) := by
  have hD := Owns.leaves s (.asnap g wd a b cls)
  have hP := hD.calm
  unfold execAsnap
  refine issue_leaves_of rfl ?_
  refine .bind (readOp_keeps _) fun _ => .bind (readOp_keeps _) fun _ => .bind (.check _ _ _) fun _ => .bind (.check _ _ _) fun _ => .bind (.view _) fun _ =>
    .bind (.change_calm hP fun _ => .of_same rfl rfl rfl) fun _ => .bind (writeNear_leaves _ _ _ hP) fun _ => writeReg_leaves hD _ _ _ fun v _ => by simp [destsOf]

theorem execPf_leaves (g : Guard) (a b : Opnd) (s : State) : OutKeeps (Leaves (destsOf s.cur.slot (.pf g a b)) s) (execPf g a b s) := by
  unfold execPf
  exact issue_leaves_of rfl (.bind (accessAddr_leaves _ _) fun _ => .ret _)


@[simp] theorem addTile_leaves  (acc : Nat) (k : TileKind) {P : State → Prop} (hP : Calm P) : (addTile acc k).Keeps P := by
  unfold addTile
  repeat' (first | with_reducible refine Act.Keeps.bind ?_ fun _ => ?_ | (with_reducible refine Act.Keeps.change_calm hP fun _ => ?_; first | exact Leaves.setMe (.of_pend ⟨rfl, rfl, rfl, rfl, rfl, rfl, rfl, rfl, rfl⟩ ⟨rfl, rfl, rfl, rfl⟩ rfl fun _ h => .inl h) | exact .of_same rfl rfl rfl | exact .refl _ _ | exact perf_leaves _ _ _ _) | split | (simp [hP]; done) | dsimp only)

@[simp] theorem takeReady_leaves  (n : Nat) (r : Ring) (need : Nat) {P : State → Prop} (hP : Calm P) : (takeReady n r need).Keeps P := by
  unfold takeReady
  repeat' (first | with_reducible refine Act.Keeps.bind ?_ fun _ => ?_ | (with_reducible refine Act.Keeps.change_calm hP fun _ => ?_; first | exact Leaves.setMe (.of_pend ⟨rfl, rfl, rfl, rfl, rfl, rfl, rfl, rfl, rfl⟩ ⟨rfl, rfl, rfl, rfl⟩ rfl fun _ h => .inl h) | exact .of_same rfl rfl rfl | exact .refl _ _ | exact perf_leaves _ _ _ _) | split | (simp [hP]; done) | dsimp only)

@[simp] theorem lineIn_leaves  (lm : BitVec 3) {P : State → Prop} (hP : Calm P) : (lineIn lm).Keeps P := by
  unfold lineIn
  repeat' (first | with_reducible refine Act.Keeps.bind ?_ fun _ => ?_ | (with_reducible refine Act.Keeps.change_calm hP fun _ => ?_; first | exact Leaves.setMe (.of_pend ⟨rfl, rfl, rfl, rfl, rfl, rfl, rfl, rfl, rfl⟩ ⟨rfl, rfl, rfl, rfl⟩ rfl fun _ h => .inl h) | exact .of_same rfl rfl rfl | exact .refl _ _ | exact perf_leaves _ _ _ _) | split | (simp [hP]; done) | dsimp only)

@[simp] theorem pushDq_leaves  (n : Nat) (v : Vec) (l : Nat) {P : State → Prop} (hP : Calm P) : (pushDq n v l).Keeps P := by
  unfold pushDq
  repeat' (first | with_reducible refine Act.Keeps.bind ?_ fun _ => ?_ | (with_reducible refine Act.Keeps.change_calm hP fun _ => ?_; first | exact Leaves.setMe (.of_pend ⟨rfl, rfl, rfl, rfl, rfl, rfl, rfl, rfl, rfl⟩ ⟨rfl, rfl, rfl, rfl⟩ rfl fun _ h => .inl h) | exact .of_same rfl rfl rfl | exact .refl _ _ | exact perf_leaves _ _ _ _) | split | (simp [hP]; done) | dsimp only)

@[simp] theorem reserveDq_leaves  (n count : Nat) {P : State → Prop} (hP : Calm P) : (reserveDq n count).Keeps P := by
  unfold reserveDq
  repeat' (first | with_reducible refine Act.Keeps.bind ?_ fun _ => ?_ | (with_reducible refine Act.Keeps.change_calm hP fun _ => ?_; first | exact Leaves.setMe (.of_pend ⟨rfl, rfl, rfl, rfl, rfl, rfl, rfl, rfl, rfl⟩ ⟨rfl, rfl, rfl, rfl⟩ rfl fun _ h => .inl h) | exact .of_same rfl rfl rfl | exact .refl _ _ | exact perf_leaves _ _ _ _) | split | (simp [hP]; done) | dsimp only)

theorem execMcall_leaves  (g : Guard) (idx : BitVec 11) (s : State) : OutKeeps (Leaves (destsOf s.cur.slot (.mcall g idx)) s) (execMcall g idx s) := by
  unfold execMcall
  refine issue_leaves_of rfl ?_
  have hD := Owns.leaves s (.mcall g idx)
  have hP := hD.calm
  repeat' (first | with_reducible refine Act.Keeps.bind ?_ fun _ => ?_ | (with_reducible refine Act.Keeps.change_calm hP fun _ => ?_; first | exact Leaves.setMe (.of_pend ⟨rfl, rfl, rfl, rfl, rfl, rfl, rfl, rfl, rfl⟩ ⟨rfl, rfl, rfl, rfl⟩ rfl fun _ h => .inl h) | exact .of_same rfl rfl rfl | exact .refl _ _ | exact perf_leaves _ _ _ _) | split | (simp [hP, hD]; done) | dsimp only)

theorem execMloop_leaves  (g : Guard) (count : BitVec 16) (mi : BitVec 3) (src : Bool) (s : State) : OutKeeps (Leaves (destsOf s.cur.slot (.mloop g count mi src)) s) (execMloop g count mi src s) := by
  unfold execMloop
  refine issue_leaves_of rfl ?_
  have hD := Owns.leaves s (.mloop g count mi src)
  have hP := hD.calm
  repeat' (first | with_reducible refine Act.Keeps.bind ?_ fun _ => ?_ | (with_reducible refine Act.Keeps.change_calm hP fun _ => ?_; first | exact Leaves.setMe (.of_pend ⟨rfl, rfl, rfl, rfl, rfl, rfl, rfl, rfl, rfl⟩ ⟨rfl, rfl, rfl, rfl⟩ rfl fun _ h => .inl h) | exact .of_same rfl rfl rfl | exact .refl _ _ | exact perf_leaves _ _ _ _) | split | (simp [hP, hD]; done) | dsimp only)

theorem execMend_leaves  (g : Guard) (s : State) : OutKeeps (Leaves (destsOf s.cur.slot (.mend g)) s) (execMend g s) := by
  unfold execMend
  refine issue_leaves_of rfl ?_
  have hD := Owns.leaves s (.mend g)
  have hP := hD.calm
  repeat' (first | with_reducible refine Act.Keeps.bind ?_ fun _ => ?_ | (with_reducible refine Act.Keeps.change_calm hP fun _ => ?_; first | exact Leaves.setMe (.of_pend ⟨rfl, rfl, rfl, rfl, rfl, rfl, rfl, rfl, rfl⟩ ⟨rfl, rfl, rfl, rfl⟩ rfl fun _ h => .inl h) | exact .of_same rfl rfl rfl | exact .refl _ _ | exact perf_leaves _ _ _ _) | split | (simp [hP, hD]; done) | dsimp only)

theorem execMendF_leaves  (g : Guard) (s : State) : OutKeeps (Leaves (destsOf s.cur.slot (.mendF g)) s) (execMendF g s) := by
  unfold execMendF
  refine issue_leaves_of rfl ?_
  have hD := Owns.leaves s (.mendF g)
  have hP := hD.calm
  repeat' (first | with_reducible refine Act.Keeps.bind ?_ fun _ => ?_ | (with_reducible refine Act.Keeps.change_calm hP fun _ => ?_; first | exact Leaves.setMe (.of_pend ⟨rfl, rfl, rfl, rfl, rfl, rfl, rfl, rfl, rfl⟩ ⟨rfl, rfl, rfl, rfl⟩ rfl fun _ h => .inl h) | exact .of_same rfl rfl rfl | exact .refl _ _ | exact perf_leaves _ _ _ _) | split | (simp [hP, hD]; done) | dsimp only)

@[simp] theorem readLocal_leaves  (a n : Nat) {P : State → Prop} (hP : Calm P) : (readLocal a n).Keeps P := by
  unfold readLocal
  repeat' (first | with_reducible refine Act.Keeps.bind ?_ fun _ => ?_ | (with_reducible refine Act.Keeps.change_calm hP fun _ => ?_; first | exact Leaves.setMe (.of_pend ⟨rfl, rfl, rfl, rfl, rfl, rfl, rfl, rfl, rfl⟩ ⟨rfl, rfl, rfl, rfl⟩ rfl fun _ h => .inl h) | exact .of_same rfl rfl rfl | exact .refl _ _ | exact perf_leaves _ _ _ _) | split | (simp [hP]; done) | dsimp only)

@[simp] theorem localBlock_leaves  (a : Nat) {P : State → Prop} (hP : Calm P) : (localBlock a).Keeps P := by
  unfold localBlock
  repeat' (first | with_reducible refine Act.Keeps.bind ?_ fun _ => ?_ | (with_reducible refine Act.Keeps.change_calm hP fun _ => ?_; first | exact Leaves.setMe (.of_pend ⟨rfl, rfl, rfl, rfl, rfl, rfl, rfl, rfl, rfl⟩ ⟨rfl, rfl, rfl, rfl⟩ rfl fun _ h => .inl h) | exact .of_same rfl rfl rfl | exact .refl _ _ | exact perf_leaves _ _ _ _) | split | (simp [hP]; done) | dsimp only)

theorem execCbind_leaves  (g : Guard) (q e : BitVec 5) (gather : Bool) (s : State) : OutKeeps (Leaves (destsOf s.cur.slot (.cbind g q e gather)) s) (execCbind g q e gather s) := by
  unfold execCbind
  refine issue_leaves_of rfl ?_
  have hD := Owns.leaves s (.cbind g q e gather)
  have hP := hD.calm
  repeat' (first | with_reducible refine Act.Keeps.bind ?_ fun _ => ?_ | (with_reducible refine Act.Keeps.change_calm hP fun _ => ?_; first | exact Leaves.setMe (.of_pend ⟨rfl, rfl, rfl, rfl, rfl, rfl, rfl, rfl, rfl⟩ ⟨rfl, rfl, rfl, rfl⟩ rfl fun _ h => .inl h) | exact .of_same rfl rfl rfl | exact .refl _ _ | exact perf_leaves _ _ _ _) | split | (simp [hP, hD]; done) | dsimp only)

@[simp] theorem Act.anyRing_leaves  (n : Nat) {P : State → Prop} (hP : Calm P) : (Act.anyRing n).Keeps P := by
  refine Act.Keeps.lam fun s hs => ?_
  unfold Act.anyRing
  repeat' (first | exact hs | split | (simp [hs]; done) | dsimp only)
  all_goals exact hP _ _ (by first | exact Leaves.setMe (.of_pend ⟨rfl, rfl, rfl, rfl, rfl, rfl, rfl, rfl, rfl⟩ ⟨rfl, rfl, rfl, rfl⟩ rfl fun _ h => .inl h) | exact .of_same rfl rfl rfl | exact .refl _ _ | exact perf_leaves _ _ _ _) hs

theorem execGpush_leaves  (g : Guard) (q : BitVec 5) (a : Opnd) (s : State) : OutKeeps (Leaves (destsOf s.cur.slot (.gpush g q a)) s) (execGpush g q a s) := by
  unfold execGpush
  refine issue_leaves_of rfl ?_
  have hD := Owns.leaves s (.gpush g q a)
  have hP := hD.calm
  repeat' (first | with_reducible refine Act.Keeps.bind ?_ fun _ => ?_ | (with_reducible refine Act.Keeps.change_calm hP fun _ => ?_; first | exact Leaves.setMe (.of_pend ⟨rfl, rfl, rfl, rfl, rfl, rfl, rfl, rfl, rfl⟩ ⟨rfl, rfl, rfl, rfl⟩ rfl fun _ h => .inl h) | exact .of_same rfl rfl rfl | exact .refl _ _ | exact perf_leaves _ _ _ _) | split | (simp [hP, hD]; done) | dsimp only)

@[simp] theorem fillWait_leaves  (q n : Nat) (r : Ring) {P : State → Prop} (hP : Calm P) : (fillWait q n r).Keeps P := by
  unfold fillWait
  repeat' (first | with_reducible refine Act.Keeps.bind ?_ fun _ => ?_ | (with_reducible refine Act.Keeps.change_calm hP fun _ => ?_; first | exact Leaves.setMe (.of_pend ⟨rfl, rfl, rfl, rfl, rfl, rfl, rfl, rfl, rfl⟩ ⟨rfl, rfl, rfl, rfl⟩ rfl fun _ h => .inl h) | exact .of_same rfl rfl rfl | exact .refl _ _ | exact perf_leaves _ _ _ _) | split | (simp [hP]; done) | dsimp only)

theorem execQwait_leaves  (g : Guard) (q : BitVec 5) (n : BitVec 7) (s : State) : OutKeeps (Leaves (destsOf s.cur.slot (.qwait g q n)) s) (execQwait g q n s) := by
  unfold execQwait
  refine issue_leaves_of rfl ?_
  have hD := Owns.leaves s (.qwait g q n)
  have hP := hD.calm
  repeat' (first | with_reducible refine Act.Keeps.bind ?_ fun _ => ?_ | (with_reducible refine Act.Keeps.change_calm hP fun _ => ?_; first | exact Leaves.setMe (.of_pend ⟨rfl, rfl, rfl, rfl, rfl, rfl, rfl, rfl, rfl⟩ ⟨rfl, rfl, rfl, rfl⟩ rfl fun _ h => .inl h) | exact .of_same rfl rfl rfl | exact .refl _ _ | exact perf_leaves _ _ _ _) | split | (simp [hP, hD]; done) | dsimp only)

theorem execQadv_leaves  (g : Guard) (q : BitVec 5) (n : BitVec 7) (s : State) : OutKeeps (Leaves (destsOf s.cur.slot (.qadv g q n)) s) (execQadv g q n s) := by
  unfold execQadv
  refine issue_leaves_of rfl ?_
  have hD := Owns.leaves s (.qadv g q n)
  have hP := hD.calm
  repeat' (first | with_reducible refine Act.Keeps.bind ?_ fun _ => ?_ | (with_reducible refine Act.Keeps.change_calm hP fun _ => ?_; first | exact Leaves.setMe (.of_pend ⟨rfl, rfl, rfl, rfl, rfl, rfl, rfl, rfl, rfl⟩ ⟨rfl, rfl, rfl, rfl⟩ rfl fun _ h => .inl h) | exact .of_same rfl rfl rfl | exact .refl _ _ | exact perf_leaves _ _ _ _) | split | (simp [hP, hD]; done) | dsimp only)

@[simp] theorem ownEndpoint_leaves  (epk epn : Nat) {P : State → Prop} (hP : Calm P) : (ownEndpoint epk epn).Keeps P := by
  unfold ownEndpoint
  repeat' (first | with_reducible refine Act.Keeps.bind ?_ fun _ => ?_ | (with_reducible refine Act.Keeps.change_calm hP fun _ => ?_; first | exact Leaves.setMe (.of_pend ⟨rfl, rfl, rfl, rfl, rfl, rfl, rfl, rfl, rfl⟩ ⟨rfl, rfl, rfl, rfl⟩ rfl fun _ h => .inl h) | exact .of_same rfl rfl rfl | exact .refl _ _ | exact perf_leaves _ _ _ _) | split | (simp [hP]; done) | dsimp only)

@[simp] theorem handleSlot_leaves  (h : Nat) {P : State → Prop} (hP : Calm P) : (handleSlot h).Keeps P := by
  unfold handleSlot
  repeat' (first | with_reducible refine Act.Keeps.bind ?_ fun _ => ?_ | (with_reducible refine Act.Keeps.change_calm hP fun _ => ?_; first | exact Leaves.setMe (.of_pend ⟨rfl, rfl, rfl, rfl, rfl, rfl, rfl, rfl, rfl⟩ ⟨rfl, rfl, rfl, rfl⟩ rfl fun _ h => .inl h) | exact .of_same rfl rfl rfl | exact .refl _ _ | exact perf_leaves _ _ _ _) | split | (simp [hP]; done) | dsimp only)

@[simp] theorem readMap_leaves  (a : Nat) {P : State → Prop} (hP : Calm P) : (readMap a).Keeps P := by
  unfold readMap
  repeat' (first | with_reducible refine Act.Keeps.bind ?_ fun _ => ?_ | (with_reducible refine Act.Keeps.change_calm hP fun _ => ?_; first | exact Leaves.setMe (.of_pend ⟨rfl, rfl, rfl, rfl, rfl, rfl, rfl, rfl, rfl⟩ ⟨rfl, rfl, rfl, rfl⟩ rfl fun _ h => .inl h) | exact .of_same rfl rfl rfl | exact .refl _ _ | exact perf_leaves _ _ _ _) | split | (simp [hP]; done) | dsimp only)

@[simp] theorem checkMap_leaves  (ep : Nat) (m : MapEntry) (except : Option Nat) {P : State → Prop} (hP : Calm P) : (checkMap ep m except).Keeps P := by
  unfold checkMap
  repeat' (first | with_reducible refine Act.Keeps.bind ?_ fun _ => ?_ | (with_reducible refine Act.Keeps.change_calm hP fun _ => ?_; first | exact Leaves.setMe (.of_pend ⟨rfl, rfl, rfl, rfl, rfl, rfl, rfl, rfl, rfl⟩ ⟨rfl, rfl, rfl, rfl⟩ rfl fun _ h => .inl h) | exact .of_same rfl rfl rfl | exact .refl _ _ | exact perf_leaves _ _ _ _) | split | (simp [hP]; done) | dsimp only)

@[simp] theorem heldMap_leaves  (ep slot : Nat) {P : State → Prop} (hP : Calm P) : (heldMap ep slot).Keeps P := by
  unfold heldMap
  repeat' (first | with_reducible refine Act.Keeps.bind ?_ fun _ => ?_ | (with_reducible refine Act.Keeps.change_calm hP fun _ => ?_; first | exact Leaves.setMe (.of_pend ⟨rfl, rfl, rfl, rfl, rfl, rfl, rfl, rfl, rfl⟩ ⟨rfl, rfl, rfl, rfl⟩ rfl fun _ h => .inl h) | exact .of_same rfl rfl rfl | exact .refl _ _ | exact perf_leaves _ _ _ _) | split | (simp [hP]; done) | dsimp only)

theorem execMapr_leaves  (g : Guard) (h : BitVec 5) (s : State) : OutKeeps (Leaves (destsOf s.cur.slot (.mapr g h)) s) (execMapr g h s) := by
  unfold execMapr
  refine issue_leaves_of rfl ?_
  have hD := Owns.leaves s (.mapr g h)
  have hP := hD.calm
  repeat' (first | with_reducible refine Act.Keeps.bind ?_ fun _ => ?_ | (with_reducible refine Act.Keeps.change_calm hP fun _ => ?_; first | exact Leaves.setMe (.of_pend ⟨rfl, rfl, rfl, rfl, rfl, rfl, rfl, rfl, rfl⟩ ⟨rfl, rfl, rfl, rfl⟩ rfl fun _ h => .inl h) | exact .of_same rfl rfl rfl | exact .refl _ _ | exact perf_leaves _ _ _ _) | split | (simp [hP, hD]; done) | dsimp only)

theorem execMaprAll_leaves  (g : Guard) (epk : BitVec 3) (epn : BitVec 5) (s : State) : OutKeeps (Leaves (destsOf s.cur.slot (.maprAll g epk epn)) s) (execMaprAll g epk epn s) := by
  unfold execMaprAll
  refine issue_leaves_of rfl ?_
  have hD := Owns.leaves s (.maprAll g epk epn)
  have hP := hD.calm
  repeat' (first | with_reducible refine Act.Keeps.bind ?_ fun _ => ?_ | (with_reducible refine Act.Keeps.change_calm hP fun _ => ?_; first | exact Leaves.setMe (.of_pend ⟨rfl, rfl, rfl, rfl, rfl, rfl, rfl, rfl, rfl⟩ ⟨rfl, rfl, rfl, rfl⟩ rfl fun _ h => .inl h) | exact .of_same rfl rfl rfl | exact .refl _ _ | exact perf_leaves _ _ _ _) | split | (simp [hP, hD]; done) | dsimp only)

theorem execMapq_leaves  (g : Guard) (d h : BitVec 5) (s : State) : OutKeeps (Leaves (destsOf s.cur.slot (.mapq g d h)) s) (execMapq g d h s) := by
  unfold execMapq
  refine issue_leaves_of rfl ?_
  have hD := Owns.leaves s (.mapq g d h)
  have hP := hD.calm
  repeat' (first | with_reducible refine Act.Keeps.bind ?_ fun _ => ?_ | (with_reducible refine Act.Keeps.change_calm hP fun _ => ?_; first | exact Leaves.setMe (.of_pend ⟨rfl, rfl, rfl, rfl, rfl, rfl, rfl, rfl, rfl⟩ ⟨rfl, rfl, rfl, rfl⟩ rfl fun _ h => .inl h) | exact .of_same rfl rfl rfl | exact .refl _ _ | exact perf_leaves _ _ _ _) | split | (simp [hP, hD]; done) | dsimp only)

@[simp] theorem syncOperand_leaves  (a : Nat) {P : State → Prop} (hP : Calm P) : (syncOperand a).Keeps P := by
  unfold syncOperand
  repeat' (first | with_reducible refine Act.Keeps.bind ?_ fun _ => ?_ | (with_reducible refine Act.Keeps.change_calm hP fun _ => ?_; first | exact Leaves.setMe (.of_pend ⟨rfl, rfl, rfl, rfl, rfl, rfl, rfl, rfl, rfl⟩ ⟨rfl, rfl, rfl, rfl⟩ rfl fun _ h => .inl h) | exact .of_same rfl rfl rfl | exact .refl _ _ | exact perf_leaves _ _ _ _) | split | (simp [hP]; done) | dsimp only)

@[simp] theorem freeEntry_leaves   {P : State → Prop} (hP : Calm P) : (freeEntry ).Keeps P := by
  refine Act.Keeps.lam fun s hs => ?_
  unfold freeEntry
  repeat' (first | exact hs | split | (simp [hs]; done) | dsimp only)
  all_goals exact hP _ _ (by first | exact Leaves.setMe (.of_pend ⟨rfl, rfl, rfl, rfl, rfl, rfl, rfl, rfl, rfl⟩ ⟨rfl, rfl, rfl, rfl⟩ rfl fun _ h => .inl h) | exact .of_same rfl rfl rfl | exact .refl _ _ | exact perf_leaves _ _ _ _) hs

@[simp] theorem readTransfer_leaves  (a : Nat) {P : State → Prop} (hP : Calm P) : (readTransfer a).Keeps P := by
  unfold readTransfer
  repeat' (first | with_reducible refine Act.Keeps.bind ?_ fun _ => ?_ | (with_reducible refine Act.Keeps.change_calm hP fun _ => ?_; first | exact Leaves.setMe (.of_pend ⟨rfl, rfl, rfl, rfl, rfl, rfl, rfl, rfl, rfl⟩ ⟨rfl, rfl, rfl, rfl⟩ rfl fun _ h => .inl h) | exact .of_same rfl rfl rfl | exact .refl _ _ | exact perf_leaves _ _ _ _) | split | (simp [hP]; done) | dsimp only)

@[simp] theorem reportBelow_leaves  (ch lim : Nat) {P : State → Prop} (hP : Calm P) : (reportBelow ch lim).Keeps P := by
  refine Act.Keeps.lam fun s hs => ?_
  unfold reportBelow
  repeat' (first | exact hs | split | (simp [hs]; done) | dsimp only)
  all_goals exact hP _ _ (by first | exact Leaves.setMe (.of_pend ⟨rfl, rfl, rfl, rfl, rfl, rfl, rfl, rfl, rfl⟩ ⟨rfl, rfl, rfl, rfl⟩ rfl fun _ h => .inl h) | exact .of_same rfl rfl rfl | exact .refl _ _ | exact perf_leaves _ _ _ _) hs

theorem execCwait_leaves  (g : Guard) (ch : BitVec 3) (e : BitVec 5) (inc : Bool) (s : State) : OutKeeps (Leaves (destsOf s.cur.slot (.cwait g ch e inc)) s) (execCwait g ch e inc s) := by
  unfold execCwait
  refine issue_leaves_of rfl ?_
  have hD := Owns.leaves s (.cwait g ch e inc)
  have hP := hD.calm
  repeat' (first | with_reducible refine Act.Keeps.bind ?_ fun _ => ?_ | (with_reducible refine Act.Keeps.change_calm hP fun _ => ?_; first | exact Leaves.setMe (.of_pend ⟨rfl, rfl, rfl, rfl, rfl, rfl, rfl, rfl, rfl⟩ ⟨rfl, rfl, rfl, rfl⟩ rfl fun _ h => .inl h) | exact .of_same rfl rfl rfl | exact .refl _ _ | exact perf_leaves _ _ _ _) | split | (simp [hP, hD]; done) | dsimp only)

theorem execCstat_leaves  (g : Guard) (ch : BitVec 3) (d : BitVec 5) (s : State) : OutKeeps (Leaves (destsOf s.cur.slot (.cstat g ch d)) s) (execCstat g ch d s) := by
  unfold execCstat
  refine issue_leaves_of rfl ?_
  have hD := Owns.leaves s (.cstat g ch d)
  have hP := hD.calm
  repeat' (first | with_reducible refine Act.Keeps.bind ?_ fun _ => ?_ | (with_reducible refine Act.Keeps.change_calm hP fun _ => ?_; first | exact Leaves.setMe (.of_pend ⟨rfl, rfl, rfl, rfl, rfl, rfl, rfl, rfl, rfl⟩ ⟨rfl, rfl, rfl, rfl⟩ rfl fun _ h => .inl h) | exact .of_same rfl rfl rfl | exact .refl _ _ | exact perf_leaves _ _ _ _) | split | (simp [hP, hD]; done) | dsimp only)

@[simp] theorem checkBoxes_leaves  (c : JobCard) {P : State → Prop} (hP : Calm P) : (checkBoxes c).Keeps P := by
  unfold checkBoxes
  repeat' (first | with_reducible refine Act.Keeps.bind ?_ fun _ => ?_ | (with_reducible refine Act.Keeps.change_calm hP fun _ => ?_; first | exact Leaves.setMe (.of_pend ⟨rfl, rfl, rfl, rfl, rfl, rfl, rfl, rfl, rfl⟩ ⟨rfl, rfl, rfl, rfl⟩ rfl fun _ h => .inl h) | exact .of_same rfl rfl rfl | exact .refl _ _ | exact perf_leaves _ _ _ _) | split | (simp [hP]; done) | dsimp only)

theorem execFence_leaves  (g : Guard) (scope : ScopeCode) (mask : BitVec 16) (s : State) : OutKeeps (Leaves (destsOf s.cur.slot (.fence g scope mask)) s) (execFence g scope mask s) := by
  unfold execFence
  refine issue_leaves_of rfl ?_
  have hD := Owns.leaves s (.fence g scope mask)
  have hP := hD.calm
  repeat' (first | with_reducible refine Act.Keeps.bind ?_ fun _ => ?_ | (with_reducible refine Act.Keeps.change_calm hP fun _ => ?_; first | exact Leaves.setMe (.of_pend ⟨rfl, rfl, rfl, rfl, rfl, rfl, rfl, rfl, rfl⟩ ⟨rfl, rfl, rfl, rfl⟩ rfl fun _ h => .inl h) | exact .of_same rfl rfl rfl | exact .refl _ _ | exact perf_leaves _ _ _ _) | split | (simp [hP, hD]; done) | dsimp only)

@[simp] theorem Act.grid_leaves  (gs : Nat) {P : State → Prop} (hP : Calm P) : (Act.grid gs).Keeps P := by
  refine Act.Keeps.lam fun s hs => ?_
  unfold Act.grid
  repeat' (first | exact hs | split | (simp [hs]; done) | dsimp only)
  all_goals exact hP _ _ (by first | exact Leaves.setMe (.of_pend ⟨rfl, rfl, rfl, rfl, rfl, rfl, rfl, rfl, rfl⟩ ⟨rfl, rfl, rfl, rfl⟩ rfl fun _ h => .inl h) | exact .of_same rfl rfl rfl | exact .refl _ _ | exact perf_leaves _ _ _ _) hs

@[simp] theorem ghostStall_leaves  (gs v f step : Nat) {P : State → Prop} (hP : Calm P) : (ghostStall gs v f step).Keeps P := by
  refine Act.Keeps.lam fun s hs => ?_
  unfold ghostStall
  repeat' (first | exact hs | split | (simp [hs]; done) | dsimp only)
  all_goals exact hP _ _ (by first | exact Leaves.setMe (.of_pend ⟨rfl, rfl, rfl, rfl, rfl, rfl, rfl, rfl, rfl⟩ ⟨rfl, rfl, rfl, rfl⟩ rfl fun _ h => .inl h) | exact .of_same rfl rfl rfl | exact .refl _ _ | exact perf_leaves _ _ _ _) hs

@[simp] theorem ghostRead_leaves  (gs : Nat) (a b : Opnd) (n : Nat) (aligned : Bool) {P : State → Prop} (hP : Calm P) : (ghostRead gs a b n aligned).Keeps P := by
  unfold ghostRead
  repeat' (first | with_reducible refine Act.Keeps.bind ?_ fun _ => ?_ | (with_reducible refine Act.Keeps.change_calm hP fun _ => ?_; first | exact Leaves.setMe (.of_pend ⟨rfl, rfl, rfl, rfl, rfl, rfl, rfl, rfl, rfl⟩ ⟨rfl, rfl, rfl, rfl⟩ rfl fun _ h => .inl h) | exact .of_same rfl rfl rfl | exact .refl _ _ | exact perf_leaves _ _ _ _) | split | (simp [hP]; done) | dsimp only)

theorem execLdg_leaves  (g : Guard) (dst : Dest) (a b : Opnd) (gs : BitVec 2) (t : Fmt) (s : State) : OutKeeps (Leaves (destsOf s.cur.slot (.ldg g dst a b gs t)) s) (execLdg g dst a b gs t s) := by
  unfold execLdg
  refine issue_leaves_of rfl ?_
  have hD := Owns.leaves s (.ldg g dst a b gs t)
  have hP := hD.calm
  repeat' (first | with_reducible refine Act.Keeps.bind ?_ fun _ => ?_ | (with_reducible refine Act.Keeps.change_calm hP fun _ => ?_; first | exact Leaves.setMe (.of_pend ⟨rfl, rfl, rfl, rfl, rfl, rfl, rfl, rfl, rfl⟩ ⟨rfl, rfl, rfl, rfl⟩ rfl fun _ h => .inl h) | exact .of_same rfl rfl rfl | exact .refl _ _ | exact perf_leaves _ _ _ _) | split | (simp [hP, hD]; done) | dsimp only)

theorem execVldg_leaves  (g : Guard) (dst : Dest) (a b : Opnd) (gs : BitVec 2) (s : State) : OutKeeps (Leaves (destsOf s.cur.slot (.vldg g dst a b gs)) s) (execVldg g dst a b gs s) := by
  unfold execVldg
  refine issue_leaves_of rfl ?_
  have hD := Owns.leaves s (.vldg g dst a b gs)
  have hP := hD.calm
  repeat' (first | with_reducible refine Act.Keeps.bind ?_ fun _ => ?_ | (with_reducible refine Act.Keeps.change_calm hP fun _ => ?_; first | exact Leaves.setMe (.of_pend ⟨rfl, rfl, rfl, rfl, rfl, rfl, rfl, rfl, rfl⟩ ⟨rfl, rfl, rfl, rfl⟩ rfl fun _ h => .inl h) | exact .of_same rfl rfl rfl | exact .refl _ _ | exact perf_leaves _ _ _ _) | split | (simp [hP, hD]; done) | dsimp only)

theorem execGq_leaves  (g : Guard) (d : BitVec 5) (gs : BitVec 2) (which : BitVec 5) (s : State) : OutKeeps (Leaves (destsOf s.cur.slot (.gq g d gs which)) s) (execGq g d gs which s) := by
  unfold execGq
  refine issue_leaves_of rfl ?_
  have hD := Owns.leaves s (.gq g d gs which)
  have hP := hD.calm
  repeat' (first | with_reducible refine Act.Keeps.bind ?_ fun _ => ?_ | (with_reducible refine Act.Keeps.change_calm hP fun _ => ?_; first | exact Leaves.setMe (.of_pend ⟨rfl, rfl, rfl, rfl, rfl, rfl, rfl, rfl, rfl⟩ ⟨rfl, rfl, rfl, rfl⟩ rfl fun _ h => .inl h) | exact .of_same rfl rfl rfl | exact .refl _ _ | exact perf_leaves _ _ _ _) | split | (simp [hP, hD]; done) | dsimp only)

@[simp] theorem regionOperand_leaves  (e : BitVec 5) {P : State → Prop} (hP : Calm P) : (regionOperand e).Keeps P := by
  unfold regionOperand
  repeat' (first | with_reducible refine Act.Keeps.bind ?_ fun _ => ?_ | (with_reducible refine Act.Keeps.change_calm hP fun _ => ?_; first | exact Leaves.setMe (.of_pend ⟨rfl, rfl, rfl, rfl, rfl, rfl, rfl, rfl, rfl⟩ ⟨rfl, rfl, rfl, rfl⟩ rfl fun _ h => .inl h) | exact .of_same rfl rfl rfl | exact .refl _ _ | exact perf_leaves _ _ _ _) | split | (simp [hP]; done) | dsimp only)

@[simp] theorem askToken_leaves  (va : Nat) {P : State → Prop} (hP : Calm P) : (askToken va).Keeps P := by
  refine Act.Keeps.lam fun s hs => ?_
  unfold askToken
  repeat' (first | exact hs | split | (simp [hs]; done) | dsimp only)
  all_goals exact hP _ _ (by first | exact Leaves.setMe (.of_pend ⟨rfl, rfl, rfl, rfl, rfl, rfl, rfl, rfl, rfl⟩ ⟨rfl, rfl, rfl, rfl⟩ rfl fun _ h => .inl h) | exact .of_same rfl rfl rfl | exact .refl _ _ | exact perf_leaves _ _ _ _) hs

theorem execTacq_leaves  (g : Guard) (d e : BitVec 5) (s : State) : OutKeeps (Leaves (destsOf s.cur.slot (.tacq g d e)) s) (execTacq g d e s) := by
  unfold execTacq
  refine issue_leaves_of rfl ?_
  have hD := Owns.leaves s (.tacq g d e)
  have hP := hD.calm
  repeat' (first | with_reducible refine Act.Keeps.bind ?_ fun _ => ?_ | (with_reducible refine Act.Keeps.change_calm hP fun _ => ?_; first | exact Leaves.setMe (.of_pend ⟨rfl, rfl, rfl, rfl, rfl, rfl, rfl, rfl, rfl⟩ ⟨rfl, rfl, rfl, rfl⟩ rfl fun _ h => .inl h) | exact .of_same rfl rfl rfl | exact .refl _ _ | exact perf_leaves _ _ _ _) | split | (simp [hP, hD]; done) | dsimp only)

@[simp] theorem waitFlip_leaves  (scope id ph : Nat) {P : State → Prop} (hP : Calm P) : (waitFlip scope id ph).Keeps P := by
  unfold waitFlip
  repeat' (first | with_reducible refine Act.Keeps.bind ?_ fun _ => ?_ | (with_reducible refine Act.Keeps.change_calm hP fun _ => ?_; first | exact Leaves.setMe (.of_pend ⟨rfl, rfl, rfl, rfl, rfl, rfl, rfl, rfl, rfl⟩ ⟨rfl, rfl, rfl, rfl⟩ rfl fun _ h => .inl h) | exact .of_same rfl rfl rfl | exact .refl _ _ | exact perf_leaves _ _ _ _) | split | (simp [hP]; done) | dsimp only)

theorem execBarW_leaves  (g : Guard) (scope : ScopeCode) (id p : BitVec 4) (s : State) : OutKeeps (Leaves (destsOf s.cur.slot (.barW g scope id p)) s) (execBarW g scope id p s) := by
  unfold execBarW
  refine issue_leaves_of rfl ?_
  have hD := Owns.leaves s (.barW g scope id p)
  have hP := hD.calm
  repeat' (first | with_reducible refine Act.Keeps.bind ?_ fun _ => ?_ | (with_reducible refine Act.Keeps.change_calm hP fun _ => ?_; first | exact Leaves.setMe (.of_pend ⟨rfl, rfl, rfl, rfl, rfl, rfl, rfl, rfl, rfl⟩ ⟨rfl, rfl, rfl, rfl⟩ rfl fun _ h => .inl h) | exact .of_same rfl rfl rfl | exact .refl _ _ | exact perf_leaves _ _ _ _) | split | (simp [hP, hD]; done) | dsimp only)

@[simp] theorem spawnTarget_leaves  (y : Nat) {P : State → Prop} (hP : Calm P) : (spawnTarget y).Keeps P := by
  unfold spawnTarget
  repeat' (first | with_reducible refine Act.Keeps.bind ?_ fun _ => ?_ | (with_reducible refine Act.Keeps.change_calm hP fun _ => ?_; first | exact Leaves.setMe (.of_pend ⟨rfl, rfl, rfl, rfl, rfl, rfl, rfl, rfl, rfl⟩ ⟨rfl, rfl, rfl, rfl⟩ rfl fun _ h => .inl h) | exact .of_same rfl rfl rfl | exact .refl _ _ | exact perf_leaves _ _ _ _) | split | (simp [hP]; done) | dsimp only)

theorem execSjoin_leaves  (g : Guard) (t : BitVec 4) (s : State) : OutKeeps (Leaves (destsOf s.cur.slot (.sjoin g t)) s) (execSjoin g t s) := by
  unfold execSjoin
  refine issue_leaves_of rfl ?_
  have hD := Owns.leaves s (.sjoin g t)
  have hP := hD.calm
  repeat' (first | with_reducible refine Act.Keeps.bind ?_ fun _ => ?_ | (with_reducible refine Act.Keeps.change_calm hP fun _ => ?_; first | exact Leaves.setMe (.of_pend ⟨rfl, rfl, rfl, rfl, rfl, rfl, rfl, rfl, rfl⟩ ⟨rfl, rfl, rfl, rfl⟩ rfl fun _ h => .inl h) | exact .of_same rfl rfl rfl | exact .refl _ _ | exact perf_leaves _ _ _ _) | split | (simp [hP, hD]; done) | dsimp only)

theorem execEvpost_leaves  (g : Guard) (a b : BitVec 4) (s : State) : OutKeeps (Leaves (destsOf s.cur.slot (.evpost g a b)) s) (execEvpost g a b s) := by
  unfold execEvpost
  refine issue_leaves_of rfl ?_
  have hD := Owns.leaves s (.evpost g a b)
  have hP := hD.calm
  repeat' (first | with_reducible refine Act.Keeps.bind ?_ fun _ => ?_ | (with_reducible refine Act.Keeps.change_calm hP fun _ => ?_; first | exact Leaves.setMe (.of_pend ⟨rfl, rfl, rfl, rfl, rfl, rfl, rfl, rfl, rfl⟩ ⟨rfl, rfl, rfl, rfl⟩ rfl fun _ h => .inl h) | exact .of_same rfl rfl rfl | exact .refl _ _ | exact perf_leaves _ _ _ _) | split | (simp [hP, hD]; done) | dsimp only)

theorem execTrap_leaves  (g : Guard) (imm : BitVec 16) (s : State) : OutKeeps (Leaves (destsOf s.cur.slot (.trap g imm)) s) (execTrap g imm s) := by
  unfold execTrap
  refine issue_leaves_of rfl ?_
  have hD := Owns.leaves s (.trap g imm)
  have hP := hD.calm
  repeat' (first | with_reducible refine Act.Keeps.bind ?_ fun _ => ?_ | (with_reducible refine Act.Keeps.change_calm hP fun _ => ?_; first | exact Leaves.setMe (.of_pend ⟨rfl, rfl, rfl, rfl, rfl, rfl, rfl, rfl, rfl⟩ ⟨rfl, rfl, rfl, rfl⟩ rfl fun _ h => .inl h) | exact .of_same rfl rfl rfl | exact .refl _ _ | exact perf_leaves _ _ _ _) | split | (simp [hP, hD]; done) | dsimp only)

@[simp] theorem supervisorTarget_leaves  (t : BitVec 4) {P : State → Prop} (hP : Calm P) : (supervisorTarget t).Keeps P := by
  unfold supervisorTarget
  repeat' (first | with_reducible refine Act.Keeps.bind ?_ fun _ => ?_ | (with_reducible refine Act.Keeps.change_calm hP fun _ => ?_; first | exact Leaves.setMe (.of_pend ⟨rfl, rfl, rfl, rfl, rfl, rfl, rfl, rfl, rfl⟩ ⟨rfl, rfl, rfl, rfl⟩ rfl fun _ h => .inl h) | exact .of_same rfl rfl rfl | exact .refl _ _ | exact perf_leaves _ _ _ _) | split | (simp [hP]; done) | dsimp only)


theorem openTransfer_at {D : List Reg} {s : State} {l : Nat} (h : s.cur.loc = l) (k ch : Nat) (x : Slot) (i : Nat) (e : Ifr) :
    Leaves D s (openTransfer s l k ch x i e) :=
  .setAt h (.of_pend ⟨rfl, rfl, rfl, rfl, rfl, rfl, rfl, rfl, rfl⟩ ⟨rfl, rfl, rfl, rfl⟩ rfl fun _ h => .inl h)

theorem emit_leaves {D : List Reg} (s : State) (p : Packet) : Leaves D s (emit s p) := .of_same rfl rfl rfl

theorem emitted_leaves {D : List Reg} {s : State} {q : Seq} (h : SameRegs D s.me q) (p : Packet) : Leaves D s (emit (s.setMe q) p) :=
  (Leaves.setMe h).trans (emit_leaves _ _)

theorem execSwait_leaves (g : Guard) (a y : BitVec 5) (s : State) : OutKeeps (Leaves (destsOf s.cur.slot (.swait g a y)) s) (execSwait g a y s) := by
  have hD := Owns.leaves s (.swait g a y)
  have hP := hD.calm
  unfold execSwait
  refine issue_leaves_of rfl ?_
  repeat' (first | with_reducible refine Act.Keeps.bind ?_ fun _ => ?_ | split | (simp [hP]; done) | with_reducible exact writeReg_leaves hD _ _ _ (fun v _ => by simp [destsOf]) | dsimp only)

theorem execCput_leaves (g : Guard) (ch : BitVec 3) (d e x : BitVec 5) (s : State) :
    OutKeeps (Leaves (destsOf s.cur.slot (.cput g ch d e x)) s) (execCput g ch d e x s) := by
  have hD := Owns.leaves s (.cput g ch d e x)
  have hP := hD.calm
  unfold execCput
  refine issue_leaves_of rfl ?_
  repeat' (first | with_reducible refine Act.Keeps.bind ?_ fun _ => ?_ | (with_reducible refine Act.Keeps.change_calm hP fun _ => ?_; exact (openTransfer_at rfl _ _ _ _ _).trans (perf_leaves _ _ _ _)) | split | (simp [hP, hD]; done) | dsimp only)

theorem execCget_leaves (g : Guard) (ch : BitVec 3) (d e : BitVec 5) (s : State) :
    OutKeeps (Leaves (destsOf s.cur.slot (.cget g ch d e)) s) (execCget g ch d e s) := by
  have hD := Owns.leaves s (.cget g ch d e)
  have hP := hD.calm
  unfold execCget
  refine issue_leaves_of rfl ?_
  repeat' (first | with_reducible refine Act.Keeps.bind ?_ fun _ => ?_ | (with_reducible refine Act.Keeps.change_calm hP fun _ => ?_; exact (openTransfer_at rfl _ _ _ _ _).trans ((emit_leaves _ _).trans (perf_leaves _ _ _ _))) | split | (simp [hP, hD]; done) | dsimp only)

theorem execCcard_leaves (g : Guard) (ch : BitVec 3) (d e : BitVec 5) (s : State) :
    OutKeeps (Leaves (destsOf s.cur.slot (.ccard g ch d e)) s) (execCcard g ch d e s) := by
  have hD := Owns.leaves s (.ccard g ch d e)
  have hP := hD.calm
  unfold execCcard
  refine issue_leaves_of rfl ?_
  repeat' (first | with_reducible refine Act.Keeps.bind ?_ fun _ => ?_ | (with_reducible refine Act.Keeps.change_calm hP fun _ => ?_; exact (openTransfer_at rfl _ _ _ _ _).trans (setDie_leaves _ _ _)) | split | (simp [hP, hD]; done) | dsimp only)

theorem execCfree_leaves (g : Guard) (q : BitVec 5) (s : State) : OutKeeps (Leaves (destsOf s.cur.slot (.cfree g q)) s) (execCfree g q s) := by
  have hP := (Owns.leaves s (.cfree g q)).calm
  unfold execCfree
  refine issue_leaves_of rfl (.bind (Act.anyRing_leaves _ hP) fun r => ?_)
  dsimp only
  have hs : ∀ (n : Nat) (r : Ring) (u : State), Leaves [] u (setRing n r u) := fun n r u =>
    .setMe (.of_pend ⟨rfl, rfl, rfl, rfl, rfl, rfl, rfl, rfl, rfl⟩ ⟨rfl, rfl, rfl, rfl⟩ rfl fun _ h => .inl h)
  repeat' split
  all_goals first
    | exact fun u hu => hP u _ (hs _ _ u) hu
    | exact .change_calm hP fun _ => .setMe (.of_pend ⟨rfl, rfl, rfl, rfl, rfl, rfl, rfl, rfl, rfl⟩ ⟨rfl, rfl, rfl, rfl⟩ rfl fun _ h => .inl h)

theorem countArrival_leaves {D : List Reg} (s : State) (vd key n full : Nat) : Leaves D s (countArrival s vd key n full) := by
  unfold countArrival
  dsimp only
  repeat' (first | split | exact .refl _ _ | exact .of_same rfl rfl rfl)

theorem copyArrival_leaves {D : List Reg} (s : State) (vd key n full : Nat) : Leaves D s (copyArrival s vd key n full) := by
  unfold copyArrival
  dsimp only
  split
  · exact .refl _ _
  · exact .of_same rfl rfl rfl

theorem copyArrival_me (s : State) (vd key n full : Nat) : (copyArrival s vd key n full).me = s.me := by
  unfold copyArrival
  dsimp only
  split <;> rfl

@[simp] theorem arriveAt_leaves (scope id n : Nat) {P : State → Prop} (hP : Calm P) : (arriveAt scope id n).Keeps P := by
  unfold arriveAt
  repeat' (first | with_reducible refine Act.Keeps.bind ?_ fun _ => ?_ | (with_reducible refine Act.Keeps.change_calm hP fun _ => ?_; first | exact countArrival_leaves _ _ _ _ _ | (refine (copyArrival_leaves _ _ _ _ _).trans (emitted_leaves ?_ _); rw [copyArrival_me]; exact .of_pend ⟨rfl, rfl, rfl, rfl, rfl, rfl, rfl, rfl, rfl⟩ ⟨rfl, rfl, rfl, rfl⟩ rfl fun _ h => .inl h)) | split | (simp [hP]; done) | dsimp only)

theorem execBarA_leaves (g : Guard) (scope : ScopeCode) (id c p : BitVec 4) (s : State) :
    OutKeeps (Leaves (destsOf s.cur.slot (.barA g scope id c p)) s) (execBarA g scope id c p s) := by
  have hD := Owns.leaves s (.barA g scope id c p)
  have hP := hD.calm
  unfold execBarA
  refine issue_leaves_of rfl ?_
  exact .bind (readNat_keeps _ _) fun _ => .bind (.view _) fun _ => .bind (arriveAt_leaves _ _ _ hP) fun _ => writeReg_leaves hD _ _ _ (fun v _ => by simp [destsOf])

theorem execBar_leaves (g : Guard) (scope : ScopeCode) (id c p : BitVec 4) (s : State) :
    OutKeeps (Leaves (destsOf s.cur.slot (.bar g scope id c p)) s) (execBar g scope id c p s) := by
  have hD := Owns.leaves s (.bar g scope id c p)
  have hP := hD.calm
  have hs : ∀ (u : State) (b : Option Nat), Leaves [] u (u.setMe { u.me with barAt := b }) := fun u b =>
    .setMe (.of_pend ⟨rfl, rfl, rfl, rfl, rfl, rfl, rfl, rfl, rfl⟩ ⟨rfl, rfl, rfl, rfl⟩ rfl fun _ h => .inl h)
  unfold execBar
  refine issue_leaves_of rfl (.bind (.view _) fun sc => ?_)
  split
  · exact .bind (readNat_keeps _ _) fun _ => .bind (arriveAt_leaves _ _ _ hP) fun _ => fun u hu => hP u _ (hs u _) hu
  · exact .bind (waitFlip_leaves _ _ _ hP) fun _ => .bind (.change_calm hP fun u => hs u _) fun _ => writeReg_leaves hD _ _ _ (fun v _ => by simp [destsOf])

theorem execSleep_leaves (g : Guard) (n : BitVec 4) (s : State) :
    OutKeeps (Leaves (destsOf s.cur.slot (.sleep g n)) s) (execSleep g n s) := by
  have hP := (Owns.leaves s (.sleep g n)).calm
  have hs : ∀ (u : State) (b : Option Nat), Leaves [] u (u.setMe { u.me with sleepTo := b }) := fun u b =>
    .setMe (.of_pend ⟨rfl, rfl, rfl, rfl, rfl, rfl, rfl, rfl, rfl⟩ ⟨rfl, rfl, rfl, rfl⟩ rfl fun _ h => .inl h)
  unfold execSleep
  refine issue_leaves_of rfl ?_
  split
  · exact .bind (readNat_keeps _ _) fun x => .ite (.ret _) fun u hu => hP u _ (hs u _) hu
  · exact .bind (.await _) fun _ => .change_calm hP fun u => hs u _

theorem execYield_leaves (g : Guard) (s : State) : OutKeeps (Leaves (destsOf s.cur.slot (.yield g)) s) (execYield g s) := by
  have hP := (Owns.leaves s (.yield g)).calm
  unfold execYield
  refine issue_leaves_of rfl (.change_calm hP fun u => ?_)
  dsimp only
  split
  · exact .refl _ _
  · exact .setCore ⟨rfl, rfl, rfl, rfl, rfl, rfl, rfl, rfl, rfl⟩

theorem execGdeclR_leaves (g : Guard) (gs : BitVec 2) (s : State) :
    OutKeeps (Leaves (destsOf s.cur.slot (.gdeclR g gs)) s) (execGdeclR g gs s) := by
  have hP := (Owns.leaves s (.gdeclR g gs)).calm
  unfold execGdeclR
  refine issue_leaves_of rfl (.bind (Act.grid_leaves _ hP) fun x => .bind (.await _) fun _ => .change_calm hP fun u => ?_)
  dsimp only
  refine ((dropGhosts_leaves _ _ _).trans (noteStep_leaves _ _ _)).trans (.setMe ?_)
  exact .of_pend ⟨rfl, rfl, rfl, rfl, rfl, rfl, rfl, rfl, rfl⟩ ⟨rfl, rfl, rfl, rfl⟩ rfl fun _ h => .inl h

theorem execMpar_leaves (g : Guard) (md : BitVec 3) (imm : BitVec 32) (hi : Bool) (s : State) :
    OutKeeps (Leaves (destsOf s.cur.slot (.mpar g md imm hi)) s) (execMpar g md imm hi s) := by
  have hD := Owns.leaves s (.mpar g md imm hi)
  unfold execMpar actMpar
  refine issue_leaves_of rfl ?_
  repeat' (first | with_reducible refine Act.Keeps.bind ?_ fun _ => ?_ | (simp; done) | exact writeReg_leaves hD _ _ _ (fun v _ => by simp [destsOf]) | split | dsimp only)

end Sys2Proof.Machine
end

