-- ==== Sys2Proof/Machine/Ilend.lean ====
section
/-! DEFINITION. What `ilas` makes of Ilend source: lines, operand names, expressions, bundles, directives and code objects
(03_encoding.md R54 to R59, R389, 02_machine.md R38, R392). No step of the machine uses it: it says which bytes a source stands for.
The text of a mnemonic with its suffixes is not read here: an operation of a bundle is given as its `Instr`. -/

namespace Sys2Proof.Machine

/-- Source text. -/
abbrev Text := List Char

/-! ### Lines (R54) -/

/-- Whether a character is a blank. -/
def isBlank (c : Char) : Bool := c == ' ' || c == '\t'
/-- Text without the blanks at its ends. -/
def trimText (t : Text) : Text := ((t.dropWhile isBlank).reverse.dropWhile isBlank).reverse
/-- A line without its comment. -/
def cutComment (t : Text) : Text := t.takeWhile (· != ';')
/-- Whether a character may start an identifier. -/
def startsName (c : Char) : Bool := c.isAlpha || c == '_'
/-- Whether a character may stand in an identifier. -/
def inName (c : Char) : Bool := c.isAlpha || c.isDigit || c == '_' || c == '.'
/-- The identifier at the start of a text and what follows it. -/
def takeName (t : Text) : Text × Text :=
  match t with
  | c :: _ => if startsName c then (t.takeWhile inName, t.dropWhile inName) else ([], t)
  | [] => ([], [])

/-- Join lines that end in a bar with the line after them; each is given without its comment. -/
def joinLines : List Text → List Text
  | [] => []
  | t :: ts =>
    let u := trimText (cutComment t)
    if u.getLast? = some '|' then
      match joinLines ts with
      | [] => [u]
      | v :: vs => (u ++ [' '] ++ v) :: vs
    else u :: joinLines ts

/-- The operations of a bundle line: texts between bars that have a blank on each side. -/
def splitOps (seen : Text) : Text → List Text
  | [] => [trimText seen.reverse]
  | ' ' :: '|' :: ' ' :: r => trimText seen.reverse :: splitOps [] r
  | c :: r => splitOps (c :: seen) r

/-- What a source line is. -/
inductive SourceLine where
  | empty
  | directive (name : String) (rest : Text)
  | label (name : String) (rest : Text)
  | bundle (ops : List Text)
  deriving DecidableEq, Repr

/-- The kind of a line; a slot name before a colon is the mark of an operation or operand, not a label. -/
def lineOf (t : Text) : SourceLine :=
  match trimText (cutComment t) with
  | [] => .empty
  | '.' :: r => let (n, rest) := takeName r; .directive (String.ofList n) (trimText rest)
  | c :: u =>
    match takeName (c :: u) with
    | (n@(_ :: _), ':' :: rest) =>
      if n = ['V', '0'] ∨ n = ['V', '1'] then .bundle (splitOps [] (c :: u)) else .label (String.ofList n) (trimText rest)
    | _ => .bundle (splitOps [] (c :: u))

/-! ### Literals (R58) -/

/-- The value of a digit in a base. -/
def digitIn (base : Nat) (c : Char) : Option Nat :=
  let n := if c.isDigit then c.toNat - 48 else if 'a' ≤ c ∧ c ≤ 'f' then c.toNat - 87 else if 'A' ≤ c ∧ c ≤ 'F' then c.toNat - 55 else 99
  if n < base then some n else none

/-- The digits at the start of a text, underscores passed over: their value, how many, and what follows. -/
def takeDigits (base : Nat) (v n : Nat) : Text → Nat × Nat × Text
  | [] => (v, n, [])
  | c :: r =>
    if c = '_' then takeDigits base v n r
    else match digitIn base c with
      | some d => takeDigits base (base * v + d) (n + 1) r
      | none => (v, n, c :: r)

/-- A numeric literal at the start of a text. -/
def takeNumber (t : Text) : Option (Nat × Text) :=
  let (base, u) : Nat × Text := match t with
    | '0' :: 'x' :: r => (16, r)
    | '0' :: 'b' :: r => (2, r)
    | r => (10, r)
  match takeDigits base 0 0 u with
  | (_, 0, _) => none
  | (v, _, r) => some (v, r)

/-- p / q as an exact value of 100 bits or more whose lowest bit tells a remainder. It rounds to every format as p / q does. -/
def ratio (neg : Bool) (p q : Nat) : Num :=
  let k := q.log2 + 100
  let n := p * 2 ^ k
  .fin neg (2 * (n / q) + bit (decide (n % q ≠ 0))) (-(k + 1 : Int))

/-- A decimal literal with an optional sign, fraction and exponent. -/
def decimalOf (t : Text) : Option Num :=
  let (neg, u) : Bool × Text := match t with | '-' :: r => (true, r) | r => (false, r)
  let (v, n, r) := takeDigits 10 0 0 u
  let (v, m, r) : Nat × Nat × Text := match r with
    | '.' :: f => takeDigits 10 v 0 f
    | _ => (v, 0, r)
  let (down, x, r) : Bool × Option Nat × Text := match r with
    | e :: s => if e = 'e' ∨ e = 'E' then
        let (down, s) : Bool × Text := match s with | '-' :: y => (true, y) | '+' :: y => (false, y) | y => (false, y)
        match takeDigits 10 0 0 s with
        | (_, 0, z) => (down, none, z)
        | (x, _, z) => (down, some x, z)
      else (false, some 0, e :: s)
    | [] => (false, some 0, [])
  match x with
  | none => none
  | some x =>
    if n + m = 0 ∨ !r.isEmpty then none
    else some (if down then ratio neg v (10 ^ (m + x)) else ratio neg (v * 10 ^ x) (10 ^ m))

/-- The format of a conversion function. -/
def conversion (n : String) : Option Fmt :=
  [("f32", Fmt.f32), ("f16", .f16), ("bf16", .bf16), ("e4m3", .e4m3), ("e5m2", .e5m2), ("e2m1", .e2m1), ("t8", .t8),
    ("t6", .t6)].lookup n

/-- What a conversion function returns: the literal rounded to nearest even, SATE4 clear (R115). -/
def convertLiteral (f : Fmt) (t : Text) : Option Nat := (decimalOf (trimText t)).map (fun x => (roundTo f 0 0 false x).1)

/-! ### Expressions (R58) -/

/-- A token of an expression. -/
inductive Tok where
  | num (n : Nat)
  | name (n : String)
  | sign (n : String)
  deriving DecidableEq, Repr

/-- The tokens of an expression, put before those that follow; none where a character starts no token. -/
def tokens : Nat → Text → Option (List Tok)
  | 0, _ => none
  | _ + 1, [] => some []
  | f + 1, c :: r =>
    if isBlank c then tokens f r
    else if c.isDigit then
      match takeNumber (c :: r) with
      | some (n, u) => (tokens f u).map (.num n :: ·)
      | none => none
    else if startsName c then
      let (n, u) := takeName (c :: r)
      match conversion (String.ofList n), u with
      | some t, '(' :: v =>
        let lit := v.takeWhile (· != ')')
        match convertLiteral t lit, v.drop lit.length with
        | some x, ')' :: w => (tokens f w).map (.num x :: ·)
        | _, _ => none
      | _, _ => (tokens f u).map (.name (String.ofList n) :: ·)
    else match c, r with
      | '<', '<' :: u => (tokens f u).map (.sign "<<" :: ·)
      | '>', '>' :: u => (tokens f u).map (.sign ">>" :: ·)
      | _, _ => if "-~*/%+&^|.".toList.contains c then (tokens f r).map (.sign (String.ofList [c]) :: ·) else none

/-- An expression. -/
inductive Expr where
  | num (n : Nat)
  | name (n : String)
  | here
  | neg (e : Expr)
  | inv (e : Expr)
  | bin (op : String) (a b : Expr)
  deriving DecidableEq, Repr

/-- The binary operators of a level: 0 the lowest, 5 the highest. -/
def levelOps (l : Nat) : List String := ([["|"], ["^"], ["&"], ["<<", ">>"], ["+", "-"], ["*", "/", "%"]]).getD l []

/-- Read an expression of a level: first an operand of the level above, then operators of the level from left to right. -/
def parseExpr : Nat → Nat → Option Expr → List Tok → Option (Expr × List Tok)
  | 0, _, _, _ => none
  | f + 1, l, none, ts =>
    if l < 6 then
      match parseExpr f (l + 1) none ts with
      | some (e, r) => parseExpr f l (some e) r
      | none => none
    else match ts with
      | .num n :: r => some (.num n, r)
      | .name n :: r => some (.name n, r)
      | .sign s :: r =>
        if s = "." then some (.here, r)
        else if s = "-" then (parseExpr f l none r).map (fun x => (.neg x.1, x.2))
        else if s = "~" then (parseExpr f l none r).map (fun x => (.inv x.1, x.2))
        else none
      | [] => none
  | f + 1, l, some a, ts =>
    match ts with
    | .sign s :: r =>
      if (levelOps l).contains s then
        match parseExpr f (l + 1) none r with
        | some (b, u) => parseExpr f l (some (.bin s a b)) u
        | none => none
      else some (a, ts)
    | _ => some (a, ts)

/-- The expression that a whole text is. -/
def exprOf (t : Text) : Option Expr :=
  match tokens (t.length + 1) t with
  | none => none
  | some ts => match parseExpr (16 * (ts.length + 1)) 0 none ts with
    | some (e, []) => some e
    | _ => none

/-- A binary operator on 64-bit two's complement; a division by zero has no value. (DESIGN CHOICE, assumption 51) -/
def applyOp (op : String) (a b : BitVec 64) : Option (BitVec 64) :=
  if op = "*" then some (a * b)
  else if op = "/" then (if b = 0 then none else some (a.sdiv b))
  else if op = "%" then (if b = 0 then none else some (a.srem b))
  else if op = "+" then some (a + b)
  else if op = "-" then some (a - b)
  else if op = "<<" then some (if b.toNat < 64 then a <<< b.toNat else 0)
  else if op = ">>" then some (a.sshiftRight (min b.toNat 63))
  else if op = "&" then some (a &&& b)
  else if op = "^" then some (a ^^^ b)
  else if op = "|" then some (a ||| b)
  else none

/-- The value of an expression with the symbols and labels known, and the address of the current bundle or datum. -/
def evalExpr (names : List (String × BitVec 64)) (at_ : Nat) : Expr → Option (BitVec 64)
  | .num n => if n < 2 ^ 64 then some (BitVec.ofNat 64 n) else none
  | .name n => names.lookup n
  | .here => some (BitVec.ofNat 64 at_)
  | .neg e => (evalExpr names at_ e).map (fun x => -x)
  | .inv e => (evalExpr names at_ e).map (fun x => ~~~x)
  | .bin op a b =>
    match evalExpr names at_ a, evalExpr names at_ b with
    | some x, some y => applyOp op x y
    | _, _ => none

/-- The bits of a value in a field of n bits, signed or not; none for one that does not fit. -/
def fieldBits (n : Nat) (signed : Bool) (v : BitVec 64) : Option Nat :=
  if signed then
    (if -(2 ^ (n - 1) : Int) ≤ v.toInt ∧ v.toInt < 2 ^ (n - 1) then some (wrap n v.toInt) else none)
  else if v.toNat < 2 ^ n then some v.toNat else none

/-- The bits of a datum of n bits: a value that fits as a signed or as an unsigned number. -/
def datumBits (n : Nat) (v : BitVec 64) : Option Nat :=
  match fieldBits n false v with
  | some x => some x
  | none => fieldBits n true v

/-! ### Operands (R57) -/

/-- What an operand's text names. -/
inductive Operand where
  | reg (f : File) (i : Nat)
  | acc (i : Nat)
  | ring (q : Nat)
  | peek (q : Nat)
  | drain (n : Nat)
  deriving DecidableEq, Repr

/-- Letters and number of a register name; nothing follows the number. -/
def nameAndNumber (t : Text) : Option (String × Nat) :=
  let n := t.takeWhile (·.isAlpha)
  match takeDigits 10 0 0 (t.drop n.length) with
  | (_, 0, _) => none
  | (v, _, []) => some (String.ofList n, v)
  | _ => none

/-- The file and register count of a register letter; v and k names without a mark name the file of the vector slot that the operation
runs in, and that of V0 in every other slot. -/
def letterFile (x : Slot) (n : String) : Option (File × Nat) :=
  let second := decide (x = .V1)
  [("s", (File.s, 64)), ("v", (if second then .v1 else .v0, Config.vFile)), ("k", (if second then .k1 else .k0, 16)),
    ("m", (.m, 8)), ("b", (.b, 32)), ("w", (.w, 32)), ("e", (.e, 32)), ("y", (.y, 16)), ("t", (.t, Config.tFile)),
    ("p", (.p, 15)), ("c", (.c, 64))].lookup n

/-- What the text of an operand of a slot's operation names. -/
def operandOf (x : Slot) (t : Text) : Option Operand :=
  match t with
  | 'V' :: d :: ':' :: r =>
    if d = '0' ∨ d = '1' then
      match nameAndNumber r with
      | some (n, i) => if n = "v" ∨ n = "k" then
          match letterFile (if d = '1' then .V1 else .V0) n with
          | some (f, m) => if i < m then some (.reg f i) else none
          | none => none
        else none
      | none => none
    else none
  | 'q' :: r =>
    match takeDigits 10 0 0 r with
    | (_, 0, _) => none
    | (q, _, []) => if q < 32 then some (.ring q) else none
    | (q, _, u) => if u = ".peek".toList ∧ q < 32 then some (.peek q) else none
  | _ =>
    match nameAndNumber t with
    | some (n, i) =>
      if n = "dq" then (if i < 4 then some (.drain i) else none)
      else if n = "acc" then (if i < 32 then some (.acc i) else none)
      else match letterFile x n with
        | some (f, m) => if i < m then some (.reg f i) else none
        | none => none
    | none => none

/-- The operand code of a source or own destination (Table 3.5); none for a register that the slot's codes do not name. -/
def opndFor (x : Slot) : Operand → Option Opnd
  | .reg f i => if f = ownFile x then some (.own (BitVec.ofNat 10 i)) else if f = .c then some (.com (BitVec.ofNat 6 i)) else none
  | .ring q => some (.pop (BitVec.ofNat 5 q))
  | .peek q => some (.peek (BitVec.ofNat 5 q))
  | .drain n => some (.dq (BitVec.ofNat 2 n))
  | .acc _ => none

/-- The destination of a foreign-destination form: `ilas` sets FILE from the name (R48, R57). -/
def destFor (x : Slot) (o : Operand) : Option Dest :=
  match opndFor x o, o with
  | some d, _ => some (.here d)
  | none, .reg f i => some (.file f (BitVec.ofNat 10 i))
  | none, _ => none

/-- The guard that the text before a mnemonic names: none means always. -/
def guardOfText (t : Text) : Option Guard :=
  match t with
  | [] => some ⟨15, false⟩
  | _ =>
    if t = "(never)".toList then some ⟨15, true⟩
    else match t with
      | '(' :: '!' :: 'p' :: r => number r true
      | '(' :: 'p' :: r => number r false
      | _ => none
where
  /-- The predicate number and the closing bracket. -/
  number (r : Text) (inv : Bool) : Option Guard :=
    match takeDigits 10 0 0 r with
    | (_, 0, _) => none
    | (n, _, u) => if u = [')'] ∧ n < 15 then some ⟨BitVec.ofNat 4 n, inv⟩ else none

/-! ### Bundles (R55, R56) -/

/-- A bundle line: its header modifiers (Table 3.17) and its operations, each with whether it carries the mark `V1:`. -/
structure SourceBundle where
  safe  : Bool
  sync  : List Slot
  scope : Option Nat
  ports : Option (List Slot)
  ops   : List (Bool × Instr)
  deriving DecidableEq, Repr

/-- Whether an operation belongs to a slot: its word there decodes to it. -/
def belongs (i : Instr) (x : Slot) : Bool :=
  match encode i with
  | some w => decide (w < 2 ^ x.width) && decodeWord x w == some i
  | none => false

/-- The slot of an operation: V0 for one of both vector slots unless it carries the mark `V1:`. -/
def slotFor (marked : Bool) (i : Instr) : Option Slot :=
  if marked then (if belongs i .V1 then some .V1 else none) else Slot.all.find? (belongs i)

/-- The operations with their slots; none where one has no slot or two have the same. -/
def placeOps : List (Bool × Instr) → Option (List (Slot × Instr))
  | [] => some []
  | (v1, i) :: r =>
    match slotFor v1 i, placeOps r with
    | some x, some l => if l.any (fun e => e.1 == x) then none else some ((x, i) :: l)
    | _, _ => none

/-- The ports of a bundle: those listed, or one for each common-file source in slot order; none where there are more than four, where a
slot without a port code is listed, or where a listed bundle's reads lack a port. -/
def portsFor (listed : Option (List Slot)) (ops : List (Slot × Instr)) : Option (List Slot) :=
  let needed := Slot.all.flatMap (fun x => (ops.filter (fun e => e.1 == x)).flatMap (fun e => List.replicate (commonReads e.2) x))
  match listed with
  | none => if needed.length ≤ 4 then some needed else none
  | some l => if l.length ≤ 4 ∧ l.all (fun x => x.port != 0) ∧ needed.all (fun x => decide (needed.count x ≤ l.count x)) then some l else none

/-- The header of a bundle (Table 3.2). -/
def headerBits (b : SourceBundle) (ops : List (Slot × Instr)) (ports : List Slot) : Nat :=
  packBits (Slot.all.map (fun x => (x.num, 1, bit (ops.any (fun e => e.1 == x)))) ++
    Slot.all.map (fun x => (9 + x.num, 1, bit (b.sync.contains x))) ++ [(18, 1, bit b.safe), (19, 3, b.scope.getD 0)] ++
    (List.range ports.length).map (fun j => (22 + 3 * j, 3, (ports.getD j .C).port)))

/-- The bundle that `ilas` writes for a line; none where it rejects it. -/
def assembleBundle (b : SourceBundle) : Option Bundle :=
  match placeOps b.ops with
  | none => none
  | some ops =>
    match portsFor b.ports ops with
    | none => none
    | some ports =>
      if b.scope.any (fun n => n == 0 || decide (6 < n)) then none
      else some (BitVec.ofNat 512 (headerBits b ops ports +
        (ops.map (fun e => (encode e.2).getD 0 * 2 ^ e.1.start)).sum))

/-! ### Data directives (R59, R389) -/

/-- A key of a descriptor directive: its field's lowest bit and width, and what an omitted key places. -/
structure DescKey where
  name  : String
  lo    : Nat
  width : Nat
  free  : Nat
  deriving DecidableEq, Repr

/-- The keys of a directive's four dimensions, each at its own bit. -/
def dimKeys (name : String) (width free : Nat) (los : List Nat) : List DescKey :=
  (["0", "1", "2", "3"].zip los).map (fun e => ⟨name ++ e.1, e.2, width, free⟩)

/-- The keys of `.stream` (Table 2.5). -/
def streamKeys : List DescKey :=
  [⟨"base", 0, 52, 0⟩, ⟨"dir", 256, 1, 0⟩, ⟨"end", 264, 2, 0⟩, ⟨"dq", 266, 2, 0⟩, ⟨"ndim", 268, 2, 0⟩, ⟨"fmt", 270, 5, 0⟩,
    ⟨"blklen", 275, 2, 0⟩, ⟨"blkdim", 277, 2, 0⟩, ⟨"comp", 279, 3, 0⟩, ⟨"xratio", 282, 4, 0⟩, ⟨"chk", 286, 2, 0⟩,
    ⟨"sbase", 320, 52, 0⟩, ⟨"sstride", 384, 32, 0⟩] ++
  dimKeys "cnt" 16 1 [64, 80, 96, 112] ++ dimKeys "stride" 32 0 [128, 160, 192, 224]

/-- The keys of `.tensor` (Table 14.1). -/
def tensorKeys : List DescKey :=
  [⟨"tname", 0, 24, 0⟩, ⟨"fmt", 24, 5, 0⟩, ⟨"ndim", 29, 2, 0⟩, ⟨"dest", 32, 15, 0⟩, ⟨"epk", 47, 3, 0⟩, ⟨"epn", 50, 5, 0⟩,
    ⟨"swidx", 320, 16, 0⟩, ⟨"swcore", 336, 5, 0⟩, ⟨"swv", 341, 1, 0⟩, ⟨"rank", 352, 16, 0⟩] ++
  dimKeys "orig" 24 0 [64, 88, 128, 152] ++ dimKeys "ext" 24 1 [192, 216, 256, 280] ++ dimKeys "sstr" 32 0 [384, 416, 448, 480]

/-- The keys of `.map` (Table 14.3). -/
def mapKeys : List DescKey :=
  [⟨"tname", 0, 24, 0⟩, ⟨"pri", 24, 4, 0⟩, ⟨"op", 28, 2, 0⟩, ⟨"fan", 30, 1, 0⟩, ⟨"keep", 31, 1, 0⟩, ⟨"fmt", 32, 5, 0⟩,
    ⟨"ndim", 37, 2, 0⟩, ⟨"layout", 39, 2, 0⟩, ⟨"rmode", 41, 2, 0⟩, ⟨"sate4", 43, 1, 0⟩, ⟨"gen", 48, 16, 0⟩, ⟨"blk0", 112, 8, 0⟩,
    ⟨"blk1", 120, 8, 0⟩, ⟨"swidx", 176, 16, 0⟩, ⟨"swcore", 240, 5, 0⟩, ⟨"swv", 245, 1, 0⟩, ⟨"base", 320, 52, 0⟩] ++
  dimKeys "lo" 24 0 [64, 88, 128, 152] ++ dimKeys "hi" 24 0 [192, 216, 256, 280] ++ dimKeys "str" 32 0 [384, 416, 448, 480]

/-- The keys of `.grid` (Table 17.1). -/
def gridKeys : List DescKey :=
  [⟨"tname", 0, 24, 0⟩, ⟨"fmt", 24, 5, 0⟩, ⟨"ndim", 29, 2, 0⟩, ⟨"d", 31, 3, 0⟩, ⟨"gpri", 34, 4, 0⟩, ⟨"hch", 38, 3, 0⟩,
    ⟨"ibase", 64, 52, 0⟩, ⟨"gbase", 128, 52, 0⟩, ⟨"ptab", 192, 52, 0⟩, ⟨"split", 256, 52, 0⟩, ⟨"const", 320, 32, 0⟩,
    ⟨"shbase", 640, 52, 0⟩] ++
  dimKeys "n" 24 1 [384, 448, 512, 576] ++ dimKeys "p" 12 1 [408, 472, 536, 600] ++ dimKeys "hlo" 4 0 [420, 484, 548, 612] ++
  dimKeys "hhi" 4 0 [424, 488, 552, 616] ++ dimKeys "blo" 3 0 [428, 492, 556, 620] ++ dimKeys "bhi" 3 0 [431, 495, 559, 623]

/-- The bits of a descriptor; none where a key is unknown, given twice, or its value does not fit its field (R58). -/
def descriptorBits (keys : List DescKey) (given : List (String × BitVec 64)) : Option Nat :=
  if !given.all (fun e => keys.any (fun k => k.name == e.1 && (datumBits k.width e.2).isSome)) ||
      decide ((given.map (·.1)).eraseDups.length ≠ given.length) then none
  else some (packBits (keys.map (fun k => (k.lo, k.width, match given.lookup k.name with
    | some v => (datumBits k.width v).getD 0
    | none => k.free))))

/-- A directive of a data section. -/
inductive DataItem where
  | values (size : Nat) (xs : List (BitVec 64))
  | fill (count : Nat) (value : BitVec 64) (size : Nat)
  | align (n : Nat)
  | stream (given : List (String × BitVec 64))
  | map (given : List (String × BitVec 64))
  | tensor (given : List (String × BitVec 64))
  | grid (given : List (String × BitVec 64))
  deriving DecidableEq, Repr

/-- The boundary to which a directive first advances. -/
def DataItem.boundary : DataItem → Nat
  | .stream _ | .map _ | .tensor _ => 64
  | .grid _ => 128
  | .align n => n
  | _ => 1

/-- Values of a size one after another. -/
def valueBytes (size : Nat) : List (BitVec 64) → Option (List Byte)
  | [] => some []
  | v :: r =>
    match datumBits (8 * size) v, valueBytes size r with
    | some x, some b => some (toBytes size x ++ b)
    | _, _ => none

/-- The bytes that a directive places at its boundary; none where `ilas` rejects it. -/
def DataItem.bytes : DataItem → Option (List Byte)
  | .values size xs => if [1, 2, 4, 8].contains size then valueBytes size xs else none
  | .fill count v size => if [1, 2, 4, 8].contains size then valueBytes size (List.replicate count v) else none
  | .align n => if n = 0 ∨ n ≠ 2 ^ n.log2 then none else some []
  | .stream g => (descriptorBits streamKeys g).map (toBytes 64)
  | .map g => (descriptorBits mapKeys g).map (toBytes 64)
  | .tensor g => (descriptorBits tensorKeys g).map (toBytes 64)
  | .grid g => (descriptorBits gridKeys g).map (toBytes 128)

/-- The address at which a directive's bytes begin. -/
def DataItem.start (at_ : Nat) (d : DataItem) : Nat := ceilDiv at_ d.boundary * d.boundary

/-- The bytes of a data section from an address on; gaps before a boundary hold zero. -/
def sectionBytes (at_ : Nat) : List DataItem → Option (List Byte)
  | [] => some []
  | d :: r =>
    match d.bytes with
    | none => none
    | some b =>
      let a := d.start at_
      (sectionBytes (a + b.length) r).map (List.replicate (a - at_) 0 ++ b ++ ·)

/-- The labels of a data section from an address on: a label before a directive takes the address of its bytes. -/
def dataLabels (at_ : Nat) : List (List String × DataItem) → List (String × BitVec 64)
  | [] => []
  | (ns, d) :: r =>
    let a := d.start at_
    ns.map (fun n => (n, BitVec.ofNat 64 a)) ++ dataLabels (a + ((d.bytes).getD []).length) r

/-! ### Code objects (R38, R59, R392) -/

/-- What the directives of a source have said: the bundles of its code section in order, with the data sections. -/
structure Source where
  bundles : List Bundle
  entry   : Nat
  latency : List (Nat × Nat)
  windows : List (String × Nat)
  rings   : List (Nat × Nat)
  spdist  : Option Nat
  saves   : List (Nat × Nat)
  datas   : List (Nat × List Byte)
  deriving DecidableEq, Repr

/-- The code address of a label that stands before bundle n. -/
def codeAddress (n : Nat) : Nat := 64 * n

/-- The labels of a code section, given those before each bundle from bundle n on (R54). A procedure's name is one. -/
def codeLabels (n : Nat) : List (List String) → List (String × BitVec 64)
  | [] => []
  | ns :: r => ns.map (fun x => (x, BitVec.ofNat 64 (codeAddress n))) ++ codeLabels (n + 1) r

/-- The depth code of a ring directive. -/
def depthCode (depth : Nat) : Nat := if depth = 8 then 1 else if depth = 16 then 2 else if depth = 32 then 3 else 4

/-- The code addresses of the bundles with a safe-point mark. -/
def safePoints (x : Source) : List Nat :=
  (List.range x.bundles.length).filterMap (fun n => match x.bundles[n]? with
    | some b => if b.safePoint then some (codeAddress n) else none
    | none => none)

/-- SPDIST: that of `.spdist`, and no bound without it or where no bundle is marked (R38). -/
def spdistOf (x : Source) : Nat := if (safePoints x).isEmpty then 2 ^ 32 - 1 else x.spdist.getD (2 ^ 32 - 1)

/-- The offsets of the code, the three tables and the data of a code object, in that order.
(DESIGN CHOICE, assumption 51) -/
def objectOffsets (x : Source) : Nat × Nat × Nat × Nat × Nat :=
  let sp := 256 + 64 * x.bundles.length
  let dt := sp + 8 * (safePoints x).length
  let sv := dt + 24 * x.datas.length
  (256, sp, dt, sv, sv + 16 * x.saves.length)

/-- The entries of the data-section table, from the offset of the first section's bytes on. -/
def dataTable (off : Nat) : List (Nat × List Byte) → List Byte
  | [] => []
  | (a, b) :: r => toBytes 8 a ++ toBytes 8 b.length ++ toBytes 8 off ++ dataTable (off + b.length) r

/-- The header of a code object (Table 2.9). -/
def objectHeader (x : Source) (length : Nat) : Nat :=
  let (code, sp, dt, sv, _) := objectOffsets x
  let win := fun n => (x.windows.lookup n).getD 0
  packBits ([(0, 16, 1), (32, 32, length), (64, 32, code), (96, 32, 64 * x.bundles.length), (128, 32, x.entry),
    (192, 10, win "v0"), (202, 10, win "v1"), (212, 6, win "acc"), (218, 6, win "t"), (224, 6, win "larder")] ++
    x.rings.map (fun r => (256 + 4 * r.1, 4, depthCode r.2)) ++
    [(384, 32, spdistOf x), (416, 32, (safePoints x).length), (448, 32, sp), (512, 32, dt), (544, 32, x.datas.length), (576, 32, sv),
      (608, 32, x.saves.length)] ++
    x.latency.map (fun l => (1024 + 16 * l.1, 16, l.2)))

/-- The bytes of the code object of a source. -/
def objectBytes (x : Source) : List Byte :=
  let (_, _, _, _, data) := objectOffsets x
  let length := data + (x.datas.map (fun d => d.2.length)).sum
  toBytes 256 (objectHeader x length) ++ x.bundles.flatMap (fun b => toBytes 64 b.toNat) ++
  (safePoints x).flatMap (toBytes 8) ++ dataTable data x.datas ++
  x.saves.flatMap (fun r => toBytes 8 r.1 ++ toBytes 8 r.2) ++ x.datas.flatMap (·.2)

end Sys2Proof.Machine
end

