-- ==== Sys2Proof/Tests/Slice0.lean ====
section
/-! SUPPORT. Tests of the model: ill-formed operations, words written out from the manual's encodings, one step of each
instruction on a small state, and for each statement a state and operands that meet its hypotheses. Expected values are those of
the manual's examples and tables, or worked out from its rules by hand. -/

namespace Sys2Proof.Tests

open Sys2Proof Sys2Proof.Machine

set_option Elab.async false
set_option linter.unusedVariables false

/-- The guard that always holds. -/
def g : Guard := ⟨15, false⟩

/-- Location 0 running a task of device 1, whose partition 0 is resident, with slot x about to issue bundle 0; registers as given. -/
def on (x : Slot) (regs : List (Reg × Nat)) (f : Seq → Seq := id) : State :=
  let s := State.reset
  let s := s.setVd 1 { Vd.reset with
    parts := [0], ranges := [⟨2 ^ 32, 2 ^ 33 - 1, (physOf s 0 0 0 : Int) - 2 ^ 32, true, true, true⟩] }
  let s := s.setQuad 0 { Quad.reset with resident := some 1 }
  let s := s.setSeq 0 (f
    { Seq.reset with
      status := 1, task := { placeTask with vd := 1, codeLen := 640 }, nextIdx := 1, queue := [(0, ⟨0, 0, true⟩)], pc := 64 })
  let s := regs.foldl (fun s p => regPut s 0 p.1 (BitVec.ofNat 512 p.2)) s
  { s with cur := ⟨0, x⟩ }

/-- The next state, if there is one. -/
def next (o : Host.Outcome State Fault Refusal) : Option State := match o with | .next t => some t | _ => none

/-- What a register of location 0 holds once every result on its way has landed, where the sequencer runs on. -/
def final (o : Host.Outcome State Fault Refusal) (r : Reg) : Option Nat :=
  (next o).bind (fun t =>
    if (t.seqAt 0).status = 1 then
      some ((t.seqAt 0).pend.foldl (fun v e => if e.dst = some r ∧ !e.done ∧ e.avail then mergeBytes v e.val e.mask else v)
        (regBase t 0 r)).toNat
    else none)

/-- The code, slot and INFO of the trap that location 0 stands frozen with. -/
def trapped (o : Host.Outcome State Fault Refusal) : Option (Nat × Nat × Nat) :=
  (next o).bind (fun t =>
    let rc := (t.seqAt 0).record.toNat
    if (t.seqAt 0).status = 3 then some (bitsAt rc 0 8, bitsAt rc 12 4, bitsAt rc 320 64) else none)

/-- Whether a slot of location 0 goes on to bundle 1. -/
def goesOn (o : Host.Outcome State Fault Refusal) (x : Slot) : Bool :=
  match next o with | some t => (t.seqAt 0).status == 1 && stepOf (t.seqAt 0) x == 1 | none => false

/-- Whether a slot of location 0 stalls: it runs, stands at bundle 0 and is marked. -/
def stalls (o : Host.Outcome State Fault Refusal) (x : Slot) : Bool :=
  match next o with
  | some t => (t.seqAt 0).status == 1 && stepOf (t.seqAt 0) x == 0 && (t.seqAt 0).stalled.testBit x.num
  | none => false

/-- The bytes of a local store of die 0 as a number. -/
def localAt (s : State) (core a n : Nat) : Nat :=
  ofBytes ((List.range n).map (fun j => s.mem.look (localPhys s core (a + j))))

/-- Little-endian lanes of w bits as a number. -/
def lanes (w : Nat) (xs : List Nat) : Nat := ofLanes w xs

/-- The same lane n times. -/
def rep (w n x : Nat) : Nat := ofLanes w (List.replicate n x)

/-! ### Static legality (Table 3.16, R52) -/

/-- One ill-formed operation for each check of the slot word. -/
def illFormed : List Instr :=
  [.add g (.own 64) (.own 0) (.own 0), .add g (.own 0) (.pop 0) (.own 0), .add g (.own 0) (.own 0) (.dq 0),
   .clz g (.own 0) (.peek 0), .bfi g (.com 0) (.own 0) (.own 0), .bfi g (.own 64) (.own 0) (.own 0),
   .cmp g 15 0 (.own 0) (.own 0), .cmp g 0 12 (.own 0) (.own 0), .pand g 15 0 0 false false, .por g 15 0 0 false false,
   .pnot g 15 0, .addi g (.own 64) (.own 0) 0, .shli g (.own 0) (.own 0) 64, .shri g (.own 0) (.own 0) 64,
   .srai g (.own 0) (.own 0) 64, .li g (.pop 0) 0, .lih g (.own 0) (.dq 0) 0, .cmpi g 15 0 (.own 0) 0,
   .cmpi g 0 12 (.own 0) 0, .jmpr g (.own 64), .ret g (.pop 0), .call g (.com 0) 0, .loop g (.own 0) 0,
   .loop g (.own 0) 65536, .xmov g (.here (.own 1)) (.own 0) 0 true, .xmov g (.file .w 32) (.own 0) 0 false,
   .xmov g (.here (.own 1)) (.own 0) 1 false, .rdsr g (.own 0) 4096, .wrsr g 0x00A (.own 0), .wrsr g 4096 (.own 0),
   .mrsData g (.pop 0), .rdts g (.own 64), .vadd g (.own 0) (.own 0) (.own 0) .f32 0,
   .vadd g (.own 768) (.own 0) (.own 0) .b32 0, .vadd g (.own 0) (.own 768) (.own 0) .b32 0,
   .vadd g (.peek 0) (.own 0) (.own 0) .b32 0, .vadd g (.pop 0) (.own 0) (.own 0) .b32 1, .vabs g (.own 0) (.own 0) .b32 0,
   .vfsh g (.pop 0) (.own 0) (.own 0) .b32 true, .vfsh g (.own 0) (.own 0) (.own 0) .s32 true, .vclz g (.own 0) (.own 0) .s32 0,
   .vcmp g 0 (.own 0) (.own 0) .f32 0, .vcmp g 0 (.own 0) (.own 0) .b32 12, .vsel g (.own 0) (.own 0) (.own 0) .e4m3 0,
   .kpop g (.pop 0) 0, .kfirst g (.own 768) 0, .vbcast g (.own 0) (.own 0) 16 .b32 0, .vrot g (.own 0) (.own 0) 64 .b8 0,
   .vext g (.own 0) (.own 0) 8 .b64, .vins g (.pop 0) (.own 0) 0 .b32, .vperm g (.own 0) (.own 0) (.own 0) .t8 0,
   .vslide g (.own 0) (.own 0) 17 false .b32 0, .vred g (.own 0) (.own 0) 0 0 .b32, .vred g (.own 0) (.own 0) 7 0 .b8,
   .vred g (.own 0) (.own 0) 2 0 .b64, .vscan g (.own 0) (.own 0) 4 2 .b32, .vpack g (.own 0) (.own 0) (.own 0) .b8 false,
   .vunpk g (.own 0) (.own 0) .b64 false, .vfadd g (.own 0) (.own 0) (.own 0) .b32 0, .vfma g (.pop 0) (.own 0) (.own 0) .f32 0,
   .vfcmp g 0 (.own 0) (.own 0) .f32 8, .vfcmp g 0 (.own 0) (.own 0) .b32 0, .vfabs g (.own 0) (.own 0) .s32 0,
   .vfred g (.own 0) (.own 0) 4 3 .f32, .vfred g (.own 0) (.own 0) 4 0 .f16, .vrcp g (.own 0) (.own 0) .f16 0,
   .vicvt g (.own 0) (.own 0) .b16 0, .vxmov g (.here (.own 0)) (.own 0) 1, .vxmov g (.file .p 15) (.own 0) 0,
   .mmac g 0 0 .e4m3 .f16 1 0 false, .mmac g 0 0 .f32 .f32 1 0 false, .mmac g 0 0 .e4m3 .e4m3 0 0 false,
   .mmac g 0 0 .e4m3 .e4m3 33 0 false, .mmacs g 0 0 .f16 .f16 1 0 1 false, .mmacs g 0 0 .e4m3 .e4m3 1 2 2 false,
   .mdrain g 0 0 127 1 .e4m3 false, .mdrain g 0 0 0 15 .f32 false, .mdrain g 0 0 0 0 .b32 false, .mlar g 0 0 0 0, .mlar g 0 1 0 3,
   .mloop g 1 0 true, .mloop g 1 1 false, .ld g (.file .p 15) (.own 0) (.own 0) 0 .b64, .ld g (.here (.com 0)) (.own 0) (.own 0) 0 .b64,
   .ld g (.file .s 0) (.own 32) (.own 0) 0 .b64, .ld g (.file .s 0) (.own 0) (.own 0) 0 .f32, .vld g (.file .s 0) (.own 0) (.own 0) 0,
   .vldu g (.here (.own 0)) (.own 0) (.own 0) 0, .pf g (.pop 0) (.own 0), .gpush g 0 (.dq 0), .ldg g (.file .b 32) (.own 0) (.own 0) 0 .b64,
   .vldg g (.file .w 0) (.own 0) (.own 0) 0, .ldr g (.file .s 0) (.own 0) false 62 0 .b64, .st g (.pop 0) (.own 0) (.own 0) 0 .b64,
   .st g (.own 0) (.own 0) (.own 0) 0 .bf16, .vst g (.own 0) (.own 0) (.own 0) 0, .vstm g (.own 0) (.own 0) 0 false 0,
   .aadd g 0 (.own 0) (.own 0) false 0 0 .b16, .aadd g 1 (.own 0) (.own 0) true 0 0 .b32, .amin g 0 (.own 0) (.own 0) false 0 0 .f32,
   .alog g 0 (.own 0) (.own 0) false 3 0 0 .b32, .aswp g 0 (.own 0) (.own 0) false 0 0 .s32, .acas g 0 (.own 0) (.own 0) 0 0 .s64,
   .aincb g 0 (.own 0) (.pop 0) false 0 0 .b32, .rcnt g (.own 0) (.own 32), .asnap g 0 (.pop 0) (.own 0) 0,
   .str g (.own 32) (.own 0) false 0 .b64, .ratom g 0 (.own 0) 0 9 false 0 0 .b32, .ratom g 0 (.own 0) 0 7 true 0 0 .b32,
   .ratom g 0 (.own 0) 0 6 false 0 0 .s32, .ratom g 1 (.own 0) 0 0 true 0 0 .b32, .mapi g 0 0 4 0, .mapi g 0 0 0 1, .maprAll g 5 0,
   .gq g 0 0 24, .qwait g 0 0, .qwait g 0 65, .qadv g 0 0, .sarm g 16 0, .swait g 0 16, .fence g 7 1, .fence g 1 0,
   .gstep g 0 16, .barA g 7 0 0 0, .barW g 7 0 0, .bar g 7 0 0 0, .eret g 3, .eretT g 3 0, .xcvt g (.own 0) (.own 0) 4 .e4m3 .f32,
   .xcvt g (.own 0) (.own 0) 0 .b64 .f32, .xcvt g (.pop 0) (.own 0) 0 .e4m3 .f32, .xquant g (.own 0) (.own 0) (.own 0) .f16 0,
   .xquant g (.own 0) (.own 0) (.own 0) .e4m3 4, .xquant g (.pop 0) (.own 0) (.own 0) .e4m3 0, .xdeq g (.own 0) (.own 0) (.own 0) 0 .f32,
   .xdeq g (.own 0) (.own 0) (.own 0) 4 .e4m3, .xamax g (.own 0) (.own 32) (.own 0) .e4m3, .xtr g 0 0 .b8, .xexp g 0 1 true .b16 false,
   .xpack g (.own 0) (.own 0) 1 .t6, .xpack g (.pop 0) (.own 0) 0 .t6, .xunpk g (.own 0) (.own 0) 2 .e2m1,
   .xcrc g (.peek 0) (.own 0) (.own 0) 0]

theorem test_wellFormed_refuses : illFormed.all (fun i => !i.wf) = true := by decide +kernel

/-- Boundary operations that the checks admit. -/
theorem test_wellFormed_admits :
    ([.add g (.own 63) (.com 63) (.own 0), .shli g (.own 0) (.own 0) 63, .loop g (.own 0) 65535, .cmp g 14 11 (.own 0) (.own 0),
      .vbcast g (.own 767) (.dq 3) 15 .b32 0, .vslide g (.own 0) (.own 0) 16 false .b32 0, .mmac g 0 0 .e2m1 .t6 64 0 false,
      .mdrain g 0 0 112 15 .e4m3 false, .ldr g (.file .p 14) (.own 31) false 63 0 .b64, .qwait g 0 64, .gq g 0 0 23,
      .ratom g 0 (.own 0) 0 8 false 3 0 .b64, .xcvt g (.own 0) (.own 0) 3 .e4m3 .f32] : List Instr).all Instr.wf = true := by
  decide +kernel

/-! ### Words written out from the encodings -/

/-- The slot words that the manual assembles in its text, with what it gives them for. -/
def manualWords : List (Slot × Nat × Instr) :=
  [(.S, 0xFFFFFA02008812, .addi ⟨2, true⟩ (.own 4) (.own 4) (BitVec.ofInt 23 (-3))),
   (.L, 0x1018080181202F, .ld g (.file .s 9) (.own 3) (.own 4) 0 .b64),
   (.S, 0x40080A08F, .mul g (.own 5) (.own 1) (.own 2)),
   (.V0, 0x36860481402F, .vadd g (.own 10) (.own 9) (.com 3) .s32 0),
   (.S, 0x40084460F, .cmp g 2 2 (.own 1) (.own 2)),
   (.S, 0x600800CAF, .loop g (.own 1) 3),
   (.W, 0x2602E8406F, .vstm g (.com 2) (.own 5) 3 true 0),
   (.C, 0x40002F, .cbind g 0 0 true),
   (.V1, 0x10280200A50F, .vred g (.own 5) (.own 4) 4 2 .b32),
   (.V0, 0x210140380E02F, .vadd g (.own 7) (.own 7) (.own 10) .b32 2),
   (.V0, 0x3C060E12F, .vor g (.pop 7) (.dq 0) (.own 1) .b8 0),
   (.M, 0x282EC4304F, .mmac g 3 2 .e4m3 .e4m3 32 1 false),
   (.M, 0x3C05A308F, .mdrain g 1 3 0 15 .e4m3 false),
   (.M, 0x2820CF, .mpar g 2 0x28 false),
   (.M, 0x400EF, .mcall g 64),
   (.X, 0x10B02010302F, .xcvt g (.own 3) (.own 1) 2 .e4m3 .f32),
   (.C, 0x1148120F, .cput g 2 1 4 5),
   (.Y, 0x310AF, .swait g 2 3),
   (.W, 0x1004008082CF, .aincb g 4 (.own 1) (.own 2) false 0 0 .b32),
   (.W, 0x110060108A28F, .aswp g 5 (.own 2) (.own 3) false 2 1 .b32),
   (.Y, 0x2800190F, .fence g 5 0x0003),
   (.C, 0x6740F, .gdecl g 7 0 3),
   (.Y, 0x98F, .gstep g 0 1),
   (.L, 0x1010060100820F, .ldg g (.file .s 4) (.own 2) (.own 3) 0 .b32),
   (.C, 0x100242F, .gq g 2 0 1),
   (.L, 0x1018FE0100A30F, .ldr g (.file .s 5) (.own 2) false 127 0 .b64),
   (.W, 0x14000080640F, .str g (.own 3) (.own 1) true 0 .b32),
   (.W, 0x12040080842F, .ratom g 4 (.own 1) 2 8 false 0 0 .b32),
   (.C, 0xC350F, .tacq g 3 6),
   (.C, 0xC052F, .trel g 6),
   (.Y, 0x21A9024F, .bar g 4 3 5 2),
   (.Y, 0x3228F, .spawn g 4 6),
   (.Y, 0x91A40F, .trap g 0x1234),
   (.Y, 0xC2F, .eret g 1),
   (.Y, 0xE42F, .eretT g 0 3),
   (.Y, 0x2960F, .ctxsave g 2 5),
   (.Y, 0xA962F, .ctxload g 2 5 true),
   (.Y, 0x2964F, .pimg g 2 5)]

theorem test_decode_manual_words : manualWords.all (fun t => decodeWord t.1 t.2.1 == some t.2.2) = true := by decide +kernel

/-- The opcodes of Tables 3.7 to 3.14 with every operand field zero, but for a FILE or TYPE field that must not be. -/
def opcodeWords : List (Slot × Nat × Instr) :=
  [(.S, 0x2f, .add g (.own 0) (.own 0) (.own 0)),
   (.S, 0x4f, .sub g (.own 0) (.own 0) (.own 0)),
   (.S, 0x6f, .addsl g (.own 0) (.own 0) (.own 0) 0),
   (.S, 0x8f, .mul g (.own 0) (.own 0) (.own 0)),
   (.S, 0xaf, .mulh g (.own 0) (.own 0) (.own 0)),
   (.S, 0xcf, .mulhB g (.own 0) (.own 0) (.own 0)),
   (.S, 0xef, .div g (.own 0) (.own 0) (.own 0)),
   (.S, 0x10f, .divB g (.own 0) (.own 0) (.own 0)),
   (.S, 0x12f, .rem g (.own 0) (.own 0) (.own 0)),
   (.S, 0x14f, .remB g (.own 0) (.own 0) (.own 0)),
   (.S, 0x20f, .and g (.own 0) (.own 0) (.own 0)),
   (.S, 0x22f, .or g (.own 0) (.own 0) (.own 0)),
   (.S, 0x24f, .xor g (.own 0) (.own 0) (.own 0)),
   (.S, 0x26f, .andn g (.own 0) (.own 0) (.own 0)),
   (.S, 0x28f, .shl g (.own 0) (.own 0) (.own 0)),
   (.S, 0x2af, .shr g (.own 0) (.own 0) (.own 0)),
   (.S, 0x2cf, .sra g (.own 0) (.own 0) (.own 0)),
   (.S, 0x2ef, .rotl g (.own 0) (.own 0) (.own 0)),
   (.S, 0x30f, .fshl g (.own 0) (.own 0) (.own 0) 0),
   (.S, 0x32f, .fshr g (.own 0) (.own 0) (.own 0) 0),
   (.S, 0x40f, .clz g (.own 0) (.own 0)),
   (.S, 0x42f, .ctz g (.own 0) (.own 0)),
   (.S, 0x44f, .popc g (.own 0) (.own 0)),
   (.S, 0x46f, .min g (.own 0) (.own 0) (.own 0)),
   (.S, 0x48f, .max g (.own 0) (.own 0) (.own 0)),
   (.S, 0x4af, .minB g (.own 0) (.own 0) (.own 0)),
   (.S, 0x4cf, .maxB g (.own 0) (.own 0) (.own 0)),
   (.S, 0x4ef, .bfx g (.own 0) (.own 0) (.own 0) false),
   (.S, 0x50f, .bfi g (.own 0) (.own 0) (.own 0)),
   (.S, 0x52f, .sel g (.own 0) (.own 0) (.own 0) 0 false),
   (.S, 0x60f, .cmp g 0 0 (.own 0) (.own 0)),
   (.S, 0x62f, .pand g 0 0 0 false false),
   (.S, 0x64f, .por g 0 0 0 false false),
   (.S, 0x66f, .pnot g 0 0),
   (.S, 0x80f, .addi g (.own 0) (.own 0) 0),
   (.S, 0x82f, .andi g (.own 0) (.own 0) 0),
   (.S, 0x84f, .ori g (.own 0) (.own 0) 0),
   (.S, 0x86f, .xori g (.own 0) (.own 0) 0),
   (.S, 0x88f, .shli g (.own 0) (.own 0) 0),
   (.S, 0x8af, .shri g (.own 0) (.own 0) 0),
   (.S, 0x8cf, .srai g (.own 0) (.own 0) 0),
   (.S, 0x8ef, .li g (.own 0) 0),
   (.S, 0x90f, .lih g (.own 0) (.own 0) 0),
   (.S, 0x92f, .cmpi g 0 0 (.own 0) 0),
   (.S, 0xc0f, .br g 0),
   (.S, 0xc2f, .jmp g 0),
   (.S, 0xc4f, .jmpr g (.own 0)),
   (.S, 0xc6f, .call g (.own 0) 0),
   (.S, 0xc8f, .ret g (.own 0)),
   (.S, 0xccf, .halt g),
   (.S, 0xe0f, .xmov g (.here (.own 0)) (.own 0) 0 false),
   (.S, 0xe2f, .rdsr g (.own 0) 0),
   (.S, 0xe4f, .wrsr g 0 (.own 0)),
   (.S, 0xe6f, .rdts g (.own 0)),
   (.V1, 0x2f, .vadd g (.own 0) (.own 0) (.own 0) .b8 0),
   (.V0, 0x4f, .vsub g (.own 0) (.own 0) (.own 0) .b8 0),
   (.V1, 0x6f, .vmul g (.own 0) (.own 0) (.own 0) .b8 0),
   (.V0, 0x8f, .vmulh g (.own 0) (.own 0) (.own 0) .b8 0),
   (.V1, 0xaf, .vmin g (.own 0) (.own 0) (.own 0) .b8 0),
   (.V0, 0xcf, .vmax g (.own 0) (.own 0) (.own 0) .b8 0),
   (.V1, 0x2000000000ef, .vabs g (.own 0) (.own 0) .s8 0),
   (.V0, 0x10f, .vand g (.own 0) (.own 0) (.own 0) .b8 0),
   (.V1, 0x12f, .vor g (.own 0) (.own 0) (.own 0) .b8 0),
   (.V0, 0x14f, .vxor g (.own 0) (.own 0) (.own 0) .b8 0),
   (.V1, 0x16f, .vandn g (.own 0) (.own 0) (.own 0) .b8 0),
   (.V0, 0x18f, .vshl g (.own 0) (.own 0) (.own 0) .b8 0),
   (.V1, 0x1af, .vshr g (.own 0) (.own 0) (.own 0) .b8 0),
   (.V0, 0x1cf, .vsra g (.own 0) (.own 0) (.own 0) .b8 0),
   (.V1, 0x1ef, .vfsh g (.own 0) (.own 0) (.own 0) .b8 false),
   (.V0, 0x20f, .vclz g (.own 0) (.own 0) .b8 0),
   (.V1, 0x22f, .vpopc g (.own 0) (.own 0) .b8 0),
   (.V0, 0x24f, .vcmp g 0 (.own 0) (.own 0) .b8 0),
   (.V1, 0x26f, .vsel g (.own 0) (.own 0) (.own 0) .b8 0),
   (.V0, 0x30f, .kand g 0 0 0),
   (.V1, 0x32f, .kor g 0 0 0),
   (.V0, 0x34f, .kxor g 0 0 0),
   (.V1, 0x36f, .knot g 0 0),
   (.V0, 0x38f, .kpop g (.own 0) 0),
   (.V1, 0x3af, .kfirst g (.own 0) 0),
   (.V0, 0x40f, .vbcast g (.own 0) (.own 0) 0 .b8 0),
   (.V1, 0x42f, .vext g (.own 0) (.own 0) 0 .b8),
   (.V0, 0x44f, .vins g (.own 0) (.own 0) 0 .b8),
   (.V1, 0x46f, .vperm g (.own 0) (.own 0) (.own 0) .b8 0),
   (.V0, 0x48f, .vrot g (.own 0) (.own 0) 0 .b8 0),
   (.V1, 0x4af, .vslide g (.own 0) (.own 0) 0 false .b8 0),
   (.V0, 0x8000000054f, .vpack g (.own 0) (.own 0) (.own 0) .b16 false),
   (.V1, 0x56f, .vunpk g (.own 0) (.own 0) .b8 false),
   (.V0, 0x40000000060f, .vfadd g (.own 0) (.own 0) (.own 0) .f32 0),
   (.V1, 0x40000000062f, .vfsub g (.own 0) (.own 0) (.own 0) .f32 0),
   (.V0, 0x40000000064f, .vfmul g (.own 0) (.own 0) (.own 0) .f32 0),
   (.V1, 0x40000000066f, .vfma g (.own 0) (.own 0) (.own 0) .f32 0),
   (.V0, 0x40000000068f, .vfms g (.own 0) (.own 0) (.own 0) .f32 0),
   (.V1, 0x4000000006af, .vfmin g (.own 0) (.own 0) (.own 0) .f32 0),
   (.V0, 0x4000000006cf, .vfmax g (.own 0) (.own 0) (.own 0) .f32 0),
   (.V1, 0x4000000006ef, .vfcmp g 0 (.own 0) (.own 0) .f32 0),
   (.V0, 0x40000000070f, .vfabs g (.own 0) (.own 0) .f32 0),
   (.V1, 0x40000000072f, .vfneg g (.own 0) (.own 0) .f32 0),
   (.V0, 0x40000000074f, .vfsgn g (.own 0) (.own 0) (.own 0) .f32 0),
   (.V0, 0x40000000080f, .vrcp g (.own 0) (.own 0) .f32 0),
   (.V1, 0x40000000082f, .vrsq g (.own 0) (.own 0) .f32 0),
   (.V0, 0x40000000084f, .vexp2 g (.own 0) (.own 0) .f32 0),
   (.V1, 0x40000000086f, .vlog2 g (.own 0) (.own 0) .f32 0),
   (.V0, 0x10000000090f, .vicvt g (.own 0) (.own 0) .b32 0),
   (.V1, 0x10000000092f, .vfcvt g (.own 0) (.own 0) .b32 0),
   (.V0, 0xe0f, .vxmov g (.here (.own 0)) (.own 0) 0),
   (.M, 0x2f, .mclr g 0),
   (.M, 0xef, .mcall g 0),
   (.M, 0x12f, .mend g),
   (.L, 0x2f, .ld g (.here (.own 0)) (.own 0) (.own 0) 0 .b8),
   (.L, 0xb000000000004f, .vld g (.file .t 0) (.own 0) (.own 0) 0),
   (.L, 0xd000000000006f, .vldu g (.file .c 0) (.own 0) (.own 0) 0),
   (.L, 0x8f, .pf g (.own 0) (.own 0)),
   (.L, 0x20f, .ldg g (.here (.own 0)) (.own 0) (.own 0) 0 .b8),
   (.L, 0x2000000000022f, .vldg g (.file .v0 0) (.own 0) (.own 0) 0),
   (.W, 0x2f, .st g (.own 0) (.own 0) (.own 0) 0 .b8),
   (.W, 0x10000000020f, .aadd g 0 (.own 0) (.own 0) false 0 0 .b32),
   (.W, 0x38000000022f, .amin g 0 (.own 0) (.own 0) false 0 0 .s64),
   (.W, 0x10000000024f, .amax g 0 (.own 0) (.own 0) false 0 0 .b32),
   (.W, 0x18000000026f, .alog g 0 (.own 0) (.own 0) false 0 0 0 .b64),
   (.W, 0x1000000002af, .acas g 0 (.own 0) (.own 0) 0 0 .b32),
   (.W, 0x1000000002ef, .rcnt g (.own 0) (.own 0)),
   (.W, 0x10000000030f, .asnap g 0 (.own 0) (.own 0) 0),
   (.W, 0x40f, .str g (.own 0) (.own 0) false 0 .b8),
   (.C, 0x2f, .cbind g 0 0 false),
   (.C, 0x4f, .cfree g 0),
   (.C, 0x20f, .cput g 0 0 0 0),
   (.C, 0x22f, .cget g 0 0 0),
   (.C, 0x24f, .ccard g 0 0 0),
   (.C, 0x26f, .cwait g 0 0 false),
   (.C, 0x28f, .cstat g 0 0),
   (.C, 0x30f, .mapi g 0 0 0 0),
   (.C, 0x32f, .mapx g 0 0),
   (.C, 0x34f, .mapr g 0),
   (.C, 0x36f, .mapq g 0 0),
   (.C, 0x40f, .gdecl g 0 0 0),
   (.C, 0x42f, .gq g 0 0 0),
   (.C, 0x50f, .tacq g 0 0),
   (.C, 0x52f, .trel g 0),
   (.Y, 0x8f, .sarm g 0 0),
   (.Y, 0xaf, .swait g 0 0),
   (.Y, 0x18f, .gstep g 0 0),
   (.Y, 0x20f, .barA g 0 0 0 0),
   (.Y, 0x22f, .barW g 0 0 0),
   (.Y, 0x24f, .bar g 0 0 0 0),
   (.Y, 0x28f, .spawn g 0 0),
   (.Y, 0x2af, .sjoin g 0),
   (.Y, 0x2cf, .yield g),
   (.Y, 0x2ef, .sleep g 0),
   (.Y, 0x30f, .evpost g 0 0),
   (.Y, 0x40f, .trap g 0),
   (.Y, 0x42f, .eret g 0),
   (.Y, 0x60f, .ctxsave g 0 0),
   (.Y, 0x62f, .ctxload g 0 0 false),
   (.Y, 0x64f, .pimg g 0 0),
   (.X, 0x10020200cf, .xexp g 0 0 false .b8 false),
   (.X, 0x12f, .xcrc g (.own 0) (.own 0) (.own 0) 0)]

theorem test_decode_opcodes : opcodeWords.all (fun t => decodeWord t.1 t.2.1 == some t.2.2) = true := by decide +kernel

/-- Words that are no instruction: opcode 0, unassigned opcodes, a reserved bit, a reserved TYPE, an illegal code, FILE misuse (R46,
R49, Table 3.16). -/
theorem test_decode_refuses :
    ([(.S, 0xf), (.S, 0x16f), (.V0, 0x2cf), (.M, 0x16f), (.L, 0xcf), (.W, 0x8f), (.C, 0x6f), (.Y, 0x6f), (.X, 0x14f), (.S, 0x8000000002f), (.V0, 0x80000000002f), (.S, 0x1ff80002f), (.S, 0x18000002f), (.S, 0x1000000000002f), (.L, 0xe000000000002f), (.L, 0x1000000008002f), (.Y, 0x80000002cf), (.L, 0x1000002f)] : List (Slot × Nat)).all
      (fun t => decodeWord t.1 t.2 == none) = true := by decide +kernel

/-- A field by field spelling of `vadd.s32 v10, q9, c3`: TYPE 6, B 835, A 777, D 10, opcode 0x01, always. -/
theorem test_decode_fields :
    decodeWord .V0 ((6 : BitVec 13) ++ (835 : BitVec 10) ++ (777 : BitVec 10) ++ (10 : BitVec 10) ++ (0x01 : BitVec 8) ++
      (0 : BitVec 1) ++ (15 : BitVec 4)).toNat = some (.vadd g (.own 10) (.pop 9) (.com 3) .s32 0) := by decide +kernel

/-- The first instruction after reset: `step` fetches the bundle and runs it; the table's number of the word is the bundle's (R41). -/
theorem test_step_runs_first :
    ((next (step (State.reset.withFetchWord 512 (0x2F * 2 ^ 48 + 1)))).map (fun t => stepOf (t.seqAt 0) .S)) = some 1 ∧
    decodeTableWord 512 (0x2F * 2 ^ 48 + 1) = some (.add g (.own 0) (.own 0) (.own 0)) ∧
    decodeTableWord 512 (0x2F * 2 ^ 48) = none ∧ decodeTableWord 512 (7 * 2 ^ 19) = none ∧ decodeTableWord 0 0 = some .noOperation := by decide +kernel

/-! ### The scalar slot (04_scalar.md): O1 to O9 -/

/-- `s3 := op s1, s2` may issue, its operands can be read, and it ends with a value in s3. -/
def works2 (mk : Guard → Opnd → Opnd → Opnd → Instr) (x y want : Nat) : Bool :=
  let s := on .S [(⟨.s, 1⟩, x), (⟨.s, 2⟩, y)]
  let i := mk g (.own 3) (.own 1) (.own 2)
  mayIssue i g s && s.opnd (.own 1) == some (BitVec.ofNat 64 x) && s.opnd (.own 2) == some (BitVec.ofNat 64 y) &&
  final (exec i s) ⟨.s, 3⟩ == some want && goesOn (exec i s) .S

/-- `s3 := op s1` may issue, its operand can be read, and it ends with a value in s3. -/
def works1 (mk : Guard → Opnd → Opnd → Instr) (x want : Nat) : Bool :=
  let s := on .S [(⟨.s, 1⟩, x)]
  let i := mk g (.own 3) (.own 1)
  mayIssue i g s && s.opnd (.own 1) == some (BitVec.ofNat 64 x) && final (exec i s) ⟨.s, 3⟩ == some want && goesOn (exec i s) .S

/-- O1: a wrap, the manual's `addsl` example, high halves of a signed and an unsigned product. -/
theorem witness_ScalarArithmetic :
    (works2 .add (2 ^ 64 - 1) 2 1 && works2 .sub 3 5 (2 ^ 64 - 2) && works2 (fun g d a b => .addsl g d a b 6) 0x10000000 5 0x10000140 &&
     works2 .mul (2 ^ 63 + 3) 2 6 && works2 .mulh (2 ^ 64 - 1) 2 (2 ^ 64 - 1) && works2 .mulhB (2 ^ 64 - 1) 2 1) = true := by
  decide +kernel

/-- O2: truncation, zero divisors, the most negative number by -1. -/
theorem witness_ScalarDivision :
    (works2 .div (2 ^ 64 - 7) 2 (2 ^ 64 - 3) && works2 .div 9 0 (2 ^ 64 - 1) && works2 .div (2 ^ 63) (2 ^ 64 - 1) (2 ^ 63) &&
     works2 .rem (2 ^ 64 - 7) 2 (2 ^ 64 - 1) && works2 .rem 9 0 9 && works2 .rem (2 ^ 63) (2 ^ 64 - 1) 0 &&
     works2 .divB (2 ^ 64 - 7) 2 (2 ^ 63 - 4) && works2 .divB 9 0 (2 ^ 64 - 1) && works2 .remB 9 4 1 && works2 .remB 9 0 9) = true := by
  decide +kernel

/-- O3: logic, shift counts above 63, the manual's `fshr` example. -/
theorem witness_ScalarLogicAndShifts :
    (works2 .and 12 10 8 && works2 .or 12 10 14 && works2 .xor 12 10 6 && works2 .andn 12 10 4 && works2 .shl 1 65 2 &&
     works2 .shr (2 ^ 63) 63 1 && works2 .sra (2 ^ 63) 63 (2 ^ 64 - 1) && works2 .rotl (2 ^ 63 + 1) 1 3 &&
     works2 (fun g d a b => .fshl g d a b 8) 0x1122334455667788 0xAB00000000000000 0x22334455667788AB &&
     works2 (fun g d a b => .fshr g d a b 8) 0xAB 0x1122334455667788 0xAB11223344556677) = true := by decide +kernel

/-- O4: immediates with their sign, `lih`, and a shift whose immediate is out of range, which traps 0x01. -/
theorem witness_ScalarImmediates :
    (works1 (fun g d a => .addi g d a (BitVec.ofInt 23 (-3))) 1 (2 ^ 64 - 2) && works1 (fun g d a => .andi g d a (BitVec.ofInt 23 (-4))) 7 4 &&
     works1 (fun g d a => .ori g d a 8) 1 9 && works1 (fun g d a => .xori g d a 3) 1 2 && works1 (fun g d a => .shli g d a 63) 3 (2 ^ 63) &&
     works1 (fun g d a => .shri g d a 63) (2 ^ 63) 1 && works1 (fun g d a => .srai g d a 63) (2 ^ 63) (2 ^ 64 - 1) &&
     works1 (fun g d a => .lih g d a 5) 3 (3 * 2 ^ 23 + 5) &&
     (let s := on .S []
      mayIssue (.li g (.own 3) (BitVec.ofInt 23 (-1))) g s && final (exec (.li g (.own 3) (BitVec.ofInt 23 (-1))) s) ⟨.s, 3⟩ == some (2 ^ 64 - 1) &&
      !heldBack (.shli g (.own 3) (.own 1) 64) s && trapped (exec (.shli g (.own 3) (.own 1) 64) s) == some (0x01, 0, 0) &&
      !heldBack (.shri g (.own 3) (.own 1) 64) s && trapped (exec (.shri g (.own 3) (.own 1) 64) s) == some (0x01, 0, 0) &&
      !heldBack (.srai ⟨0, false⟩ (.own 3) (.own 1) 64) s && trapped (exec (.srai ⟨0, false⟩ (.own 3) (.own 1) 64) s) == some (0x01, 0, 0))) = true := by
  decide +kernel

/-- O5: counts of zero and of one bit, signed and unsigned limits, both arms of `sel`. -/
theorem witness_ScalarCountsAndLimits :
    (works1 .clz 1 63 && works1 .clz 0 64 && works1 .ctz 8 3 && works1 .ctz 0 64 && works1 .popc 0xFF 8 &&
     works2 .min (2 ^ 64 - 1) 1 (2 ^ 64 - 1) && works2 .max (2 ^ 64 - 1) 1 1 && works2 .minB (2 ^ 64 - 1) 1 1 &&
     works2 .maxB (2 ^ 64 - 1) 1 (2 ^ 64 - 1) && works2 (fun g d a b => .sel g d a b 15 false) 5 6 5 &&
     works2 (fun g d a b => .sel g d a b 0 false) 5 6 6 && works2 (fun g d a b => .sel g d a b 0 true) 5 6 5 &&
     (on .S []).predIn 15 false == some true && (on .S []).predIn 0 true == some true) = true := by decide +kernel

/-- O6: the manual's field example, a sign, a length of 0, and an insertion over the old value of the destination. -/
theorem witness_ScalarBitfields :
    (works2 (fun g d a b => .bfx g d a b false) 0x12345678 0x0C04 0x567 && works2 (fun g d a b => .bfx g d a b true) 0xF0 0x0404 (2 ^ 64 - 1) &&
     works2 (fun g d a b => .bfx g d a b true) 0xF0 0x0004 0 && works2 (fun g d a b => .bfx g d a b true) (2 ^ 63) 0x7F3F 1 &&
     (let s := on .S [(⟨.s, 1⟩, 5), (⟨.s, 2⟩, 0x0408), (⟨.s, 3⟩, 0xFFFF)]
      let i : Instr := .bfi g (.own 3) (.own 1) (.own 2)
      mayIssue i g s && s.opnd (.own 3) == some 0xFFFF && final (exec i s) ⟨.s, 3⟩ == some 0xF5FF)) = true := by decide +kernel

/-- `p3 := op` may issue and ends with a value in p3; p1 is 1, p2 is 0. -/
def sets3 (i : Instr) (want : Nat) : Bool :=
  let s := on .S [(⟨.s, 1⟩, 2 ^ 64 - 1), (⟨.s, 2⟩, 1), (⟨.p, 1⟩, 1)]
  mayIssue i g s && s.opnd (.own 1) == some (BitVec.allOnes 64) && s.opnd (.own 2) == some 1 && s.predIn 1 false == some true &&
  s.predIn 2 false == some false && final (exec i s) ⟨.p, 3⟩ == some want

/-- O7: a signed and an unsigned condition, a bit test, and the predicate operations with inverted operands. -/
theorem witness_ComparesAndPredicates :
    (sets3 (.cmp g 3 2 (.own 1) (.own 2)) 1 && sets3 (.cmp g 3 6 (.own 1) (.own 2)) 0 && sets3 (.cmp g 3 11 (.own 1) (.own 2)) 0 &&
     sets3 (.cmpi g 3 0 (.own 1) (BitVec.ofInt 23 (-1))) 1 && sets3 (.cmpi g 3 8 (.own 2) 1) 0 && sets3 (.pand g 3 1 2 false true) 1 &&
     sets3 (.pand g 3 1 2 false false) 0 && sets3 (.por g 3 2 2 false false) 0 && sets3 (.por g 3 2 2 false true) 1 && sets3 (.pnot g 3 2) 1) = true := by
  decide +kernel

/-- Where fetch goes on and how many loop levels stay. -/
def fetchOf (o : Host.Outcome State Fault Refusal) : Option (Nat × List Nat) :=
  (next o).map (fun t => ((t.seqAt 0).pc, (t.seqAt 0).loops.map (·.count)))

/-- O8: a transfer forward, to the last bundle, beyond it and below it; a level whose body (bundles 1 and 2) holds the target stays, one
that does not is popped, and `call` and `ret` leave both. -/
theorem witness_BranchesGoToTheirTargets :
    (let s := on .S [(⟨.s, 1⟩, 128), (⟨.s, 2⟩, 640), (⟨.s, 4⟩, 65)] (fun q => { q with hold := some 0, loops := [⟨2, 256, 1⟩, ⟨3, 128, 2⟩] })
     [mayIssue (.br g 2) g s, fetchOf (exec (.br g 2) s) == some (128, [3]), fetchOf (exec (.br g 9) s) == some (576, []),
      trapped (exec (.br g 10) s) == some (0x11, 0, 640), trapped (exec (.br g (BitVec.ofInt 23 (-1))) s) == some (0x11, 0, 2 ^ 64 - 64),
      mayIssue (.jmp g 1) g s, fetchOf (exec (.jmp g 1) s) == some (64, [3]), mayIssue (.jmpr g (.own 1)) g s,
      s.opnd (.own 1) == some 128, fetchOf (exec (.jmpr g (.own 1)) s) == some (128, [3]), trapped (exec (.jmpr g (.own 2)) s) == some (0x11, 0, 640),
      trapped (exec (.jmpr g (.own 4)) s) == some (0x11, 0, 65), mayIssue (.call g (.own 3) 8) g s,
      fetchOf (exec (.call g (.own 3) 8) s) == some (512, [2, 3]), final (exec (.call g (.own 3) 8) s) ⟨.s, 3⟩ == some 64,
      mayIssue (.ret g (.own 1)) g s, fetchOf (exec (.ret g (.own 1)) s) == some (128, [2, 3])].all id) = true := by decide +kernel

/-- O9: `loop` with count 0, with a level free, with six open; `halt`; an absent slot; the end of the code. -/
theorem witness_LoopsAndHalt :
    (let s := on .S [(⟨.s, 1⟩, 2 ^ 32 + 7), (⟨.s, 2⟩, 2 ^ 32)] (fun q => { q with hold := some 0 })
     let full := s.setMe { s.me with loops := List.replicate 6 ⟨1, 128, 1⟩ }
     [mayIssue (.loop g (.own 1) 3) g s, s.opnd (.own 1) == some (BitVec.ofNat 64 (2 ^ 32 + 7)),
      fetchOf (exec (.loop g (.own 1) 3) s) == some (64, [7]), fetchOf (exec (.loop g (.own 2) 3) s) == some (256, []),
      mayIssue (.loop g (.own 1) 3) g full, trapped (exec (.loop g (.own 1) 3) full) == some (0x42, 0, 0),
      mayIssue (.halt g) g s, ((next (exec (.halt g) s)).map (fun t => (t.seqAt 0).haltAt)) == some (some 0),
      mayIssue .noOperation g s, goesOn (exec .noOperation s) .S,
      trapped (exec .fetchBeyondCode (s.setMe { s.me with queue := [(0, ⟨640, 0, true⟩)] })) == some (0x11, 0, 640)].all id) = true := by decide +kernel

/-- O10: a read of LOC, a masked write, a SEED of zero, RMODE 5, the routine store, and virtual time that never goes back. -/
theorem witness_SystemRegistersReadAndWrite :
    (let s := on .S [(⟨.s, 1⟩, 2 ^ 64 - 1), (⟨.s, 2⟩, 5), (⟨.s, 4⟩, 0x101)]
     let after (i : Instr) (t : State) (f : State → Nat) : Option Nat := (next (exec i t)).map f
     let w (n : BitVec 23) (r : BitVec 10) : Instr := .wrsr g n (.own r)
     [mayIssue (.rdsr g (.own 3) 8) g s, final (exec (.rdsr g (.own 3) 8) s) ⟨.s, 3⟩ == some 1000000,
      mayIssue (w 0 1) g s, s.opnd (.own 1) == some (BitVec.allOnes 64), after (w 0 1) s (fun t => bit t.me.collide) == some 1,
      after (w 3 4) s (fun t => t.me.conv.toNat) == some 0x100000101, mayIssue (w 3 2) g s, trapped (exec (w 3 2) s) == some (0x01, 0, 0),
      after (w 4 1) s (fun t => t.me.replay.toNat) == some 0xFFFFFFFFFFFC0, after (w 7 1) s (fun t => t.me.tvec.toNat) == some 0xFFFFFFFFFFFC0,
      after (w 8 1) s (fun t => t.me.gridTime.toNat) == some 0xFFFFFFFF, after (w 9 1) s (fun t => t.me.mrsIndex) == some 2047,
      mayIssue (.mrsData g (.own 2)) g s,
      after (.mrsData g (.own 2)) { s with seqs := s.seqs.map (fun e => (e.1, { e.2 with mrsIndex := 2047 })) }
        (fun t => t.me.mrsIndex + 10 * ((t.coreAt 0).store.look 0 2047).toNat) == some 50,
      mayIssue (.rdts g (.own 3)) g s, final (exec (.rdts g (.own 3)) { s with now := 7 }) ⟨.s, 3⟩ == some 7,
      final (exec (.rdts g (.own 3)) { (s.setMe { s.me with last := 9 }) with now := 7 }) ⟨.s, 3⟩ == some 9].all id) = true ∧
    (let s := (on .S [(⟨.s, 1⟩, 2 ^ 64 - 1)]).setMe { (on .S [(⟨.s, 1⟩, 2 ^ 64 - 1)]).me with task := { placeTask with vd := 0 } }
     mayIssue (.wrsr g 0x200 (.own 1)) g s = true ∧ (next (exec (.wrsr g 0x200 (.own 1)) s)).map (·.skew) = some 127) := by decide +kernel

/-- O11: a broadcast to a vector register, a lane of a common register to s, and lanes of a vector moved down and to a scalar. -/
theorem witness_CrossFileMoves :
    (let s := on .S [(⟨.s, 1⟩, 9), (⟨.c, 2⟩, 7 * 2 ^ 448)] (fun q => { q with queue := [(0, ⟨0, BitVec.ofNat 512 (2 ^ 22), true⟩)] })
     let v := on .V0 [(⟨.v0, 1⟩, lanes 64 [1, 2, 3])]
     [mayIssue (.xmov g (.file .v0 5) (.own 1) 0 true) g s, opndReg .S (.own 1) == some ⟨.s, 1⟩, (s.regIn ⟨.s, 1⟩).map BitVec.toNat == some 9,
      final (exec (.xmov g (.file .v0 5) (.own 1) 0 true) s) ⟨.v0, 5⟩ == some (rep 64 8 9),
      final (exec (.xmov g (.file .w 5) (.own 1) 0 false) s) ⟨.w, 5⟩ == some 9, mayIssue (.xmov g (.here (.own 3)) (.com 2) 7 false) g s,
      final (exec (.xmov g (.here (.own 3)) (.com 2) 7 false) s) ⟨.s, 3⟩ == some 7,
      mayIssue (.vxmov g (.file .s 3) (.own 1) 2) g v, (Act.ends (readRaw (.own 1)) v).isSome,
      final (exec (.vxmov g (.file .s 3) (.own 1) 2) v) ⟨.s, 3⟩ == some 3,
      final (exec (.vxmov g (.file .v1 3) (.own 1) 0) v) ⟨.v1, 3⟩ == some (lanes 64 [1, 2, 3])].all id) = true := by decide +kernel

/-! ### The vector slots (07_vector.md): O12 to O22 -/

/-- V0 with v1 and v2 given, v3 the old value of the destination, k1 a mask. -/
def vec (x y : Nat) (old : Nat := 0) (k : Nat := 0) : State := on .V0 [(⟨.v0, 1⟩, x), (⟨.v0, 2⟩, y), (⟨.v0, 3⟩, old), (⟨.k0, 1⟩, k)]

/-- `v3 := op v1, v2` may issue, its sources can be read, its lanes can be delivered, and it ends with a value in v3. -/
def vworks2 (mk : Guard → Opnd → Opnd → Opnd → Fmt → BitVec 4 → Instr) (t : Fmt) (x y want : Nat) : Bool :=
  let s := vec x y
  let i := mk g (.own 3) (.own 1) (.own 2) t 0
  mayIssue i g s && s.vec t (.own 1) == some (BitVec.ofNat 512 x, s) && s.vec t (.own 2) == some (BitVec.ofNat 512 y, s) &&
  (s.lanes i (.own 3) t 0 (fun _ => 0)).isSome && final (exec i s) ⟨.v0, 3⟩ == some want

/-- `v3 := op v1` may issue, its source can be read, its lanes can be delivered, and it ends with a value in v3. -/
def vworks1 (mk : Guard → Opnd → Opnd → Fmt → BitVec 4 → Instr) (t : Fmt) (x want : Nat) : Bool :=
  let s := vec x 0
  let i := mk g (.own 3) (.own 1) t 0
  mayIssue i g s && s.vec t (.own 1) == some (BitVec.ofNat 512 x, s) && (s.lanes i (.own 3) t 0 (fun _ => 0)).isSome &&
  final (exec i s) ⟨.v0, 3⟩ == some want

/-- O12: wraps, products, signed and unsigned limits, the most negative number. -/
theorem witness_VectorIntegerLanes :
    (vworks2 .vadd .b8 (lanes 8 [255, 1]) (lanes 8 [2, 2]) (lanes 8 [1, 3]) && vworks2 .vsub .b16 0 1 0xFFFF &&
     vworks2 .vmul .b32 (2 ^ 31 + 3) 2 6 && vworks2 .vmulh .s32 (2 ^ 32 - 1) 2 (2 ^ 32 - 1) && vworks2 .vmulh .b32 (2 ^ 32 - 1) 2 1 &&
     vworks2 .vmin .s8 255 1 255 && vworks2 .vmin .b8 255 1 1 && vworks2 .vmax .s8 255 1 1 && vworks2 .vmax .b8 255 1 255 &&
     vworks1 .vabs .s64 (2 ^ 63) (2 ^ 63) && vworks1 .vabs .s8 (lanes 8 [255, 3]) (lanes 8 [1, 3]) && vworks2 .vand .b64 12 10 8 &&
     vworks2 .vor .b64 12 10 14 && vworks2 .vxor .b64 12 10 6 && vworks2 .vandn .b64 12 10 4) = true := by decide +kernel

/-- O13: counts of the lane width and more, a pair shifted both ways, counts of bits. -/
theorem witness_VectorShiftsAndCounts :
    (vworks2 .vshl .b32 (lanes 32 [1, 1, 1]) (lanes 32 [31, 32, 0]) (lanes 32 [2 ^ 31, 0, 1]) && vworks2 .vshr .b32 (2 ^ 31) 31 1 &&
     vworks2 .vsra .s32 (lanes 32 [2 ^ 31, 2 ^ 31]) (lanes 32 [31, 99]) (lanes 32 [2 ^ 32 - 1, 2 ^ 32 - 1]) &&
     (let s := vec 0x12 0x34 4
      let i (r : Bool) : Instr := .vfsh g (.own 3) (.own 1) (.own 2) .b8 r
      mayIssue (i true) g s && (s.raw (.own 3)).isSome && final (exec (i true) s) ⟨.v0, 3⟩ == some 0x23 && final (exec (i false) s) ⟨.v0, 3⟩ == some 0x23 &&
      final (exec (i true) (vec 0x12 0x34 9)) ⟨.v0, 3⟩ == some 0x12 && final (exec (i false) (vec 0x12 0x34 9)) ⟨.v0, 3⟩ == some 0x34) &&
     vworks1 .vclz .b16 (lanes 16 [1, 0]) (lanes 16 [15, 16] + 2 ^ 32 * ofLanes 16 (List.replicate 30 16)) && vworks1 .vpopc .b16 0x0F0F 8) = true := by
  decide +kernel

/-- O14: masks of compares, a selection by bytes, and the k registers. -/
theorem witness_VectorComparesAndMasks :
    (let s := on .V0 [(⟨.v0, 1⟩, lanes 32 [1, 2 ^ 32 - 1]), (⟨.v0, 2⟩, lanes 32 [1, 1]), (⟨.v0, 4⟩, lanes 32 [0x7FC00000, 0x3F800000]),
       (⟨.k0, 1⟩, 0xC), (⟨.k0, 2⟩, 0xA)]
     let f0 (o : Host.Outcome State Fault Refusal) := final o ⟨.k0, 3⟩
     [mayIssue (.vcmp g 3 (.own 1) (.own 2) .s32 2) g s, (s.vec .s32 (.own 1)).isSome, (s.vec .s32 (.own 2)).isSome,
      f0 (exec (.vcmp g 3 (.own 1) (.own 2) .s32 2) s) == some 0xF0, f0 (exec (.vcmp g 3 (.own 1) (.own 2) .b32 2) s) == some 0xF0,
      mayIssue (.vfcmp g 3 (.own 4) (.own 4) .f32 0) g s, f0 (exec (.vfcmp g 3 (.own 4) (.own 4) .f32 0) s) == some 0xFFFFFFFFFFFFFFF0,
      mayIssue (.vsel g (.own 3) (.own 1) (.own 2) .b8 1) g s, s.maskIn 1 == some 0xC, final (exec (.vsel g (.own 3) (.own 1) (.own 2) .b8 1) s) ⟨.v0, 3⟩ ==
        some (lanes 8 [1, 0, 0, 0, 1, 0, 0, 0]),
      mayIssue (.kand g 3 1 2) g s, s.maskIn 2 == some 0xA, f0 (exec (.kand g 3 1 2) s) == some 8, mayIssue (.kor g 3 1 2) g s,
      f0 (exec (.kor g 3 1 2) s) == some 14, mayIssue (.kxor g 3 1 2) g s, f0 (exec (.kxor g 3 1 2) s) == some 6, mayIssue (.knot g 3 1) g s,
      f0 (exec (.knot g 3 1) s) == some (2 ^ 64 - 13), mayIssue (.kpop g (.own 3) 1) g s, final (exec (.kpop g (.own 3) 1) s) ⟨.v0, 3⟩ == some 2,
      mayIssue (.kfirst g (.own 3) 1) g s, final (exec (.kfirst g (.own 3) 1) s) ⟨.v0, 3⟩ == some 2,
      final (exec (.kfirst g (.own 3) 0) s) ⟨.v0, 3⟩ == some 64].all id) = true := by decide +kernel

/-- O15: each movement, at the ends of the lane numbers. -/
theorem witness_VectorLaneMovement :
    (let x := lanes 64 [1, 2, 3, 4, 5, 6, 7, 8]
     vworks1 (fun g d a t k => .vbcast g d a 7 t k) .b64 x (rep 64 8 8) && vworks1 (fun g d a t _ => .vext g d a 7 t) .b64 x 8 &&
     (let s := vec 9 0 x
      let i : Instr := .vins g (.own 3) (.own 1) 7 .b64
      mayIssue i g s && (s.raw (.own 3)).isSome && final (exec i s) ⟨.v0, 3⟩ == some (lanes 64 [1, 2, 3, 4, 5, 6, 7, 9])) &&
     vworks2 .vperm .b64 x (lanes 64 [7, 8, 0]) (lanes 64 [8, 0, 1, 1, 1, 1, 1, 1]) &&
     vworks1 (fun g d a t k => .vrot g d a 1 t k) .b64 x (lanes 64 [2, 3, 4, 5, 6, 7, 8, 1]) &&
     vworks1 (fun g d a t k => .vslide g d a 1 true t k) .b64 x (lanes 64 [2, 3, 4, 5, 6, 7, 8, 0]) &&
     vworks1 (fun g d a t k => .vslide g d a 7 false t k) .b64 x (lanes 64 [0, 0, 0, 0, 0, 0, 0, 1]) &&
     vworks1 (fun g d a t k => .vslide g d a 8 false t k) .b64 x 0 &&
     (let s := vec (lanes 16 [0x0180, 0xFF7F]) (lanes 16 [5])
      let i (w : Bool) : Instr := .vpack g (.own 3) (.own 1) (.own 2) .s16 w
      mayIssue (i true) g s && (s.lanes (i true) (.own 3) .s8 0 (fun _ => 0)).isSome &&
      final (exec (i true) s) ⟨.v0, 3⟩ == some (lanes 8 [0x80, 0x7F] + 5 * 2 ^ 256) &&
      final (exec (i false) s) ⟨.v0, 3⟩ == some (lanes 8 [0x7F, 0x80] + 5 * 2 ^ 256)) &&
     (let s := vec (0x80 + 0x7F * 2 ^ 256) 0
      let i (hi : Bool) : Instr := .vunpk g (.own 3) (.own 1) .s8 hi
      mayIssue (i true) g s && (s.lanes (i true) (.own 3) .s16 0 (fun _ => 0)).isSome && final (exec (i false) s) ⟨.v0, 3⟩ == some 0xFF80 &&
      final (exec (i true) s) ⟨.v0, 3⟩ == some 0x7F)) = true := by decide +kernel

/-- O16: groups of two and of eight lanes, inclusive and exclusive sums, a tree of f32 sums. -/
theorem witness_VectorGroupReductions :
    (let x := lanes 64 [1, 2, 3, 4, 5, 6, 7, 8]
     vworks1 (fun g d a t _ => .vred g d a 3 0 t) .b32 (lanes 32 [1, 2, 3, 4]) (lanes 32 [3, 3, 7, 7]) &&
     vworks1 (fun g d a t _ => .vred g d a 6 2 t) .b64 x (rep 64 8 8) && vworks1 (fun g d a t _ => .vred g d a 6 1 t) .b64 x (rep 64 8 1) &&
     vworks1 (fun g d a t _ => .vscan g d a 6 0 t) .b64 x (lanes 64 [1, 3, 6, 10, 15, 21, 28, 36]) &&
     vworks1 (fun g d a t _ => .vscan g d a 6 1 t) .b64 x (lanes 64 [0, 1, 3, 6, 10, 15, 21, 28]) &&
     vworks1 (fun g d a t _ => .vfred g d a 6 0 t) .f32 (rep 32 16 0x3F800000) (rep 32 16 0x41800000)) = true := by decide +kernel

/-- O17: sums, products and fused products of f32 lanes, a choice, signs. -/
theorem witness_VectorFloatingLanes :
    (let one := 0x3F800000
     let two := 0x40000000
     let three := 0x40400000
     let fused (i : Instr) (want : Nat) : Bool :=
       let s := vec two three one
       mayIssue i g s && (s.vec .f32 (.own 1)).isSome && (s.vec .f32 (.own 2)).isSome && (s.raw (.own 3)).isSome &&
       (s.rounded i (.own 3) .f32 0 (fun _ => (0, 0))).isSome && final (exec i s) ⟨.v0, 3⟩ == some want
     vworks2 .vfadd .f32 one two three && vworks2 .vfsub .f32 one two 0xBF800000 && vworks2 .vfmul .f32 two three 0x40C00000 &&
     fused (.vfma g (.own 3) (.own 1) (.own 2) .f32 0) 0x40E00000 && fused (.vfms g (.own 3) (.own 1) (.own 2) .f32 0) 0xC0A00000 &&
     vworks2 .vfmin .f32 one 0xBF800000 0xBF800000 && vworks2 .vfmax .f32 one 0xBF800000 one && vworks1 .vfabs .f32 0xBF800000 one &&
     vworks1 .vfneg .f32 one (lanes 32 (0xBF800000 :: List.replicate 15 0x80000000)) && vworks2 .vfsgn .f32 one 0x80000000 0xBF800000) = true := by decide +kernel

/-- O18: values of the reduced grid and conversions. -/
theorem witness_VectorApproximationsAndConversions :
    (vworks1 .vrcp .f32 (rep 32 16 0x40000000) (rep 32 16 0x3F000000) && vworks1 .vrsq .f32 (rep 32 16 0x40800000) (rep 32 16 0x3F000000) &&
     vworks1 .vexp2 .f32 0x3F800000 (lanes 32 (0x40000000 :: List.replicate 15 0x3F800000)) &&
     vworks1 .vlog2 .f32 (rep 32 16 0x40800000) (rep 32 16 0x40000000) && vworks1 .vicvt .s32 (2 ^ 32 - 1) 0xBF800000 &&
     (let s := vec 0xC0200000 0
      let i : Instr := .vfcvt g (.own 3) (.own 1) .s32 0
      mayIssue i g s && (s.vec .f32 (.own 1)).isSome && (s.rounded i (.own 3) .s32 0 (fun _ => (0, 0))).isSome &&
      final (exec i s) ⟨.v0, 3⟩ == some (2 ^ 32 - 2))) = true := by decide +kernel

/-- What holds of every value an option may have, by looking at the one it has. -/
theorem opt_all {α : Type} {o : Option α} {P : α → Prop} [DecidablePred P] (h : o.all (fun b => decide (P b)) = true) :
    ∀ b, o = some b → P b := fun b hb => by subst hb; simpa using h

/-- A stream descriptor with one dimension (Table 2.5). -/
def strm (base cnt stride fmt dir fin : Nat) (more : Nat := 0) : Nat :=
  base + cnt * 2 ^ 64 + stride * 2 ^ 128 + dir * 2 ^ 256 + fin * 2 ^ 264 + fmt * 2 ^ 270 + more

/-- A bound ring whose unit has moved the given entries. -/
def bound (d : Nat) (es : List Nat) : Ring :=
  { Ring.fresh d false with
    entries := es.map (fun x => ⟨BitVec.ofNat 512 x, 512, true, [], none, 0⟩), moved := es.length }

/-- A drain ring that nothing has been pushed into. -/
def drain (d : Nat) : Ring := Ring.fresh d false

/-- Rings 1 (fill, b32, 32 elements, two entries moved), 2 (drain, f32, 32 elements), 3 (fill, b8, nothing moved) and 4 (fill, b32,
exhausted) beside v1 and v2. -/
def ringy (x : Slot) (regs : List (Reg × Nat) := []) : State :=
  on x regs (fun q => { q with rings :=
    [(1, bound (strm 0x100 32 4 2 0 0) [lanes 32 (List.range 16), lanes 32 [7, 8, 9]]), (2, drain (strm 0x400 32 4 8 1 0)),
     (3, drain (strm 0x800 64 1 0 0 0)), (4, { drain (strm 0x900 16 4 2 0 0) with moved := 1 })] })

/-- A state with bytes of n each at addresses of location 0's core. -/
def withLocal (s : State) (xs : List (Nat × Nat × Nat)) : State :=
  xs.foldl (fun s e => s.setMem (s.mem.storeAll (localPhys s 0 e.1) (toBytes e.2.1 e.2.2))) s

/-- Whether the fabric holds, after a step that went on, packets of one requester to given physical offsets of the GDDR tier. -/
def sends (o : Host.Outcome State Fault Refusal) (offs : List Nat) : Bool :=
  match next o with | some t => t.net.map (fun p => physOff p.addr) == offs | none => false

/-- O19: a register under a full and under a partial mask, the byte at the top of the last lane, and a drain ring with room. -/
theorem witness_VectorResultsReachTheirDestination :
    ((∀ q, Opnd.own 3 ≠ .pop q) ∧ (vec 5 7 0 0xF).writeMask 32 1 = some 0xF ∧ (vec 5 7).writeMask 32 0 = some allBytes) ∧
    (Fmt.b64.width ∈ [8, 16, 32, 64] ∧ 63 < 64 ∧ (laneBytes 64 (2 ^ 56)).testBit 63 = true) ∧
    ((ringy .V0).ringFree 2 true (drain (strm 0x400 32 4 8 1 0)) ∧
      (ringy .V0).ringTakes 2 (drain (strm 0x400 32 4 8 1 0)) (512 / Fmt.f32.width * 32)) ∧
    final (exec (.vadd g (.own 3) (.own 1) (.own 2) .b32 1) (vec (lanes 32 [1, 1]) (lanes 32 [2, 2]) 0 0xF)) ⟨.v0, 3⟩ = some 3 := by
  refine ⟨⟨fun q h => ?_, by decide +kernel, by decide +kernel⟩, ⟨by decide, by decide, by decide +kernel⟩,
    ⟨⟨by decide +kernel, by decide +kernel, by decide +kernel⟩, opt_all (by decide +kernel), by decide +kernel⟩, by decide +kernel⟩
  exact Opnd.noConfusion h

/-- The entry of ring 2 once `v1 + v2` has been pushed, and the pushed value of a raw push. -/
theorem test_push :
    ((next (exec (.vfadd g (.pop 2) (.own 1) (.own 2) .f32 0)
      (ringy .V0 [(⟨.v0, 1⟩, 0x3F800000), (⟨.v0, 2⟩, 0x40000000)]))).bind (fun t => t.me.rings.find 2)).map
      (fun r => r.entries.map (fun e => (e.data.toNat, e.valid, e.closed))) = some [(0x40400000, 512, true)] := by decide +kernel

/-- O20: a pop and a peek of the next elements, a raw pop of the next entry, a ring with nothing filled, a ring at its end. -/
theorem witness_RingSourcesReadInOrder :
    (let s := ringy .V0
     let r := bound (strm 0x100 32 4 2 0 0) [lanes 32 (List.range 16), lanes 32 [7, 8, 9]]
     s.ringFree 1 false r ∧ ringTypeOk r .b32 = true ∧ r.has r.readPos (512 / Fmt.b32.width * r.width) ∧
     r.has (r.readPos / 512 * 512) 512) ∧
    (let s := ringy .V0
     let r := drain (strm 0x800 64 1 0 0 0)
     s.ringFree 3 false r ∧ ringTypeOk r .b32 = true ∧ (∀ b, r.streamBits = some b → r.readPos < b) ∧ r.fail = 0 ∧
     r.filled < min (r.readPos + 512 / Fmt.b32.width * r.width) 512 ∧ r.streamBits = some 512) ∧
    (let s := ringy .V0
     let r : Ring := { drain (strm 0x900 16 4 2 0 0) with moved := 1 }
     s.ringFree 4 false r ∧ ringTypeOk r .b32 = true ∧ r.streamBits = some 512 ∧ 512 ≤ r.readPos) := by
  refine ⟨⟨⟨by decide +kernel, by decide +kernel, by decide +kernel⟩, by decide +kernel, ⟨opt_all (by decide +kernel), by decide +kernel,
      by decide +kernel⟩, opt_all (by decide +kernel), by decide +kernel, by decide +kernel⟩, ⟨⟨by decide +kernel, by decide +kernel,
      by decide +kernel⟩, by decide +kernel, opt_all (by decide +kernel), by decide +kernel, by decide +kernel, by decide +kernel⟩,
    ⟨by decide +kernel, by decide +kernel, by decide +kernel⟩, by decide +kernel, by decide +kernel, by decide +kernel⟩

/-- The lanes of a pop, what stays, a stall and the trap at the end of the stream. -/
theorem test_pop :
    (let s := ringy .V0 [(⟨.v0, 1⟩, 1)]
     let i (q : Opnd) : Instr := .vadd g (.own 3) q (.own 1) .b32 0
     [final (exec (i (.pop 1)) s) ⟨.v0, 3⟩ == some (1 + lanes 32 (List.range 16)),
      ((next (exec (i (.pop 1)) s)).bind (fun t => t.me.rings.find 1)).map (fun r => r.entries.length) == some 1,
      ((next (exec (i (.peek 1)) s)).bind (fun t => t.me.rings.find 1)).map (fun r => r.entries.length) == some 2,
      stalls (exec (i (.pop 3)) s) .V0, trapped (exec (i (.pop 4)) s) == some (0x11, 1, 0),
      trapped (exec (i (.pop 2)) s) == some (0x01, 1, 0), trapped (exec (i (.pop 9)) s) == some (0x01, 1, 0)].all id) = true := by decide +kernel

/-- Drain queue 0 holds an entry that was forwarded, queue 1 one that a later bundle of M pushed. -/
def queued (x : Slot) : State := on x [] (fun q => { q with dqs := [(0, [⟨5, 0, 0, true, false, none, 7⟩]), (1, [⟨6, 9, 3, false, false, none, 8⟩])] })

/-- O21: an entry that must be found, one that need not be, and an empty queue that no push is owed to. -/
theorem witness_DrainQueuePops :
    (let s := queued .V0
     (dqKeep s.me (s.me.dqs.look [] 0)).find? (fun e => e.popped.isNone) = some ⟨5, 0, 0, true, false, none, 7⟩ ∧
     dqMust s.me s.cur.slot ⟨5, 0, 0, true, false, none, 7⟩ = true ∧
     (dqKeep s.me (s.me.dqs.look [] 1)).find? (fun e => e.popped.isNone) = some ⟨6, 9, 3, false, false, none, 8⟩ ∧
     dqMust s.me s.cur.slot ⟨6, 9, 3, false, false, none, 8⟩ = false ∧
     (∀ e ∈ dqKeep s.me (s.me.dqs.look [] 2), e.popped.isSome) ∧ dqOwed s 2 s.cur.slot = false ∧
     final (exec (.vor g (.own 3) (.dq 0) (.own 1) .b8 0) s) ⟨.v0, 3⟩ = some 5 ∧
     trapped (exec (.vor g (.own 3) (.dq 2) (.own 1) .b8 0) s) = some (0x21, 1, 2)) := by decide +kernel

/-! ### The transform slot (09_transform.md): O22, O23 -/

/-- X with t registers given. -/
def xf (regs : List (Nat × Nat)) : State := on .X (regs.map (fun p => (⟨.t, p.1⟩, p.2)))

/-- O22: sixteen lanes into part 2, the manual's scale of 128 and code 0x78, and back. -/
theorem witness_TransformConversions :
    (let s := xf [(1, 0x43FA0000), (2, 128), (3, rep 8 64 0xAA), (4, 0x78)]
     let cvt : Instr := .xcvt g (.own 3) (.own 1) 2 .e4m3 .f32
     let qnt : Instr := .xquant g (.own 3) (.own 1) (.own 2) .e4m3 0
     let deq : Instr := .xdeq g (.own 5) (.own 4) (.own 2) 0 .e4m3
     let max : Instr := .xamax g (.own 5) (.own 1) (.own 6) .e4m3
     [mayIssue cvt g s, (s.raw (.own 1)).isSome, (s.raw (.own 3)).isSome, (s.xres cvt (.own 3) 0 0).isSome,
      final (exec cvt s) ⟨.t, 3⟩ == some (rep 8 32 0xAA + 0x7F * 2 ^ 256 + rep 8 16 0xAA * 2 ^ 384),
      mayIssue qnt g s, (s.raw (.own 2)).isSome, (s.xres qnt (.own 3) 0 0).isSome,
      final (exec qnt s) ⟨.t, 3⟩ == some (0x78 + rep 8 48 0xAA * 2 ^ 128), mayIssue deq g s, (s.xres deq (.own 5) 0 0).isSome,
      final (exec deq s) ⟨.t, 5⟩ == some 0x44000000, mayIssue max g s, (s.xres max (.own 5) 0 0).isSome,
      final (exec max s) ⟨.t, 5⟩ == some (0x43FA0000 + 128 * 2 ^ 32)].all id) = true := by decide +kernel

/-- The manual's delta-bitpack chunk (values 100, 103, 104, 110, 111). -/
def chunkBytes : List Byte :=
  [5, 0, 9, 0, 0, 0, 0, 0, 0x64, 0, 0, 0, 2, 0x58, 0x0C, 0, 1, 0, 0, 0, 0, 0, 0, 0]

/-- Ring 5 holds the chunk at its read position, ring 6 takes b32 elements. -/
def expandy (bytes : List Byte) : State :=
  on .X [] (fun q => { q with rings := [(5, bound (strm 0x1000 64 1 0 0 0) [ofBytes bytes]), (6, drain (strm 0x400 32 4 2 1 0))] })

/-- O23: packing in the upper half, spreading, the manual's check value of nine digits, a transpose and the unit still occupied. -/
theorem witness_TransformBytesAndTranspose :
    (let s := xf [(1, lanes 8 [0x1A, 0x2B]), (3, rep 8 64 0xFF), (4, 0xBA * 2 ^ 256), (6, 0x393837363534333231), (7, 0xFFFFFFFF)]
     let pack : Instr := .xpack g (.own 3) (.own 1) 1 .e2m1
     let unpk : Instr := .xunpk g (.own 5) (.own 4) 1 .e2m1
     let crc : Instr := .xcrc g (.own 5) (.own 6) (.own 7) 8
     let tr := xf ((List.range 16).map (fun r => (r, lanes 32 [r, 100 + r])))
     let x : Instr := .xtr g 0 0 .b32
     [mayIssue pack g s, (s.raw (.own 1)).isSome, (s.raw (.own 3)).isSome, (s.xres pack (.own 3) 0 0).isSome,
      final (exec pack s) ⟨.t, 3⟩ == some (rep 8 32 0xFF + 0xBA * 2 ^ 256), mayIssue unpk g s, (s.raw (.own 4)).isSome,
      final (exec unpk s) ⟨.t, 5⟩ == some (lanes 8 [0xA, 0xB]), mayIssue crc g s, (s.raw (.own 7)).isSome,
      final (exec crc s) ⟨.t, 5⟩ == some 0x1CF96D7C, mayIssue x g tr, decide (tr.me.xtrFree ≤ stepOf tr.me .X),
      decide ((tr.seqAt (siblingOf 0)).status ≠ 1), (List.range 16).all (fun r => (tr.regIn ⟨.t, r⟩).isSome),
      final (exec x tr) ⟨.t, 0⟩ == some (lanes 32 (List.range 16)),
      final (exec x tr) ⟨.t, 1⟩ == some (lanes 32 ((List.range 16).map (100 + ·))),
      (let b := tr.setMe { tr.me with xtrFree := 16 }
       mayIssue x g b && decide (stepOf b.me .X < b.me.xtrFree) && trapped (exec x b) == some (0x01, 8, 0))].all id) = true := by
  decide +kernel

/-- O23, `xexp`: the hypotheses for a chunk that passes, and for one whose first width byte has a bit too many. -/
theorem witness_TransformBytesAndTranspose_expand :
    (let i : Instr := .xexp g 6 5 true .b32 false
     let bad := chunkBytes.set 12 0x22
     [chunkBytes, bad].all (fun bytes =>
       let s := expandy bytes
       let r := bound (strm 0x1000 64 1 0 0 0) [ofBytes bytes]
       let o := drain (strm 0x400 32 4 2 1 0)
       mayIssue i g s && s.me.rings.find 5 == some r && s.me.rings.find 6 == some o && !r.dir && o.dir && !ringBusy s.me 5 && !ringBusy s.me 6 &&
       (r.fmt == .b8 && r.comp == 0 && r.blk == 0 && !r.gather && o.comp == 0 && o.fmt == .b32) &&
       decide (64 + 64 * ceilDiv 9 8 = 192) && decide (r.filled = 512) && r.streamBits == some 512 && r.errFrom 0 192 == none &&
       decide (192 + r.readPos % 512 ≤ 512 * ringDepth s.me 5) && decide (ceilDiv (5 * 32) 512 ≤ ringDepth s.me 6) &&
       o.streamBits == some 1024 && decide (512 * (o.moved + (closePart o.entries).length + 1) ≤ 1024)) &&
     ((next (exec i (expandy chunkBytes))).bind (fun t => t.me.rings.find 6)).map (fun r => r.entries.map (·.data.toNat)) ==
       some [lanes 32 [100, 103, 104, 110, 111]] &&
     trapped (exec i (expandy bad)) == some (0x23, 8, 5)) = true := by decide +kernel

/-! ### The matrix unit (08_matrix.md): O24 to O26 -/

/-- M of location 0, with m registers, rings and the core given; tile 0 has 1.0 in its first element, 3 overflows and 2 NaNs counted. -/
def mat (ms : List (Nat × Nat)) (rs : Tab Ring := []) (lar : Tab Vec := []) (st : Tab Word := []) : State :=
  let s := on .M (ms.map (fun p => (⟨.m, p.1⟩, p.2))) (fun q => { q with rings := rs })
  s.setCore 0 { s.coreAt 0 with tile := [(0, 0x3F800000)], ovfc := [(0, 3)], nanc := [(0, 2)], larder := lar, store := st }

/-- What the drain queue n of location 0 holds. -/
def queueOf (o : Host.Outcome State Fault Refusal) (n : Nat) : Option (List Nat) :=
  (next o).map (fun t => (t.me.dqs.look [] n).map (fun e => e.data.toNat))

/-- The tile writes under way: tile and landing index. -/
def tilesOf (o : Host.Outcome State Fault Refusal) : Option (List (Nat × Nat)) := (next o).map (fun t => t.me.tiles.map (fun w => (w.acc, w.li)))

/-- O24: each operation may issue, its tile is free and its queue has room. -/
theorem witness_MatrixTileOperations :
    (let s := mat [(1, 7)]
     ([.mclr g 0, .mpar g 1 9 false, .mpar g 1 9 true, .mcall g 2047, .mcntRd g 3 0, .mcntSnap g 3 0, .mcntClr g 0] : List Instr).all (fun i => mayIssue i g s) = true ∧
     scoreboarded s.landed.me 0 = false ∧ s.landed.dqReady 3 1 ∧ (s.regIn ⟨.m, 1⟩).map BitVec.toNat = some 7 ∧
     tilesOf (exec (.mclr g 0) s) = some [(0, latency s.me 14)] ∧ final (exec (.mpar g 1 9 false) s) ⟨.m, 1⟩ = some 9 ∧
     final (exec (.mpar g 1 9 true) s) ⟨.m, 1⟩ = some (9 * 2 ^ 32 + 7) ∧
     ((next (exec (.mcall g 2047) s)).bind (fun t => t.me.routine)).map (·.word) = some 2047 ∧
     s.me.routine = none ∧ ([.mloop g 1 0 false, .mend g, .mendF g, .mloop ⟨0, false⟩ 1 0 false] : List Instr).all (fun i => !heldBack i s) = true ∧
     trapped (exec (.mloop ⟨0, false⟩ 1 0 false) s) = some (0x01, 3, 0) ∧ trapped (exec (.mloop g 1 0 false) s) = some (0x01, 3, 0) ∧ trapped (exec (.mend g) s) = some (0x01, 3, 0) ∧
     trapped (exec (.mendF g) s) = some (0x01, 3, 0) ∧ queueOf (exec (.mcntRd g 3 0) s) 3 = some [0x20003] ∧
     queueOf (exec (.mcntSnap g 3 0) s) 3 = some [0x20003] ∧
     (next (exec (.mcntSnap g 3 0) s)).map (fun t => (t.coreAt 0).ovfc.look 0 0 + (t.coreAt 0).nanc.look 0 0) = some 0 ∧
     (next (exec (.mcntClr g 0) s)).map (fun t => (t.coreAt 0).ovfc.look 0 0 + (t.coreAt 0).nanc.look 0 0) = some 0) := by
  unfold State.dqReady
  decide +kernel

/-- Ring 2 of 128 e4m3 ones, all of them moved, unscaled or in blocks of 16 along dimension 1. -/
def ones (blk : Nat) : Ring := bound (strm 0x1000 128 1 11 0 0 (2 ^ 80 * (if blk = 0 then 0 else 16) + 128 * 2 ^ 160 + 2 ^ 268 * (if blk = 0 then 0 else 1) +
  blk * 2 ^ 275 + (if blk = 0 then 0 else 1) * 2 ^ 277)) [rep 8 64 0x38, rep 8 64 0x38]

/-- A slab of one row whose first element is 1.0: header, four scale lines where it is scaled, the row's masks and element. -/
def slab (blk : Nat) : Tab Vec :=
  if blk = 0 then [(0, BitVec.ofNat 512 (11 + 1 * 2 ^ 5 + 2 * 2 ^ 64)), (1, BitVec.ofNat 512 (1 + 0x38 * 2 ^ 64))]
  else [(0, BitVec.ofNat 512 (11 + 1 * 2 ^ 5 + blk * 2 ^ 12 + 1 * 2 ^ 14 + 16 * 2 ^ 32 + 6 * 2 ^ 64)), (5, BitVec.ofNat 512 (1 + 0x38 * 2 ^ 64))]

/-- O25: what `mmac` needs (an unscaled slab of two lines), and `mmacs` (a scaled one of six, a run of 16 at 0). -/
theorem witness_MatrixProducts :
    (let s := mat [] [(2, ones 0)] (slab 0)
     mayIssue (.mmac g 0 2 .e4m3 .e4m3 1 1 true) g s = true ∧ scoreboarded s.landed.me 0 = false ∧ s.landed.regIn ⟨.m, 1⟩ = some 0 ∧
     s.landed.arrayTakes 2 (ones 0) .e4m3 .e4m3 1 0 0 false ∧ final (exec (.mmac g 0 2 .e4m3 .e4m3 1 1 true) s) ⟨.m, 1⟩ = some 2 ∧
     tilesOf (exec (.mmac g 0 2 .e4m3 .e4m3 1 1 true) s) = some [(0, latency s.me 14)]) ∧
    (let s := mat [(3, 16)] [(2, ones 1)] (slab 1)
     mayIssue (.mmacs g 0 2 .e4m3 .e4m3 1 1 3 true) g s = true ∧ scoreboarded s.landed.me 0 = false ∧
     s.landed.regIn ⟨.m, 3⟩ = some 16 ∧ s.landed.arrayTakes 2 (ones 1) .e4m3 .e4m3 1 0 16 true ∧
     final (exec (.mmacs g 0 2 .e4m3 .e4m3 1 1 3 true) s) ⟨.m, 1⟩ = some 6 ∧
     final (exec (.mmacs g 0 2 .e4m3 .e4m3 1 1 3 true) s) ⟨.m, 3⟩ = some (16 + 2 ^ 16)) := by
  exact ⟨⟨by decide +kernel, by decide +kernel, by decide +kernel,
    ⟨by decide +kernel, ⟨by decide +kernel, by decide +kernel, by decide +kernel⟩, by decide +kernel, by decide +kernel, by decide +kernel, by decide +kernel, by decide +kernel, by decide +kernel, ⟨opt_all (by decide +kernel), by decide +kernel, by decide +kernel⟩, by decide +kernel⟩,
    by decide +kernel, by decide +kernel⟩, by decide +kernel, by decide +kernel, by decide +kernel,
    ⟨by decide +kernel, ⟨by decide +kernel, by decide +kernel, by decide +kernel⟩, by decide +kernel, by decide +kernel, by decide +kernel, by decide +kernel, by decide +kernel, by decide +kernel, ⟨opt_all (by decide +kernel), by decide +kernel, by decide +kernel⟩, by decide +kernel⟩,
    by decide +kernel, by decide +kernel⟩

/-- One element over its groups: 1.0 + 1.5 × 2 = 4.0, an infinity counted as it arises (R149). -/
theorem test_element :
    elementUpdate 0x3F800000 [decodeNum .f32 0x40400000] = (0x40800000, 0, 0) ∧
    elementUpdate 0x7F7FFFFF [decodeNum .f32 0x7F7FFFFF] = (0x7F800000, 0, 1) := by decide +kernel

/-- Ring 5 of 256 e4m3 ones, all moved, and ring 6 with nothing moved. -/
def rowOnes : Ring := bound (strm 0x1000 256 1 11 0 0) (List.replicate 4 (rep 8 64 0x38))

/-- A fill of one row that has its slab written, two lines, and whose `mlar` waits for it. -/
def doneFill : Fill := ⟨5, .e4m3, 1, 0, 0, 256, 0, 0, 0, 0, 6, some 2, some (0, false)⟩

/-- O26: a drain of one row in e4m3, a fill in each form of ADV, the end of an exact one, and a routine word. -/
theorem witness_MatrixDrainsAndFills :
    (let s := mat []
     let i : Instr := .mdrain g 0 0 0 0 .e4m3 true
     mayIssue i g s = true ∧ scoreboarded s.landed.me 0 = false ∧ s.landed.dqReady 0 (ceilDiv ((0 + 1) * 256 * 8) 512) ∧
     queueOf (exec i s) 0 = some [0x38, 0, 0, 0]) ∧
    (let s := mat [] [(5, rowOnes)]
     mayIssue (.mlar g 5 1 1 0) g s = true ∧ mayIssue (.mlar g 5 1 1 1) g s = true ∧ mayIssue (.mlar g 5 1 1 2) g s = true ∧
     (∀ f ∈ s.me.fills, f.wait ≠ some (s.here, s.me.frame.isSome)) ∧ s.ringFree 5 false rowOnes ∧
     (∃ c, rowOnes.fmt.arrayClass = some c ∧ 1 ≤ c.slab) ∧ rowOnes.blk = 0 ∧ s.regIn ⟨.m, 1⟩ = some 0 ∧ 0 < larderWindow s.me ∧
     0 + slabWorst 0 1 8 ≤ larderWindow s.me ∧ rowOnes.readPos + 256 * 1 * 8 ≤ rowOnes.total * 8 ∧
     rowOnes.has rowOnes.readPos (min (256 * 1 * 8) (512 - rowOnes.readPos % 512)) ∧
     final (exec (.mlar g 5 1 1 1) s) ⟨.m, 1⟩ = some (1 + ceilDiv (256 + 256 * 8) 512) ∧ goesOn (exec (.mlar g 5 1 1 0) s) .M = true ∧
     stalls (exec (.mlar g 5 1 1 2) s) .M = true) ∧
    (let s := (mat [] [(5, rowOnes)]).setMe { (mat [] [(5, rowOnes)]).me with fills := [doneFill] }
     mayIssue (.mlar g 5 1 1 2) g s = true ∧ s.me.fills.find? (fun f => f.wait == some (s.here, s.me.frame.isSome)) = some doneFill ∧
     final (exec (.mlar g 5 1 1 2) s) ⟨.m, 1⟩ = some 2) ∧
    (let s := (mat [] [] [] [(0, 0x202F)]).setMe { (mat [] [] [] [(0, 0x202F)]).me with routine := some ⟨0, [], 0⟩ }
     s.bundle.bits.present .M = false ∧ routineSkip s 0 0 (seeM s 0) 2048 ⟨0, [], 0⟩ = ⟨0, [], 0⟩ ∧
     (storeWord s 0 0 0).toNat / 2 ^ 63 = 0 ∧ routineOp s 0 0 0 (seeM s 0) = some (.mclr g 2) ∧
     routineNext ⟨0, [], 0⟩ (.mclr g 2) true (seeM s 0) = .ok (some ⟨1, [], 0⟩) ∧ mayIssue (.mclr g 2) (guardOfM (.mclr g 2)) s = true ∧
     (Act.ends (actOfM (.mclr g 2)) s).isSome = true ∧ tilesOf (exec .routineWordIssue s) = some [(2, latency s.me 14)] ∧
     (next (exec .routineWordIssue s)).map (fun t => t.me.routine) = some (some ⟨1, [], 0⟩)) := by
  unfold State.dqReady State.ringFree
  refine ⟨by decide +kernel, ⟨by decide +kernel, by decide +kernel, by decide +kernel, by decide +kernel, by decide +kernel,
    ⟨.eight, by decide +kernel, by decide⟩, by decide +kernel, by decide +kernel, by decide +kernel, by decide +kernel, by decide +kernel,
    ⟨opt_all (by decide +kernel), by decide +kernel, by decide +kernel⟩, by decide +kernel, by decide +kernel, by decide +kernel⟩,
    by decide +kernel, by decide +kernel⟩

/-! ### Loads, stores, atomics, counters and sync words (05, 14, 15): O27 to O30 -/

/-- O27: a signed halfword of the local store, a slice bank, two lines of device memory, a misaligned address, a hole, the last byte of
the local-store window. -/
theorem witness_LoadsComplete :
    (let s := withLocal (on .L [(⟨.b, 1⟩, 0x102), (⟨.b, 2⟩, 0), (⟨.b, 3⟩, 0x101), (⟨.b, 4⟩, 0x5FFFFF), (⟨.b, 5⟩, 2 ^ 32 + 0x20), (⟨.b, 6⟩, 0x600000),
       (⟨.b, 7⟩, 0x13FFFFF8), (⟨.b, 8⟩, 0x100)]) [(0x102, 2, 0x8001), (0x5FFFFF, 1, 9)]
     let s := s.setVd 1 { s.vdAt 1 with masks := [(0, 2 ^ 32 - 1)] }
     let ld (a : BitVec 10) (t : Fmt) : Instr := .ld g (.here (.own 3)) (.own a) (.own 2) 0 t
     let vl (a : BitVec 10) : Instr := .vld g (.file .v0 3) (.own a) (.own 2) 0
     let vu (a : BitVec 10) : Instr := .vldu g (.file .v0 3) (.own a) (.own 2) 0
     [mayIssue (ld 1 .s16) g s, (s.opnd (.own 1)) == some 0x102, (s.opnd (.own 2)) == some 0, windowOf 0x102 2 == some 11, s.canRead 0x102 2,
      final (exec (ld 1 .s16) s) ⟨.b, 3⟩ == some (2 ^ 64 - 2 ^ 15 + 1), final (exec (ld 1 .b16) s) ⟨.b, 3⟩ == some 0x8001,
      windowOf 0x5FFFFF 1 == some 11, final (exec (ld 4 .b8) s) ⟨.b, 3⟩ == some 9, windowOf 0x600000 8 == none,
      trapped (exec (ld 6 .b64) s) == some (0x11, 4, 0x600000), trapped (exec (ld 3 .b16) s) == some (0x11, 4, 0x101),
      windowOf 0x13FFFFF8 8 == some 12, s.canRead 0x13FFFFF8 8, final (exec (ld 7 .b64) s) ⟨.b, 3⟩ == some 0,
      windowOf (2 ^ 32 + 0x20) 64 == some 13, (s.homes false (lineAccesses (2 ^ 32 + 0x20) 64)).isSome, s.freeEntry == some 0,
      mayIssue (vu 5) g s, sends (exec (vu 5) s) [0x20, 0x40], goesOn (exec (vu 5) s) .L, trapped (exec (vl 5) s) == some (0x11, 4, 2 ^ 32 + 0x20),
      mayIssue (vl 8) g s, final (exec (vl 8) s) ⟨.v0, 3⟩ == some (0x8001 * 2 ^ 16), mayIssue (.pf g (.own 6) (.own 2)) g s,
      (next (exec (.pf g (.own 6) (.own 2)) s)).map (fun t => (t.mem == s.mem, t.net)) == some (true, [])].all id) = true := by decide +kernel

/-- O28: a word in the local store, a vector of which two bytes are stored, one in device memory, a misaligned one, a hole, no byte. -/
theorem witness_StoresComplete :
    (let s := on .W [(⟨.w, 1⟩, 0x104), (⟨.w, 2⟩, 0), (⟨.w, 3⟩, 0x11223344), (⟨.w, 4⟩, 2 ^ 32 + 0x40), (⟨.w, 5⟩, 0x600000), (⟨.w, 6⟩, 0x140), (⟨.k1, 1⟩, 0x8001),
       (⟨.w, 7⟩, 0x5FFFFF), (⟨.k0, 2⟩, 3), (⟨.k0, 4⟩, 1), (⟨.c, 9⟩, lanes 8 (List.range 64))]
       (fun q => { q with queue := [(0, ⟨0, BitVec.ofNat 512 (6 * 2 ^ 22), true⟩)] })
     let st (a : BitVec 10) (t : Fmt) : Instr := .st g (.own 3) (.own a) (.own 2) 0 t
     let vs (a : BitVec 10) : Instr := .vst g (.com 9) (.own a) (.own 2) 0
     let vm (a : BitVec 10) (k : BitVec 4) (v1 : Bool) : Instr := .vstm g (.com 9) (.own a) k v1 0
     let kept (o : Host.Outcome State Fault Refusal) (a n : Nat) : Option Nat := (next o).map (fun t => localAt t 0 a n)
     [mayIssue (st 1 .b32) g s, s.opnd (.own 3) == some 0x11223344, windowOf 0x104 4 == some 11, s.canWrite 0x104 4 15,
      kept (exec (st 1 .b32) s) 0x100 16 == some (0x11223344 * 2 ^ 32), kept (exec (st 1 .b16) s) 0x100 16 == some (0x3344 * 2 ^ 32),
      trapped (exec (st 1 .b64) s) == some (0x11, 5, 0x104), trapped (exec (st 5 .b64) s) == some (0x11, 5, 0x600000),
      kept (exec (st 7 .b8) s) 0x5FFFFF 1 == some 0x44, (s.homes true (lineAccesses (2 ^ 32 + 0x40) 4)).isSome, s.freeEntry == some 0,
      sends (exec (st 4 .b32) s) [0x40], mayIssue (vs 6) g s, (s.raw (.com 9)).isSome, kept (exec (vs 6) s) 0x140 64 == some (lanes 8 (List.range 64)),
      trapped (exec (vs 1) s) == some (0x11, 5, 0x104), mayIssue (vm 1 1 true) g s, (s.regIn ⟨.k1, 1⟩).map BitVec.toNat == some 0x8001,
      maskedWindow 0x104 0x8001 == some 11, kept (exec (vm 1 1 true) s) 0x100 24 == some (15 * 2 ^ (8 * 19)), maskedWindow 0x5FFFFF 3 == none,
      trapped (exec (vm 7 2 false) s) == some (0x11, 5, 0x5FFFFF), maskedWindow 0x5FFFFF 1 == some 11, goesOn (exec (vm 7 4 false) s) .W,
      goesOn (exec (vm 5 0 false) s) .W].all id) = true := by decide +kernel

/-- O29: the old value and the new one of each atomic; a compare that fails, the wrap of `aincb`, an f32 sum with its sticky bit, NR,
device memory, a misaligned address. -/
theorem witness_AtomicsComplete :
    (let s := withLocal (on .W [(⟨.w, 1⟩, 0x100), (⟨.w, 2⟩, 3), (⟨.w, 3⟩, 5), (⟨.w, 4⟩, 2 ^ 32 + 8), (⟨.w, 5⟩, 0x102), (⟨.w, 6⟩, 9)]) [(0x100, 8, 5)]
     let tries (i : Instr) (new : Nat) : Bool :=
       mayIssue i g s && final (exec i s) ⟨.w, 3⟩ == some 5 && (next (exec i s)).map (fun t => localAt t 0 0x100 8) == some new
     [s.opnd (.own 1) == some 0x100, s.opnd (.own 2) == some 3, windowOf 0x100 8 == some 11, s.canRead 0x100 8, s.orderOpen 0 (s.scope 0),
      s.orderOpen 3 (s.scope 0), (s.regIn ⟨.w, 3⟩).map BitVec.toNat == some 5,
      tries (.aadd g 3 (.own 1) (.own 2) false 3 0 .b64) 8, tries (.amin g 3 (.own 1) (.own 2) false 0 0 .s64) 3,
      tries (.amax g 3 (.own 1) (.own 2) false 0 0 .b64) 5, tries (.alog g 3 (.own 1) (.own 2) false 0 0 0 .b64) 1,
      tries (.alog g 3 (.own 1) (.own 2) false 1 0 0 .b64) 7, tries (.alog g 3 (.own 1) (.own 2) false 2 0 0 .b64) 6,
      tries (.aswp g 3 (.own 1) (.own 2) false 0 0 .b64) 3, tries (.acas g 3 (.own 1) (.own 2) 0 0 .b64) 3,
      (next (exec (.acas g 6 (.own 1) (.own 2) 0 0 .b64) s)).map (fun t => localAt t 0 0x100 8) == some 5,
      tries (.aincb g 3 (.own 1) (.own 6) false 0 0 .b64) 6, tries (.aincb g 3 (.own 1) (.own 2) false 0 0 .b64) 5,
      (next (exec (.aadd g 0 (.own 1) (.own 2) true 0 0 .b64) s)).map (fun t => (localAt t 0 0x100 8, t.me.pend.length)) == some (8, 0),
      trapped (exec (.aadd g 3 (.own 5) (.own 2) false 0 0 .b32) s) == some (0x11, 5, 0x102),
      s.home (2 ^ 32 + 8) true false == s.home (2 ^ 32 + 8) false false, (s.home (2 ^ 32 + 8) true false).isSome, s.freeEntry == some 0,
      sends (exec (.aadd g 3 (.own 4) (.own 2) false 2 0 .b64) s) [8],
      (let f := withLocal (on .W [(⟨.w, 1⟩, 0x100), (⟨.w, 2⟩, 0x7F7FFFFF)]) [(0x100, 4, 0x7F7FFFFF)]
       (next (exec (.aadd g 3 (.own 1) (.own 2) false 0 0 .f32) f)).map (fun t => (localAt t 0 0x100 4, t.me.conv.toNat % 2 ^ 16 != 0))
         == some (0x7F800000, true))].all id) = true := by decide +kernel

/-- A sync word: target, count, generation, flags (Table 14.5). -/
def sync (target count gen flags : Nat) : Nat := target + count * 2 ^ 32 + gen * 2 ^ 64 + flags * 2 ^ 96

/-- O30: the manual's sixteen ids (3, 3, 7 and padding from base 16), two ids of a register, a counter too far, a snapshot, an armed
word, generations on both sides of the wait, a word in error, a fence with nothing under way and a synchronised one after a load under way. -/
theorem witness_CountersSyncWordsAndFences :
    (let pad := 0xFFFFFFFF
     let s := on .W [(⟨.w, 1⟩, 16), (⟨.w, 2⟩, 3 + pad * 2 ^ 32), (⟨.w, 3⟩, 1022), (⟨.w, 4⟩, 0x5FFFC0), (⟨.w, 5⟩, 1), (⟨.c, 5⟩, lanes 32 ([3, 3, 7] ++ List.replicate 13 pad))]
       (fun q => { q with queue := [(0, ⟨0, BitVec.ofNat 512 (6 * 2 ^ 22), true⟩)] })
     let ctr (o : Host.Outcome State Fault Refusal) (n : Nat) : Option Nat := (next o).map (fun t => (t.quadAt 0).ctr.look 0 n)
     let c := s.setQuad 0 { s.quadAt 0 with ctr := [(15, 9), (19, 2), (23, 1), (32, 4)] }
     let snap : Instr := .asnap g 6 (.own 4) (.own 5) 0
     [mayIssue (.rcnt g (.own 1) (.com 5)) g s, s.opnd (.own 1) == some 16, (s.raw (.com 5)).isSome, ctr (exec (.rcnt g (.own 1) (.com 5)) s) 19 == some 2,
      ctr (exec (.rcnt g (.own 1) (.com 5)) s) 23 == some 1, mayIssue (.rcnt g (.own 1) (.own 2)) g s, ctr (exec (.rcnt g (.own 1) (.own 2)) s) 19 == some 1,
      trapped (exec (.rcnt g (.own 3) (.own 2)) s) == some (0x11, 5, 0), trapped (exec (.rcnt g (.own 3) (.com 5)) s) == some (0x11, 5, 0),
      mayIssue snap g c, c.opnd (.own 4) == some 0x5FFFC0, c.opnd (.own 5) == some 1, decide (0x5FFFC0 + 64 ≤ Config.localBytes),
      final (exec snap c) ⟨.w, 6⟩ == some 3, ctr (exec snap c) 19 == some 0, ctr (exec snap c) 15 == some 9, ctr (exec snap c) 32 == some 4,
      (next (exec snap c)).map (fun t => localAt t 0 (0x5FFFC0 + 12) 4) == some 2].all id) = true ∧
    (let s := withLocal (on .Y [(⟨.y, 1⟩, 0x800), (⟨.y, 2⟩, 64), (⟨.y, 3⟩, 5), (⟨.y, 4⟩, 6), (⟨.y, 5⟩, 2 ^ 20), (⟨.y, 6⟩, 0x810), (⟨.y, 7⟩, 0x808), (⟨.y, 8⟩, 0xFFFF0)])
       [(0x800, 16, sync 8 4 6 2), (0x810, 16, sync 0 0 6 16)]
     let w (a y : BitVec 5) : Instr := .swait g a y
     [mayIssue (.sarm g 1 2) g s, (s.regIn ⟨.y, 1⟩).map BitVec.toNat == some 0x800,
      (next (exec (.sarm g 1 2) s)).map (fun t => localAt t 0 0x800 16) == some (sync 64 0 6 0), trapped (exec (.sarm g 5 2) s) == some (0x11, 7, 2 ^ 20),
      trapped (exec (.sarm g 7 2) s) == some (0x11, 7, 0x808), goesOn (exec (.sarm g 8 2) s) .Y, mayIssue (w 1 3) g s, final (exec (w 1 3) s) ⟨.y, 3⟩ == some 6,
      stalls (exec (w 1 4) s) .Y, trapped (exec (w 6 3) s) == some (0x52, 7, 0x810), mayIssue (.fence g 5 0xFFFF) g s, goesOn (exec (.fence g 5 0xFFFF) s) .Y].all id) = true ∧
    (let l := on .L [(⟨.b, 1⟩, 2 ^ 32)]
     match next (exec (.ld g (.here (.own 3)) (.own 1) (.own 2) 5 .b64) l) with
     | some t =>
       let y := { t.setSeq 0 { t.me with steps := t.me.steps.put 7 1, lastSync := [(7, 2)] } with cur := ⟨0, .Y⟩ }
       fenceWaits y 0 .Y 5 0x20 && !fenceWaits y 0 .Y 5 0x10 && (next (exec (.fence g 5 0x20) y)).map (fun t => stepOf t.me .Y) == some 1 &&
       (next (exec (.fence g 5 0x10) y)).map (fun t => stepOf t.me .Y) == some 2
     | none => false) = true := by decide +kernel

/-! ### Remote memory and tokens (18_remote.md): O31, O32 -/

/-- The state with the token of device 1 for the region at 4 GiB as given. -/
def withToken (s : State) (t : Token) : State := s.setToken 1 (2 ^ 32) t

/-- The token of that region after a step. -/
def tokenOf (o : Host.Outcome State Fault Refusal) : Option Token := (next o).map (fun t => t.tokenAt 1 (2 ^ 32))

/-- O31: the least address that a remote access may have and the one before it, one that is not aligned, a cached access with and
without its token, the compare and swap. -/
theorem witness_RemoteAccessesComplete :
    (let regs : List (Reg × Nat) := [(⟨.b, 1⟩, 2 ^ 32), (⟨.b, 2⟩, 2 ^ 32 - 8), (⟨.b, 4⟩, 2 ^ 32 + 4), (⟨.w, 1⟩, 2 ^ 32), (⟨.w, 2⟩, 2 ^ 32 - 8), (⟨.w, 3⟩, 7), (⟨.w, 5⟩, 9)]
     let l := on .L regs
     let w := on .W regs
     let held : Token := { Token.reset with holder := some 0 }
     let ldr (a : BitVec 10) (ca : Bool) : Instr := .ldr g (.here (.own 3)) (.own a) ca 63 0 .b64
     let str (a : BitVec 10) (ca : Bool) : Instr := .str g (.own 3) (.own a) ca 0 .b64
     let at7 (a : BitVec 10) : Instr := .ratom g 5 (.own a) 3 7 false 2 0 .b64
     let waits (o : Host.Outcome State Fault Refusal) : Option (List (Option Reg × Bool × Nat)) := (next o).map (fun t => t.me.pend.map (fun e => (e.dst, e.poison, e.li)))
     [mayIssue (ldr 1 false) g l, l.opnd (.own 1) == some (BitVec.ofNat 64 (2 ^ 32)), l.home (2 ^ 32) false true == l.home (2 ^ 32) true true,
      (l.home (2 ^ 32) false true).isSome, l.freeEntry == some 0, sends (exec (ldr 1 false) l) [0], waits (exec (ldr 1 false) l) == some [(some ⟨.b, 3⟩, true, 1024)],
      trapped (exec (ldr 2 false) l) == some (0x11, 4, 2 ^ 32 - 8), trapped (exec (ldr 4 false) l) == some (0x11, 4, 2 ^ 32 + 4), !l.holdsToken (2 ^ 32),
      trapped (exec (ldr 1 true) l) == some (0x12, 4, 2 ^ 32), (withToken l held).holdsToken (2 ^ 32), goesOn (exec (ldr 1 true) (withToken l held)) .L,
      mayIssue (str 1 false) g w, w.opnd (.own 3) == some 7, sends (exec (str 1 false) w) [0], trapped (exec (str 2 false) w) == some (0x11, 5, 2 ^ 32 - 8),
      trapped (exec (str 1 true) w) == some (0x12, 5, 2 ^ 32), goesOn (exec (str 1 true) (withToken w held)) .W,
      trapped (exec (str 1 true) (withToken w { held with reached := true })) == some (0x12, 5, 2 ^ 32), mayIssue (at7 1) g w,
      (w.regIn ⟨.w, 5⟩).map BitVec.toNat == some 9, w.orderOpen 2 (w.scope 0), trapped (exec (at7 2) w) == some (0x11, 5, 2 ^ 32 - 8),
      (next (exec (at7 1) w)).map (fun t => t.net.map (·.kind)) == some [.atom 7 false 8 7 9 false], waits (exec (at7 1) w) == some [(some ⟨.w, 5⟩, false, 1)]].all id) = true ∧
    remoteOk (2 ^ 32) 8 ∧ ¬remoteOk (2 ^ 32 - 8) 8 ∧ ¬remoteOk (2 ^ 32 + 4) 8 := by
  unfold remoteOk
  decide +kernel

/-- O32: a token held, a cold cache, a request made and standing, a return with nothing under way and of a token not held; the home's
grant to the first of two dies, a recall, the end of the minimum hold at its last nanosecond. -/
theorem witness_TokensMove :
    (let s := on .C [(⟨.e, 1⟩, 2 ^ 32)]
     let warm := s.setVd 1 { s.vdAt 1 with rcache := 1 }
     let held : Token := { Token.reset with holder := some 0 }
     let acq : Instr := .tacq g 2 1
     [mayIssue acq g s, (s.regIn ⟨.e, 1⟩).map BitVec.toNat == some (2 ^ 32), regionWhole s 1 (2 ^ 32), s.myVd == 1, (s.vdAt 1).rcache == 0,
      final (exec acq (withToken s held)) ⟨.e, 2⟩ == some 1, final (exec acq s) ⟨.e, 2⟩ == some 0, framesTaken warm 1 0 == 0, stalls (exec acq warm) .C,
      (tokenOf (exec acq warm)).map (·.asks) == some [0], mayIssue acq g (withToken warm { Token.reset with asks := [0] }),
      stalls (exec acq (withToken warm { Token.reset with asks := [0] })) .C, mayIssue (.trel g 1) g s, goesOn (exec (.trel g 1) s) .C,
      !cachedPending s 1 (2 ^ 32), (tokenOf (exec (.trel g 1) (withToken s { held with asks := [3] }))) == some { Token.reset with asks := [3] }].all id) = true ∧
    (let s := State.reset
     let t := withToken s { Token.reset with asks := [3, 4] }
     tokenOf (exec (.tacqRequest 1 2048) t) = some { Token.reset with asks := [3, 4], granted := true } ∧
     tokenOf (exec (.tacqRequest 1 2048) (withToken s { Token.reset with asks := [3], holder := some 3 })) = some { Token.reset with holder := some 3 } ∧
     tokenOf (exec (.tacqRequest 1 2048) (withToken s { Token.reset with asks := [3], holder := some 5 })) =
       some { Token.reset with asks := [3], holder := some 5, recalled := true } ∧
     tokenOf (exec (.tokenGrant 1 2048) { withToken s { Token.reset with asks := [3, 4], granted := true } with now := 5 }) =
       some { Token.reset with holder := some 3, asks := [4], held := some 5, frame := 3 * 2 ^ 43 } ∧
     tokenOf (exec (.tokenHoldExpiry 1 2048) { withToken s { Token.reset with holder := some 3, held := some 5 } with now := 1005 }) =
       some { Token.reset with holder := some 3 } ∧
     tokenOf (exec (.tokenHoldExpiry 1 2048) { withToken s { Token.reset with holder := some 3, held := some 5 } with now := 1004 }) =
       some { Token.reset with holder := some 3, held := some 5 } ∧
     tokenOf (exec (.tokenRecall 1 2048) (withToken s { Token.reset with holder := some 3, asks := [4], recalled := true })) =
       some { Token.reset with asks := [4] }) := by decide +kernel

/-! ### Bindings, transfers and landing maps (05, 14): O33 to O35 -/

/-- C with the stream descriptor of 32 b32 elements from 0x100 at 0x1000, a gather one at 0x1040; ring 1 filling, 2 a drain ring with a
partly written entry, 4 an empty drain ring, 5 a gather ring of rows of 64 bytes. -/
def bindy (x : Slot) : State :=
  withLocal (on x [(⟨.e, 1⟩, 0x1000), (⟨.e, 2⟩, 0x1020), (⟨.b, 1⟩, 3), (⟨.b, 2⟩, 16)] (fun q => { q with rings :=
    [(1, bound (strm 0x100 32 4 2 0 0) [1, 2]), (2, { drain (strm 0x400 32 4 8 1 0) with entries := [⟨5, 32, false, [], none, 0⟩] }),
     (4, drain (strm 0x400 32 4 8 1 0)), (5, { drain (strm 0x800 64 1 0 0 0 (16 * 2 ^ 80 + 64 * 2 ^ 160 + 2 ^ 268)) with gather := true })] }))
    [(0x1000, 64, strm 0x100 32 4 2 0 0)]

/-- O33: a descriptor that passes, a ring bound already, the end of a fill ring, of an empty and of a partly written drain ring, row
indices 15 and 16 of 16, as many entries as a ring has and as it has room for. -/
theorem witness_RingsAreBoundAndFreed :
    (let s := bindy .C
     let r := Ring.fresh (strm 0x100 32 4 2 0 0) false
     mayIssue (.cbind g 7 1 false) g s = true ∧ (s.regIn ⟨.e, 1⟩).map BitVec.toNat = some 0x1000 ∧ ringBusy s.me 7 = false ∧ ringDepth s.me 7 ≠ 0 ∧
     s.me.rings.has 7 = false ∧ s.blockOk 0x1000 64 64 ∧ Ring.fresh (nearNat s s.cur.loc 0x1000 64) false = r ∧ r.descOk s.me = true ∧
     r.inside r.firstExtent = true ∧ r.blk = 0 ∧ streamBanksOk s s.cur.loc r = true ∧
     ((next (exec (.cbind g 7 1 false) s)).bind (fun t => t.me.rings.find 7)) = some r ∧
     trapped (exec (.cbind g 1 1 false) s) = some (0x01, 6, 0) ∧ trapped (exec (.cbind g 7 2 false) s) = some (0x11, 6, 0x1020) ∧
     mayIssue (.cfree g 1) g s = true ∧ ((next (exec (.cfree g 1) s)).map (fun t => t.me.rings.has 1)) = some false ∧
     ((next (exec (.cfree g 4) s)).map (fun t => t.me.rings.has 4)) = some false ∧ stalls (exec (.cfree g 2) s) .C = true ∧
     ((next (exec (.cfree g 2) s)).bind (fun t => t.me.rings.find 2)).map (fun r => r.entries.map (·.closed)) = some [true] ∧
     trapped (exec (.cfree g 9) s) = some (0x01, 6, 0)) ∧
    (let s := bindy .L
     mayIssue (.gpush g 5 (.own 1)) g s = true ∧ s.opnd (.own 1) = some 3 ∧ ((s.me.rings.find 5).map (fun r => (r.gather, r.cnt 1, r.fin))) = some (true, 16, 0) ∧
     ringBusy s.me 5 = false ∧ s.me.gqueue.length < 64 ∧ ((next (exec (.gpush g 5 (.own 1)) s)).map (fun t => t.me.gqueue)) = some [(5, 3)] ∧
     (trapped (exec (.gpush g 5 (.own 2)) s)).map (·.1) = some 0x11) ∧
    (let s := bindy .Y
     let n := BitVec.ofNat 7 (ringDepth s.me 4)
     mayIssue (.qwait g 1 2) g s = true ∧ mayIssue (.qadv g 1 2) g s = true ∧ ringBusy s.me 1 = false ∧ goesOn (exec (.qwait g 1 2) s) .Y = true ∧
     (trapped (exec (.qwait g 1 3) s)).map (·.1) = some 0x11 ∧ ((next (exec (.qadv g 1 2) s)).bind (fun t => t.me.rings.find 1)).map (fun r => r.entries.length) = some 0 ∧
     mayIssue (.qwait g 4 n) g s = true ∧ goesOn (exec (.qwait g 4 n) s) .Y = true ∧ mayIssue (.qadv g 4 2) g s = true ∧
     ((next (exec (.qadv g 4 2) s)).bind (fun t => t.me.rings.find 4)).map (fun r => r.entries.length) = some 2 ∧
     (trapped (exec (.qadv g 4 3) s)).map (·.1) = some 0x11) := by
  unfold State.blockOk
  decide +kernel

/-- O33: a ring bound already, one that is not bound, and a push of an index to a ring that is no gather ring. -/
theorem witness_RingsAreBoundAndFreed_traps :
    (let s := bindy .C
     mayIssue (.cbind g 1 1 false) g s = true ∧ ringBusy s.me 1 = false ∧ s.me.rings.has 1 = true ∧ mayIssue (.cfree g 9) g s = true ∧
     s.me.rings.has 9 = false) ∧
    (let s := bindy .L
     mayIssue (.gpush g 1 (.own 1)) g s = true ∧ ((s.me.rings.find 1).map (·.gather)) = some false ∧ ringBusy s.me 1 = false ∧
     (trapped (exec (.gpush g 1 (.own 1)) s)).map (·.1) = some 0x01) := by decide +kernel

/-! ### Transfers and landing maps (14_transfers.md): O34, O35 -/

/-- A transfer descriptor of 16 b32 elements of tensor 5 for the core of location 0, with a stride between source elements (Table 14.1). -/
def xfer (stride : Nat) (n : Nat := 16) : Nat := 5 + 2 * 2 ^ 24 + n * 2 ^ 192 + 2 ^ 216 + 2 ^ 256 + 2 ^ 280 + stride * 2 ^ 384

/-- A card with one read region of n bytes at 0x2000 and one write region (Table 14.6). -/
def card (kind n wbase wlen wform : Nat) : Nat :=
  kind + 4 + 32 + (0x2000 + n * 2 ^ 52 + 2 ^ 84) * 2 ^ 256 + (wbase + wlen * 2 ^ 52 + wform * 2 ^ 84) * 2 ^ 640

/-- A landing map of tensor 5 for elements 0 to 15, b32, row-major from 0x800 (Table 14.3). -/
def landing (pri : Nat := 0) (tname : Nat := 5) : Nat :=
  tname + pri * 2 ^ 24 + 2 * 2 ^ 32 + 15 * 2 ^ 192 + 0x800 * 2 ^ 320 + 4 * 2 ^ 384

/-- C with transfers, cards and a map in local store. -/
def sender : State :=
  withLocal (on .C [(⟨.e, 1⟩, 0x1000), (⟨.e, 2⟩, 0x1040), (⟨.e, 3⟩, 0x1080), (⟨.e, 4⟩, 0x1100), (⟨.e, 5⟩, 0x2000), (⟨.e, 6⟩, 0x1180), (⟨.e, 7⟩, 2 ^ 16),
      (⟨.e, 8⟩, 1), (⟨.e, 9⟩, 0)])
    [(0x1000, 64, xfer 4), (0x1040, 64, xfer 0), (0x1080, 128, card 0 64 0x3000 64 1), (0x1100, 128, card 3 64 0x1000 0 2), (0x1180, 64, landing)]

/-- The state with a channel's next id and its fail marks. -/
def withChan (s : State) (next : Nat) (fails : List (Nat × Nat × Nat)) : State :=
  s.setMe { s.me with chans := s.me.chans.put 2 { Channel.reset with next := next, fails := fails } }

/-- O34: each command with what it needs, a box of 2^24 bytes, the first id, and the horizon at, before and after the limit, with and
without a mark at the limit's edge. -/
theorem witness_TransfersIssue :
    (let s := sender
     let t : TransferDesc := BitVec.ofNat 512 (xfer 4)
     let q : TransferDesc := BitVec.ofNat 512 (xfer 0)
     [mayIssue (.cput g 2 9 1 5) g s, s.regIn ⟨.e, 5⟩ == some 0x2000, s.regIn ⟨.e, 1⟩ == some 0x1000, s.transferAt 0x1000 == some t, t.bytes == 64,
      TransferDesc.bytes (BitVec.ofNat 512 (xfer 4 (2 ^ 22))) == 2 ^ 24, t.walkInside 0x2000, t.reachable (s.vdAt s.myVd), s.freeEntry == some 0,
      final (exec (.cput g 2 9 1 5) s) ⟨.e, 9⟩ == some 0,
      ((next (exec (.cput g 2 9 1 5) s)).map (fun t => (t.me.ifr.map (fun e => (e.1, e.2.kind, e.2.total)), nextId t.me 2))) == some ([(0, 7, 1)], 1),
      mayIssue (.cget g 2 9 2) g s, s.transferAt 0x1040 == some q, (List.range 4).all (fun i => q.stride i == 0), !q.swv, q.reachable (s.vdAt s.myVd),
      ((next (exec (.cget g 2 9 2) s)).map (fun t => t.net.map (·.kind))) == some [.ask q],
      trapped (exec (.cget g 2 9 1) s) == some (0x01, 6, 0)].all id) = true ∧
    (let s := sender
     let c : JobCard := BitVec.ofNat 1024 (card 0 64 0x3000 64 1)
     let m : JobCard := BitVec.ofNat 1024 (card 3 64 0x1000 0 2)
     [mayIssue (.ccard g 2 9 3) g s, s.localNat 0x1080 128 == some (card 0 64 0x3000 64 1), c.fieldsOk, c.kind == 0,
      ((next (exec (.ccard g 2 9 3) s)).map (fun t => (t.dieAt 0).cards.map (fun x => (x.no, x.loc, x.entry, x.addr)))) == some [(1, 0, 0, 0x1080)],
      s.localNat 0x1100 128 == some (card 3 64 0x1000 0 2), m.fieldsOk, m.kind == 3, m.nw == 1,
      (boxDesc s s.cur.loc m 4).map (fun t => (t.fieldsOk, t.bytes == m.len 0, t.reachable (s.vdAt s.myVd))) == some (true, true, true),
      goesOn (exec (.ccard g 2 9 4) s) .C].all id) = true ∧
    (let s := sender
     let a : Instr := .cwait g 2 8 false
     [mayIssue a g s, mayIssue (.cstat g 2 9) g s, goesOn (exec a (withChan s 1 [])) .C, stalls (exec a s) .C,
      stalls (exec (.cwait g 2 8 true) (withChan s 1 [])) .C, goesOn (exec (.cwait g 2 8 true) (withChan s 2 [])) .C,
      goesOn (exec a (withChan s 1 [(1, 0x70, 5)])) .C, trapped (exec a (withChan s 1 [(0, 0x70, 5)])) == some (0x70, 6, 5),
      final (exec (.cstat g 2 9) (withChan s 7 [])) ⟨.e, 9⟩ == some 7,
      trapped (exec (.cstat g 2 9) (withChan s 7 [(6, 0x50, 3), (4, 0x70, 5)])) == some (0x70, 6, 5)].all id) = true := by
  decide +kernel

/-- The state with maps of an endpoint of location 0's core. -/
def withMaps (s : State) (ms : List (Nat × MapSlot)) : State := s.setEp 0 { s.epAt 0 with maps := ms }

/-- O35: an entry that passes the checks and one that meets another map, a free slot and none, the handle of slot 0 of the own core with
its map, with a map of another device's and with none, a map pinned. -/
theorem witness_LandingMapsAreManaged :
    (let s := sender
     let m := (s.mapAt 0x1180).getD 0
     let other : MapSlot := ⟨BitVec.ofNat 512 (landing 0 9), 1, none⟩
     let here : MapSlot := ⟨m, 1, none⟩
     let full := withMaps s ((List.range 64).map (fun n => (n, other)))
     let one := withMaps s [(0, here)]
     let two := withMaps s [(0, ⟨m, 2, none⟩)]
     let mapi : Instr := .mapi g 10 6 0 0
     [(m == BitVec.ofNat 512 (landing)), mayIssue mapi g s, s.ownEp 0 0 == some 0, s.regIn ⟨.e, 6⟩ == some 0x1180, s.mapAt 0x1180 == some m,
      (mapCheck s 0 s.myVd (rmodeAt s.me s.here) m none).toOption == some (), (s.epAt 0).maps.free (epSlots 0) == some 0,
      final (exec mapi s) ⟨.e, 10⟩ == some (2 ^ 16), ((next (exec mapi s)).map (fun t => (t.epAt 0).maps)) == some [(0, here)], epSlots 0 == 64,
      (mapCheck full 0 full.myVd (rmodeAt full.me full.here) m none).toOption == some (), (full.epAt 0).maps.free (epSlots 0) == none,
      final (exec mapi full) ⟨.e, 10⟩ == some 0, trapped (exec mapi one) == some (0x51, 6, 0), one.handle (2 ^ 16) == some (0, 0),
      one.regIn ⟨.e, 7⟩ == some (2 ^ 16), (one.epAt 0).maps.find 0 == some here, here.vd == one.myVd,
      (mapCheck one 0 one.myVd (rmodeAt one.me one.here) m (some 0)).toOption == some (), !oldPinned one 0 0, mayIssue (.mapx g 7 6) g one,
      ((next (exec (.mapx g 7 6) one)).map (fun t => (t.epAt 0).maps)) == some [(0, { here with entry := m.withGen 1 })],
      trapped (exec (.mapx g 7 6) two) == some (0x01, 6, 0), trapped (exec (.mapr g 7) two) == some (0x01, 6, 0),
      trapped (exec (.mapr g 7) s) == some (0x01, 6, 0), mayIssue (.mapr g 7) g one,
      ((next (exec (.mapr g 7) one)).map (fun t => (t.epAt 0).maps)) == some [], mayIssue (.maprAll g 0 0) g one,
      !slotPinned one 0 0, ((next (exec (.maprAll g 0 0) one)).map (fun t => (t.epAt 0).maps)) == some [],
      ((next (exec (.maprAll g 0 0) two)).map (fun t => (t.epAt 0).maps)) == some [(0, ⟨m, 2, none⟩)], mayIssue (.mapq g 10 7) g one,
      final (exec (.mapq g 10 7) one) ⟨.e, 10⟩ == some (2 ^ 16), final (exec (.mapq g 10 7) two) ⟨.e, 10⟩ == some 0].all id) = true := by
  decide +kernel

/-! ### Grids (17_grids.md): O36, O37 -/

/-- A grid descriptor (Table 17.1): 8 elements of b32 along one axis, two parties, ghosts of one layer on each side, the low domain face
mirrored and the high one constant, D = 1. -/
def gridDesc : Nat :=
  5 + 2 * 2 ^ 24 + 2 ^ 31 + 0x2000 * 2 ^ 64 + 0x3000 * 2 ^ 128 + 0x1F00 * 2 ^ 192 + 9 * 2 ^ 320 +
  (8 + 2 * 2 ^ 24 + 2 ^ 36 + 2 ^ 40 + 2 * 2 ^ 44 + 4 * 2 ^ 47) * 2 ^ 384 + (1 + 2 ^ 24) * (2 ^ 448 + 2 ^ 512 + 2 ^ 576) + 0x4000 * 2 ^ 640

/-- The grid of a party that has committed a step: elements 0 to 3 or 4 to 7. -/
def party (self : Nat) (step : Int) (tags : List (Nat × FaceTag)) : Grid :=
  ⟨BitVec.ofNat 1024 gridDesc, [4 * self, 0, 0, 0], [4 * self + 3, 0, 0, 0], [0, 1], self, step, tags, [], [], none⟩

/-- The descriptor at 0x1000 and 0x1080 (with NDIM and no more than one axis described), the party table at 0x1F00, elements 10 to 13 at
0x2000; b and y registers. -/
def gridded (x : Slot) : State :=
  withLocal (on x [(⟨.e, 1⟩, 0x1000), (⟨.e, 2⟩, 0x1080), (⟨.b, 1⟩, 64), (⟨.b, 2⟩, 0), (⟨.b, 3⟩, 66), (⟨.b, 4⟩, 128), (⟨.b, 5⟩, 2), (⟨.y, 1⟩, 0), (⟨.y, 2⟩, 1), (⟨.y, 3⟩, 3),
      (⟨.b, 6⟩, 4)])
    [(0x1000, 128, gridDesc), (0x1080, 128, gridDesc + 2 ^ 41), (0x1F00, 4, 2 ^ 16), (0x2000, 16, lanes 32 [10, 11, 12, 13]), (0x3040, 64, 77)]

/-- The state with a grid in slot 2. -/
def withGrid (s : State) (h : Grid) : State := s.setMe { s.me with grids := s.me.grids.put 2 h }

/-- O36: a descriptor that passes and one with a reserved bit, an endpoint without room, a slot in use, the release; a ghost load at the
first byte of a face and the first byte past the version's faces, unaligned, of a step older, equal and newer than the face, half filled. -/
theorem witness_GridsAreDeclaredAndRead :
    (let s := gridded .C
     let x : GridDesc := BitVec.ofNat 1024 gridDesc
     let h := party 0 (-1) []
     let maps := (ghostFaces h).map (fun f => (f, ghostMap h f))
     let full := withMaps s ((List.range 64).map (fun n => (n, ⟨BitVec.ofNat 512 (landing 0 9), 1, none⟩)))
     let a : Instr := .gdecl g 9 2 1
     let t := (next (exec a s)).getD s
     [mayIssue a g s, s.regIn ⟨.e, 1⟩ == some 0x1000, s.localNat 0x1000 128 == some gridDesc, !s.me.grids.has 2, x.fieldsOk, inLocal x.ptab (2 * x.parties),
      x.split == 0, x.boundsOk 0, x.shbaseOk 0, s.localNat x.ptab (2 * x.parties) == some (2 ^ 16), (List.range x.parties).map (fun j => bitsAt (2 ^ 16) (16 * j) 15) == [0, 1],
      fullLoc s s.cur.loc == 0, x.coordOf 0 == [0, 0, 0, 0], inLocal x.ibase (slabCount h.box * x.es), inLocal x.gbase ((x.depth + 1) * x.vsize h.box),
      inLocal x.shbase ((x.depth + 2) * x.ssize h.box), ghostFaces h == [1], (checkGhosts s 0 s.myVd [] (maps.map (·.2))).isNone,
      final (exec a s) ⟨.e, 9⟩ == some 1, t.me.grids == [(2, { h with maps := [(1, 0)] })],
      (t.epAt 0).maps.map (fun m => (m.1, m.2.ghost, MapEntry.lo m.2.entry 0, MapEntry.hi m.2.entry 0, MapEntry.base m.2.entry)) == [(0, some (0, 2, 1), 4, 4, 0x3040)],
      (checkGhosts full 0 full.myVd [] (maps.map (·.2))).isNone, epSlots 0 < (full.epAt 0).maps.length + maps.length, final (exec a full) ⟨.e, 9⟩ == some 0,
      trapped (exec (.gdecl g 9 2 2) s) == some (0x01, 6, 0), trapped (exec a (withGrid s h)) == some (0x01, 6, 0), mayIssue (.gdeclR g 2) g (withGrid s h),
      !ghostPinned (withGrid s h) 0 (some 2), (next (exec (.gdeclR g 2) (withGrid s h))).map (fun t => t.me.grids) == some [],
      mayIssue (.gq g 9 2 0) g (withGrid s h), final (exec (.gq g 9 2 0) (withGrid s h)) ⟨.e, 9⟩ == some (2 ^ 32 - 1),
      final (exec (.gq g 9 2 2) (withGrid s h)) ⟨.e, 9⟩ == some (2 * 2 ^ 16)].all id) = true ∧
    (let s (tags : List (Nat × FaceTag)) := withGrid (gridded .L) (party 0 0 tags)
     let ld (a b : BitVec 10) : Instr := .ldg g (.here (.own 9)) (.own a) (.own b) 2 .b32
     let vl (a b : BitVec 10) : Instr := .vldg g (.file .v0 3) (.own a) (.own b) 2
     let halo (o : Host.Outcome State Fault Refusal) : Option (Option HaloWait) := (next o).map (·.me.halo)
     [mayIssue (ld 1 2) g (s []), (s []).opnd (.own 1) == some 64, (s []).opnd (.own 2) == some 0, (s []).me.grids.find 2 == some (party 0 0 []),
      faceOf (party 0 0 []) 64 4 == some 1, faceOf (party 0 0 []) 64 64 == none, faceOf (party 0 0 []) 128 4 == none, faceOf (party 0 0 []) 66 2 == some 1,
      stalls (exec (ld 1 2) (s [])) .L, halo (exec (ld 1 2) (s [])) == some (some ⟨0, 2, 0, 1, 0⟩), (s []).me.halo == none,
      final (exec (ld 1 2) (s [(1, ⟨0, true⟩)])) ⟨.b, 9⟩ == some 77, stalls (exec (ld 1 2) (s [(1, ⟨0, false⟩)])) .L,
      (trapped (exec (ld 1 2) (s [(1, ⟨2, true⟩)]))) == some (0x30, 4, 0), stalls (exec (ld 1 5) (s [(1, ⟨0, true⟩)])) .L,
      trapped (exec (ld 4 2) (s [])) == some (0x11, 4, 128), trapped (exec (.ldg g (.here (.own 9)) (.own 3) (.own 2) 2 .b32) (s [])) == some (0x11, 4, 66),
      mayIssue (vl 1 2) g (s []), trapped (exec (vl 1 2) (s [])) == some (0x11, 4, 64)].all id) = true := by decide +kernel

/-- O37: the next step with the neighbour near enough and too far behind, a step that is not the next, what the commit leaves; the
notice; the halo timeout at its last nanosecond. -/
theorem witness_GridStepsCommit :
    (let s := withGrid (gridded .Y) (party 0 (-1) [])
     let back := withGrid (gridded .Y) { party 0 2 [] with known := [(1, 0)] }
     let near := withGrid (gridded .Y) { party 0 2 [] with known := [(1, 1)] }
     let x : GridDesc := BitVec.ofNat 1024 gridDesc
     let t := (next (exec (.gstep g 2 1) s)).getD s
     let w := (next (exec (.gstep g 2 3) back)).getD back
     let r := w.setMe { w.me with fy := w.me.fy.put 3 7, grids := near.me.grids }
     [mayIssue (.gstep g 2 1) g s, s.firstRead ⟨.y, 1⟩ == some 0, (party 0 (-1) []).copy == none, w.me.latch == some (7, 0, 3), waitBegun r,
      r.firstRead ⟨.y, 3⟩ == some 3, goesOn (exec (.gstep g 2 3) r) .Y, s.regIn ⟨.y, 1⟩ == some 0, s.me.grids.find 2 == some (party 0 (-1) []), x.neighbours 0 == [1],
      (0 : Int) - 1 - 1 < (party 0 (-1) []).knows 1, s.me.ifr.isEmpty, (sendFaces (party 0 (-1) [])).length == 1,
      (errorMark s ((commitReads (party 0 (-1) [])).flatMap (fun p => (List.range 4).map (fun j => nearPhys s 0 (p + j))))).isNone,
      goesOn (exec (.gstep g 2 1) s) .Y, (t.me.grids.find 2).map (·.step) == some 0, ((next (exec (.transferSourceRead 0 0) t)).bind (fun u => u.me.grids.find 2)).map (fun h => h.tag 0 0) == some ⟨0, true⟩,
      localAt t 0 0x3000 4 == 0, (next (exec (.transferSourceRead 0 0) t)).map (fun u => localAt u 0 0x3000 4) == some 10, t.me.ifr.map (fun e => (e.2.kind, e.2.len)) == [(10, 0)], trapped (exec (.gstep g 2 2) s) == some (0x41, 7, 0),
      stalls (exec (.gstep g 2 3) back) .Y, goesOn (exec (.gstep g 2 3) near) .Y].all id) = true ∧
    (let s := withGrid (gridded .Y) (party 0 2 [])
     let s := s.setSeq 1 { s.seqAt 0 with grids := [(0, party 1 3 [])] }
     ((next (exec (.neighbourCommitNotice 0 2 1) s)).bind (fun t => (t.seqAt 0).grids.find 2)).map (·.known) = some [(1, 3)]) ∧
    (let s := withGrid (gridded .L) (party 0 0 [])
     let s := { s.setMe { s.me with halo := some ⟨5, 2, 0, 1, 0⟩, gridTime := 10 } with now := 14 }
     [s.me.halo == some ⟨5, 2, 0, 1, 0⟩, s.me.status == 1, (next (exec (.haloTimeout 0) s)) == some s,
      trapped (exec (.haloTimeout 0) { s with now := 15 }) == some (0x31, 4, 0)].all id) = true := by decide +kernel

/-! ### Barriers, tasks and waits (19_barriers.md): O38, O39 -/

/-- Y with counts, phases and addresses in y1 to y6, and an in-flight store whose reply is missing when asked for. -/
def waiting (x : Slot := .Y) : State := on x [(⟨.y, 1⟩, 1), (⟨.y, 2⟩, 2), (⟨.y, 3⟩, 3), (⟨.y, 4⟩, 0), (⟨.y, 5⟩, 64), (⟨.y, 6⟩, 2 ^ 32)]

/-- The flips on their way: barrier, phase and the cores not reached. -/
def flipsOf (s : State) : List (Nat × Nat × List Nat) :=
  s.casts.filterMap (fun c => match c with | .flip _ key ph cores => some (key, ph, cores) | .launch _ _ => none)

/-- The barriers and the flips on their way of device 1 after a step. -/
def barriersOf (o : Host.Outcome State Fault Refusal) : Option (List (Nat × Barrier) × List (Nat × Nat)) :=
  (next o).map (fun t => ((t.vdAt 1).barriers, (flipsOf t).map (fun f => (f.1, f.2.1))))

/-- O38: at the core's barrier 3 an arrival of one, of two, of none and of three, a second arrival of one location and with another
count; at the die's root an arrival; a wait before and after the flip at the leaf; the two halves of bar; the flip. -/
theorem witness_BarriersCountAndFlip :
    (let s := waiting
     let key := 2 * 2 ^ 19 + 3
     let half := s.setVd 1 { s.vdAt 1 with barriers := [(key, ⟨0, 2, 1, [0]⟩)] }
     let half' := s.setVd 1 { s.vdAt 1 with barriers := [(key, ⟨0, 2, 1, [1]⟩)] }
     let over' := s.setVd 1 { s.vdAt 1 with leaves := [(256 * key, 1)] }
     let a (c : BitVec 4) : Instr := .barA g 2 3 c 7
     let b (c : BitVec 4) : Instr := .bar g 2 3 c 7
     [mayIssue (a 1) g s, s.regIn ⟨.y, 1⟩ == some 1, s.scope 2 == 2, !s.misused 2 3 1, !fenceWaits s 0 .Y 2 0xFFFF, (s.arrived 2 3 1).isSome, s.misused 2 3 0, s.misused 2 3 3,
      half.misused 2 3 2, half'.misused 2 3 1, !half'.misused 2 3 2, barriersOf (exec (a 1) s) == some ([(key, ⟨1, 1, 0, []⟩)], [(key, 1)]), final (exec (a 1) s) ⟨.y, 7⟩ == some 0,
      barriersOf (exec (a 2) s) == some ([(key, ⟨0, 2, 1, [0]⟩)], []), barriersOf (exec (a 2) half') == some ([(key, ⟨1, 2, 0, []⟩)], [(key, 1)]),
      trapped (exec (a 4) s) == some (0x41, 7, 0), trapped (exec (a 3) s) == some (0x41, 7, 0), trapped (exec (a 2) half) == some (0x41, 7, 0),
      trapped (exec (a 1) half') == some (0x41, 7, 0), mayIssue (.barA g 4 3 1 7) g s, (s.arrived 4 3 1).isSome, s.scope 4 == 4,
      (next (exec (.barA g 4 3 1 7) s)).map (fun t => t.net.map (·.kind)) == some [.arrival (4 * 2 ^ 19 + 3) 1], mayIssue (.barW g 2 3 4) g s,
      stalls (exec (.barW g 2 3 4) s) .Y, goesOn (exec (.barW g 2 3 4) over') .Y, s.me.barAt == none, mayIssue (b 1) g s, trapped (exec (b 4) s) == some (0x41, 7, 0),
      stalls (exec (b 1) s) .Y, (next (exec (b 1) s)).map (·.me.barAt) == some (some 0), mayIssue (b 1) ⟨15, false⟩ (s.setMe { s.me with barAt := some 0 }),
      stalls (exec (b 1) (s.setMe { s.me with barAt := some 0 })) .Y, final (exec (b 1) (over'.setMe { over'.me with barAt := some 0 })) ⟨.y, 7⟩ == some 0].all id) = true ∧
    (let s := waiting
     let key := 2 * 2 ^ 19 + 3
     let t := s.setVd 1 { s.vdAt 1 with leaves := [(256 * key, 1)] }
     t.flipped 2 3 0 ∧ ¬s.flipped 2 3 0) ∧
    (let s := ((next (exec (.barA g 4 3 1 7) waiting)).getD waiting)
     let pk := ((s.net.map (·.id)).head?).getD 0
     let key := 4 * 2 ^ 19 + 3
     let t := (next (exec (.barrierRootArrival pk) s)).getD s
     [(s.packet pk).map (fun p => (p.kind, p.accepted, p.dst == s.module, p.src == s.module, p.loc)) == some (.arrival key 1, true, true, true, 0), s.me.ifr.map (·.1) == [0],
      (s.packet pk).map (·.key) == s.me.ifr.head?.map (fun e => e.2.key), (t.vdAt 1).barriers == [(key, ⟨1, 1, 0, []⟩)], t.me.ifr.isEmpty, t.net.isEmpty,
      (flipsOf t).map (fun f => f.2.1) == [1], (next (exec (.phaseFlip 0 31) t)).map (fun u => ((u.vdAt 1).leaves, (flipsOf u).map (·.2.2))) ==
        some ([(256 * key + 31, 1)], [List.range 31])].all id) = true := by
  unfold State.flipped
  decide +kernel

/-- Die 0 with launch 0 of one task, for which locations 0 to 3 are eligible. -/
def launched (s : State) : State :=
  s.setDie 0 { s.dieAt 0 with launches := [⟨0, 0, s.me.task, [], [0, 1, 2, 3], [], 1, 0, []⟩] }

/-- O39: a target eligible and one past the eligible, an entry at the last bundle and past it, a target that runs, the issuer itself, an idle
target; yield with and without a sibling; sleep of 0 and of 3 before and at its end; a buffer with one record left and full; the events. -/
theorem witness_SpawnYieldSleepAndEvents :
    (let s := launched (on .Y [(⟨.y, 1⟩, 2), (⟨.y, 2⟩, 64), (⟨.y, 3⟩, 640), (⟨.y, 4⟩, 4), (⟨.y, 5⟩, 0), (⟨.y, 6⟩, 1), (⟨.y, 7⟩, 3), (⟨.s, 16⟩, 99)])
     let busy := s.setSeq 2 { s.seqAt 2 with status := 1 }
     let pair := s.setSeq 1 { s.seqAt 1 with status := 1 }
     let t := (next (exec (.spawn g 1 2) s)).getD s
     let asleep := s.setMe { s.me with sleepTo := some 3 }
     let lane (n : Nat) := s.setDie 0 { s.dieAt 0 with lane := List.replicate n ⟨1, 0, false⟩ }
     let ready (n : Nat) := s.setCore 0 { s.coreAt 0 with ready := [(8, n)] }
     [mayIssue (.spawn g 1 2) g s, s.regIn ⟨.y, 1⟩ == some 2, s.regIn ⟨.y, 2⟩ == some 64, s.me.task.codeLen == 640, s.passed.isSome, !spawnBusy s 2 1, joined s 2 1, !joined busy 2 1,
      goesOn (exec (.spawn g 1 2) s) .Y, (t.seqAt 2).status == 1, (t.seqAt 2).task.entry == 64, regBase t 2 ⟨.s, 16⟩ == 99, (t.dieAt 0).launches.map (·.share) == [2],
      trapped (exec (.spawn g 4 2) s) == some (0x11, 7, 0), trapped (exec (.spawn g 1 3) s) == some (0x11, 7, 0), trapped (exec (.spawn g 1 6) s) == some (0x11, 7, 0),
      spawnBusy busy 2 1, trapped (exec (.spawn g 1 2) busy) == some (0x40, 7, 2), trapped (exec (.spawn g 5 2) s) == some (0x40, 7, 0), mayIssue (.sjoin g 1) g s,
      goesOn (exec (.sjoin g 1) s) .Y, stalls (exec (.sjoin g 1) busy) .Y, trapped (exec (.sjoin g 4) s) == some (0x11, 7, 0), trapped (exec (.sjoin g 5) s) == some (0x41, 7, 0),
      mayIssue (.yield g) g s, (s.seqAt (siblingOf 0)).status == 0, (next (exec (.yield g) s)).map (fun t => (t.coreAt 0).yieldTo) == some none,
      (next (exec (.yield g) pair)).map (fun t => (t.coreAt 0).yieldTo) == some (some (1, 23)), s.me.sleepTo == none, mayIssue (.sleep g 7) g s, goesOn (exec (.sleep g 5) s) .Y,
      stalls (exec (.sleep g 7) s) .Y, (next (exec (.sleep g 7) s)).map (·.me.sleepTo) == some (some 3), mayIssue (.sleep g 7) ⟨15, false⟩ asleep,
      stalls (exec (.sleep g 7) { asleep with now := 2 }) .Y, goesOn (exec (.sleep g 7) { asleep with now := 3 }) .Y, mayIssue (.evpost g 7 2) g s, laneCount (lane 255) 0 1 == 255,
      (next (exec (.evpost g 7 2) (lane 255))).map (fun t => (t.dieAt 0).lane.length) == some 256, laneCount (lane 256) 0 1 == 256, stalls (exec (.evpost g 7 2) (lane 256)) .Y,
      (next (exec (.yieldExpiry 0) { s.setCore 0 { s.coreAt 0 with yieldTo := some (1, 23) } with now := 23 })).map (fun t => (t.coreAt 0).yieldTo) == some none,
      (ready 15).coreAt 0 == { s.coreAt 0 with ready := [(8, 15)] }, (next (exec (.bPriorityPromotion 0 8) (ready 15))).map (fun t => (t.coreAt 0).first) == some 256,
      (next (exec (.bPriorityPromotion 0 8) (ready 14))).map (fun t => (t.coreAt 0).first) == some 0,
      (next (exec (.sleepExpiry 0) { asleep.setMe { asleep.me with stalled := 128 } with now := 3 })).map (·.me.stalled) == some 0].all id) = true ∧
    (let s := launched (on .Y [])
     s.spawnable 2 ∧ ¬s.spawnable 4 ∧ s.spawnable 0) := by
  refine ⟨by decide +kernel, ⟨by decide +kernel, _, rfl, by decide +kernel⟩, ?_, ⟨by decide +kernel, _, rfl, by decide +kernel⟩⟩
  rintro ⟨-, l, hl, he⟩
  cases hl
  revert he
  decide +kernel

/-! ### Traps and contexts (22_traps.md, 24_preemption.md): O40 to O43 -/

/-- A sequencer with handlers for traps and for poison, its code at 4 GiB. -/
def handled (x : Slot) : State := on x [] (fun q => { q with tvec := BitVec.ofNat 64 (2 ^ 32 + 0x80), replay := BitVec.ofNat 64 (2 ^ 32 + 0xC0) })

/-- O40: no handler, a handler and a fatal code, a handler and a code that it takes, a replay routine and poison, each inside a handler
too; a sequencer inside one. O41 has no hypotheses; the place of each field is shown beside it. -/
theorem witness_TrapsAreTakenAndReturnedFrom :
    (let h := handled .S
     let bare := on .S []
     let t (s : State) (code : Nat) : State := takeTrap s 0 2 0 code 5 0
     let inside := t h 0x60
     [handledCode 0x60, !handledCode 0x10, !handledCode 0x7F, fatalCode 0x7F, !fatalCode 0x60, h.me.frame.isNone, (t bare 0x60).me.status == 3, ((t bare 0x60).dieAt 0).lane.length == 1,
      (t h 0x7F).me.status == 3, ((t h 0x7F).dieAt 0).fatal.length == 1, inside.me.status == 1, inside.me.frame.isSome, inside.me.pc == 2 ^ 32 + 0x80, (t h 0x20).me.status == 1,
      (t h 0x20).me.pc == 2 ^ 32 + 0xC0, (t inside 0x60).me.status == 3, (t inside 0x20).me.status == 3, (leaveHandler inside 0).me.status == 3, (leaveHandler inside 0).me.pc == 64].all id) = true ∧
    (let rc := trapRecord (on .S []) 0 5 0 0x11 (2 ^ 40 + 1) 3
     [bitsAt rc 0 8 == 0x11, bitsAt rc 8 1 == 0, bitsAt rc 9 1 == 0, bitsAt rc 12 4 == 5, bitsAt rc 16 15 == 0, bitsAt rc 32 16 == 1, bitsAt rc 320 64 == 2 ^ 40 + 1,
      bitsAt rc 448 16 == 3].all id) = true := by decide +kernel

/-- The state with a command in a slot of die 0, the next that the die takes (R376). -/
def commanded (s : State) (slot : Nat) (args : List Nat) : State :=
  s.setDie 0 { s.dieAt 0 with
    due := [slot], cmds := (List.range args.length).map (fun j => (8 * slot + j, BitVec.ofNat 64 (args.getD j 0 + if j = 0 then 2 ^ 8 else 0))) }

/-- STATUS of a command slot of die 0 after a step. -/
def statusOf (o : Host.Outcome State Fault Refusal) (slot : Nat) : Option Nat := (next o).map (fun t => bitsAt ((t.dieAt 0).dword slot 0) 24 8)

/-- Y of location 0 in the supervisor device, with location 2 frozen in a trap of its slot S at bundle 0. -/
def supervised (code : Nat := 0x60) : State :=
  let s := on .Y [(⟨.y, 1⟩, 2), (⟨.y, 2⟩, 0), (⟨.y, 3⟩, 512), (⟨.y, 4⟩, 2 ^ 32), (⟨.y, 5⟩, 2 ^ 32 + 2048), (⟨.y, 6⟩, 0x1000), (⟨.y, 7⟩, 0x1008), (⟨.y, 8⟩, 3)]
  let s := takeTrap (s.setSeq 2 { s.seqAt 0 with pc := 128 }) 2 0 0 code 5 0
  (s.setVd 0 (s.vdAt 1)).setMe { s.me with task := { s.me.task with vd := 0 } }

/-- O42: trap; eret outside a handler, before and when it is done; eret.t of a frozen sequencer, of itself and of location 512; the command
with a mode of 2 and of 3, of another location and of one that is not frozen; the three modes; a trap due of an entry and one of an error in one. -/
theorem witness_TrapInstructionsAndDisposal :
    (let y := handled .Y
     let inside := takeTrap y 0 2 0 0x60 5 0
     let inside := inside.setMe { inside.me with queue := [(0, ⟨2 ^ 32 + 0x80, BitVec.ofNat 512 (2 ^ 100), true⟩)], nextIdx := 1 }
     let done := inside.setMe { inside.me with steps := (Slot.all.filter (· != .Y)).map (fun x => (x.num, 1)) }
     let s := supervised
     let c (a mode : Nat) : State := commanded s 3 [1, a, mode]
     let off (a mode : Nat) : Option Nat := statusOf (exec (.disposeTrap 0 3) (c a mode)) 3
     let own := (handled .S).setMe { (handled .S).me with errs := [(none, 5)] }
     let due := (handled .S).setMe { (handled .S).me with ifr := [(4, { Ifr.blank with kind := 2, fault := 1, code := 0x10, info := 7 })] }
     [mayIssue (.trap g 9) g y, trapped (exec (.trap g 9) (on .Y [])) == some (0x60, 7, 9), mayIssue (.eret g 0) g y, y.me.frame.isNone,
      mayIssue (.eret g 0) g inside, inside.me.frame.isSome, !handlerDone inside, stalls (exec (.eret g 0) inside) .Y, handlerDone done,
      (next (exec (.eret g 0) done)).map (fun t => (t.me.status, t.me.frame.isNone, t.me.pc)) == some (1, true, 64),
      (next (exec (.eret g 2) done)).map (fun t => t.me.status) == some 0, mayIssue (.eretT g 0 1) g s, s.regIn ⟨.y, 1⟩ == some 2, (s.seqAt 2).status == 3, (s.seqAt 2).delivered,
      (next (exec (.eretT g 0 1) s)).map (fun t => (t.seqAt 2).status) == some 1, trapped (exec (.eretT g 0 2) s) == some (0x11, 7, 0),
      trapped (exec (.eretT g 0 3) s) == some (0x11, 7, 0), trapped (exec (.eretT g 0 8) s) == some (0x11, 7, 0), (s.seqAt 2).load.isNone,
      bitsAt (s.seqAt 2).record.toNat 12 4 == 0, (next (exec (.eretT g 1 1) s)).map (fun t => (t.seqAt 2).skips) == some [(0, 0)],
      (next (exec (.eretT g 2 1) s)).map (fun t => (t.seqAt 2).status) == some 0, off 2 2 == some 1, off 2 3 == some 3, off (2 ^ 15 + 2) 0 == some 3, off 3 0 == some 2, off 514 0 == some 2,
      (asyncDue due 0).map (fun d => (d.1, d.2.1, d.2.2.1)) == [(0x10, 7, 4)], due.me.status == 1,
      (next (exec (.asynchronousTrap 0 0x10 7 4) due)).map (fun t => (t.me.status, t.me.ifr.map (fun e => e.2.fault))) == some (3, [2]),
      (asyncDue own 0).map (fun d => (d.1, d.2.1)) == [(0x70, ownStructure 5)],
      (next (exec (.asynchronousTrap 0 0x70 (ownStructure 5) 0) own)).map (fun t => (t.me.status, t.me.errs.length)) == some (3, 0)].all id) = true ∧
    (commanded supervised 3 [1, 2, 2]).commandReady 0 3 1 := by
  unfold State.commandReady
  decide +kernel

/-- O43: location 2 frozen, running and idle; the issuer itself and location 512; an address of a page and one within; the engine free, at
work and done; a context that passes its checks and none; a pipe image of a frozen target at a block and elsewhere. -/
theorem witness_ContextsAreSavedLoadedAndImaged :
    (let s := supervised
     let runs := s.setSeq 2 { s.seqAt 2 with status := 1 }
     let idle := s.setSeq 2 Seq.reset
     let w := (next (exec (.ctxsave g 1 4) s)).getD s
     let r := (next (exec (.ctxload g 1 4 true) idle)).getD idle
     let free (t : State) : State := t.setDie 0 { t.dieAt 0 with job := none }
     [!waitBegun s, mayIssue (.ctxsave g 1 4) g s, s.regIn ⟨.y, 1⟩ == some 2, (s.regIn ⟨.y, 4⟩).map BitVec.toNat == some (2 ^ 32), windowOf (2 ^ 32) 0x20000 == some 13,
      (s.pages (2 ^ 32) true).map List.length == some 32, (s.seqAt 2).status == 3, engineFree s 2, stalls (exec (.ctxsave g 1 4) s) .Y,
      (w.dieAt 0).job == some (contextJob w 2 (2 ^ 32) false), (w.seqAt 2).save == 1, w.withdraws.map (·.loc) == [2], w.me.latch == some (7, 0, 2 + 512 * 2 ^ 32),
      (next (exec (.ctxsave g 1 4) runs)).map (fun t => ((t.seqAt 2).status, (t.seqAt 2).save)) == some (3, 1), !engineFree w 2,
      mayIssue (.ctxsave g 1 4) ⟨15, false⟩ w, engineMine w 2, stalls (exec (.ctxsave g 1 4) w) .Y, !engineMine (free w) 2, goesOn (exec (.ctxsave g 1 4) (free w)) .Y,
      trapped (exec (.ctxsave g 2 4) s) == some (0x11, 7, 0), trapped (exec (.ctxsave g 3 4) s) == some (0x11, 7, 0),
      trapped (exec (.ctxsave g 1 5) s) == some (0x11, 7, 2 ^ 32 + 2048), mayIssue (.ctxload g 1 4 true) g idle, (idle.seqAt 2).status == 0, (idle.seqAt 2).ifr == [],
      (idle.pages (2 ^ 32) false).map List.length == some 32, trapped (exec (.ctxload g 1 4 true) s) == some (0x40, 7, 2), stalls (exec (.ctxload g 1 4 true) idle) .Y,
      r.me.latch == some (7, 0, 2 + 512 * 2 ^ 32), mayIssue (.ctxload g 1 4 true) ⟨15, false⟩ (free r), engineMine r 2, !engineMine (free r) 2,
      (r.quadAt (partOf 2)).resident == some 1, mayIssue (.pimg g 1 6) g s, (s.regIn ⟨.y, 6⟩).map BitVec.toNat == some 0x1000, goesOn (exec (.pimg g 1 6) s) .Y,
      trapped (exec (.pimg g 1 7) s) == some (0x11, 7, 0x1008), trapped (exec (.pimg g 1 6) idle) == some (0x11, 7, 0)].all id) = true ∧
    (supervised.otherSeq 2) := by
  unfold State.otherSeq
  decide +kernel

/-- A context of device 1 of an idle sequencer without windows. -/
def keptContext : Saved :=
  { vd := 1, state := 0, seq := Seq.reset, v0 := [], v1 := [], t := [], tile := [], ovfc := [], nanc := [], larder := [], bytes := [] }

/-- The header of a context of device 1 with check value c: version 1. -/
def keptHeader (c : Nat) : Nat := 1 + 2 ^ 64 + c * 2 ^ 128

theorem crcBits_lt (n c : Nat) (h : c < 2 ^ 32) : crcBits n c < 2 ^ 32 := by
  induction n generalizing c with
  | zero => exact h
  | succ n ih =>
    unfold crcBits
    refine ih _ ?_
    split
    · exact Nat.xor_lt_two_pow (by omega) (by decide)
    · omega

theorem crc32c_lt (bs : List Byte) : crc32c bs < 2 ^ 32 := by
  unfold crc32c
  refine Nat.xor_lt_two_pow ?_ (by decide)
  unfold crcBytes
  have : ∀ (bs : List Byte) (c : Nat), c < 2 ^ 32 → bs.foldl (fun c b => crcBits 8 (Nat.xor c b.toNat)) c < 2 ^ 32 := by
    intro bs
    induction bs with
    | nil => exact fun _ h => h
    | cons b bs ih => exact fun c h => ih _ (crcBits_lt _ _ (Nat.xor_lt_two_pow h (by have := b.isLt; omega)))
  exact this _ _ (by decide)

theorem ofBytes_toBytes (n x : Nat) : ofBytes (toBytes n x) = x % 256 ^ n := by
  induction n generalizing x with
  | zero => simp [toBytes, ofBytes, Nat.mod_one]
  | succ n ih =>
    rw [toBytes, ofBytes, ih, BitVec.toNat_ofNat, Nat.pow_succ' (m := 256), Nat.mod_mul]

/-- What stands at 4 GiB of device 0 there. -/
theorem loadable_byte {t : State} {c : Nat} (hm : t.mem = Memory.storeAll [] 0 (toBytes 64 (keptHeader c))) (h0 : t.module = 0)
    (hv : (t.vdAt 0).ranges = [⟨2 ^ 32, 2 ^ 33 - 1, -2 ^ 32, true, true, true⟩]) (j : Nat) (hj : j < 2 ^ 20) :
    deviceByte t 0 (2 ^ 32 + j) = if h : j < 64 then (toBytes 64 (keptHeader c))[j]'(by rw [toBytes_length]; exact h) else 0 := by
  have hr : rangeOf (t.vdAt 0) (2 ^ 32 + j) = some ⟨2 ^ 32, 2 ^ 33 - 1, -2 ^ 32, true, true, true⟩ := by
    unfold rangeOf
    rw [hv]
    simp only [List.find?_cons]
    rw [decide_eq_true (by omega), decide_eq_true (by omega)]
    rfl
  have ha : (((2 ^ 32 + j : Nat) : Int) + -2 ^ 32).toNat = j := by omega
  unfold deviceByte Machine.translate
  rw [hr]
  simp only [Bool.false_eq_true, if_false, if_true, ha]
  unfold walkByte
  rw [if_pos (by rw [h0]; unfold physMod; omega), hm]
  split
  · rename_i h
    have := Memory.look_storeAll (m := []) (by decide) 0 (toBytes 64 (keptHeader c)) j (by rw [toBytes_length]; exact h)
    rw [Nat.zero_add] at this
    exact this
  · rw [Memory.look_storeAll_ne (by decide) _ (.inr (by rw [toBytes_length]; omega))]
    rfl

/-- Such a context passes its check, with the check value of its bytes. -/
theorem loadable_ok : ∃ c, ∀ t : State, t.mem = Memory.storeAll [] 0 (toBytes 64 (keptHeader c)) → t.module = 0 →
    (t.vdAt 0).ranges = [⟨2 ^ 32, 2 ^ 33 - 1, -2 ^ 32, true, true, true⟩] → t.saved = [(0, keptContext)] →
    (t.seqAt (siblingOf 2)).status = 0 → (contextOk t 2 1 0 (2 ^ 32) ownBytes).isSome = true := by
  obtain ⟨n, hn⟩ : ∃ n, n = 0x1E800 - 64 := ⟨_, rfl⟩
  refine ⟨crc32c (List.replicate n 0), fun t hm h0 hv hs ho => ?_⟩
  have hlt := crc32c_lt (List.replicate n 0)
  generalize hc : crc32c (List.replicate n 0) = c at hm hlt
  have hb := loadable_byte hm h0 hv
  have hhead : deviceNat t 0 (2 ^ 32) 64 = keptHeader c := by
    unfold deviceNat
    have : (List.range 64).map (fun j => deviceByte t 0 (2 ^ 32 + j)) = toBytes 64 (keptHeader c) := by
      refine List.ext_getElem (by simp [toBytes_length]) fun j h1 h2 => ?_
      rw [List.getElem_map, List.getElem_range, hb j (by simp at h1; omega), dif_pos (by simpa using h1)]
    rw [this, ofBytes_toBytes]
    refine Nat.mod_eq_of_lt ?_
    unfold keptHeader
    omega
  have hbody : (List.range n).map (fun j => deviceByte t 0 (2 ^ 32 + 64 + j)) = List.replicate n 0 := by
    refine List.eq_replicate_iff.2 ⟨by simp, fun b hb' => ?_⟩
    obtain ⟨j, hj, rfl⟩ := List.mem_map.1 hb'
    rw [List.mem_range] at hj
    rw [show 2 ^ 32 + 64 + j = 2 ^ 32 + (64 + j) from by omega, hb (64 + j) (by omega), dif_neg (by omega)]
  have hhandle : deviceNat t 0 (2 ^ 32 + 64 + 8 * handleDword) 8 = 0 := by
    unfold deviceNat
    have : (List.range 8).map (fun j => deviceByte t 0 (2 ^ 32 + 64 + 8 * handleDword + j)) = List.replicate 8 0 := by
      refine List.eq_replicate_iff.2 ⟨by simp, fun b hb' => ?_⟩
      obtain ⟨j, hj, rfl⟩ := List.mem_map.1 hb'
      rw [List.mem_range] at hj
      unfold handleDword
      rw [show 2 ^ 32 + 64 + 8 * 300 + j = 2 ^ 32 + (2464 + j) from by omega, hb (2464 + j) (by omega), dif_neg (by omega)]
    rw [this]; rfl
  have hf : t.saved.find 0 = some keptContext := by rw [hs]; rfl
  have e1 : bitsAt (keptHeader c) 0 16 = 1 := by unfold bitsAt keptHeader; omega
  have e2 : bitsAt (keptHeader c) 64 16 = 1 := by unfold bitsAt keptHeader; omega
  have e3 : bitsAt (keptHeader c) 128 32 = c := by unfold bitsAt keptHeader; omega
  have e4 : ownBytes keptContext = [] := by decide +kernel
  unfold contextOk
  rw [← hn, hbody, hhead, hhandle, hf]
  dsimp only
  rw [e4, List.append_nil, e1, e2, e3, hc, if_pos ⟨rfl, rfl, rfl, rfl, .inl ho⟩]
  rfl

/-- Memory does not decide whether a context load may issue. -/
theorem mayIssue_mem (s : State) (m : Memory) : mayIssue (.ctxload g 1 4 true) ⟨15, false⟩ (s.setMem m) =
    mayIssue (.ctxload g 1 4 true) ⟨15, false⟩ s := by
  have e1 (u : State) : ringBlocked u (.ctxload g 1 4 true) = false := by
    have hr : ringsOf (.ctxload g 1 4 true) = [] := rfl
    have hd : dqsOf (.ctxload g 1 4 true) = [] := rfl
    simp only [ringBlocked, hr, hd, List.isEmpty_nil, Bool.not_true, Bool.false_and, Bool.or_self]
  have e2 : legal (s.setMem m) (.ctxload g 1 4 true) = legal s (.ctxload g 1 4 true) := rfl
  have e3 : (Act.ends (guardHolds ⟨15, false⟩) (s.setMem m)).map (·.1) = (Act.ends (guardHolds ⟨15, false⟩) s).map (·.1) := rfl
  have e4 : imageFull (s.setMem m) (.ctxload g 1 4 true) = imageFull s (.ctxload g 1 4 true) := rfl
  have e5 : drawsUnknown (s.setMem m) (.ctxload g 1 4 true) = drawsUnknown s (.ctxload g 1 4 true) := rfl
  unfold mayIssue
  rw [e1, e1, e2, e3, e4, e5]
  rfl

theorem contextOk_none (t : State) (h : t.saved = []) (v : Nat) : contextOk t 2 1 v (2 ^ 32) ownBytes = none := by
  unfold contextOk
  rw [h]
  rfl

/-- Device 1's supervisor with a load begun on location 2, idle, with that context saved. -/
def begunLoad (b : State) : State :=
  { (b.setSeq 2 Seq.reset).setMe { b.me with latch := some (7, 0, 2 + 512 * 2 ^ 32) } with saved := [(0, keptContext)] }

/-- The same once the load's wait is over. -/
def dueLoad (b : State) : State := (begunLoad b).setMe { (begunLoad b).me with latch := none }

/-- With such a context in memory. -/
def filled (c : Nat) (b : State) : State := b.setMem (Memory.storeAll [] 0 (toBytes 64 (keptHeader c)))

theorem dueLoad_facts (b : State) (hc : b.cur.loc = 0) (h3 : (b.seqAt 3).status = 0) (ho : b.myVd = 0) :
    ((dueLoad b).seqAt (siblingOf 2)).status = 0 ∧ (dueLoad b).myVd = 0 := by
  have h1 : ((b.setSeq 2 Seq.reset)).cur.loc = 0 := hc
  have h2 : (begunLoad b).cur.loc = 0 := hc
  constructor
  · rw [show siblingOf 2 = 3 from rfl, dueLoad, State.seqAt_setMe_ne _ _ _ (by rw [h2]; decide), begunLoad]
    show ((State.setMe _ _).seqAt 3).status = 0
    rw [State.seqAt_setMe_ne _ _ _ (by rw [h1]; decide), State.setSeq_seqAt_ne b 2 Seq.reset 3 (by decide)]
    exact h3
  · have e : (begunLoad b).me = { b.me with latch := some (7, 0, 2 + 512 * 2 ^ 32) } := by
      rw [begunLoad]
      exact State.me_setMe (b.setSeq 2 Seq.reset) _
    rw [State.myVd, dueLoad, State.me_setMe, e]
    exact ho

/-- O43: with such a context the load has what it needs; without one it has not. -/
theorem witness_ContextsAreSavedLoadedAndImaged_load :
    ∃ c, let s := filled c (begunLoad supervised)
      let u := filled c (dueLoad supervised)
      mayIssue (.ctxload g 1 4 true) ⟨15, false⟩ s = true ∧ engineMine s 2 = false ∧ (u.quadAt (partOf 2)).resident = some 1 ∧
      s.me.latch = some (7, 0, 2 + 512 * 2 ^ 32) ∧ u = s.setMe { s.me with latch := none } ∧
      (contextOk u 2 1 u.myVd (2 ^ 32) ownBytes).isSome = true ∧ contextOk { u with saved := [] } 2 1 u.myVd (2 ^ 32) ownBytes = none := by
  obtain ⟨c, h⟩ := loadable_ok
  obtain ⟨h5, h6⟩ := dueLoad_facts supervised (by decide +kernel) (by decide +kernel) (by decide +kernel)
  have f1 : mayIssue (.ctxload g 1 4 true) ⟨15, false⟩ (begunLoad supervised) = true := by decide +kernel
  have f2 : engineMine (begunLoad supervised) 2 = false := by decide +kernel
  have f3 : (supervised.quadAt (partOf 2)).resident = some 1 := by decide +kernel
  have f4 : (supervised.vdAt 0).ranges = [⟨2 ^ 32, 2 ^ 33 - 1, -2 ^ 32, true, true, true⟩] := by decide +kernel
  have f5 : supervised.module = 0 := by decide +kernel
  have f6 : (begunLoad supervised).me.latch = some (7, 0, 2 + 512 * 2 ^ 32) := by decide +kernel
  generalize supervised = b at *
  refine ⟨c, ?_⟩
  have g1 : (filled c (dueLoad b)).mem = Memory.storeAll [] 0 (toBytes 64 (keptHeader c)) := by rw [filled, State.setMem_mem]
  have g2 : (filled c (dueLoad b)).module = 0 := by rw [filled, State.setMem_module]; exact f5
  have g3 : ((filled c (dueLoad b)).vdAt 0).ranges = [⟨2 ^ 32, 2 ^ 33 - 1, -2 ^ 32, true, true, true⟩] := by rw [filled, State.setMem_vdAt]; exact f4
  have g4 : (filled c (dueLoad b)).saved = [(0, keptContext)] := by rw [filled, State.setMem_saved]; rfl
  have g5 : ((filled c (dueLoad b)).seqAt (siblingOf 2)).status = 0 := by rw [filled, State.setMem_seqAt]; exact h5
  have g6 : (filled c (dueLoad b)).myVd = 0 := by rw [State.myVd, filled, State.setMem_me]; exact h6
  have g7 : engineMine (filled c (begunLoad b)) 2 = engineMine (begunLoad b) 2 := by
    unfold engineMine
    simp only [filled, State.setMem_dieAt, State.setMem_cur]
  have g8 : (filled c (dueLoad b)).quadAt (partOf 2) = b.quadAt (partOf 2) := by rw [filled, State.setMem_quadAt, dueLoad, State.setMe_quadAt]; rfl
  refine ⟨?_, g7.trans f2, (congrArg Quad.resident g8).trans f3, ?_, ?_, ?_, ?_⟩
  · rw [filled, mayIssue_mem]
    exact f1
  · rw [filled, State.setMem_me]
    exact f6
  · have g9 (x : State) (q : Seq) (m : Memory) : (x.setMe q).setMem m = (x.setMem m).setMe q := rfl
    rw [filled, filled, State.setMem_me, dueLoad, g9]
  · rw [g6]
    exact h _ g1 g2 g3 g4 g5
  · exact contextOk_none _ rfl _

/-! ### What moves between steps: O44 to O46 -/

/-- Rings of location 0: 1 fill and full, 3 fill and empty, 5 gather with two joined rows asked for, 2 drain with its first entry pushed, 6 the
same into drain queue 1, 7 a compressed fill ring. -/
def moving : State :=
  let full : RingEntry := ⟨BitVec.ofNat 512 (rep 32 16 0x3F800000), 512, true, [], none, 0⟩
  withLocal (on .L [] (fun q => { q with
    gqueue := [(5, 3), (5, 4)], tiles := [⟨1, .clear, 0, false⟩], rings :=
    [(1, bound (strm 0x100 2048 4 2 0 0) (List.range 64)), (3, Ring.fresh (strm 0x800 16 4 2 0 0) false),
     (5, Ring.fresh (strm 0x800 64 1 0 0 0 (16 * 2 ^ 80 + 64 * 2 ^ 160 + 2 ^ 268)) true),
     (2, { drain (strm 0x400 32 4 8 1 0) with entries := [full] }), (6, { drain (strm 0x400 32 4 8 1 2 (2 ^ 266)) with entries := [full] }),
     (8, { drain (strm 0x400 32 4 8 1 2 (2 ^ 266)) with entries := [{ full with valid := 0 }] }),
     (7, Ring.fresh (strm 0xA00 16 4 2 0 0 (2 ^ 279)) false)] }))
    [(0x800, 64, lanes 32 (List.range 16)), (0x8C0, 8, 0x1122334455667788)]

/-- O44: a ring with room and one without, joined rows, an entry pushed whole, into memory and into a drain queue, one that a qadv
skipped, the last of the next four
chunks and the one after it, a tile write due and none on that tile. -/
theorem witness_RingsTilesAndFillsProgress :
    (let s := moving
     let m := s.me
     let ring (n : Nat) := (m.rings.find n).getD (drain 0)
     let after (i : Instr) (n : Nat) : Option Ring := (next (exec i s)).bind (fun t => t.me.rings.find n)
     [!(ring 3).dir, (ring 3).entries.length < ringDepth m 3, (nextEntry s 0 (ring 3)).isSome, (after (.ringEntryFill 0 3) 3).map (fun r => (r.moved, r.entries.map (·.data.toNat))) == some (1, [lanes 32 (List.range 16)]),
      ringDepth m 1 == 64, (next (exec (.ringEntryFill 0 1) s)) == some s, (ring 5).gather, (ring 5).rows.isEmpty, joinedRows (ring 5) 2 [3, 4] == [3, 4], joinedRows (ring 5) 1 [3, 4] == [3],
      (after (.gatherRowFetch 0 5 2) 5).map (fun r => r.rows.map (fun e => e.data.toNat % 2 ^ 64)) == some [0x1122334455667788, 0],
      (headReady m (ring 2)).isSome, (ring 2).fin == 0, (after (.ringEntryDrain 0 2) 2).map (fun r => (r.moved, r.entries.length)) == some (1, 0),
      (next (exec (.ringEntryDrain 0 2) s)).map (fun t => (localAt t 0 0x400 4, localAt t 0 0x43C 4, localAt t 0 0x440 4)) == some (0x3F800000, 0x3F800000, 0),
      (headReady m (ring 6)).isSome, (ring 6).fin == 2, (ring 6).dq == 1, dqCount m 1 == 0, (next (exec (.drainQueueForward 0 6) s)).map (fun t => ((t.me.dqs.look [] 1).map (·.fwd))) == some [true],
      (headReady m (ring 8)).map (·.valid) == some 0, (next (exec (.drainQueueForward 0 8) s)).map (fun t => (t.me.dqs.look [] 1, (t.me.rings.find 8).map (·.moved))) == some ([], some 1),
      (ring 7).comp == 1, (ring 7).fail == 0, (ring 7).relElts != (ring 7).total, (ring 7).relNo == 0, !(ring 7).chunks.has 3, (after (.chunkDecode 0 7 3) 7).map (fun r => r.chunks.map (·.1)) == some [3],
      (next (exec (.chunkDecode 0 7 4) s)) == some s, m.tiles.any (fun w => w.acc == 1 && w.complete), (next (exec (.tileWriteComplete 0 1) s)).map (·.me.tiles) == some [],
      (next (exec (.tileWriteComplete 0 2) s)).map (fun t => t.me.tiles.length) == some 1, next (exec (.mlarFillComplete 0) s) == some s].all id) = true := by decide +kernel

/-- A load, an `ldr`, a store and an atomic of device memory under way. -/
def flying (i : Instr) (x : Slot) : State := ((next (exec i (on x [(⟨.b, 1⟩, 2 ^ 32), (⟨.w, 1⟩, 2 ^ 32), (⟨.w, 3⟩, 7), (⟨.w, 5⟩, 9)]))).getD State.reset)

/-- A state whose first packet has been taken. -/
def takenUp (s : State) : State := { s with net := s.net.map (fun p => { p with accepted := true }) }

/-- O45: at the home a read, a write without a record, with one and with a full window; at the requester each kind of access in time, a late
`ldr`, an answer for another key, for no entry and for a context being written; cached accesses; an offer to its own module, behind another of its flow, and toward another module; a walk. -/
theorem witness_HomesPerformAndRepliesReturn :
    (let ld := flying (.ld g (.here (.own 3)) (.own 1) (.own 0) 0 .b64) .L
     let ldr := flying (.ldr g (.here (.own 3)) (.own 1) false 63 0 .b64) .L
     let st := flying (.st g (.own 3) (.own 1) (.own 0) 0 .b64) .W
     let at7 := flying (.ratom g 5 (.own 1) 3 0 false 0 0 .b64) .W
     let p (s : State) : Packet := ((s.net).head?).getD ⟨0, .read 0, ⟨0, false, 0, 0, 0⟩, 0, 0, 0, 0, 0, 0, 0, 0, 0, 0, false, false, false, none, 0⟩
     let home (s : State) : State := (next (exec (.homeAccess 0) s)).getD s
     let known (s : State) : State := addRecord s (p s).ep ⟨(p s).key, (p s).off, 5, 0⟩
     let full (s : State) : State := s.setEp (p s).ep { s.epAt (p s).ep with window := List.replicate Config.windowRecords ⟨⟨99, false, 9, 9, 9⟩, 0, 0, 0⟩ }
     let late := ldr.setMe { ldr.me with steps := [(4, 1024)] }
     let wrong (s : State) : State := { home s with net := (home s).net.map (fun q => { q with key := ⟨99, false, 9, 9, 9⟩ }) }
     let none' (s : State) : State := (home s).setMe { (home s).me with ifr := [] }
     let cached (s : State) : State := { s with net := s.net.map (fun q => { q with ca := true }) }
     let writing (s : State) : State := s.setDie 0 { s.dieAt 0 with job := some ⟨1, 0, 0, false, 3, none, [], none⟩ }
     let ready (s : State) (i : Instr) : Bool := ((home s).answerFor 0 0).map (·.key) == (s.me.ifr.find 0).map (·.key) && ((next (exec i (home s))).map (fun t => t.net.isEmpty && t.me.ifr.all (fun e => e.2.state == 3))) == some true
     [[ld, ldr, st, at7].map (fun s => s.net.map (fun q => (q.id, q.accepted, q.dst))) == List.replicate 4 [(0, true, 0)],
      [ld, ldr, st, at7].all (fun s => !flowBlocked s (p s)), [ld, ldr, st, at7].map (fun s => s.me.ifr.map (fun e => (e.1, e.2.kind, e.2.state))) == [[(0, 1, 1)], [(0, 4, 1)], [(0, 2, 1)], [(0, 6, 1)]],
      (p ld).kind == .read 8, (p st).kind == .write [7, 0, 0, 0, 0, 0, 0, 0] 255, (home ld).net.map (·.kind) == [.reply 0 0], (recordOf st (p st).ep (p st).key 0).isNone,
      (home st).mem.look (p st).addr == 7, ((home st).epAt (p st).ep).window.length == 1, (home (known st)).mem.look (p st).addr == 0, (home (known at7)).net.map (·.kind) == [.reply 5 0],
      (home (full st)).net.map (·.refused) == [true], !isLate ldr.me 0, isLate late.me 0, ready ld (.loadReply 0 0), ready ldr (.loadReply 0 0), ready late (.ldrLateReply 0 0),
      ready st (.storeAck 0 0), ready at7 (.atomicReply 0 0), (next (exec (.loadReply 0 0) (wrong ld))).map (fun t => (t.net.length, t.me.ifr.length)) == some (0, 1),
      (next (exec (.loadReply 0 0) (none' ld))).map (fun t => t.net.length) == some 0,
      (home (cached ld)).net.map (·.kind) == [.reply 0 0], (home (cached st)).net.map (·.kind) == [.reply 0 0], ((home (cached st)).epAt (p st).ep).window.length == 1, (home (cached (known st))).tokens == st.tokens,
      engineWrites (writing ld) 0, (next (exec (.storeAck 0 0) (writing (home st)))).map (fun t => (t.net.length, t.me.ifr.map (·.2.state))) == some (0, [1])].all id) = true ∧
    (let ld := flying (.ld g (.here (.own 3)) (.own 1) (.own 0) 0 .b64) .L
     let p := ((ld.net).head?).getD ⟨0, .read 0, ⟨0, false, 0, 0, 0⟩, 0, 0, 0, 0, 0, 0, 0, 0, 0, 0, false, false, false, none, 0⟩
     let w (q : Packet) : State := { ld with net := [q] }
     let q := { p with accepted := false }
     let out := { q with dst := 1 }
     let two (q : Packet) : State := { ld with net := [q, { q with id := 1 }] }
     let up := (w out).setLink 0 { Link.reset with up := true }
     let dead := ((w out).setLink 0 { Link.reset with up := true, dead := true })
     let offered (s : State) (pk : Nat) : Option (Bool × Bool) := (next (exec (.packetOffer pk) s)).bind (fun t => (t.packet pk).map (fun q => (q.accepted, q.refused)))
     let k : Walk := { no := 3, part := 0, vd := 1, page := 2 ^ 20, active := true, found := none, code := 0 }
     let walking := ld.setDie 0 { ld.dieAt 0 with walks := [k] }
     [p.toward == 0, offered (w p) 0 == some (true, false), offered (w { p with refused := true }) 0 == some (true, false), offered (w q) 0 == some (true, false),
      earlierInFlow (two q) { q with id := 1 } (fun q => !q.accepted), offered (two q) 1 == some (false, true), out.toward == 1, !((w out).link 0).dead, chooseDir (w out) out == 0,
      offered (w out) 0 == some (false, true), !(dead.link 1).dead, chooseDir up out == 1, slotFree up out 1, offered up 0 == some (true, false),
      (next (exec (.pageTableWalk 24) walking)).map (fun t => (t.dieAt 0).walks.map (fun w => (w.no, w.active, w.found.isSome || w.code != 0))) == some [(3, true, true)]].all id) = true := by
  decide +kernel

/-- The state after a move that goes on. -/
def after (i : Instr) (s : State) : State := (next (exec i s)).getD s

/-- O46: a transfer of location 0 to its own core with its source whole and with a bad word, and taken up; its beat at an endpoint where the
device is resident and not, with and without a record; its end; the answers to a cget box that matches and that no map takes; a card
that fits, one that is in the way of another, one with a region outside the windows, a collective, and their ends. -/
theorem witness_TransfersAndCardsProgress :
    (let s := (withMaps sender [(0, ⟨BitVec.ofNat 512 (landing), 1, none⟩)])
     let s := withLocal s [(0x2000, 64, lanes 32 (List.range 16)), (0x800, 64, lanes 32 (List.replicate 16 9))]
     let put := after (.cput g 2 9 1 5) s
     let bad := { put with marks := [localPhys put 0 0x2004 / 8] }
     let sent := after (.transferSourceRead 0 0) put
     let away := sent.setQuad 0 { sent.quadAt 0 with resident := none }
     let p := (sent.packet 1).getD ⟨0, .read 0, ⟨0, false, 0, 0, 0⟩, 0, 0, 0, 0, 0, 0, 0, 0, 0, 0, false, false, false, none, 0⟩
     let known := addRecord sent p.ep ⟨p.key, p.off, 0, 0⟩
     let begun := after (.landingBeat 0) sent
     let landed := after (.landingBeat 1) begun
     let ended := after (.transferComplete 0 0) landed
     let both := after (.cput g 2 9 1 5) (put.setMe { put.me with steps := [] })
     let second := after (.transferSourceRead 0 1) (after (.transferSourceRead 0 0) both)
     let q := (second.packet 3).getD p
     let transfers := both.me.ifr.map (·.2)
     let get := after (.cget g 2 9 2) s
     let homeless := after (.cget g 2 9 2) (withMaps s [])
     let ask := (get.net.head?).getD p
     let late := landed.setEp 0 { landed.epAt 0 with arrive := [⟨p.key, 0, 0, 0, 0, BitVec.ofNat 512 (xfer 0), none, 2, [], 1, [], false, 0, 0, 7, [(0, 1)]⟩] }
     [(put.me.ifr.find 0).map (fun e => (e.kind, e.state, e.fault, e.beats, e.total)) == some (7, 1, 0, 0, 1), put.me.save == 0,
      sent.net.map (fun p => match p.kind with | .beat _ _ n m b => (n, m, b.length) | .header _ _ m => (m, 0, 0) | _ => (9, 9, 9)) == [(1, 0, 0), (0, 1, 64)], begun.net.map (·.id) == [1],
      ((after (.transferSourceRead 0 0) bad).me.ifr.find 0).map (fun e => (e.state, e.code)) == some (4, 0x70), p.accepted && p.dst == 0 && !flowBlocked begun p && flowBlocked sent p,
      (put.me.ifr.find 0).any (fun e => let t : TransferDesc := e.desc.setWidth 512; !sendsAfter put 0 e (TransferDesc.dest t / 512) (TransferDesc.endpoint t)), !landsAfter sent p, landsAfter second q,
      (after (.landingBeat 3) second).net.length == 4, (after (.landingBeat 3) second).epAt 0 == second.epAt 0, (transfers.map (·.total)) == [1, 1], landingOpen sent 0 1, !landingOpen away 0 1, (after (.landingBeat 0) away).net.map (·.refused) == [true, false], (after (.landingBeat 1) (begun.setQuad 0 { begun.quadAt 0 with resident := none })).net.map (·.refused) == [true], (recordOf sent 0 p.key p.off).isNone, (recordOf known 0 p.key p.off).isSome,
      localAt landed 0 0x800 64 == lanes 32 (List.range 16), localAt (after (.landingBeat 1) known) 0 0x800 4 == 9,
      (landed.me.ifr.find 0).map (·.state) == some 1 && landed.net.length == 1, ended.me.ifr.isEmpty, horizonOf ended.me 2 == 1,
      (match ask.kind with | .ask _ => true | _ => false) && ask.accepted, (after (.cgetSourceResolve 0) get).net.map (fun p => match p.kind with | .beat _ _ n m b => (n, m, b.length) | .header _ _ m => (m, 0, 0) | _ => (9, 9, 9)) == [(1, 0, 0), (0, 1, 64)],
      (after (.cgetSourceResolve 0) homeless).net.map (·.kind) == [.refuse 0x50 0], (copiesOf late 7).isSome, (late.packet 7).isNone,
      (after (.landingBeat 7) late |> (copiesOf · 7)).isNone].all id) = true ∧
    (let s := withLocal (sender) [(0x2000, 64, lanes 32 (List.range 16))]
     let one := after (.ccard g 2 9 3) s
     let two := after (.ccard g 2 9 3) (one.setMe { one.me with steps := [] })
     let far := one.setDie 0 { one.dieAt 0 with cards := (one.dieAt 0).cards.map (fun x => { x with bits := BitVec.ofNat 1024 (card 0 64 0x600000 64 1) }) }
     let col := after (.ccard g 2 9 4) s
     let begun := after (.jobCardStart 0 1) one
     let ended := after (.jobCardComplete 0 1) begun
     let cards (s : State) : List (Nat × Bool) := (s.dieAt 0).cards.map (fun x => (x.no, x.started))
     [cards one == [(1, false)], (one.me.ifr.find 0).map (fun e => (e.kind, e.fault, e.code)) == some (9, 0, 0), cards begun == [(1, true)], cards two == [(1, false), (2, false)],
      cards (after (.jobCardStart 0 2) two) == [(1, false), (2, false)], ((after (.jobCardStart 0 1) far).me.ifr.find 0).map (·.code) == some 0x11, (one.me.ifr.find 0).any (fun e => (receiversOf one 0 e).all (fun r => !sendsAfter one 0 e r.1 r.2.1)),
      (col.me.ifr.find 0).any (fun e => (receiversOf col 0 e).length == 1 && (receiversOf col 0 e).all (fun r => !sendsAfter col 0 e r.1 r.2.1)), (begun.me.ifr.find 0).map (·.code) == some 0,
      cards ended == [], localAt ended 0 0x3000 64 == lanes 32 (List.range 16), localAt ended 0 0x1082 1 == 1, ((after (.jobCardStart 0 1) col).me.ifr.find 0).map (fun e => (e.left, e.total)) == some (1, 1),
      (after (.jobCardStart 0 1) col).net.length == 2].all id) = true := by decide +kernel

/-! ### The outside: O47 to O52 -/

/-- A code object of 320 bytes with one bundle at 256 (Table 26.6 and R37), windows of 8 registers in V0. -/
def code : Nat := 1 + 320 * 2 ^ 32 + 256 * 2 ^ 64 + 64 * 2 ^ 96 + 8 * 2 ^ 192

/-- A launch packet of device 1 for one task on partition 0, code at 4 GiB (Table 20.1). -/
def packet (tasks tps : Nat) : Nat := 1 + 2 ^ 16 + 2 ^ 32 * 2 ^ 64 + tasks * 2 ^ 128 + tps * 2 ^ 160 + 2 ^ 176 + 2 ^ 224

/-- Device 1 resident on partition 0 with its code object in memory, no task running. -/
def waitingHost : State :=
  let s := (on .S []).setSeq 0 Seq.reset
  s.setMem (s.mem.storeAll (physOf s 0 0 0) (toBytes 256 code))

/-- O47: a packet before bring-up is done, at another offset, one byte short, with more tasks than sequencers, and one that passes; a task
started; records in both rings, in a full one, and of a device that is not resident. -/
theorem witness_LaunchesTasksAndRecordsRun :
    (let s := waitingHost
     let p : LaunchPacket := BitVec.ofNat 1024 (packet 2 1)
     let bytes (n : Nat) : List Byte := toBytes 128 n
     let codes (s : State) : List (Nat × Nat) := (s.dieAt 0).lane.map (fun r => (bitsAt r.bits.toNat 0 8, r.vd))
     let ok := after (.launchPacket 0 (bytes (packet 2 1))) s
     let ran := after (.taskStart 0) ok
     let lanes (f l : List Rec) (open' : Nat) : State := s.setDie 0 { s.dieAt 0 with fatal := f, lane := l, ringRegs := [(1, 3), (2, 8), (3, BitVec.ofNat 64 open'), (5, 3), (6, 8), (7, BitVec.ofNat 64 open')] }
     let counts (s : State) : Nat × Nat × Nat × Nat := ((s.dieAt 0).fatal.length, (s.dieAt 0).lane.length, (s.dieAt 0).ring 0 2, (s.dieAt 0).ring 1 2)
     [s.ready, launchCheck s p == 0, launchCheck s (BitVec.ofNat 1024 (packet 9 1)) == 4, launchCheck s (BitVec.ofNat 1024 (packet 8 1)) == 0, launchCheck s (BitVec.ofNat 1024 (packet 0 1)) == 2,
      s.casts.isEmpty, (next (exec (.launchPacket 0 (bytes (packet 2 1))) { s with ready := false })) == some { s with ready := false, casts := [.launch 0 (bytes (packet 2 1))] }, (after (.launchPacket 8 (bytes (packet 2 1))) s).lseq == 0,
      (codes (after (.launchPacket 8 (bytes (packet 2 1))) s)).length == 1, (codes (after (.launchPacket 0 ((bytes (packet 2 1)).take 127)) s)).length == 1,
      (after (.launchPacket 0 (bytes (packet 9 1))) s).lseq == 1, (codes (after (.launchPacket 0 (bytes (packet 9 1))) s)).length == 1,
      (ownDies s p).all (fun e => decide (queueLength s e.2 1 0 < Config.queueLaunches)), ok.lseq == 1, (ok.dieAt 0).launches.map (fun l => (l.lseq, l.elig, l.todo)) == [(0, List.range 8, [(0, [0]), (1, [1])])],
      (ok.seqAt 0).status == 0, (nextLaunch ok 0).map (fun l => l.todo.look [] 0) == some [0], fitsSibling ok 0 ran.me.task, ran.me.status == 1, ran.me.task.num == 0, ran.me.task.winV0 == 8,
      (after (.taskStart 1) ran |>.seqAt 1).task.num == 1, (after (.taskStart 2) ran |>.seqAt 2).status == 0, ringOpen ((lanes [] [] 1).dieAt 0) 1, !ringOpen ((lanes [] [] 0).dieAt 0) 1,
      counts (after (.recordDelivery 0 true) (lanes [⟨1, 0, false⟩] [⟨1, 0, false⟩] 1)) == (0, 1, 8, 9), counts (after (.recordDelivery 0 false) (lanes [⟨1, 0, false⟩] [⟨1, 0, false⟩] 1)) == (1, 1, 8, 8),
      counts (after (.recordDelivery 0 false) (lanes [] [⟨2, 0, false⟩, ⟨1, 0, false⟩] 1)) == (0, 1, 9, 8), counts (after (.recordDelivery 0 false) (lanes [] [⟨1, 0, false⟩] 0)) == (0, 1, 8, 8)].all id) = true := by
  decide +kernel

/-- O48: each command with a target in the right state, in the wrong one and with none. -/
theorem witness_CommandsAnswerWithTheirStatus :
    (let s := waitingHost
     let c (s : State) (args : List Nat) : State := commanded s 5 args
     let st (i : Instr) (s : State) : Option Nat := statusOf (exec i s) 5
     let parked : Arrival := ⟨⟨7, true, 0, 0, 1⟩, 0, 0, 0, 0, BitVec.ofNat 512 (xfer 0), none, 1, [], 1, [], true, 0, 0, 0, []⟩
     let p := s.setEp 0 { s.epAt 0 with arrive := [parked] }
     let emp := s.setQuad 0 { s.quadAt 0 with resident := none }
     let atWork := s.setDie 0 { s.dieAt 0 with job := some ⟨1, 0, 0, false, 3, some 9, [], none⟩ }
     let link (k : Link) : State := s.setLink 1 k
     let walks := s.setDie 0 { s.dieAt 0 with walks := [⟨3, 0, 1, 5, false, some (0, true), 0⟩, ⟨4, 0, 1, 6, true, none, 0⟩] }
     [bitsAt (((c s [2, 0, 0]).dieAt 0).dword 5 0) 8 16 == 1, parkedEndpoint 0 0 == some 0, parkedEndpoint 0 4 == none, st (.discardParkedTransfer 0 5) (c p [2, 0, 0]) == some 1,
      (after (.discardParkedTransfer 0 5) (c p [2, 0, 0])).epAt 0 != (c p [2, 0, 0]).epAt 0, st (.discardParkedTransfer 0 5) (c p [2, 4, 0]) == some 3, !engineBusy (c s [3, 1, 0]) 0 5,
      ownPartition s 1 0 == some 0, ownPartition s 1 1 == none, st (.savePartition 0 5) (c s [3, 1, 0]) == some 0, ((after (.savePartition 0 5) (c s [3, 1, 0])).dieAt 0).job.map (fun j => (j.vd, j.part, j.restore)) == some (1, 0, false),
      st (.savePartition 0 5) (c emp [3, 1, 0]) == some 2, st (.savePartition 0 5) (c s [3, 1, 1]) == some 3, ((after (.endSlice 0 5) (c s [5, 1, 0])).dieAt 0).job.isSome, st (.restorePartition 0 5) (c emp [4, 1, 0]) == some 1,
      ((after (.restorePartition 0 5) (c emp [4, 1, 0])).quadAt 0).resident == some 1, st (.restorePartition 0 5) (c s [4, 1, 0]) == some 2, !emp.images.has (imageKey 1 0),
      ((after (.restorePartition 0 5) (c { emp with images := [(4096, ⟨1, [], [], [], [], [], [], [], [], []⟩)] } [4, 1, 0])).dieAt 0).job.map (·.restore) == some true,
      st (.retrainLink 0 5) (c (link { Link.reset with up := true, lanes := 8 }) [6, 0, 1]) == some 1, ((after (.retrainLink 0 5) (c (link { Link.reset with up := true, lanes := 8 }) [6, 0, 1])).link 1).lanes == 16,
      st (.retrainLink 0 5) (c (link { Link.reset with up := true, lanes := 16 }) [6, 0, 1]) == some 2, st (.retrainLink 0 5) (c (link { Link.reset with up := true, lanes := 8, retrain := some 0 }) [6, 0, 1]) == some 2,
      s.vds.has 1, (s.dies.all (fun e => e.2.job.isNone)), st (.functionLevelReset 0 5) (c s [7, 1]) == some 1, ((after (.functionLevelReset 0 5) (c s [7, 1])).quadAt 0).resident == none,
      st (.functionLevelReset 0 5) (c atWork [7, 1]) == some 0, ((after (.functionLevelReset 0 5) (c atWork [7, 1])).dieAt 0).job.map (·.abort) == some [5], ((after (.functionLevelReset 0 5) (c atWork [7, 1])).quadAt 0).resident == some 1,
      st (.writeVdRegister 0 5) (c s [8, 1, 0x105, 2500, 0]) == some 1, ((after (.writeVdRegister 0 5) (c s [8, 1, 0x105, 2500, 0])).vdAt 1).grace == 2500, st (.writeVdRegister 0 5) (c s [8, 1, 0x105, 2500, 1]) == some 3,
      ((after (.writeVdRegister 0 5) (c s [8, 1, 0x104, 5, 0])).vdAt 1).masks == [(0, 5)], perPartition 0x104, !perPartition 0x105, st (.writeVdRegister 0 5) (c s [8, 1, 0x104, 5, 1]) == some 3,
      st (.transInv 0 5) (c walks [9, 1]) == some 1, ((after (.transInv 0 5) (c walks [9, 1])).dieAt 0).walks.map (·.no) == [4], st (.attestationReport 0 5) (c { s with lmsLeaf := 2 ^ 20 } [10, 9, 64, 0]) == some 2].all id) = true ∧
    (commanded waitingHost 5 [10, 9, 0x5FF000, 0]).commandReady 0 5 10 ∧ 0x5FF000 % 64 = 0 ∧ 0x5FF000 + 4096 = Config.localBytes := by
  unfold State.commandReady
  decide +kernel

/-- O49: a window that ends now and one later; a withdraw on its way to two places, to its last, acknowledged by one of two and by the last; a
save that may not go on, goes on and ends, one that a reset aborts, a restore; horizons that moved and that stand; an endpoint of two. -/
theorem witness_SlicesWithdrawsSavesAndHorizons :
    (let s := on .S []
     let sl := s.setSeq 0 { s.seqAt 0 with slice := some 9 }
     let w (d a : List Nat) : State := { s with withdraws := [⟨0, d, a⟩] }
     let ws (s : State) : List (Nat × List Nat × List Nat) := s.withdraws.map (fun w => (w.loc, w.discard, w.acks))
     let idle := s.setSeq 0 Seq.reset
     let j (restore abort : Bool) (done : Nat) : SaveJob := ⟨1, 0, 0, restore, done, some 5, if abort then [7] else [], none⟩
     let last := (jobBlocks idle (j false false 0)).length + 7
     let job (s : State) (k : SaveJob) : State := (commanded s 5 [3, 1, 0]).setDie 0 { (commanded s 5 [3, 1, 0]).dieAt 0 with job := some k }
     let st (s : State) : Nat := bitsAt ((s.dieAt 0).dword 5 0) 24 8
     let moved := s.setSeq 0 { s.seqAt 0 with epoch := 1, horizons := List.replicate 9 0, chans := [(2, { Channel.reset with next := 7 })] }
     let pub : State := { s with published := [⟨0, 0, 0, List.replicate 9 5, [0, 1]⟩] }
     let pub := pub.setEp 0 { pub.epAt 0 with window := [⟨⟨2 * 2 ^ 30 + 3, true, 0, 0, 1⟩, 0, 0, 0⟩, ⟨⟨2 * 2 ^ 30 + 9, true, 0, 0, 1⟩, 0, 0, 0⟩, ⟨⟨3, true, 4, 0, 1⟩, 0, 0, 0⟩] }
     [sl.me.status == 1, (next (exec (.sliceGraceExpiry 0) { sl with now := 8 })) == some { sl with now := 8 }, (after (.sliceGraceExpiry 0) { sl with now := 9 }).me.status == 3,
      ws (after (.withdrawReceive 0 4) (w [4, 5] [])) == [(0, [5], [4])], ws (after (.withdrawReceive 0 4) (w [4] [])) == [(0, [], [4])], ws (after (.withdrawReceive 0 6) (w [4] [])) == [(0, [4], [])],
      ws (after (.withdrawAck 0 4) (w [] [4, 5])) == [(0, [], [5])], ws (after (.withdrawAck 0 4) (w [5] [4])) == [(0, [5], [])], ws (after (.withdrawAck 0 4) (w [] [4])) == [],
      !jobReady s (j false false 0), jobReady idle (j false false 0), ((after (.saveStep 0) (job s (j false false 0))).dieAt 0).job.map (·.done) == some 0,
      ((after (.saveStep 0) (job idle (j false false 1))).dieAt 0).job.map (·.done) == some 2, ((after (.saveStep 0) (job idle (j false true 1))).dieAt 0).job.isNone, (jobBlocks idle (j false false 0))[1]?.isSome,
      (jobHeaders (j false false 0)).length == 8, ((after (.saveStep 0) (job idle (j false false (last - 1)))).dieAt 0).job.map (·.done) == some last,
      (st (after (.saveStep 0) (job idle (j false false last)))) == 1, ((after (.saveStep 0) (job idle (j false false last))).dieAt 0).job.isNone, ((after (.saveStep 0) (job idle (j false false last))).images.has 4096),
      ((after (.saveStep 0) (job idle (j false false last))).quadAt 0).resident == none, jobReady s (j true false 0), ((after (.saveStep 0) (job idle (j true false 0))).dieAt 0).job.map (·.done) == some 1,
      moved.me.past.isEmpty, horizonsOf moved.me != moved.me.horizons, (after (.horizonPublish 0) moved).published.length == 1, (after (.horizonPublish 0) moved).me.horizons == horizonsOf moved.me,
      (next (exec (.horizonPublish 0) (after (.horizonPublish 0) moved))) == some (after (.horizonPublish 0) moved), (after (.horizonRetire 0 0) pub).published.map (·.eps) == [[1]],
      ((after (.horizonRetire 0 0) pub).epAt 0).window.map (fun r => (r.key.tag % 2 ^ 30, r.key.origin)) == [(9, 0), (3, 4)], (after (.horizonRetire 1 0) (after (.horizonRetire 0 0) pub)).published.isEmpty].all id) = true := by
  decide +kernel

/-- O50: the first and the last dword of each range of the state window and those beside them, PROD, a running and a frozen view; the last
bytes of the first tier and one past them; tables that keep the rules, overlap, and are too long; a device that is there; the last minimum. -/
theorem witness_HostAndHypervisorAct :
    (let s := supervised
     let put (o x : Nat) : State := after (.hostStateStore 0 o (BitVec.ofNat 64 x)) s
     let view := s.setSeq 2 { s.seqAt 2 with ifr := [(1, Ifr.blank)] }
     let runs := view.setSeq 2 { view.seqAt 2 with status := 1 }
     let reply (s : State) : Option Nat := ((s.seqAt 2).ifr.find 1).map (fun e => e.reply.toNat)
     let e (a b : Nat) : RangeEntry := ⟨a, b, 0, true, true, true⟩
     let rest := s.setVd 1 { s.vdAt 1 with shares := (s.vdAt 1).shares.put 0 0 }
     let most := Config.ingressMinimums - allShares rest 0
     let share (n : Nat) : Option Nat := ((after (.minimumShareSetting 0 1 0 n) s).vdAt 1).shares.find 0
     [((put 0x100001000 9).dieAt 0).dword 0 0 == 9, ((put 0x100001000 9).dieAt 0).due == [0], ((put 0x100001FF8 9).dieAt 0).dword 63 7 == 9, ((put 0x100001FF8 9).dieAt 0).due == [],
      put 0x100002000 9 == s, put 0x100000FF8 9 == s, put 0x100001004 9 == s, ((put 0x100100000 64).dieAt 0).ring 0 0 == 64, put 0x100100010 7 == s, ((put 0x100100038 7).dieAt 0).ring 1 3 == 7, put 0x100100040 9 == s,
      reply (after (.hostStateStore 0 (0x101000000 + 2 * 0x20000 + 0x3040) 5) view) == some 5, reply (after (.hostStateStore 0 (0x101000000 + 2 * 0x20000 + 0x3040) 5) runs) == some 0,
      (put 0x110000000 0x1234).mem.look (physOf s 0 3 0x110000000) == 0x34, put 0x110600000 9 == s, (put 0x1105FFFF8 7).mem.look (physOf s 0 3 0x1105FFFF8) == 7, (put 0x123FFFFF8 7).mem.look (physOf s 0 3 0x123FFFFF8) == 7,
      put 0x124000000 9 == s, (after (.hostMemoryAccess (Config.tierBytes 0 - 2) true [1, 2]) s).mem.look (Config.tierBytes 0 - 1) == 2, after (.hostMemoryAccess (Config.tierBytes 0 - 1) true [1, 2]) s == s,
      after (.hostMemoryAccess 0 false [1, 2]) s == { s with hostData := [0, 0] }, (after (.hostMemoryAccess 0 false [1, 2]) (after (.hostMemoryAccess 0 true [5, 6]) s)).hostData == [5, 6],
      put 0x100000018 2 == s, (put 0x100000018 1).boot == s.boot + 1, s.ready, ((after (.rangeTableInstall 1 [e 0x100000000 0x100000FFF, e 0x100001000 0x100001FFF]) s).vdAt 1).ranges.length == 2,
      apart [e 0x100000000 0x100000FFF, e 0x100001000 0x100001FFF], !apart [e 0x100000000 0x100001FFF, e 0x100001000 0x100001FFF], rangeOk (e 0x100000000 0x100000FFF), !rangeOk (e 0x100000000 0x1000007FF),
      after (.rangeTableInstall 1 [e 0x100000000 0x100001FFF, e 0x100001000 0x100001FFF]) s == s, after (.rangeTableInstall 1 (List.replicate 33 { e 0 0 with v := false })) s == s,
      ((after (.rangeTableInstall 1 (List.replicate 32 { e 0 0 with v := false })) s).vdAt 1).ranges.length == 32, ((after (.virtualDeviceCreation 2 [70, 3, 3]) s).vdAt 2).parts == [3, 70], inOrder [70, 3, 3] == [3, 70],
      after (.virtualDeviceCreation 1 [70]) s == s, after (.virtualDeviceCreation 2 [4096]) s == s, !s.vds.has 2, share most == some most, share (most + 1) == (s.vdAt 1).shares.find 0].all id) = true := by decide +kernel

/-- O51: the next frame, the one after it, a bad one, on a link that is up and down; an acknowledgement of none and of all; lanes 7 and 8 of
16, a failure in the idle and in the other half; retraining after 2000 and 2001 ns; ends of major 1 and 2; a percentage past 100. -/
theorem witness_LinksCarryAndRecover :
    (let s := State.reset.setLink 0 { Link.reset with up := true, accepted := 2 ^ 16 - 1, acked := 2 ^ 16 - 1, lanes := 16 }
     let f (seq : Nat) (good : Bool) : LinkFrame := ⟨seq, good, 8, 1, 0, 0, 0, 0, 0, 0, 0, 0, 0, false, 0, 0, 0, toBytes 8 9 ++ toBytes 8 4⟩
     let pk : Packet := ⟨0, .read 8, ⟨0, false, 0, 0, 0⟩, 0, 0, 0, 0, 0, 1, 0, 0, 0, 0, false, false, false, none, 0⟩
     let buf := s.setLink 0 { s.link 0 with buffer := [(0, pk), (1, pk)] }
     let half (low : Bool) := s.setLink 0 { s.link 0 with lanes := 8, lowHalf := low }
     let slow := s.setLink 0 { s.link 0 with retrain := some 10 }
     let train (v : Nat) : State := after (.linkTraining 1 v [3, 64]) State.reset
     [linkUp s 0, ((after (.linkPacketReceive 0 (f 0 true)) s).link 0).accepted == 0, (flipsOf (after (.linkPacketReceive 0 (f 0 true)) s)).map (fun x => (x.1, x.2.1)) == [(9, 4)],
      after (.linkPacketReceive 0 (f 1 true)) s == s, after (.linkPacketReceive 0 (f 0 false)) s == s, after (.linkPacketReceive 1 (f 1 true)) s == s, ((after (.linkAck 0 (2 ^ 16 - 1)) buf).link 0).buffer.length == 2,
      ((after (.linkAck 0 1) buf).link 0).buffer.length == 0, ((after (.linkAck 0 0) buf).link 0).buffer.length == 1, after (.linkAck 0 2) buf == buf,
      (fun (k : Link) => (k.lanes, k.lowHalf, k.retrain)) ((after (.laneFailure 0 7) s).link 0) == (8, false, some 0), (fun (k : Link) => (k.lanes, k.lowHalf, k.retrain)) ((after (.laneFailure 0 8) s).link 0) == (8, true, some 0),
      ((after (.laneFailure 0 7) (half true)).link 0).dead, after (.laneFailure 0 8) (half true) == half true, ((after (.laneFailure 0 15) (half false)).link 0).dead,
      ((after (.linkRetrained 0) { slow with now := 2010 }).link 0).retrain == none, after (.linkRetrainTimeout 0) { slow with now := 2010 } == { slow with now := 2010 },
      ((after (.linkRetrainTimeout 0) { slow with now := 2011 }).link 0).dead, after (.linkRetrained 0) { slow with now := 2011 } == { slow with now := 2011 },
      (train 0x10003).link 1 == { Link.reset with up := true, version := 0 }, (train 0x10003).podMap == 9, !((train 0x20000).link 1).up, (train 0x20000).podMap == 1,
      (after (.ringSkewMeasure 3 100 101) s).occup == [(6, 100), (7, 100)]].all id) = true := by decide +kernel

/-- O52: words marked and not; a register with an error; a boot number with some to go and with none, images without a word against them and none; power off. -/
theorem witness_ErrorsResetAndPowerAct :
    (let s := on .S []
     let u := after (.moduleReset []) { s with boot := 2 ^ 32 - 4, rollback := 7, lmsLeaf := 3 }
     let spent := after (.moduleReset []) { s with boot := 2 ^ 32 - 2 }
     let off := after .powerOff { s with boot := 4 }
     [((after (.correctedError 7) s).dieAt 7).errors == 1, s.marks.isEmpty, (after (.uncorrectableError (2 ^ 64 - 1)) s).marks == [2 ^ 61 - 1], (after (.uncorrectableError 15) { s with marks := [1] }).marks == [1],
      s.me.errs.isEmpty, (after (.uncorrectableError (2 ^ 64 + 5)) s).me.errs == [(errorReg 5, 5)], s.casts.isEmpty, u.ready, !spent.ready, u.boot == 2 ^ 32 - 3, u.rollback == 7, u.lmsLeaf == 3, u.seqs == State.reset.seqs, u.mem == [],
      !off.power, !off.ready, off.boot == 4, (off.seqAt 0).status == 0].all id) = true := by decide +kernel

/-! ### The machine as a whole: O53 to O60 (O56 has no hypotheses) -/

/-- O54: a word that decodes, in its slot, to a well-formed operation that encodes to it. -/
theorem witness_DecodeEncodeAgree :
    (let w := 0x36860481402F
     decodeWord .V0 w = some (.vadd g (.own 10) (.own 9) (.com 3) .s32 0) ∧ (Instr.vadd g (.own 10) (.own 9) (.com 3) .s32 0).wf = true ∧
     encode (.vadd g (.own 10) (.own 9) (.com 3) .s32 0) = some w) := by decide +kernel

/-- O55: the invariant holds after reset with an operation placed, and its step goes on. -/
theorem witness_StepKeepsMemoryForm :
    (let s := State.reset.withFetchWord 64 0x40080A08F
     s.Inv ∧ (next (step s)).isSome = true) := by
  unfold State.Inv
  decide +kernel

/-- Slot S of location 0 at its next bundle, which holds one operation of S; fetched already or still at the fetch address. -/
def about (fetched : Bool) : State :=
  let s := on .S []
  let b := Bundle.single .S 0x40080A08F
  let s := s.setMem (s.mem.storeAll (physOf s 0 0 0) (toBytes 64 b.toNat))
  let s := s.setMe { s.me with queue := if fetched then [(0, ⟨0, b, true⟩)] else [], nextIdx := if fetched then 1 else 0, pc := if fetched then 64 else 0, task := { s.me.task with bco := 2 ^ 32 } }
  { s with agenda := [(3, .issue 0 .S)] }

/-- O57: a bundle in the queue, one still to fetch, and an event. -/
theorem witness_StepRunsTheDecodedInstruction :
    (let i : Instr := .mul g (.own 5) (.own 1) (.own 2)
     let u (s : State) : State := { s with agenda := [], now := 3, cur := ⟨0, .S⟩ }
     let s := u (about true)
     let f := u (about false)
     let q := f.me
     let b := Bundle.single .S 0x40080A08F
     let v := f.setMe (q.fetched 0 b)
     [(about true).agenda == [(3, .issue 0 .S)], s.me.status == 1, !mergeHolds s 0 .S, !sliceHolds s 0, refill s 0 == s, s.me.queue.has 0, (bundleAt s.me 0).here, s.inTurn 0 .S, !q.queue.has 0, q.nextIdx == 0,
      q.hold == none, q.pc < q.task.codeLen, (match translate f q.task.vd (q.task.bco + q.task.codeOff + q.pc) false with | .ok pa => pa == physOf f 0 0 0 | _ => false), f.marks == [],
      BitVec.ofNat 512 (ofBytes ((List.range 64).map (fun j => walkByte f (physOf f 0 0 0 + j)))) == b, v.inTurn 0 .S, isEvent .powerOff, isReset (.moduleReset [])].all id = true ∧
     s.finds 0 .S i ∧ v.finds 0 .S i) := by
  unfold State.finds
  decide +kernel

/-- O58: a legal operation with a predicate that fails and that holds, one that is not legal, codes of a ring bound with DIR 1 and of none, of DIR
0 as a destination, a full image, an operation passed over, one behind its ring, a supervisor's operation in a task. -/
theorem witness_IllegalAndVoidOperations :
    (let s := ringy .V0 []
     let add (gd : Guard) (x : Opnd) : Instr := .vadd gd (.own 1) x (.own 1) .b32 0
     let no : Guard := ⟨15, true⟩
     let pop (n : BitVec 5) : Instr := add g (.pop n)
     let push (n : BitVec 5) : Instr := .vadd g (.pop n) (.own 1) (.own 1) .b32 0
     let skip := s.setMe { s.me with skips := [(1, 0)] }
     let fullOf := s.setMe { s.me with pend := (List.range (Config.pipeEntries + 1)).map (fun n => ⟨.V0, some ⟨.v0, 9⟩, 0, allBytes, false, 50, 0, true, false, true, false, none, 0, n⟩) }
     let y := on .Y [(⟨.y, 1⟩, 2)]
     [predOf (add g (.own 1)) == some g, !heldBack (add g (.own 1)) s, legal s (add g (.own 1)), s.me.barAt == none, s.me.sleepTo == none, s.predIn 15 false == some true, s.predIn 15 true == some false,
      goesOn (exec (add no (.own 1)) s) .V0, readRingsOf (pop 2) == [2], readRingsOf (pop 9) == [9], !heldBack (pop 2) s, trapped (exec (pop 2) s) == some (0x01, 1, 0), trapped (exec (pop 9) s) == some (0x01, 1, 0),
      trapped (exec (add no (.pop 9)) s) == some (0x01, 1, 0), pushOf (push 1) == some 1, trapped (exec (push 1) s) == some (0x01, 1, 0), goesOn (exec (push 2) s) .V0, goesOn (exec (pop 1) s) .V0,
      imageFull fullOf (add g (.own 1)), stalls (exec (add g (.own 1)) fullOf) .V0, heldBack (pop 1) skip, goesOn (exec (pop 9) skip) .V0, !supervisor y.me, !heldBack (.ctxsave g 1 2) y, trapped (exec (.ctxsave g 1 2) y) == some (0x01, 7, 0), trapped (exec (.ctxload g 1 2 true) y) == some (0x01, 7, 0),
      trapped (exec (.pimg g 1 2) y) == some (0x01, 7, 0), trapped (exec (.eretT g 0 1) y) == some (0x01, 7, 0)].all id) = true := by decide +kernel

/-- O59: an operation that stores nothing, a store of the near window and one of the device-memory window, each from a state of the
canonical form. -/
theorem witness_MemoryFrames :
    (let s := withLocal (on .W [(⟨.w, 1⟩, 0x1000), (⟨.w, 2⟩, 2 ^ 32), (⟨.w, 3⟩, 0x55)]) [(0xFF8, 24, rep 8 24 7)]
     let st (a : BitVec 10) : Instr := .st g (.own 3) (.own a) (.own 0) 0 .b64
     let v := on .V0 []
     [!mayStore (.vadd g (.own 1) (.own 1) (.own 1) .b32 0), goesOn (exec (.vadd g (.own 1) (.own 1) (.own 1) .b32 0) v) .V0, decide s.mem.wf, s.span (st 1) == some (0x1000, 8, allBytes), goesOn (exec (st 1) s) .W,
      localAt (after (st 1) s) 0 0xFF8 24 == lanes 8 (List.replicate 8 7 ++ [0x55, 0, 0, 0, 0, 0, 0, 0] ++ List.replicate 8 7), s.span (st 2) == none, goesOn (exec (st 2) s) .W, (after (st 2) s).mem == s.mem].all id) = true := by
  decide +kernel

/-- O60: an operation that completes, one that traps, and one whose destination and another register have results on their way. -/
theorem witness_RegisterFrames :
    (let s := on .S [(⟨.s, 1⟩, 6), (⟨.s, 2⟩, 7), (⟨.s, 3⟩, 8)]
     let i : Instr := .mul g (.own 5) (.own 1) (.own 2)
     framed i = true ∧ goesOn (exec i s) .S = true ∧ destsOf .S i = [⟨.s, 5⟩] ∧ s.idle 0 ⟨.s, 3⟩ ∧ final (exec i s) ⟨.s, 5⟩ = some 42 ∧ final (exec i s) ⟨.s, 3⟩ = some 8 ∧
     framed (.trap g 9) = true ∧ framed (.mclr g 1) = false) := by
  unfold State.idle
  refine ⟨by decide +kernel, by decide +kernel, by decide +kernel, ⟨by decide +kernel, ?_⟩, by decide +kernel, by decide +kernel, by decide +kernel, by decide +kernel⟩
  intro f hf
  have h : ((on .S [(⟨.s, 1⟩, 6), (⟨.s, 2⟩, 7), (⟨.s, 3⟩, 8)]).seqAt 0).frame = none := by decide +kernel
  rw [h] at hf
  cases hf

/-! ### Ilend (03_encoding.md) -/

/-- The value of an expression at address 0x80 with A = 5 and b.c = 0x340. -/
def valueOf (t : String) : Option Nat :=
  (exprOf t.toList).bind (fun e => (evalExpr [("A", 5), ("b.c", 0x340)] 0x80 e).map (·.toNat))

/-- R58: precedence, unary operators, truncating division, shifts, symbols and `.`; the two conversions that the rule gives. -/
theorem test_ilend_expressions :
    (["2 + 3 * 4 << 1 | 1", "-7 / 2", "~0 ^ A & 3", "b.c - . + 0b1_01 % 3", "1 << 63 >> 63", "4 / 0", "e4m3(500.0)", "e4m3(464.0)",
      "f32(1.5)", "bf16(-2.0)", "3 +"].map valueOf ==
    [some 29, some (2 ^ 64 - 3), some (2 ^ 64 - 2), some 706, some (2 ^ 64 - 1), none, some 0x7F, some 0x7E, some 0x3FC00000,
      some 0xC000, none]) = true := by decide +kernel

/-- R54, R57: a label, a bundle of two operations with the mark of V1, operand names by slot, predicates. -/
theorem test_ilend_text :
    [lineOf "f: halt ; x".toList == .label "f" "halt".toList, lineOf "V1:a | b".toList == .bundle ["V1:a".toList, "b".toList],
      lineOf " ; x".toList == .empty, lineOf ".equ A, 5".toList == .directive "equ" "A, 5".toList,
      ["s5", "v12", "V1:v20", "k3", "q4", "q4.peek", "dq1", "acc7", "p15"].map (fun t => operandOf .S t.toList) ==
        [some (.reg .s 5), some (.reg .v0 12), some (.reg .v1 20), some (.reg .k0 3), some (.ring 4), some (.peek 4), some (.drain 1),
          some (.acc 7), none], operandOf .V1 "v12".toList == some (.reg .v1 12),
      ["", "(p3)", "(!p14)", "(never)"].map (fun t => guardOfText t.toList) ==
        [some ⟨15, false⟩, some ⟨3, false⟩, some ⟨14, true⟩, some ⟨15, true⟩]].all id = true := by decide +kernel

/-- The two bundles of Tables 3.19 and 3.20; the second with its port allotted by `ilas`, and rejected with no port listed. -/
theorem test_ilend_bundles :
    (let one : SourceBundle := ⟨true, [], some 4, none, [(false, .addi ⟨2, true⟩ (.own 4) (.own 4) (BitVec.ofInt 23 (-3))),
       (false, .ld ⟨15, false⟩ (.file .s 9) (.own 3) (.own 4) 0 .b64)]⟩
     let two : SourceBundle := ⟨false, [.V0], none, some [.V0], [(false, .mul ⟨15, false⟩ (.own 5) (.own 1) (.own 2)),
       (false, .vadd ⟨15, false⟩ (.own 10) (.own 9) (.com 3) .s32 0)]⟩
     let bytes (b : SourceBundle) : List Nat := ((assembleBundle b).map (fun x => (toBytes 64 x.toNat).map (·.toNat))).getD []
     [bytes one == [0x11, 0, 0x24, 0, 0, 0, 0x12, 0x88, 0, 2, 0xFA, 0xFF, 0xFF] ++ List.replicate 20 0 ++
        [0x2F, 0x20, 0x81, 1, 8, 0x18, 0x10] ++ List.replicate 24 0,
      bytes two == [3, 4, 0x80, 0, 0, 0, 0x8F, 0xA0, 0x80, 0, 4, 0, 0, 0x2F, 0x40, 0x81, 4, 0x86, 0x36] ++ List.replicate 45 0,
      assembleBundle { two with ports := none } == assembleBundle two, (assembleBundle { two with ports := some [] }).isNone,
      (assembleBundle { two with ops := two.ops ++ two.ops }).isNone].all id) = true := by decide +kernel

/-- R389, R59: omitted counts of a stream place one, `.map` advances to 64; the object of one marked bundle passes the loader's checks. -/
theorem test_ilend_directives :
    (let stream := descriptorBits streamKeys [("base", 0x400), ("cnt0", 24)]
     let b : SourceBundle := ⟨true, [], none, none, []⟩
     let x : Source := ⟨[(assembleBundle b).getD 0], 0, [(13, 8)], [("v0", 2), ("larder", 1)], [(2, 64)], some 100, [(0x100, 0x200)],
       [(0x100, [1, 2, 3])]⟩
     let o := objectBytes x
     let c : CodeObject := ⟨ofBytes (o.take 256), [ofBytes ((o.drop 328).take 24)], [ofBytes ((o.drop 352).take 16)], [ofBytes ((o.drop 320).take 8)]⟩
     [stream == some (0x400 + 24 * 2 ^ 64 + 2 ^ 80 + 2 ^ 96 + 2 ^ 112), (descriptorBits streamKeys [("ndim", 4)]).isNone,
      (sectionBytes 0x1FC [.values 4 [1000], .map [("tname", 0x57)]]).map (fun b => (b.length, b.take 5)) == some (68, [232, 3, 0, 0, 0x57]),
      dataLabels 0x1FC [(["a"], .values 4 [1000]), (["m"], .map [])] == [("a", 0x1FC), ("m", 0x200)],
      c.ok, c.length == 371, dataOf (c.datas.headD 0) == (256, 3, 368), saveOf (c.saves.headD 0) == (256, 512),
      (c.task 1 0 0).winV0 == 2 && (c.task 1 0 0).winLar == 1, (c.task 1 0 0).spdist == 100, c.lat 13 == 8].all id) = true := by decide +kernel

/-- Table 24.4 and Table 23.1: a store to the view of a frozen sequencer changes the value of a pipe-image entry, moves its REM and clears
its V; one to a running sequencer is discarded; the image lists its entries by ascending REM. -/
theorem test_view_stores :
    (let e (f : File) (i li : Nat) : Pend := ⟨.S, some ⟨f, i⟩, 9, allBytes, false, li, 4, true, false, true, false, none, 0, li⟩
     let s := on .S [] (fun q => { q with status := 3, steps := [(0, 5), (4, 3)], pend := [e .b 1 6, e .s 5 7] })
     let at_ := 0x101000000 + 0x7000
     let put (o x : Nat) : State := after (.hostStateStore 0 (at_ + o) (BitVec.ofNat 64 x)) s
     let head := packBits [(0, 1, 1), (15, 4, 0), (19, 4, 1), (23, 10, 5), (34, 12, 9)]
     [(slotImage s.me .S).map (fun e => (e.dst, remOf s.me e)) == [(some ⟨.s, 5⟩, 2), (some ⟨.b, 1⟩, 3)],
      (put 16 77).me.pend.map (fun e => (e.dst, e.val.toNat)) == [(some ⟨.b, 1⟩, 9), (some ⟨.s, 5⟩, 77)],
      (put 0 head).me.pend.map (fun e => (e.dst, e.li)) == [(some ⟨.b, 1⟩, 6), (some ⟨.s, 5⟩, 14)],
      (put 0 0).me.pend.map (·.dst) == [some ⟨.b, 1⟩], (put 160 head).me.pend.length == 3, (put 160 0).me.pend.length == 2,
      (after (.hostStateStore 0 (at_ + 16) 77) (s.setMe { s.me with status := 1 })).me.pend.map (·.val) == [9, 9]].all id) = true := by
  decide +kernel

end Sys2Proof.Tests
end

section
/-! What an operation of a slot leaves of registers, system registers, accumulators, other sequencers and other cores (O60): each
operation's own frame, gathered over the dispatch. -/

namespace Sys2Proof.Machine

/-- However a framed operation ends, its next state has what `Leaves` names: by its constructor, the frame of its own meaning; the
constructors that are left are those that `framed` excludes. -/
theorem exec_leaves {i : Instr} (h : framed i = true) (s : State) : OutKeeps (Leaves (destsOf s.cur.slot i) s) (exec i s) := by
  cases i with
  -- S slot
  | add => exact execAdd_leaves ..
  | sub => exact execSub_leaves ..
  | addsl => exact execAddsl_leaves ..
  | mul => exact execMul_leaves ..
  | mulh => exact execMulh_leaves ..
  | mulhB => exact execMulhB_leaves ..
  | div => exact execDiv_leaves ..
  | divB => exact execDivB_leaves ..
  | rem => exact execRem_leaves ..
  | remB => exact execRemB_leaves ..
  | and => exact execAnd_leaves ..
  | or => exact execOr_leaves ..
  | xor => exact execXor_leaves ..
  | andn => exact execAndn_leaves ..
  | shl => exact execShl_leaves ..
  | shr => exact execShr_leaves ..
  | sra => exact execSra_leaves ..
  | rotl => exact execRotl_leaves ..
  | fshl => exact execFshl_leaves ..
  | fshr => exact execFshr_leaves ..
  | clz => exact execClz_leaves ..
  | ctz => exact execCtz_leaves ..
  | popc => exact execPopc_leaves ..
  | min => exact execMin_leaves ..
  | max => exact execMax_leaves ..
  | minB => exact execMinB_leaves ..
  | maxB => exact execMaxB_leaves ..
  | bfx => exact execBfx_leaves ..
  | bfi => exact execBfi_leaves ..
  | sel => exact execSel_leaves ..
  | cmp => exact execCmp_leaves ..
  | pand => exact execPand_leaves ..
  | por => exact execPor_leaves ..
  | pnot => exact execPnot_leaves ..
  | addi => exact execAddi_leaves ..
  | andi => exact execAndi_leaves ..
  | ori => exact execOri_leaves ..
  | xori => exact execXori_leaves ..
  | shli => exact execShli_leaves ..
  | shri => exact execShri_leaves ..
  | srai => exact execSrai_leaves ..
  | li => exact execLi_leaves ..
  | lih => exact execLih_leaves ..
  | cmpi => exact execCmpi_leaves ..
  | br => exact execBr_leaves ..
  | jmp => exact execJmp_leaves ..
  | jmpr => exact execJmpr_leaves ..
  | call => exact execCall_leaves ..
  | ret => exact execRet_leaves ..
  | loop => exact execLoop_leaves ..
  | halt => exact execHalt_leaves ..
  | xmov => exact execXmov_leaves ..
  | rdsr => exact execRdsr_leaves ..
  | rdts => exact execRdts_leaves ..
  -- V0 and V1 slots
  | vadd => exact execVadd_leaves ..
  | vsub => exact execVsub_leaves ..
  | vmul => exact execVmul_leaves ..
  | vmulh => exact execVmulh_leaves ..
  | vmin => exact execVmin_leaves ..
  | vmax => exact execVmax_leaves ..
  | vabs => exact execVabs_leaves ..
  | vand => exact execVand_leaves ..
  | vor => exact execVor_leaves ..
  | vxor => exact execVxor_leaves ..
  | vandn => exact execVandn_leaves ..
  | vshl => exact execVshl_leaves ..
  | vshr => exact execVshr_leaves ..
  | vsra => exact execVsra_leaves ..
  | vfsh => exact execVfsh_leaves ..
  | vclz => exact execVclz_leaves ..
  | vpopc => exact execVpopc_leaves ..
  | vcmp => exact execVcmp_leaves ..
  | vsel => exact execVsel_leaves ..
  | kand => exact execKand_leaves ..
  | kor => exact execKor_leaves ..
  | kxor => exact execKxor_leaves ..
  | knot => exact execKnot_leaves ..
  | kpop => exact execKpop_leaves ..
  | kfirst => exact execKfirst_leaves ..
  | vbcast => exact execVbcast_leaves ..
  | vext => exact execVext_leaves ..
  | vins => exact execVins_leaves ..
  | vperm => exact execVperm_leaves ..
  | vrot => exact execVrot_leaves ..
  | vslide => exact execVslide_leaves ..
  | vred => exact execVred_leaves ..
  | vscan => exact execVscan_leaves ..
  | vpack => exact execVpack_leaves ..
  | vunpk => exact execVunpk_leaves ..
  | vfadd => exact execVfadd_leaves ..
  | vfsub => exact execVfsub_leaves ..
  | vfmul => exact execVfmul_leaves ..
  | vfma => exact execVfma_leaves ..
  | vfms => exact execVfms_leaves ..
  | vfmin => exact execVfmin_leaves ..
  | vfmax => exact execVfmax_leaves ..
  | vfcmp => exact execVfcmp_leaves ..
  | vfabs => exact execVfabs_leaves ..
  | vfneg => exact execVfneg_leaves ..
  | vfsgn => exact execVfsgn_leaves ..
  | vfred => exact execVfred_leaves ..
  | vrcp => exact execVrcp_leaves ..
  | vrsq => exact execVrsq_leaves ..
  | vexp2 => exact execVexp2_leaves ..
  | vlog2 => exact execVlog2_leaves ..
  | vicvt => exact execVicvt_leaves ..
  | vfcvt => exact execVfcvt_leaves ..
  | vxmov => exact execVxmov_leaves ..
  -- M slot
  | mpar => exact execMpar_leaves ..
  | mcall => exact execMcall_leaves ..
  | mloop => exact execMloop_leaves ..
  | mend => exact execMend_leaves ..
  | mendF => exact execMendF_leaves ..
  -- L slot
  | ld => exact execLd_leaves ..
  | vld => exact execVld_leaves ..
  | vldu => exact execVldu_leaves ..
  | pf => exact execPf_leaves ..
  | gpush => exact execGpush_leaves ..
  | ldg => exact execLdg_leaves ..
  | vldg => exact execVldg_leaves ..
  | ldr => exact execLdr_leaves ..
  -- W slot
  | st => exact execSt_leaves ..
  | vst => exact execVst_leaves ..
  | vstm => exact execVstm_leaves ..
  | aadd => exact execAadd_leaves ..
  | amin => exact execAmin_leaves ..
  | amax => exact execAmax_leaves ..
  | alog => exact execAlog_leaves ..
  | aswp => exact execAswp_leaves ..
  | acas => exact execAcas_leaves ..
  | aincb => exact execAincb_leaves ..
  | rcnt => exact execRcnt_leaves ..
  | asnap => exact execAsnap_leaves ..
  | str => exact execStr_leaves ..
  | ratom => exact execRatom_leaves ..
  -- C slot
  | cbind => exact execCbind_leaves ..
  | cfree => exact execCfree_leaves ..
  | cput => exact execCput_leaves ..
  | cget => exact execCget_leaves ..
  | ccard => exact execCcard_leaves ..
  | cwait => exact execCwait_leaves ..
  | cstat => exact execCstat_leaves ..
  | mapr => exact execMapr_leaves ..
  | maprAll => exact execMaprAll_leaves ..
  | mapq => exact execMapq_leaves ..
  | gdeclR => exact execGdeclR_leaves ..
  | gq => exact execGq_leaves ..
  | tacq => exact execTacq_leaves ..
  -- Y slot
  | qwait => exact execQwait_leaves ..
  | qadv => exact execQadv_leaves ..
  | swait => exact execSwait_leaves ..
  | fence => exact execFence_leaves ..
  | barA => exact execBarA_leaves ..
  | barW => exact execBarW_leaves ..
  | bar => exact execBar_leaves ..
  | sjoin => exact execSjoin_leaves ..
  | yield => exact execYield_leaves ..
  | sleep => exact execSleep_leaves ..
  | evpost => exact execEvpost_leaves ..
  | trap => exact execTrap_leaves ..
  -- X slot
  | xcvt => exact execXcvt_leaves ..
  | xquant => exact execXquant_leaves ..
  | xdeq => exact execXdeq_leaves ..
  | xamax => exact execXamax_leaves ..
  | xtr => exact execXtr_leaves ..
  | xexp => exact execXexp_leaves ..
  | xpack => exact execXpack_leaves ..
  | xunpk => exact execXunpk_leaves ..
  | xcrc => exact execXcrc_leaves ..
  | _ => nomatch h

/-- Settles O60: the frame of every framed operation, read at the state it goes on to. -/
theorem registerFrames : Obligations.RegisterFrames := by
  unfold Obligations.RegisterFrames
  intro i s t hi ht
  have h := exec_leaves hi s
  rw [ht] at h
  exact h

end Sys2Proof.Machine
end

section
/-! What a ring source reads at issue (R33, R34, R93, R119): the next lanes or the next whole entry, a stall where they are not filled yet, a
trap at the end of the stream (O20). -/

namespace Sys2Proof.Machine

/-- The bits that the next lanes of a type occupy in a ring's stream (R33). -/
def Ring.vecBits (r : Ring) (t : Fmt) : Nat := 512 / t.width * r.width

/-- The next elements of a fill ring, decoded to the lanes of a type (R33, R119). -/
def Ring.nextLanes (r : Ring) (t : Fmt) : Vec :=
  mkLanes t.width (512 / t.width) (fun i =>
    ringLane r.fmt t (bitsAt (r.bitsFrom r.readPos (r.vecBits t)) (i * r.width) r.width))

/-- The bit of the stream at which the entry under the read pointer begins. -/
def Ring.entryPos (r : Ring) : Nat := r.readPos / 512 * 512

/-- The whole entry under the read pointer (R33). -/
def Ring.nextEntry (r : Ring) : Vec := BitVec.ofNat 512 (r.bitsFrom r.entryPos 512)

/-- The bit up to which a read of bits from a position needs the stream: not past its end (R93). -/
def Ring.needs (r : Ring) (start len : Nat) : Nat :=
  match r.streamBits with
  | some b => min (start + len) b
  | none => start + len

/-- A vector read of a ring that holds its lanes: a peek leaves them, a pop consumes them. -/
theorem ringRead_ok {s : State} {n : Nat} {t : Fmt} {r : Ring} (hr : s.ringFree n false r)
    (hb : r.has r.readPos (r.vecBits t)) (peek : Bool) :
    ringRead n peek t s = .ok (r.nextLanes t, if peek then s else setRing n (r.consume (r.vecBits t)) s) := by
  unfold ringRead
  rw [Act.bind_ok (ring_ok hr)]
  refine (Act.bind_ok (ringAwait_ok hb n s)).trans ?_
  cases peek <;> rfl

/-- A raw read of a ring that holds the entry under its read pointer: a peek leaves it, a pop consumes what is left of it. -/
theorem ringRaw_ok {s : State} {n : Nat} {r : Ring} (hr : s.ringFree n false r) (hb : r.has r.entryPos 512) (peek : Bool) :
    ringRaw n peek s = .ok (r.nextEntry, if peek then s else setRing n (r.consume (r.entryPos + 512 - r.readPos)) s) := by
  unfold ringRaw
  rw [Act.bind_ok (ring_ok hr)]
  refine (Act.bind_ok (ringAwait_ok hb n s)).trans ?_
  cases peek <;> rfl

/-- Bits before the end of the stream that are not filled yet, where no chunk has failed: the read stalls and the stall is counted. -/
theorem ringAwait_stall {s : State} {r : Ring} {start len : Nat} (hlt : ∀ b, r.streamBits = some b → start < b)
    (hfail : r.fail = 0) (hfill : r.filled < r.needs start len) (n : Nat) :
    ringAwait n r start len s = .error (.stallWith (perf s s.cur.loc 3 1)) := by
  unfold ringAwait
  refine (Act.bind_ok (Act.check_ok ?inStream _ _ _)).trans ?stalls
  case inStream =>
    cases hb : r.streamBits with
    | none => rfl
    | some b => exact decide_eq_true (hlt b hb)
  case stalls =>
    exact congrFun ((if_neg (Nat.not_le.2 hfill)).trans (if_neg fun h => h.1 hfail)) s

/-- A read that begins at the end of the stream or past it traps. -/
theorem ringAwait_spent {s : State} {r : Ring} {start len b : Nat} (hb : r.streamBits = some b) (hle : b ≤ start) (n : Nat) :
    ringAwait n r start len s = .error (.trap 0x11 0) := by
  unfold ringAwait
  refine Act.bind_error (Act.check_stop ?_ _ _ _)
  rw [hb]
  exact decide_eq_false (Nat.not_lt.2 hle)

/-- A vector read stops as its wait for the lanes stops. -/
theorem ringRead_stop {s : State} {n : Nat} {t : Fmt} {r : Ring} {e : Stop} (hr : s.ringFree n false r)
    (hw : ringAwait n r r.readPos (r.vecBits t) s = .error e) (peek : Bool) : ringRead n peek t s = .error e := by
  unfold ringRead
  rw [Act.bind_ok (ring_ok hr)]
  exact Act.bind_error hw

/-- Settles O20: a read of a free ring turns on its wait for the bits, which are there, not filled yet, or past the end of the stream. -/
theorem ringSourcesReadInOrder : Obligations.RingSourcesReadInOrder := by
  unfold Obligations.RingSourcesReadInOrder
  refine ⟨?lanes, ?entry, ?unfilled, ?spent⟩
  case lanes =>
    intro q t s r hr _ hb
    exact ⟨Act.ends_eq.2 (ringRead_ok hr hb false), Act.ends_eq.2 (ringRead_ok hr hb true)⟩
  case entry =>
    intro q s r hr hb
    exact ⟨Act.ends_eq.2 (ringRaw_ok hr hb false), Act.ends_eq.2 (ringRaw_ok hr hb true)⟩
  case unfilled =>
    intro q t s r hr _ hlt hfail hfill
    exact ringRead_stop hr (ringAwait_stall hlt hfail hfill _) false
  case spent =>
    intro q t s r b hr _ hb hle
    exact ringRead_stop hr (ringAwait_spent hb hle _) false

end Sys2Proof.Machine
end

section
/-! What a drain-queue source reads at issue (R35, R26, R154): the oldest entry not yet popped, or trap 0x21 (O21). -/

namespace Sys2Proof.Machine

/-- The entries of a drain queue that the issuing slot finds in it (R154). -/
def State.dqEntries (s : State) (n : Nat) : List DqEntry := dqKeep s.me (s.me.dqs.look [] n)

/-- The oldest entry of a drain queue not yet popped. -/
def State.dqOldest (s : State) (n : Nat) : Option DqEntry := (s.dqEntries n).find? (fun e => e.popped.isNone)

/-- The state once the issuing slot has popped an entry of a drain queue: the entry is marked with the slot's step (R154). -/
def State.dqPopped (s : State) (n : Nat) (e : DqEntry) : State :=
  s.setMe { s.me with dqs := s.me.dqs.put n ((s.dqEntries n).map (fun d =>
    if d.uid = e.uid then { d with popped := some (2 * stepOf s.me s.cur.slot + bit s.me.frame.isSome) } else d)) }

/-- A queue with an entry not yet popped gives its oldest one where the slot must find it or the free choice lets it; otherwise it traps. -/
theorem dqPop_oldest {s : State} {n : Nat} {e : DqEntry} (h : s.dqOldest n = some e) :
    dqPop n s = if dqMust s.me s.cur.slot e || Config.freeBit s.free e.uid then .ok (e.data, s.dqPopped n e)
      else .error (.trap 0x21 n) := by
  unfold State.dqOldest State.dqEntries at h
  unfold dqPop
  dsimp only
  rw [h]
  rfl

/-- A queue with every entry popped and no push owed traps. -/
theorem dqPop_empty {s : State} {n : Nat} (h : s.dqOldest n = none) (ho : dqOwed s n s.cur.slot = false) :
    dqPop n s = .error (.trap 0x21 n) := by
  unfold State.dqOldest State.dqEntries at h
  unfold dqPop
  dsimp only
  rw [h]
  dsimp only
  rw [ho]
  rfl

/-- A drain-queue operand is read by popping the queue. -/
theorem readRaw_dq (n : BitVec 2) (s : State) : readRaw (.dq n) s = dqPop n.toNat s := rfl

/-- Settles O21: where the slot must find the oldest entry the free choice does not matter, and either value of it gives one of the two
answers left open. -/
theorem drainQueuePops : Obligations.DrainQueuePops := by
  unfold Obligations.DrainQueuePops
  refine ⟨fun n s e he => ⟨fun hmust => ?found, ?either⟩, fun n s hall howed => ?empty⟩
  case found =>
    refine Act.ends_eq.2 ((readRaw_dq n s).trans ((dqPop_oldest he).trans ?_))
    rw [hmust]
    rfl
  case either =>
    rw [readRaw_dq, dqPop_oldest he]
    by_cases hsee : (dqMust s.me s.cur.slot e || Config.freeBit s.free e.uid) = true
    · exact .inl (Act.ends_eq.2 ((readRaw_dq n s).trans ((dqPop_oldest he).trans (if_pos hsee))))
    · exact .inr (if_neg hsee)
  case empty =>
    have hnone : s.dqOldest n.toNat = none :=
      List.find?_eq_none.2 fun e he => by simpa [Option.isSome_iff_ne_none] using hall e he
    rw [readRaw_dq, dqPop_empty hnone howed]

end Sys2Proof.Machine
end

section
/-! What one step of the module does: a slot's turn, from fetch to the operation that it executes (R22, R24, R41, R53, R72, R76), and an
event (O57). -/

namespace Sys2Proof.Machine

/-- The issuing slot plays no part in what a sequencer holds. -/
@[simp] theorem State.withCur_seqAt (s : State) (c : Cursor) (loc : Nat) : ({ s with cur := c } : State).seqAt loc = s.seqAt loc := rfl

/-- A slot in its turn that finds an operation in its bundle runs it. -/
theorem turnAt_run {s : State} {loc : Nat} {x : Slot} {i : Instr} (ht : s.inTurn loc x = true) (hf : s.finds loc x i) :
    turnAt s loc x = .run i { s with cur := ⟨loc, x⟩ } := by
  simp only [State.inTurn, Bool.and_eq_true, Bool.not_eq_true', decide_eq_true_eq] at ht
  obtain ⟨⟨⟨⟨⟨hslip, hsync⟩, hsys⟩, hsafe⟩, hacquire⟩, hcopy⟩ := ht
  obtain ⟨hcode, hheader, hroutine, hop⟩ := hf
  unfold turnAt
  refine (if_neg (Nat.not_lt.2 hslip)).trans ?_
  refine (if_neg (ne_true_of_eq_false hsync)).trans ?_
  refine (if_neg (ne_true_of_eq_false hsys)).trans ?_
  refine (if_neg (ne_true_of_eq_false hsafe)).trans ?_
  refine (if_neg (ne_true_of_eq_false (Bool.or_eq_false_iff.2 ⟨hacquire, hcopy⟩))).trans ?_
  refine (if_neg (Nat.not_le.2 hcode)).trans ?_
  refine (if_neg (ne_true_of_eq_false hheader)).trans ?_
  refine (if_neg hroutine).trans ?_
  simp only [State.withCur_seqAt, hop]

/-- The bundle that fetch reaches is the 64 bytes at its address, where they translate and hold no marked word. -/
theorem fetchBits_ok {s : State} {q : Seq} {pc pa : Nat} (ht : translate s q.task.vd (q.task.bco + q.task.codeOff + pc) false = .ok pa)
    (he : errorMark s ((List.range 64).map (pa + ·)) = none) :
    fetchBits s q pc = .ok (BitVec.ofNat 512 (ofBytes ((List.range 64).map (fun j => walkByte s (pa + j))))) := by
  unfold fetchBits
  dsimp only
  rw [ht]
  dsimp only
  rw [he]

/-- Fetch inside the code section enters the bundle in the queue image. -/
theorem fetchNext_ok {s : State} {loc : Nat} {b : Bundle} (hcode : (s.seqAt loc).pc < (s.seqAt loc).task.codeLen)
    (hb : fetchBits s (s.seqAt loc) (s.seqAt loc).pc = .ok b) :
    fetchNext s loc = .ok (s.setSeq loc ((s.seqAt loc).fetched (s.seqAt loc).nextIdx b)) := by
  unfold fetchNext
  refine (if_neg (Nat.not_le.2 hcode)).trans ?_
  dsimp only
  rw [hb]
  unfold Seq.fetched
  dsimp only
  split <;> rfl

/-- Where every bundle of the queue image is at hand, none is fetched again. -/
theorem refill_here {s : State} {loc : Nat} (h : ∀ f ∈ (s.seqAt loc).queue, f.2.here = true) : refill s loc = s := by
  have hnone : (s.seqAt loc).queue.filter (fun f => !f.2.here) = [] :=
    List.filter_eq_nil_iff.2 fun f hf => by simp [h f hf]
  unfold refill
  rw [hnone]
  rfl

/-- The state in which a slot of a sequencer takes its turn. -/
def State.turnOf (s : State) (loc : Nat) (x : Slot) : State := { s with cur := ⟨loc, x⟩ }

section
variable {s : State} {loc : Nat} {x : Slot} (hrun : (s.seqAt loc).status = 1) (hslice : sliceHolds (s.turnOf loc x) loc = false)
include hrun hslice

/-- A slot of a running sequencer that its slice does not hold, whose next bundle is in the queue image and at hand once what a resume
left has been fetched again, takes its turn there. -/
theorem turn_queued (hq : (s.seqAt loc).queue.has (stepOf (s.seqAt loc) x) = true)
    (hhere : (bundleAt ((refill (s.turnOf loc x) loc).seqAt loc) (stepOf (s.seqAt loc) x)).here = true) :
    turn s loc x = turnAt (refill (s.turnOf loc x) loc) loc x := by
  unfold turn
  refine (if_neg (not_not_intro hrun)).trans ?_
  refine (if_neg (ne_true_of_eq_false hslice)).trans ?_
  refine (if_pos hq).trans ?_
  exact if_pos hhere

/-- Such a slot whose next bundle is the next to fetch takes its turn once the bundle has been fetched. -/
theorem turn_fetched {t : State} (hq : (s.seqAt loc).queue.has (stepOf (s.seqAt loc) x) = false)
    (hnext : stepOf (s.seqAt loc) x = (s.seqAt loc).nextIdx) (hhold : (s.seqAt loc).hold = none)
    (hslip : stepOf (s.seqAt loc) x ≤ loOf (s.seqAt loc) + 16) (hf : fetchNext (s.turnOf loc x) loc = .ok t) :
    turn s loc x = turnAt t loc x := by
  have hfree : ¬(stepOf (s.seqAt loc) x ≠ (s.seqAt loc).nextIdx ∨ (s.seqAt loc).hold.isSome ∨
      loOf (s.seqAt loc) + 16 < stepOf (s.seqAt loc) x) := by
    simp [hnext.symm, hhold, hslip]
  unfold turn
  refine (if_neg (not_not_intro hrun)).trans ?_
  refine (if_neg (ne_true_of_eq_false hslice)).trans ?_
  refine (if_neg (ne_true_of_eq_false hq)).trans ?_
  refine (if_neg hfree).trans ?_
  unfold State.turnOf at hf
  rw [hf]

end

/-- The outcome of a slot's operation with the count of B's cycles kept where the slot has advanced (R25). -/
def countedIssue (s : State) (loc : Nat) (x : Slot) : Host.Outcome State Fault Refusal → Host.Outcome State Fault Refusal
  | .next t => .next (if stepOf (s.seqAt loc) x < stepOf (t.seqAt loc) x then countMerge s t loc x else t)
  | o => o

/-- A slot that its sibling does not hold back, with an operation to run, executes it. -/
theorem issueMove_run {s t : State} {loc : Nat} {x : Slot} {i : Instr} (hmerge : mergeHolds s loc x = false)
    (ht : turn s loc x = .run i t) : issueMove loc x s = countedIssue s loc x (exec i t) := by
  have htry : tryIssue loc x s = exec i t := by
    unfold tryIssue
    rw [ht]
  unfold issueMove
  refine (if_neg (ne_true_of_eq_false hmerge)).trans ?_
  rw [htry]
  cases exec i t <;> rfl

/-- A step with power whose next move is a slot's performs that move. -/
theorem step_issue {s : State} {dt loc : Nat} {x : Slot} {rest : List (Nat × Move)} (ha : s.agenda = (dt, .issue loc x) :: rest) (hp : s.power = true) :
    step s = issueMove loc x { s with agenda := rest, now := s.now + dt } := by
  unfold step
  rw [ha]
  exact if_pos hp

/-- A step whose next move is an event that may move executes it. -/
theorem step_event {s : State} {dt : Nat} {i : Instr} {rest : List (Nat × Move)} (ha : s.agenda = (dt, .event i) :: rest) (hi : isEvent i = true)
    (hp : s.power = true ∨ isReset i = true) : step s = exec i { s with agenda := rest, now := s.now + dt } := by
  have hevent : ¬((!isEvent i) = true) := by simp [hi]
  unfold step
  rw [ha]
  exact (if_neg hevent).trans (if_pos (Bool.or_eq_true_iff.2 hp))

/-- The operation of a present slot is what its word decodes to. -/
theorem Bundle.op_present {b : Bundle} {x : Slot} (h : b.present x = true) : b.op x = decodeWord x (b.word x) := if_pos h

/-- An absent slot with a zero word is a no-operation. -/
theorem Bundle.op_absent {b : Bundle} {x : Slot} (h : b.present x = false) (hw : b.word x = 0) : b.op x = some .noOperation :=
  (if_neg (ne_true_of_eq_false h)).trans (if_pos hw)

/-- Settles O57: a step is the slot's move, the move its turn, and the turn runs the operation found in the bundle in the queue image or in
the one just fetched. -/
theorem stepRunsTheDecodedInstruction : Obligations.StepRunsTheDecodedInstruction := by
  unfold Obligations.StepRunsTheDecodedInstruction
  refine ⟨?slot, fun q hq s loc hs => ?refilled, fun b x => ⟨Bundle.op_present, Bundle.op_absent⟩,
    fun s dt i rest ha hi hp => step_event ha hi hp⟩
  case refilled =>
    subst hs
    exact refill_here hq
  case slot =>
    intro s dt loc x rest i ha hp u c q k runs hrun hmerge hslice
    have hruns : ∀ v, turn u loc x = turnAt v loc x → v.inTurn loc x = true → v.finds loc x i → step s = runs v := by
      intro v hv ht hf
      calc step s = issueMove loc x u := step_issue ha hp
        _ = countedIssue u loc x (exec i { v with cur := ⟨loc, x⟩ }) := issueMove_run hmerge (hv.trans (turnAt_run ht hf))
        _ = runs v := by
          dsimp only [runs]
          cases exec i { v with cur := ⟨loc, x⟩ } <;> rfl
    refine ⟨?queued, ?fetched⟩
    case queued =>
      intro v hv hq hhere ht hf
      subst hv
      exact hruns _ (turn_queued hrun hslice hq hhere) ht hf
    case fetched =>
      intro pa hq hnext hhold hslip hcode hpa hmark b v ht hf
      have hfetch : fetchNext c loc = .ok (c.setSeq loc (q.fetched q.nextIdx b)) := fetchNext_ok hcode (fetchBits_ok hpa hmark)
      rw [← hnext] at hfetch
      exact hruns v (turn_fetched hrun hslice hq hnext hhold hslip hfetch) ht hf

end Sys2Proof.Machine
end

section
/-! Encoding and decoding agree (O54): the per-instruction round trips gathered over the instructions. -/

namespace Sys2Proof.Laws.RoundTrip

/-- Every instruction has its round trip: by its constructor, the lemma of its own encoding. -/
theorem statement_holds (i : Instr) : Statement i := by
  cases i with
  -- S slot
  | add g d a b => exact add g d a b
  | sub g d a b => exact sub g d a b
  | addsl g d a b sh => exact addsl g d a b sh
  | mul g d a b => exact mul g d a b
  | mulh g d a b => exact mulh g d a b
  | mulhB g d a b => exact mulhB g d a b
  | div g d a b => exact div g d a b
  | divB g d a b => exact divB g d a b
  | rem g d a b => exact rem g d a b
  | remB g d a b => exact remB g d a b
  | and g d a b => exact and g d a b
  | or g d a b => exact or g d a b
  | xor g d a b => exact xor g d a b
  | andn g d a b => exact andn g d a b
  | shl g d a b => exact shl g d a b
  | shr g d a b => exact shr g d a b
  | sra g d a b => exact sra g d a b
  | rotl g d a b => exact rotl g d a b
  | fshl g d a b sh => exact fshl g d a b sh
  | fshr g d a b sh => exact fshr g d a b sh
  | clz g d a => exact clz g d a
  | ctz g d a => exact ctz g d a
  | popc g d a => exact popc g d a
  | min g d a b => exact min g d a b
  | max g d a b => exact max g d a b
  | minB g d a b => exact minB g d a b
  | maxB g d a b => exact maxB g d a b
  | bfx g d a b sx => exact bfx g d a b sx
  | bfi g d a b => exact bfi g d a b
  | sel g d a b psel pinv => exact sel g d a b psel pinv
  | cmp g p cc a b => exact cmp g p cc a b
  | pand g d a b na nb => exact pand g d a b na nb
  | por g d a b na nb => exact por g d a b na nb
  | pnot g d a => exact pnot g d a
  | addi g d a imm => exact addi g d a imm
  | andi g d a imm => exact andi g d a imm
  | ori g d a imm => exact ori g d a imm
  | xori g d a imm => exact xori g d a imm
  | shli g d a imm => exact shli g d a imm
  | shri g d a imm => exact shri g d a imm
  | srai g d a imm => exact srai g d a imm
  | li g d imm => exact li g d imm
  | lih g d a imm => exact lih g d a imm
  | cmpi g p cc a imm => exact cmpi g p cc a imm
  | br g imm => exact br g imm
  | jmp g imm => exact jmp g imm
  | jmpr g a => exact jmpr g a
  | call g d imm => exact call g d imm
  | ret g a => exact ret g a
  | loop g a imm => exact loop g a imm
  | halt g => exact halt g
  | xmov g dst a lane bcast => exact xmov g dst a lane bcast
  | rdsr g d sr => exact rdsr g d sr
  | wrsr g sr a => exact wrsr g sr a
  | mrsData g a => exact mrsData g a
  | rdts g d => exact rdts g d
  -- V0 and V1 slots
  | vadd g d a b t k => exact vadd g d a b t k
  | vsub g d a b t k => exact vsub g d a b t k
  | vmul g d a b t k => exact vmul g d a b t k
  | vmulh g d a b t k => exact vmulh g d a b t k
  | vmin g d a b t k => exact vmin g d a b t k
  | vmax g d a b t k => exact vmax g d a b t k
  | vabs g d a t k => exact vabs g d a t k
  | vand g d a b t k => exact vand g d a b t k
  | vor g d a b t k => exact vor g d a b t k
  | vxor g d a b t k => exact vxor g d a b t k
  | vandn g d a b t k => exact vandn g d a b t k
  | vshl g d a b t k => exact vshl g d a b t k
  | vshr g d a b t k => exact vshr g d a b t k
  | vsra g d a b t k => exact vsra g d a b t k
  | vfsh g d a b t right => exact vfsh g d a b t right
  | vclz g d a t k => exact vclz g d a t k
  | vpopc g d a t k => exact vpopc g d a t k
  | vcmp g kd a b t cc => exact vcmp g kd a b t cc
  | vsel g d a b t ks => exact vsel g d a b t ks
  | kand g kd ka kb => exact kand g kd ka kb
  | kor g kd ka kb => exact kor g kd ka kb
  | kxor g kd ka kb => exact kxor g kd ka kb
  | knot g kd ka => exact knot g kd ka
  | kpop g d ka => exact kpop g d ka
  | kfirst g d ka => exact kfirst g d ka
  | vbcast g d a n t k => exact vbcast g d a n t k
  | vext g d a n t => exact vext g d a n t
  | vins g d a n t => exact vins g d a n t
  | vperm g d a b t k => exact vperm g d a b t k
  | vrot g d a n t k => exact vrot g d a n t k
  | vslide g d a n dn t k => exact vslide g d a n dn t k
  | vred g d a gs op t => exact vred g d a gs op t
  | vscan g d a gs op t => exact vscan g d a gs op t
  | vpack g d a b t wr => exact vpack g d a b t wr
  | vunpk g d a t hi => exact vunpk g d a t hi
  | vfadd g d a b t k => exact vfadd g d a b t k
  | vfsub g d a b t k => exact vfsub g d a b t k
  | vfmul g d a b t k => exact vfmul g d a b t k
  | vfma g d a b t k => exact vfma g d a b t k
  | vfms g d a b t k => exact vfms g d a b t k
  | vfmin g d a b t k => exact vfmin g d a b t k
  | vfmax g d a b t k => exact vfmax g d a b t k
  | vfcmp g kd a b t cc => exact vfcmp g kd a b t cc
  | vfabs g d a t k => exact vfabs g d a t k
  | vfneg g d a t k => exact vfneg g d a t k
  | vfsgn g d a b t k => exact vfsgn g d a b t k
  | vfred g d a gs op t => exact vfred g d a gs op t
  | vrcp g d a t k => exact vrcp g d a t k
  | vrsq g d a t k => exact vrsq g d a t k
  | vexp2 g d a t k => exact vexp2 g d a t k
  | vlog2 g d a t k => exact vlog2 g d a t k
  | vicvt g d a t k => exact vicvt g d a t k
  | vfcvt g d a t k => exact vfcvt g d a t k
  | vxmov g dst a lane => exact vxmov g dst a lane
  -- M slot
  | mclr g acc => exact mclr g acc
  | mmac g acc q af bf kn lm adv => exact mmac g acc q af bf kn lm adv
  | mmacs g acc q af bf kn lm km adv => exact mmacs g acc q af bf kn lm km adv
  | mdrain g dq acc rs nr1 fo cl => exact mdrain g dq acc rs nr1 fo cl
  | mlar g q kn lm adv => exact mlar g q kn lm adv
  | mpar g md imm hi => exact mpar g md imm hi
  | mcall g idx => exact mcall g idx
  | mloop g count mi src => exact mloop g count mi src
  | mend g => exact mend g
  | mendF g => exact mendF g
  | mcntRd g dq acc => exact mcntRd g dq acc
  | mcntSnap g dq acc => exact mcntSnap g dq acc
  | mcntClr g acc => exact mcntClr g acc
  -- L slot
  | ld g dst a b cls t => exact ld g dst a b cls t
  | vld g dst a b cls => exact vld g dst a b cls
  | vldu g dst a b cls => exact vldu g dst a b cls
  | pf g a b => exact pf g a b
  | gpush g q a => exact gpush g q a
  | ldg g dst a b gs t => exact ldg g dst a b gs t
  | vldg g dst a b gs => exact vldg g dst a b gs
  | ldr g dst a ca lq cls t => exact ldr g dst a ca lq cls t
  -- W slot
  | st g src a b cls t => exact st g src a b cls t
  | vst g src a b cls => exact vst g src a b cls
  | vstm g src a k v1 cls => exact vstm g src a k v1 cls
  | aadd g wd a b nr ord cls t => exact aadd g wd a b nr ord cls t
  | amin g wd a b nr ord cls t => exact amin g wd a b nr ord cls t
  | amax g wd a b nr ord cls t => exact amax g wd a b nr ord cls t
  | alog g wd a b nr lop ord cls t => exact alog g wd a b nr lop ord cls t
  | aswp g wd a b nr ord cls t => exact aswp g wd a b nr ord cls t
  | acas g wd a b ord cls t => exact acas g wd a b ord cls t
  | aincb g wd a b nr ord cls t => exact aincb g wd a b nr ord cls t
  | rcnt g a b => exact rcnt g a b
  | asnap g wd a b cls => exact asnap g wd a b cls
  | str g src a ca cls t => exact str g src a ca cls t
  | ratom g wd a wb rop nr ord cls t => exact ratom g wd a wb rop nr ord cls t
  -- C slot
  | cbind g q e gather => exact cbind g q e gather
  | cfree g q => exact cfree g q
  | cput g ch d e sv => exact cput g ch d e sv
  | cget g ch d e => exact cget g ch d e
  | ccard g ch d e => exact ccard g ch d e
  | cwait g ch e inc => exact cwait g ch e inc
  | cstat g ch d => exact cstat g ch d
  | mapi g d e epk epn => exact mapi g d e epk epn
  | mapx g h e => exact mapx g h e
  | mapr g h => exact mapr g h
  | maprAll g epk epn => exact maprAll g epk epn
  | mapq g d h => exact mapq g d h
  | gdecl g d gs e => exact gdecl g d gs e
  | gdeclR g gs => exact gdeclR g gs
  | gq g d gs sel => exact gq g d gs sel
  | tacq g d e => exact tacq g d e
  | trel g e => exact trel g e
  -- Y slot
  | qwait g q n => exact qwait g q n
  | qadv g q n => exact qadv g q n
  | sarm g a b => exact sarm g a b
  | swait g a y => exact swait g a y
  | fence g scope mask => exact fence g scope mask
  | gstep g gs a => exact gstep g gs a
  | barA g scope id c p => exact barA g scope id c p
  | barW g scope id p => exact barW g scope id p
  | bar g scope id c p => exact bar g scope id c p
  | spawn g t e => exact spawn g t e
  | sjoin g t => exact sjoin g t
  | yield g => exact yield g
  | sleep g n => exact sleep g n
  | evpost g a b => exact evpost g a b
  | trap g imm => exact trap g imm
  | eret g mode => exact eret g mode
  | eretT g mode t => exact eretT g mode t
  | ctxsave g t a => exact ctxsave g t a
  | ctxload g t a go => exact ctxload g t a go
  | pimg g t a => exact pimg g t a
  -- X slot
  | xcvt g d a p fo fi => exact xcvt g d a p fo fi
  | xquant g d a b fo p => exact xquant g d a b fo p
  | xdeq g d a b p fi => exact xdeq g d a b p fi
  | xamax g d a b fo => exact xamax g d a b fo
  | xtr g d a t => exact xtr g d a t
  | xexp g q a dbp t chk => exact xexp g q a dbp t chk
  | xpack g d a p t => exact xpack g d a p t
  | xunpk g d a p t => exact xunpk g d a p t
  | xcrc g d a b n1 => exact xcrc g d a b n1
  -- Events
  | routineWordIssue => exact routineWordIssue
  | noOperation => exact noOperation
  | fetchBeyondCode => exact fetchBeyondCode
  | asynchronousTrap loc code info aux => exact asynchronousTrap loc code info aux
  | ringEntryFill loc q => exact ringEntryFill loc q
  | gatherRowFetch loc q rows => exact gatherRowFetch loc q rows
  | ringEntryDrain loc q => exact ringEntryDrain loc q
  | drainQueueForward loc q => exact drainQueueForward loc q
  | chunkDecode loc q chunk => exact chunkDecode loc q chunk
  | tileWriteComplete loc acc => exact tileWriteComplete loc acc
  | mlarFillComplete loc => exact mlarFillComplete loc
  | loadReply loc entry => exact loadReply loc entry
  | ldrLateReply loc entry => exact ldrLateReply loc entry
  | storeAck loc entry => exact storeAck loc entry
  | atomicReply loc entry => exact atomicReply loc entry
  | homeAccess pk => exact homeAccess pk
  | packetOffer pk => exact packetOffer pk
  | pageTableWalk walk => exact pageTableWalk walk
  | transferSourceRead loc entry => exact transferSourceRead loc entry
  | cgetSourceResolve pk => exact cgetSourceResolve pk
  | landingBeat pk => exact landingBeat pk
  | transferComplete loc entry => exact transferComplete loc entry
  | jobCardStart die card => exact jobCardStart die card
  | jobCardComplete die card => exact jobCardComplete die card
  | haloTimeout loc => exact haloTimeout loc
  | neighbourCommitNotice loc grid party => exact neighbourCommitNotice loc grid party
  | barrierRootArrival pk => exact barrierRootArrival pk
  | phaseFlip flip core => exact phaseFlip flip core
  | sleepExpiry loc => exact sleepExpiry loc
  | yieldExpiry core => exact yieldExpiry core
  | bPriorityPromotion core slot => exact bPriorityPromotion core slot
  | taskStart loc => exact taskStart loc
  | recordDelivery die fatal => exact recordDelivery die fatal
  | disposeTrap die slot => exact disposeTrap die slot
  | discardParkedTransfer die slot => exact discardParkedTransfer die slot
  | savePartition die slot => exact savePartition die slot
  | restorePartition die slot => exact restorePartition die slot
  | endSlice die slot => exact endSlice die slot
  | sliceGraceExpiry loc => exact sliceGraceExpiry loc
  | withdrawReceive loc ep => exact withdrawReceive loc ep
  | withdrawAck loc ep => exact withdrawAck loc ep
  | saveStep die => exact saveStep die
  | retrainLink die slot => exact retrainLink die slot
  | functionLevelReset die slot => exact functionLevelReset die slot
  | writeVdRegister die slot => exact writeVdRegister die slot
  | transInv die slot => exact transInv die slot
  | attestationReport die slot => exact attestationReport die slot
  | horizonPublish loc => exact horizonPublish loc
  | horizonRetire ep loc => exact horizonRetire ep loc
  | tokenRecall vd region => exact tokenRecall vd region
  | tokenGrant vd region => exact tokenGrant vd region
  | tokenHoldExpiry vd region => exact tokenHoldExpiry vd region
  | tacqRequest vd region => exact tacqRequest vd region
  | launchPacket offset data => exact launchPacket offset data
  | hostStateStore die offset value => exact hostStateStore die offset value
  | hostMemoryAccess addr write data => exact hostMemoryAccess addr write data
  | linkPacketReceive link f => exact linkPacketReceive link f
  | linkAck link seq => exact linkAck link seq
  | laneFailure link lane => exact laneFailure link lane
  | linkRetrained link => exact linkRetrained link
  | linkRetrainTimeout link => exact linkRetrainTimeout link
  | linkTraining link version modules => exact linkTraining link version modules
  | ringSkewMeasure station cw ccw => exact ringSkewMeasure station cw ccw
  | correctedError die => exact correctedError die
  | uncorrectableError addr => exact uncorrectableError addr
  | moduleReset images => exact moduleReset images
  | powerOff => exact powerOff
  | rangeTableInstall vd entries => exact rangeTableInstall vd entries
  | virtualDeviceCreation vd partitions => exact virtualDeviceCreation vd partitions
  | minimumShareSetting station vd cls slots => exact minimumShareSetting station vd cls slots

end Sys2Proof.Laws.RoundTrip

namespace Sys2Proof

/-- No two words of a slot decode to one instruction: each is that instruction's encoding. -/
theorem decodeWord_injective {sl : Slot} {w v : Nat} {i : Instr} (hw : decodeWord sl w = some i) (hv : decodeWord sl v = some i) :
    w = v :=
  Option.some.inj ((decodeWord_sound hw).2.symm.trans (decodeWord_sound hv).2)

/-- Settles O54: the round trip of each instruction one way, the decoder's check against the encoder the other way. -/
theorem decodeEncodeAgree : Obligations.DecodeEncodeAgree := by
  unfold Obligations.DecodeEncodeAgree
  exact ⟨Laws.RoundTrip.statement_holds, fun _ _ _ => decodeWord_sound, fun _ _ _ _ => decodeWord_injective⟩

end Sys2Proof
end

section
/-! Every step keeps the canonical form of memory (O55): each instruction keeps it, and a step is the meaning of one instruction or a
change that leaves memory alone. -/

namespace Sys2Proof.Machine

/-- An instruction that is no store of any kind keeps what memory alone decides: by its constructor, the frame of its own meaning; the
constructors that are left are those that `mayStore` names. -/
theorem exec_keeps {i : Instr} (h : mayStore i = false) {P : State → Prop} (hP : Quiet P) {s : State} (hs : P s) :
    OutKeeps P (exec i s) := by
  cases i with
  -- S slot
  | add => exact execAdd_keeps (hP := hP) (hs := hs) ..
  | sub => exact execSub_keeps (hP := hP) (hs := hs) ..
  | addsl => exact execAddsl_keeps (hP := hP) (hs := hs) ..
  | mul => exact execMul_keeps (hP := hP) (hs := hs) ..
  | mulh => exact execMulh_keeps (hP := hP) (hs := hs) ..
  | mulhB => exact execMulhB_keeps (hP := hP) (hs := hs) ..
  | div => exact execDiv_keeps (hP := hP) (hs := hs) ..
  | divB => exact execDivB_keeps (hP := hP) (hs := hs) ..
  | rem => exact execRem_keeps (hP := hP) (hs := hs) ..
  | remB => exact execRemB_keeps (hP := hP) (hs := hs) ..
  | and => exact execAnd_keeps (hP := hP) (hs := hs) ..
  | or => exact execOr_keeps (hP := hP) (hs := hs) ..
  | xor => exact execXor_keeps (hP := hP) (hs := hs) ..
  | andn => exact execAndn_keeps (hP := hP) (hs := hs) ..
  | shl => exact execShl_keeps (hP := hP) (hs := hs) ..
  | shr => exact execShr_keeps (hP := hP) (hs := hs) ..
  | sra => exact execSra_keeps (hP := hP) (hs := hs) ..
  | rotl => exact execRotl_keeps (hP := hP) (hs := hs) ..
  | fshl => exact execFshl_keeps (hP := hP) (hs := hs) ..
  | fshr => exact execFshr_keeps (hP := hP) (hs := hs) ..
  | clz => exact execClz_keeps (hP := hP) (hs := hs) ..
  | ctz => exact execCtz_keeps (hP := hP) (hs := hs) ..
  | popc => exact execPopc_keeps (hP := hP) (hs := hs) ..
  | min => exact execMin_keeps (hP := hP) (hs := hs) ..
  | max => exact execMax_keeps (hP := hP) (hs := hs) ..
  | minB => exact execMinB_keeps (hP := hP) (hs := hs) ..
  | maxB => exact execMaxB_keeps (hP := hP) (hs := hs) ..
  | bfx => exact execBfx_keeps (hP := hP) (hs := hs) ..
  | bfi => exact execBfi_keeps (hP := hP) (hs := hs) ..
  | sel => exact execSel_keeps (hP := hP) (hs := hs) ..
  | cmp => exact execCmp_keeps (hP := hP) (hs := hs) ..
  | pand => exact execPand_keeps (hP := hP) (hs := hs) ..
  | por => exact execPor_keeps (hP := hP) (hs := hs) ..
  | pnot => exact execPnot_keeps (hP := hP) (hs := hs) ..
  | addi => exact execAddi_keeps (hP := hP) (hs := hs) ..
  | andi => exact execAndi_keeps (hP := hP) (hs := hs) ..
  | ori => exact execOri_keeps (hP := hP) (hs := hs) ..
  | xori => exact execXori_keeps (hP := hP) (hs := hs) ..
  | shli => exact execShli_keeps (hP := hP) (hs := hs) ..
  | shri => exact execShri_keeps (hP := hP) (hs := hs) ..
  | srai => exact execSrai_keeps (hP := hP) (hs := hs) ..
  | li => exact execLi_keeps (hP := hP) (hs := hs) ..
  | lih => exact execLih_keeps (hP := hP) (hs := hs) ..
  | cmpi => exact execCmpi_keeps (hP := hP) (hs := hs) ..
  | br => exact execBr_keeps (hP := hP) (hs := hs) ..
  | jmp => exact execJmp_keeps (hP := hP) (hs := hs) ..
  | jmpr => exact execJmpr_keeps (hP := hP) (hs := hs) ..
  | call => exact execCall_keeps (hP := hP) (hs := hs) ..
  | ret => exact execRet_keeps (hP := hP) (hs := hs) ..
  | loop => exact execLoop_keeps (hP := hP) (hs := hs) ..
  | halt => exact execHalt_keeps (hP := hP) (hs := hs) ..
  | xmov => exact execXmov_keeps (hP := hP) (hs := hs) ..
  | rdsr => exact execRdsr_keeps (hP := hP) (hs := hs) ..
  | wrsr => exact execWrsr_keeps (hP := hP) (hs := hs) ..
  | mrsData => exact execMrsData_keeps (hP := hP) (hs := hs) ..
  | rdts => exact execRdts_keeps (hP := hP) (hs := hs) ..
  -- V0 and V1 slots
  | vadd => exact execVadd_keeps (hP := hP) (hs := hs) ..
  | vsub => exact execVsub_keeps (hP := hP) (hs := hs) ..
  | vmul => exact execVmul_keeps (hP := hP) (hs := hs) ..
  | vmulh => exact execVmulh_keeps (hP := hP) (hs := hs) ..
  | vmin => exact execVmin_keeps (hP := hP) (hs := hs) ..
  | vmax => exact execVmax_keeps (hP := hP) (hs := hs) ..
  | vabs => exact execVabs_keeps (hP := hP) (hs := hs) ..
  | vand => exact execVand_keeps (hP := hP) (hs := hs) ..
  | vor => exact execVor_keeps (hP := hP) (hs := hs) ..
  | vxor => exact execVxor_keeps (hP := hP) (hs := hs) ..
  | vandn => exact execVandn_keeps (hP := hP) (hs := hs) ..
  | vshl => exact execVshl_keeps (hP := hP) (hs := hs) ..
  | vshr => exact execVshr_keeps (hP := hP) (hs := hs) ..
  | vsra => exact execVsra_keeps (hP := hP) (hs := hs) ..
  | vfsh => exact execVfsh_keeps (hP := hP) (hs := hs) ..
  | vclz => exact execVclz_keeps (hP := hP) (hs := hs) ..
  | vpopc => exact execVpopc_keeps (hP := hP) (hs := hs) ..
  | vcmp => exact execVcmp_keeps (hP := hP) (hs := hs) ..
  | vsel => exact execVsel_keeps (hP := hP) (hs := hs) ..
  | kand => exact execKand_keeps (hP := hP) (hs := hs) ..
  | kor => exact execKor_keeps (hP := hP) (hs := hs) ..
  | kxor => exact execKxor_keeps (hP := hP) (hs := hs) ..
  | knot => exact execKnot_keeps (hP := hP) (hs := hs) ..
  | kpop => exact execKpop_keeps (hP := hP) (hs := hs) ..
  | kfirst => exact execKfirst_keeps (hP := hP) (hs := hs) ..
  | vbcast => exact execVbcast_keeps (hP := hP) (hs := hs) ..
  | vext => exact execVext_keeps (hP := hP) (hs := hs) ..
  | vins => exact execVins_keeps (hP := hP) (hs := hs) ..
  | vperm => exact execVperm_keeps (hP := hP) (hs := hs) ..
  | vrot => exact execVrot_keeps (hP := hP) (hs := hs) ..
  | vslide => exact execVslide_keeps (hP := hP) (hs := hs) ..
  | vred => exact execVred_keeps (hP := hP) (hs := hs) ..
  | vscan => exact execVscan_keeps (hP := hP) (hs := hs) ..
  | vpack => exact execVpack_keeps (hP := hP) (hs := hs) ..
  | vunpk => exact execVunpk_keeps (hP := hP) (hs := hs) ..
  | vfadd => exact execVfadd_keeps (hP := hP) (hs := hs) ..
  | vfsub => exact execVfsub_keeps (hP := hP) (hs := hs) ..
  | vfmul => exact execVfmul_keeps (hP := hP) (hs := hs) ..
  | vfma => exact execVfma_keeps (hP := hP) (hs := hs) ..
  | vfms => exact execVfms_keeps (hP := hP) (hs := hs) ..
  | vfmin => exact execVfmin_keeps (hP := hP) (hs := hs) ..
  | vfmax => exact execVfmax_keeps (hP := hP) (hs := hs) ..
  | vfcmp => exact execVfcmp_keeps (hP := hP) (hs := hs) ..
  | vfabs => exact execVfabs_keeps (hP := hP) (hs := hs) ..
  | vfneg => exact execVfneg_keeps (hP := hP) (hs := hs) ..
  | vfsgn => exact execVfsgn_keeps (hP := hP) (hs := hs) ..
  | vfred => exact execVfred_keeps (hP := hP) (hs := hs) ..
  | vrcp => exact execVrcp_keeps (hP := hP) (hs := hs) ..
  | vrsq => exact execVrsq_keeps (hP := hP) (hs := hs) ..
  | vexp2 => exact execVexp2_keeps (hP := hP) (hs := hs) ..
  | vlog2 => exact execVlog2_keeps (hP := hP) (hs := hs) ..
  | vicvt => exact execVicvt_keeps (hP := hP) (hs := hs) ..
  | vfcvt => exact execVfcvt_keeps (hP := hP) (hs := hs) ..
  | vxmov => exact execVxmov_keeps (hP := hP) (hs := hs) ..
  -- M slot
  | mclr => exact execMclr_keeps (hP := hP) (hs := hs) ..
  | mmac => exact execMmac_keeps (hP := hP) (hs := hs) ..
  | mmacs => exact execMmacs_keeps (hP := hP) (hs := hs) ..
  | mdrain => exact execMdrain_keeps (hP := hP) (hs := hs) ..
  | mlar => exact execMlar_keeps (hP := hP) (hs := hs) ..
  | mpar => exact execMpar_keeps (hP := hP) (hs := hs) ..
  | mcall => exact execMcall_keeps (hP := hP) (hs := hs) ..
  | mloop => exact execMloop_keeps (hP := hP) (hs := hs) ..
  | mend => exact execMend_keeps (hP := hP) (hs := hs) ..
  | mendF => exact execMendF_keeps (hP := hP) (hs := hs) ..
  | mcntRd => exact execMcntRd_keeps (hP := hP) (hs := hs) ..
  | mcntSnap => exact execMcntSnap_keeps (hP := hP) (hs := hs) ..
  | mcntClr => exact execMcntClr_keeps (hP := hP) (hs := hs) ..
  -- L slot
  | ld => exact execLd_keeps (hP := hP) (hs := hs) ..
  | vld => exact execVld_keeps (hP := hP) (hs := hs) ..
  | vldu => exact execVldu_keeps (hP := hP) (hs := hs) ..
  | pf => exact execPf_keeps (hP := hP) (hs := hs) ..
  | gpush => exact execGpush_keeps (hP := hP) (hs := hs) ..
  | ldg => exact execLdg_keeps (hP := hP) (hs := hs) ..
  | vldg => exact execVldg_keeps (hP := hP) (hs := hs) ..
  | ldr => exact execLdr_keeps (hP := hP) (hs := hs) ..
  -- W slot
  | rcnt => exact execRcnt_keeps (hP := hP) (hs := hs) ..
  | str => exact execStr_keeps (hP := hP) (hs := hs) ..
  | ratom => exact execRatom_keeps (hP := hP) (hs := hs) ..
  -- C slot
  | cbind => exact execCbind_keeps (hP := hP) (hs := hs) ..
  | cfree => exact execCfree_keeps (hP := hP) (hs := hs) ..
  | cput => exact execCput_keeps (hP := hP) (hs := hs) ..
  | cget => exact execCget_keeps (hP := hP) (hs := hs) ..
  | ccard => exact execCcard_keeps (hP := hP) (hs := hs) ..
  | cwait => exact execCwait_keeps (hP := hP) (hs := hs) ..
  | cstat => exact execCstat_keeps (hP := hP) (hs := hs) ..
  | mapr => exact execMapr_keeps (hP := hP) (hs := hs) ..
  | maprAll => exact execMaprAll_keeps (hP := hP) (hs := hs) ..
  | mapq => exact execMapq_keeps (hP := hP) (hs := hs) ..
  | gdeclR => exact execGdeclR_keeps (hP := hP) (hs := hs) ..
  | gq => exact execGq_keeps (hP := hP) (hs := hs) ..
  | tacq => exact execTacq_keeps (hP := hP) (hs := hs) ..
  -- Y slot
  | qwait => exact execQwait_keeps (hP := hP) (hs := hs) ..
  | qadv => exact execQadv_keeps (hP := hP) (hs := hs) ..
  | swait => exact execSwait_keeps (hP := hP) (hs := hs) ..
  | fence => exact execFence_keeps (hP := hP) (hs := hs) ..
  | barA => exact execBarA_keeps (hP := hP) (hs := hs) ..
  | barW => exact execBarW_keeps (hP := hP) (hs := hs) ..
  | bar => exact execBar_keeps (hP := hP) (hs := hs) ..
  | sjoin => exact execSjoin_keeps (hP := hP) (hs := hs) ..
  | yield => exact execYield_keeps (hP := hP) (hs := hs) ..
  | sleep => exact execSleep_keeps (hP := hP) (hs := hs) ..
  | evpost => exact execEvpost_keeps (hP := hP) (hs := hs) ..
  | trap => exact execTrap_keeps (hP := hP) (hs := hs) ..
  | ctxsave => exact execCtxsave_keeps (hP := hP) (hs := hs) ..
  -- X slot
  | xcvt => exact execXcvt_keeps (hP := hP) (hs := hs) ..
  | xquant => exact execXquant_keeps (hP := hP) (hs := hs) ..
  | xdeq => exact execXdeq_keeps (hP := hP) (hs := hs) ..
  | xamax => exact execXamax_keeps (hP := hP) (hs := hs) ..
  | xtr => exact execXtr_keeps (hP := hP) (hs := hs) ..
  | xexp => exact execXexp_keeps (hP := hP) (hs := hs) ..
  | xpack => exact execXpack_keeps (hP := hP) (hs := hs) ..
  | xunpk => exact execXunpk_keeps (hP := hP) (hs := hs) ..
  | xcrc => exact execXcrc_keeps (hP := hP) (hs := hs) ..
  -- Events
  | routineWordIssue => exact execRoutineWordIssue_keeps (hP := hP) (hs := hs)
  | noOperation => exact execNoOperation_keeps (hP := hP) (hs := hs)
  | fetchBeyondCode => exact execFetchBeyondCode_keeps (hP := hP) (hs := hs)
  | ringEntryFill => exact execRingEntryFill_keeps (hP := hP) (hs := hs) ..
  | gatherRowFetch => exact execGatherRowFetch_keeps (hP := hP) (hs := hs) ..
  | drainQueueForward => exact execDrainQueueForward_keeps (hP := hP) (hs := hs) ..
  | chunkDecode => exact execChunkDecode_keeps (hP := hP) (hs := hs) ..
  | tileWriteComplete => exact execTileWriteComplete_keeps (hP := hP) (hs := hs) ..
  | mlarFillComplete => exact execMlarFillComplete_keeps (hP := hP) (hs := hs) ..
  | loadReply => exact execLoadReply_keeps (hP := hP) (hs := hs) ..
  | ldrLateReply => exact execLdrLateReply_keeps (hP := hP) (hs := hs) ..
  | storeAck => exact execStoreAck_keeps (hP := hP) (hs := hs) ..
  | atomicReply => exact execAtomicReply_keeps (hP := hP) (hs := hs) ..
  | packetOffer => exact execPacketOffer_keeps (hP := hP) (hs := hs) ..
  | pageTableWalk => exact execPageTableWalk_keeps (hP := hP) (hs := hs) ..
  | haloTimeout => exact execHaloTimeout_keeps (hP := hP) (hs := hs) ..
  | neighbourCommitNotice => exact execNeighbourCommitNotice_keeps (hP := hP) (hs := hs) ..
  | barrierRootArrival => exact execBarrierRootArrival_keeps (hP := hP) (hs := hs) ..
  | phaseFlip => exact execPhaseFlip_keeps (hP := hP) (hs := hs) ..
  | sleepExpiry => exact execSleepExpiry_keeps (hP := hP) (hs := hs) ..
  | yieldExpiry => exact execYieldExpiry_keeps (hP := hP) (hs := hs) ..
  | bPriorityPromotion => exact execBPriorityPromotion_keeps (hP := hP) (hs := hs) ..
  | recordDelivery => exact execRecordDelivery_keeps (hP := hP) (hs := hs) ..
  | savePartition => exact execSavePartition_keeps (hP := hP) (hs := hs) ..
  | endSlice => exact execEndSlice_keeps (hP := hP) (hs := hs) ..
  | sliceGraceExpiry => exact execSliceGraceExpiry_keeps (hP := hP) (hs := hs) ..
  | withdrawReceive => exact execWithdrawReceive_keeps (hP := hP) (hs := hs) ..
  | withdrawAck => exact execWithdrawAck_keeps (hP := hP) (hs := hs) ..
  | retrainLink => exact execRetrainLink_keeps (hP := hP) (hs := hs) ..
  | writeVdRegister => exact execWriteVdRegister_keeps (hP := hP) (hs := hs) ..
  | transInv => exact execTransInv_keeps (hP := hP) (hs := hs) ..
  | horizonPublish => exact execHorizonPublish_keeps (hP := hP) (hs := hs) ..
  | horizonRetire => exact execHorizonRetire_keeps (hP := hP) (hs := hs) ..
  | tokenGrant => exact execTokenGrant_keeps (hP := hP) (hs := hs) ..
  | tokenHoldExpiry => exact execTokenHoldExpiry_keeps (hP := hP) (hs := hs) ..
  | tacqRequest => exact execTacqRequest_keeps (hP := hP) (hs := hs) ..
  | launchPacket => exact execLaunchPacket_keeps (hP := hP) (hs := hs) ..
  | linkPacketReceive => exact execLinkPacketReceive_keeps (hP := hP) (hs := hs) ..
  | linkAck => exact execLinkAck_keeps (hP := hP) (hs := hs) ..
  | laneFailure => exact execLaneFailure_keeps (hP := hP) (hs := hs) ..
  | linkRetrained => exact execLinkRetrained_keeps (hP := hP) (hs := hs) ..
  | linkRetrainTimeout => exact execLinkRetrainTimeout_keeps (hP := hP) (hs := hs) ..
  | linkTraining => exact execLinkTraining_keeps (hP := hP) (hs := hs) ..
  | ringSkewMeasure => exact execRingSkewMeasure_keeps (hP := hP) (hs := hs) ..
  | correctedError => exact execCorrectedError_keeps (hP := hP) (hs := hs) ..
  | uncorrectableError => exact execUncorrectableError_keeps (hP := hP) (hs := hs) ..
  | rangeTableInstall => exact execRangeTableInstall_keeps (hP := hP) (hs := hs) ..
  | virtualDeviceCreation => exact execVirtualDeviceCreation_keeps (hP := hP) (hs := hs) ..
  | minimumShareSetting => exact execMinimumShareSetting_keeps (hP := hP) (hs := hs) ..
  | _ => nomatch h

/-- Every instruction keeps the canonical form of memory: those that may store each by the stores that they are made of, the others because
they leave memory alone. -/
theorem exec_inv (i : Instr) {s : State} (hs : s.Inv) : OutKeeps State.Inv (exec i s) := by
  cases i with
  -- W slot
  | st => exact execSt_inv (hs := hs) ..
  | vst => exact execVst_inv (hs := hs) ..
  | vstm => exact execVstm_inv (hs := hs) ..
  | aadd => exact execAadd_inv (hs := hs) ..
  | amin => exact execAmin_inv (hs := hs) ..
  | amax => exact execAmax_inv (hs := hs) ..
  | alog => exact execAlog_inv (hs := hs) ..
  | aswp => exact execAswp_inv (hs := hs) ..
  | acas => exact execAcas_inv (hs := hs) ..
  | aincb => exact execAincb_inv (hs := hs) ..
  | asnap => exact execAsnap_inv (hs := hs) ..
  -- C slot
  | mapi => exact execMapi_inv (hs := hs) ..
  | mapx => exact execMapx_inv (hs := hs) ..
  | gdecl => exact execGdecl_inv (hs := hs) ..
  | trel => exact execTrel_inv (hs := hs) ..
  -- Y slot
  | sarm => exact execSarm_inv (hs := hs) ..
  | gstep => exact execGstep_inv (hs := hs) ..
  | spawn => exact execSpawn_inv (hs := hs) ..
  | eret => exact execEret_inv (hs := hs) ..
  | eretT => exact execEretT_inv (hs := hs) ..
  | ctxload => exact execCtxload_inv (hs := hs) ..
  | pimg => exact execPimg_inv (hs := hs) ..
  -- Events
  | asynchronousTrap => exact execAsynchronousTrap_inv (hs := hs) ..
  | ringEntryDrain => exact execRingEntryDrain_inv (hs := hs) ..
  | homeAccess => exact execHomeAccess_inv (hs := hs) ..
  | transferSourceRead => exact execTransferSourceRead_inv (hs := hs) ..
  | cgetSourceResolve => exact execCgetSourceResolve_inv (hs := hs) ..
  | landingBeat => exact execLandingBeat_inv (hs := hs) ..
  | transferComplete => exact execTransferComplete_inv (hs := hs) ..
  | jobCardStart => exact execJobCardStart_inv (hs := hs) ..
  | jobCardComplete => exact execJobCardComplete_inv (hs := hs) ..
  | taskStart => exact execTaskStart_inv (hs := hs) ..
  | disposeTrap => exact execDisposeTrap_inv (hs := hs) ..
  | discardParkedTransfer => exact execDiscardParkedTransfer_inv (hs := hs) ..
  | restorePartition => exact execRestorePartition_inv (hs := hs) ..
  | saveStep => exact execSaveStep_inv (hs := hs) ..
  | functionLevelReset => exact execFunctionLevelReset_inv (hs := hs) ..
  | attestationReport => exact execAttestationReport_inv (hs := hs) ..
  | tokenRecall => exact execTokenRecall_inv (hs := hs) ..
  | hostStateStore => exact execHostStateStore_inv (hs := hs) ..
  | hostMemoryAccess => exact execHostMemoryAccess_inv (hs := hs) ..
  | moduleReset => exact execModuleReset_inv (hs := hs) ..
  | powerOff => exact execPowerOff_inv (hs := hs)
  | _ => exact exec_keeps rfl Quiet.inv hs

/-- A move keeps the canonical form: a slot's move issues instructions, an event is one. -/
theorem runMove_inv (m : Move) {s : State} (hs : s.Inv) : OutKeeps State.Inv (runMove m s) := by
  unfold runMove
  split
  case h_1 loc x =>
    split
    · exact issueMove_keeps Quiet.inv (fun i _ => exec_inv i) loc x hs
    · exact trivial
  case h_2 i =>
    split
    · exact hs
    · split
      · exact exec_inv i hs
      · exact trivial

/-- A step keeps the canonical form, whether its move comes from the agenda or is the default one. -/
theorem step_inv {s : State} (hs : s.Inv) : OutKeeps State.Inv (step s) := by
  have hdefault : (defaultMove s).2.Inv := defaultMove_keeps s Quiet.inv hs
  unfold step
  split
  case h_1 => exact runMove_inv _ hs
  case h_2 =>
    split
    case h_1 m t ht =>
      rw [ht] at hdefault
      exact runMove_inv m hdefault
    case h_2 t ht =>
      rw [ht] at hdefault
      split
      · exact hdefault
      · exact trivial

/-- Settles O55: what a step keeps, read at the state it goes on to. -/
theorem stepKeepsMemoryForm : Obligations.StepKeepsMemoryForm := by
  unfold Obligations.StepKeepsMemoryForm
  intro s t hs ht
  have h := step_inv hs
  rw [ht] at h
  exact h

end Sys2Proof.Machine
end

section
/-! How an operation of a slot is judged before it acts: passed over, held back, refused as illegal, void by its predicate, or with no room for
its results (O58). -/

namespace Sys2Proof.Machine

/-! ### Every operation of a slot is one issue -/

/-- The predicate that an operation is judged by: its own, and none once its wait has begun (log 27). -/
def judgedGuard (i : Instr) (g : Guard) (s : State) : Guard :=
  match i with
  | .mlar _ _ _ _ _ => begunGuard (mlarBegun s) g
  | .gstep _ _ _ | .ctxsave _ _ _ | .ctxload _ _ _ _ => begunGuard (waitBegun s) g
  | .bar _ _ _ _ _ => begunGuard s.me.barAt.isSome g
  | .sleep _ _ => begunGuard s.me.sleepTo.isSome g
  | _ => g

/-- The meaning of an instruction is an issue of it under a guard, with some act and with what follows the act. -/
def IssuesUnder (i : Instr) (g : Guard) (s : State) : Prop :=
  ∃ fin act, exec i s = .next (issueWith fin i g act s)

/-- An operation with a predicate issues under its judged guard; an event has no predicate. -/
theorem exec_issues {i : Instr} {g : Guard} (h : predOf i = some g) (s : State) : IssuesUnder i (judgedGuard i g s) s := by
  cases i with
  | routineWordIssue | noOperation | fetchBeyondCode | asynchronousTrap | ringEntryFill | gatherRowFetch | ringEntryDrain
  | drainQueueForward | chunkDecode | tileWriteComplete | mlarFillComplete | loadReply | ldrLateReply | storeAck | atomicReply | homeAccess
  | packetOffer | pageTableWalk | transferSourceRead | cgetSourceResolve | landingBeat | transferComplete | jobCardStart | jobCardComplete
  | haloTimeout | neighbourCommitNotice | barrierRootArrival | phaseFlip | sleepExpiry | yieldExpiry | bPriorityPromotion | taskStart
  | recordDelivery | disposeTrap | discardParkedTransfer | savePartition | restorePartition | endSlice | sliceGraceExpiry | withdrawReceive
  | withdrawAck | saveStep | retrainLink | functionLevelReset | writeVdRegister | transInv | attestationReport | horizonPublish
  | horizonRetire | tokenRecall | tokenGrant | tokenHoldExpiry | tacqRequest | launchPacket | hostStateStore | hostMemoryAccess
  | linkPacketReceive | linkAck | laneFailure | linkRetrained | linkRetrainTimeout | linkTraining | ringSkewMeasure | correctedError
  | uncorrectableError | moduleReset | powerOff | rangeTableInstall | virtualDeviceCreation | minimumShareSetting => nomatch h
  | _ =>
    obtain rfl := Option.some.inj h
    exact ⟨_, _, rfl⟩

/-- Where no wait has begun, an operation is judged by its own predicate. -/
theorem judgedGuard_fresh {s : State} (hbar : s.me.barAt = none) (hsleep : s.me.sleepTo = none) (hwait : waitBegun s = false)
    (hmlar : mlarBegun s = false) (i : Instr) (g : Guard) : judgedGuard i g s = g := by
  unfold judgedGuard
  split <;> simp [begunGuard, hbar, hsleep, hwait, hmlar]

/-! ### The judgements of an issue, in their order -/

section
variable {i : Instr} {g : Guard} {s : State} {fin : State → State} {act : Act Unit}

/-- An operation that a disposed trap passes over is void. -/
theorem issueWith_skipped (hskip : s.me.skips.contains (s.cur.slot.num, s.here) = true) : issueWith fin i g act s = voidIssue i s :=
  if_pos hskip

/-- An operation behind an earlier one on its rings stalls, and the stall is counted. -/
theorem issueWith_blocked (hskip : s.me.skips.contains (s.cur.slot.num, s.here) = false) (hring : ringBlocked s i = true) :
    issueWith fin i g act s = stallHere (perf s s.cur.loc 3 1) :=
  (if_neg (ne_true_of_eq_false hskip)).trans (if_pos hring)

variable (hheld : heldBack i s = false)
include hheld

/-- An operation that is not legal traps, whatever its predicate. -/
theorem issueWith_illegal (hlegal : legal s i = false) : issueWith fin i g act s = trapHere s 0x01 0 := by
  obtain ⟨hskip, hring⟩ := Bool.or_eq_false_iff.1 hheld
  unfold issueWith issueFull
  rw [hskip, hring, hlegal]
  rfl

/-- A legal operation whose predicate is false is void. -/
theorem issueWith_false (hlegal : legal s i = true) (hg : guardHolds g s = .ok (false, s)) :
    issueWith fin i g act s = voidIssue i s := by
  obtain ⟨hskip, hring⟩ := Bool.or_eq_false_iff.1 hheld
  unfold issueWith issueFull
  rw [hskip, hring, hlegal, hg]
  rfl

/-- A legal operation whose predicate is true stalls where its results would not fit its slot's pipe image or its draws are unknown. -/
theorem issueWith_noRoom (hlegal : legal s i = true) (hg : guardHolds g s = .ok (true, s))
    (hroom : imageFull s i = true ∨ drawsUnknown s i = true) : issueWith fin i g act s = stallHere s := by
  obtain ⟨hskip, hring⟩ := Bool.or_eq_false_iff.1 hheld
  unfold issueWith issueFull
  rw [hskip, hring, hlegal, hg]
  exact if_pos (Bool.or_eq_true_iff.2 hroom)

end

/-- An operation of a slot that is neither passed over nor held back and is not legal traps. -/
theorem exec_illegal {i : Instr} {g : Guard} {s : State} (hi : predOf i = some g) (hheld : heldBack i s = false)
    (hlegal : legal s i = false) : exec i s = .next (trapHere s 0x01 0) := by
  obtain ⟨fin, act, hexec⟩ := exec_issues hi s
  rw [hexec, issueWith_illegal hheld hlegal]

/-! ### What a legal operation needs of its rings and of its issuer -/

/-- Whether a ring is bound in a direction. -/
theorem boundDir_iff {q : Seq} {n : Nat} {out : Bool} : boundDir q n out = true ↔ ∃ r, q.rings.find n = some r ∧ r.dir = out := by
  unfold boundDir
  cases q.rings.find n <;> simp

section
variable {i : Instr} {s : State} (hlegal : legal s i = true)
include hlegal

/-- A legal operation is no supervisor's, or its issuer runs in supervisor mode (R51). -/
theorem legal_supervisor : supervisor s.me = true ∨ isSupervisor i = false := by
  unfold legal at hlegal
  simp only [Bool.and_eq_true] at hlegal
  obtain ⟨⟨⟨⟨⟨⟨_, hsup⟩, _⟩, _⟩, _⟩, _⟩, _⟩ := hlegal
  simpa using hsup

/-- A legal operation finds its rings as it needs them (R47). -/
theorem legal_rings : ringsOk s.me i = true := by
  unfold legal at hlegal
  simp only [Bool.and_eq_true] at hlegal
  obtain ⟨⟨_, hrings⟩, _⟩ := hlegal
  exact hrings

/-- Each ring that a legal operation reads is bound with DIR 0 (R47). -/
theorem legal_reads {n : Nat} (hn : n ∈ readRingsOf i) : ∃ r, s.me.rings.find n = some r ∧ r.dir = false := by
  have hrings := legal_rings hlegal
  unfold ringsOk at hrings
  simp only [Bool.and_eq_true] at hrings
  obtain ⟨⟨⟨hreads, _⟩, _⟩, _⟩ := hrings
  exact boundDir_iff.1 (List.all_eq_true.1 hreads n hn)

/-- The ring that a legal operation pushes into is bound with DIR 1 (R47). -/
theorem legal_push {n : Nat} (hn : pushOf i = some n) : ∃ r, s.me.rings.find n = some r ∧ r.dir = true := by
  have hrings := legal_rings hlegal
  unfold ringsOk at hrings
  simp only [hn, Bool.and_eq_true] at hrings
  obtain ⟨⟨⟨_, hpush⟩, _⟩, _⟩ := hrings
  exact boundDir_iff.1 hpush

end

/-- Outside supervisor mode a supervisor's operation is not legal. -/
theorem legal_false_of_task {i : Instr} {s : State} (hsup : supervisor s.me = false) (hi : isSupervisor i = true) : legal s i = false := by
  refine Bool.eq_false_iff.2 fun hlegal => ?_
  rcases legal_supervisor hlegal with h | h
  · exact Bool.false_ne_true (hsup.symm.trans h)
  · exact Bool.false_ne_true (h.symm.trans hi)

/-- Settles O58: every operation of a slot is one issue, whose judgements come in the order passed over, held back, legal, predicate, room. -/
theorem illegalAndVoidOperations : Obligations.IllegalAndVoidOperations := by
  unfold Obligations.IllegalAndVoidOperations
  refine ⟨fun i g s hi hheld => ⟨exec_illegal hi hheld, ?reads, ?push, ?legal⟩, ?supervisor, fun i g s hi => ⟨?skipped, ?blocked⟩⟩
  case reads =>
    intro n hn hring
    exact exec_illegal hi hheld (Bool.eq_false_iff.2 fun hlegal => hring (legal_reads hlegal hn))
  case push =>
    intro n hn hring
    exact exec_illegal hi hheld (Bool.eq_false_iff.2 fun hlegal => hring (legal_push hlegal hn))
  case legal =>
    intro hlegal hbar hsleep hwait hmlar
    obtain ⟨fin, act, hexec⟩ := exec_issues hi s
    rw [judgedGuard_fresh hbar hsleep hwait hmlar] at hexec
    refine ⟨fun hp => ?void, fun hp hroom => ?stalled⟩
    case void => rw [hexec, issueWith_false hheld hlegal (State.predIn_ok hp)]
    case stalled => rw [hexec, issueWith_noRoom hheld hlegal (State.predIn_ok hp) hroom]
  case supervisor =>
    intro i g t a m s hi hsup hheld
    rcases hi with rfl | ⟨go, rfl⟩ | rfl | rfl <;> exact exec_illegal rfl hheld (legal_false_of_task hsup rfl)
  case skipped =>
    intro hskip
    obtain ⟨fin, act, hexec⟩ := exec_issues hi s
    rw [hexec, issueWith_skipped hskip]
  case blocked =>
    intro hskip hring
    obtain ⟨fin, act, hexec⟩ := exec_issues hi s
    rw [hexec, issueWith_blocked hskip hring]

end Sys2Proof.Machine
end

section
/-! What the scalar functions of the model are as operations on 64-bit words: quotients, rotations, funnels, fields, counts and limits
(R63 to R69). -/

namespace Sys2Proof.Machine

/-! ### Bits of a wider value -/

/-- The quotient of a word by a power of two, cut to a length, is the bits of that length from there. -/
theorem ofNat_div_extract {w : Nat} (x : BitVec w) (lo n : Nat) : BitVec.ofNat n (x.toNat / 2 ^ lo) = x.extractLsb' lo n := by
  rw [BitVec.extractLsb', Nat.shiftRight_eq_div_pow]

/-- Bits of a word as `Bits` of Table 3.21 gives them. -/
theorem bitsAt_extract {w : Nat} (x : BitVec w) (lo n : Nat) : bitsAt x.toNat lo n = (x.extractLsb' lo n).toNat := by
  rw [BitVec.extractLsb'_toNat, Nat.shiftRight_eq_div_pow, bitsAt]

/-- The low bits of a word, as a number. -/
theorem toNat_mod_extract {w : Nat} (x : BitVec w) (n : Nat) : x.toNat % 2 ^ n = (x.extractLsb' 0 n).toNat := by
  rw [BitVec.extractLsb'_toNat, Nat.shiftRight_zero]

/-! ### Arithmetic (R63, R64) -/

theorem ofNat_sub_word (x y : Word) : BitVec.ofNat 64 (x.toNat + 2 ^ 64 - y.toNat) = x - y := by
  have hle : y.toNat ≤ 2 ^ 64 := y.isLt.le
  apply BitVec.eq_of_toNat_eq
  rw [BitVec.toNat_ofNat, BitVec.toNat_sub, ← Nat.sub_add_comm hle, Nat.add_comm]

/-- The signed product of two words, at twice their width. -/
theorem wrap_mul_signExtend (x y : Word) :
    wrap 128 (sext 64 x.toNat * sext 64 y.toNat) = (x.signExtend 128 * y.signExtend 128).toNat := by
  rw [sext64, sext64, BitVec.signExtend, BitVec.signExtend, ← BitVec.ofInt_mul, BitVec.toNat_ofInt, wrap]
  rfl

/-- The unsigned product of two words, at twice their width, does not wrap. -/
theorem mul_setWidth (x y : Word) : x.toNat * y.toNat = (x.setWidth 128 * y.setWidth 128).toNat := by
  have hx := x.isLt
  have hy := y.isLt
  have hlt : x.toNat * y.toNat < 2 ^ 64 * 2 ^ 64 := Nat.mul_lt_mul'' hx hy
  rw [BitVec.toNat_mul, BitVec.toNat_setWidth_of_le (by decide), BitVec.toNat_setWidth_of_le (by decide)]
  exact (Nat.mod_eq_of_lt hlt).symm

theorem sext64_eq_zero (x : Word) : sext 64 x.toNat = 0 ↔ x = 0 := by
  rw [sext64, ← BitVec.toInt_inj]
  rfl

theorem toNat_eq_zero (x : Word) : x.toNat = 0 ↔ x = 0 := BitVec.toNat_inj (y := 0)

theorem divSigned_word (x y : Word) :
    BitVec.ofNat 64 (divSigned x.toNat y.toNat) = if y = 0 then BitVec.allOnes 64 else x.sdiv y := by
  unfold divSigned
  by_cases hy : y = 0
  · rw [if_pos ((sext64_eq_zero y).2 hy), if_pos hy]
    rfl
  · rw [if_neg (mt (sext64_eq_zero y).1 hy), if_neg hy, wrap64, sext64, sext64]
    exact BitVec.eq_of_toInt_eq ((BitVec.toInt_ofInt _).trans (BitVec.toInt_sdiv x y).symm)

theorem remSigned_word (x y : Word) : BitVec.ofNat 64 (remSigned x.toNat y.toNat) = if y = 0 then x else x.srem y := by
  unfold remSigned
  by_cases hy : y = 0
  · rw [if_pos ((sext64_eq_zero y).2 hy), if_pos hy, BitVec.ofNat_toNat, BitVec.setWidth_eq]
  · rw [if_neg (mt (sext64_eq_zero y).1 hy), if_neg hy, wrap64, sext64, sext64, ← BitVec.toInt_srem, BitVec.ofInt_toInt]

theorem divUnsigned_word (x y : Word) :
    BitVec.ofNat 64 (divUnsigned x.toNat y.toNat) = if y = 0 then BitVec.allOnes 64 else x / y := by
  unfold divUnsigned
  by_cases hy : y = 0
  · rw [if_pos ((toNat_eq_zero y).2 hy), if_pos hy]
    rfl
  · rw [if_neg (mt (toNat_eq_zero y).1 hy), if_neg hy, ← BitVec.toNat_udiv, BitVec.ofNat_toNat, BitVec.setWidth_eq]

theorem remUnsigned_word (x y : Word) : BitVec.ofNat 64 (remUnsigned x.toNat y.toNat) = if y = 0 then x else x % y := by
  unfold remUnsigned
  by_cases hy : y = 0
  · rw [if_pos ((toNat_eq_zero y).2 hy), if_pos hy, BitVec.ofNat_toNat, BitVec.setWidth_eq]
  · rw [if_neg (mt (toNat_eq_zero y).1 hy), if_neg hy, ← BitVec.toNat_umod, BitVec.ofNat_toNat, BitVec.setWidth_eq]

/-! ### Logic and shifts (R65, R69) -/

theorem andn_word (x y : Word) : BitVec.ofNat 64 (Nat.land x.toNat (2 ^ 64 - 1 - y.toNat)) = x &&& ~~~y := by
  rw [← BitVec.toNat_not, andW]

theorem rotl_word (x : Word) {n : Nat} (hn : n < 64) :
    BitVec.ofNat 64 (Nat.lor (x.toNat * 2 ^ n % 2 ^ 64) (x.toNat / 2 ^ (64 - n))) = x.rotateLeft n := by
  have hrot : (x.rotateLeft n).toNat = Nat.lor (x.toNat * 2 ^ n % 2 ^ 64) (x.toNat / 2 ^ (64 - n)) := by
    rw [BitVec.toNat_rotateLeft, Nat.mod_eq_of_lt hn, Nat.shiftLeft_eq, Nat.shiftRight_eq_div_pow]
    rfl
  rw [← hrot, BitVec.ofNat_toNat, BitVec.setWidth_eq]

theorem fshl_word (x y : Word) (n : Nat) :
    BitVec.ofNat 64 (bitsAt ((x.toNat * 2 ^ 64 + y.toNat) * 2 ^ n) 64 64) = ((x ++ y) <<< n).extractLsb' 64 64 := by
  have hhigh : bitsAt ((x ++ y).toNat * 2 ^ n) 64 64 = bitsAt ((x ++ y) <<< n).toNat 64 64 := by
    rw [BitVec.toNat_shiftLeft, Nat.shiftLeft_eq, bitsAt, bitsAt, Nat.pow_add, Nat.mod_mul_right_div_self, Nat.mod_mod]
  rw [← catW, hhigh, bitsAt_extract, BitVec.ofNat_toNat, BitVec.setWidth_eq]

theorem fshr_word (x y : Word) (n : Nat) :
    BitVec.ofNat 64 ((x.toNat * 2 ^ 64 + y.toNat) / 2 ^ n) = ((x ++ y) >>> n).extractLsb' 0 64 := by
  rw [← catW, ← Nat.shiftRight_eq_div_pow, ← BitVec.toNat_ushiftRight, ← ofNat_div_extract, Nat.pow_zero, Nat.div_one]

/-- A word shifted left by 23 bits with an immediate below. -/
theorem lih_word (x : Word) (k : BitVec 23) : BitVec.ofNat 64 (x.toNat * 2 ^ 23 + k.toNat) = x.extractLsb' 0 41 ++ k := by
  have hk := k.isLt
  apply BitVec.eq_of_toNat_eq
  rw [BitVec.toNat_append, Nat.shiftLeft_eq, Nat.mul_comm (x.extractLsb' 0 41).toNat, ← Nat.two_pow_add_eq_or_of_lt hk,
    BitVec.extractLsb'_toNat, BitVec.toNat_ofNat, Nat.shiftRight_zero]
  omega

/-- The pattern of an immediate, as a word. -/
theorem immPattern_word (k : BitVec 23) : BitVec.ofNat 64 (immPattern k) = k.signExtend 64 := by
  rw [immW, BitVec.ofNat_toNat, BitVec.setWidth_eq]

/-! ### Counts and limits (R67) -/

theorem leadingZeros_word (x : Word) :
    BitVec.ofNat 64 (leadingZeros 64 x.toNat) = if x = 0 then 64 else BitVec.ofNat 64 (63 - x.toNat.log2) := by
  rw [lz 64 x.toNat x.isLt]
  by_cases hx : x = 0
  · rw [if_pos ((toNat_eq_zero x).2 hx), if_pos hx]
    rfl
  · rw [if_neg (mt (toNat_eq_zero x).1 hx), if_neg hx]

theorem trailingZeros_word (x : Word) :
    BitVec.ofNat 64 (trailingZeros 64 x.toNat) = if x = 0 then 64 else BitVec.ofNat 64 (x &&& -x).toNat.log2 := by
  by_cases hx : x = 0
  · rw [if_pos hx, hx]
    rfl
  · rw [if_neg hx, tz x hx]

theorem onesCount_eq (n x : Nat) : onesCount n x = ((List.range n).filter (fun j => x.testBit j)).length := by
  rw [onesCount, bitList, List.filter_map, List.length_map]
  rfl

/-- A choice between two words, made on their values. -/
theorem ofNat_ite_word {p q : Prop} [Decidable p] [Decidable q] (h : p ↔ q) (x y : Word) :
    BitVec.ofNat 64 (if p then x.toNat else y.toNat) = if q then x else y := by
  by_cases hq : q
  · rw [if_pos (h.2 hq), if_pos hq, BitVec.ofNat_toNat, BitVec.setWidth_eq]
  · rw [if_neg (mt h.1 hq), if_neg hq, BitVec.ofNat_toNat, BitVec.setWidth_eq]

theorem sext64_le_iff (x y : Word) : sext 64 x.toNat ≤ sext 64 y.toNat ↔ x.sle y = true := by
  rw [sext64, sext64, BitVec.sle, decide_eq_true_iff]

/-! ### Bitfields (R68) -/

/-- The position and the length of a field. -/
theorem fieldOf_word (y : Word) :
    fieldOf y.toNat = ((y.extractLsb' 0 6).toNat, min (y.extractLsb' 8 7).toNat 64) := by
  rw [fieldOf, bitsAt_extract, bitsAt_extract]

/-- Bits of a word are the low bits of its shift. -/
theorem bitsAt_setWidth (x : Word) (pos len : Nat) : bitsAt x.toNat pos len = ((x >>> pos).setWidth len).toNat := by
  rw [BitVec.toNat_setWidth, BitVec.toNat_ushiftRight, Nat.shiftRight_eq_div_pow, bitsAt]

theorem fieldExtract_word (sx : Bool) (x y : Word) :
    BitVec.ofNat 64 (fieldExtract sx x.toNat y.toNat) =
      let pos := (y.extractLsb' 0 6).toNat
      let len := min (y.extractLsb' 8 7).toNat 64
      let f : BitVec len := (x >>> pos).setWidth len
      if sx ∧ 0 < len ∧ len ≤ 64 - pos then f.signExtend 64 else f.setWidth 64 := by
  rw [fieldExtract, fieldOf_word]
  dsimp only
  generalize (y.extractLsb' 0 6).toNat = pos
  generalize min (y.extractLsb' 8 7).toNat 64 = len
  rw [bitsAt_setWidth]
  by_cases h : sx ∧ 0 < len ∧ len ≤ 64 - pos
  · rw [if_pos h, if_pos h, sextN len h.2.1, wrap64, BitVec.signExtend]
  · rw [if_neg h, if_neg h, BitVec.ofNat_toNat]

/-- The places that an insertion replaces, as a word. -/
theorem fieldMask_word {len : Nat} (h : len ≤ 64) (pos : Nat) :
    (2 ^ len - 1) * 2 ^ pos % 2 ^ 64 = (BitVec.ofNat 64 (2 ^ len - 1) <<< pos).toNat := by
  have hlen : 2 ^ len ≤ 2 ^ 64 := Nat.pow_le_pow_right (by decide) h
  have hpos : 0 < 2 ^ len := Nat.two_pow_pos len
  rw [BitVec.toNat_shiftLeft, BitVec.toNat_ofNat, Nat.shiftLeft_eq, Nat.mod_eq_of_lt (a := 2 ^ len - 1) (by omega)]

theorem fieldInsert_word (x y old : Word) :
    BitVec.ofNat 64 (fieldInsert x.toNat y.toNat old.toNat) =
      let pos := (y.extractLsb' 0 6).toNat
      let len := min (y.extractLsb' 8 7).toNat 64
      let m : Word := BitVec.ofNat 64 (2 ^ len - 1) <<< pos
      (old &&& ~~~m) ||| ((x <<< pos) &&& m) := by
  rw [fieldInsert, fieldOf_word]
  dsimp only
  rw [fieldMask_word (Nat.min_le_right _ _)]
  generalize (y.extractLsb' 0 6).toNat = pos
  generalize BitVec.ofNat 64 _ <<< pos = m
  have hkept : Nat.land old.toNat (2 ^ 64 - 1 - m.toNat) = (old &&& ~~~m).toNat := by
    rw [BitVec.toNat_and, BitVec.toNat_not]
    rfl
  have hnew : Nat.land (x.toNat * 2 ^ pos % 2 ^ 64) m.toNat = ((x <<< pos) &&& m).toNat := by
    rw [BitVec.toNat_and, BitVec.toNat_shiftLeft, Nat.shiftLeft_eq]
    rfl
  rw [hkept, hnew, orW]

end Sys2Proof.Machine
end

section
/-! The operations of S that deliver a function of what their operands read as (O1 to O6): each turns on what its function is as an
operation on words. -/

namespace Sys2Proof.Machine

/-- An operation whose meaning is the issue of a function of two operands completes with that function, as it is on words. -/
theorem computes2_of {mk : Guard → Opnd → Opnd → Opnd → Instr} {f : Nat → Nat → Nat} {F : Word → Word → Word}
    (hmk : ∀ g d a b s, exec (mk g d a b) s = issue (mk g d a b) g (scalar2 (mk g d a b) a b f) s)
    (hf : ∀ x y : Word, BitVec.ofNat 64 (f x.toNat y.toNat) = F x y) : Computes2 mk F := by
  intro g d a b s x y hm ha hb
  rw [hmk, scalar2_next hm ha hb, hf]

/-- An operation whose meaning is the issue of a function of one operand completes with that function, as it is on words. -/
theorem computes1_of {mk : Guard → Opnd → Opnd → Instr} {f : Nat → Nat} {F : Word → Word}
    (hmk : ∀ g d a s, exec (mk g d a) s = issue (mk g d a) g (scalar1 (mk g d a) a f) s)
    (hf : ∀ x : Word, BitVec.ofNat 64 (f x.toNat) = F x) : Computes1 mk F := by
  intro g d a s x hm ha
  rw [hmk, scalar1_next hm ha, hf]

/-- Settles O1: each function of R63, as it is on words. -/
theorem scalarArithmetic : Obligations.ScalarArithmetic := by
  unfold Obligations.ScalarArithmetic
  refine ⟨computes2_of (fun _ _ _ _ _ => rfl) fun x y => ?add, computes2_of (fun _ _ _ _ _ => rfl) ofNat_sub_word,
    fun k => computes2_of (fun _ _ _ _ _ => rfl) fun x y => ?addsl, computes2_of (fun _ _ _ _ _ => rfl) fun x y => ?mul,
    computes2_of (fun _ _ _ _ _ => rfl) fun x y => ?mulh, computes2_of (fun _ _ _ _ _ => rfl) fun x y => ?mulhB⟩
  case add => rw [BitVec.ofNat_add, BitVec.ofNat_toNat, BitVec.ofNat_toNat, BitVec.setWidth_eq, BitVec.setWidth_eq]
  case addsl => rw [BitVec.ofNat_add, BitVec.ofNat_toNat, BitVec.setWidth_eq, shl64]
  case mul => rw [BitVec.ofNat_mul, BitVec.ofNat_toNat, BitVec.ofNat_toNat, BitVec.setWidth_eq, BitVec.setWidth_eq]
  case mulh => rw [wrap_mul_signExtend, ofNat_div_extract]
  case mulhB => rw [mul_setWidth, ofNat_div_extract]

/-- Settles O2: each function of R64, with its corner values, as it is on words. -/
theorem scalarDivision : Obligations.ScalarDivision := by
  unfold Obligations.ScalarDivision
  exact ⟨computes2_of (fun _ _ _ _ _ => rfl) divSigned_word, computes2_of (fun _ _ _ _ _ => rfl) divUnsigned_word,
    computes2_of (fun _ _ _ _ _ => rfl) remSigned_word, computes2_of (fun _ _ _ _ _ => rfl) remUnsigned_word⟩

/-- Settles O3: each function of R65, as it is on words; a shift count lies below 64, so that a rotation is one by less than a word. -/
theorem scalarLogicAndShifts : Obligations.ScalarLogicAndShifts := by
  unfold Obligations.ScalarLogicAndShifts
  exact ⟨computes2_of (fun _ _ _ _ _ => rfl) andW, computes2_of (fun _ _ _ _ _ => rfl) orW,
    computes2_of (fun _ _ _ _ _ => rfl) xorW, computes2_of (fun _ _ _ _ _ => rfl) andn_word,
    computes2_of (fun _ _ _ _ _ => rfl) fun x _ => shl64 x _, computes2_of (fun _ _ _ _ _ => rfl) fun x _ => shr64 x _,
    computes2_of (fun _ _ _ _ _ => rfl) fun x _ => sra64 x _,
    computes2_of (fun _ _ _ _ _ => rfl) fun x _ => rotl_word x (Nat.mod_lt _ (by decide)),
    fun k => computes2_of (fun _ _ _ _ _ => rfl) fun x y => fshl_word x y k.toNat,
    fun k => computes2_of (fun _ _ _ _ _ => rfl) fun x y => fshr_word x y k.toNat⟩

/-- A shift by an immediate past 63 is not well formed (R66). -/
theorem shiftImmediate_illFormed {k : BitVec 23} {g : Guard} {d a : Opnd} {i : Instr} (hk : 63 < k.toNat)
    (hi : i ∈ [.shli g d a k, .shri g d a k, .srai g d a k]) : predOf i = some g ∧ i.wf = false := by
  have hshift : (d.okS && a.okS && decide (k.toNat < 64)) = false := by
    rw [decide_eq_false (Nat.not_lt.2 hk), Bool.and_false]
  simp only [List.mem_cons, List.not_mem_nil, or_false] at hi
  rcases hi with rfl | rfl | rfl <;> exact ⟨rfl, by simpa [Instr.wf] using hshift⟩

/-- Settles O4: each function of R66 and R69 on a word and the pattern of the immediate; a count past 63 is illegal. -/
theorem scalarImmediates : Obligations.ScalarImmediates := by
  unfold Obligations.ScalarImmediates
  refine ⟨fun k => computes1_of (fun _ _ _ _ => rfl) fun x => ?addi, fun k => computes1_of (fun _ _ _ _ => rfl) fun x => ?andi,
    fun k => computes1_of (fun _ _ _ _ => rfl) fun x => ?ori, fun k => computes1_of (fun _ _ _ _ => rfl) fun x => ?xori,
    fun k => computes1_of (fun _ _ _ _ => rfl) fun x => shl64 x _, fun k => computes1_of (fun _ _ _ _ => rfl) fun x => shr64 x _,
    fun k => computes1_of (fun _ _ _ _ => rfl) fun x => sra64 x _, fun k => computes1_of (fun _ _ _ _ => rfl) fun x => lih_word x k,
    fun k g d s hm => ?li, fun k g d a s i hk hi hheld => ?past⟩
  case addi => rw [BitVec.ofNat_add, immPattern_word, BitVec.ofNat_toNat, BitVec.setWidth_eq]
  case andi => rw [immW, andW]
  case ori => rw [immW, orW]
  case xori => rw [immW, xorW]
  case li => exact (issue_next hm (deliverNat_run _ _ _)).trans (by rw [immPattern_word])
  case past =>
    obtain ⟨hpred, hwf⟩ := shiftImmediate_illFormed hk hi
    exact exec_illegal hpred hheld (legal_wf hwf)

/-- Settles O5: each function of R67, as it is on words; `sel` reads its predicate after its operands. -/
theorem scalarCountsAndLimits : Obligations.ScalarCountsAndLimits := by
  unfold Obligations.ScalarCountsAndLimits
  refine ⟨computes1_of (fun _ _ _ _ => rfl) leadingZeros_word, computes1_of (fun _ _ _ _ => rfl) trailingZeros_word,
    computes1_of (fun _ _ _ _ => rfl) fun x => ?popc,
    computes2_of (fun _ _ _ _ _ => rfl) fun x y => ofNat_ite_word (sext64_le_iff x y) x y,
    computes2_of (fun _ _ _ _ _ => rfl) fun x y => ofNat_ite_word (sext64_le_iff y x) x y,
    computes2_of (fun _ _ _ _ _ => rfl) fun x y => ofNat_ite_word BitVec.le_def.symm x y,
    computes2_of (fun _ _ _ _ _ => rfl) fun x y => ofNat_ite_word BitVec.le_def.symm x y,
    fun p inv g d a b s x y u hm ha hb hp => ?sel⟩
  case popc => rw [onesCount_eq]; rfl
  case sel =>
    refine issue_next hm ?_
    rw [Act.bind_ok (State.opnd_ok ha), Act.bind_ok (State.opnd_ok hb), Act.bind_ok (State.predIn_ok hp), deliverNat_run,
      ofNat_ite_word Iff.rfl]

/-- Settles O6: extraction and insertion of R68, as they are on words; `bfi` reads its destination after its operands. -/
theorem scalarBitfields : Obligations.ScalarBitfields := by
  unfold Obligations.ScalarBitfields
  refine ⟨fun sx => computes2_of (fun _ _ _ _ _ => rfl) (fieldExtract_word sx), fun g d a b s x y old hm ha hb hd => ?bfi⟩
  case bfi =>
    refine issue_next hm ?_
    rw [Act.bind_ok (State.opnd_ok ha), Act.bind_ok (State.opnd_ok hb), Act.bind_ok (State.opnd_ok hd), deliverNat_run,
      fieldInsert_word]

end Sys2Proof.Machine
end

section
/-! Compares and predicate operations of S (O7), and control flow: where fetch goes on after a transfer, a loop, a halt or an absent slot
(O8, O9). -/

namespace Sys2Proof.Machine

/-! ### Compares and predicates (R70, R71) -/

/-- A predicate read inverted is the inverse of what it reads as. -/
theorem guardHolds_inverted {p : BitVec 4} {s : State} {u : Bool} (h : s.predIn p false = some u) :
    guardHolds ⟨p, true⟩ s = .ok (!u, s) := by
  have hplain := State.predIn_ok h
  rw [guardHolds_run] at hplain ⊢
  cases hr : readReg ⟨.p, p.toNat⟩ s with
  | error e => rw [hr] at hplain; cases hplain
  | ok r =>
    rw [hr] at hplain
    cases hplain
    simp

/-- A condition of two words, as the number that a compare delivers. -/
theorem ofNat_condition (cc : BitVec 4) (x y : Word) :
    BitVec.ofNat 64 (bit (condition 64 cc.toNat x.toNat y.toNat)) = if holdsCc cc x y then 1 else 0 := by
  rw [condW, bitW]

/-- Settles O7: a compare delivers its condition as a number, a predicate operation its formula over the predicates it reads. -/
theorem comparesAndPredicates : Obligations.ComparesAndPredicates := by
  unfold Obligations.ComparesAndPredicates
  refine ⟨fun g p cc a b s x y hm ha hb => ?cmp, fun g p cc a k s x hm ha => ?cmpi, fun g d a b na nb s u v hm ha hb => ?pand,
    fun g d a b na nb s u v hm ha hb => ?por, fun g d a s u hm ha => ?pnot⟩
  case cmp => exact (scalar2_next hm ha hb).trans (by rw [ofNat_condition])
  case cmpi => exact (scalar1_next hm ha).trans (by rw [immW, ofNat_condition])
  case pand =>
    refine issue_next hm ?_
    rw [Act.bind_ok (State.predIn_ok ha), Act.bind_ok (State.predIn_ok hb), deliverNat_run, bitW]
  case por =>
    refine issue_next hm ?_
    rw [Act.bind_ok (State.predIn_ok ha), Act.bind_ok (State.predIn_ok hb), deliverNat_run, bitW]
  case pnot =>
    refine issue_next hm ?_
    rw [Act.bind_ok (guardHolds_inverted ha), deliverNat_run, bitW]
    cases u <;> rfl

/-! ### Transfers (R73, R74) -/

/-- A transfer with nothing after it. -/
theorem issue_goTo {i : Instr} {g : Guard} {s : State} (target : Int) (leave : Bool) (hm : mayIssue i g s = true) :
    issue i g (goTo target leave) s = .next (s.transfer target leave id) := by
  rw [← bind_pure (goTo target leave)]
  exact goTo_transfer target leave (pure ()) id (fun _ => rfl) hm

/-- A transfer to where an operand points. -/
theorem issue_goTo_opnd {i : Instr} {g : Guard} {a : Opnd} {s : State} {x : Word} (leave : Bool) (hm : mayIssue i g s = true)
    (ha : s.opnd a = some x) :
    issue i g (do
      let n ← readOp a
      goTo n leave) s = .next (s.transfer x.toNat leave id) := by
  exact (issue_congr (Act.bind_ok (State.opnd_ok ha)) hm).trans (issue_goTo _ _ hm)

/-- Settles O8: each operation is one transfer to its target, which `goTo_transfer` says once; `call` then writes its link. -/
theorem branchesGoToTheirTargets : Obligations.BranchesGoToTheirTargets := by
  unfold Obligations.BranchesGoToTheirTargets
  refine ⟨fun g k s hm => ?br, fun g k s hm => ?jmp, fun g a s x hm ha => ?jmpr, fun g d k s hm => ?call,
    fun g a s x hm ha => ?ret⟩
  case br => rw [← imm_int]; exact issue_goTo _ _ hm
  case jmp => rw [← imm_int]; exact issue_goTo _ _ hm
  case jmpr => exact issue_goTo_opnd true hm ha
  case call => rw [← imm_int]; exact goTo_transfer _ _ _ _ (deliverNat_run _ _) hm
  case ret => exact issue_goTo_opnd false hm ha

/-! ### Loops and the end of a task (R75 to R77) -/

/-- Settles O9: a loop by its count and the open levels; a halt and an absent slot by their acts. -/
theorem loopsAndHalt : Obligations.LoopsAndHalt := by
  unfold Obligations.LoopsAndHalt
  refine ⟨fun g a k s x hm ha => ?loop, fun g s hm => issue_next hm (Act.change_run _ _), fun s hm => issue_next hm rfl,
    fun s => rfl⟩
  case loop =>
    dsimp only
    rw [← toNat_mod_extract]
    refine (issue_congr (Act.bind_ok (State.opnd_ok ha)) hm).trans ?_
    dsimp only
    by_cases hzero : x.toNat % 2 ^ 32 = 0
    · rw [if_pos hzero, if_pos hzero]
      exact issue_next hm (Act.change_run _ _)
    · rw [if_neg hzero, if_neg hzero]
      by_cases hlevels : s.me.loops.length < 6
      · rw [if_pos hlevels]
        refine issue_next hm ?_
        rw [Act.bind_ok (Act.view_run _ _), Act.bind_ok (Act.check_ok (decide_eq_true hlevels) _ _ _)]
        rfl
      · rw [if_neg hlevels]
        refine issue_stop hm (e := .trap 0x42 0) ?_
        rw [Act.bind_ok (Act.view_run _ _)]
        exact Act.bind_error (Act.check_stop (decide_eq_false hlevels) _ _ _)

end Sys2Proof.Machine
end

section
/-! System registers: what `rdsr`, `wrsr`, the write of MRS.DATA and `rdts` do (O10). -/

namespace Sys2Proof.Machine

/-! ### What a write leaves in each register (R79, R80, R157, Table 26.4) -/

section
variable (x : Word) (s : State)

theorem sysWrite_status : sysWrite 0x000 x.toNat s = s.setMe { s.me with collide := x.getLsbD 0 } := by
  rw [BitVec.getLsbD, Nat.testBit_zero]
  rfl

theorem sysWrite_conv : sysWrite 0x003 x.toNat s = s.setMe
    { s.me with
      srPrev := some (s.here, 3, BitVec.ofNat 64 (s.me.conv.toNat % 2 ^ 32 + genAt s s.cur.loc s.here .S * 2 ^ 32))
      conv := (if x.extractLsb' 32 32 = 0#32 then 1#32 else x.extractLsb' 32 32) ++ (x.extractLsb' 0 32 &&& 0xF0F#32)
      seedIdx := s.here + 1 } := by
  rw [← convW]
  rfl

theorem sysWrite_replay : sysWrite 0x004 x.toNat s =
    s.setMe { s.me with srPrev := some (s.here, 4, s.me.replay), replay := x &&& 0xFFFFFFFFFFFC0#64 } := by
  rw [← maskW]
  rfl

theorem sysWrite_tvec : sysWrite 0x007 x.toNat s =
    s.setMe { s.me with srPrev := some (s.here, 7, s.me.tvec), tvec := x &&& 0xFFFFFFFFFFFC0#64 } := by
  rw [← maskW]
  rfl

theorem sysWrite_gridTime : sysWrite 0x008 x.toNat s =
    s.setMe { s.me with srPrev := some (s.here, 8, s.me.gridTime), gridTime := x &&& 0xFFFFFFFF#64 } := by
  rw [← lowW]
  rfl

theorem sysWrite_mrsIndex : sysWrite 0x009 x.toNat s = s.setMe { s.me with mrsIndex := (x.extractLsb' 0 11).toNat } := by
  rw [← toNat_mod_extract]
  rfl

theorem sysWrite_skew : sysWrite 0x200 x.toNat s = { s with skew := (x.extractLsb' 0 7).toNat } := by
  rw [← toNat_mod_extract]
  rfl

/-- A write of a register that no write reaches changes nothing. -/
theorem sysWrite_other {n : Nat} (hstatus : n ≠ 0x000) (hconv : n ≠ 0x003) (hreplay : n ≠ 0x004) (htvec : n ≠ 0x007)
    (hgrid : n ≠ 0x008) (hmrs : n ≠ 0x009) (hskew : n ≠ 0x200) : sysWrite n x.toNat s = s := by
  unfold sysWrite
  rw [if_neg hstatus, if_neg hconv, if_neg hreplay, if_neg htvec, if_neg hgrid, if_neg hmrs, if_neg hskew]

end

/-! ### The issue of a write (R115) -/

section
variable {g : Guard} {n : BitVec 23} {a : Opnd} {s : State} {x : Word} (hm : mayIssue (.wrsr g n a) g s = true)
  (ha : s.opnd a = some x)
include hm ha

/-- A write of any register but CONV, or of CONV with RMODE at most 4, completes. -/
theorem wrsr_completes (h : n.toNat = 0x003 → ¬4 < (x.extractLsb' 0 3).toNat) :
    exec (.wrsr g n a) s = .next (advance (sysWrite n.toNat x.toNat s)) := by
  refine issue_next hm ?_
  rw [Act.bind_ok (State.opnd_ok ha), Act.bind_ok (Act.check_ok ?defined _ _ _), Act.change_run]
  case defined =>
    rw [show x.toNat % 8 = _ from toNat_mod_extract x 3]
    by_cases hn : n.toNat = 0x003
    · rw [decide_eq_false (h hn), Bool.and_false, Bool.not_false]
    · rw [beq_false_of_ne hn, Bool.false_and, Bool.not_false]

/-- A write of CONV with RMODE 5 to 7 traps. -/
theorem wrsr_traps (hn : n.toNat = 0x003) (h : 4 < (x.extractLsb' 0 3).toNat) :
    exec (.wrsr g n a) s = .next (trapHere s 0x01 0) := by
  refine issue_stop hm (e := .trap 0x01 0) ?_
  rw [Act.bind_ok (State.opnd_ok ha)]
  refine Act.bind_error (Act.check_stop ?_ _ _ _)
  rw [show x.toNat % 8 = _ from toNat_mod_extract x 3, hn, decide_eq_true h]
  rfl

end

/-- Settles O10: reads deliver what they see; a write of each register of Table 26.4 that a write reaches, and of none of them. -/
theorem systemRegistersReadAndWrite : Obligations.SystemRegistersReadAndWrite := by
  unfold Obligations.SystemRegistersReadAndWrite
  refine ⟨fun g d n s hm => ?rdsr, fun g n a s x hm ha => ?wrsr, fun g a s x hm ha => ?mrsData, fun g d s hm => ?rdts⟩
  case rdsr =>
    refine issue_next hm ?_
    rw [Act.bind_ok (Act.view_run _ _), deliverNat_run]
  case wrsr =>
    have hplain (hn : n.toNat ≠ 0x003) := wrsr_completes hm ha fun h => absurd h hn
    dsimp only
    split
    case h_1 hn => rw [hplain (by omega), hn, sysWrite_status]
    case h_2 hn =>
      by_cases hmode : 4 < (x.extractLsb' 0 3).toNat
      · rw [if_pos hmode, wrsr_traps hm ha hn hmode]
      · rw [if_neg hmode, wrsr_completes hm ha fun _ => hmode, hn, sysWrite_conv]
    case h_3 hn => rw [hplain (by omega), hn, sysWrite_replay]
    case h_4 hn => rw [hplain (by omega), hn, sysWrite_tvec]
    case h_5 hn => rw [hplain (by omega), hn, sysWrite_gridTime]
    case h_6 hn => rw [hplain (by omega), hn, sysWrite_mrsIndex]
    case h_7 hn => rw [hplain (by omega), hn, sysWrite_skew]
    case h_8 hstatus hconv hreplay htvec hgrid hmrs hskew =>
      rw [hplain hconv, sysWrite_other x s hstatus hconv hreplay htvec hgrid hmrs hskew]
  case mrsData =>
    refine issue_next hm ?_
    rw [Act.bind_ok (State.opnd_ok ha), Act.change_run, BitVec.ofNat_toNat, BitVec.setWidth_eq]
  case rdts =>
    refine issue_next hm ?_
    rw [Act.bind_ok (Act.view_run _ _), Act.bind_ok (Act.change_run _ _), deliverNat_run]

end Sys2Proof.Machine
end

section
/-! Moves between register files (O11). -/

namespace Sys2Proof.Machine

/-- A word as a destination takes it: in every lane, or with zeros above. -/
theorem spread_word (bcast : Bool) (x : Word) :
    spread bcast x.toNat = if bcast then x ++ x ++ x ++ x ++ x ++ x ++ x ++ x else x.setWidth 512 := by
  cases bcast with
  | true => exact spreadW x
  | false => exact (congrArg _ (Nat.mod_eq_of_lt x.isLt)).trans (BitVec.ofNat_toNat 512 x)

theorem ofNat_div_ushiftRight {w : Nat} (v : BitVec w) (n : Nat) : BitVec.ofNat w (v.toNat / 2 ^ n) = v >>> n := by
  rw [← Nat.shiftRight_eq_div_pow, ← BitVec.toNat_ushiftRight, BitVec.ofNat_toNat, BitVec.setWidth_eq]

/-- A source that is no ring with block scales may feed `vxmov`. -/
theorem unscaled_ok {a : Opnd} {s : State} (h : ∀ q r, opndRing a = some q → s.me.rings.find q = some r → r.blk = 0) :
    unscaled a s = .ok ((), s) := by
  unfold unscaled
  rw [Act.bind_ok (Act.view_run _ _)]
  cases ha : opndRing a with
  | none => rfl
  | some q =>
    refine Act.check_ok ?_ _ _ _
    cases hr : s.me.rings.find q with
    | none => rfl
    | some r => exact beq_iff_eq.2 (h q r ha hr)

/-- Settles O11: `xmov` spreads the lane that it reads, `vxmov` shifts its source down to the lane and delivers it, as its destination is no
ring. -/
theorem crossFileMoves : Obligations.CrossFileMoves := by
  unfold Obligations.CrossFileMoves
  refine ⟨fun g dst a n bc s r v hm ha hr => ?xmov, fun g dst a n s v t hm hscale hdst hread => ?vxmov⟩
  case xmov =>
    refine issue_next hm ?_
    rw [ha]
    refine (Act.bind_ok (State.regIn_ok hr)).trans ?_
    rw [deliver_run, bitsAt_extract, spread_word]
  case vxmov =>
    refine issue_next hm ?_
    rw [Act.bind_ok (unscaled_ok hscale), Act.bind_ok (Act.ends_eq.1 hread), Act.bind_ok (Act.view_run _ _), ← ofNat_div_ushiftRight]
    split
    next q => exact absurd rfl (hdst q)
    next => exact deliver_run _ _ _

end Sys2Proof.Machine
end

section
/-! Loads and stores of L and W (O27, O28): in each window what the access does, and the traps of an address that no window takes. -/

namespace Sys2Proof.Machine

theorem accessWindow_stop {a n : Nat} (h : windowOf a n = none) (s : State) : accessWindow a n s = .error (.trap 0x11 a) := by
  unfold accessWindow
  rw [h]
  rfl

/-- The check of an address that an access of a width asks to be aligned, or does not. -/
theorem aligned_ok {al : Bool} {va n : Nat} (h : al = true → va % n = 0) : (!al || decide (va % n = 0)) = true := by
  cases al with
  | false => rfl
  | true => exact decide_eq_true (h rfl)

theorem aligned_stop {al : Bool} {va n : Nat} (hal : al = true) (h : va % n ≠ 0) : (!al || decide (va % n = 0)) = false := by
  subst hal
  exact decide_eq_false h

/-! ### Loads -/

section
variable {i : Instr} {a b : Opnd} {n : Nat} {al : Bool} {cls : BitVec 4} {t : Fmt} {s : State} {x y : Word}

theorem actLoad_misaligned (hx : s.opnd a = some x) (hy : s.opnd b = some y) (hal : al = true) (hmis : (x + y).toNat % n ≠ 0) :
    actLoad i a b n al cls t s = .error (.trap 0x11 (x + y).toNat) := by
  unfold actLoad
  rw [Act.bind_ok (accessAddr_ok hx hy)]
  exact Act.bind_error (Act.check_stop (aligned_stop hal hmis) _ _ _)

theorem actLoad_nowhere (hx : s.opnd a = some x) (hy : s.opnd b = some y) (hal : al = true → (x + y).toNat % n = 0)
    (hw : windowOf (x + y).toNat n = none) : actLoad i a b n al cls t s = .error (.trap 0x11 (x + y).toNat) := by
  unfold actLoad
  rw [Act.bind_ok (accessAddr_ok hx hy), Act.bind_ok (Act.check_ok (aligned_ok hal) _ _ _)]
  exact Act.bind_error (accessWindow_stop hw s)

theorem actLoad_near {w : Nat} (hx : s.opnd a = some x) (hy : s.opnd b = some y) (hal : al = true → (x + y).toNat % n = 0)
    (hw : windowOf (x + y).toNat n = some w) (h13 : w ≠ 13) (hread : s.canRead (x + y).toNat n = true) :
    actLoad i a b n al cls t s = .ok ((), s.into (destsOf s.cur.slot i).head? (latency s.me w)
      (BitVec.ofNat 512 (loadValue t.code n (nearNat s s.cur.loc (x + y).toNat n)))) := by
  unfold actLoad
  rw [Act.bind_ok (accessAddr_ok hx hy), Act.bind_ok (Act.check_ok (aligned_ok hal) _ _ _), Act.bind_ok (accessWindow_ok hw),
    Act.bind_ok (Act.view_run _ s)]
  dsimp only [id]
  rw [if_neg h13, Act.bind_ok (readNear_ok hread)]
  cases (destsOf s.cur.slot i).head? <;> rfl

theorem actLoad_far {hs : List (Nat × Nat × Nat × Nat)} {k : Nat} (hx : s.opnd a = some x) (hy : s.opnd b = some y)
    (hal : al = true → (x + y).toNat % n = 0) (hw : windowOf (x + y).toNat n = some 13)
    (hh : s.homes false (lineAccesses (x + y).toNat n) = some hs) (hk : s.freeEntry = some k) :
    actLoad i a b n al cls t s = .ok ((), (s.opened k
      (s.readEntry 1 cls (x + y).toNat n t (destsOf s.cur.slot i).head? (latency s.me 13))
      (hs.map (fun h => (h.1, h.2.1, h.2.2.1, .read h.2.2.2)))).awaiting (destsOf s.cur.slot i).head? (latency s.me 13) k false) := by
  unfold actLoad
  rw [Act.bind_ok (accessAddr_ok hx hy), Act.bind_ok (Act.check_ok (aligned_ok hal) _ _ _), Act.bind_ok (accessWindow_ok hw),
    Act.bind_ok (Act.view_run _ s)]
  dsimp only [id]
  rw [if_pos rfl, Act.bind_ok (homes_ok hh), Act.bind_ok (openAccess_ok _ _ hk)]
  unfold State.readEntry
  cases (destsOf s.cur.slot i).head? <;> rfl

end

/-- A load whose meaning is the issue of `actLoad` does what `Loads` says. -/
theorem loads_of_exec {i : Instr} {g : Guard} {a b : Opnd} {n : Nat} {al : Bool} {cls : BitVec 4} {t : Fmt}
    (hexec : ∀ s, exec i s = issue i g (actLoad i a b n al cls t) s) : Loads i g a b n al cls t := by
  intro s x y hm hx hy
  rw [hexec]
  refine ⟨fun hal hmis => ?misaligned, fun hal => ⟨fun hw => ?nowhere, fun w hw h13 hread => ?near, fun hs k hw hh hk => ?far⟩⟩
  case misaligned => exact issue_stop hm (actLoad_misaligned hx hy hal hmis)
  case nowhere => exact issue_stop hm (actLoad_nowhere hx hy hal hw)
  case near => exact issue_next hm (actLoad_near hx hy hal hw h13 hread)
  case far => exact issue_next hm (actLoad_far hx hy hal hw hh hk)

/-- Settles O27: each load is an issue of the one load act, and `pf` reads its address and does nothing with it. -/
theorem loadsComplete : Obligations.LoadsComplete := by
  unfold Obligations.LoadsComplete
  refine ⟨fun _ _ _ _ _ _ => loads_of_exec fun _ => rfl, fun _ _ _ _ _ => loads_of_exec fun _ => rfl,
    fun _ _ _ _ _ => loads_of_exec fun _ => rfl, fun g a b s x y hm hx hy => ?pf⟩
  case pf => exact issue_next hm ((Act.bind_ok (accessAddr_ok hx hy)).trans rfl)

/-! ### Stores -/

/-- A store whose meaning, from a state, is the issue of an act that comes down to `actStore` does what `Stores` says. -/
theorem stores_of_act {i : Instr} {g : Guard} {act : Act Unit} {s s1 : State} {va n mask x w : Nat} {cls : BitVec 4} {data : Act Nat}
    (hexec : exec i s = issue i g act s) (hm : mayIssue i g s = true) (hact : act s = actStore va n mask w cls data s)
    (hdata : data s = .ok (x, s1)) : Stores i s s1 va n mask x cls w := by
  unfold Stores
  rw [hexec]
  refine ⟨fun h13 hc hc1 => ?near, fun hs k h13 hh hf hk => ?far⟩
  case near => exact issue_next hm (hact.trans (actStore_near h13 hc hc1 hdata))
  case far =>
    subst h13
    exact issue_next hm (hact.trans (actStore_far hh hf hk hdata))

/-- The act of `st` and of `vst`: a store of n bytes at an aligned address (R85, R86). -/
def alignedStore (a b : Opnd) (n mask : Nat) (cls : BitVec 4) (data : Act Nat) : Act Unit := do
  let va ← accessAddr a b
  Act.check (decide (va % n = 0)) 0x11 va
  let w ← accessWindow va n
  actStore va n mask w cls data

theorem execSt_eq (g : Guard) (src a b : Opnd) (cls : BitVec 4) (t : Fmt) (s : State) :
    exec (.st g src a b cls t) s =
      issue (.st g src a b cls t) g (alignedStore a b (t.width / 8) (2 ^ (t.width / 8) - 1) cls (readOp src)) s := rfl

theorem execVst_eq (g : Guard) (src a b : Opnd) (cls : BitVec 4) (s : State) :
    exec (.vst g src a b cls) s =
      issue (.vst g src a b cls) g (alignedStore a b 64 allBytes cls (do return (← readRaw src).toNat)) s := rfl

section
variable {a b : Opnd} {n mask : Nat} {cls : BitVec 4} {data : Act Nat} {s : State} {x y : Word}

theorem alignedStore_misaligned (hx : s.opnd a = some x) (hy : s.opnd b = some y) (hmis : (x + y).toNat % n ≠ 0) :
    alignedStore a b n mask cls data s = .error (.trap 0x11 (x + y).toNat) := by
  unfold alignedStore
  rw [Act.bind_ok (accessAddr_ok hx hy)]
  exact Act.bind_error (Act.check_stop (decide_eq_false hmis) _ _ _)

theorem alignedStore_nowhere (hx : s.opnd a = some x) (hy : s.opnd b = some y) (hal : (x + y).toNat % n = 0)
    (hw : windowOf (x + y).toNat n = none) : alignedStore a b n mask cls data s = .error (.trap 0x11 (x + y).toNat) := by
  unfold alignedStore
  rw [Act.bind_ok (accessAddr_ok hx hy), Act.bind_ok (Act.check_ok (decide_eq_true hal) _ _ _)]
  exact Act.bind_error (accessWindow_stop hw s)

theorem alignedStore_window {w : Nat} (hx : s.opnd a = some x) (hy : s.opnd b = some y) (hal : (x + y).toNat % n = 0)
    (hw : windowOf (x + y).toNat n = some w) : alignedStore a b n mask cls data s = actStore (x + y).toNat n mask w cls data s := by
  unfold alignedStore
  rw [Act.bind_ok (accessAddr_ok hx hy), Act.bind_ok (Act.check_ok (decide_eq_true hal) _ _ _)]
  exact Act.bind_ok (accessWindow_ok hw)

end

/-- A store at an aligned address traps where the address is not aligned or its bytes lie in no single window, and else is a store there. -/
theorem alignedStore_completes {i : Instr} {g : Guard} {a b : Opnd} {n mask v : Nat} {cls : BitVec 4} {data : Act Nat} {s s1 : State}
    {x y : Word} (hexec : exec i s = issue i g (alignedStore a b n mask cls data) s) (hm : mayIssue i g s = true)
    (hx : s.opnd a = some x) (hy : s.opnd b = some y) (hdata : data s = .ok (v, s1)) :
    let va := (x + y).toNat
    (va % n ≠ 0 → exec i s = .next (trapHere s 0x11 va)) ∧
    (va % n = 0 → windowOf va n = none → exec i s = .next (trapHere s 0x11 va)) ∧
    (∀ w, va % n = 0 → windowOf va n = some w → Stores i s s1 va n mask v cls w) :=
  ⟨fun hmis => hexec.trans (issue_stop hm (alignedStore_misaligned hx hy hmis)),
    fun hal hw => hexec.trans (issue_stop hm (alignedStore_nowhere hx hy hal hw)),
    fun _ hal hw => stores_of_act hexec hm (alignedStore_window hx hy hal hw) hdata⟩

/-- Settles O28: past its address each store is the one store act, whose data `st` reads as a word and the others as raw bits. -/
theorem storesComplete : Obligations.StoresComplete := by
  unfold Obligations.StoresComplete
  refine ⟨fun g src a b cls t s x y z hm hx hy hz => alignedStore_completes (execSt_eq ..) hm hx hy (State.opnd_ok hz),
    fun g src a b cls s x y z s1 hm hx hy hz => alignedStore_completes (execVst_eq ..) hm hx hy (raw_ok hz),
    fun g src a k v1 cls s x m z s1 hm hx hmask hz => ?vstm⟩
  case vstm =>
    have haddr := State.opnd_ok hx
    have hmask := readNat_ok hmask
    refine ⟨fun h0 => ?none, fun h0 hw => ?nowhere, fun w h0 hw => ?window⟩
    case none =>
      refine issue_next hm ((Act.bind_ok haddr).trans ?_)
      rw [Act.bind_ok hmask, if_pos h0]
      exact Act.bind_ok (Act.ends_eq.1 hz)
    case nowhere =>
      refine issue_stop (e := .trap 0x11 x.toNat) hm ((Act.bind_ok haddr).trans ?_)
      rw [Act.bind_ok hmask, if_neg h0, hw]
      rfl
    case window =>
      refine stores_of_act rfl hm ((Act.bind_ok haddr).trans ?_) (raw_ok hz)
      rw [Act.bind_ok hmask, if_neg h0, hw]

end Sys2Proof.Machine
end

section
/-! What an instruction leaves of memory (O59): all of it where it stores nothing, and every byte outside its near-window span where it is a
store, an atomic or `asnap`. -/

namespace Sys2Proof.Machine

/-! ### Bytes that a near-window write leaves -/

/-- A byte lies outside a span of near-window bytes under its mask, as the issuer sees their addresses. -/
def State.Outside (s : State) (p : Nat) (span : Option (Nat × Nat × Nat)) : Prop :=
  ∀ va n m, span = some (va, n, m) → ∀ j, j < n → m.testBit j = true → p ≠ nearPhys s s.cur.loc (va + j)

/-- Where memory reads, at one address, what it read in a given state. -/
def SameByte (s : State) (p : Nat) : State → Prop := fun t => t.mem.look p = s.mem.look p

theorem SameByte.quiet (s : State) (p : Nat) : Quiet (SameByte s p) := Quiet.byte p _

theorem look_nearStore_ne {s : State} (h : s.mem.wf = true) {loc a p : Nat} (bs : List Byte) (k : Nat)
    (hp : ∀ j < bs.length, k.testBit j = true → p ≠ nearPhys s loc (a + j)) :
    (nearStore s loc a bs k).mem.look p = s.mem.look p := by
  induction bs generalizing a k with
  | nil => rfl
  | cons b bs ih =>
    have htail : (nearStore s loc (a + 1) bs (k / 2)).mem.look p = s.mem.look p := by
      refine ih (k / 2) fun j hj hk => ?_
      have hne := hp (j + 1) (by simpa using hj) (by rwa [Nat.testBit_succ])
      rwa [show a + 1 + j = a + (j + 1) by omega]
    unfold nearStore
    dsimp only
    by_cases hk : k % 2 = 1
    · rw [if_pos hk]
      have hne : p ≠ nearPhys s loc a := hp 0 (by simp) (by simp [Nat.testBit_zero, hk])
      exact (Memory.look_store_ne (nearStore_wf s loc _ bs _ h) hne b).trans htail
    · rw [if_neg hk]
      exact htail

theorem look_nearWrite_ne {s : State} (h : s.Inv) {loc a p : Nat} (bs : List Byte) (k : Nat)
    (hp : ∀ j < bs.length, k.testBit j = true → p ≠ nearPhys s loc (a + j)) :
    (nearWrite s loc a bs k).mem.look p = s.mem.look p := by
  unfold nearWrite
  rw [clearMarks_mem]
  exact look_nearStore_ne h bs k hp

/-- A write to a near window leaves the bytes outside its span under its mask. -/
theorem writeNear_frame {s : State} (h : s.Inv) {a p : Nat} {bs : List Byte} {k : Nat}
    (hp : ∀ j < bs.length, k.testBit j = true → p ≠ nearPhys s s.cur.loc (a + j)) :
    EndsIn (SameByte s p) (writeNear a bs k s) := by
  unfold writeNear
  rw [Act.bind_ok (Act.view_run _ s)]
  unfold Act.check
  cases hb : banksOk (id s) (id s).cur.loc (((List.range bs.length).filter (fun j => k.testBit j)).map (a + ·)) with
  | true => exact look_nearWrite_ne h bs k hp
  | false => exact trivial

/-! ### Following an act step by step -/

/-- A property at the end of two acts in a row, where the first keeps it: what is left to show is the second, from any state in which the first
completes. -/
theorem EndsIn.bind {α β : Type} {P : State → Prop} {m : Act α} {f : α → Act β} {s : State} (hm : m.Keeps P) (hs : P s)
    (hf : ∀ x t, m s = .ok (x, t) → P t → EndsIn P (f x t)) : EndsIn P ((m >>= f) s) := by
  have h := hm s hs
  cases hr : m s with
  | error e =>
    rw [Act.bind_error hr]
    rw [hr] at h
    cases e <;> exact h
  | ok r =>
    rw [Act.bind_ok hr]
    rw [hr] at h
    exact hf r.1 r.2 hr h

/-- The same where the first act leaves the state as it is. -/
theorem EndsIn.bind_pure {α β : Type} {P : State → Prop} {m : Act α} {f : α → Act β} {s : State} (hp : m.Pure) (hm : m.Keeps P) (hs : P s)
    (hf : ∀ x, m s = .ok (x, s) → EndsIn P (f x s)) : EndsIn P ((m >>= f) s) :=
  .bind hm hs fun x t hr _ => by
    have ht := hp s x t hr
    subst ht
    exact hf x hr

/-- The same where the second act keeps the property: what is left to show is the first. -/
theorem EndsIn.bind_keeps {α β : Type} {P : State → Prop} {m : Act α} {f : α → Act β} {s : State} (hm : EndsIn P (m s))
    (hf : ∀ x, (f x).Keeps P) : EndsIn P ((m >>= f) s) := by
  cases hr : m s with
  | error e =>
    rw [Act.bind_error hr]
    rw [hr] at hm
    cases e <;> exact hm
  | ok r =>
    rw [Act.bind_ok hr]
    rw [hr] at hm
    exact hf r.1 r.2 hm

/-- Two acts in a row complete only where each does. -/
theorem Act.bind_inv {α β : Type} {m : Act α} {f : α → Act β} {s : State} {r : β × State} (h : (m >>= f) s = .ok r) :
    ∃ x t, m s = .ok (x, t) ∧ f x t = .ok r := by
  cases hm : m s with
  | error e => rw [Act.bind_error hm] at h; cases h
  | ok p => rw [Act.bind_ok hm] at h; exact ⟨p.1, p.2, rfl, h⟩

/-- An operation that issues ends as its act ends from the state in which it issues. -/
theorem issue_ends {i : Instr} {g : Guard} {act : Act Unit} {s : State} {P : State → Prop} (hP : Quiet P) (hs : P s)
    (ha : EndsIn P (act s)) : OutKeeps P (issue i g act s) := by
  have hconst : ∀ t, guardHolds g s = .ok (true, t) → act t = (fun _ => act s : Act Unit) t := fun t ht => by rw [guardHolds_pure ht]
  have heq : issue i g act s = issue i g (fun _ => act s) s := by
    unfold issue issueWith issueFull
    cases hg : guardHolds g s with
    | error e => rfl
    | ok r =>
      obtain ⟨b, t⟩ := r
      cases b with
      | false => rfl
      | true => simp only [hconst t hg]
  rw [heq]
  exact issue_keeps i g hP (fun _ _ => ha) hs

/-! ### What operands read as, where their reads complete -/

theorem opnd_of_readOp {o : Opnd} {s : State} {x : Nat} (h : readOp o s = .ok (x, s)) : ∃ w : Word, s.opnd o = some w ∧ w.toNat = x := by
  have hx : x < 2 ^ 64 := (readOp_pure h).2
  refine ⟨BitVec.ofNat 64 x, ?_, BitVec.toNat_ofNat x 64 |>.trans (Nat.mod_eq_of_lt hx)⟩
  unfold State.opnd
  rw [Act.ends_eq.2 h]
  rfl

theorem regIn_of_readNat {f : File} {i x : Nat} {s : State} (h : readNat f i s = .ok (x, s)) :
    ∃ v : Vec, s.regIn ⟨f, i⟩ = some v ∧ v.toNat = x := by
  unfold readNat at h
  obtain ⟨v, t, hr, h⟩ := Act.bind_inv h
  cases h
  refine ⟨v, ?_, rfl⟩
  unfold State.regIn
  rw [Act.ends_eq.2 hr]
  rfl

theorem accessAddr_pure (a b : Opnd) : (accessAddr a b).Pure :=
  .bind (.readOp a) fun _ => .bind (.readOp b) fun _ => .ret _

theorem accessWindow_pure (a n : Nat) : (accessWindow a n).Pure := by
  unfold accessWindow
  cases windowOf a n with
  | none => exact .trap _ _
  | some w => exact .ret w

theorem windowOf_of_accessWindow {a n w : Nat} {s : State} (h : accessWindow a n s = .ok (w, s)) : windowOf a n = some w := by
  unfold accessWindow at h
  cases hw : windowOf a n with
  | none => rw [hw] at h; cases h
  | some v => rw [hw] at h; cases h; rfl

theorem opnds_of_accessAddr {a b : Opnd} {s : State} {va : Nat} (h : accessAddr a b s = .ok (va, s)) :
    ∃ x y : Word, s.opnd a = some x ∧ s.opnd b = some y ∧ (x + y).toNat = va := by
  unfold accessAddr at h
  obtain ⟨x, t, ha, h⟩ := Act.bind_inv h
  have ht := (readOp_pure ha).1
  subst ht
  obtain ⟨y, u, hb, h⟩ := Act.bind_inv h
  have hu := (readOp_pure hb).1
  subst hu
  cases h
  obtain ⟨v, hv, hvx⟩ := opnd_of_readOp ha
  obtain ⟨w, hw, hwy⟩ := opnd_of_readOp hb
  exact ⟨v, w, hv, hw, by rw [BitVec.toNat_add, hvx, hwy]⟩

/-! ### Stores -/

/-- Memory, module and issuer as in a given state: what decides where near-window addresses lie and what they hold. -/
def SamePlace (s t : State) : Prop := t.mem = s.mem ∧ t.module = s.module ∧ t.cur = s.cur

theorem nearPhys_same {s t : State} (h : SamePlace s t) (a : Nat) : nearPhys t t.cur.loc a = nearPhys s s.cur.loc a := by
  obtain ⟨-, hmod, hcur⟩ := h
  unfold nearPhys localPhys bankPhys physOf
  rw [hmod, hcur]

theorem Act.Pure.ite {α : Type} {c : Prop} [Decidable c] {m n : Act α} (hm : m.Pure) (hn : n.Pure) : (if c then m else n).Pure := by
  split <;> assumption

theorem Act.Pure.ring (n : Nat) (out : Bool) : (Act.ring n out).Pure := by
  intro s r t h
  unfold Act.ring at h
  split at h
  · cases h
  · split at h
    · cases h
    · split at h
      · cases h
      · cases h; rfl

theorem Act.Pure.ringAwait (n : Nat) (r : Ring) (start len : Nat) : (Machine.ringAwait n r start len).Pure := by
  unfold Machine.ringAwait
  refine .bind (.check _ _ _) fun _ => .ite ?filled (.ite (.trap _ _) ?stalls)
  case filled =>
    cases r.errFrom start len with
    | some a => exact .trap _ _
    | none => exact .ret _
  case stalls =>
    intro s x t h
    cases h

/-- A raw read of a ring that completes has moved its read pointer and nothing else. -/
theorem ringRaw_place {n : Nat} {peek : Bool} {s t : State} {v : Vec} (h : ringRaw n peek s = .ok (v, t)) : SamePlace s t := by
  unfold ringRaw at h
  obtain ⟨r, u, hr, hrest⟩ := Act.bind_inv h
  rw [Act.Pure.ring _ _ _ _ _ hr] at hrest
  obtain ⟨_, w, ha, hend⟩ := Act.bind_inv hrest
  rw [Act.Pure.ringAwait _ _ _ _ _ _ _ ha] at hend
  cases peek <;> cases hend <;> exact ⟨rfl, rfl, rfl⟩

/-- A pop of a drain queue that completes has marked an entry popped and changed nothing else. -/
theorem dqPop_place {n : Nat} {s t : State} {v : Vec} (h : dqPop n s = .ok (v, t)) : SamePlace s t := by
  unfold dqPop at h
  dsimp only at h
  split at h
  · split at h <;> cases h
  · split at h
    · cases h; exact ⟨rfl, rfl, rfl⟩
    · cases h

theorem readRaw_place {o : Opnd} {s t : State} {v : Vec} (h : readRaw o s = .ok (v, t)) : SamePlace s t := by
  unfold readRaw at h
  rw [Act.bind_ok (Act.view_run _ s)] at h
  cases o with
  | own i => rw [readReg_pure h]; exact ⟨rfl, rfl, rfl⟩
  | com c => rw [readReg_pure h]; exact ⟨rfl, rfl, rfl⟩
  | pop q => exact ringRaw_place h
  | peek q => exact ringRaw_place h
  | dq n => exact dqPop_place h

/-- What the data operand of a store does: it keeps what memory alone decides, and where it completes nothing of near addresses has moved. -/
structure StoreData (data : Act Nat) : Prop where
  keeps : ∀ {P : State → Prop}, Quiet P → data.Keeps P
  place : ∀ {s t : State} {x : Nat}, data s = .ok (x, t) → SamePlace s t

theorem storeData_readOp (o : Opnd) : StoreData (readOp o) where
  keeps _ := readOp_keeps o
  place h := by rw [(readOp_pure h).1]; exact ⟨rfl, rfl, rfl⟩

theorem storeData_readRaw (o : Opnd) : StoreData (do return (← readRaw o).toNat) where
  keeps hP := .bind (readRaw_keeps o hP) fun _ => .ret _
  place h := by
    obtain ⟨v, t, hr, h⟩ := Act.bind_inv h
    cases h
    exact readRaw_place hr

/-- A store to device memory keeps what memory alone decides: its requests go to their homes. -/
theorem actStore_far_keeps {data : Act Nat} (hd : StoreData data) (va n mask : Nat) (cls : BitVec 4) {P : State → Prop} (hP : Quiet P) :
    (actStore va n mask 13 cls data).Keeps P := by
  unfold actStore
  refine .bind (.view _) fun s => ?_
  rw [if_pos rfl]
  exact .bind (homesOf_keeps _ _ hP) fun _ => .bind (.await _) fun _ => .bind (hd.keeps hP) fun _ =>
    .bind (openAccess_keeps _ _ hP) fun _ => .ret _

/-- A store leaves the bytes outside those that its mask names in a near window. -/
theorem actStore_frame {s : State} (h : s.Inv) {data : Act Nat} (hd : StoreData data) {va n mask w p : Nat} {cls : BitVec 4}
    (hp : w ≠ 13 → ∀ j < n, mask.testBit j = true → p ≠ nearPhys s s.cur.loc (va + j)) :
    EndsIn (SameByte s p) (actStore va n mask w cls data s) := by
  have hQ := SameByte.quiet s p
  by_cases h13 : w = 13
  · subst h13
    exact actStore_far_keeps hd va n mask cls hQ s rfl
  · unfold actStore
    rw [Act.bind_ok (Act.view_run _ s), if_neg h13]
    refine .bind_pure (.check _ _ _) (.check _ _ _) rfl fun _ _ => .bind (hd.keeps hQ) rfl fun x t hx _ => ?_
    have hpl := hd.place hx
    have hmem : t.mem = s.mem := hpl.1
    have ht : t.Inv := by unfold State.Inv; rw [hmem]; exact h
    have hbyte : SameByte t p = SameByte s p := by unfold SameByte; rw [hmem]
    rw [← hbyte]
    refine writeNear_frame ht fun j hj hk => ?_
    rw [nearPhys_same hpl]
    exact hp h13 j (by rwa [toBytes_length] at hj) hk

/-- The bits of the full byte mask. -/
theorem allBytes_testBit {j : Nat} (h : j < 64) : allBytes.testBit j = true := by
  unfold allBytes
  rw [Nat.testBit_two_pow_sub_one]
  exact decide_eq_true h

theorem widthBytes_le (t : Fmt) : t.width / 8 ≤ 8 := by cases t <;> decide

/-- `st` and `vst` leave the bytes outside those at their address, and all of them where it lies in device memory. -/
theorem alignedStore_frame {s : State} (h : s.Inv) {i : Instr} {g : Guard} {a b : Opnd} {n mask p : Nat} {cls : BitVec 4} {data : Act Nat}
    (hd : StoreData data) (hn : n ≤ 64)
    (hspan : s.span i = (s.opnd a).bind fun x => (s.opnd b).bind fun y =>
      if windowOf (x + y).toNat n = some 13 then none else some ((x + y).toNat, n, allBytes))
    (hp : s.Outside p (s.span i)) : OutKeeps (SameByte s p) (issue i g (alignedStore a b n mask cls data) s) := by
  have hQ := SameByte.quiet s p
  unfold alignedStore
  refine issue_ends hQ rfl (.bind_pure (accessAddr_pure a b) (accessAddr_keeps a b hQ) rfl fun va hva => ?_)
  refine .bind_pure (.check _ _ _) (.check _ _ _) rfl fun _ _ => ?_
  refine .bind_pure (accessWindow_pure _ _) (accessWindow_keeps _ _ hQ) rfl fun w hw => ?_
  refine actStore_frame h hd fun h13 j hj _ => ?_
  obtain ⟨x, y, hx, hy, rfl⟩ := opnds_of_accessAddr hva
  refine hp (x + y).toNat n allBytes ?_ j hj (allBytes_testBit (by omega))
  simp only [hspan, hx, hy, Option.bind_some, windowOf_of_accessWindow hw, Option.some.injEq, if_neg h13]

theorem execVstm_frame (g : Guard) (src a : Opnd) (k : BitVec 4) (v1 : Bool) (cls : BitVec 4) {s : State} {p : Nat} (h : s.Inv)
    (hp : s.Outside p (s.span (.vstm g src a k v1 cls))) : OutKeeps (SameByte s p) (execVstm g src a k v1 cls s) := by
  have hQ := SameByte.quiet s p
  unfold execVstm
  refine issue_ends hQ rfl (.bind_pure (.readOp a) (readOp_keeps a) rfl fun va hva => ?_)
  refine .bind_pure (.readNat _ _) (readNat_keeps _ _) rfl fun mask hm => ?_
  split
  next => exact Act.Keeps.bind (readRaw_keeps src hQ) (fun _ => .ret _) s rfl
  next =>
    cases maskedWindow va mask with
    | none => exact trivial
    | some w =>
      refine actStore_frame h (storeData_readRaw src) fun _ j hj hk => ?_
      obtain ⟨x, hx, rfl⟩ := opnd_of_readOp hva
      obtain ⟨m, hreg, rfl⟩ := regIn_of_readNat hm
      refine hp x.toNat 64 m.toNat ?_ j hj hk
      simp only [State.span, hx, hreg, Option.bind_some]

/-! ### Atomics and `asnap` -/

theorem readNear_pure (a n : Nat) : (readNear a n).Pure := by
  unfold readNear
  exact .bind (.view _) fun _ => .bind (.check _ _ _) fun _ => readLocal_pure _ _

/-- An atomic of the W slot leaves the bytes outside its element, and all of them where the element lies in device memory. -/
theorem actAtomic_frame {s : State} (h : s.Inv) {a b : Opnd} {op p : Nat} {wd : BitVec 5} {nr : Bool} {ord : BitVec 2} {cls : BitVec 4} {t : Fmt}
    (hp : ∀ x : Word, s.opnd a = some x → windowOf x.toNat (t.width / 8) ≠ some 13 →
      ∀ j < t.width / 8, p ≠ nearPhys s s.cur.loc (x.toNat + j)) :
    EndsIn (SameByte s p) (actAtomic op wd a b nr ord cls t s) := by
  have hQ := SameByte.quiet s p
  unfold actAtomic
  refine .bind_pure (.readOp a) (readOp_keeps a) rfl fun va hva => ?_
  refine .bind_pure (.check _ _ _) (.check _ _ _) rfl fun _ _ => ?_
  refine .bind_pure (accessWindow_pure _ _) (accessWindow_keeps _ _ hQ) rfl fun w hw => ?_
  refine .bind_pure (.readOp b) (readOp_keeps b) rfl fun y _ => ?_
  refine .bind_pure (.ite (.readNat _ _) (.ret _)) (.ite (readNat_keeps _ _) (.ret _)) rfl fun old _ => ?_
  rw [Act.bind_ok (Act.view_run _ s)]
  have hafter := orderAfter_keeps ord.toNat (s.scope 0) hQ
  by_cases h13 : w = 13
  · rw [if_pos h13]
    exact Act.Keeps.bind (Act.home_keeps _ _ _ hQ) (fun pa => .bind (Act.home_keeps _ _ _ hQ) fun _ =>
      .bind (orderBefore_keeps _ _ hQ) fun _ => .bind (openAccess_keeps _ _ hQ) fun k =>
        .ite hafter (.bind (awaitResult_keeps _ _ _ _ hQ) fun _ => hafter)) s rfl
  · rw [if_neg h13]
    refine .bind_pure (.await _) (.await _) rfl fun _ _ => ?_
    refine .bind_pure (readNear_pure _ _) (readNear_keeps _ _ hQ) rfl fun x _ => ?_
    generalize atomOp op t.isSigned (t.width / 8) (t == .f32) x (bitsAt y 0 (8 * (t.width / 8))) (bitsAt old 0 (8 * (t.width / 8))) = r
    obtain ⟨write, new, st⟩ := r
    have hrest : (stickyNow st >>= fun _ => if nr then orderAfter ord.toNat (s.scope 0) else
        writeReg ⟨.w, wd.toNat⟩ (latency s.me w) (BitVec.ofNat 512 (atomValue (t == .s32) (t.width / 8) x)) >>= fun _ =>
          orderAfter ord.toNat (s.scope 0)).Keeps (SameByte s p) :=
      .bind (stickyNow_keeps _ hQ) fun _ => .ite hafter (.bind (writeReg_keeps _ _ _ hQ) fun _ => hafter)
    cases write with
    | false => exact hrest s rfl
    | true =>
      refine .bind_keeps (m := writeNear va (toBytes (t.width / 8) new) allBytes) (writeNear_frame h fun j hj _ => ?_) fun _ => hrest
      obtain ⟨v, hv, rfl⟩ := opnd_of_readOp hva
      exact hp v hv (by rw [windowOf_of_accessWindow hw]; simpa using h13) j (by rwa [toBytes_length] at hj)

/-- An atomic whose span is that of its element leaves the bytes outside it. -/
theorem atomic_frame {s : State} (h : s.Inv) {i : Instr} {g : Guard} {a b : Opnd} {op p : Nat} {wd : BitVec 5} {nr : Bool} {ord : BitVec 2}
    {cls : BitVec 4} {t : Fmt}
    (hspan : s.span i = (s.opnd a).bind fun x =>
      if windowOf x.toNat (t.width / 8) = some 13 then none else some (x.toNat, t.width / 8, allBytes))
    (hp : s.Outside p (s.span i)) : OutKeeps (SameByte s p) (issue i g (actAtomic op wd a b nr ord cls t) s) := by
  refine issue_ends (SameByte.quiet s p) rfl (actAtomic_frame h fun x hx hwin j hj => ?_)
  refine hp x.toNat (t.width / 8) allBytes ?_ j hj (allBytes_testBit (by have := widthBytes_le t; omega))
  rw [hspan, hx, Option.bind_some, if_neg hwin]

/-- `asnap` leaves the bytes outside the 64 of its block. -/
theorem execAsnap_frame (g : Guard) (wd : BitVec 5) (a b : Opnd) (cls : BitVec 4) {s : State} {p : Nat} (h : s.Inv)
    (hp : s.Outside p (s.span (.asnap g wd a b cls))) : OutKeeps (SameByte s p) (execAsnap g wd a b cls s) := by
  have hQ := SameByte.quiet s p
  unfold execAsnap
  refine issue_ends hQ rfl (.bind_pure (.readOp a) (readOp_keeps a) rfl fun va hva => ?_)
  refine .bind_pure (.readOp b) (readOp_keeps b) rfl fun n _ => ?_
  refine .bind_pure (.check _ _ _) (.check _ _ _) rfl fun _ _ => .bind_pure (.check _ _ _) (.check _ _ _) rfl fun _ _ => ?_
  rw [Act.bind_ok (Act.view_run _ s), Act.bind_ok (Act.change_run _ s)]
  refine .bind_keeps ?_ fun _ => writeReg_keeps _ _ _ hQ
  refine writeNear_frame (s := s.setQuad _ _) h fun j hj hk => ?_
  obtain ⟨x, hx, rfl⟩ := opnd_of_readOp hva
  refine hp x.toNat 64 allBytes ?_ j (by rwa [toBytes_length] at hj) hk
  simp only [State.span, hx, Option.bind_some]

/-- Settles O59: what stores nothing keeps each byte of memory, and a store of W leaves the bytes outside its span. -/
theorem memoryFrames : Obligations.MemoryFrames := by
  unfold Obligations.MemoryFrames
  refine ⟨fun i s t hi ht p => ?unwritten, fun i s t hi hs ht p hp => ?stores⟩
  case unwritten =>
    have h := exec_keeps hi (SameByte.quiet s p) (s := s) rfl
    rw [ht] at h
    exact h
  case stores =>
    have h : OutKeeps (SameByte s p) (exec i s) := by
      rcases hi with ⟨g, src, a, b, cls, ty, rfl⟩ | ⟨g, src, a, b, cls, rfl⟩ | ⟨g, src, a, k, v1, cls, rfl⟩ |
        ⟨g, wd, a, b, nr, o, cls, ty, rfl | rfl | rfl | rfl | rfl⟩ | ⟨g, wd, a, b, nr, l, o, cls, ty, rfl⟩ |
        ⟨g, wd, a, b, o, cls, ty, rfl⟩ | ⟨g, wd, a, b, cls, rfl⟩
      · exact alignedStore_frame hs (storeData_readOp src) (by have := widthBytes_le ty; omega) rfl hp
      · exact alignedStore_frame hs (storeData_readRaw src) le_rfl rfl hp
      · exact execVstm_frame g src a k v1 cls hs hp
      · exact atomic_frame hs rfl hp
      · exact atomic_frame hs rfl hp
      · exact atomic_frame hs rfl hp
      · exact atomic_frame hs rfl hp
      · exact atomic_frame hs rfl hp
      · exact atomic_frame hs rfl hp
      · exact atomic_frame hs rfl hp
      · exact execAsnap_frame g wd a b cls hs hp
    rw [ht] at h
    exact h

end Sys2Proof.Machine
end

section
/-! Binding, freeing, waiting and moving on: what C, L and Y do to a ring that no operation holds (O33). -/

namespace Sys2Proof.Machine

theorem anyRing_unbound {q : Nat} {s : State} (h : s.me.rings.find q = none) : Act.anyRing q s = .error (.trap 0x01 0) := by
  unfold Act.anyRing
  rw [h]

/-- A table that lists no value under a number finds none there. -/
theorem Tab.find_none_of_has {α : Type} {t : Tab α} {i : Nat} (h : t.has i = false) : t.find i = none := by
  have hnone : t.filter (fun e => e.1 == i) = [] := List.filter_eq_nil_iff.2 (List.any_eq_false.1 h)
  unfold Tab.find
  rw [hnone]
  rfl

/-- Whether the entries of a drain ring and what a `qadv` skips end within its stream (R93, R98). -/
theorem within_stream {r : Ring} {n : Nat} (h : ∀ b, r.streamBits = some b → n ≤ b) :
    (match r.streamBits with | some b => decide (n ≤ b) | none => true) = true := by
  cases hb : r.streamBits with
  | none => rfl
  | some b => exact decide_eq_true (h b hb)

/-! ### `cbind` -/

theorem cbind_refused {g : Guard} {q e : BitVec 5} {gather : Bool} {s : State} (hm : mayIssue (.cbind g q e gather) g s = true)
    (hbusy : ringBusy s.me q.toNat = false) (h : ringDepth s.me q.toNat = 0 ∨ s.me.rings.has q.toNat = true) :
    exec (.cbind g q e gather) s = .next (trapHere s 0x01 0) := by
  refine issue_stop (e := .trap 0x01 0) hm ?_
  rw [Act.bind_ok (Act.view_run _ s), Act.bind_ok (Act.await_ok (by rw [hbusy]; rfl))]
  refine Act.bind_error (Act.check_stop ?_ _ _ _)
  rcases h with h | h <;> rw [h] <;> simp

theorem cbind_binds {g : Guard} {q e : BitVec 5} {gather : Bool} {s : State} {a : Vec} (hm : mayIssue (.cbind g q e gather) g s = true)
    (ha : s.regIn ⟨.e, e.toNat⟩ = some a) (hbusy : ringBusy s.me q.toNat = false) (hdepth : ringDepth s.me q.toNat ≠ 0)
    (hfree : s.me.rings.has q.toNat = false) (hblock : s.blockOk a.toNat 64 64) {r : Ring}
    (hr : r = Ring.fresh (nearNat s s.cur.loc a.toNat 64) gather) (hdesc : r.descOk s.me = true)
    (hplace : r.fin = 2 ∨ r.inside r.firstExtent = true ∧ (r.blk = 0 ∨ r.inside r.scaleExtent = true) ∧
      streamBanksOk s s.cur.loc r = true) :
    exec (.cbind g q e gather) s = .next (advance (setRing q.toNat r s)) := by
  have hhandle : (ringDepth s.me q.toNat != 0 && !s.me.rings.has q.toNat) = true := by
    rw [hfree, Bool.not_false, Bool.and_true]
    exact bne_iff_ne.2 hdepth
  have hok : (r.fin == 2 || (r.inside r.firstExtent && (r.blk == 0 || r.inside r.scaleExtent) && streamBanksOk s s.cur.loc r)) = true := by
    simpa only [Bool.or_eq_true, Bool.and_eq_true, beq_iff_eq, and_assoc] using hplace
  subst hr
  refine issue_next hm ?_
  rw [Act.bind_ok (Act.view_run _ s), Act.bind_ok (Act.await_ok (by rw [hbusy]; rfl)), Act.bind_ok (Act.check_ok hhandle _ _ _),
    Act.bind_ok (readNat_ok ha), Act.bind_ok (localBlock_ok hblock), Act.bind_ok (Act.check_ok hdesc _ _ _), Act.bind_ok (Act.view_run _ s),
    Act.bind_ok (Act.check_ok hok _ _ _)]
  rfl

/-! ### `cfree` -/

section
variable {g : Guard} {q : BitVec 5} {s : State} {r : Ring}

theorem cfree_unbound (hm : mayIssue (.cfree g q) g s = true) (h : s.me.rings.has q.toNat = false) :
    exec (.cfree g q) s = .next (trapHere s 0x01 0) :=
  issue_stop hm (Act.bind_error (anyRing_unbound (Tab.find_none_of_has h)))

theorem cfree_ends (hm : mayIssue (.cfree g q) g s = true) (hr : s.me.rings.find q.toNat = some r) (hbusy : ringBusy s.me q.toNat = false)
    (h : r.dir = false ∨ closePart r.entries = []) :
    exec (.cfree g q) s = .next (advance (s.setMe
      { s.me with rings := s.me.rings.drop q.toNat, gqueue := s.me.gqueue.filter (fun e => e.1 != q.toNat) })) := by
  refine issue_next hm ?_
  rw [Act.bind_ok (anyRing_ok hr hbusy)]
  have hempty : ¬(r.dir && !(if r.dir then closePart r.entries else r.entries).isEmpty) = true := by
    rcases h with h | h
    · rw [h]; simp
    · rw [h]; cases r.dir <;> simp
  exact congrFun (if_neg hempty) s

theorem cfree_waits (hm : mayIssue (.cfree g q) g s = true) (hr : s.me.rings.find q.toNat = some r) (hbusy : ringBusy s.me q.toNat = false)
    (hdir : r.dir = true) (hleft : closePart r.entries ≠ []) :
    exec (.cfree g q) s = .next (stallHere (setRing q.toNat { r with entries := closePart r.entries } s)) := by
  refine issue_stop (e := .stallWith (setRing q.toNat { r with entries := closePart r.entries } s)) hm ?_
  rw [Act.bind_ok (anyRing_ok hr hbusy)]
  have hwait : (r.dir && !(if r.dir then closePart r.entries else r.entries).isEmpty) = true := by
    rw [if_pos hdir, hdir, List.isEmpty_eq_false_iff.2 hleft]
    rfl
  refine (congrFun (if_pos hwait) s).trans ?_
  rw [if_pos hdir]

/-! ### `gpush` -/

theorem gpush_refused {a : Opnd} (hm : mayIssue (.gpush g q a) g s = true)
    (h : ∀ r, s.me.rings.find q.toNat = some r → r.gather = false) (hbusy : ringBusy s.me q.toNat = false) :
    exec (.gpush g q a) s = .next (trapHere s 0x01 0) := by
  refine issue_stop (e := .trap 0x01 0) hm ?_
  cases hr : s.me.rings.find q.toNat with
  | none => exact Act.bind_error (anyRing_unbound hr)
  | some r =>
    rw [Act.bind_ok (anyRing_ok hr hbusy)]
    exact Act.bind_error (Act.check_stop (h r hr) _ _ _)

theorem gpush_queues {a : Opnd} {x : Word} (hm : mayIssue (.gpush g q a) g s = true) (hx : s.opnd a = some x)
    (hr : s.me.rings.find q.toNat = some r) (hbusy : ringBusy s.me q.toNat = false) (hgather : r.gather = true) (hrow : x.toNat < r.cnt 1)
    (hbanks : r.fin ≠ 1 ∨ bankMask s s.cur.loc = 2 ^ 32 - 1 ∨ banksOk s s.cur.loc (r.rowBytes x.toNat) = true)
    (hroom : s.me.gqueue.length < 64) :
    exec (.gpush g q a) s = .next (advance (s.setMe { s.me with gqueue := s.me.gqueue ++ [(q.toNat, x.toNat)] })) := by
  have hok : (r.fin != 1 || bankMask s s.cur.loc == 2 ^ 32 - 1 || banksOk s s.cur.loc (r.rowBytes x.toNat)) = true := by
    simpa only [Bool.or_eq_true, bne_iff_ne, beq_iff_eq, or_assoc] using hbanks
  refine issue_next hm ?_
  rw [Act.bind_ok (anyRing_ok hr hbusy), Act.bind_ok (Act.check_ok hgather _ _ _), Act.bind_ok (State.opnd_ok hx),
    Act.bind_ok (Act.check_ok (decide_eq_true hrow) _ _ _), Act.bind_ok (Act.view_run _ s), Act.bind_ok (Act.check_ok hok _ _ _),
    Act.bind_ok (Act.await_ok (decide_eq_true hroom))]
  rfl

/-! ### `qwait` and `qadv` -/

section
variable {n : BitVec 7}

theorem qwait_drain (hm : mayIssue (.qwait g q n) g s = true) (hr : s.me.rings.find q.toNat = some r)
    (hbusy : ringBusy s.me q.toNat = false) (hdir : r.dir = true) (hroom : n.toNat + r.entries.length ≤ ringDepth s.me q.toNat) :
    exec (.qwait g q n) s = .next (advance s) := by
  refine issue_next hm ?_
  rw [Act.bind_ok (anyRing_ok hr hbusy), if_pos hdir, Act.bind_ok (Act.view_run _ s), if_pos hroom]
  rfl

theorem qwait_fill (hm : mayIssue (.qwait g q n) g s = true) (hr : s.me.rings.find q.toNat = some r)
    (hbusy : ringBusy s.me q.toNat = false) (hdir : r.dir = false) (hheld : n.toNat ≤ r.entries.length)
    (hend : ∀ b, r.streamBits = some b → r.moved - r.entries.length + n.toNat ≤ b / 512) :
    exec (.qwait g q n) s = .next (advance s) := by
  refine issue_next hm ?_
  rw [Act.bind_ok (anyRing_ok hr hbusy), if_neg (ne_true_of_eq_false hdir)]
  exact fillWait_ok hheld hend s

theorem qadv_drain (hm : mayIssue (.qadv g q n) g s = true) (hr : s.me.rings.find q.toNat = some r)
    (hbusy : ringBusy s.me q.toNat = false) (hdir : r.dir = true) {es : List RingEntry}
    (hes : es = closePart r.entries ++
      List.replicate (n.toNat - if (openPart r.entries).2.valid = 0 then 0 else 1) ⟨0, 0, true, [], none, 0⟩)
    (hend : ∀ b, r.streamBits = some b → 512 * (r.moved + es.length) ≤ b) (hroom : es.length ≤ ringDepth s.me q.toNat) :
    exec (.qadv g q n) s = .next (advance (setRing q.toNat { r with entries := es } s)) := by
  subst hes
  refine issue_next hm ?_
  rw [Act.bind_ok (anyRing_ok hr hbusy), if_pos hdir, Act.bind_ok (Act.view_run _ s)]
  refine (Act.bind_ok (Act.check_ok (within_stream hend) _ _ _)).trans ?_
  rw [if_pos hroom]
  rfl

theorem qadv_fill (hm : mayIssue (.qadv g q n) g s = true) (hr : s.me.rings.find q.toNat = some r)
    (hbusy : ringBusy s.me q.toNat = false) (hdir : r.dir = false) (hheld : n.toNat ≤ r.entries.length)
    (hend : ∀ b, r.streamBits = some b → r.moved - r.entries.length + n.toNat ≤ b / 512) :
    exec (.qadv g q n) s = .next (advance (setRing q.toNat { r with entries := r.entries.drop n.toNat, readBit := 0 } s)) := by
  refine issue_next hm ?_
  rw [Act.bind_ok (anyRing_ok hr hbusy), if_neg (ne_true_of_eq_false hdir), Act.bind_ok (fillWait_ok hheld hend s)]
  rfl

end

end

/-- Settles O33: for each operation on a ring, what it does where the ring admits it and the trap where it does not. -/
theorem ringsAreBoundAndFreed : Obligations.RingsAreBoundAndFreed := by
  unfold Obligations.RingsAreBoundAndFreed
  refine ⟨fun g q e gather s => cbind_refused, fun g q s => cfree_unbound, fun g q a s => gpush_refused, ?bind, ?free, ?push, ?move⟩
  case bind =>
    intro g q e gather s a hm ha hbusy hdepth hfree hblock r hdesc hplace
    exact cbind_binds hm ha hbusy hdepth hfree hblock rfl hdesc hplace
  case free =>
    intro g q s r hm hr hbusy
    exact ⟨cfree_ends hm hr hbusy, cfree_waits hm hr hbusy⟩
  case push =>
    intro g q a s x r hm hx hr hbusy hgather hrow hbanks hroom
    exact gpush_queues hm hx hr hbusy hgather hrow hbanks hroom
  case move =>
    intro g q n s r hr hbusy
    exact ⟨fun hm hdir hroom => qwait_drain hm hr hbusy hdir hroom, fun hm hdir hheld hend => qwait_fill hm hr hbusy hdir hheld hend,
      fun hm hdir hend hroom => qadv_drain hm hr hbusy hdir rfl hend hroom,
      fun hm hdir hheld hend => qadv_fill hm hr hbusy hdir hheld hend⟩

end Sys2Proof.Machine
end

section
/-! The events of rings, tiles and fills (O44): each, where its cause is there. -/

namespace Sys2Proof.Machine

section
variable {loc n : Nat} {s : State} {r : Ring} {e : RingEntry}

/-- The unit fills the next entry of a ring with room, and what is under way takes from it. -/
theorem ringEntryFill_fills {r' : Ring} (hr : (s.seqAt loc).rings.find n = some r) (hdir : r.dir = false)
    (hroom : r.entries.length < ringDepth (s.seqAt loc) n) (he : nextEntry s loc r = some (e, r')) :
    exec (.ringEntryFill loc n) s = .next (feedRing (s.setSeq loc { s.seqAt loc with
      rings := (s.seqAt loc).rings.put n { r' with entries := r'.entries ++ [e], moved := r'.moved + 1 } }) loc n) := by
  show execRingEntryFill loc n s = _
  have hopen : ¬(r.dir || decide (ringDepth (s.seqAt loc) n ≤ r.entries.length)) = true := by
    simpa [hdir] using hroom
  simp only [execRingEntryFill, hr, if_neg hopen, he]

/-- The unit fetches the next row, or a joined run of rows, of a gather ring that has used up the rows it had. -/
theorem gatherRowFetch_fetches {rows : Nat} {mine xs : List Nat} (hr : (s.seqAt loc).rings.find n = some r) (hgather : r.gather = true)
    (hrows : r.rows = []) (hmine : mine = ((s.seqAt loc).gqueue.filter (fun e => e.1 == n)).map (·.2)) (hsome : mine ≠ [])
    (hxs : xs = joinedRows r (max 1 rows) mine) :
    exec (.gatherRowFetch loc n rows) s = .next (s.setSeq loc { s.seqAt loc with
      gqueue := (s.seqAt loc).gqueue.filter (fun e => e.1 != n) ++ (mine.drop xs.length).map (fun x => (n, x))
      rings := (s.seqAt loc).rings.put n { r with rows := xs.flatMap (rowEntries s loc r) } }) := by
  show execGatherRowFetch loc n rows s = _
  subst hxs hmine
  have hgo : ¬(!r.gather || !r.rows.isEmpty ||
      (((s.seqAt loc).gqueue.filter (fun e => e.1 == n)).map (·.2)).isEmpty) = true := by
    rw [hgather, hrows, List.isEmpty_eq_false_iff.2 hsome]
    decide
  unfold execGatherRowFetch
  dsimp only
  rw [hr]
  exact if_neg hgo

/-- The unit writes the pushed entry at the head of a drain ring to its elements. -/
theorem ringEntryDrain_writes (hr : (s.seqAt loc).rings.find n = some r) (he : headReady (s.seqAt loc) r = some e) (hfin : r.fin ≠ 2)
    {t : State} (ht : t = drainElements loc r e ((List.range (512 * (r.moved + 1) / r.width - 512 * r.moved / r.width)).map
      (512 * r.moved / r.width + ·)) s) :
    exec (.ringEntryDrain loc n) s =
      .next (t.setSeq loc { t.seqAt loc with rings := (s.seqAt loc).rings.put n (r.afterDrain e) }) := by
  show execRingEntryDrain loc n s = _
  subst ht
  simp only [execRingEntryDrain, hr, he, if_neg hfin]

/-- The unit forwards the pushed entry at the head of a ring into its drain queue. -/
theorem drainQueueForward_forwards (hr : (s.seqAt loc).rings.find n = some r) (he : headReady (s.seqAt loc) r = some e) (hfin : r.fin = 2)
    (hvalid : e.valid ≠ 0) (hroom : dqCount (s.seqAt loc) r.dq < 64) :
    exec (.drainQueueForward loc n) s = .next (s.setSeq loc { s.seqAt loc with
      rings := (s.seqAt loc).rings.put n { r with entries := r.entries.drop 1, moved := r.moved + 1 }
      dqs := (s.seqAt loc).dqs.put r.dq
        ((s.seqAt loc).dqs.look [] r.dq ++ [⟨e.data, 0, 0, true, false, none, 64 * s.free⟩]) }) := by
  show execDrainQueueForward loc n s = _
  simp only [execDrainQueueForward, hr, he, if_neg (not_not.2 hfin), if_neg hvalid, if_neg (Nat.not_le.2 hroom)]

/-- An entry that a `qadv` has skipped whole leaves the ring and is forwarded nowhere. -/
theorem drainQueueForward_skips (hr : (s.seqAt loc).rings.find n = some r) (he : headReady (s.seqAt loc) r = some e) (hfin : r.fin = 2)
    (hvalid : e.valid = 0) :
    exec (.drainQueueForward loc n) s = .next (s.setSeq loc { s.seqAt loc with
      rings := (s.seqAt loc).rings.put n { r with entries := r.entries.drop 1, moved := r.moved + 1 } }) := by
  show execDrainQueueForward loc n s = _
  simp only [execDrainQueueForward, hr, he, if_neg (not_not.2 hfin), if_pos hvalid]

/-- The decoder stages one of the next four chunks of a compressed stream and releases what is in order. -/
theorem chunkDecode_stages {j : Nat} (hr : (s.seqAt loc).rings.find n = some r) (hcomp : r.comp ≠ 0) (hfail : r.fail = 0)
    (hleft : r.relElts ≠ r.total) (hlo : r.relNo ≤ j) (hhi : j < r.relNo + 4) (hnew : r.chunks.has j = false) :
    exec (.chunkDecode loc n j) s = .next (s.setSeq loc { s.seqAt loc with
      rings := (s.seqAt loc).rings.put n
        (releaseChunks 5 (stageChunk r j (chunkAt s loc r (chunkAddr s loc r (j - r.relNo))))) }) := by
  show execChunkDecode loc n j s = _
  have hgo : ¬(r.comp = 0 ∨ r.fail ≠ 0 ∨ r.relElts = r.total ∨ j < r.relNo ∨ r.relNo + 4 ≤ j ∨ r.chunks.has j = true) := by
    rintro (h | h | h | h | h | h)
    · exact hcomp h
    · exact h hfail
    · exact hleft h
    · omega
    · omega
    · rw [hnew] at h; cases h
  simp only [execChunkDecode, hr, if_neg hgo]

/-- Tile writes that are due are performed where one of the tile is complete. -/
theorem tileWriteComplete_lands {acc : Nat} (h : ∃ w ∈ (s.seqAt loc).tiles, w.acc = acc ∧ w.complete = true) :
    exec (.tileWriteComplete loc acc) s = .next (tryFinish (landTiles s loc) loc) := by
  obtain ⟨w, hw, hacc, hcomplete⟩ := h
  refine if_pos (List.any_eq_true.2 ⟨w, hw, ?_⟩)
  rw [hcomplete, Bool.and_true]
  exact beq_iff_eq.2 hacc

end

/-- Settles O44: what each event does where its cause is there; a fill completes whatever there is to complete. -/
theorem ringsTilesAndFillsProgress : Obligations.RingsTilesAndFillsProgress := by
  unfold Obligations.RingsTilesAndFillsProgress
  refine ⟨?fill, ?fetch, ?drain, ?forward, ?skip, ?decode, fun loc acc s => tileWriteComplete_lands, fun loc s => rfl⟩
  case fill =>
    intro loc n s r e r' m hr hdir hroom he
    exact ringEntryFill_fills hr hdir hroom he
  case fetch =>
    intro loc n rows s r m mine xs hr hgather hrows hmine
    exact gatherRowFetch_fetches hr hgather hrows rfl hmine rfl
  case drain =>
    intro loc n s r e m k0 k1 t hr he hfin
    exact ringEntryDrain_writes hr he hfin rfl
  case forward =>
    intro loc n s r e m hr he hfin hvalid hroom
    exact drainQueueForward_forwards hr he hfin hvalid hroom
  case skip =>
    intro loc n s r e m hr he hfin hvalid
    exact drainQueueForward_skips hr he hfin hvalid
  case decode =>
    intro loc n j s r m hr hcomp hfail hleft hlo hhi hnew
    exact chunkDecode_stages hr hcomp hfail hleft hlo hhi hnew

end Sys2Proof.Machine
end

section
/-! Accesses at their homes, the replies to them, offers of packets and page-table walks (O45). -/

namespace Sys2Proof.Machine

/-! ### At the home (R182, R289, R357, R358) -/

@[simp] theorem PktKind.idem_read (n : Nat) : (PktKind.read n).idem = 0 := rfl
@[simp] theorem PktKind.idem_write (b : List Byte) (m : Nat) : (PktKind.write b m).idem = 1 := rfl
@[simp] theorem PktKind.idem_atom (op : Nat) (sg : Bool) (n y c : Nat) (f : Bool) : (PktKind.atom op sg n y c f).idem = 2 := rfl

section
variable {pk : Nat} {s : State} {p : Packet}

/-- A packet that may be served at its place passes the tests of its home. -/
theorem home_open (h : s.atHome pk p) (hk : p.kind.idem ≠ 3) :
    ¬(p.kind.idem = 3 ∨ (!p.accepted) = true ∨ p.dst ≠ s.module ∨ flowBlocked s p = true) := by
  obtain ⟨-, hacc, hdst, hflow⟩ := h
  rintro (h | h | h | h)
  · exact hk h
  · rw [hacc] at h; cases h
  · exact h hdst
  · rw [hflow] at h; cases h

/-- The home answers a read with what memory holds, and keeps no record of it. -/
theorem homeAccess_read (h : s.atHome pk p) (hk : p.kind.idem = 0) (hca : p.ca = false) :
    exec (.homeAccess pk) s = .next (answer (performAccess s p).2.2 p (performAccess s p).1) := by
  show execHomeAccess pk s = _
  have hopen := home_open h (by rw [hk]; decide)
  unfold execHomeAccess
  simp only [h.1, if_neg hopen, hca, Bool.false_eq_true, if_false, if_pos hk]

/-- A cached read is performed in the frame of its token. -/
theorem homeAccess_read_cached (h : s.atHome pk p) (hk : p.kind.idem = 0) (hca : p.ca = true) :
    exec (.homeAccess pk) s = .next (answer (frameAccess s p).2 p (frameAccess s p).1) := by
  show execHomeAccess pk s = _
  have hopen := home_open h (by rw [hk]; decide)
  unfold execHomeAccess
  simp only [h.1, if_neg hopen, hca, if_true, if_pos hk]

/-- A cached write whose key has a record is answered from it. -/
theorem homeAccess_write_cached_again (h : s.atHome pk p) (hk : p.kind.idem ≠ 0) (hk3 : p.kind.idem ≠ 3) (hca : p.ca = true)
    (hrec : recordOf s p.ep p.key p.off ≠ none) : exec (.homeAccess pk) s = .next (answer s p (.reply 0 0)) := by
  show execHomeAccess pk s = _
  obtain ⟨r, hr⟩ := Option.ne_none_iff_exists'.1 hrec
  unfold execHomeAccess
  simp only [h.1, if_neg (home_open h hk3), hca, if_true, if_neg hk, hr]

/-- A cached write without a record is performed in the frame of its token and recorded. -/
theorem homeAccess_write_cached (h : s.atHome pk p) (hk : p.kind.idem ≠ 0) (hk3 : p.kind.idem ≠ 3) (hca : p.ca = true)
    (hrec : recordOf s p.ep p.key p.off = none) :
    exec (.homeAccess pk) s = .next (answer (addRecord (frameAccess s p).2 p.ep ⟨p.key, p.off, 0, 0⟩) p (frameAccess s p).1) := by
  show execHomeAccess pk s = _
  unfold execHomeAccess
  simp only [h.1, if_neg (home_open h hk3), hca, if_true, if_neg hk, hrec]

/-- A write or an atomic whose key has a record is answered from it. -/
theorem homeAccess_again (h : s.atHome pk p) (hk : p.kind.idem ≠ 0) (hk3 : p.kind.idem ≠ 3) (hca : p.ca = false) {r : Record}
    (hrec : recordOf s p.ep p.key p.off = some r) :
    exec (.homeAccess pk) s = .next (answer s p (.reply (r.result % 2 ^ 64) (r.result / 2 ^ 64))) := by
  show execHomeAccess pk s = _
  unfold execHomeAccess
  simp only [h.1, if_neg (home_open h hk3), hca, Bool.false_eq_true, if_false, if_neg hk, hrec]

/-- One without a record is refused where the window is full. -/
theorem homeAccess_full (h : s.atHome pk p) (hk : p.kind.idem ≠ 0) (hk3 : p.kind.idem ≠ 3) (hca : p.ca = false)
    (hrec : recordOf s p.ep p.key p.off = none) (hfull : Config.windowRecords ≤ (s.epAt p.ep).window.length) :
    exec (.homeAccess pk) s = .next (putPacket s { p with refused := true }) := by
  show execHomeAccess pk s = _
  unfold execHomeAccess
  simp only [h.1, if_neg (home_open h hk3), hca, Bool.false_eq_true, if_false, if_neg hk, hrec, if_pos hfull]

/-- One that meets a marked word leaves no record. -/
theorem homeAccess_marked (h : s.atHome pk p) (hk : p.kind.idem ≠ 0) (hk3 : p.kind.idem ≠ 3) (hca : p.ca = false)
    (hrec : recordOf s p.ep p.key p.off = none) (hroom : (s.epAt p.ep).window.length < Config.windowRecords) {c n r : Nat} {t : State}
    (hp : performAccess s p = (.refuse c n, r, t)) : exec (.homeAccess pk) s = .next (answer t p (.refuse c n)) := by
  show execHomeAccess pk s = _
  unfold execHomeAccess
  simp only [h.1, if_neg (home_open h hk3), hca, Bool.false_eq_true, if_false, if_neg hk, hrec, if_neg (Nat.not_le.2 hroom), hp]

/-- Any other is performed and recorded. -/
theorem homeAccess_performed (h : s.atHome pk p) (hk : p.kind.idem ≠ 0) (hk3 : p.kind.idem ≠ 3) (hca : p.ca = false)
    (hrec : recordOf s p.ep p.key p.off = none) (hroom : (s.epAt p.ep).window.length < Config.windowRecords) {k : PktKind} {r : Nat} {t : State}
    (hp : performAccess s p = (k, r, t)) (hgood : ¬∃ c n, k = .refuse c n) :
    exec (.homeAccess pk) s = .next (answer (addRecord t p.ep ⟨p.key, p.off, r, 0⟩) p k) := by
  show execHomeAccess pk s = _
  unfold execHomeAccess
  simp only [h.1, if_neg (home_open h hk3), hca, Bool.false_eq_true, if_false, if_neg hk, hrec, if_neg (Nat.not_le.2 hroom), hp]
  cases k with
  | refuse c n => exact absurd ⟨c, n, rfl⟩ hgood
  | _ => rfl

end

/-! ### Replies (R88, R283, R287, R355, R360) -/

section
variable {loc entry : Nat} {s : State} {p : Packet}

/-- An answer that an entry waits for is that of the entry's sequencer. -/
theorem answerFor_place (h : s.answerFor loc entry = some p) : p.loc = loc ∧ p.entry = entry := by
  have hp := List.find?_some h
  simp only [Bool.and_eq_true, beq_iff_eq] at hp
  exact ⟨hp.1.2, hp.2⟩

/-- One answer does to its entry what `State.answered` says: the count of answers left is judged before it or after it. -/
theorem takeAnswer_eq (s : State) (p : Packet) (e : Ifr) : takeAnswer s p e = s.answered p e := by
  have hleft : e.left - 1 = 0 ↔ e.left = 1 ∨ e.left = 0 := by omega
  unfold takeAnswer State.answered
  dsimp only
  cases p.kind with
  | reply x st => simp only [hleft, Ifr.taking]
  | _ => rfl

/-- Where an answer reaches an entry of its key whose kind is listed, before the save engine has begun on its context, it is taken. -/
theorem takeReply_taken {e : Ifr} {kinds : List Nat} (h : s.answerFor loc entry = some p) (he : (s.seqAt loc).ifr.find entry = some e)
    (hkey : e.key = p.key) (hstate : e.state < 3) (hsave : engineWrites s loc = false) (hkind : kinds.contains e.kind = true) :
    takeReply s loc entry kinds = s.answered p e := by
  unfold takeReply
  rw [show s.net.find? _ = some p from h, he]
  dsimp only
  rw [if_neg (ne_true_of_eq_false hsave), if_pos hkey, if_pos ⟨hkind, hstate⟩, takeAnswer_eq]

/-- An answer for a context that the save engine has begun to write is discarded. -/
theorem takeReply_saved {e : Ifr} {kinds : List Nat} (h : s.answerFor loc entry = some p) (he : (s.seqAt loc).ifr.find entry = some e)
    (hsave : engineWrites s loc = true) : takeReply s loc entry kinds = dropPacket s p.id := by
  unfold takeReply
  rw [show s.net.find? _ = some p from h, he]
  exact if_pos hsave

/-- An answer whose entry is gone is discarded. -/
theorem takeReply_gone {kinds : List Nat} (h : s.answerFor loc entry = some p) (he : (s.seqAt loc).ifr.find entry = none) :
    takeReply s loc entry kinds = dropPacket s p.id := by
  unfold takeReply
  rw [show s.net.find? _ = some p from h, he]

/-- An answer of another key than its entry's is discarded. -/
theorem takeReply_other {e : Ifr} {kinds : List Nat} (h : s.answerFor loc entry = some p) (he : (s.seqAt loc).ifr.find entry = some e)
    (hkey : e.key ≠ p.key) : takeReply s loc entry kinds = dropPacket s p.id := by
  unfold takeReply
  rw [show s.net.find? _ = some p from h, he]
  dsimp only
  rw [if_neg hkey, ite_self]

end

/-! ### Offers (R379) -/

section
variable {pk : Nat} {s : State} {p : Packet}

theorem packetOffer_near (hp : s.packet pk = some p) (hto : p.toward = s.module) (hacc : p.accepted = false) :
    exec (.packetOffer pk) s = .next (offerNear s p) := by
  show execPacketOffer pk s = _
  simp only [execPacketOffer, hp, if_pos hto, hacc, Bool.false_eq_true, if_false]

theorem packetOffer_passed (hp : s.packet pk = some p) (hto : p.toward = s.module) (hacc : p.accepted = true) :
    exec (.packetOffer pk) s = .next (putPacket s { p with refused := false }) := by
  show execPacketOffer pk s = _
  simp only [execPacketOffer, hp, if_pos hto, if_pos hacc]

theorem packetOffer_station (hp : s.packet pk = some p) (hto : p.toward ≠ s.module) (hacc : p.accepted = false) :
    exec (.packetOffer pk) s = .next (offerStation s p) := by
  show execPacketOffer pk s = _
  simp only [execPacketOffer, hp, if_neg hto, hacc, Bool.false_eq_true, if_false]

theorem packetOffer_link (hp : s.packet pk = some p) (hto : p.toward ≠ s.module) (hacc : p.accepted = true) :
    exec (.packetOffer pk) s = .next (offerLink s p) := by
  show execPacketOffer pk s = _
  simp only [execPacketOffer, hp, if_neg hto, if_pos hacc]

theorem offerNear_refuses (h : earlierInFlow s p (fun q => !q.accepted) = true ∨ p.st.isSome = true ∧ slotFree s p p.dir = false) :
    offerNear s p = putPacket s { p with refused := true } :=
  if_pos (h.imp_right fun ⟨hst, hslot⟩ => ⟨hst, by rw [hslot]; rfl⟩)

theorem offerNear_station (hflow : earlierInFlow s p (fun q => !q.accepted) = false) (hst : p.st.isSome = true)
    (hslot : slotFree s p p.dir = true) : offerNear s p = putPacket s { p with accepted := true, refused := false } := by
  unfold offerNear
  simp only [hflow, hst, hslot, Bool.not_true, Bool.false_eq_true, and_false, or_self, if_false, if_true]

theorem offerNear_ring (hflow : earlierInFlow s p (fun q => !q.accepted) = false) (hst : p.st = none) :
    offerNear s p = putPacket s { p with accepted := true, refused := false, dir := chooseDir s p } := by
  unfold offerNear
  simp only [hflow, hst, Option.isSome_none, Bool.false_eq_true, false_and, or_self, if_false]

/-- A station with a live link takes a packet that has a direction, that no packet of its flow waits before, and that finds a slot. -/
theorem offerStation_takes (hlive : ¬((s.link (2 * stationOf p)).dead = true ∧ (s.link (2 * stationOf p + 1)).dead = true))
    (hdir : chooseDir s p ≠ 0) (hflow : earlierInFlow s p (fun q => !q.accepted) = false) (hslot : slotFree s p (chooseDir s p) = true) :
    offerStation s p = putPacket s { p with accepted := true, refused := false, dir := chooseDir s p } := by
  refine (if_neg hlive).trans (if_neg ?_)
  rw [hflow, hslot]
  rintro (h | h | h)
  · exact hdir h
  · cases h
  · cases h

theorem offerStation_refuses (hlive : ¬((s.link (2 * stationOf p)).dead = true ∧ (s.link (2 * stationOf p + 1)).dead = true))
    (h : ¬(chooseDir s p ≠ 0 ∧ earlierInFlow s p (fun q => !q.accepted) = false ∧ slotFree s p (chooseDir s p) = true)) :
    offerStation s p = putPacket s { p with refused := true } := by
  refine (if_neg hlive).trans (if_pos ?_)
  by_contra hc
  simp only [not_or, Bool.not_eq_true, Bool.not_eq_false'] at hc
  exact h hc

end

/-! ### Walks (R323 to R325) -/

/-- What the end of a walk leaves of it: the page that it found, or the code of its trap. -/
def Walk.ended (s : State) (w : Walk) : Walk :=
  match walk s w.vd (w.page * 4096) with
  | .ok (frame, bits, ok) => { w with found := some (frame + w.page * 4096 % 2 ^ bits, ok) }
  | .error c => { w with code := c }

/-- A walk that a walker of the die holds ends there, and the next waiting walks of the die are granted; no other die changes. -/
theorem pageTableWalk_ends {no d : Nat} {s : State} (hd : d < 8) (hno : no % 8 = d)
    (hw : ∃ w ∈ (s.dieAt d).walks, w.no = no / 8 ∧ w.active = true ∧ w.found = none ∧ w.code = 0) :
    exec (.pageTableWalk no) s = .next (s.setDie d { s.dieAt d with
      walks := grantWalks (residentParts s d) [] ((s.dieAt d).walks.map (fun w => if w.no = no / 8 then w.ended s else w)) }) := by
  obtain ⟨w, hmem, hnum, hactive, hfound, hcode⟩ := hw
  show execPageTableWalk no s = _
  refine congrArg Host.Outcome.next ((foldl_one _ (List.range 8) d (List.mem_range.2 hd) List.nodup_range (fun t x _ hx => if_neg ?other) s).trans
    (if_pos ?here))
  case other =>
    intro h
    obtain ⟨v, -, hv⟩ := List.any_eq_true.1 h
    simp only [Bool.and_eq_true, decide_eq_true_eq] at hv
    exact hx (hv.2.trans hno)
  case here =>
    refine List.any_eq_true.2 ⟨w, hmem, ?_⟩
    rw [hnum, hactive, hfound, hcode, hno]
    simp

/-- Settles O45: what the home does by kind of access and record, which answers are taken and which discarded, what becomes of an offered
packet, and how a walk ends. -/
theorem homesPerformAndRepliesReturn : Obligations.HomesPerformAndRepliesReturn := by
  unfold Obligations.HomesPerformAndRepliesReturn
  refine ⟨fun pk s p h => ?home, fun loc entry s p h => ?reply, fun pk s p hp => ?offer, fun no d s hd hno => pageTableWalk_ends hd hno⟩
  case home =>
    refine ⟨fun n hk hca => homeAccess_read h (by simp [hk]) hca, fun n hk hca => homeAccess_read_cached h (by simp [hk]) hca,
      fun b m hk hca => ?cached, fun hk hca => ?changing⟩
    case cached =>
      have hk0 : p.kind.idem ≠ 0 := by simp [hk]
      have hk3 : p.kind.idem ≠ 3 := by simp [hk]
      exact ⟨homeAccess_write_cached_again h hk0 hk3 hca, homeAccess_write_cached h hk0 hk3 hca⟩
    have hidem : p.kind.idem ≠ 0 ∧ p.kind.idem ≠ 3 := by
      rcases hk with ⟨b, m, hk⟩ | ⟨op, sg, n, y, c, f, hk⟩ <;> simp [hk]
    obtain ⟨hk0, hk3⟩ := hidem
    refine ⟨fun r hrec => homeAccess_again h hk0 hk3 hca hrec, fun hrec hfull => homeAccess_full h hk0 hk3 hca hrec hfull,
      fun hrec hroom => ?_⟩
    rcases hp : performAccess s p with ⟨k, r, t⟩
    refine ⟨fun hbad => ?_, fun hgood => homeAccess_performed h hk0 hk3 hca hrec hroom hp hgood⟩
    obtain ⟨c, n, rfl⟩ := hbad
    exact homeAccess_marked h hk0 hk3 hca hrec hroom hp
  case reply =>
    refine ⟨fun e he hkey hstate hsave => ⟨fun hk => ?load, fun hk hlate => ?late, fun hk => ?store, fun hk => ?atomic⟩,
      fun e he hsave => congrArg _ (takeReply_saved h he hsave), fun he => congrArg _ (takeReply_gone h he),
      fun e he hkey => congrArg _ (takeReply_other h he hkey)⟩
    case load =>
      refine congrArg Host.Outcome.next (takeReply_taken h he hkey hstate hsave ?_)
      rcases hk with hk | ⟨hk, hlate⟩
      · rw [hk]; split <;> rfl
      · rw [hk, if_neg (ne_true_of_eq_false hlate)]; rfl
    case late =>
      refine (if_pos hlate).trans (congrArg Host.Outcome.next (takeReply_taken h he hkey hstate hsave ?_))
      rw [hk]; rfl
    case store =>
      refine congrArg Host.Outcome.next (takeReply_taken h he hkey hstate hsave ?_)
      rcases hk with hk | hk <;> rw [hk] <;> rfl
    case atomic =>
      refine congrArg Host.Outcome.next (takeReply_taken h he hkey hstate hsave ?_)
      rcases hk with hk | hk <;> rw [hk] <;> rfl
  case offer =>
    refine ⟨packetOffer_passed hp, fun hto hacc hno => ?_, fun hto hacc hflow hst hslot => ?_, fun hto hacc hflow hst => ?_,
      fun hto hacc hlive => ⟨fun htaken => ?_, fun hno => ?_⟩, packetOffer_link hp⟩
    · rw [packetOffer_near hp hto hacc, offerNear_refuses hno]
    · rw [packetOffer_near hp hto hacc, offerNear_station hflow hst hslot]
    · rw [packetOffer_near hp hto hacc, offerNear_ring hflow hst]
    · obtain ⟨hdir, hflow, hslot⟩ := htaken
      rw [packetOffer_station hp hto hacc, offerStation_takes hlive hdir hflow hslot]
    · rw [packetOffer_station hp hto hacc, offerStation_refuses hlive hno]

end Sys2Proof.Machine
end

section
/-! How the lanes of a typed result reach their destination (R120 to R122, R33): a register under the write mask, or a drain ring in the ring's
format (O19). -/

namespace Sys2Proof.Machine

/-! ### The lanes and the sticky bits that are delivered -/

/-- Lanes cut to their width make the same bits as the lanes themselves. -/
theorem ofLanes_wrapped (w n : Nat) (f : Nat → Nat) :
    ofLanes w ((List.range n).map (fun j => f j % 2 ^ w)) = ofLanes w ((List.range n).map f) := by
  rw [← ofLanes_mod w ((List.range n).map f), List.map_map]
  rfl

/-- The sticky bits that the lanes under a mask raise (R122). -/
def stickyUnder (w m : Nat) (xs : List (Nat × Nat)) : Nat :=
  ((List.range xs.length).map (fun j => if laneOn w m j then (xs.getD j (0, 0)).2 else 0)).foldl Nat.lor 0

/-- Lanes that raise no sticky bit raise none under any mask. -/
theorem stickyUnder_quiet {xs : List (Nat × Nat)} (h : ∀ x ∈ xs, x.2 = 0) (w m : Nat) : stickyUnder w m xs = 0 := by
  refine foldl_zero _ (fun b hb => ?_) 0 rfl
  obtain ⟨j, hj, rfl⟩ := List.mem_map.1 hb
  split
  · rw [List.getD_eq_getElem _ _ (List.mem_range.1 hj)]
    exact h _ (List.getElem_mem _)
  · rfl

/-- The lanes that `vecPlain` delivers, with the sticky bits they raise: none. -/
def plainLanes (t : Fmt) (f : Nat → Nat) : List (Nat × Nat) := (List.range (512 / t.width)).map (fun j => (f j % 2 ^ t.width, 0))

theorem vecPlain_eq (i : Instr) (d : Opnd) (t : Fmt) (k : BitVec 4) (f : Nat → Nat) :
    vecPlain i d t k f = vecOut i d t k (plainLanes t f) := rfl

theorem stickyUnder_plainLanes (t : Fmt) (f : Nat → Nat) (w m : Nat) : stickyUnder w m (plainLanes t f) = 0 := by
  refine stickyUnder_quiet (fun x hx => ?_) w m
  obtain ⟨j, _, rfl⟩ := List.mem_map.1 hx
  rfl

theorem ofLanes_plainLanes (t : Fmt) (f : Nat → Nat) :
    BitVec.ofNat 512 (ofLanes t.width ((plainLanes t f).map (·.1))) = mkLanes t.width (512 / t.width) f := by
  unfold plainLanes mkLanes
  rw [List.map_map]
  exact congrArg (BitVec.ofNat 512) (ofLanes_wrapped t.width _ f)

/-! ### A register (R120, R121) -/

/-- Lanes for a register land on the bytes that the write mask enables, with the sticky bits of the lanes under it. -/
theorem vecOut_register {i : Instr} {d : Opnd} {t : Fmt} {k : BitVec 4} {xs : List (Nat × Nat)} {s : State} {n : Nat}
    (hd : ∀ q, d ≠ .pop q) (hk : readKm k s = .ok (n, s)) :
    vecOut i d t k xs s = .ok ((), s.deliver i (BitVec.ofNat 512 (ofLanes t.width (xs.map (·.1))))
      (if k = 0 then allBytes else laneBytes t.width n) (stickyUnder t.width n xs)) := by
  unfold vecOut
  rw [Act.bind_ok hk, Act.bind_ok (Act.view_run _ _)]
  cases d with
  | pop q => exact absurd rfl (hd q)
  | _ => exact deliverMasked_run _ _ _ _ _

/-- Lanes without sticky bits for a register land on the bytes that the write mask enables. -/
theorem vecPlain_register {i : Instr} {d : Opnd} {t : Fmt} {k : BitVec 4} {f : Nat → Nat} {s : State} {m : Nat}
    (hd : ∀ q, d ≠ .pop q) (hm : s.writeMask t.width k = some m) :
    vecPlain i d t k f s = .ok ((), s.deliver i (mkLanes t.width (512 / t.width) f) m 0) := by
  obtain ⟨n, hk, rfl⟩ := readKm_ok hm
  rw [vecPlain_eq, vecOut_register hd hk, ofLanes_plainLanes, stickyUnder_plainLanes]

/-- A byte is enabled where the mask has the bit of the lowest byte of its lane. -/
theorem laneBytes_testBit {w b : Nat} (hw : w ∈ [8, 16, 32, 64]) (m : Nat) (hb : b < 64) :
    (laneBytes w m).testBit b = m.testBit (w / 8 * (b / (w / 8))) := mask_bits w hw (laneOn w m) b hb

/-! ### A drain ring (R120, R122) -/

/-- The lanes of a value in a ring's format, with the sticky bits of their conversion (R111, R120). -/
def State.convertLanes (s : State) (r : Ring) (t : Fmt) (skip : Nat) (v : Vec) : List Nat × Nat :=
  convertAll s r.fmt skip ((List.range (512 / t.width)).map (fun j => decodeNum t (lane v j t.width)))

/-- A ring with bits placed that a conversion gave, whose sticky bits are due with them. -/
def State.push (s : State) (q : Nat) (r : Ring) (c : List Nat × Nat) (len l : Nat) : State :=
  (s.place q r (ofLanes r.width c.1) len l).stick l c.2

/-- A push into a free drain ring with room enters the converted lanes. -/
theorem pushLanes_ok {s : State} {q : Nat} {r : Ring} {t : Fmt} (hr : s.ringFree q true r)
    (hroom : s.ringTakes q r (512 / t.width * r.width)) (skip : Nat) (v : Vec) (l : Nat) :
    pushLanes q t skip v l s = .ok ((), s.push q r (s.convertLanes r t skip v) (512 / t.width * r.width) l) := by
  unfold pushLanes
  rw [Act.bind_ok (ring_ok hr), Act.bind_ok (Act.view_run _ _)]
  exact (Act.bind_ok (ringPlace_ok hroom _ _)).trans (stickyAt_run _ _ _)

/-- Lanes without sticky bits for a free drain ring with room enter it converted. -/
theorem vecPlain_ring {i : Instr} {q : BitVec 5} {t : Fmt} {f : Nat → Nat} {s : State} {r : Ring}
    (hr : s.ringFree q.toNat true r) (hroom : s.ringTakes q.toNat r (512 / t.width * r.width)) :
    vecPlain i (.pop q) t 0 f s = .ok ((), s.push q.toNat r
      (s.convertLanes r t (if rmodeAt s.me s.here = 4 then ownDraws i else 0) (mkLanes t.width (512 / t.width) f))
      (512 / t.width * r.width) (latSteps s i)) := by
  have hk : readKm 0 s = .ok (allBytes, s) := rfl
  have hsticky : stickyAt (latSteps s i) (stickyUnder t.width allBytes (plainLanes t f)) s = .ok ((), s) := by
    rw [stickyUnder_plainLanes]
    rfl
  rw [vecPlain_eq]
  unfold vecOut
  rw [Act.bind_ok hk, Act.bind_ok (Act.view_run _ _)]
  refine (Act.bind_ok hsticky).trans ((pushLanes_ok hr hroom _ _ _).trans ?_)
  rw [ofLanes_plainLanes]
  rfl

/-- Settles O19: `vecPlain` at a register and at a ring, and the bytes of a lane mask. -/
theorem vectorResultsReachTheirDestination : Obligations.VectorResultsReachTheirDestination := by
  unfold Obligations.VectorResultsReachTheirDestination
  refine ⟨fun i d t k f s m hd hm => ?register, fun t m b hw hb => laneBytes_testBit hw m hb,
    fun i q t f s r hr hroom => ?ring⟩
  case register =>
    unfold State.lanes
    rw [Act.ends_eq.2 (vecPlain_register hd hm)]
    rfl
  case ring =>
    unfold State.lanes
    rw [Act.ends_eq.2 (vecPlain_ring hr hroom)]
    rfl

end Sys2Proof.Machine
end

section
/-! What the lane functions of the model are as operations on lanes of a width (R123 to R125, R134). -/

namespace Sys2Proof.Machine

/-! ### Sums, products and bitwise functions (R123) -/

theorem ofNat_of_toNat {w n : Nat} {z : BitVec w} (h : z.toNat = n) : BitVec.ofNat w n = z := by
  rw [← h, BitVec.ofNat_toNat, BitVec.setWidth_eq]

section
variable {w : Nat} (x y : BitVec w)

theorem add_lane : BitVec.ofNat w (x.toNat + y.toNat) = x + y := by
  rw [BitVec.ofNat_add, BitVec.ofNat_toNat, BitVec.ofNat_toNat, BitVec.setWidth_eq, BitVec.setWidth_eq]

theorem sub_lane : BitVec.ofNat w (x.toNat + 2 ^ w - y.toNat) = x - y := by
  rw [BitVec.sub_def, ← Nat.sub_add_comm y.isLt.le, Nat.add_comm]

theorem mul_lane : BitVec.ofNat w (x.toNat * y.toNat) = x * y := by
  rw [BitVec.ofNat_mul, BitVec.ofNat_toNat, BitVec.ofNat_toNat, BitVec.setWidth_eq, BitVec.setWidth_eq]

theorem and_lane : BitVec.ofNat w (Nat.land x.toNat y.toNat) = x &&& y := ofNat_of_toNat (BitVec.toNat_and x y)

theorem or_lane : BitVec.ofNat w (Nat.lor x.toNat y.toNat) = x ||| y := ofNat_of_toNat (BitVec.toNat_or x y)

theorem xor_lane : BitVec.ofNat w (Nat.xor x.toNat y.toNat) = x ^^^ y := ofNat_of_toNat (BitVec.toNat_xor x y)

theorem andn_lane : BitVec.ofNat w (Nat.land x.toNat (2 ^ w - 1 - y.toNat)) = x &&& ~~~y := by
  rw [← BitVec.toNat_not, and_lane]

theorem not_lane : BitVec.ofNat w (2 ^ w - 1 - x.toNat) = ~~~x := ofNat_of_toNat BitVec.toNat_not

/-- The magnitude of a lane read as signed: the most negative number is its own. -/
theorem abs_lane (hw : 0 < w) : BitVec.ofNat w (sext w x.toNat).natAbs = x.abs := by
  have hx := x.isLt
  refine ofNat_of_toNat ?_
  rw [sextN w hw, BitVec.toNat_abs, BitVec.toInt_eq_msb_cond]
  split <;> omega

/-! ### Shifts (R124) -/

theorem laneShl_lane (n : Nat) : BitVec.ofNat w (laneShl w x.toNat n) = x <<< n := by
  unfold laneShl
  by_cases hn : n < w
  · rw [if_pos hn, ← Nat.shiftLeft_eq]
    rfl
  · rw [if_neg hn, BitVec.shiftLeft_eq_zero (Nat.le_of_not_lt hn)]

theorem laneShr_lane (n : Nat) : BitVec.ofNat w (laneShr w x.toNat n) = x >>> n := by
  unfold laneShr
  by_cases hn : n < w
  · rw [if_pos hn, ofNat_div_ushiftRight]
  · rw [if_neg hn, BitVec.ushiftRight_eq_zero (Nat.le_of_not_lt hn)]

/-- A signed shift by the width or more leaves the sign in every bit. -/
theorem sshiftRight_past (hw : 0 < w) {n : Nat} (hn : w ≤ n) :
    BitVec.ofNat w (if sext w x.toNat < 0 then 2 ^ w - 1 else 0) = x.sshiftRight n := by
  have hsign : sext w x.toNat < 0 ↔ x.msb = true := by rw [sextN w hw, BitVec.msb_eq_toInt, decide_eq_true_iff]
  by_cases hneg : x.msb = true
  · rw [if_pos (hsign.2 hneg), BitVec.sshiftRight_eq_of_msb_true hneg, BitVec.ushiftRight_eq_zero hn, BitVec.not_zero]
    exact ofNat_of_toNat BitVec.toNat_allOnes
  · rw [if_neg (mt hsign.1 hneg), BitVec.sshiftRight_eq_of_msb_false (Bool.eq_false_iff.2 hneg), BitVec.ushiftRight_eq_zero hn]

theorem laneSra_lane (hw : 0 < w) (n : Nat) : BitVec.ofNat w (laneSra w x.toNat n) = x.sshiftRight n := by
  unfold laneSra
  by_cases hn : n < w
  · rw [if_pos hn, sraN hw x n hn]
  · rw [if_neg hn, sshiftRight_past x hw (Nat.le_of_not_lt hn)]

/-- The high half of a pair shifted left. -/
theorem funnel_left (n : Nat) :
    BitVec.ofNat w (bitsAt ((x.toNat * 2 ^ w + y.toNat) * 2 ^ n) w w) = ((x ++ y) <<< n).extractLsb' w w := by
  have hhigh : bitsAt ((x ++ y).toNat * 2 ^ n) w w = bitsAt ((x ++ y) <<< n).toNat w w := by
    rw [BitVec.toNat_shiftLeft, Nat.shiftLeft_eq, bitsAt, bitsAt, Nat.pow_add, Nat.mod_mul_right_div_self, Nat.mod_mod]
  rw [← catN, hhigh, bitsAt_extract, BitVec.ofNat_toNat, BitVec.setWidth_eq]

/-- The low half of a pair shifted right. -/
theorem funnel_right (n : Nat) :
    BitVec.ofNat w ((x.toNat * 2 ^ w + y.toNat) / 2 ^ n % 2 ^ w) = ((x ++ y) >>> n).extractLsb' 0 w := by
  rw [← catN, ← Nat.shiftRight_eq_div_pow, ← BitVec.toNat_ushiftRight, toNat_mod_extract, BitVec.ofNat_toNat, BitVec.setWidth_eq]

theorem laneFunnel_lane (right : Bool) (c : BitVec w) :
    BitVec.ofNat w (laneFunnel w right x.toNat y.toNat c.toNat) =
      let n := min c.toNat w
      if right then ((x ++ y) >>> n).extractLsb' 0 w else ((x ++ y) <<< n).extractLsb' w w := by
  cases right with
  | true => exact funnel_right x y _
  | false => exact funnel_left x y _

/-! ### Counts (R125) -/

theorem leadingZeros_lane :
    BitVec.ofNat w (leadingZeros w x.toNat) = BitVec.ofNat w (if x.toNat = 0 then w else w - 1 - x.toNat.log2) := by
  rw [lz w x.toNat x.isLt]

theorem onesCount_lane : onesCount w x.toNat = ((List.range w).filter (fun j => x.getLsbD j)).length := onesCount_eq w x.toNat

/-- A choice between two lanes, made on their values. -/
theorem ofNat_ite_lane {p q : Prop} [Decidable p] [Decidable q] (h : p ↔ q) :
    BitVec.ofNat w (if p then x.toNat else y.toNat) = if q then x else y := by
  by_cases hq : q
  · rw [if_pos (h.2 hq), if_pos hq, BitVec.ofNat_toNat, BitVec.setWidth_eq]
  · rw [if_neg (mt h.1 hq), if_neg hq, BitVec.ofNat_toNat, BitVec.setWidth_eq]

end

/-! ### Lanes as their type reads them (R123, R134) -/

/-- A lane at twice its width, with its sign under a signed type. -/
def wideLane (t : Fmt) (x : BitVec t.width) : BitVec (2 * t.width) :=
  if t.isSigned then x.signExtend (2 * t.width) else x.setWidth (2 * t.width)

section
variable {t : Fmt} (x y : BitVec t.width)

theorem laneInt_signed (h : t.isSigned = true) : laneInt t x.toNat = x.toInt := by
  unfold laneInt
  rw [if_pos h, sextN t.width (width_pos t)]

theorem laneInt_unsigned (h : t.isSigned = false) : laneInt t x.toNat = x.toNat := by
  unfold laneInt
  rw [h]
  rfl

theorem laneInt_le_iff : laneInt t x.toNat ≤ laneInt t y.toNat ↔ (if t.isSigned then x.sle y else x.ule y) = true := by
  cases h : t.isSigned with
  | true => rw [laneInt_signed x h, laneInt_signed y h, if_pos rfl, BitVec.sle, decide_eq_true_iff]
  | false => rw [laneInt_unsigned x h, laneInt_unsigned y h, Int.ofNat_le, if_neg Bool.false_ne_true, BitVec.ule, decide_eq_true_iff]

/-- What a lane reads as, at twice its width. -/
theorem ofInt_laneInt : BitVec.ofInt (2 * t.width) (laneInt t x.toNat) = wideLane t x := by
  unfold wideLane
  cases h : t.isSigned with
  | true => rw [laneInt_signed x h]; rfl
  | false => rw [laneInt_unsigned x h, BitVec.ofInt_natCast, BitVec.ofNat_toNat]; rfl

theorem wrap_eq_ofInt (n : Nat) (z : Int) : wrap n z = (BitVec.ofInt n z).toNat := by
  rw [BitVec.toNat_ofInt, wrap, Nat.cast_pow, Nat.cast_ofNat]

/-- A lane wrapped to twice its width. -/
theorem wrap_laneInt : wrap (2 * t.width) (laneInt t x.toNat) = (wideLane t x).toNat := by
  rw [wrap_eq_ofInt, ofInt_laneInt]

/-- The high half of the product of two lanes. -/
theorem mulh_lane : BitVec.ofNat t.width (wrap (2 * t.width) (laneInt t x.toNat * laneInt t y.toNat) / 2 ^ t.width) =
    (wideLane t x * wideLane t y).extractLsb' t.width t.width := by
  rw [wrap_eq_ofInt, BitVec.ofInt_mul, ofInt_laneInt, ofInt_laneInt, ofNat_div_extract]

end

end Sys2Proof.Machine
end

section
/-! The operations of V0 and V1 on lanes (O12 to O18): each reads its sources in order, then delivers a function of the lane number. -/

namespace Sys2Proof.Machine

/-! ### Reads, then lanes -/

/-- An operation that may issue is well formed. -/
theorem mayIssue_wf {i : Instr} {g : Guard} {s : State} (h : mayIssue i g s = true) : i.wf = true := by
  by_contra hwf
  rw [mayIssue, legal_wf (Bool.eq_false_iff.2 hwf)] at h
  simp at h

/-- Functions with the same lanes at a width deliver the same. -/
theorem State.lanes_congr {i : Instr} {d : Opnd} {t : Fmt} {k : BitVec 4} {f f' : Nat → Nat} {s : State}
    (h : ∀ j, f j % 2 ^ t.width = f' j % 2 ^ t.width) : s.lanes i d t k f = s.lanes i d t k f' := by
  unfold State.lanes
  rw [plain_congr h]

/-- Lanes whose values are those of words of the lane's width. -/
theorem State.lanes_of_words {i : Instr} {d : Opnd} {t : Fmt} {k : BitVec 4} {f : Nat → Nat} {F : Nat → BitVec t.width} {s : State}
    (h : ∀ j, BitVec.ofNat t.width (f j) = F j) : s.lanes i d t k f = s.lanes i d t k (fun j => (F j).toNat) :=
  State.lanes_congr fun j => by rw [← h j, BitVec.toNat_ofNat, Nat.mod_mod]

section
variable {i : Instr} {g : Guard} {d a b : Opnd} {t u : Fmt} {k : BitVec 4} {s s1 s2 s3 s4 : State} {x y z : Vec}
  (hm : mayIssue i g s = true)
include hm

/-- An operation that reads one vector and delivers lanes. -/
theorem lanes1_next {f : Vec → Nat → Nat} (ha : s.vec t a = some (x, s1)) (hl : s1.lanes i d u k (f x) = some s2) :
    issue i g (do
      let x ← readVec t a
      vecPlain i d u k (f x)) s = .next (advance s2) := by
  refine issue_next hm ?_
  rw [Act.bind_ok (Act.ends_eq.1 ha)]
  exact lanes_ok hl

/-- An operation that reads two vectors and delivers lanes. -/
theorem lanes2_next {f : Vec → Vec → Nat → Nat} (ha : s.vec t a = some (x, s1)) (hb : s1.vec t b = some (y, s2))
    (hl : s2.lanes i d u k (f x y) = some s3) :
    issue i g (do
      let x ← readVec t a
      let y ← readVec t b
      vecPlain i d u k (f x y)) s = .next (advance s3) := by
  refine issue_next hm ?_
  rw [Act.bind_ok (Act.ends_eq.1 ha), Act.bind_ok (Act.ends_eq.1 hb)]
  exact lanes_ok hl

/-- An operation that reads one vector and delivers lanes with sticky bits. -/
theorem rounded1_next {f : Vec → Nat → Nat × Nat} (ha : s.vec t a = some (x, s1)) (hl : s1.rounded i d u k (f x) = some s2) :
    issue i g (do
      let x ← readVec t a
      vecOut i d u k ((List.range (512 / u.width)).map (f x))) s = .next (advance s2) := by
  refine issue_next hm ?_
  rw [Act.bind_ok (Act.ends_eq.1 ha)]
  exact rounded_ok hl

/-- An operation that reads two vectors and delivers lanes with sticky bits. -/
theorem rounded2_next {f : Vec → Vec → Nat → Nat × Nat} (ha : s.vec t a = some (x, s1)) (hb : s1.vec t b = some (y, s2))
    (hl : s2.rounded i d u k (f x y) = some s3) :
    issue i g (do
      let x ← readVec t a
      let y ← readVec t b
      vecOut i d u k ((List.range (512 / u.width)).map (f x y))) s = .next (advance s3) := by
  refine issue_next hm ?_
  rw [Act.bind_ok (Act.ends_eq.1 ha), Act.bind_ok (Act.ends_eq.1 hb)]
  exact rounded_ok hl

/-- An operation that reads two vectors and its destination's old value and delivers lanes with sticky bits. -/
theorem rounded3_next {f : Vec → Vec → Vec → Nat → Nat × Nat} (ha : s.vec t a = some (x, s1)) (hb : s1.vec t b = some (y, s2))
    (hd : s2.raw d = some (z, s3)) (hl : s3.rounded i d u k (f x y z) = some s4) :
    issue i g (do
      let x ← readVec t a
      let y ← readVec t b
      let z ← readRaw d
      vecOut i d u k ((List.range (512 / u.width)).map (f x y z))) s = .next (advance s4) := by
  refine issue_next hm ?_
  rw [Act.bind_ok (Act.ends_eq.1 ha), Act.bind_ok (Act.ends_eq.1 hb), Act.bind_ok (Act.ends_eq.1 hd)]
  exact rounded_ok hl

/-- Sixteen lanes converted under CONV, each with its draw (R139, R113). -/
theorem vecConvert_next {src dst : Fmt} (hw : dst.width = 32) (ha : s.vec src a = some (x, s1))
    (hl : s1.rounded i d dst k (fun j => roundTo dst (rmodeAt s1.me s1.here) ((drawList s1 0 16).getD j 0)
      (sate4At s1.me s1.here) (decodeNum src (lane x j 32))) = some s2) :
    issue i g (vecConvert i d a src dst k) s = .next (advance s2) := by
  have hout := rounded_ok hl
  refine issue_next hm ?_
  unfold vecConvert
  rw [Act.bind_ok (Act.ends_eq.1 ha), Act.bind_ok (Act.view_run _ _)]
  dsimp only [id]
  rw [zip_range 16 _ _ 0 (len_drawList s1 0 16), List.map_map]
  rw [hw] at hout
  exact hout

end

/-! ### Lane-wise operations (R123 to R125) -/

/-- An operation whose meaning is the issue of a function of the lanes of two sources completes with that function, as it is on lanes. -/
theorem laneWise2_of {mk : Guard → Opnd → Opnd → Opnd → Fmt → BitVec 4 → Instr} {f : Fmt → Nat → Nat → Nat}
    {F : (t : Fmt) → BitVec t.width → BitVec t.width → BitVec t.width}
    (hmk : ∀ g d a b t k s, exec (mk g d a b t k) s = issue (mk g d a b t k) g (vec2 (mk g d a b t k) d a b t k (f t)) s)
    (hf : ∀ (t : Fmt) (x y : BitVec t.width), BitVec.ofNat t.width (f t x.toNat y.toNat) = F t x y) : LaneWise2 mk F := by
  intro g d a b t k s x y s1 s2 s3 hm ha hb hl
  rw [hmk]
  refine lanes2_next hm ha hb ((State.lanes_of_words fun j => ?_).trans hl)
  rw [laneB_eq, laneB_eq, hf]

/-- An operation whose meaning is the issue of a function of the lanes of one source completes with that function, as it is on lanes. -/
theorem laneWise1_of {mk : Guard → Opnd → Opnd → Fmt → BitVec 4 → Instr} {f : Fmt → Nat → Nat}
    {F : (t : Fmt) → BitVec t.width → BitVec t.width}
    (hmk : ∀ g d a t k s, exec (mk g d a t k) s = issue (mk g d a t k) g (vec1 (mk g d a t k) d a t k (f t)) s)
    (hf : ∀ (t : Fmt) (x : BitVec t.width), BitVec.ofNat t.width (f t x.toNat) = F t x) : LaneWise1 mk F := by
  intro g d a t k s x s1 s2 hm ha hl
  rw [hmk]
  refine lanes1_next hm ha ((State.lanes_of_words fun j => ?_).trans hl)
  rw [laneB_eq, hf]

/-- Settles O12: each function of R123, as it is on lanes. -/
theorem vectorIntegerLanes : Obligations.VectorIntegerLanes := by
  unfold Obligations.VectorIntegerLanes
  refine ⟨laneWise2_of (fun _ _ _ _ _ _ _ => rfl) fun _ => add_lane, laneWise2_of (fun _ _ _ _ _ _ _ => rfl) fun _ => sub_lane,
    laneWise2_of (fun _ _ _ _ _ _ _ => rfl) fun _ => mul_lane, laneWise2_of (fun _ _ _ _ _ _ _ => rfl) fun t x y => ?mulh,
    laneWise2_of (fun _ _ _ _ _ _ _ => rfl) fun _ x y => ofNat_ite_lane x y (laneInt_le_iff x y),
    laneWise2_of (fun _ _ _ _ _ _ _ => rfl) fun _ x y => ofNat_ite_lane x y (laneInt_le_iff y x),
    laneWise1_of (fun _ _ _ _ _ _ => rfl) fun t x => abs_lane x (width_pos t),
    laneWise2_of (fun _ _ _ _ _ _ _ => rfl) fun _ => and_lane, laneWise2_of (fun _ _ _ _ _ _ _ => rfl) fun _ => or_lane,
    laneWise2_of (fun _ _ _ _ _ _ _ => rfl) fun _ => xor_lane, laneWise2_of (fun _ _ _ _ _ _ _ => rfl) fun _ => andn_lane⟩
  case mulh =>
    rw [mulh_lane, wideLane, wideLane]
    split <;> rfl

/-- Settles O13: each function of R124 and R125, as it is on lanes; `vfsh` reads its counts after its sources. -/
theorem vectorShiftsAndCounts : Obligations.VectorShiftsAndCounts := by
  unfold Obligations.VectorShiftsAndCounts
  refine ⟨laneWise2_of (fun _ _ _ _ _ _ _ => rfl) fun _ x y => laneShl_lane x y.toNat,
    laneWise2_of (fun _ _ _ _ _ _ _ => rfl) fun _ x y => laneShr_lane x y.toNat,
    laneWise2_of (fun _ _ _ _ _ _ _ => rfl) fun t x y => laneSra_lane x (width_pos t) y.toNat,
    fun g d a b t right s x y c s1 s2 s3 s4 hm ha hb hd hl => ?vfsh,
    laneWise1_of (fun _ _ _ _ _ _ => rfl) fun _ => leadingZeros_lane,
    laneWise1_of (fun _ _ _ _ _ _ => rfl) fun t x => congrArg (BitVec.ofNat t.width) (onesCount_lane x)⟩
  case vfsh =>
    refine issue_next hm ?_
    rw [Act.bind_ok (Act.ends_eq.1 ha), Act.bind_ok (Act.ends_eq.1 hb), Act.bind_ok (Act.ends_eq.1 hd)]
    refine lanes_ok ((State.lanes_of_words fun j => ?_).trans hl)
    rw [laneB_eq, laneB_eq, laneB_eq, laneFunnel_lane]

/-! ### Compares, selection and masks (R126 to R128, R137) -/

section
variable {i : Instr} {g : Guard} {s : State} (hm : mayIssue i g s = true)
include hm

/-- An operation that delivers a function of one mask register. -/
theorem mask1_next {ka : BitVec 4} {m : Word} {f : Nat → Nat} (ha : s.maskIn ka = some m) :
    issue i g (do
      let x ← readMask ka
      deliverNat i (f x)) s = .next (advance (s.wrote i (BitVec.ofNat 64 (f m.toNat)))) := by
  refine issue_next hm ?_
  rw [Act.bind_ok (readMask_ok ha), deliverNat_run]

/-- An operation that delivers a function of two mask registers. -/
theorem mask2_next {ka kb : BitVec 4} {m n : Word} {f : Nat → Nat → Nat} (ha : s.maskIn ka = some m) (hb : s.maskIn kb = some n) :
    issue i g (do
      let x ← readMask ka
      let y ← readMask kb
      deliverNat i (f x y)) s = .next (advance (s.wrote i (BitVec.ofNat 64 (f m.toNat n.toNat)))) := by
  refine issue_next hm ?_
  rw [Act.bind_ok (readMask_ok ha), Act.bind_ok (readMask_ok hb), deliverNat_run]

/-- An operation that delivers the mask of a condition of two vectors. -/
theorem compare_next {a b : Opnd} {t : Fmt} {x y : Vec} {s1 s2 : State} {c : Vec → Vec → Nat → Bool} (ha : s.vec t a = some (x, s1))
    (hb : s1.vec t b = some (y, s2)) :
    issue i g (do
      let x ← readVec t a
      let y ← readVec t b
      deliverNat i (compareMask t.width (c x y))) s =
        .next (advance (s2.wrote i (BitVec.ofNat 64 (compareMask t.width (c x y))))) := by
  refine issue_next hm ?_
  rw [Act.bind_ok (Act.ends_eq.1 ha), Act.bind_ok (Act.ends_eq.1 hb), deliverNat_run]

end

/-- The conditions of two vectors lane by lane, as they are on lanes. -/
theorem condition_lanes (t : Fmt) (cc : BitVec 4) (x y : Vec) :
    (fun j => condition t.width cc.toNat (lane x j t.width) (lane y j t.width)) =
      fun j => holdsCc cc (laneB t.width x j) (laneB t.width y j) := by
  funext j
  rw [laneB_eq, laneB_eq, condN (width_pos t)]

/-- Settles O14: compares by the mask of their condition, `vsel` by the bytes of its mask, the mask operations as they are on words. -/
theorem vectorComparesAndMasks : Obligations.VectorComparesAndMasks := by
  unfold Obligations.VectorComparesAndMasks
  refine ⟨fun g kd a b t cc s x y s1 s2 hm ha hb => ?vcmp, fun g kd a b t cc s x y s1 s2 hm ha hb => compare_next hm ha hb,
    fun g d a b t ks s x y m s1 s2 s3 hm ha hb hk hl => ?vsel, fun g kd ka kb s m n hm ha hb => ?kand,
    fun g kd ka kb s m n hm ha hb => ?kor, fun g kd ka kb s m n hm ha hb => ?kxor, fun g kd ka s m hm ha => ?knot,
    fun g d ka s m hm ha => ?kpop, fun g d ka s m hm ha => ?kfirst⟩
  case vcmp => exact (compare_next hm ha hb).trans (by rw [condition_lanes])
  case vsel =>
    obtain ⟨v, hread, hv⟩ := maskIn_ok hk
    refine issue_next hm ?_
    rw [Act.bind_ok (Act.ends_eq.1 ha), Act.bind_ok (Act.ends_eq.1 hb), Act.bind_ok (Act.view_run _ _), Act.bind_ok hread]
    rw [hv]
    exact lanes_ok hl
  case kand => exact (mask2_next hm ha hb).trans (by rw [and_lane])
  case kor => exact (mask2_next hm ha hb).trans (by rw [or_lane])
  case kxor => exact (mask2_next hm ha hb).trans (by rw [xor_lane])
  case knot => exact (mask1_next hm ha).trans (by rw [not_lane])
  case kpop => exact (mask1_next hm ha).trans (by rw [onesCount_lane])
  case kfirst => exact (mask1_next hm ha).trans (by rw [trailingZeros_word])

/-! ### Movement and groups (R129 to R134) -/

/-- An operation whose meaning is the issue of lanes of one vector completes with those lanes. -/
theorem lanesFrom_of {mk : Guard → Opnd → Opnd → Fmt → BitVec 4 → Instr} {f : (t : Fmt) → Vec → Nat → Nat}
    (hmk : ∀ g d a t k s, exec (mk g d a t k) s = issue (mk g d a t k) g (do
      let x ← readVec t a
      vecPlain (mk g d a t k) d t k (f t x)) s) : LanesFrom mk f := by
  intro g d a t k s x s1 s2 hm ha hl
  rw [hmk]
  exact lanes1_next hm ha hl

/-- Settles O15: each movement is a function of the lane number; `vins` reads its destination after its source, and `vunpk` widens a lane as
its type reads it. -/
theorem vectorLaneMovement : Obligations.VectorLaneMovement := by
  unfold Obligations.VectorLaneMovement
  refine ⟨fun n => lanesFrom_of fun _ _ _ _ _ _ => rfl, fun g d a n t s x s1 s2 hm ha hl => lanes1_next hm ha hl,
    fun g d a n t s x z s1 s2 s3 hm ha hd hl => ?vins, fun g d a b t k s x y s1 s2 s3 hm ha hb hl => lanes2_next hm ha hb hl,
    fun n => lanesFrom_of fun _ _ _ _ _ _ => rfl, fun n down => lanesFrom_of fun _ _ _ _ _ _ => rfl,
    fun g d a b t wr s x y s1 s2 s3 hm ha hb hl => lanes2_next hm ha hb hl, fun g d a t hi s x s1 s2 hm ha hl => ?vunpk⟩
  case vins =>
    refine issue_next hm ?_
    rw [Act.bind_ok (Act.ends_eq.1 ha), Act.bind_ok (Act.ends_eq.1 hd)]
    exact lanes_ok hl
  case vunpk =>
    refine lanes1_next hm ha ((State.lanes_congr fun j => ?_).trans hl)
    rw [laneB_eq, wrap_laneInt]
    rfl

/-- The lanes of a group, none with a sticky bit yet. -/
theorem groupOf_quiet (n w : Nat) (v : Vec) (j : Nat) :
    (groupOf n w v j).map (fun e => (e, 0)) = (List.range n).map (fun i => (lane v (j / n * n + i) w, 0)) := List.map_map

/-- Settles O16: each lane of a group is a function of the group's lanes; `vfred` is typed f32, so that it has sixteen lanes. -/
theorem vectorGroupReductions : Obligations.VectorGroupReductions := by
  unfold Obligations.VectorGroupReductions
  refine ⟨fun g d a gs op t s x s1 s2 hm ha hl => lanes1_next hm ha hl, fun g d a gs op t s x s1 s2 hm ha hl => lanes1_next hm ha hl,
    fun g d a gs op t s x s1 s2 hm ha hl => ?vfred⟩
  case vfred =>
    have hwf := mayIssue_wf hm
    simp only [Instr.wf, Bool.and_eq_true, beq_iff_eq] at hwf
    obtain ⟨⟨⟨⟨rfl, _⟩, _⟩, _⟩, _⟩ := hwf
    refine issue_next hm ?_
    rw [Act.bind_ok (Act.ends_eq.1 ha)]
    simp only [groupOf_quiet]
    exact rounded_ok hl

/-! ### Floating operations, approximations and conversions (R135 to R139) -/

section
variable {mk : Guard → Opnd → Opnd → Opnd → Fmt → BitVec 4 → Instr}

/-- An operation whose meaning is the issue of a rounded function of two sources. -/
theorem rounds2_of {f : Num → Num → Num}
    (hmk : ∀ g d a b t k s, exec (mk g d a b t k) s = issue (mk g d a b t k) g (vecF2 (mk g d a b t k) d a b t k f) s) : Rounds2 mk f := by
  intro g d a b t k s x y s1 s2 s3 hm ha hb hl
  rw [hmk]
  exact rounded2_next hm ha hb hl

/-- An operation whose meaning is the issue of a rounded function of two sources and its destination. -/
theorem rounds3_of {f : Num → Num → Num → Num}
    (hmk : ∀ g d a b t k s, exec (mk g d a b t k) s = issue (mk g d a b t k) g (vecF3 (mk g d a b t k) d a b t k f) s) : Rounds3 mk f := by
  intro g d a b t k s x y z s1 s2 s3 s4 hm ha hb hd hl
  rw [hmk]
  exact rounded3_next hm ha hb hd hl

/-- An operation whose meaning is the issue of a choice of two sources. -/
theorem chooses2_of {f : Num → Num → Num}
    (hmk : ∀ g d a b t k s, exec (mk g d a b t k) s =
      issue (mk g d a b t k) g (vecChoice (mk g d a b t k) d a b t k (fun u v _ => f u v)) s) : Chooses2 mk f := by
  intro g d a b t k s x y s1 s2 s3 hm ha hb hl
  rw [hmk]
  exact lanes2_next hm ha hb hl

end

/-- An operation whose meaning is the issue of a function of f32 lanes. -/
theorem approximates_of {mk : Guard → Opnd → Opnd → Fmt → BitVec 4 → Instr} {f : Num → Nat × Nat}
    (hmk : ∀ g d a t k s, exec (mk g d a t k) s = issue (mk g d a t k) g (vecF1 (mk g d a t k) d a k f) s) : Approximates mk f := by
  intro g d a t k s x s1 s2 hm ha hl
  rw [hmk]
  exact rounded1_next hm ha hl

/-- Settles O17: each operation by the function that it rounds, chooses by, or takes the sign with. -/
theorem vectorFloatingLanes : Obligations.VectorFloatingLanes := by
  unfold Obligations.VectorFloatingLanes
  exact ⟨rounds2_of fun _ _ _ _ _ _ _ => rfl, rounds2_of fun _ _ _ _ _ _ _ => rfl, rounds2_of fun _ _ _ _ _ _ _ => rfl,
    rounds3_of fun _ _ _ _ _ _ _ => rfl, rounds3_of fun _ _ _ _ _ _ _ => rfl, chooses2_of fun _ _ _ _ _ _ _ => rfl,
    chooses2_of fun _ _ _ _ _ _ _ => rfl, lanesFrom_of fun _ _ _ _ _ _ => rfl, lanesFrom_of fun _ _ _ _ _ _ => rfl,
    fun g d a b t k s x y s1 s2 s3 hm ha hb hl => lanes2_next hm ha hb hl⟩

/-- Settles O18: each approximation by its function of an f32 lane; a conversion of 32-bit lanes under CONV with its draws. -/
theorem vectorApproximationsAndConversions : Obligations.VectorApproximationsAndConversions := by
  unfold Obligations.VectorApproximationsAndConversions
  refine ⟨approximates_of fun _ _ _ _ _ _ => rfl, approximates_of fun _ _ _ _ _ _ => rfl, approximates_of fun _ _ _ _ _ _ => rfl,
    approximates_of fun _ _ _ _ _ _ => rfl, fun g d a t k s x s1 s2 hm ha hl => vecConvert_next hm rfl ha hl,
    fun g d a t k s x s1 s2 hm ha hl => ?vfcvt⟩
  case vfcvt =>
    have hwf := mayIssue_wf hm
    simp only [Instr.wf, Bool.and_eq_true, Bool.or_eq_true, beq_iff_eq] at hwf
    have hw : t.width = 32 := by rcases hwf.1 with rfl | rfl <;> rfl
    exact vecConvert_next hm hw ha hl

end Sys2Proof.Machine
end

section
/-! The matrix slot: operations on tiles and their counters, products, drains, fills and routine words (O24 to O26). -/

namespace Sys2Proof.Machine

/-! ### Operations on a free tile (R143, R151, R160) -/

section
variable {i : Instr} {g : Guard} {acc : Nat} {s : State}

/-- An operation of M that may issue on a free tile advances from where the rest of its act leaves the landed state. -/
theorem issue_onTile {k : Act Unit} {t : State} (hm : mayIssue i g s = true) (htile : scoreboarded s.landed.me acc = false)
    (hk : k s.landed = .ok ((), t)) : issue i g (useTile acc >>= fun _ => k) s = .next (advance t) :=
  issue_next hm ((Act.bind_ok (useTile_ok htile)).trans hk)

theorem addTile_run (acc : Nat) (k : TileKind) (s : State) : addTile acc k s = .ok ((), s.queueTile acc k) := rfl

/-- The state once the counters of a tile have been pushed into a drain queue (R160). -/
def State.countersPushed (s : State) (n acc : Nat) : State :=
  s.pushQueue n (BitVec.ofNat 512 (countersOf s acc)) (latency s.me 15)

/-- `mcnt.rd` pushes both counters, and `mcnt.snap` also clears them. -/
theorem mcnt_next {n : BitVec 2} {acc : BitVec 5} (clear : Bool) (hm : mayIssue i g s = true)
    (htile : scoreboarded s.landed.me acc.toNat = false) (hroom : s.landed.dqReady n.toNat 1) :
    issue i g (actMcnt n acc clear) s = .next (advance (
      if clear then clearCounters acc.toNat (s.landed.countersPushed n.toNat acc.toNat)
      else s.landed.countersPushed n.toNat acc.toNat)) := by
  refine issue_onTile hm htile ?_
  rw [Act.bind_ok (reserve_ok hroom), Act.bind_ok (Act.view_run _ _), Act.bind_ok (pushDq_ok _ _ _ _)]
  cases clear <;> rfl

end

/-! ### Parameters and routines (R156, R158) -/

/-- An immediate over the low half of a register is the two halves side by side. -/
theorem ofNat_highHalf (k : BitVec 32) (v : Vec) :
    BitVec.ofNat 512 (v.toNat % 2 ^ 32 + k.toNat * 2 ^ 32) = (k ++ v.extractLsb' 0 32 : BitVec 64).setWidth 512 := by
  rw [← BitVec.ofNat_toNat, BitVec.toNat_append, ← Nat.shiftLeft_add_eq_or_of_lt (BitVec.isLt _), Nat.shiftLeft_eq, toNat_mod_extract, Nat.add_comm]

/-- In the M slot itself the operations of a routine are not legal: no routine runs (R158). -/
theorem loopWord_illegal {i : Instr} {s : State} (hi : ringsOk s.me i = s.me.routine.isSome) (hroutine : s.me.routine = none) :
    legal s i = false := by
  refine Bool.eq_false_iff.2 fun hlegal => ?_
  have hruns : s.me.routine.isSome = true := hi.symm.trans (legal_rings hlegal)
  rw [hroutine] at hruns
  cases hruns

/-- Settles O24: operations on a free tile act on the landed state, `mpar` and `mcall` on the state as it is; a loop word in the slot itself
is not legal. -/
theorem matrixTileOperations : Obligations.MatrixTileOperations := by
  unfold Obligations.MatrixTileOperations
  refine ⟨fun g acc s hm htile => issue_onTile hm htile (addTile_run _ _ _), fun g md k s hm => ?whole, fun g md k s v hm hv => ?high,
    fun g n s hm => issue_next hm (Act.change_run _ _), fun g c m src s hr hheld => exec_illegal rfl hheld (loopWord_illegal rfl hr),
    fun g s hr hheld => exec_illegal rfl hheld (loopWord_illegal rfl hr), fun g s hr hheld => exec_illegal rfl hheld (loopWord_illegal rfl hr),
    fun g n acc s hm htile hroom => mcnt_next false hm htile hroom, fun g n acc s hm htile hroom => mcnt_next true hm htile hroom,
    fun g acc s hm htile => issue_onTile hm htile (Act.change_run _ _)⟩
  case whole =>
    refine issue_next hm ((Act.bind_ok (Act.pure_run 0 s)).trans ?_)
    rw [← BitVec.ofNat_toNat]
    exact writeReg_run _ _ _ _
  case high =>
    refine issue_next hm ((Act.bind_ok (readNat_ok hv)).trans ?_)
    rw [← ofNat_highHalf]
    exact writeReg_run _ _ _ _

/-! ### Products (R152, R153) -/

/-- Settles O25: once its product is queued, `actMmac_ok` leaves the advance of the m registers, which writes them or does nothing. -/
theorem matrixProducts : Obligations.MatrixProducts := by
  unfold Obligations.MatrixProducts
  refine ⟨fun g acc q af bf kn lm adv s r v hm htile hv htakes => ?unscaled, fun g acc q af bf kn lm km adv s r v w hm htile hv hw htakes => ?scaled⟩
  case unscaled =>
    refine issue_next hm ((actMmac_ok htile hv rfl htakes).trans ?_)
    cases adv <;> rfl
  case scaled =>
    refine issue_next hm ((actMmac_ok (km := some km) htile hv (readNat_ok hw) htakes).trans ?_)
    cases adv <;> rfl

/-! ### Drains (R154) -/

/-- Entries pushed at rising landing indices from the first on. -/
theorem pushDqAll_ok (n l : Nat) (xs : List Nat) (s : State) : pushDqAll n l xs 0 s = .ok ((), s.pushQueueAll n l xs) := by
  rw [pushAll_ok, State.pushQueueAll, List.range_eq_range']

/-! ### Fills (R155) -/

section
variable {q : BitVec 5} {kn : BitVec 7} {lm : BitVec 3} {adv : BitVec 2} {s : State}

/-- No `mlar` of the bundle has begun where no fill under way is its own. -/
theorem mlarBegun_false (h : ∀ f ∈ s.me.fills, f.wait ≠ some (s.here, s.me.frame.isSome)) : mlarBegun s = false :=
  List.any_eq_false.2 fun f hf => by simpa using h f hf

theorem mlarBegun_true {f : Fill} (h : s.me.fills.find? (fun f => f.wait == some (s.here, s.me.frame.isSome)) = some f) :
    mlarBegun s = true :=
  List.any_eq_true.2 ⟨f, List.mem_of_find?_eq_some h, by simpa using List.find?_some h⟩

/-- The block position of the first element that an `mlar` takes (R155). -/
def Ring.firstBlockPos (r : Ring) : Nat := if r.blk = 0 then 0 else (r.coord (r.readPos / r.width)).getD 1 0

/-- The extent of a slab of kn rows from a ring at most (R147, R155). -/
def Ring.worstExtent (r : Ring) (kn : Nat) : Nat := slabWorst (blocksIn r.blk r.firstBlockPos kn) kn r.width

/-- The fill that an `mlar` of kn rows starts at a line; with ADV 2 its slot waits for it. -/
def State.fillAt (s : State) (q : Nat) (r : Ring) (kn l : Nat) (adv : BitVec 2) : Fill :=
  ⟨q, r.fmt, kn, l, 0, 0, 0, r.blk, r.firstBlockPos, r.cnt 1, r.worstExtent kn, none,
    if adv = 2 then some (s.here, s.me.frame.isSome) else none⟩

/-- The state once that fill has begun and has taken what its ring holds. -/
def State.fillStarted (s : State) (q : Nat) (f : Fill) : State :=
  feedRing (s.setMe { s.me with fills := s.me.fills ++ [f] }) s.cur.loc q

/-- An `mlar` that has not begun starts its fill, where the ring and the window admit it, and then waits or moves on as ADV says. -/
theorem actMlar_starts {r : Ring} {v : Vec} (hnew : ∀ f ∈ s.me.fills, f.wait ≠ some (s.here, s.me.frame.isSome))
    (hring : s.ringFree q.toNat false r) (hv : s.regIn ⟨.m, lm.toNat⟩ = some v) (hline : v.toNat < larderWindow s.me)
    (hfits : v.toNat + r.worstExtent kn.toNat ≤ larderWindow s.me)
    (hleft : r.gather = true ∨ r.readPos + 256 * kn.toNat * r.width ≤ r.total * r.width)
    (hfirst : r.has r.readPos (min (256 * kn.toNat * r.width) (512 - r.readPos % 512))) :
    actMlar q kn lm adv s =
      (if adv = 2 then (fun t => .error (.stallWith t))
       else if adv = 1 then writeReg ⟨.m, lm.toNat⟩ 1 (BitVec.ofNat 512 (v.toNat + r.worstExtent kn.toNat))
       else pure () : Act Unit) (s.fillStarted q.toNat (s.fillAt q.toNat r kn.toNat v.toNat adv)) := by
  have hnone : s.me.fills.find? (fun f => f.wait == some (s.here, s.me.frame.isSome)) = none :=
    List.find?_eq_none.2 fun f hf => by simpa using hnew f hf
  unfold actMlar
  rw [Act.bind_ok (Act.view_run _ _)]
  dsimp only [id]
  rw [hnone]
  dsimp only
  rw [Act.bind_ok (ring_ok hring), Act.bind_ok (lineIn_ok hv hline)]
  refine (Act.bind_ok (Act.check_ok (decide_eq_true hfits) _ _ _)).trans ?_
  rw [Act.bind_ok (takeReady_ok hleft hfirst), Act.bind_ok (Act.change_run _ _)]
  rfl

/-- An `mlar` whose fill is complete moves its register past the slab, and its wait is over. -/
theorem actMlar_ends {f : Fill} {n : Nat} (hf : s.me.fills.find? (fun f => f.wait == some (s.here, s.me.frame.isSome)) = some f)
    (hdone : f.done = some n) :
    actMlar q kn lm adv s = .ok ((),
      (s.setMe { s.me with fills := s.me.fills.filter (fun f => f.wait != some (s.here, s.me.frame.isSome)) }).send
        ⟨.m, lm.toNat⟩ 1 (BitVec.ofNat 512 (f.line + n)) allBytes 0) := by
  unfold actMlar
  rw [Act.bind_ok (Act.view_run _ _)]
  dsimp only [id]
  rw [hf]
  dsimp only
  rw [hdone]
  dsimp only
  rw [Act.bind_ok (Act.change_run _ _)]
  exact writeReg_run _ _ _ _

end

/-- Settles O26: a drain on the landed state, an `mlar` that begins and one whose fill has ended, and the next word of a running routine. -/
theorem matrixDrainsAndFills : Obligations.MatrixDrainsAndFills := by
  unfold Obligations.MatrixDrainsAndFills
  refine ⟨?drain, ?starts, ?ends, ?word⟩
  case drain =>
    intro g n acc rs nr1 fo cl s hm htile hroom
    refine issue_onTile hm htile ?_
    rw [Act.bind_ok (reserve_ok hroom), Act.bind_ok (Act.view_run _ _)]
    dsimp only [id]
    rw [Act.bind_ok (pushDqAll_ok _ _ _ _), Act.bind_ok (stickyAt_run _ _ _)]
    cases cl <;> rfl
  case starts =>
    intro g q kn lm adv s r v hm hnew hring hv hline k0 worst hfits hleft hfirst f t
    have hact := actMlar_starts (adv := adv) hnew hring hv hline hfits hleft hfirst
    have hissue : mayIssue (.mlar g q kn lm adv) (begunGuard (mlarBegun s) g) s = true := by
      rw [mlarBegun_false hnew]
      exact hm
    by_cases hexact : adv = 2
    · rw [if_pos hexact] at hact ⊢
      exact issue_stop hissue hact
    · rw [if_neg hexact] at hact ⊢
      by_cases hworst : adv = 1
      · rw [if_pos hworst] at hact ⊢
        exact issue_next hissue (hact.trans (writeReg_run _ _ _ _))
      · rw [if_neg hworst] at hact ⊢
        exact issue_next hissue hact
  case ends =>
    intro g q kn lm adv s f n hm hf hdone
    refine issue_next ?_ (actMlar_ends hf hdone)
    rw [mlarBegun_true hf]
    exact hm
  case word =>
    intro s rt i nx t hrt hp hw
    dsimp only
    intro hsub hop hnx hm ha
    exact routine_next hrt hp hw rfl hsub hop hnx hm ha

end Sys2Proof.Machine
end

section
/-! The transform slot: conversions, packing and checksums read raw and deliver one X result, a transpose moves a square block of t registers, an
expansion decodes one chunk from ring to ring (O22, O23). -/

namespace Sys2Proof.Machine

/-! ### Raw reads, then one X result (R161, R163) -/

/-- After a raw read an act goes on with the bits read, from the state that the read leaves. -/
theorem readRaw_then {β : Type} {o : Opnd} {s s1 : State} {x : Vec} (h : s.raw o = some (x, s1)) (k : Vec → Act β) :
    (readRaw o >>= k) s = k x s1 :=
  Act.bind_ok (Act.ends_eq.1 h)

/-- The old value of a destination that is replaced in part; one that is replaced whole is not read (R165). -/
theorem readOld_ok {c : Prop} [Decidable c] {d : Opnd} {s s1 : State} {old : Vec}
    (h : (if c then s.raw d else some (0, s)) = some (old, s1)) : (if c then readRaw d else pure 0 : Act Vec) s = .ok (old, s1) := by
  by_cases hc : c
  · rw [if_pos hc] at h ⊢
    exact Act.ends_eq.1 h
  · rw [if_neg hc] at h ⊢
    cases h
    rfl

/-- Settles O22: each operation reads its operands in order and delivers one X result. -/
theorem transformConversions : Obligations.TransformConversions := by
  unfold Obligations.TransformConversions
  refine ⟨fun g d a p fo fi s x old s1 s2 s3 hm ha hold hx => ?xcvt, fun g d a b fo p s x y old s1 s2 s3 s4 hm ha hb hd hx => ?xquant,
    fun g d a b p fi s x y s1 s2 s3 hm ha hb hx => ?xdeq, fun g d a b fo s x y s1 s2 s3 hm ha hb hx => ?xamax⟩
  case xcvt =>
    refine issue_next hm ((readRaw_then ha _).trans ?_)
    refine (Act.bind_ok (readOld_ok hold)).trans ((Act.bind_ok (Act.view_run _ _)).trans ?_)
    dsimp only [id] at hx ⊢
    exact xres_ok hx
  case xquant =>
    refine issue_next hm ((readRaw_then ha _).trans ?_)
    refine (readRaw_then hb _).trans ((readRaw_then hd _).trans ((Act.bind_ok (Act.view_run _ _)).trans ?_))
    dsimp only [id] at hx ⊢
    exact xres_ok hx
  case xdeq =>
    refine issue_next hm ((readRaw_then ha _).trans ?_)
    refine (readRaw_then hb _).trans ((Act.bind_ok (Act.view_run _ _)).trans ?_)
    dsimp only [id] at hx ⊢
    exact xres_ok hx
  case xamax =>
    refine issue_next hm ((readRaw_then ha _).trans ?_)
    exact (readRaw_then hb _).trans (xres_ok hx)

/-! ### Transposition (R163, R167) -/

/-- The rows of the block that `xtr` moves: sixteen of 32-bit elements, thirty-two of 16-bit ones. -/
def blockRows (t : Fmt) : Nat := if t.width = 32 then 16 else 32

/-- A column of a block, given by its rows. -/
def blockColumn (t : Fmt) (rows : Nat → Vec) (c : Nat) : Vec :=
  mkLanes t.width (blockRows t) (fun r => lane (rows r) c t.width)

/-- A column of the rows that were read into a list. -/
theorem blockColumn_read (t : Fmt) (rows : Nat → Vec) (c : Nat) :
    blockColumn t (fun r => ((List.range (blockRows t)).map rows).getD r 0) c = blockColumn t rows c := by
  refine congrArg (fun l => BitVec.ofNat 512 (ofLanes t.width l)) (List.map_congr_left fun r hr => ?_)
  have hlt : r < blockRows t := List.mem_range.1 hr
  dsimp only
  rw [List.getD_eq_getElem?_getD, List.getElem?_map, List.getElem?_range hlt, Option.map_some, Option.getD_some]

/-- Whether a sequencer leaves the transpose unit free: it runs no task, or its own `xtr` and that of the program that its handler
interrupted are over (R163). -/
def Seq.leavesUnit (o : Seq) : Prop :=
  o.status ≠ 0 → o.xtrFree ≤ stepOf o .X ∧ ∀ f, o.frame = some f → f.xtrFree ≤ f.steps.look 0 Slot.X.num

/-- Where the sibling leaves the unit free, the wait of `xtr` for it is over. -/
theorem leavesUnit_noWait {o : Seq} (h : o.leavesUnit) :
    (!(o.status != 0 && (decide (stepOf o .X < o.xtrFree) ||
      o.frame.any (fun f => decide (f.steps.look 0 Slot.X.num < f.xtrFree))))) = true := by
  by_cases hrun : o.status = 0
  · rw [hrun]
    rfl
  · obtain ⟨hown, hframe⟩ := h hrun
    have hbelow : o.frame.any (fun f => decide (f.steps.look 0 Slot.X.num < f.xtrFree)) = false := by
      cases hf : o.frame with
      | none => rfl
      | some f => exact decide_eq_false (Nat.not_lt.2 (hframe f hf))
    rw [hbelow, decide_eq_false (Nat.not_lt.2 hown), Bool.or_self, Bool.and_false]
    rfl

section
variable {g : Guard} {d a : BitVec 5} {t : Fmt} {s : State} (hm : mayIssue (.xtr g d a t) g s = true)
include hm

/-- On a free unit `xtr` occupies it for as many steps as the block has rows and sends the block's columns. -/
theorem xtr_transposes {rows : Nat → Vec} (hfree : s.me.xtrFree ≤ stepOf s.me .X)
    (hsibling : (s.seqAt (siblingOf s.cur.loc)).leavesUnit)
    (hrows : ∀ r < blockRows t, s.regIn ⟨.t, a.toNat + r⟩ = some (rows r)) :
    exec (.xtr g d a t) s = .next (advance ((List.range (blockRows t)).foldl (fun u c =>
      u.send ⟨.t, d.toNat + c⟩ (latSteps s (.xtr g d a t)) (blockColumn t rows c) allBytes 0)
      (s.setMe { s.me with xtrFree := s.here + blockRows t }))) := by
  have hread := mapM_reads (List.range (blockRows t)) (fun r => ⟨.t, a.toNat + r⟩) rows s fun r hr => hrows r (List.mem_range.1 hr)
  refine issue_next hm ((Act.bind_ok (Act.view_run _ _)).trans ?_)
  rw [Act.bind_ok (Act.check_ok (decide_eq_true hfree) _ _ _), Act.bind_ok (Act.await_ok (leavesUnit_noWait hsibling))]
  refine (Act.bind_ok hread).trans ?_
  rw [Act.bind_ok (Act.view_run _ _), Act.bind_ok (Act.change_run _ _)]
  simp only [← blockColumn_read t rows]
  exact forM_send _ (fun c => ⟨.t, d.toNat + c⟩) _ _ _

/-- While the sequencer's own earlier `xtr` occupies the unit, another traps. -/
theorem xtr_occupied (hbusy : stepOf s.me .X < s.me.xtrFree) : exec (.xtr g d a t) s = .next (trapHere s 0x01 0) := by
  refine issue_stop (e := .trap 0x01 0) hm ((Act.bind_ok (Act.view_run _ _)).trans ?_)
  exact Act.bind_error (Act.check_stop (decide_eq_false (Nat.not_le.2 hbusy)) _ _ _)

end

/-! ### Expansion of one chunk (R170, R171, R176) -/

/-- The header of the chunk at a ring's read position. -/
def Ring.chunkHeader (r : Ring) : Nat := r.bitsFrom r.readPos 64

/-- The payload bytes that its header gives the chunk. -/
def Ring.chunkLen (r : Ring) : Nat := bitsAt r.chunkHeader 16 16

/-- The bits of the chunk: its header and its payload, padded to whole groups of eight bytes. -/
def Ring.chunkBits (r : Ring) : Nat := 64 + 64 * ceilDiv r.chunkLen 8

/-- The entries that the chunk's elements fill. -/
def Ring.chunkEntries (r : Ring) (t : Fmt) : Nat := ceilDiv (bitsAt r.chunkHeader 0 16 * t.width) 512

/-- The chunk's bytes past its header. -/
def Ring.chunkBytes (r : Ring) : List Byte := toBytes (r.chunkBits / 8 - 8) (r.bitsFrom (r.readPos + 64) (r.chunkBits - 64))

/-- The elements of the chunk, or the trap of the first check that it fails. -/
def Ring.chunk (r : Ring) (dbp : Bool) (t : Fmt) (chk : Bool) : Except Nat (List Nat) :=
  decodeChunk (if dbp then 2 else 1) t.width 15 chk 65535 r.chunkHeader (r.chunkBytes.take r.chunkLen) (r.chunkBytes.drop r.chunkLen)

/-- The entries that hold its elements, packed from the first bit on, with zeros past the last. -/
def Ring.chunkData (r : Ring) (t : Fmt) (els : List Nat) : List Nat :=
  (List.range (r.chunkEntries t)).map (fun e => bitsAt (ofLanes t.width els) (512 * e) 512)

/-- What `xexp` does with the chunk: one that failed raises its trap, the elements of another go to the drain ring in whole entries. -/
def actOnChunk (q a : BitVec 5) (t : Fmt) (r o : Ring) (depth : Nat) : Except Nat (List Nat) → Act Unit
  | .error c => Act.trap c a.toNat
  | .ok els => do
    let l ← Act.view (fun s => latency s.me 17)
    Act.check (match o.streamBits with
      | some b => 512 * (o.moved + (closePart o.entries).length + r.chunkEntries t) ≤ b
      | none => true) 0x11 0
    if depth < (closePart o.entries).length + r.chunkEntries t then ringStall
    Act.change (setRing a.toNat (r.consume r.chunkBits))
    pushEntries q.toNat l (r.chunkData t els) 0

section
variable {g : Guard} {q a : BitVec 5} {dbp chk : Bool} {t : Fmt} {s : State} {r o : Ring}

/-- `xexp` on a fill ring that holds a whole chunk, which the depths of both rings admit, comes down to what it does with the chunk. -/
theorem xexp_reaches_chunk (hm : mayIssue (.xexp g q a dbp t chk) g s = true) (hr : s.ringFree a.toNat false r)
    (ho : s.ringFree q.toNat true o) (hheader : r.has r.readPos 64) (hwhole : r.has r.readPos r.chunkBits)
    (hfits : r.chunkBits + r.readPos % 512 ≤ 512 * ringDepth s.me a.toNat) (hroom : r.chunkEntries t ≤ ringDepth s.me q.toNat)
    (hstream : ∀ b, r.streamBits = some b → r.readPos + r.chunkBits ≤ b) :
    exec (.xexp g q a dbp t chk) s =
      issue (.xexp g q a dbp t chk) g (actOnChunk q a t r o (ringDepth s.me q.toNat) (r.chunk dbp t chk)) s := by
  have hdepths : (decide (r.chunkBits + r.readPos % 512 ≤ 512 * ringDepth s.me a.toNat) &&
      decide (r.chunkEntries t ≤ ringDepth s.me q.toNat)) = true := by
    rw [decide_eq_true hfits, decide_eq_true hroom]
    rfl
  refine issue_congr ((Act.bind_ok (ring_ok hr)).trans ?_) hm
  refine (Act.bind_ok (ring_ok ho)).trans ?_
  refine (Act.bind_ok (ringAwait_ok hheader _ _)).trans ?_
  refine (Act.bind_ok (Act.view_run _ _)).trans ?_
  refine (Act.bind_ok (Act.check_ok hdepths _ _ _)).trans ?_
  refine (Act.bind_ok (Act.check_ok (within_stream hstream) _ _ _)).trans ?_
  refine (Act.bind_ok (ringAwait_ok hwhole _ _)).trans ?_
  show (match r.chunk dbp t chk with | .error c => _ | .ok els => _ : Act Unit) s = _
  cases r.chunk dbp t chk <;> rfl

/-- The elements of a chunk that passes are pushed once the drain ring's stream and depth take their entries and the chunk is consumed. -/
theorem actOnChunk_pushes {els : List Nat} {u : State}
    (hstream : ∀ b, o.streamBits = some b → 512 * (o.moved + (closePart o.entries).length + r.chunkEntries t) ≤ b)
    (hroom : (closePart o.entries).length + r.chunkEntries t ≤ ringDepth s.me q.toNat)
    (hpush : (Act.ends (pushEntries q.toNat (latency s.me 17) (r.chunkData t els) 0)
      (setRing a.toNat (r.consume r.chunkBits) s)).map (·.2) = some u) :
    actOnChunk q a t r o (ringDepth s.me q.toNat) (.ok els) s = .ok ((), u) := by
  obtain ⟨⟨_, v⟩, hends, rfl⟩ := Option.map_eq_some_iff.1 hpush
  refine (Act.bind_ok (Act.view_run _ _)).trans ((Act.bind_ok (Act.check_ok (within_stream hstream) _ _ _)).trans ?_)
  rw [if_neg (Nat.not_lt.2 hroom)]
  exact (Act.bind_ok (Act.change_run _ _)).trans (Act.ends_eq.1 hends)

end

/-- Settles O23: bytes and checksums are one X result each, `xtr` turns on its unit, `xexp` on the chunk that it decodes. -/
theorem transformBytesAndTranspose : Obligations.TransformBytesAndTranspose := by
  unfold Obligations.TransformBytesAndTranspose
  refine ⟨fun g d a p t s x old s1 s2 s3 hm ha hd hx => ?xpack, fun g d a p t s x s1 s2 hm ha hx => ?xunpk,
    fun g d a b n1 s x y s1 s2 s3 hm ha hb hx => ?xcrc,
    fun g d a t s rows hm hfree hsibling hrows => ?xtr,
    fun g d a t s hm hbusy => xtr_occupied hm hbusy,
    fun g q a dbp t chk s r o hm hr ho hheader hwhole hfits hroom hstream => ?xexp⟩
  case xpack => exact issue_next hm ((readRaw_then ha _).trans ((readRaw_then hd _).trans (xres_ok hx)))
  case xunpk => exact issue_next hm ((readRaw_then ha _).trans (xres_ok hx))
  case xcrc => exact issue_next hm ((readRaw_then ha _).trans ((readRaw_then hb _).trans (xres_ok hx)))
  case xtr => exact xtr_transposes hm hfree hsibling hrows
  case xexp =>
    have hreach := xexp_reaches_chunk hm hr ho hheader hwhole hfits hroom hstream
    split
    next c hfails =>
      rw [show r.chunk dbp t chk = .error c from hfails] at hreach
      exact hreach.trans (issue_stop (e := .trap c a.toNat) hm rfl)
    next els hpasses =>
      rw [show r.chunk dbp t chk = .ok els from hpasses] at hreach
      exact fun hends hfree u hpush => hreach.trans (issue_next hm (actOnChunk_pushes hends hfree hpush))

end Sys2Proof.Machine
end

section
/-! The events of transfers and job cards (O46): reading and sending a beat, resolving a `cget` box, landing, ends, and the engine of cards. -/

namespace Sys2Proof.Machine

/-! ### Reading and sending (R217, R232, R238, R268) -/

/-- When the sender's side reads for an entry: it is an outstanding transfer with beats left, without fault or save, and no earlier transfer
of its channel holds it back (R197). -/
structure State.mayRead (s : State) (loc k : Nat) (e : Ifr) : Prop where
  found : (s.seqAt loc).ifr.find k = some e
  kind : e.kind = 7 ∨ e.kind = 10
  sending : e.state = 1
  sound : e.fault = 0
  left : e.beats < e.total
  unsaved : (s.seqAt loc).save = 0
  first : sendsAfter s loc e (TransferDesc.dest (e.desc.setWidth 512) / 512) (TransferDesc.endpoint (e.desc.setWidth 512)) = false

/-- The source elements of a transfer's next beat. -/
def Ifr.nextElements (e : Ifr) : List Nat :=
  let t : TransferDesc := e.desc.setWidth 512
  let per := 64 / t.es
  (List.range (min per (t.total - per * e.beats))).map (per * e.beats + ·)

/-- The read of a transfer's next beat. -/
def nextBeat (s : State) (loc : Nat) (e : Ifr) : Except (Nat × Nat) (List Byte × State) :=
  let t : TransferDesc := e.desc.setWidth 512
  readPieces s loc e.key.vd t.es (e.nextElements.map (t.source (sourceBase e)))

/-- The sending of a beat that has been read, the first behind the header. -/
def sendBeat (s : State) (loc k : Nat) (e : Ifr) (b : List Byte) : State :=
  let t : TransferDesc := e.desc.setWidth 512
  let u := putEntry s loc k { e with beats := e.beats + 1 }
  let step := if e.kind = 10 then some e.len else none
  let p := transferPacket u loc k e (t.dest / 512) t.endpoint 0 (.header t step e.total)
  emit (if e.beats = 0 then emit u p else u) { p with kind := .beat t step e.beats e.total (padBeat b) }

/-- What a read leads to: its fault fails the transfer, its bytes are sent. -/
def afterRead (s : State) (loc k : Nat) (e : Ifr) : Except (Nat × Nat) (List Byte × State) → State
  | .error (c, i) => failRead s loc k e c i
  | .ok (b, w) => sendBeat w loc k e b

section
variable {loc k : Nat} {s : State} {e : Ifr}

/-- The read of an outstanding transfer's next beat decides what the sender's side does. -/
theorem sourceRead_eq (h : s.mayRead loc k e) : sourceRead loc k s = afterRead s loc k e (nextBeat s loc e) := by
  have hgo : ¬((!decide (e.kind = 7 ∨ e.kind = 10)) = true ∨ e.state ≠ 1 ∨ e.fault ≠ 0 ∨ e.total ≤ e.beats ∨ (s.seqAt loc).save ≠ 0) := by
    simp [h.kind, h.sending, h.sound, h.unsaved, h.left]
  unfold sourceRead
  rw [h.found]
  refine (if_neg hgo).trans ((if_neg (ne_true_of_eq_false h.first)).trans ?_)
  show (match nextBeat s loc e with | .error (c, i) => _ | .ok (b, w) => _) = _
  cases nextBeat s loc e <;> rfl

/-- A shipment's boundary layers are copied before its beat is read. -/
theorem transferSourceRead_reads {e0 : Ifr} (h : (s.seqAt loc).ifr.find k = some e0) :
    exec (.transferSourceRead loc k) s =
      .next (sourceRead loc k (if e0.kind = 10 then finishCommit loc (e0.target % 4) s else s)) := by
  show execTransferSourceRead loc k s = _
  unfold execTransferSourceRead
  rw [h]

end

/-! ### At the receiver (R197, R217, R222, R238, R357) -/

section
variable {pk : Nat} {s : State} {p : Packet} {d : TransferDesc} {step : Option Nat} {no total : Nat} {bytes : List Byte}

/-- A packet that may be served at its place passes the tests of a source endpoint. -/
theorem source_open (h : s.atHome pk p) : ¬((!p.accepted) = true ∨ p.dst ≠ s.module ∨ flowBlocked s p = true) := by
  obtain ⟨-, hacc, hdst, hflow⟩ := h
  simp [hacc, hdst, hflow]

/-- One that no earlier transfer of its channel holds back passes the tests of the landing unit. -/
theorem landing_open (h : s.atHome pk p) (hland : landsAfter s p = false) :
    ¬((!p.accepted) = true ∨ p.dst ≠ s.module ∨ flowBlocked s p = true ∨ landsAfter s p = true) := by
  obtain ⟨-, hacc, hdst, hflow⟩ := h
  simp [hacc, hdst, hflow, hland]

/-- A box whose device may not be reached now goes round again. -/
theorem cgetSourceResolve_closed (h : s.atHome pk p) (hk : p.kind = .ask d) (hclosed : landingOpen s p.ep p.key.vd = false) :
    exec (.cgetSourceResolve pk) s = .next (putPacket s { p with refused := true }) := by
  show execCgetSourceResolve pk s = _
  simp only [execCgetSourceResolve, h.1, hk, if_neg (source_open h), hclosed, Bool.not_false, if_true, refusePacket]

/-- The fault of the read goes back. -/
theorem cgetSourceResolve_fails {c i : Nat} (h : s.atHome pk p) (hk : p.kind = .ask d) (hopen : landingOpen s p.ep p.key.vd = true)
    (hread : readElements s p.ep p.key.vd d (pinSet s p.ep p.key.vd d.tname) (List.range d.total) = .error (c, i)) :
    exec (.cgetSourceResolve pk) s = .next (answer s p (.refuse c i)) := by
  show execCgetSourceResolve pk s = _
  simp only [execCgetSourceResolve, h.1, hk, if_neg (source_open h), hopen, Bool.not_true, Bool.false_eq_true, if_false, hread]

/-- The box that is read goes to the core of the issuer. -/
theorem cgetSourceResolve_sends {b : List Byte} {u : State} (h : s.atHome pk p) (hk : p.kind = .ask d)
    (hopen : landingOpen s p.ep p.key.vd = true)
    (hread : readElements s p.ep p.key.vd d (pinSet s p.ep p.key.vd d.tname) (List.range d.total) = .ok (b, u)) :
    exec (.cgetSourceResolve pk) s = .next (emitTransfer (dropPacket u pk)
      { p with
        dst := p.src, ep := coreOf p.loc, off := 0, refused := false
        accepted := p.src == u.module && dieOf p.loc == epDie p.ep } d b) := by
  show execCgetSourceResolve pk s = _
  simp only [execCgetSourceResolve, h.1, hk, if_neg (source_open h), hopen, Bool.not_true, Bool.false_eq_true, if_false, hread]

theorem landingBeat_header_closed (h : s.atHome pk p) (hk : p.kind = .header d step total) (hland : landsAfter s p = false)
    (hclosed : landingOpen s p.ep p.key.vd = false) : exec (.landingBeat pk) s = .next (putPacket s { p with refused := true }) := by
  show execLandingBeat pk s = _
  simp only [execLandingBeat, h.1, hk, if_neg (landing_open h hland), hclosed, Bool.not_false, if_true, refusePacket]

theorem landingBeat_header (h : s.atHome pk p) (hk : p.kind = .header d step total) (hland : landsAfter s p = false)
    (hopen : landingOpen s p.ep p.key.vd = true) : exec (.landingBeat pk) s = .next (dropPacket s pk) := by
  show execLandingBeat pk s = _
  simp only [execLandingBeat, h.1, hk, if_neg (landing_open h hland), hopen, Bool.not_true, Bool.false_eq_true, if_false]

/-- A turn for a beat that has landed writes the copies that fan has left. -/
theorem landingBeat_copies {ep : Nat} {a : Arrival} (hp : s.packet pk = none) (hc : copiesOf s pk = some (ep, a)) :
    exec (.landingBeat pk) s = .next (endDone (flushCopies s ep a) (epDie ep)) := by
  show execLandingBeat pk s = _
  simp only [execLandingBeat, hp, hc]

theorem landingBeat_closed (h : s.atHome pk p) (hk : p.kind = .beat d step no total bytes) (hland : landsAfter s p = false)
    (hclosed : landingOpen s p.ep p.key.vd = false) : exec (.landingBeat pk) s = .next (putPacket s { p with refused := true }) := by
  show execLandingBeat pk s = _
  simp only [execLandingBeat, h.1, hk, if_neg (landing_open h hland), hclosed, Bool.not_false, if_true, refusePacket]

theorem landingBeat_later {r : Record} (h : s.atHome pk p) (hk : p.kind = .beat d step no total bytes) (hland : landsAfter s p = false)
    (hopen : landingOpen s p.ep p.key.vd = true) (hrec : recordOf s p.ep p.key p.off = some r) :
    exec (.landingBeat pk) s = .next (laterBeat s p no bytes r) := by
  show execLandingBeat pk s = _
  simp only [execLandingBeat, h.1, hk, if_neg (landing_open h hland), hopen, Bool.not_true, Bool.false_eq_true, if_false, hrec]

theorem landingBeat_first (h : s.atHome pk p) (hk : p.kind = .beat d step no total bytes) (hland : landsAfter s p = false)
    (hopen : landingOpen s p.ep p.key.vd = true) (hrec : recordOf s p.ep p.key p.off = none) :
    exec (.landingBeat pk) s = .next (firstBeat s p d step total bytes) := by
  show execLandingBeat pk s = _
  simp only [execLandingBeat, h.1, hk, if_neg (landing_open h hland), hopen, Bool.not_true, Bool.false_eq_true, if_false, hrec]

/-- A beat waits until the earlier transfers of its channel have been taken whole (R197). -/
theorem landingBeat_waits (hp : s.packet pk = some p) (hk : p.kind = .beat d step no total bytes) (hland : landsAfter s p = true) :
    exec (.landingBeat pk) s = .next s := by
  show execLandingBeat pk s = _
  simp only [execLandingBeat, hp, hk, hland, or_true, if_true]

end

/-! ### Ends of transfers (R231, R232) -/

@[simp] theorem engineWrites_dropPacket (s : State) (pk loc : Nat) : engineWrites (dropPacket s pk) loc = engineWrites s loc := rfl

section
variable {loc k : Nat} {s : State} {e : Ifr} {p : Packet} (h : (s.seqAt loc).ifr.find k = some e) (hkind : ¬(e.kind < 7 ∨ 10 < e.kind))
  (hsave : engineWrites s loc = false)
include h hkind hsave

/-- A transfer that has ended frees its entry. -/
theorem transferComplete_ended (hstate : e.state = 3 ∨ e.state = 4) :
    exec (.transferComplete loc k) s = .next (endTransfer s loc k e e.code e.info) := by
  show execTransferComplete loc k s = _
  simp only [execTransferComplete, h, if_neg hkind, hsave, Bool.false_eq_true, false_and, if_false, if_pos hstate]

variable (hstate : ¬(e.state = 3 ∨ e.state = 4)) (hp : s.answerFor loc k = some p)
include hstate hp

/-- An answer of another key than its entry's is discarded. -/
theorem transferComplete_other (hkey : p.key ≠ e.key) : exec (.transferComplete loc k) s = .next (dropPacket s p.id) := by
  show execTransferComplete loc k s = _
  simp only [execTransferComplete, h, if_neg hkind, if_neg hstate, hsave, Bool.false_eq_true, false_and, if_false,
    show s.net.find? _ = some p from hp, if_pos (Or.inl hkey)]

/-- A card counts the end of one of its transfers, and keeps the code that it has. -/
theorem transferComplete_counts {x y : Nat} (hkey : p.key = e.key) (hk : e.kind = 9) (hr : p.kind = .reply x y) :
    exec (.transferComplete loc k) s = .next
      (putEntry (dropPacket s p.id) loc k { e with left := e.left - 1, info := if e.code = 0 then 0 else e.info }) := by
  show execTransferComplete loc k s = _
  have hcode : (if e.code = 0 then 0 else e.code) = e.code := ite_eq_right_iff.2 Eq.symm
  simp only [execTransferComplete, h, if_neg hkind, if_neg hstate, hsave, engineWrites_dropPacket, Bool.false_eq_true, false_and, or_false,
    if_false, show s.net.find? _ = some p from hp, if_neg (not_not.2 hkey), hr, if_pos hk, hcode]

/-- The end of any other transfer frees its entry. -/
theorem transferComplete_answered {x y : Nat} (hkey : p.key = e.key) (hk : e.kind ≠ 9) (hr : p.kind = .reply x y) :
    exec (.transferComplete loc k) s = .next
      (endTransfer (dropPacket s p.id) loc k { e with desc := (e.desc.setWidth 512).setWidth 1024 } 0 0) := by
  show execTransferComplete loc k s = _
  simp only [execTransferComplete, h, if_neg hkind, if_neg hstate, hsave, engineWrites_dropPacket, Bool.false_eq_true, false_and, or_false,
    if_false, show s.net.find? _ = some p from hp, if_neg (not_not.2 hkey), hr, if_neg hk, if_true]
  rfl

end

/-! ### Job cards (R233 to R235) -/

/-- Whether the regions of a card keep the rules of R234: each in one window, and no range that it writes on one that it reads. -/
def regionsFit (s : State) (x : Card) : Prop :=
  (∀ j ∈ JobCard.used x.bits, JobCard.regionInside s x.loc x.bits j = true) ∧ selfMeets s x = false

/-- A card's regions fit exactly where its start does not fail. -/
theorem regionsFit_iff (s : State) (x : Card) :
    regionsFit s x ↔ ¬((!(JobCard.used x.bits).all (JobCard.regionInside s x.loc x.bits) || selfMeets s x) = true) := by
  simp [regionsFit]

/-- A card on its die with its entry, no fault, and no save of its sequencer. -/
structure State.holdsCard (s : State) (d card : Nat) (x : Card) (e : Ifr) : Prop where
  found : (s.dieAt d).cards.find? (fun y => y.no == card) = some x
  entry : cardEntry s x = some e
  sound : e.fault = 0
  unsaved : (s.seqAt x.loc).save = 0

section
variable {d card : Nat} {s : State} {x : Card} {e : Ifr}

section
variable (h : s.holdsCard d card x e) (hwaits : x.started = false)
  (hmeets : ∀ y ∈ (s.dieAt d).cards.takeWhile (fun y => y.no != card), cardsMeet s y x = false)
  (hsends : ∀ r ∈ receiversOf s x.loc e, sendsAfter s x.loc e r.1 r.2.1 = false)
include h hwaits hmeets hsends

/-- A card that no earlier one meets, and whose receivers wait for no earlier transfer, is not held back. -/
theorem card_starts :
    ¬((x.started || e.fault != 0 || (s.seqAt x.loc).save != 0 ||
        ((s.dieAt d).cards.takeWhile (fun y => y.no != card)).any (fun y => cardsMeet s y x)) = true) ∧
      ¬((receiversOf s x.loc e).any (fun r => sendsAfter s x.loc e r.1 r.2.1) = true) := by
  have hmeet : ((s.dieAt d).cards.takeWhile (fun y => y.no != card)).any (fun y => cardsMeet s y x) = false :=
    List.any_eq_false.2 fun y hy => ne_true_of_eq_false (hmeets y hy)
  have hsend : (receiversOf s x.loc e).any (fun r => sendsAfter s x.loc e r.1 r.2.1) = false :=
    List.any_eq_false.2 fun r hr => ne_true_of_eq_false (hsends r hr)
  rw [hwaits, h.sound, h.unsaved, hmeet, hsend]
  decide

theorem jobCardStart_breaks (hfits : ¬regionsFit s x) : exec (.jobCardStart d card) s =
    .next (putEntry (putCard s d { x with started := true }) x.loc x.entry { e with code := 0x11 }) := by
  show execJobCardStart d card s = _
  obtain ⟨hgo, hfirst⟩ := card_starts h hwaits hmeets hsends
  rw [regionsFit_iff, not_not] at hfits
  simp only [execJobCardStart, h.found, h.entry, if_neg hgo, if_neg hfirst, if_pos hfits]

theorem jobCardStart_starts (hfits : regionsFit s x) (hk : JobCard.kind x.bits ≠ 3) :
    exec (.jobCardStart d card) s = .next (putCard s d { x with started := true }) := by
  show execJobCardStart d card s = _
  obtain ⟨hgo, hfirst⟩ := card_starts h hwaits hmeets hsends
  simp only [execJobCardStart, h.found, h.entry, if_neg hgo, if_neg hfirst, if_neg ((regionsFit_iff s x).1 hfits), if_pos hk]

/-- A collective whose ranges can be read sends its transfers. -/
theorem jobCardStart_sends (hfits : regionsFit s x) (hk : JobCard.kind x.bits = 3)
    (hread : collectiveFault s x.loc e.key.vd x.bits = none) {e' : Ifr}
    (he' : e' = { e with left := JobCard.nw x.bits, total := JobCard.nw x.bits }) :
    exec (.jobCardStart d card) s = .next (sendCollective x.loc x.entry e' x.bits (List.range (JobCard.nw x.bits))
      (putEntry (putCard s d { x with started := true }) x.loc x.entry e')) := by
  show execJobCardStart d card s = _
  obtain ⟨hgo, hfirst⟩ := card_starts h hwaits hmeets hsends
  subst he'
  simp only [execJobCardStart, h.found, h.entry, if_neg hgo, if_neg hfirst, if_neg ((regionsFit_iff s x).1 hfits),
    if_neg (not_not.2 hk), hread]

end

section
variable (h : s.holdsCard d card x e) (hstarted : x.started = true)
include h hstarted

/-- The engine of a started card is done where no transfer of a collective is outstanding. -/
theorem card_finishes (hends : JobCard.kind x.bits = 3 → e.left = 0) :
    ¬((!x.started || e.fault != 0 || (s.seqAt x.loc).save != 0 || (JobCard.kind x.bits == 3 && e.left != 0)) = true) := by
  have hleft : (JobCard.kind x.bits == 3 && e.left != 0) = false := by simpa using hends
  rw [hstarted, h.sound, h.unsaved, hleft]
  decide

/-- A card that has failed, or a collective whose transfers have all ended, writes its status. -/
theorem jobCardComplete_closes (hends : JobCard.kind x.bits = 3 → e.left = 0) (hdone : e.code ≠ 0 ∨ JobCard.kind x.bits = 3) :
    exec (.jobCardComplete d card) s = .next (closeCard s d x e e.code e.info) := by
  show execJobCardComplete d card s = _
  simp only [execJobCardComplete, h.found, h.entry, if_neg (card_finishes h hstarted hends), if_pos hdone]

variable {l : List (Nat × Nat × Nat)} {late : Nat} {u t : State} (hcode : e.code = 0) (hk : JobCard.kind x.bits ≠ 3)
  (hrows : cardCopies s x.loc e.key.vd x.bits = .ok (l, late, u))
include hcode hk hrows

theorem jobCardComplete_copied (hcopy : copyAll x.loc e.key 0 l u = (t, .done)) :
    exec (.jobCardComplete d card) s = .next (closeCard t d x e late 0) := by
  show execJobCardComplete d card s = _
  simp only [execJobCardComplete, h.found, h.entry, if_neg (card_finishes h hstarted (absurd · hk)),
    if_neg (not_or.2 ⟨not_not.2 hcode, hk⟩), hrows, hcopy]

/-- A card that a full window refuses keeps what it has copied and goes on later. -/
theorem jobCardComplete_refused (hcopy : copyAll x.loc e.key 0 l u = (t, .full)) :
    exec (.jobCardComplete d card) s = .next t := by
  show execJobCardComplete d card s = _
  simp only [execJobCardComplete, h.found, h.entry, if_neg (card_finishes h hstarted (absurd · hk)),
    if_neg (not_or.2 ⟨not_not.2 hcode, hk⟩), hrows, hcopy]

end

end

/-- Settles O46: what the sender's side, a source endpoint, the landing unit and the engine of cards do, each where its cause is there. -/
theorem transfersAndCardsProgress : Obligations.TransfersAndCardsProgress := by
  unfold Obligations.TransfersAndCardsProgress
  refine ⟨?read, fun pk s p d h hk => ⟨cgetSourceResolve_closed h hk, fun hopen => ⟨fun c i => cgetSourceResolve_fails h hk hopen,
      fun b u => cgetSourceResolve_sends h hk hopen⟩⟩,
    fun pk s p d step total h hk hland => ⟨landingBeat_header_closed h hk hland, landingBeat_header h hk hland⟩,
    fun pk s ep a => landingBeat_copies,
    fun pk s p d step no total bytes h hk hland => ⟨landingBeat_closed h hk hland, fun r => landingBeat_later h hk hland,
      landingBeat_first h hk hland⟩,
    fun pk s p d step no total bytes => landingBeat_waits, ?ends, ?start, ?finish⟩
  case read =>
    intro loc k s e0 he0 v e he hk hstate hfault hleft hsave t hfirst per js src
    have hread := (transferSourceRead_reads he0).trans (congrArg _ (sourceRead_eq ⟨he, hk, hstate, hfault, hleft, hsave, hfirst⟩))
    refine ⟨fun c i hsrc => ?_, fun b w hsrc => ?_⟩
    · rw [show nextBeat v loc e = .error (c, i) from hsrc] at hread
      exact hread
    · rw [show nextBeat v loc e = .ok (b, w) from hsrc] at hread
      exact hread
  case ends =>
    intro loc k s e he hlo hhi hsave
    have hkind : ¬(e.kind < 7 ∨ 10 < e.kind) := by omega
    refine ⟨transferComplete_ended he hkind hsave, fun p h3 h4 hp => ?_⟩
    have hstate := not_or.2 ⟨h3, h4⟩
    exact ⟨transferComplete_other he hkind hsave hstate hp, fun x y => transferComplete_counts he hkind hsave hstate hp,
      fun x y => transferComplete_answered he hkind hsave hstate hp⟩
  case start =>
    intro d card s x e cards c started hx he hwaits hfault hsave hmeets hsends fits
    have h : s.holdsCard d card x e := ⟨hx, he, hfault, hsave⟩
    exact ⟨jobCardStart_breaks h hwaits hmeets hsends, jobCardStart_starts h hwaits hmeets hsends,
      fun hfits hk hread => jobCardStart_sends h hwaits hmeets hsends hfits hk hread rfl⟩
  case finish =>
    intro d card s x e c hx he hstarted hfault hsave
    have h : s.holdsCard d card x e := ⟨hx, he, hfault, hsave⟩
    exact ⟨fun hcode hends => jobCardComplete_closes h hstarted hends (.inl hcode),
      fun hk hends => jobCardComplete_closes h hstarted (fun _ => hends) (.inr hk),
      fun l u t hcode hk hrows => ⟨jobCardComplete_copied h hstarted hcode hk hrows, jobCardComplete_refused h hstarted hcode hk hrows⟩⟩

end Sys2Proof.Machine
end

section
/-! Routing counters, sync words and fences (O30). -/

namespace Sys2Proof.Machine

/-! ### `rcnt` and `asnap` (R254, R255) -/

theorem readIds_own {i : BitVec 10} {s : State} {y : Word} (hy : s.opnd (.own i) = some y) :
    readIds (.own i) s = .ok (bitsAt y.toNat 0 32 :: bitsAt y.toNat 32 32 :: List.replicate 14 padLane, s) :=
  Act.bind_ok (State.opnd_ok hy)

/-- The padding that fills up the two ids of a register counts nothing. -/
theorem ids_of_word (y : Word) :
    (bitsAt y.toNat 0 32 :: bitsAt y.toNat 32 32 :: List.replicate 14 padLane).filter (· != padLane) =
      ([y.extractLsb' 0 32, y.extractLsb' 32 32].map BitVec.toNat).filter (· != 2 ^ 32 - 1) := by
  have hpad : (List.replicate 14 padLane).filter (· != padLane) = [] := rfl
  rw [bitsAt_extract, bitsAt_extract]
  exact (List.filter_append [_, _] (List.replicate 14 padLane)).trans ((congrArg _ hpad).trans (List.append_nil _))

theorem readIds_lanes {b : Opnd} {s s1 : State} {v : Vec} (hb : ∀ i, b ≠ .own i) (hv : s.raw b = some (v, s1)) :
    readIds b s = .ok ((List.range 16).map (fun j => (laneB 32 v j).toNat), s1) := by
  simp only [← laneB_eq]
  cases b with
  | own i => exact absurd rfl (hb i)
  | _ => exact Act.bind_ok (Act.ends_eq.1 hv)

section
variable {g : Guard} {a b : Opnd} {s s1 : State} {x : Word} {lanes ids : List Nat} (hm : mayIssue (.rcnt g a b) g s = true)
  (hx : s.opnd a = some x) (hread : readIds b s = .ok (lanes, s1)) (hids : lanes.filter (· != padLane) = ids)
include hm hx hread hids

theorem rcnt_counts (h : ∀ j ∈ ids, x.toNat + j < 1024) :
    exec (.rcnt g a b) s = .next (advance (s1.counted (ids.map (x.toNat + ·)))) := by
  have hin : ids.all (fun j => decide (x.toNat + j < 1024)) = true := List.all_eq_true.2 fun j hj => decide_eq_true (h j hj)
  refine issue_next hm ?_
  rw [Act.bind_ok (State.opnd_ok hx), Act.bind_ok hread, hids, Act.bind_ok (Act.check_ok hin _ _ _), Act.change_run, State.counted,
    List.foldl_map]

theorem rcnt_tooFar (h : ∃ j ∈ ids, 1024 ≤ x.toNat + j) : exec (.rcnt g a b) s = .next (trapHere s 0x11 0) := by
  obtain ⟨j, hj, hfar⟩ := h
  have hout : ids.all (fun j => decide (x.toNat + j < 1024)) = false :=
    List.all_eq_false.2 ⟨j, hj, by simpa using hfar⟩
  refine issue_stop (e := .trap 0x11 0) hm ?_
  rw [Act.bind_ok (State.opnd_ok hx), Act.bind_ok hread, hids]
  exact Act.bind_error (Act.check_stop hout _ _ _)

end

/-- The banks of the slice window do not bound a write to the local store (R320). -/
theorem canWrite_local (s : State) {a n : Nat} (h : a + n ≤ Config.localBytes) (mask : Nat) : s.canWrite a n mask = true := by
  refine List.all_eq_true.2 fun p hp => ?_
  obtain ⟨j, hj, rfl⟩ := List.mem_map.1 hp
  have hj : j < n := List.mem_range.1 (List.mem_filter.1 hj).1
  have hlocal : a + j < 0x600000 := Nat.lt_of_lt_of_le (Nat.add_lt_add_left hj a) h
  rw [decide_eq_true hlocal, Bool.true_or]

theorem asnap_snaps {g : Guard} {wd : BitVec 5} {a b : Opnd} {cls : BitVec 4} {s : State} {x n : Word}
    (hm : mayIssue (.asnap g wd a b cls) g s = true) (hx : s.opnd a = some x) (hn : s.opnd b = some n) (halign : x.toNat % 64 = 0)
    (hlocal : x.toNat + 64 ≤ Config.localBytes) (hrow : n.toNat < 64) {p : Nat} (hp : p = partOf s.cur.loc) {vs : List Nat}
    (hvs : vs = (List.range 16).map (fun j => (s.quadAt p).ctr.look 0 (16 * n.toNat + j))) :
    exec (.asnap g wd a b cls) s = .next (advance
      (((s.setQuad p { s.quadAt p with ctr := (s.quadAt p).ctr.clear (16 * n.toNat) 16 }).near x.toNat (toBytes 64 (ofLanes 32 vs))
        allBytes).send ⟨.w, wd.toNat⟩ (latency s.me 11) (BitVec.ofNat 512 vs.sum) allBytes 0)) := by
  have hplace : (decide (x.toNat % 64 = 0) && decide (x.toNat + 64 ≤ Config.localBytes)) = true := by
    rw [decide_eq_true halign, decide_eq_true hlocal, Bool.and_self]
  subst hp hvs
  refine issue_next hm ?_
  rw [Act.bind_ok (State.opnd_ok hx), Act.bind_ok (State.opnd_ok hn), Act.bind_ok (Act.check_ok hplace _ _ _),
    Act.bind_ok (Act.check_ok (decide_eq_true hrow) _ _ _), Act.bind_ok (Act.view_run _ s), Act.bind_ok (Act.change_run _ s),
    Act.bind_ok (writeNear_ok (toBytes_length _ _) (canWrite_local _ hlocal _))]
  exact writeReg_run _ _ _ _

/-! ### `sarm`, `swait` and `fence` (R245, R257, R258) -/

theorem syncOperand_stop {a : BitVec 5} {s : State} {x : Vec} (hx : s.regIn ⟨.y, a.toNat⟩ = some x)
    (h : bitsAt x.toNat 0 52 % 16 ≠ 0 ∨ 2 ^ 20 ≤ bitsAt x.toNat 0 52) :
    syncOperand a.toNat s = .error (.trap 0x11 (bitsAt x.toNat 0 52)) := by
  unfold syncOperand
  rw [Act.bind_ok (readNat_ok hx)]
  refine Act.bind_error (Act.check_stop ?_ _ _ _)
  rw [Bool.and_eq_false_iff, beq_eq_false_iff_ne, decide_eq_false_iff_not, Nat.not_lt]
  exact h

/-- The sync word at an address of the issuer's local store (R245). -/
def State.syncAt (s : State) (p : Nat) : Nat := syncWord s (dieOf s.cur.loc) (coreOf s.cur.loc % 32 * 65536 + p / 16)

/-- How far the generation of that word stands past a number, modulo 2 to the 32. -/
def State.syncAhead (s : State) (p n : Nat) : Nat := (bitsAt (s.syncAt p) 64 32 + 2 ^ 32 - n % 2 ^ 32) % 2 ^ 32

/-- Whether that generation has passed the number (R245). -/
def State.syncPassed (s : State) (p n : Nat) : Bool := s.syncAhead p n != 0 && decide (s.syncAhead p n < 2 ^ 31)

section
variable {g : Guard} {a b : BitVec 5} {s : State} {x n : Vec}

theorem sarm_arms (hm : mayIssue (.sarm g a b) g s = true) (hx : s.regIn ⟨.y, a.toNat⟩ = some x) (ht : s.regIn ⟨.y, b.toNat⟩ = some n)
    (halign : bitsAt x.toNat 0 52 % 16 = 0) (hlow : bitsAt x.toNat 0 52 < 2 ^ 20) {die w : Nat} {u : State} (hdie : die = dieOf s.cur.loc)
    (hw : w = coreOf s.cur.loc % 32 * 65536 + bitsAt x.toNat 0 52 / 16) (hu : u = discardStaged s die w) :
    exec (.sarm g a b) s = .next (advance (putSync u die w (n.toNat % 2 ^ 32) 0 (bitsAt (syncWord u die w) 64 32) 0)) := by
  subst hdie hw hu
  refine issue_next hm ?_
  rw [Act.bind_ok (syncOperand_ok hx halign hlow), Act.bind_ok (readNat_ok ht)]
  rfl

theorem sarm_refused (hm : mayIssue (.sarm g a b) g s = true) (hx : s.regIn ⟨.y, a.toNat⟩ = some x)
    (h : bitsAt x.toNat 0 52 % 16 ≠ 0 ∨ 2 ^ 20 ≤ bitsAt x.toNat 0 52) :
    exec (.sarm g a b) s = .next (trapHere s 0x11 (bitsAt x.toNat 0 52)) :=
  issue_stop hm (Act.bind_error (syncOperand_stop hx h))

section
variable (hm : mayIssue (.swait g a b) g s = true) (hx : s.regIn ⟨.y, a.toNat⟩ = some x) (hn : s.regIn ⟨.y, b.toNat⟩ = some n)
  (halign : bitsAt x.toNat 0 52 % 16 = 0) (hlow : bitsAt x.toNat 0 52 < 2 ^ 20)
include hm hx hn halign hlow

theorem swait_inError (herr : (s.syncAt (bitsAt x.toNat 0 52)).testBit 100 = true) :
    exec (.swait g a b) s = .next (trapHere s 0x52 (bitsAt x.toNat 0 52)) := by
  have hstop : (!(s.syncAt (bitsAt x.toNat 0 52)).testBit 100) = false := by rw [herr, Bool.not_true]
  refine issue_stop (e := .trap 0x52 (bitsAt x.toNat 0 52)) hm ?_
  rw [Act.bind_ok (syncOperand_ok hx halign hlow), Act.bind_ok (readNat_ok hn), Act.bind_ok (Act.view_run _ s)]
  exact Act.bind_error (Act.check_stop hstop _ _ _)

variable (herr : (s.syncAt (bitsAt x.toNat 0 52)).testBit 100 = false)
include herr

/-- Where the word is in no error, `swait` turns on how far its generation stands ahead. -/
theorem swait_turns : exec (.swait g a b) s = issue (.swait g a b) g (do
    Act.await (fun _ => s.syncPassed (bitsAt x.toNat 0 52) n.toNat)
    writeReg ⟨.y, b.toNat⟩ 1 (BitVec.ofNat 512 ((n.toNat + 1) % 2 ^ 32))) s := by
  have hgo : (!(s.syncAt (bitsAt x.toNat 0 52)).testBit 100) = true := by rw [herr, Bool.not_false]
  refine issue_congr ?_ hm
  rw [Act.bind_ok (syncOperand_ok hx halign hlow), Act.bind_ok (readNat_ok hn), Act.bind_ok (Act.view_run _ s)]
  exact Act.bind_ok (Act.check_ok hgo _ _ _)

theorem swait_passes (hsome : s.syncAhead (bitsAt x.toNat 0 52) n.toNat ≠ 0) (hhalf : s.syncAhead (bitsAt x.toNat 0 52) n.toNat < 2 ^ 31) :
    exec (.swait g a b) s = .next (advance
      (s.send ⟨.y, b.toNat⟩ 1 (BitVec.ofNat 512 ((n.toNat + 1) % 2 ^ 32)) allBytes 0)) := by
  have hpast : s.syncPassed (bitsAt x.toNat 0 52) n.toNat = true := by
    rw [State.syncPassed, bne_iff_ne.2 hsome, decide_eq_true hhalf, Bool.and_self]
  rw [swait_turns hm hx hn halign hlow herr]
  exact issue_next hm ((Act.bind_ok (Act.await_ok hpast)).trans (writeReg_run _ _ _ _))

theorem swait_waits (h : s.syncAhead (bitsAt x.toNat 0 52) n.toNat = 0 ∨ 2 ^ 31 ≤ s.syncAhead (bitsAt x.toNat 0 52) n.toNat) :
    exec (.swait g a b) s = .next (stallHere s) := by
  have hbehind : s.syncPassed (bitsAt x.toNat 0 52) n.toNat = false := by
    rw [State.syncPassed, Bool.and_eq_false_iff, bne_eq_false_iff_eq, decide_eq_false_iff_not, Nat.not_lt]
    exact h
  rw [swait_turns hm hx hn halign hlow herr]
  exact issue_stop hm (Act.bind_error (await_stall hbehind))

end

end

theorem fence_outcome {g : Guard} {scope : ScopeCode} {mask : BitVec 16} {s : State} (hm : mayIssue (.fence g scope mask) g s = true) :
    exec (.fence g scope mask) s = .next
      (if fenceWaits s s.cur.loc .Y (s.scope scope.toNat) mask.toNat then stallHere s else advance s) := by
  by_cases hw : fenceWaits s s.cur.loc .Y (s.scope scope.toNat) mask.toNat = true
  · rw [if_pos hw]
    refine issue_stop (e := .stall) hm ?_
    rw [Act.bind_ok (Act.view_run _ s)]
    exact await_stall (by rw [hw]; rfl)
  · rw [if_neg hw]
    refine issue_next hm ?_
    rw [Act.bind_ok (Act.view_run _ s)]
    exact Act.await_ok (by rw [Bool.eq_false_iff.2 hw]; rfl)

/-- Settles O30: `rcnt` by the ids of its source, `asnap` at its local-store block, `sarm` and `swait` at a sync word, `fence` by what is
under way. -/
theorem countersSyncWordsAndFences : Obligations.CountersSyncWordsAndFences := by
  unfold Obligations.CountersSyncWordsAndFences
  refine ⟨?own, ?lanes, ?snap, ?arm, ?wait, fun g scope mask s => fence_outcome⟩
  case own =>
    intro g a i s x y hm hx hy ids
    exact ⟨rcnt_counts hm hx (readIds_own hy) (ids_of_word y), rcnt_tooFar hm hx (readIds_own hy) (ids_of_word y)⟩
  case lanes =>
    intro g a b s x v s1 hm hx hb hv ids
    exact ⟨rcnt_counts hm hx (readIds_lanes hb hv) rfl, rcnt_tooFar hm hx (readIds_lanes hb hv) rfl⟩
  case snap =>
    intro g wd a b cls s x n hm hx hn halign hlocal hrow p vs
    exact asnap_snaps hm hx hn halign hlocal hrow rfl rfl
  case arm =>
    intro g a b s x t hm hx ht p
    exact ⟨fun halign hlow => sarm_arms hm hx ht halign hlow rfl rfl rfl, sarm_refused hm hx⟩
  case wait =>
    intro g a y s x n hm hx hn p word ahead halign hlow
    exact ⟨swait_inError hm hx hn halign hlow, fun herr => swait_passes hm hx hn halign hlow herr,
      fun herr => swait_waits hm hx hn halign hlow herr⟩

end Sys2Proof.Machine
end

section
/-! Transfers, job cards and horizons on the issuer's side (O34). -/

namespace Sys2Proof.Machine

theorem transferAt_ok {s : State} {a : Nat} {t : TransferDesc} (h : s.transferAt a = some t) : readTransfer a s = .ok (t, s) :=
  (readTransfer_pure a).ok h

theorem localNat_ok {s : State} {a n v : Nat} (h : s.localNat a n = some v) : readLocal a n s = .ok (v, s) := (readLocal_pure a n).ok h

/-! ### `cput` and `cget` (R237, R238) -/

section
variable {g : Guard} {ch : BitVec 3} {d e x : BitVec 5} {s : State} {src a : Vec} {t : TransferDesc} {k : Nat}

theorem cput_starts (hm : mayIssue (.cput g ch d e x) g s = true) (hsrc : s.regIn ⟨.e, x.toNat⟩ = some src)
    (ha : s.regIn ⟨.e, e.toNat⟩ = some a) (ht : s.transferAt a.toNat = some t) (hsize : t.bytes ≤ 2 ^ 24)
    (hwalk : t.walkInside src.toNat = true) (hreach : t.reachable (s.vdAt s.myVd) = true) (hk : s.freeEntry = some k) :
    exec (.cput g ch d e x) s = .next (advance ((perf (s.startsTransfer k ch.toNat { Ifr.blank with
      kind := 7, scope := s.scope 0, target := src.toNat, sync := t.syncField, len := a.toNat, desc := t.setWidth 1024
      total := t.beatCount }) s.cur.loc 5 1).wrote (.cput g ch d e x) (s.nextOn ch.toNat))) := by
  refine issue_next hm ?_
  rw [Act.bind_ok (readNat_ok hsrc), Act.bind_ok (readNat_ok ha), Act.bind_ok (transferAt_ok ht),
    Act.bind_ok (Act.check_ok (decide_eq_true hsize) _ _ _), Act.bind_ok (Act.check_ok hwalk _ _ _), Act.bind_ok (Act.view_run _ s)]
  refine (Act.bind_ok (Act.check_ok hreach _ _ _)).trans ?_
  rw [Act.bind_ok (freeEntry_ok hk), Act.bind_ok (Act.change_run _ s)]
  exact deliverNat_run _ _ _

/-- A `cget` walks no source of its own, and counts at a sync word of the issuer's core only (R238). -/
theorem cget_fields (hstride : ∀ i < 4, t.stride i = 0) (hsync : t.swv = true → t.sync / 65536 = coreOf s.cur.loc % 32) :
    ((List.range 4).all (fun i => t.stride i == 0) && !(t.swv && t.sync / 65536 != coreOf s.cur.loc % 32)) = true := by
  have hwalk : (List.range 4).all (fun i => t.stride i == 0) = true :=
    List.all_eq_true.2 fun i hi => beq_iff_eq.2 (hstride i (List.mem_range.1 hi))
  have hcore : (t.swv && t.sync / 65536 != coreOf s.cur.loc % 32) = false := by
    rw [Bool.and_eq_false_imp]
    exact fun h => bne_eq_false_iff_eq.2 (hsync h)
  rw [hwalk, hcore, Bool.not_false, Bool.and_true]

theorem cget_asks (hm : mayIssue (.cget g ch d e) g s = true) (ha : s.regIn ⟨.e, e.toNat⟩ = some a)
    (ht : s.transferAt a.toNat = some t) (hstride : ∀ i < 4, t.stride i = 0)
    (hsync : t.swv = true → t.sync / 65536 = coreOf s.cur.loc % 32) (hsize : t.bytes ≤ 2 ^ 24)
    (hreach : t.reachable (s.vdAt s.myVd) = true) (hk : s.freeEntry = some k) {u : State}
    (hu : u = s.startsTransfer k ch.toNat { Ifr.blank with
      kind := 8, scope := s.scope 0, sync := t.syncField, len := a.toNat, desc := t.setWidth 1024, total := t.beatCount }) :
    exec (.cget g ch d e) s = .next (advance ((perf (emit u (transferPacket u s.cur.loc k ((u.me.ifr.find k).getD Ifr.blank)
      (t.dest / 512) t.endpoint 0 (.ask t))) s.cur.loc 5 1).wrote (.cget g ch d e) (s.nextOn ch.toNat))) := by
  subst hu
  refine issue_next hm ?_
  rw [Act.bind_ok (readNat_ok ha), Act.bind_ok (transferAt_ok ht), Act.bind_ok (Act.view_run _ s)]
  refine (Act.bind_ok (Act.check_ok (cget_fields hstride hsync) _ _ _)).trans ?_
  rw [Act.bind_ok (Act.check_ok (decide_eq_true hsize) _ _ _)]
  refine (Act.bind_ok (Act.check_ok hreach _ _ _)).trans ?_
  rw [Act.bind_ok (freeEntry_ok hk), Act.bind_ok (Act.change_run _ s)]
  exact deliverNat_run _ _ _

end

/-! ### `ccard` (R234, R239) -/

/-- Whether each box that a collective names passes its own checks, has the length of its range, and may be sent to (R234, R238, R318). -/
def State.boxesOk (s : State) (c : JobCard) : Prop :=
  ∀ j < c.nw, ∀ t, boxDesc s s.cur.loc c (4 + j) = some t →
    t.fieldsOk = true ∧ t.bytes = c.len j ∧ t.reachable (s.vdAt s.myVd) = true

theorem checkBoxes_ok {s : State} {c : JobCard} (h : s.boxesOk c) : checkBoxes c s = .ok ((), s) := by
  have hbox : ∀ b ∈ (List.range c.nw).filterMap (fun j => (boxDesc s s.cur.loc c (4 + j)).map (fun t => (j, t))),
      b.2.fieldsOk = true ∧ b.2.bytes = c.len b.1 ∧ b.2.reachable (s.vdAt s.myVd) = true := by
    intro b hb
    obtain ⟨j, hj, hb⟩ := List.mem_filterMap.1 hb
    obtain ⟨t, ht, rfl⟩ := Option.map_eq_some_iff.1 hb
    exact h j (List.mem_range.1 hj) t ht
  unfold checkBoxes
  rw [Act.bind_ok (Act.view_run _ s)]
  refine (Act.bind_ok (Act.check_ok (List.all_eq_true.2 fun b hb => ?_) _ _ _)).trans
    (Act.check_ok (List.all_eq_true.2 fun b hb => ?_) _ _ _)
  · obtain ⟨hfields, hlen, -⟩ := hbox b hb
    rw [hfields, hlen, beq_self_eq_true, Bool.and_self]
  · obtain ⟨-, -, hreach⟩ := hbox b hb
    exact hreach

/-- Only the boxes of a collective are checked at issue (R234). -/
theorem checkBoxes_then {s : State} {c : JobCard} (h : c.kind = 3 → s.boxesOk c) (rest : Unit → Act Unit) :
    (if c.kind = 3 then checkBoxes c >>= rest else rest () : Act Unit) s = rest () s := by
  by_cases hkind : c.kind = 3
  · rw [if_pos hkind]
    exact Act.bind_ok (checkBoxes_ok (h hkind))
  · rw [if_neg hkind]

theorem ccard_joins {g : Guard} {ch : BitVec 3} {d e : BitVec 5} {s : State} {a : Vec} {v k : Nat}
    (hm : mayIssue (.ccard g ch d e) g s = true) (ha : s.regIn ⟨.e, e.toNat⟩ = some a) (halign : a.toNat % 128 = 0)
    (hlocal : a.toNat + 128 ≤ Config.localBytes) (hv : s.localNat a.toNat 128 = some v) {c : JobCard} (hc : c = BitVec.ofNat 1024 v)
    {die : Die} (hdie : die = s.dieAt (dieOf s.cur.loc)) (hfields : c.fieldsOk = true) (hboxes : c.kind = 3 → s.boxesOk c)
    (hk : s.freeEntry = some k)
    (hroom : (die.cards.filter (fun x => partOf x.loc == partOf s.cur.loc && (cardEntry s x).isSome)).length < Config.intakeCards)
    {u : State} (hu : u = s.startsTransfer k ch.toNat { Ifr.blank with kind := 9, scope := s.scope 0, len := a.toNat, desc := c }) :
    exec (.ccard g ch d e) s = .next (advance ((u.setDie (dieOf s.cur.loc) { die with cards := die.cards ++
      [⟨((die.cards.getLast?.map (·.no)).getD 0) + 1, (u.me.ifr.look Ifr.blank k).key, s.cur.loc, k, a.toNat, c, false⟩] }).wrote
        (.ccard g ch d e) (s.nextOn ch.toNat))) := by
  have hplace : (decide (a.toNat % 128 = 0) && decide (a.toNat + 128 ≤ Config.localBytes)) = true := by
    rw [decide_eq_true halign, decide_eq_true hlocal, Bool.and_self]
  subst hc hdie hu
  refine issue_next hm ?_
  rw [Act.bind_ok (readNat_ok ha), Act.bind_ok (Act.check_ok hplace _ _ _), Act.bind_ok (localNat_ok hv),
    Act.bind_ok (Act.check_ok hfields _ _ _)]
  refine (checkBoxes_then hboxes _).trans ((Act.bind_ok (Act.view_run _ s)).trans ?_)
  rw [Act.bind_ok (freeEntry_ok hk), Act.bind_ok (Act.await_ok (decide_eq_true hroom)),
    Act.bind_ok (Act.change_run _ s)]
  exact deliverNat_run _ _ _

/-! ### `cwait` and `cstat` (R232, R240) -/

/-- The state once a fail mark of a channel has been cleared (R232). -/
def State.markCleared (s : State) (ch id : Nat) : State :=
  let c := s.me.chans.look Channel.reset ch
  s.setMe { s.me with chans := s.me.chans.put ch { c with fails := c.fails.filter (fun m => m.1 != id) } }

section
variable {g : Guard} {ch : BitVec 3} {s : State}

section
variable {e : BitVec 5} {inc : Bool} {x : Vec} {n : Nat} (hm : mayIssue (.cwait g ch e inc) g s = true)
  (hx : s.regIn ⟨.e, e.toNat⟩ = some x) (hn : n = (x.toNat + if inc then 1 else 0) % 2 ^ 32)
include hm hx hn

theorem cwait_waits (h : ¬(horizonOf s.me ch.toNat + 2 ^ 32 - n) % 2 ^ 32 < 2 ^ 31) : exec (.cwait g ch e inc) s = .next (stallHere s) := by
  subst hn
  refine issue_stop (e := .stall) hm ?_
  rw [Act.bind_ok (readNat_ok hx)]
  exact Act.bind_error (await_stall (decide_eq_false h))

variable (h : (horizonOf s.me ch.toNat + 2 ^ 32 - n) % 2 ^ 32 < 2 ^ 31)
include h

theorem cwait_reaches : exec (.cwait g ch e inc) s = issue (.cwait g ch e inc) g (reportBelow ch.toNat n) s := by
  subst hn
  refine issue_congr ?_ hm
  rw [Act.bind_ok (readNat_ok hx)]
  exact Act.bind_ok (Act.await_ok (decide_eq_true h))

theorem cwait_passes (hmark : lowestMark (s.me.chans.look Channel.reset ch.toNat) n = none) :
    exec (.cwait g ch e inc) s = .next (advance s) :=
  (cwait_reaches hm hx hn h).trans (issue_next hm (reportBelow_none hmark))

theorem cwait_reports {f : Nat × Nat × Nat} (hmark : lowestMark (s.me.chans.look Channel.reset ch.toNat) n = some f) :
    exec (.cwait g ch e inc) s = .next (trapHere (s.markCleared ch.toNat f.1) f.2.1 f.2.2) :=
  (cwait_reaches hm hx hn h).trans (issue_stop hm (reportBelow_some hmark))

end

section
variable {d : BitVec 5} (hm : mayIssue (.cstat g ch d) g s = true)
include hm

theorem cstat_delivers (hmark : lowestMark (s.me.chans.look Channel.reset ch.toNat) (horizonOf s.me ch.toNat) = none) :
    exec (.cstat g ch d) s = .next (advance (s.wrote (.cstat g ch d) (BitVec.ofNat 64 (horizonOf s.me ch.toNat)))) := by
  refine issue_next hm ?_
  rw [Act.bind_ok (Act.view_run _ s), Act.bind_ok (reportBelow_none hmark)]
  exact deliverNat_run _ _ _

theorem cstat_reports {f : Nat × Nat × Nat}
    (hmark : lowestMark (s.me.chans.look Channel.reset ch.toNat) (horizonOf s.me ch.toNat) = some f) :
    exec (.cstat g ch d) s = .next (trapHere (s.markCleared ch.toNat f.1) f.2.1 f.2.2) := by
  refine issue_stop (e := .trapWith (s.markCleared ch.toNat f.1) f.2.1 f.2.2) hm ?_
  rw [Act.bind_ok (Act.view_run _ s)]
  exact Act.bind_error (reportBelow_some hmark)

end

end

/-- Settles O34: each start of a transfer or card past its checks, and the horizon and its fail marks as `reportBelow` reads them. -/
theorem transfersIssue : Obligations.TransfersIssue := by
  unfold Obligations.TransfersIssue
  refine ⟨?put, ?get, ?card, ?wait, fun g ch d s hm => ⟨cstat_delivers hm, fun f => cstat_reports hm⟩⟩
  case put =>
    intro g ch d e x s src a t k hm hsrc ha ht hsize hwalk hreach hk
    exact cput_starts hm hsrc ha ht hsize hwalk hreach hk
  case get =>
    intro g ch d e s a t k hm ha ht hstride hsync hsize hreach hk u
    exact cget_asks hm ha ht hstride hsync hsize hreach hk rfl
  case card =>
    intro g ch d e s a v k hm ha halign hlocal hv c die hfields hboxes hk hroom u
    exact ccard_joins hm ha halign hlocal hv rfl rfl hfields hboxes hk hroom rfl
  case wait =>
    intro g ch e inc s x hm hx n c done
    exact ⟨cwait_waits hm hx rfl, cwait_passes hm hx rfl, fun f hdone => cwait_reports hm hx rfl hdone⟩

end Sys2Proof.Machine
end

section
/-! Landing maps of the issuer's own die (O35). -/

namespace Sys2Proof.Machine

theorem ownEp_ok {s : State} {k n ep : Nat} (h : s.ownEp k n = some ep) : ownEndpoint k n s = .ok (ep, s) := (ownEndpoint_pure k n).ok h

theorem handle_ok {s : State} {h : Nat} {p : Nat × Nat} (hh : s.handle h = some p) : handleSlot h s = .ok (p, s) := (handleSlot_pure h).ok hh

theorem mapAt_ok {s : State} {a : Nat} {m : MapEntry} (h : s.mapAt a = some m) : readMap a s = .ok (m, s) := (readMap_pure a).ok h

section
variable {g : Guard} {s : State} {ep : Nat}

/-! ### `mapi` (R241) -/

section
variable {d e : BitVec 5} {epk : BitVec 3} {epn : BitVec 5} {a : Vec} {m : MapEntry} (hm : mayIssue (.mapi g d e epk epn) g s = true)
  (hep : s.ownEp epk.toNat epn.toNat = some ep) (ha : s.regIn ⟨.e, e.toNat⟩ = some a) (hmap : s.mapAt a.toNat = some m)
  (hcheck : mapCheck s ep s.myVd (rmodeAt s.me s.here) m none = .ok ())
include hm hep ha hmap hcheck

theorem mapi_full (hfull : (s.epAt ep).maps.free (epSlots ep) = none) :
    exec (.mapi g d e epk epn) s = .next (advance (s.wrote (.mapi g d e epk epn) 0)) := by
  refine issue_next hm ?_
  rw [Act.bind_ok (ownEp_ok hep), Act.bind_ok (readNat_ok ha), Act.bind_ok (mapAt_ok hmap), Act.bind_ok (checkMap_ok hcheck),
    Act.bind_ok (Act.view_run _ s), id, hfull]
  exact deliverNat_run _ _ _

theorem mapi_installs {n : Nat} (hfree : (s.epAt ep).maps.free (epSlots ep) = some n) :
    exec (.mapi g d e epk epn) s = .next (advance ((commitMap ep n ⟨m, s.myVd, none⟩ s).wrote (.mapi g d e epk epn)
      (BitVec.ofNat 64 (n + epk.toNat * 2 ^ 8 + epn.toNat * 2 ^ 11 + 2 ^ 16)))) := by
  refine issue_next hm ?_
  rw [Act.bind_ok (ownEp_ok hep), Act.bind_ok (readNat_ok ha), Act.bind_ok (mapAt_ok hmap), Act.bind_ok (checkMap_ok hcheck),
    Act.bind_ok (Act.view_run _ s), id, hfree]
  exact (Act.bind_ok (Act.change_run _ s)).trans (deliverNat_run _ _ _)

end

/-! ### `mapx`, `mapr` and `mapr.all` (R242, R243) -/

section
variable {h : BitVec 5} {hv : Vec} {slot : Nat} {old : MapSlot}

theorem mapx_replaces {e : BitVec 5} {a : Vec} {m : MapEntry} (hm : mayIssue (.mapx g h e) g s = true)
    (hhv : s.regIn ⟨.e, h.toNat⟩ = some hv) (hh : s.handle hv.toNat = some (ep, slot)) (hold : (s.epAt ep).maps.find slot = some old)
    (hvd : old.vd = s.myVd) (hghost : old.ghost = none) (ha : s.regIn ⟨.e, e.toNat⟩ = some a) (hmap : s.mapAt a.toNat = some m)
    (hcheck : mapCheck s ep s.myVd (rmodeAt s.me s.here) m (some slot) = .ok ()) (hpin : oldPinned s ep slot = false) :
    exec (.mapx g h e) s = .next (advance (commitMap ep slot { old with entry := m.withGen (MapEntry.gen old.entry + 1) } s)) := by
  refine issue_next hm ?_
  rw [Act.bind_ok (readNat_ok hhv), Act.bind_ok (handle_ok hh)]
  dsimp only
  rw [Act.bind_ok (heldMap_ok hold hvd hghost), Act.bind_ok (readNat_ok ha), Act.bind_ok (mapAt_ok hmap), Act.bind_ok (checkMap_ok hcheck),
    Act.bind_ok (Act.await_ok (by rw [hpin]; rfl))]
  rfl

theorem mapr_retires (hm : mayIssue (.mapr g h) g s = true) (hhv : s.regIn ⟨.e, h.toNat⟩ = some hv)
    (hh : s.handle hv.toNat = some (ep, slot)) (hold : (s.epAt ep).maps.find slot = some old) (hvd : old.vd = s.myVd)
    (hghost : old.ghost = none) :
    exec (.mapr g h) s = .next (if slotPinned s ep slot then stallHere s else advance (retireMaps ep [slot] s)) := by
  have hheld : exec (.mapr g h) s =
      issue (.mapr g h) g (do Act.await (fun s => !slotPinned s ep slot); Act.change (retireMaps ep [slot])) s := by
    refine issue_congr ?_ hm
    rw [Act.bind_ok (readNat_ok hhv), Act.bind_ok (handle_ok hh)]
    exact Act.bind_ok (heldMap_ok hold hvd hghost)
  rw [hheld]
  cases hpin : slotPinned s ep slot with
  | true => exact issue_stop hm (Act.bind_error (await_stall (by rw [hpin]; rfl)))
  | false => exact issue_next hm ((Act.bind_ok (Act.await_ok (by rw [hpin]; rfl))).trans (Act.change_run _ s))

end

theorem maprAll_retires {epk : BitVec 3} {epn : BitVec 5} {slots : List Nat} (hm : mayIssue (.maprAll g epk epn) g s = true)
    (hep : s.ownEp epk.toNat epn.toNat = some ep)
    (hslots : slots = ((s.epAt ep).maps.filter (fun m =>
      m.2.vd == s.myVd && !MapEntry.keep m.2.entry && m.2.ghost.isNone)).map (·.1))
    (hpin : ∀ n ∈ slots, slotPinned s ep n = false) :
    exec (.maprAll g epk epn) s = .next (advance (retireMaps ep slots s)) := by
  have hfree : slots.all (fun n => !slotPinned s ep n) = true := List.all_eq_true.2 fun n hn => by rw [hpin n hn, Bool.not_false]
  subst hslots
  refine issue_next hm ?_
  rw [Act.bind_ok (ownEp_ok hep), Act.bind_ok (Act.view_run _ s)]
  exact (Act.bind_ok (Act.await_ok hfree)).trans (Act.change_run _ s)

/-! ### `mapq` (R244) -/

/-- The map of a slot, where it is the issuing device's. -/
def State.mineAt (s : State) (ep slot : Nat) : Option MapSlot :=
  match (s.epAt ep).maps.find slot with
  | some m => if m.vd = s.myVd then some m else none
  | none => none

theorem mineAt_some {slot : Nat} {m : MapSlot} (hfind : (s.epAt ep).maps.find slot = some m) (hvd : m.vd = s.myVd) :
    s.mineAt ep slot = some m := by
  unfold State.mineAt
  rw [hfind]
  exact if_pos hvd

theorem mineAt_none {slot : Nat} (h : ∀ m, (s.epAt ep).maps.find slot = some m → m.vd ≠ s.myVd) : s.mineAt ep slot = none := by
  unfold State.mineAt
  cases hfind : (s.epAt ep).maps.find slot with
  | none => rfl
  | some m => exact if_neg (h m hfind)

/-- How many transfers of an endpoint are parked (R225). -/
def State.parkedAt (s : State) (ep : Nat) : Nat := ((s.epAt ep).arrive.filter (·.parked)).length

/-- How many transfers of an endpoint are pinned to a slot (R243). -/
def State.pinnedAt (s : State) (ep slot : Nat) : Nat := ((s.epAt ep).arrive.filter (fun a => a.pins.any (fun p => p.1 == slot))).length

/-- The answer of `mapq` about a slot, whose map is the device's or none. -/
def State.mapAnswer (s : State) (ep slot : Nat) (mine : Option MapSlot) : Nat :=
  packBits [(0, 16, match mine with | some m => MapEntry.gen m.entry | none => 0), (16, 1, bit mine.isSome),
    (17, 1, bit (mine.isSome && oldPinned s ep slot)), (24, 8, if mine.isSome then Nat.min 255 (s.pinnedAt ep slot) else 0),
    (32, 8, Nat.min 255 (s.parkedAt ep))]

theorem mapAnswer_none (slot : Nat) : s.mapAnswer ep slot none = Nat.min 255 (s.parkedAt ep) * 2 ^ 32 :=
  packBits_none _ (Nat.min_le_left _ _)

theorem mapAnswer_some (slot : Nat) (m : MapSlot) : s.mapAnswer ep slot (some m) =
    MapEntry.gen m.entry + 2 ^ 16 + (if oldPinned s ep slot then 2 ^ 17 else 0) + Nat.min 255 (s.pinnedAt ep slot) * 2 ^ 24 +
      Nat.min 255 (s.parkedAt ep) * 2 ^ 32 := by
  have hgen : MapEntry.gen m.entry < 2 ^ 16 := Nat.mod_lt _ (Nat.two_pow_pos 16)
  have hold : (if oldPinned s ep slot then 2 ^ 17 else 0) = bit (oldPinned s ep slot) * 2 ^ 17 := by
    cases oldPinned s ep slot <;> rfl
  rw [hold]
  exact packBits_small _ _ true _ _ hgen (Nat.min_le_left _ _) (Nat.min_le_left _ _)

theorem mapq_delivers {d h : BitVec 5} {hv : Vec} {slot : Nat} (hm : mayIssue (.mapq g d h) g s = true)
    (hhv : s.regIn ⟨.e, h.toNat⟩ = some hv) (hh : s.handle hv.toNat = some (ep, slot)) :
    exec (.mapq g d h) s = .next (advance (s.wrote (.mapq g d h) (BitVec.ofNat 64 (s.mapAnswer ep slot (s.mineAt ep slot))))) := by
  refine issue_next hm ?_
  rw [Act.bind_ok (readNat_ok hhv), Act.bind_ok (handle_ok hh)]
  dsimp only
  rw [Act.bind_ok (Act.view_run _ s)]
  exact deliverNat_run _ _ _

end

/-- Settles O35: `mapi` with and without a free slot, `mapx` and `mapr` at the map that the handle names, `mapr.all` once nothing is pinned,
`mapq` by its answer with and without a map of the device. -/
theorem landingMapsAreManaged : Obligations.LandingMapsAreManaged := by
  unfold Obligations.LandingMapsAreManaged
  refine ⟨?install, ?replace, ?retire, fun g epk epn s ep hm hep => maprAll_retires hm hep rfl, ?query⟩
  case install =>
    intro g d e epk epn s ep a m hm hep ha hmap hcheck
    exact ⟨mapi_full hm hep ha hmap hcheck, fun n => mapi_installs hm hep ha hmap hcheck⟩
  case replace =>
    intro g h e s hv ep slot old a m hm hhv hh hold hvd hghost ha hmap hcheck hpin
    exact mapx_replaces hm hhv hh hold hvd hghost ha hmap hcheck hpin
  case retire =>
    intro g h s hv ep slot old hm hhv hh hold hvd hghost
    exact mapr_retires hm hhv hh hold hvd hghost
  case query =>
    intro g d h s hv ep slot hm hhv hh parked pinned
    have hexec := mapq_delivers hm hhv hh
    refine ⟨fun hother => ?_, fun m hfind hvd => ?_⟩
    · rw [hexec, mineAt_none hother, mapAnswer_none]
      rfl
    · rw [hexec, mineAt_some hfind hvd, mapAnswer_some]
      rfl

end Sys2Proof.Machine
end

section
/-! Memory atomics of the W slot (O29): the traps of an address that no window takes whole, and the atomic in a near window and in device
memory. -/

namespace Sys2Proof.Machine

/-! ### The parts of an atomic (R248 to R250) -/

section
variable {s : State}

/-- The banks that a read of bytes needs are those that a write of them needs (R320). -/
theorem canWrite_of_canRead {a n : Nat} (h : s.canRead a n = true) (mask : Nat) : s.canWrite a n mask = true := by
  obtain ⟨hbanks, _⟩ := Bool.and_eq_true_iff.1 h
  refine List.all_eq_true.2 fun p hp => ?_
  obtain ⟨j, hj, rfl⟩ := List.mem_map.1 hp
  exact List.all_eq_true.1 hbanks _ (List.mem_map_of_mem (List.mem_filter.1 hj).1)

theorem stickyNow_run (st : Nat) (s : State) : stickyNow st s = .ok ((), s.sticky st) := rfl

theorem orderAfter_run (ord scope : Nat) (s : State) : orderAfter ord scope s = .ok ((), s.ordered ord scope) := rfl

/-- Only a compare and swap reads its destination, for the compare value. -/
theorem atomicCompare_ok {op : Nat} {wd : BitVec 5} {z : Vec}
    (hz : (if op = 7 then s.regIn ⟨.w, wd.toNat⟩ else some 0) = some z) :
    (if op = 7 then readNat .w wd.toNat else pure 0 : Act Nat) s = .ok (z.toNat, s) := by
  by_cases h7 : op = 7
  · rw [if_pos h7] at hz ⊢
    exact readNat_ok hz
  · rw [if_neg h7] at hz ⊢
    obtain rfl := Option.some.inj hz
    rw [BitVec.ofNat_eq_ofNat, BitVec.toNat_zero, Act.pure_run]

end

/-! ### The atomic (R248 to R251) -/

/-- The register that an atomic returns the old value to: none with NR (R248). -/
def atomicDest (nr : Bool) (wd : BitVec 5) : Option Reg := if nr then none else some ⟨.w, wd.toNat⟩

/-- The old value on its way to w[WD], unless NR is set (R248). -/
def State.returns (s : State) (nr : Bool) (wd : BitVec 5) (l : Nat) (v : Vec) : State :=
  if nr then s else s.send ⟨.w, wd.toNat⟩ l v allBytes 0

section
variable {op n w : Nat} {wd : BitVec 5} {a b : Opnd} {nr : Bool} {ord : BitVec 2} {cls : BitVec 4} {t : Fmt} {s : State} {x y : Word}
  {z : Vec}

theorem actAtomic_misaligned (hx : s.opnd a = some x) (hmis : x.toNat % (t.width / 8) ≠ 0) :
    actAtomic op wd a b nr ord cls t s = .error (.trap 0x11 x.toNat) := by
  unfold actAtomic
  rw [Act.bind_ok (State.opnd_ok hx)]
  exact Act.bind_error (Act.check_stop (decide_eq_false hmis) _ _ _)

/-- An address whose element lies in no single window traps, aligned or not. -/
theorem actAtomic_nowhere (hx : s.opnd a = some x) (hw : windowOf x.toNat (t.width / 8) = none) :
    actAtomic op wd a b nr ord cls t s = .error (.trap 0x11 x.toNat) := by
  by_cases hal : x.toNat % (t.width / 8) = 0
  · unfold actAtomic
    rw [Act.bind_ok (State.opnd_ok hx), Act.bind_ok (Act.check_ok (decide_eq_true hal) _ _ _)]
    exact Act.bind_error (accessWindow_stop hw s)
  · exact actAtomic_misaligned hx hal

variable (hx : s.opnd a = some x) (hy : s.opnd b = some y)
  (hz : (if op = 7 then s.regIn ⟨.w, wd.toNat⟩ else some 0) = some z) (hn : n = t.width / 8) (hal : x.toNat % n = 0)
  (hopen : s.orderOpen ord.toNat (s.scope 0) = true)
include hx hy hz hn hal hopen

/-- In a near window the element is read, combined and written, and the old value returned, all at issue. -/
theorem actAtomic_near {write : Bool} {new st : Nat} (hw : windowOf x.toNat n = some w) (h13 : w ≠ 13)
    (hread : s.canRead x.toNat n = true)
    (hop : atomOp op t.isSigned n (t == .f32) (nearNat s s.cur.loc x.toNat n) (bitsAt y.toNat 0 (8 * n)) (bitsAt z.toNat 0 (8 * n)) =
      (write, new, st)) :
    actAtomic op wd a b nr ord cls t s = .ok ((), (((if write then s.near x.toNat (toBytes n new) allBytes else s).sticky st).returns nr wd
      (latency s.me w) (BitVec.ofNat 512 (atomValue (t == .s32) n (nearNat s s.cur.loc x.toNat n)))).ordered ord.toNat (s.scope 0)) := by
  subst hn
  unfold actAtomic
  rw [Act.bind_ok (State.opnd_ok hx), Act.bind_ok (Act.check_ok (decide_eq_true hal) _ _ _), Act.bind_ok (accessWindow_ok hw),
    Act.bind_ok (State.opnd_ok hy), Act.bind_ok (atomicCompare_ok hz), Act.bind_ok (Act.view_run _ s)]
  dsimp only [id]
  rw [if_neg h13, Act.bind_ok (orderBefore_ok hopen), Act.bind_ok (readNear_ok hread), hop]
  have hwrite := writeNear_ok (toBytes_length (t.width / 8) new) (canWrite_of_canRead hread allBytes)
  cases write with
  | false => cases nr <;> rfl
  | true =>
    refine (Act.bind_ok hwrite).trans ?_
    cases nr <;> rfl

/-- In device memory an in-flight entry takes the atomic to its home and awaits the old value. -/
theorem actAtomic_far {pa pr k : Nat} (hw : windowOf x.toNat n = some 13) (hpa : s.home x.toNat true false = some pa)
    (hpr : s.home x.toNat false false = some pr) (hk : s.freeEntry = some k) :
    actAtomic op wd a b nr ord cls t s = .ok ((), ((s.opened k
      { s.readEntry 3 cls x.toNat n t (atomicDest nr wd) (latency s.me 13) with idem := 2 }
      [(pa, x.toNat, 0, .atom op t.isSigned n (bitsAt y.toNat 0 (8 * n)) (bitsAt z.toNat 0 (8 * n)) (t == .f32))]).awaiting
        (atomicDest nr wd) (latency s.me 13) k false).ordered ord.toNat (s.scope 0)) := by
  subst hn
  unfold actAtomic
  rw [Act.bind_ok (State.opnd_ok hx), Act.bind_ok (Act.check_ok (decide_eq_true hal) _ _ _), Act.bind_ok (accessWindow_ok hw),
    Act.bind_ok (State.opnd_ok hy), Act.bind_ok (atomicCompare_ok hz), Act.bind_ok (Act.view_run _ s)]
  dsimp only [id]
  rw [if_pos rfl, Act.bind_ok (home_ok hpa), Act.bind_ok (home_ok hpr), Act.bind_ok (orderBefore_ok hopen),
    Act.bind_ok (openAccess_ok _ _ hk)]
  cases nr <;> rfl

end

/-- An operation whose meaning is the issue of `actAtomic` does what `AtomicCompletes` says. -/
theorem atomicCompletes_of_exec {i : Instr} {g : Guard} {op : Nat} {wd : BitVec 5} {a b : Opnd} {nr : Bool} {ord : BitVec 2} {cls : BitVec 4}
    {t : Fmt} (hexec : ∀ s, exec i s = issue i g (actAtomic op wd a b nr ord cls t) s) :
    AtomicCompletes i g op wd a b nr ord cls t := by
  intro s x y z hm hx hy hz va n arg cmp r scope
  rw [hexec]
  refine ⟨fun h => ?trap, fun w hal hw h13 hopen hread => ?near, fun pa pr k hal hw hpa hpr hopen hk => ?far⟩
  case trap =>
    rcases h with hmis | hw
    · exact issue_stop hm (actAtomic_misaligned hx hmis)
    · exact issue_stop hm (actAtomic_nowhere hx hw)
  case near =>
    intro old
    rcases hop : atomOp op t.isSigned n (t == .f32) old arg cmp with ⟨write, new, st⟩
    exact issue_next hm (actAtomic_near hx hy hz rfl hal hopen hw h13 hread hop)
  case far => exact issue_next hm (actAtomic_far hx hy hz rfl hal hopen hw hpa hpr hk)

/-- Settles O29: each atomic is an issue of the one atomic act, under the code of its operation (Table 15.4). -/
theorem atomicsComplete : Obligations.AtomicsComplete := by
  unfold Obligations.AtomicsComplete
  exact ⟨fun _ _ _ _ _ _ _ _ => atomicCompletes_of_exec fun _ => rfl, fun _ _ _ _ _ _ _ _ => atomicCompletes_of_exec fun _ => rfl,
    fun _ _ _ _ _ _ _ _ => atomicCompletes_of_exec fun _ => rfl, fun _ _ _ _ _ _ _ _ _ => atomicCompletes_of_exec fun _ => rfl,
    fun _ _ _ _ _ _ _ _ => atomicCompletes_of_exec fun _ => rfl, fun _ _ _ _ _ _ _ => atomicCompletes_of_exec fun _ => rfl,
    fun _ _ _ _ _ _ _ _ => atomicCompletes_of_exec fun _ => rfl⟩

end Sys2Proof.Machine
end


section
/-! Taking a trap and leaving a handler (O40): the sequencer as it stands frozen, what enters a handler or a lane, and the frame that comes
back. -/

namespace Sys2Proof.Machine

/-! ### Which way a trap goes (R335, R342, R345) -/

theorem perf_residentOn (s : State) (loc c n die vd : Nat) : residentOn (perf s loc c n) die vd = residentOn s die vd := by
  rcases perf_same s loc c n with h | ⟨vd', v, h⟩ <;> rw [h]
  rfl

/-- A system register that governs a bundle is read past the write in the bundle itself (R79). -/
theorem srAt_congr {q u : Seq} (h : u.srPrev = q.srPrev) (num i : Nat) (now : Word) : srAt u num i now = srAt q num i now := by
  unfold srAt
  rw [h]

/-- What becomes of a die's lanes when a record is sent to one of them (R345). -/
def Die.withRecord (k : Die) (code : Nat) (r : Rec) : Die :=
  if fatalCode code then { k with fatal := k.fatal ++ [{ r with held := false }] } else { k with lane := k.lane ++ [r] }

theorem deliverTrap_die (s : State) (loc code rc : Nat) :
    (deliverTrap s loc code rc).dieAt (dieOf loc) = (s.dieAt (dieOf loc)).withRecord code
      ⟨(s.seqAt loc).task.vd, BitVec.ofNat 512 rc, !residentOn s (dieOf loc) (s.seqAt loc).task.vd⟩ := by
  unfold deliverTrap Die.withRecord
  dsimp only
  cases (s.seqAt loc).slice <;> split <;> exact State.setDie_dieAt_eq _ _ _

/-- Whether a trap enters the replay routine: poison, with REPLAY set and outside a handler (R285, R343). -/
def Seq.replays (q : Seq) (i code : Nat) : Prop := code = 0x20 ∧ srAt q 4 i q.replay ≠ 0 ∧ q.frame = none

/-- Whether a trap enters the handler: its code may be handled, with TVEC set and outside a handler (R342, R343). -/
def Seq.handles (q : Seq) (i code : Nat) : Prop := handledCode code = true ∧ srAt q 7 i q.tvec ≠ 0 ∧ q.frame = none

section
variable (s : State) (loc slot i code info aux : Nat)

/-- The module with the sequencer frozen by a trap, before the trap has gone anywhere. -/
def State.frozenBy (s : State) (loc slot i code info aux : Nat) : State :=
  (perf s loc 7 1).setSeq loc (frozen (perf s loc 7 1) loc slot i code info (trapRecord s loc slot i code info aux))

/-- A trap goes to the replay routine, to the handler, or to a lane of its die. -/
theorem takeTrap_goes :
    ((s.seqAt loc).replays i code → takeTrap s loc slot i code info aux = enterHandler (s.frozenBy loc slot i code info aux) loc
      (bitsAt (srAt (s.seqAt loc) 4 i (s.seqAt loc).replay).toNat 6 46 * 64) (trapRecord s loc slot i code info aux)) ∧
    (¬(s.seqAt loc).replays i code → (s.seqAt loc).handles i code →
      takeTrap s loc slot i code info aux = enterHandler (s.frozenBy loc slot i code info aux) loc
        (bitsAt (srAt (s.seqAt loc) 7 i (s.seqAt loc).tvec).toNat 6 46 * 64) (trapRecord s loc slot i code info aux)) ∧
    (¬(s.seqAt loc).replays i code → ¬(s.seqAt loc).handles i code →
      takeTrap s loc slot i code info aux =
        deliverTrap (s.frozenBy loc slot i code info aux) loc code (trapRecord s loc slot i code info aux)) := by
  obtain ⟨-, -, -, hframe, -, -, -, -, -, -, -, hreplay, htvec, hprev, -, -⟩ :=
    frozen_keeps (perf s loc 7 1) loc slot i code info (trapRecord s loc slot i code info aux)
  rw [perf_seqs] at hframe hreplay htvec hprev
  rw [takeTrap_eq]
  dsimp only
  rw [trapRecord_perf, hframe, hreplay, htvec, srAt_congr hprev, srAt_congr hprev]
  simp only [Option.isNone_iff_eq_none]
  exact ⟨fun h => if_pos h, fun hr hh => (if_neg hr).trans (if_pos hh), fun hr hh => (if_neg hr).trans (if_neg hh)⟩

theorem frozenBy_seq : (s.frozenBy loc slot i code info aux).seqAt loc =
    frozen (perf s loc 7 1) loc slot i code info (trapRecord s loc slot i code info aux) := State.setSeq_seqAt_eq _ _ _

theorem frozenBy_die : (s.frozenBy loc slot i code info aux).dieAt (dieOf loc) = s.dieAt (dieOf loc) := perf_dies _ _ _ _ _

theorem frozenBy_residentOn (die vd : Nat) : residentOn (s.frozenBy loc slot i code info aux) die vd = residentOn s die vd :=
  perf_residentOn s loc 7 1 die vd

/-- What a trap keeps of its sequencer where it stands frozen (R335, R337), in the words of `frozen_keeps`. -/
theorem frozenBy_keeps :
    let q := s.seqAt loc
    let u := (s.frozenBy loc slot i code info aux).seqAt loc
    u.status = 3 ∧ u.record = BitVec.ofNat 512 (trapRecord s loc slot i code info aux) ∧ u.trapSlot = slot ∧ u.frame = q.frame ∧
    u.steps = q.steps ∧ u.pend = q.pend ∧ u.queue = q.queue ∧ u.nextIdx = q.nextIdx ∧ u.pc = q.pc ∧ u.hold = q.hold ∧
    u.loops = q.loops ∧ u.task = q.task ∧
    (code = 0x20 → u.repRet = BitVec.ofNat 64 (bundleAddr q i) ∧
      u.repInfo = BitVec.ofNat 64 (info - info / 2 ^ 14 % 2 * 2 ^ 14)) := by
  obtain ⟨hstatus, hrecord, hslot, hframe, hsteps, hpend, hqueue, hidx, hpc, hhold, hloops, -, -, -, htask, hpoison⟩ :=
    frozen_keeps (perf s loc 7 1) loc slot i code info (trapRecord s loc slot i code info aux)
  rw [frozenBy_seq, ← perf_seqs s loc 7 1 loc]
  exact ⟨hstatus, hrecord, hslot, hframe, hsteps, hpend, hqueue, hidx, hpc, hhold, hloops, htask, hpoison⟩

/-- The sequencer of a trap that has entered the handler or the replay routine (R343). -/
theorem entered_seq (pc : Nat) :
    let q := s.seqAt loc
    let rc := trapRecord s loc slot i code info aux
    let u := (enterHandler (s.frozenBy loc slot i code info aux) loc pc rc).seqAt loc
    (u.status = 1 ∧ u.steps = [] ∧ u.pend = [] ∧ u.queue = [] ∧ u.nextIdx = 0 ∧ u.hold = none ∧ u.loops = [] ∧
      u.trapRec = BitVec.ofNat 512 rc ∧
      ∃ f, u.frame = some f ∧ f.record = BitVec.ofNat 512 rc ∧ f.steps = q.steps ∧ f.queue = q.queue ∧ f.nextIdx = q.nextIdx ∧
        f.pc = q.pc ∧ f.hold = q.hold ∧ f.loops = q.loops ∧
        f.pend.map (fun e => (e.uid, e.slot, e.dst, e.val, e.mask, e.li)) =
          q.pend.map (fun e => (e.uid, e.slot, e.dst, e.val, e.mask, e.li))) ∧
    u.pc = pc ∧
    (code = 0x20 → u.repRet = BitVec.ofNat 64 (bundleAddr q i) ∧
      u.repInfo = BitVec.ofNat 64 (info - info / 2 ^ 14 % 2 * 2 ^ 14)) := by
  intro q rc u
  obtain ⟨-, -, -, -, hsteps, hpend, hqueue, hidx, hpc, hhold, hloops, -, hpoison⟩ := frozenBy_keeps s loc slot i code info aux
  obtain ⟨h1, h2, h3, h4, h5, h6, h7, h8, hu, hinfo, hret, f, hf, hfrec, fsteps, fqueue, fidx, fpc, fhold, floops, fpend⟩ :=
    enterHandler_seq (s.frozenBy loc slot i code info aux) loc pc rc
  refine ⟨⟨h1, h2, h3, h4, h5, h6, h7, h8, f, hf, hfrec, fsteps.trans hsteps, fqueue.trans hqueue, fidx.trans hidx, fpc.trans hpc,
    fhold.trans hhold, floops.trans hloops, fpend.trans (congrArg _ hpend)⟩, hu, fun hc => ?_⟩
  obtain ⟨hr, hi⟩ := hpoison hc
  exact ⟨hret.trans hr, hinfo.trans hi⟩

/-- The die of a trap that has gone to one of its lanes (R345). -/
theorem delivered_die :
    let q := s.seqAt loc
    let rc := trapRecord s loc slot i code info aux
    (deliverTrap (s.frozenBy loc slot i code info aux) loc code rc).dieAt (dieOf loc) = (s.dieAt (dieOf loc)).withRecord code
      ⟨q.task.vd, BitVec.ofNat 512 rc, !residentOn s (dieOf loc) q.task.vd⟩ := by
  obtain ⟨-, -, -, -, -, -, -, -, -, -, -, htask, -⟩ := frozenBy_keeps s loc slot i code info aux
  intro q rc
  rw [deliverTrap_die, frozenBy_die, frozenBy_residentOn, htask]

end

/-- The return from a handler (R343): the frame comes back, with its generator state, and the sequencer stands frozen. -/
theorem leaveHandler_restores (s : State) (loc : Nat) (f : Frame) (hf : (s.seqAt loc).frame = some f) :
    let q := s.seqAt loc
    let u := (leaveHandler s loc).seqAt loc
    u.status = 3 ∧ u.frame = none ∧ u.steps = f.steps ∧ u.pend = f.pend ∧ u.queue = f.queue ∧ u.nextIdx = f.nextIdx ∧ u.pc = f.pc ∧
    u.hold = f.hold ∧ u.loops = f.loops ∧ u.record = f.record ∧ u.seedIdx = f.seedIdx ∧ u.drawn = f.drawn ∧
    u.conv = BitVec.ofNat 64 (q.conv.toNat % 2 ^ 32 + f.seed * 2 ^ 32) ∧ u.fs = q.fs ∧ u.fp = q.fp ∧ u.fw = q.fw ∧ u.fy = q.fy := by
  unfold leaveHandler
  dsimp only
  rw [hf]
  dsimp only
  rw [State.setSeq_seqAt_eq]
  exact ⟨rfl, rfl, rfl, rfl, rfl, rfl, rfl, rfl, rfl, rfl, rfl, rfl, rfl, rfl, rfl, rfl, rfl⟩

/-- Settles O40: a trap freezes its sequencer (`frozenBy_keeps`) and goes on as `takeTrap_goes` says, into a lane (`deliverTrap_seq`,
`delivered_die`) or into a handler (`entered_seq`); the return restores the frame. -/
theorem trapsAreTakenAndReturnedFrom : Obligations.TrapsAreTakenAndReturnedFrom := by
  unfold Obligations.TrapsAreTakenAndReturnedFrom
  refine ⟨?taken, fun s loc f => leaveHandler_restores s loc f⟩
  case taken =>
    intro s loc slot i code info aux q t u rc replay handler
    obtain ⟨hreplays, hhandles, hdelivers⟩ := takeTrap_goes s loc slot i code info aux
    by_cases hr : replay
    · have ht : t = _ := hreplays hr
      obtain ⟨hin, hpc, hpoison⟩ := entered_seq s loc slot i code info aux (bitsAt (srAt q 4 i q.replay).toNat 6 46 * 64)
      rw [← ht] at hin hpc hpoison
      exact ⟨fun hn => absurd hr hn, fun _ => hin, fun _ => hpc, fun hh => absurd hr hh.1, hpoison⟩
    by_cases hh : q.handles i code
    · have ht : t = _ := hhandles hr hh
      obtain ⟨hin, hpc, hpoison⟩ := entered_seq s loc slot i code info aux (bitsAt (srAt q 7 i q.tvec).toNat 6 46 * 64)
      rw [← ht] at hin hpc hpoison
      exact ⟨fun _ hn => absurd ⟨hr, hh⟩ hn, fun _ => hin, fun h => absurd h hr, fun _ => hpc, hpoison⟩
    · have ht : t = _ := hdelivers hr hh
      have hseq : u = deliveredSeq _ := (congrArg (·.seqAt loc) ht).trans (deliverTrap_seq _ _ _ _)
      have hdie := (congrArg (·.dieAt (dieOf loc)) ht).trans (delivered_die s loc slot i code info aux)
      obtain ⟨hstatus, hrecord, hslot, hframe, hsteps, hpend, hqueue, hidx, hpc, hhold, hloops, -, hpoison⟩ :=
        frozenBy_keeps s loc slot i code info aux
      rw [hseq, hdie]
      refine ⟨fun _ _ => ⟨hstatus, hrecord, hslot, rfl, hframe, hsteps, hpend, hqueue, hidx, hpc, hhold, hloops, ?fatal, ?lane⟩,
        fun h => absurd h ?_, fun h => absurd h hr, fun h => absurd ⟨h.2.1, h.2.2⟩ hh, hpoison⟩
      case fatal => exact fun hc => by unfold Die.withRecord; rw [if_pos hc]; exact ⟨rfl, rfl⟩
      case lane => exact fun hc => by unfold Die.withRecord; rw [if_neg (by rw [hc]; decide)]; exact ⟨rfl, rfl⟩
      · rintro (h | ⟨-, h⟩)
        · exact hr h
        · exact hh h

end Sys2Proof.Machine
end

section
/-! The fields of a trap record (O41). -/

namespace Sys2Proof.Machine

/-- The fields of a trap record, in rising order (Table 23.2). -/
def trapFields (s : State) (loc slot i code info aux : Nat) : List (Nat × Nat × Nat) :=
  let q := s.seqAt loc
  [(0, 8, code), (8, 1, bit (fatalCode code)), (9, 1, bit q.frame.isSome), (12, 4, slot), (16, 15, fullLoc s loc), (32, 16, q.task.vd),
    (64, 32, q.task.num), (96, 32, q.task.lseq), (128, 64, i), (192, 52, bundleAddr q i)] ++
  Slot.all.map (fun x => (256 + 6 * x.num, 6, wrap 6 ((stepOf q x : Int) - i))) ++
  [(320, 64, info), (384, 64, Nat.max (vtime s q.task.vd) q.last), (448, 16, aux)]

section
variable (s : State) (loc slot i code info aux : Nat)

/-- No two fields of a trap record share a bit: they are packed in rising order. -/
theorem trapFields_rising : Rising 0 (trapFields s loc slot i code info aux) := by
  simp only [trapFields, Slot.all, Slot.num, List.map_cons, List.map_nil, List.cons_append, List.nil_append, Rising]
  decide

/-- So each reads back as the low bits of what was put there. -/
theorem trapRecord_field {a n v : Nat} (h : (a, n, v) ∈ trapFields s loc slot i code info aux) :
    bitsAt (trapRecord s loc slot i code info aux) a n = v % 2 ^ n :=
  packBits_field (trapFields_rising s loc slot i code info aux) h

end

theorem Slot.mem_all (x : Slot) : x ∈ Slot.all := by cases x <;> decide

theorem bit_mod (b : Bool) : bit b % 2 ^ 1 = if b then 1 else 0 := by cases b <;> rfl

theorem wrap_mod (n : Nat) (x : Int) : wrap n x % 2 ^ n = wrap n x := by
  have hpos : (0 : Int) < 2 ^ n := by positivity
  have hlt : wrap n x < 2 ^ n := by
    have hmod := Int.emod_lt_of_pos x hpos
    have hnonneg := Int.emod_nonneg x hpos.ne'
    unfold wrap
    zify
    rwa [Int.toNat_of_nonneg hnonneg]
  exact Nat.mod_eq_of_lt hlt

/-- Settles O41: each field is one of `trapFields`, and reads back by `trapRecord_field`. -/
theorem trapRecordsHoldTheirFields : Obligations.TrapRecordsHoldTheirFields := by
  unfold Obligations.TrapRecordsHoldTheirFields
  intro s loc slot i code info aux q rc
  have hfield : ∀ {a n v : Nat}, (a, n, v) ∈ trapFields s loc slot i code info aux → bitsAt rc a n = v % 2 ^ n :=
    trapRecord_field s loc slot i code info aux
  have hfatal := (hfield (a := 8) (n := 1) (v := bit (fatalCode code)) (by simp [trapFields])).trans (bit_mod _)
  have hinh := (hfield (a := 9) (n := 1) (v := bit q.frame.isSome) (by simp [trapFields, q])).trans (bit_mod _)
  have hstep : ∀ x : Slot, bitsAt rc (256 + 6 * x.num) 6 = wrap 6 ((stepOf q x : Int) - i) := fun x =>
    (hfield (List.mem_append_left _ (List.mem_append_right _ (List.mem_map_of_mem (Slot.mem_all x))))).trans (wrap_mod _ _)
  exact ⟨hfield (by simp [trapFields]), hfatal, hinh, hfield (by simp [trapFields]), hfield (by simp [trapFields]),
    hfield (by simp [trapFields, q]), hfield (by simp [trapFields, q]), hfield (by simp [trapFields, q]), hfield (by simp [trapFields]),
    hfield (by simp [trapFields, q]), hstep, hfield (by simp [trapFields]), hfield (by simp [trapFields, q]),
    hfield (by simp [trapFields])⟩

end Sys2Proof.Machine
end

section
/-! Accesses to any endpoint of the pod (O31): `ldr`, `str` and `ratom` by an in-flight entry. -/

namespace Sys2Proof.Machine

/-! ### A condition before the rest of an operation, taken out of it -/

theorem Act.bind_ite {α β : Type} {c : Prop} [Decidable c] (m n : Act α) (f : α → Act β) (s : State) :
    (if c then m >>= f else n >>= f) s = ((if c then m else n) >>= f) s := by
  split <;> rfl

theorem Act.bind_guard {β : Type} {c : Prop} [Decidable c] (m : Act Unit) (f : Unit → Act β) (s : State) :
    (if c then m >>= f else f ()) s = ((if c then m else pure ()) >>= f) s := Act.bind_ite m (pure ()) f s

section
variable {g : Guard} {a : Opnd} {cls : BitVec 4} {t : Fmt} {s : State} {x : Word} {n pa k : Nat}

/-! ### `ldr` (R282) -/

section
variable {dst : Dest} {ca : Bool} {lq : BitVec 9} (hm : mayIssue (.ldr g dst a ca lq cls t) g s = true) (hx : s.opnd a = some x)
  (hn : n = t.width / 8)
include hm hx hn

theorem ldr_misplaced (hplace : ¬remoteOk x.toNat n) : exec (.ldr g dst a ca lq cls t) s = .next (trapHere s 0x11 x.toNat) := by
  subst hn
  refine issue_stop (e := .trap 0x11 x.toNat) hm ?_
  rw [Act.bind_ok (State.opnd_ok hx)]
  exact Act.bind_error (remoteAddr_stop hplace s)

variable (hplace : remoteOk x.toNat n) (hpa : s.home x.toNat false true = some pa)
include hplace hpa

theorem ldr_tokenless (hca : ca = true) (htoken : s.holdsToken x.toNat = false) :
    exec (.ldr g dst a ca lq cls t) s = .next (trapHere s 0x12 x.toNat) := by
  subst hn
  refine issue_stop (e := .trap 0x12 x.toNat) hm ?_
  rw [Act.bind_ok (State.opnd_ok hx)]
  refine (Act.bind_ok (remoteAddr_ok hplace s)).trans ?_
  rw [Act.bind_ok (home_ok hpa)]
  exact (Act.bind_guard _ _ s).trans (Act.bind_error (token_stop hca htoken))

theorem ldr_reads (htoken : ca = true → s.holdsToken x.toNat = true) (hk : s.freeEntry = some k) {r : Option Reg} {l : Nat}
    (hr : r = (destsOf s.cur.slot (.ldr g dst a ca lq cls t)).head?) (hl : l = 16 * (lq.toNat + 1)) :
    exec (.ldr g dst a ca lq cls t) s = .next (advance ((s.opened k { s.readEntry 4 cls x.toNat n t r l with late := true, ca := ca }
      [(pa, x.toNat, 0, .read n)]).awaiting r l k true)) := by
  subst hn hr hl
  refine issue_next hm ?_
  rw [Act.bind_ok (State.opnd_ok hx)]
  refine (Act.bind_ok (remoteAddr_ok hplace s)).trans ?_
  rw [Act.bind_ok (home_ok hpa)]
  refine ((Act.bind_guard _ _ s).trans (Act.bind_ok (token_ok htoken))).trans ?_
  beta_reduce
  rw [Act.bind_ok (Act.view_run _ s)]
  refine (Act.bind_ok (openAccess_ok _ _ hk)).trans ?_
  dsimp only [id]
  cases (destsOf s.cur.slot (.ldr g dst a ca lq cls t)).head? <;> rfl

end

/-! ### `str` (R287) -/

section
variable {src : Opnd} {ca : Bool} {z : Word} (hm : mayIssue (.str g src a ca cls t) g s = true) (hx : s.opnd a = some x)
  (hn : n = t.width / 8)
include hm hx hn

theorem str_misplaced (hplace : ¬remoteOk x.toNat n) : exec (.str g src a ca cls t) s = .next (trapHere s 0x11 x.toNat) := by
  subst hn
  refine issue_stop (e := .trap 0x11 x.toNat) hm ?_
  rw [Act.bind_ok (State.opnd_ok hx)]
  exact Act.bind_error (remoteAddr_stop hplace s)

variable (hplace : remoteOk x.toNat n) (hpa : s.home x.toNat true true = some pa)
include hplace hpa

theorem str_tokenless (hca : ca = true) (htoken : s.holdsToken x.toNat = false) :
    exec (.str g src a ca cls t) s = .next (trapHere s 0x12 x.toNat) := by
  subst hn
  refine issue_stop (e := .trap 0x12 x.toNat) hm ?_
  rw [Act.bind_ok (State.opnd_ok hx)]
  refine (Act.bind_ok (remoteAddr_ok hplace s)).trans ?_
  rw [Act.bind_ok (home_ok hpa)]
  exact (Act.bind_guard _ _ s).trans (Act.bind_error (token_stop hca htoken))

theorem str_writes (hz : s.opnd src = some z) (htoken : ca = true → s.holdsToken x.toNat = true) (hk : s.freeEntry = some k) :
    exec (.str g src a ca cls t) s = .next (advance (s.opened k { s.writeEntry 5 cls x.toNat n with ca := ca }
      [(pa, x.toNat, 0, .write (toBytes n z.toNat) (2 ^ n - 1))])) := by
  subst hn
  refine issue_next hm ?_
  rw [Act.bind_ok (State.opnd_ok hx)]
  refine (Act.bind_ok (remoteAddr_ok hplace s)).trans ?_
  rw [Act.bind_ok (home_ok hpa)]
  refine ((Act.bind_guard _ _ s).trans (Act.bind_ok (token_ok htoken))).trans ?_
  beta_reduce
  rw [Act.bind_ok (State.opnd_ok hz), Act.bind_ok (Act.view_run _ s)]
  exact Act.bind_ok (openAccess_ok _ _ hk)

end

/-! ### `ratom` (R288) -/

section
variable {wd wb : BitVec 5} {rop : BitVec 4} {nr : Bool} {ord : BitVec 2} (hm : mayIssue (.ratom g wd a wb rop nr ord cls t) g s = true)
  (hx : s.opnd a = some x) (hn : n = t.width / 8)
include hm hx hn

theorem ratom_misplaced (hplace : ¬remoteOk x.toNat n) :
    exec (.ratom g wd a wb rop nr ord cls t) s = .next (trapHere s 0x11 x.toNat) := by
  subst hn
  refine issue_stop (e := .trap 0x11 x.toNat) hm ?_
  rw [Act.bind_ok (State.opnd_ok hx)]
  exact Act.bind_error (remoteAddr_stop hplace s)

theorem ratom_asks {y z : Vec} {pr : Nat} (hy : s.regIn ⟨.w, wb.toNat⟩ = some y)
    (hz : (if rop.toNat = 7 then s.regIn ⟨.w, wd.toNat⟩ else some 0) = some z) (hplace : remoteOk x.toNat n)
    (hpa : s.home x.toNat true true = some pa) (hpr : s.home x.toNat false true = some pr)
    (hopen : s.orderOpen ord.toNat (s.scope 0) = true) (hk : s.freeEntry = some k) :
    exec (.ratom g wd a wb rop nr ord cls t) s = .next (advance (((s.opened k
      { s.readEntry 6 cls x.toNat n t (atomicDest nr wd) 1 with idem := 2 }
      [(pa, x.toNat, 0, .atom rop.toNat t.isSigned n (bitsAt y.toNat 0 (8 * n)) (bitsAt z.toNat 0 (8 * n)) (t == .f32))]).awaiting
        (atomicDest nr wd) 1 k false).ordered ord.toNat (s.scope 0))) := by
  subst hn
  refine issue_next hm ?_
  rw [Act.bind_ok (State.opnd_ok hx)]
  refine (Act.bind_ok (remoteAddr_ok hplace s)).trans ?_
  rw [Act.bind_ok (home_ok hpa), Act.bind_ok (home_ok hpr), Act.bind_ok (readNat_ok hy)]
  refine ((Act.bind_ite _ _ _ s).trans (Act.bind_ok (atomicCompare_ok hz))).trans ?_
  beta_reduce
  rw [Act.bind_ok (Act.view_run _ s)]
  refine (Act.bind_ok (orderBefore_ok hopen)).trans ?_
  refine (Act.bind_ok (openAccess_ok _ _ hk)).trans ?_
  cases nr <;> rfl

end

end

/-- Settles O31: each of the three is refused at a misplaced address, by trap 0x12 without the token, and else sent by an entry. -/
theorem remoteAccessesComplete : Obligations.RemoteAccessesComplete := by
  unfold Obligations.RemoteAccessesComplete
  refine ⟨?load, ?store, ?atomic⟩
  case load =>
    intro g dst a ca lq cls t s x hm hx va n r l
    exact ⟨ldr_misplaced hm hx rfl, fun pa hplace hpa => ⟨ldr_tokenless hm hx rfl hplace hpa,
      fun k htoken hk => ldr_reads hm hx rfl hplace hpa htoken hk rfl rfl⟩⟩
  case store =>
    intro g src a ca cls t s x z hm hx hz va n
    exact ⟨str_misplaced hm hx rfl, fun pa hplace hpa => ⟨str_tokenless hm hx rfl hplace hpa,
      fun k htoken hk => str_writes hm hx rfl hplace hpa hz htoken hk⟩⟩
  case atomic =>
    intro g wd a wb rop nr ord cls t s x y z hm hx hy hz va n r
    exact ⟨ratom_misplaced hm hx rfl, fun pa pr k hplace hpa hpr hopen hk => ratom_asks hm hx rfl hy hz hplace hpa hpr hopen hk⟩

end Sys2Proof.Machine
end

section
/-! Ownership tokens (O32): what `tacq` and `trel` do with the issuing die's token, and the events of its home. -/

namespace Sys2Proof.Machine

/-! ### `tacq` and `trel` (R290, R291) -/

/-- Whether the issuer's die holds the token of a region (R290). -/
def State.holds (s : State) (va : Nat) : Prop := (s.tokenAt s.myVd va).holder = some (podDie s)

/-- Whether the issuer's device has no cache on the die, or no frame of it is left for another region (R289). -/
def State.cacheCold (s : State) : Prop := (s.vdAt s.myVd).rcache = 0 ∨ Config.tokenFrames ≤ framesTaken s s.myVd (podDie s)

section
variable {g : Guard} {d e : BitVec 5} {s : State} {x : Vec} (hx : s.regIn ⟨.e, e.toNat⟩ = some x) (hplace : remoteOk x.toNat (2 ^ 21))
  (hwhole : regionWhole s s.myVd x.toNat = true)
include hx hplace hwhole

section
variable (hm : mayIssue (.tacq g d e) g s = true)
include hm

theorem tacq_held (hheld : s.holds x.toNat) : exec (.tacq g d e) s = .next (advance (s.wrote (.tacq g d e) 1)) := by
  refine issue_next hm ?_
  rw [Act.bind_ok (regionOperand_ok hx hplace hwhole), Act.bind_ok (Act.view_run _ s)]
  exact (congrFun (if_pos hheld) s).trans (deliverNat_run _ _ _)

variable (hheld : ¬s.holds x.toNat)
include hheld

theorem tacq_refused (hasks : podDie s ∉ (s.tokenAt s.myVd x.toNat).asks) (hcold : s.cacheCold) :
    exec (.tacq g d e) s = .next (advance (s.wrote (.tacq g d e) 0)) := by
  refine issue_next hm ?_
  rw [Act.bind_ok (regionOperand_ok hx hplace hwhole), Act.bind_ok (Act.view_run _ s)]
  refine (congrFun (if_neg hheld) s).trans ((congrFun (if_pos ?_) s).trans (deliverNat_run _ _ _))
  simpa [State.cacheCold] using And.intro hasks hcold

/-- Where no token and no refusal answers it, `tacq` asks and stalls. -/
theorem tacq_turnsToAsk (h : podDie s ∈ (s.tokenAt s.myVd x.toNat).asks ∨ ¬s.cacheCold) :
    exec (.tacq g d e) s = issue (.tacq g d e) g (askToken x.toNat) s := by
  refine issue_congr ?_ hm
  rw [Act.bind_ok (regionOperand_ok hx hplace hwhole), Act.bind_ok (Act.view_run _ s)]
  refine (congrFun (if_neg hheld) s).trans (congrFun (if_neg ?_) s)
  simpa [State.cacheCold, imp_iff_not_or] using h

theorem tacq_asks (hasks : podDie s ∉ (s.tokenAt s.myVd x.toNat).asks) (hcold : ¬s.cacheCold) {t : Token}
    (ht : t = s.tokenAt s.myVd x.toNat) :
    exec (.tacq g d e) s = .next (stallHere (s.setToken s.myVd x.toNat { t with asks := t.asks ++ [podDie s] })) := by
  subst ht
  rw [tacq_turnsToAsk hx hplace hwhole hm hheld (.inr hcold)]
  refine issue_stop (e := .stallWith _) hm (if_neg ?_)
  rwa [List.contains_iff_mem]

theorem tacq_waits (hasks : podDie s ∈ (s.tokenAt s.myVd x.toNat).asks) : exec (.tacq g d e) s = .next (stallHere s) := by
  rw [tacq_turnsToAsk hx hplace hwhole hm hheld (.inl hasks)]
  exact issue_stop (e := .stall) hm (if_pos (List.contains_iff_mem.2 hasks))

end

section
variable (hm : mayIssue (.trel g e) g s = true)
include hm

theorem trel_other (hheld : ¬s.holds x.toNat) : exec (.trel g e) s = .next (advance s) := by
  refine issue_next hm ?_
  rw [Act.bind_ok (regionOperand_ok hx hplace hwhole), Act.bind_ok (Act.view_run _ s)]
  exact congrFun (if_neg hheld) s

theorem trel_returns (hheld : s.holds x.toNat) (hpending : cachedPending s s.myVd x.toNat = false) :
    exec (.trel g e) s = .next (advance (returnToken s s.myVd x.toNat)) := by
  refine issue_next hm ?_
  rw [Act.bind_ok (regionOperand_ok hx hplace hwhole), Act.bind_ok (Act.view_run _ s)]
  refine (congrFun (if_pos hheld) s).trans ?_
  rw [Act.bind_ok (Act.await_ok (by rw [hpending]; rfl)), Act.change_run]

end

end

/-! ### The home of a token (R290, R291) -/

section
variable {vd region : Nat} {s : State} {t : Token} (ht : t = s.tokenAt vd (region * 2 ^ 21))
include ht

theorem tacqRequest_serves {d : Nat} {r : List Nat} (hasks : t.asks = d :: r) (hgranted : t.granted = false) :
    exec (.tacqRequest vd region) s = .next (s.setToken vd (region * 2 ^ 21) (match t.holder with
      | none => { t with granted := true }
      | some h => if h = d then { t with asks := r } else { t with recalled := true })) := by
  show execTacqRequest vd region s = _
  unfold execTacqRequest
  dsimp only
  rw [← ht, hasks]
  dsimp only
  rw [hgranted, if_neg Bool.false_ne_true]
  cases t.holder with
  | none => rfl
  | some h =>
    dsimp only
    split <;> rfl

theorem tokenGrant_gives {d : Nat} {r : List Nat} (hasks : t.asks = d :: r) (hgranted : t.granted = true) :
    exec (.tokenGrant vd region) s = .next (s.setToken vd (region * 2 ^ 21)
      { Token.reset with holder := some d, asks := r, held := some s.now, frame := freeFrame s vd d }) := by
  show execTokenGrant vd region s = _
  unfold execTokenGrant
  dsimp only
  rw [← ht, hasks]
  dsimp only
  rw [hgranted, if_neg (by decide)]

theorem tokenHoldExpiry_ends {t0 : Nat} (hheld : t.held = some t0) (hdone : t0 + 1000 ≤ s.now) :
    exec (.tokenHoldExpiry vd region) s = .next (s.setToken vd (region * 2 ^ 21) { t with held := none }) := by
  show execTokenHoldExpiry vd region s = _
  unfold execTokenHoldExpiry
  dsimp only
  rw [← ht, hheld]
  exact if_neg (Nat.not_lt.2 hdone)

theorem tokenRecall_reaches (hrecalled : t.recalled = true) (hholder : t.holder.isSome = true) (hheld : t.held = none) {u : State}
    (hu : u = s.setToken vd (region * 2 ^ 21) { t with reached := true }) :
    exec (.tokenRecall vd region) s =
      .next (if cachedPending u vd (region * 2 ^ 21) then u else returnToken u vd (region * 2 ^ 21)) := by
  have hgo : ¬((!t.recalled || t.holder.isNone || t.held.isSome) = true) := by
    rw [hrecalled, hheld, ← Option.not_isSome, hholder]
    decide
  show execTokenRecall vd region s = _
  unfold execTokenRecall
  dsimp only
  rw [← ht, if_neg hgo, ← hu]
  split <;> rfl

end

/-- Settles O32: `tacq` and `trel` by who holds the token and who asks for it, and each event of the home where its cause is there. -/
theorem tokensMove : Obligations.TokensMove := by
  unfold Obligations.TokensMove
  refine ⟨?acquire, ?release, fun vd region s d r => tacqRequest_serves rfl, fun vd region s d r => tokenGrant_gives rfl,
    fun vd region s t0 => tokenHoldExpiry_ends rfl,
    fun vd region s hrecalled hholder hheld => tokenRecall_reaches rfl hrecalled hholder hheld rfl⟩
  case acquire =>
    intro g d e s x hm hx hplace hwhole t cold
    exact ⟨tacq_held hx hplace hwhole hm, tacq_refused hx hplace hwhole hm,
      fun hheld hasks hcold => tacq_asks hx hplace hwhole hm hheld hasks hcold rfl, tacq_waits hx hplace hwhole hm⟩
  case release =>
    intro g e s x hm hx hplace hwhole
    exact ⟨trel_other hx hplace hwhole hm, trel_returns hx hplace hwhole hm⟩

end Sys2Proof.Machine
end

section
/-! The events of bridge links and of the rings' stations (O51). -/

namespace Sys2Proof.Machine

/-! ### Frames and acknowledgements (R367) -/

/-- The frame that a link takes next: the number after the last that it accepted, with its check passed (R367). -/
def State.nextFrame (s : State) (l : Nat) (f : LinkFrame) : Prop :=
  linkUp s l = true ∧ f.good = true ∧ f.seq = ((s.link l).accepted + 1) % 2 ^ 16

theorem linkPacketReceive_discards {s : State} {l : Nat} {f : LinkFrame} (h : ¬s.nextFrame l f) : exec (.linkPacketReceive l f) s = .next s := by
  refine if_pos ?_
  by_contra hgo
  simp only [not_or, Bool.not_eq_true', ne_eq, not_not, Bool.not_eq_false] at hgo
  exact h hgo

section
variable {s : State} {l : Nat} {k : Link} (hk : k = s.link l)
include hk

theorem linkPacketReceive_takes {f : LinkFrame} (h : s.nextFrame l f) :
    exec (.linkPacketReceive l f) s = .next (takeFrame (s.setLink l { k with accepted := f.seq }) l f) := by
  obtain ⟨hup, hgood, hseq⟩ := h
  subst hk
  refine if_neg ?_
  rw [hup, hgood, ← hseq]
  simp

theorem linkAck_frees {seq n : Nat} (hn : n = (seq + 2 ^ 16 - k.acked) % 2 ^ 16) (hup : linkUp s l = true) (hseq : seq < 2 ^ 16)
    (hle : n ≤ k.buffer.length) :
    exec (.linkAck l seq) s = .next (s.setLink l { k with
      acked := seq
      buffer := k.buffer.drop n
      away := k.away.filter (unanswered s) ++ ((k.buffer.take n).map (·.2)).filter (fun p => p.asks && p.src == s.module) }) := by
  subst hn hk
  refine if_neg ?_
  rw [hup, not_or, not_or]
  exact ⟨by decide, Nat.not_le.2 hseq, Nat.not_lt.2 hle⟩

/-! ### Lanes and retraining (R367) -/

section
variable {lane : Nat} (hup : linkUp s l = true) (hlane : lane < 16)
include hup hlane

omit hk in
theorem lane_counts : ¬((!linkUp s l) = true ∨ 16 ≤ lane) := by
  rw [hup, not_or]
  exact ⟨by decide, Nat.not_le.2 hlane⟩

theorem laneFailure_halves (hfull : k.lanes = 16) : exec (.laneFailure l lane) s = .next
    (s.setLink l { k with lanes := 8, lowHalf := decide (8 ≤ lane), retrain := some s.now }) := by
  have hcount := lane_counts hup hlane
  subst hk
  exact (if_neg hcount).trans (if_pos hfull)

theorem laneFailure_kills (hfull : k.lanes ≠ 16) (hhalf : k.lowHalf = decide (lane < 8)) :
    exec (.laneFailure l lane) s = .next (killLink s l) := by
  have hcount := lane_counts hup hlane
  subst hk
  exact (if_neg hcount).trans ((if_neg hfull).trans (if_pos hhalf))

end

section
variable {t : Nat} (ht : k.retrain = some t)
include ht

theorem linkRetrained_inTime (h : s.now ≤ t + 2000) :
    exec (.linkRetrained l) s = .next (s.setLink l { k with retrain := none }) := by
  subst hk
  show execLinkRetrained l s = _
  unfold execLinkRetrained
  dsimp only
  rw [ht]
  exact if_pos h

theorem linkRetrainTimeout_kills (h : t + 2000 < s.now) : exec (.linkRetrainTimeout l) s = .next (killLink s l) := by
  subst hk
  show execLinkRetrainTimeout l s = _
  unfold execLinkRetrainTimeout
  rw [ht]
  exact if_pos h

end

end

/-! ### Training (R382, R384) and occupancy (R381) -/

section
variable {s : State} {l version : Nat} (ms : List Nat) (hready : s.ready = true) (hl : l < 8) (hdown : (s.link l).up = false)
include hready hl hdown

theorem training_open : ¬(8 ≤ l ∨ (s.link l).up = true ∨ s.ready = false) := by
  rw [hready, hdown]
  simp [Nat.not_le.2 hl]

theorem linkTraining_refused (h : ¬(bitsAt version 16 16 = 1 ∧ version < 2 ^ 32)) :
    exec (.linkTraining l version ms) s = .next (s.setLink l { Link.reset with up := false }) := by
  refine (if_neg (training_open hready hl hdown)).trans (if_pos ?_)
  rwa [not_and_or, Nat.not_lt] at h

theorem linkTraining_trains (h : bitsAt version 16 16 = 1 ∧ version < 2 ^ 32) :
    exec (.linkTraining l version ms) s = .next
      { s.setLink l { Link.reset with up := true, version := min (bitsAt version 0 16) 0 } with
        podMap := ms.foldl (fun m n => if n < 64 then Nat.lor m (2 ^ n) else m) s.podMap } := by
  obtain ⟨hmajor, hversion⟩ := h
  refine (if_neg (training_open hready hl hdown)).trans ((if_neg ?_).trans rfl)
  rw [not_or]
  exact ⟨fun hne => hne hmajor, Nat.not_le.2 hversion⟩

end

theorem ringSkewMeasure_closes {st : Nat} (h : st < 12) (cw ccw : Nat) (s : State) : exec (.ringSkewMeasure st cw ccw) s = .next
    { s with occup := (s.occup.put (2 * st) (min cw 100)).put (2 * st + 1) (min ccw 100) } := if_neg (Nat.not_le.2 h)

/-- Settles O51: each event of a link or a station by its conditions. -/
theorem linksCarryAndRecover : Obligations.LinksCarryAndRecover := by
  unfold Obligations.LinksCarryAndRecover
  refine ⟨fun l f s => ⟨linkPacketReceive_takes rfl, linkPacketReceive_discards⟩, fun l seq s => linkAck_frees rfl rfl, ?lanes,
    fun l t s ht => ⟨linkRetrained_inTime rfl ht, linkRetrainTimeout_kills rfl ht⟩, ?training, fun st cw ccw s h =>
    ringSkewMeasure_closes h cw ccw s⟩
  case lanes =>
    intro l lane s k hup hlane
    exact ⟨laneFailure_halves rfl hup hlane, laneFailure_kills rfl hup hlane⟩
  case training =>
    intro l version ms s hready hl hdown good
    exact ⟨linkTraining_refused ms hready hl hdown, linkTraining_trains ms hready hl hdown⟩

end Sys2Proof.Machine
end

section
/-! Slice windows, withdraws, save steps and replay horizons (O49). -/

namespace Sys2Proof.Machine

theorem sliceGraceExpiry_freezes {loc t : Nat} {s : State} (hslice : (s.seqAt loc).slice = some t) (hruns : (s.seqAt loc).status = 1)
    (hdue : t ≤ s.now) : exec (.sliceGraceExpiry loc) s = .next (freezeForSave s loc) := by
  show execSliceGraceExpiry loc s = _
  unfold execSliceGraceExpiry
  dsimp only
  rw [hslice]
  exact if_pos ⟨hruns, hdue⟩

/-! ### Withdraws (R360) -/

section
variable {loc ep : Nat} {s : State} {w : Withdraw} (hw : s.withdraws.find? (fun w => w.loc == loc) = some w)
include hw

theorem withdrawReceive_discards (hplace : w.discard.contains ep = true) {u : State} (hu : u = discardFor s loc (placeHolds s ep)) :
    exec (.withdrawReceive loc ep) s = .next { u with withdraws := mapWithdraw loc (fun w => { w with
      discard := w.discard.filter (· != ep), acks := w.acks ++ [ep] }) u.withdraws } := by
  subst hu
  show execWithdrawReceive loc ep s = _
  unfold execWithdrawReceive
  rw [hw]
  dsimp only
  rw [hplace]
  rfl

variable (hack : w.acks.contains ep = true) {w' : Withdraw} (hw' : w' = { w with acks := w.acks.filter (· != ep) })
include hack hw'

/-- An acknowledgement ends the withdraw where it is the last, and else is taken off it. -/
theorem withdrawAck_outcome : exec (.withdrawAck loc ep) s = .next (if w'.acks = [] ∧ w'.discard = [] then
      discardFor { s with withdraws := s.withdraws.filter (fun v => v.loc != loc) } loc (fun _ => true)
    else { s with withdraws := mapWithdraw loc (fun _ => w') s.withdraws }) := by
  subst hw'
  show execWithdrawAck loc ep s = _
  unfold execWithdrawAck
  rw [hw]
  dsimp only
  rw [hack]
  simp only [Bool.not_true, Bool.false_eq_true, if_false, List.isEmpty_iff]
  split <;> rfl

end

/-! ### Save steps (R362, R366) -/

/-- The state with a job of a die one step on. -/
def State.jobOn (s : State) (d : Nat) (j : SaveJob) : State := s.setDie d { s.dieAt d with job := some { j with done := j.done + 1 } }

section
variable {d : Nat} {s : State} {j : SaveJob} (hjob : (s.dieAt d).job = some j) (hready : jobReady s j = true)
include hjob hready

/-- What a step of a job does that may go on. -/
theorem saveStep_eq : exec (.saveStep d) s =
    if !j.abort.isEmpty then .next (abortSave s d j)
    else if j.restore then .next (if j.done + 1 < restoreSteps j then s.jobOn d j else endJob s d j)
    else match (jobBlocks s j)[j.done]? with
      | some (p, n) => .next ((writeBlock s j (p.off + 4096 * n) (p.block n)).jobOn d j)
      | none =>
        let t := match (jobHeaders j)[j.done - (jobBlocks s j).length]? with
          | some (loc, off) => writeHeader s j loc off
          | none => s
        .next (if j.done + 1 < (jobBlocks s j).length + (jobHeaders j).length then t.jobOn d j else endJob t d j) := by
  show execSaveStep d s = _
  unfold execSaveStep
  rw [hjob]
  dsimp only
  rw [hready, if_neg (by decide)]
  rfl

theorem saveStep_aborts (habort : j.abort ≠ []) : exec (.saveStep d) s = .next (abortSave s d j) := by
  rw [saveStep_eq hjob hready]
  refine if_pos ?_
  rw [Bool.not_eq_true', List.isEmpty_eq_false_iff]
  exact habort

variable (habort : j.abort = [])
include habort

theorem saveStep_restores (hrestore : j.restore = true) :
    exec (.saveStep d) s = .next (if j.done + 1 < restoreSteps j then s.jobOn d j else endJob s d j) := by
  rw [saveStep_eq hjob hready, habort]
  exact (if_neg (by decide)).trans (if_pos hrestore)

variable (hrestore : j.restore = false)
include hrestore

theorem saveStep_writesBlock {p : CellarPart} {n : Nat} (hblock : (jobBlocks s j)[j.done]? = some (p, n)) :
    exec (.saveStep d) s = .next ((writeBlock s j (p.off + 4096 * n) (p.block n)).jobOn d j) := by
  rw [saveStep_eq hjob hready, habort, hrestore, hblock]
  rfl

theorem saveStep_writesHeader {loc off : Nat} (hblocks : (jobBlocks s j).length ≤ j.done)
    (hheader : (jobHeaders j)[j.done - (jobBlocks s j).length]? = some (loc, off)) {t : State} (ht : t = writeHeader s j loc off) :
    exec (.saveStep d) s =
      .next (if j.done + 1 < (jobBlocks s j).length + (jobHeaders j).length then t.jobOn d j else endJob t d j) := by
  subst ht
  rw [saveStep_eq hjob hready, habort, hrestore, List.getElem?_eq_none hblocks, hheader]
  rfl

end

/-! ### Replay horizons (R359) -/

theorem horizonPublish_publishes {loc : Nat} {s : State} {q : Seq} (hq : q = s.seqAt loc)
    (hpast : ∀ p ∈ q.past, ∃ e ∈ q.ifr, e.2.key.origin = p.1 ∧ e.2.key.epoch = p.2.1) (hepoch : q.epoch ≠ 0) {h : List Nat}
    (hh : h = horizonsOf q) (hmoved : h ≠ q.horizons) :
    exec (.horizonPublish loc) s = .next { s.setSeq loc { q with horizons := h } with
      published := s.published ++ [⟨loc, q.origin, q.epoch, h, publishPlaces⟩] } := by
  have hnone : q.past.find? (fun p => !q.ifr.any (fun e => e.2.key.origin == p.1 && e.2.key.epoch == p.2.1)) = none := by
    rw [List.find?_eq_none]
    intro p hp
    obtain ⟨e, he, horigin, hep⟩ := hpast p hp
    have hany : q.ifr.any (fun e => e.2.key.origin == p.1 && e.2.key.epoch == p.2.1) = true :=
      List.any_eq_true.2 ⟨e, he, by rw [horigin, hep, beq_self_eq_true, beq_self_eq_true]; rfl⟩
    rw [hany]
    decide
  subst hq hh
  show execHorizonPublish loc s = _
  unfold execHorizonPublish
  dsimp only
  rw [hnone]
  exact if_neg (not_or.2 ⟨hepoch, hmoved⟩)

theorem horizonRetire_retires {ep loc : Nat} {s : State} {h : Horizon}
    (hh : s.published.find? (fun h => h.loc == loc && h.eps.contains ep) = some h) {u : State}
    (hu : u = s.setEp ep { s.epAt ep with window := (s.epAt ep).window.filter (fun r => !retired h r) }) :
    exec (.horizonRetire ep loc) s = .next { u with published := (u.published.map (fun x =>
      if x = h then { h with eps := h.eps.filter (· != ep) } else x)).filter (fun x => !x.eps.isEmpty) } := by
  subst hu
  show execHorizonRetire ep loc s = _
  unfold execHorizonRetire
  rw [hh]

/-- Settles O49: each event where its cause is there; a save step by what `saveStep_eq` says of its job. -/
theorem slicesWithdrawsSavesAndHorizons : Obligations.SlicesWithdrawsSavesAndHorizons := by
  unfold Obligations.SlicesWithdrawsSavesAndHorizons
  refine ⟨fun loc s t => sliceGraceExpiry_freezes, fun loc ep s w hw hplace => withdrawReceive_discards hw hplace rfl, ?ack, ?save,
    fun loc s hpast hepoch => horizonPublish_publishes rfl hpast hepoch rfl, fun ep loc s h hh => horizonRetire_retires hh rfl⟩
  case ack =>
    intro loc ep s w hw hack w'
    rw [withdrawAck_outcome hw hack rfl]
    exact ⟨fun h => congrArg _ (if_pos h), fun h => congrArg _ (if_neg h)⟩
  case save =>
    intro d s j k hjob hready on bs hs
    exact ⟨saveStep_aborts hjob hready, saveStep_restores hjob hready,
      fun p n habort hrestore => saveStep_writesBlock hjob hready habort hrestore,
      fun loc off habort hrestore hblocks hheader => saveStep_writesHeader hjob hready habort hrestore hblocks hheader rfl⟩

end Sys2Proof.Machine
end

section
/-! Errors, the reset of a module and power off (O52). -/

namespace Sys2Proof.Machine

/-! ### Errors (R347, R348) -/

section
variable {addr : Nat} {s : State}

theorem uncorrectableError_marks (haddr : addr < 2 ^ 64) (hnew : s.marks.contains (addr / 8) = false) :
    exec (.uncorrectableError addr) s = .next { s with marks := s.marks ++ [addr / 8] } := by
  refine (if_neg (Nat.not_le.2 haddr)).trans (if_neg ?_)
  rw [hnew]
  decide

theorem uncorrectableError_own {loc : Nat} {e : Option Reg × Nat} (haddr : 2 ^ 64 ≤ addr) (hloc : loc = addr / 2 ^ 64 - 1)
    (hin : loc < 512) (he : e = (errorReg (addr % 2 ^ 64), addr % 256)) (hnew : (s.seqAt loc).errs.contains e = false) :
    exec (.uncorrectableError addr) s = .next (s.setSeq loc { s.seqAt loc with errs := (s.seqAt loc).errs ++ [e] }) := by
  subst hloc he
  refine (if_pos haddr).trans (if_neg ?_)
  rw [hnew, not_or]
  exact ⟨Nat.not_le.2 hin, by decide⟩

end

/-! ### Reset (R384) -/

/-- With no store waiting, offering the stores that recirculate changes nothing. -/
theorem offerLaunches_none {s : State} (h : s.casts = []) : offerLaunches s = s := by
  unfold offerLaunches
  rw [h]
  rfl

/-- Whether the next bring-up finds a boot number and images that it accepts (R384). -/
def State.bringsUp (s : State) (images : List Nat) : Bool :=
  decide (Nat.min (s.boot + 1) (2 ^ 32 - 1) < 2 ^ 32 - 1) && images.all (accepted s)

theorem moduleReset_eq (images : List Nat) (s : State) :
    moduleReset images s = afterReset s (Nat.min (s.boot + 1) (2 ^ 32 - 1)) images (s.bringsUp images) := rfl

theorem bringsUp_spent {s : State} (h : 2 ^ 32 - 2 ≤ s.boot) (images : List Nat) : s.bringsUp images = false := by
  have hmin : Nat.min (s.boot + 1) (2 ^ 32 - 1) = 2 ^ 32 - 1 := Nat.min_eq_right (by omega)
  unfold State.bringsUp
  rw [hmin]
  rfl

theorem bringsUp_iff {s : State} (h : s.boot < 2 ^ 32 - 2) (images : List Nat) :
    s.bringsUp images = true ↔ ∀ i ∈ images, Config.imageAccepted i = true ∧ s.rollback ≤ i % 2 ^ 32 := by
  have hmin : Nat.min (s.boot + 1) (2 ^ 32 - 1) = s.boot + 1 := Nat.min_eq_left (by omega)
  have hlt : s.boot + 1 < 2 ^ 32 - 1 := by omega
  unfold State.bringsUp
  rw [hmin, decide_eq_true hlt, Bool.true_and, List.all_eq_true]
  simp only [accepted, Bool.and_eq_true, decide_eq_true_eq]

/-- A bring-up that halts leaves memory as it was. -/
theorem afterReset_halted (s : State) (boot : Nat) (images : List Nat) : afterReset s boot images false =
    { State.reset with
      agenda := s.agenda, cur := s.cur, free := s.free + 1, module := s.module, boot := boot, rollback := s.rollback
      lmsLeaf := s.lmsLeaf, podMap := 2 ^ s.module, ready := false, firmware := images, mem := s.mem, marks := s.marks
      casts := s.casts.filter (fun c => match c with | .launch _ _ => true | .flip _ _ _ _ => false) } := rfl

/-- One that goes through, with no launch store waiting, leaves the machine of reset but for the flash and the fuses. -/
theorem afterReset_ready {s : State} (h : s.casts = []) (boot : Nat) (images : List Nat) : afterReset s boot images true =
    { State.reset with
      agenda := s.agenda, cur := s.cur, free := s.free + 1, module := s.module, boot := boot, rollback := s.rollback
      lmsLeaf := s.lmsLeaf, podMap := 2 ^ s.module, ready := true, firmware := images } := by
  unfold afterReset
  rw [if_pos rfl, h]
  exact offerLaunches_none rfl

/-- Settles O52: errors by the kind of their address; the reset by whether it brings the module up; power off by what `afterReset` keeps. -/
theorem errorsResetAndPowerAct : Obligations.ErrorsResetAndPowerAct := by
  unfold Obligations.ErrorsResetAndPowerAct
  refine ⟨fun d s => rfl, fun addr s => uncorrectableError_marks, fun addr s haddr hin => uncorrectableError_own haddr rfl hin rfl,
    ?spent, ?reset, ?power⟩
  case spent =>
    intro images s hboot
    refine ⟨_, rfl, ?_⟩
    rw [moduleReset_eq, bringsUp_spent hboot, afterReset_halted]
  case reset =>
    intro images s hboot hcasts good
    have hnext : Nat.min (s.boot + 1) (2 ^ 32 - 1) = s.boot + 1 := Nat.min_eq_left (by omega)
    have hgood : s.bringsUp images = true ↔ good := bringsUp_iff hboot images
    refine ⟨_, rfl, ?_⟩
    rw [moduleReset_eq, hnext]
    cases hup : s.bringsUp images with
    | true =>
      rw [afterReset_ready hcasts]
      exact ⟨⟨fun _ => hgood.1 hup, fun _ => rfl⟩, rfl, rfl, rfl, rfl, rfl, rfl, rfl, rfl, rfl, rfl, fun _ => ⟨rfl, rfl⟩,
        fun h => absurd (hgood.1 hup) h⟩
    | false =>
      have hbad : ¬good := fun h => by rw [hgood.2 h] at hup; cases hup
      rw [afterReset_halted]
      exact ⟨⟨fun h => (by cases h), fun h => absurd h hbad⟩, rfl, rfl, rfl, rfl, rfl, rfl, rfl, rfl, rfl, rfl, fun h => absurd h hbad,
        fun _ => rfl⟩
  case power =>
    intro s
    refine ⟨_, rfl, ?_⟩
    rw [afterReset_halted]
    exact ⟨rfl, rfl, rfl, rfl, rfl, rfl, rfl, rfl, rfl⟩

end Sys2Proof.Machine
end

section
/-! Barriers (O38): arrivals and waits of Y, an arrival at its root, a flip at a leaf. -/

namespace Sys2Proof.Machine

section
variable {g : Guard} {scope : ScopeCode} {id c p : BitVec 4} {s : State} {x : Vec} {sc n : Nat}

/-! ### `bar.a` and `bar.w` (R306, R307) -/

section
variable (hm : mayIssue (.barA g scope id c p) g s = true) (hx : s.regIn ⟨.y, c.toNat⟩ = some x) (hsc : sc = s.scope scope.toNat)
  (hn : n = x.toNat % 2 ^ 32)
include hm hx hsc hn

/-- `bar.a` arrives with the count that it reads, and delivers the phase. -/
theorem barA_arrives : exec (.barA g scope id c p) s = issue (.barA g scope id c p) g
    (arriveAt sc id.toNat n >>= fun ph => writeReg ⟨.y, p.toNat⟩ 1 (BitVec.ofNat 512 ph)) s := by
  subst hsc hn
  refine issue_congr ?_ hm
  rw [Act.bind_ok (readNat_ok hx), Act.bind_ok (Act.view_run _ s)]

theorem barA_misused (hmis : s.misused sc id.toNat n = true) : exec (.barA g scope id c p) s = .next (trapHere s 0x41 0) := by
  rw [barA_arrives hm hx hsc hn]
  exact issue_stop hm (Act.bind_error (arriveAt_stop hmis))

variable (hmis : s.misused sc id.toNat n = false)
include hmis

theorem barA_waits (hrel : fenceWaits s s.cur.loc .Y sc 0xFFFF = true) : exec (.barA g scope id c p) s = .next (stallHere s) := by
  rw [barA_arrives hm hx hsc hn]
  exact issue_stop hm (Act.bind_error (arriveAt_wait hmis hrel))

theorem barA_completes (hrel : fenceWaits s s.cur.loc .Y sc 0xFFFF = false) {t : State} (ht : s.arrived sc id.toNat n = some t) :
    exec (.barA g scope id c p) s = .next (advance
      (t.send ⟨.y, p.toNat⟩ 1 (BitVec.ofNat 512 (s.arrivesIn sc id.toNat)) allBytes 0)) := by
  rw [barA_arrives hm hx hsc hn]
  exact issue_next hm ((Act.bind_ok (arriveAt_ok hmis hrel ht)).trans (writeReg_run _ _ _ _))

end

/-- `bar.w` waits for the flip of the phase that it reads. -/
theorem barW_waits (hm : mayIssue (.barW g scope id p) g s = true) (hx : s.regIn ⟨.y, p.toNat⟩ = some x) (hsc : sc = s.scope scope.toNat) :
    exec (.barW g scope id p) s = issue (.barW g scope id p) g (waitFlip sc id.toNat (x.toNat % 2 ^ 32)) s := by
  subst hsc
  refine issue_congr ?_ hm
  rw [Act.bind_ok (readNat_ok hx), Act.bind_ok (Act.view_run _ s)]

/-! ### `bar` (R307) -/

/-- A `bar` that has not arrived arrives, and then holds Y with the phase it arrived in. -/
theorem bar_arrives (hnew : s.me.barAt = none) (hm : mayIssue (.bar g scope id c p) g s = true) (hx : s.regIn ⟨.y, c.toNat⟩ = some x)
    (hsc : sc = s.scope scope.toNat) (hn : n = x.toNat % 2 ^ 32) :
    exec (.bar g scope id c p) s = issue (.bar g scope id c p) g
      (arriveAt sc id.toNat n >>= fun ph => Act.hold (fun s => s.setMe { s.me with barAt := some ph })) s := by
  subst hsc hn
  show issue (.bar g scope id c p) (begunGuard s.me.barAt.isSome g) _ s = _
  rw [hnew]
  refine issue_congr ?_ hm
  rw [Act.bind_ok (Act.view_run _ s)]
  exact Act.bind_ok (readNat_ok hx)

/-- One that has arrived waits for the flip, whatever its predicate, and delivers that phase. -/
theorem bar_waits {ph : Nat} (hbegun : s.me.barAt = some ph) (hm : mayIssue (.bar g scope id c p) ⟨15, false⟩ s = true)
    (hsc : sc = s.scope scope.toNat) :
    exec (.bar g scope id c p) s = issue (.bar g scope id c p) ⟨15, false⟩ (do
      waitFlip sc id.toNat ph
      Act.change (fun s => s.setMe { s.me with barAt := none })
      writeReg ⟨.y, p.toNat⟩ 1 (BitVec.ofNat 512 ph)) s := by
  subst hsc
  show issue (.bar g scope id c p) (begunGuard s.me.barAt.isSome g) _ s = _
  rw [hbegun]
  exact issue_congr (Act.bind_ok (Act.view_run _ s)) hm

end

/-! ### At the root (R194, R306, R357) -/

section
variable {s : State} {pk key n : Nat} {p : Packet} (hp : s.packet pk = some p) (hkind : p.kind = .arrival key n)
  (haccepted : p.accepted = true) (hdst : p.dst = s.module)
  (hfirst : ∀ q ∈ s.net.takeWhile (fun q => q.id != pk), ∀ j, q.kind = .arrival key j → q.key.vd ≠ p.key.vd)
  (hroom : recordOf s barrierEp p.key 0 ≠ none ∨ (s.epAt barrierEp).window.length < Config.windowRecords)

/-- The root's state once an arrival is counted, unless a record holds it already (R357). -/
def State.countedAt (s : State) (p : Packet) (key n : Nat) : State :=
  match recordOf s barrierEp p.key 0 with
  | some _ => s
  | none => countArrival (addRecord s barrierEp ⟨p.key, 0, (s.barrier p.key.vd key).ph, 0⟩) p.key.vd key n (512 * p.src + p.loc)

include hp hkind haccepted hdst hfirst hroom

/-- An arrival that nothing holds back is counted, and answered or freed by where it came from. -/
theorem barrierRootArrival_counts : exec (.barrierRootArrival pk) s = .next (if p.src ≠ s.module then
    answer (s.countedAt p key n) p (.reply 0 0) else freeArrival (dropPacket (s.countedAt p key n) pk) p) := by
  have hopen : ¬((recordOf s barrierEp p.key 0).isNone = true ∧ Config.windowRecords ≤ (s.epAt barrierEp).window.length) := by
    rintro ⟨hnone, hfull⟩
    exact hroom.elim (fun h => h (Option.isNone_iff_eq_none.1 hnone)) (fun h => absurd hfull (Nat.not_le.2 h))
  show execBarrierRootArrival pk s = _
  unfold execBarrierRootArrival
  rw [hp]
  dsimp only
  rw [hkind]
  dsimp only
  refine (if_neg ?turn).trans ((if_neg hopen).trans ?_)
  case turn =>
    rw [haccepted, hdst, any_false (fun q hq => ?_)]
    · simp
    · split
      next k j hk =>
        by_cases hkey : k = key
        · subst hkey
          rw [beq_eq_false_iff_ne.2 (hfirst q hq j hk), Bool.and_false]
        · rw [beq_eq_false_iff_ne.2 hkey, Bool.false_and]
      next => rfl
  split <;> rfl

end

theorem freeArrival_own {s : State} {p : Packet} {e : Ifr} {q : Seq} (hq : q = s.seqAt p.loc) (he : q.ifr.find p.entry = some e)
    (hkey : e.key = p.key) : freeArrival s p = s.setSeq p.loc { q with ifr := q.ifr.drop p.entry } := by
  subst hq
  unfold freeArrival
  dsimp only
  rw [he]
  exact if_pos hkey

/-! ### At a leaf (R200, R305) -/

theorem phaseFlip_reaches {s : State} {j core vd key ph : Nat} {cores : List Nat} (hj : s.casts[j]? = some (.flip vd key ph cores))
    (hcore : cores.contains core = true) (hfirst : ∀ e ∈ s.casts.take j, e.awaits core = false) {v : Vd} (hv : v = s.vdAt vd)
    {left : List Nat} (hleft : left = cores.filter (· != core)) :
    exec (.phaseFlip j core) s = .next (offerLaunches
      { s.setVd vd { v with leaves := v.leaves.put (256 * key + core) ph } with
        casts := s.casts.take j ++ (if left.isEmpty then [] else [.flip vd key ph left]) ++ s.casts.drop (j + 1) }) := by
  have hgo : ¬((!cores.contains core || (s.casts.take j).any (·.awaits core)) = true) := by
    rw [hcore, any_false hfirst]
    decide
  subst hv hleft
  show execPhaseFlip j core s = _
  unfold execPhaseFlip
  rw [hj]
  exact if_neg hgo

/-- Settles O38: arrivals and waits by `arriveAt` and `waitFlip`; the root and the leaf where nothing earlier holds them back. -/
theorem barriersCountAndFlip : Obligations.BarriersCountAndFlip := by
  unfold Obligations.BarriersCountAndFlip
  refine ⟨?arrive, ?wait, ?both, ?held, ?root, fun s j core vd key ph cores hj hcore hfirst =>
    phaseFlip_reaches hj hcore hfirst rfl rfl⟩
  case arrive =>
    intro g scope id c p s x hm hx sc n
    exact ⟨barA_misused hm hx rfl rfl, barA_waits hm hx rfl rfl, fun t hmis hrel ht => barA_completes hm hx rfl rfl hmis hrel ht⟩
  case wait =>
    intro g scope id p s x hm hx sc there
    rw [barW_waits hm hx rfl]
    exact ⟨fun h => issue_next hm (waitFlip_ok h.1 h.2), fun h => issue_stop hm (waitFlip_stop h)⟩
  case both =>
    intro g scope id c p s x hnew hm hx sc n
    rw [bar_arrives hnew hm hx rfl rfl]
    exact ⟨fun hmis => issue_stop hm (Act.bind_error (arriveAt_stop hmis)),
      fun hmis hrel => issue_stop hm (Act.bind_error (arriveAt_wait hmis hrel)),
      fun t hmis hrel ht => issue_stop (e := .stallWith _) hm (Act.bind_ok (arriveAt_ok hmis hrel ht))⟩
  case held =>
    intro g scope id c p s ph hbegun hm sc there
    rw [bar_waits hbegun hm rfl]
    refine ⟨fun h => issue_next hm ?_, fun h => issue_stop hm (Act.bind_error (waitFlip_stop h))⟩
    rw [Act.bind_ok (waitFlip_ok h.1 h.2), Act.bind_ok (Act.change_run _ s)]
    exact writeReg_run _ _ _ _
  case root =>
    intro s pk p key n hp hkind haccepted hdst hfirst hroom b t u q
    have hexec := barrierRootArrival_counts hp hkind haccepted hdst hfirst hroom
    refine ⟨fun hsrc => hexec.trans (congrArg _ (if_pos hsrc)), fun e hsrc he hkey => hexec.trans (congrArg _ ?_)⟩
    exact (if_neg (not_not.2 hsrc)).trans (freeArrival_own rfl he hkey)

end Sys2Proof.Machine
end

section
/-! Tasks that `spawn` starts, `sjoin`, the waits of Y, and the events that end them (O39). -/

namespace Sys2Proof.Machine

section
variable {g : Guard} {s : State}

/-! ### `spawn` and `sjoin` (R308) -/

section
variable {t e : BitVec 4} {y entry : Vec} (hm : mayIssue (.spawn g t e) g s = true) (hy : s.regIn ⟨.y, t.toNat⟩ = some y)
  (he : s.regIn ⟨.y, e.toNat⟩ = some entry)
include hm hy he

/-- Where `spawn` may start a task: a bundle of the issuer's code section (R308). -/
def State.entryOk (s : State) (entry : Nat) : Prop := entry % 64 = 0 ∧ entry < s.me.task.codeLen

theorem spawn_misplaced (h : ¬(s.spawnable y.toNat ∧ s.entryOk entry.toNat)) :
    exec (.spawn g t e) s = .next (trapHere s 0x11 0) := by
  refine issue_stop (e := .trap 0x11 0) hm ?_
  rw [Act.bind_ok (readNat_ok hy), Act.bind_ok (readNat_ok he)]
  by_cases htarget : s.spawnable y.toNat
  · have hentry : (decide (entry.toNat % 64 = 0) && decide (entry.toNat < s.me.task.codeLen)) = false := by
      rw [← Bool.not_eq_true, Bool.and_eq_true, decide_eq_true_iff, decide_eq_true_iff]
      exact fun hok => h ⟨htarget, hok⟩
    rw [Act.bind_ok (spawnTarget_ok htarget)]
    exact Act.bind_error (Act.check_stop hentry _ _ _)
  · exact Act.bind_error (spawnTarget_stop htarget)

variable {vs : List (Nat × Vec)} {tgt : Nat} (htarget : s.spawnable y.toNat) (hentry : s.entryOk entry.toNat) (hvs : s.passed = some vs)
  (htgt : tgt = 64 * dieOf s.cur.loc + y.toNat % 64)
include htarget hentry hvs htgt

/-- A `spawn` of a place and an entry that may be turns on whether the target is free. -/
theorem spawn_reaches : exec (.spawn g t e) s = issue (.spawn g t e) g (do
    Act.check (tgt != s.cur.loc && !spawnBusy s tgt s.myVd) 0x40 (fullLoc s tgt)
    Act.change (fun s => startSpawned s tgt entry.toNat vs)) s := by
  obtain ⟨halign, hcode⟩ := hentry
  have hok : (decide (entry.toNat % 64 = 0) && decide (entry.toNat < s.me.task.codeLen)) = true := by
    rw [decide_eq_true halign, decide_eq_true hcode, Bool.and_self]
  subst htgt
  refine issue_congr ?_ hm
  rw [Act.bind_ok (readNat_ok hy), Act.bind_ok (readNat_ok he), Act.bind_ok (spawnTarget_ok htarget), Act.bind_ok (Act.check_ok hok _ _ _),
    Act.bind_ok ((readPassed_pure _).ok hvs), Act.bind_ok (Act.view_run _ s)]
  rfl

theorem spawn_busy (h : tgt = s.cur.loc ∨ spawnBusy s tgt s.myVd = true) :
    exec (.spawn g t e) s = .next (trapHere s 0x40 (fullLoc s tgt)) := by
  have hbusy : (tgt != s.cur.loc && !spawnBusy s tgt s.myVd) = false := by
    rcases h with h | h <;> rw [h] <;> simp
  rw [spawn_reaches hm hy he htarget hentry hvs htgt]
  exact issue_stop hm (Act.bind_error (Act.check_stop hbusy _ _ _))

theorem spawn_starts (hother : tgt ≠ s.cur.loc) (hfree : spawnBusy s tgt s.myVd = false) :
    exec (.spawn g t e) s = .next (advance (startSpawned s tgt entry.toNat vs)) := by
  have hok : (tgt != s.cur.loc && !spawnBusy s tgt s.myVd) = true := by
    rw [bne_iff_ne.2 hother, hfree]
    rfl
  rw [spawn_reaches hm hy he htarget hentry hvs htgt]
  exact issue_next hm ((Act.bind_ok (Act.check_ok hok _ _ _)).trans (Act.change_run _ s))

end

section
variable {t : BitVec 4} {y : Vec} (hm : mayIssue (.sjoin g t) g s = true) (hy : s.regIn ⟨.y, t.toNat⟩ = some y)
include hm hy

theorem sjoin_misplaced (h : ¬s.spawnable y.toNat) : exec (.sjoin g t) s = .next (trapHere s 0x11 0) := by
  refine issue_stop (e := .trap 0x11 0) hm ?_
  rw [Act.bind_ok (readNat_ok hy)]
  exact Act.bind_error (spawnTarget_stop h)

variable {tgt : Nat} (htarget : s.spawnable y.toNat) (htgt : tgt = 64 * dieOf s.cur.loc + y.toNat % 64)
include htarget htgt

theorem sjoin_self (h : tgt = s.cur.loc) : exec (.sjoin g t) s = .next (trapHere s 0x41 0) := by
  have hself : (tgt != s.cur.loc) = false := by rw [h, bne_self_eq_false]
  subst htgt
  refine issue_stop (e := .trap 0x41 0) hm ?_
  rw [Act.bind_ok (readNat_ok hy), Act.bind_ok (spawnTarget_ok htarget)]
  exact Act.bind_error (Act.check_stop hself _ _ _)

/-- A `sjoin` of another sequencer of the launch waits for it. -/
theorem sjoin_turns (hother : tgt ≠ s.cur.loc) :
    exec (.sjoin g t) s = issue (.sjoin g t) g (Act.await (fun s => joined s tgt s.myVd)) s := by
  subst htgt
  refine issue_congr ?_ hm
  rw [Act.bind_ok (readNat_ok hy), Act.bind_ok (spawnTarget_ok htarget)]
  exact Act.bind_ok (Act.check_ok (bne_iff_ne.2 hother) _ _ _)

theorem sjoin_passes (hother : tgt ≠ s.cur.loc) (hjoined : joined s tgt s.myVd = true) : exec (.sjoin g t) s = .next (advance s) := by
  rw [sjoin_turns hm hy htarget htgt hother]
  exact issue_next hm (Act.await_ok hjoined)

theorem sjoin_waits (hother : tgt ≠ s.cur.loc) (hjoined : joined s tgt s.myVd = false) : exec (.sjoin g t) s = .next (stallHere s) := by
  rw [sjoin_turns hm hy htarget htgt hother]
  exact issue_stop hm (await_stall hjoined)

end

/-! ### `yield`, `sleep` and `evpost` (R309, R310) -/

/-- What a core's window of first choice becomes when one of its sequencers yields (R309): two yields of one moment cancel. -/
def State.yieldsTo (s : State) : Option (Nat × Nat) :=
  if (s.coreAt (coreOf s.cur.loc)).yieldTo = some (s.cur.loc, s.now + 23) then none else some (siblingOf s.cur.loc, s.now + 23)

section
variable (hm : mayIssue (.yield g) g s = true)
include hm

theorem yield_alone (h : (s.seqAt (siblingOf s.cur.loc)).status = 0) : exec (.yield g) s = .next (advance s) := by
  refine issue_next hm ?_
  rw [Act.change_run]
  dsimp only
  exact congrArg (fun u : State => Except.ok ((), u)) (if_pos h)

theorem yield_gives (h : (s.seqAt (siblingOf s.cur.loc)).status ≠ 0) {c : Nat} (hc : c = coreOf s.cur.loc) :
    exec (.yield g) s = .next (advance (s.setCore c { s.coreAt c with yieldTo := s.yieldsTo })) := by
  subst hc
  refine issue_next hm ?_
  rw [Act.change_run]
  dsimp only
  exact congrArg (fun u : State => Except.ok ((), u)) (if_neg h)

end

section
variable {n : BitVec 4} {x : Vec}

/-- A `sleep` that has not begun reads its count. -/
theorem sleep_first (hnew : s.me.sleepTo = none) (hm : mayIssue (.sleep g n) g s = true) (hx : s.regIn ⟨.y, n.toNat⟩ = some x) :
    exec (.sleep g n) s = issue (.sleep g n) g (if x.toNat % 2 ^ 32 = 0 then pure ()
      else Act.hold (fun s => s.setMe { s.me with sleepTo := some (s.now + x.toNat % 2 ^ 32) })) s := by
  show issue (.sleep g n) (begunGuard s.me.sleepTo.isSome g) _ s = _
  rw [hnew]
  exact issue_congr (Act.bind_ok (readNat_ok hx)) hm

/-- One that has begun waits for its time, whatever its predicate. -/
theorem sleep_again {t : Nat} (hbegun : s.me.sleepTo = some t) : exec (.sleep g n) s = issue (.sleep g n) ⟨15, false⟩ (do
    Act.await (fun s => decide (t ≤ s.now))
    Act.change (fun s => s.setMe { s.me with sleepTo := none })) s := by
  show issue (.sleep g n) (begunGuard s.me.sleepTo.isSome g) _ s = _
  rw [hbegun]
  rfl

end

section
variable {a b : BitVec 4} {x y : Vec} (hm : mayIssue (.evpost g a b) g s = true) (hx : s.regIn ⟨.y, a.toNat⟩ = some x)
  (hy : s.regIn ⟨.y, b.toNat⟩ = some y)
include hm hx hy

theorem evpost_posts {d vd : Nat} (hd : d = dieOf s.cur.loc) (hvd : vd = s.me.task.vd) (hroom : laneCount s d s.myVd < 256) :
    exec (.evpost g a b) s = .next (advance (postLane s d vd
      (eventRec vd (fullLoc s s.cur.loc) 1 s.me.task.lseq (x.toNat % 2 ^ 32) y.toNat (max (vtime s vd) s.me.last)))) := by
  subst hd hvd
  refine issue_next hm ?_
  rw [Act.bind_ok (readNat_ok hx), Act.bind_ok (readNat_ok hy)]
  exact (Act.bind_ok (Act.await_ok (decide_eq_true hroom))).trans (Act.change_run _ s)

theorem evpost_waits {d : Nat} (hd : d = dieOf s.cur.loc) (hfull : 256 ≤ laneCount s d s.myVd) :
    exec (.evpost g a b) s = .next (stallHere s) := by
  subst hd
  refine issue_stop (e := .stall) hm ?_
  rw [Act.bind_ok (readNat_ok hx), Act.bind_ok (readNat_ok hy)]
  exact Act.bind_error (await_stall (decide_eq_false (Nat.not_lt.2 hfull)))

end

/-! ### The events that end a yield, a wait of B and a sleep (R25, R309) -/

theorem yieldExpiry_ends {core w t : Nat} (hyield : (s.coreAt core).yieldTo = some (w, t)) (hdue : t ≤ s.now) :
    exec (.yieldExpiry core) s = .next (s.setCore core { s.coreAt core with yieldTo := none }) := by
  show execYieldExpiry core s = _
  unfold execYieldExpiry
  dsimp only
  rw [hyield]
  exact if_pos hdue

theorem sleepExpiry_wakes {loc t : Nat} (hsleep : (s.seqAt loc).sleepTo = some t) (hruns : (s.seqAt loc).status = 1) (hdue : t ≤ s.now) :
    exec (.sleepExpiry loc) s = .next
      (s.setSeq loc { s.seqAt loc with stalled := Nat.land (s.seqAt loc).stalled (511 - 2 ^ Slot.Y.num) }) := by
  show execSleepExpiry loc s = _
  unfold execSleepExpiry
  dsimp only
  rw [hsleep]
  exact if_pos ⟨hruns, hdue⟩

end

/-- Settles O39: each operation by the checks and waits of its act, each event where its time has come. -/
theorem spawnYieldSleepAndEvents : Obligations.SpawnYieldSleepAndEvents := by
  unfold Obligations.SpawnYieldSleepAndEvents
  refine ⟨?spawn, ?join, fun g s hm => ⟨yield_alone hm, fun h => yield_gives hm h rfl⟩, ?first, ?again, ?post,
    fun core s w t => yieldExpiry_ends, fun core slot s hslot hready => if_pos ⟨hslot, hready⟩, fun loc s t => sleepExpiry_wakes⟩
  case spawn =>
    intro g t e s y entry hm hy he tgt entryOk
    exact ⟨spawn_misplaced hm hy he, fun vs htarget hentry hvs =>
      ⟨spawn_busy hm hy he htarget hentry hvs rfl, spawn_starts hm hy he htarget hentry hvs rfl⟩⟩
  case join =>
    intro g t s y hm hy tgt
    exact ⟨sjoin_misplaced hm hy, fun htarget => sjoin_self hm hy htarget rfl, fun htarget => sjoin_passes hm hy htarget rfl,
      fun htarget => sjoin_waits hm hy htarget rfl⟩
  case first =>
    intro g n s x hnew hm hx
    rw [sleep_first hnew hm hx]
    exact ⟨fun h0 => issue_next hm (congrFun (if_pos h0) s), fun h0 => issue_stop (e := .stallWith _) hm (congrFun (if_neg h0) s)⟩
  case again =>
    intro g n s t hbegun hm
    rw [sleep_again hbegun]
    exact ⟨fun hdue => issue_next hm ((Act.bind_ok (Act.await_ok (decide_eq_true hdue))).trans (Act.change_run _ s)),
      fun hearly => issue_stop hm (Act.bind_error (await_stall (decide_eq_false (Nat.not_le.2 hearly))))⟩
  case post =>
    intro g a b s x y hm hx hy d vd
    exact ⟨evpost_posts hm hx hy rfl rfl, evpost_waits hm hx hy rfl⟩

end Sys2Proof.Machine
end

section
/-! Launch packets, the start of tasks and records to the host (O47). -/

namespace Sys2Proof.Machine

/-! ### Launch packets (R297, R298, R301) -/

/-- With one launch store waiting, offering takes it or leaves it. -/
theorem offerLaunches_one {s : State} {offset : Nat} {data : List Byte} (h : s.casts = [.launch offset data]) :
    offerLaunches s = match takeLaunch offset data s with
      | some u => { u with casts := u.casts.erase (.launch offset data) }
      | none => s := by
  unfold offerLaunches
  rw [h]
  rfl

section
variable {offset : Nat} {data : List Byte} {s t : State} (hcasts : s.casts = []) (ht : t = { s with casts := [.launch offset data] })
include hcasts ht

theorem launchPacket_offers : exec (.launchPacket offset data) s = .next (offerLaunches t) := by
  have happend : { s with casts := s.casts ++ [.launch offset data] } = t := by rw [ht, hcasts]; rfl
  exact congrArg (fun u => Host.Outcome.next (offerLaunches u)) happend

theorem launchPacket_waits (h : takeLaunch offset data t = none) : exec (.launchPacket offset data) s = .next t := by
  rw [launchPacket_offers hcasts ht, offerLaunches_one (by rw [ht]), h]

theorem launchPacket_taken {u : State} (h : takeLaunch offset data t = some u) :
    exec (.launchPacket offset data) s = .next { u with casts := u.casts.erase (.launch offset data) } := by
  rw [launchPacket_offers hcasts ht, offerLaunches_one (by rw [ht]), h]

/-- A store that is answered without a change to what else is on its way is gone. -/
theorem launchPacket_gone {u : State} (h : takeLaunch offset data t = some u) (hu : u.casts = t.casts) :
    exec (.launchPacket offset data) s = .next { u with casts := [] } := by
  have hempty : u.casts.erase (.launch offset data) = [] := by
    rw [hu, ht]
    exact List.erase_cons_head _ _
  rw [launchPacket_taken hcasts ht h, hempty]

end

section
variable {offset : Nat} {data : List Byte} {t : State}

theorem takeLaunch_early (h : t.ready = false) : takeLaunch offset data t = none := by
  unfold takeLaunch
  rw [h]
  rfl

variable (hready : t.ready = true)
include hready

theorem takeLaunch_malformed (h : ¬(offset = 0 ∧ data.length = 128)) :
    takeLaunch offset data t = some (postEvent t 0 0 (fullLoc t 0) 3 t.lseq 1 0) := by
  unfold takeLaunch
  rw [hready, if_neg (by decide)]
  exact if_pos (by rwa [not_and_or] at h)

variable (hoffset : offset = 0) (hlen : data.length = 128) {p : LaunchPacket} (hp : p = BitVec.ofNat 1024 (ofBytes data))
include hoffset hlen hp

/-- A whole packet is rejected where a check fails, waits where a flip is halfway or a queue full, and else is placed. -/
theorem takeLaunch_whole : takeLaunch offset data t =
    if launchCheck t p ≠ 0 then
      some { postEvent t 0 (if launchCheck t p = 5 ∧ !t.vds.has p.vd then 0 else p.vd) (fullLoc t 0) 3 t.lseq (launchCheck t p) 0 with
        lseq := (t.lseq + 1) % 2 ^ 32 }
    else if t.casts.any Cast.halfway ||
        (ownDies t p).any (fun e => decide (Config.queueLaunches ≤ queueLength t e.2 p.vd p.pri)) then none
    else some { placeLaunch t p with lseq := (t.lseq + 1) % 2 ^ 32 } := by
  subst hp
  unfold takeLaunch
  rw [hready, if_neg (by decide), if_neg (by rw [hoffset, hlen]; decide)]

theorem takeLaunch_rejected {code : Nat} (hcode : code = launchCheck t p) (h : code ≠ 0) :
    takeLaunch offset data t = some
      { postEvent t 0 (if code = 5 ∧ t.vds.has (LaunchPacket.vd p) = false then 0 else LaunchPacket.vd p) (fullLoc t 0) 3 t.lseq code 0 with
        lseq := (t.lseq + 1) % 2 ^ 32 } := by
  subst hcode
  rw [takeLaunch_whole hready hoffset hlen hp, if_pos h]
  simp only [Bool.not_eq_true']

variable (hcode : launchCheck t p = 0) (hcasts : t.casts = [.launch offset data])
include hcode hcasts

omit hcasts in
theorem takeLaunch_full
    (h : ∃ e ∈ ownDies t p, Config.queueLaunches ≤ queueLength t e.2 (LaunchPacket.vd p) (LaunchPacket.pri p)) :
    takeLaunch offset data t = none := by
  obtain ⟨e, he, hfull⟩ := h
  have hany : (ownDies t p).any (fun e => decide (Config.queueLaunches ≤ queueLength t e.2 p.vd p.pri)) = true :=
    List.any_eq_true.2 ⟨e, he, decide_eq_true hfull⟩
  rw [takeLaunch_whole hready hoffset hlen hp, hcode, hany, Bool.or_true]
  rfl

theorem takeLaunch_placed
    (h : ∀ e ∈ ownDies t p, queueLength t e.2 (LaunchPacket.vd p) (LaunchPacket.pri p) < Config.queueLaunches) :
    takeLaunch offset data t = some { placeLaunch t p with lseq := (t.lseq + 1) % 2 ^ 32 } := by
  have hany : (ownDies t p).any (fun e => decide (Config.queueLaunches ≤ queueLength t e.2 p.vd p.pri)) = false :=
    any_false fun e he => decide_eq_false (Nat.not_le.2 (h e he))
  rw [takeLaunch_whole hready hoffset hlen hp, hcode, hany, hcasts]
  rfl

end

/-! ### The start of a task (R300, R301) -/

theorem taskStart_starts {loc : Nat} {s : State} {l : Launch} {n : Nat} {r : List Nat} (hidle : (s.seqAt loc).status = 0)
    (hstarts : (s.seqAt loc).starts < 2 ^ 64 - 1) (hloc : loc < 512) (hspawned : takeSpawned s loc = none)
    (hl : nextLaunch s loc = some l) (htodo : l.todo.look [] loc = n :: r) {t : Task} (ht : t = { l.code with num := n })
    (hfits : fitsSibling s loc t = true) {k : Die} (hk : k = s.dieAt (dieOf loc)) {s1 : State}
    (hs1 : s1 = s.setDie (dieOf loc) { k with launches := k.launches.map (fun m =>
      if m.lseq = l.lseq then { m with todo := m.todo.put loc r } else m) }) :
    exec (.taskStart loc) s = .next
      (offerLaunches (runLoader (addSaves (taskStart s1 loc t) (partOf loc) (taskSaves t l.pkt)) loc true [])) := by
  have hopen : ¬((s.seqAt loc).status ≠ 0 ∨ (!mayTake s loc) = true ∨ 512 ≤ loc) := by
    rw [not_or, not_or, not_not, mayTake, decide_eq_true hstarts]
    exact ⟨hidle, by decide, Nat.not_le.2 hloc⟩
  subst ht hk hs1
  show execTaskStart loc s = _
  unfold execTaskStart
  dsimp only
  rw [if_neg hopen, hspawned]
  dsimp only
  rw [hl]
  dsimp only
  rw [htodo]
  dsimp only
  rw [hfits, if_neg (by decide)]

/-! ### Records (R329, R345, R377) -/

section
variable {d : Nat} {s : State} {k : Die} (hk : k = s.dieAt d)
include hk

theorem recordDelivery_fatal {r : Rec} {rs : List Rec} (hrec : k.fatal = r :: rs) (hopen : ringOpen k 1 = true) :
    exec (.recordDelivery d true) s = .next (s.setDie d (Die.produced { k with fatal := rs } 1)) := by
  subst hk
  show execRecordDelivery d true s = _
  unfold execRecordDelivery
  dsimp only
  rw [if_pos rfl, hrec]
  exact if_pos hopen

theorem recordDelivery_lane {rs : List Rec} (hfatal : k.fatal = [] ∨ ringOpen k 1 = false) (hopen : ringOpen k 0 = true)
    (hrec : takeRecord (fun r => residentOn s d r.vd) k.lane = some rs) :
    exec (.recordDelivery d false) s = .next (s.setDie d (Die.produced { k with lane := rs } 0)) := by
  have hgo : ¬(((!k.fatal.isEmpty && ringOpen k 1) || !ringOpen k 0) = true) := by
    rw [hopen]
    rcases hfatal with h | h <;> rw [h] <;> simp
  subst hk
  show execRecordDelivery d false s = _
  unfold execRecordDelivery
  dsimp only
  rw [if_neg (by decide), if_neg hgo, hrec]

end

/-- Settles O47: the launch store by what `takeLaunch` makes of it, the task start and the records where nothing holds them back. -/
theorem launchesTasksAndRecordsRun : Obligations.LaunchesTasksAndRecordsRun := by
  unfold Obligations.LaunchesTasksAndRecordsRun
  refine ⟨?launch, ?start, fun d s r rs => recordDelivery_fatal rfl, fun d s rs => recordDelivery_lane rfl⟩
  case launch =>
    intro offset data s hcasts p t code next
    exact ⟨fun h => launchPacket_waits hcasts rfl (takeLaunch_early h),
      fun hready hmal => launchPacket_gone hcasts rfl (takeLaunch_malformed hready hmal) rfl,
      fun hready hoff hlen hbad => launchPacket_gone hcasts rfl (takeLaunch_rejected hready hoff hlen rfl rfl hbad) rfl,
      fun hready hoff hlen hgood =>
        ⟨fun hfull => launchPacket_waits hcasts rfl (takeLaunch_full hready hoff hlen rfl hgood hfull),
          fun hroom => launchPacket_taken hcasts rfl (takeLaunch_placed hready hoff hlen rfl hgood rfl hroom)⟩⟩
  case start =>
    intro loc s l n r q hidle hstarts hloc hspawned hl htodo t hfits k s1
    exact taskStart_starts hidle hstarts hloc hspawned hl htodo rfl hfits rfl rfl

end Sys2Proof.Machine
end

section
/-! Grids (O36): `gdecl`, `gdecl.r`, `gq` and the ghost loads. -/

namespace Sys2Proof.Machine

/-- What a local read delivers is what the bytes hold. -/
theorem localNat_eq {s : State} {a n v : Nat} (h : s.localNat a n = some v) : v = nearNat s s.cur.loc a n := by
  have hread := localNat_ok h
  unfold readLocal at hread
  rw [Act.bind_ok (Act.view_run _ _)] at hread
  dsimp only [id] at hread
  cases hmark : errorMark s ((List.range n).map (fun j => nearPhys s s.cur.loc (a + j))) with
  | some p =>
    rw [hmark] at hread
    cases hread
  | none =>
    rw [hmark] at hread
    cases hread
    rfl

/-! ### `gdecl` (R262, R274) -/

section
variable {g : Guard} {d e : BitVec 5} {gs : BitVec 2} {s : State} {a : Vec} {v : Nat} {x : GridDesc}
  (hm : mayIssue (.gdecl g d gs e) g s = true) (ha : s.regIn ⟨.e, e.toNat⟩ = some a) (halign : a.toNat % 128 = 0)
  (hin : inLocal a.toNat 128 = true) (hv : s.localNat a.toNat 128 = some v) (hdesc : x = BitVec.ofNat 1024 v)

include halign hin in
theorem gdecl_block : (decide (a.toNat % 128 = 0) && inLocal a.toNat 128) = true := by
  rw [decide_eq_true halign, hin]
  rfl

include hm ha halign hin hv hdesc

theorem gdecl_refused (h : s.me.grids.has gs.toNat = true ∨ x.fieldsOk = false) :
    exec (.gdecl g d gs e) s = .next (trapHere s 0x01 0) := by
  subst hdesc
  refine issue_stop (e := .trap 0x01 0) hm ?_
  rw [Act.bind_ok (readNat_ok ha), Act.bind_ok (Act.check_ok (gdecl_block halign hin) _ _ _), Act.bind_ok (localNat_ok hv),
    Act.bind_ok (Act.view_run _ s)]
  refine Act.bind_error (Act.check_stop ?_ _ _ _)
  dsimp only [id]
  rcases h with h | h <;> rw [h]
  · rfl
  · rw [Bool.and_false, Bool.false_and]

end

/-- The grid that a descriptor declares for the party at a place of its party table. -/
def GridDesc.gridAt (x : GridDesc) (table : Nat) (locs : List Nat) (self : Nat) : Grid where
  desc := x
  lo := (List.range 4).map (fun d => x.bound table d ((x.coordOf self).getD d 0))
  hi := (List.range 4).map (fun d => x.bound table d ((x.coordOf self).getD d 0 + 1) - 1)
  parties := locs
  self := self
  step := -1
  tags := []
  known := []
  maps := []
  copy := none

/-- What a descriptor and its tables pass before the party has its grid (R274): the slot is free, the fields, tables and areas are as
they may be, and the party stands once in the party table. -/
structure State.MayDeclare (s : State) (gs : Nat) (x : GridDesc) (table ptab : Nat) (locs : List Nat) (grid : Grid) : Prop where
  free : s.me.grids.has gs = false
  fields : x.fieldsOk = true
  ptabIn : inLocal x.ptab (2 * x.parties) = true
  splitIn : x.split ≠ 0 → inLocal x.split (4 * x.splitBefore (x.ndim + 1)) = true
  splitRead : (if x.split = 0 then some 0 else s.localNat x.split (4 * x.splitBefore (x.ndim + 1))) = some table
  bounds : x.boundsOk table = true
  ptabRead : s.localNat x.ptab (2 * x.parties) = some ptab
  parties : locs = (List.range x.parties).map (fun j => bitsAt ptab (16 * j) 15)
  once : locs.count (fullLoc s s.cur.loc) = 1
  isGrid : grid = x.gridAt table locs (locs.idxOf (fullLoc s s.cur.loc))
  shbaseFits : x.shbaseOk (locs.idxOf (fullLoc s s.cur.loc)) = true
  ibaseIn : inLocal x.ibase (slabCount grid.box * x.es) = true
  gbaseIn : inLocal x.gbase ((x.depth + 1) * x.vsize grid.box) = true
  shbaseIn : inLocal x.shbase ((x.depth + 2) * x.ssize grid.box) = true

namespace State.MayDeclare

variable {s : State} {gs : Nat} {x : GridDesc} {table ptab : Nat} {locs : List Nat} {grid : Grid}
  (h : s.MayDeclare gs x table ptab locs grid)
include h

theorem peek : (List.range x.parties).map (fun j => bitsAt (nearNat s s.cur.loc x.ptab (2 * x.parties)) (16 * j) 15) = locs := by
  rw [h.parties, localNat_eq h.ptabRead]

/-- The first check of R274. -/
theorem first : (!s.me.grids.has gs && x.fieldsOk && (!inLocal x.ptab (2 * x.parties) || !locs.contains (fullLoc s s.cur.loc) ||
    x.shbaseOk (locs.idxOf (fullLoc s s.cur.loc)))) = true := by
  rw [h.free, h.fields, h.shbaseFits, Bool.or_true]
  rfl

theorem split : (x.split == 0 || inLocal x.split (4 * x.splitBefore (x.ndim + 1))) = true := by
  by_cases h0 : x.split = 0
  · rw [h0]
    rfl
  · rw [h.splitIn h0, Bool.or_true]

theorem readsSplit :
    (if x.split = 0 then pure 0 else readLocal x.split (4 * x.splitBefore (x.ndim + 1)) : Act Nat) s = .ok (table, s) := by
  have hread := h.splitRead
  split at hread
  next h0 => rw [if_pos h0, Act.pure_run, Option.some.inj hread]
  next h0 => rw [if_neg h0, localNat_ok hread]

end State.MayDeclare

section
variable {g : Guard} {d e : BitVec 5} {gs : BitVec 2} {s : State} {a : Vec} {v table ptab : Nat} {x : GridDesc} {locs : List Nat}
  {grid : Grid} {maps : List (Nat × MapEntry)}

theorem gdecl_declares (hm : mayIssue (.gdecl g d gs e) g s = true) (ha : s.regIn ⟨.e, e.toNat⟩ = some a)
    (halign : a.toNat % 128 = 0) (hin : inLocal a.toNat 128 = true) (hv : s.localNat a.toNat 128 = some v)
    (hdesc : x = BitVec.ofNat 1024 v) (h : s.MayDeclare gs.toNat x table ptab locs grid)
    (hmaps : maps = (ghostFaces grid).map (fun f => (f, ghostMap grid f)))
    (hghosts : checkGhosts s (coreOf s.cur.loc) s.myVd [] (maps.map (·.2)) = none) :
    exec (.gdecl g d gs e) s = .next (advance
      (if epSlots (coreOf s.cur.loc) < (s.epAt (coreOf s.cur.loc)).maps.length + maps.length then s.wrote (.gdecl g d gs e) 0
      else (installGhosts (coreOf s.cur.loc) s.cur.loc gs.toNat s.myVd maps
        { s.setMe { s.me with grids := s.me.grids.put gs.toNat grid } with
          gone := s.gone.filter (fun p => !(p.of s.myVd grid && p.self == locs.idxOf (fullLoc s s.cur.loc))) }).wrote
        (.gdecl g d gs e) 1)) := by
  have hgrid := h.isGrid
  subst hdesc
  refine issue_next hm ?_
  rw [Act.bind_ok (readNat_ok ha), Act.bind_ok (Act.check_ok (gdecl_block halign hin) _ _ _), Act.bind_ok (localNat_ok hv),
    Act.bind_ok (Act.view_run _ s)]
  dsimp only [id]
  rw [h.peek, Act.bind_ok (Act.check_ok h.first _ _ _), Act.bind_ok (Act.check_ok h.ptabIn _ _ _),
    Act.bind_ok (Act.check_ok h.split _ _ _)]
  refine ((Act.bind_ite _ _ _ s).trans (Act.bind_ok h.readsSplit)).trans ?_
  rw [Act.bind_ok (Act.check_ok h.bounds _ _ _), Act.bind_ok (localNat_ok h.ptabRead), ← h.parties,
    Act.bind_ok (Act.check_ok (beq_iff_eq.2 h.once) _ _ _)]
  subst hgrid
  refine (Act.bind_ok (Act.check_ok h.ibaseIn _ _ _)).trans ((Act.bind_ok (Act.check_ok h.gbaseIn _ _ _)).trans
    ((Act.bind_ok (Act.check_ok h.shbaseIn _ _ _)).trans ?_))
  rw [← GridDesc.gridAt, ← hmaps, hghosts]
  by_cases hfull : epSlots (coreOf s.cur.loc) < (s.epAt (coreOf s.cur.loc)).maps.length + maps.length
  · rw [if_pos hfull, if_pos hfull]
    exact deliverNat_run _ _ _
  · rw [if_neg hfull, if_neg hfull]
    exact (Act.bind_ok (Act.change_run _ _)).trans ((Act.bind_ok (Act.change_run _ _)).trans (deliverNat_run _ _ _))

end

/-! ### `gdecl.r` and `gq` (R275, R278) -/

section
variable {g : Guard} {gs : BitVec 2} {s : State} {h : Grid} (hgrid : s.me.grids.find gs.toNat = some h)
include hgrid

theorem gdeclR_releases (hm : mayIssue (.gdeclR g gs) g s = true) (hpinned : ghostPinned s s.cur.loc (some gs.toNat) = false)
    (hcopy : h.copy = none) {u : State} (hu : u = noteStep (dropGhosts s s.cur.loc (some gs.toNat)) s.myVd h) :
    exec (.gdeclR g gs) s = .next (advance (u.setMe { u.me with grids := u.me.grids.drop gs.toNat })) := by
  subst hu
  refine issue_next hm ?_
  rw [Act.bind_ok (grid_ok hgrid), Act.bind_ok (Act.await_ok (by rw [hpinned, hcopy]; rfl)), Act.change_run]

theorem gq_answers {d n : BitVec 5} (hm : mayIssue (.gq g d gs n) g s = true) :
    exec (.gq g d gs n) s = .next (advance (s.wrote (.gq g d gs n) (BitVec.ofNat 64 (gridQuery h n.toNat)))) :=
  issue_next hm ((Act.bind_ok (grid_ok hgrid)).trans (deliverNat_run _ _ _))

end

/-! ### Ghost loads (R270, R271, R277) -/

section
variable {a b : Opnd} {gs n : Nat} {aligned : Bool} {s : State} {x y : Word} {h : Grid} {step v : Nat}
  (hx : s.opnd a = some x) (hy : s.opnd b = some y) (hgrid : s.me.grids.find gs = some h)
include hx hy hgrid

theorem ghostRead_outside (hface : faceOf h x.toNat n = none) : ghostRead gs a b n aligned s = .error (.trap 0x11 x.toNat) := by
  unfold ghostRead
  rw [Act.bind_ok (State.opnd_ok hx), Act.bind_ok (State.opnd_ok hy), Act.bind_ok (grid_ok hgrid)]
  dsimp only
  rw [hface]
  rfl

section
variable {k : Nat} (hface : faceOf h x.toNat n = some k)
include hface

theorem ghostRead_misaligned (haligned : aligned = true) (hoff : x.toNat % n ≠ 0) :
    ghostRead gs a b n aligned s = .error (.trap 0x11 x.toNat) := by
  unfold ghostRead
  rw [Act.bind_ok (State.opnd_ok hx), Act.bind_ok (State.opnd_ok hy), Act.bind_ok (grid_ok hgrid)]
  dsimp only
  rw [hface]
  exact Act.bind_error (Act.check_stop (by rw [haligned, decide_eq_false hoff]; rfl) _ _ _)

variable (hoff : aligned = true → x.toNat % n = 0) (hstep : step = bitsAt y.toNat 0 31)
  (hv : v = step % (GridDesc.depth h.desc + 1))
include hoff hstep hv

/-- A ghost load that lies in a face goes by the tag of the face in the version of its step. -/
theorem ghostRead_inFace : ghostRead gs a b n aligned s =
    (if (step : Int) < (h.tag v k).tag then Act.trap 0x30 step
    else if (h.tag v k).tag = step ∧ (h.tag v k).full then do
      Act.change (fun s => s.setMe { s.me with halo := none })
      readLocal (GridDesc.gbase h.desc + v * GridDesc.vsize h.desc h.box + x.toNat) n
    else ghostStall gs v k step) s := by
  have hplace : (!aligned || decide (x.toNat % n = 0)) = true := by
    cases aligned with
    | false => rfl
    | true => exact decide_eq_true (hoff rfl)
  subst hv hstep
  unfold ghostRead
  rw [Act.bind_ok (State.opnd_ok hx), Act.bind_ok (State.opnd_ok hy), Act.bind_ok (grid_ok hgrid)]
  dsimp only
  rw [hface]
  exact Act.bind_ok (Act.check_ok hplace _ _ _)

theorem ghostRead_past (hold : (step : Int) < (h.tag v k).tag) : ghostRead gs a b n aligned s = .error (.trap 0x30 step) := by
  rw [ghostRead_inFace hx hy hgrid hface hoff hstep hv, if_pos hold]
  rfl

theorem ghostRead_arrived {z : Nat} (htag : (h.tag v k).tag = step) (hfull : (h.tag v k).full = true)
    (hz : s.localNat (GridDesc.gbase h.desc + v * GridDesc.vsize h.desc h.box + x.toNat) n = some z) :
    ghostRead gs a b n aligned s = .ok (z, s.setMe { s.me with halo := none }) := by
  rw [ghostRead_inFace hx hy hgrid hface hoff hstep hv, if_neg (by rw [htag]; exact lt_irrefl _), if_pos ⟨htag, hfull⟩,
    Act.bind_ok (Act.change_run _ s)]
  exact readLocal_halo hz _

theorem ghostRead_waits (hwait : (h.tag v k).tag < step ∨ (h.tag v k).tag = step ∧ (h.tag v k).full = false) (hhalo : s.me.halo = none) :
    ghostRead gs a b n aligned s = .error (.stallWith (s.setMe { s.me with halo := some ⟨s.now, gs, v, k, step⟩ })) := by
  have hnew : ¬(step : Int) < (h.tag v k).tag := by omega
  have hempty : ¬((h.tag v k).tag = step ∧ (h.tag v k).full = true) := by
    rintro ⟨htag, hfull⟩
    rcases hwait with hless | ⟨-, hpart⟩
    · omega
    · rw [hfull] at hpart
      cases hpart
  rw [ghostRead_inFace hx hy hgrid hface hoff hstep hv, if_neg hnew, if_neg hempty]
  unfold ghostStall
  rw [hhalo]

end

end

/-- An operation that delivers what a ghost load reads is such a load. -/
theorem readsGhost_of_exec {i : Instr} {g : Guard} {a b : Opnd} {gs : BitVec 2} {n : Nat} {aligned : Bool} {f : Nat → Nat}
    (hexec : ∀ s, exec i s = issue i g (ghostRead gs.toNat a b n aligned >>= fun z => deliver i (BitVec.ofNat 512 (f z))) s) :
    ReadsGhost i g a b gs n aligned f := by
  intro s x y h hm hx hy hgrid off step v
  rw [hexec]
  refine ⟨fun hface => issue_stop hm (Act.bind_error (ghostRead_outside hx hy hgrid hface)),
    fun k hface haligned hoff => issue_stop hm (Act.bind_error (ghostRead_misaligned hx hy hgrid hface haligned hoff)),
    fun k hface hoff => ⟨fun hold => issue_stop hm (Act.bind_error (ghostRead_past hx hy hgrid hface hoff rfl rfl hold)), ?_, ?_⟩⟩
  · exact fun z htag hfull hz => issue_next hm
      ((Act.bind_ok (ghostRead_arrived hx hy hgrid hface hoff rfl rfl htag hfull hz)).trans (deliver_run _ _ _))
  · exact fun hwait hhalo => issue_stop (e := .stallWith _) hm
      (Act.bind_error (ghostRead_waits hx hy hgrid hface hoff rfl rfl hwait hhalo))

/-- Settles O36: `gdecl` past its checks with and without free slots, `gdecl.r` and `gq` at the grid of their slot, and ghost loads by
the tag of the face that holds their bytes. -/
theorem gridsAreDeclaredAndRead : Obligations.GridsAreDeclaredAndRead := by
  unfold Obligations.GridsAreDeclaredAndRead
  refine ⟨?declare, fun g gs s h hm hgrid hpinned hcopy => gdeclR_releases hgrid hm hpinned hcopy rfl,
    fun g d gs n s h hm hgrid => gq_answers hgrid hm, fun _ _ _ _ _ _ => readsGhost_of_exec fun _ => rfl,
    fun _ _ _ _ _ => readsGhost_of_exec fun _ => rfl⟩
  intro g d gs e s a v hm ha halign hin hv x
  refine ⟨gdecl_refused hm ha halign hin hv rfl, ?_⟩
  intro table ptab hfree hfields hptabIn n hsplitIn htable hbounds hptab locs honce self c grid hshbase hibase hgbase hshbaseIn maps ep
    hghosts
  exact gdecl_declares hm ha halign hin hv rfl ⟨hfree, hfields, hptabIn, hsplitIn, htable, hbounds, hptab, rfl, honce, rfl, hshbase, hibase,
    hgbase, hshbaseIn⟩ rfl hghosts

end Sys2Proof.Machine
end

section
/-! The steps of a grid (O37): `gstep`, what a party's engine learns of its neighbours, and the halo timeout. -/

namespace Sys2Proof.Machine

/-! ### A stall that keeps its operand (R276) -/
theorem awaitLatched_ok {v : Nat} {ok : State → Bool} {s : State} (h : ok s = true) : awaitLatched v ok s = .ok ((), s) := if_pos h

theorem awaitLatched_stall {v : Nat} {ok : State → Bool} {s : State} (h : ok s = false) :
    awaitLatched v ok s = .error (.stallWith (s.setMe { s.me with latch := some (s.cur.slot.num, s.here, v) })) :=
  if_neg (Bool.eq_false_iff.1 h)

section
variable {g : Guard} {gs : BitVec 2} {a : BitVec 5} {s : State} {x step d : Nat} {h : Grid}
  (hm : mayIssue (.gstep g gs a) (begunGuard (waitBegun s) g) s = true) (hx : s.firstRead ⟨.y, a.toNat⟩ = some x)
  (hgrid : s.me.grids.find gs.toNat = some h) (hstep : step = bitsAt x 0 31) (hd : d = GridDesc.depth h.desc)

/-- What a commit waits for (R268): near neighbours, older shipments gone, the last copy done, and free entries. -/
def State.commitOpen (s : State) (gs step d : Nat) (h : Grid) : Bool :=
  (GridDesc.neighbours h.desc h.self).all (fun n => decide ((step : Int) - 1 - d ≤ h.knows n)) &&
    !s.me.ifr.any (fun e => e.2.kind == 10 && !e.2.halted && e.2.target % 4 == gs && e.2.len + d + 2 == step) &&
    h.copy.isNone && decide (s.me.ifr.length + (sendFaces h).length ≤ Config.ifrEntries)

theorem commitOpen_blocked (hblocked : ¬(∀ n ∈ GridDesc.neighbours h.desc h.self, (step : Int) - 1 - d ≤ h.knows n) ∨ h.copy.isSome = true) :
    s.commitOpen gs.toNat step d h = false := by
  rw [Bool.eq_false_iff]
  intro hopen
  simp only [State.commitOpen, Bool.and_eq_true, List.all_eq_true, decide_eq_true_eq, Option.isNone_iff_eq_none] at hopen
  obtain ⟨⟨⟨hnear, -⟩, hcopy⟩, -⟩ := hopen
  exact hblocked.elim (fun hfar => hfar hnear) (fun hsome => by rw [hcopy] at hsome; cases hsome)

theorem commitOpen_ready (hnear : ∀ n ∈ GridDesc.neighbours h.desc h.self, (step : Int) - 1 - d ≤ h.knows n) (hcopy : h.copy = none)
    (hgone : ∀ e ∈ s.me.ifr, ¬(e.2.kind = 10 ∧ e.2.halted = false ∧ e.2.target % 4 = gs.toNat ∧ e.2.len + d + 2 = step))
    (hroom : s.me.ifr.length + (sendFaces h).length ≤ Config.ifrEntries) : s.commitOpen gs.toNat step d h = true := by
  have hany : s.me.ifr.any (fun e => e.2.kind == 10 && !e.2.halted && e.2.target % 4 == gs.toNat && e.2.len + d + 2 == step) = false :=
    any_false fun e he => by
      rw [Bool.eq_false_iff]
      intro hleft
      simp only [Bool.and_eq_true, beq_iff_eq, Bool.not_eq_true'] at hleft
      obtain ⟨⟨⟨hkind, hhalted⟩, htarget⟩, hlen⟩ := hleft
      exact hgone e he ⟨hkind, hhalted, htarget, hlen⟩
  have hall : (GridDesc.neighbours h.desc h.self).all (fun n => decide ((step : Int) - 1 - d ≤ h.knows n)) = true :=
    List.all_eq_true.2 fun n hn => decide_eq_true (hnear n hn)
  rw [State.commitOpen, hall, hany, hcopy, decide_eq_true hroom]
  rfl

include hm hx hgrid hstep

theorem gstep_misstepped (hbad : x.testBit 31 = true ∨ (step : Int) ≠ h.step + 1) :
    exec (.gstep g gs a) s = .next (trapHere s 0x41 0) := by
  subst hstep
  refine issue_stop (e := .trap 0x41 0) hm ?_
  rw [Act.bind_ok (State.firstRead_ok hx), Act.bind_ok (grid_ok hgrid)]
  refine Act.bind_error (Act.check_stop ?_ _ _ _)
  rcases hbad with hbit | hother
  · rw [hbit]
    rfl
  · rw [decide_eq_false hother, Bool.and_false]

variable (hbit : x.testBit 31 = false) (hnext : (step : Int) = h.step + 1)
include hd hbit hnext

theorem gstep_waits (hopen : s.commitOpen gs.toNat step d h = false) : exec (.gstep g gs a) s = .next
    (stallHere (s.setMe { s.me with latch := some (s.cur.slot.num, s.here, x) })) := by
  subst hstep hd
  refine issue_stop (e := .stallWith _) hm ?_
  rw [Act.bind_ok (State.firstRead_ok hx), Act.bind_ok (grid_ok hgrid)]
  refine (Act.bind_ok (Act.check_ok (by rw [hbit, decide_eq_true hnext]; rfl) _ _ _)).trans ?_
  exact Act.bind_error (awaitLatched_stall hopen)

theorem gstep_commits (hopen : s.commitOpen gs.toNat step d h = true)
    (hmarks : errorMark s ((commitReads h).flatMap (fun p => (List.range (GridDesc.es h.desc)).map (fun j =>
      nearPhys s s.cur.loc (p + j)))) = none) :
    exec (.gstep g gs a) s = .next (advance (commitStep s.cur.loc gs.toNat step s.here (s.scope 0) h
      (s.setMe { s.me with latch := none }))) := by
  subst hstep hd
  refine issue_next hm ?_
  rw [Act.bind_ok (State.firstRead_ok hx), Act.bind_ok (grid_ok hgrid)]
  refine (Act.bind_ok (Act.check_ok (by rw [hbit, decide_eq_true hnext]; rfl) _ _ _)).trans ?_
  refine (Act.bind_ok (awaitLatched_ok hopen)).trans ?_
  rw [Act.bind_ok (Act.view_run _ s)]
  dsimp only [id]
  rw [hmarks]
  rfl

end

/-! ### Notices and the halo timeout (R268, R271) -/

section
variable {loc : Nat} {s : State} {q : Seq} (hq : q = s.seqAt loc)
include hq

theorem neighbourCommitNotice_raises {grid party : Nat} {g : Grid} (hgrid : q.grids.find grid = some g)
    (hparty : party ∈ GridDesc.neighbours g.desc g.self) {old now : Int} (hold : old = g.known.look (-1) party)
    (hnow : now = if g.parties.getD party 0 / 512 = s.module then max old (partyStep s q.task.vd g party) else old + 1) :
    exec (.neighbourCommitNotice loc grid party) s = .next (s.setSeq loc
      { q with grids := q.grids.put grid { g with known := g.known.put party now }, stalled := 0 }) := by
  have hgo : ¬(!(GridDesc.neighbours g.desc g.self).contains party) = true := by
    rw [List.contains_iff_mem.2 hparty]
    decide
  subst hq hnow hold
  show execNeighbourCommitNotice loc grid party s = _
  unfold execNeighbourCommitNotice
  dsimp only
  rw [hgrid]
  exact if_neg hgo

theorem haloTimeout_traps {h : HaloWait} {g : Grid} {limit : Nat} (hlimit : limit = (srAt q 8 (stepOf q .L) q.gridTime).toNat)
    (hhalo : q.halo = some h) (hruns : q.status = 1) (hset : limit ≠ 0) (hlate : h.since + limit ≤ s.now)
    (hgrid : q.grids.find h.grid = some g) (hold : (g.tag h.ver h.face).tag ≤ h.step)
    (hempty : ¬((g.tag h.ver h.face).tag = h.step ∧ (g.tag h.ver h.face).full = true)) :
    exec (.haloTimeout loc) s = .next (takeTrap s loc Slot.L.num (stepOf q .L) 0x31 h.step 0) := by
  have harrived : (decide ((h.step : Int) < (g.tag h.ver h.face).tag) || ((g.tag h.ver h.face).tag == h.step &&
      (g.tag h.ver h.face).full)) = false := by
    rw [decide_eq_false (by omega), Bool.false_or, Bool.eq_false_iff]
    simpa only [ne_eq, Bool.and_eq_true, beq_iff_eq] using hempty
  subst hq hlimit
  show execHaloTimeout loc s = _
  unfold execHaloTimeout
  dsimp only
  rw [hhalo]
  dsimp only
  rw [hgrid]
  refine if_neg ?_
  dsimp only
  rw [harrived]
  rintro (hstopped | hunset | hearly | htrue)
  · exact hstopped hruns
  · exact hset hunset
  · omega
  · cases htrue

end

/-- Settles O37: `gstep` by whether its step is the next one and whether the commit is open; notices and the timeout where their cause is
there. -/
theorem gridStepsCommit : Obligations.GridStepsCommit := by
  unfold Obligations.GridStepsCommit
  refine ⟨?step, fun loc grid party s g hgrid hparty => neighbourCommitNotice_raises rfl hgrid hparty rfl rfl,
    fun loc s h g hhalo hruns hset hlate hgrid hold hempty => haloTimeout_traps rfl rfl hhalo hruns hset hlate hgrid hold hempty⟩
  intro g gs a s x h hm hx hgrid step d near
  exact ⟨gstep_misstepped hm hx hgrid rfl,
    fun hbit hnext hblocked => gstep_waits hm hx hgrid rfl rfl hbit hnext (commitOpen_blocked hblocked),
    fun hbit hnext hnear hcopy hgone hroom => gstep_commits hm hx hgrid rfl rfl hbit hnext (commitOpen_ready hnear hcopy hgone hroom)⟩

end Sys2Proof.Machine
end

section
/-! The operations of traps (O42): `trap`, `eret`, `eret.t`, command 1, what disposing of a trap does, and asynchronous traps. -/

namespace Sys2Proof.Machine

/-! ### `trap`, `eret` and `eret.t` (R350, R351) -/

section
variable {g : Guard} {mode : BitVec 2} {s : State}

section
variable (hm : mayIssue (.eret g mode) g s = true)
include hm

theorem eret_outside (hframe : s.me.frame = none) : exec (.eret g mode) s = .next (trapHere s 0x01 0) := by
  refine congrArg _ (issueFull_stop (e := .trap 0x01 0) hm ?_)
  rw [Act.bind_ok (Act.view_run _ s)]
  exact Act.bind_error (Act.check_stop (by rw [id, hframe]; rfl) _ _ _)

variable (hframe : s.me.frame ≠ none)
include hframe

theorem eret_waits (hdone : handlerDone s = false) : exec (.eret g mode) s = .next (stallHere s) := by
  refine congrArg _ (issueFull_stop (e := .stall) hm ?_)
  rw [Act.bind_ok (Act.view_run _ s)]
  exact (Act.bind_ok (Act.check_ok (Option.isSome_iff_ne_none.2 hframe) _ _ _)).trans (await_stall hdone)

theorem eret_returns (hdone : handlerDone s = true) : exec (.eret g mode) s = .next
    (dispose (leaveHandler (landHandler { s with free := s.free + 1 } s.cur.loc) s.cur.loc) s.cur.loc mode.toNat) := by
  refine congrArg _ (issueFull_next (t := s) hm ?_)
  rw [Act.bind_ok (Act.view_run _ s)]
  exact (Act.bind_ok (Act.check_ok (Option.isSome_iff_ne_none.2 hframe) _ _ _)).trans (Act.await_ok hdone)

end

section
variable {t : BitVec 4} {y : Vec} (hm : mayIssue (.eretT g mode t) g s = true) (hy : s.regIn ⟨.y, t.toNat⟩ = some y)
include hm hy

theorem eretT_nothing (h : ¬(y.toNat < 512 ∧ y.toNat ≠ s.cur.loc ∧ (s.seqAt y.toNat).status = 3 ∧ (s.seqAt y.toNat).delivered = true)) :
    exec (.eretT g mode t) s = .next (trapHere s 0x11 0) := by
  refine issue_stop (e := .trap 0x11 0) hm ?_
  by_cases htarget : y.toNat < 512 ∧ y.toNat ≠ s.cur.loc
  · rw [Act.bind_ok (supervisorTarget_ok hy htarget.1 htarget.2), Act.bind_ok (Act.view_run _ s)]
    refine Act.bind_error (Act.check_stop ?_ _ _ _)
    rw [Bool.eq_false_iff]
    intro hheld
    rw [Bool.and_eq_true, beq_iff_eq] at hheld
    exact h ⟨htarget.1, htarget.2, hheld⟩
  · exact Act.bind_error (supervisorTarget_stop hy htarget)

theorem eretT_disposes (hin : y.toNat < 512) (hother : y.toNat ≠ s.cur.loc) (hfrozen : (s.seqAt y.toNat).status = 3)
    (hdelivered : (s.seqAt y.toNat).delivered = true) : exec (.eretT g mode t) s = .next (advance (dispose s y.toNat mode.toNat)) := by
  refine issue_next hm ?_
  rw [Act.bind_ok (supervisorTarget_ok hy hin hother), Act.bind_ok (Act.view_run _ s)]
  exact Act.bind_ok (Act.check_ok (by rw [id, hfrozen, hdelivered]; rfl) _ _ _)

end

end

/-! ### Command 1 (R344, R376) -/

section
variable {die slot : Nat} {s : State} (hready : s.commandReady die slot 1) {a mode : Nat} (ha : a = s.arg die slot 1)
  (hmode : mode = s.arg die slot 2)
include hready ha hmode

theorem disposeTrap_malformed (h : 2 < mode ∨ 2 ^ 15 ≤ a) : exec (.disposeTrap die slot) s = .next (setStatus (s.taken die) die slot 3) := by
  subst ha hmode
  exact congrArg _ (command_eq hready (by decide) (by decide) _ (r := (s.taken die, some 3)) (if_pos h))

variable (hknown : mode ≤ 2) (hloc : a < 2 ^ 15) {q : Seq} (hq : q = s.seqAt (a % 512))
include hknown hloc hq

theorem disposeTrap_nothing (h : ¬(a / 512 = s.module ∧ q.status = 3 ∧ q.delivered = true)) :
    exec (.disposeTrap die slot) s = .next (setStatus (s.taken die) die slot 2) := by
  subst ha hmode hq
  have hwell : ¬(2 < s.arg die slot 2 ∨ 2 ^ 15 ≤ s.arg die slot 1) := by omega
  refine congrArg _ (command_eq hready (by decide) (by decide) _ (r := (s.taken die, some 2)) ((if_neg hwell).trans (if_pos ?_)))
  by_contra hheld
  simp only [not_or, not_not, Bool.not_eq_true', Bool.not_eq_false, Bool.and_eq_true, beq_iff_eq] at hheld
  exact h hheld

theorem disposeTrap_disposes (hmodule : a / 512 = s.module) (hfrozen : q.status = 3) (hdelivered : q.delivered = true) :
    exec (.disposeTrap die slot) s = .next (setStatus (dispose (s.taken die) (a % 512) mode) die slot 1) := by
  subst ha hmode hq
  have hwell : ¬(2 < s.arg die slot 2 ∨ 2 ^ 15 ≤ s.arg die slot 1) := by omega
  refine congrArg _ (command_eq hready (by decide) (by decide) _
    (r := (dispose (s.taken die) (s.arg die slot 1 % 512) (s.arg die slot 2), some 1)) ((if_neg hwell).trans (if_neg ?_)))
  rintro (hother | hfree)
  · exact hother hmodule
  · simp only [Bool.not_eq_true', Bool.and_eq_false_iff, beq_eq_false_iff_ne] at hfree
    exact hfree.elim (fun hrun => hrun hfrozen) (fun hnone => Bool.false_ne_true (hnone.symm.trans hdelivered))

end

/-! ### Disposing of a trap (R344) -/

/-- Letting a sequencer run reads nothing of the module but that sequencer. -/
theorem release_own (t : State) (loc : Nat) : release (t.setSeq loc (t.seqAt loc)) loc = release t loc := by
  unfold release
  dsimp only
  rw [State.setSeq_seqAt_eq, State.setSeq_setSeq]
  rfl

section
variable {s : State} {loc : Nat} (hload : (s.seqAt loc).load = none)
include hload

theorem dispose_retry : dispose s loc 0 = release (settleEntries s loc true) loc := by
  unfold dispose
  dsimp only
  rw [hload]
  exact release_own _ _

theorem dispose_end : dispose s loc 2 = endTask (settleEntries s loc false) loc := by
  unfold dispose
  dsimp only
  rw [hload]
  rfl

theorem dispose_skip (hslot : bitsAt (s.seqAt loc).record.toNat 12 4 ≠ 15) {t : State} (ht : t = settleEntries s loc false) :
    dispose s loc 1 = release (t.setSeq loc { t.seqAt loc with
      skips := (bitsAt (s.seqAt loc).record.toNat 12 4, bitsAt (s.seqAt loc).record.toNat 128 64) :: (t.seqAt loc).skips }) loc := by
  subst ht
  unfold dispose
  dsimp only
  rw [hload]
  dsimp only
  rw [if_neg (by decide), if_pos ⟨rfl, hslot⟩]
  rfl

end

/-! ### Asynchronous traps (R336, R348) -/

section
variable {s : State} {loc code info aux : Nat} {d : Nat × Nat × Nat × TrapCause}
  (hdue : (asyncDue s loc).find? (fun d => d.1 == code && d.2.1 == info && d.2.2.1 == aux) = some d)
  (hruns : (s.seqAt loc).status = 1)
include hdue hruns

theorem asynchronousTrap_ring {n : Nat} (hcause : d.2.2.2 = .ring n) : exec (.asynchronousTrap loc code info aux) s = .next
    (asyncTrap (s.setSeq loc (discardOn (s.seqAt loc) n)) loc code info aux) := by
  obtain ⟨_, _, _, cause⟩ := d
  subst hcause
  show execAsynchronousTrap loc code info aux s = _
  unfold execAsynchronousTrap
  rw [hdue]
  exact if_pos hruns

theorem asynchronousTrap_own {n : Nat} (hcause : d.2.2.2 = .own n) : exec (.asynchronousTrap loc code info aux) s = .next
    (asyncTrap (s.setSeq loc { s.seqAt loc with errs := (s.seqAt loc).errs.erase (none, n) }) loc code info aux) := by
  obtain ⟨_, _, _, cause⟩ := d
  subst hcause
  show execAsynchronousTrap loc code info aux s = _
  unfold execAsynchronousTrap
  rw [hdue]
  exact if_pos hruns

theorem asynchronousTrap_entry {k : Nat} {e : Ifr} (hcause : d.2.2.2 = .entry k) (he : (s.seqAt loc).ifr.find k = some e) :
    exec (.asynchronousTrap loc code info aux) s = .next (asyncTrap (putEntry s loc k { e with fault := 2 }) loc code info aux) := by
  obtain ⟨_, _, _, cause⟩ := d
  subst hcause
  show execAsynchronousTrap loc code info aux s = _
  unfold execAsynchronousTrap
  rw [hdue]
  dsimp only
  rw [he]
  exact if_pos hruns

end

/-- Settles O42: the operations and the command by what their target holds, the three ways to dispose of a trap, and the causes of an
asynchronous one. -/
theorem trapInstructionsAndDisposal : Obligations.TrapInstructionsAndDisposal := by
  unfold Obligations.TrapInstructionsAndDisposal
  refine ⟨fun g imm s hm => issue_stop (e := .trap 0x60 imm.toNat) hm rfl, fun g mode s hm => ⟨eret_outside hm, eret_waits hm, eret_returns hm⟩,
    ?other, ?command, fun s loc hload => ⟨dispose_retry hload, dispose_end hload, fun hslot => dispose_skip hload hslot rfl⟩,
    fun s loc code info aux d hdue hruns => ⟨fun n => asynchronousTrap_ring hdue hruns, fun n => asynchronousTrap_own hdue hruns,
      fun k e => asynchronousTrap_entry hdue hruns⟩⟩
  case other =>
    intro g mode t s y hm hy q there
    exact ⟨eretT_nothing hm hy, fun ⟨hin, hother, hfrozen, hdelivered⟩ => eretT_disposes hm hy hin hother hfrozen hdelivered⟩
  case command =>
    intro die slot s hready a mode q
    exact ⟨disposeTrap_malformed hready rfl rfl, fun hknown hloc => disposeTrap_nothing hready rfl rfl hknown hloc rfl,
      fun hknown hloc => disposeTrap_disposes hready rfl rfl hknown hloc rfl⟩

end Sys2Proof.Machine
end

section
/-! Contexts (O43): `ctxsave`, `ctxload` and `pimg` on another sequencer of the module. -/

namespace Sys2Proof.Machine

/-! ### The operands of a context operation (R346, R352) -/

/-- The operands of a context operation as one number: the target and 512 times the address. -/
theorem operands_target {loc va : Nat} (h : loc < 512) : (loc + 512 * va) % 512 = loc ∧ (loc + 512 * va) / 512 = va := by omega

section
variable {t a : BitVec 4} {write : Bool} {s : State} {y x : Vec} (hnew : waitBegun s = false) (hy : s.regIn ⟨.y, t.toNat⟩ = some y)
include hnew hy

theorem contextOperands_target (htarget : ¬s.otherSeq y.toNat) : contextOperands t a write s = .error (.trap 0x11 0) := by
  unfold contextOperands
  rw [latched_fresh hnew]
  exact Act.bind_error (supervisorTarget_stop hy htarget)

variable (htarget : s.otherSeq y.toNat) (hx : s.regIn ⟨.y, a.toNat⟩ = some x)
include htarget hx

theorem contextOperands_addr (haddr : ¬(x.toNat % 4096 = 0 ∧ windowOf x.toNat 0x20000 = some 13)) :
    contextOperands t a write s = .error (.trap 0x11 x.toNat) := by
  unfold contextOperands
  rw [latched_fresh hnew, Act.bind_ok (supervisorTarget_ok hy htarget.1 htarget.2), Act.bind_ok (readNat_ok hx)]
  exact Act.bind_error (contextAddr_stop hx haddr)

theorem contextOperands_read {pages : List Nat} (haddr : x.toNat % 4096 = 0 ∧ windowOf x.toNat 0x20000 = some 13)
    (hpages : s.pages x.toNat write = some pages) : contextOperands t a write s = .ok (y.toNat + 512 * x.toNat, s) := by
  unfold contextOperands
  rw [latched_fresh hnew, Act.bind_ok (supervisorTarget_ok hy htarget.1 htarget.2), Act.bind_ok (readNat_ok hx),
    Act.bind_ok (contextAddr_ok hx haddr hpages), Act.pure_run]

end

section
variable {loc va : Nat} {load : Bool} {f : State → State} {s : State}

theorem beginContext_waits (hloc : loc < 512) (hbusy : engineFree s loc = false) :
    beginContext (loc + 512 * va) load f s = .error .stall := by
  refine Act.bind_error (await_stall ?_)
  rw [(operands_target hloc).1, hbusy]

theorem beginContext_starts (hloc : loc < 512) (hfree : engineFree s loc = true) {u : State} (hu : u = f s) :
    beginContext (loc + 512 * va) load f s = .error (.stallWith (startJob
      (u.setMe { u.me with latch := some (u.cur.slot.num, u.here, loc + 512 * va) }) (contextJob u loc va load))) := by
  subst hu
  refine (Act.bind_ok (Act.await_ok ?_)).trans ?_
  · rw [(operands_target hloc).1, hfree]
  · unfold Act.hold
    rw [(operands_target hloc).1, (operands_target hloc).2]

end

/-- An operation whose wait has not begun goes by its own guard, one whose wait has begun by none. -/
theorem begunGuard_fresh {s : State} (h : waitBegun s = false) (g : Guard) : begunGuard (waitBegun s) g = g := by rw [h]; rfl

theorem begunGuard_begun {s : State} (h : waitBegun s = true) (g : Guard) : begunGuard (waitBegun s) g = ⟨15, false⟩ := by rw [h]; rfl

/-! ### `ctxsave` (R352, R362) -/

section
variable {g : Guard} {t a : BitVec 4} {s : State}

section
variable (hnew : waitBegun s = false) (hm : mayIssue (.ctxsave g t a) g s = true)
include hnew hm

theorem ctxsave_stops {e : Stop} (h : contextOperands t a true s = .error e) : exec (.ctxsave g t a) s = .next (stopHere s e) := by
  show issue (.ctxsave g t a) (begunGuard (waitBegun s) g) _ s = _
  rw [begunGuard_fresh hnew]
  exact issue_stop hm (Act.bind_error h)

theorem ctxsave_begins {v : Nat} (h : contextOperands t a true s = .ok (v, s)) {e : Stop}
    (hbegin : beginContext v false (fun s => freezeNow s (v % 512)) s = .error e) : exec (.ctxsave g t a) s = .next (stopHere s e) := by
  show issue (.ctxsave g t a) (begunGuard (waitBegun s) g) _ s = _
  rw [begunGuard_fresh hnew]
  refine issue_stop hm ?_
  rw [Act.bind_ok h, Act.bind_ok (Act.view_run _ s)]
  exact (congrFun (if_pos (by rw [id, hnew]; rfl)) s).trans hbegin

end

section
variable {v : Nat} (hlatch : s.me.latch = some (s.cur.slot.num, s.here, v)) (hm : mayIssue (.ctxsave g t a) ⟨15, false⟩ s = true)
include hlatch hm

/-- A `ctxsave` that has begun waits for the engine. -/
theorem ctxsave_again : exec (.ctxsave g t a) s = issue (.ctxsave g t a) ⟨15, false⟩ (do
    Act.await (fun s => !engineMine s (v % 512))
    Act.change (fun s => s.setMe { s.me with latch := none })) s := by
  show issue (.ctxsave g t a) (begunGuard (waitBegun s) g) _ s = _
  rw [begunGuard_begun (waitBegun_latched hlatch)]
  refine issue_congr ?_ hm
  unfold contextOperands
  rw [Act.bind_ok (latched_begun hlatch), Act.bind_ok (Act.view_run _ s)]
  exact congrFun (if_neg (by rw [id, waitBegun_latched hlatch]; decide)) s

theorem ctxsave_waits (hmine : engineMine s (v % 512) = true) : exec (.ctxsave g t a) s = .next (stallHere s) := by
  rw [ctxsave_again hlatch hm]
  exact issue_stop hm (Act.bind_error (await_stall (by rw [hmine]; rfl)))

theorem ctxsave_ends (hmine : engineMine s (v % 512) = false) :
    exec (.ctxsave g t a) s = .next (advance (s.setMe { s.me with latch := none })) := by
  rw [ctxsave_again hlatch hm]
  exact issue_next hm (Act.bind_ok (Act.await_ok (by rw [hmine]; rfl)))

end

end

/-! ### `ctxload` (R352, R364) -/

/-- The module once a checked context is in, and with GO runs again (R352, R361). -/
def State.broughtIn (u : State) (loc : Nat) (c : Saved) (go : Bool) : State :=
  let w := loadContext u loc c
  if !go then w else if c.state = 2 then dispose (resume w loc) loc 0 else resume w loc

section
variable {g : Guard} {t a : BitVec 4} {go : Bool} {s : State}

section
variable (hnew : waitBegun s = false) (hm : mayIssue (.ctxload g t a go) g s = true)
include hnew hm

theorem ctxload_stops {e : Stop} (h : contextOperands t a false s = .error e) : exec (.ctxload g t a go) s = .next (stopHere s e) := by
  show issue (.ctxload g t a go) (begunGuard (waitBegun s) g) _ s = _
  rw [begunGuard_fresh hnew]
  exact issue_stop hm (Act.bind_error h)

section
variable {loc va : Nat} (hloc : loc < 512) (hv : contextOperands t a false s = .ok (loc + 512 * va, s))
include hloc hv

/-- A `ctxload` that has read its operands looks at its target, and begins. -/
theorem ctxload_begins {e : Stop} (hbegin : (do
    Act.check ((s.seqAt loc).status == 0) 0x40 (fullLoc s loc)
    Act.await (fun s => (s.seqAt loc).ifr.isEmpty)
    beginContext (loc + 512 * va) true id : Act Unit) s = .error e) : exec (.ctxload g t a go) s = .next (stopHere s e) := by
  show issue (.ctxload g t a go) (begunGuard (waitBegun s) g) _ s = _
  rw [begunGuard_fresh hnew]
  refine issue_stop hm ?_
  rw [Act.bind_ok hv]
  dsimp only
  rw [(operands_target hloc).1, Act.bind_ok (Act.view_run _ s)]
  exact (congrFun (if_pos (by rw [id, hnew]; rfl)) s).trans hbegin

theorem ctxload_occupied (hbusy : (s.seqAt loc).status ≠ 0) : exec (.ctxload g t a go) s = .next (trapHere s 0x40 (fullLoc s loc)) :=
  ctxload_begins hnew hm hloc hv (e := .trap 0x40 (fullLoc s loc))
    (Act.bind_error (Act.check_stop (beq_eq_false_iff_ne.2 hbusy) _ _ _))

variable (hidle : (s.seqAt loc).status = 0)
include hidle

theorem ctxload_delayed (h : (s.seqAt loc).ifr ≠ [] ∨ engineFree s loc = false) : exec (.ctxload g t a go) s = .next (stallHere s) := by
  refine ctxload_begins hnew hm hloc hv (e := .stall) ((Act.bind_ok (Act.check_ok (beq_iff_eq.2 hidle) _ _ _)).trans ?_)
  by_cases hempty : (s.seqAt loc).ifr = []
  · exact (Act.bind_ok (Act.await_ok (List.isEmpty_iff.2 hempty))).trans
      (beginContext_waits hloc (h.resolve_left (not_not.2 hempty)))
  · exact Act.bind_error (await_stall (Bool.eq_false_iff.2 fun h => hempty (List.isEmpty_iff.1 h)))

theorem ctxload_starts (hempty : (s.seqAt loc).ifr = []) (hfree : engineFree s loc = true) :
    exec (.ctxload g t a go) s = .next (stallHere (startJob
      (s.setMe { s.me with latch := some (s.cur.slot.num, s.here, loc + 512 * va) }) (contextJob s loc va true))) :=
  ctxload_begins hnew hm hloc hv (e := .stallWith _) ((Act.bind_ok (Act.check_ok (beq_iff_eq.2 hidle) _ _ _)).trans
    ((Act.bind_ok (Act.await_ok (List.isEmpty_iff.2 hempty))).trans (beginContext_starts hloc hfree rfl)))

end

end

section
variable {v : Nat} (hlatch : s.me.latch = some (s.cur.slot.num, s.here, v)) (hm : mayIssue (.ctxload g t a go) ⟨15, false⟩ s = true)
include hlatch hm

theorem ctxload_waits (hmine : engineMine s (v % 512) = true) : exec (.ctxload g t a go) s = .next (stallHere s) := by
  show issue (.ctxload g t a go) (begunGuard (waitBegun s) g) _ s = _
  rw [begunGuard_begun (waitBegun_latched hlatch)]
  refine issue_stop (e := .stall) hm ?_
  unfold contextOperands
  rw [Act.bind_ok (latched_begun hlatch)]
  refine (congrFun (if_neg (by rw [id, waitBegun_latched hlatch]; decide)) s).trans ?_
  exact Act.bind_error (await_stall (by rw [hmine]; rfl))

variable (hmine : engineMine s (v % 512) = false) {u : State} (hu : u = s.setMe { s.me with latch := none }) {vd : Nat}
  (hresident : (u.quadAt (partOf (v % 512))).resident = some vd)
include hmine hu hresident

/-- Once the engine has read, a `ctxload` goes by what it has read. -/
theorem ctxload_goes : exec (.ctxload g t a go) s = issue (.ctxload g t a go) ⟨15, false⟩ (fun _ =>
    match contextOk u (v % 512) vd u.myVd (v / 512) ownBytes with
    | none => .error (.trapWith u 0x11 0)
    | some c => .ok ((), u.broughtIn (v % 512) c go)) s := by
  subst hu
  show issue (.ctxload g t a go) (begunGuard (waitBegun s) g) _ s = _
  rw [begunGuard_begun (waitBegun_latched hlatch)]
  refine issue_congr ?_ hm
  unfold contextOperands
  rw [Act.bind_ok (latched_begun hlatch)]
  refine (congrFun (if_neg (by rw [id, waitBegun_latched hlatch]; decide)) s).trans ?_
  refine (Act.bind_ok (Act.await_ok (by rw [hmine]; rfl))).trans ?_
  rw [Act.bind_ok (Act.change_run _ s), Act.bind_ok (Act.view_run _ _)]
  dsimp only [id]
  rw [hresident]
  dsimp only
  cases contextOk (s.setMe { s.me with latch := none }) (v % 512) vd (s.setMe { s.me with latch := none }).myVd (v / 512) ownBytes <;> rfl

theorem ctxload_refuses (hok : contextOk u (v % 512) vd u.myVd (v / 512) ownBytes = none) :
    exec (.ctxload g t a go) s = .next (trapHere u 0x11 0) := by
  rw [ctxload_goes hlatch hm hmine hu hresident]
  refine issue_stop (e := .trapWith u 0x11 0) hm ?_
  rw [hok]

theorem ctxload_bringsIn {c : Saved} (hok : contextOk u (v % 512) vd u.myVd (v / 512) ownBytes = some c) :
    exec (.ctxload g t a go) s = .next (advance (u.broughtIn (v % 512) c go)) := by
  rw [ctxload_goes hlatch hm hmine hu hresident]
  refine issue_next hm ?_
  rw [hok]

end

end

/-! ### `pimg` (R353) -/

section
variable {g : Guard} {t a : BitVec 4} {s : State} {y x : Vec} (hm : mayIssue (.pimg g t a) g s = true)
  (hy : s.regIn ⟨.y, t.toNat⟩ = some y)
include hm hy

theorem pimg_target (htarget : ¬s.otherSeq y.toNat) : exec (.pimg g t a) s = .next (trapHere s 0x11 0) :=
  issue_stop (e := .trap 0x11 0) hm (Act.bind_error (supervisorTarget_stop hy htarget))

variable (hx : s.regIn ⟨.y, a.toNat⟩ = some x) (htarget : s.otherSeq y.toNat)
include hx htarget

theorem pimg_running (hruns : (s.seqAt y.toNat).status ≠ 3) : exec (.pimg g t a) s = .next (trapHere s 0x11 0) := by
  refine issue_stop (e := .trap 0x11 0) hm ?_
  rw [Act.bind_ok (supervisorTarget_ok hy htarget.1 htarget.2), Act.bind_ok (readNat_ok hx), Act.bind_ok (Act.view_run _ s)]
  exact Act.bind_error (Act.check_stop (beq_eq_false_iff_ne.2 hruns) _ _ _)

variable (hfrozen : (s.seqAt y.toNat).status = 3) {b : List Byte} (hb : b = pimgBytes (s.seqAt y.toNat))
include hfrozen hb

theorem pimg_misplaced (haddr : ¬(x.toNat % 64 = 0 ∧ x.toNat + b.length ≤ Config.localBytes)) :
    exec (.pimg g t a) s = .next (trapHere s 0x11 x.toNat) := by
  subst hb
  refine issue_stop (e := .trap 0x11 x.toNat) hm ?_
  rw [Act.bind_ok (supervisorTarget_ok hy htarget.1 htarget.2), Act.bind_ok (readNat_ok hx), Act.bind_ok (Act.view_run _ s)]
  refine (Act.bind_ok (Act.check_ok (beq_iff_eq.2 hfrozen) _ _ _)).trans (Act.bind_error (Act.check_stop ?_ _ _ _))
  rwa [Bool.eq_false_iff, ne_eq, Bool.and_eq_true, beq_iff_eq, decide_eq_true_eq]

theorem pimg_writes (halign : x.toNat % 64 = 0) (hin : x.toNat + b.length ≤ Config.localBytes) {at0 : Nat}
    (hat : at0 = localPhys s (coreOf s.cur.loc) x.toNat) : exec (.pimg g t a) s = .next (advance
      (clearMarks (s.setMem (s.mem.storeAll at0 b)) ((List.range b.length).map (at0 + ·)))) := by
  subst hb hat
  refine issue_next hm ?_
  rw [Act.bind_ok (supervisorTarget_ok hy htarget.1 htarget.2), Act.bind_ok (readNat_ok hx), Act.bind_ok (Act.view_run _ s)]
  refine (Act.bind_ok (Act.check_ok (beq_iff_eq.2 hfrozen) _ _ _)).trans ((Act.bind_ok (Act.check_ok ?_ _ _ _)).trans
    (Act.change_run _ s))
  rw [halign, Bool.and_eq_true]
  exact ⟨rfl, decide_eq_true hin⟩

end

/-- Settles O43: each operation by its operands at the first attempt, and by the engine once its wait has begun. -/
theorem contextsAreSavedLoadedAndImaged : Obligations.ContextsAreSavedLoadedAndImaged := by
  unfold Obligations.ContextsAreSavedLoadedAndImaged
  refine ⟨?save, fun g t a s v hlatch hm => ⟨ctxsave_waits hlatch hm, ctxsave_ends hlatch hm⟩, ?load, ?loaded, ?image⟩
  case save =>
    intro g t a s y x hnew hm hy hx loc addrOk
    refine ⟨fun htarget => ctxsave_stops hnew hm (contextOperands_target hnew hy htarget),
      fun htarget haddr => ctxsave_stops hnew hm (contextOperands_addr hnew hy htarget hx haddr), fun pages htarget haddr hpages => ?_⟩
    have hv := contextOperands_read hnew hy htarget hx haddr hpages
    refine ⟨fun hbusy => ctxsave_begins hnew hm hv (beginContext_waits htarget.1 hbusy), fun hfree =>
      ctxsave_begins hnew hm hv (e := .stallWith _) (beginContext_starts htarget.1 hfree ?_)⟩
    rw [(operands_target htarget.1).1]
  case load =>
    intro g t a go s y x hnew hm hy hx loc addrOk
    refine ⟨fun htarget => ctxload_stops hnew hm (contextOperands_target hnew hy htarget),
      fun htarget haddr => ctxload_stops hnew hm (contextOperands_addr hnew hy htarget hx haddr), fun pages htarget haddr hpages => ?_⟩
    have hv := contextOperands_read hnew hy htarget hx haddr hpages
    exact ⟨ctxload_occupied hnew hm htarget.1 hv, ctxload_delayed hnew hm htarget.1 hv, ctxload_starts hnew hm htarget.1 hv⟩
  case loaded =>
    intro g t a go s v hlatch hm loc u
    refine ⟨ctxload_waits hlatch hm, fun vd hmine hresident => ⟨ctxload_refuses hlatch hm hmine rfl hresident, fun c hok => ?_⟩⟩
    have hin := ctxload_bringsIn hlatch hm hmine rfl hresident hok
    refine ⟨fun hstay => hin.trans ?_, fun hgo => hin.trans ?_⟩
    · rw [hstay]
      rfl
    · rw [hgo]
      rfl
  case image =>
    intro g t a s y x hm hy hx loc b at0
    exact ⟨pimg_target hm hy, fun htarget => pimg_running hm hy hx htarget, fun htarget hfrozen => pimg_misplaced hm hy hx htarget hfrozen rfl,
      fun htarget hfrozen halign hin => pimg_writes hm hy hx htarget hfrozen rfl halign hin rfl⟩

end Sys2Proof.Machine
end

section
/-! The words that the manual writes out (O53). -/

namespace Sys2Proof.Machine

/-- Settles O53: each word is decoded as the decoder computes it. -/
theorem decodesSpecWords : Obligations.DecodesSpecWords := by
  unfold Obligations.DecodesSpecWords
  and_intros <;> rfl

end Sys2Proof.Machine
end

section
/-! The values of reset (O56): registers and system registers of a location, stores and counts. -/

namespace Sys2Proof.Machine

/-! ### Registers -/

/-- Every register of a location reads zero after reset but p15, the constant one (R21, R384). -/
theorem regBase_reset (loc : Nat) (r : Reg) : regBase State.reset loc r = if r = ⟨.p, 15⟩ then 1 else 0 := by
  obtain ⟨file, idx⟩ := r
  cases file with
  | p =>
    by_cases h : idx = 15
    · subst h
      rfl
    · rw [if_neg (fun he => h (congrArg Reg.idx he))]
      refine (if_neg h).trans ?_
      show BitVec.ofNat 512 (bit (BitVec.getLsbD 0#16 idx)) = 0
      rw [BitVec.getLsbD_zero]
      rfl
  | s =>
    rw [if_neg (fun he => File.noConfusion (congrArg Reg.file he))]
    show (if idx = 0 then 0 else BitVec.setWidth 512 0#64) = (0 : Vec)
    rw [BitVec.setWidth_zero]
    exact ite_self _
  | k0 | k1 | m | b | w | e | y =>
    rw [if_neg (fun he => File.noConfusion (congrArg Reg.file he))]
    exact BitVec.setWidth_zero _ _
  | v0 | v1 | t | c =>
    rw [if_neg (fun he => File.noConfusion (congrArg Reg.file he))]
    rfl

/-! ### System registers (Table 26.4) -/

/-- The dwords of TRAP.REC. -/
theorem sysRead_trapRec {s : State} {n : Nat} (h0 : 0x010 ≤ n) (h1 : n ≤ 0x017) :
    sysRead s n = bitsAt s.me.trapRec.toNat (64 * (n - 0x010)) 64 := by
  unfold sysRead
  dsimp only
  iterate 10 rw [if_neg (by omega)]
  exact if_pos ⟨h0, h1⟩

section
variable (loc : Nat)

/-- The module of reset with a location's S slot at work, as `rdsr` reads it. -/
def State.resetAt (loc : Nat) : State := { State.reset with cur := ⟨loc, .S⟩ }

/-- No operation draws random bits under the rounding mode of reset (R113, R115). -/
theorem drawsAt_reset (j : Nat) : drawsAt (State.resetAt loc) loc j = fun _ => 0 := by
  funext y
  have hsteps : ¬j < stepOf ((State.resetAt loc).seqAt loc) y := Nat.not_lt_zero j
  have hmode : rmodeAt ((State.resetAt loc).seqAt loc) j ≠ 4 := by
    show bitsAt convReset.toNat 0 3 ≠ 4
    decide
  unfold drawsAt
  dsimp only
  rw [if_neg hsteps, if_pos hmode]

/-- The generator stands at its first seed (R112, R115). -/
theorem genAt_reset : genAt (State.resetAt loc) loc 0 .S = 1 := by
  have hseed : bitsAt (convAt ((State.resetAt loc).seqAt loc) 0).toNat 32 32 = 1 := by
    show bitsAt convReset.toNat 32 32 = 1
    decide
  unfold genAt
  simp only [drawsAt_reset, List.map_const', List.sum_replicate, smul_zero, add_zero, mul_zero, hseed]
  rfl

theorem sysRead_reset_loc : sysRead (State.resetAt loc) 0x001 = loc := by
  show 0 * 512 + loc = loc
  omega

theorem sysRead_reset_conv : sysRead (State.resetAt loc) 0x003 = 0x0000000100000000 := by
  show Nat.lor (convReset.toNat % 2 ^ 32) 0 + genAt (State.resetAt loc) loc 0 .S * 2 ^ 32 = _
  rw [genAt_reset]
  rfl

/-- No register of reset awaits a reply. -/
theorem markWaits_reset (r : Reg) : markWaits (State.resetAt loc) loc r = false := by
  unfold markWaits
  split <;> rfl

theorem sysRead_reset_info : sysRead (State.resetAt loc) 0x005 = 0 := by
  show replayInfoNow (State.resetAt loc) loc = 0
  unfold replayInfoNow
  dsimp only
  rw [markWaits_reset]
  rfl

theorem sysRead_reset_record (i : Nat) (hi : i < 8) : sysRead (State.resetAt loc) (0x010 + i) = 0 := by
  rw [sysRead_trapRec (by omega) (by omega)]
  show bitsAt (0#512).toNat _ 64 = 0
  rw [bitsAt, BitVec.toNat_zero, Nat.zero_div, Nat.zero_mod]

theorem sysRead_reset_perf (i : Nat) (hi : i < 8) :
    sysRead (State.resetAt loc) (0x110 + i) = 0 ∧ sysRead (State.resetAt loc) (0x118 + i) = 0 := by
  interval_cases i <;> exact ⟨rfl, rfl⟩

end

/-- Settles O56: what the tables of the reset state, all empty but for device 0, read as. -/
theorem resetLeavesTheStatedValues : Obligations.ResetLeavesTheStatedValues := by
  unfold Obligations.ResetLeavesTheStatedValues
  refine ⟨rfl, fun _ => rfl, rfl, rfl, rfl, rfl, rfl, rfl, regBase_reset, fun _ => ⟨rfl, rfl, rfl, rfl, rfl, rfl, rfl, rfl, rfl⟩, fun loc => ?sys,
    fun _ _ => ⟨rfl, rfl, rfl, rfl, rfl⟩, fun _ _ => ⟨rfl, rfl⟩, fun _ _ => rfl, fun _ => ⟨rfl, rfl⟩, fun _ => ⟨rfl, rfl⟩⟩
  exact ⟨rfl, sysRead_reset_loc loc, sysRead_reset_conv loc, rfl, sysRead_reset_info loc, rfl, rfl, rfl, rfl, sysRead_reset_record loc, rfl, rfl,
    rfl, rfl, rfl, rfl, rfl, sysRead_reset_perf loc, rfl⟩

end Sys2Proof.Machine
end
